-- ==== Sys2Proof/Word.lean ====
section
/-! DEFINITION. The word types of the RAL-8M model: bytes, 64-bit words, and the index types of dies, tiles, links and
the other fixed collections of the module. -/

namespace Sys2Proof

/-- One byte. -/
abbrev Byte := BitVec 8
/-- A byte string, lowest address first (R12). -/
abbrev Bytes := List Byte
/-- A 64-bit word of a newt register or a device register. -/
abbrev W64 := BitVec 64
/-- A 32-bit word. -/
abbrev W32 := BitVec 32
/-- A status code (R17). -/
abbrev Status := BitVec 16
/-- A compute die, CD0 to CD7. -/
abbrev Die := Fin 8
/-- A physical tile identifier (R318): die, row, column. -/
abbrev TileId := BitVec 10
/-- A partition number (R739). -/
abbrev PartId := Fin 16
/-- A torus link (R467). -/
abbrev LinkId := Fin 36
/-- A PCI Express function: 0 the PF, 1 to 16 the VFs (R687). -/
abbrev FnId := Fin 17
/-- An ingest pipeline (R626). -/
abbrev PipeId := Fin 32
/-- A video engine pair (R655). -/
abbrev PairId := Fin 16
/-- A sparse table: the entries that differ from the table's default, keys strictly rising. -/
abbrev Tbl (α : Type) := List (Nat × α)

end Sys2Proof
end

