-- ==== Sys2Proof/Syntax.lean ====
section
/-! DEFINITION. The commands of the RAL-8M: `Instr` has one constructor for every row of the table of operations and
events, with what the row's sender or the environment supplies as operands. -/

namespace Sys2Proof

/-- The clocked island instances of R39. -/
inductive Island where
  | t1c (s : Fin 8) | t2c (c : Fin 16) | lnk (l : LinkId) | host | boot | tel | kom (d : Die)
  deriving DecidableEq, Repr

/-- The tier controllers: eight of tier 1, sixteen of tier 2. -/
inductive TierCtl where
  | t1 (s : Fin 8) | t2 (c : Fin 16)
  deriving DecidableEq, Repr

/-- What crosses between the two kinds of logic (R40): a value entered into a dual-clock queue, the oldest value reaching
the other side, an event whose round trip ends. `toIsland` is true from the self-timed side into the island. -/
inductive CrossItem where
  | value (toIsland : Bool) (v : Bytes)
  | deliver (toIsland : Bool)
  | event (toIsland : Bool)
  deriving DecidableEq, Repr

/-- Where a stop request stands (R47): asked and not yet decided; decided without a wake, against a wake that wins the
arbiter, against one that loses it. -/
inductive WakeMeet where
  | asked | noWake | wakeWins | stopWins
  deriving DecidableEq, Repr

/-- A shared resource of the blocking table (R57). -/
inductive Resource where
  | strataBank (t : TileId) (stratum : Fin 4)
  | fillPort (t : TileId)
  | meshLink (d : Die) (n : Nat)
  | bridge (d : Die) (n : Nat)
  | codecLane (d : Die) (inst : Fin 4) (lane : Fin 16)
  | t1Channel (s : Fin 8) (pc : Fin 64)
  | t2Channel (c : Fin 16) (sub : Fin 4)
  | linkEgress (l : LinkId)
  | hostDma
  | collSequencer (d : Die)
  | videoPair (p : PairId)
  | komodo (d : Die)
  deriving DecidableEq, Repr

/-- Where a request comes from (R51, R379): fault handling, a command, VC0 traffic, a partition's work (its steps, video
streams, ingest and collectives), background work (scrub, drain, prefetch, fill, locket writes, write-back, reclaim), a
write-combining entry of a tier unit. -/
inductive ReqOrigin where
  | fault | command | vc0
  | step (p : PartId)
  | background
  | combined (unit : Nat)
  deriving DecidableEq, Repr

/-- A request at an arbiter: its source and that source's number for it, where it comes from, whether it writes (R378), the
device addresses that it reaches (R368, R377), and whether it came before the transfer in progress began to deliver (R220). -/
structure Request where
  src : Nat
  id : Nat
  origin : ReqOrigin
  write : Bool
  addr : Nat
  len : Nat
  inTime : Bool
  deriving DecidableEq, Repr

/-- A parity error that the newt's access meets (R176): none, in the fetched instruction word, in the scratch bytes
that the instruction reads. -/
inductive ParityHit where
  | none | imem | smem
  deriving DecidableEq, Repr

/-- Who read a failing strata line (STR_ERRLOG.FOUND_BY, R357). -/
inductive FoundBy where
  | ownTile | otherTile | host | scrubber | remapCopy
  deriving DecidableEq, Repr

/-- What a checker self-test found in one stratum of one tile (R351, R352). -/
structure SelfTestFault where
  tile : TileId
  stratum : Fin 4
  missed : Bool
  falseFlag : Bool
  deriving DecidableEq, Repr

/-- What the environment supplies at a start (R856): the address straps {GA_PAR, GA_Z, GA_Y, GA_X} (R886), the faults the
checker self-test finds (R351), the capacitance measured in 10 uF (R803), the tier units whose training fails (R861) and
the digest of the boot ROM. -/
structure StartEnv where
  straps : BitVec 16
  selfTest : List SelfTestFault
  cap10uF : Nat
  badT1 : List (Fin 8 × Fin 64)
  badT2 : List (Fin 16)
  deriving DecidableEq, Repr

/-- A newt event message (R153): receiver and counter, partition, epoch and the sender's STEP; `src` is the sending tile on
this module, or none for a message from another module, whose coordinate and tag stand in `srcPhys` and `tag`. -/
structure EvMsg where
  dst : TileId
  ctr : Fin 16
  part : PartId
  epoch : BitVec 16
  step : W64
  src : Option TileId
  srcPhys : BitVec 15
  tag : W32
  deriving DecidableEq, Repr

/-- What NEWT_EVENT brings: an event of this module on its way, or an EVENT message of another module with the receiver, the
counter and the STEP that its payload names; the specification does not lay that payload out (R153, R483; log entry 105). -/
inductive EventIn where
  | here (ev : EvMsg)
  | message (m : Bytes) (dst : TileId) (ctr : Fin 16) (step : W64)
  deriving DecidableEq, Repr

/-- A start of a FILL or a WOUT of a tile, and whether the copy of scratch that a binding makes meets a parity error (R171, R176). -/
structure TransferStart where
  tile : TileId
  hit : Bool
  deriving DecidableEq, Repr

/-- A call of a library routine by a partition's start group, and the member whose scratch read meets a parity error (R171, R176,
R274). -/
structure RoutineCall where
  part : PartId
  hit : Option TileId
  deriving DecidableEq, Repr

/-- A fill of the unit at a tier address, and the tile whose command waits for it, where one does (R385, R440). -/
structure FillRequest where
  addr : BitVec 48
  tile : Option TileId
  deriving DecidableEq, Repr

/-- What the error correction of a flit reports: code words corrected, and whether one was uncorrectable (R475, R518). -/
structure FecResult where
  corrected : Nat
  bad : Bool
  deriving DecidableEq, Repr

/-- The AES engine of a die and the key slot that an operation of it uses (R823, R824). -/
structure EngineSlot where
  die : Die
  slot : Fin 64
  deriving DecidableEq, Repr

/-- Why a tier unit retires (R408). -/
inductive RetireCause where
  | ueLimit | lateLimit | retraining | reportedUnusable
  deriving DecidableEq, Repr

/-- Whose request to a tier fails (R406, R407): a tile's, a command's, a checkpoint drain's, the host's through BAR4, the read of a
write-combining entry's read-merge-write (R373); or one that no unit waits for. -/
inductive TierReq where
  | tile (t : TileId)
  | command (cid : Nat)
  | drain (p : PartId)
  | bar4
  | merge
  | none
  deriving DecidableEq, Repr

/-- What a tier scrub finds (R414). -/
inductive ScrubResult where
  | clean | corrected | uncorrectable
  deriving DecidableEq, Repr

/-- What a link fault was detected by (R508). -/
inductive LinkWhy where
  | secondLane | retrainFailed | codewords | replayLimit
  deriving DecidableEq, Repr

/-- Which side of a drain commits (R603): the buddy that marks the slot, the source whose take completes. -/
inductive CommitSide where
  | buddy (srcChip : BitVec 15) (srcPart : PartId)
  | source (p : PartId)
  deriving DecidableEq, Repr

/-- What a buddy answers about its store for a shard (R591 step 1): SLOT_LEN, the partition that owns it and its epoch, and
the slot that the next take writes (R603). -/
structure BuddyStore where
  slotLen : Nat
  part : PartId
  epoch : BitVec 16
  slot : Fin 2
  deriving DecidableEq, Repr

/-- The bytes of the two slots of a store on another module, by slot offset (R602, R608). -/
structure RemoteStore where
  holder : BitVec 15
  srcChip : BitVec 15
  srcPart : PartId
  slotLen : Nat
  slot0 : Tbl Byte
  slot1 : Tbl Byte
  deriving DecidableEq, Repr

/-- The vector and reference of a list of a prediction block, as its standard's syntax gives them: in quarter luma samples, for AV1
in eighth samples, with the reference frame's index (R662, R663). -/
structure Motion where
  x : Int
  y : Int
  ref : Int
  deriving DecidableEq, Repr

/-- A prediction block of a picture: its luma samples, and what it predicts from in list 0 and list 1; neither where it is intra. For
AV1 the first reference frame stands in list 0 (R663). -/
structure PredBlock where
  x : Nat
  y : Nat
  w : Nat
  h : Nat
  l0 : Option Motion
  l1 : Option Motion
  deriving DecidableEq, Repr

/-- A coding unit of a picture: an H.264 macroblock, an H.265 coding unit or an AV1 block, with the bins or symbols decoded for it
(R664). -/
structure CodingUnit where
  x : Nat
  y : Nat
  w : Nat
  h : Nat
  bins : Nat
  deriving DecidableEq, Repr

/-- A decoded picture of a frame (R657): the planes as the standard defines them, with the stream's bit depth, size,
colour description, and of its syntax the coded bytes, the prediction blocks and the coding units that its statistics are taken from
(R662 to R664). -/
structure Picture where
  width : Nat
  height : Nat
  depth : Nat
  mono : Bool
  matrix : Option (Fin 3)
  fullRange : Option Bool
  luma : List Nat
  cb : List Nat
  cr : List Nat
  coded : Nat
  grain : Bool
  preds : List PredBlock
  units : List CodingUnit
  metadata : Bytes
  deriving DecidableEq, Repr

/-- What FRAME_DECODE_DONE reports: a picture, or damage. -/
inductive FrameResult where
  | picture (p : Picture)
  | damaged
  | refusedStream
  deriving DecidableEq, Repr

/-- What a source object's read returns (R633, R634, R692): its bytes, or an error completion. -/
inductive ReadResult where
  | bytes (b : Bytes)
  | error
  deriving DecidableEq, Repr

/-- Module power readings of one millisecond (R798): averages in mW over 1 ms, 10 ms and 100 ms, the charge in percent. -/
structure PowerReading where
  avg1 : Nat
  avg10 : Nat
  avg100 : Nat
  charge : Nat
  deriving DecidableEq, Repr

/-- The measurement of R799 and R909: 64 sites of each die in 0.01 °C, coolant inlet and outlet. -/
structure ThermalReading where
  sites : List (List Int)
  inlet : Int
  outlet : Int
  deriving DecidableEq, Repr

/-- One 1 us window of R779: energy in pJ of each of the 28 rails; for each die, the clients' tile and engine nanoseconds;
for each stack and for tier 2, the clients' bytes; the clients' link bytes by virtual channel, host bytes. -/
structure EnergyWindow where
  railPj : List Nat
  railMv : List Nat
  railMa : List Nat
  tileNs : List (Nat × Nat × Nat)
  engineNs : List (Nat × Nat × Nat)
  t1Bytes : List (Nat × Nat × Nat)
  t2Bytes : List (Nat × Nat)
  linkBytes : List (Nat × Nat × Nat)
  hostBytes : List (Nat × Nat)
  deriving DecidableEq, Repr

/-- The commands: one constructor per row of the table of operations and events. -/
inductive Instr where
  -- start, reset, islands, arbiters, brake (chapters 01, 18)
  | powerOnStart (inputMv : Nat) (env : StartEnv)
  | imageVerifyDone
  | tierFillDone
  | enterRun
  | komodoRunTimeout
  | brownOutReset (d : Die) (mv : Nat) (env : StartEnv)
  | perstDeassert
  | paceWindowEnd (rates : List (List Nat))
  | crossingDeliver (i : Island) (x : CrossItem)
  | eventCrossingSend (i : Island) (toIsland : Bool)
  | islandWake (i : Island) (x : CrossItem)
  | islandWakeDone (i : Island)
  | wakeLate (i : Island)
  | islandStopRequest (i : Island) (w : WakeMeet)
  | i3cStartCondition
  | xstatWrite (i : Island) (v hw : W32)
  | arbiterGrant (r : Resource) (arrivals : List Request)
  | brakeApply (d : Die) (mv ns : Nat)
  | brakeRelease (mv ns : Nat)
  -- newt instructions (chapter 03): the newt of tile t executes the instruction at its program counter
  | newtNop (t : TileId) (e : ParityHit)
  | newtAdd (t : TileId) (e : ParityHit)
  | newtSub (t : TileId) (e : ParityHit)
  | newtAnd (t : TileId) (e : ParityHit)
  | newtOr (t : TileId) (e : ParityHit)
  | newtXor (t : TileId) (e : ParityHit)
  | newtShl (t : TileId) (e : ParityHit)
  | newtShr (t : TileId) (e : ParityHit)
  | newtSra (t : TileId) (e : ParityHit)
  | newtMul (t : TileId) (e : ParityHit)
  | newtMin (t : TileId) (e : ParityHit)
  | newtMax (t : TileId) (e : ParityHit)
  | newtAddi (t : TileId) (e : ParityHit)
  | newtAndi (t : TileId) (e : ParityHit)
  | newtOri (t : TileId) (e : ParityHit)
  | newtShli (t : TileId) (e : ParityHit)
  | newtShri (t : TileId) (e : ParityHit)
  | newtMovz (t : TileId) (e : ParityHit)
  | newtMovk (t : TileId) (e : ParityHit)
  | newtCmp (t : TileId) (e : ParityHit)
  | newtCmpi (t : TileId) (e : ParityHit)
  | newtPlog (t : TileId) (e : ParityHit)
  | newtBr (t : TileId) (e : ParityHit)
  | newtCall (t : TileId) (e : ParityHit)
  | newtRet (t : TileId) (e : ParityHit)
  | newtLoop (t : TileId) (e : ParityHit)
  | newtHalt (t : TileId) (e : ParityHit)
  | newtTrap (t : TileId) (e : ParityHit)
  | newtLd (t : TileId) (e : ParityHit)
  | newtSt (t : TileId) (e : ParityHit)
  | newtLdw (t : TileId) (e : ParityHit)
  | newtStw (t : TileId) (e : ParityHit)
  | newtAclr (t : TileId) (e : ParityHit)
  | newtMma (t : TileId) (e : ParityHit)
  | newtFill (t : TileId) (e : ParityHit)
  | newtSwap (t : TileId) (e : ParityHit)
  | newtWout (t : TileId) (e : ParityHit)
  | newtVop (t : TileId) (e : ParityHit)
  | newtFexp (t : TileId) (e : ParityHit)
  | newtXwait (t : TileId) (e : ParityHit)
  | newtBar (t : TileId) (e : ParityHit)
  | newtSev (t : TileId) (e : ParityHit)
  | newtWev (t : TileId) (e : ParityHit)
  | newtMark (t : TileId) (e : ParityHit)
  | markerForward (t : TileId)
  | newtFence (t : TileId) (e : ParityHit)
  | newtTime (t : TileId) (e : ParityHit)
  | newtCsrr (t : TileId) (e : ParityHit)
  | newtCsrw (t : TileId) (e : ParityHit)
  | waitTimeout (t : TileId)
  -- tile units (chapters 02, 03, 04); `hit`: the copy of the tiling descriptor at binding meets a parity error (R176, R195)
  | aclrExecute (t : TileId)
  | mmaExecute (t : TileId)
  | fillExecute (t : TransferStart)
  | woutExecute (t : TransferStart)
  | vopExecute (t : TileId)
  | fexpExecute (t : TileId)
  | tileCommandComplete (t : TileId) (num : Nat)
  | levelStage (t : TileId) (level : Fin 5) (opnd : Fin 3)
  | stepReplay (p : PartId)
  | tileHardwareFault (t : TileId)
  | remapCopyComplete (t : TileId)
  -- attention, convolution, detection (chapters 05, 06); `hit`: the member whose scratch read meets a parity error (R176)
  | attnFwd (p : RoutineCall)
  | attnAppend (p : RoutineCall)
  | attnBwd (p : RoutineCall)
  | partialRecord (m : Bytes)
  | conv (p : RoutineCall)
  | det (p : RoutineCall)
  -- strata (chapter 07)
  | strataDeclare (cid : Nat)
  | strataRelease (cid : Nat)
  | strataParityFail (addr : BitVec 48) (by_ : FoundBy) (readBackFails : Bool)
  | cleanRefetchDone (addr : BitVec 48) (tierOk readBackFails : Bool)
  | scrubLine (d : Die) (fails readBackFails : Bool)
  | scrubBehind (d : Die)
  | strScrubWrite (d : Die) (v hw : W32)
  | strErrlogWrite (t : TileId) (v hw : W64)
  -- tiers (chapter 08)
  | tierAlloc (cid : Nat)
  | tierFree (cid : Nat)
  | tierFlush (cid : Nat)
  | tierQuota (cid : Nat)
  | streamDeclare (cid : Nat)
  | streamAcq (p : PartId)
  | streamRel (p : PartId)
  | streamFetchDone (p : PartId) (stream : Fin 8) (layer : Nat)
  | wcAgeExpiry (c : TierCtl) (unit : Nat) (uncorrectable : Bool)
  | backedFill (addr : FillRequest)
  | writeBack (addr : BitVec 48)
  | reclaim (p : PartId)
  | tierLate (c : TierCtl) (addr : BitVec 48) (r : TierReq)
  | tierUncorrectable (c : TierCtl) (addr : BitVec 48) (r : TierReq)
  | tierRetirement (c : TierCtl) (pc : Fin 64) (why : RetireCause)
  | redirectionComplete (c : TierCtl) (pc : Fin 64)
  | tierScrub (c : TierCtl) (unit : Nat) (r : ScrubResult)
  -- codecs (chapter 09)
  | bcEnc (p : RoutineCall)
  | bcDec (p : RoutineCall)
  | bcVerify (p : RoutineCall)
  | ral2pDecode (p : RoutineCall)
  | spEnc (p : RoutineCall)
  | spDec (p : RoutineCall)
  | fcProject (p : RoutineCall)
  | fcOrtho (p : RoutineCall)
  | fcQproj (p : RoutineCall)
  | fcResid (p : RoutineCall)
  | codecErrlogWrite (d : Die) (inst : Fin 4) (v hw : W64)
  -- links and clasps (chapter 10)
  | dataFlit (l : LinkId) (f : Bytes) (fec : FecResult)
  | ctlIdle (l : LinkId) (f : Bytes)
  | ackTimer (l : LinkId)
  | replayTimeout (l : LinkId)
  | identSend
  | ctlIdent (l : LinkId) (f : Bytes)
  | timeSend
  | timeRecord (l : LinkId) (f : Bytes) (offset : Int)
  | ctlJoin (l : LinkId) (f : Bytes)
  | ctlJoinReady (l : LinkId) (f : Bytes)
  | ctlJoinCommit (l : LinkId) (f : Bytes)
  | ctlJoinAbort (l : LinkId) (f : Bytes)
  | joinReadyTimeout (axis : Fin 3)
  | joinRetry (axis : Fin 3)
  | msgCommand (m : Bytes)
  | msgNack (m : Bytes)
  | msgMap (m : Bytes)
  | msgRead (m : Bytes)
  | msgReadData (m : Bytes)
  | msgWrite (m : Bytes)
  | newtEvent (ev : EventIn)
  | msgBulk (m : Bytes)
  | msgCheckpoint (m : Bytes)
  | laneFault (l : LinkId) (lane : Fin 4)
  | linkFault (l : LinkId) (why : LinkWhy)
  | trainingComplete (l : LinkId) (lanes : BitVec 4)
  | trainingTimeout (l : LinkId)
  | retrainComplete (l : LinkId) (lanes : BitVec 4)
  | retrainTimeout (l : LinkId)
  | signalDetected (l : LinkId) (lanes : BitVec 4)
  | lnkRetry (l : LinkId) (v : W32)
  | lnkEnable (l : LinkId) (v : W32)
  | lnkDisable (l : LinkId) (v : W32)
  | clspJoin (v : W32)
  | clspLeave (v : W32)
  | claspSenseMismatch (sensed : BitVec 18)
  | parentChange (dir : Fin 6)
  | grandmasterTakeover
  -- collectives (chapter 11)
  | collOpen (cid : Nat)
  | collClose (cid : Nat)
  | collAbort (m : Bytes)
  | coll (p : RoutineCall)
  | collWait (p : PartId)
  | collectiveStart (p : PartId) (stream : Fin 64)
  | collReq (d : Die) (m : Bytes)
  | collGrant (d : Die) (m : Bytes)
  | collData (d : Die) (m : Bytes)
  | collAck (d : Die) (m : Bytes)
  | collResend (d : Die) (m : Bytes)
  | collWatchdog (p : PartId) (stream : Fin 64)
  | collStall1Write (v hw : W64)
  -- checkpoints and takeover (chapter 12)
  | ckptShard (cid : Nat)
  | ckptStore (cid : Nat)
  | ckptTake (cid : Nat)
  | snapshot (p : PartId) (b : Option BuddyStore)
  | drainChunk (p : PartId)
  | drainCommit (side : CommitSide)
  | ckptRestore (cid : Nat) (held : List RemoteStore)
  | axolotlTakeover (cid : Nat) (held : List RemoteStore)
  -- ingest (chapter 13)
  | ingOpen (cid : Nat)
  | ingFeed (cid : Nat)
  | ingClose (cid : Nat)
  | ingCloseComplete (p : PipeId)
  | tokLoad (cid : Nat)
  | vidEncode (cid : Nat)
  | fetchObjectRead (p : PipeId) (r : ReadResult)
  | fetchTimeout (p : PipeId)
  | segmentDecrypt (p : PipeId) (d : Die)
  | recordParse (p : PipeId)
  | sampleAdmit (p : PipeId)
  | componentAdmit (p : PipeId)
  | frameDecodeDone (v : PairId) (ctx : Fin 64) (r : FrameResult)
  | textTokenize (p : PipeId) (d : Die)
  | shapeItem (p : PipeId)
  | slotReady (p : PipeId)
  | locketWrite (p : PipeId)
  | ingestTake (t : TileId)
  | ingestGive (t : TileId)
  | ingPipeerrWrite (p : PipeId) (v hw : W64)
  -- host port and queues (chapter 14)
  | nopCommand (cid : Nat)
  | queCreate (cid : Nat)
  | queDelete (cid : Nat)
  | vfBind (cid : Nat)
  | remoteCpl (m : Bytes)
  | submissionDoorbell (fn : FnId) (off : Nat) (v : W64) (stores : List (Nat × Byte))
  | creditDoorbell (fn : FnId) (off : Nat) (v : W64) (stores : List (Nat × Byte))
  | queueFetch
  | entryAdmit (q : Nat)
  | msixHoldoffEnd (fn : FnId) (vec : Nat)
  | hostOut (t : TileId)
  | hostTmoExpiry (q : Nat)
  | functionLevelReset (fn : FnId)
  | d3hotEntry (fn : FnId)
  | admqEnable (fn : FnId)
  | admqDisable (fn : FnId)
  | hostEvtheadWrite (fn : FnId) (v : W32)
  | bar4Read (fn : FnId) (off : Nat) (len : Nat)
  | bar4Write (fn : FnId) (off : Nat) (data : Bytes)
  | ptmMeasure (hostTime : Nat)
  -- partitions, steps, deadlines, accounting (chapter 15)
  | partCreate (cid : Nat)
  | partModify (cid : Nat)
  | partDelete (cid : Nat)
  | tierZeroFillDone (p : PartId)
  | progLoad (cid : Nat)
  | stepStart (cid : Nat)
  | stepBegin (p : PartId)
  | stepEnd (p : PartId)
  | stepStop (cid : Nat)
  | dlmSet (cid : Nat)
  | markerRecord (p : PartId)
  | fallbackPoint (p : PartId)
  | deadlineExpiry (p : PartId)
  | acctRead (cid : Nat)
  | energyWindow (w : EnergyWindow)
  -- power and telemetry (chapter 16)
  | pwrSet (cid : Nat)
  | telRead (cid : Nat)
  | getRecord (rtype : Byte)
  | subscribe (rtype : Byte) (periodMs : BitVec 16)
  | subscriptionPush (rtype : Byte) (sendable : Bool)
  | setLimit (w : BitVec 16)
  | pwrVreqWrite (v : W32)
  | voltageRampDone
  | powerLimitTick (r : PowerReading)
  | temperatureMeasure (r : ThermalReading)
  | thermalTrip (d : Die)
  | phaseFault (rail : Fin 28)
  | inputLoss (mv : Nat)
  | inputReturn (mv : Nat)
  | holdupDeadline
  | inputOvervoltage (mv : Nat)
  -- security (chapter 17)
  | keyWrite (cid : Nat)
  | keyErase (cid : Nat)
  | aesOperationDone (slot : EngineSlot) (gen : Byte)
  | ownerInstall (cid : Nat)
  | ownerLock (cid : Nat)
  | ownerAuth (cid : Nat)
  | spdmGetVersion (req : Bytes)
  | spdmGetCapabilities (req : Bytes)
  | spdmNegotiateAlgorithms (req : Bytes)
  | spdmGetDigests (req : Bytes)
  | spdmGetCertificate (req : Bytes)
  | spdmChallenge (req : Bytes)
  | spdmGetMeasurements (req : Bytes)
  -- recovery, update, activation (chapter 18)
  | recErase (v : W32)
  | recProgram (v : W32)
  | recVerify (v : W32)
  | recAuth (v : W32)
  | recStart (v : W32) (env : StartEnv)
  | updBegin (cid : Nat)
  | updWrite (cid : Nat)
  | updVerify (cid : Nat)
  | activate (cid : Nat)
  | activationPause
  | pauseTimeout
  | activationCommit
  -- pins and coolant (chapter 19)
  | mateOpen (b : Bool)
  | clspHoldAssert
  | clspHoldRelease
  | lowFlow
  | hotInlet
  -- registers and late additions of the table
  | registerWrite (fn : FnId) (off : Nat) (wide : Bool) (v hw : W64)
  | entryFetchDone (q : Nat) (ok : Bool)
  | entryFetchTimeout (q : Nat)
  | flashOperationDone (readBackOk : Bool)
  | d0Return (fn : FnId)
  | videoEncodeDone (v : PairId) (stream : Bytes)
  | msixVectorUnmask (fn : FnId) (vec : Nat)
  deriving DecidableEq, Repr

end Sys2Proof
end

