-- ==== Sys2Proof/Config.lean ====
section
/-! DEFINITION. What an implementation or an outside standard fixes and this specification does not: the free values and
the functions of outside standards. Each is opaque: no proof can see a value of it. -/

namespace Sys2Proof

/-- A free 64-bit value: the n-th value that the specification leaves open (log entry 4). -/
opaque Config.freeWord : Nat → BitVec 64
/-- The n-th free byte (log entry 4). -/
opaque Config.freeByte : Nat → Byte
/-- The n-th free choice (log entry 4). -/
opaque Config.freeNat : Nat → Nat

/-- AES-256-GCM decryption with a 96-bit IV (outside standard): key, IV, associated data, ciphertext, 16-byte tag; none
when the tag does not verify (log entry 5). -/
opaque Config.gcmOpen (key iv aad ct tag : Bytes) : Option Bytes
/-- AES-256-GCM encryption (outside standard): ciphertext and tag. -/
opaque Config.gcmSeal (key iv aad pt : Bytes) : Bytes × Bytes
/-- SHA-384 (outside standard). -/
opaque Config.sha384 (m : Bytes) : Bytes
/-- ECDSA P-384 verification (outside standard): public key, digest, signature. -/
opaque Config.ecdsaVerify (key digest sig : Bytes) : Bool
/-- The device's signature with its identity key (outside standard, R831). -/
opaque Config.identitySign (m : Bytes) : Bytes
/-- The public part of the device's identity key (R831), in the encoding of R830. -/
opaque Config.identityKey : Bytes
/-- The digest of a Komodo boot ROM (R833). -/
opaque Config.romDigest : Bytes

/-- The bytes of picture buffer that a coded stream declares it needs (R659; outside standards, log entry 5). -/
opaque Config.dpbBytes (codec : Nat) (bits : Bytes) : Nat
/-- MAX or MIN of two elements of BYTE in a collective, for which no operation is given (R547; log entry 4). -/
opaque Config.byteExtreme (red : Nat) (a b : Byte) : Byte

end Sys2Proof
end

