-- ==== Sys2Proof/Machine/Bits.lean ====
section
/-! DEFINITION. Byte order, bit fields, sparse tables and cyclic redundancy checks: the helpers that every other file of
the machine reads and writes its data through. -/

namespace Sys2Proof.Machine
open Sys2Proof

/-- The `n` low bytes of `v`, lowest address first (R12). -/
def leBytes : Nat → Nat → Bytes
  | 0, _ => []
  | n + 1, v => BitVec.ofNat 8 v :: leBytes n (v / 256)

/-- The number a byte string holds, lowest address first (R12). -/
def leNat : Bytes → Nat
  | [] => 0
  | b :: bs => b.toNat + 256 * leNat bs

/-- The `len`-byte field at offset `off` of a descriptor or message (R12). Bytes beyond the end read 0. -/
def fieldAt (b : Bytes) (off len : Nat) : Nat := leNat ((b.drop off).take len)

/-- `b` with the bytes from `off` on replaced by `v`; the length is kept. -/
def putAt (b : Bytes) (off : Nat) (v : Bytes) : Bytes :=
  b.take off ++ v.take (b.length - off) ++ b.drop (off + v.length)

/-- Every byte of the named range is zero: the reserved bytes of a descriptor. -/
def zeroAt (b : Bytes) (off len : Nat) : Bool := ((b.drop off).take len).all (· == 0)

/-- Bits `lo` to `lo + len - 1` of a number. -/
def bitsOf (v lo len : Nat) : Nat := (v / 2 ^ lo) % 2 ^ len

/-- One bit of a number. -/
def bitOf (v n : Nat) : Bool := v / 2 ^ n % 2 == 1

/-- `v` with bits `lo` to `lo + len - 1` replaced by the low bits of `x`. -/
def putBits (v lo len x : Nat) : Nat :=
  v - bitsOf v lo len * 2 ^ lo + (x % 2 ^ len) * 2 ^ lo

/-- The two's-complement value of the low `w` bits (R12). -/
def signedOf (w v : Nat) : Int :=
  let x := v % 2 ^ w
  if x < 2 ^ (w - 1) then (x : Int) else (x : Int) - 2 ^ w

/-- The `w`-bit two's-complement code of an integer, modulo `2^w`. -/
def codeOf (w : Nat) (v : Int) : Nat := (v % (2 ^ w : Int)).toNat

/-- The least whole number of `b` that covers `a`. -/
def ceilDiv (a b : Nat) : Nat := (a + b - 1) / b

/-- One, when the condition holds. -/
def b2n (b : Bool) : Nat := if b then 1 else 0

/-- The sum of two counts, saturating at `top`. -/
def satAdd (top a b : Nat) : Nat := if a + b ≤ top then a + b else top

/-- The numbers from `lo` up, `n` of them. -/
def span (lo n : Nat) : List Nat := (List.range n).map (lo + ·)

/-! ### Sparse tables -/

/-- The value at key `k`, or the table's default `d`. -/
def Tbl.get {α : Type} (d : α) (t : Tbl α) (k : Nat) : α :=
  match t with
  | [] => d
  | (j, v) :: r => if j == k then v else Tbl.get d r k

/-- The table without key `k`. -/
def Tbl.drop {α : Type} (t : Tbl α) (k : Nat) : Tbl α :=
  match t with
  | [] => []
  | (j, v) :: r => if j == k then Tbl.drop r k else (j, v) :: Tbl.drop r k

/-- The table with key `k` at `v`, in rising order of keys. -/
def Tbl.set {α : Type} (t : Tbl α) (k : Nat) (v : α) : Tbl α :=
  match t with
  | [] => [(k, v)]
  | (j, w) :: r =>
    if j == k then (k, v) :: r else if k < j then (k, v) :: (j, w) :: r else (j, w) :: Tbl.set r k v

/-- The table after a write of `v` at key `k`: an entry equal to the default `d` is not kept, so equal tables are equal
lists. -/
def Tbl.put {α : Type} [DecidableEq α] (d : α) (t : Tbl α) (k : Nat) (v : α) : Tbl α :=
  if v = d then Tbl.drop t k else Tbl.set t k v

/-- The table with the value at key `k` changed by `f`. -/
def Tbl.upd {α : Type} [DecidableEq α] (d : α) (t : Tbl α) (k : Nat) (f : α → α) : Tbl α :=
  Tbl.put d t k (f (Tbl.get d t k))

/-- The table with every key from `lo` to `lo + n - 1` back at the default. -/
def Tbl.clearRange {α : Type} (t : Tbl α) (lo n : Nat) : Tbl α :=
  t.filter fun e => !(lo ≤ e.1 && e.1 < lo + n)

/-- The entries of the table with keys from `lo` to `lo + n - 1`. -/
def Tbl.inRange {α : Type} (t : Tbl α) (lo n : Nat) : Tbl α :=
  t.filter fun e => lo ≤ e.1 && e.1 < lo + n

/-- Keys strictly rising from `lo` on and no entry at the default: the canonical form. -/
def Tbl.wfFrom {α : Type} [DecidableEq α] (d : α) (lo : Nat) : Tbl α → Bool
  | [] => true
  | (k, v) :: r => decide (lo ≤ k) && !decide (v = d) && Tbl.wfFrom d (k + 1) r

/-- The canonical form of a table. -/
def Tbl.wf {α : Type} [DecidableEq α] (d : α) (t : Tbl α) : Bool := Tbl.wfFrom d 0 t

/-- A table in canonical form: as it is where it has that form, else its entries put one by one, so that every key reads as
before. -/
def Tbl.canon {α : Type} [DecidableEq α] (d : α) (t : Tbl α) : Tbl α :=
  if Tbl.wf d t then t else t.foldr (fun e acc => Tbl.put d acc e.1 e.2) []

/-- The `n` bytes from address `a` on of a byte table. -/
def bytesAt (d : Byte) (t : Tbl Byte) (a n : Nat) : Bytes := (span a n).map (Tbl.get d t)

/-- The byte table with the bytes from address `a` on written. -/
def putBytes (d : Byte) (t : Tbl Byte) (a : Nat) : Bytes → Tbl Byte
  | [] => t
  | b :: bs => putBytes d (Tbl.put d t a b) (a + 1) bs

/-! ### Checks -/

/-- One bit of a reflected CRC with the reversed polynomial `p`. -/
def crcBit (p x : Nat) : Nat := if x % 2 == 1 then (x / 2) ^^^ p else x / 2

/-- A reflected CRC over a byte string, without the final XOR. -/
def crcFold (p init : Nat) (bs : Bytes) : Nat :=
  bs.foldl (fun c b => (List.range 8).foldl (fun x _ => crcBit p x) (c ^^^ b.toNat)) init

/-- CRC-32C (R922). -/
def crc32c (bs : Bytes) : Nat := crcFold 0x82F63B78 0xFFFFFFFF bs ^^^ 0xFFFFFFFF

/-- The members of a bit set given as a number, of `n` bits. -/
def bitSet (n v : Nat) : List Nat := (List.range n).filter (bitOf v)

/-- The first `n` items replaced by a fuel-bounded search: the least `x < n` with `p x`. -/
def leastBelow (n : Nat) (p : Nat → Bool) : Option Nat := (List.range n).find? p

/-- A list with the first item that satisfies `p` removed. -/
def removeFirst {α : Type} (p : α → Bool) : List α → List α
  | [] => []
  | a :: as => if p a then as else a :: removeFirst p as

/-- Insertion into a list ordered by `lt`, after equals. -/
def insertBy {α : Type} (lt : α → α → Bool) (x : α) : List α → List α
  | [] => [x]
  | y :: ys => if lt x y then x :: y :: ys else y :: insertBy lt x ys

/-- Stable sort by insertion. -/
def sortBy {α : Type} (lt : α → α → Bool) (l : List α) : List α := l.foldl (fun acc x => insertBy lt x acc) []

/-- The item at an index, or the default. -/
def nth {α : Type} (d : α) (l : List α) (n : Nat) : α := (l[n]?).getD d

/-- A list with the item at an index changed. -/
def modNth {α : Type} (l : List α) (n : Nat) (f : α → α) : List α := l.mapIdx fun i x => if i == n then f x else x

/-- The sum of a list of numbers. -/
def sumN (l : List Nat) : Nat := l.foldl (· + ·) 0

/-- The least and the greatest of a list of numbers. -/
def minN (d : Nat) (l : List Nat) : Nat := l.foldl min d
def maxN (l : List Nat) : Nat := l.foldl max 0

/-- The integer square root by bits, of a number below `4^n`. -/
def isqrtAux (x : Nat) : Nat → Nat → Nat
  | 0, r => r
  | n + 1, r => let c := r + 2 ^ n; isqrtAux x n (if c * c ≤ x then c else r)

def isqrt (x : Nat) : Nat := isqrtAux x (x.log2 / 2 + 1) 0

end Sys2Proof.Machine
end

