-- ==== Sys2Proof/Machine/Operands.lean ====
section
/-! DEFINITION. The number formats of chapter 02: encodings (R79 to R83), block scales (R84), rounding and overflow
(R106 to R109), stochastic rounding (R113 to R115) and the correctly rounded F32 operations (R124 to R128). -/

namespace Sys2Proof.Machine
open Sys2Proof

/-- The element formats of R79. -/
inductive Fmt where
  | f32 | bf16 | f16 | f8a | f8b | f6 | f4 | i8
  deriving DecidableEq, Repr

/-- An input or output code of R104: an element format, block-scaled or not. -/
structure FmtCode where
  fmt : Fmt
  scaled : Bool
  deriving DecidableEq, Repr

/-- The format codes of R104, the long partial 0x20 apart. -/
def fmtCode (c : Nat) : Option FmtCode :=
  match c with
  | 0x00 => some ⟨.f32, false⟩
  | 0x01 => some ⟨.bf16, false⟩
  | 0x02 => some ⟨.f16, false⟩
  | 0x03 => some ⟨.f8a, false⟩
  | 0x04 => some ⟨.f8b, false⟩
  | 0x05 => some ⟨.f6, false⟩
  | 0x06 => some ⟨.f4, false⟩
  | 0x07 => some ⟨.i8, false⟩
  | 0x13 => some ⟨.f8a, true⟩
  | 0x14 => some ⟨.f8b, true⟩
  | 0x15 => some ⟨.f6, true⟩
  | 0x16 => some ⟨.f4, true⟩
  | _ => none

/-- Bits of one element (R79). -/
def Fmt.bits : Fmt → Nat
  | .f32 => 32 | .bf16 => 16 | .f16 => 16 | .f8a => 8 | .f8b => 8 | .f6 => 6 | .f4 => 4 | .i8 => 8

/-- Exponent bits, mantissa bits and bias of a floating-point format (R79). -/
def Fmt.params : Fmt → Nat × Nat × Int
  | .f32 => (8, 23, 127) | .bf16 => (8, 7, 127) | .f16 => (5, 10, 15) | .f8a => (4, 3, 7)
  | .f8b => (5, 2, 15) | .f6 => (3, 2, 3) | .f4 => (2, 1, 1) | .i8 => (0, 0, 0)

/-- Bytes of `n` packed elements (R83, R198). -/
def Fmt.bytesFor (f : Fmt) (n : Nat) : Nat :=
  match f with
  | .f6 => ceilDiv n 4 * 3
  | .f4 => ceilDiv n 2
  | _ => n * (f.bits / 8)

/-- Bytes of `n` packed elements that end with the last one: of F6 not always a whole group (R924). -/
def Fmt.packedBytes (f : Fmt) (n : Nat) : Nat := ceilDiv (n * f.bits) 8

/-- A value: NaN, a signed infinity, or a signed magnitude `m · 2^e`. -/
inductive Num where
  | nan
  | inf (neg : Bool)
  | fin (neg : Bool) (m : Nat) (e : Int)
  deriving DecidableEq, Repr

def Num.zero : Num := .fin false 0 0
def Num.isNan : Num → Bool | .nan => true | _ => false
def Num.isInf : Num → Bool | .inf _ => true | _ => false
def Num.isZero : Num → Bool | .fin _ m _ => m == 0 | _ => false
def Num.isNeg : Num → Bool | .nan => false | .inf s => s | .fin s _ _ => s
def Num.negate : Num → Num | .nan => .nan | .inf s => .inf (!s) | .fin s m e => .fin (!s) m e

/-- The value of an element's bits (R79, R80, R81). -/
def Fmt.decode (f : Fmt) (w : Nat) : Num :=
  match f with
  | .i8 => let v := signedOf 8 w; .fin (v < 0) v.natAbs 0
  | _ =>
    let (eb, mb, bias) := f.params
    let neg := bitOf w (eb + mb)
    let e := bitsOf w mb eb
    let m := bitsOf w 0 mb
    let top := 2 ^ eb - 1
    let special : Option Num :=
      match f with
      | .f6 => none
      | .f4 => none
      | .f8a => if e = top ∧ m = 7 then some .nan else none
      | _ => if e = top then some (if m = 0 then .inf neg else .nan) else none
    match special with
    | some v => v
    | none =>
      if e = 0 then .fin neg m (1 - bias - mb) else .fin neg (m + 2 ^ mb) ((e : Int) - bias - mb)

/-- The largest finite magnitude as `m · 2^e` (R79); for I8 the positive bound, the negative one is 128. -/
def Fmt.maxFinite : Fmt → Nat × Int
  | .f32 => (2 ^ 24 - 1, 104) | .bf16 => (255, 120) | .f16 => (2047, 5) | .f8a => (14, 5)
  | .f8b => (7, 13) | .f6 => (7, 2) | .f4 => (3, 1) | .i8 => (127, 0)

/-- Shift of a magnitude by a signed amount, dropping no bit when it is not negative. -/
def shiftNat (m : Nat) (s : Int) : Nat := if 0 ≤ s then m * 2 ^ s.toNat else m / 2 ^ (-s).toNat

/-- Comparison of two magnitudes `m · 2^e`. -/
def magLt (m1 : Nat) (e1 : Int) (m2 : Nat) (e2 : Int) : Bool :=
  if e1 ≤ e2 then m1 < m2 * 2 ^ (e2 - e1).toNat else m1 * 2 ^ (e1 - e2).toNat < m2

/-- floor(log2) of a nonzero magnitude `m · 2^e`. -/
def magLog2 (m : Nat) (e : Int) : Int := (m.log2 : Int) + e

/-- The rounding of a write-out: to nearest even, or stochastic with the element's 32 random bits (R106, R113). -/
inductive Rnd where
  | rne
  | stoch (r : Nat)
  deriving DecidableEq, Repr

/-- The exponent of the last place kept of a magnitude: the format's precision, not below its subnormal step (R113). -/
def Fmt.quantum (f : Fmt) (m : Nat) (e : Int) : Int :=
  match f with
  | .i8 => 0
  | _ => let (_, mb, bias) := f.params; max (magLog2 m e - mb) (1 - bias - mb)

/-- `m · 2^e` rounded to a multiple of `2^q` (R106, R113): the multiple. `sticky` says that the true value lies just
above `m · 2^e`. -/
def roundTo (rnd : Rnd) (m : Nat) (e q : Int) (sticky : Bool) : Nat :=
  if q ≤ e then m * 2 ^ (e - q).toNat
  else
    let sh := (q - e).toNat
    let lo := m / 2 ^ sh
    let rem := m % 2 ^ sh
    match rnd with
    | .rne =>
      let twice := 2 * rem
      if twice > 2 ^ sh ∨ (twice = 2 ^ sh ∧ (sticky ∨ lo % 2 = 1)) then lo + 1 else lo
    | .stoch r => if r < 2 ^ 32 * rem / 2 ^ sh then lo + 1 else lo

/-- What a rounding to a format did: the write-out flags of R129. -/
structure RndFlags where
  sat : Bool := false
  ovfInf : Bool := false
  unfZero : Bool := false
  nanLost : Bool := false
  deriving DecidableEq, Repr

/-- The bits of a finite magnitude `n · 2^q` that the format holds exactly. -/
def Fmt.pack (f : Fmt) (neg : Bool) (n : Nat) (q : Int) : Nat :=
  match f with
  | .i8 => codeOf 8 (if neg then -(shiftNat n q : Int) else shiftNat n q)
  | _ =>
    let (eb, mb, bias) := f.params
    let s := b2n neg * 2 ^ (eb + mb)
    if n = 0 then s
    else
      let e := magLog2 n q
      if e < 1 - bias then s + shiftNat n (q - (1 - bias - mb))
      else s + (e + bias).toNat * 2 ^ mb + (shiftNat n (q - (e - mb)) - 2 ^ mb)

/-- The canonical NaN of a format; +0 where the format has none (R81, R108). -/
def Fmt.nanBits : Fmt → Nat
  | .f32 => 0x7FC00000 | .bf16 => 0x7FC0 | .f16 => 0x7E00 | .f8a => 0x7F | .f8b => 0x7E
  | .f6 => 0 | .f4 => 0 | .i8 => 0

/-- The format's infinity, or its largest finite value where it saturates (R107). -/
def Fmt.overflow (f : Fmt) (satb neg : Bool) : Nat × RndFlags :=
  let big := f.pack neg f.maxFinite.1 f.maxFinite.2
  match f with
  | .f32 => ((if neg then 0xFF800000 else 0x7F800000), { ovfInf := true })
  | .bf16 => ((if neg then 0xFF80 else 0x7F80), { ovfInf := true })
  | .f16 => ((if neg then 0xFC00 else 0x7C00), { ovfInf := true })
  | .f8b => if satb then (big, { sat := true }) else ((if neg then 0xFC else 0x7C), { ovfInf := true })
  | .i8 => ((if neg then 0x80 else 0x7F), { sat := true })
  | _ => (big, { sat := true })

/-- A magnitude beyond the format's largest finite value of that sign (R107). -/
def Fmt.beyond (f : Fmt) (neg : Bool) (n : Nat) (q : Int) : Bool :=
  match f, neg with
  | .i8, true => magLt 128 0 n q
  | _, _ => magLt f.maxFinite.1 f.maxFinite.2 n q

/-- A value rounded once into an unscaled output format (R106 to R109), with the flags it raises. -/
def Fmt.encode (f : Fmt) (satb : Bool) (rnd : Rnd) (v : Num) (sticky : Bool := false) : Nat × RndFlags :=
  match v with
  | .nan => (f.nanBits, { nanLost := f == .f6 || f == .f4 || f == .i8 })
  | .inf s => let x := f.overflow satb s; if x.2.ovfInf then (x.1, {}) else x
  | .fin s m e =>
    if m = 0 then (f.pack s 0 0, {})
    else
      let q := f.quantum m e
      let n := roundTo rnd m e q sticky
      if n = 0 then (f.pack s 0 0, { unfZero := true })
      else if f.beyond s n q then f.overflow satb s
      else (f.pack s n q, {})

/-! ### F32 operations: exact values, rounded once to nearest even (R102, R125) -/

def f32Of (v : Num) (sticky : Bool := false) : W32 := BitVec.ofNat 32 (Fmt.f32.encode false .rne v sticky).1
def f32Val (w : W32) : Num := Fmt.f32.decode w.toNat
def f32Nan : W32 := 0x7FC00000#32
def f32Zero : W32 := 0#32
def f32One : W32 := 0x3F800000#32
def f32NegInf : W32 := 0xFF800000#32

/-- The signed integer a finite value has in units of `2^e0`, for an `e0` not above its exponent. -/
def Num.units (v : Num) (e0 : Int) : Int :=
  match v with
  | .fin s m e => let x : Int := (m * 2 ^ (e - e0).toNat : Nat); if s then -x else x
  | _ => 0

def Num.exp : Num → Int | .fin _ _ e => e | _ => 0

/-- The exact sum of two values; a zero sum of opposite signs is +0 (R102). -/
def Num.add (a b : Num) : Num :=
  match a, b with
  | .nan, _ => .nan
  | _, .nan => .nan
  | .inf s, .inf t => if s = t then .inf s else .nan
  | .inf s, _ => .inf s
  | _, .inf t => .inf t
  | .fin s m e, .fin t n f =>
    let e0 := min e f
    let x := (Num.fin s m e).units e0 + (Num.fin t n f).units e0
    if x = 0 then .fin (s && t) 0 0 else .fin (x < 0) x.natAbs e0

/-- The exact product of two values. -/
def Num.mul (a b : Num) : Num :=
  match a, b with
  | .nan, _ => .nan
  | _, .nan => .nan
  | .inf s, .inf t => .inf (s != t)
  | .inf s, .fin t n _ => if n = 0 then .nan else .inf (s != t)
  | .fin s m _, .inf t => if m = 0 then .nan else .inf (s != t)
  | .fin s m e, .fin t n f => .fin (s != t) (m * n) (e + f)

def f32Add (a b : W32) : W32 := f32Of ((f32Val a).add (f32Val b))
def f32Sub (a b : W32) : W32 := f32Of ((f32Val a).add (f32Val b).negate)
def f32Mul (a b : W32) : W32 := f32Of ((f32Val a).mul (f32Val b))
def f32Fma (a b c : W32) : W32 := f32Of (((f32Val a).mul (f32Val b)).add (f32Val c))

/-- `x < y` of two values that are not NaN. -/
def Num.lt (a b : Num) : Bool :=
  match a, b with
  | .nan, _ => false
  | _, .nan => false
  | .inf s, .inf t => s && !t
  | .inf s, _ => s
  | _, .inf t => !t
  | .fin s m e, .fin t n f => let e0 := min e f; (Num.fin s m e).units e0 < (Num.fin t n f).units e0

def Num.eq (a b : Num) : Bool := !a.isNan && !b.isNan && !a.lt b && !b.lt a

/-- R127: NaN if either is NaN; −0 is below +0. -/
def f32Min (a b : W32) : W32 :=
  let x := f32Val a; let y := f32Val b
  if x.isNan || y.isNan then f32Nan
  else if x.lt y then f32Of x else if y.lt x then f32Of y else if x.isNeg then f32Of x else f32Of y
def f32Max (a b : W32) : W32 :=
  let x := f32Val a; let y := f32Val b
  if x.isNan || y.isNan then f32Nan
  else if x.lt y then f32Of y else if y.lt x then f32Of x else if x.isNeg then f32Of y else f32Of x

/-- R150: +1.0 where a < b, else +0.0. -/
def f32Cmp (a b : W32) : W32 := if (f32Val a).lt (f32Val b) then f32One else f32Zero

/-- The quotient of two finite nonzero values to `100` bits, with the sticky bit of its remainder. -/
def magDiv (m n : Nat) (e f : Int) : Nat × Int × Bool :=
  let sh := 100 + n.log2
  (m * 2 ^ sh / n, e - f - sh, m * 2 ^ sh % n != 0)

def f32Div (a b : W32) : W32 :=
  match f32Val a, f32Val b with
  | .nan, _ => f32Nan
  | _, .nan => f32Nan
  | .inf _, .inf _ => f32Nan
  | .inf s, .fin t _ _ => f32Of (.inf (s != t))
  | .fin s _ _, .inf t => f32Of (.fin (s != t) 0 0)
  | .fin s m e, .fin t n f =>
    if n = 0 then (if m = 0 then f32Nan else f32Of (.inf (s != t)))
    else if m = 0 then f32Of (.fin (s != t) 0 0)
    else let (q, x, st) := magDiv m n e f; f32Of (.fin (s != t) q x) st

def f32Rcp (a : W32) : W32 := f32Div f32One a

/-- SQRT: −0 gives −0, a value below zero NaN (R126). -/
def f32Sqrt (a : W32) : W32 :=
  match f32Val a with
  | .nan => f32Nan
  | .inf s => if s then f32Nan else f32Of (.inf false)
  | .fin s m e =>
    if m = 0 then f32Of (.fin s 0 0)
    else if s then f32Nan
    else
      let sh : Nat := 200 + (e % 2).toNat
      let r := isqrt (m * 2 ^ sh)
      f32Of (.fin false r ((e - sh) / 2)) (r * r != m * 2 ^ sh)

/-- RSQRT: ±0 gives ±infinity, a value below zero NaN (R126). -/
def f32Rsqrt (a : W32) : W32 :=
  match f32Val a with
  | .nan => f32Nan
  | .inf s => if s then f32Nan else f32Zero
  | .fin s m e =>
    if m = 0 then f32Of (.inf s)
    else if s then f32Nan
    else
      let sh : Nat := 300 + (e % 2).toNat
      let x := 2 ^ sh / m
      let r := isqrt x
      f32Of (.fin false r ((-e - sh) / 2)) (r * r * m != 2 ^ sh)

/-! The four functions below are irrational except where said, so a value known to 200 bits and a sticky bit round as the
exact value does (log entry 6). Fixed point has 256 fraction bits. -/

def fx : Nat := 2 ^ 256

/-- ln 2 in fixed point: the sum of 1 ÷ (k 2^k). -/
def fxLn2 : Nat := sumN ((span 1 260).map fun k => fx / (k * 2 ^ k))

/-- e^r in fixed point, for r from 0 to below 1 in fixed point, by its series. -/
def fxExp (r : Nat) : Nat :=
  ((List.range 70).foldl (fun (acc : Nat × Nat) k => (acc.1 + acc.2, acc.2 * r / fx / (k + 1))) (0, fx)).1

/-- 2 · atanh(z) in fixed point, for z below 1/3 in fixed point. -/
def fxAtanh2 (z : Nat) : Nat :=
  let z2 := z * z / fx
  2 * ((List.range 90).foldl (fun (acc : Nat × Nat) k => (acc.1 + acc.2 / (2 * k + 1), acc.2 * z2 / fx)) (0, z)).1

/-- A finite value as a signed fixed-point number; values below 2^-256 in magnitude truncate. -/
def fxOf (v : Num) : Int :=
  match v with
  | .fin s m e => let x : Int := shiftNat m (e + 256); if s then -x else x
  | _ => 0

/-- 2^k · w for a fixed-point w, rounded to F32 with a sticky bit. -/
def f32OfFx (neg : Bool) (w : Nat) (k : Int) : W32 := f32Of (.fin neg w (k - 256)) true

/-- e^t for a fixed-point t, by t = k ln 2 + r. -/
def f32ExpFx (t : Int) : W32 :=
  let k := t / (fxLn2 : Int)
  let r := (t % (fxLn2 : Int)).toNat
  f32OfFx false (fxExp r) k

def f32Exp (a : W32) : W32 :=
  match f32Val a with
  | .nan => f32Nan
  | .inf s => if s then f32Zero else f32Of (.inf false)
  | .fin s m e =>
    if m = 0 then f32One
    else if magLt 128 0 m e then (if s then f32Zero else f32Of (.inf false))
    else f32ExpFx (fxOf (.fin s m e))

/-- 2^a: exact for whole a. -/
def f32Exp2 (a : W32) : W32 :=
  match f32Val a with
  | .nan => f32Nan
  | .inf s => if s then f32Zero else f32Of (.inf false)
  | .fin s m e =>
    if magLt 256 0 m e then (if s then f32Zero else f32Of (.inf false))
    else
      let t := fxOf (.fin s m e)
      let k := t / (fx : Int)
      let r := (t % (fx : Int)).toNat
      if r = 0 then f32Of (.fin false 1 k) else f32OfFx false (fxExp (r * fxLn2 / fx)) k

/-- ln of a positive finite value, signed fixed point: y · 2^k with y from 3/4 to below 3/2. -/
def fxLog (m : Nat) (e : Int) : Int :=
  let l := m.log2
  let k0 := (l : Int) + e
  let y0 := m * fx / 2 ^ l
  let (y, k) := if 3 * fx ≤ 2 * y0 then (y0 / 2, k0 + 1) else (y0, k0)
  let lny : Int := if fx ≤ y then fxAtanh2 ((y - fx) * fx / (y + fx)) else -(fxAtanh2 ((fx - y) * fx / (y + fx)) : Int)
  k * fxLn2 + lny

def f32Log (a : W32) : W32 :=
  match f32Val a with
  | .nan => f32Nan
  | .inf s => if s then f32Nan else f32Of (.inf false)
  | .fin s m e =>
    if m = 0 then f32Of (.inf true)
    else if s then f32Nan
    else let t := fxLog m e; if t = 0 then f32Zero else f32OfFx (t < 0) t.natAbs 0

/-- log2: exact for a power of two. -/
def f32Log2 (a : W32) : W32 :=
  match f32Val a with
  | .nan => f32Nan
  | .inf s => if s then f32Nan else f32Of (.inf false)
  | .fin s m e =>
    if m = 0 then f32Of (.inf true)
    else if s then f32Nan
    else if m = 2 ^ m.log2 then let k := magLog2 m e; f32Of (.fin (k < 0) k.natAbs 0)
    else let t := fxLog m e; f32OfFx (t < 0) (t.natAbs * fx / fxLn2) 0

/-- CVT from F32 to I32: nearest, ties to even; NaN to 0; beyond the range to its end (R150). -/
def f32ToI32 (a : W32) : W32 :=
  match f32Val a with
  | .nan => 0#32
  | .inf s => if s then 0x80000000#32 else 0x7FFFFFFF#32
  | .fin s m e =>
    let n := roundTo .rne m e 0 false
    if s then (if n > 2 ^ 31 then 0x80000000#32 else BitVec.ofInt 32 (-(n : Int)))
    else if n ≥ 2 ^ 31 then 0x7FFFFFFF#32 else BitVec.ofNat 32 n

def i32ToF32 (a : W32) : W32 := let v := a.toInt; f32Of (.fin (v < 0) v.natAbs 0)

/-- LSE_MERGE (R128): the first state, the second state. -/
def lseMerge (m1 s1 m2 s2 : W32) : W32 × W32 :=
  let m := f32Max m1 m2
  if m = f32NegInf then (f32NegInf, f32Zero)
  else
    let e1 := f32Exp (f32Sub m1 m)
    let e2 := f32Exp (f32Sub m2 m)
    (m, f32Fma s1 e1 (f32Mul s2 e2))

/-! ### Stochastic rounding and packing -/

def srMix (z : Nat) : Nat :=
  let z := ((z ^^^ (z >>> 30)) * 0xBF58476D1CE4E5B9) % 2 ^ 64
  let z := ((z ^^^ (z >>> 27)) * 0x94D049BB133111EB) % 2 ^ 64
  z ^^^ (z >>> 31)

/-- sr_bits of R114. -/
def srBits (seed tensor step n : Nat) : Nat :=
  let key := srMix (seed ^^^ (tensor * 2 ^ 32 ||| step))
  let h := srMix ((key + n * 0x9E3779B97F4A7C15) % 2 ^ 64)
  srMix (h ^^^ key) >>> 32

/-- The bits of packed element `i` of a byte string (R83). -/
def Fmt.elemBits (f : Fmt) (b : Bytes) (i : Nat) : Nat :=
  match f with
  | .f6 => bitsOf (fieldAt b (i / 4 * 3) 3) (6 * (i % 4)) 6
  | .f4 => bitsOf (fieldAt b (i / 2) 1) (4 * (i % 2)) 4
  | _ => fieldAt b (i * (f.bits / 8)) (f.bits / 8)

/-- The value of packed element `i`. -/
def Fmt.elem (f : Fmt) (b : Bytes) (i : Nat) : Num := f.decode (f.elemBits b i)

/-- Elements packed into bytes (R83). -/
def Fmt.packAll (f : Fmt) (es : List Nat) : Bytes :=
  match f with
  | .f6 => (span 0 (ceilDiv es.length 4)).flatMap fun g =>
      leBytes 3 (sumN ((List.range 4).map fun i => nth 0 es (4 * g + i) * 2 ^ (6 * i)))
  | .f4 => (span 0 (ceilDiv es.length 2)).flatMap fun g => leBytes 1 (nth 0 es (2 * g) + 16 * nth 0 es (2 * g + 1))
  | _ => es.flatMap (leBytes (f.bits / 8))

/-- The exponent of an SE8 scale code: none for the NaN code (R84). -/
def se8 (c : Nat) : Option Int := if c = 0xFF then none else some ((c : Int) - 127)

/-- The largest element exponent of a block-scaled format (R110). -/
def Fmt.emax : Fmt → Int
  | .f8a => 8 | .f8b => 15 | .f6 => 4 | .f4 => 2 | _ => 0

/-- The element unit exponents of R93. -/
def Fmt.unit : Fmt → Int
  | .f8b => -16 | .f8a => -9 | .f6 => -4 | .f4 => -1 | _ => 0

/-- The accumulator mode of an operand pair: LONG true, F32 false, none where the pair is not allowed (R77, R184). -/
def pairMode (a b : FmtCode) : Option Bool :=
  let small (f : Fmt) := f == .f8a || f == .f8b || f == .f6 || f == .f4
  let half (f : Fmt) := f == .bf16 || f == .f16
  if small a.fmt && small b.fmt then some true
  else if a.fmt == .i8 && b.fmt == .i8 then some true
  else if half a.fmt && half b.fmt then some false
  else if a.fmt == .f32 && b.fmt == .f32 then some false
  else none

/-- The result of scaling a block for a write-out (R110 to R112). -/
structure BlockOut where
  scale : Nat
  elems : List Nat
  flags : RndFlags
  nanSpread : Bool
  deriving DecidableEq, Repr

def RndFlags.or (a b : RndFlags) : RndFlags :=
  ⟨a.sat || b.sat, a.ovfInf || b.ovfInf, a.unfZero || b.unfZero, a.nanLost || b.nanLost⟩

/-- A value divided by `2^E`. -/
def Num.scaleBy (v : Num) (k : Int) : Num := match v with | .fin s m e => .fin s m (e + k) | x => x

/-- One element of a block-scaled output, with saturation whatever SATB says (R111). -/
def Fmt.encodeScaled (f : Fmt) (rnd : Rnd) (v : Num) : Nat × RndFlags :=
  match v with
  | .inf s => (f.pack s f.maxFinite.1 f.maxFinite.2, { sat := true })
  | _ => f.encode true rnd v

/-- The larger of two magnitudes. -/
def magMax (a b : Nat × Int) : Nat × Int := if magLt a.1 a.2 b.1 b.2 then b else a

/-- The elements that a write-out stores of one block, scaled (R110 to R112). -/
def encodeBlock (f : Fmt) (vs : List (Num × Rnd)) : BlockOut :=
  if vs.any (·.1.isNan) then ⟨0xFF, vs.map fun _ => 0, {}, true⟩
  else
    let m := vs.foldl (fun acc v => match v.1 with | .fin _ m e => magMax acc (m, e) | _ => acc) ((0, 0) : Nat × Int)
    let e : Int :=
      if vs.any (·.1.isInf) then 127
      else if m.1 = 0 then -127
      else max (-127) (min 127 (magLog2 m.1 m.2 - f.emax))
    let es := vs.map fun v => f.encodeScaled v.2 (v.1.scaleBy (-e))
    ⟨(e + 127).toNat, es.map (·.1), es.foldl (fun a x => a.or x.2) {}, false⟩

end Sys2Proof.Machine
end

