-- ==== Sys2Proof/Machine/CodecFmt.lean ====
section
/-! DEFINITION. The stream formats of chapter 09 as functions of bytes alone: block codec (R428 to R439), sparse records
(R449 to R452), RAL-2P blocks (R459 to R462), and the fixed F32 sum of one chain (R227). -/

namespace Sys2Proof.Machine
open Sys2Proof

/-- The element formats of R380 and R428. -/
def elemFmt (c : Nat) : Option Fmt :=
  match c with
  | 0 => some .f32 | 1 => some .bf16 | 2 => some .f16 | 3 => some .f8a | 4 => some .f8b | _ => none

/-- Decoded bytes of a block (R428). -/
def blkDecoded (elem : Nat) : Nat := match elem with | 0 => 256 | 1 => 128 | 2 => 128 | _ => 64

/-- Bits stored per element at a lossy rate (R428): RATE 2 is 3/4, 3 is 1/2, 4 is 3/8. -/
def blkBits (elem rate : Nat) : Nat :=
  let k := match elem with | 0 => 0 | 1 => 1 | 2 => 1 | _ => 2
  match rate, k with
  | 2, 0 => 23 | 2, 1 => 11 | 2, _ => 5
  | 3, 0 => 15 | 3, 1 => 7 | 3, _ => 3
  | _, 0 => 11 | _, 1 => 5 | _, _ => 2

/-- Stored bytes of a block (R428); rate 1 is EXACT, rate 0 plain. -/
def blkStored (elem rate : Nat) : Nat :=
  match rate with
  | 0 => blkDecoded elem
  | 1 => blkDecoded elem + 8
  | _ => 8 + 8 * blkBits elem rate

/-- Stored size of a region of `len` decoded bytes (R429, R382). -/
def storedSize (elem rate len : Nat) : Nat :=
  if rate = 0 then len else len / blkDecoded elem * blkStored elem rate

/-- One bit of the CRC-16 of R431. -/
def crc16Bit (x : Nat) : Nat := if 0x8000 ≤ x then ((x * 2) % 0x10000) ^^^ 0x1021 else x * 2

/-- The check value of R431. -/
def crc16 (b : Bytes) : Nat :=
  b.foldl (fun c v => (List.range 8).foldl (fun x _ => crc16Bit x) (c ^^^ (v.toNat * 256))) 0xFFFF

/-- A block from its header fields and payload, with its check value (R430, R431). -/
def blkBuild (e ctl sub bidx : Nat) (payload : Bytes) : Bytes :=
  let h := leBytes 1 e ++ leBytes 1 ctl ++ leBytes 2 sub ++ leBytes 2 (bidx % 65536)
  h ++ leBytes 2 (crc16 (h ++ payload)) ++ payload

/-- `n` codes of `b` bits as one little-endian number (R432). -/
def packCodes (b : Nat) (cs : List Nat) : Bytes :=
  leBytes (b * cs.length / 8) (sumN (cs.mapIdx fun i c => c * 2 ^ (b * i)))

/-- The finite magnitudes of a list of values: the largest. -/
def largestMag (vs : List Num) : Nat × Int :=
  vs.foldl (fun acc v => match v with | .fin _ m e => magMax acc (m, e) | _ => acc) ((0, 0) : Nat × Int)

/-- round(|x| · 2^k), to nearest even or toward zero (R436). -/
def codeRound (trunc : Bool) (m : Nat) (e k : Int) : Nat :=
  if trunc then shiftNat m (e + k) else roundTo .rne m (e + k) 0 false

/-- A lossy block (R433 to R437), and whether it met a NaN. -/
def lossyEncode (_f : Fmt) (elem rate bidx : Nat) (trunc : Bool) (vs : List Num) : Bytes × Bool :=
  let b := blkBits elem rate
  let ctl := rate + elem * 8
  let zeros := List.replicate (8 * b) (0 : Byte)
  if vs.any Num.isNan then (blkBuild 0xFF ctl 0 bidx zeros, true)
  else if vs.all Num.isZero then (blkBuild 0 ctl 0 bidx zeros, false)
  else
    let inf := vs.any Num.isInf
    let m := largestMag vs
    let e : Int := if m.1 = 0 then -126 else max (-126) (min 127 (magLog2 m.1 m.2))
    let sub (j : Nat) : List Num := (vs.drop (16 * j)).take 16
    let o (j : Nat) : Nat :=
      let mj := largestMag (sub j)
      if mj.1 = 0 then 15 else (min 15 (max 0 (e - magLog2 mj.1 mj.2))).toNat
    let qmax := if inf then 2 ^ (b - 1) - 2 else 2 ^ (b - 1) - 1
    let code (i : Nat) (v : Num) : Nat :=
      let ej := e - o (i / 16)
      match v with
      | .nan => 0
      | .inf s => 2 ^ (b - 1) - 1 + b2n s * 2 ^ (b - 1)
      | .fin s mm ee =>
        let q := min qmax (codeRound trunc mm ee (b - 2 - ej))
        if q = 0 then 0 else q + b2n s * 2 ^ (b - 1)
    let subs := o 0 + o 1 * 16 + o 2 * 256 + o 3 * 4096
    (blkBuild (e + 127).toNat (ctl + (if inf then 64 else 0)) subs bidx (packCodes b (vs.mapIdx code)), false)

/-- One decoded block at a rate (R432 to R437): plain bytes in, stored bytes out, with the NaN event. -/
def blkEncode (elem rate bidx : Nat) (trunc : Bool) (plain : Bytes) : Bytes × Bool :=
  match elemFmt elem with
  | none => (plain, false)
  | some f =>
    match rate with
    | 0 => (plain, false)
    | 1 => (blkBuild 0 (1 + elem * 8) 0 bidx plain, false)
    | _ => lossyEncode f elem rate bidx trunc ((List.range 64).map (f.elem plain))

/-- A value rounded into ELEM by a decoder: beyond the largest finite value it saturates (R438). -/
def decodeInto (f : Fmt) (v : Num) : Nat :=
  match v with
  | .fin s m e =>
    if m = 0 then 0
    else
      let q := f.quantum m e
      let n := roundTo .rne m e q false
      if f.beyond s n q then f.pack s f.maxFinite.1 f.maxFinite.2 else f.pack s n q
  | .inf s => if f = .f8a then f.pack s f.maxFinite.1 f.maxFinite.2 else (f.overflow false s).1
  | .nan => f.nanBits

/-- The value of one code (R438). -/
def codeValue (b : Nat) (inf : Bool) (ej : Int) (c : Nat) : Num :=
  let q := c % 2 ^ (b - 1)
  let s := bitOf c (b - 1)
  if q = 0 then .zero
  else if inf && q == 2 ^ (b - 1) - 1 then .inf s
  else .fin s q (ej + 2 - b)

/-- The checks of R439: the reason code of the first that fails. -/
def blkCheck (elem rate bidx : Nat) (blk : Bytes) : Option Nat :=
  let e := fieldAt blk 0 1
  let ctl := fieldAt blk 1 1
  let sub := fieldAt blk 2 2
  let payload := blk.drop 8
  let pz := payload.all (· == 0)
  let b := blkBits elem rate
  let v := leNat payload
  if crc16 (blk.take 6 ++ payload) ≠ fieldAt blk 6 2 then some 0x01
  else if fieldAt blk 4 2 ≠ bidx % 65536 then some 0x02
  else if bitsOf ctl 0 3 ≠ rate ∨ bitsOf ctl 3 3 ≠ elem ∨ bitOf ctl 7 then some 0x03
  else if rate = 1 then (if e ≠ 0 ∨ sub ≠ 0 ∨ bitOf ctl 6 then some 0x05 else none)
  else if (e = 0 ∨ e = 0xFF) ∧ ¬ (sub = 0 ∧ bitOf ctl 6 = false ∧ pz) then some 0x05
  else if (List.range 64).any (fun i => bitsOf v (b * i) b == 2 ^ (b - 1)) then some 0x05
  else none

/-- A stored block decoded (R438): the reason of a failed check, or the plain bytes. -/
def blkDecode (elem rate bidx : Nat) (blk : Bytes) : Except Nat Bytes :=
  if rate = 0 then .ok blk
  else
    match blkCheck elem rate bidx blk, elemFmt elem with
    | some r, _ => .error r
    | none, none => .error 0x03
    | none, some f =>
      if rate = 1 then .ok (blk.drop 8)
      else
        let b := blkBits elem rate
        let e := fieldAt blk 0 1
        let sub := fieldAt blk 2 2
        let inf := bitOf (fieldAt blk 1 1) 6
        let v := leNat (blk.drop 8)
        let el (i : Nat) : Nat :=
          if e = 0 then 0
          else if e = 0xFF then f.nanBits
          else decodeInto f (codeValue b inf ((e : Int) - 127 - bitsOf sub (4 * (i / 16)) 4) (bitsOf v (b * i) b))
        .ok (f.packAll ((List.range 64).map el))

/-! ### One chain of an F32-mode sum (R227) -/

/-- A node of the adder tree: an absent child passes the other. -/
def treeNode (a b : Option W32) : Option W32 :=
  match a, b with
  | some x, some y => some (f32Add x y)
  | some x, none => some x
  | none, y => y

/-- The sum of a group of up to eight products by its positions (R227 rule 2). -/
def groupSum (kid : Nat → Option W32) : Option W32 :=
  treeNode (treeNode (treeNode (kid 0) (kid 1)) (treeNode (kid 2) (kid 3)))
    (treeNode (treeNode (kid 4) (kid 5)) (treeNode (kid 6) (kid 7)))

/-- A whole chain: groups of 8 in order, each added to the running sum; +0 without a product. -/
def chainSum (ps : List W32) : W32 :=
  let go := (List.range (ceilDiv ps.length 8)).foldl (fun (acc : Option W32) g =>
    treeNode acc (groupSum fun i => ps[8 * g + i]?)) none
  go.getD f32Zero

/-- The products of two F32 vectors, each rounded once, summed as one chain. -/
def chainDot (a b : List W32) : W32 := chainSum ((a.zip b).map fun p => f32Mul p.1 p.2)

/-! ### Sparse records -/

/-- The order of R450: a NaN above every number, then larger magnitude, then lower index. -/
def topBefore (a b : Nat × Num) : Bool :=
  match a.2, b.2 with
  | .nan, .nan => a.1 < b.1
  | .nan, _ => true
  | _, .nan => false
  | .inf _, .inf _ => a.1 < b.1
  | .inf _, _ => true
  | _, .inf _ => false
  | .fin _ m e, .fin _ n f => if magLt n f m e then true else if magLt m e n f then false else a.1 < b.1

/-- The BF16 value sent for a kept element (R450). -/
def topSent (v : Num) : Nat :=
  match v with
  | .nan => 0x7FC0
  | .inf s => 0x7F7F + b2n s * 0x8000
  | _ => let w := (Fmt.bf16.encode false .rne v).1
         if w % 0x8000 = 0x7F80 then w - 1 else w

/-- A sparse record's encoding: the record, the residual of every element, and the NAN_IN event. -/
structure SparseOut where
  record : Bytes
  residual : List W32
  nanIn : Bool
  deriving DecidableEq, Repr

/-- A TOPK record (R449, R450); a NaN or an infinity that it keeps shows in NAN_IN (R464). -/
def topkEncode (k bidx : Nat) (xs : List W32) : SparseOut :=
  let items := xs.mapIdx fun i w => (i, f32Val w)
  let kept := (sortBy topBefore items).take k
  let keptIdx := sortBy (fun (a b : Nat × Num) => a.1 < b.1) kept
  let ents := keptIdx.flatMap fun e => leBytes 2 e.1 ++ leBytes 2 (topSent e.2)
  let res := xs.mapIdx fun i w =>
    match keptIdx.find? (fun e => e.1 == i) with
    | some e => if e.2.isNan || e.2.isInf then f32Zero else f32Sub w (f32Of (Fmt.bf16.decode (topSent e.2)))
    | none => w
  ⟨leBytes 2 (bidx % 65536) ++ leBytes 2 (crc16 ents) ++ ents, res, kept.any fun e => e.2.isNan || e.2.isInf⟩

/-- A SIGN record (R451). -/
def signEncode (bidx : Nat) (xs : List W32) : SparseOut :=
  let vs := xs.map f32Val
  let bad := vs.any fun v => v.isNan || v.isInf
  let s : W32 := if bad then f32Nan
    else f32Mul (chainSum (xs.map fun w => w &&& 0x7FFFFFFF#32)) 0x3C800000#32
  let signs := sumN (xs.mapIdx fun i w => b2n (w.getLsbD 31) * 2 ^ i)
  let body := leBytes 4 s.toNat ++ leBytes 8 signs
  let res := xs.map fun w =>
    if bad then f32Zero else f32Sub w (if w.getLsbD 31 then s ||| 0x80000000#32 else s)
  ⟨leBytes 2 (bidx % 65536) ++ leBytes 2 (crc16 body) ++ body, res, bad⟩

/-- A sparse record decoded to F32 values (R452): the reason of a failed check, or the values of its `n` elements. -/
def sparseDecode (sign : Bool) (n k bidx : Nat) (rec : Bytes) : Except Nat (List W32) :=
  if crc16 (rec.drop 4) ≠ fieldAt rec 2 2 then .error 0x01
  else if fieldAt rec 0 2 ≠ bidx % 65536 then .error 0x02
  else if sign then
    let s := BitVec.ofNat 32 (fieldAt rec 4 4)
    let bits := fieldAt rec 8 8
    .ok ((List.range 64).map fun i => if bitOf bits i && !(f32Val s).isNan then s ^^^ 0x80000000#32 else s)
  else
    let idx := (List.range k).map fun i => fieldAt rec (4 + 4 * i) 2
    if idx.any (· ≥ n) ∨ (List.range (k - 1)).any (fun i => nth 0 idx (i + 1) ≤ nth 0 idx i) then .error 0x09
    else .ok ((List.range n).map fun j =>
      match (List.range k).find? (fun i => nth 0 idx i == j) with
      | some i => f32Of (Fmt.bf16.decode (fieldAt rec (6 + 4 * i) 2))
      | none => f32Zero)

/-! ### RAL-2P streams -/

/-- The header checks of R462. -/
def r2Header (elem count : Nat) (h : Bytes) : Bool :=
  fieldAt h 0 4 == 0x50324C52 && fieldAt h 4 2 == 2 && fieldAt h 6 1 == elem && fieldAt h 7 1 == 0
    && 64 * fieldAt h 8 4 == count && fieldAt h 12 4 == 0

/-- The blocks that sub-stream `j` must hold (R460). -/
def r2Blocks (blocks j : Nat) : Nat := (blocks + 15 - j) / 16

/-- One RAL-2P block at an offset of a sub-stream: its length and elements, or the reason it fails (R461, R462). -/
def r2Block (elem : Nat) (b : Bytes) : Except Nat (Nat × List Nat) :=
  match elemFmt elem, b with
  | some f, e :: w :: rest =>
    let wid := w.toNat
    let top := if elem = 1 then 16 else 24
    if ¬ (wid = 0 ∨ (2 ≤ wid ∧ wid ≤ top)) ∨ (e.toNat = 0) ≠ (wid = 0) ∨ e.toNat = 0xFF then .error 0x05
    else if rest.length < 8 * wid then .error 0x07
    else if wid = 0 then .ok (2, List.replicate 64 0)
    else
      let v := leNat (rest.take (8 * wid))
      let codes := (List.range 64).map fun i => bitsOf v (wid * i) wid
      let q (c : Nat) := c % 2 ^ (wid - 1)
      if codes.any (fun c => c == 2 ^ (wid - 1)) ∨ maxN (codes.map q) < 2 ^ (wid - 2) then .error 0x05
      else .ok (2 + 8 * wid, codes.map fun c => decodeInto f (codeValue wid false ((e.toNat : Int) - 127) c))
  | _, _ => .error 0x07

/-- The blocks of a sub-stream in order; the first failure stops it: elements of the blocks read, and the failure with
the place in the sub-stream. -/
def r2Sub (elem : Nat) : Nat → Nat → Bytes → List (List Nat) × Option (Nat × Nat)
  | 0, i, b => ([], if b.isEmpty then none else some (i, 0x07))
  | n + 1, i, b =>
    match r2Block elem b with
    | .error r => ([], some (i, r))
    | .ok (len, els) => let (rest, f) := r2Sub elem n (i + 1) (b.drop len); (els :: rest, f)

end Sys2Proof.Machine
end

