-- ==== Sys2Proof/Machine/Codes.lean ====
section
/-! DEFINITION. The status codes of R918, in the classes of R17. -/

namespace Sys2Proof.Machine
open Sys2Proof

def stOk : Status := 0x0000#16
def stOkLate : Status := 0x0001#16
def stOkFallback : Status := 0x0002#16
def stOkRecovered : Status := 0x0003#16
def stExpired : Status := 0x0101#16
def stQuotaOver : Status := 0x0102#16
def stBadDescriptor : Status := 0x0103#16
def stNoResource : Status := 0x0104#16
def stKeyEmpty : Status := 0x0105#16
def stKeyBusy : Status := 0x0106#16
def stRoleChanged : Status := 0x0201#16
def stHostStall : Status := 0x0202#16
def stDeadlineMiss : Status := 0x0203#16
def stTileOvf : Status := 0x0204#16
def stAborted : Status := 0x0205#16
def stParityLost : Status := 0x0301#16
def stCheckFail : Status := 0x0302#16
def stTierFail : Status := 0x0303#16
def stOrderStall : Status := 0x0401#16
def stLinkDown : Status := 0x0402#16
def stPeerLost : Status := 0x0403#16
def stAuthFail : Status := 0x0501#16
def stSigFail : Status := 0x0502#16
def stUpdActive : Status := 0x0601#16
def stUpdHoldup : Status := 0x0602#16
def stUpdLock : Status := 0x0603#16
def stImageBad : Status := 0x0604#16

/-- The catalogue of R918. -/
def statusCatalogue : List Status :=
  [stOk, stOkLate, stOkFallback, stOkRecovered, stExpired, stQuotaOver, stBadDescriptor, stNoResource, stKeyEmpty,
   stKeyBusy, stRoleChanged, stHostStall, stDeadlineMiss, stTileOvf, stAborted, stParityLost, stCheckFail, stTierFail,
   stOrderStall, stLinkDown, stPeerLost, stAuthFail, stSigFail, stUpdActive, stUpdHoldup, stUpdLock, stImageBad]

/-- Class 0x00: a success (R17). -/
def isSuccess (c : Status) : Bool := c.toNat < 0x100

end Sys2Proof.Machine
end

