-- ==== Sys2Proof/Machine/State.lean ====
section
/-! DEFINITION. The state of the RAL-8M as plain data, its value right after power-off (State.reset: the unpowered module,
every register at its reset value), and the reasons a step could stop. Registers whose fields hardware does not change by
other rules live in the register file `regs` (Machine/Regs.lean); every other piece of state has a field of its own. -/

namespace Sys2Proof.Machine
open Sys2Proof

/-- No meaning of this model faults: every event of the table has an effect or has not come about (log entry 1).
`unreachable` is raised by nobody; it is safe. -/
inductive Fault where
  | unreachable
  deriving DecidableEq, Repr

/-- `notModelled`: a row that has no meaning yet, rejected by name (safe). No arm of this model is left so. -/
inductive Refusal where
  | notModelled (mnemonic : String)
  deriving DecidableEq, Repr

/-! ### Clocked islands, arbiters (chapter 01) -/

/-- One clocked island's crossings: values waiting on each side of its dual-clock queues, the event crossings into and
out of the island (in flight, pending); while the clock is stopped they hold what waits for the wake (R40 to R47). -/
structure IslandSt where
  inQ : List Bytes := []
  outQ : List Bytes := []
  inFlight : Bool := false
  inPend : Bool := false
  outFlight : Bool := false
  outPend : Bool := false
  deriving DecidableEq, Repr

/-- A request that waits at an arbiter: its priority (R51, R221) and the P0 grants made while it waited (R55). -/
structure WaitReq where
  req : Request
  prio : Fin 4
  p0Seen : Nat := 0
  deriving DecidableEq, Repr

/-- One arbiter (R51 to R57): waiting requests in order of arrival, reads that wait for an entry of a full merge table (R221),
the request granted last, and whether the tier drain rule of R378 is in its draining state. -/
structure ArbSt where
  waiting : List WaitReq := []
  unmerged : List Request := []
  granted : Option Request := none
  draining : Bool := false
  deriving DecidableEq, Repr

/-- An entry of a merge table (R219): the line, the resource whose arbiter its fetch waits at, the requests that share the
fetch, whether it has been granted, whether a write to the line was granted after it (R220). -/
structure MergeEntry where
  line : Nat
  resource : Nat
  joiners : List Request
  granted : Bool := false
  deriving DecidableEq, Repr

/-! ### Tiles (chapters 02 to 04) -/

/-- One accumulator element (R88, R227, R923). LONG: value, anchor, flags and the exact sum of an open block in units of
2^-286. F32: the running sum and the products of an open group by position in the group. -/
structure AccEl where
  value : Int := 0
  anchor : Int := -254
  anchored : Bool := false
  nan : Bool := false
  pinf : Bool := false
  ninf : Bool := false
  dropped : Bool := false
  openSum : Int := 0
  openBlk : Nat := 0
  running : Option W32 := none
  group : Nat := 0
  kids : List (Nat × W32) := []
  deriving DecidableEq, Repr

/-- One accumulator set (R74, R923, R149): mode, position count, what the first MMA since ACLR named, elements. -/
structure AccSet where
  long : Bool := true
  count : Nat := 0
  first : Option (Nat × Nat × Nat) := none
  elems : Tbl AccEl := []
  deriving DecidableEq, Repr

/-- A loop stack entry (R141): first word of the body, its last word, iterations left, and whether the CALL at its last word
has not returned yet. -/
structure LoopEntry where
  start : Nat
  last : Nat
  left : Nat
  calling : Bool := false
  deriving DecidableEq, Repr

/-- The newt states of R165. -/
inductive NewtState where
  | empty | ready | running | waiting | held | faulted | retired
  deriving DecidableEq, Repr

/-- What a WAITING newt waits for (R165). -/
inductive WaitFor where
  | nothing
  | bar
  | wev (ctr : Fin 16) (v : W64)
  | xwait (n : Nat)
  | fence (rd : Nat)
  | queueFull
  | group
  | tier | ingest | host | coll
  deriving DecidableEq, Repr

/-- The units of R144; SWAP, a tile command that no unit carries out, stands under `none` (R140, R143). -/
inductive TileUnit where
  | matrix | fill | vector | wout | fexp | none
  deriving DecidableEq, Repr

/-- A tile command (R143, R147): number, opcode, FN, the half it is bound to, the set masks of a write-out at issue
(R225), and the copies taken at issue: its descriptor, its write-out control block, its transfer descriptor and its
multicast bitmap. -/
structure TileCmd where
  num : Nat
  op : Nat
  unit : TileUnit
  fn : Nat
  half : Nat
  rowMask : W64 := 0
  colMask : W64 := 0
  desc : Bytes := []
  wcb : Bytes := []
  xfer : Bytes := []
  bitmap : Bytes := []
  started : Bool := false
  /-- What the started command writes, which a cut leaves without a defined value (R167): memory ranges, ranges of the
  operand buffer, an accumulator set, the fragment of the factor expansion unit. -/
  wrote : List (Nat × Nat) := []
  wroteOb : List (Nat × Nat) := []
  wroteAcc : Option Nat := none
  wroteFactor : Bool := false
  /-- Elements whose chain this write-out delivered early (R230): element bit address and chain. -/
  held : List (Nat × Nat) := []
  deriving DecidableEq, Repr

/-- A fragment delivered by FEXP (R123, R924): declared format code and element bits, row-major. -/
structure FactorOut where
  fmt : Nat
  elems : List Nat
  deriving DecidableEq, Repr

/-- An element of a C tensor under a binding: the chains added so far and their sum (an F32 word or a long partial), the
partials held, the write-out control block of chain 0 with the element's logical index (R229 to R231). -/
structure ChainEl where
  next : Nat := 0
  sum : Bytes := []
  held : List (Nat × Bytes) := []
  wcb : Bytes := []
  index : Nat := 0
  deriving DecidableEq, Repr

/-- A tile's active binding (R195, R196): scratch offset, descriptor copy, visited position (none before the first). -/
structure Binding where
  off : Nat
  desc : Bytes
  pos : Option Nat := none
  /-- The convolution whose rows A is gathered by (R297). -/
  conv : Bytes := []
  deriving DecidableEq, Repr

/-- A loaded image (R160, R162): the bytes kept in the program store. -/
structure Image where
  bytes : Bytes := []
  deriving DecidableEq, Repr

/-- One tile and its newt. -/
structure Tile where
  st : NewtState := .empty
  g : Tbl W64 := []
  p : Tbl Bool := []
  pc : Nat := 0
  loops : List LoopEntry := []
  events : Tbl Nat := []
  imem : Tbl W32 := []
  smem : Tbl Byte := []
  image : Option Image := none
  queue : List TileCmd := []
  issued : Nat := 0
  half : Nat := 0
  wait : WaitFor := .nothing
  waitSince : Nat := 0
  halting : Bool := false
  bars : Nat := 0
  naks : Nat := 0
  posted : Nat := 0
  heldEvents : List EvMsg := []
  step : W64 := 0
  part : Option PartId := none
  epoch : BitVec 16 := 0
  index : Nat := 0
  groupSize : Nat := 0
  lastMark : Option Nat := none
  unsentMark : Option (Nat × Nat) := none
  lastForward : Option Nat := none
  /-- Bytes that the HOST_OUT call in progress has appended (R718, R720). -/
  hostDone : Nat := 0
  acc : Tbl AccSet := []
  masks : Tbl (W64 × W64) := []
  ob : Tbl Byte := []
  /-- Bytes of the operand buffer that stand for padded positions (R295). -/
  padded : Tbl Bool := []
  /-- For the first byte of a row of an unscaled A, the blocks of the whole reduction that hold padded positions alone (R89,
  R295). -/
  padBlocks : Tbl (List Nat) := []
  factor : FactorOut := ⟨1, []⟩
  binding : Option Binding := none
  deriving DecidableEq, Repr

/-- A multicast hold entry (R215, R216): the FILL's key (the transfer descriptor's bytes), the data, members still to
take their copy. -/
structure HoldEntry where
  key : Bytes
  data : Bytes
  left : List TileId
  deriving DecidableEq, Repr

/-- A partial record held at the merging slot (R269, R271). -/
structure PartialRec where
  part : PartId
  bytes : Bytes
  deriving DecidableEq, Repr

/-- A staged level tile of a partition's walk (R202): member tile, level, operand, origin, and a snapshot of the HOME
bytes it was staged from, by home address. -/
structure Staged where
  tile : TileId
  off : Nat
  level : Nat
  opnd : Nat
  key : List Nat
  bytes : Tbl Byte
  deriving DecidableEq, Repr

/-! ### Strata (chapter 07) -/

/-- A region descriptor of R326. -/
structure Region where
  offset : Nat
  length : Nat
  cls : Nat
  flags : Nat
  tile : Nat
  part : Nat
  source : Nat
  deriving DecidableEq, Repr

/-- A die's scrub pass: the next line, the period it began with in seconds, its start, and whether its overrun was
reported (R355, R356). -/
structure ScrubSt where
  pos : Nat := 0
  period : Nat := 60
  start : Nat := 0
  behind : Bool := false
  deriving DecidableEq, Repr

structure Strata where
  /-- Region table entry `n` of tile `t` at key 64·t + n (R328, R361). -/
  regions : Tbl (Option Region) := []
  /-- Strata byte addresses whose parity bit does not fit (R322 to R325). -/
  badParity : Tbl Bool := []
  /-- Spare lines that a line (address div 256) has taken (R344, R346). -/
  mapped : Tbl Nat := []
  /-- Retired tile to spare tile (R173, R350). -/
  remap : Tbl (Option Nat) := []
  /-- A remap copy in progress: retired tile, spare tile (R347, R348). -/
  copying : List (Nat × Nat) := []
  /-- The scrubber of each die (R355, R356). -/
  scrub : Tbl ScrubSt := []
  /-- CLEAN refetches on their way: address of a failing byte and who met it; the first of a line began the refetch, the others of
  the line share it (R337, R338, R343). -/
  refetching : List (Nat × FoundBy) := []
  /-- RECOMPUTE failures of a running step awaiting their replay: partition, tile, offset of the byte (R358). -/
  awaiting : List (PartId × Nat × Nat) := []
  /-- Tiles with a line that needs repair in a stratum without a spare line, whose hardware fault is due (R345). -/
  worn : List Nat := []
  deriving DecidableEq, Repr

/-! ### Tiers (chapter 08) -/

/-- A tier region (R380). -/
structure TierRegion where
  backed : Bool
  part : PartId
  codec : Nat
  elem : Nat
  stepFlush : Bool
  base : Nat
  length : Nat
  backing : Nat
  deriving DecidableEq, Repr

/-- States of a 2 KiB unit of a BACKED region (R384). -/
inductive UnitSt where
  | absent | clean | dirty
  deriving DecidableEq, Repr

/-- A resident frame (R384): unit states by unit number (absent unless listed), ordinal of its last fill (R386). -/
structure Frame where
  units : Tbl UnitSt := []
  filled : Nat := 0
  deriving DecidableEq, Repr

/-- A write-combining entry (R374, R375): bytes by offset in the unit, priority, the steps that wrote it, write order, the time
of its last write. -/
structure WcEntry where
  bytes : List (Nat × Byte) := []
  prio : Fin 4 := 3
  writers : List (PartId × W64) := []
  order : Nat := 0
  written : Nat := 0
  deriving DecidableEq, Repr

/-- A weight stream (R394 to R399): descriptor, layers present, layers acquired and not released, last acquired layer,
direction of travel, layers being fetched. -/
structure WStream where
  desc : Bytes
  present : List Nat := []
  acquired : List Nat := []
  last : Option Nat := none
  down : Bool := false
  fetching : List Nat := []
  /-- Layers whose fetch waits for its slot (R398). -/
  want : List Nat := []
  deriving DecidableEq, Repr

structure Tier where
  regions : List TierRegion := []
  /-- Resident frames by frame base address. -/
  frames : Tbl (Option Frame) := []
  fillOrder : Nat := 0
  /-- Write-combining entries by unit address. -/
  wc : Tbl (Option WcEntry) := []
  wcOrder : Nat := 0
  /-- Units or lines marked lost, by unit address (R410). -/
  lost : Tbl Bool := []
  /-- Tier-1 pseudo-channel 64·s + p: 1 retired, 2 FAILED. Tier-2 channel c: the same (R408). -/
  pcState : Tbl Nat := []
  chState : Tbl Nat := []
  /-- The units that took a retired unit's addresses: key of the pseudo-channel, or 1024 plus its channel; pseudo-channels of the
  same stack or channels (R409). -/
  targets : Tbl (List Nat) := []
  /-- Redirections in progress, with whether the unit is a tier-2 channel (R411). -/
  redirecting : List (Bool × Nat) := []
  /-- Times of uncorrectable errors and of late requests: key, times (R408). -/
  ueTimes : Tbl (List Nat) := []
  lateTimes : Tbl (List Nat) := []
  /-- Stream 8·p + n. -/
  streams : Tbl (Option WStream) := []
  /-- Ranges freed and not yet refilled: base, length (R751, R872). -/
  unfilled : List (Nat × Nat) := []
  deriving DecidableEq, Repr

/-! ### Links (chapter 10) -/

/-- The link states of R498. -/
inductive LinkState where
  | disabled | bypassed | training | standby | active | degraded | retrain | failed
  deriving DecidableEq, Repr

/-- A message waiting at a link egress (R481): its bytes so far, virtual channel, buffer class, priority, slot once its first
flit is sent, bytes sent, order of arrival, and the SEQ of its last flit once that is sent. A relayed message goes on flit by
flit (R493): whether all its bytes are in, and the ingress link and its VC and class (3·vc + class) whose buffers hold the
flits from number `freed` on (R478, R480). `p0` counts its flits in the P0 queue of the egress (R56). -/
structure OutMsg where
  bytes : Bytes
  vc : Nat
  cls : Nat
  prio : Nat
  order : Nat
  slot : Option Nat := none
  sent : Nat := 0
  lastSeq : Option Nat := none
  whole : Bool := true
  src : Option (Nat × Nat) := none
  freed : Nat := 0
  p0 : Nat := 0
  deriving DecidableEq, Repr

/-- What becomes of the flits of a message that comes in (R481, R493): no message, one kept until it is whole, one that goes on
as the egress message of an order, one that was refused. -/
inductive InMsg where
  | idle
  | here (b : Bytes)
  | on (order : Nat)
  | dropped
  deriving DecidableEq, Repr

/-- One torus link: sender (R474 to R481), receiver (R474, R478, R482), training and join. -/
structure Link where
  st : LinkState := .bypassed
  seq : Nat := 0
  replay : List (Nat × Bytes) := []
  resend : List (Nat × Bytes) := []
  /-- How often each unacknowledged flit has been sent again, by SEQ (R477). -/
  tries : Tbl Nat := []
  egress : List OutMsg := []
  unacked : List OutMsg := []
  /-- Credits used per 3·vc + class: credits held are the peer's buffers less these (R478, R480). -/
  used : Tbl Nat := []
  expect : Nat := 0
  rejecting : Bool := false
  unackedRx : Nat := 0
  /-- The unfinished message of each slot, per 16·vc + slot (R481). -/
  asm : Tbl InMsg := []
  /-- Credits to return per 3·vc + class. -/
  freed : Tbl Nat := []
  lanes : BitVec 4 := 0
  trained : Bool := false
  /-- No new flit is sent while a neighbour joins (R504 step 5), and a JOIN_READY is owed on this link. -/
  stopped : Bool := false
  readyOwed : Bool := false
  /-- The WHY code that a failed RETRAIN will report (R508, R517). -/
  cause : Nat := 0
  deriving DecidableEq, Repr

/-- Where the join of an axis stands (R504, R505). -/
inductive JoinStep where
  | idle | half | sent | relaying | retryWait
  deriving DecidableEq, Repr

structure JoinSt where
  step : JoinStep := .idle
  readyPlus : Bool := false
  readyMinus : Bool := false
  retries : Nat := 0
  deriving DecidableEq, Repr

structure Fabric where
  links : Tbl Link := []
  /-- Messages delivered to this module and not yet acted on. -/
  inbox : List Bytes := []
  msgOrder : Nat := 0
  tagNext : Nat := 0
  /-- NACKs received (R486). -/
  nacks : Nat := 0
  /-- Millionths of a nanosecond by which the slew has moved fabric time beyond whole nanoseconds (R514). -/
  slewAcc : Int := 0
  /-- Physical coordinate and pod extents (R487), as numbers x, y, z. -/
  phys : BitVec 15 := 0
  ext : Nat × Nat × Nat := (1, 1, 1)
  /-- Chip map entries that differ from the reset rule of R495, by logical identifier: some coordinate, or none. -/
  map : Tbl (Option (Option (BitVec 15))) := []
  mapGen : W32 := 0
  /-- Clasp channels commanded open (R502). -/
  clasps : BitVec 18 := 0
  sensed : BitVec 18 := 0
  joins : Tbl JoinSt := []
  /-- Fabric time: locked once, slew in ppm, holdover, parent direction (R511 to R515). -/
  locked : Bool := false
  slew : Int := 0
  holdover : Bool := false
  parent : Option (Fin 6) := none
  gm : Bool := false
  deriving DecidableEq, Repr

/-! ### Collectives (chapter 11) -/

/-- A collective issued on this chip (R541): its sequence number, descriptor, digest, order of admission, issuing step. -/
structure CollOp where
  seq : W32
  desc : Bytes
  digest : W32
  order : Nat
  step : W64
  deriving DecidableEq, Repr

/-- A chunk granted to a sender (R552, R557): sequence number, PASS, CHUNK, the sender's coordinate, digest, BYTES of its
REQ, the die that receives it, the bytes so far, whether its check has passed, checks failed (R556). -/
structure Chunk where
  seq : W32
  pass : Byte
  chunk : W32
  src : BitVec 15
  digest : W32
  size : Nat
  die : Die
  data : Bytes := []
  complete : Bool := false
  fails : Nat := 0
  deriving DecidableEq, Repr

/-- A chunk sent and kept until its ACK (R556): logical destination and its coordinate at the REQ, header fields, data, tag
of its messages, whether its REQ has gone, whether granted and under which epoch, whether sent again. -/
structure SentChunk where
  chip : Nat
  dst : BitVec 15 := 0
  pass : Byte
  chunk : W32
  data : Bytes
  crc : W32
  tag : W32
  asked : Bool := false
  granted : Bool := false
  epoch : BitVec 16 := 0
  again : Bool := false
  deriving DecidableEq, Repr

/-- The running collective of a stream: its operation, the phase it is in, the items it holds by domain and number in
travelling form (R546), chunks received and not yet used, chunks sent, units used in this phase, its sums of R573, and the
time of its last progress (R563). -/
structure CollRun where
  op : CollOp
  phase : Nat := 0
  vals : Tbl Bytes := []
  recv : List Chunk := []
  sent : List SentChunk := []
  used : Nat := 0
  qin : W32 := 0
  qout : W32 := 0
  lastMove : Nat := 0
  deriving DecidableEq, Repr

/-- Stream states of R532. -/
inductive CollState where
  | closed | opened | running | failed
  deriving DecidableEq, Repr

structure CollStream where
  st : CollState := .closed
  wdog : Nat := 0
  nextSeq : W32 := 0
  lzOff : Nat := 0
  pending : List CollOp := []
  run : Option CollRun := none
  failStatus : Status := 0
  /-- Collectives ahead of NEXT_SEQ that end when they would start (R570), and whether this module must tell the others. -/
  aborts : List (W32 × Status × Bool) := []
  held : List Chunk := []
  /-- Tags of the GRANT, ACK and RESEND messages sent for the stream's collectives (R566). -/
  tags : List W32 := []
  /-- Collectives ended, for COLL_WAIT: sequence number, status, other sequence number. -/
  ended : List (W32 × Status × W32) := []
  deriving DecidableEq, Repr

/-- A request waiting for its grant at a die (R557 to R559): the REQ message and its destination die. -/
structure CollReqEntry where
  die : Die
  msg : Bytes
  deriving DecidableEq, Repr

structure Coll where
  /-- Stream 64·p + s. -/
  streams : Tbl CollStream := []
  requests : List CollReqEntry := []
  order : Nat := 0
  deriving DecidableEq, Repr

/-! ### Checkpoints (chapter 12) -/

/-- A shard: the descriptor bytes of R580 and R581. -/
structure Shard where
  header : Bytes
  extents : List Bytes
  deriving DecidableEq, Repr

/-- A store (R584), the slot that a take is writing, and the chunk records that it has taken (R603). -/
structure Store where
  part : PartId
  srcPart : Nat
  srcChip : Nat
  base : Nat
  length : Nat
  writing : Option Nat := none
  got : Nat := 0
  deriving DecidableEq, Repr

/-- A take that drains (R591 to R605): command, AFTER_STEP, snapshot time, take counter, key slot, generation and key, the
buddy's chip, partition and its epoch, the slot to write, the extent table of its manifest, the extents as the drain reads
them (address, length, whether it is a live tier extent), next chunk, chunks sent ahead of
order and chunks that a waiting write needs next (R595), tier units protected and not yet drained, the pool: its base,
length, bytes used and the copies by unit address; tags of the messages sent. -/
structure Take where
  cid : Nat
  afterStep : W64
  snapTime : Nat
  seq : W32
  keySlot : Nat
  keyGen : Byte
  key : Bytes
  srcChip : Nat
  buddy : Nat
  buddyPart : Nat
  epoch : BitVec 16
  slot : Nat
  table : List Bytes := []
  extents : List (Nat × Nat × Bool) := []
  next : Nat := 0
  ahead : List Nat := []
  urgent : List (Nat × Nat) := []
  prot : Tbl Bool := []
  poolBase : Nat := 0
  poolLen : Nat := 0
  poolUsed : Nat := 0
  pool : Tbl Nat := []
  tags : List W32 := []
  deriving DecidableEq, Repr

structure Ckpt where
  shards : Tbl (Option Shard) := []
  stores : List Store := []
  takes : Tbl (Option Take) := []
  counter : W32 := 0
  /-- The data that READ_DATA messages have delivered, by tag (R483). -/
  answers : List (W32 × Bytes) := []
  deriving DecidableEq, Repr

/-! ### Ingest (chapter 13) -/

/-- A source entry and its feed ordinal (R632). -/
structure SrcEntry where
  addr : Nat
  length : Nat
  obj : Nat
  ordinal : Nat
  deriving DecidableEq, Repr

/-- A component of a sample on its way: record bytes, then output data, count, kind, flags (R644, R651). -/
structure Comp where
  num : Nat
  kind : Nat
  codec : Nat := 0
  firstFrame : Nat := 0
  count : Nat := 0
  bits : Bytes := []
  shape : Nat := 0
  fmt : Nat := 0
  hdrFw : Bool := false
  pair : Option PairId := none
  ctx : Nat := 0
  frames : List Picture := []
  framesSeen : Nat := 0
  framesKept : Nat := 0
  /-- Element codes of the shaped frames, and the output format's code (R666). -/
  codes : List Nat := []
  outFmt : Nat := 0
  stats : Bytes := []
  metaTrunc : Bool := false
  out : Bytes := []
  outCount : Nat := 0
  trunc : Bool := false
  lossy : Bool := false
  decoded : Bool := false
  shaped : Bool := false
  status : Status := 0
  stage : Nat := 3
  deriving DecidableEq, Repr

/-- A sample between PARSE and its slot (R646 to R652). -/
structure Sample where
  id : Nat
  seq : Nat
  obj : Nat
  entry : Nat
  at_ : Option Nat := none
  notAfter : Option Nat := none
  comps : List Comp := []
  expectComps : Nat := 0
  admitted : Bool := false
  lateNs : Nat := 0
  late : Bool := false
  status : Status := 0
  stage : Nat := 2
  /-- Its failure already stands in ING_PIPEERR as that of its object. -/
  logged : Bool := false
  /-- The locket it was read from, and the slot that the locket holds (R677). -/
  locket : Option Nat := none
  raw : Bytes := []
  deriving DecidableEq, Repr

/-- An output slot in use: index, taken, its locket still to be read (R653, R676), given back while that read is owed. -/
structure SlotUse where
  index : Nat
  taken : Bool
  locketOwed : Bool
  given : Bool
  deriving DecidableEq, Repr

/-- A locket owed (R673, R674): its slot, index and offset in the locket area, the feed ordinal of its entry, and the ELEM,
RATE, slot offset and length of each run. -/
structure LocketDue where
  slot : Nat
  index : Nat
  off : Nat
  entry : Nat
  runs : List (Nat × Nat × Nat × Nat)
  deriving DecidableEq, Repr

/-- Pipeline states of R680. -/
inductive PipeState where
  | closed | opened | closing
  deriving DecidableEq, Repr

structure Pipe where
  st : PipeState := .closed
  desc : Bytes := []
  part : PartId := 0
  closeCid : Option Nat := none
  feedNext : Nat := 0
  entries : List SrcEntry := []
  /-- The object in DECRYPT: its entry, bytes left, next segment number. -/
  sealed_ : List (SrcEntry × Bytes × Nat) := []
  /-- Objects in PARSE: entry, bytes left, whether the file header was checked, and how the object ended before PARSE: none
  while more bytes will come. -/
  parse : List (SrcEntry × Bytes × Bool × Option Status) := []
  /-- The sample being assembled. -/
  current : Option Sample := none
  samples : List Sample := []
  sampleNext : Nat := 0
  /-- Slots made ready, in order, with their index. -/
  ready : List Nat := []
  slots : List SlotUse := []
  slotNext : Nat := 0
  locketNext : Nat := 0
  locketAt : Nat := 0
  /-- Lockets owed, in the order in which their slots became ready (R673). -/
  locketDue : List LocketDue := []
  deriving DecidableEq, Repr

/-- A stream context of a video pair (R655): pipeline, sample sequence number, component; an encode has its command. -/
structure VidCtx where
  pipe : Option PipeId
  sample : Nat
  comp : Nat
  cid : Option Nat
  /-- It may have begun a frame: so while dispatch is not held; while it is held, until its pair has finished the one frame it had
  begun (R64, R68). -/
  frame : Bool := true
  deriving DecidableEq, Repr

/-- A dictionary (R668): image address, header and the tile and offset of each die's copy. -/
structure Dict where
  image : Nat
  header : Bytes
  places : List (Nat × Nat)
  deriving DecidableEq, Repr

structure Ingest where
  pipes : Tbl Pipe := []
  /-- Context 64·pair + c. -/
  ctxs : Tbl (Option VidCtx) := []
  lastCtx : Tbl Nat := []
  /-- Dictionary 4·p + n. -/
  dicts : Tbl (Option Dict) := []
  deriving DecidableEq, Repr

/-! ### Host port (chapter 14) -/

inductive QueueState where
  | free | active | error | draining
  deriving DecidableEq, Repr

/-- A submission entry fetched and not yet admitted: its bytes, the at-time of its doorbell and that doorbell's arrival. -/
structure Entry where
  bytes : Bytes
  doorAt : Option Nat
  arrival : Nat
  deriving DecidableEq, Repr

/-- A queue (R693, R694): the descriptor's fields, its live counters, credits, and the output being assembled. -/
structure Queue where
  st : QueueState := .free
  ring : Nat := 0
  cpl : Nat := 0
  pring : Nat := 0
  hold : Nat := 0
  ringLog : Nat := 0
  cplLog : Nat := 0
  prLog : Nat := 0
  page : Nat := 0
  part : Nat := 0xFF
  fn : Nat := 0
  flags : Nat := 0
  client : Nat := 0
  vector : Nat := 0
  vslot : Nat := 0
  hostTmo : Nat := 0
  /-- Entries fetched, records written, pages posted, records consumed, pages armed up to, as counts; the last tail as an
  index. -/
  head : Nat := 0
  tail : Nat := 0
  cplTail : Nat := 0
  prTail : Nat := 0
  cplHead : Nat := 0
  prHead : Nat := 0
  /-- Entries fetched and awaiting admission, oldest first. -/
  entries : List Entry := []
  /-- Entries whose read is on its way: how many, with the doorbell's at-time and arrival. -/
  fetching : Option (Nat × Option Nat × Nat) := none
  doorAt : Option Nat := none
  doorArrival : Nat := 0
  lastErr : Status := 0
  hostStall : Bool := false
  /-- Bytes in the holdback page; a complete page waits with its END bit since a time. -/
  holdLen : Nat := 0
  holdFull : Option (Bool × Nat) := none
  /-- Tiles whose HOST_OUT calls wait or run, in order of arrival (R718). -/
  callers : List TileId := []
  deleteCid : Option Nat := none
  withheld : List (Bytes) := []
  deriving DecidableEq, Repr

/-- Where a remote command came from (R700): the requester's coordinate and chip, the message tag and epoch. -/
structure Origin where
  phys : BitVec 15
  chip : Nat
  msgTag : W32
  deriving DecidableEq, Repr

/-- An admitted command (R722): the entry, with who pays and where its completion goes. -/
structure Cmd where
  id : Nat
  queue : Option Nat
  origin : Option Origin
  opcode : Nat
  flags : Nat
  tag : W32
  at_ : Option Nat
  late : Bool
  payload : Nat
  payBytes : Option Bytes
  payLen : Nat
  inl : Bytes
  fn : Nat
  part : Nat
  client : Nat
  deadlineQ : Bool
  /-- The not-after time of its entry, for a take that is held (R589). -/
  notAfter : Option Nat := none
  begun : Option Nat := none
  /-- The command has been taken up by its unit and waits for it to end. -/
  started : Bool := false
  deriving DecidableEq, Repr

/-- One MSI-X vector (R715): masked (set at reset by the rules of MSI-X, log entry 9), pending, in its holdoff, an event noted during it. -/
structure MsixVec where
  masked : Bool := true
  pending : Bool := false
  holdoff : Bool := false
  noted : Bool := false
  deriving DecidableEq, Repr

/-- A VF's binding (R697): partition and queue limit. -/
structure VfBind where
  part : PartId
  limit : Nat
  deriving DecidableEq, Repr

/-- A command sent to another chip (R700). -/
structure RemoteOut where
  cid : Nat
  msgTag : W32
  deriving DecidableEq, Repr

/-- An access of a BAR4 aperture that must wait (R324, R411, R595): function, offset, length, and the data of a write. -/
structure BarAccess where
  fn : FnId
  off : Nat
  len : Nat
  data : Option Bytes
  deriving DecidableEq, Repr

structure HostPort where
  queues : Tbl Queue := []
  /-- The coalescer: queues in order of arrival, with tail, at-time and arrival (R710). -/
  coalescer : List (Nat × Nat × Option Nat × Nat) := []
  /-- The pending bitmap: queue to tail, at-time, arrival. -/
  bitmap : Tbl (Option (Nat × Option Nat × Nat)) := []
  scan : Nat := 0
  cmds : List Cmd := []
  nextCid : Nat := 0
  /-- Vector 4096·fn + v. -/
  msix : Tbl MsixVec := []
  binds : Tbl (Option VfBind) := []
  d3hot : Tbl Bool := []
  perst : Bool := true
  remote : List RemoteOut := []
  /-- Event ring of each function: records written, records consumed. -/
  evtWritten : Tbl Nat := []
  evtHead : Tbl Nat := []
  ptmLocked : Bool := false
  /-- Accesses of the apertures that wait, oldest first. -/
  barHeld : List BarAccess := []
  /-- Functions whose ADMQ_EN was written before RUN (R862). -/
  admqWanted : List Nat := []
  deriving DecidableEq, Repr

/-! ### Partitions (chapter 15) -/

inductive PartState where
  | none | idle | running | deleting
  deriving DecidableEq, Repr

/-- A deadline monitor's descriptor (R765). -/
structure Dlm where
  fallback : Bool
  end_ : Bool
  minMark : Nat
  reserve : List TileId
  geckoNs : Nat
  guardNs : Nat
  deriving DecidableEq, Repr

/-- A running step (R757 to R776). -/
structure Step where
  cid : Nat
  num : W64
  members : List TileId
  args : Bytes
  deadline : Nat
  t0 : Nat
  client : Nat
  replays : Nat := 0
  recovered : Bool := false
  status : Option Status := none
  /-- The tiles that faulted before the stop reached them, with their causes and whether a spare stands ready (R173); the stop is
  on its way (R170). -/
  faults : List (Nat × Nat × Bool) := []
  stopDue : Bool := false
  /-- A fault that a replay may resolve awaits it (R172, R173). -/
  replayDue : Bool := false
  marks : Tbl Nat := []
  progress : Nat := 0
  tm : Nat := 0
  /-- The gecko runs in the reserve; the ordinal of the queue's next page when it began (R771). -/
  gecko : Bool := false
  geckoPage : Nat := 0
  /-- Tiles of the start group, charged to the step's end, and the time to which tile time was charged (R778). -/
  group : Nat := 0
  charged : Nat := 0
  /-- Statistics records written: stream, sequence number, record bytes (R617). -/
  stats : List (Nat × Nat × Bytes) := []
  deriving DecidableEq, Repr

structure Part where
  st : PartState := .none
  epoch : BitVec 16 := 0
  serving : Bool := false
  dies : BitVec 8 := 0
  tiles : List TileId := []
  stepNum : W64 := 0
  lastStatus : Status := 0
  run : Option Step := none
  /-- STEP_STARTs admitted and waiting, in order (R760). -/
  waiting : List Nat := []
  dlm : Option Dlm := none
  pred : Nat := 0
  /-- Marker records on their way: tile, step, value, time (R157). -/
  marks : List (TileId × W64 × Nat × Nat) := []
  t1Quota : Nat := 0
  t2Quota : Nat := 0
  /-- What PART_DELETE waits for (R751): its command. -/
  deleteCid : Option Nat := none
  deriving DecidableEq, Repr

/-- One client's counts (R778, R782). -/
structure Account where
  tileNs : Nat := 0
  engineNs : Nat := 0
  t1Bytes : Nat := 0
  t2Bytes : Nat := 0
  hostBytes : Nat := 0
  link0 : Nat := 0
  link1 : Nat := 0
  link2 : Nat := 0
  link3 : Nat := 0
  energyPj : Nat := 0
  deriving DecidableEq, Repr

/-! ### Power (chapter 16) -/

structure Power where
  powered : Bool := false
  mateA : Bool := false
  mateB : Bool := false
  inputMv : Nat := 0
  switchOpen : Bool := true
  /-- The input has been lost and the hold-up runs (R802). -/
  holdup : Bool := false
  brake : Bool := false
  /-- The state allowed by the power limit and by the thermal limit (R795). -/
  allowedPower : Nat := 5
  allowedTherm : Nat := 5
  /-- The state the core voltage is at and a ramp's target (R796). -/
  rampFrom : Nat := 3
  ramping : Bool := false
  holdAvg : Bool := false
  holdPeak : Bool := false
  /-- Milliseconds below the power limit, time above TLIM and time 3 °C below it in µs, time of each die at its trip (R798 to R800). -/
  msUp : Nat := 0
  thermUs : Nat := 0
  coolUs : Nat := 0
  tripUs : Tbl Nat := []
  phasesLost : Tbl Nat := []
  lastReading : PowerReading := ⟨0, 0, 0, 0⟩
  lastThermal : ThermalReading := ⟨[], 0, 0⟩
  /-- Subscriptions: record type to period in ms; sequence numbers by record type (R806, R808). -/
  subs : Tbl Nat := []
  seqs : Tbl Nat := []
  /-- Energy of each rail since reset, in pJ (R807). -/
  energy : Tbl Nat := []
  /-- The starts of newt programs within the last microsecond, as die and time, while the granted state or a ramp is at VS0 (R793). -/
  starts : List (Nat × Nat) := []
  deriving DecidableEq, Repr

/-! ### Security (chapter 17) -/

/-- A key in a slot: its bytes, its generation, operations bound to it (R821 to R823). -/
structure Key where
  key : Bytes
  gen : Byte
  bound : Nat
  deriving DecidableEq, Repr

structure KeySlot where
  current : Option Key := none
  shadow : Option Key := none
  gen : Byte := 0
  kek : Bool := false
  part : PartId := 0
  erasing : Bool := false
  eraseCids : List Nat := []
  deriving DecidableEq, Repr

structure Security where
  slots : Tbl KeySlot := []
  /-- The operations that the dies' AES engines hold, as die, slot and generation (R823, R824). -/
  ops : List (Nat × Nat × Byte) := []
  nonce : Bytes := []
  ownerKey : Option Bytes := none
  lock : Bool := false
  once : Bool := false
  log : List Bytes := []
  logSeq : Nat := 0
  /-- The SPDM responder: version byte agreed, algorithms agreed, the messages that a signature covers (R832). -/
  spdmVersion : Nat := 0
  spdmAlgs : Bool := false
  vca : Bytes := []
  transcript : Bytes := []
  deriving DecidableEq, Repr

/-- The fuses of each die (R7, R828): spare tiles, vendor key digests, revocation bits, security version minimum. -/
structure Fuses where
  /-- The spare tiles (log entry 8). -/
  spares : List Nat := (List.range 8).flatMap fun d => (List.range 4).map fun c => 128 * d + 104 + c
  vendor : List Bytes := []
  /-- Ring rates of the pace sensors at the nominal operating point (R28), sensor n of die d at key 16·d + n, where they differ
  from `nominalRate` (log entry 96). -/
  nominal : Tbl Nat := []
  revoked : BitVec 4 := 0
  svnMin : Nat := 0
  deriving DecidableEq, Repr

/-! ### Boot (chapter 18) -/

/-- The phases of R874. -/
inductive Phase where
  | power | verify | fill | load | run | pause | recovery
  deriving DecidableEq, Repr

/-- A flash operation in progress (R863, R864, R846): what it is and the command it ends. -/
inductive FlashOp where
  | erase (slot : Nat) (cid : Option Nat)
  | program (slot off : Nat) (data : Bytes) (cid : Option Nat)
  | owner (record : Bytes) (cid : Option Nat)
  | selector (record : Bytes)
  deriving DecidableEq, Repr

structure Boot where
  phase : Phase := .power
  flash : Tbl Byte := []
  op : Option FlashOp := none
  inactOk : Bool := false
  fallback : Bool := false
  trial : Bool := false
  slot : Nat := 0
  lastErr : Status := 0
  tried : List Nat := []
  /-- The start has been counted (R849). -/
  counted : Bool := false
  imageOk : Bool := false
  tiersFilled : Bool := false
  digests : List Bytes := []
  fwActive : W32 := 0
  fwInactive : W32 := 0
  svn : Nat := 0
  libVersion : Nat := 0
  /-- The library region, the same in every newt (R133, R164). -/
  newtLib : Tbl W32 := []
  cfg : Bytes := []
  count : Nat := 0
  /-- BOOT_RWIN's bytes, the slot whose VERIFY last passed, BUSY and STATUS of the recovery commands. -/
  rwin : Tbl Byte := []
  verified : Option Nat := none
  rstatus : Status := 0
  straps : BitVec 16 := 0
  parErr : Bool := false
  range : Bool := false
  /-- The ACTIVATE in progress: command and ACT_KEEP; whether its pause has ended; the status of an image that failed. -/
  act : Option (Nat × Bool) := none
  actPaused : Bool := false
  actFailed : Option Status := none
  deriving DecidableEq, Repr

/-- What has left the module: interrupts, answers to the baseboard controller and to the mailbox, flits and control
records, answers to BAR4 accesses, Advanced Error Reporting (log entry 3). -/
inductive Output where
  | msix (fn vec : Nat)
  | mctp (b : Bytes)
  | doe (b : Bytes)
  | flit (l : LinkId) (f : Bytes)
  | bar4Data (b : Bytes)
  | bar4Unsupported
  | bar4Poisoned
  | aer
  deriving DecidableEq, Repr

/-- The whole module, with the queue of commands that wait. -/
structure State where
  pending : List Instr := []
  /-- Counts the free values taken (log entry 4). -/
  fresh : Nat := 0
  /-- Fabric time in ns (R511). -/
  now : Nat := 0
  /-- The register file: registers that differ from their reset value. -/
  regs : Tbl W64 := []
  /-- Device memory by device address: strata and tiers. -/
  mem : Tbl Byte := []
  /-- Host memory by bus address. -/
  hostMem : Tbl Byte := []
  islands : Tbl IslandSt := []
  arbs : Tbl ArbSt := []
  /-- Merge tables of the strata banks and the tier controllers (R219). -/
  merges : Tbl (List MergeEntry) := []
  tiles : Tbl Tile := []
  holds : Tbl (List HoldEntry) := []
  staged : List Staged := []
  /-- C elements under a binding, by partition, keyed by element address (R229). -/
  chains : Tbl (Tbl ChainEl) := []
  partials : List PartialRec := []
  strata : Strata := {}
  tier : Tier := {}
  fab : Fabric := {}
  coll : Coll := {}
  ckpt : Ckpt := {}
  ing : Ingest := {}
  host : HostPort := {}
  parts : Tbl Part := []
  accounts : Tbl Account := []
  pwr : Power := {}
  sec : Security := {}
  fuses : Fuses := {}
  boot : Boot := {}
  clspHold : Bool := false
  /-- Newt event messages of this module on their way (R153). -/
  flying : List EvMsg := []
  /-- Attention partial records sent by a running step: tag, partition, step (R269, R272). -/
  partSent : List (W32 × PartId × W64) := []
  out : List Output := []
  deriving DecidableEq, Repr

/-- The module before its first start: no input, nothing powered, every register at its reset value, every memory at its
fill value, the boot flash erased, no command waiting (log entries 2 and 7). -/
def State.reset : State := {}

end Sys2Proof.Machine
end

