-- ==== Sys2Proof/Machine/Regs.lean ====
section
/-! DEFINITION. The register file: every register's block, offset, width, access masks and reset (the register tables of
the chapters, R13 to R16, R914, R915), its storage, its device address, and the decoding of a window offset. -/

namespace Sys2Proof.Machine
open Sys2Proof

/-- The register blocks of R914. -/
inductive Blk where
  | tile | kom | tel | strd | t1c | t2c | part | coll | codec | vid | tok | ing | dlm | acct | pwr | sec | boot | clsp | time | lnkc | lnk | host
  deriving DecidableEq, Repr

/-- The registers, named by their UNIT_NAME. An array of words is one name with an index. -/
inductive RegName where
  | tileFpstat | tileOvfrec | tileAttnstat | strErrlog | strErrcnt | strRepair | strSelftest | newtCtrl
  | newtStat | newtFault | newtNak | strRegion | komXstat | telPacePkg | telPaceDie | telPaceMin
  | telPaceSensor | telCoolant | telSite | telRail | telXstat | strScrub | strScrubPass | t1cCtrl | t1cStat
  | t1cRetired | t1cFailedpc | t1cXstat | t2cCtrl | t2cStat | t2cXstat | partState | partStep | partStepstat
  | partT1quota | partT1use | partT2quota | partT2use | partTierstat | partIdle | partCkstat | partCkbytes
  | partCkseq | partGns | partGnsstep | partGnsinfo | collCnt | collWaitns | collBlockedns | collStall0
  | collStall1 | collStream | codecStat | codecErrlog | codecStarved | codecBlocked | vidStat | tokStat
  | ingPipe | ingPipeerr | ingLockets | ingStarved | ingBlocked | dlmCnt | dlmPred | acctStat | pwrVreq
  | pwrStat | pwrLimit | pwrHoldup | secStat | secNonce | secSlot | bootStat | bootImg | bootImg2
  | bootActive | bootCount | bootGeo | bootRoff | bootRcmd | bootXstat | bootRwin | clspCtrl | clspStat
  | timeNow | timeStat | timeCtrl | lnkMapgen | lnkMap | lnkCtrl | lnkStat | lnkErrcnt | lnkXstat | hostId
  | hostFnctrl | hostEvtbase | hostEvthead | hostEvtstat | hostDbstat | hostDbspill | hostApbase | hostPtmoff
  | hostAdmq | queSel | queView | hostXstat
  deriving DecidableEq, Repr

/-- A register's place and access: its block, offset of index 0, bytes between indices, indices, width in bits, the bits
software writes (RW), the bits a write of 1 clears (W1C), its reset value, and whether only CD0 has it. -/
structure RegDef where
  blk : Blk
  off : Nat
  stride : Nat
  count : Nat
  bits : Nat
  rw : Nat
  w1c : Nat
  reset : Nat
  cd0 : Bool
  deriving DecidableEq, Repr

/-- The register tables of the chapters. -/
def RegName.info : RegName → RegDef
  | .tileFpstat => ⟨.tile, 0x200, 4, 1, 32, 0, 0xff, 0, false⟩ -- R129
  | .tileOvfrec => ⟨.tile, 0x210, 8, 1, 64, 0, 0, 0, false⟩ -- R201
  | .tileAttnstat => ⟨.tile, 0x220, 4, 1, 32, 0, 0, 0, false⟩ -- R287
  | .strErrlog => ⟨.tile, 0x300, 8, 1, 64, 0, 3, 0, false⟩ -- R357
  | .strErrcnt => ⟨.tile, 0x308, 4, 1, 32, 0xffffffff, 0, 0, false⟩ -- R358
  | .strRepair => ⟨.tile, 0x30c, 4, 1, 32, 0, 0, 0x8102040, false⟩ -- R359
  | .strSelftest => ⟨.tile, 0x310, 4, 1, 32, 0, 0, 0, false⟩ -- R360
  | .newtCtrl => ⟨.tile, 0x400, 4, 1, 32, 0xff, 0, 0x64, false⟩ -- R174
  | .newtStat => ⟨.tile, 0x404, 4, 1, 32, 0, 0x200, 0, false⟩ -- R175
  | .newtFault => ⟨.tile, 0x408, 8, 1, 64, 0, 0, 0, false⟩ -- R176
  | .newtNak => ⟨.tile, 0x410, 4, 1, 32, 0, 0, 0, false⟩ -- R177
  | .strRegion => ⟨.tile, 0x800, 8, 256, 64, 0, 0, 0, false⟩ -- R361
  | .komXstat => ⟨.kom, 0xf00, 4, 1, 32, 0, 6, 0, false⟩ -- R49
  | .telPacePkg => ⟨.tel, 0x100, 4, 1, 32, 0, 0, 0, true⟩ -- R32
  | .telPaceDie => ⟨.tel, 0x104, 4, 1, 32, 0, 0, 0, false⟩ -- R33
  | .telPaceMin => ⟨.tel, 0x108, 4, 1, 32, 0xfff, 0, 0xfff, false⟩ -- R34
  | .telPaceSensor => ⟨.tel, 0x140, 4, 16, 32, 0, 0, 0, false⟩ -- R35
  | .telCoolant => ⟨.tel, 0x200, 8, 1, 64, 0, 3, 0, true⟩ -- R909
  | .telSite => ⟨.tel, 0x300, 4, 64, 32, 0, 0, 0, false⟩ -- R815
  | .telRail => ⟨.tel, 0x800, 8, 28, 64, 0, 0, 0, true⟩ -- R815
  | .telXstat => ⟨.tel, 0xf00, 4, 1, 32, 0, 6, 0, true⟩ -- R49
  | .strScrub => ⟨.strd, 0x10, 4, 1, 32, 0x4000ffff, 0x80000000, 0x4000003c, false⟩ -- R362
  | .strScrubPass => ⟨.strd, 0x14, 4, 1, 32, 0, 0, 0, false⟩ -- R363
  | .t1cCtrl => ⟨.t1c, 0, 4, 1, 32, 0xfffffff3, 0, 0x14020423, false⟩ -- R415
  | .t1cStat => ⟨.t1c, 8, 8, 1, 64, 0xffffffff00000000, 0, 0, false⟩ -- R416
  | .t1cRetired => ⟨.t1c, 0x10, 8, 1, 64, 0, 0, 0, false⟩ -- R417
  | .t1cFailedpc => ⟨.t1c, 0x18, 8, 1, 64, 0, 0, 0, false⟩ -- R417
  | .t1cXstat => ⟨.t1c, 0xf00, 4, 1, 32, 0, 6, 0, false⟩ -- R49
  | .t2cCtrl => ⟨.t2c, 0, 4, 1, 32, 0xfffffff3, 0, 0x14020423, false⟩ -- R418
  | .t2cStat => ⟨.t2c, 8, 8, 1, 64, 0xffffffff00000000, 0, 0, false⟩ -- R418
  | .t2cXstat => ⟨.t2c, 0xf00, 4, 1, 32, 0, 6, 0, false⟩ -- R49
  | .partState => ⟨.part, 0, 32, 16, 64, 0, 0, 0, true⟩ -- R785
  | .partStep => ⟨.part, 8, 32, 16, 64, 0, 0, 0, true⟩ -- R786
  | .partStepstat => ⟨.part, 0x10, 32, 16, 32, 0, 0, 0, true⟩ -- R786
  | .partT1quota => ⟨.part, 0x400, 32, 16, 64, 0, 0, 0, true⟩ -- R419
  | .partT1use => ⟨.part, 0x408, 32, 16, 64, 0, 0, 0, true⟩ -- R419
  | .partT2quota => ⟨.part, 0x410, 32, 16, 64, 0, 0, 0, true⟩ -- R419
  | .partT2use => ⟨.part, 0x418, 32, 16, 64, 0, 0, 0, true⟩ -- R419
  | .partTierstat => ⟨.part, 0x600, 4, 16, 32, 8, 0, 0, true⟩ -- R420
  | .partIdle => ⟨.part, 0x800, 8, 128, 64, 0xffffffffffffffff, 0, 0, false⟩ -- R620
  | .partCkstat => ⟨.part, 0xc00, 32, 16, 64, 0, 0, 0, true⟩ -- R621
  | .partCkbytes => ⟨.part, 0xc08, 32, 16, 64, 0, 0, 0, true⟩ -- R622
  | .partCkseq => ⟨.part, 0xc10, 32, 16, 32, 0, 0, 0, true⟩ -- R622
  | .partGns => ⟨.part, 0xe00, 32, 16, 64, 0, 0, 0, true⟩ -- R623
  | .partGnsstep => ⟨.part, 0xe08, 32, 16, 64, 0, 0, 0, true⟩ -- R623
  | .partGnsinfo => ⟨.part, 0xe10, 32, 16, 32, 0, 0, 0, true⟩ -- R624
  | .collCnt => ⟨.coll, 0x10, 8, 1, 64, 0xffffffffffffffff, 0, 0, false⟩ -- R577
  | .collWaitns => ⟨.coll, 0x18, 8, 1, 64, 0xffffffffffffffff, 0, 0, false⟩ -- R578
  | .collBlockedns => ⟨.coll, 0x20, 8, 1, 64, 0xffffffffffffffff, 0, 0, false⟩ -- R578
  | .collStall0 => ⟨.coll, 0x100, 8, 1, 64, 0, 0, 0, true⟩ -- R576
  | .collStall1 => ⟨.coll, 0x108, 8, 1, 64, 0, 3, 0, true⟩ -- R576
  | .collStream => ⟨.coll, 0x1000, 8, 1024, 64, 0, 0, 0, true⟩ -- R575
  | .codecStat => ⟨.codec, 0, 8, 1, 64, 0xffff0000, 3, 0, false⟩ -- R464
  | .codecErrlog => ⟨.codec, 8, 8, 1, 64, 0, 3, 0, false⟩ -- R465
  | .codecStarved => ⟨.codec, 0x10, 8, 1, 64, 0xffffffffffffffff, 0, 0, false⟩ -- R466
  | .codecBlocked => ⟨.codec, 0x18, 8, 1, 64, 0xffffffffffffffff, 0, 0, false⟩ -- R466
  | .vidStat => ⟨.vid, 0, 8, 1, 64, 0xffff0000, 0, 0, false⟩ -- R683
  | .tokStat => ⟨.tok, 0, 4, 1, 32, 0xffffff00, 0, 0, false⟩ -- R684
  | .ingPipe => ⟨.ing, 0x100, 16, 32, 64, 0xffff0000, 0x10, 0, true⟩ -- R680
  | .ingPipeerr => ⟨.ing, 0x108, 16, 32, 64, 0, 3, 0, true⟩ -- R681
  | .ingLockets => ⟨.ing, 0x300, 4, 32, 32, 0, 0, 0, true⟩ -- R682
  | .ingStarved => ⟨.ing, 0x1000, 16, 256, 64, 0xffffffffffffffff, 0, 0, true⟩ -- R682
  | .ingBlocked => ⟨.ing, 0x1008, 16, 256, 64, 0xffffffffffffffff, 0, 0, true⟩ -- R682
  | .dlmCnt => ⟨.dlm, 0x100, 16, 16, 64, 0xffffffffffffffff, 0, 0, true⟩ -- R787
  | .dlmPred => ⟨.dlm, 0x108, 16, 16, 64, 0, 0, 0, true⟩ -- R788
  | .acctStat => ⟨.acct, 0, 4, 1, 32, 0, 1, 0, true⟩ -- R789
  | .pwrVreq => ⟨.pwr, 0, 4, 1, 32, 7, 0, 0, true⟩ -- R811
  | .pwrStat => ⟨.pwr, 8, 8, 1, 64, 0, 0x30, 0, true⟩ -- R812
  | .pwrLimit => ⟨.pwr, 0x10, 4, 1, 32, 0xfff0007f, 0, 0xa28a285f, true⟩ -- R813
  | .pwrHoldup => ⟨.pwr, 0x18, 4, 1, 32, 0, 0, 0, true⟩ -- R814
  | .secStat => ⟨.sec, 0, 4, 1, 32, 0, 0, 0, true⟩ -- R841
  | .secNonce => ⟨.sec, 0x10, 8, 4, 64, 0, 0, 0, true⟩ -- R842
  | .secSlot => ⟨.sec, 0x100, 8, 64, 64, 0, 0, 0, true⟩ -- R843
  | .bootStat => ⟨.boot, 0, 4, 1, 32, 0, 0x400000, 0, true⟩ -- R874
  | .bootImg => ⟨.boot, 8, 8, 1, 64, 0, 0, 0, true⟩ -- R875
  | .bootImg2 => ⟨.boot, 0x10, 4, 1, 32, 0, 0, 0, true⟩ -- R875
  | .bootActive => ⟨.boot, 0x18, 8, 1, 64, 0, 0, 0, true⟩ -- R876
  | .bootCount => ⟨.boot, 0x20, 8, 1, 64, 0, 0, 0, true⟩ -- R876
  | .bootGeo => ⟨.boot, 0x28, 4, 1, 32, 0, 0, 0, true⟩ -- R908
  | .bootRoff => ⟨.boot, 0x40, 4, 1, 32, 0xffffffff, 0, 0, true⟩ -- R877
  | .bootRcmd => ⟨.boot, 0x44, 4, 1, 32, 0x10, 0, 0, true⟩ -- R878
  | .bootXstat => ⟨.boot, 0xf00, 4, 1, 32, 0, 6, 0, true⟩ -- R49
  | .bootRwin => ⟨.boot, 0x1000, 8, 512, 64, 0xffffffffffffffff, 0, 0, true⟩ -- R877
  | .clspCtrl => ⟨.clsp, 0, 4, 1, 32, 0, 0, 0, true⟩ -- R519
  | .clspStat => ⟨.clsp, 4, 4, 1, 32, 0, 0, 0, true⟩ -- R520
  | .timeNow => ⟨.time, 0, 8, 1, 64, 0, 0, 0, false⟩ -- R522
  | .timeStat => ⟨.time, 8, 4, 1, 32, 0, 0, 0x3800ffff, false⟩ -- R523
  | .timeCtrl => ⟨.time, 0xc, 4, 1, 32, 1, 0, 0, false⟩ -- R522
  | .lnkMapgen => ⟨.lnkc, 0, 4, 1, 32, 0, 0, 0, false⟩ -- R521
  | .lnkMap => ⟨.lnkc, 0x20000, 4, 32768, 32, 0, 0, 0, false⟩ -- R521
  | .lnkCtrl => ⟨.lnk, 0, 4, 1, 32, 0xffff0f05, 0, 0x700804, false⟩ -- R516
  | .lnkStat => ⟨.lnk, 8, 8, 1, 64, 0, 0, 0x100000000, false⟩ -- R517
  | .lnkErrcnt => ⟨.lnk, 0x10, 8, 1, 64, 0xffffffffffffffff, 0, 0, false⟩ -- R518
  | .lnkXstat => ⟨.lnk, 0xf00, 4, 1, 32, 0, 6, 0, false⟩ -- R49
  | .hostId => ⟨.host, 0, 8, 1, 64, 0, 0, 0xb108a86c5f, false⟩ -- R732
  | .hostFnctrl => ⟨.host, 8, 4, 1, 32, 0xffff0003, 0, 0x40000, false⟩ -- R733
  | .hostEvtbase => ⟨.host, 0x10, 8, 1, 64, 0xfffffffffffff01f, 0, 0, false⟩ -- R734
  | .hostEvthead => ⟨.host, 0x18, 4, 1, 32, 0, 0, 0, false⟩ -- R734
  | .hostEvtstat => ⟨.host, 0x1c, 4, 1, 32, 0xffff0000, 0, 0, false⟩ -- R735
  | .hostDbstat => ⟨.host, 0x20, 4, 1, 32, 0xffff0000, 0, 0, false⟩ -- R736
  | .hostDbspill => ⟨.host, 0x24, 4, 1, 32, 0, 0x80000000, 0, false⟩ -- R736
  | .hostApbase => ⟨.host, 0x28, 8, 1, 64, 0xffffc0000000, 0, 0, false⟩ -- R737
  | .hostPtmoff => ⟨.host, 0x30, 8, 1, 64, 0, 0, 0, false⟩ -- R737
  | .hostAdmq => ⟨.host, 0x40, 8, 8, 64, 0xffffffffffffffff, 0, 0, false⟩ -- R734
  | .queSel => ⟨.host, 0x80, 4, 1, 32, 0xfffff, 0, 0, false⟩ -- R738
  | .queView => ⟨.host, 0x88, 8, 1, 64, 0, 0, 0, false⟩ -- R738
  | .hostXstat => ⟨.host, 0xf00, 4, 1, 32, 0, 6, 0, false⟩ -- R49

/-- Every register name, block by block. -/
def regNames : List RegName :=
  [.tileFpstat, .tileOvfrec, .tileAttnstat, .strErrlog, .strErrcnt, .strRepair, .strSelftest, .newtCtrl,
   .newtStat, .newtFault, .newtNak, .strRegion, .komXstat, .telPacePkg, .telPaceDie, .telPaceMin,
   .telPaceSensor, .telCoolant, .telSite, .telRail, .telXstat, .strScrub, .strScrubPass, .t1cCtrl, .t1cStat,
   .t1cRetired, .t1cFailedpc, .t1cXstat, .t2cCtrl, .t2cStat, .t2cXstat, .partState, .partStep, .partStepstat,
   .partT1quota, .partT1use, .partT2quota, .partT2use, .partTierstat, .partIdle, .partCkstat, .partCkbytes,
   .partCkseq, .partGns, .partGnsstep, .partGnsinfo, .collCnt, .collWaitns, .collBlockedns, .collStall0,
   .collStall1, .collStream, .codecStat, .codecErrlog, .codecStarved, .codecBlocked, .vidStat, .tokStat,
   .ingPipe, .ingPipeerr, .ingLockets, .ingStarved, .ingBlocked, .dlmCnt, .dlmPred, .acctStat, .pwrVreq,
   .pwrStat, .pwrLimit, .pwrHoldup, .secStat, .secNonce, .secSlot, .bootStat, .bootImg, .bootImg2, .bootActive,
   .bootCount, .bootGeo, .bootRoff, .bootRcmd, .bootXstat, .bootRwin, .clspCtrl, .clspStat, .timeNow,
   .timeStat, .timeCtrl, .lnkMapgen, .lnkMap, .lnkCtrl, .lnkStat, .lnkErrcnt, .lnkXstat, .hostId, .hostFnctrl,
   .hostEvtbase, .hostEvthead, .hostEvtstat, .hostDbstat, .hostDbspill, .hostApbase, .hostPtmoff, .hostAdmq,
   .queSel, .queView, .hostXstat]

/-- One register of the module: its name, the unit it belongs to (tile identifier, die, stack, channel, codec instance
4·die + i, pair, link or function) and its index. -/
structure Reg where
  name : RegName
  unit : Nat := 0
  idx : Nat := 0
  deriving DecidableEq, Repr

/-- A register's key in the register file. -/
def Reg.key (r : Reg) : Nat := (r.name.ctorIdx * 1024 + r.unit) * 65536 + r.idx

/-- The stored value of a register; its reset value until it is set. -/
def regGet (s : State) (r : Reg) : Nat := (Tbl.get (BitVec.ofNat 64 r.name.info.reset) s.regs r.key).toNat

def regSet (s : State) (r : Reg) (v : Nat) : State :=
  { s with regs := Tbl.put (BitVec.ofNat 64 r.name.info.reset) s.regs r.key (BitVec.ofNat 64 v) }

/-- A field of a stored register. -/
def regFld (s : State) (r : Reg) (lo len : Nat) : Nat := bitsOf (regGet s r) lo len
def regBit (s : State) (r : Reg) (n : Nat) : Bool := bitOf (regGet s r) n
def regPut (s : State) (r : Reg) (lo len x : Nat) : State := regSet s r (putBits (regGet s r) lo len x)
/-- Bits set. -/
def regOr (s : State) (r : Reg) (m : Nat) : State := regSet s r (regGet s r ||| m)
/-- A count field increased by `n`, saturating. -/
def regAddSat (s : State) (r : Reg) (lo len n : Nat) : State :=
  regPut s r lo len (satAdd (2 ^ len - 1) (regFld s r lo len) n)
/-- A count field increased by `n`, wrapping. -/
def regAddWrap (s : State) (r : Reg) (lo len n : Nat) : State := regPut s r lo len (regFld s r lo len + n)

/-- The register's bits after a write of `v` while hardware sets `hw` (R15, R16): RW bits take the value, W1C bits clear
where 1 is written and hardware does not set them at that moment. -/
def regWritten (d : RegDef) (old v hw : Nat) : Nat :=
  let full := 2 ^ 64 - 1
  (old &&& (full ^^^ (d.rw ||| d.w1c))) ||| (v &&& d.rw) ||| (d.w1c &&& ((old &&& (full ^^^ v)) ||| hw))

def regWritePlain (s : State) (r : Reg) (v hw : Nat) : State :=
  regSet s r (regWritten r.name.info (regGet s r) v hw)

/-- A write to a failure log whose VALID, bit 0, clears OVER, bit 1, with it; where hardware sets VALID at that moment the
write has no effect through it (R16). -/
def logWrite (s : State) (r : Reg) (v hw : Nat) : State :=
  regWritePlain s r (if bitOf v 0 && !bitOf hw 0 then v ||| 2 else v) (hw &&& 3)

/-- The base of a unit's block as die and offset in the die's control window (R914). -/
def blkBase (b : Blk) (u : Nat) : Nat × Nat :=
  match b with
  | .tile => (u / 128, 0x1000 * (u % 128))
  | .kom => (u, 0x70000)
  | .tel => (u, 0x71000)
  | .strd => (u, 0x72000)
  | .t1c => (u, 0x74000)
  | .t2c => (u / 2, 0x75000 + 0x1000 * (u % 2))
  | .part => (u, 0x77000)
  | .coll => (u, 0x78000)
  | .codec => (u / 4, 0x7C000 + 0x1000 * (u % 4))
  | .vid => (u / 2, 0x80000 + 0x1000 * (u % 2))
  | .tok => (u, 0x82000)
  | .ing => (u, 0x84000)
  | .dlm => (u, 0x86000)
  | .acct => (u, 0x87000)
  | .pwr => (u, 0x88000)
  | .sec => (u, 0x89000)
  | .boot => (u, 0x8A000)
  | .clsp => (u, 0x8C000)
  | .time => (u, 0x8D000)
  | .lnkc => (u, 0x90000)
  | .lnk => (0, 0xD0000 + 0x1000 * u)
  | .host => (0, 0x100000 + 0x10000 * u)

/-- The die that carries a link (R890). -/
def linkDie (l : Nat) : Nat :=
  match l / 3 with
  | 0 => 1 | 1 => 3 | 2 => 0 | 3 => 2 | 4 => 5 | 5 => 7 | 6 => 4 | 7 => 6 | 8 => 3 | 9 => 7 | 10 => 1 | _ => 5

/-- A register's device address (R910, R914). -/
def Reg.addr (r : Reg) : Nat :=
  let d := r.name.info
  let (die, base) := blkBase d.blk r.unit
  let die := if d.blk = .lnk then linkDie r.unit else die
  0x300000000000 + die * 0x10000000 + base + d.off + d.stride * r.idx

/-- The block and unit at a window offset of a die, and the offset within the block (R914, R916). -/
def blkAt (die o : Nat) : Option (Blk × Nat × Nat) :=
  if o < 0x70000 then
    let w := o / 0x1000
    if w % 16 < 12 then some (.tile, 128 * die + w, o % 0x1000) else none
  else if o < 0x71000 then some (.kom, die, o - 0x70000)
  else if o < 0x72000 then some (.tel, die, o - 0x71000)
  else if o < 0x73000 then some (.strd, die, o - 0x72000)
  else if o < 0x74000 then none
  else if o < 0x75000 then some (.t1c, die, o - 0x74000)
  else if o < 0x77000 then some (.t2c, 2 * die + (o - 0x75000) / 0x1000, o % 0x1000)
  else if o < 0x78000 then some (.part, die, o - 0x77000)
  else if o < 0x7C000 then some (.coll, die, o - 0x78000)
  else if o < 0x80000 then some (.codec, 4 * die + (o - 0x7C000) / 0x1000, o % 0x1000)
  else if o < 0x82000 then some (.vid, 2 * die + (o - 0x80000) / 0x1000, o % 0x1000)
  else if o < 0x83000 then some (.tok, die, o - 0x82000)
  else if o < 0x84000 then none
  else if o < 0x86000 then some (.ing, die, o - 0x84000)
  else if o < 0x87000 then some (.dlm, die, o - 0x86000)
  else if o < 0x88000 then some (.acct, die, o - 0x87000)
  else if o < 0x89000 then some (.pwr, die, o - 0x88000)
  else if o < 0x8A000 then some (.sec, die, o - 0x89000)
  else if o < 0x8C000 then some (.boot, die, o - 0x8A000)
  else if o < 0x8D000 then some (.clsp, die, o - 0x8C000)
  else if o < 0x8E000 then some (.time, die, o - 0x8D000)
  else if o < 0x90000 then none
  else if o < 0xD0000 then some (.lnkc, die, o - 0x90000)
  else if o < 0xF4000 then
    let l := (o - 0xD0000) / 0x1000
    if linkDie l = die then some (.lnk, l, o % 0x1000) else none
  else if o < 0x100000 then none
  else if o < 0x210000 ∧ die = 0 then
    let fn := (o - 0x100000) / 0x10000
    some (.host, fn, o % 0x10000)
  else none

/-- The blocks that only CD0's window holds (R914). -/
def Blk.cd0 : Blk → Bool
  | .dlm | .acct | .pwr | .sec | .boot | .clsp => true
  | _ => false

/-- The register whose bytes hold window offset `o` of a die, with the byte offset inside it (R13, R914, R916). -/
def regAt (die o : Nat) : Option (Reg × Nat) :=
  match blkAt die o with
  | none => none
  | some (b, u, x) =>
    let hit (n : RegName) : Option (Reg × Nat) :=
      let d := n.info
      if d.blk = b ∧ d.off ≤ x ∧ x < d.off + d.stride * d.count ∧ (x - d.off) % d.stride < d.bits / 8
        ∧ (d.cd0 = false ∨ die = 0) ∧ (b.cd0 = false ∨ die = 0)
        ∧ ((n = .ingStarved ∨ n = .ingBlocked) → (x - d.off) / d.stride % 8 < 6)
        ∧ ((n = .hostXstat) → u = 0)
      then some (⟨n, if b = .time then 0 else u, (x - d.off) / d.stride⟩, (x - d.off) % d.stride) else none
    regNames.findSome? hit

end Sys2Proof.Machine
end

