-- ==== Sys2Proof/Machine/Ops.lean ====
section
/-! DEFINITION. The named operations over the state that every family uses: parts of the state by number, register views
(R32 to R909 where a field shows other state), interrupts (R715), fault records (R729, R730) and free values. -/

namespace Sys2Proof.Machine
open Sys2Proof

/-! ### Parts of the state by number -/

def tileAt (s : State) (t : Nat) : Tile := Tbl.get {} s.tiles t
def modTile (s : State) (t : Nat) (f : Tile → Tile) : State := { s with tiles := Tbl.upd {} s.tiles t f }
def partAt (s : State) (p : Nat) : Part := Tbl.get {} s.parts p
def modPart (s : State) (p : Nat) (f : Part → Part) : State := { s with parts := Tbl.upd {} s.parts p f }
def queueAt (s : State) (q : Nat) : Queue := Tbl.get {} s.host.queues q
def modQueue (s : State) (q : Nat) (f : Queue → Queue) : State :=
  { s with host := { s.host with queues := Tbl.upd {} s.host.queues q f } }
def linkAt (s : State) (l : Nat) : Link := Tbl.get {} s.fab.links l
def modLink (s : State) (l : Nat) (f : Link → Link) : State :=
  { s with fab := { s.fab with links := Tbl.upd {} s.fab.links l f } }
def collAt (s : State) (p n : Nat) : CollStream := Tbl.get {} s.coll.streams (64 * p + n)
def modColl (s : State) (p n : Nat) (f : CollStream → CollStream) : State :=
  { s with coll := { s.coll with streams := Tbl.upd {} s.coll.streams (64 * p + n) f } }
def pipeAt (s : State) (p : Nat) : Pipe := Tbl.get {} s.ing.pipes p
def modPipe (s : State) (p : Nat) (f : Pipe → Pipe) : State :=
  { s with ing := { s.ing with pipes := Tbl.upd {} s.ing.pipes p f } }
def slotAt (s : State) (k : Nat) : KeySlot := Tbl.get {} s.sec.slots k
def modSlot (s : State) (k : Nat) (f : KeySlot → KeySlot) : State :=
  { s with sec := { s.sec with slots := Tbl.upd {} s.sec.slots k f } }
def msixAt (s : State) (fn v : Nat) : MsixVec := Tbl.get {} s.host.msix (4096 * fn + v)
def modMsix (s : State) (fn v : Nat) (f : MsixVec → MsixVec) : State :=
  { s with host := { s.host with msix := Tbl.upd {} s.host.msix (4096 * fn + v) f } }
def bindAt (s : State) (v : Nat) : Option VfBind := Tbl.get none s.host.binds v
def emit (s : State) (o : Output) : State := { s with out := s.out ++ [o] }

/-- A fold over numbers that changes the state. -/
def forEach {α : Type} (l : List α) (s : State) (f : State → α → State) : State := l.foldl f s

/-- A free value, and the state after it is taken (log entry 4). -/
def takeFree (s : State) : Nat × State := (s.fresh, { s with fresh := s.fresh + 1 })
/-- One of the many free values that a taken one stands for (log entry 4). -/
def freeAt (k i : Nat) : Nat := Config.freeNat (2 ^ 64 * (k + 1) + i)
def freeBytes (k n : Nat) : Bytes := (List.range n).map fun i => Config.freeByte (k * 2 ^ 40 + i)

/-- The outcome of a command. -/
abbrev Res : Type := Host.Outcome State Fault Refusal

/-- The state a command leaves: the queue of waiting commands is as it was, the memories stand in their canonical form,
and of the fuses only the 64 of the security version minimum may have been blown, never restored (R828, R871). -/
def commit (s t : State) : State :=
  { t with
    pending := s.pending
    fuses := { s.fuses with svnMin := min 64 (max s.fuses.svnMin t.fuses.svnMin) }
    mem := Tbl.canon 0 t.mem
    hostMem := Tbl.canon 0 t.hostMem }

/-- Every command ends in a next state (log entry 1). -/
def done (s t : State) : Res := .next (commit s t)

/-! ### Tiles -/

/-- A physical tile identifier that names a tile (R318). -/
def validTile (t : Nat) : Bool := t < 1024 && t / 16 % 8 < 7 && t % 16 < 12
def tileDie (t : Nat) : Nat := t / 128
def allTiles : List Nat := (List.range 1024).filter validTile
/-- The identifier that answers for a tile: its spare once it has been remapped (R740, R350). -/
def liveTile (s : State) (t : Nat) : Nat := (Tbl.get none s.strata.remap t).getD t
/-- The identifier that a live tile answers for (R740): its own, or the one it stands in for. -/
def nameOf (s : State) (l : Nat) : Nat :=
  match s.strata.remap.find? (fun e => e.2 == some l) with
  | some e => e.1
  | none => l
/-- A tile in use as a spare of a remapped tile. -/
def spareInUse (s : State) (t : Nat) : Bool := s.strata.remap.any fun e => e.2 == some t
/-- Bit 12·row + column of a die's tile bitmap (R212). -/
def bitmapTile (die b : Nat) : Nat := 128 * die + 16 * (b / 12) + b % 12
/-- The tiles a 128-byte bitmap names, in increasing identifier; none when a bit above 83 is set (R212, R745). -/
def bitmapTiles (b : Bytes) : Option (List Nat) :=
  let die (d : Nat) := fieldAt b (16 * d) 16
  if (List.range 8).any fun d => die d / 2 ^ 84 != 0 then none
  else some ((List.range 8).flatMap fun d => (bitSet 84 (die d)).map (bitmapTile d))
def toTile (t : Nat) : TileId := BitVec.ofNat 10 t
/-- The tiles of a partition, by identifier. -/
def partTiles (s : State) (p : Nat) : List Nat := (partAt s p).tiles.map (·.toNat)
/-- The live tiles of a partition's members. -/
def liveMembers (s : State) (ts : List TileId) : List Nat := ts.map fun t => liveTile s t.toNat
/-- The active tiles of a die (R876): neither spare nor retired without a spare. -/
def activeTiles (s : State) (d : Nat) : List Nat :=
  allTiles.filter fun t => tileDie t == d && !s.fuses.spares.contains t && !((tileAt s (liveTile s t)).st == .retired)

/-! ### Registers as they read -/

def stateCode : NewtState → Nat
  | .empty => 0 | .ready => 1 | .running => 2 | .waiting => 3 | .held => 4 | .faulted => 5 | .retired => 6

def linkCode : LinkState → Nat
  | .disabled => 0 | .bypassed => 1 | .training => 2 | .standby => 3 | .active => 4 | .degraded => 5
  | .retrain => 6 | .failed => 7

def phaseCode : Phase → Nat
  | .power => 0 | .verify => 1 | .fill => 2 | .load => 3 | .run => 4 | .pause => 5 | .recovery => 6

def isT1 (a : Nat) : Bool := a < 0x8000000000
def isT2 (a : Nat) : Bool := 0x100000000000 ≤ a && a < 0x120000000000

/-- Tier-1 use of a partition (R383). -/
def t1Use (s : State) (p : Nat) : Nat :=
  sumN (s.tier.regions.map fun r => if r.part.val = p ∧ r.backed = false ∧ isT1 r.base then r.length else 0)
  + 65536 * (s.tier.regions.filter fun r => r.part.val == p && r.backed).foldl
      (fun n r => n + (Tbl.inRange s.tier.frames r.base r.length).length) 0

/-- The images of a partition's program store, each once (R162). -/
def storeBytes (s : State) (p : Nat) : Nat :=
  sumN (((liveMembers s (partAt s p).tiles).filterMap fun t => (tileAt s t).image).eraseDups.map fun i => i.bytes.length)

/-- Tier-2 use of a partition (R383). -/
def t2Use (s : State) (p : Nat) : Nat :=
  sumN (s.tier.regions.map fun r =>
    if r.part.val = p ∧ r.backed = false ∧ isT2 r.base then storedSize r.elem r.codec r.length else 0) + storeBytes s p

/-- The queue descriptor as it reads (R694). -/
def queueBytes (q : Queue) : Bytes :=
  leBytes 8 q.ring ++ leBytes 8 q.cpl ++ leBytes 8 q.pring ++ leBytes 8 q.hold ++ leBytes 1 q.ringLog
  ++ leBytes 1 q.cplLog ++ leBytes 1 q.prLog ++ leBytes 1 q.page ++ leBytes 1 q.part ++ leBytes 1 q.fn
  ++ leBytes 1 q.flags ++ leBytes 1 (match q.st with | .free => 0 | .active => 1 | .error => 2 | .draining => 3)
  ++ leBytes 2 q.client ++ leBytes 2 q.vector ++ leBytes 2 q.vslot ++ leBytes 2 q.hostTmo
  ++ leBytes 4 q.head ++ leBytes 4 q.tail ++ leBytes 4 q.cplTail ++ leBytes 4 q.prTail

/-- The queue a function names in QUE_SEL: its number for the PF, its VSLOT for a VF (R738). -/
def queueByVslot (s : State) (fn v : Nat) : Option Nat :=
  (s.host.queues.find? fun e => e.2.fn == fn && e.2.vslot == v && e.2.st != .free).map (·.1)
def selQueue (s : State) (fn : Nat) : Option Nat :=
  let v := regGet s ⟨.queSel, fn, 0⟩
  if fn = 0 then some v else queueByVslot s fn v

def queView (s : State) (fn : Nat) : Nat :=
  match selQueue s fn with
  | none => 0
  | some n =>
    let q := queueAt s n
    let pend := s.host.coalescer.any (fun e => e.1 == n) || (Tbl.get none s.host.bitmap n).isSome
    let timed := q.entries.any fun e =>
      let a := max (if bitOf (fieldAt e.bytes 2 1) 0 then fieldAt e.bytes 8 8 else 0) (e.doorAt.getD 0)
      decide (s.now < a)
    (q.head % 2 ^ q.ringLog) % 2 ^ 20 * 2 ^ 44 + q.tail % 2 ^ 20 * 2 ^ 24 + q.lastErr.toNat * 2 ^ 8
      + b2n timed * 16 + b2n q.hostStall * 8 + b2n pend * 4
      + (match q.st with | .free => 0 | .active => 1 | .error => 2 | .draining => 3)

/-- Spare lines left in each stratum (R359). -/
def spareLines (s : State) (t st : Nat) : Nat :=
  64 - sumN ((Tbl.inRange s.strata.mapped
    ((0x200000000000 + t / 128 * 0x400000000 + t % 128 * 0x8000000 + st * 0x1400000) / 256) 0x14000).map (·.2))

def regionBytes (r : Region) (inUse : Bool) : Bytes :=
  leBytes 4 r.offset ++ leBytes 4 r.length ++ leBytes 1 r.cls ++ leBytes 1 (r.flags % 128 + b2n inUse * 128)
  ++ leBytes 2 r.tile ++ leBytes 1 r.part ++ leBytes 3 0 ++ leBytes 8 r.source ++ leBytes 8 0

/-- The state of PART_CKSTAT (R621): a restore and a takeover are each one event, so 5 and 6 are never seen. -/
def ckState (s : State) (p : Nat) : Nat :=
  let mine (c : Cmd) : Bool := c.opcode == 0x42 && c.started && fieldAt c.inl 0 1 == p
  match Tbl.get none s.ckpt.takes p with
  | some t => if s.host.cmds.any fun c => mine c && c.id != t.cid then 2 else 4
  | none =>
    if s.host.cmds.any mine then 2
    else if (Tbl.get none s.ckpt.shards p).isSome then 1 else 0

/-- The lost units of a tier controller's window (R416). -/
def lostIn (s : State) (base len : Nat) : Nat := min 0x7FFFFF (Tbl.inRange s.tier.lost base len).length

/-- The physical coordinate that a chip map entry names (R495): its reset rule unless a MAP has changed it. -/
def mapEntry (s : State) (i : Nat) : Option (BitVec 15) :=
  match Tbl.get none s.fab.map i with
  | some e => e
  | none =>
    let (x, y, z) := s.fab.ext
    if i % 32 < x ∧ i / 32 % 32 < y ∧ i / 1024 < z ∧ i < 32768 then some (BitVec.ofNat 15 i) else none

/-- The module's own logical identifier: the entry that names its coordinate (R496). -/
def ownChip (s : State) : Option Nat :=
  match s.fab.map.find? (fun e => e.2 == some (some s.fab.phys)) with
  | some e => some e.1
  | none => if mapEntry s s.fab.phys.toNat = some s.fab.phys then some s.fab.phys.toNat else none

/-- The fields of a register that show state held elsewhere, over its stored value. -/
def regRead (s : State) (r : Reg) : Nat :=
  let v := regGet s r
  let p := r.idx
  match r.name with
  | .newtStat =>
    let t := tileAt s r.unit
    putBits (putBits (putBits v 8 1 (b2n !t.heldEvents.isEmpty)) 3 3 t.loops.length) 0 3 (stateCode t.st)
  | .strRepair =>
    spareLines s r.unit 3 * 2 ^ 21 + spareLines s r.unit 2 * 2 ^ 14 + spareLines s r.unit 1 * 2 ^ 7 + spareLines s r.unit 0
  | .strRegion =>
    match Tbl.get none s.strata.regions (64 * r.unit + p / 4) with
    | none => 0
    | some g => fieldAt (regionBytes g true) (8 * (p % 4)) 8
  | .t1cStat =>
    let n := (List.range 64).filter fun q => Tbl.get 0 s.tier.pcState (64 * r.unit + q) == 1
    let f := (List.range 64).any fun q => Tbl.get 0 s.tier.pcState (64 * r.unit + q) == 2
    putBits (putBits (putBits v 31 1 (b2n f)) 8 23 (lostIn s (r.unit * 0x1000000000) 0x1000000000)) 0 3 n.length
  | .t1cRetired => sumN ((List.range 64).map fun q => b2n (Tbl.get 0 s.tier.pcState (64 * r.unit + q) == 1) * 2 ^ q)
  | .t1cFailedpc => sumN ((List.range 64).map fun q => b2n (Tbl.get 0 s.tier.pcState (64 * r.unit + q) == 2) * 2 ^ q)
  | .t2cStat =>
    let c := Tbl.get 0 s.tier.chState r.unit
    putBits (putBits (putBits v 31 1 (b2n (c == 2))) 8 23
      (lostIn s (0x100000000000 + r.unit * 0x2000000000) 0x2000000000)) 0 3 (b2n (c == 1))
  | .partState =>
    let q := partAt s p
    if q.st = .none then q.epoch.toNat * 2 ^ 48
    else q.epoch.toNat * 2 ^ 48 + q.dies.toNat * 2 ^ 40 + q.tiles.length * 2 ^ 30
      + (match q.dlm with | some d => d.reserve.length | none => 0) * 2 ^ 20 + (if q.serving then 1 else 2) * 4
      + (match q.st with | .none => 0 | .idle => 1 | .running => 2 | .deleting => 3)
  | .partStep => (partAt s p).stepNum.toNat
  | .partStepstat => (partAt s p).lastStatus.toNat * 2 ^ 16 + min 0xFF (partAt s p).waiting.length * 2 ^ 8
  | .partT1quota => (partAt s p).t1Quota
  | .partT1use => t1Use s p
  | .partT2quota => (partAt s p).t2Quota
  | .partT2use => t2Use s p
  | .partTierstat =>
    let past := decide ((partAt s p).t1Quota < t1Use s p)
    putBits (putBits (putBits v 2 1 (b2n (bitOf v 2 && bitOf v 3 && past))) 1 1 (b2n (decide ((partAt s p).t2Quota < t2Use s p)))) 0 1
      (b2n past)
  | .partCkstat => putBits v 0 3 (ckState s p)
  | .collStream =>
    let c := Tbl.get {} s.coll.streams p
    let lz := maxN ((List.range 8).map fun d =>
      sumN ((c.held.filter fun h => h.die.val == d).map fun h => h.size))
    c.nextSeq.toNat * 2 ^ 32 + c.pending.length * 2 ^ 24 + ceilDiv lz 1048576 * 2 ^ 16 + b2n (!c.held.isEmpty) * 8
      + (match c.st with | .closed => 0 | .opened => 1 | .running => 2 | .failed => 3)
  | .vidStat =>
    let used := (Tbl.inRange s.ing.ctxs (64 * r.unit) 64).length
    let waiting := sumN ((s.ing.pipes.filter fun e => bitOf (partAt s e.2.part.val).dies.toNat (r.unit / 2)).map fun e => sumN (e.2.samples.map fun m =>
      (m.comps.filter fun c => c.kind == 1 && c.pair == none && !c.decoded && m.admitted).length))
    putBits (putBits v 7 9 (min 0x1FF waiting)) 0 7 used
  | .tokStat =>
    let loaded (n : Nat) : Bool := (List.range 16).any fun q =>
      bitOf (partAt s q).dies.toNat r.unit && (Tbl.get none s.ing.dicts (4 * q + n)).isSome
    putBits v 0 4 (sumN ((List.range 4).map fun n => b2n (loaded n) * 2 ^ n))
  | .ingPipe =>
    putBits v 0 2 (match (pipeAt s p).st with | .closed => 0 | .opened => 1 | .closing => 2)
  | .dlmPred => (partAt s p).pred
  | .secStat =>
    putBits (putBits (putBits (putBits (putBits v 31 1 (b2n s.sec.lock)) 30 1 (b2n s.sec.once)) 29 1
      (b2n s.sec.ownerKey.isSome)) 20 4 s.fuses.revoked.toNat) 0 7 s.fuses.svnMin
  | .secNonce => fieldAt s.sec.nonce (8 * p) 8
  | .secSlot =>
    let k := slotAt s p
    let bound := match k.current, k.shadow with
      | some a, some b => a.bound + b.bound | some a, none => a.bound | none, some b => b.bound | none, none => 0
    min 0xFFFF bound * 2 ^ 48 + k.gen.toNat * 2 ^ 40
      + (match k.shadow with | some b => b.gen.toNat | none => 0) * 2 ^ 32 + k.part.val * 2 ^ 28
      + b2n k.kek * 16 + b2n k.erasing * 8 + b2n k.shadow.isSome * 4 + b2n k.current.isSome
  | .bootStat =>
    let b := s.boot
    putBits (putBits (putBits (putBits (putBits (putBits v 28 4 (phaseCode b.phase)) 26 1 (b2n b.inactOk)) 25 1
      (b2n b.fallback)) 24 1 (b2n b.trial)) 23 1 b.slot) 0 16 b.lastErr.toNat
  | .bootImg => s.boot.fwActive.toNat * 2 ^ 32 + (if s.boot.inactOk then s.boot.fwInactive.toNat else 0)
  | .bootImg2 => s.boot.svn * 2 ^ 24 + s.boot.libVersion
  | .bootActive =>
    if s.boot.phase = .power then 0 else sumN ((List.range 8).map fun d => (activeTiles s d).length * 2 ^ (8 * d))
  | .bootCount => s.boot.count
  | .bootGeo => b2n s.boot.parErr * 2 ^ 31 + b2n s.boot.range * 2 ^ 30 + s.boot.straps.toNat
  | .bootRcmd => putBits (putBits v 16 16 s.boot.rstatus.toNat) 15 1 (b2n (s.boot.op.isSome && s.boot.phase == .recovery))
  | .bootRwin => fieldAt (bytesAt 0 s.boot.rwin (8 * p) 8) 0 8
  | .clspCtrl =>
    b2n ((List.range 3).any fun a => let j : JoinSt := Tbl.get {} s.fab.joins a; j.step != JoinStep.idle) * 2
  | .clspStat => s.fab.sensed.toNat
  | .timeNow => s.now % 2 ^ 64
  | .timeStat =>
    putBits (putBits (putBits v 31 1 (b2n (s.fab.locked && !s.fab.holdover))) 30 1 (b2n s.fab.gm)) 27 3
      (match s.fab.parent with | some d => d.val | none => 7)
  | .lnkMapgen => s.fab.mapGen.toNat
  | .lnkMap => match mapEntry s p with | some c => 2 ^ 31 + c.toNat | none => 0
  | .lnkStat => putBits (putBits v 28 4 (linkAt s r.unit).lanes.toNat) 0 3 (linkCode (linkAt s r.unit).st)
  | .hostEvtstat =>
    let n := regFld s ⟨.hostEvtbase, r.unit, 0⟩ 0 5
    putBits v 0 16 (Tbl.get 0 s.host.evtWritten r.unit % 2 ^ n)
  | .hostDbstat => putBits v 0 13 s.host.coalescer.length
  | .hostAdmq =>
    let q := queueAt s r.unit
    if q.st = .free then v
    else if p = 4 then putBits v 56 8 (fieldAt (queueBytes q) 0x27 1)
    else if 6 ≤ p then fieldAt (queueBytes q) (8 * p) 8 else v
  | .queView => queView s r.unit
  | _ => v

/-! ### Interrupts and fault records -/

/-- The device signals a vector (R715). -/
def signalVec (s : State) (fn v : Nat) : State :=
  let m := msixAt s fn v
  if m.masked then modMsix s fn v fun m => { m with pending := true }
  else if m.holdoff then modMsix s fn v fun m => { m with noted := true }
  else
    let s := emit s (.msix fn v)
    if regFld s ⟨.hostFnctrl, fn, 0⟩ 16 16 = 0 then s else modMsix s fn v fun m => { m with holdoff := true }

/-- A fault record of R729. -/
def faultBytes (seq : Nat) (status : Status) (part phase now addr value queue : Nat) : Bytes :=
  leBytes 4 seq ++ leBytes 2 status.toNat ++ leBytes 1 part ++ leBytes 1 phase ++ leBytes 8 now ++ leBytes 8 addr
    ++ leBytes 4 value ++ leBytes 4 queue

/-- A fault record written to one function's event ring, or dropped and counted (R729, R730). A function whose ring is not
enabled, or whose ring size is outside R734, gets no record. -/
def faultTo (s : State) (fn : Nat) (status : Status) (part : Nat) (r : Reg) (queue : Nat) : State :=
  if regBit s ⟨.hostFnctrl, fn, 0⟩ 1 = false then s
  else
    let b := regGet s ⟨.hostEvtbase, fn, 0⟩
    let n := 2 ^ bitsOf b 0 5
    let w := Tbl.get 0 s.host.evtWritten fn
    if bitsOf b 0 5 < 4 ∨ 16 < bitsOf b 0 5 then s
    else if Tbl.get 0 s.host.evtHead fn + n ≤ w then regAddSat s ⟨.hostEvtstat, fn, 0⟩ 16 16 1
    else
      let rec_ := faultBytes w status part (1 - w / n % 2) s.now r.addr (regRead s r % 2 ^ 32) queue
      let s := { s with hostMem := putBytes 0 s.hostMem (b / 4096 * 4096 + 32 * (w % n)) rec_,
                        host := { s.host with evtWritten := Tbl.put 0 s.host.evtWritten fn (w + 1) } }
      signalVec s fn 0

/-- Komodo records a fault record at P0: to the PF, and to the VF whose partition it names (R50, R729). -/
def faultRec (s : State) (status : Status) (part : Nat) (r : Reg) (queue : Nat := 0xFFFFFFFF) : State :=
  let s := faultTo s 0 status part r queue
  forEach ((List.range 16).filter fun v => match bindAt s (v + 1) with | some b => b.part.val == part | none => false) s
    fun s v => faultTo s (v + 1) status part r queue

/-- A fault record that names a partition and a register, with no status. -/
def faultReg (s : State) (part : Nat) (r : Reg) : State := faultRec s stOk part r

/-- The partition number of an optional partition; 0xFF for none. -/
def partNo (p : Option PartId) : Nat := match p with | some p => p.val | none => 0xFF

/-- Dispatch is held by the brake, a power hold or a thermal hold (R64, R798, R799). -/
def powerHold (s : State) : Bool := s.pwr.holdAvg || s.pwr.holdPeak
def grantedState (s : State) : Nat := regFld s ⟨.pwrVreq, 0, 0⟩ 8 3

/-- The state whose thresholds apply: during a ramp the lower of the two it joins (R797). -/
def brakeState (s : State) : Nat := if s.pwr.ramping then min s.pwr.rampFrom (grantedState s) else grantedState s

/-- The starts of newt programs on a die within the microsecond that ends now. -/
def recentStarts (s : State) (d : Nat) : List (Nat × Nat) := s.pwr.starts.filter fun e => e.1 == d && decide (s.now < e.2 + 1000)

/-- A newt of the tile may start: outside VS0 always, in VS0 or a ramp that joins it at most 16 of a die within any microsecond
(R793). -/
def startable (s : State) (t : Nat) : Bool := brakeState s != 0 || decide ((recentStarts s (tileDie t)).length < 16)

/-- A newt's start noted, while VS0 staggers them (R793). -/
def noteStart (s : State) (t : Nat) : State :=
  if brakeState s = 0 then
    { s with pwr := { s.pwr with starts := (tileDie t, s.now) :: s.pwr.starts.filter fun e => decide (s.now < e.2 + 1000) } }
  else s

def dispatchHeld (s : State) : Bool := s.pwr.brake || powerHold s || regBit s ⟨.pwrStat, 0, 0⟩ 2

/-- The module is in RUN, or in the pause of an activation. -/
def inRun (s : State) : Bool := s.boot.phase == .run || s.boot.phase == .pause

/-- The host cannot reach a function: PERST# is asserted, or the image's TotalVFs does not include it (R687, R854). -/
def noFn (s : State) (fn : Nat) : Bool := s.host.perst || (fn != 0 && decide (fieldAt s.boot.cfg 0xA 1 < fn))

/-- The priority of a partition's steps (R743). -/
def partPrio (s : State) (p : Nat) : Nat := if (partAt s p).serving then 1 else 2

/-- The step of the first lock: what waits for a time that passes (scrub passes, waits, markers, holdback pages, the windows of
errors, watchdogs) goes on by as much as before (R514, R727). -/
def lockStep (s : State) (now : Nat) : State :=
  let mv (t : Nat) : Nat := t + now - s.now
  { s with
    now
    pwr := { s.pwr with starts := s.pwr.starts.map fun e => (e.1, mv e.2) }
    strata := { s.strata with scrub := s.strata.scrub.map fun e => (e.1, { e.2 with start := mv e.2.start }) }
    tiles := s.tiles.map fun e => (e.1, { e.2 with waitSince := mv e.2.waitSince, lastForward := e.2.lastForward.map mv })
    tier := { s.tier with ueTimes := s.tier.ueTimes.map fun e => (e.1, e.2.map mv)
                          lateTimes := s.tier.lateTimes.map fun e => (e.1, e.2.map mv)
                          wc := s.tier.wc.map fun e => (e.1, e.2.map fun w => { w with written := mv w.written }) }
    host := { s.host with queues := s.host.queues.map fun e =>
      (e.1, { e.2 with holdFull := e.2.holdFull.map fun h => (h.1, mv h.2) }) }
    coll := { s.coll with streams := s.coll.streams.map fun e =>
      (e.1, { e.2 with run := e.2.run.map fun r => { r with lastMove := mv r.lastMove } }) } }

end Sys2Proof.Machine
end

