-- ==== Sys2Proof/Machine/Mem.lean ====
section
/-! DEFINITION. The address spaces and every access to them: strata windows (R317 to R350), tiers with write combining
(R364 to R377), BACKED regions (R384 to R392), lost units (R406, R410) and copy-on-write (R594, R595). -/

namespace Sys2Proof.Machine
open Sys2Proof

/-- How an access ends: done, outside the requester's memory (R151), waiting (R595), with the step to be replayed (R337),
or with a status. -/
inductive Acc where
  | ok
  | bounds
  | wait
  | replay
  | fail (st : Status)
  deriving DecidableEq, Repr

/-! ### Strata addresses -/

def strataBase : Nat := 0x200000000000

/-- The tile window and offset that a device address names (R317 to R319); populated windows only. -/
def strataLoc (a : Nat) : Option (Nat × Nat) :=
  if strataBase ≤ a ∧ a < strataBase + 0x2000000000 then
    let o := a - strataBase
    let t := o / 0x400000000 * 128 + o % 0x400000000 / 0x8000000
    if validTile t then some (t, o % 0x8000000) else none
  else none

/-- The device address of an offset in a tile's window (R317). -/
def strataAddr (t off : Nat) : Nat := strataBase + t / 128 * 0x400000000 + t % 128 * 0x8000000 + off

def strataSize : Nat := 0x5000000
def stratumSize : Nat := 0x1400000

/-- The offset of a byte's twin: the same offset in stratum s xor 1 (R334). -/
def twinOff (off : Nat) : Nat := (off / stratumSize ^^^ 1) * stratumSize + off % stratumSize

/-- The regions of a live tile with their table numbers (R328). -/
def tileRegions (s : State) (t : Nat) : List (Nat × Region) :=
  (Tbl.inRange s.strata.regions (64 * t) 64).filterMap fun e => e.2.map fun r => (e.1 % 64, r)

def overlap (a n b m : Nat) : Bool := decide (a < b + m) && decide (b < a + n)

/-- The region that holds an offset of a live tile. -/
def regionOf (s : State) (t off : Nat) : Option Region :=
  ((tileRegions s t).find? fun e => decide (e.2.offset ≤ off) && decide (off < e.2.offset + e.2.length)).map (·.2)

/-- The region whose twin range holds an offset of a live tile (R334). -/
def twinRegion (s : State) (t off : Nat) : Option Region :=
  ((tileRegions s t).find? fun e => e.2.cls == 3 && decide (twinOff e.2.offset ≤ off)
    && decide (off < twinOff e.2.offset + e.2.length)).map (·.2)

/-- A range of a live tile's strata touches a twin range. -/
def touchesTwin (s : State) (t off n : Nat) : Bool :=
  (tileRegions s t).any fun e => e.2.cls == 3 && overlap off n (twinOff e.2.offset) e.2.length

/-- A range of a live tile's strata touches a CLEAN region (R332). -/
def touchesClean (s : State) (t off n : Nat) : Bool :=
  (tileRegions s t).any fun e => e.2.cls == 1 && overlap off n e.2.offset e.2.length

/-- The live strata address of a range, where it is populated, lies in one window, is not a spare in use reached by its
own window, and touches no twin range (R320, R334, R350). -/
def strataPhys (s : State) (a n : Nat) : Option (Nat × Nat × Nat) :=
  match strataLoc a with
  | none => none
  | some (t, off) =>
    if off + n ≤ strataSize ∧ spareInUse s t = false then
      let l := liveTile s t
      if touchesTwin s l off n then none else some (t, l, off)
    else none

/-! ### Tier addresses -/

/-- The tier unit that holds an address: its base and length, 2 KiB of tier 1, 512 B of tier 2 (R371). -/
def tierUnit (a : Nat) : Nat × Nat := if isT1 a then (a / 2048 * 2048, 2048) else (a / 512 * 512, 512)

/-- The populated part of a stack's or channel's window (R364, R366). -/
def populatedTier (a n : Nat) : Bool :=
  if isT1 a then decide (a % 0x1000000000 + n ≤ 48000000000)
  else if isT2 a then decide (a % 0x2000000000 + n ≤ 96000000000) else false

/-- An address in a stack's backed aperture (R365). -/
def inAperture (a : Nat) : Bool := isT1 a && decide (0xC00000000 ≤ a % 0x1000000000)

/-- The retirement unit whose addresses an address is one of: whether it is a tier-2 channel, and its number (R368, R408). -/
def ownUnit (a : Nat) : Bool × Nat :=
  if isT1 a then (false, 64 * (a / 0x1000000000) + a / 2048 % 64) else (true, (a - 0x100000000000) / 0x2000000000)

/-- A retirement unit's state: 0 in use, 1 retired, 2 FAILED (R408). -/
def unitStateNo (s : State) (u : Bool × Nat) : Nat :=
  if u.1 then Tbl.get 0 s.tier.chState u.2 else Tbl.get 0 s.tier.pcState u.2

/-- A retirement unit's key in the tables of times and targets. -/
def unitKey (u : Bool × Nat) : Nat := if u.1 then 1024 + u.2 else u.2

/-- The unit that an address goes to from a unit: itself, or, once that has retired, one of those that took its addresses; which,
the specification leaves open (R409; log entry 4). -/
def redirected (s : State) (a : Nat) (u : Bool × Nat) : Bool × Nat :=
  if unitStateNo s u = 1 ∧ s.tier.redirecting.contains u = false then
    match Tbl.get [] s.tier.targets (unitKey u) with
    | [] => u
    | l => (u.1, nth u.2 l (Config.freeNat (2 ^ 200 + 4096 * (a / 512) + unitKey u) % l.length))
  else u

/-- The unit that holds the data of an address: at most four pseudo-channels of a stack retire, so five steps reach it. -/
def holder (s : State) (a : Nat) : Bool × Nat :=
  redirected s a (redirected s a (redirected s a (redirected s a (redirected s a (ownUnit a)))))

/-- The tier-1 pseudo-channel or the tier-2 channel that holds an address is FAILED (R408). -/
def unitFailed (s : State) (a : Nat) : Bool := (isT1 a || isT2 a) && unitStateNo s (holder s a) == 2

/-- Bytes of addresses that a region occupies (R382). -/
def TierRegion.size (r : TierRegion) : Nat := if r.backed then r.length else storedSize r.elem r.codec r.length

/-- The tier region that holds an address. -/
def tierRegionAt (s : State) (a : Nat) : Option TierRegion :=
  s.tier.regions.find? fun r => decide (r.base ≤ a) && decide (a < r.base + r.size)

/-- The range lies in tier regions that satisfy `p`, one after another. -/
def tierCovered (s : State) (p : TierRegion → Bool) (a n : Nat) : Bool :=
  let e := a + n
  decide (e ≤ s.tier.regions.foldl (fun pos _ =>
    match tierRegionAt s pos with
    | some r => if p r then r.base + r.size else pos
    | none => pos) a)

/-- The controller of a tier address: stack, or 8 plus channel. -/
def tierCtlOf (a : Nat) : Nat := if isT1 a then a / 0x1000000000 else 8 + (a - 0x100000000000) / 0x2000000000

def tierCtlNo : TierCtl → Nat
  | .t1 s => s.val
  | .t2 c => 8 + c.val

/-- The status register of a tier controller, for fault records (R416, R418). -/
def tierStat (c : Nat) : Reg := if c < 8 then ⟨.t1cStat, c, 0⟩ else ⟨.t2cStat, c - 8, 0⟩
def tierCtrl (c : Nat) : Reg := if c < 8 then ⟨.t1cCtrl, c, 0⟩ else ⟨.t2cCtrl, c - 8, 0⟩

/-- New requests to a unit are held while its redirection is made (R411). -/
def unitHeld (s : State) (a : Nat) : Bool := (isT1 a || isT2 a) && s.tier.redirecting.contains (holder s a)

/-- One byte as a reader receives it: from a write-combining entry where one holds it, else from memory (R376). -/
def memByte (s : State) (a : Nat) : Byte :=
  let fromMem := Tbl.get 0 s.mem a
  if isT1 a || isT2 a then
    let u := (tierUnit a).1
    match Tbl.get none s.tier.wc u with
    | some e => match e.bytes.find? (fun x => x.1 == a - u) with | some x => x.2 | none => fromMem
    | none => fromMem
  else fromMem

def memBytes (s : State) (a n : Nat) : Bytes := (span a n).map (memByte s)
def putMem (s : State) (a : Nat) (b : Bytes) : State := { s with mem := putBytes 0 s.mem a b }

/-- A lost mark set or cleared (R410). -/
def setLost (s : State) (u : Nat) (v : Bool) : State :=
  { s with tier := { s.tier with lost := Tbl.put false s.tier.lost u v } }
def isLost (s : State) (u : Nat) : Bool := Tbl.get false s.tier.lost u

def setWc (s : State) (u : Nat) (e : Option WcEntry) : State :=
  { s with tier := { s.tier with wc := Tbl.put none s.tier.wc u e } }

/-- A running step of a partition gets a status, the first standing (R920). -/
def stepStatus (s : State) (p : Nat) (st : Status) : State :=
  modPart s p fun q => { q with run := q.run.map fun r => if r.status.isSome then r else { r with status := some st } }

/-- A running step gets a status from a failure that no command of it stands for: Komodo stops its newts (R373; log entry 100). -/
def stepFails (s : State) (p : Nat) (st : Status) : State :=
  modPart s p fun q => { q with run := q.run.map fun r => if r.status.isSome then r else { r with status := some st, stopDue := true } }

/-- A running step met a recovered error (R341). -/
def stepRecovered (s : State) (p : Nat) : State :=
  modPart s p fun q => { q with run := q.run.map fun r => { r with recovered := true } }

/-- A write-combining entry written to memory; `ue` says that the read of its read-merge-write met an uncorrectable error
(R373, R375). A unit already lost takes no partial write (R410), a FAILED one no write (R408); one that is being redirected keeps
its entry (R411). -/
def wcWriteOut (s : State) (u : Nat) (ue : Bool) : State :=
  match Tbl.get none s.tier.wc u with
  | none => s
  | some e =>
    if unitHeld s u then s
    else
      let s := setWc s u none
      let whole := decide (e.bytes.length = (tierUnit u).2)
      if unitFailed s u || (!whole && (ue || isLost s u)) then
        let met := ue && !whole && !unitFailed s u
        let s := if met then setLost s u true else s
        let s := forEach e.writers s fun s w =>
          if ((partAt s w.1.val).run.map (·.num)) = some w.2 then stepFails s w.1.val stTierFail else s
        if met then faultReg s 0xFF (tierStat (tierCtlOf u)) else s
      else
        let s := if whole then setLost s u false else s
        forEach e.bytes s fun s b => putMem s (u + b.1) [b.2]

/-- The write-combining entries of a controller. -/
def wcOf (s : State) (c : Nat) : List (Nat × WcEntry) :=
  s.tier.wc.filterMap fun e => if tierCtlOf e.1 = c then e.2.map fun w => (e.1, w) else none

/-- A part of a unit entered in the entry of its unit, made if there is none; a full entry is written (R374, R375). -/
def wcEnter (s : State) (prio : Nat) (who : Option (PartId × W64)) (u off : Nat) (b : Bytes) : State :=
  let old := (Tbl.get none s.tier.wc u).getD {}
  let bytes := (b.mapIdx fun i x => (off + i, x)) ++ old.bytes.filter fun x => !(off ≤ x.1 && x.1 < off + b.length)
  let e : WcEntry :=
    { bytes := bytes
      prio := if prio < old.prio.val then Fin.ofNat 4 prio else old.prio
      writers := match who with | some w => if old.writers.contains w then old.writers else w :: old.writers | none => old.writers
      order := s.tier.wcOrder, written := s.now }
  let s := { setWc s u (some e) with tier := { (setWc s u (some e)).tier with wcOrder := s.tier.wcOrder + 1 } }
  if bytes.length = (tierUnit u).2 then wcWriteOut s u false else s

/-- A part of a unit written: into the entry of its unit, made if there is none, the least recently written entry leaving
when all 32 are in use, or the write waiting while that one's unit is held; a full entry is written (R374, R375, R411). -/
def wcPart (s : State) (prio : Nat) (who : Option (PartId × W64)) (u off : Nat) (b : Bytes) : Acc × State :=
  let oldest : Option Nat :=
    let es := wcOf s (tierCtlOf u)
    if (Tbl.get none s.tier.wc u).isSome || decide (es.length < 32) then none
    else some (es.foldl (fun (m : Nat × Nat) e => if e.2.order < m.2 then (e.1, e.2.order) else m) (0, s.tier.wcOrder + 1)).1
  match oldest with
  | some o => if unitHeld s o then (.wait, s) else (.ok, wcEnter (wcWriteOut s o false) prio who u off b)
  | none => (.ok, wcEnter s prio who u off b)
/-- One tier unit written in whole or part (R373, R374, R410). -/
def tierPut (s : State) (prio : Nat) (who : Option (PartId × W64)) (u off : Nat) (b : Bytes) : Acc × State :=
  if unitHeld s u then (.wait, s)
  else if unitFailed s u then (.fail stTierFail, s)
  else if b.length = (tierUnit u).2 then (.ok, putMem (setLost (setWc s u none) u false) u b)
  else if isLost s u then (.fail stTierFail, s)
  else wcPart s prio who u off b

/-- The pieces of a range by tier unit: unit, offset in it, length. -/
def tierPieces (a n : Nat) : List (Nat × Nat × Nat) :=
  if n = 0 then []
  else
    let w := (tierUnit a).2
    (span (a / w) ((a + n - 1) / w - a / w + 1)).map fun k =>
      let lo := max a (k * w)
      (k * w, lo - k * w, min (a + n) (k * w + w) - lo)

/-- Accesses one after another, to the first that does not end well. -/
def accAll {α : Type} (l : List α) (s : State) (f : State → α → Acc × State) : Acc × State :=
  l.foldl (fun acc x => match acc.1 with | .ok => f acc.2 x | _ => acc) (.ok, s)

/-- A range of tier memory written, piece by piece. -/
def tierWrite (s : State) (prio : Nat) (who : Option (PartId × W64)) (a : Nat) (b : Bytes) : Acc × State :=
  accAll (tierPieces a b.length) s fun s x => tierPut s prio who x.1 x.2.1 ((b.drop (x.1 + x.2.1 - a)).take x.2.2)

/-- A range of populated tier memory read as it stands: TIER_FAIL from a FAILED or a lost unit (R406, R408). -/
def tierRead (s : State) (a n : Nat) : Acc × Bytes :=
  if (tierPieces a n).any fun x => unitHeld s x.1 then (.wait, [])
  else if (tierPieces a n).any fun x => unitFailed s x.1
      || (isLost s x.1 && (span (x.1 + x.2.1) x.2.2).any fun b =>
        !(match Tbl.get none s.tier.wc x.1 with | some e => e.bytes.any (fun y => y.1 == b - x.1) | none => false))
  then (.fail stTierFail, [])
  else (.ok, memBytes s a n)

/-! ### BACKED regions -/

def frameBase (a : Nat) : Nat := a / 65536 * 65536

def frameAt (s : State) (a : Nat) : Option Frame := Tbl.get none s.tier.frames (frameBase a)

def setFrame (s : State) (a : Nat) (f : Option Frame) : State :=
  { s with tier := { s.tier with frames := Tbl.put none s.tier.frames (frameBase a) f } }

/-- The state of the 2 KiB unit at an aperture address (R384). -/
def unitState (s : State) (a : Nat) : UnitSt :=
  match frameAt s a with
  | some f => Tbl.get .absent f.units (a / 2048 % 32)
  | none => .absent

def setUnit (s : State) (a : Nat) (v : UnitSt) : State :=
  match frameAt s a with
  | some f => setFrame s a (some { f with units := Tbl.put .absent f.units (a / 2048 % 32) v })
  | none => s

/-- The FIXED tier-2 region that backs a BACKED region. -/
def backingOf (s : State) (r : TierRegion) : Option TierRegion :=
  s.tier.regions.find? fun b => !b.backed && b.base == r.backing

/-- The live BACKED region that a FIXED region backs. -/
def backedBy (s : State) (b : TierRegion) : Option TierRegion :=
  s.tier.regions.find? fun r => r.backed && r.backing == b.base && !b.backed

/-- The first block and the number of blocks of a 2 KiB unit at offset `lo` of its region (R429). -/
def unitBlocks (elem lo : Nat) : Nat × Nat := (lo / blkDecoded elem, 2048 / blkDecoded elem)

/-- The stored range of a unit's blocks in the backing (R389). -/
def unitStored (b : TierRegion) (lo : Nat) : Nat × Nat :=
  if b.codec = 0 then (b.base + lo, 2048)
  else
    let (n, k) := unitBlocks b.elem lo
    (b.base + n * blkStored b.elem b.codec, k * blkStored b.elem b.codec)

/-- The codec instance BC0 of the die that a tier-2 channel belongs to (R421). -/
def bc0 (a : Nat) : Nat := 4 * ((a - 0x100000000000) / 0x2000000000 / 2)

/-- A failed check at a codec instance: counted and logged (R464, R465). -/
def codecFail (s : State) (inst block reason : Nat) : State :=
  let s := regAddSat s ⟨.codecStat, inst, 0⟩ 16 16 1
  let r : Reg := ⟨.codecErrlog, inst, 0⟩
  if regBit s r 0 then regOr s r 2
  else regSet s r (block % 2 ^ 32 * 2 ^ 32 + reason * 2 ^ 16 + 1)

/-- Blocks processed, and whether an encoder met a NaN (R464). -/
def codecDone (s : State) (inst blocks : Nat) (nanIn : Bool) : State :=
  let s := regAddWrap s ⟨.codecStat, inst, 0⟩ 32 32 blocks
  if nanIn then regOr s ⟨.codecStat, inst, 0⟩ 1 else s

/-- Stored blocks `n` onwards decoded, in order: the plain bytes of each, or the reason of its failed check. -/
def decodeBlocks (elem rate n : Nat) (stored : Bytes) : List (Nat × Except Nat Bytes) :=
  let w := blkStored elem rate
  (List.range (stored.length / w)).map fun i => (n + i, blkDecode elem rate (n + i) ((stored.drop (i * w)).take w))

/-- The lowest failing block. -/
def firstBad (l : List (Nat × Except Nat Bytes)) : Option (Nat × Nat) :=
  l.findSome? fun x => match x.2 with | .error r => some (x.1, r) | .ok _ => none

def okBytes (l : List (Nat × Except Nat Bytes)) : Bytes :=
  l.flatMap fun x => match x.2 with | .ok b => b | .error _ => []

/-- Plain bytes as blocks `n` onwards, with whether an encoder met a NaN. -/
def encodeBlocks (elem rate n : Nat) (trunc : Bool) (plain : Bytes) : Bytes × Bool :=
  let w := blkDecoded elem
  let bs := (List.range (plain.length / w)).map fun i => blkEncode elem rate (n + i) trunc ((plain.drop (i * w)).take w)
  (bs.flatMap (·.1), bs.any (·.2))

/-- A unit of a BACKED region written back to its backing at a priority: only the stored bytes of its blocks, through the codec; the
unit becomes CLEAN, and after a lossy write it holds the decoding of what was written (R387 to R389, R392). A lost or FAILED unit
is not read (R406, R408). -/
def writeBackUnit (s : State) (prio : Nat) (r : TierRegion) (u : Nat) : Acc × State :=
  match backingOf s r, tierRead s u 2048 with
  | none, _ => (.ok, s)
  | some b, (.ok, plain) =>
    let lo := u - r.base
    let (addr, len) := unitStored b lo
    if b.codec = 0 then
      match tierWrite s prio none addr plain with
      | (.ok, s) => (.ok, setUnit s u .clean)
      | x => x
    else
      let (n, k) := unitBlocks b.elem lo
      let (stored, nan) := encodeBlocks b.elem b.codec n false plain
      match tierWrite s prio none addr (stored.take len) with
      | (.ok, s) =>
        let s := codecDone s (bc0 b.base) k nan
        if b.codec = 1 then (.ok, setUnit s u .clean)
        else match tierPut s prio none u 0 (okBytes (decodeBlocks b.elem b.codec n stored)) with
          | (.ok, s) => (.ok, setUnit s u .clean)
          | x => x
      | x => x
  | some _, (a, _) => (a, s)

/-- The DIRTY units of a frame written back, at P3 (R379). -/
def writeBackFrame (s : State) (r : TierRegion) (fb : Nat) : Acc × State :=
  accAll ((List.range 32).map fun i => fb + 2048 * i) s fun s u =>
    if unitState s u = .dirty then writeBackUnit s 3 r u else (.ok, s)

/-- A frame freed: its units ABSENT and its cells empty. -/
def freeFrame (s : State) (fb : Nat) : State :=
  let s := { s with mem := Tbl.clearRange s.mem fb 65536, tier := { s.tier with wc := Tbl.clearRange s.tier.wc fb 65536,
                                                                                lost := Tbl.clearRange s.tier.lost fb 65536 } }
  setFrame s fb none

/-- The resident frames of a partition with their regions, the least recently filled first (R386). -/
def residentFrames (s : State) (p : Nat) : List (Nat × Frame × TierRegion) :=
  let l := s.tier.frames.filterMap fun e => match e.2, tierRegionAt s e.1 with
    | some f, some r => if r.part.val = p then some (e.1, f, r) else none
    | _, _ => none
  sortBy (fun a b => decide (a.2.1.filled < b.2.1.filled)) l

def frameDirty (f : Frame) : Bool := f.units.any fun u => u.2 == .dirty

/-- A region whose backing keeps every bit: plain or EXACT (R388). -/
def losslessBacking (s : State) (r : TierRegion) : Bool :=
  match backingOf s r with | some b => decide (b.codec ≤ 1) | none => true

/-- The frame that R386 frees next, with its region. -/
def evictable (s : State) (p : Nat) : Option (Nat × TierRegion) :=
  let l := residentFrames s p
  match l.find? (fun e => !frameDirty e.2.1) with
  | some e => some (e.1, e.2.2)
  | none => (l.find? fun e => losslessBacking s e.2.2).map fun e => (e.1, e.2.2)

/-- One frame of a partition freed by the order of R386: QUOTA_OVER where none is eligible. -/
def evictFrame (s : State) (p : Nat) : Acc × State :=
  match evictable s p with
  | none => (.fail stQuotaOver, s)
  | some (fb, r) =>
    match writeBackFrame s r fb with
    | (.ok, s) => (.ok, freeFrame s fb)
    | x => x

/-- Cells of a stack in use: its FIXED regions and 64 KiB for each resident frame. -/
def stackUse (s : State) (k : Nat) : Nat :=
  sumN (s.tier.regions.map fun r => if r.backed = false ∧ isT1 r.base ∧ r.base / 0x1000000000 = k then r.length else 0)
    + 65536 * (Tbl.inRange s.tier.frames (k * 0x1000000000) 0x1000000000).length

/-- A frame made resident within quota and cells (R386, R400, R401). -/
def makeResident (s : State) (r : TierRegion) (a : Nat) : Acc × State :=
  if (frameAt s a).isSome then (.ok, s)
  else
    let p := r.part.val
    let go : Acc × State := if (partAt s p).t1Quota < t1Use s p + 65536 then evictFrame s p else (.ok, s)
    match go with
    | (.ok, s) =>
      if 48000000000 < stackUse s (a / 0x1000000000) + 65536 then (.fail stNoResource, s)
      else (.ok, setFrame s a (some { filled := s.tier.fillOrder }))
    | x => x

/-- A unit CLEAN, its frame filled last. -/
def unitFilled (s : State) (u : Nat) : State :=
  let f := (frameAt s u).getD {}
  let s := setFrame s u (some { f with units := Tbl.put .absent f.units (u / 2048 % 32) .clean, filled := s.tier.fillOrder })
  { s with tier := { s.tier with fillOrder := s.tier.fillOrder + 1 } }

/-- An ABSENT unit filled from its backing, as a write of the whole unit (R385, R410, R411, R440); its blocks are processed, or one
fails its check (R464). -/
def fillUnit (s : State) (r : TierRegion) (u : Nat) : Acc × State :=
  match backingOf s r with
  | none => (.fail stTierFail, s)
  | some b =>
    match makeResident s r u with
    | (.ok, s) =>
      let lo := u - r.base
      let (addr, len) := unitStored b lo
      match tierRead s addr len with
      | (.ok, stored) =>
        let (n, k) := unitBlocks b.elem lo
        let ds := if b.codec = 0 then [] else decodeBlocks b.elem b.codec n stored
        match firstBad ds with
        | some (blk, why) => (.fail stCheckFail, codecFail (codecDone s (bc0 b.base) k false) (bc0 b.base) blk why)
        | none =>
          let plain := if b.codec = 0 then stored else okBytes ds
          match tierPut (if b.codec = 0 then s else codecDone s (bc0 b.base) k false) 3 none u 0 plain with
          | (.ok, s) => (.ok, unitFilled s u)
          | x => x
      | (x, _) => (x, s)
    | x => x

/-- The 2 KiB units of a BACKED region whose blocks touch a range of its backing (R392). -/
def coveredUnits (r b : TierRegion) (a n : Nat) : List Nat :=
  let lo := a - b.base
  let hi := a + n - 1 - b.base
  let per := if b.codec = 0 then 2048 else 2048 / blkDecoded b.elem * blkStored b.elem b.codec
  (span (lo / per) (hi / per - lo / per + 1)).map fun i => r.base + 2048 * i

/-- The parts of a range by 2 KiB unit: first address, length. -/
def unitSpans (a n : Nat) : List (Nat × Nat) :=
  if n = 0 then []
  else (span (a / 2048) ((a + n - 1) / 2048 - a / 2048 + 1)).map fun k =>
    let lo := max a (2048 * k)
    (lo, min (a + n) (2048 * k + 2048) - lo)

/-- What the device does before a part of a 2 KiB unit is read: the fill of an ABSENT unit (R385), and the write-backs, at the
reader's priority, that a read of a plain or EXACT backing forces (R392). -/
def readyRead (s : State) (prio lo n : Nat) : Acc × State :=
  let u := lo / 2048 * 2048
  match tierRegionAt s lo with
  | none => (.ok, s)
  | some r =>
    if r.backed then (if unitState s u = .absent then fillUnit s r u else (.ok, s))
    else
      match backedBy s r with
      | none => (.ok, s)
      | some k =>
        if 1 < r.codec then (.ok, s)
        else accAll (coveredUnits k r lo (min (lo + n) (r.base + r.size) - lo)) s fun s v =>
          if unitState s v = .dirty then writeBackUnit s prio k v else (.ok, s)

/-- A tier range read unit by unit, each made ready before its bytes are read (R385, R392, R406). -/
def tierFetch (s : State) (prio a n : Nat) : Acc × Bytes × State :=
  (unitSpans a n).foldl (fun acc x =>
    match acc with
    | (.ok, b, s) =>
      match readyRead s prio x.1 x.2 with
      | (.ok, s) => let r := tierRead s x.1 x.2; (r.1, b ++ r.2, s)
      | (y, s) => (y, [], s)
    | y => y) (.ok, [], s)

/-- What the device does before a part of a 2 KiB unit is written: an ABSENT unit of a BACKED region becomes resident, and is filled
where the part is not the whole (R385). -/
def readyWrite (s : State) (lo n : Nat) : Acc × State :=
  let u := lo / 2048 * 2048
  match tierRegionAt s lo with
  | none => (.ok, s)
  | some r =>
    if r.backed = false ∨ unitState s u ≠ .absent then (.ok, s)
    else if n = 2048 then makeResident s r u else fillUnit s r u

/-- What a write of a part of a 2 KiB unit leaves: the unit of a BACKED region DIRTY (R384), the units whose blocks a written backing
holds ABSENT (R392). -/
def afterWrite (s : State) (lo n : Nat) : State :=
  match tierRegionAt s lo with
  | none => s
  | some r =>
    if r.backed then setUnit s (lo / 2048 * 2048) .dirty
    else
      match backedBy s r with
      | none => s
      | some k =>
        forEach (coveredUnits k r lo (min (lo + n) (r.base + r.size) - lo)) s fun s v =>
          if unitState s v = .absent then s else setWc (setUnit s v .absent) v none

/-- Bytes of one 2 KiB unit written. -/
def storeUnit (s : State) (prio : Nat) (who : Option (PartId × W64)) (lo : Nat) (b : Bytes) : Acc × State :=
  match readyWrite s lo b.length with
  | (.ok, s) =>
    match tierWrite s prio who lo b with
    | (.ok, s) => (.ok, afterWrite s lo b.length)
    | x => x
  | x => x

/-- A take protects a unit that has not been drained (R594). -/
def protectors (s : State) (u : Nat) : List (Nat × Take) :=
  s.ckpt.takes.filterMap fun e => match e.2 with
    | some t => if Tbl.get false t.prot u then some (e.1, t) else none
    | none => none

/-- The chunk of a drain that holds an address of its tier extents: chunks of 32,768 bytes through the extents in order
(R597). -/
def chunkOf (t : Take) (a : Nat) : Nat :=
  (t.extents.foldl (fun (acc : Nat × Option Nat) e =>
    let hit := if acc.2.isNone && e.2.2 && e.1 ≤ a && a < e.1 + e.2.1 then some (acc.1 + (a - e.1) / 32768) else acc.2
    (acc.1 + ceilDiv e.2.1 32768, hit)) (0, none)).2.getD 0

/-- A protected unit's old contents copied into the pool before a write, at the writer's priority (R594), or the write waits for its
drain, which goes at that priority (R595). Where they
cannot be read or kept, the write ends as that access does (log entry 115). -/
def cowUnit (s : State) (prio u : Nat) : Acc × State :=
  accAll (protectors s u) s fun s e =>
    let t := e.2
    let put (s : State) (t : Take) : State := { s with ckpt := { s.ckpt with takes := Tbl.put none s.ckpt.takes e.1 (some t) } }
    if (Tbl.get 0 t.pool u) != 0 then (.ok, s)
    else if t.poolUsed + 2048 ≤ t.poolLen then
      match tierFetch s prio u 2048 with
      | (.ok, old, s) =>
        let x := storeUnit s prio none (t.poolBase + t.poolUsed) old
        (x.1, if x.1 = .ok then
          put x.2 { t with pool := Tbl.put 0 t.pool u (t.poolBase + t.poolUsed), poolUsed := t.poolUsed + 2048 } else x.2)
      | (a, _, s) => (a, s)
    else
      let c := chunkOf t u
      let up : List (Nat × Nat) := t.urgent.map fun x => if x.1 = c then (c, min x.2 prio) else x
      (.wait, put s { t with urgent := if t.urgent.any fun x => x.1 == c then up else t.urgent ++ [(c, prio)] })

/-- A range of tier memory written unit by unit, the old contents of protected units kept first (R385, R392, R594). -/
def tierStore (s : State) (prio : Nat) (who : Option (PartId × W64)) (a : Nat) (b : Bytes) : Acc × State :=
  accAll (unitSpans a b.length) s fun s x =>
    match cowUnit s prio (x.1 / 2048 * 2048) with
    | (.ok, s) => storeUnit s prio who x.1 ((b.drop (x.1 - a)).take x.2)
    | y => y

/-- A command whose write must wait stands as before, but the chunk that it waits for drains first (R595). -/
def stillWaits (s0 s : State) : State :=
  { s0 with ckpt := { s0.ckpt with takes := s0.ckpt.takes.map fun e => (e.1, e.2.map fun t =>
      match Tbl.get none s.ckpt.takes e.1 with
      | some u => { t with urgent := u.urgent }
      | none => t) } }

/-! ### Parity of the strata -/

/-- Offsets of bytes with bad parity in a live strata range, lowest first (R324). -/
def badIn (s : State) (live off n : Nat) : List Nat :=
  (Tbl.inRange s.strata.badParity (strataAddr live off) n).map fun e => e.1 - strataAddr live 0

def setParity (s : State) (a : Nat) (bad : Bool) : State :=
  { s with strata := { s.strata with badParity := Tbl.put false s.strata.badParity a bad } }

/-- Bytes of a strata range written with good parity (R323). -/
def putStrata (s : State) (live off : Nat) (b : Bytes) : State :=
  let a := strataAddr live off
  let s := putMem s a b
  { s with strata := { s.strata with badParity := Tbl.clearRange s.strata.badParity a b.length } }

/-- A failure noted in STR_ERRLOG (R357). -/
def strLog (s : State) (t off cls by_ outcome : Nat) : State :=
  let r : Reg := ⟨.strErrlog, t, 0⟩
  if regBit s r 0 then regOr s r 2
  else regSet s r (off * 2 ^ 10 + cls * 2 ^ 8 + by_ * 2 ^ 5 + outcome * 4 + 1)

/-- Counters of STR_ERRCNT (R358). -/
def strRecovered (s : State) (t : Nat) : State := regAddSat s ⟨.strErrcnt, t, 0⟩ 0 16 1
def strLost (s : State) (t : Nat) : State := regAddSat s ⟨.strErrcnt, t, 0⟩ 16 8 1
def strRepaired (s : State) (t : Nat) : State := regAddSat s ⟨.strErrcnt, t, 0⟩ 24 8 1

/-- The read-back of a line that a reader's recovery has rewritten; whether it fails is the environment's (log entry 4). A failing line
takes a spare line of its stratum, and where none is left its tile's hardware fault is due (R344, R345). -/
def readBack (s : State) (live off : Nat) : State :=
  let (k, s) := takeFree s
  if Config.freeNat k % 2 = 0 then s
  else if spareLines s live (off / stratumSize) = 0 then { s with strata := { s.strata with worn := s.strata.worn ++ [live] } }
  else strRepaired { s with strata := { s.strata with mapped := Tbl.upd 0 s.strata.mapped (strataAddr live off / 256) (· + 1) } } live

/-- A byte of a tile's strata that fails its check is resolved under R337 for its reader: from its twin (R339), from its
SOURCE (R338, R392, R411, R412), by zeros with a replay of the running step or with no step to replay, or not at all. A reader that meets a
line whose refetch is on its way waits for it (R343). -/
def recoverByte (s : State) (live off by_ : Nat) : Acc × State :=
  let bad (o : Nat) : Bool := Tbl.get false s.strata.badParity (strataAddr live o)
  match regionOf s live off with
  | some r =>
    match r.cls with
    | 3 =>
      if bad (twinOff off) then (.fail stParityLost, strLost (strLog s live off 3 by_ 4) live)
      else
        let v := Tbl.get 0 s.mem (strataAddr live (twinOff off))
        (.ok, strRecovered (strLog (putStrata s live off [v]) live off 3 by_ 1) live)
    | 1 =>
      let at_ (o : Nat) : Nat := r.source + (o - r.offset)
      if s.strata.refetching.any (fun e => e.1 / 256 == strataAddr live off / 256) then (.wait, s)
      else match tierFetch s 0 (at_ (off / 2048 * 2048)) 2048 with
        | (.ok, b, s) =>
          let line := off / 256 * 256
          (.ok, strRecovered (strLog (putStrata s live line ((b.drop (line % 2048)).take 256)) live off 1 by_ 0) live)
        | (.wait, _, s) => (.wait, s)
        | (_, _, s) => (.fail stTierFail, strLost (strLog s live off 1 by_ 5) live)
    | _ =>
      let zeroed := putStrata s live (off / 256 * 256) (List.replicate 256 0)
      if (partAt s r.part).run.isSome then
        let s := strLog zeroed live off 2 by_ 2
        let s := { s with strata := { s.strata with awaiting := s.strata.awaiting ++ [(Fin.ofNat 16 r.part, live, off)] } }
        (.replay, modPart s r.part fun q => { q with run := q.run.map fun x => { x with replayDue := true } })
      else (.ok, strRecovered (strLog zeroed live off 2 by_ 3) live)
  | none => (.fail stParityLost, strLost (strLog s live off 0 by_ 4) live)

/-! ### Accesses -/

/-- Who makes an access: a partition's step, the host as PF or as a VF bound to a partition, or the device itself. -/
inductive Who where
  | step (p : Nat)
  | host (p : Option Nat)
  | device
  deriving DecidableEq, Repr

/-- The partition that an access is confined to. -/
def Who.part : Who → Option Nat
  | .step p => some p
  | .host p => p
  | .device => none

/-- The tile belongs to the requester's partition (R745, R692). -/
def tileAllowed (s : State) (w : Who) (t : Nat) : Bool :=
  match w.part with
  | none => true
  | some p => (partTiles s p).contains t

/-- The tier range lies in the requester's memory (R151, R367, R692). -/
def tierAllowed (s : State) (w : Who) (a n : Nat) : Bool :=
  match w.part with
  | some p => tierCovered s (fun r => r.part.val == p) a n
  | none =>
    if inAperture a then tierCovered s (fun r => r.backed) a n
    else populatedTier a n

/-- The range meets a declared store (R587). -/
def inStore (s : State) (a n : Nat) : Bool := s.ckpt.stores.any fun t => overlap a n t.base t.length

/-- The range meets the queue descriptors (R370). -/
def inQueueRegion (a n : Nat) : Bool := overlap a n 0x1016560BC000 0x4000000

/-- Whether a range could be read, moving nothing: for the checks that come before a transfer moves (R151). -/
def canRead (s : State) (w : Who) (a n : Nat) : Bool :=
  if n = 0 then true
  else if isT1 a || isT2 a then tierAllowed s w a n
  else match strataPhys s a n with
    | some (t, _, _) => tileAllowed s w t
    | none => false

/-- Whether a range could be written, moving nothing (R151, R332, R587). -/
def canWrite (s : State) (w : Who) (a n : Nat) : Bool :=
  if n = 0 then true
  else if isT1 a || isT2 a then
    tierAllowed s w a n && (w == .device || !(inStore s a n)) && !(w.part.isSome && inQueueRegion a n)
  else match strataPhys s a n with
    | some (t, l, off) => tileAllowed s w t && (w == .device || !(touchesClean s l off n))
    | none => false

/-- The reader code of STR_ERRLOG for an access from live tile `t0` to live tile `t` (R357). -/
def foundBy (w : Who) (t0 : Option Nat) (t : Nat) : Nat :=
  match w with
  | .host _ => 2
  | _ => if t0 = some t then 0 else 1

/-- A byte of a RECOMPUTE region whose partition runs a step: a reader other than that step has its read delivered again once the
failure, which STRATA_PARITY_FAIL resolves with that reader, and the replay are over (R324, R337; log entry 116). -/
def replayed (s : State) (live off : Nat) : Bool :=
  match regionOf s live off with
  | some r => r.cls != 3 && r.cls != 1 && (partAt s r.part).run.isSome
  | none => false

/-- The priority at which a reader's accesses run (R51, R392, R743). -/
def whoPrio (s : State) : Who → Nat
  | .step p => partPrio s p
  | .host _ => 0
  | .device => 3

/-- A range of device memory read: how it ended, its bytes, the state after (R324, R376, R385, R392, R406). -/
def readMem (s : State) (w : Who) (a n : Nat) (t0 : Option Nat := none) : Acc × Bytes × State :=
  if n = 0 then (.ok, [], s)
  else if canRead s w a n = false then (.bounds, [], s)
  else if isT1 a || isT2 a then
    tierFetch s (whoPrio s w) a n
  else
    match strataPhys s a n with
    | none => (.bounds, [], s)
    | some (_, l, off) =>
      let bads := badIn s l off n
      let other := match w with | .step _ => false | _ => true
      let x := accAll bads s fun s o =>
        if other && replayed s l o then (.wait, s)
        else if Tbl.get false s.strata.badParity (strataAddr l o) then
          let r := recoverByte s l o (foundBy w t0 l)
          (r.1, if r.1 = .ok ∨ r.1 = .replay then readBack r.2 l o else r.2)
        else (.ok, s)
      let s := match x.1, w with
        | .ok, .step p => if bads.isEmpty then x.2 else stepRecovered x.2 p
        | _, _ => x.2
      if other && s.strata.awaiting.any (fun e => e.2.1 == l && overlap (e.2.2 / 256 * 256) 256 off n) then (.wait, [], s)
      else (x.1, if x.1 = .ok then bytesAt 0 s.mem (strataAddr l off) n else [], s)

/-- The step that a write belongs to. -/
def writerOf (s : State) : Who → Option (PartId × W64)
  | .step p => (partAt s p).run.map fun r => (Fin.ofNat 16 p, r.num)
  | _ => none

/-- A range of a live tile's strata written, PRECIOUS bytes to both copies (R342). -/
def writeStrata (s : State) (l off : Nat) (b : Bytes) : State :=
  let s := putStrata s l off b
  forEach (tileRegions s l) s fun s e =>
    let r := e.2
    if r.cls == 3 && overlap off b.length r.offset r.length then
      let lo := max off r.offset
      let hi := min (off + b.length) (r.offset + r.length)
      putStrata s l (twinOff lo) ((b.drop (lo - off)).take (hi - lo))
    else s

/-- A range of device memory written (R323, R332, R342, R373, R385, R392, R587, R594). -/
def writeMem (s : State) (w : Who) (a : Nat) (b : Bytes) (prio : Nat := 2) : Acc × State :=
  if b.length = 0 then (.ok, s)
  else if canWrite s w a b.length = false then (.bounds, s)
  else if isT1 a || isT2 a then
    tierStore s prio (writerOf s w) a b
  else
    match strataPhys s a b.length with
    | none => (.bounds, s)
    | some (_, l, off) => (.ok, writeStrata s l off b)

/-- Write-combining entries written out, or a wait for one whose unit is held (R375, R411). -/
def wcFlush (s : State) (us : List Nat) : Acc × State :=
  if us.any (unitHeld s) then (.wait, s) else (.ok, forEach us s fun s u => wcWriteOut s u false)

/-- Every write-combining entry that a step wrote, or that a range covers, written out (R375). -/
def wcFlushStep (s : State) (p : PartId) (num : W64) : Acc × State :=
  wcFlush s (s.tier.wc.filterMap fun e => match e.2 with
    | some w => if w.writers.contains (p, num) then some e.1 else none | none => none)

def wcFlushRange (s : State) (a n : Nat) : Acc × State :=
  wcFlush s ((Tbl.inRange s.tier.wc (tierUnit a).1 (a + n - (tierUnit a).1)).map (·.1))

/-- The range of the backing that holds the blocks of a range of a BACKED region (R389). -/
def backingRange (b : TierRegion) (lo n : Nat) : Nat × Nat :=
  let first := unitStored b (lo / 2048 * 2048)
  let last := unitStored b ((lo + n - 1) / 2048 * 2048)
  (first.1, last.1 + last.2 - first.1)

/-- The DIRTY units of a range of a BACKED region written back, and what they wrote in tier 2 before it ends (R375, R390). -/
def flushRange (s : State) (r : TierRegion) (a n : Nat) : Acc × State :=
  let us := (Tbl.inRange s.tier.frames (frameBase a) (a + n - frameBase a)).flatMap fun e =>
    (List.range 32).filterMap fun i =>
      let u := e.1 + 2048 * i
      if overlap u 2048 a n then some u else none
  match wcFlushRange s a n with
  | (.ok, s) =>
    match accAll us s fun s u => if unitState s u = .dirty then writeBackUnit s 3 r u else (.ok, s) with
    | (.ok, s) =>
      match backingOf s r with
      | some b => let x := backingRange b (a - r.base) n; wcFlushRange s x.1 x.2
      | none => (.ok, s)
    | x => x
  | x => x

/-- Accesses each made, whatever the others met: the first failure, or a wait where one must wait. -/
def accEach {α : Type} (l : List α) (s : State) (f : State → α → Acc × State) : Acc × State :=
  l.foldl (fun acc x =>
    match acc.1 with
    | .wait => acc
    | .ok => f acc.2 x
    | a => match f acc.2 x with
      | (.wait, s) => (.wait, s)
      | (_, s) => (a, s)) (.ok, s)

/-- A PART_TIERSTAT or tier status bit that changed makes a fault record (R420). -/
def tierNotice (old s : State) (p : Nat) : State :=
  let bits (x : State) := regRead x ⟨.partTierstat, 0, p⟩ % 4
  if bits old = bits s then s else faultReg s p ⟨.partTierstat, 0, p⟩

end Sys2Proof.Machine
end

