-- ==== Sys2Proof/Machine/Net.lean ====
section
/-! DEFINITION. Messages and their routes: the header and MCRC (R482, R483), routing by dimension with detours (R488 to
R492), refusals by NACK (R485, R486), and the flits and control records of a link (R470 to R473, R480). -/

namespace Sys2Proof.Machine
open Sys2Proof

/-! ### Flits -/

/-- CRC-32 (R471). -/
def crc32 (bs : Bytes) : Nat := crcFold 0xEDB88320 0xFFFFFFFF bs ^^^ 0xFFFFFFFF

def usable (k : Link) : Bool := k.st == .active || k.st == .degraded
def linkUsable (s : State) (l : Nat) : Bool := usable (linkAt s l)
/-- The links of a direction (R467). -/
def dirLinks (d : Nat) : List Nat := span (6 * d) 6
def linkDir (l : Nat) : Nat := l / 6
def linkAxis (l : Nat) : Nat := l / 12
def oppositeDir (d : Nat) : Nat := if d % 2 = 0 then d + 1 else d - 1
def dirUsable (s : State) (d : Nat) : Bool := (dirLinks d).any (linkUsable s)

/-- The flit buffers of a VC and class (R478). -/
def buffersOf (vc cls : Nat) : Nat :=
  match vc, cls with
  | 0, 2 => 8 | 0, _ => 12
  | 1, 2 => 64 | 1, _ => 192
  | 2, 2 => 64 | 2, _ => 112
  | _, 2 => 64 | _, _ => 96

/-- A flit of R470: CTL, SLOT, SEQ, ACK, LINKCTL, CRCNT, VALID, payload; then its CRC. -/
def flitBytes (ctl slot seq ack linkctl crcnt valid : Nat) (payload : Bytes) : Bytes :=
  let body := leBytes 1 ctl ++ leBytes 1 slot ++ leBytes 3 (seq % 4096 + ack % 4096 * 4096) ++ leBytes 1 linkctl
    ++ leBytes 1 crcnt ++ leBytes 1 valid ++ payload.take 244 ++ List.replicate (244 - payload.length) 0
  body ++ leBytes 4 (crc32 body)

/-- A flit's CRC holds (R471). -/
def flitGood (f : Bytes) : Bool := f.length == 256 && crc32 (f.take 252) == fieldAt f 252 4
def flitKind (f : Bytes) : Nat := bitsOf (fieldAt f 0 1) 2 2
def flitSeq (f : Bytes) : Nat := bitsOf (fieldAt f 2 3) 0 12
def flitAck (f : Bytes) : Nat := bitsOf (fieldAt f 2 3) 12 12
/-- A good CONTROL flit with the record of a type (R472). -/
def isCtl (f : Bytes) (ty : Nat) : Bool := flitGood f && flitKind f == 1 && fieldAt f 8 1 == ty
def ctlRecord (f : Bytes) : Bytes := (f.drop 8).take 244

/-- The credits that the next flit of a link returns: VC, class, count (R480). -/
def creditsDue (k : Link) : Nat × Nat × Nat :=
  match k.freed with
  | [] => (0, 0, 0)
  | (i, n) :: _ => (i / 3, i % 3, min 255 n)

/-- A flit sent on a link with its ACK, NAK and returned credits (R470, R474, R480). -/
def sendFlit (s : State) (l ctl slot seq valid : Nat) (nak : Bool) (payload : Bytes) : State :=
  let k := linkAt s l
  let (vc, cls, n) := creditsDue k
  let f := flitBytes ctl slot seq (k.expect + 4095) (b2n nak * 128 + vc * 32 + cls * 8) n valid payload
  let s := modLink s l fun k =>
    { k with freed := if n = 0 then k.freed else Tbl.upd 0 k.freed (3 * vc + cls) (· - n), unackedRx := 0 }
  emit s (.flit (Fin.ofNat 36 l) f)

/-- A CONTROL flit with a record (R472). -/
def sendCtl (s : State) (l : Nat) (record : Bytes) (nak : Bool := false) : State :=
  sendFlit s l 4 0 0 244 nak record

/-- A CONTROL flit of a type whose record the specification lays out no further: the other bytes are free (R472). -/
def sendPlainCtl (s : State) (l ty : Nat) (nak : Bool := false) : State :=
  let (k, s) := takeFree s
  sendCtl s l (BitVec.ofNat 8 ty :: freeBytes k 243) nak

/-! ### Messages -/

def msgChip (m : Bytes) : Nat := fieldAt m 0 2 % 32768
def msgByPhys (m : Bytes) : Bool := bitOf (fieldAt m 0 2) 15
def msgSrcChip (m : Bytes) : Nat := fieldAt m 2 2
def msgDst (m : Bytes) : Nat := fieldAt m 4 2 % 32768
def msgSrc (m : Bytes) : Nat := fieldAt m 6 2 % 32768
def msgClass (m : Bytes) : Nat := fieldAt m 8 1
def msgPart (m : Bytes) : Nat := bitsOf (fieldAt m 9 1) 0 4
def msgPrio (m : Bytes) : Nat := bitsOf (fieldAt m 9 1) 4 2
def msgEpoch (m : Bytes) : Nat := fieldAt m 10 2
def msgRoute (m : Bytes) : Nat := fieldAt m 12 1
def msgHops (m : Bytes) : Nat := fieldAt m 13 1
def msgFlow (m : Bytes) : Nat := fieldAt m 14 2
def msgLen (m : Bytes) : Nat := fieldAt m 16 4
def msgTag (m : Bytes) : Nat := fieldAt m 20 4
def msgAux (m : Bytes) : Nat := fieldAt m 24 4
def msgPayload (m : Bytes) : Bytes := m.drop 32

/-- MCRC: CRC-32C with ROUTE, HOPS and MCRC as zero (R482). -/
def mcrcOf (m : Bytes) : Nat := crc32c (m.take 12 ++ [0, 0] ++ (m.drop 14).take 14 ++ [0, 0, 0, 0] ++ m.drop 32)

/-- The virtual channel of a class (R483). -/
def classVc (c : Nat) : Option Nat :=
  match c with
  | 0x00 => some 0 | 0x01 => some 0 | 0x02 => some 0
  | 0x10 => some 1
  | 0x20 => some 2 | 0x21 => some 2 | 0x22 => some 2 | 0x23 => some 2 | 0x24 => some 2
  | 0x30 => some 3 | 0x31 => some 3
  | _ => none

/-- Axis order X, Y, Z in ROUTE (R482, R488). -/
def routeXyz : Nat := 0x90

/-- A message of this module. `byPhys` gives the coordinate with PHYS set; otherwise the logical chip `dst` is resolved
through the chip map (R495). -/
structure MsgOut where
  byPhys : Bool
  dst : Nat
  cls : Nat
  part : Nat := 0
  prio : Nat := 0
  epoch : Nat := 0
  flow : Nat := 0
  tag : Nat := 0
  aux : Nat := 0
  payload : Bytes := []
  deriving DecidableEq, Repr

def ownPhys (s : State) : Nat := s.fab.phys.toNat

/-- The bytes of a message (R482); none where the logical chip has no coordinate. -/
def buildMsg (s : State) (x : MsgOut) : Option Bytes :=
  let dp : Option Nat := if x.byPhys then some x.dst else (mapEntry s x.dst).map BitVec.toNat
  dp.map fun dp =>
    let h := leBytes 2 (if x.byPhys then 0x8000 else x.dst) ++ leBytes 2 ((ownChip s).getD 0xFFFF) ++ leBytes 2 dp
      ++ leBytes 2 (ownPhys s) ++ leBytes 1 x.cls ++ leBytes 1 (x.part % 16 + x.prio % 4 * 16) ++ leBytes 2 x.epoch
      ++ leBytes 1 routeXyz ++ leBytes 1 0 ++ leBytes 2 x.flow ++ leBytes 4 x.payload.length ++ leBytes 4 x.tag
      ++ leBytes 4 x.aux
    let m := h ++ leBytes 4 0 ++ x.payload
    h ++ leBytes 4 (mcrcOf m) ++ x.payload

/-! ### Routes -/

def axisOf (phys a : Nat) : Nat := phys / 32 ^ a % 32
def extOf (s : State) (a : Nat) : Nat := match a with | 0 => s.fab.ext.1 | 1 => s.fab.ext.2.1 | _ => s.fab.ext.2.2
/-- A coordinate with one axis replaced. -/
def withAxis (phys a v : Nat) : Nat := phys - axisOf phys a * 32 ^ a + v * 32 ^ a
/-- The position a number of steps along a direction (R467). -/
def stepDir (s : State) (phys d n : Nat) : Nat :=
  let a := d / 2
  let e := extOf s a
  withAxis phys a (if d % 2 = 0 then (axisOf phys a + n) % e else (axisOf phys a + e - n % e) % e)

/-- The axis order of ROUTE (R482). -/
def routeAxes (r : Nat) : List Nat := [bitsOf r 2 2, bitsOf r 4 2, bitsOf r 6 2]

/-- What routing decides: delivery, one hop (link, buffer class, the new ROUTE), or a refusal. -/
inductive Route where
  | deliver
  | hop (l cls route : Nat)
  | refuse (st : Status)
  deriving DecidableEq, Repr

/-- The direction on an axis (R488): none when the coordinate is reached. -/
def axisDir (s : State) (dst a : Nat) : Option Nat :=
  let e := extOf s a
  let own := axisOf (ownPhys s) a
  let d := (axisOf dst a + e - own % e) % e
  if d = 0 then none else if d ≤ e - d then some (2 * a) else some (2 * a + 1)

/-- A message of a flow (R484): its coordinates, class and FLOW. -/
def flowKey (m : Bytes) : Nat × Nat × Nat × Nat := (msgSrc m, msgDst m, msgClass m, msgFlow m)

/-- The link of a direction that a flow takes (R489). -/
def flowLink (s : State) (d : Nat) (m : Bytes) : Option Nat :=
  let h := (msgFlow m + msgSrc m + msgDst m) % 6
  ((List.range 6).map fun i => 6 * d + (h + i) % 6).find? (linkUsable s)

/-- A position that a neighbour link passes over (R492). -/
def inGap (s : State) (phys : Nat) : Bool :=
  (List.range 6).any fun d =>
    (dirLinks d).any (fun l => linkUsable s l && regBit s ⟨.lnkStat, l, 0⟩ 33)
      && decide (1 < extOf s (d / 2)) && decide (stepDir s (ownPhys s) d 1 = phys)

/-- The buffer class of the next hop (R479): `prev` is the axis and class of the hop before, as they continue. -/
def hopClass (prev : Option (Nat × Nat)) (axis detours : Nat) : Nat :=
  if detours ≠ 0 then 2
  else match prev with
    | some (a, c) => if a = axis then c else 0
    | none => 0

/-- The route of a message at this chip (R488 to R492). -/
def routeOf (s : State) (m : Bytes) (prev : Option (Nat × Nat)) : Route :=
  let dst := msgDst m
  let r := msgRoute m
  let det := r % 4
  if dst ≠ ownPhys s ∧ inGap s dst then .refuse stPeerLost
  else if 100 ≤ msgHops m then .refuse stLinkDown
  else
    match (routeAxes r).find? fun a => (axisDir s dst a).isSome with
    | none => .deliver
    | some a =>
      let d := (axisDir s dst a).getD 0
      match flowLink s d m with
      | some l => .hop l (hopClass prev a det) r
      | none =>
        let cand := ((List.range 3).filter fun b => b != a && decide (1 < extOf s b)).flatMap fun b => [2 * b, 2 * b + 1]
        match cand.find? (dirUsable s) with
        | none => .refuse stLinkDown
        | some e =>
          if 2 ≤ det then .refuse stLinkDown
          else
            let b := e / 2
            let other := 3 - a - b
            match flowLink s e m with
            | some l => .hop l 2 (det + 1 + a * 4 + other * 16 + b * 64)
            | none => .refuse stLinkDown

/-- The egress message of a message's bytes, in order of arrival (R481). -/
def outMsg (s : State) (cls route : Nat) (m : Bytes) : OutMsg :=
  { bytes := putAt m 12 (leBytes 1 route), vc := (classVc (msgClass m)).getD 0, cls, prio := msgPrio m, order := s.fab.msgOrder }

/-- A message put on the egress of a link. -/
def putEgress (s : State) (l : Nat) (o : OutMsg) : State := modLink s l fun k => { k with egress := k.egress ++ [o] }

/-- The order that the next message takes. -/
def nextOrder (s : State) : State := { s with fab := { s.fab with msgOrder := s.fab.msgOrder + 1 } }

/-- A message put on the egress of a link, in order of arrival (R481). -/
def enqueue (s : State) (l cls route : Nat) (m : Bytes) : State := nextOrder (putEgress s l (outMsg s cls route m))

def deliverMsg (s : State) (m : Bytes) : State := { s with fab := { s.fab with inbox := s.fab.inbox ++ [m] } }

/-- The NACK of a refused message (R486). -/
def nackOf (s : State) (m : Bytes) (st : Status) : Option Bytes :=
  buildMsg s { byPhys := true, dst := msgSrc m, cls := 1, part := msgPart m, prio := 0, epoch := msgEpoch m,
               tag := msgTag m, aux := st.toNat }

/-- A message goes its way from this chip, and whether it was refused. -/
def dispatch (s : State) (m : Bytes) (prev : Option (Nat × Nat)) : Option Status × State :=
  match routeOf s m prev with
  | .deliver => (none, deliverMsg s m)
  | .hop l cls route => (none, enqueue s l cls route m)
  | .refuse st => (some st, s)

/-- A message refused: answered by a NACK; a NACK is never answered, and one that cannot go is counted (R486). -/
def refuse (s : State) (m : Bytes) (st : Status) (l : Nat := 0) : State :=
  let dropped (s : State) : State := regAddSat s ⟨.lnkErrcnt, l, 0⟩ 16 8 1
  if msgClass m = 1 then dropped s
  else match nackOf s m st with
    | none => dropped s
    | some n => match dispatch s n none with
      | (none, s) => s
      | (some _, s) => dropped s

/-- A message of this chip, or one that it relays, sent on. -/
def sendBytes (s : State) (m : Bytes) (prev : Option (Nat × Nat) := none) (l : Nat := 0) : State :=
  match dispatch s m prev with
  | (none, s) => s
  | (some st, s) => refuse s m st l

/-- A message of this module sent; PEER_LOST at once where its chip has no coordinate. -/
def sendMsg (s : State) (x : MsgOut) : Option Status × State :=
  match buildMsg s x with
  | none => (some stPeerLost, s)
  | some m => (none, sendBytes s m)

/-- A tag that no message of this module has borne. -/
def newTag (s : State) : Nat × State := (s.fab.tagNext % 2 ^ 32, { s with fab := { s.fab with tagNext := s.fab.tagNext + 1 } })

/-! ### What a destination checks -/

/-- The header is well formed and the MCRC holds (R482, R485). -/
def msgSound (m : Bytes) : Bool :=
  decide (32 ≤ m.length) && m.length == 32 + msgLen m && decide (msgLen m ≤ 65536)
    && fieldAt m 9 1 / 64 == 0 && (classVc (msgClass m)).isSome
    && !bitOf (fieldAt m 4 2) 15 && !bitOf (fieldAt m 6 2) 15
    && sortBy (fun a b => decide (a < b)) (routeAxes (msgRoute m)) == [0, 1, 2]
    && mcrcOf m == fieldAt m 28 4

/-- Delivered to this chip under its logical identifier, or by PHYS (R496). -/
def msgMine (s : State) (m : Bytes) : Bool := msgByPhys m || decide (ownChip s = some (msgChip m))

/-- The status that refuses a message of a class on arrival (R485, R486, R496): `epoch` when the unit belongs to a
partition. -/
def msgRefused (s : State) (m : Bytes) (cls : Nat) (epoch : Bool) : Option Status :=
  if !msgSound m || msgClass m != cls then some stCheckFail
  else if !msgMine s m then some stRoleChanged
  else if epoch && ((partAt s (msgPart m)).st == .none || (partAt s (msgPart m)).epoch.toNat != msgEpoch m) then
    some stRoleChanged
  else none

/-- The message is taken from those delivered to this module, if it is among them. -/
def takeMsg (s : State) (m : Bytes) : State :=
  { s with fab := { s.fab with inbox := removeFirst (fun x => x == m) s.fab.inbox } }

end Sys2Proof.Machine
end

