-- ==== Sys2Proof/Machine/CollGeo.lean ====
section
/-! DEFINITION. The shape of a collective: its descriptor's fields (R542, R543), the group and its rings (R535 to R540), the
pieces of its data, and the collective header (R553). -/

namespace Sys2Proof.Machine
open Sys2Proof

/-! ### The descriptor (R542) -/

def cBarrier (d : Bytes) : Bool := fieldAt d 0 1 == 6
/-- OP; a BARRIER runs as an AR of one I32 element (log entry 50). -/
def cOp (d : Bytes) : Nat := if cBarrier d then 3 else fieldAt d 0 1
def cElem (d : Bytes) : Nat := if cBarrier d then 8 else fieldAt d 1 1
def cRed (d : Bytes) : Nat := fieldAt d 2 1
def cAcc (d : Bytes) : Nat := bitsOf (fieldAt d 3 1) 0 2
def cStats (d : Bytes) : Bool := bitOf (fieldAt d 3 1) 2
def cStream (d : Bytes) : Nat := fieldAt d 4 1
def cChunk (d : Bytes) : Nat := 2 ^ fieldAt d 5 1
def cSeq (d : Bytes) : W32 := BitVec.ofNat 32 (fieldAt d 8 4)
def cCount (d : Bytes) : Nat := if cBarrier d then 1 else fieldAt d 0x0C 4
def cSrc (d : Bytes) : Nat := fieldAt d 0x10 8
def cDst (d : Bytes) : Nat := fieldAt d 0x18 8
def cOrg (d : Bytes) (a : Nat) : Nat := fieldAt d (0x20 + a) 1
def cLen (d : Bytes) (a : Nat) : Nat := fieldAt d (0x23 + a) 1
def cRoot (d : Bytes) (a : Nat) : Nat := fieldAt d (0x26 + a) 1
def cStatsAddr (d : Bytes) : Nat := fieldAt d 0x30 8
def cSize (d : Bytes) : Nat := cLen d 0 * cLen d 1 * cLen d 2

/-- Bytes of an element (R542, R543). -/
def cElemSize (e : Nat) : Nat :=
  match e with
  | 0 => 4 | 1 => 2 | 2 => 2 | 3 => 1 | 4 => 1 | 8 => 4 | 9 => 20 | 0x0F => 1 | _ => 0

def cBytes (d : Bytes) : Nat := cElemSize (cElem d)

/-- The axes that run a pass (R538). -/
def liveAxes (d : Bytes) : List Nat := (List.range 3).filter fun a => decide (1 < cLen d a)

/-- The digest of R545. -/
def cDigest (d : Bytes) : W32 :=
  let z := List.replicate 8 (0 : Byte)
  BitVec.ofNat 32 (crc32c (putAt (putAt (putAt d 0x10 z) 0x18 z) 0x30 z))

/-! ### Groups and rings -/

/-- A chip's member index along an axis (R535). -/
def memberIdx (s : State) (d : Bytes) (chip a : Nat) : Nat :=
  let e := extOf s a
  (axisOf chip a + e - cOrg d a % e) % e

def isMember (s : State) (d : Bytes) (chip : Nat) : Bool := (List.range 3).all fun a => decide (memberIdx s d chip a < cLen d a)

/-- The logical chip with the given member indices (R535). -/
def memberChip (s : State) (d : Bytes) (i : Nat → Nat) : Nat :=
  sumN ((List.range 3).map fun a => (cOrg d a + i a) % extOf s a * 32 ^ a)

/-- A member's ordinal (R536). -/
def ordinal (s : State) (d : Bytes) (chip : Nat) : Nat :=
  (memberIdx s d chip 2 * cLen d 1 + memberIdx s d chip 1) * cLen d 0 + memberIdx s d chip 0

/-- The logical chip of an ordinal (R536). -/
def ordinalChip (s : State) (d : Bytes) (m : Nat) : Nat :=
  memberChip s d fun a => match a with
    | 0 => m % cLen d 0
    | 1 => m / cLen d 0 % cLen d 1
    | _ => m / (cLen d 0 * cLen d 1)

/-- The members of a group as logical chips. -/
def groupChips (s : State) (d : Bytes) : List Nat := (List.range (cSize d)).map (ordinalChip s d)

/-- The ring sequence σ of an axis (R537). -/
def ringSeq (s : State) (d : Bytes) (a : Nat) : List Nat :=
  let l := cLen d a
  if l = extOf s a then List.range l
  else (List.range l).filter (fun i => i % 2 == 0) ++ ((List.range l).filter (fun i => i % 2 == 1)).reverse

/-- The ring position ρ of a member index (R537). -/
def ringPos (s : State) (d : Bytes) (a i : Nat) : Nat := (ringSeq s d a).findIdx (· == i)

/-- The chip on the same bangle as `chip` at a ring position of an axis. -/
def ringChip (s : State) (d : Bytes) (chip a j : Nat) : Nat :=
  memberChip s d fun b => if b = a then nth 0 (ringSeq s d a) (j % cLen d a) else memberIdx s d chip b

/-- Chips that two groups share, as the product over the axes (R563). -/
def sharedChips (s : State) (d e : Bytes) : Nat :=
  (List.range 3).foldl (fun n a =>
    let inBox (d : Bytes) (c : Nat) : Bool := decide ((c + extOf s a - cOrg d a % extOf s a) % extOf s a < cLen d a)
    n * ((List.range (extOf s a)).filter fun c => inBox d c && inBox e c).length) 1

/-! ### Pieces (R539) -/

/-- Segment `r` of a range of blocks cut in `l`. -/
def cutSeg (x : Nat × Nat) (l r : Nat) : Nat × Nat :=
  (x.1 + r * (x.2 - x.1) / l, x.1 + (r + 1) * (x.2 - x.1) / l)

/-- The block range that a member holds before the pass of an axis, of `nb` blocks. -/
def rangeBefore (s : State) (d : Bytes) (chip nb a : Nat) : Nat × Nat :=
  ((liveAxes d).filter (· < a)).foldl (fun x b => cutSeg x (cLen d b) (ringPos s d b (memberIdx s d chip b))) (0, nb)

def cBlocks (d : Bytes) : Nat := ceilDiv (cCount d) 64

/-- The elements of a member's piece: the first, and how many (R539). -/
def pieceElems (s : State) (d : Bytes) (chip : Nat) : Nat × Nat :=
  let x := rangeBefore s d chip (cBlocks d) 3
  let lo := min (64 * x.1) (cCount d)
  (lo, min (64 * x.2) (cCount d) - lo)

/-- Bytes read from SRC and written to DST by this member (R543). -/
def srcLen (s : State) (d : Bytes) (chip : Nat) : Nat :=
  if cBarrier d then 0
  else match cOp d with
    | 2 => (pieceElems s d chip).2 * cBytes d
    | 4 => if (List.range 3).all fun a => memberIdx s d chip a == cRoot d a then cCount d * cBytes d else 0
    | 5 => cSize d * cCount d * cBytes d
    | _ => cCount d * cBytes d

def dstLen (s : State) (d : Bytes) (chip : Nat) : Nat :=
  if cBarrier d then 0
  else match cOp d with
    | 1 => (pieceElems s d chip).2 * cBytes d
    | 5 => cSize d * cCount d * cBytes d
    | _ => cCount d * cBytes d

/-! ### The collective header (R553) -/

def collHeader (seq : W32) (stream type pass frag : Nat) (chunk digest : W32) (crc bytes : Nat) : Bytes :=
  leBytes 4 seq.toNat ++ leBytes 1 stream ++ leBytes 1 type ++ leBytes 1 pass ++ leBytes 1 frag ++ leBytes 4 chunk.toNat
    ++ leBytes 4 digest.toNat ++ leBytes 4 crc ++ leBytes 4 bytes ++ leBytes 8 0

def hSeq (m : Bytes) : W32 := BitVec.ofNat 32 (fieldAt m 32 4)
def hStream (m : Bytes) : Nat := fieldAt m 36 1 % 64
def hType (m : Bytes) : Nat := fieldAt m 37 1
def hPass (m : Bytes) : Byte := BitVec.ofNat 8 (fieldAt m 38 1)
def hFrag (m : Bytes) : Nat := fieldAt m 39 1
def hChunk (m : Bytes) : W32 := BitVec.ofNat 32 (fieldAt m 40 4)
def hDigest (m : Bytes) : W32 := BitVec.ofNat 32 (fieldAt m 44 4)
def hCrc (m : Bytes) : Nat := fieldAt m 48 4
def hBytes (m : Bytes) : Nat := fieldAt m 52 4

/-- SEQ is ahead of NEXT_SEQ (R534). -/
def seqAhead (seq next : W32) : Bool := seq != next && decide ((seq - next).toNat < 2 ^ 31)

end Sys2Proof.Machine
end

