-- ==== Sys2Proof/Machine/Complete.lean ====
section
/-! DEFINITION. Admitted commands and their completion: payloads (R695), admission points (R722, R744), completion records
(R713), lateness (R725, R726), answers to remote commands (R700), and queues that drain (R702). -/

namespace Sys2Proof.Machine
open Sys2Proof

/-! ### Commands -/

def cmdAt (s : State) (cid : Nat) : Option Cmd := s.host.cmds.find? fun c => c.id == cid

def modCmd (s : State) (cid : Nat) (f : Cmd → Cmd) : State :=
  { s with host := { s.host with cmds := s.host.cmds.map fun c => if c.id = cid then f c else c } }

def dropCmd (s : State) (cid : Nat) : State :=
  { s with host := { s.host with cmds := s.host.cmds.filter fun c => c.id != cid } }

/-- The admitted command of an identifier, when it has the opcode and has not been taken up. -/
def cmdFor (s : State) (cid opcode : Nat) : Option Cmd :=
  match cmdAt s cid with
  | some c => if c.opcode = opcode ∧ c.started = false then some c else none
  | none => none

/-- Byte `i` of a command's INLINE field. -/
def Cmd.byte (c : Cmd) (i : Nat) : Nat := fieldAt c.inl i 1

/-- Whose memory a command reaches: the PF any, a VF its bound partition's (R692, R698). -/
def Cmd.who (c : Cmd) : Who := .host (if c.fn = 0 then none else some c.part)

/-- A command of a VF lies within its bound partition (R698). -/
def Cmd.may (c : Cmd) (p : Nat) : Bool := c.fn == 0 || c.part == p

/-- Execution of a command begins (R725). -/
def beginCmd (s : State) (cid : Nat) : State :=
  modCmd s cid fun c => { c with started := true, begun := if c.begun.isSome then c.begun else some s.now }

/-! ### Completion records -/

def queueFree : Queue := {}

/-- A record written to a completion ring, with its interrupt (R713, R715); withheld while the function is in D3hot
(R731). A queue that a reset has made FREE gets none (R704). -/
def writeRecord (s : State) (q : Nat) (tag : Nat) (st : Status) (info : Nat) : State :=
  let d := queueAt s q
  let body (phase : Nat) : Bytes := leBytes 4 tag ++ leBytes 2 st.toNat ++ leBytes 1 phase ++ leBytes 1 0 ++ leBytes 8 info
  if d.st = .free then s
  else if Tbl.get false s.host.d3hot d.fn then modQueue s q fun d => { d with withheld := d.withheld ++ [body 0] }
  else
    let n := 2 ^ d.cplLog
    let phase := 1 - d.cplTail / n % 2
    let s := { s with hostMem := putBytes 0 s.hostMem (d.cpl + 16 * (d.cplTail % n)) (body phase) }
    let s := modQueue s q fun d => { d with cplTail := d.cplTail + 1 }
    if bitOf d.flags 2 then signalVec s d.fn d.vector else s

/-- The records withheld in D3hot, written on the return to D0 (R731). -/
def flushWithheld (s : State) (q : Nat) : State :=
  let rs := (queueAt s q).withheld
  forEach rs (modQueue s q fun d => { d with withheld := [] }) fun s b =>
    writeRecord s q (fieldAt b 0 4) (BitVec.ofNat 16 (fieldAt b 4 2)) (fieldAt b 8 8)

/-- Commands of a queue that are admitted and not ended. -/
def queueCmds (s : State) (q : Nat) : List Cmd := s.host.cmds.filter fun c => c.queue == some q

/-- The status and INFO of a completion: an OK whose execution began late is OK_LATE (R725, R726). -/
def lateness (s : State) (c : Cmd) (st : Status) (info : Nat) : Status × Nat :=
  match c.at_ with
  | some a =>
    let b := c.begun.getD s.now
    if st = stOk ∧ (c.late ∨ a + 2000 < b) then (stOkLate, b - a) else (st, info)
  | none => (st, info)

/-- The answer to a command that came from another chip (R700). -/
def sendRemoteCpl (s : State) (o : Origin) (c : Cmd) (st : Status) (info : Nat) : State :=
  let inl := leBytes 4 c.tag.toNat ++ leBytes 2 st.toNat ++ leBytes 2 0 ++ leBytes 8 info ++ leBytes 8 0
  let entry := leBytes 2 0x0006 ++ List.replicate 38 0 ++ inl
  (sendMsg s { byPhys := true, dst := o.phys.toNat, cls := 0, tag := o.msgTag.toNat, payload := entry }).2

/-- Fault records of a queue (R721, R729, R731). -/
def queueFault (s : State) (q : Nat) (st : Status) : State :=
  let d := queueAt s q
  faultRec s st d.part ⟨.queView, d.fn, 0⟩ q

/-- What a completion does but for the queues that then drain. -/
def completeOne (s : State) (cid : Nat) (st : Status) (info : Nat) : Option Nat × State :=
  match cmdAt s cid with
  | none => (none, s)
  | some c =>
    let (st, info) := lateness s c st info
    let s := dropCmd s cid
    match c.origin, c.queue with
    | some o, _ => (none, if c.opcode = 0x0032 then s else sendRemoteCpl s o c st info)
    | none, some q => (some q, writeRecord s q c.tag.toNat st info)
    | none, none => (none, s)

/-- A queue in DRAINING whose commands have all ended, but for its own deletion, becomes FREE (R702): the deletion that
then completes, if it was not its own. -/
def drainStep (s : State) (q : Nat) : Option Nat × State :=
  let d := queueAt s q
  if d.st = .draining ∧ (queueCmds s q).all (fun c => d.deleteCid == some c.id) then
    let own := (queueCmds s q).any fun c => d.deleteCid == some c.id
    if own then (none, modQueue (completeOne s (d.deleteCid.getD 0) stOk 0).2 q fun _ => {})
    else (d.deleteCid, modQueue s q fun _ => {})
  else (none, s)

/-- A command completes (R713, R725). A queue that this lets drain becomes FREE, which completes its deletion. -/
def complete (s : State) (cid : Nat) (st : Status) (info : Nat := 0) : State :=
  match completeOne s cid st info with
  | (none, s) => s
  | (some q, s) =>
    match drainStep s q with
    | (none, s) => s
    | (some d, s) =>
      match completeOne s d stOk 0 with
      | (none, s) => s
      | (some q2, s) =>
        match drainStep s q2 with
        | (none, s) => s
        | (some d2, s) => (completeOne s d2 stOk 0).2

/-- A queue looked at for the end of its draining. -/
def drainQueue (s : State) (q : Nat) : State :=
  match drainStep s q with
  | (some d, s) => complete s d stOk 0
  | (none, s) => s

/-- The queue moves to ERROR: one record with TAG 0xFFFF_FFFF and the cause; entries not yet admitted are dropped (R703). -/
def queueError (s : State) (q : Nat) (st : Status) : State :=
  if (queueAt s q).st ≠ .active then s
  else
    let s := writeRecord s q 0xFFFFFFFF st 0
    let s := modQueue s q fun d => { d with st := .error, lastErr := st, entries := [], fetching := none }
    let s := { s with host := { s.host with coalescer := s.host.coalescer.filter (fun e => e.1 != q)
                                            bitmap := Tbl.drop s.host.bitmap q } }
    queueFault s q st

/-! ### Payloads -/

/-- A command's descriptor, read where its entry says (R695): at once for a remote command, else from host memory or, with
PAY_DEV, from device memory. -/
def payloadOf (s : State) (c : Cmd) : Acc × Bytes × State :=
  match c.payBytes with
  | some b => (.ok, b, s)
  | none =>
    if c.payLen = 0 then (.ok, [], s)
    else if bitOf c.flags 3 then readMem s c.who c.payload c.payLen
    else (.ok, bytesAt 0 s.hostMem c.payload c.payLen, s)

/-- The status of an access that ended other than well. -/
def accStatus : Acc → Status
  | .ok => stOk
  | .fail st => st
  | _ => stBadDescriptor

/-- A command with a descriptor of at least `n` bytes: a shorter one, or one that cannot be read, completes it. -/
def withPayload (s : State) (c : Cmd) (n : Nat) (k : State → Bytes → State) : State :=
  match payloadOf s c with
  | (.ok, b, s) => if b.length < n then complete s c.id stBadDescriptor else k s b
  | (.wait, _, _) => modCmd s c.id fun c => { c with started := false }
  | (a, _, s) => complete s c.id (accStatus a)

/-- A command's end by an access: while the access must wait the command is as it was before, `s0`, and what it waits for goes first. -/
def endBy (s0 s : State) (cid : Nat) (a : Acc) (info : Nat := 0) : State :=
  match a with
  | .wait => stillWaits s0 s
  | .ok => complete s cid stOk info
  | a => complete s cid (accStatus a)

/-- The 128-byte tile bitmap at a device address (R745): the tiles, or how its read ends; a bitmap that names no tile is refused as
one outside memory is. -/
def readBitmap (s : State) (w : Who) (a : Nat) : Except Acc (List Nat) × State :=
  match readMem s w a 128 with
  | (.ok, b, s) => (match bitmapTiles b with | some l => .ok l | none => .error .bounds, s)
  | (x, _, s) => (.error x, s)

/-! ### Admission points of a partition (R722) -/

/-- The commands that take effect at a partition's next admission point at which no step of it runs. -/
def restOpcodes : List Nat :=
  [0x10, 0x11, 0x20, 0x21, 0x22, 0x24, 0x30, 0x31, 0x40, 0x41, 0x43, 0x50, 0x52, 0x53, 0x101, 0x102, 0x110, 0x130]

/-- The partition that a command's entry or descriptor names, for the order of its admission. -/
def cmdPart (s : State) (c : Cmd) : Nat :=
  let b := match payloadOf s c with | (.ok, b, _) => b | _ => []
  let tierPart (a : Nat) : Nat := match tierRegionAt s a with | some r => r.part.val | none => 0xFF
  match c.opcode with
  | 0x10 => fieldAt b 0x0C 1
  | 0x11 => match regionOf s (liveTile s (fieldAt b 0x0A 2)) (fieldAt b 0 4) with | some r => r.part | none => 0xFF
  | 0x20 => fieldAt b 1 1
  | 0x21 => tierPart (fieldAt c.inl 0 8)
  | 0x22 => tierPart (fieldAt c.inl 0 8)
  | 0x24 => fieldAt b 1 1
  | 0x30 => fieldAt b 1 1
  | 0x31 => c.byte 1
  | 0x50 => fieldAt b 1 1
  | 0x52 => (pipeAt s (c.byte 0)).part.val
  | 0x102 => c.byte 0
  | _ => fieldAt b 0 1

/-- The partitions that a command names: STRATA_DECLARE and STRATA_RELEASE may name several (R326, R329). -/
def cmdParts (s : State) (c : Cmd) : List Nat :=
  let ds (b : Bytes) : List Bytes := (List.range (b.length / 32)).map fun i => (b.drop (32 * i)).take 32
  match c.opcode, payloadOf s c with
  | 0x10, (.ok, b, _) => cmdPart s c :: (ds b).map fun d => fieldAt d 0x0C 1
  | 0x11, (.ok, b, _) => cmdPart s c :: (ds b).filterMap fun d =>
      (regionOf s (liveTile s (fieldAt d 0x0A 2)) (fieldAt d 0 4)).map (·.part)
  | _, _ => [cmdPart s c]

/-- No step of the partition runs, and no command of it admitted before still waits for that (R744, R784). -/
def atRest (s : State) (c : Cmd) (p : Nat) : Bool :=
  (partAt s p).run.isNone
    && !(s.host.cmds.any fun e => decide (e.id < c.id) && !e.started
          && ((e.opcode == 0x120 && (partAt s p).waiting.contains e.id) || restOpcodes.contains e.opcode) && (cmdParts s e).contains p)

/-- Every partition that a command names is at rest: it is applied to all of them together (R329; log entry 117). -/
def allAtRest (s : State) (c : Cmd) : Bool := (cmdParts s c).all (atRest s c)

end Sys2Proof.Machine
end

