-- ==== Sys2Proof/Machine/StepOps.lean ====
section
/-! DEFINITION. The life of a step's programs: loading (R161, R162), starting (R163, R759), ending (R155), stopping (R167,
R168), faults (R170 to R172), waits (R146, R152, R156); and how a collective that fails ends on every member (R565, R567). -/

namespace Sys2Proof.Machine
open Sys2Proof

/-! ### Program images (R160) -/

def imgWords (b : Bytes) : Nat := fieldAt b 8 4
def imgEntry (b : Bytes) : Nat := fieldAt b 12 4
def imgScratch (b : Bytes) : Nat := fieldAt b 16 4
def imgMarkers (b : Bytes) : Nat := fieldAt b 20 4
def imgCrc (b : Bytes) : Nat := fieldAt b 24 4
def imgSize (b : Bytes) : Nat := 32 + 4 * imgWords b + imgScratch b

/-- The checks of R161 on an image against the library version of the active slot. -/
def imgOk (libVersion : Nat) (b : Bytes) : Bool :=
  fieldAt b 0 4 == 0x5457454E && fieldAt b 4 2 == 1 && decide (fieldAt b 6 2 ≤ libVersion)
    && decide (1 ≤ imgWords b) && decide (imgWords b ≤ 14336) && decide (imgEntry b < imgWords b)
    && decide (imgScratch b ≤ 32768) && zeroAt b 0x1C 4 && b.length == imgSize b && crc32c (b.drop 32) == imgCrc b

/-- Words of a byte string as a table from a word address on. -/
def wordTbl (base : Nat) (b : Bytes) : Tbl W32 :=
  ((List.range (b.length / 4)).map fun i => (base + i, BitVec.ofNat 32 (fieldAt b (4 * i) 4))).filter fun e => e.2 != 0

/-- Bytes as a table from address 0 on. -/
def byteTbl (b : Bytes) : Tbl Byte := (b.mapIdx fun i x => (i, x)).filter fun e => e.2 != 0

def initScratch (img : Bytes) : Tbl Byte := byteTbl ((img.drop (32 + 4 * imgWords img)).take (imgScratch img))

/-- A tile loaded with an image: its program region, scratch memory and registers of R162, R175 to R177 and R201; READY. What
an earlier run of it left is gone with that run (R155, R172). -/
def loadTile (s : State) (t p : Nat) (img : Bytes) : State :=
  let s := modTile s t fun x =>
    { x with st := .ready, image := some ⟨img⟩, imem := wordTbl 2048 ((img.drop 32).take (4 * imgWords img))
             smem := initScratch img, part := some (Fin.ofNat 16 p), epoch := (partAt s p).epoch, queue := [], halting := false,
             wait := .nothing, binding := none, events := [] }
  let s := regSet s ⟨.newtFault, t, 0⟩ 0
  let s := regSet s ⟨.tileOvfrec, t, 0⟩ 0
  let s := regSet s ⟨.newtNak, t, 0⟩ 0
  regPut s ⟨.newtStat, t, 0⟩ 16 16 0

/-! ### Starting -/

/-- An event counter plus one, saturating (R155). -/
def bumpEvent (x : Tile) (c : Nat) : Tile := { x with events := Tbl.upd 0 x.events c (satAdd (2 ^ 32 - 1) 1) }

/-- Events held for a step are added when it starts; older ones are dropped and counted (R154). -/
def applyHeld (s : State) (t : Nat) (num : W64) : State :=
  let hs := (tileAt s t).heldEvents
  let old := (hs.filter fun e => e.step.toNat < num.toNat).length
  let s := modTile s t fun x =>
    (hs.filter fun e => e.step == num).foldl (fun x e => bumpEvent x e.ctr.val)
      { x with heldEvents := hs.filter fun e => num.toNat < e.step.toNat }
  regAddSat s ⟨.newtStat, t, 0⟩ 16 16 old

/-- One member's newt started for a step (R163, R759): RUNNING, or HELD where dispatch is held (R166, R798, R799). The SEVs of an
earlier run that are not acknowledged yet, and the negative acknowledgements since the newt's last FENCE, are no part of what a
start clears (R140, R153, R163; log entry 99). -/
def startTile (s : State) (p : Nat) (num : W64) (args : Bytes) (size idx t : Nat) : State :=
  let img := match (tileAt s t).image with | some i => i.bytes | none => []
  let st : NewtState := if dispatchHeld s || !startable s t then .held else .running
  let s := modTile s t fun x =>
    { x with
      st := st
      g := [(1, BitVec.ofNat 64 idx), (2, BitVec.ofNat 64 size), (3, 0x7000#64)].filter fun e => e.2 != 0
      p := []
      pc := 2048 + imgEntry img
      loops := []
      smem := putBytes 0 (initScratch img) 0x7000 args
      queue := []
      issued := 0
      half := 0
      wait := .nothing
      halting := false
      bars := 0
      step := num
      part := some (Fin.ofNat 16 p)
      epoch := (partAt s p).epoch
      index := idx
      groupSize := size
      lastMark := none
      unsentMark := none
      acc := []
      masks := []
      binding := none }
  let s := if st = .held then s else noteStart s t
  applyHeld (regSet (regSet s ⟨.newtFault, t, 0⟩ 0) ⟨.tileOvfrec, t, 0⟩ 0) t num

/-- Every member of a start group started, with indices in increasing identifier (R759). -/
def launch (s : State) (p : Nat) (num : W64) (args : Bytes) (members : List TileId) : State :=
  forEach (members.mapIdx fun i t => (i, t)) s fun s e => startTile s p num args members.length e.1 (liveTile s e.2.toNat)

/-! ### Ending -/

/-- What a tile's program held of the die's multicast is given up when it ends (R216). -/
def releaseHolds (s : State) (t : Nat) : State :=
  let d := tileDie t
  { s with holds := Tbl.upd [] s.holds d fun hs =>
      (hs.map fun h => { h with left := h.left.filter fun x => x.toNat != t }).filter fun h => !h.left.isEmpty }

/-- A program ends: its newt is READY and its event counters are cleared (R155). -/
def endProgram (s : State) (t : Nat) : State :=
  releaseHolds (modTile s t fun x =>
    { x with st := .ready, events := [], halting := false, wait := .nothing, loops := [], queue := [], binding := none }) t

/-- An accumulator set without a defined value (R167). -/
def freeSet (k : Nat) (a : AccSet) : AccSet :=
  { a with elems := (List.range 4096).map fun i =>
      (i, { value := (freeAt k i : Nat), running := some (BitVec.ofNat 32 (freeAt k i)) }) }

/-- A started command cut short leaves what it writes without a defined value (R167). -/
def cutCommand (s : State) (t : Nat) (c : TileCmd) : State :=
  if c.started = false then s
  else
    let s := forEach c.wrote s fun s r =>
      let (k, s) := takeFree s
      (writeMem s .device r.1 (freeBytes k r.2)).2
    let s := forEach c.wroteOb s fun s r =>
      let (k, s) := takeFree s
      modTile s t fun x => { x with ob := putBytes 0 x.ob r.1 (freeBytes k r.2) }
    let s := match c.wroteAcc with
      | none => s
      | some n =>
        let (k, s) := takeFree s
        modTile s t fun x => { x with acc := Tbl.upd {} x.acc n (freeSet k) }
    if c.wroteFactor = false then s
    else
      let (k, s) := takeFree s
      modTile s t fun x => { x with factor := { x.factor with elems := (List.range 4096).map fun i => freeAt k i } }

/-- A tile's commands end: those not started are discarded, those started are cut (R167, R170). -/
def cutQueue (s : State) (t : Nat) : State :=
  modTile (forEach (tileAt s t).queue s fun s c => cutCommand s t c) t fun x => { x with queue := [] }

/-- A cause recorded as the first since the load or start (R176). -/
def noteFault (s : State) (t cause info : Nat) (imprecise : Bool) : State :=
  let r : Reg := ⟨.newtFault, t, 0⟩
  if regFld s r 0 8 ≠ 0 then s
  else regSet s r (info % 2 ^ 32 * 2 ^ 32 + b2n imprecise * 2 ^ 29 + (tileAt s t).pc % 2 ^ 14 * 2 ^ 8 + cause)

def inStep (st : NewtState) : Bool := st == .running || st == .waiting || st == .held || st == .faulted

/-- A stop reaches a newt (R167, R168). -/
def stopTile (s : State) (t : Nat) : State :=
  if inStep (tileAt s t).st then endProgram (cutQueue (noteFault s t 0x10 0 false) t) t else s

def runMembers (s : State) (p : Nat) : List Nat :=
  match (partAt s p).run with
  | some r => liveMembers s r.members
  | none => []

def modRun (s : State) (p : Nat) (f : Step → Step) : State := modPart s p fun q => { q with run := q.run.map f }

/-! ### Collectives that fail -/

/-- COLL_ABORT to every other member by PHYS (R565, R705), counted (R577; log entry 51). -/
def sendAborts (s : State) (p n : Nat) (op : CollOp) (st : Status) : State :=
  let inl := leBytes 1 n ++ leBytes 1 p ++ leBytes 2 st.toNat ++ leBytes 4 op.seq.toNat ++ List.replicate 16 0
  let entry := leBytes 2 0x0032 ++ List.replicate 38 0 ++ inl
  forEach ((groupChips s op.desc).filter fun c => some c != ownChip s) s fun s c =>
    match mapEntry s c with
    | none => s
    | some ph =>
      regAddSat (sendMsg s { byPhys := true, dst := ph.toNat, cls := 0, part := p, epoch := (partAt s p).epoch.toNat,
                             payload := entry }).2 ⟨.collCnt, 0, 0⟩ 0 16 1

/-- Requests of a stream's collectives waiting for a grant at this module leave (R567). -/
def dropRequests (s : State) (p n : Nat) : State :=
  { s with coll := { s.coll with requests := s.coll.requests.filter fun r =>
      !(msgPart r.msg == p && hStream r.msg == n) } }

/-- DST of a collective that failed holds no defined value (R568). -/
def freeDst (s : State) (p : Nat) (op : CollOp) : State :=
  match ownChip s with
  | none => s
  | some chip =>
    let (k, s) := takeFree s
    (writeMem s (.step p) (cDst op.desc) (freeBytes k (dstLen s op.desc chip)) (partPrio s p)).2

/-- A collective of a stream ends with a status other than OK: the stream is FAILED, every pending collective ends with the
same status, held data is discarded, and every member is told (R565, R567). `other` is the other SEQ of an ORDER_STALL. -/
def collFail (s : State) (p n : Nat) (op : CollOp) (st : Status) (other : W32) (tell : Bool) : State :=
  let c := collAt s p n
  let gone := ((match c.run with | some r => [r.op] | none => []) ++ c.pending).filter fun o => o.seq != op.seq
  let ends := (op.seq, st, other) :: gone.map fun o => (o.seq, st, (0 : W32))
  let was := c.st
  let s := modColl s p n fun c =>
    { c with st := .failed, failStatus := st, run := none, pending := [], held := [], tags := [], aborts := []
             ended := c.ended ++ ends }
  let s := forEach (op :: gone) (dropRequests s p n) fun s o => freeDst s p o
  let s := if tell then sendAborts s p n op st else s
  if was = .failed then s else faultRec s st p ⟨.collStream, 0, 64 * p + n⟩

/-- The collectives that a stopped step had issued end with ABORTED_BY_COMMAND (R570). -/
def collStop (s : State) (p : Nat) : State :=
  forEach (List.range 64) s fun s n =>
    let c := collAt s p n
    match c.run, c.pending with
    | some r, _ => collFail s p n r.op stAborted 0 true
    | none, o :: _ => collFail s p n o stAborted 0 true
    | none, [] => s

/-! ### Stopping a step and faults -/

/-- A partition's level tiles and held chain sums leave with its step. -/
def dropStaged (s : State) (p : Nat) : State :=
  { s with staged := s.staged.filter fun x => (tileAt s x.tile.toNat).part.map Fin.val != some p
           chains := Tbl.drop s.chains p }

/-- The step status of a cause (R171). -/
def causeStatus (cause : Nat) : Status :=
  match cause with
  | 0x0B => stTileOvf
  | 0x0C => stDeadlineMiss
  | 0x0D => stParityLost
  | 0x0E => stParityLost
  | 0x0F => stNoResource
  | 0x10 => stAborted
  | _ => stBadDescriptor

/-- A step may still be replayed (R172, R784). -/
def mayReplay (s : State) (p : Nat) : Bool :=
  match (partAt s p).run with
  | some r => decide (r.replays < 2) && !r.gecko && r.status.isNone
  | none => false

/-- The fault of the lowest tile identifier among those of a step (R170). -/
def lowestFault (s : State) : List (Nat × Nat × Bool) → Option (Nat × Nat × Bool)
  | [] => none
  | f :: fs => some (fs.foldl (fun a b => if nameOf s b.1 < nameOf s a.1 then b else a) f)

/-- Every newt of the step but those that have faulted stops (R170). -/
def stopOthers (s : State) (p : Nat) : State :=
  forEach ((runMembers s p).filter fun t => (tileAt s t).st != .faulted) s stopTile

/-- Komodo's stop reaches the newts of a step with a fault (R170): the fault of the lowest identifier either awaits a replay
(R172, R173) or gives the step its status (R171). -/
def settleStop (s : State) (p : Nat) : State :=
  match (partAt s p).run with
  | none => s
  | some r =>
    if r.stopDue = false then s
    else match lowestFault s r.faults with
      | none =>
        let again := r.replayDue && mayReplay s p
        let s := modRun s p fun r => { r with stopDue := false, replayDue := again }
        let s := forEach (runMembers s p) s stopTile
        dropStaged (if again then s else collStop s p) p
      | some (_, cause, spare) =>
        let again := (cause == 0x0D || cause == 0x0E || (cause == 0x0F && spare)) && mayReplay s p
        let s := modRun s p fun r => { r with stopDue := false, faults := [], replayDue := again }
        let s := stopOthers (if again then s else stepStatus s p (causeStatus cause)) p
        dropStaged (if again then s else collStop s p) p

/-- A stop reaches every newt of a partition's step (R167): the step's status is the first (R169), and a replay that was
due is cancelled (R168). -/
def stopStep (s : State) (p : Nat) (st : Status) : State :=
  match (partAt s p).run with
  | none => s
  | some _ =>
    let s := stepStatus (settleStop s p) p st
    let s := modRun s p fun r => { r with replayDue := false }
    let s := forEach (runMembers s p) s stopTile
    dropStaged (collStop s p) p

/-- A newt of a step has faulted, with the cause and whether a spare stands ready for its tile (R170, R173): Komodo stops the other
newts, and the stop reaches them when fabric time next advances, or before when the step's resolution needs it
(log entry 100). -/
def stepFaulted (s : State) (p t cause : Nat) (spare : Bool) : State :=
  modRun s p fun r => { r with faults := r.faults ++ [(t, cause, spare)], stopDue := true }

/-- A newt faults (R170, R171): its cause is recorded, its commands and its binding end, and Komodo stops the other newts. -/
def newtFault (s : State) (t cause info : Nat) (imprecise : Bool) : State :=
  match (tileAt s t).part with
  | none => s
  | some p =>
    let s := noteFault s t cause info imprecise
    let s := modTile (cutQueue s t) t fun x => { x with st := .faulted, halting := false, wait := .nothing, binding := none }
    stepFaulted (releaseHolds s t) p.val t cause false

/-- A step ends on every newt with a status that no newt's cause stands for (R340, R407, R440). -/
def failStep (s : State) (p : Nat) (st : Status) : State := stopStep s p st

/-- A RECOMPUTE failure stops the step (R337): every newt stops, and the step awaits its replay, or ends with PARITY_LOST
where no replay is left. -/
def replayStep (s0 : State) (p : Nat) : State :=
  let s := settleStop s0 p
  if mayReplay s p then
    dropStaged (forEach (runMembers s p) (modRun s p fun r => { r with replayDue := true }) stopTile) p
  else stopStep s p stParityLost

/-- What an access of a step that did not end well does to the step (R151, R337, R340, R407). -/
def accStop (s : State) (p : Nat) : Acc → State
  | .ok => s
  | .wait => s
  | .replay => replayStep s p
  | .bounds => failStep s p stBadDescriptor
  | .fail st => failStep s p st

/-! ### Waits -/

/-- The members of the step that a tile runs. -/
def groupOf (s : State) (t : Nat) : List Nat :=
  match (tileAt s t).part with
  | some p => runMembers s p.val
  | none => []

/-- A waiting newt's condition is met (R146, R152; WEV and FENCE of R140). -/
def waitOver (s : State) (t : Nat) : Bool :=
  let x := tileAt s t
  match x.wait with
  | .nothing => true
  | .bar => (groupOf s t).all fun u => decide (x.bars ≤ (tileAt s u).bars)
  | .wev c v => decide (v.toNat ≤ Tbl.get 0 x.events c.val)
  | .xwait n => !(x.queue.any fun c => decide (c.num ≤ n))
  | .fence _ => x.posted == 0
  | .queueFull => decide (x.queue.length < 16)
  | _ => false

/-- A general register; g0 reads as 0 (R132). -/
def gReg (x : Tile) (n : Nat) : W64 := if n = 0 then 0 else Tbl.get 0 x.g n
/-- A write of a general register; one to g0 is ignored (R132). -/
def setG (x : Tile) (n : Nat) (v : W64) : Tile := if n = 0 then x else { x with g := Tbl.put 0 x.g n v }

/-- The loop stack and the successor of the instruction at `pc`, whose successor without loops is `nxt` (R141): the counter
of a body advances when the instruction at its last address completes, and the next body out likewise. A CALL there
completes when the code it reaches returns to the word after the body (log entry 101). -/
def loopEnd (call ret br : Bool) (pc : Nat) : List LoopEntry → Nat → List LoopEntry × Nat
  | [], nxt => ([], nxt)
  | e :: es, nxt =>
    if (pc == e.last && !call) || (ret && e.calling && nxt == e.last + 1) then
      if e.left = 0 then loopEnd call ret br pc es (if br && pc == e.last then pc + 1 else nxt)
      else ({ e with left := e.left - 1, calling := false } :: es, e.start)
    else
      let r := loopEnd call ret br pc es nxt
      ({ e with calling := e.calling || (call && pc == e.last) } :: r.1, r.2)

/-- The instruction at the program counter completes with successor `nxt`. -/
def goOn (x : Tile) (nxt : Nat) (call ret br : Bool := false) : Tile :=
  let r := loopEnd call ret br x.pc x.loops nxt
  { x with loops := r.1, pc := r.2 % 2 ^ 32 }

/-- The instruction at the program counter completes, and the next one follows. -/
def goNext (x : Tile) : Tile := goOn x (x.pc + 1)

/-- A library routine returns to the address in g31 (R132, R274). -/
def libReturn (x : Tile) : Tile :=
  { goOn x ((gReg x 31).toNat % 2 ^ 14) (ret := true) with st := .running, wait := .nothing }

/-- A waiting newt runs on once its wait is over; FENCE then returns the negative acknowledgements since the last FENCE. -/
def wake (s : State) (t : Nat) : State :=
  let x := tileAt s t
  if x.st = .waiting ∧ waitOver s t then
    modTile s t fun x =>
      match x.wait with
      | .fence rd => { goNext (setG x rd (BitVec.ofNat 64 x.naks)) with st := .running, wait := .nothing, naks := 0 }
      | .bar => { goNext x with st := .running, wait := .nothing }
      | .wev _ _ => { goNext x with st := .running, wait := .nothing }
      | .xwait _ => { goNext x with st := .running, wait := .nothing }
      | _ => { x with st := .running, wait := .nothing }
  else s

/-- A newt waits, or runs on at once where there is nothing to wait for. -/
def waitFor (s : State) (t : Nat) (w : WaitFor) : State :=
  wake (modTile s t fun x => { x with st := .waiting, wait := w, waitSince := s.now }) t

/-- The members whose barrier may now be complete (R152). -/
def wakeGroup (s : State) (t : Nat) : State := forEach (groupOf s t) s wake

/-- HALT takes effect once every tile command has completed (R166). -/
def settleHalt (s : State) (t : Nat) : State :=
  let x := tileAt s t
  if x.halting ∧ x.queue.isEmpty then endProgram s t else s

end Sys2Proof.Machine
end

