-- ==== Sys2Proof/Machine/Lib.lean ====
section
/-! DEFINITION. Calls of library routines that a start group makes together (R274, R397): who stands at a routine's word,
and how a call ends. -/

namespace Sys2Proof.Machine
open Sys2Proof

/-- A newt stands at a library word, running or waiting for the other members or for what the routine needs. -/
def atWord (s : State) (t k : Nat) : Bool :=
  let x := tileAt s t
  x.pc == k && (x.st == .running || (x.st == .waiting && (match x.wait with
    | .group => true | .tier => true | .coll => true | .ingest => true | _ => false)))

/-- A newt's registers as numbers. -/
def gNum (s : State) (t n : Nat) : Nat := (gReg (tileAt s t) n).toNat

/-- A newt that runs at a library word waits there; one that waits there already keeps its time. -/
def parkAt (s : State) (t : Nat) (w : WaitFor) : State :=
  if (tileAt s t).st = .running then modTile s t fun x => { x with st := .waiting, wait := w, waitSince := s.now }
  else modTile s t fun x => { x with wait := w }

/-- The parity error that a member's scratch read meets in a routine's call (R171, R176): the member, where it stands at the word. -/
def libParity (s : State) (p k : Nat) (hit : Option TileId) : Option Nat :=
  hit.bind fun t => (runMembers s p).find? fun l => l == liveTile s t.toNat && atWord s l k && (tileAt s l).st == .running

/-- The members of a step, once every one stands at the word with the same arguments `arg`; else those that stand there
wait under R156 (R274). -/
def groupCall (s : State) (p k : Nat) (arg : State → Nat → List Nat) : Option (List Nat) × State :=
  let ms := runMembers s p
  let here := ms.filter fun t => atWord s t k
  match here with
  | [] => (none, s)
  | t :: _ =>
    if here.length = ms.length ∧ here.all (fun u => arg s u == arg s t) then (some ms, s)
    else (none, forEach here s fun s u => parkAt s u .group)

/-- A call of a routine that reads scratch: `hit` names the member whose read meets a parity error, which faults it there
(R171, R176). -/
def scratchCall (s : State) (p k : Nat) (hit : Option TileId) (arg : State → Nat → List Nat) : Option (List Nat) × State :=
  match libParity s p k hit with
  | some l => (none, newtFault s l 0x0E 0 false)
  | none => groupCall s p k arg

/-- Every member returns from the routine (R274). -/
def groupReturn (s : State) (ms : List Nat) (f : Tile → Tile := fun x => x) : State :=
  forEach ms s fun s t => modTile s t fun x => libReturn (f x)

/-- A range of scratch memory (R134). -/
def scratch (s : State) (t off n : Nat) : Bytes := bytesAt 0 (tileAt s t).smem off n

/-- A routine's descriptor of `n` bytes in scratch at g4 (R274): none where it is misaligned or out of range. -/
def libDesc (s : State) (t n : Nat) : Option Bytes :=
  let o := gNum s t 4
  if o % 8 = 0 ∧ o + n ≤ 0x8000 then some (scratch s t o n) else none

/-- The arguments of a routine that takes a descriptor: its offset and its bytes. -/
def descArg (n : Nat) (s : State) (t : Nat) : List Nat := [gNum s t 4, leNat (scratch s t (gNum s t 4) n)]

/-- A call refused: the fault of R171 on the first member, and so on its step. -/
def libFault (s : State) (ms : List Nat) (cause : Nat) : State := newtFault s (nth 0 ms 0) cause 0 false

/-- How a call ends by its last access: the members return; or they wait, the state as it was (`s0`); or the step ends
(R151, R407). -/
def libEnd (s0 s : State) (p : Nat) (ms : List Nat) (a : Acc) : State :=
  match a with
  | .ok => groupReturn s ms
  | .wait => forEach ms (stillWaits s0 s) fun s t => parkAt s t .tier
  | .bounds => libFault s ms 0x0A
  | a => accStop s p a

/-- `n` F32 words of memory from an address on. -/
def readF32s (s : State) (p a n : Nat) : Acc × List W32 × State :=
  match readMem s (.step p) a (4 * n) with
  | (.ok, b, s) => (.ok, (List.range n).map fun i => BitVec.ofNat 32 (fieldAt b (4 * i) 4), s)
  | (x, _, s) => (x, [], s)

/-- Words as bytes. -/
def f32Bytes (l : List W32) : Bytes := l.flatMap fun w => leBytes 4 w.toNat

def writeF32s (s : State) (p a : Nat) (l : List W32) : Acc × State := writeMem s (.step p) a (f32Bytes l) (partPrio s p)

/-- `n` packed elements of a format from an address on, as F32 words. -/
def readElems (s : State) (p : Nat) (f : Fmt) (a n : Nat) : Acc × List W32 × State :=
  match readMem s (.step p) a (f.bytesFor n) with
  | (.ok, b, s) => (.ok, (List.range n).map fun i => f32Of (f.elem b i), s)
  | (x, _, s) => (x, [], s)

end Sys2Proof.Machine
end

