-- ==== Sys2Proof/Machine/NewtOps.lean ====
section
/-! DEFINITION. What every newt instruction shares: the instruction formats (R136 to R139), the guard (R137), fetching
(R133, R171, R176), scratch accesses (R134) and the issue of tile commands (R143 to R147). -/

namespace Sys2Proof.Machine
open Sys2Proof

/-! ### Instruction words -/

/-- The fields of an instruction word (R136). `rd` of the W format stands in `rdw`. -/
structure NInstr where
  op : Nat
  pg : Nat
  pn : Bool
  rd : Nat
  ra : Nat
  rb : Nat
  fn : Nat
  imm : Nat
  off : Int
  rdw : Nat
  hw : Nat
  imm16 : Nat
  deriving DecidableEq, Repr

def ndecode (w : W32) : NInstr :=
  let v := w.toNat
  { op := bitsOf v 26 6, pg := bitsOf v 23 3, pn := bitOf v 22, rd := bitsOf v 17 5, ra := bitsOf v 12 5,
    rb := bitsOf v 7 5, fn := bitsOf v 0 7, imm := bitsOf v 0 12, off := signedOf 22 v,
    rdw := bitsOf v 22 1 * 16 + bitsOf v 18 4, hw := bitsOf v 16 2, imm16 := bitsOf v 0 16 }

/-- IMM12 as a 64-bit word, sign-extended (R138). -/
def NInstr.simm (i : NInstr) : W64 := BitVec.ofInt 64 (signedOf 12 i.imm)

/-- The bits of [21:0] that an opcode uses (R139, R140); none for a reserved opcode. The rest are reserved (R136). SHLI and SHRI
use the whole field IMM12, of which the shift takes the low six bits (log entry 103). -/
def usedBits (op : Nat) : Option Nat :=
  let rd := 0x3E0000
  let ra := 0x1F000
  let rb := 0xF80
  let imm := 0xFFF
  if op = 0x00 then some 0
  else if op ≤ 0x0B then some (rd + ra + rb)
  else if op ≤ 0x10 then some (rd + ra + imm)
  else match op with
    | 0x11 => some 0x3FFFFF
    | 0x12 => some 0x3FFFFF
    | 0x13 => some (0xE0000 + ra + rb + 7)
    | 0x14 => some (0xE0000 + ra + imm)
    | 0x15 => some (0xE0000 + 0x7000 + 0x380 + 3)
    | 0x16 => some 0x3FFFFF
    | 0x17 => some 0x3FFFFF
    | 0x18 => some ra
    | 0x19 => some (ra + imm)
    | 0x1A => some 0
    | 0x1B => some imm
    | 0x1C => some (rd + ra + imm)
    | 0x1D => some (rd + ra + imm)
    | 0x1E => some (rd + ra + imm)
    | 0x1F => some (rd + ra + imm)
    | 0x20 => some (rd + 7)
    | 0x21 => some (rd + ra)
    | 0x22 => some (rd + ra + 1)
    | 0x23 => some rd
    | 0x24 => some (rd + ra + rb + 3)
    | 0x25 => some (rd + ra + 0x7F)
    | 0x26 => some (rd + ra)
    | 0x27 => some ra
    | 0x28 => some 0
    | 0x29 => some (ra + 0xF)
    | 0x2A => some (ra + 0xF)
    | 0x2B => some imm
    | 0x2C => some rd
    | 0x2D => some rd
    | 0x2E => some (rd + imm)
    | 0x2F => some (ra + imm)
    | _ => none

/-- Decoding accepts the word (R137): its opcode and its conditions are not reserved, and its reserved fields are zero. -/
def nlegal (w : W32) : Bool :=
  let i := ndecode w
  match usedBits i.op with
  | none => false
  | some u =>
    (w.toNat % 2 ^ 22) &&& (0x3FFFFF - u) == 0
      && !(i.op == 0x13 && decide (6 ≤ bitsOf i.fn 0 3)) && !(i.op == 0x14 && decide (6 ≤ bitsOf i.imm 9 3))

/-- A predicate; p0 reads as 1 (R132). -/
def pReg (x : Tile) (n : Nat) : Bool := if n = 0 then true else Tbl.get false x.p n
/-- A write of a predicate; one to p0 is ignored (R132). -/
def setP (x : Tile) (n : Nat) (v : Bool) : Tile := if n = 0 then x else { x with p := Tbl.put false x.p n v }

/-- The guard (R137). The W format has no PN bit. -/
def guardOf (x : Tile) (i : NInstr) : Bool :=
  if i.op = 0x11 ∨ i.op = 0x12 then pReg x i.pg else pReg x i.pg != i.pn

/-- The step of a tile awaits its replay, so that its newts have stopped (R172, R337). -/
def replayWaits (s : State) (x : Tile) : Bool :=
  match x.part with
  | some p => match (partAt s p.val).run with | some r => r.replayDue | none => false
  | none => true

/-- The newt executes instructions: RUNNING, and not at a HALT that waits for its tile commands (R166). -/
def newtRuns (s : State) (t : Nat) : Bool :=
  let x := tileAt s t
  x.st == .running && !x.halting && !replayWaits s x

/-- The instruction word at the program counter: of the library region, the same in every newt, or of the program region (R133,
R164). -/
def fetchWord (s : State) (x : Tile) : W32 := if x.pc < 2048 then Tbl.get 0 s.boot.newtLib x.pc else Tbl.get 0 x.imem x.pc

/-- A library word at which a routine begins that has a command of its own (R274, R289, R307, R397, R441, R541, R653, R718). -/
def routineWord (pc : Nat) : Bool := decide (4 ≤ pc) && decide (pc ≤ 16)

/-- The newt of a tile executes the instruction at its program counter, in either region, when that is of the opcode `op`: an
address outside both regions, a parity error of the fetch and a word that does not decode fault whatever the opcode (R133, R137,
R171, R176); a false guard makes it a NOP (R137). At the word of a routine the routine's own command stands for what the image
holds there (log entry 102). -/
def newtRow (s : State) (t : TileId) (e : ParityHit) (op : Nat) (act : State → Nat → NInstr → State) : State :=
  let l := liveTile s t.toNat
  let x := tileAt s l
  if newtRuns s l = false then s
  else if 16384 ≤ x.pc then newtFault s l 0x02 0 false
  else if e = .imem then newtFault s l 0x0D 0 false
  else if routineWord x.pc then s
  else
    let w := fetchWord s x
    let i := ndecode w
    if nlegal w = false then newtFault s l 0x01 0 false
    else if i.op ≠ op then s
    else if guardOf x i = false then modTile s l goNext
    else act s l i

/-- A scalar instruction that changes the newt and goes on. -/
def scalar (f : Tile → NInstr → Tile) (s : State) (l : Nat) (i : NInstr) : State :=
  modTile s l fun x => goNext (f x i)

/-- g[RD] := f(g[RA], g[RB]). -/
def aluRR (f : W64 → W64 → W64) : State → Nat → NInstr → State :=
  scalar fun x i => setG x i.rd (f (gReg x i.ra) (gReg x i.rb))
/-- g[RD] := f(g[RA], sign-extended IMM12). -/
def aluRI (f : W64 → W64 → W64) : State → Nat → NInstr → State :=
  scalar fun x i => setG x i.rd (f (gReg x i.ra) i.simm)

/-- The conditions of R139. -/
def condOf (c : Nat) (a b : W64) : Bool :=
  match c with
  | 0 => a == b
  | 1 => a != b
  | 2 => a.slt b
  | 3 => a.sle b
  | 4 => a.ult b
  | _ => a.ule b

/-- A scratch access of a size at g[RA] + IMM12 (R134, R171): the address, or none where it is out of range or
misaligned. -/
def scratchAddr (x : Tile) (i : NInstr) (size : Nat) : Option Nat :=
  let a := (gReg x i.ra + i.simm).toNat
  if a % size = 0 ∧ a + size ≤ 32768 then some a else none

def loadOp (size : Nat) (e : ParityHit) (s : State) (l : Nat) (i : NInstr) : State :=
  let x := tileAt s l
  match scratchAddr x i size with
  | none => newtFault s l 0x03 0 false
  | some a =>
    if e = .smem then newtFault s l 0x0E 0 false
    else modTile s l fun x => goNext (setG x i.rd (BitVec.ofNat 64 (leNat (bytesAt 0 x.smem a size))))

def storeOp (size : Nat) (s : State) (l : Nat) (i : NInstr) : State :=
  let x := tileAt s l
  match scratchAddr x i size with
  | none => newtFault s l 0x03 0 false
  | some a => modTile s l fun x => goNext { x with smem := putBytes 0 x.smem a (leBytes size (gReg x i.rd).toNat) }

/-! ### Tile commands -/

/-- A copy from scratch memory taken at issue (R147): none raises DADDR. -/
def scratchCopy (x : Tile) (off n : Nat) : Option Bytes :=
  if off % 8 = 0 ∧ off + n ≤ 32768 then some (bytesAt 0 x.smem off n) else none

/-- The multicast bitmap that a transfer descriptor names (R212); the offsets of a TILED transfer are checked too (R206). -/
def xferCopies (x : Tile) (d : Bytes) : Option Bytes :=
  let tiled := fieldAt d 0 1 == 1
  if tiled && ((scratchCopy x (fieldAt d 8 8 % 32768) 336).isNone || (scratchCopy x (fieldAt d 0x10 4) 32).isNone) then none
  else
    let m := fieldAt d 0x20 8
    if m / 2 ^ 62 = 2 then scratchCopy x (m % 32768) 128 else some []

/-- The matrix masks and mode that the sets have at issue (R225): all ones after ACLR, an MMA's own after an MMA. -/
def allOnes : W64 := BitVec.allOnes 64
def setMasks (x : Tile) (n : Nat) : W64 × W64 := Tbl.get (allOnes, allOnes) x.masks n

/-- The command that an instruction issues, with what it copies at issue (R145, R147, R225); none raises DADDR. -/
def buildCmd (x : Tile) (i : NInstr) (num : Nat) : Option TileCmd :=
  let a := (gReg x i.ra).toNat
  let b := (gReg x i.rb).toNat
  match i.op with
  | 0x20 => some { num := num, op := 0x20, unit := .matrix, fn := i.fn, half := x.half }
  | 0x21 => (scratchCopy x a 48).map fun d => { num := num, op := 0x21, unit := .matrix, fn := 0, half := x.half, desc := d }
  | 0x23 => some { num := num, op := 0x23, unit := .none, fn := 0, half := x.half, started := true }
  | 0x22 =>
    match scratchCopy x a 48 with
    | none => none
    | some d => (xferCopies x d).map fun m =>
        { num := num, op := 0x22, unit := .fill, fn := i.fn, half := if i.fn % 2 = 1 then x.half else 1 - x.half,
          xfer := d, bitmap := m }
  | 0x24 =>
    match scratchCopy x a 32, scratchCopy x b 48 with
    | some w, some d => (xferCopies x d).map fun m =>
        { num := num, op := 0x24, unit := .wout, fn := i.fn, half := x.half, rowMask := (setMasks x (i.fn % 4)).1,
          colMask := (setMasks x (i.fn % 4)).2, wcb := w, xfer := d, bitmap := m }
    | _, _ => none
  | 0x25 =>
    match scratchCopy x a 32 with
    | none => none
    | some d => (scratchCopy x (fieldAt d 0x14 4) 32).map fun w =>
        { num := num, op := 0x25, unit := .vector, fn := i.fn, half := x.half, desc := d, wcb := w }
  | _ => (scratchCopy x a 48).map fun d => { num := num, op := 0x26, unit := .fexp, fn := 0, half := x.half, desc := d }

/-- The masks of the sets after a command is issued (R225). -/
def issueMasks (x : Tile) (c : TileCmd) : Tbl (W64 × W64) :=
  match c.op with
  | 0x20 => Tbl.drop x.masks (c.fn % 4)
  | 0x21 =>
    Tbl.put (allOnes, allOnes) x.masks (fieldAt c.desc 2 1 % 4)
      (BitVec.ofNat 64 (fieldAt c.desc 0x18 8), BitVec.ofNat 64 (fieldAt c.desc 0x20 8))
  | _ => x.masks

/-- A tile command issued (R143, R147): a full queue makes the newt wait; a bad scratch offset raises DADDR, a parity error
of the copy SMEM_PARITY. SWAP toggles the read half at its issue, and its entry waits for no unit (R145). -/
def issueOp (e : ParityHit) (s : State) (l : Nat) (i : NInstr) : State :=
  let x := tileAt s l
  if 16 ≤ x.queue.length then waitFor s l .queueFull
  else
    match buildCmd x i (x.issued + 1) with
    | none => newtFault s l 0x03 0 false
    | some c =>
      if e = .smem ∧ c.op ≠ 0x20 ∧ c.op ≠ 0x23 then newtFault s l 0x0E 0 false
      else
        modTile s l fun x =>
          goNext (setG { x with queue := x.queue ++ [c], issued := c.num, masks := issueMasks x c
                                half := if c.op = 0x23 then 1 - x.half else x.half } i.rd (BitVec.ofNat 64 c.num))

end Sys2Proof.Machine
end

