-- ==== Sys2Proof/Machine/TileOps.lean ====
section
/-! DEFINITION. What the tile's units share: which resources a command uses (R75, R76, R144), multicast sets (R212, R213),
accumulator sets (R88 to R102, R227, R923), the operand buffer, and the write-out conversion (R103 to R116). -/

namespace Sys2Proof.Machine
open Sys2Proof

/-- One half of the operand buffer (R73). -/
def halfSize : Nat := 1048576

/-! ### Order of commands -/

/-- The resources of R75 and R76 that a command reads and writes: accumulator sets, halves, the factor expansion output. -/
structure Uses where
  setR : List Nat := []
  setW : List Nat := []
  halfR : List Nat := []
  halfW : List Nat := []
  factR : Bool := false
  factW : Bool := false
  deriving DecidableEq, Repr

/-- Sources that a vector operation uses (R150); none for a code outside its list. -/
def vopArity (fn : Nat) : Option Nat :=
  match fn with
  | 0x01 => some 2 | 0x02 => some 2 | 0x03 => some 2 | 0x04 => some 3 | 0x05 => some 2 | 0x06 => some 2 | 0x07 => some 2
  | 0x08 => some 1 | 0x09 => some 1 | 0x0A => some 1 | 0x0B => some 1 | 0x0C => some 2 | 0x0D => some 1 | 0x0E => some 1
  | 0x0F => some 1 | 0x10 => some 1 | 0x11 => some 2 | 0x12 => some 1
  | _ => none

/-- Values in each source and in the result of a vector operation (R150). -/
def vopCount (fn : Nat) (d : Bytes) : Nat := if fn = 0x11 then 2 * fieldAt d 0x10 4 else fieldAt d 0x10 4

def vopSrc (d : Bytes) (k : Nat) : Nat × Nat := (fieldAt d (4 * k) 4 / 2 ^ 30, fieldAt d (4 * k) 4 % 2 ^ 30)

/-- Bytes that a vector operation writes from DST, scales included (R924). -/
def vopDstBytes (fn : Nat) (wcb : Bytes) (n : Nat) : Nat :=
  match fmtCode (fieldAt wcb 0 1) with
  | some f => if fn = 0x08 then 4 * n else f.fmt.packedBytes n + (if f.scaled then ceilDiv n 32 else 0)
  | none => 4 * n

def halvesOf (lo n : Nat) : List Nat := (List.range 2).filter fun h => decide (lo < (h + 1) * halfSize) && decide (h * halfSize < lo + n)

def tiledCmd (c : TileCmd) : Bool := (c.op == 0x22 || c.op == 0x24) && fieldAt c.xfer 0 1 == 1

def cmdUses (c : TileCmd) : Uses :=
  match c.op with
  | 0x20 => { setW := [c.fn % 4] }
  | 0x21 => { setW := [fieldAt c.desc 2 1 % 4], halfR := [c.half] }
  | 0x22 => if tiledCmd c && fieldAt c.xfer 1 1 == 0x0F then {} else { halfW := [c.half] }
  | 0x23 => {}
  | 0x24 => { setR := [c.fn % 4] }
  | 0x25 =>
    let n := vopCount c.fn c.desc
    let srcs := (List.range ((vopArity c.fn).getD 0)).map (vopSrc c.desc)
    { setR := srcs.filterMap fun x => if x.1 = 1 then some (x.2 % 4) else none
      halfR := srcs.flatMap fun x => if x.1 = 0 then halvesOf x.2 (4 * n) else []
      halfW := halvesOf (fieldAt c.desc 0x0C 4) (vopDstBytes c.fn c.wcb n)
      factR := srcs.any fun x => x.1 == 2 }
  | _ => { halfR := [c.half], factW := true }

def meets (a b : List Nat) : Bool := a.any fun x => b.contains x

/-- A later command waits for an earlier one (R75, R76): one writes what the other reads or writes. -/
def clash (p c : Uses) : Bool :=
  meets c.setW (p.setR ++ p.setW) || meets c.setR p.setW || meets c.halfW (p.halfR ++ p.halfW) || meets c.halfR p.halfW
    || (c.factW && (p.factR || p.factW)) || (c.factR && p.factW)

/-- What a command in the queue still uses: one that has started has read its sets and the expansion output (R75). -/
def usesNow (c : TileCmd) : Uses := if c.started then { cmdUses c with setR := [], factR := false } else cmdUses c

/-- A command may start: its unit holds no earlier one (R144), no earlier one clashes with it, and TILED transfers start in
issue order, so that each meets the walk position of the ADVANCEs issued before it. -/
def mayStart (q : List TileCmd) (c : TileCmd) : Bool :=
  !c.started && q.all fun p =>
    decide (c.num ≤ p.num)
      || !(p.unit == c.unit || clash (usesNow p) (cmdUses c) || (tiledCmd p && tiledCmd c && !p.started))

/-- The next command of an opcode that may start on a tile whose newt runs a step. -/
def nextCmd (s : State) (l op : Nat) : Option TileCmd :=
  let x := tileAt s l
  if (x.st == .running || x.st == .waiting) && !replayWaits s x then
    x.queue.find? fun c => c.op == op && mayStart x.queue c
  else none

def modQueueCmd (s : State) (l num : Nat) (f : TileCmd → TileCmd) : State :=
  modTile s l fun x => { x with queue := x.queue.map fun c => if c.num = num then f c else c }

/-- A command has started; its effect stands in the state. -/
def startCmd (s : State) (l : Nat) (c : TileCmd) (wrote wroteOb : List (Nat × Nat)) (acc : Option Nat) (factor : Bool := false) :
    State :=
  modQueueCmd s l c.num fun c =>
    { c with started := true, wrote := wrote, wroteOb := wroteOb, wroteAcc := acc, wroteFactor := factor }

/-- The partition of a tile. -/
def tilePart (s : State) (l : Nat) : Nat := partNo (tileAt s l).part

/-! ### Multicast sets -/

/-- The tiles that a multicast set names: none where it is refused, `some none` for no multicast (R212); a rectangle that names a
row or a column of no tile is refused (R318). -/
def mcastIds (m : Nat) (bitmap : Bytes) : Option (Option (List Nat)) :=
  match m / 2 ^ 62 with
  | 0 => if m = 0 then some none else none
  | 1 =>
    if bitsOf m 22 40 ≠ 0 ∨ 6 < bitsOf m 8 3 ∨ 6 < bitsOf m 11 3 ∨ 11 < bitsOf m 14 4 ∨ 11 < bitsOf m 18 4 then none
    else
      let rows := (List.range 8).filter fun r => decide (bitsOf m 8 3 ≤ r) && decide (r ≤ bitsOf m 11 3)
      let cols := (List.range 16).filter fun c => decide (bitsOf m 14 4 ≤ c) && decide (c ≤ bitsOf m 18 4)
      some (some ((bitSet 8 (bitsOf m 0 8)).flatMap fun d => rows.flatMap fun r => cols.map fun c => 128 * d + 16 * r + c))
  | 2 => if bitsOf m 15 47 ≠ 0 then none else (bitmapTiles bitmap).map some
  | _ => none

/-! ### The operand buffer -/

def obAddr (half off : Nat) : Nat := half * halfSize + off

/-- Bytes written to the operand buffer. -/
def obPut (x : Tile) (a : Nat) (b : Bytes) : Tile :=
  { x with ob := putBytes 0 x.ob a b, padded := Tbl.clearRange x.padded a b.length
           padBlocks := Tbl.clearRange x.padBlocks a b.length }

/-- The bits of packed element `i` at an address of a byte table (R83). -/
def tblElem (t : Tbl Byte) (f : Fmt) (a i : Nat) : Nat :=
  match f with
  | .f6 => bitsOf (leNat (bytesAt 0 t (a + i / 4 * 3) 3)) (6 * (i % 4)) 6
  | .f4 => bitsOf (Tbl.get 0 t (a + i / 2)).toNat (4 * (i % 2)) 4
  | _ => leNat (bytesAt 0 t (a + i * (f.bits / 8)) (f.bits / 8))

/-! ### Accumulator sets -/

def accAt (x : Tile) (n : Nat) : AccSet := Tbl.get {} x.acc n
/-- An accumulator set as ACLR leaves it (R74, R163, R923). -/
def clearedSet (long : Bool) : AccSet := { long := long }

/-- The value of a 120-bit two's-complement number (R88). -/
def wrap120 (v : Int) : Int := signedOf 120 (codeOf 120 v)

/-- The anchor of an element that no pre-pass has anchored (R89). -/
def restAnchor (a : AccSet) : Int :=
  match a.first with
  | some (_, sa, sb) => if sa = 0xFFFFFFFF ∧ sb = 0xFFFFFFFF then 0 else -254
  | none => -254

def accEl (a : AccSet) (i j : Nat) : AccEl := Tbl.get { anchor := restAnchor a } a.elems (64 * i + j)

/-- An exact sum of an open block, in units of 2^-286, entered into the value (R91, R95): the element, and whether a nonzero
bit was discarded. -/
def closeBlock (e : AccEl) : AccEl × Bool :=
  let sh : Int := -223 - e.anchor
  let (add, drop) : Int × Bool :=
    if 0 ≤ sh then (e.openSum * 2 ^ sh.toNat, false)
    else (e.openSum / 2 ^ (-sh).toNat, e.openSum % 2 ^ (-sh).toNat != 0)
  ({ e with value := wrap120 (e.value + add), openSum := 0, dropped := e.dropped || drop }, drop)

/-- TILE_FPSTAT bits of one operation of R125 (R129). -/
def opFlag (ins : List W32) (out : W32) : Nat :=
  if ins.any fun w => (f32Val w).isNan then 1 else if (f32Val out).isNan then 2 else 0

/-- A node of the adder tree, with the TILE_FPSTAT bits of its additions (R102, R129). -/
def fNode (a b : Option (W32 × Nat)) : Option (W32 × Nat) :=
  match a, b with
  | some x, some y =>
    let r := f32Add x.1 y.1
    some (r, x.2 ||| y.2 ||| opFlag [x.1, y.1] r)
  | some x, none => some x
  | none, y => y

/-- The sum of a group of up to eight products by its positions (R227 rule 2). -/
def fGroup (kid : Nat → Option (W32 × Nat)) : Option (W32 × Nat) :=
  fNode (fNode (fNode (kid 0) (kid 1)) (fNode (kid 2) (kid 3))) (fNode (fNode (kid 4) (kid 5)) (fNode (kid 6) (kid 7)))

/-- The open group of an F32 element summed and added to the running sum (R227), with TILE_FPSTAT bits. -/
def closeGroup (e : AccEl) : AccEl × Nat :=
  let kid (k : Nat) : Option (W32 × Nat) := (e.kids.find? fun x => x.1 == k).map fun x => (x.2, 0)
  match fNode (e.running.map fun r => (r, 0)) (fGroup kid) with
  | some r => ({ e with running := some r.1, kids := [] }, r.2)
  | none => (e, 0)

/-- The element as a write-out or a vector read takes it (R923), and the TILE_FPSTAT bits that this raises. -/
def readEl (long : Bool) (e : AccEl) : AccEl × Nat :=
  if long then
    let (e, drop) := closeBlock e
    (e, b2n drop * 0x40 ||| b2n (!e.nan && e.pinf && e.ninf) * 2)
  else
    closeGroup e

/-- The value of a closed element (R96, R97, R227). -/
def elNum (long : Bool) (e : AccEl) : Num :=
  if long then
    if e.nan || (e.pinf && e.ninf) then .nan
    else if e.pinf then .inf false
    else if e.ninf then .inf true
    else if e.value = 0 then .zero
    else .fin (e.value < 0) e.value.natAbs (e.anchor - 63)
  else match e.running with
    | some r => f32Val r
    | none => .zero

/-- The long partial of a closed element (R98). -/
def longPartial (e : AccEl) : Bytes :=
  leBytes 16 (codeOf 128 e.value) ++ leBytes 2 (codeOf 16 e.anchor)
    ++ leBytes 1 (b2n e.nan + b2n e.pinf * 2 + b2n e.ninf * 4 + b2n e.dropped * 8) ++ [0]

def partialEl (b : Bytes) : AccEl :=
  let f := fieldAt b 0x12 1
  { value := wrap120 (signedOf 128 (fieldAt b 0 16)), anchor := signedOf 16 (fieldAt b 0x10 2), anchored := true,
    nan := bitOf f 0, pinf := bitOf f 1, ninf := bitOf f 2, dropped := bitOf f 3 }

/-- Two long partials merged (R99): the receiver first. The second part says whether bits were discarded. -/
def mergeLong (x y : AccEl) : AccEl × Bool :=
  let a := max x.anchor y.anchor
  let down (e : AccEl) : Int × Bool :=
    let k := (a - e.anchor).toNat
    (e.value / 2 ^ k, e.value % 2 ^ k != 0)
  let (v, d1) := down x
  let (w, d2) := down y
  let sum := v + w
  let beyond := decide (sum < -(2 ^ 119)) || decide (2 ^ 119 ≤ sum)
  let d := d1 || d2 || beyond
  ({ x with value := wrap120 sum, anchor := a, nan := x.nan || y.nan, pinf := x.pinf || y.pinf, ninf := x.ninf || y.ninf,
            dropped := x.dropped || y.dropped || d }, d)

/-! ### Write-out -/

/-- The checks of R105 on a write-out control block; `long` is the mode of the set it writes from, none from the vector
unit. -/
def wcbOk (w : Bytes) (long : Option Bool) : Bool :=
  let f := fieldAt w 0 1
  let m := fieldAt w 1 1
  ((fmtCode f).isSome || (f == 0x20 && long == some true)) && decide (m % 4 < 2) && m / 16 == 0 && zeroAt w 2 2

/-- The logical index of fragment element (i, j) (R115). -/
def wcbIndex (w : Bytes) (i j : Nat) : Nat := (fieldAt w 0x18 8 + i * fieldAt w 0x14 4 + j) % 2 ^ 64

/-- The rounding of an element by its logical index (R106, R113, R114). -/
def wcbRnd (w : Bytes) (index : Nat) : Rnd :=
  if fieldAt w 1 1 % 4 = 1 then .stoch (srBits (fieldAt w 8 8) (fieldAt w 4 4) (fieldAt w 0x10 4) index) else .rne

def rndFlagBits (f : RndFlags) : Nat := b2n f.sat * 16 + b2n f.ovfInf * 8 + b2n f.unfZero * 4 + b2n f.nanLost * 32

/-- What a write-out conversion gives: elements by place, scales by block place, TILE_FPSTAT bits. -/
structure FragOut where
  elems : List ((Nat × Nat) × Nat) := []
  scales : List ((Nat × Nat) × Nat) := []
  flags : Nat := 0
  deriving DecidableEq, Repr

/-- One block of a block-scaled output (R110 to R112): places with value and rounding. -/
def blockOut (f : Fmt) (place : Nat × Nat) (es : List ((Nat × Nat) × Num × Rnd)) (o : FragOut) : FragOut :=
  if es.isEmpty then o
  else
    let b := encodeBlock f (es.map (·.2))
    { elems := o.elems ++ (es.map (·.1)).zip b.elems
      scales := o.scales ++ [(place, b.scale)]
      flags := o.flags ||| rndFlagBits b.flags ||| b2n b.nanSpread * 128 }

/-- The conversion of the stored elements of a fragment of `rows` rows (R103 to R116, R225): the scale place is (row, block)
along rows and (column, block) along columns. -/
def convert (f : FmtCode) (w : Bytes) (colAxis : Bool) (es : List ((Nat × Nat) × Num × Rnd)) : FragOut :=
  if f.scaled then
    let key (e : (Nat × Nat) × Num × Rnd) : Nat × Nat := if colAxis then (e.1.2, e.1.1 / 32) else (e.1.1, e.1.2 / 32)
    ((es.map key).eraseDups).foldl (fun o k => blockOut f.fmt k (es.filter fun e => key e == k) o) {}
  else
    es.foldl (fun o e =>
      let r := f.fmt.encode (bitOf (fieldAt w 1 1) 2) e.2.2 e.2.1
      { o with elems := o.elems ++ [(e.1, r.1)], flags := o.flags ||| rndFlagBits r.2 }) {}

/-! ### Elements stored in memory -/

/-- Bytes touched by elements at bit addresses, over what stood there: sub-byte elements change only their bits (R83). -/
def layBits (old : Nat → Byte) (es : List (Nat × Nat × Nat)) : Tbl Byte :=
  es.foldl (fun t e =>
    let (ba, w, v) := e
    (span (ba / 8) ((ba + w - 1) / 8 - ba / 8 + 1)).foldl (fun t a =>
      let cur := match t.find? (fun x => x.1 == a) with | some x => x.2 | none => old a
      let lo := max ba (8 * a)
      let hi := min (ba + w) (8 * a + 8)
      Tbl.set t a (BitVec.ofNat 8 (putBits cur.toNat (lo - 8 * a) (hi - lo) (v / 2 ^ (lo - ba))))) t) []

/-- The runs of consecutive addresses of a table. -/
def runsOf (t : Tbl Byte) : List (Nat × Bytes) :=
  (t.foldl (fun (acc : List (Nat × Bytes)) e =>
    match acc with
    | (a, b) :: r => if a + b.length = e.1 then (a, b ++ [e.2]) :: r else (e.1, [e.2]) :: acc
    | [] => [(e.1, [e.2])]) []).reverse

/-- Runs written for a step, one after another. -/
def writeRuns (s : State) (w : Who) (prio : Nat) (l : List (Nat × Bytes)) : Acc × State :=
  accAll l s fun s r => writeMem s w r.1 r.2 prio

def setFp (s : State) (l m : Nat) : State := if m = 0 then s else regOr s ⟨.tileFpstat, l, 0⟩ m

/-- The multicast hold of a die: bytes in use of its 1 MiB (R215). -/
def holdUsed (s : State) (d : Nat) : Nat := sumN ((Tbl.get [] s.holds d).map fun h => h.data.length)

end Sys2Proof.Machine
end

