-- ==== Sys2Proof/Machine/Walk.lean ====
section
/-! DEFINITION. Tiling descriptors (R182 to R189), their checks (R193 to R201, R234), walks (R190 to R192), bindings (R195,
R196), pieces and walk records (R207 to R209), staging (R202 to R204), and the combination of chains (R229 to R231). -/

namespace Sys2Proof.Machine
open Sys2Proof

/-! ### The descriptor -/

/-- The extent of a dimension by its code of R180. -/
def tdDim (d : Bytes) (k : Nat) : Nat :=
  match k with
  | 0 => fieldAt d 0 4 | 1 => fieldAt d 4 4 | 2 => fieldAt d 8 4 | 3 => fieldAt d 0x0C 2 | _ => fieldAt d 0x0E 2

def tdFmt (d : Bytes) (opnd : Nat) : Option FmtCode := fmtCode (fieldAt d (0x10 + opnd) 1)
def tdBits (d : Bytes) (opnd : Nat) : Nat := match tdFmt d opnd with | some f => f.fmt.bits | none => 0
def tdScaled (d : Bytes) (opnd : Nat) : Bool := match tdFmt d opnd with | some f => f.scaled | none => false
def tdChain (d : Bytes) : Nat := fieldAt d 0x14 4
/-- CHAIN, read as DIM_K where it is 0 (R234). -/
def tdChainK (d : Bytes) : Nat := if tdChain d = 0 then tdDim d 2 else tdChain d
/-- Chains of each tap, and of an element's whole reduction (R229). -/
def chainsPerTap (d : Bytes) : Nat := if tdChain d = 0 then 1 else ceilDiv (tdDim d 2) (tdChain d)
def chainsTotal (d : Bytes) : Nat := tdDim d 3 * chainsPerTap d

def tdSpread (d : Bytes) : Nat := fieldAt d 0x18 4
def spreadLevel (d : Bytes) : Nat := bitsOf (tdSpread d) 0 3
def spreadDA (d : Bytes) : Nat := bitsOf (tdSpread d) 3 3
def spreadDB (d : Bytes) : Nat := bitsOf (tdSpread d) 6 3
def spreadCA (d : Bytes) : Nat := bitsOf (tdSpread d) 9 10
def spreadCB (d : Bytes) : Nat := bitsOf (tdSpread d) 19 10
/-- A dimension that the spread divides among the members. -/
def spreads (d : Bytes) (k : Nat) : Bool := spreadDA d == k || (decide (1 < spreadCB d) && spreadDB d == k)

def lvlPresent (d : Bytes) (l : Nat) : Bool := bitOf (fieldAt d 0x13 1) l
/-- The present levels, outermost first. -/
def lvlsOut (d : Bytes) : List Nat := [4, 3, 2, 1, 0].filter (lvlPresent d)
def lvlOff (l : Nat) : Nat := 0xB0 + 0x20 * l
def lvlExt (d : Bytes) (l k : Nat) : Nat :=
  match k with
  | 0 => fieldAt d (lvlOff l) 4 | 1 => fieldAt d (lvlOff l + 4) 4 | 2 => fieldAt d (lvlOff l + 8) 4
  | 3 => fieldAt d (lvlOff l + 0x0C) 2 | _ => fieldAt d (lvlOff l + 0x0E) 2
/-- ORDER, outermost first. -/
def lvlOrder (d : Bytes) (l : Nat) : List Nat :=
  let o := fieldAt d (lvlOff l + 0x10) 2
  [bitsOf o 12 3, bitsOf o 9 3, bitsOf o 6 3, bitsOf o 3 3, bitsOf o 0 3]
def lvlStage (d : Bytes) (l opnd : Nat) : Bool := lvlPresent d l && bitOf (fieldAt d (lvlOff l + 0x12) 1) opnd
def lvlDepth (d : Bytes) (l : Nat) : Nat := fieldAt d (lvlOff l + 0x13) 1
def lvlCap (d : Bytes) (l : Nat) : Nat := fieldAt d (lvlOff l + 0x14) 4
def lvlBase (d : Bytes) (l : Nat) : Nat := fieldAt d (lvlOff l + 0x18) 8
/-- The extent along a dimension that a level cuts: that of the next outer present level, or the operation's. -/
def outerExt (d : Bytes) (l k : Nat) : Nat :=
  match ((List.range 5).filter fun x => decide (l < x) && lvlPresent d x).head? with
  | some x => lvlExt d x k
  | none => tdDim d k
def innerLevel (d : Bytes) (l : Nat) : Option Nat :=
  ((List.range 5).filter fun x => decide (x < l) && lvlPresent d x).getLast?

def opOff (opnd : Nat) : Nat := 0x20 + 0x30 * opnd
def opHome (d : Bytes) (opnd : Nat) : Nat := fieldAt d (opOff opnd) 1
def opBase (d : Bytes) (opnd : Nat) : Nat := fieldAt d (opOff opnd + 8) 8
def opRow (d : Bytes) (opnd : Nat) : Nat := fieldAt d (opOff opnd + 0x10) 8
def opPlane (d : Bytes) (opnd : Nat) : Nat := fieldAt d (opOff opnd + 0x18) 8
def opTap (d : Bytes) (opnd : Nat) : Int := signedOf 64 (fieldAt d (opOff opnd + 0x20) 8)
def opScale (d : Bytes) (opnd : Nat) : Nat := fieldAt d (opOff opnd + 0x28) 8

/-- The accumulator mode (R184). -/
def tdLong (d : Bytes) : Option Bool :=
  match tdFmt d 0, tdFmt d 1 with
  | some a, some b => pairMode a b
  | _, _ => none

/-! ### Checks at binding -/

/-- The chain rules of R234. In the third, a K or T loop with a single tile at a level nests nothing; at OB, which has no inner
level, it asks nothing (log entry 108). -/
def chainRules (d : Bytes) : Bool :=
  let c := tdChainK d
  let lv := lvlsOut d
  let tiles (l k : Nat) : Nat := ceilDiv (outerExt d l k) (lvlExt d l k)
  lv.all (fun l => let e := lvlExt d l 2; e % c == 0 || (c % e == 0 && e % 8 == 0))
    && (!(spreads d 2) || lvlExt d (spreadLevel d) 2 % c == 0)
    && (!(spreads d 3) || tdChain d == 0 || tdDim d 2 % tdChain d == 0)
    && lv.all fun l =>
      let o := lvlOrder d l
      let nests := (List.range 5).any fun a => (List.range 5).any fun b =>
        decide (a < b) && (nth 7 o a == 2 || nth 7 o a == 3) && decide (nth 7 o b < 2)
          && decide (1 < tiles l (nth 7 o a)) && decide (1 < tiles l (nth 7 o b))
      !nests || (match innerLevel d l with | some i => lvlExt d i 2 % c == 0 | none => true)

/-- The checks of R193 for a start group of `size`; a DEPTH that R188 does not list is refused with them (log entry 109). -/
def tilingOk (d : Bytes) (size : Nat) : Bool :=
  let lv := lvlsOut d
  let zeroLvl (l : Nat) : Bool := lvlPresent d l || zeroAt d (lvlOff l) 32
  let opOk (k : Nat) : Bool := zeroAt d (opOff k + 1) 7 && decide (1 ≤ opHome d k) && decide (opHome d k ≤ 4)
    && lvlPresent d (opHome d k)
    && lv.all fun l => !(lvlStage d l k && decide (opHome d k < l))
  let lvlOk (l : Nat) : Bool :=
    !bitOf (fieldAt d (lvlOff l + 0x10) 2) 15 && fieldAt d (lvlOff l + 0x12) 1 / 8 == 0
      && (List.range 5).all (fun k => decide (((lvlOrder d l).filter (· == k)).length = 1)
          && decide (1 ≤ lvlExt d l k) && decide (lvlExt d l k ≤ tdDim d k)
          && (outerExt d l k % lvlExt d l k == 0 || outerExt d l k == tdDim d k))
      && (if l = 0 then lvlDepth d 0 == 1 && lvlBase d 0 == 0 && !lvlStage d 0 2
          else decide (1 ≤ lvlDepth d l) && decide (lvlDepth d l ≤ 2))
  (List.range 5).all (fun k => decide (1 ≤ tdDim d k)) && zeroAt d 0x1C 4 && fieldAt d 0x13 1 / 32 == 0 && lvlPresent d 0
    && tdSpread d / 2 ^ 29 == 0 && (List.range 5).all zeroLvl
    && (tdLong d).isSome && (tdFmt d 2).isSome
    && [0, 1, 2].all opOk && zeroAt d (opOff 2 + 0x20) 8 && lv.all lvlOk
    && [0, 1].all (fun k => lvlExt d 0 k % 64 == 0 || lvlExt d 0 k == tdDim d k)
    && decide (lvlExt d 0 2 ≤ 65536) && lvlExt d 0 3 == 1 && lvlExt d 0 4 == 1
    && decide (spreadLevel d ≤ 4) && lvlPresent d (spreadLevel d) && spreadCA d * spreadCB d == size
    && decide (spreadDA d ≤ 4) && (decide (spreadCB d ≤ 1) || (decide (spreadDB d ≤ 4) && spreadDA d != spreadDB d))
    && (!(spreads d 2 || spreads d 3) || (!lvlStage d 1 2 && opHome d 2 != 1))
    && chainRules d && (tdLong d != some true || decide (tdDim d 2 * tdDim d 3 ≤ 16777216))

/-! ### Addresses -/

/-- The input pixel that output row `m` reads at tap `t`: none where it is padding (R292, R293, R295). -/
def convPixel (c : Bytes) (m t : Nat) : Option Nat :=
  let b1 (o : Nat) : Nat := fieldAt c o 1
  let h2 (o : Nat) : Nat := fieldAt c o 2
  let oW := h2 0x22
  let oH := h2 0x20
  let oT := h2 0x1E
  let pos (o k s d p : Nat) : Int := (o * s : Nat) - (p : Int) + (k * d : Nat)
  let it := pos (m / oW / oH % oT) (t / (b1 0x12 * b1 0x11)) (b1 0x13) (b1 0x16) (b1 0x19)
  let iy := pos (m / oW % oH) (t / b1 0x12 % b1 0x11) (b1 0x14) (b1 0x17) (b1 0x1A)
  let ix := pos (m % oW) (t % b1 0x12) (b1 0x15) (b1 0x18) (b1 0x1B)
  let inside (v : Int) (n : Nat) : Bool := decide (0 ≤ v) && decide (v < n)
  if inside it (h2 8) && inside iy (h2 0x0A) && inside ix (h2 0x0C) then
    some (((m / oW / oH / oT * h2 8 + it.toNat) * h2 0x0A + iy.toNat) * h2 0x0C + ix.toNat)
  else none

/-- The byte address of the start of a row of an operand at group and tap (R186), or of a gathered row of A (R294); none for
a padded row. The row's first column lies at column 0. -/
def rowAddr (d conv : Bytes) (opnd g t r : Nat) : Option Nat :=
  if opnd = 0 ∧ conv ≠ [] then
    (convPixel conv r t).map fun p => opBase d 0 + (p * fieldAt conv 4 2 + g * tdDim d 2) * tdBits d 0 / 8
  else some ((opBase d opnd + g * opPlane d opnd + r * opRow d opnd : Nat) + t * opTap d opnd).toNat

/-- The scale bytes of A's row or B's column at group and tap (R187, R298); none for a padded row. -/
def scaleAddr (d conv : Bytes) (opnd g t r : Nat) : Option Nat :=
  let nb := ceilDiv (tdDim d 2) 32
  if opnd = 0 ∧ conv ≠ [] then
    (convPixel conv r t).map fun p => opScale d 0 + (p * fieldAt conv 2 2 + g) * nb
  else some (opScale d opnd + ((g * tdDim d 3 + t) * tdDim d opnd + r) * nb)

/-- A piece of the walk: origins and sizes by dimension code. -/
structure Pos where
  o : List Nat
  s : List Nat
  deriving DecidableEq, Repr

def Pos.org (p : Pos) (k : Nat) : Nat := nth 0 p.o k
def Pos.len (p : Pos) (k : Nat) : Nat := nth 0 p.s k

/-- Rows and columns of an operand by dimension code. -/
def rowDim (opnd : Nat) : Nat := if opnd = 1 then 2 else 0
def colDim (opnd : Nat) : Nat := if opnd = 0 then 2 else 1
/-- The dimensions that an operand depends on (R180). -/
def opDims (opnd : Nat) : List Nat := match opnd with | 0 => [0, 2, 3, 4] | 1 => [1, 2, 3, 4] | _ => [0, 1, 4]

/-- Bytes of the columns of a piece within its row, and their number. -/
def colBytes (d : Bytes) (opnd : Nat) (p : Pos) : Nat × Nat :=
  match tdFmt d opnd with
  | some f => (p.org (colDim opnd) * f.fmt.bits / 8, f.fmt.bytesFor (p.len (colDim opnd)))
  | none => (0, 0)

/-- The scale array rows of A by M and of B by N. -/
def scaleRowDim (opnd : Nat) : Nat := if opnd = 1 then 1 else 0

/-- The rows of an operand's piece, element rows only: address of the bytes, or none for padding, and their number. -/
def pieceRows (d conv : Bytes) (opnd : Nat) (p : Pos) : List (Option Nat × Nat) :=
  let (c, n) := colBytes d opnd p
  (span (p.org 4) (p.len 4)).flatMap fun g =>
    (if opnd = 2 then [0] else span (p.org 3) (p.len 3)).flatMap fun t =>
      (span (p.org (rowDim opnd)) (p.len (rowDim opnd))).map fun r => ((rowAddr d conv opnd g t r).map (· + c), n)

/-- The scale rows of a piece: the whole reduction of its rows or columns (R208), tap after tap. -/
def scaleRows (d conv : Bytes) (opnd : Nat) (p : Pos) : List (List (Option Nat)) :=
  (span (p.org 4) (p.len 4)).flatMap fun g =>
    (span (p.org (scaleRowDim opnd)) (p.len (scaleRowDim opnd))).map fun r =>
      (List.range (tdDim d 3)).map fun t => scaleAddr d conv opnd g t r

/-- The address ranges that an operand's level tile holds, scales included. -/
def tileRanges (d conv : Bytes) (opnd : Nat) (p : Pos) : List (Nat × Nat) :=
  let nb := ceilDiv (tdDim d 2) 32
  (pieceRows d conv opnd p).filterMap (fun r => r.1.map fun a => (a, r.2))
    ++ (if opnd < 2 ∧ tdScaled d opnd then
          (scaleRows d conv opnd p).flatMap fun r => r.filterMap fun a => a.map fun a => (a, nb)
        else [])

/-- The scale byte of a C block (the layout of R187 with C's own axis): along N, or along M with BLK_AXIS 1. -/
def cScaleAddr (d : Bytes) (colAxis : Bool) (g m n : Nat) : Nat :=
  if colAxis then opScale d 2 + (g * tdDim d 1 + n) * ceilDiv (tdDim d 0) 32 + m / 32
  else opScale d 2 + (g * tdDim d 0 + m) * ceilDiv (tdDim d 1) 32 + n / 32

/-- The whole operation as one piece. -/
def wholePos (d : Bytes) : Pos := ⟨[0, 0, 0, 0, 0], (List.range 5).map (tdDim d)⟩

/-- The blocks of the whole reduction, tap after tap as the scale arrays count them, that hold only padded positions of an output
row (R89, R295). -/
def padBlocksOf (d conv : Bytes) (m : Nat) : List Nat :=
  let nb := ceilDiv (tdDim d 2) 32
  (List.range (tdDim d 3)).flatMap fun t => if (convPixel conv m t).isNone then span (t * nb) nb else []

/-- The bytes of C's scale array, by the axis of its blocks; the least that either axis needs (R194). -/
def cScaleLen (d : Bytes) : Nat :=
  if tdScaled d 2 then
    tdDim d 4 * min (tdDim d 0 * ceilDiv (tdDim d 1) 32) (tdDim d 1 * ceilDiv (tdDim d 0) 32)
  else 0

/-- Where a level's buffer lies for a member: ST in the window of the identifier that it answers for (R188, R194, R350). -/
def lvlAddr (s : State) (l : Nat) (d : Bytes) (k : Nat) : Nat :=
  if k = 1 then strataAddr (nameOf s l) (lvlBase d 1) else lvlBase d k

/-- Every HOME region and every buffer lies in the partition's memory, and an ST buffer in the member's own window (R194). The axis
of C's scale blocks is a write-out's to say, so that each write-out checks its own scale bytes too (R151). -/
def tilingInside (s : State) (p l : Nat) (d conv : Bytes) : Bool :=
  let w : Who := .step p
  (tileRanges d conv 0 (wholePos d)).all (fun r => canRead s w r.1 r.2)
    && (tileRanges d conv 1 (wholePos d)).all (fun r => canRead s w r.1 r.2)
    && (tileRanges d conv 2 (wholePos d)).all (fun r => canWrite s w r.1 r.2)
    && canWrite s w (opScale d 2) (cScaleLen d)
    && ((lvlsOut d).filter (· != 0)).all fun k =>
      (k != 1 || decide (lvlBase d 1 + lvlCap d 1 ≤ strataSize)) && canWrite s w (lvlAddr s l d k) (lvlCap d k)

/-! ### Overflow -/

/-- The footprint of a level for given extents (R198). -/
def footprint (d : Bytes) (l : Nat) (e : Nat → Nat) : Nat :=
  let nb := ceilDiv (tdDim d 2) 32
  let sz (opnd n : Nat) : Nat := ceilDiv (n * tdBits d opnd) 8
  let part (opnd r c : Nat) : Nat :=
    if l = 0 ∨ lvlStage d l opnd then
      sz opnd (e 4 * e 3 * e r * e c) + (if tdScaled d opnd then e 4 * tdDim d 3 * e (scaleRowDim opnd) * nb else 0)
    else 0
  let c := if l ≠ 0 ∧ lvlStage d l 2 then
      let n := e 4 * e 0 * e 1
      if 1 < chainsTotal d then n * (if tdLong d = some true then 20 else 4) else sz 2 n
    else 0
  lvlDepth d l * (part 0 0 2 + part 1 2 1) + c

def obFragments (e : Nat → Nat) : Nat := ceilDiv (e 0) 64 * ceilDiv (e 1) 64

/-- The dimension named in an overflow report (R200); 7 for NONE. -/
def namedDim (d : Bytes) (l : Nat) (bad : (Nat → Nat) → Bool) : Nat :=
  let start (k : Nat) : Nat :=
    match innerLevel d l with
    | some i => lvlExt d i k
    | none => if k < 2 then min 64 (tdDim d k) else 1
  if bad start then 7
  else
    ((lvlOrder d l).reverse.foldl (fun (acc : (Nat → Nat) × Option Nat) k =>
      if acc.2.isSome then acc
      else
        let e := fun j => if j = k then lvlExt d l k else acc.1 j
        (e, if bad e then some k else none)) (start, none)).2.getD 7

/-- The first failing check of R197 and R199: TILE_OVFREC's value (R201). -/
def overflowOf (d : Bytes) : Option Nat :=
  let rec_ (need check dim l : Nat) : Nat := min 0xFFFFFFFF need * 2 ^ 32 + check * 2 ^ 8 + 0x80 + dim * 16 + l
  ((List.range 5).filter (lvlPresent d)).findSome? fun l =>
    let top := if l = 0 then 1048576 else if l = 1 then 83886080 else 2 ^ 32
    if top < lvlCap d l then some (rec_ 0 2 7 l)
    else if l = 0 ∧ 4 < obFragments (lvlExt d 0) then
      some (rec_ (obFragments (lvlExt d 0)) 1 (namedDim d 0 fun e => decide (4 < obFragments e)) l)
    else if lvlCap d l < footprint d l (lvlExt d l) then
      some (rec_ (ceilDiv (footprint d l (lvlExt d l)) 1024) 0 (namedDim d l fun e => decide (lvlCap d l < footprint d l e)) l)
    else none

/-! ### Walks -/

/-- The index vectors of a level in the order of its loops, outermost slowest. -/
def idxVecs (ord : List Nat) (cnt : Nat → Nat) : List (List (Nat × Nat)) :=
  ord.foldr (fun k acc => (List.range (cnt k)).flatMap fun i => acc.map fun v => (k, i) :: v) [[]]

def idxOf (v : List (Nat × Nat)) (k : Nat) : Nat := match v.find? (fun x => x.1 == k) with | some x => x.2 | none => 0

/-- The member of index `g` owns a tile of the spread level (R191). -/
def ownsTile (d : Bytes) (g : Nat) (v : List (Nat × Nat)) : Bool :=
  idxOf v (spreadDA d) % spreadCA d == g / spreadCB d
    && (decide (spreadCB d ≤ 1) || idxOf v (spreadDB d) % spreadCB d == g % spreadCB d)

/-- The walk of R190 through levels given outermost first: the pieces of the last. -/
def walkFrom (d : Bytes) (g : Nat) : List Nat → Pos → List Pos
  | [], p => [p]
  | l :: rest, p =>
    (idxVecs (lvlOrder d l) fun k => ceilDiv (p.len k) (lvlExt d l k)).flatMap fun v =>
      if l = spreadLevel d ∧ ownsTile d g v = false then []
      else
        let o := (List.range 5).map fun k => p.org k + idxOf v k * lvlExt d l k
        walkFrom d g rest ⟨o, (List.range 5).map fun k => min (lvlExt d l k) (p.org k + p.len k - nth 0 o k)⟩

/-- The OB positions of a member's walk. -/
def walkOf (d : Bytes) (g : Nat) : List Pos := walkFrom d g (lvlsOut d) (wholePos d)

/-- The tile of a level that holds a position. -/
def tileAtLevel (d : Bytes) (l : Nat) (at_ : Pos) : Pos :=
  ((lvlsOut d).filter (l ≤ ·)).foldl (fun p k =>
    let o := (List.range 5).map fun j => p.org j + (at_.org j - p.org j) / lvlExt d k j * lvlExt d k j
    ⟨o, (List.range 5).map fun j => min (lvlExt d k j) (p.org j + p.len j - nth 0 o j)⟩) (wholePos d)

def samePiece (opnd : Nat) (a b : Pos) : Bool := (opDims opnd).all fun k => a.org k == b.org k && a.len k == b.len k

/-- The level tiles of an operand in the order that a member's walk reads them. -/
def tileSeq (d : Bytes) (g l opnd : Nat) : List Pos :=
  ((walkOf d g).map (tileAtLevel d l)).foldl (fun acc p =>
    match acc.getLast? with
    | some q => if samePiece opnd p q then acc else acc ++ [p]
    | none => [p]) []

/-- The index in that sequence of the tile that position `n` of the walk reads. -/
def tileSeqAt (d : Bytes) (g l opnd n : Nat) : Nat :=
  (((walkOf d g).take (n + 1)).map (tileAtLevel d l)).foldl (fun (acc : Option (Pos × Nat)) p =>
    match acc with
    | some (q, i) => if samePiece opnd p q then some (q, i) else some (p, i + 1)
    | none => some (p, 0)) none |>.elim 0 (·.2)

/-- The walk record of a position (R209). NEW_A and NEW_B stand at the first position, which no other precedes (log entry 110). -/
def walkRecord (d : Bytes) (w : List Pos) (n : Nat) (last : Bool) : Bytes :=
  match w[n]? with
  | none => List.replicate 0x18 0 ++ leBytes 2 16 ++ leBytes 2 0x0101 ++ leBytes 4 n
  | some p =>
    let prev := if n = 0 then none else w[n - 1]?
    let new (opnd : Nat) : Bool := match prev with | some q => !samePiece opnd p q | none => true
    let c := tdChain d
    let k0 := p.org 2
    let k1 := p.org 2 + p.len 2
    let start := if c = 0 then k0 == 0 else k0 % c == 0
    let fin := k1 == tdDim d 2 || (c != 0 && k1 % c == 0)
    let edge (k : Nat) : Nat := p.len k - 64 * (ceilDiv (p.len k) 64 - 1)
    leBytes 4 (p.org 0) ++ leBytes 4 (p.org 1) ++ leBytes 4 k0 ++ leBytes 2 (p.org 3) ++ leBytes 2 (p.org 4)
      ++ leBytes 2 (p.len 0) ++ leBytes 2 (p.len 1) ++ leBytes 4 (p.len 2)
      ++ leBytes 2 (b2n (new 0) + b2n (new 1) * 2 + b2n start * 4 + b2n fin * 8 + b2n last * 16)
      ++ leBytes 1 (edge 0) ++ leBytes 1 (edge 1) ++ leBytes 4 n

/-! ### Staged tiles -/

/-- The levels above OB at which an operand is staged, innermost first. -/
def stageLevels (d : Bytes) (opnd : Nat) : List Nat := [1, 2, 3, 4].filter fun l => lvlStage d l opnd

/-- C at a level outside the spread, or under a spread of the reduction, is one tile for all members. -/
def sharedC (d : Bytes) (l : Nat) : Bool := decide (spreadLevel d < l) || spreads d 2 || spreads d 3

/-- The tile under which a level's C is held. -/
def stageOwner (s : State) (t : Nat) (d : Bytes) (l : Nat) : Nat :=
  if sharedC d l then (groupOf s t).headD t else t

def stagedAt (s : State) (t off l opnd : Nat) (key : List Nat) : Option Staged :=
  s.staged.find? fun x => x.tile.toNat == t && x.off == off && x.level == l && x.opnd == opnd && x.key == key

def setStaged (s : State) (t off l opnd : Nat) (key : List Nat) (b : Tbl Byte) : State :=
  { s with staged := (s.staged.filter fun x => !(x.tile.toNat == t && x.off == off && x.level == l && x.opnd == opnd
      && x.key == key)) ++ [⟨toTile t, off, l, opnd, key, b⟩] }

def dropStagedEntry (s : State) (t off l opnd : Nat) (key : List Nat) : State :=
  { s with staged := s.staged.filter fun x => !(x.tile.toNat == t && x.off == off && x.level == l && x.opnd == opnd
      && x.key == key) }

/-- The bytes of a table with zeros listed too. -/
def listBytes (t : Tbl Byte) (a : Nat) (b : Bytes) : Tbl Byte := (b.mapIdx fun i x => (a + i, x)).foldl (fun t e => Tbl.set t e.1 e.2) t

/-- Ranges read from HOME into a table of bytes by address. -/
def gatherHome (s : State) (p t : Nat) (rs : List (Nat × Nat)) : Acc × Tbl Byte × State :=
  rs.foldl (fun (acc : Acc × Tbl Byte × State) r =>
    match acc with
    | (.ok, tb, s) => match readMem s (.step p) r.1 r.2 (some t) with
      | (.ok, b, s) => (.ok, listBytes tb r.1 b, s)
      | (x, _, s) => (x, tb, s)
    | x => x) (.ok, [], s)

/-- The staged C of a member, or of every member with `none`, written to HOME (R195, R204). -/
def flushC (s : State) (p : Nat) (ts : List Nat) (off : Option Nat) : Acc × State :=
  let es := s.staged.filter fun x => x.opnd == 2 && ts.contains x.tile.toNat && (match off with | some o => x.off == o | none => true)
  match accAll es s fun s x => writeRuns s (.step p) (partPrio s p) (runsOf x.bytes) with
  | (.ok, s) => (.ok, { s with staged := s.staged.filter fun x => !es.contains x })
  | x => x

/-! ### Bindings -/

/-- What a binding attempt gives: the fault cause, or the state with the binding active. -/
inductive Bound where
  | ok (s : State)
  | fault (cause : Nat) (s : State)
  | stop (x : Acc) (s : State)

/-- The tiles under which a binding of a tile holds C. -/
def bindingOwners (s : State) (t : Nat) : List Nat :=
  match (tileAt s t).binding with
  | some b => t :: (stageLevels b.desc 2).map (stageOwner s t b.desc)
  | none => [t]

/-- A write-out of a tile's walk still waits or is held, before the command of a number (R195, R230). -/
def woutOwed (x : Tile) (num : Nat) : Bool := x.queue.any fun c => c.op == 0x24 && tiledCmd c && decide (c.num < num)

/-- A tiling descriptor bound (R195 to R197): the old walk's write-outs reach HOME, the descriptor is copied and checked; `hit` says
that the copy meets a parity error (R171, R176). -/
def bindTo (s : State) (t off : Nat) (conv : Bytes) (hit : Bool) : Bound :=
  let x := tileAt s t
  let p := tilePart s t
  match flushC s p (bindingOwners s t) (x.binding.map (·.off)) with
  | (.ok, s) =>
    let s := modTile s t fun x => { x with binding := none }
    let s := { s with staged := s.staged.filter fun e => !(e.tile.toNat == t && e.opnd != 2) }
    let d := bytesAt 0 x.smem off 336
    if hit then .fault 0x0E s
    else if tilingOk d x.groupSize = false then .fault 0x09 s
    else if tilingInside s p t d conv = false then .fault 0x0A s
    else match overflowOf d with
      | some v => .fault 0x0B (regSet s ⟨.tileOvfrec, t, 0⟩ v)
      | none => .ok (modTile s t fun x => { x with binding := some { off := off, desc := d, conv := conv } })
  | (a, s) => .stop a s

/-- The binding that the TILED transfer of a number names, bound first where it is not active, once every write-out issued before it
has completed (R195). -/
def useBinding (s : State) (t num off : Nat) (hit : Bool) : Bound :=
  let x := tileAt s t
  if x.binding.map (·.off) = some off then .ok s
  else if woutOwed x num then .stop .wait s
  else bindTo s t off [] hit

/-! ### Chains -/

/-- A partial added to a sum (R230): the sum, and the TILE_FPSTAT bits. -/
def chainAdd (long : Bool) (a b : Bytes) : Bytes × Nat :=
  if long then
    let (e, drop) := mergeLong (partialEl a) (partialEl b)
    (longPartial e, b2n drop * 0x40)
  else
    let x := BitVec.ofNat 32 (leNat a)
    let y := BitVec.ofNat 32 (leNat b)
    let r := f32Add x y
    (leBytes 4 r.toNat, opFlag [x, y] r)

/-- Held partials added while they follow on. -/
def chainDrain (long : Bool) : Nat → ChainEl → ChainEl × Nat
  | 0, e => (e, 0)
  | n + 1, e =>
    match e.held.find? (fun x => x.1 == e.next) with
    | none => (e, 0)
    | some (_, b) =>
      let (v, f) := if e.next = 0 then (b, 0) else chainAdd long e.sum b
      let (e, g) := chainDrain long n { e with next := e.next + 1, sum := v, held := e.held.filter fun x => x.1 != e.next }
      (e, f ||| g)

/-- Chain `c` of an element arrives (R230, R231). -/
def chainArrive (long : Bool) (total c : Nat) (b wcb : Bytes) (index : Nat) (e : ChainEl) : ChainEl × Nat :=
  let e := if c = 0 then { e with wcb := wcb, index := index } else e
  chainDrain long (total + 1) { e with held := (c, b) :: e.held.filter fun x => x.1 != c }

/-- The chain that a write-out delivers of an element, of the `n` chains from `c` on that its position holds (R229, R232): the first
that the element has not had; the last where it has had them all. -/
def chainIndex (e : ChainEl) (c n : Nat) : Nat :=
  ((span c n).find? fun i => decide (e.next ≤ i) && !(e.held.any fun x => x.1 == i)).getD (c + (n - 1))

/-- The combined value of an element (R97, R230). -/
def chainNum (long : Bool) (b : Bytes) : Num := if long then elNum true (partialEl b) else f32Val (BitVec.ofNat 32 (leNat b))

def chainsOf (s : State) (p : Nat) : Tbl ChainEl := Tbl.get [] s.chains p
def setChains (s : State) (p : Nat) (t : Tbl ChainEl) : State := { s with chains := Tbl.put [] s.chains p t }

end Sys2Proof.Machine
end

