-- ==== Sys2Proof/Machine/TileUnits.lean ====
section
/-! DEFINITION. The tile's units: ACLR, MMA (R77, R78, R86 to R102, R117 to R122, R148, R149, R222 to R228), VOP (R124 to
R128, R150, R924), FEXP (R123), FILL and WOUT (R206 to R217, R925), their completion, and the level stagers (R202 to R204). -/

namespace Sys2Proof.Machine
open Sys2Proof

/-- A fault found when a tile command starts (R147). -/
def cmdFault (s : State) (l : Nat) (c : TileCmd) (cause : Nat) : State := newtFault s l cause c.num true

/-! ### ACLR -/

def doAclrExecute (t : TileId) (s : State) : State :=
  let l := liveTile s t.toNat
  match nextCmd s l 0x20 with
  | none => s
  | some c =>
    let s := modTile s l fun x => { x with acc := Tbl.put {} x.acc (c.fn % 4) (clearedSet (!bitOf c.fn 2)) }
    startCmd s l c [] [] (some (c.fn % 4))

/-- ACLR_EXECUTE (R74, R923): a set cleared in LONG or F32 mode. -/
def execAclrExecute (t : TileId) (s : State) : Res := done s (doAclrExecute t s)

/-! ### MMA -/

/-- A format that a factor or an expanded operand may have (R118, R148). -/
def factFmt (c : Nat) : Option Fmt := if 1 ≤ c ∧ c ≤ 4 then (fmtCode c).map (·.fmt) else none

def mmaK (d : Bytes) : Nat := fieldAt d 4 4
def mmaFact (d : Bytes) (op : Nat) : Bool := bitOf (fieldAt d 2 1) (2 + op)
def mmaFmt (d : Bytes) (op : Nat) : Option FmtCode := fmtCode (fieldAt d op 1)
def mmaOff (d : Bytes) (op : Nat) : Nat := fieldAt d (8 + 4 * op) 4
def mmaScale (d : Bytes) (op : Nat) : Nat := fieldAt d (0x10 + 4 * op) 4
def mmaRows (d : Bytes) : Nat := fieldAt d 0x18 8
def mmaCols (d : Bytes) : Nat := fieldAt d 0x20 8
def mmaTotal (d : Bytes) : Nat := fieldAt d 0x28 4
def noScale : Nat := 0xFFFFFFFF

/-- The bytes that an operand occupies from its offset on, up to the highest active row or column (R117, R149, R223). -/
def mmaSpan (d : Bytes) (op : Nat) : Nat :=
  let k := mmaK d
  let hi (m : Nat) : Nat := if m = 0 then 0 else m.log2 + 1
  if mmaFact d op then
    let r := fieldAt d 3 1
    let sz (c : Nat) : Nat := match factFmt (fieldAt d c 1) with | some f => f.bits / 8 | none => 0
    (if op = 0 then 64 else k) * r * sz 0x2C + (if op = 0 then k else 64) * r * sz 0x2D
  else match mmaFmt d op with
    | some f => if op = 0 then hi (mmaRows d) * f.fmt.bytesFor k else (k - 1) * f.fmt.bytesFor 64 + f.fmt.bytesFor (hi (mmaCols d))
    | none => 0

/-- The checks on a matrix operation descriptor when it starts (R77, R78, R92, R117 to R119, R148, R149). -/
def mmaOk (x : Tile) (d : Bytes) : Bool :=
  let a := accAt x (fieldAt d 2 1 % 4)
  let k := mmaK d
  let hi (m : Nat) : Nat := if m = 0 then 0 else m.log2 + 1
  let nb := ceilDiv (mmaTotal d) 32
  let fa := mmaFact d 0
  let fb := mmaFact d 1
  let scaleOk (op : Nat) : Bool := match mmaFmt d op with | some f => f.scaled == (mmaScale d op != noScale) | none => false
  let factOk : Bool :=
    if fa && fb then false
    else if fa || fb then
      (factFmt (fieldAt d (if fa then 0 else 1) 1)).isSome && (factFmt (fieldAt d 0x2C 1)).isSome
        && (factFmt (fieldAt d 0x2D 1)).isSome && decide (1 ≤ fieldAt d 3 1) && decide (fieldAt d 3 1 ≤ 64)
    else fieldAt d 3 1 == 0 && fieldAt d 0x2C 1 == 0 && fieldAt d 0x2D 1 == 0
  let pairOk : Bool := match mmaFmt d 0, mmaFmt d 1 with | some f, some g => pairMode f g == some a.long | _, _ => false
  let longOk : Bool := !a.long || ((a.first == none || a.first == some (mmaTotal d, mmaScale d 0, mmaScale d 1))
    && decide (a.count + k ≤ mmaTotal d))
  let inHalf : Bool := mmaRows d == 0 || mmaCols d == 0 ||
    (decide (mmaOff d 0 + mmaSpan d 0 ≤ halfSize) && decide (mmaOff d 1 + mmaSpan d 1 ≤ halfSize)
      && (mmaScale d 0 == noScale || decide (mmaScale d 0 + hi (mmaRows d) * nb ≤ halfSize))
      && (mmaScale d 1 == noScale || decide (mmaScale d 1 + hi (mmaCols d) * nb ≤ halfSize)))
  fieldAt d 2 1 / 16 == 0 && zeroAt d 0x2E 2 && decide (1 ≤ k) && decide (k ≤ 65536) && decide (mmaTotal d ≤ 16777216)
    && factOk && pairOk && scaleOk 0 && scaleOk 1 && longOk && inHalf

/-- One expanded element of a factored operand (R120): row `i` of U, row `j` of V; with the TILE_FPSTAT bits of its operations
(R129). The rounding to the declared format is no write-out and raises neither SAT nor OVF_INF (log entry 106). -/
def expandEl (x : Tile) (uf vf f : Fmt) (ua va r i j : Nat) : Nat × Nat :=
  let acc := (List.range r).foldl (fun (acc : W32 × Nat) c =>
    let u := f32Of (uf.decode (tblElem x.ob uf ua (i * r + c)))
    let v := f32Of (vf.decode (tblElem x.ob vf va (j * r + c)))
    let w := f32Fma u v acc.1
    (w, acc.2 ||| opFlag [u, v, acc.1] w)) (f32Zero, 0)
  ((f.encode false .rne (f32Val acc.1)).1, acc.2)

/-- Element (row, k) of A, or (k, column) of B, as `n` and `k` name it, expanded from its factors: U, then V. -/
def mmaExpand (x : Tile) (half : Nat) (d : Bytes) (op n k : Nat) : Nat × Nat :=
  let base := obAddr half (mmaOff d op)
  let f := (factFmt (fieldAt d op 1)).getD .bf16
  let uf := (factFmt (fieldAt d 0x2C 1)).getD .bf16
  let vf := (factFmt (fieldAt d 0x2D 1)).getD .bf16
  let r := fieldAt d 3 1
  let first := if op = 0 then 64 else mmaK d
  let va := base + first * r * (uf.bits / 8)
  expandEl x uf vf f base va r (if op = 0 then n else k) (if op = 0 then k else n)

/-- The TILE_FPSTAT bits of the expansion of the elements that a product uses (R129); none for an operand that is no product of
factors. -/
def mmaExpandFlags (x : Tile) (half : Nat) (d : Bytes) (i j k : Nat) : Nat :=
  (if mmaFact d 0 then (mmaExpand x half d 0 i k).2 else 0) ||| (if mmaFact d 1 then (mmaExpand x half d 1 j k).2 else 0)

/-- Element (row, k) of A, or (k, column) of B, as `n` and `k` name it, from the read half: A as 64 rows of K, B as K rows of
64, factors U then V. -/
def mmaEl (x : Tile) (half : Nat) (d : Bytes) (op n k : Nat) : Num :=
  let base := obAddr half (mmaOff d op)
  match mmaFmt d op with
  | none => .nan
  | some f =>
    if mmaFact d op then f.fmt.decode (mmaExpand x half d op n k).1
    else if op = 0 then f.fmt.decode (tblElem x.ob f.fmt (base + n * f.fmt.bytesFor (mmaK d)) k)
    else f.fmt.decode (tblElem x.ob f.fmt (base + k * f.fmt.bytesFor 64) n)

/-- Element (row, k) of A stands for a padded position, whose product is +0 in F32 mode (R295). -/
def mmaPadded (x : Tile) (half : Nat) (d : Bytes) (n k : Nat) : Bool :=
  match mmaFmt d 0 with
  | none => false
  | some f => !mmaFact d 0 && Tbl.get false x.padded (obAddr half (mmaOff d 0) + n * f.fmt.bytesFor (mmaK d) + k * f.fmt.bits / 8)

/-- The SE8 code of block `b` of a row or column; 127 for an operand without block scaling (R87). The second part says that
the block stands for padded positions (R295): of A, by the mark on its scale byte, or by its row's padded blocks where it has no
scales. -/
def mmaSe8 (x : Tile) (half : Nat) (d : Bytes) (op n b : Nat) : Nat × Bool :=
  if mmaScale d op = noScale then
    (127, match op, mmaFmt d 0 with
      | 0, some f => !mmaFact d 0 && (Tbl.get [] x.padBlocks (obAddr half (mmaOff d 0) + n * f.fmt.bytesFor (mmaK d))).contains b
      | _, _ => false)
  else
    let a := obAddr half (mmaScale d op) + n * ceilDiv (mmaTotal d) 32 + b
    ((Tbl.get 0 x.ob a).toNat, Tbl.get false x.padded a)

/-- The anchor of an element over the whole reduction (R89, R90). -/
def mmaAnchor (x : Tile) (half : Nat) (d : Bytes) (i j : Nat) : Int :=
  if mmaScale d 0 = noScale ∧ mmaScale d 1 = noScale then 0
  else (List.range (ceilDiv (mmaTotal d) 32)).foldl (fun a b =>
    let p := mmaSe8 x half d 0 i b
    let q := mmaSe8 x half d 1 j b
    if p.1 = 255 ∨ q.1 = 255 ∨ p.2 then a else max a ((p.1 : Int) + q.1 - 254)) (-254)

/-- A product entered into a LONG element at a position of the set's count (R91, R95, R96), with TILE_FPSTAT bits. -/
def longStep (e : AccEl) (pos sa sb : Nat) (a b : Num) : AccEl × Nat :=
  let blk := pos / 32
  let (e, drop) := if e.openBlk = blk then (e, false) else closeBlock e
  let e := { e with openBlk := blk }
  let f := b2n drop * 0x40
  if sa = 255 ∨ sb = 255 then ({ e with nan := true }, f ||| 1)
  else match a.mul b with
    | .nan => ({ e with nan := true }, f ||| (if a.isNan || b.isNan then 1 else 2))
    | .inf false => ({ e with pinf := true }, f)
    | .inf true => ({ e with ninf := true }, f)
    | p => ({ e with openSum := e.openSum + p.units (-32) * 2 ^ (sa + sb) }, f)

/-- A product entered into an F32 element (R100, R101, R227). -/
def f32Step (e : AccEl) (pos : Nat) (a b : Num) : AccEl × Nat :=
  let g := pos / 8
  let (e, fg) := if e.kids.isEmpty || e.group == g then (e, 0) else closeGroup e
  let p := f32Of (a.mul b)
  let f := if a.isNan || b.isNan then 1 else if (f32Val p).isNan then 2 else 0
  ({ e with group := g, kids := e.kids ++ [(pos % 8, p)] }, fg ||| f)

/-- One active element's part of an MMA. -/
def mmaElement (x : Tile) (half : Nat) (d : Bytes) (a : AccSet) (i j : Nat) : AccEl × Nat :=
  let k := mmaK d
  let e := accEl a i j
  let stop := a.count + k
  if a.long then
    let e := if e.anchored then e else { e with anchor := mmaAnchor x half d i j, anchored := true }
    let (e, f) := (List.range k).foldl (fun (acc : AccEl × Nat) kk =>
      let b := (a.count + kk) / 32
      let (e, f) := longStep acc.1 (a.count + kk) (mmaSe8 x half d 0 i b).1 (mmaSe8 x half d 1 j b).1
        (mmaEl x half d 0 i kk) (mmaEl x half d 1 j kk)
      (e, acc.2 ||| f ||| mmaExpandFlags x half d i j kk)) (e, 0)
    if e.openBlk < stop / 32 ∨ stop = mmaTotal d then
      let (e, drop) := closeBlock e
      (e, f ||| b2n drop * 0x40)
    else (e, f)
  else
    let (e, f) := (List.range k).foldl (fun (acc : AccEl × Nat) kk =>
      let (e, f) := if mmaPadded x half d i kk then f32Step acc.1 (a.count + kk) Num.zero Num.zero
        else f32Step acc.1 (a.count + kk) (mmaEl x half d 0 i kk) (mmaEl x half d 1 j kk)
      (e, acc.2 ||| f ||| mmaExpandFlags x half d i j kk)) (e, 0)
    if !e.kids.isEmpty && decide (e.group < stop / 8) then
      let (e, fg) := closeGroup e
      (e, f ||| fg)
    else (e, f)

/-- The set after an MMA, with TILE_FPSTAT bits (R222 to R226, R923). -/
def mmaSet (x : Tile) (half : Nat) (d : Bytes) (a : AccSet) : AccSet × Nat :=
  let a := { a with first := if a.first.isSome then a.first else some (mmaTotal d, mmaScale d 0, mmaScale d 1) }
  let r := (bitSet 64 (mmaRows d)).foldl (fun (acc : Tbl AccEl × Nat) i =>
    (bitSet 64 (mmaCols d)).foldl (fun acc j =>
      let (e, f) := mmaElement x half d a i j
      (Tbl.set acc.1 (64 * i + j) e, acc.2 ||| f)) acc) (a.elems, 0)
  ({ a with elems := r.1, count := a.count + mmaK d }, r.2)

def doMmaExecute (t : TileId) (s : State) : State :=
  let l := liveTile s t.toNat
  match nextCmd s l 0x21 with
  | none => s
  | some c =>
    let x := tileAt s l
    if mmaOk x c.desc = false then cmdFault s l c 0x09
    else
      let n := fieldAt c.desc 2 1 % 4
      let (a, f) := mmaSet x c.half c.desc (accAt x n)
      let s := setFp (modTile s l fun x => { x with acc := Tbl.put {} x.acc n a }) l f
      startCmd s l c [] [] (some n)

/-- MMA_EXECUTE (R148, R149, R222 to R228). -/
def execMmaExecute (t : TileId) (s : State) : Res := done s (doMmaExecute t s)

/-! ### The vector unit -/

/-- LSE_MERGE with the bits of each of its operations (R128). -/
def lseMergeFlags (m1 s1 m2 s2 : W32) : (W32 × W32) × Nat :=
  let m := f32Max m1 m2
  let f0 := opFlag [m1, m2] m
  if m = f32NegInf then ((f32NegInf, f32Zero), f0)
  else
    let d1 := f32Sub m1 m
    let d2 := f32Sub m2 m
    let e1 := f32Exp d1
    let e2 := f32Exp d2
    let t := f32Mul s2 e2
    let r := f32Fma s1 e1 t
    ((m, r), f0 ||| opFlag [m1, m] d1 ||| opFlag [m2, m] d2 ||| opFlag [d1] e1 ||| opFlag [d2] e2 ||| opFlag [s2, e2] t
      ||| opFlag [s1, e1, t] r)

/-- One element of a vector operation but LSE_MERGE (R125 to R127, R150): the result's bits, and TILE_FPSTAT bits. -/
def vopOne (fn : Nat) (a b c : W32) : W32 × Nat :=
  let one (r : W32) : W32 × Nat := (r, opFlag [a] r)
  let two (r : W32) : W32 × Nat := (r, opFlag [a, b] r)
  match fn with
  | 0x01 => two (f32Add a b)
  | 0x02 => two (f32Sub a b)
  | 0x03 => two (f32Mul a b)
  | 0x04 => (f32Fma a b c, opFlag [a, b, c] (f32Fma a b c))
  | 0x05 => two (f32Min a b)
  | 0x06 => two (f32Max a b)
  | 0x07 => two (f32Cmp a b)
  | 0x08 => (f32ToI32 a, b2n (f32Val a).isNan)
  | 0x09 => one (f32Rcp a)
  | 0x0A => one (f32Sqrt a)
  | 0x0B => one (f32Rsqrt a)
  | 0x0C => two (f32Div a b)
  | 0x0D => one (f32Exp a)
  | 0x0E => one (f32Exp2 a)
  | 0x0F => one (f32Log a)
  | 0x10 => one (f32Log2 a)
  | _ => (i32ToF32 a, 0)

/-- Element `k` of a source (R924), with TILE_FPSTAT bits. The expansion source reads what the expansion unit holds: with no FEXP
issued before the VOP, what an earlier program left there, or zeros (log entry 107). -/
def vopValue (x : Tile) (src : Nat × Nat) (k : Nat) : W32 × Nat :=
  match src.1 with
  | 0 => (BitVec.ofNat 32 (leNat (bytesAt 0 x.ob (src.2 + 4 * k) 4)), 0)
  | 1 =>
    let a := accAt x src.2
    let (e, f) := readEl a.long (accEl a (k / 64) (k % 64))
    (f32Of (elNum a.long e), f)
  | _ =>
    match fmtCode x.factor.fmt with
    | some f => (f32Of (f.fmt.decode (nth 0 x.factor.elems k)), 0)
    | none => (f32Zero, 0)

/-- The checks on a vector operation when it starts (R105, R150, R924). -/
def vopOk (c : TileCmd) : Bool :=
  let d := c.desc
  match vopArity c.fn with
  | none => false
  | some ar =>
    let n := vopCount c.fn d
    let srcOk (k : Nat) : Bool :=
      let src := vopSrc d k
      match src.1 with
      | 0 => src.2 % 4 == 0 && decide (src.2 + 4 * n ≤ 2 * halfSize)
      | 1 => decide (src.2 ≤ 3) && decide (n ≤ 4096)
      | 2 => decide (n ≤ 4096)
      | _ => false
    decide (1 ≤ fieldAt d 0x10 4) && decide (fieldAt d 0x10 4 ≤ 262144) && zeroAt d 0x18 8 && wcbOk c.wcb none
      && (List.range ar).all srcOk && fieldAt d 0x0C 4 % 4 == 0
      && decide (fieldAt d 0x0C 4 + vopDstBytes c.fn c.wcb n ≤ 2 * halfSize)

/-- The results of a vector operation in order, with TILE_FPSTAT bits. -/
def vopResults (x : Tile) (c : TileCmd) : List W32 × Nat :=
  let src (k : Nat) : Nat × Nat := vopSrc c.desc k
  let n := fieldAt c.desc 0x10 4
  let ar := (vopArity c.fn).getD 0
  let v (k i : Nat) : W32 × Nat := if k < ar then vopValue x (src k) i else (0, 0)
  if c.fn = 0x11 then
    (List.range n).foldl (fun (acc : List W32 × Nat) i =>
      let (p, q, r, t) := (v 0 (2 * i), v 0 (2 * i + 1), v 1 (2 * i), v 1 (2 * i + 1))
      let (o, f) := lseMergeFlags p.1 q.1 r.1 t.1
      (acc.1 ++ [o.1, o.2], acc.2 ||| p.2 ||| q.2 ||| r.2 ||| t.2 ||| f)) ([], 0)
  else
    (List.range n).foldl (fun (acc : List W32 × Nat) i =>
      let (p, q, r) := (v 0 i, v 1 i, v 2 i)
      let (o, f) := vopOne c.fn p.1 q.1 r.1
      (acc.1 ++ [o], acc.2 ||| p.2 ||| q.2 ||| r.2 ||| f)) ([], 0)

def doVopExecute (t : TileId) (s : State) : State :=
  let l := liveTile s t.toNat
  match nextCmd s l 0x25 with
  | none => s
  | some c =>
    let x := tileAt s l
    if vopOk c = false then cmdFault s l c 0x09
    else
      let (rs, f) := vopResults x c
      let dst := fieldAt c.desc 0x0C 4
      let wrote := [(dst, vopDstBytes c.fn c.wcb rs.length)]
      match fmtCode (fieldAt c.wcb 0 1) with
      | none => cmdFault s l c 0x09
      | some fm =>
        if c.fn = 0x08 then
          startCmd (setFp (modTile s l fun x => obPut x dst (rs.flatMap fun w => leBytes 4 w.toNat)) l f) l c [] wrote none
        else
          let es := rs.mapIdx fun i w => ((i / 64, i % 64), f32Val w, wcbRnd c.wcb (wcbIndex c.wcb (i / 64) (i % 64)))
          let o := convert fm c.wcb false es
          let bits := o.elems.map (·.2)
          let n := fm.fmt.packedBytes rs.length
          let s := modTile s l fun x => obPut x dst ((fm.fmt.packAll bits).take n)
          let s := forEach o.scales s fun s k => modTile s l fun x => obPut x (dst + n + 2 * k.1.1 + k.1.2) [BitVec.ofNat 8 k.2]
          startCmd (setFp s l (f ||| o.flags)) l c [] wrote none

/-- VOP_EXECUTE (R124 to R128, R150, R924). -/
def execVopExecute (t : TileId) (s : State) : Res := done s (doVopExecute t s)

/-! ### Factor expansion -/

/-- FEXP reads the factor fields of a descriptor of R148 (log entry 21): exactly one factor bit, formats, rank and offset of a
fragment of 64 by 64. -/
def fexpOk (d : Bytes) : Bool :=
  let op := if mmaFact d 0 then 0 else 1
  let sz (c : Nat) : Nat := match factFmt (fieldAt d c 1) with | some f => f.bits / 8 | none => 0
  let r := fieldAt d 3 1
  mmaFact d 0 != mmaFact d 1 && (factFmt (fieldAt d op 1)).isSome && (factFmt (fieldAt d 0x2C 1)).isSome
    && (factFmt (fieldAt d 0x2D 1)).isSome && decide (1 ≤ r) && decide (r ≤ 64)
    && decide (mmaOff d op + 64 * r * (sz 0x2C + sz 0x2D) ≤ halfSize)

def doFexpExecute (t : TileId) (s : State) : State :=
  let l := liveTile s t.toNat
  match nextCmd s l 0x26 with
  | none => s
  | some c =>
    let x := tileAt s l
    let d := c.desc
    if fexpOk d = false then cmdFault s l c 0x09
    else
      let op := if mmaFact d 0 then 0 else 1
      let uf := (factFmt (fieldAt d 0x2C 1)).getD .bf16
      let vf := (factFmt (fieldAt d 0x2D 1)).getD .bf16
      let f := (factFmt (fieldAt d op 1)).getD .bf16
      let r := fieldAt d 3 1
      let ua := obAddr c.half (mmaOff d op)
      let va := ua + 64 * r * (uf.bits / 8)
      let els := (List.range 4096).map fun i => expandEl x uf vf f ua va r (i / 64) (i % 64)
      let s := setFp s l (els.foldl (fun f e => f ||| e.2) 0)
      startCmd (modTile s l fun x => { x with factor := ⟨fieldAt d op 1, els.map (·.1)⟩ }) l c [] [] none true

/-- FEXP_EXECUTE (R120, R123): a factored fragment expanded for the vector unit. -/
def execFexpExecute (t : TileId) (s : State) : Res := done s (doFexpExecute t s)

/-! ### FILL -/

/-- A DIRECT transfer descriptor keeps R206. -/
def directOk (d : Bytes) : Bool :=
  fieldAt d 0 1 == 0 && fieldAt d 1 1 == 0 && zeroAt d 2 2 && zeroAt d 0x2C 4
    && decide (1 ≤ fieldAt d 0x10 4) && decide (fieldAt d 0x10 4 ≤ 1048576) && decide (1 ≤ fieldAt d 0x14 4)

def dirAddrs (d : Bytes) : List Nat := (List.range (fieldAt d 0x14 4)).map fun r => fieldAt d 8 8 + r * fieldAt d 0x18 8

/-- Rows read one after another. -/
def readRows (s : State) (p l : Nat) (as : List Nat) (n : Nat) : Acc × Bytes × State :=
  as.foldl (fun (acc : Acc × Bytes × State) a =>
    match acc with
    | (.ok, b, s) => match readMem s (.step p) a n (some l) with
      | (.ok, c, s) => (.ok, b ++ c, s)
      | (x, _, s) => (x, b, s)
    | x => x) (.ok, [], s)

/-- Rows put into the half at OB_OFF with OB_STRIDE. -/
def putRows (x : Tile) (half : Nat) (d : Bytes) (n : Nat) (b : Bytes) : Tile :=
  (List.range (b.length / max 1 n)).foldl (fun x r =>
    obPut x (obAddr half (fieldAt d 4 4 + r * fieldAt d 0x28 4)) ((b.drop (r * n)).take n)) x

/-- The members of a multicast set, live, on a die, that still run a program (R213, R216). -/
def holdMembers (s : State) (ids : List Nat) (d l : Nat) : List TileId :=
  ((ids.map (liveTile s)).eraseDups.filter fun t => tileDie t == d && t != l && inStep (tileAt s t).st).map toTile

def fillDirect (s : State) (l : Nat) (c : TileCmd) : State :=
  let d := c.xfer
  let p := tilePart s l
  let n := fieldAt d 0x10 4
  let rows := fieldAt d 0x14 4
  if directOk d = false ∨ halfSize < fieldAt d 4 4 + (rows - 1) * fieldAt d 0x28 4 + n then cmdFault s l c 0x09
  else
    match mcastIds (fieldAt d 0x20 8) c.bitmap with
    | none => cmdFault s l c 0x09
    | some ids =>
      let named := ids.getD []
      if named.any (fun t => !(partTiles s p).contains t) ∨ (dirAddrs d).any (fun a => !canRead s (.step p) a n) then
        cmdFault s l c 0x0A
      else
        let mine := (named.map (liveTile s)).contains l
        let key := (d.drop 8).take 0x20
        let fin (s : State) (b : Bytes) : State :=
          startCmd (modTile s l fun x => putRows x c.half d n b) l c []
            ((List.range rows).map fun r => (obAddr c.half (fieldAt d 4 4 + r * fieldAt d 0x28 4), n)) none
        let held := if mine then (Tbl.get [] s.holds (tileDie l)).find? fun h => h.key == key && h.left.contains (toTile l) else none
        match held with
        | some h =>
          let took (k : HoldEntry) : HoldEntry := if k = h then { k with left := k.left.filter fun t => t != toTile l } else k
          let rest := ((Tbl.get [] s.holds (tileDie l)).map took).filter fun k => !k.left.isEmpty
          let s := { s with holds := Tbl.put [] s.holds (tileDie l) rest }
          fin s h.data
        | none =>
          match readRows s p l (dirAddrs d) n with
          | (.ok, b, s) =>
            let s := if !mine ∨ 1048576 < holdUsed s (tileDie l) + b.length then s
              else forEach (List.range 8) s fun s die =>
                let ms := holdMembers s named die l
                if ms.isEmpty ∨ 1048576 < holdUsed s die + b.length then s
                else { s with holds := Tbl.upd [] s.holds die fun hs => hs ++ [⟨key, b, ms⟩] }
            fin s b
          | (a, _, s) => if a = .bounds then cmdFault s l c 0x0A else accStop s p a

/-- A TILED transfer descriptor keeps R206; one that names a multicast set is refused too (log entry 111). -/
def tiledOk (d : Bytes) : Bool :=
  fieldAt d 0 1 == 1 && zeroAt d 2 2 && decide (fieldAt d 8 8 < 32768) && zeroAt d 0x14 4 && zeroAt d 0x18 8
    && zeroAt d 0x20 8 && zeroAt d 0x2C 4

/-- What a binding attempt leaves, as a fault of the command, a stop of the step, or the state to go on with. -/
def withBinding (s : State) (l : Nat) (c : TileCmd) (hit : Bool) (k : State → Binding → State) : State :=
  match useBinding s l c.num (fieldAt c.xfer 8 8) hit with
  | .fault cause s => cmdFault s l c cause
  | .stop a s => accStop s (tilePart s l) a
  | .ok s => match (tileAt s l).binding with
    | some b => k s b
    | none => s

/-- Staged tiles that the walk has left behind are given up (R203). -/
def dropRead (s : State) (l : Nat) (b : Binding) (g n : Nat) : State :=
  { s with staged := s.staged.filter fun e =>
      !(e.tile.toNat == l && e.off == b.off && e.opnd != 2 && decide (e.key.headD 0 < tileSeqAt b.desc g e.level e.opnd n)) }

/-- ADVANCE (R207, R209). -/
def fillAdvance (s : State) (l : Nat) (c : TileCmd) (b : Binding) : State :=
  let g := (tileAt s l).index
  let w := walkOf b.desc g
  let n := match b.pos with | none => 0 | some n => if n + 1 < w.length then n + 1 else n
  let last := match b.pos with | none => w.isEmpty | some n => decide (w.length ≤ n + 1)
  let rec_ := walkRecord b.desc w n last
  let s := modTile s l fun x =>
    { x with smem := putBytes 0 x.smem (fieldAt c.xfer 0x10 4) rec_, binding := some { b with pos := some n } }
  startCmd (dropRead s l b g n) l c [] [] none

/-- The bytes of a row from the innermost staged copy, or from HOME. -/
def rowBytes (s : State) (p l : Nat) (stage : Option (Tbl Byte)) (a n : Nat) : Acc × Bytes × State :=
  match stage with
  | some t => (.ok, bytesAt 0 t a n, s)
  | none => readMem s (.step p) a n (some l)

/-- The padded blocks of an unscaled A's rows, noted with the first byte of each row that a piece puts into the half (R89, R295). -/
def notePads (s : State) (l half base stride : Nat) (b : Binding) (pos : Pos) : State :=
  modTile s l fun x =>
    { x with padBlocks := ((span (pos.org 0) (pos.len 0)).zipIdx).foldl (fun t r =>
        Tbl.put [] t (obAddr half (base + r.2 * stride)) (padBlocksOf b.desc b.conv r.1)) x.padBlocks }

/-- A piece put into the half (R208): rows as chunks, each an address or padding of a length; a padded scale chunk reads as
code 127, and padding is marked (R295). -/
def fillPiece (s : State) (l : Nat) (c : TileCmd) (b : Binding) (opnd : Nat) (pos : Pos) (scale : Bool) : State :=
  let p := tilePart s l
  let d := b.desc
  let nb := ceilDiv (tdDim d 2) 32
  let rows : List (List (Option Nat × Nat)) :=
    if scale then (scaleRows d b.conv opnd pos).map fun r => r.map fun a => (a, nb)
    else (pieceRows d b.conv opnd pos).map fun r => [r]
  let width := match rows with | r :: _ => sumN (r.map (·.2)) | [] => 0
  let base := fieldAt c.xfer 4 4
  let stride := fieldAt c.xfer 0x28 4
  if halfSize < base + (rows.length - 1) * stride + width then cmdFault s l c 0x09
  else
    let n := match b.pos with | some n => n | none => 0
    let lv := (stageLevels d opnd).head?
    let staged := lv.map fun k => stagedAt s l b.off k opnd [tileSeqAt d (tileAt s l).index k opnd n]
    match staged with
    | some none => s
    | _ =>
      let src : Option (Tbl Byte) := match staged with | some (some e) => some e.bytes | _ => none
      let r := rows.foldl (fun (acc : Acc × Nat × State) row =>
        let (x, _, s) := row.foldl (fun (acc : Acc × Nat × State) ch =>
          match acc with
          | (.ok, a, s) =>
            match ch.1 with
            | none =>
              let fillv : Byte := if scale then 0x7F else 0
              let s := modTile s l fun x =>
                let x := obPut x a (List.replicate ch.2 fillv)
                { x with padded := (span a ch.2).foldl (fun t i => Tbl.put false t i true) x.padded }
              (.ok, a + ch.2, s)
            | some ad =>
              match rowBytes s p l src ad ch.2 with
              | (.ok, bs, s) => (.ok, a + ch.2, modTile s l fun x => obPut x a bs)
              | (y, _, s) => (y, a, s)
          | y => y) (acc.1, obAddr c.half (base + acc.2.1 * stride), acc.2.2)
        (x, acc.2.1 + 1, s)) (.ok, 0, s)
      match r with
      | (.ok, _, s) =>
        let s := if opnd = 0 ∧ scale = false ∧ b.conv ≠ [] ∧ tdScaled d 0 = false then notePads s l c.half base stride b pos else s
        startCmd s l c [] ((List.range rows.length).map fun i => (obAddr c.half (base + i * stride), width)) none
      | (.bounds, _, s) => cmdFault s l c 0x0A
      | (a, _, s) => accStop s p a

/-- A TILED FILL (R206 to R209); one of the scales of an operand that has none is refused (log entry 112). -/
def fillTiled (s : State) (l : Nat) (c : TileCmd) (hit : Bool) : State :=
  let k := fieldAt c.xfer 1 1
  if tiledOk c.xfer = false ∨ ¬ (k ≤ 3 ∨ k = 0x0F) then cmdFault s l c 0x09
  else withBinding s l c hit fun s b =>
    if k = 0x0F then fillAdvance s l c b
    else
      let opnd := k % 2
      match b.pos.bind fun n => (walkOf b.desc (tileAt s l).index)[n]? with
      | none => cmdFault s l c 0x09
      | some pos =>
        if 2 ≤ k ∧ tdScaled b.desc opnd = false then cmdFault s l c 0x09
        else fillPiece s l c b opnd pos (decide (2 ≤ k))

def doFillExecute (t : TileId) (hit : Bool) (s : State) : State :=
  let l := liveTile s t.toNat
  match nextCmd s l 0x22 with
  | none => s
  | some c => if fieldAt c.xfer 0 1 = 1 then fillTiled s l c hit else fillDirect s l c

/-- FILL_EXECUTE (R206 to R208, R212 to R216, R925). -/
def execFillExecute (t : TransferStart) (s : State) : Res := done s (doFillExecute t.tile t.hit s)

/-! ### WOUT -/

/-- The stored elements of a set's fragment with their values, in row-major order (R225). -/
def fragElems (a : AccSet) (act : Nat → Nat → Bool) : List ((Nat × Nat) × AccEl × Nat) :=
  (List.range 64).flatMap fun i => (List.range 64).filterMap fun j =>
    if act i j then
      let (e, f) := readEl a.long (accEl a i j)
      some ((i, j), e, f)
    else none

def maskAct (c : TileCmd) (i j : Nat) : Bool := c.rowMask.getLsbD i && c.colMask.getLsbD j

/-- What stands at an address of device memory, for the bits that a sub-byte store leaves alone. -/
def rawByte (s : State) (a : Nat) : Byte :=
  match strataPhys s a 1 with
  | some (_, l, off) => Tbl.get 0 s.mem (strataAddr l off)
  | none => memByte s a

/-- The converted elements of a fragment in a format of R104, the long partial included. -/
def fragConvert (a : AccSet) (w : Bytes) (es : List ((Nat × Nat) × AccEl × Nat)) (index : Nat → Nat → Nat) : FragOut × Nat :=
  match fmtCode (fieldAt w 0 1) with
  | some f =>
    (convert f w (bitOf (fieldAt w 1 1) 3) (es.map fun e => (e.1, elNum a.long e.2.1, wcbRnd w (index e.1.1 e.1.2))), f.fmt.bits)
  | none => ({ elems := es.map fun e => (e.1, leNat (longPartial e.2.1)) }, 160)

def woutDirect (s : State) (l : Nat) (c : TileCmd) : State :=
  let d := c.xfer
  let p := tilePart s l
  let a := accAt (tileAt s l) (c.fn % 4)
  let w := c.wcb
  let addr := fieldAt d 8 8
  let stride := fieldAt d 0x18 8
  let n := fieldAt d 0x10 4
  let rows := fieldAt d 0x14 4
  let bits := match fmtCode (fieldAt w 0 1) with | some f => f.fmt.bits | none => 160
  let scaled := match fmtCode (fieldAt w 0 1) with | some f => f.scaled | none => false
  let col := bitOf (fieldAt w 1 1) 3
  if directOk d = false ∨ ¬ zeroAt d 4 4 ∨ ¬ zeroAt d 0x28 4 ∨ wcbOk w (some a.long) = false ∨ 64 < rows ∨ 8 * bits < n then
    cmdFault s l c 0x09
  else
    match mcastIds (fieldAt d 0x20 8) c.bitmap with
    | none => cmdFault s l c 0x09
    | some ids =>
      let loc := strataLoc addr
      if ids.isSome ∧ loc.isNone then cmdFault s l c 0x09
      else
        let named := ids.getD []
        let bases : List Nat := if ids.isSome then named.map fun t => strataAddr t (loc.getD (0, 0)).2 else [addr]
        let slen := if !scaled then 0 else if col then 64 * ceilDiv rows 32 else 2 * rows
        let ok (b : Nat) : Bool := (List.range rows).all (fun i => canWrite s (.step p) (b + i * stride) n)
          && canWrite s (.step p) (b + rows * stride) slen
        if named.any (fun t => !(partTiles s p).contains t) ∨ bases.any (fun b => !ok b) then cmdFault s l c 0x0A
        else
          let es := fragElems a fun i j => maskAct c i j && decide (i < rows) && decide (j * bits < 8 * n)
          let (o, _) := fragConvert a w es (wcbIndex w)
          let fl := es.foldl (fun f e => f ||| e.2.2) o.flags
          let lay (b : Nat) : List (Nat × Bytes) :=
            runsOf (layBits (rawByte s) (o.elems.map fun e =>
              ((b + e.1.1 * stride) * 8 + e.1.2 * bits, min bits (8 * n - e.1.2 * bits), e.2)))
            ++ o.scales.map fun k =>
              (b + rows * stride + (if col then 64 * k.1.2 + k.1.1 else 2 * k.1.1 + k.1.2), [BitVec.ofNat 8 k.2])
          match writeRuns s (.step p) (partPrio s p) (bases.flatMap lay) with
          | (.ok, s) => startCmd (setFp s l fl) l c ((bases.flatMap lay).map fun r => (r.1, r.2.length)) [] none
          | (.bounds, s) => cmdFault s l c 0x0A
          | (x, s) => accStop s p x

/-- A level's buffer takes a layout that the specification does not state (R188, R202; log entry 28). -/
def fillBuffer (s : State) (p l : Nat) (d : Bytes) (lv : Nat) : Acc × State :=
  let (k, s) := takeFree s
  writeMem s (.step p) (lvlAddr s l d lv) (freeBytes k (lvlCap d lv)) (partPrio s p)

/-- Bytes of a C tile entered into the staged copy of a level, whose buffer is taken with its first bytes (R202, R204). -/
def stageC (s : State) (p t : Nat) (b : Binding) (lv : Nat) (q : Pos) (put : Tbl Byte → Tbl Byte) : Acc × State :=
  let key := [q.org 0, q.org 1, q.org 4]
  match stagedAt s t b.off lv 2 key with
  | some e => (.ok, setStaged s t b.off lv 2 key (put e.bytes))
  | none => match fillBuffer s p t b.desc lv with
    | (.ok, s) => (.ok, setStaged s t b.off lv 2 key (put []))
    | x => x

/-- Bytes of C stored: into the innermost staged copy, or at HOME (R204); nothing where one of them lies outside the partition's
memory (R151). With them the ranges written at HOME. -/
def storeC (s : State) (p l : Nat) (b : Binding) (pos : Pos) (els : List (Nat × Nat × Nat)) (scales : List (Nat × Nat)) :
    Acc × List (Nat × Nat) × State :=
  let d := b.desc
  let scs : List (Nat × Bytes) := scales.map fun k => (k.1, [BitVec.ofNat 8 k.2])
  let home := runsOf (layBits (rawByte s) els) ++ scs
  if home.isEmpty then (.ok, [], s)
  else if !(home.all fun r => canWrite s (.step p) r.1 r.2.length) then (.bounds, [], s)
  else match (stageLevels d 2).head? with
    | none =>
      let (a, s) := writeRuns s (.step p) (partPrio s p) home
      (a, home.map fun r => (r.1, r.2.length), s)
    | some lv =>
      let (a, s1) := stageC s p (stageOwner s l d lv) b lv (tileAtLevel d lv pos) fun cur =>
        let old (a : Nat) : Byte := match cur.find? (fun x => x.1 == a) with | some x => x.2 | none => rawByte s a
        let new := (layBits old els).foldl (fun tb e => Tbl.set tb e.1 e.2) cur
        scs.foldl (fun tb k => listBytes tb k.1 k.2) new
      (a, [], s1)

/-- Where the places of a fragment's elements and blocks of C lie: element bits, and scale bytes by the axis of the blocks. -/
structure CPlace where
  bitAddr : Nat → Nat → Nat
  scale : Bool → Nat × Nat → Nat

/-- Elements of C in one conversion: their bits and their scale bytes by address. -/
def placeOut (f : FmtCode) (pl : CPlace) (col : Bool) (o : FragOut) : List (Nat × Nat × Nat) × List (Nat × Nat) :=
  (o.elems.map fun e => (pl.bitAddr e.1.1 e.1.2, f.fmt.bits, e.2), o.scales.map fun k => (pl.scale col k.1, k.2))

/-- An element's block by its place in the fragment (R110). -/
def blockKey (col : Bool) (i j : Nat) : Nat × Nat := if col then (j, i / 32) else (i, j / 32)

def wcbCol (w : Bytes) : Bool := bitOf (fieldAt w 1 1) 3

/-- The places of a fragment at which every chain of the element has been combined (R231): for a block-scaled C, once that holds of
each element of its block of which a chain has arrived. -/
def chainsReady (f : FmtCode) (pl : CPlace) (total : Nat) (tb : Tbl ChainEl) : List ((Nat × Nat) × ChainEl) :=
  let here := (List.range 64).flatMap fun i => (List.range 64).filterMap fun j =>
    (tb.find? fun e => e.1 == pl.bitAddr i j).map fun e => ((i, j), e.2)
  here.filter fun e =>
    decide (total ≤ e.2.next)
      && (!f.scaled || here.all fun x =>
            let col := wcbCol e.2.wcb
            blockKey col x.1.1 x.1.2 != blockKey col e.1.1 e.1.2 || decide (total ≤ x.2.next))

/-- Combined elements rounded once, each under the control block of its chain 0 (R231), with TILE_FPSTAT bits. -/
def chainsOut (f : FmtCode) (long : Bool) (pl : CPlace) (es : List ((Nat × Nat) × ChainEl)) :
    List (Nat × Nat × Nat) × List (Nat × Nat) × Nat :=
  ((es.map fun e => e.2.wcb).eraseDups).foldl (fun acc w =>
    let o := convert f w (wcbCol w) ((es.filter fun e => e.2.wcb == w).map fun e =>
      (e.1, chainNum long e.2.sum, wcbRnd w e.2.index))
    let (els, scs) := placeOut f pl (wcbCol w) o
    (acc.1 ++ els, acc.2.1 ++ scs, acc.2.2 ||| o.flags)) ([], [], 0)

/-- A TILED write-out of one fragment (R210, R211, R229 to R231). Elements beyond the position's extents are not stored, whatever
the masks say; a set whose fragment lies outside the position, or whose mode is not the descriptor's, is refused (log
entry 113). -/
def woutPiece (s : State) (l : Nat) (c : TileCmd) (b : Binding) (pos : Pos) : State :=
  let d := b.desc
  let p := tilePart s l
  let a := accAt (tileAt s l) (c.fn % 4)
  let w := c.wcb
  let per := max 1 (ceilDiv (lvlExt d 0 1) 64)
  let fi := c.fn % 4 / per
  let fj := c.fn % 4 % per
  match tdFmt d 2 with
  | none => cmdFault s l c 0x09
  | some f =>
    if wcbOk w (some a.long) = false ∨ fieldAt w 0 1 ≠ fieldAt d 0x12 1 ∨ tdLong d ≠ some a.long
        ∨ pos.len 0 ≤ 64 * fi ∨ pos.len 1 ≤ 64 * fj then cmdFault s l c 0x09
    else
      let m0 := pos.org 0 + 64 * fi
      let n0 := pos.org 1 + 64 * fj
      let g := pos.org 4
      let es := fragElems a fun i j => maskAct c i j && decide (64 * fi + i < pos.len 0) && decide (64 * fj + j < pos.len 1)
      let index (i j : Nat) : Nat :=
        (fieldAt w 0x18 8 + (g * tdDim d 0 + m0 + i) * fieldAt w 0x14 4 + n0 + j) % 2 ^ 64
      let pl : CPlace :=
        { bitAddr := fun i j => (rowAddr d b.conv 2 g 0 (m0 + i)).getD 0 * 8 + (n0 + j) * f.fmt.bits
          scale := fun col k => if col then cScaleAddr d true g (m0 + 32 * k.2) (n0 + k.1)
            else cScaleAddr d false g (m0 + k.1) (n0 + 32 * k.2) }
      let rd := es.foldl (fun f e => f ||| e.2.2) 0
      let done_ (s : State) (els : List (Nat × Nat × Nat)) (scs : List (Nat × Nat)) (flags : Nat) (held : List (Nat × Nat)) :
          State :=
        match storeC s p l b pos els scs with
        | (.ok, wrote, s) =>
          modQueueCmd (startCmd (setFp s l flags) l c wrote [] none) l c.num fun c => { c with held := held }
        | (.bounds, _, s) => cmdFault s l c 0x0A
        | (x, _, s) => accStop s p x
      if chainsTotal d ≤ 1 then
        let o := (fragConvert a w es index).1
        let (els, scs) := placeOut f pl (wcbCol w) o
        done_ s els scs (rd ||| o.flags) []
      else
        let c0 := pos.org 3 * chainsPerTap d + (if tdChain d = 0 then 0 else pos.org 2 / tdChain d)
        let cn := if tdChain d = 0 then 1 else max 1 (ceilDiv (pos.len 2) (tdChain d))
        let total := chainsTotal d
        let r := es.foldl (fun (acc : Tbl ChainEl × Nat × List (Nat × Nat)) e =>
          let k := pl.bitAddr e.1.1 e.1.2
          let part := if a.long then longPartial e.2.1 else leBytes 4 (e.2.1.running.getD f32Zero).toNat
          let old := Tbl.get {} acc.1 k
          let ch := chainIndex old c0 cn
          let (el, fl) := chainArrive a.long total ch part w (index e.1.1 e.1.2) old
          (Tbl.put {} acc.1 k el, acc.2.1 ||| fl, if el.next ≤ ch then (k, ch) :: acc.2.2 else acc.2.2))
          (chainsOf s p, rd, [])
        let (tb, fl, held) := r
        let ready := chainsReady f pl total tb
        let (els, scs, fo) := chainsOut f a.long pl ready
        let tb := ready.foldl (fun tb e => Tbl.drop tb (pl.bitAddr e.1.1 e.1.2)) tb
        done_ (setChains s p tb) els scs (fl ||| fo) held

def woutTiled (s : State) (l : Nat) (c : TileCmd) (hit : Bool) : State :=
  if tiledOk c.xfer = false ∨ fieldAt c.xfer 1 1 ≠ 4 ∨ ¬ zeroAt c.xfer 4 4 ∨ ¬ zeroAt c.xfer 0x28 4 then cmdFault s l c 0x09
  else withBinding s l c hit fun s b =>
    match b.pos.bind fun n => (walkOf b.desc (tileAt s l).index)[n]? with
    | none => cmdFault s l c 0x09
    | some pos => woutPiece s l c b pos

def doWoutExecute (t : TileId) (hit : Bool) (s : State) : State :=
  let l := liveTile s t.toNat
  match nextCmd s l 0x24 with
  | none => s
  | some c => if fieldAt c.xfer 0 1 = 1 then woutTiled s l c hit else woutDirect s l c

/-- WOUT_EXECUTE (R103 to R116, R210, R211, R217, R225, R230, R925). -/
def execWoutExecute (t : TransferStart) (s : State) : Res := done s (doWoutExecute t.tile t.hit s)

/-! ### Completion -/

/-- A write-out whose chain arrived early completes once it has been added (R230). -/
def chainsIn (s : State) (p : Nat) (c : TileCmd) : Bool :=
  c.held.all fun h => match (chainsOf s p).find? (fun e => e.1 == h.1) with
    | some e => decide (h.2 < e.2.next)
    | none => true

def doTileCommandComplete (t : TileId) (num : Nat) (s : State) : State :=
  let l := liveTile s t.toNat
  match (tileAt s l).queue.find? fun c => c.num == num && c.started with
  | none => s
  | some c =>
    if chainsIn s (tilePart s l) c = false then s
    else settleHalt (wake (modTile s l fun x => { x with queue := x.queue.filter fun c => c.num != num }) l) l

/-- TILE_COMMAND_COMPLETE: a started command ends and its queue entry is free (R143, R146, R166). -/
def execTileCommandComplete (t : TileId) (num : Nat) (s : State) : Res := done s (doTileCommandComplete t num s)

/-! ### Level stagers -/

/-- The bytes of a level tile of C that its walk writes are all there. -/
def cComplete (d conv : Bytes) (q : Pos) (b : Tbl Byte) : Bool :=
  (tileRanges d conv 2 q).all fun r => (Tbl.inRange b r.1 r.2).length == r.2

/-- A staged tile delivered to the other members of the group that walk the same descriptor and have it to stage now: they share
the one fetch (R203, R214; log entry 114). -/
def stageShare (s : State) (l : Nat) (b : Binding) (lv opnd : Nat) (q : Pos) (tb : Tbl Byte) : State :=
  forEach ((groupOf s l).filter (· != l)) s fun s u =>
    let x := tileAt s u
    match x.binding with
    | none => s
    | some c =>
      if c.desc ≠ b.desc ∨ c.conv ≠ b.conv then s
      else
        let seq := tileSeq c.desc x.index lv opnd
        let cur := match c.pos with | some n => tileSeqAt c.desc x.index lv opnd n | none => 0
        match (span cur (lvlDepth c.desc lv)).find? fun i => (seq[i]?).elim false fun r =>
            samePiece opnd r q && (stagedAt s u c.off lv opnd [i]).isNone with
        | none => s
        | some i => match fillBuffer s (tilePart s u) u c.desc lv with
          | (.ok, s) => setStaged s u c.off lv opnd [i] tb
          | _ => s

/-- A level tile of A or B staged, its level's buffer taking a layout that the specification does not state (R202, R203). -/
def stageIn (s : State) (l : Nat) (b : Binding) (lv opnd : Nat) : State :=
  let p := tilePart s l
  let d := b.desc
  let g := (tileAt s l).index
  let seq := tileSeq d g lv opnd
  let cur := match b.pos with | some n => tileSeqAt d g lv opnd n | none => 0
  match (span cur (lvlDepth d lv)).find? fun i => decide (i < seq.length) && (stagedAt s l b.off lv opnd [i]).isNone with
  | none => s
  | some i =>
    match seq[i]? with
    | none => s
    | some q =>
      let rs := tileRanges d b.conv opnd q
      let outer := (stageLevels d opnd).find? (lv < ·)
      let got : Acc × Tbl Byte × State := match outer with
        | none => gatherHome s p l rs
        | some k =>
          match s.staged.find? fun e => e.tile.toNat == l && e.off == b.off && e.level == k && e.opnd == opnd
              && rs.all fun r => (Tbl.inRange e.bytes r.1 r.2).length == r.2 with
          | some e => (.ok, rs.foldl (fun tb r => listBytes tb r.1 (bytesAt 0 e.bytes r.1 r.2)) [], s)
          | none => (.wait, [], s)
      match got with
      | (.ok, tb, s) =>
        match fillBuffer s p l d lv with
        | (.ok, s) => stageShare (setStaged s l b.off lv opnd [i] tb) l b lv opnd q tb
        | (.bounds, s) => newtFault s l 0x0A 0 false
        | (x, s) => accStop s p x
      | (.bounds, _, s) => newtFault s l 0x0A 0 false
      | (x, _, s) => accStop s p x

/-- A final level tile of C written to the next outer level, or to HOME (R204). -/
def stageOut (s : State) (l : Nat) (b : Binding) (lv : Nat) : State :=
  let p := tilePart s l
  let d := b.desc
  let t := stageOwner s l d lv
  let isFinal (e : Staged) : Bool :=
    ((walkFrom d (tileAt s l).index ((lvlsOut d).filter (lv ≤ ·)) (wholePos d)).find? fun q =>
      [q.org 0, q.org 1, q.org 4] == e.key).elim false fun q => cComplete d b.conv q e.bytes
  match s.staged.find? fun e => e.tile.toNat == t && e.off == b.off && e.level == lv && e.opnd == 2 && isFinal e with
  | none => s
  | some e =>
    match (stageLevels d 2).find? (lv < ·) with
    | some k =>
      let o := stageOwner s l d k
      let at_ : Pos := ⟨[nth 0 e.key 0, nth 0 e.key 1, 0, 0, nth 0 e.key 2], [1, 1, 1, 1, 1]⟩
      match stageC s p o b k (tileAtLevel d k at_) fun cur => e.bytes.foldl (fun tb y => Tbl.set tb y.1 y.2) cur with
      | (.ok, s) => dropStagedEntry s t b.off lv 2 e.key
      | (.bounds, s) => newtFault s l 0x0A 0 false
      | (x, s) => accStop s p x
    | none =>
      match writeRuns s (.step p) (partPrio s p) (runsOf e.bytes) with
      | (.ok, s) => dropStagedEntry s t b.off lv 2 e.key
      | (.bounds, s) => newtFault s l 0x0A 0 false
      | (x, s) => accStop s p x

def doLevelStage (t : TileId) (level : Fin 5) (opnd : Fin 3) (s : State) : State :=
  let l := liveTile s t.toNat
  match (tileAt s l).binding with
  | none => s
  | some b =>
    if lvlStage b.desc level.val opnd.val = false ∨ level.val = 0 ∨ replayWaits s (tileAt s l) then s
    else if opnd.val = 2 then stageOut s l b level.val else stageIn s l b level.val opnd.val

/-- LEVEL_STAGE (R202 to R205): a level tile staged inward, or a final C tile written outward. -/
def execLevelStage (t : TileId) (level : Fin 5) (opnd : Fin 3) (s : State) : Res := done s (doLevelStage t level opnd s)

end Sys2Proof.Machine
end

