-- ==== Sys2Proof/Machine/AttnOps.lean ====
section
/-! DEFINITION. Paged attention as functions of the cache's contents (chapter 05): sequence descriptors and page tables
(R236 to R246), page partials, merges and the tree (R255 to R261), and the sums of the backward pass (R282, R283). -/

namespace Sys2Proof.Machine
open Sys2Proof

/-- Bytes of device memory as they stand, once an access has found them readable. -/
def peek (s : State) (a n : Nat) : Bytes := (span a n).map (rawByte s)

/-- Ranges read one after another, for what their reads do and how they end. -/
def readAll (s : State) (p : Nat) (l : List (Nat × Nat)) : Acc × State :=
  accAll l s fun s x => let r := readMem s (.step p) x.1 x.2; (r.1, r.2.2)

/-! ### Sequences (R242 to R246) -/

structure SeqD where
  len : Nat
  pos : Bool
  fmt : Nat
  layers : Nat
  heads : Nat
  qpk : Nat
  dlog : Nat
  run : Nat
  chips : Nat
  slot : Nat
  pt : Nat
  chipMap : Nat
  tail : Nat
  id : Nat
  deriving DecidableEq, Repr

def seqOf (b : Bytes) : SeqD :=
  { len := fieldAt b 0 4, pos := fieldAt b 4 1 == 1, fmt := fieldAt b 5 1, layers := fieldAt b 6 1, heads := fieldAt b 7 1
    qpk := fieldAt b 8 1, dlog := fieldAt b 9 1, run := fieldAt b 0xA 1, chips := fieldAt b 0xC 2, slot := fieldAt b 0xE 2
    pt := fieldAt b 0x10 8, chipMap := fieldAt b 0x18 8, tail := fieldAt b 0x20 8, id := fieldAt b 0x28 4 }

/-- The fields of a sequence descriptor lie in their ranges (R242, R244, R245). -/
def seqOk (b : Bytes) : Bool :=
  let q := seqOf b
  decide (q.len ≤ 16777216) && decide (fieldAt b 4 1 ≤ 1) && (q.fmt == 0x13 || q.fmt == 0x14 || q.fmt == 1)
    && decide (1 ≤ q.layers) && decide (1 ≤ q.heads) && decide (q.heads ≤ 64) && decide (1 ≤ q.qpk) && decide (q.qpk ≤ 16)
    && decide (6 ≤ q.dlog) && decide (q.dlog ≤ 8) && (if q.pos then decide (q.run ≤ 16) else q.run == 0)
    && zeroAt b 0xB 1 && decide (1 ≤ q.chips) && decide (q.slot < q.chips) && (q.fmt != 1 || q.tail == 0) && zeroAt b 0x2C 20
    && (if q.pos then decide (q.chips ≤ 2 ^ (16 - q.run)) else decide (q.chips ≤ q.heads))

def SeqD.d (q : SeqD) : Nat := 2 ^ q.dlog
def SeqD.scaled (q : SeqD) : Bool := q.fmt != 1
/-- The elements of a format of R237 by its code; the element type of a cache. -/
def kvElem (code : Nat) : Fmt := match code with | 0x13 => .f8a | 0x14 => .f8b | _ => .bf16
def SeqD.elem (q : SeqD) : Fmt := kvElem q.fmt
def SeqD.e (q : SeqD) : Nat := if q.scaled then 1 else 2
/-- The page stride (R238, R239). -/
def SeqD.stride (q : SeqD) : Nat :=
  ceilDiv (512 * q.d * q.e + (if q.scaled then 16 * q.d else 0)) 2048 * 2048
/-- The KV heads that this slot holds, in order; a head's place is its local index (R244, R245). -/
def SeqD.local_ (q : SeqD) : List Nat :=
  if q.pos then List.range q.heads else (List.range q.heads).filter fun h => h % q.chips == q.slot
/-- This slot holds a page, and the page's local index. -/
def SeqD.holds (q : SeqD) (n : Nat) : Bool := !q.pos || n / 2 ^ q.run == q.slot
def SeqD.page (q : SeqD) (n : Nat) : Nat := if q.pos then n % 2 ^ q.run else n

/-- Two sequences of one batch agree as R278 asks. -/
def SeqD.like (a b : SeqD) : Bool :=
  a.pos == b.pos && a.fmt == b.fmt && a.layers == b.layers && a.heads == b.heads && a.qpk == b.qpk && a.dlog == b.dlog

def pteAddr (q : SeqD) (n : Nat) : Nat := q.pt + 8 * q.page n
def pte (s : State) (q : SeqD) (n : Nat) : Nat := fieldAt (peek s (pteAddr q n) 8) 0 8
def pteFrame (e : Nat) : Nat := bitsOf e 11 37 * 2048
/-- The address of a page of a layer and local head (R240). -/
def pageAddr (s : State) (q : SeqD) (layer hl n : Nat) : Nat :=
  pteFrame (pte s q n) + (layer * q.local_.length + hl) * q.stride

/-! ### Batches (R277) -/

structure BatchE where
  seqA : Nat
  seq : SeqD
  row : Nat
  qpos : Nat
  vis : Nat
  count : Nat
  gran : Nat
  frames : Nat
  deriving DecidableEq, Repr

def batchOf (b : Bytes) (sb : Bytes) : BatchE :=
  { seqA := fieldAt b 0 8, seq := seqOf sb, row := fieldAt b 8 4, qpos := fieldAt b 0xC 4, vis := fieldAt b 0x10 4
    count := fieldAt b 0x14 2, gran := fieldAt b 0x16 2, frames := fieldAt b 0x18 8 }

/-- The first position not visible to a query (R255). -/
def visEnd (e : BatchE) (u : Nat) : Nat := min e.seq.len (((e.qpos + u) / e.gran + 1) * e.gran)

/-- The pages that hold a position visible to a query: first, count. -/
def visPages (e : BatchE) (u : Nat) : Nat × Nat :=
  if e.vis < visEnd e u then (e.vis / 256, (visEnd e u - 1) / 256 - e.vis / 256 + 1) else (0, 0)

/-- The pages that hold a position visible to any query of the entry (R279): the visible range grows with the query. -/
def entryPages (e : BatchE) : Nat × Nat := visPages e (e.count - 1)

/-- The bucket of a span of pages (R279). -/
def bucketOf (span : Nat) : Nat := if span ≤ 1 then 0 else min 15 ((span - 1).log2 + 1)

/-! ### Sums -/

/-- A LONG accumulation of products, each with the scale codes of its operands, rounded once to F32 (R257, R89 to R97). -/
def longSum (items : List (Nat × Nat × Num × Num)) : W32 × Nat :=
  let anchor := items.foldl (fun (a : Int) x => if x.1 = 255 ∨ x.2.1 = 255 then a else max a ((x.1 : Int) + x.2.1 - 254)) (-254)
  let e0 : AccEl := { anchor := anchor, anchored := true }
  let r := (items.mapIdx fun i x => (i, x)).foldl (fun (acc : AccEl × Nat) x =>
    let (e, f) := longStep acc.1 x.1 x.2.1 x.2.2.1 x.2.2.2.1 x.2.2.2.2
    (e, acc.2 ||| f)) (e0, 0)
  let (e, f) := readEl true r.1
  (f32Of (elNum true e), r.2 ||| f)

/-- A product with its TILE_FPSTAT bits (R101, R129). -/
def mulFlag (a b : W32) : W32 × Nat :=
  let p := f32Mul a b
  (p, opFlag [a, b] p)

/-- One chain of an F32-mode sum with absent children (R227): the sum, and TILE_FPSTAT bits of its products and sums. -/
def chainOpt (ps : List (Option (W32 × Nat))) : Option (W32 × Nat) :=
  (List.range (ceilDiv ps.length 8)).foldl (fun (acc : Option (W32 × Nat)) g =>
    fNode acc (fGroup fun i => (ps[8 * g + i]?).join)) none

/-- Products summed in one chain; +0 without a product (R227). -/
def chainOf (ps : List (W32 × Nat)) : W32 × Nat := (chainOpt (ps.map some)).getD (f32Zero, 0)

/-- An F32-mode sum of products in one chain, with TILE_FPSTAT bits (R101, R129). -/
def chainMul (a b : List W32) : W32 × Nat := chainOf ((a.zip b).map fun x => mulFlag x.1 x.2)

/-! ### Rows as they are kept -/

/-- A vector with a scale code for each block of 32, or without scales. -/
structure ScaledVec where
  elems : List Num
  scales : Option (List Nat)
  deriving DecidableEq, Repr

/-- The scale code of position `i`. -/
def ScaledVec.code (v : ScaledVec) (i : Nat) : Nat := match v.scales with | some l => nth 127 l (i / 32) | none => 127

/-- The product over a head's dimensions (R257, R258). -/
def dotVec (a b : ScaledVec) : W32 × Nat :=
  if a.scales.isSome then
    longSum ((a.elems.zip b.elems).mapIdx fun i x => (a.code i, b.code i, x.1, x.2))
  else chainMul (a.elems.map f32Of) (b.elems.map f32Of)

/-- A block-scaled element's value. -/
def scaledNum (code : Nat) (v : Num) : Num := if code = 255 then .nan else v.scaleBy ((code : Int) - 127)

/-- An element converted to BF16 on reading (R284), and OVF_INF where it goes beyond. -/
def toBf16 (v : Num) : W32 × Nat :=
  let (w, f) := Fmt.bf16.encode false .rne v
  (f32Of (Fmt.bf16.decode w), rndFlagBits f &&& 8)

/-- The key row of a position (R238). -/
def keyRow (s : State) (q : SeqD) (layer hl j : Nat) : ScaledVec :=
  let a := pageAddr s q layer hl (j / 256)
  let b := peek s (a + j % 256 * q.d * q.e) (q.d * q.e)
  { elems := (List.range q.d).map (q.elem.elem b)
    scales := if q.scaled then
        some ((peek s (a + 512 * q.d * q.e + j % 256 * (q.d / 32)) (q.d / 32)).map (·.toNat))
      else none }

/-- The value row of a position, with the scale code of each dimension (R238). -/
def valueRow (s : State) (q : SeqD) (layer hl j : Nat) : List (Num × Nat) :=
  let a := pageAddr s q layer hl (j / 256)
  let b := peek s (a + (256 + j % 256) * q.d * q.e) (q.d * q.e)
  let sc := if q.scaled then peek s (a + 512 * q.d * q.e + 8 * q.d + j % 256 / 32 * q.d) q.d else []
  (List.range q.d).map fun i => (q.elem.elem b i, match sc[i]? with | some c => c.toNat | none => 127)

/-- The ranges of a page that the positions from `lo` to `hi - 1` of it are kept in (R238, R241). -/
def pageRanges (q : SeqD) (a lo hi : Nat) : List (Nat × Nat) :=
  let r := q.d * q.e
  let n := hi - lo
  [(a + lo * r, n * r), (a + (256 + lo) * r, n * r)]
    ++ if q.scaled then
        [(a + 512 * r + lo * (q.d / 32), n * (q.d / 32)),
         (a + 512 * r + 8 * q.d + lo / 32 * q.d, ((hi - 1) / 32 - lo / 32 + 1) * q.d)]
      else []

/-! ### Partials (R256 to R260) -/

structure Partial where
  m : W32
  s : W32
  o : List W32
  fl : Nat
  deriving DecidableEq, Repr

/-- P of R256: the page's probabilities written out, as elements with their scale codes by position, with flags. -/
def probs (q : SeqD) (p : List W32) : List (Num × Nat) × Nat :=
  if q.scaled then
    (List.range 8).foldl (fun (acc : List (Num × Nat) × Nat) c =>
      let b := encodeBlock .f8a (((p.drop (32 * c)).take 32).map fun w => (f32Val w, Rnd.rne))
      (acc.1 ++ b.elems.map (fun w => (Fmt.f8a.decode w, b.scale)), acc.2 ||| rndFlagBits b.flags ||| b2n b.nanSpread * 128))
      ([], 0)
  else
    p.foldl (fun (acc : List (Num × Nat) × Nat) w =>
      let r := Fmt.bf16.encode false .rne (f32Val w)
      (acc.1 ++ [(Fmt.bf16.decode r.1, 127)], acc.2 ||| rndFlagBits r.2)) ([], 0)

/-- The partial of a page for one query and one query head (R256 to R258); positions not visible take no part in the reads,
and their probabilities are +0. -/
def pagePartial (s : State) (q : SeqD) (layer hl : Nat) (scale : W32) (qv : ScaledVec) (lo hi n : Nat) : Option Partial :=
  let vis (j : Nat) : Bool := decide (lo ≤ 256 * n + j) && decide (256 * n + j < hi)
  if !((List.range 256).any vis) then none
  else
    let xs := (List.range 256).map fun j =>
      if vis j then
        let (d, f) := dotVec qv (keyRow s q layer hl (256 * n + j))
        let x := f32Mul d scale
        (x, f ||| opFlag [d, scale] x)
      else (f32NegInf, 0)
    let m := (xs.map (·.1)).foldl f32Max f32NegInf
    let ps := xs.map fun x =>
      let y := f32Sub x.1 m
      let e := f32Exp y
      (e, opFlag [x.1, m] y ||| opFlag [y] e)
    let (pw, pf) := probs q (ps.map (·.1))
    let vs := (List.range 256).map fun j => if vis j then valueRow s q layer hl (256 * n + j) else []
    let vEl (j i : Nat) : Num × Nat := nth (Num.zero, 0) (nth [] vs j) i
    let pEl (j : Nat) : Num × Nat := nth (Num.zero, 0) pw j
    let one : Num := .fin false 1 0
    let (sm, sf) : W32 × Nat :=
      if q.scaled then longSum ((List.range 256).map fun j => ((pEl j).2, 127, (pEl j).1, one))
      else chainOf (pw.map fun x => (f32Of x.1, 0))
    let os := (List.range q.d).map fun i =>
      if q.scaled then longSum ((List.range 256).map fun j => ((pEl j).2, (vEl j i).2, (pEl j).1, (vEl j i).1))
      else chainMul (pw.map fun x => f32Of x.1) ((List.range 256).map fun j => f32Of (vEl j i).1)
    let fl := (xs.map (·.2) ++ ps.map (·.2) ++ os.map (·.2)).foldl (· ||| ·) (pf ||| sf)
    some { m := m, s := sm, o := os.map (·.1), fl := fl }

/-- Two partials merged, `a` of the lower positions (R259). -/
def mergePart (a b : Option Partial) : Option Partial :=
  match a, b with
  | x, none => x
  | none, y => y
  | some x, some y =>
    let ((m, sm), f) := lseMergeFlags x.m x.s y.m y.s
    let ea := f32Exp (f32Sub x.m m)
    let eb := f32Exp (f32Sub y.m m)
    let os := (x.o.zip y.o).map fun z =>
      let (t, g) := mulFlag z.2 eb
      let r := f32Fma z.1 ea t
      (r, g ||| opFlag [z.1, ea, t] r)
    some { m := m, s := sm, o := os.map (·.1), fl := os.foldl (fun g z => g ||| z.2) (x.fl ||| y.fl ||| f) }

/-- A node `h` levels above its leaves (R260); nodes with no leaf in `[lo, lo + n)` are EMPTY. -/
def treeEval (leaf : Nat → Option Partial) (lo n : Nat) : Nat → Nat → Option Partial
  | 0, i => if lo ≤ i ∧ i < lo + n then leaf i else none
  | h + 1, i =>
    if lo < (i + 1) * 2 ^ (h + 1) ∧ i * 2 ^ (h + 1) < lo + n then
      mergePart (treeEval leaf lo n h (2 * i)) (treeEval leaf lo n h (2 * i + 1))
    else none

/-- The most partials live in a depth-first evaluation of a node whose leaves from `lo` on, `n` of them, are not EMPTY
(R265, R287). -/
def liveParts (lo n : Nat) : Nat → Nat → Nat
  | 0, i => if lo ≤ i ∧ i < lo + n then 1 else 0
  | h + 1, i =>
    if lo < (i + 1) * 2 ^ (h + 1) ∧ i * 2 ^ (h + 1) < lo + n then
      let a := liveParts lo n h (2 * i)
      let b := liveParts lo n h (2 * i + 1)
      if a = 0 then b else if b = 0 then a else max a (b + 1)
    else 0

/-! ### Output tensors -/

/-- Elements of an output tensor of `rows` rows of `width` elements, by row and column, written through a write-out control
block at `base`, packed row after row, the scales of a block-scaled format after the last row (R261, R276, R285): what is
written, and TILE_FPSTAT bits. -/
def tensorOut (s : State) (w : Bytes) (base rows width : Nat) (es : List ((Nat × Nat) × Num)) : List (Nat × Bytes) × Nat :=
  match fmtCode (fieldAt w 0 1) with
  | none => ([], 0)
  | some f =>
    let col := bitOf (fieldAt w 1 1) 3
    let o := convert f w col (es.map fun e => (e.1, e.2, wcbRnd w (wcbIndex w e.1.1 e.1.2)))
    let sb := base + rows * f.fmt.bytesFor width
    (runsOf (layBits (rawByte s) (o.elems.map fun e =>
        ((base + e.1.1 * f.fmt.bytesFor width) * 8 + e.1.2 * f.fmt.bits, f.fmt.bits, e.2)))
      ++ o.scales.map fun k =>
        (sb + (if col then k.1.1 * ceilDiv rows 32 + k.1.2 else k.1.1 * ceilDiv width 32 + k.1.2), [BitVec.ofNat 8 k.2]),
     o.flags)

end Sys2Proof.Machine
end

