-- ==== Sys2Proof/Machine/Attention.lean ====
section
/-! DEFINITION. The attention routines (chapter 05): ATTN_FWD with its decode modes and the spreading over chips, ATTN_APPEND,
ATTN_BWD, and the arrival of partial records. -/

namespace Sys2Proof.Machine
open Sys2Proof

/-! ### The descriptor (R275, R278) -/

def atMode (d : Bytes) : Nat := fieldAt d 1 1
def atLayer (d : Bytes) : Nat := fieldAt d 2 2
def atScale (d : Bytes) : W32 := BitVec.ofNat 32 (fieldAt d 4 4)
def atBatch (d : Bytes) : Nat := fieldAt d 8 8
def atNseq (d : Bytes) : Nat := fieldAt d 0x10 2
def atQfmt (d : Bytes) : Nat := fieldAt d 0x12 1
def atQ (d : Bytes) : Nat := fieldAt d 0x18 8
def atO (d : Bytes) : Nat := fieldAt d 0x20 8
def atL (d : Bytes) : Nat := fieldAt d 0x28 8
def atSplit (d : Bytes) (b : Nat) : Nat := fieldAt d (0x30 + b) 1
def atDo (d : Bytes) : Nat := fieldAt d 0x40 8
def atDq (d : Bytes) : Nat := fieldAt d 0x48 8
def atDkv (d : Bytes) : Nat := fieldAt d 0x50 8
def atQblock (d : Bytes) : Nat := fieldAt d 0x58 4
def atSoff (d : Bytes) : Nat := fieldAt d 0x5C 4
def atMerge (d : Bytes) : Nat := fieldAt d 0x60 2

def attnDescOk (op : Nat) (d : Bytes) : Bool :=
  fieldAt d 0 1 == op && (op != 1 || decide (atMode d ≤ 2)) && decide (1 ≤ atNseq d) && decide (atNseq d ≤ 4096)
    && (atQfmt d == 0x13 || atQfmt d == 0x14 || atQfmt d == 1) && zeroAt d 0x13 1 && zeroAt d 0x62 14
    && (List.range 16).all (fun b => decide (atSplit d b ≤ 16) || atSplit d b == 0xFF)
    && (atQfmt d != 1 || atSoff d == 0)
    && (if op = 3 then atQblock d % 8 == 0 && decide (8 ≤ atQblock d) && decide (atQblock d ≤ 4096)
        else zeroAt d 0x40 0x1C)

/-- The checks on a batch entry and its sequence (R277, R278). -/
def entryOk_ (op : Nat) (d : Bytes) (e : BatchE) (sb : Bytes) : Bool :=
  seqOk sb && e.seqA % 64 == 0 && decide (e.qpos < 2 ^ 24) && decide (e.vis < 2 ^ 24) && decide (1 ≤ e.count)
    && decide (e.count ≤ 4096) && decide (1 ≤ e.gran) && (op == 2 || e.frames == 0)
    && (atQfmt d == 1) == (e.seq.fmt == 1) && decide (atLayer d < e.seq.layers) && (!e.seq.pos || decide (atMerge d < e.seq.chips))
    && (op != 2 || (e.qpos == e.seq.len && decide (e.seq.len + e.count ≤ 16777216)))

/-- The batch with its sequences, as memory holds them; none where the descriptor is refused. -/
def loadBatch (s : State) (p op : Nat) (d : Bytes) : Acc × Option (List BatchE) × State :=
  match readMem s (.step p) (atBatch d) (32 * atNseq d) with
  | (.ok, b, s) =>
    let es := pieces32 b
    match readAll s p (es.map fun e => (fieldAt e 0 8, 64)) with
    | (.ok, s) =>
      let all := es.map fun e => let sb := peek s (fieldAt e 0 8) 64; (batchOf e sb, sb)
      let ok := all.all fun x => entryOk_ op d x.1 x.2 && (all.take 1).all fun y => x.1.seq.like y.1.seq
      (.ok, if ok then some (all.map (·.1)) else none, s)
    | (a, s) => (a, none, s)
  | (a, _, s) => (a, none, s)
where
  pieces32 (b : Bytes) : List Bytes := (List.range (b.length / 32)).map fun i => (b.drop (32 * i)).take 32

/-- The pages that hold a position visible to the entry's queries and that this slot holds. -/
def heldPages (e : BatchE) : List Nat := let v := entryPages e; (span v.1 v.2).filter e.seq.holds

/-- The ranges of the page tables, and of the pages, that the reads of an entry touch. -/
def pteRanges (es : List BatchE) : List (Nat × Nat) := es.flatMap fun e => (heldPages e).map fun n => (pteAddr e.seq n, 8)
def cacheRanges (s : State) (layer : Nat) (es : List BatchE) : List (Nat × Nat) :=
  es.flatMap fun e => (heldPages e).flatMap fun n => (List.range e.seq.local_.length).flatMap fun hl =>
    pageRanges e.seq (pageAddr s e.seq layer hl n) (max e.vis (256 * n) - 256 * n)
      (min (visEnd e (e.count - 1)) (256 * n + 256) - 256 * n)

def pagesValid (s : State) (es : List BatchE) : Bool :=
  es.all fun e => (heldPages e).all fun n => bitOf (pte s e.seq n) 0

/-- The query heads that this slot works on, with the local index of their KV head. -/
def myHeads (q : SeqD) : List (Nat × Nat) :=
  (q.local_.mapIdx fun hl h => (hl, h)).flatMap fun x => (List.range q.qpk).map fun g => (x.2 * q.qpk + g, x.1)

/-- The place of a row's query head, in elements (R276). -/
def rowEl (q : SeqD) (r k : Nat) : Nat := (r * (q.heads * q.qpk) + k) * q.d

def queryRanges (d : Bytes) (e : BatchE) : List (Nat × Nat) :=
  let q := e.seq
  (List.range e.count).flatMap fun u => (myHeads q).flatMap fun k =>
    let i := rowEl q (e.row + u) k.1
    (atQ d + i * q.e, q.d * q.e) :: (if q.scaled then [(atQ d + atSoff d + i / 32, q.d / 32)] else [])

/-- A query, in the format of QFMT: either 8-bit format for a block-scaled cache (R257, R275). -/
def queryVec (s : State) (d : Bytes) (e : BatchE) (u k : Nat) : ScaledVec :=
  let q := e.seq
  let i := rowEl q (e.row + u) k
  let b := peek s (atQ d + i * q.e) (q.d * q.e)
  { elems := (List.range q.d).map ((kvElem (atQfmt d)).elem b)
    scales := if q.scaled then some ((peek s (atQ d + atSoff d + i / 32) (q.d / 32)).map (·.toNat)) else none }

/-! ### Forward (R263 to R268, R279 to R281) -/

/-- The root of what this slot evaluates: its level and index (R260, R268). -/
def topNode (q : SeqD) : Nat × Nat := if q.pos then (q.run, q.slot) else (16, 0)

/-- The nodes of a level that hold a page the slot reads for an entry: first, count. -/
def levelNodes (e : BatchE) (j : Nat) : Nat × Nat :=
  match heldPages e with
  | [] => (0, 0)
  | n :: ns => let m := maxN (n :: ns); (n / 2 ^ j, m / 2 ^ j - n / 2 ^ j + 1)

/-- The split level of a bucket (R280, R281). -/
def splitLevel (d : Bytes) (es : List BatchE) (size b : Nat) : Nat :=
  let mine := es.filter fun e => bucketOf (entryPages e).2 == b
  let units (j : Nat) : Nat := sumN (mine.map fun e => e.seq.local_.length * (levelNodes e j).2)
  if atSplit d b = 0xFF then (leastBelow 17 fun j => decide (units j ≤ 8 * size)).getD 16 else atSplit d b

/-- GROUPED mode (R266). -/
def grouped (s : State) (p : Nat) (d : Bytes) (heads size : Nat) : Bool :=
  match atMode d with
  | 1 => false
  | 2 => true
  | _ => (match (partAt s p).run with | some r => decide (0 < r.replays) | none => false) || decide (size < heads)

/-- The member that runs the merge stage of a query and query head: in SPLIT mode by R264; in GROUPED mode the one tile of the KV
head (R265). -/
def mergeMember (q : SeqD) (size : Nat) (grp : Bool) (u k : Nat) : Nat :=
  if grp then k / q.qpk % size else (u * (q.heads * q.qpk) + k) % size

/-- What one member did in a routine (R287): pages, live partials, TILE_FPSTAT bits. -/
structure Work where
  member : Nat
  pages : Nat := 0
  live : Nat := 0
  flags : Nat := 0
  deriving DecidableEq, Repr

/-- The node that this slot evaluates for one query and query head, and the work of each unit and of the merges above the units
(R263, R264); the flags are in the work. -/
def evalQuery (s : State) (d : Bytes) (e : BatchE) (j size : Nat) (grp : Bool) (u : Nat) (k : Nat × Nat) :
    Option Partial × List Work :=
  let q := e.seq
  let (top, idx) := topNode q
  let j := if grp then top else min j top
  let (lo, n) := visPages e u
  let leaf (pg : Nat) : Option Partial :=
    if q.holds pg then
      pagePartial s q (atLayer d) k.2 (atScale d) (queryVec s d e u k.1) e.vis (visEnd e u) pg
    else none
  let h := k.1 / q.qpk
  let tile (i : Nat) : Nat := if grp then h % size else (h * 2 ^ (16 - j) + i) % size
  let nodes := levelNodes e j
  let units := (span nodes.1 nodes.2).map fun i => (i, treeEval leaf lo n j i)
  let work := units.map fun x =>
    { member := tile x.1, live := liveParts lo n j x.1, flags := match x.2 with | some y => y.fl | none => 0 : Work }
  let up (i : Nat) : Option Partial :=
    ((units.find? fun x => x.1 == i).bind (·.2)).map fun y => { y with fl := 0 }
  let root := if grp then up idx else treeEval up nodes.1 nodes.2 (top - j) idx
  let stage := { member := mergeMember q size grp u k.1, live := if grp then 0 else liveParts nodes.1 nodes.2 (top - j) idx
                 flags := match root with | some y => y.fl | none => 0 : Work }
  (root.map fun y => { y with fl := 0 }, work ++ [stage])

/-- The pages that each member reads for an entry (R263 to R265, R287). -/
def pageWork (e : BatchE) (j size : Nat) (grp : Bool) : List Work :=
  let q := e.seq
  let j := min j (topNode q).1
  q.local_.flatMap fun h => (heldPages e).map fun n =>
    { member := if grp then h % size else (h * 2 ^ (16 - j) + n / 2 ^ j) % size, pages := 1 : Work }

/-- A partial record is one of a slot's node for a query and query head (R269). -/
def isRecord (p : Nat) (q : SeqD) (layer u k slot : Nat) (r : PartialRec) : Bool :=
  r.part.val == p && fieldAt r.bytes 0 4 == q.id && fieldAt r.bytes 4 2 == layer && fieldAt r.bytes 6 2 == slot
    && fieldAt r.bytes 8 2 == u && fieldAt r.bytes 0xA 1 == k

/-- The other slots of a sequence. -/
def otherSlots (q : SeqD) : List Nat := (List.range q.chips).filter (· != q.slot)

/-- The records that a query's merge takes from those held: of every other slot the first to have come, the others stay for later
calls (R271); none where one is not there. -/
def takeRecords (p layer : Nat) (q : SeqD) (u k : Nat) (held : List PartialRec) : Option (List (Nat × Bytes) × List PartialRec) :=
  (otherSlots q).foldl (fun acc c => acc.bind fun x =>
    (x.2.find? (isRecord p q layer u k c)).map fun r => (x.1 ++ [(c, r.bytes)], removeFirst (isRecord p q layer u k c) x.2))
    (some ([], held))

def partialOf (b : Bytes) (n : Nat) : Option Partial :=
  if bitOf (fieldAt b 0xB 1) 0 then none
  else some { m := BitVec.ofNat 32 (fieldAt b 0xC 4), s := BitVec.ofNat 32 (fieldAt b 0x10 4)
              o := (List.range n).map (fun i => BitVec.ofNat 32 (fieldAt b (0x18 + 4 * i) 4)), fl := 0 }

/-- The record of a slot's node (R269, R270). -/
def recordBytes (q : SeqD) (layer u k : Nat) (x : Option Partial) : Bytes :=
  leBytes 4 q.id ++ leBytes 2 layer ++ leBytes 2 q.slot ++ leBytes 2 u ++ leBytes 1 k ++ leBytes 1 (b2n x.isNone)
    ++ (match x with
        | some y => leBytes 4 y.m.toNat ++ leBytes 4 y.s.toNat ++ leBytes 4 0 ++ f32Bytes y.o
        | none => List.replicate (12 + 4 * q.d) 0)

/-- The queries and query heads of a batch that this slot works on. -/
def allQueries (es : List BatchE) : List (BatchE × Nat × Nat × Nat) :=
  es.flatMap fun e => (List.range e.count).flatMap fun u => (myHeads e.seq).map fun k => (e, u, k.1, k.2)

/-- The records that the merges of a batch take, query by query in batch order, and those that stay held; none while one has not
come. -/
def recordsFor (s : State) (p : Nat) (d : Bytes) (es : List BatchE) :
    Option (List ((BatchE × Nat × Nat × Nat) × List (Nat × Bytes)) × List PartialRec) :=
  (allQueries es).foldl (fun acc x => acc.bind fun y =>
    (takeRecords p (atLayer d) x.1.seq x.2.1 x.2.2.1 y.2).map fun z => (y.1 ++ [(x, z.1)], z.2)) (some ([], s.partials))

/-- The root of a query's tree at the merging slot, from its own node and the records of the other slots, and the most partials
live there (R268). -/
def mergeSlots (e : BatchE) (recs : List (Nat × Bytes)) (own : Option Partial) : Option Partial × Nat :=
  let q := e.seq
  if q.pos then
    let leaf (c : Nat) : Option Partial :=
      if c = q.slot then own else (recs.find? fun r => r.1 == c).bind fun r => partialOf r.2 q.d
    (treeEval leaf 0 q.chips (16 - q.run) 0, liveParts 0 q.chips (16 - q.run) 0)
  else (own, 0)

/-- A module of the torus that no message of this one reaches: it has no coordinate, or a gap lies there (R273, R492). -/
def chipLost (s : State) (chip : Nat) : Bool :=
  match mapEntry s chip with
  | none => true
  | some c => c.toNat != ownPhys s && inGap s c.toNat

/-- A record that a merge of the batch waits for is of a module that has left the torus (R273). -/
def peerLost (s : State) (p : Nat) (d : Bytes) (es : List BatchE) : Bool :=
  (allQueries es).any fun x => (otherSlots x.1.seq).any fun c =>
    !(s.partials.any (isRecord p x.1.seq (atLayer d) x.2.1 x.2.2.1 c))
      && chipLost s (fieldAt (peek s (x.1.seq.chipMap + 2 * c) 2) 0 2 % 32768)

/-- TILE_ATTNSTAT and TILE_FPSTAT of the members after a routine (R129, R287). -/
def setAttnStat (s : State) (ms : List Nat) (ws : List Work) (split mode : Nat) : State :=
  forEach (ms.mapIdx fun i t => (i, t)) s fun s x =>
    let mine := ws.filter fun w => w.member == x.1
    let pages := min 0xFFFF (sumN (mine.map (·.pages)))
    let live := maxN (mine.map (·.live)) - 1
    setFp (regSet s ⟨.tileAttnstat, x.2, 0⟩ (pages * 2 ^ 16 + split * 2 ^ 8 + live * 4 + mode)) x.2
      ((mine.map (·.flags)).foldl (· ||| ·) 0)

/-- A call of an attention routine by the whole group, with its descriptor checked (R274, R278). -/
def attnRow (p word op : Nat) (hit : Option TileId) (s : State)
    (body : State → Bytes → List BatchE → List Nat → State → State) : State :=
  match scratchCall s p word hit (descArg 112) with
  | (none, s) => s
  | (some ms, s) =>
    match libDesc s (nth 0 ms 0) 112 with
    | none => libFault s ms 0x03
    | some d =>
      if attnDescOk op d = false then libFault s ms 0x09
      else match loadBatch s p op d with
        | (.ok, none, t) => libFault t ms 0x09
        | (.ok, some es, t) => body s d es ms t
        | (a, _, t) => libEnd s t p ms a

/-- A write-out control block of a routine, from the first member's scratch (R105, R147). -/
def libWcb (s : State) (t off : Nat) : Option Bytes := if off % 8 = 0 ∧ off + 32 ≤ 0x8000 then some (scratch s t off 32) else none

/-- The page tables and pages of a batch read (R288): how the reads end, whether every entry was VALID. -/
def readCache (s : State) (p : Nat) (d : Bytes) (es : List BatchE) : Acc × Bool × State :=
  match readAll s p (pteRanges es) with
  | (.ok, s) =>
    if pagesValid s es = false then (.ok, false, s)
    else
      let r := readAll s p (cacheRanges s (atLayer d) es)
      (r.1, true, r.2)
  | (a, s) => (a, true, s)

/-- An entry without VALID is met when its page is reached (R278). -/
def badPage (s : State) (ms : List Nat) : State := newtFault s (nth 0 ms 0) 0x09 0 true

/-- The outputs of a batch: rows of O with their L (R261). -/
def writeOutputs (s : State) (p : Nat) (d w : Bytes) (es : List BatchE) (size : Nat) (grp : Bool)
    (roots : List ((BatchE × Nat × Nat × Nat) × Option Partial × Nat)) : Acc × List Work × State :=
  let rows := maxN (es.map fun e => e.row + e.count)
  let q := match es with | e :: _ => e.seq | [] => seqOf []
  let width := q.heads * q.qpk * q.d
  let out := roots.map fun x =>
    let (e, u, k, _) := x.1
    match x.2.1 with
    | none => ((e, u, k), (List.range q.d).map (fun i => ((e.row + u, k * q.d + i), Num.zero)), f32NegInf, 0, x.2.2)
    | some y =>
      let vs := y.o.map fun o => f32Div o y.s
      let lg := f32Log y.s
      let f := (y.o.zip vs).foldl (fun (f : Nat) (z : W32 × W32) => f ||| opFlag [z.1, y.s] z.2) (y.fl ||| opFlag [y.s] lg ||| opFlag [y.m, lg] (f32Add y.m lg))
      ((e, u, k), vs.mapIdx (fun i v => ((e.row + u, k * q.d + i), f32Val v)), f32Add y.m lg, f, x.2.2)
  let work := out.map fun x =>
    { member := mergeMember q size grp x.1.2.1 x.1.2.2, live := x.2.2.2.2
      flags := x.2.2.2.1 ||| (tensorOut s w (atO d) rows width x.2.1).2 : Work }
  let ls := if atL d = 2 ^ 64 - 1 then [] else
    out.map fun x => (atL d + ((x.1.1.row + x.1.2.1) * (q.heads * q.qpk) + x.1.2.2) * 4, leBytes 4 x.2.2.1.toNat)
  let r := writeRuns s (.step p) (partPrio s p) ((tensorOut s w (atO d) rows width (out.flatMap fun x => x.2.1)).1 ++ ls)
  (r.1, work, r.2)

/-- Records sent to the merging slot (R268 to R270). -/
def sendRecords (s : State) (p : Nat) (d : Bytes) (roots : List ((BatchE × Nat × Nat × Nat) × Option Partial)) : State :=
  forEach roots s fun s x =>
    let (e, u, k, _) := x.1
    let chip := fieldAt (peek s (e.seq.chipMap + 2 * atMerge d) 2) 0 2 % 32768
    let (tag, s) := newTag s
    let num := match (partAt s p).run with | some r => r.num | none => 0
    let r := sendMsg s { byPhys := false, dst := chip, cls := 0x24, part := p, prio := partPrio s p,
                         epoch := (partAt s p).epoch.toNat, tag := tag, payload := recordBytes e.seq (atLayer d) u k x.2 }
    match r.1 with
    | some st => failStep r.2 p st
    | none => { r.2 with partSent := r.2.partSent ++ [(BitVec.ofNat 32 tag, Fin.ofNat 16 p, num)] }

/-- The entries of a batch in the order of their dispatch: longer buckets first, in batch order within a bucket (R280). -/
def bucketOrder (es : List BatchE) : List BatchE :=
  sortBy (fun a b => decide (bucketOf (entryPages b).2 < bucketOf (entryPages a).2)) es

def attnFwdBody (p : Nat) (s0 : State) (d : Bytes) (es : List BatchE) (ms : List Nat) (s : State) : State :=
  match libWcb s (nth 0 ms 0) (fieldAt d 0x14 4) with
  | none => libFault s ms 0x03
  | some w =>
    if wcbOk w none = false then libFault s ms 0x09
    else
      match readCache s p d es with
      | (.ok, false, s) => badPage s ms
      | (.ok, true, s) =>
        let spread := es.filter fun e => e.seq.pos && decide (1 < e.seq.chips)
        match readAll s p (es.flatMap (queryRanges d) ++ spread.map fun e => (e.seq.chipMap, 2 * e.seq.chips)) with
        | (.ok, s) =>
          let size := ms.length
          let q := match es with | e :: _ => e.seq | [] => seqOf []
          let grp := grouped s p d q.heads size
          let level (e : BatchE) : Nat := splitLevel d es size (bucketOf (entryPages e).2)
          let merging := es.filter fun e => !e.seq.pos || e.seq.slot == atMerge d
          let sending := es.filter fun e => e.seq.pos && e.seq.slot != atMerge d
          let spreadHere := merging.filter fun e => e.seq.pos
          match recordsFor s p d spreadHere with
          | none => if peerLost s p d spreadHere then failStep s p stPeerLost else forEach ms s0 fun s t => parkAt s t .group
          | some (recs, held) =>
            let done_ := (allQueries es).map fun x => (x, evalQuery s d x.1 (level x.1) size grp x.2.1 x.2.2)
            let ws := done_.flatMap (fun x => x.2.2) ++ es.flatMap fun e => pageWork e (level e) size grp
            let of_ (l : List BatchE) := l.eraseDups.flatMap fun e => done_.filter fun x => x.1.1 == e
            let recsOf (x : BatchE × Nat × Nat × Nat) : List (Nat × Bytes) := ((recs.find? fun r => r.1 == x).map (·.2)).getD []
            let roots := (of_ merging).map fun x => (x.1, mergeSlots x.1.1 (recsOf x.1) x.2.1)
            match writeOutputs s p d w merging size grp roots with
            | (.ok, wo, s) =>
              let buckets := es.map fun e => bucketOf (entryPages e).2
              let split := if grp then 0 else splitLevel d es size (minN 15 buckets)
              let s := { s with partials := held }
              let s := setAttnStat s ms (ws ++ wo) split (if grp then 2 else 1)
              groupReturn (sendRecords s p d ((of_ (bucketOrder sending)).map fun x => (x.1, x.2.1))) ms
            | (a, _, s) => libEnd s0 s p ms a
        | (a, s) => libEnd s0 s p ms a
      | (a, _, s) => libEnd s0 s p ms a

def doAttnFwd (p : PartId) (hit : Option TileId) (s : State) : State := attnRow p.val 4 1 hit s (attnFwdBody p.val)

/-- ATTN_FWD: the function of R260, in either decode mode and over any spread of chips (R255 to R271, R279 to R281). -/
def execAttnFwd (p : RoutineCall) (s : State) : Res := done s (doAttnFwd p.part p.hit s)

def doPartialRecord (m : Bytes) (s : State) : State :=
  if s.fab.inbox.contains m = false ∨ msgClass m ≠ 0x24 then s
  else
    let s := takeMsg s m
    match msgRefused s m 0x24 true with
    | some st => refuse s m st
    | none => { s with partials := s.partials ++ [⟨Fin.ofNat 16 (msgPart m), msgPayload m⟩] }

/-- PARTIAL_RECORD: a record reaches the merging slot and is held until its sibling exists (R271, R272). -/
def execPartialRecord (m : Bytes) (s : State) : Res := done s (doPartialRecord m s)

/-! ### Append (R247 to R252) -/

/-- The appended positions that lie on a page. -/
def newOn (e : BatchE) (n : Nat) : List Nat :=
  (List.range e.count).map (e.seq.len + ·) |>.filter fun j => j / 256 == n

/-- The pages of an APPEND that this slot writes. -/
def appendPages (e : BatchE) : List Nat :=
  (span (e.seq.len / 256) ((e.seq.len + e.count - 1) / 256 - e.seq.len / 256 + 1)).filter e.seq.holds

/-- The page already holds positions of the sequence. -/
def openPage (e : BatchE) (n : Nat) : Bool := decide (256 * n < e.seq.len)

/-- A page takes a new frame: one that is entered, or a SHARED last page (R251). -/
def needsFrame (s : State) (e : BatchE) (n : Nat) : Bool := !openPage e n || bitOf (pte s e.seq n) 1

/-- The frame addresses of a zero-terminated list, at most `k` of them (R251), and how its reads end. -/
def frameList (s : State) (p a : Nat) : Nat → Acc × List Nat × State
  | 0 => (.ok, [], s)
  | k + 1 =>
    if a = 0 then (.ok, [], s)
    else match readMem s (.step p) a 8 with
      | (.ok, b, s) =>
        if fieldAt b 0 8 = 0 then (.ok, [], s)
        else let r := frameList s p (a + 8) k; (r.1, fieldAt b 0 8 :: r.2.1, r.2.2)
      | (x, _, s) => (x, [], s)

/-- A page's table entry changed to a frame, with the old frame copied where the page was SHARED (R251). -/
def takeFrame (s : State) (p : Nat) (e : BatchE) (n f : Nat) : Acc × State :=
  let q := e.seq
  let size := q.layers * q.local_.length * q.stride
  let copied : Acc × State :=
    if openPage e n then
      match readMem s (.step p) (pteFrame (pte s q n)) size with
      | (.ok, b, s) => writeMem s (.step p) f b (partPrio s p)
      | (x, _, s) => (x, s)
    else (.ok, s)
  match copied with
  | (.ok, s) => writeMem s (.step p) (pteAddr q n) (leBytes 8 (bitsOf f 11 37 * 2048 + 1)) (partPrio s p)
  | x => x

/-- An appended row's BF16 elements of a KV head (R276). -/
def newRow (s : State) (base : Nat) (e : BatchE) (h j : Nat) : Bytes :=
  peek s (base + ((e.row + (j - e.seq.len)) * e.seq.heads + h) * e.seq.d * 2) (2 * e.seq.d)

/-- A row encoded with blocks of 32 (R110, R111, R248). -/
def encodeRow (f : Fmt) (b : Bytes) : Bytes × Bytes × Nat :=
  (List.range (b.length / 64)).foldl (fun (acc : Bytes × Bytes × Nat) k =>
    let vs := (List.range 32).map fun i => (Fmt.bf16.elem b (32 * k + i), Rnd.rne)
    let o := encodeBlock f vs
    (acc.1 ++ f.packAll o.elems, acc.2.1 ++ leBytes 1 o.scale, acc.2.2 ||| rndFlagBits o.flags ||| b2n o.nanSpread * 128))
    ([], [], 0)

/-- The new keys of a page and head written (R248). -/
def appendKeys (s : State) (p : Nat) (d : Bytes) (e : BatchE) (hl h n : Nat) : Acc × Nat × State :=
  let q := e.seq
  let a := pageAddr s q (atLayer d) hl n
  let rows := (newOn e n).map fun j => (j % 256, newRow s (atQ d) e h j)
  if q.scaled then
    let enc := rows.map fun r => (r.1, encodeRow q.elem r.2)
    let x := accAll enc s fun s r =>
      match writeMem s (.step p) (a + r.1 * q.d) r.2.1 (partPrio s p) with
      | (.ok, s) => writeMem s (.step p) (a + 512 * q.d + r.1 * (q.d / 32)) r.2.2.1 (partPrio s p)
      | y => y
    (x.1, enc.foldl (fun f r => f ||| r.2.2.2) 0, x.2)
  else
    let x := accAll rows s fun s r => writeMem s (.step p) (a + r.1 * q.d * 2) r.2 (partPrio s p)
    (x.1, 0, x.2)

/-- One block of 32 positions of values: the tail updated, the block encoded from it, and a full block's tail cleared; the
positions that the block has not had are +0 in the tail (R249, R250). -/
def appendBlock (s : State) (p : Nat) (d : Bytes) (e : BatchE) (hl h n c : Nat) : Acc × Nat × State :=
  let q := e.seq
  let a := pageAddr s q (atLayer d) hl n
  let ta := q.tail + (atLayer d * q.local_.length + hl) * 64 * q.d
  let new := (newOn e n).filter fun j => j % 256 / 32 == c
  let kept := if 256 * n + 32 * c < q.len then q.len - (256 * n + 32 * c) else 0
  match readMem s (.step p) ta (64 * q.d) with
  | (.ok, tail, s) =>
    let tail := tail.take (kept * 2 * q.d) ++ List.replicate ((32 - kept) * 2 * q.d) 0
    let tail := new.foldl (fun t j => putAt t (j % 32 * 2 * q.d) (newRow s (atO d) e h j)) tail
    let cols := (List.range q.d).map fun i =>
      encodeBlock q.elem ((List.range 32).map fun k => (Fmt.bf16.elem tail (k * q.d + i), Rnd.rne))
    let rows := (List.range 32).flatMap fun k => q.elem.packAll (cols.map fun o => nth 0 o.elems k)
    let full := new.any fun j => j % 32 == 31
    let x := accAll [(a + (256 + 32 * c) * q.d, rows), (a + 520 * q.d + c * q.d, cols.flatMap fun o => leBytes 1 o.scale),
        (ta, if full then List.replicate (64 * q.d) 0 else tail)] s
      fun s w => writeMem s (.step p) w.1 w.2 (partPrio s p)
    (x.1, cols.foldl (fun f o => f ||| rndFlagBits o.flags ||| b2n o.nanSpread * 128) 0, x.2)
  | (x, _, s) => (x, 0, s)

/-- The new values of a page and head written. -/
def appendValues (s : State) (p : Nat) (d : Bytes) (e : BatchE) (hl h n : Nat) : Acc × Nat × State :=
  let q := e.seq
  if q.scaled then
    (((newOn e n).map fun j => j % 256 / 32).eraseDups).foldl (fun (acc : Acc × Nat × State) c =>
      match acc.1 with
      | .ok => let r := appendBlock acc.2.2 p d e hl h n c; (r.1, acc.2.1 ||| r.2.1, r.2.2)
      | _ => acc) (.ok, 0, s)
  else
    let a := pageAddr s q (atLayer d) hl n
    let x := accAll (newOn e n) s fun s j =>
      writeMem s (.step p) (a + (256 + j % 256) * q.d * 2) (newRow s (atO d) e h j) (partPrio s p)
    (x.1, 0, x.2)

/-- One entry of an APPEND: frames taken, keys and values of every page and head written, LEN raised (R247). -/
def appendEntry (s : State) (p : Nat) (d : Bytes) (e : BatchE) (frames : List Nat) : Acc × Nat × State :=
  let q := e.seq
  let pages := appendPages e
  let taking := pages.filter (needsFrame s e)
  match accAll (taking.zip frames) s (fun s x => takeFrame s p e x.1 x.2) with
  | (.ok, s) =>
    let work := pages.flatMap fun n => (q.local_.mapIdx fun hl h => (n, hl, h))
    let r := work.foldl (fun (acc : Acc × Nat × State) x =>
      match acc.1 with
      | .ok =>
        match appendKeys acc.2.2 p d e x.2.1 x.2.2 x.1 with
        | (.ok, f, s) => let v := appendValues s p d e x.2.1 x.2.2 x.1; (v.1, acc.2.1 ||| f ||| v.2.1, v.2.2)
        | y => y
      | _ => acc) (.ok, 0, s)
    match r with
    | (.ok, f, s) =>
      let w := writeMem s (.step p) e.seqA (leBytes 4 (q.len + e.count)) (partPrio s p)
      (w.1, f, w.2)
    | y => y
  | (a, s) => (a, 0, s)

/-- The frames that the entries of an APPEND take, each from its own list; none where a list is short (R252). -/
def gatherFrames (s : State) (p : Nat) : List BatchE → Acc × Option (List (BatchE × List Nat)) × State
  | [] => (.ok, some [], s)
  | e :: es =>
    let need := ((appendPages e).filter (needsFrame s e)).length
    match frameList s p e.frames need with
    | (.ok, l, s) =>
      if l.length < need then (.ok, none, s)
      else
        let r := gatherFrames s p es
        (r.1, r.2.1.map fun x => (e, l) :: x, r.2.2)
    | (a, _, s) => (a, none, s)

def attnAppendBody (p : Nat) (s0 : State) (d : Bytes) (es : List BatchE) (ms : List Nat) (s : State) : State :=
  let rows := es.flatMap fun e => if (appendPages e).isEmpty then [] else
    [(atQ d + e.row * e.seq.heads * e.seq.d * 2, e.count * e.seq.heads * e.seq.d * 2),
     (atO d + e.row * e.seq.heads * e.seq.d * 2, e.count * e.seq.heads * e.seq.d * 2)]
  match readAll s p ((es.flatMap fun e => (appendPages e).map fun n => (pteAddr e.seq n, 8)) ++ rows) with
  | (.ok, s) =>
    if es.any (fun e => (appendPages e).any fun n => openPage e n && !bitOf (pte s e.seq n) 0) then badPage s ms
    else match gatherFrames s p es with
      | (.ok, none, s) => failStep s p stNoResource
      | (.ok, some l, s) =>
        let copies := es.any fun e => (appendPages e).any fun n => openPage e n && needsFrame s e n
        let r := l.foldl (fun (acc : Acc × Nat × State) x =>
          match acc.1 with
          | .ok => let v := appendEntry acc.2.2 p d x.1 x.2; (v.1, acc.2.1 ||| v.2.1, v.2.2)
          | _ => acc) (.ok, 0, s)
        match r with
        | (.ok, f, s) =>
          let (k, s) := takeFree s
          let ws := ms.mapIdx fun i _ => { member := i, pages := if copies then freeAt k i % 65536 else 0, live := 1,
                                           flags := if i = 0 then f else 0 : Work }
          groupReturn (setAttnStat s ms ws 0 0) ms
        | (a, _, s) => libEnd s0 s p ms a
      | (a, _, s) => libEnd s0 s p ms a
  | (a, s) => libEnd s0 s p ms a

def doAttnAppend (p : PartId) (hit : Option TileId) (s : State) : State := attnRow p.val 5 2 hit s (attnAppendBody p.val)

/-- ATTN_APPEND (R247 to R252). -/
def execAttnAppend (p : RoutineCall) (s : State) : Res := done s (doAttnAppend p.part p.hit s)

/-! ### Backward (R282 to R286) -/

/-- BF16 rows of a tensor of query rows. -/
def bfRow (s : State) (base : Nat) (q : SeqD) (r k : Nat) : List W32 :=
  let b := peek s (base + rowEl q r k * 2) (2 * q.d)
  (List.range q.d).map fun i => f32Of (Fmt.bf16.elem b i)

/-- What the backward pass computes for one query, query head and visible position: p and ds as rounded for products. -/
structure BwdEl where
  p : W32
  ds : W32
  fl : Nat
  deriving DecidableEq, Repr

def bwdEl (d : Bytes) (qv key : ScaledVec) (val do_ : List W32) (l dlt : W32) : BwdEl :=
  let (x0, f0) := dotVec qv key
  let x := f32Mul x0 (atScale d)
  let y := f32Sub x l
  let p := f32Exp y
  let (dp, f1) := chainMul do_ val
  let z := f32Sub dp dlt
  let ds := f32Mul p z
  let bf (w : W32) : W32 := f32Of (Fmt.bf16.decode (Fmt.bf16.encode false .rne (f32Val w)).1)
  { p := bf p, ds := bf ds
    fl := f0 ||| f1 ||| opFlag [x0, atScale d] x ||| opFlag [x, l] y ||| opFlag [y] p ||| opFlag [dp, dlt] z ||| opFlag [p, z] ds }

/-- Chains of products added in order (R230): the value after the last, +0 with no product, and TILE_FPSTAT bits. -/
def sumChains (cs : List (List (Option (W32 × Nat)))) : W32 × Nat :=
  (cs.foldl (fun (acc : Option (W32 × Nat)) c => fNode acc (chainOpt c)) none).getD (f32Zero, 0)

/-- The gradients of an entry's queries, keys and values: elements of dQ by row and column, of dK and dV by row of the
entry's part of DKV and column; TILE_FPSTAT bits. Where the query sees pages of other slots, the slots' sums would have to be
combined, which the specification does not describe; dQ is a free value of the layout-independent sum (R286; log entry 35). -/
def bwdEntry (s : State) (d : Bytes) (fresh : Nat) (e : BatchE) : List ((Nat × Nat) × Num) × List ((Nat × Nat) × Num) × Nat :=
  let q := e.seq
  let layer := atLayer d
  let bf (l : List (Num × Nat)) : List (W32 × Nat) := l.map fun x => if q.scaled then toBf16 (scaledNum x.2 x.1) else (f32Of x.1, 0)
  let alone := (span (entryPages e).1 (entryPages e).2).all q.holds
  let mine := (List.range q.len).filter fun j => q.holds (j / 256) && decide (e.vis ≤ j) && decide (j < visEnd e (e.count - 1))
  let per := (q.local_.mapIdx fun hl h => (hl, h)).map fun hh =>
    let keys := mine.map fun j => (j, keyRow s q layer hh.1 j)
    let kb := keys.map fun k => (k.1, bf (k.2.elems.mapIdx fun i v => (v, k.2.code i)))
    let vb := mine.map fun j => (j, bf (valueRow s q layer hh.1 j))
    let heads := (List.range q.qpk).map (hh.2 * q.qpk + ·)
    let qs := (List.range e.count).flatMap fun u => heads.map fun k =>
      let qv := queryVec s d e u k
      let do_ := bfRow s (atDo d) q (e.row + u) k
      let o := bfRow s (atO d) q (e.row + u) k
      let dl := chainMul do_ o
      let l := BitVec.ofNat 32 (fieldAt (peek s (atL d + ((e.row + u) * (q.heads * q.qpk) + k) * 4) 4) 0 4)
      let els := ((keys.zip vb).filter fun x => decide (x.1.1 < visEnd e u)).map fun x =>
        (x.1.1, bwdEl d qv x.1.2 (x.2.2.map (·.1)) do_ l dl.1)
      (u, k, qv, do_, els, dl.2)
    let qb := qs.map fun x => (x.1, x.2.1, (bf (x.2.2.1.elems.mapIdx fun i v => (v, x.2.2.1.code i))).map (·.1), x.2.2.2.1, x.2.2.2.2.1)
    let flags := qs.foldl (fun f x => x.2.2.2.2.1.foldl (fun f y => f ||| y.2.fl) (f ||| x.2.2.2.2.2))
      ((kb ++ vb).foldl (fun f x => x.2.foldl (fun f y => f ||| y.2) f) 0)
    let dq := qs.flatMap fun x => (List.range q.d).map fun i =>
      let pages := (mine.map (· / 256)).eraseDups
      let cs := pages.map fun n => (List.range 256).map fun r =>
        (x.2.2.2.2.1.find? fun y => y.1 == 256 * n + r).bind fun y =>
          (kb.find? fun k => k.1 == y.1).map fun k => mulFlag y.2.ds (nth (f32Zero, 0) k.2 i).1
      let v := sumChains cs
      let r := if alone then mulFlag v.1 (atScale d)
        else (BitVec.ofNat 32 (freeAt fresh (rowEl q (e.row + x.1) x.2.1 + i)), 0)
      (((e.row + x.1, x.2.1 * q.d + i), f32Val r.1), v.2 ||| r.2)
    let blocks := (List.range (ceilDiv e.count (atQblock d))).flatMap fun b => heads.map fun k => (b, k)
    let el (b k r j : Nat) : Option (BwdEl × List W32 × List W32) :=
      (qb.find? fun x => x.1 == b * atQblock d + r && x.2.1 == k).bind fun x =>
        (x.2.2.2.2.find? fun y => y.1 == j).map fun y => (y.2, x.2.2.1, x.2.2.2.1)
    let dkv := (List.range q.len).filter (fun j => q.holds (j / 256)) |>.flatMap fun j => (List.range q.d).flatMap fun i =>
      let sum (f : BwdEl × List W32 × List W32 → W32 × Nat) : W32 × Nat :=
        sumChains (blocks.map fun bk => (List.range (atQblock d)).map fun r => (el bk.1 bk.2 r j).map f)
      let ks := sum fun x => mulFlag x.1.ds (nth f32Zero x.2.1 i)
      let dk := mulFlag ks.1 (atScale d)
      let dv := sum fun x => mulFlag x.1.p (nth f32Zero x.2.2 i)
      [((((hh.2 * q.len + j) * 2, i), f32Val dk.1), ks.2 ||| dk.2), ((((hh.2 * q.len + j) * 2 + 1, i), f32Val dv.1), dv.2)]
    (dq.map (·.1), dkv.map (·.1), (dq.map (·.2) ++ dkv.map (·.2)).foldl (· ||| ·) flags)
  (per.flatMap (·.1), per.flatMap (·.2.1), per.foldl (fun f x => f ||| x.2.2) 0)

def bwdRanges (d : Bytes) (e : BatchE) : List (Nat × Nat) :=
  let q := e.seq
  queryRanges d e ++ (List.range e.count).flatMap fun u => (myHeads q).flatMap fun k =>
    let i := rowEl q (e.row + u) k.1
    [(atO d + 2 * i, 2 * q.d), (atDo d + 2 * i, 2 * q.d), (atL d + i / q.d * 4, 4)]

def attnBwdBody (p : Nat) (s0 : State) (d : Bytes) (es : List BatchE) (ms : List Nat) (s : State) : State :=
  match libWcb s (nth 0 ms 0) (fieldAt d 0x14 4) with
  | none => libFault s ms 0x03
  | some w =>
    if wcbOk w none = false then libFault s ms 0x09
    else match readCache s p d es with
      | (.ok, false, s) => badPage s ms
      | (.ok, true, s) =>
        match readAll s p (es.flatMap (bwdRanges d)) with
        | (.ok, s) =>
          let q := match es with | e :: _ => e.seq | [] => seqOf []
          let (k, s) := takeFree s
          let gs := es.map fun e => (e, bwdEntry s d k e)
          let kvRows (e : BatchE) : Nat := e.seq.heads * e.seq.len * 2
          let base (i : Nat) : Nat := sumN ((es.take i).map kvRows)
          let dq := tensorOut s w (atDq d) (maxN (es.map fun e => e.row + e.count)) (q.heads * q.qpk * q.d) (gs.flatMap fun g => g.2.1)
          let dkv := tensorOut s w (atDkv d) (sumN (es.map kvRows)) q.d
            ((gs.mapIdx fun i g => g.2.2.1.map fun x => ((x.1.1 + base i, x.1.2), x.2)).flatten)
          let fl := gs.foldl (fun f g => f ||| g.2.2.2) (dq.2 ||| dkv.2)
          match writeRuns s (.step p) (partPrio s p) (dq.1 ++ dkv.1) with
          | (.ok, s) =>
            let ws := ms.mapIdx fun i _ => { member := i, pages := freeAt k i % 65536, live := 1, flags := if i = 0 then fl else 0 : Work }
            groupReturn (setAttnStat s ms ws 0 0) ms
          | (a, s) => libEnd s0 s p ms a
        | (a, s) => libEnd s0 s p ms a
      | (a, _, s) => libEnd s0 s p ms a

def doAttnBwd (p : PartId) (hit : Option TileId) (s : State) : State := attnRow p.val 6 3 hit s (attnBwdBody p.val)

/-- ATTN_BWD: the recomputed scores and the gradients in their fixed orders (R282 to R286). -/
def execAttnBwd (p : RoutineCall) (s : State) : Res := done s (doAttnBwd p.part p.hit s)

end Sys2Proof.Machine
end

