-- ==== Sys2Proof/Machine/HostPort.lean ====
section
/-! DEFINITION. The commands of chapter 14: queues, doorbells, fetching and admission, output pages, function resets, the
BAR4 aperture and the host's time. -/

namespace Sys2Proof.Machine
open Sys2Proof

def setHost (s : State) (f : HostPort → HostPort) : State := { s with host := f s.host }

/-! ### Creating and deleting queues -/

/-- A queue descriptor of R694 read, its device-written fields ignored. -/
def queueOf (b : Bytes) : Queue :=
  { st := .active, ring := fieldAt b 0 8, cpl := fieldAt b 8 8, pring := fieldAt b 0x10 8, hold := fieldAt b 0x18 8
    ringLog := fieldAt b 0x20 1, cplLog := fieldAt b 0x21 1, prLog := fieldAt b 0x22 1, page := fieldAt b 0x23 1
    part := fieldAt b 0x24 1, fn := fieldAt b 0x25 1, flags := fieldAt b 0x26 1, client := fieldAt b 0x28 2
    vector := fieldAt b 0x2A 2, vslot := fieldAt b 0x2C 2, hostTmo := fieldAt b 0x2E 2 }

def pageSize (d : Queue) : Nat := if d.page = 0 then 4096 else 65536

def logOk (n : Nat) : Bool := decide (4 ≤ n) && decide (n ≤ 20)

/-- The range of a partition's FIXED region (R694, R584). -/
def inFixed (s : State) (p a n : Nat) : Bool :=
  s.tier.regions.any fun r => !r.backed && r.part.val == p && decide (r.base ≤ a) && decide (a + n ≤ r.base + r.size)

/-- A descriptor within the ranges of R694. -/
def queueOk (s : State) (d : Queue) : Bool :=
  d.ring % 4096 == 0 && d.cpl % 4096 == 0 && d.pring % 4096 == 0 && logOk d.ringLog && logOk d.cplLog
    && (if d.pring = 0 then d.hold == 0 && d.prLog == 0
        else logOk d.prLog && d.hold % pageSize d == 0 && inFixed s d.part d.hold (pageSize d))
    && decide (d.page ≤ 1) && decide (d.fn ≤ 16) && decide (d.flags < 8) && decide (d.client < 4096)
    && (if d.part = 0xFF then d.fn == 0
        else decide (d.part < 16) && ((partAt s d.part).st == .idle || (partAt s d.part).st == .running))
    && (if d.fn = 0 then d.vslot == 0 && decide (d.vector < 2048) else decide (d.vector < 64))
    && (!bitOf d.flags 1
        || canRead s (.host (if d.part = 0xFF then none else some d.part)) d.ring (64 * 2 ^ min 20 d.ringLog))

/-- Queues of a VF created by QUE_CREATE. -/
def vfQueues (s : State) (v : Nat) : List Nat :=
  (s.host.queues.filter fun e => e.2.fn == v && decide (17 ≤ e.1)).map (·.1)

/-- The lowest FREE queue numbered 17 or above (R699). -/
def lowestFree (s : State) : Option Nat :=
  ((List.range (s.host.queues.length + 1)).map (17 + ·)).find? fun q =>
    (queueAt s q).st == .free && decide (q < 1048576)

def setQueue (s : State) (q : Nat) (d : Queue) : State := modQueue s q fun _ => d

/-- The outcome of QUE_CREATE (R698, R699): a refusal, or the queue and its descriptor. -/
def queCreateCheck (s : State) (c : Cmd) (b : Bytes) : Status × Nat × Queue :=
  let d := queueOf b
  let limitOf (v : Nat) : Option VfBind := bindAt s v
  if c.fn = 0 then
    let q := fieldAt c.inl 0 4 % 2 ^ 20
    if (queueAt s q).st ≠ .free ∨ q ≤ 16 ∨ queueOk s d = false then (stBadDescriptor, 0, d)
    else if d.fn = 0 then (stOk, q, d)
    else
      match limitOf d.fn with
      | none => (stBadDescriptor, 0, d)
      | some bd =>
        if bd.part.val ≠ d.part ∨ (queueByVslot s d.fn d.vslot).isSome then (stBadDescriptor, 0, d)
        else if bd.limit ≤ (vfQueues s d.fn).length then (stNoResource, 0, d)
        else (stOk, q, d)
  else
    let vs := fieldAt c.inl 0 2
    let d := { d with fn := c.fn, part := c.part, vslot := vs }
    match limitOf c.fn with
    | none => (stBadDescriptor, 0, d)
    | some bd =>
      if bitsOf (fieldAt c.inl 0 4) 16 4 ≠ 0 ∨ (queueByVslot s c.fn vs).isSome ∨ queueOk s d = false then
        (stBadDescriptor, 0, d)
      else if bd.limit ≤ (vfQueues s c.fn).length then (stNoResource, 0, d)
      else match lowestFree s with
        | none => (stNoResource, 0, d)
        | some q => (stOk, q, d)

def doQueCreate (cid : Nat) (s : State) : State :=
  match cmdFor s cid 0x0002 with
  | none => s
  | some c =>
    let s := beginCmd s cid
    withPayload s c 64 fun s b =>
      let x := queCreateCheck s c b
      if x.1 = stOk then complete (setQueue s x.2.1 x.2.2) cid stOk (if c.fn = 0 then 0 else x.2.1)
      else complete s cid x.1

/-- QUE_CREATE (R694, R698, R699, R702). -/
def execQueCreate (cid : Nat) (s : State) : Res := done s (doQueCreate cid s)

/-- A queue's deletion begins: entries fetched and not admitted complete with `st`, and it drains. Its output goes on until its last
command has ended; a page still in holdback is then discarded (R702, R731). -/
def drainBegin (s : State) (q : Nat) (cid : Option Nat) (st : Status) : State :=
  let es := (queueAt s q).entries
  let s := forEach es s fun s e => writeRecord s q (fieldAt e.bytes 4 4) st 0
  let s := setHost s fun h => { h with coalescer := h.coalescer.filter fun e => e.1 != q, bitmap := Tbl.drop h.bitmap q }
  drainQueue (modQueue s q fun d =>
    { d with st := .draining, entries := [], fetching := none, deleteCid := cid }) q

def doQueDelete (cid : Nat) (s : State) : State :=
  match cmdFor s cid 0x0003 with
  | none => s
  | some c =>
    let s := beginCmd s cid
    let n := fieldAt c.inl 0 4 % 2 ^ 20
    let q? := if c.fn = 0 then some n else if n / 2 ^ 16 ≠ 0 then none else queueByVslot s c.fn n
    match q? with
    | none => complete s cid stBadDescriptor
    | some q =>
      let st := (queueAt s q).st
      if q ≤ 16 ∨ st = .free ∨ st = .draining then complete s cid stBadDescriptor
      else drainBegin s q (some cid) stAborted

/-- QUE_DELETE (R699, R702, R731). -/
def execQueDelete (cid : Nat) (s : State) : Res := done s (doQueDelete cid s)

def doNopCommand (cid : Nat) (s : State) : State :=
  match cmdFor s cid 0x0001 with
  | none => s
  | some _ => complete (beginCmd s cid) cid stOk

/-- NOP of the command interface (R697). -/
def execNopCommand (cid : Nat) (s : State) : Res := done s (doNopCommand cid s)

def doVfBind (cid : Nat) (s : State) : State :=
  match cmdFor s cid 0x0004 with
  | none => s
  | some c =>
    let s := beginCmd s cid
    let v := c.byte 0
    let p := c.byte 1
    let st := (partAt s p).st
    if c.fn ≠ 0 ∨ v = 0 ∨ 16 < v ∨ 16 ≤ p ∨ st = .none ∨ st = .deleting then complete s cid stBadDescriptor
    else
      let bd : VfBind := ⟨Fin.ofNat 16 p, fieldAt c.inl 4 4⟩
      complete (setHost s fun h => { h with binds := Tbl.put none h.binds v (some bd) }) cid stOk

/-- VF_BIND (R697, R698, R784). -/
def execVfBind (cid : Nat) (s : State) : Res := done s (doVfBind cid s)

/-! ### Remote commands -/

def doRemoteCpl (m : Bytes) (s : State) : State :=
  let s := takeMsg s m
  match msgRefused s m 0 false with
  | some st => refuse s m st
  | none =>
    let e := (msgPayload m).take 64
    if fieldAt e 0 2 ≠ 0x0006 then s
    else match s.host.remote.find? fun r => r.msgTag.toNat == msgTag m with
      | none => s
      | some r =>
        let s := setHost s fun h => { h with remote := h.remote.filter fun x => x.msgTag.toNat != msgTag m }
        complete s r.cid (BitVec.ofNat 16 (fieldAt e 0x2C 2)) (fieldAt e 0x30 8)

/-- REMOTE_CPL (R700): the status and INFO of a remote command reach the queue that sent it. -/
def execRemoteCpl (m : Bytes) (s : State) : Res := done s (doRemoteCpl m s)

/-- An entry with REMOTE sent to its destination (R700). -/
def sendRemote (s : State) (c : Cmd) (e : Bytes) : State :=
  let dst := fieldAt e 0x24 2
  if c.fn ≠ 0 ∨ bitOf dst 15 ∨ 65472 < c.payLen then complete s c.id stBadDescriptor
  else withPayload s c 0 fun s pay =>
    let (tag, s) := newTag s
    let clear := putAt e 2 (leBytes 1 (fieldAt e 2 1 - 16))
    match sendMsg s { byPhys := false, dst, cls := 0, tag, aux := c.client, payload := clear ++ pay } with
    | (some st, s) => complete s c.id st
    | (none, s) =>
      modCmd (setHost s fun h => { h with remote := h.remote ++ [⟨c.id, BitVec.ofNat 32 tag⟩] }) c.id fun c =>
        { c with started := true, begun := some s.now }

/-! ### Doorbells (R706 to R711, R714) -/

/-- The host's own writes to its memory, made before a doorbell (PCI Express ordering). -/
def hostStores (s : State) (stores : List (Nat × Byte)) : State :=
  { s with hostMem := stores.foldl (fun m e => Tbl.put 0 m e.1 e.2) s.hostMem }

/-- The queue of a doorbell at an offset of BAR2, and whether it is the credit doorbell. -/
def doorbellQueue (s : State) (fn off : Nat) : Option Nat × Bool :=
  if fn = 0 then
    let n := off % 0x800000 / 8
    (if off < 0x1000000 ∧ (queueAt s n).fn = 0 ∧ (queueAt s n).st ≠ .free then some n else none, decide (0x800000 ≤ off))
  else (if off < 0x100000 then queueByVslot s fn (off % 0x80000 / 8) else none, decide (0x80000 ≤ off))

def dropDoorbell (s : State) (fn : Nat) : State := regAddSat s ⟨.hostDbstat, fn, 0⟩ 16 16 1

/-- The at-time of a timed doorbell (R708). -/
def doorTime (now v : Nat) : Nat :=
  let b := bitsOf v 24 39 * 1024
  let lo : Int := (now : Int) - 2 ^ 48
  (lo + ((b : Int) - lo) % 2 ^ 49).toNat

/-- A doorbell into the coalescer, or past it into the pending bitmap (R710). -/
def coalesce (s : State) (fn q tail : Nat) (at_ : Option Nat) : State :=
  let v := (tail, at_, s.now)
  let h := s.host
  if h.coalescer.any (fun e => e.1 == q) then
    setHost s fun h => { h with coalescer := h.coalescer.map fun e => if e.1 = q then (q, v) else e }
  else if (Tbl.get none h.bitmap q).isSome then setHost s fun h => { h with bitmap := Tbl.put none h.bitmap q (some v) }
  else if h.coalescer.length < 4096 then setHost s fun h => { h with coalescer := h.coalescer ++ [(q, v)] }
  else regOr (setHost s fun h => { h with bitmap := Tbl.put none h.bitmap q (some v) }) ⟨.hostDbspill, fn, 0⟩ (2 ^ 31)

def doSubmissionDoorbell (fn : FnId) (off : Nat) (v : W64) (stores : List (Nat × Byte)) (s : State) : State :=
  let s := hostStores s stores
  if noFn s fn.val || !s.pwr.powered || off % 8 != 0 then s
  else
    let w := v.toNat
    match doorbellQueue s fn.val off with
    | (_, true) => s
    | (none, false) => dropDoorbell s fn.val
    | (some q, false) =>
      if !inRun s then dropDoorbell s fn.val
      else
      let d := queueAt s q
      let tail := bitsOf w 0 20
      let timed := bitOf w 63
      if bitsOf w 20 4 ≠ 0 ∨ (!timed ∧ bitsOf w 24 39 ≠ 0) then dropDoorbell s fn.val
      else if d.st ≠ .active ∨ tail = d.tail then s
      else if 2 ^ d.ringLog ≤ tail then queueError s q stBadDescriptor
      else
        coalesce (modQueue s q fun d => { d with tail }) fn.val q tail (if timed then some (doorTime s.now w) else none)

/-- SUBMISSION_DOORBELL (R706 to R710, R862: before RUN it is dropped). `stores` are the writes the host made to its own memory before it. -/
def execSubmissionDoorbell (fn : FnId) (off : Nat) (v : W64) (stores : List (Nat × Byte)) (s : State) : Res :=
  done s (doSubmissionDoorbell fn off v stores s)

/-! ### Output pages (R716 to R720) -/

def armed (d : Queue) : Bool := decide (d.prTail < d.prHead)

/-- A complete page posted to the next armed entry (R719): its bytes, then BYTES, SEQ and FLAGS with READY. -/
def postPage (s : State) (q : Nat) : State :=
  let d := queueAt s q
  match d.holdFull with
  | none => s
  | some (end_, _) =>
    if !armed d then s
    else match readMem s .device d.hold d.holdLen with
      | (.ok, b, s) =>
        let e := d.pring + 16 * (d.prTail % 2 ^ d.prLog)
        let addr := leNat (bytesAt 0 s.hostMem e 8)
        let tailBytes := leBytes 4 d.holdLen ++ leBytes 2 d.prTail ++ leBytes 2 (1 + b2n end_ * 2)
        let s := { s with hostMem := putBytes 0 (putBytes 0 s.hostMem addr b) (e + 8) tailBytes }
        let s := modQueue s q fun d =>
          { d with prTail := d.prTail + 1, holdLen := 0, holdFull := none, hostStall := false }
        if bitOf d.flags 2 then signalVec s d.fn d.vector else s
      | (.wait, _, _) => s
      | (_, _, s) => queueError s q stTierFail

/-- A complete page whose holdback had to wait is posted as time passes (R411, R719). -/
def pageTick (s : State) : State :=
  forEach (s.host.queues.filter fun e => e.2.holdFull.isSome && armed e.2) s fun s e => postPage s e.1

def doCreditDoorbell (fn : FnId) (off : Nat) (v : W64) (stores : List (Nat × Byte)) (s : State) : State :=
  let s := hostStores s stores
  if noFn s fn.val || !s.pwr.powered || off % 8 != 0 then s
  else
    let w := v.toNat
    match doorbellQueue s fn.val off with
    | (_, false) => s
    | (none, true) => dropDoorbell s fn.val
    | (some q, true) =>
      if !inRun s then dropDoorbell s fn.val
      else
      let d := queueAt s q
      let n := 2 ^ d.cplLog
      let m := 2 ^ d.prLog
      let ch := bitsOf w 0 20
      let ph := bitsOf w 32 20
      let newC := d.cplHead + (ch + n - d.cplHead % n) % n
      let newP := d.prHead + (ph + m - d.prHead % m) % m
      let badP := d.pring ≠ 0 ∧ (m ≤ ph ∨ d.prTail + m ≤ newP)
      if bitsOf w 20 12 ≠ 0 ∨ bitsOf w 52 12 ≠ 0 ∨ n ≤ ch ∨ d.cplTail < newC ∨ badP then dropDoorbell s fn.val
      else
        postPage (modQueue s q fun d => { d with cplHead := newC, prHead := if d.pring = 0 then d.prHead else newP }) q

/-- CREDIT_DOORBELL (R714, R717, R719, R720): completion records and page entries returned; a waiting page is posted. -/
def execCreditDoorbell (fn : FnId) (off : Nat) (v : W64) (stores : List (Nat × Byte)) (s : State) : Res :=
  done s (doCreditDoorbell fn off v stores s)

/-! ### Fetching (R711, R712) -/

/-- Completion records not reserved for an entry or holding one unconsumed. -/
def freeRecords (s : State) (q : Nat) : Nat :=
  let d := queueAt s q
  2 ^ d.cplLog - (d.cplTail - d.cplHead) - d.entries.length - (queueCmds s q).length
    - (match d.fetching with | some f => f.1 | none => 0)

/-- A queue may be taken for fetch now: its at-time has come, its function is in D0, and no read of it is on its way. -/
def fetchable (s : State) (e : Nat × Nat × Option Nat × Nat) : Bool :=
  let d := queueAt s e.1
  d.st == .active && d.fetching.isNone && !Tbl.get false s.host.d3hot d.fn
    && (match e.2.2.1 with | some t => decide (t ≤ s.now) | none => true)
    && decide (0 < freeRecords s e.1)

/-- The next queue to fetch: the oldest in the coalescer, else the next pending bit from the scan's position (R711). -/
def nextFetch (s : State) : Option (Nat × Nat × Option Nat × Nat) :=
  match s.host.coalescer.find? (fetchable s) with
  | some e => some e
  | none =>
    let bits := s.host.bitmap.filterMap fun e => e.2.map fun v => (e.1, v)
    match bits.find? (fun e => decide (s.host.scan ≤ e.1) && fetchable s e) with
    | some e => some e
    | none => bits.find? (fetchable s)

def doQueueFetch (s : State) : State :=
  match nextFetch s with
  | none => s
  | some (q, tail, at_, arr) =>
    let d := queueAt s q
    let ring := 2 ^ d.ringLog
    let want := (tail + ring - d.head % ring) % ring
    let k := min (min want 32) (freeRecords s q)
    let inCoal := s.host.coalescer.any fun e => e.1 == q
    let s := setHost s fun h =>
      { h with coalescer := h.coalescer.filter (fun e => e.1 != q) ++ (if inCoal && k < want then [(q, tail, at_, arr)] else [])
               bitmap := if !inCoal && k < want then h.bitmap else Tbl.drop h.bitmap q
               scan := if inCoal then h.scan else (q + 1) % 1048576 }
    if k = 0 then s else modQueue s q fun d => { d with fetching := some (k, at_, arr) }

/-- QUEUE_FETCH (R708, R711, R712): one queue taken, and a read of at most 32 entries sent. -/
def execQueueFetch (s : State) : Res := done s (doQueueFetch s)

def queueWho (d : Queue) : Who := .host (if d.part = 0xFF then none else some d.part)

/-- The entries of a fetch read from the ring, each from its index. -/
def readEntries (s : State) (d : Queue) (k : Nat) : Acc × List Bytes × State :=
  let addr (i : Nat) : Nat := d.ring + 64 * ((d.head + i) % 2 ^ d.ringLog)
  if !bitOf d.flags 1 then (.ok, (List.range k).map fun i => bytesAt 0 s.hostMem (addr i) 64, s)
  else (List.range k).foldl (fun acc i =>
    match acc with
    | (.ok, bs, s) => match readMem s (queueWho d) (addr i) 64 with
      | (.ok, b, s) => (.ok, bs ++ [b], s)
      | (a, _, s) => (a, bs, s)
    | x => x) (.ok, [], s)

def doEntryFetchDone (q : Nat) (ok : Bool) (s : State) : State :=
  let d := queueAt s q
  match d.fetching with
  | none => s
  | some (k, at_, arr) =>
    if d.st ≠ .active then s
    else if !ok then queueError s q stBadDescriptor
    else match readEntries s d k with
      | (.ok, bs, s) => modQueue s q fun d =>
          { d with head := d.head + k, fetching := none, entries := d.entries ++ bs.map fun b => ⟨b, at_, arr⟩ }
      | (.wait, _, _) => s
      | (.fail _, _, s) => queueError s q stTierFail
      | (_, _, s) => queueError s q stBadDescriptor

/-- ENTRY_FETCH_DONE (R702, R703, R731): the read of a queue's entries completes, well or with an error. -/
def execEntryFetchDone (q : Nat) (ok : Bool) (s : State) : Res := done s (doEntryFetchDone q ok s)

def doEntryFetchTimeout (q : Nat) (s : State) : State :=
  if (queueAt s q).fetching.isSome then queueError s q stHostStall else s

/-- ENTRY_FETCH_TIMEOUT (R702, R703): no completion within the completion timeout. -/
def execEntryFetchTimeout (q : Nat) (s : State) : Res := done s (doEntryFetchTimeout q s)

/-! ### Admission (R722 to R725) -/

/-- The opcodes of R697, R744 and the chapters on power, keys and update that a queue may carry. -/
def knownOpcodes : List Nat :=
  [0x01, 0x02, 0x03, 0x04, 0x10, 0x11, 0x20, 0x21, 0x22, 0x23, 0x24, 0x30, 0x31, 0x40, 0x41, 0x42, 0x43, 0x44,
   0x50, 0x51, 0x52, 0x53, 0x54, 0x100, 0x101, 0x102, 0x110, 0x120, 0x121, 0x130, 0x140, 0x200, 0x201,
   0x300, 0x301, 0x310, 0x311, 0x312, 0x400, 0x401, 0x402, 0x403]

/-- The at-time of an entry (R723). -/
def entryAt (e : Entry) : Option Nat :=
  let a := if bitOf (fieldAt e.bytes 2 1) 0 then some (fieldAt e.bytes 8 8) else none
  match a, e.doorAt with
  | some x, some y => some (max x y)
  | some x, none => some x
  | none, y => y

/-- The fields of an entry within R695. -/
def entryOk (b : Bytes) : Bool :=
  decide (fieldAt b 2 1 < 32) && zeroAt b 3 1 && decide (fieldAt b 0x20 4 ≤ 1048576) && zeroAt b 0x26 2
    && (bitOf (fieldAt b 2 1) 4 || zeroAt b 0x24 2)

/-- A step numbered above the AFTER_STEP of a take admitted and not yet snapshot is not admitted (R588). -/
def stepBarred (s : State) (p : Nat) : Bool :=
  let next := (partAt s p).stepNum.toNat + (partAt s p).waiting.length + 1
  s.host.cmds.any fun c => c.opcode == 0x42 && (match Tbl.get none s.ckpt.takes p with | some t => t.cid != c.id | none => true)
    && fieldAt c.inl 0 1 == p && decide (fieldAt c.inl 8 8 < next)

/-- A deadline step counted by its ending (R787). -/
def dlmCount (s : State) (p lo : Nat) : State := regAddSat s ⟨.dlmCnt, 0, p⟩ lo 16 1

/-- A STEP_START whose deadline has passed under END is discarded (R774). -/
def deadlineGone (s : State) (pay : Bytes) : Bool :=
  let p := fieldAt pay 0 1
  let dl := fieldAt pay 0x18 8
  match (partAt s p).dlm with
  | some m => m.end_ && dl != 0 && decide (dl < s.now)
  | none => false

/-- An entry becomes a command (R695, R722): who pays, where it runs, when it was due. -/
def cmdOf (s : State) (q : Nat) (e : Entry) : Cmd :=
  let d := queueAt s q
  let b := e.bytes
  { id := s.host.nextCid, queue := some q, origin := none, opcode := fieldAt b 0 2, flags := fieldAt b 2 1
    tag := BitVec.ofNat 32 (fieldAt b 4 4), at_ := entryAt e
    late := match entryAt e with | some a => decide (a < e.arrival) | none => false
    payload := fieldAt b 0x18 8, payBytes := none, payLen := fieldAt b 0x20 4, inl := (b.drop 0x28).take 24
    fn := d.fn, part := d.part, client := d.client, deadlineQ := bitOf d.flags 0
    notAfter := if bitOf (fieldAt b 2 1) 1 then some (fieldAt b 0x10 8) else none }

/-- A command taken by the command interface: refused at once, sent on, or waiting for its execution. -/
def admitCmd (s : State) (c : Cmd) (entry : Bytes) : State :=
  let s := setHost s fun h => { h with cmds := h.cmds ++ [c], nextCid := h.nextCid + 1 }
  if bitOf c.flags 1 && decide (fieldAt entry 0x10 8 < s.now) then complete s c.id stExpired
  else if !entryOk entry || !knownOpcodes.contains c.opcode then complete s c.id stBadDescriptor
  else if bitOf c.flags 4 then (if c.origin.isSome then complete s c.id stBadDescriptor else sendRemote s c entry)
  else if c.opcode = 0x120 then
    match payloadOf s c with
    | (.ok, pay, s) =>
      if deadlineGone s pay then dlmCount (complete s c.id stExpired) (fieldAt pay 0 1) 32 else s
    | _ => s
  else s

/-- The commands that wait for an ACTIVATE's completion once its pause has ended (R867). -/
def updateOpcodes : List Nat := [0x310, 0x311, 0x312, 0x400, 0x401, 0x402, 0x403]

/-- An ACTIVATE in progress keeps an entry waiting (R867). -/
def activationHolds (s : State) (opcode : Nat) : Bool :=
  s.boot.act.isSome && (!s.boot.actPaused || updateOpcodes.contains opcode)

/-- The admission point of an entry has come (R588, R696, R723, R867). -/
def admissible (s : State) (q : Nat) (e : Entry) : Bool :=
  (queueAt s q).st == .active && s.boot.phase == .run && !activationHolds s (fieldAt e.bytes 0 2)
    && (match entryAt e with | some a => decide (a ≤ s.now) | none => true)
    && (!bitOf (fieldAt e.bytes 2 1) 2 || (queueCmds s q).isEmpty)
    && !(bitOf (fieldAt e.bytes 2 1) 4 && (match payloadOf s (cmdOf s q e) with | (.wait, _, _) => true | _ => false))
    && !(fieldAt e.bytes 0 2 == 0x120 && !bitOf (fieldAt e.bytes 2 1) 4
          && (match payloadOf s (cmdOf s q e) with | (.ok, p, _) => stepBarred s (fieldAt p 0 1) | _ => false))

def doEntryAdmit (q : Nat) (s : State) : State :=
  match (queueAt s q).entries with
  | [] => s
  | e :: rest =>
    if admissible s q e then admitCmd (modQueue s q fun d => { d with entries := rest }) (cmdOf s q e) e.bytes else s

/-- ENTRY_ADMIT (R68, R588, R696 to R700, R722 to R725, R774): the next entry of a queue is admitted, or discarded with
EXPIRED, once its at-time has passed. -/
def execEntryAdmit (q : Nat) (s : State) : Res := done s (doEntryAdmit q s)

/-! ### Interrupts -/

def doMsixHoldoffEnd (fn : FnId) (vec : Nat) (s : State) : State :=
  let m := msixAt s fn.val vec
  if !m.holdoff then s
  else
    let s := modMsix s fn.val vec fun m => { m with holdoff := false, noted := false }
    if m.noted then signalVec s fn.val vec else s

/-- MSI_X_HOLDOFF_END (R715): an event within the holdoff is signalled by one message at its end. -/
def execMsixHoldoffEnd (fn : FnId) (vec : Nat) (s : State) : Res := done s (doMsixHoldoffEnd fn vec s)

def doMsixVectorUnmask (fn : FnId) (vec : Nat) (s : State) : State :=
  let m := msixAt s fn.val vec
  if !m.masked then s
  else
    let s := modMsix s fn.val vec fun m => { m with masked := false, pending := false }
    if m.pending then signalVec s fn.val vec else s

/-- MSI_X_VECTOR_UNMASK (R715): a pending vector is signalled when it is unmasked. -/
def execMsixVectorUnmask (fn : FnId) (vec : Nat) (s : State) : Res := done s (doMsixVectorUnmask fn vec s)

/-! ### HOST_OUT (R718 to R720) -/

/-- Tiles whose HOST_OUT on a queue is still in progress, in order of arrival. -/
def liveCallers (s : State) (q : Nat) : List TileId :=
  (queueAt s q).callers.filter fun t =>
    let x := tileAt s t.toNat
    x.pc == 16 && (x.st == .running || x.wait == .host)

/-- Bytes appended to the holdback page until it is full or they are used up; a full page, or a last one with END, is
complete and posted if an entry is armed. One piece of at most a page (R719). -/
def appendPiece (s : State) (q p a n : Nat) (end_ : Bool) : Acc × Nat × State :=
  let d := queueAt s q
  let k := min n (pageSize d - d.holdLen)
  match readMem s (.step p) a k with
  | (.ok, b, s) =>
    match writeMem s .device (d.hold + d.holdLen) b with
    | (.ok, s) =>
      let full := d.holdLen + k == pageSize d
      let last := end_ && k == n
      let s := modQueue s q fun d =>
        { d with holdLen := d.holdLen + k, holdFull := if full || last then some (last, s.now) else none }
      (.ok, k, postPage s q)
    | (.wait, s) => (.wait, 0, s)
    | (_, s) => (.fail stTierFail, 0, queueError s q stTierFail)
  | (x, _, s) => (x, 0, s)

/-- Pieces until the call is done or a complete page waits: what was appended. -/
def appendAll : Nat → State → Nat → Nat → Nat → Nat → Bool → Acc × Nat × State
  | 0, s, _, _, _, _, _ => (.ok, 0, s)
  | k + 1, s, q, p, a, n, end_ =>
    if n = 0 ∨ (queueAt s q).holdFull.isSome then (.ok, 0, s)
    else match appendPiece s q p a n end_ with
      | (.ok, m, s) =>
        let (x, r, s) := appendAll k s q p (a + m) (n - m) end_
        (x, m + r, s)
      | x => x

def doHostOut (t : TileId) (s : State) : State :=
  let u := liveTile s t.toNat
  let x := tileAt s u
  match x.part with
  | none => s
  | some p =>
    if !(x.pc == 16 && (x.st == .running || (x.st == .waiting && x.wait == .host))) then s
    else
      let q := (gReg x 4).toNat
      let a := (gReg x 5).toNat
      let n := (gReg x 6).toNat
      let d := queueAt s q
      if d.st = .free ∨ d.part ≠ p.val ∨ d.pring = 0 ∨ n = 0 ∨ 16777216 < n ∨ canRead s (.step p.val) a n = false then
        failStep s p.val stBadDescriptor
      else
        let cs := liveCallers s q
        let cs := if cs.contains (toTile u) then cs else cs ++ [toTile u]
        let s := modQueue s q fun d => { d with callers := cs }
        let halt (s : State) : State := modTile s u fun x => { x with st := .waiting, wait := .host, waitSince := s.now }
        if cs.head? ≠ some (toTile u) then halt s
        else
          let d0 := x.hostDone
          match appendAll (n / 4096 + 2) s q p.val (a + d0) (n - d0) (bitOf (gReg x 7).toNat 0) with
          | (.ok, m, s) =>
            if d0 + m = n then
              let s := modQueue s q fun d => { d with callers := d.callers.filter fun c => c != toTile u }
              modTile s u fun x => { libReturn x with hostDone := 0 }
            else halt (modTile s u fun x => { x with hostDone := d0 + m })
          | (.wait, m, s) => modTile s u fun x => { x with hostDone := d0 + m }
          | (x, _, s) => accStop s p.val x

/-- HOST_OUT (R718 to R720): a tile's bytes appended to a queue's output, waiting for page credit. -/
def execHostOut (t : TileId) (s : State) : Res := done s (doHostOut t s)

/-- The queue through which a partition's running step was started. -/
def stepQueue (s : State) (p : Nat) : Option Nat :=
  match (partAt s p).run with
  | some r => (cmdAt s r.cid).bind (·.queue)
  | none => none

/-- The holdback page of a step's queue is discarded, never posted (R721, R771, R775). -/
def discardPage (s : State) (p : Nat) : State :=
  match stepQueue s p with
  | some q => modQueue s q fun d => { d with holdLen := 0, holdFull := none, callers := [] }
  | none => s

/-- A step with a DEADLINE that has passed on a stalled queue is stopped with HOST_STALL (R775). -/
def stallStop (s : State) (p : Nat) : State :=
  match (partAt s p).run, stepQueue s p with
  | some r, some q =>
    if r.deadline ≠ 0 ∧ r.deadline ≤ s.now ∧ (queueAt s q).hostStall ∧ r.status.isNone then
      discardPage (stopStep s p stHostStall) p
    else s
  | _, _ => s

def doHostTmoExpiry (q : Nat) (s : State) : State :=
  let d := queueAt s q
  match d.holdFull with
  | none => s
  | some (_, since) =>
    let tmo := if d.hostTmo = 0 then 10 else d.hostTmo
    if d.hostStall || decide (s.now < since + tmo * 1000000) || armed d then s
    else
      let s := modQueue s q fun d => { d with hostStall := true }
      let s := queueFault s q stHostStall
      if bitOf d.flags 0 then forEach (List.range 16) s fun s p => if stepQueue s p = some q then stallStop s p else s
      else s

/-- HOST_TMO_EXPIRY (R721, R731, R775): a complete page has waited for HOST_TMO without an armed entry. -/
def execHostTmoExpiry (q : Nat) (s : State) : Res := done s (doHostTmoExpiry q s)

/-! ### Functions: reset, power state, admin queues, event rings -/

def fnQueues (s : State) (fn : Nat) : List Nat :=
  (s.host.queues.filter fun e => e.2.fn == fn && e.2.st != .free).map (·.1)

/-- Registers of a function's host block back at reset. -/
def resetFnRegs (s : State) (fn : Nat) : State :=
  forEach [RegName.hostFnctrl, .hostEvtbase, .hostEvtstat, .hostDbstat, .hostDbspill, .hostApbase, .queSel] s (fun s n =>
    regSet s ⟨n, fn, 0⟩ n.info.reset)
  |> fun s => forEach (List.range 8) s fun s i => regSet s ⟨.hostAdmq, fn, i⟩ 0

def doFunctionLevelReset (fn : FnId) (s : State) : State :=
  let f := fn.val
  if !inRun s then s
  else
    let qs := fnQueues s f
    let s := forEach (List.range 16) s fun s p =>
      match stepQueue s p with
      | some q => if qs.contains q then stopStep s p stAborted else s
      | none => s
    let s := forEach qs s fun s q => setQueue s q {}
    let orphan (c : Cmd) : Cmd := if (match c.queue with | some q => qs.contains q | none => false) then { c with queue := none } else c
    let s := setHost s fun h =>
      { h with cmds := h.cmds.map orphan
               coalescer := h.coalescer.filter fun e => !qs.contains e.1
               bitmap := h.bitmap.filter fun e => !qs.contains e.1
               msix := Tbl.clearRange h.msix (4096 * f) 4096
               barHeld := h.barHeld.filter fun e => e.fn.val != f
               evtWritten := Tbl.drop h.evtWritten f, evtHead := Tbl.drop h.evtHead f, d3hot := Tbl.drop h.d3hot f }
    resetFnRegs s f

/-- FUNCTION_LEVEL_RESET (R702, R704, R731): the steps of the function's queues stop, its queues are FREE, and nothing of
it is written any more. -/
def execFunctionLevelReset (fn : FnId) (s : State) : Res := done s (doFunctionLevelReset fn s)

def doD3hotEntry (fn : FnId) (s : State) : State :=
  if noFn s fn.val then s else setHost s fun h => { h with d3hot := Tbl.put false h.d3hot fn.val true }

/-- D3HOT_ENTRY (R731): fetching stops; records of admitted commands are withheld. -/
def execD3hotEntry (fn : FnId) (s : State) : Res := done s (doD3hotEntry fn s)

def doD0Return (fn : FnId) (s : State) : State :=
  if !Tbl.get false s.host.d3hot fn.val then s
  else
    let s := setHost s fun h => { h with d3hot := Tbl.put false h.d3hot fn.val false }
    forEach (fnQueues s fn.val) s flushWithheld

/-- D0_RETURN (R731): the withheld records are written. -/
def execD0Return (fn : FnId) (s : State) : Res := done s (doD0Return fn s)

/-- The admin queue's descriptor in HOST_ADMQ (R734); a VF's has its own FN and bound partition (R698). -/
def admqOf (s : State) (fn : Nat) : Queue :=
  let b := (List.range 8).flatMap fun i => leBytes 8 (regGet s ⟨.hostAdmq, fn, i⟩)
  let d := queueOf b
  if fn = 0 then d
  else { d with fn, part := match bindAt s fn with | some v => v.part.val | none => 0x10 }

def doAdmqEnable (fn : FnId) (s : State) : State :=
  let f := fn.val
  let r : Reg := ⟨.hostFnctrl, f, 0⟩
  if noFn s fn.val || !s.pwr.powered || regBit s r 0 then s
  else if !inRun s then setHost s fun h => { h with admqWanted := h.admqWanted.filter (· != f) ++ [f] }
  else
    let d := admqOf s f
    if d.fn = f ∧ queueOk s d ∧ (queueAt s f).st = .free ∧ (f = 0 ∨ (queueByVslot s f d.vslot).isNone) then
      setQueue (regOr s r 1) f d
    else s

/-- ADMQ_ENABLE (R699, R733, R734, R862): ADMQ_EN set creates the function's admin queue from HOST_ADMQ; a descriptor that
R694 refuses leaves ADMQ_EN 0. Before RUN the write waits for it. -/
def execAdmqEnable (fn : FnId) (s : State) : Res := done s (doAdmqEnable fn s)

def doAdmqDisable (fn : FnId) (s : State) : State :=
  let f := fn.val
  let r : Reg := ⟨.hostFnctrl, f, 0⟩
  if noFn s fn.val || !regBit s r 0 then s
  else
    let s := regPut s r 0 1 0
    let st := (queueAt s f).st
    if st = .active ∨ st = .error then drainBegin s f none stAborted else s

/-- ADMQ_DISABLE (R699, R733): ADMQ_EN cleared deletes the function's admin queue. -/
def execAdmqDisable (fn : FnId) (s : State) : Res := done s (doAdmqDisable fn s)

def doHostEvtheadWrite (fn : FnId) (v : W32) (s : State) : State :=
  let f := fn.val
  let n := 2 ^ regFld s ⟨.hostEvtbase, f, 0⟩ 0 5
  let h := Tbl.get 0 s.host.evtHead f
  let h' := h + (v.toNat % n + n - h % n) % n
  if noFn s fn.val || decide (Tbl.get 0 s.host.evtWritten f < h') then s
  else setHost s fun x => { x with evtHead := Tbl.put 0 x.evtHead f h' }

/-- HOST_EVTHEAD_WRITE (R730, R734): records of the event ring returned. -/
def execHostEvtheadWrite (fn : FnId) (v : W32) (s : State) : Res := done s (doHostEvtheadWrite fn v s)

/-! ### The aperture (R692) -/

/-- The device address of a BAR4 access and who makes it: none when it is not to the BAR, or before RUN. -/
def bar4Addr (s : State) (fn off len : Nat) : Option Nat :=
  let size := if fn = 0 then 64 * 2 ^ 30 else 4 * 2 ^ 30
  if noFn s fn || !inRun s || decide (size < off + len) then none
  else some (regFld s ⟨.hostApbase, fn, 0⟩ 30 18 * 2 ^ 30 + off)

/-- The memory a function's aperture reaches (R692): none for a VF without a partition. -/
def fnWho (s : State) (fn : Nat) : Option Who :=
  if fn = 0 then some (.host none) else (bindAt s fn).map fun b => .host (some b.part.val)

/-- A byte of the queue descriptor region (R370, R693). -/
def queueRegionByte (s : State) (a : Nat) : Byte :=
  let o := a - 0x1016560BC000
  nth 0 (queueBytes (queueAt s (o / 64))) (o % 64)

/-- A write to a CLEAN strata region (R332). -/
def writesClean (s : State) (w : Who) (a n : Nat) : Bool :=
  match strataPhys s a n with
  | some (t, l, off) => tileAllowed s w t && touchesClean s l off n
  | none => false

/-- A read of the aperture: data, an Unsupported Request, or a poisoned completion reported under Advanced Error Reporting; or it must
wait (R320, R324, R334, R411, R692). -/
def bar4Fetch (s : State) (fn off len : Nat) : Acc × State :=
  match bar4Addr s fn off len, fnWho s fn with
  | none, _ => (.ok, s)
  | some _, none => (.ok, emit s .bar4Unsupported)
  | some a, some w =>
    if w = .host none ∧ 0x1016560BC000 ≤ a ∧ a + len ≤ 0x10165A0BC000 then
      (.ok, emit s (.bar4Data ((span a len).map (queueRegionByte s))))
    else match readMem s w a len with
      | (.ok, b, s) => (.ok, emit s (.bar4Data b))
      | (.fail _, _, s) => (.ok, emit (emit s .bar4Poisoned) .aer)
      | (.wait, _, s) => (.wait, s)
      | (_, _, s) => (.ok, emit s .bar4Unsupported)

/-- A write of the aperture, posted; or it must wait (R332, R411, R595, R692). -/
def bar4Store (s : State) (fn off : Nat) (data : Bytes) : Acc × State :=
  match bar4Addr s fn off data.length, fnWho s fn with
  | none, _ => (.ok, s)
  | some _, none => (.ok, emit s .bar4Unsupported)
  | some a, some w =>
    if w = .host none ∧ inQueueRegion a data.length then (.ok, s)
    else if writesClean s w a data.length then (.ok, emit s .aer)
    else match writeMem s w a data with
      | (.bounds, s) => (.ok, emit s .bar4Unsupported)
      | (.wait, s) => (.wait, s)
      | (_, s) => (.ok, s)

/-- An access of the aperture as it is held while it must wait. -/
def bar4Do (s : State) (x : BarAccess) : Acc × State :=
  match x.data with
  | none => bar4Fetch s x.fn.val x.off x.len
  | some b => bar4Store s x.fn.val x.off b

/-- An access made now, or held: behind those that are held already, or because it must wait (R324, R411, R595). -/
def bar4Go (s : State) (x : BarAccess) : State :=
  let hold (s : State) : State := setHost s fun h => { h with barHeld := h.barHeld ++ [x] }
  if s.host.barHeld.isEmpty then
    match bar4Do s x with
    | (.wait, t) => hold (stillWaits s t)
    | (_, t) => t
  else hold s

/-- The first access held is tried again as time passes. -/
def barTick (s : State) : State :=
  match s.host.barHeld with
  | [] => s
  | x :: rest =>
    match bar4Do s x with
    | (.wait, t) => stillWaits s t
    | (_, t) => setHost t fun h => { h with barHeld := rest }

def doBar4Read (fn : FnId) (off len : Nat) (s : State) : State := bar4Go s { fn, off, len, data := none }

/-- BAR4_READ (R320, R334, R692): data, an Unsupported Request, or a poisoned completion reported under Advanced Error
Reporting. -/
def execBar4Read (fn : FnId) (off len : Nat) (s : State) : Res := done s (doBar4Read fn off len s)

def doBar4Write (fn : FnId) (off : Nat) (data : Bytes) (s : State) : State := bar4Go s { fn, off, len := data.length, data := some data }

/-- BAR4_WRITE (R320, R332, R370, R373, R587, R692). -/
def execBar4Write (fn : FnId) (off : Nat) (data : Bytes) (s : State) : Res := done s (doBar4Write fn off data s)

/-! ### The host's time (R727, R728) -/

def doPtmMeasure (hostTime : Nat) (s : State) : State :=
  if noFn s 0 || !inRun s then s
  else if s.fab.gm then
    if s.host.ptmLocked then
      let (k, s) := takeFree s
      let m : Int := (Config.freeNat k % 101 : Nat)
      { s with fab := { s.fab with slew := if hostTime < s.now then -m else if hostTime = s.now then 0 else m } }
    else lockStep (setHost s fun h => { h with ptmLocked := true }) hostTime
  else
    let (k, s) := takeFree s
    let err : Int := (Config.freeNat k % 81 : Nat) - 40
    let off := codeOf 64 ((s.now : Int) - hostTime + err)
    forEach (List.range 17) s fun s f => regSet s ⟨.hostPtmoff, f, 0⟩ off

/-- PTM_MEASURE (R727, R728): on the grandmaster the first measurement sets fabric time and later ones slew it, by an
amount the specification only bounds; elsewhere the offset is reported with an error of at most 40 ns. -/
def execPtmMeasure (hostTime : Nat) (s : State) : Res := done s (doPtmMeasure hostTime s)

end Sys2Proof.Machine
end

