-- ==== Sys2Proof/Machine/Replay.lean ====
section
/-! DEFINITION. Tile hardware faults and spares (R173, R347 to R350), the resolution of strata failures for a reader that
is no access (R337, R339, R344, R927), replays (R172), and events that reach a newt (R153, R154). -/

namespace Sys2Proof.Machine
open Sys2Proof

def setStrata (s : State) (f : Strata → Strata) : State := { s with strata := f s.strata }

/-! ### Tile hardware faults -/

/-- The partition that owns an identifier. -/
def ownerOf (s : State) (r : Nat) : Option Nat :=
  (List.range 16).find? fun p => (partAt s p).st != .none && (partTiles s p).contains r

/-- The spares of a die that stand for no tile, are whole, and are no target of a copy (R173). -/
def freeSpares (s : State) (d : Nat) : List Nat :=
  s.fuses.spares.filter fun t => tileDie t == d && !spareInUse s t && !((tileAt s t).st == .retired)
    && !(s.strata.copying.any fun c => c.2 == t)

/-- The step of a partition loses a tile: a fault that a replay on the spare resolves, where the die has one left and the step
its replays, and that otherwise ends the step with NO_RESOURCE (R170, R173; log entry 98). -/
def stepLosesTile (s : State) (p t : Nat) (spare : Bool) : State :=
  match (partAt s p).run with
  | none => s
  | some r => if (liveMembers s r.members).contains t then stepFaulted s p t 0x0F spare else s

/-- A tile hardware fault (R173, R345): the tile retires, and a spare of the same die, where one is left, is assigned to
the identifier and the copy of its strata begins (R347). Which free spare is open (log entry 4). -/
def hwFault (s : State) (t : Nat) : State :=
  if (tileAt s t).st = .retired then s
  else
    let r := nameOf s t
    let needed := !s.fuses.spares.contains r
    let s := cutQueue (noteFault s t 0x0F 0 false) t
    let s := releaseHolds (modTile s t fun x => { x with st := .retired, halting := false, wait := .nothing, binding := none }) t
    let free := freeSpares s (tileDie t)
    let (s, got) : State × Bool :=
      if needed && !free.isEmpty then
        let (k, s) := takeFree s
        let spare := nth 0 free (Config.freeNat k % free.length)
        (setStrata s fun x => { x with copying := x.copying ++ [(t, spare)] }, true)
      else (s, false)
    match ownerOf s r with
    | some p => stepLosesTile s p t got
    | none => s

/-! ### Failures met by a reader -/

def foundCode : FoundBy → Nat
  | .ownTile => 0 | .otherTile => 1 | .host => 2 | .scrubber => 3 | .remapCopy => 4

/-- A rewritten line that fails its read-back takes a spare line of its stratum, or makes a tile hardware fault
(R344, R345). -/
def repairLine (s : State) (t off : Nat) (readBackFails : Bool) : State :=
  if readBackFails = false then s
  else if spareLines s t (off / stratumSize) = 0 then hwFault s t
  else strRepaired (setStrata s fun x => { x with mapped := Tbl.upd 0 x.mapped (strataAddr t off / 256) (· + 1) }) t

/-- The hardware faults of tiles with a worn line (R345). -/
def settleWorn (s : State) : State := forEach s.strata.worn (setStrata s fun x => { x with worn := [] }) hwFault

/-- The partition whose step a reader's request belongs to (R337): a tile's, for a read from a tile. -/
def readerStep (s : State) (by_ : FoundBy) (t : Nat) : Option Nat :=
  match by_ with
  | .ownTile => ownerOf s (nameOf s t)
  | .otherTile => ownerOf s (nameOf s t)
  | _ => none

/-- What a resolution means for the step that met the failure (R340, R341). -/
def readerOutcome (s : State) (by_ : FoundBy) (t : Nat) (a : Acc) : State :=
  match readerStep s by_ t, a with
  | some p, .ok => stepRecovered s p
  | some p, .fail st => failStep s p st
  | _, _ => s

/-- A failing byte of a twin range (R927): rewritten from its primary, or, with both copies bad, lost (R339). -/
def twinFail (s : State) (t off code : Nat) : Acc × State :=
  let bad (o : Nat) : Bool := Tbl.get false s.strata.badParity (strataAddr t o)
  if bad (twinOff off) then (.fail stParityLost, strLost (strLog s t off 3 code 4) t)
  else (.ok, strRecovered (strLog (putStrata s t off [Tbl.get 0 s.mem (strataAddr t (twinOff off))]) t off 3 code 1) t)

/-- A failing byte of a tile's strata resolved for a reader (R337, R339, R927). The refetch of a CLEAN block ends at
CLEAN_REFETCH_DONE; a second reader of the line shares it (R343). -/
def resolveFail (s : State) (t off : Nat) (by_ : FoundBy) (readBackFails : Bool) : State :=
  let code := foundCode by_
  match regionOf s t off with
  | some r =>
    match r.cls with
    | 1 =>
      let a := strataAddr t off
      let shared := s.strata.refetching.any fun e => e.1 / 256 == a / 256
      setStrata (if shared then s else strLog s t off 1 code 0) fun x => { x with refetching := x.refetching ++ [(a, by_)] }
    | 2 =>
      let x := recoverByte s t off code
      let s := repairLine x.2 t off readBackFails
      if x.1 = .replay then replayStep s r.part else s
    | _ =>
      let x := recoverByte s t off code
      readerOutcome (if x.1 = .ok then repairLine x.2 t off readBackFails else x.2) by_ t x.1
  | none =>
    if touchesTwin s t off 1 then
      let x := twinFail s t off code
      readerOutcome (if x.1 = .ok then repairLine x.2 t off readBackFails else x.2) by_ t x.1
    else
      let x := recoverByte s t off code
      readerOutcome x.2 by_ t x.1

/-- Every failing byte of the remap copy's source resolved (R349), the lines that this writes read back in the spare `u` (R344): the bytes
of RECOMPUTE regions are not read. The copy waits while a refetch must (R343, R411). -/
def resolveCopy (s : State) (t u : Nat) : Acc × State :=
  (badIn s t 0 strataSize).foldl (fun acc off =>
    let s := acc.2
    let skip : Bool := match regionOf s t off with | some r => r.cls == 2 | none => false
    if acc.1 = .wait ∨ skip ∨ Tbl.get false s.strata.badParity (strataAddr t off) = false then acc
    else
      let x : Acc × State :=
        if (regionOf s t off).isNone && touchesTwin s t off 1 then twinFail s t off 4 else recoverByte s t off 4
      if x.1 = .wait then (.wait, x.2) else (.ok, if x.1 = .ok then readBack x.2 u off else x.2)) (.ok, s)

/-- The bytes of a range of one table moved to another place. -/
def moveTbl {α : Type} (t : Tbl α) (src n dst : Nat) : Tbl α :=
  forMove (Tbl.inRange t src n) (Tbl.clearRange t dst n)
where
  forMove (l : Tbl α) (acc : Tbl α) : Tbl α := l.foldl (fun acc e => Tbl.set acc (e.1 - src + dst) e.2) acc

/-- A range of a tile's strata filled with zeros of valid parity. -/
def zeroStrata (s : State) (t off n : Nat) : State :=
  let a := strataAddr t off
  { s with mem := Tbl.clearRange s.mem a n
           strata := { s.strata with badParity := Tbl.clearRange s.strata.badParity a n } }

/-- The copy of a retired tile's strata and region table into its spare (R347). -/
def copyStrata (s : State) (t u : Nat) : State :=
  let s := { s with mem := moveTbl s.mem (strataAddr t 0) strataSize (strataAddr u 0)
                    strata := { s.strata with
                      badParity := moveTbl s.strata.badParity (strataAddr t 0) strataSize (strataAddr u 0)
                      regions := Tbl.clearRange (moveTbl s.strata.regions (64 * t) 64 (64 * u)) (64 * t) 64 } }
  forEach (tileRegions s u) s fun s e => if e.2.cls = 2 then zeroStrata s u e.2.offset e.2.length else s

/-! ### The commands -/

def doTileHardwareFault (t : TileId) (s : State) : State :=
  if validTile t.toNat then hwFault s t.toNat else s

/-- TILE_HARDWARE_FAULT (R173). -/
def execTileHardwareFault (t : TileId) (s : State) : Res := done s (doTileHardwareFault t s)

def doRemapCopyComplete (t : TileId) (s : State) : State :=
  match s.strata.copying.find? (fun c => c.1 == t.toNat) with
  | none => s
  | some (old, spare) =>
    let r := nameOf s old
    let x := tileAt s old
    let r0 := resolveCopy s old spare
    if r0.1 = .wait then s
    else
    let s := copyStrata r0.2 old spare
    let s := setStrata s fun y =>
      { y with copying := y.copying.filter (fun c => c.1 != old), remap := Tbl.put none y.remap r (some spare) }
    match x.image, x.part with
    | some i, some p => loadTile s spare p.val i.bytes
    | _, _ => s

/-- REMAP_COPY_COMPLETE: the spare stands for the retired tile from here on, with its strata, its regions and its program
(R173, R347 to R350). -/
def execRemapCopyComplete (t : TileId) (s : State) : Res := done s (doRemapCopyComplete t s)

/-- A member that faulted is loaded again from the program store (R172). -/
def reload (s : State) (p t : Nat) : State :=
  let x := tileAt s t
  if x.st = .faulted then
    match x.image with
    | some i => loadTile s t p i.bytes
    | none => s
  else s

def doStepReplay (p : PartId) (s0 : State) : State :=
  let s := settleStop s0 p.val
  match (partAt s p.val).run with
  | none => s
  | some r =>
    let ms := liveMembers s r.members
    if r.replayDue = false ∨ ms.any (fun t => s.strata.copying.any fun c => c.1 == t) then s
    else if mayReplay s p.val = false then stopStep s p.val stParityLost
    else
      let s := forEach ms s fun s t => reload s p.val t
      let s := dropStaged (forEach ms s stopTile) p.val
      let s := modRun s p.val fun r => { r with replayDue := false, recovered := true, replays := r.replays + 1, faults := [], marks := [], progress := 0 }
      launch s p.val r.num r.args r.members

/-- STEP_REPLAY: the affected newt is loaded again and the step starts again on its whole start group with the same
STEP and arguments, at most twice; its markers begin again at 0 (R172, R173, R776). -/
def execStepReplay (p : PartId) (s : State) : Res := done s (doStepReplay p s)

/-! ### Events -/

/-- How a receiver answers an event (R153, R154): accepted or dropped, or a negative acknowledgement. -/
def applyEvent (s : State) (ev : EvMsg) : Option Status × State :=
  let p := ev.part.val
  let l := liveTile s ev.dst.toNat
  let x := tileAt s l
  if (partAt s p).st = .none ∨ (partAt s p).epoch ≠ ev.epoch ∨ (partTiles s p).contains ev.dst.toNat = false then
    (some stRoleChanged, s)
  else if inStep x.st ∧ x.step = ev.step then (none, wake (modTile s l fun x => bumpEvent x ev.ctr.val) l)
  else if x.step.toNat < ev.step.toNat then
    if 16 ≤ x.heldEvents.length then (some stNoResource, s)
    else (none, modTile s l fun x => { x with heldEvents := x.heldEvents ++ [ev] })
  else (none, regAddSat s ⟨.newtStat, l, 0⟩ 16 16 1)

/-- The sender of an event learns its end (R153, R177), where its newt still is of the partition and epoch that sent it. -/
def eventAcked (s : State) (t : Nat) (ev : EvMsg) (nak : Bool) : State :=
  if (tileAt s t).part ≠ some ev.part ∨ (tileAt s t).epoch ≠ ev.epoch then s
  else
    let s := modTile s t fun x => { x with posted := x.posted - 1, naks := x.naks + b2n nak }
    wake (if nak then regAddSat s ⟨.newtNak, t, 0⟩ 0 32 1 else s) t

/-- An EVENT message of another module: its partition, epoch, sender and tag stand in the header (R153, R482). -/
def eventOf (m : Bytes) (dst : TileId) (ctr : Fin 16) (step : W64) : EvMsg :=
  { dst, ctr, part := Fin.ofNat 16 (msgPart m), epoch := BitVec.ofNat 16 (msgEpoch m), step, src := none,
    srcPhys := BitVec.ofNat 15 (msgSrc m), tag := BitVec.ofNat 32 (msgTag m) }

def doNewtEvent (ev : EventIn) (s : State) : State :=
  match ev with
  | .here ev =>
    if s.flying.contains ev then
      let r := applyEvent { s with flying := removeFirst (fun e => e == ev) s.flying } ev
      match ev.src with
      | some t => eventAcked r.2 t.toNat ev r.1.isSome
      | none => r.2
    else s
  | .message m dst ctr step =>
    let s := takeMsg s m
    match msgRefused s m 0x23 false with
    | some st => refuse s m st
    | none =>
      match applyEvent s (eventOf m dst ctr step) with
      | (none, s) => s
      | (some st, s) => refuse s m st

/-- NEWT_EVENT: an event reaches its receiver; a message of another module is checked first (R153, R154, R485, R486). -/
def execNewtEvent (ev : EventIn) (s : State) : Res := done s (doNewtEvent ev s)

end Sys2Proof.Machine
end

