-- ==== Sys2Proof/Machine/Strata.lean ====
section
/-! DEFINITION. Strata regions, recovery and scrub (chapter 07): the commands STRATA_DECLARE and STRATA_RELEASE, parity
failures, CLEAN refetches, the scrubbers, and the writes of STR_SCRUB and STR_ERRLOG. -/

namespace Sys2Proof.Machine
open Sys2Proof

/-! ### Region descriptors (R326, R327) -/

/-- The 32-byte pieces of a payload. -/
def pieces (w : Nat) (b : Bytes) : List Bytes := (List.range (b.length / w)).map fun i => (b.drop (w * i)).take w

def regionOfBytes (b : Bytes) : Region :=
  { offset := fieldAt b 0 4, length := fieldAt b 4 4, cls := fieldAt b 8 1, flags := fieldAt b 9 1
    tile := fieldAt b 0xA 2, part := fieldAt b 0xC 1, source := fieldAt b 0x10 8 }

/-- The fields of a region descriptor lie in their ranges and its TILE and SOURCE belong to its partition (R327). -/
def regionOk (s : State) (c : Cmd) (b : Bytes) : Bool :=
  let r := regionOfBytes b
  r.offset % 4096 == 0 && r.length % 4096 == 0 && decide (4096 ≤ r.length) && decide (r.offset + r.length ≤ strataSize)
    && r.offset / stratumSize == (r.offset + r.length - 1) / stratumSize
    && decide (1 ≤ r.cls) && decide (r.cls ≤ 3) && decide (r.flags < 2) && zeroAt b 0xD 3 && zeroAt b 0x18 8
    && decide (r.part < 16) && c.may r.part && validTile r.tile && (partAt s r.part).st != .none
    && (partTiles s r.part).contains r.tile
    && (if r.cls = 1 then r.source % 2048 == 0 && (isT1 r.source || isT2 r.source)
          && tierCovered s (fun t => t.part.val == r.part) r.source r.length
        else r.source == 0)

/-- The ranges of a tile that a region takes: its own and its twin's (R334). -/
def regionRanges (r : Region) : List (Nat × Nat) :=
  if r.cls = 3 then [(r.offset, r.length), (twinOff r.offset, r.length)] else [(r.offset, r.length)]

def regionsMeet (a b : Region) : Bool :=
  (regionRanges a).any fun x => (regionRanges b).any fun y => overlap x.1 x.2 y.1 y.2

/-- A declaration that replaces the SOURCE of an existing CLEAN region (R330). -/
def sameClean (a b : Region) : Bool := a.cls == 1 && b.cls == 1 && a.offset == b.offset && a.length == b.length

/-- A declaration meets an existing region, or one of the same command (R327). -/
def regionClash (s : State) (rs : List Region) (i : Nat) (r : Region) : Bool :=
  (tileRegions s (liveTile s r.tile)).any (fun e => regionsMeet r e.2 && !sameClean r e.2)
    || (rs.take i).any fun x => x.tile == r.tile && regionsMeet r x

/-- The regions that each tile would hold stay within 64 (R328). -/
def regionsFit (s : State) (rs : List Region) : Bool :=
  rs.all fun r =>
    let l := liveTile s r.tile
    let fresh := rs.filter fun x => x.tile == r.tile && !((tileRegions s l).any fun e => sameClean x e.2)
    decide ((tileRegions s l).length + fresh.length ≤ 64)

/-- LENGTH bytes copied from SOURCE at the priority of the partition's steps, block by block, to the first read that fails (R331). -/
def loadRegion (s : State) (r : Region) : Acc × State :=
  accAll (List.range (ceilDiv r.length 2048)) s fun s i =>
    let n := min 2048 (r.length - 2048 * i)
    match tierFetch s (partPrio s r.part) (r.source + 2048 * i) n with
    | (.ok, b, s) => (.ok, putStrata s (liveTile s r.tile) (r.offset + 2048 * i) b)
    | (a, _, s) => (a, s)

/-- A region's bytes with their parity copied to its twin range (R334). -/
def twinCopy (s : State) (l : Nat) (r : Region) : State :=
  let src := strataAddr l r.offset
  let dst := strataAddr l (twinOff r.offset)
  { s with mem := moveTbl s.mem src r.length dst
           strata := { s.strata with badParity := moveTbl s.strata.badParity src r.length dst } }

/-- A region entered in its tile's table: in place of the one it declares again, else at the lowest free entry. -/
def declareRegion (s : State) (r : Region) : State :=
  let l := liveTile s r.tile
  let old := (tileRegions s l).find? fun e => sameClean r e.2
  let n := match old with
    | some e => e.1
    | none => (leastBelow 64 fun n => (Tbl.get none s.strata.regions (64 * l + n)).isNone).getD 0
  let s := setStrata s fun x => { x with regions := Tbl.put none x.regions (64 * l + n) (some { r with flags := r.flags % 2 }) }
  if r.cls = 3 then twinCopy s l r else s

def doStrataDeclare (cid : Nat) (s : State) : State :=
  match cmdFor s cid 0x10 with
  | none => s
  | some c =>
    if allAtRest s c = false then s
    else withPayload (beginCmd s cid) c 32 fun s1 b =>
      let ds := pieces 32 b
      let rs := ds.map regionOfBytes
      if b.length % 32 ≠ 0 ∨ 64 < ds.length ∨ !(ds.all (regionOk s1 c)) ∨ (rs.mapIdx (regionClash s1 rs)).any id then
        complete s1 cid stBadDescriptor
      else if regionsFit s1 rs = false then complete s1 cid stNoResource
      else
        match accAll (rs.filter fun r => r.cls == 1 && bitOf r.flags 0) s1 loadRegion with
        | (.ok, s2) => complete (forEach rs s2 declareRegion) cid stOk
        | (a, s2) => endBy s s2 cid a

/-- STRATA_DECLARE (R326 to R334). -/
def execStrataDeclare (cid : Nat) (s : State) : Res := done s (doStrataDeclare cid s)

/-! ### Release -/

/-- A region filled with zeros, its twin with it, and its table entry freed (R335). -/
def releaseRegion (s : State) (l n : Nat) : State :=
  match Tbl.get none s.strata.regions (64 * l + n) with
  | none => s
  | some r =>
    let s := forEach (regionRanges r) s fun s x => zeroStrata s l x.1 x.2
    setStrata s fun x => { x with regions := Tbl.put none x.regions (64 * l + n) none }

/-- The table entry of the region that begins at an offset of a named tile. -/
def regionStart (s : State) (t off : Nat) : Option (Nat × Region) :=
  (tileRegions s (liveTile s t)).find? fun e => e.2.offset == off

def doStrataRelease (cid : Nat) (s : State) : State :=
  match cmdFor s cid 0x11 with
  | none => s
  | some c =>
    if allAtRest s c = false then s
    else withPayload (beginCmd s cid) c 32 fun s b =>
      let ns := (pieces 32 b).map fun d => (fieldAt d 0xA 2, fieldAt d 0 4)
      let ok := ns.all fun n => validTile n.1 && (match regionStart s n.1 n.2 with | some e => c.may e.2.part | none => false)
      if b.length % 32 ≠ 0 ∨ ok = false then complete s cid stBadDescriptor
      else
        let s := forEach ns s fun s n =>
          match regionStart s n.1 n.2 with
          | some e => releaseRegion s (liveTile s n.1) e.1
          | none => s
        complete s cid stOk

/-- STRATA_RELEASE (R335). -/
def execStrataRelease (cid : Nat) (s : State) : Res := done s (doStrataRelease cid s)

/-- A tile leaves its partition: the partition's regions on it are released and its strata are zeros (R336). -/
def releaseTile (s : State) (p l : Nat) : State :=
  let s := forEach ((tileRegions s l).filter fun e => e.2.part == p) s fun s e => releaseRegion s l e.1
  zeroStrata s l 0 strataSize

/-! ### Parity failures -/

/-- The live tile and the offset of a populated strata address. -/
def strataAt (s : State) (a : Nat) : Option (Nat × Nat) :=
  match strataLoc a with
  | some (t, off) => if off < strataSize then some (liveTile s t, off) else none
  | none => none

def doStrataParityFail (addr : BitVec 48) (by_ : FoundBy) (readBackFails : Bool) (s : State) : State :=
  match strataAt s addr.toNat with
  | none => s
  | some (l, off) => resolveFail (setParity s (strataAddr l off) true) l off by_ readBackFails

/-- STRATA_PARITY_FAIL: a byte fails its check at a reader, and is resolved by the class of its region (R337 to R345,
R927). -/
def execStrataParityFail (addr : BitVec 48) (by_ : FoundBy) (readBackFails : Bool) (s : State) : Res :=
  done s (doStrataParityFail addr by_ readBackFails s)

/-- The outcome of the recorded failure becomes another, where the record is of this byte (R357). -/
def relog (s : State) (t off outcome : Nat) : State :=
  let r : Reg := ⟨.strErrlog, t, 0⟩
  if regBit s r 0 ∧ regFld s r 10 27 = off then regPut s r 2 3 outcome else s

def doCleanRefetchDone (addr : BitVec 48) (tierOk readBackFails : Bool) (s : State) : State :=
  match strataAt s addr.toNat with
  | none => s
  | some (l, off) =>
    match s.strata.refetching.filter (fun e => e.1 / 256 == strataAddr l off / 256), regionOf s l off with
    | (a, by_) :: more, some r =>
      let off := a % 0x8000000
      let all := ((a, by_) :: more).map (·.2)
      let s0 := s
      let s := setStrata s fun x => { x with refetching := x.refetching.filter fun e => e.1 / 256 != a / 256 }
      let src := r.source + (off / 2048 * 2048 - r.offset)
      let got : Acc × Bytes × State := if tierOk then tierFetch s 0 src 2048 else (.fail stTierFail, [], s)
      match got with
      | (.wait, _, _) => s0
      | (.ok, b, s) =>
        let line := off / 256 * 256
        let s := putStrata s l line ((b.drop (line % 2048)).take 256)
        let s := repairLine (strRecovered s l) l off readBackFails
        forEach all s fun s b => readerOutcome s b l .ok
      | (_, _, s) => forEach all (strLost (relog s l off 5) l) fun s b => readerOutcome s b l (.fail stTierFail)
    | _, _ => s

/-- CLEAN_REFETCH_DONE: the block has come from its SOURCE, or the refetch failed in its tier, for every reader of the line; a SOURCE whose
unit is being redirected is waited for (R337, R338, R343, R411, R412). -/
def execCleanRefetchDone (addr : BitVec 48) (tierOk readBackFails : Bool) (s : State) : Res :=
  done s (doCleanRefetchDone addr tierOk readBackFails s)

/-! ### Scrub (R355, R356) -/

/-- Lines of a die: 84 tiles of four strata of 81,920 lines of 256 bytes. -/
def tileLines : Nat := 4 * 81920
def dieLines : Nat := 84 * tileLines

def scrubAt (s : State) (d : Nat) : ScrubSt := Tbl.get {} s.strata.scrub d
def setScrub (s : State) (d : Nat) (x : ScrubSt) : State := setStrata s fun y => { y with scrub := Tbl.put {} y.scrub d x }

/-- A new pass from the first line with the period of STR_SCRUB. -/
def newPass (s : State) (d : Nat) : State :=
  setScrub s d { pos := 0, period := regFld s ⟨.strScrub, d, 0⟩ 0 16, start := s.now, behind := false }

/-- The tile and the offset of a line of the pass: tiles in increasing identifier. -/
def scrubTarget (d pos : Nat) : Nat × Nat := (bitmapTile d (pos / tileLines), pos % tileLines * 256)

def doScrubLine (d : Die) (fails readBackFails : Bool) (s : State) : State :=
  if regBit s ⟨.strScrub, d.val, 0⟩ 30 = false then s
  else
    let x := scrubAt s d.val
    let (t, off) := scrubTarget d.val x.pos
    let known := badIn s t off 256
    let (s, o) : State × Option Nat :=
      match known with
      | o :: _ => (s, some o)
      | [] =>
        if fails then
          let (k, s) := takeFree s
          let o := off + Config.freeNat k % 256
          (setParity s (strataAddr t o) true, some o)
        else (s, none)
    let s := match o with
      | some o => resolveFail s t o .scrubber readBackFails
      | none => s
    if x.pos + 1 = dieLines then newPass (regAddWrap s ⟨.strScrubPass, d.val, 0⟩ 0 32 1) d.val
    else setScrub s d.val { x with pos := x.pos + 1 }

/-- SCRUB_LINE: the next line of the pass is read; after the last a new pass begins (R355, R363). -/
def execScrubLine (d : Die) (fails readBackFails : Bool) (s : State) : Res := done s (doScrubLine d fails readBackFails s)

def doScrubBehind (d : Die) (s : State) : State :=
  let x := scrubAt s d.val
  let r : Reg := ⟨.strScrub, d.val, 0⟩
  if regBit s r 30 ∧ x.behind = false ∧ x.start + 2 * x.period * 1000000000 ≤ s.now then
    faultReg (setScrub (regOr s r (2 ^ 31)) d.val { x with behind := true }) 0xFF r
  else s

/-- SCRUB_BEHIND (R356). -/
def execScrubBehind (d : Die) (s : State) : Res := done s (doScrubBehind d s)

def strScrubWrite (s : State) (d v hw : Nat) : State :=
  let r : Reg := ⟨.strScrub, d, 0⟩
  let old := regGet s r
  let v := if v % 65536 = 0 then v + old % 65536 else v
  let s := regWritePlain s r v hw
  if !bitOf old 30 && regBit s r 30 then newPass s d else s

def doStrScrubWrite (d : Die) (v hw : W32) (s : State) : State := strScrubWrite s d.val v.toNat hw.toNat

/-- STR_SCRUB_WRITE: a write of 0 to PERIOD is ignored, PERIOD takes effect at the next pass, and setting ENABLE starts a
new pass (R355, R362). -/
def execStrScrubWrite (d : Die) (v hw : W32) (s : State) : Res := done s (doStrScrubWrite d v hw s)

def doStrErrlogWrite (t : TileId) (v hw : W64) (s : State) : State :=
  if validTile t.toNat then logWrite s ⟨.strErrlog, t.toNat, 0⟩ v.toNat hw.toNat else s

/-- STR_ERRLOG_WRITE: writing 1 to VALID also clears OVER; a bit that hardware sets at that moment stays set (R16, R357). -/
def execStrErrlogWrite (t : TileId) (v hw : W64) (s : State) : Res := done s (doStrErrlogWrite t v hw s)

end Sys2Proof.Machine
end

