-- ==== Sys2Proof/Machine/Codec.lean ====
section
/-! DEFINITION. The codec commands (chapter 09): the descriptor of R442, the block, sparse, factor and RAL-2P operations of
R443 on the instances of R421, and writes of CODEC_ERRLOG. -/

namespace Sys2Proof.Machine
open Sys2Proof

/-! ### The descriptor (R442) -/

def cdOp (d : Bytes) : Nat := fieldAt d 0 1
def cdElem (d : Bytes) : Nat := fieldAt d 1 1
def cdRate (d : Bytes) : Nat := fieldAt d 2 1
def cdTrunc (d : Bytes) : Bool := bitOf (fieldAt d 3 1) 0
def cdAccum (d : Bytes) : Bool := bitOf (fieldAt d 3 1) 1
def cdInit (d : Bytes) : Bool := bitOf (fieldAt d 3 1) 2
def cdCount (d : Bytes) : Nat := fieldAt d 4 4
def cdSrc (d : Bytes) : Nat := fieldAt d 8 8
def cdDst (d : Bytes) : Nat := fieldAt d 0x10 8
def cdRes (d : Bytes) : Nat := fieldAt d 0x18 8
def cdAux (d : Bytes) : Nat := fieldAt d 0x20 8
def cdRows (d : Bytes) : Nat := fieldAt d 0x28 4
def cdCols (d : Bytes) : Nat := fieldAt d 0x2C 4
def cdParam (d : Bytes) : Nat := fieldAt d 0x30 4
def cdBidx (d : Bytes) : Nat := fieldAt d 0x34 4
def cdQbuf (d : Bytes) : Nat := fieldAt d 0x38 8
/-- TOPK's k and B, the FC rank, factor format and seed. -/
def cdK (d : Bytes) : Nat := bitsOf (cdParam d) 0 16
def cdB (d : Bytes) : Nat := 2 ^ bitsOf (cdParam d) 16 4
def cdRank (d : Bytes) : Nat := bitsOf (cdParam d) 0 7
def cdFact (d : Bytes) : Nat := bitsOf (cdParam d) 8 8
def cdSeed (d : Bytes) : Nat := bitsOf (cdParam d) 16 16

/-- A factor format of R148. -/
def factorFmt (c : Nat) : Option Fmt := if 1 ≤ c ∧ c ≤ 4 then (fmtCode c).map (·.fmt) else none

/-- The checks of R444. -/
def codecOk (d : Bytes) : Bool :=
  let op := cdOp d
  let fc := decide (7 ≤ op)
  let sp := op == 5 || op == 6
  decide (1 ≤ op) && decide (op ≤ 10) && decide (cdElem d ≤ 4) && decide (fieldAt d 3 1 < 8)
    && (if op ≤ 3 then decide (1 ≤ cdRate d) && decide (cdRate d ≤ 4)
        else if sp then cdRate d == 0x10 || cdRate d == 0x11 else cdRate d == 0)
    && (if fc then cdCount d == 0 else cdCount d % 64 == 0)
    && (!(sp || fc) || decide (cdElem d ≤ 1))
    && (!cdAccum d || ((op == 2 || op == 6) && cdElem d == 0))
    && (if fc then decide (1 ≤ cdRank d) && decide (cdRank d ≤ 64) && !bitOf (cdParam d) 7 && (factorFmt (cdFact d)).isSome
        else cdAux d == 0 && cdRows d == 0 && cdCols d == 0 && cdQbuf d == 0)
    && (if sp && cdRate d == 0x10 then
          decide (8 ≤ bitsOf (cdParam d) 16 4) && decide (bitsOf (cdParam d) 16 4 ≤ 12) && cdParam d / 2 ^ 20 == 0
            && decide (1 ≤ cdK d) && decide (cdK d ≤ 256) && decide (4 * cdK d ≤ cdB d) && cdCount d % cdB d == 0
        else fc || op == 4 || cdParam d == 0)

/-! ### Instances (R421 to R425) -/

/-- The dies whose engines a partition owns. -/
def partDies (s : State) (p : Nat) : List Nat := bitSet 8 (partAt s p).dies.toNat

/-- The place, among the dies, of the instance that takes the `i`-th block of a command (R425). -/
def laneOf (ds : List Nat) (i : Nat) : Nat := i % (16 * ds.length) / 16

/-- The blocks `is` that a command has processed, counted on its instances of a kind (1 BC1, 2 FC, 3 SC), with those that met a NaN
(R464). -/
def tallyOf (s : State) (ds : List Nat) (kind : Nat) (is nans : List Nat) : State :=
  forEach (ds.mapIdx fun i d => (i, d)) s fun s x =>
    codecDone s (4 * x.2 + kind) (is.filter fun i => laneOf ds i == x.1).length (nans.any fun i => laneOf ds i == x.1)

/-- All `n` blocks of a command counted. -/
def tally (s : State) (ds : List Nat) (kind n : Nat) (nans : List Nat) : State := tallyOf s ds kind (List.range n) nans

/-- Failing blocks of a command: each instance logs its lowest (R446, R464, R465). Entries are the place in the command,
the block index and the reason. -/
def tallyFails (s : State) (ds : List Nat) (kind : Nat) (bads : List (Nat × Nat × Nat)) : State :=
  forEach (ds.mapIdx fun i d => (i, d)) s fun s x =>
    match bads.find? fun b => laneOf ds b.1 == x.1 with
    | some b => codecFail s (4 * x.2 + kind) b.2.1 b.2.2
    | none => s

/-! ### Calls (R441) -/

/-- A codec command of an operation, by the whole group: refused as R423 and R444 say, else its body, which answers how
its last access ended and whether a check failed. -/
def codecRow (p op : Nat) (hit : Option TileId) (s : State) (body : State → Bytes → List Nat → Acc × Bool × State) : State :=
  match scratchCall s p 11 hit (descArg 64) with
  | (none, s) => s
  | (some ms, s) =>
    match libDesc s (nth 0 ms 0) 64 with
    | none => libFault s ms 0x03
    | some d =>
      if codecOk d = false then libFault s ms 0x09
      else if cdOp d ≠ op then s
      else if (partDies s p).isEmpty then failStep s p stNoResource
      else
        match body s d (partDies s p) with
        | (.ok, true, t) => failStep t p stCheckFail
        | (a, _, t) => libEnd s t p ms a

/-- A codec operation whose operands, given as what it reads and what it writes, lie within the partition's memory; one outside it is
found before any byte moves (R151, R444). -/
def withinMem (s : State) (p : Nat) (reads writes : List (Nat × Nat)) (k : Acc × Bool × State) : Acc × Bool × State :=
  if (reads.all fun x => canRead s (.step p) x.1 x.2) && (writes.all fun x => canWrite s (.step p) x.1 x.2) then k else (.bounds, false, s)

/-! ### Block codec -/

def bcEncGo (p : Nat) (s : State) (d : Bytes) (ds : List Nat) : Acc × Bool × State :=
  let w := blkDecoded (cdElem d)
  match readMem s (.step p) (cdSrc d) (cdCount d / 64 * w) with
  | (.ok, b, s) =>
    let bs := (List.range (cdCount d / 64)).map fun i =>
      blkEncode (cdElem d) (cdRate d) (cdBidx d + i) (cdTrunc d) ((b.drop (i * w)).take w)
    match writeMem s (.step p) (cdDst d) (bs.flatMap (·.1)) (partPrio s p) with
    | (.ok, s) => (.ok, false, tally s ds 1 bs.length ((List.range bs.length).filter fun i => (nth ([], false) bs i).2))
    | (a, s) => (a, false, s)
  | (a, _, s) => (a, false, s)

def doBcEnc (p : PartId) (hit : Option TileId) (s : State) : State := codecRow p.val 1 hit s (bcEncGo p.val)

/-- BC_ENC: COUNT elements at SRC encoded into blocks at DST (R433 to R437, R443). -/
def execBcEnc (p : RoutineCall) (s : State) : Res := done s (doBcEnc p.part p.hit s)

/-- Decoded elements put at an address, or added to the F32 elements there (R445). -/
def putDecoded (s : State) (p : Nat) (accum : Bool) (a : Nat) (b : Bytes) : Acc × State :=
  if accum then
    match readF32s s p a (b.length / 4) with
    | (.ok, old, s) => writeF32s s p a (old.mapIdx fun i w => f32Add w (BitVec.ofNat 32 (fieldAt b (4 * i) 4)))
    | (x, _, s) => (x, s)
  else writeMem s (.step p) a b (partPrio s p)

/-- Blocks decoded at consecutive places of DST: those that pass are written, those that fail are logged (R446). -/
def putBlocks (s : State) (p : Nat) (d : Bytes) (ds : List Nat) (kind w : Nat) (bs : List (Nat × Except Nat Bytes)) :
    Acc × Bool × State :=
  if canWrite s (.step p) (cdDst d) (w * bs.length) = false then (.bounds, false, s)
  else
    let items := bs.mapIdx fun i x => (i, x)
    let x := accAll items s fun s x =>
      match x.2.2 with
      | .ok b => putDecoded s p (cdAccum d) (cdDst d + w * x.1) b
      | .error _ => (.ok, s)
    match x with
    | (.ok, s) =>
      let bads := items.filterMap fun x => match x.2.2 with | .error r => some (x.1, x.2.1, r) | .ok _ => none
      (.ok, !bads.isEmpty, tallyFails (tally s ds kind bs.length []) ds kind bads)
    | (a, s) => (a, false, s)

def bcBlocks (s : State) (p : Nat) (d : Bytes) : Acc × List (Nat × Except Nat Bytes) × State :=
  match readMem s (.step p) (cdSrc d) (cdCount d / 64 * blkStored (cdElem d) (cdRate d)) with
  | (.ok, b, s) => (.ok, decodeBlocks (cdElem d) (cdRate d) (cdBidx d) b, s)
  | (a, _, s) => (a, [], s)

def bcDecGo (p : Nat) (s : State) (d : Bytes) (ds : List Nat) : Acc × Bool × State :=
  match bcBlocks s p d with
  | (.ok, bs, s) => putBlocks s p d ds 1 (blkDecoded (cdElem d)) bs
  | (a, _, s) => (a, false, s)

def doBcDec (p : PartId) (hit : Option TileId) (s : State) : State := codecRow p.val 2 hit s (bcDecGo p.val)

/-- BC_DEC: blocks at SRC decoded into COUNT elements at DST (R438, R439, R445, R446). -/
def execBcDec (p : RoutineCall) (s : State) : Res := done s (doBcDec p.part p.hit s)

def bcVerifyGo (p : Nat) (s : State) (d : Bytes) (ds : List Nat) : Acc × Bool × State :=
  match bcBlocks s p d with
  | (.ok, bs, s) =>
    let bads := (bs.mapIdx fun i x => (i, x)).filterMap fun x => match x.2.2 with | .error r => some (x.1, x.2.1, r) | .ok _ => none
    (.ok, !bads.isEmpty, tallyFails (tally s ds 1 bs.length []) ds 1 bads)
  | (a, _, s) => (a, false, s)

def doBcVerify (p : PartId) (hit : Option TileId) (s : State) : State := codecRow p.val 3 hit s (bcVerifyGo p.val)

/-- BC_VERIFY: R439 applied to the blocks at SRC, nothing written. -/
def execBcVerify (p : RoutineCall) (s : State) : Res := done s (doBcVerify p.part p.hit s)

/-! ### RAL-2P streams -/

/-- The blocks of a stream by index: elements, or the reason of a failure; blocks behind a failure in their sub-stream are
not reached (R460 to R462). -/
def r2All (elem blocks : Nat) (b : Bytes) : List (Nat × Except Nat (List Nat)) :=
  let lens := (List.range 16).map fun j => fieldAt b (0x10 + 8 * j) 4
  let subs := (List.range 16).flatMap fun j =>
    let start := 144 + sumN (lens.take j)
    let r := r2Sub elem (r2Blocks blocks j) 0 ((b.drop start).take (nth 0 lens j))
    (r.1.mapIdx fun i els => (16 * i + j, Except.ok els))
      ++ (match r.2 with | some f => [(16 * f.1 + j, Except.error f.2)] | none => [])
  sortBy (fun a b => decide (a.1 < b.1)) subs

/-- The lengths of a stream agree with its header (R462). -/
def r2Lengths (param blocks : Nat) (h : Bytes) : Bool :=
  144 + sumN ((List.range 16).map fun j => fieldAt h (0x10 + 8 * j) 4) == param
    && (List.range 16).all fun j => fieldAt h (0x14 + 8 * j) 4 == r2Blocks blocks j

def r2Go (p : Nat) (s : State) (d : Bytes) (ds : List Nat) : Acc × Bool × State :=
  let stop (s : State) (reason : Nat) : Acc × Bool × State := (.ok, true, tallyFails s ds 1 [(0, 0, reason)])
  match readMem s (.step p) (cdSrc d) 144, elemFmt (cdElem d) with
  | (.ok, h, s), some f =>
    if r2Header (cdElem d) (cdCount d) h = false ∨ 1 < cdElem d then stop s 0x04
    else if r2Lengths (cdParam d) (fieldAt h 8 4) h = false then stop s 0x06
    else
      match readMem s (.step p) (cdSrc d) (cdParam d) with
      | (.ok, b, s) =>
        let w := blkDecoded (cdElem d)
        let bs := r2All (cdElem d) (fieldAt h 8 4) b
        if canWrite s (.step p) (cdDst d) (w * (cdCount d / 64)) = false then (.bounds, false, s)
        else
          let x := accAll bs s fun s x =>
            match x.2 with
            | .ok els => writeMem s (.step p) (cdDst d + w * x.1) (f.packAll els) (partPrio s p)
            | .error _ => (.ok, s)
          match x with
          | (.ok, s) =>
            let bads := bs.filterMap fun x => match x.2 with | .error r => some (x.1, x.1, r) | .ok _ => none
            let met := (bs.map (·.1)).filter fun i => decide (i < fieldAt h 8 4)
            (.ok, !bads.isEmpty, tallyFails (tallyOf s ds 1 met []) ds 1 bads)
          | (a, s) => (a, false, s)
      | (a, _, s) => (a, false, s)
  | (.ok, _, s), none => stop s 0x04
  | (a, _, s), _ => (a, false, s)

def doRal2pDecode (p : PartId) (hit : Option TileId) (s : State) : State := codecRow p.val 4 hit s (r2Go p.val)

/-- RAL_2P_DECODE: a RAL-2P stream at SRC decoded into DST (R459 to R462). -/
def execRal2pDecode (p : RoutineCall) (s : State) : Res := done s (doRal2pDecode p.part p.hit s)

/-! ### Sparse codec -/

/-- The input with the residual added (R448). -/
def withResidual (s : State) (p : Nat) (d : Bytes) (n : Nat) : Acc × List W32 × State :=
  match elemFmt (cdElem d) with
  | none => (.bounds, [], s)
  | some f =>
    match readElems s p f (cdSrc d) n with
    | (.ok, g, s) =>
      match readF32s s p (cdRes d) n with
      | (.ok, r, s) => (.ok, (g.zip r).map (fun x => f32Add x.1 x.2), s)
      | x => x
    | x => x

/-- Elements of a sparse record. -/
def spBlock (d : Bytes) : Nat := if cdRate d = 0x10 then cdB d else 64
def spRecord (d : Bytes) : Nat := if cdRate d = 0x10 then 4 + 4 * cdK d else 16

def spEncGo (p : Nat) (s : State) (d : Bytes) (ds : List Nat) : Acc × Bool × State :=
  withinMem s p [] [(cdDst d, cdCount d / spBlock d * spRecord d), (cdRes d, 4 * cdCount d)] <|
  match withResidual s p d (cdCount d) with
  | (.ok, xs, s) =>
    let n := cdCount d / spBlock d
    let os := (List.range n).map fun i =>
      let v := (xs.drop (i * spBlock d)).take (spBlock d)
      if cdRate d = 0x10 then topkEncode (cdK d) (cdBidx d + i) v else signEncode (cdBidx d + i) v
    match writeMem s (.step p) (cdDst d) (os.flatMap (·.record)) (partPrio s p) with
    | (.ok, s) =>
      match writeF32s s p (cdRes d) (os.flatMap (·.residual)) with
      | (.ok, s) => (.ok, false, tally s ds 3 n ((os.mapIdx fun i o => (i, o)).filterMap fun o => if o.2.nanIn then some o.1 else none))
      | (a, s) => (a, false, s)
    | (a, s) => (a, false, s)
  | (a, _, s) => (a, false, s)

def doSpEnc (p : PartId) (hit : Option TileId) (s : State) : State := codecRow p.val 5 hit s (spEncGo p.val)

/-- SP_ENC: a sparse encode with error feedback (R448 to R451). -/
def execSpEnc (p : RoutineCall) (s : State) : Res := done s (doSpEnc p.part p.hit s)

def spDecGo (p : Nat) (s : State) (d : Bytes) (ds : List Nat) : Acc × Bool × State :=
  match elemFmt (cdElem d) with
  | none => (.bounds, false, s)
  | some f =>
    let n := cdCount d / spBlock d
    match readMem s (.step p) (cdSrc d) (n * spRecord d) with
    | (.ok, b, s) =>
      let bs := (List.range n).map fun i =>
        (cdBidx d + i, (sparseDecode (cdRate d == 0x11) (spBlock d) (cdK d) (cdBidx d + i)
          ((b.drop (i * spRecord d)).take (spRecord d))).map fun ws =>
            if f = .f32 then f32Bytes ws else f.packAll (ws.map fun w => decodeInto f (f32Val w)))
      putBlocks s p d ds 3 (f.bytesFor (spBlock d)) bs
    | (a, _, s) => (a, false, s)

def doSpDec (p : PartId) (hit : Option TileId) (s : State) : State := codecRow p.val 6 hit s (spDecGo p.val)

/-- SP_DEC: sparse records decoded (R445, R446, R452). -/
def execSpDec (p : RoutineCall) (s : State) : Res := done s (doSpDec p.part p.hit s)

/-! ### Factor codec -/

/-- A column of a row-major matrix of `rows` rows and `cols` columns; a row. -/
def matCol (m : List W32) (rows cols j : Nat) : List W32 := (List.range rows).map fun i => nth f32Zero m (i * cols + j)
def matRow (m : List W32) (cols i : Nat) : List W32 := (m.drop (i * cols)).take cols

/-- The starting value of Qprev with INIT (R456). -/
def qInit (d : Bytes) : List W32 :=
  (List.range (cdCols d)).flatMap fun c => (List.range (cdRank d)).map fun j =>
    if bitOf (srBits (cdSeed d) 0 0 (c * 64 + j)) 31 then 0xBF800000#32 else f32One

def fcProjectGo (p : Nat) (s : State) (d : Bytes) (ds : List Nat) : Acc × Bool × State :=
  let (m, n, r) := (cdRows d, cdCols d, cdRank d)
  let src := match elemFmt (cdElem d) with | some f => f.bytesFor (m * n) | none => 0
  withinMem s p [(cdSrc d, src), (cdAux d, 4 * n * r)]
    ([(cdRes d, 4 * m * n), (cdDst d, 4 * m * r)] ++ if cdInit d then [(cdAux d, 4 * n * r)] else []) <|
  let q : Acc × List W32 × State :=
    if cdInit d then
      match writeF32s s p (cdAux d) (qInit d) with
      | (.ok, s) => (.ok, qInit d, s)
      | (a, s) => (a, [], s)
    else readF32s s p (cdAux d) (n * r)
  match q with
  | (.ok, q, s) =>
    match withResidual s p d (m * n) with
    | (.ok, x, s) =>
      match writeF32s s p (cdRes d) x with
      | (.ok, s) =>
        let pm := (List.range m).flatMap fun i => (List.range r).map fun j => chainDot (matRow x n i) (matCol q n r j)
        match writeF32s s p (cdDst d) pm with
        | (.ok, s) => (.ok, false, tally s ds 2 r [])
        | (a, s) => (a, false, s)
      | (a, s) => (a, false, s)
    | (a, _, s) => (a, false, s)
  | (a, _, s) => (a, false, s)

def doFcProject (p : PartId) (hit : Option TileId) (s : State) : State := codecRow p.val 7 hit s (fcProjectGo p.val)

/-- FC_PROJECT: M := G + R at RES, P := M · Qprev at DST (R448, R453, R454, R456). -/
def execFcProject (p : RoutineCall) (s : State) : Res := done s (doFcProject p.part p.hit s)

/-- One column orthonormalised against those before it (R455), and whether it was zero. -/
def orthoCol (done_ : List (List W32)) (col : List W32) : List W32 × Bool :=
  let v := done_.foldl (fun v u =>
    let c := chainDot u v
    (u.zip v).map fun x => f32Fma (c ^^^ 0x80000000#32) x.1 x.2) col
  let t := chainDot v v
  if (f32Val t).isZero then (v, true) else (v.map fun w => f32Mul w (f32Rsqrt t), false)

def fcOrthoGo (p : Nat) (s : State) (d : Bytes) (ds : List Nat) : Acc × Bool × State :=
  let (m, r) := (cdRows d, cdRank d)
  match readF32s s p (cdDst d) (m * r) with
  | (.ok, x, s) =>
    let cols := (List.range r).foldl (fun (acc : List (List W32) × List Nat) j =>
      let o := orthoCol acc.1 (matCol x m r j)
      (acc.1 ++ [o.1], if o.2 then acc.2 ++ [j] else acc.2)) ([], [])
    let out := (List.range m).flatMap fun i => cols.1.map fun c => nth f32Zero c i
    match writeF32s s p (cdDst d) out with
    | (.ok, s) =>
      let s := forEach cols.2 s fun s j => regOr s ⟨.codecStat, 4 * nth 0 ds (laneOf ds j) + 2, 0⟩ 2
      (.ok, false, tally s ds 2 r [])
    | (a, s) => (a, false, s)
  | (a, _, s) => (a, false, s)

def doFcOrtho (p : PartId) (hit : Option TileId) (s : State) : State := codecRow p.val 8 hit s (fcOrthoGo p.val)

/-- FC_ORTHO: the columns of P at DST orthonormalised in place (R455). -/
def execFcOrtho (p : RoutineCall) (s : State) : Res := done s (doFcOrtho p.part p.hit s)

def fcQprojGo (p : Nat) (s : State) (d : Bytes) (ds : List Nat) : Acc × Bool × State :=
  let (m, n, r) := (cdRows d, cdCols d, cdRank d)
  match readF32s s p (cdRes d) (m * n) with
  | (.ok, x, s) =>
    match readF32s s p (cdDst d) (m * r) with
    | (.ok, pm, s) =>
      let q := (List.range n).flatMap fun c => (List.range r).map fun j => chainDot (matCol x m n c) (matCol pm m r j)
      match writeF32s s p (cdQbuf d) q with
      | (.ok, s) => (.ok, false, tally s ds 2 r [])
      | (a, s) => (a, false, s)
    | (a, _, s) => (a, false, s)
  | (a, _, s) => (a, false, s)

def doFcQproj (p : PartId) (hit : Option TileId) (s : State) : State := codecRow p.val 9 hit s (fcQprojGo p.val)

/-- FC_QPROJ: Q := Mᵀ · P at QBUF (R453, R454). -/
def execFcQproj (p : RoutineCall) (s : State) : Res := done s (doFcQproj p.part p.hit s)

/-- The accumulator of R120 before its final rounding. -/
def factorAcc (u v : List W32) : W32 := (u.zip v).foldl (fun acc x => f32Fma x.1 x.2 acc) f32Zero

def fcResidGo (p : Nat) (s : State) (d : Bytes) (ds : List Nat) : Acc × Bool × State :=
  let (m, n, r) := (cdRows d, cdCols d, cdRank d)
  match factorFmt (cdFact d) with
  | none => (.bounds, false, s)
  | some f =>
    withinMem s p [] [(cdDst d, 4 * m * r), (cdQbuf d, 4 * n * r), (cdRes d, 4 * m * n), (cdAux d, 4 * n * r)] <|
    let round (l : List W32) : List Nat := l.map fun w => (f.encode false .rne (f32Val w)).1
    match readF32s s p (cdDst d) (m * r) with
    | (.ok, pm, s) =>
      match readF32s s p (cdQbuf d) (n * r) with
      | (.ok, q, s) =>
        match readF32s s p (cdRes d) (m * n) with
        | (.ok, x, s) =>
          let ph := round pm
          let qh := round q
          let pv := ph.map fun c => f32Of (f.decode c)
          let qv := qh.map fun c => f32Of (f.decode c)
          let res := (List.range m).flatMap fun i => (List.range n).map fun c =>
            f32Sub (nth f32Zero x (i * n + c)) (factorAcc (matRow pv r i) (matRow qv r c))
          let x := accAll [(cdDst d, f.packAll ph), (cdQbuf d, f.packAll qh), (cdRes d, f32Bytes res), (cdAux d, f32Bytes qv)] s
            fun s w => writeMem s (.step p) w.1 w.2 (partPrio s p)
          match x with
          | (.ok, s) => (.ok, false, tally s ds 2 r [])
          | (a, s) => (a, false, s)
        | (a, _, s) => (a, false, s)
      | (a, _, s) => (a, false, s)
    | (a, _, s) => (a, false, s)

def doFcResid (p : PartId) (hit : Option TileId) (s : State) : State := codecRow p.val 10 hit s (fcResidGo p.val)

/-- FC_RESID: the rounded factors, the residual they leave, and Qprev := Q̂ (R457). -/
def execFcResid (p : RoutineCall) (s : State) : Res := done s (doFcResid p.part p.hit s)

/-! ### CODEC_ERRLOG -/

def doCodecErrlogWrite (d : Die) (inst : Fin 4) (v hw : W64) (s : State) : State :=
  logWrite s ⟨.codecErrlog, 4 * d.val + inst.val, 0⟩ v.toNat hw.toNat

/-- CODEC_ERRLOG_WRITE: writing 1 to VALID also clears OVER (R16, R465). -/
def execCodecErrlogWrite (d : Die) (inst : Fin 4) (v hw : W64) (s : State) : Res :=
  done s (doCodecErrlogWrite d inst v hw s)

end Sys2Proof.Machine
end

