-- ==== Sys2Proof/Machine/Conv.lean ====
section
/-! DEFINITION. Convolutions on the matrix units and on the tadpole engine (R289 to R306), and detection post-processing
(R307 to R316). -/

namespace Sys2Proof.Machine
open Sys2Proof

/-! ### The convolution descriptor (R290 to R293) -/

def cvGroups (c : Bytes) : Nat := fieldAt c 2 2
def cvOut (c : Bytes) : Nat := fieldAt c 6 2
/-- DIM_M, DIM_N, DIM_K, DIM_T and DIM_G of a convolution by the codes of R180 (R293). -/
def cvDim (c : Bytes) (k : Nat) : Nat :=
  match k with
  | 0 => fieldAt c 0x0E 2 * fieldAt c 0x1E 2 * fieldAt c 0x20 2 * fieldAt c 0x22 2
  | 1 => cvOut c / cvGroups c
  | 2 => fieldAt c 4 2 / cvGroups c
  | 3 => fieldAt c 0x10 1 * fieldAt c 0x11 1 * fieldAt c 0x12 1
  | _ => cvGroups c

/-- The extents of an axis (0 T, 1 H, 2 W) lie in their ranges and satisfy R291. -/
def cvAxisOk (c : Bytes) (a : Nat) : Bool :=
  let i := fieldAt c (8 + 2 * a) 2
  let k := fieldAt c (0x10 + a) 1
  let s := fieldAt c (0x13 + a) 1
  let d := fieldAt c (0x16 + a) 1
  let p := fieldAt c (0x19 + a) 1
  let o := fieldAt c (0x1E + 2 * a) 2
  decide (1 ≤ i) && decide (1 ≤ k) && decide (k ≤ 32) && decide (1 ≤ s) && decide (s ≤ 32) && decide (1 ≤ d) && decide (d ≤ 8)
    && decide (p ≤ 31) && decide (1 ≤ o) && decide ((o - 1) * s + (k - 1) * d ≤ i - 1 + 31 + p)

/-- The checks of R290 and R291. -/
def cvOk (c : Bytes) : Bool :=
  let two := fieldAt c 0 1 == 2
  (two || fieldAt c 0 1 == 3) && decide (fieldAt c 1 1 ≤ 1) && decide (1 ≤ cvGroups c) && decide (1 ≤ fieldAt c 4 2)
    && decide (1 ≤ cvOut c) && fieldAt c 4 2 % cvGroups c == 0 && cvOut c % cvGroups c == 0 && decide (1 ≤ fieldAt c 0x0E 2)
    && (!two || (fieldAt c 8 2 == 1 && fieldAt c 0x10 1 == 1)) && (List.range 3).all (cvAxisOk c)
    && zeroAt c 0x1C 2 && zeroAt c 0x42 2 && zeroAt c 0x48 8
    && (if fieldAt c 1 1 = 0 then zeroAt c 0x28 26 && zeroAt c 0x44 4 else zeroAt c 0x24 4)

/-! ### Sums in the order of R300 -/

/-- One product of a reduction: its position with blocks of 32 counted per tap, whether A's element is padding (R295), the
scale codes and the values. -/
structure Term where
  pos : Nat
  pad : Bool
  sa : Nat
  sb : Nat
  a : Num
  b : Num
  deriving DecidableEq, Repr

/-- The anchor of a LONG sum (R89); 0 for pairs without block scaling. -/
def termAnchor (scaled : Bool) (ts : List Term) : Int :=
  if scaled = false then 0
  else ts.foldl (fun (m : Int) x => if x.pad ∨ x.sa = 255 ∨ x.sb = 255 then m else max m ((x.sa : Int) + x.sb - 254)) (-254)

/-- The exact sum of every term (R235), with TILE_FPSTAT bits. -/
def longTerms (scaled : Bool) (ts : List Term) : Num × Nat :=
  let e0 : AccEl := { anchor := termAnchor scaled ts, anchored := true }
  let r := ts.foldl (fun (acc : AccEl × Nat) x =>
    let (e, f) := longStep acc.1 x.pos x.sa x.sb x.a x.b
    (e, acc.2 ||| f)) (e0, 0)
  let (e, f) := readEl true r.1
  (elNum true e, r.2 ||| f)

/-- One chain of an F32-mode sum; a padded position is a +0 product (R227, R295). -/
def chainTerms (ts : List Term) : W32 × Nat :=
  chainMul (ts.map fun x => if x.pad then f32Zero else f32Of x.a) (ts.map fun x => if x.pad then f32Zero else f32Of x.b)

/-- The chains of an element in order of tap and, within a tap, of k, combined (R229, R230, R300). -/
def f32Terms (chainK : Nat) (taps : List (List Term)) : Num × Nat :=
  let cs := taps.flatMap fun ts => (List.range (ceilDiv ts.length chainK)).map fun i => chainTerms ((ts.drop (i * chainK)).take chainK)
  match cs with
  | [] => (Num.zero, 0)
  | c :: rest =>
    let (w, f) := rest.foldl (fun (acc : W32 × Nat) x =>
      let (v, g) := chainAdd false (leBytes 4 acc.1.toNat) (leBytes 4 x.1.toNat)
      (BitVec.ofNat 32 (leNat v), acc.2 ||| x.2 ||| g)) c
    (f32Val w, f)

def sumTerms (long scaled : Bool) (chainK : Nat) (taps : List (List Term)) : Num × Nat :=
  if long then longTerms scaled taps.flatten else f32Terms chainK taps

/-! ### On the matrix units (R296 to R300) -/

/-- The checks of R296 and R299 on the tiling descriptor of a convolution. -/
def cvTilingOk (c d : Bytes) : Bool :=
  (List.range 5).all (fun k => tdDim d k == cvDim c k) && opRow d 0 == 0 && opPlane d 0 == 0 && opTap d 0 == 0
    && (match tdBits d 0 with
        | 6 => cvDim c 2 % 4 == 0 && fieldAt c 4 2 % 4 == 0
        | 4 => cvDim c 2 % 2 == 0 && fieldAt c 4 2 % 2 == 0
        | _ => true)

/-- The terms of output element (g, m, n) at tap t. -/
def cvTerms (s : State) (d c : Bytes) (g m n t : Nat) : List Term :=
  match tdFmt d 0, tdFmt d 1 with
  | some fa, some fb =>
    let k := tdDim d 2
    let nb := ceilDiv k 32
    let arow := (rowAddr d c 0 g t m).map fun a => peek s a (fa.fmt.bytesFor k)
    let asc := (scaleAddr d c 0 g t m).map fun a => peek s a nb
    let bsc := (scaleAddr d c 1 g t n).map fun a => peek s a nb
    let code (f : FmtCode) (b : Option Bytes) (i : Nat) : Nat :=
      if f.scaled then (match b with | some l => (nth 127 l (i / 32)).toNat | none => 127) else 127
    (List.range k).map fun i =>
      { pos := 32 * nb * t + i, pad := arow.isNone, sa := code fa asc i, sb := code fb bsc i
        a := match arow with | some b => fa.fmt.elem b i | none => Num.zero
        b := match rowAddr d c 1 g t i with
          | some a => fb.fmt.elem (peek s (a + n / 4 * (fb.fmt.bits / 2)) (fb.fmt.bits / 2)) (n % 4)
          | none => Num.zero }
  | _, _ => []


/-- Element (g, m, n) of C before rounding, with TILE_FPSTAT bits. -/
def cvElem (s : State) (d c : Bytes) (g m n : Nat) : Num × Nat :=
  sumTerms (tdLong d == some true) (tdScaled d 0 || tdScaled d 1) (tdChainK d) ((List.range (tdDim d 3)).map (cvTerms s d c g m n))

/-- The walk of the member of index `i` holds the product at k of tap t of an element (R190, R191, R297). -/
def cvOwns (d : Bytes) (i g m n k t : Nat) : Bool :=
  (walkOf d i).any fun q => [m, n, k, t, g].mapIdx (fun j v => decide (q.org j ≤ v) && decide (v < q.org j + q.len j)) |>.all id

/-- The member that writes an element out: the one whose walk holds its last product. -/
def cvWriter (d : Bytes) (size g m n : Nat) : Nat :=
  ((List.range size).find? fun i => cvOwns d i g m n (tdDim d 2 - 1) (tdDim d 3 - 1)).getD 0

/-- The TILE_FPSTAT bits of the chains of an element that a member sums. -/
def cvPart (s : State) (d c : Bytes) (i g m n : Nat) : Nat :=
  (sumTerms (tdLong d == some true) (tdScaled d 0 || tdScaled d 1) (tdChainK d) ((List.range (tdDim d 3)).map fun t =>
    (((cvTerms s d c g m n t).mapIdx fun k x => (k, x)).filter fun e => cvOwns d i g m n e.1 t).map (·.2))).2

/-- The TILE_FPSTAT bits that a member of the group sets (R129, R297): those of the chains that it sums, and, of the elements that it
writes out, those of combining the chains and of rounding (log entry 40). -/
def cvFlags (s : State) (d c : Bytes) (size i : Nat) : Nat :=
  (List.range (tdDim d 4)).foldl (fun acc g =>
    let es := (List.range (tdDim d 0)).flatMap fun m => (List.range (tdDim d 1)).map fun n => ((m, n), cvElem s d c g m n)
    let mine := es.filter fun e => cvWriter d size g e.1.1 e.1.2 == i
    let own := es.foldl (fun f e => f ||| cvPart s d c i g e.1.1 e.1.2) 0
    let merged := mine.foldl (fun f e =>
      let parts := (List.range size).foldl (fun f j => f ||| cvPart s d c j g e.1.1 e.1.2) 0
      f ||| (e.2.2 ^^^ (e.2.2 &&& parts))) 0
    let rounded := match tdFmt d 2 with
      | some f => (convert f (List.replicate 32 0) false (mine.map fun e => (e.1, e.2.1, Rnd.rne))).flags
      | none => 0
    acc ||| own ||| merged ||| rounded) 0

/-- C of a group as stored: runs of bytes by address. No control block stands in the descriptor: the rounding is to nearest even,
the scale blocks lie along N (log entry 40). -/
def cvStore (s : State) (d c : Bytes) (g : Nat) : List (Nat × Bytes) :=
  match tdFmt d 2 with
  | none => []
  | some f =>
    let es := (List.range (tdDim d 0)).flatMap fun m => (List.range (tdDim d 1)).map fun n => ((m, n), (cvElem s d c g m n).1, Rnd.rne)
    let o := convert f (List.replicate 32 0) false es
    runsOf (layBits (rawByte s) (o.elems.map fun e =>
        (((rowAddr d c 2 g 0 e.1.1).getD 0) * 8 + e.1.2 * f.fmt.bits, f.fmt.bits, e.2)))
      ++ o.scales.map (fun k => (cScaleAddr d false g k.1.1 (32 * k.1.2), [BitVec.ofNat 8 k.2]))

/-- The level buffers that a walk stages its operands through (R188, R202). -/
def cvStages (s : State) (p : Nat) (ms : List Nat) (d : Bytes) : Acc × State :=
  accAll (ms.flatMap fun t => ([1, 2, 3, 4].filter fun l => [0, 1, 2].any (lvlStage d l)).map fun l => (t, l)) s
    fun s e => fillBuffer s p e.1 d e.2

/-- The tiling descriptor bound on every member, in order, once the write-outs of its earlier walk have completed (R195); the first
refusal ends it. -/
def bindAll (s : State) (ms : List Nat) (off : Nat) (c : Bytes) : Bound :=
  ms.foldl (fun b t =>
    match b with
    | .ok s =>
      if woutOwed (tileAt s t) ((tileAt s t).issued + 1) then .stop .wait s
      else if cvTilingOk c (scratch s t off 336) then bindTo s t off c false
      else .fault 0x09 s
    | x => x) (.ok s)

/-- A convolution on the matrix units: every member binds the tiling descriptor, and the tiled operation is computed. -/
def convMatrix (p : Nat) (s0 s : State) (ms : List Nat) (c : Bytes) : State :=
  let off := fieldAt c 0x24 4
  if off % 8 ≠ 0 ∨ 0x8000 < off + 336 then libFault s ms 0x03
  else match bindAll s ms off c with
    | .fault cause s => libFault s ms cause
    | .stop a s => libEnd s0 s p ms a
    | .ok s =>
      let d := scratch s (nth 0 ms 0) off 336
      match readAll s p (tileRanges d c 0 (wholePos d) ++ tileRanges d c 1 (wholePos d)) with
      | (.ok, s1) =>
        let outs := (List.range (tdDim d 4)).map (cvStore s1 d c)
        let s := forEach ms s1 fun s t => setFp s t (cvFlags s1 d c ms.length (tileAt s1 t).index)
        match cvStages s p ms d with
        | (.ok, s) =>
          let r := accAll outs s fun s o => writeRuns s (.step p) (partPrio s p) o
          libEnd s0 r.2 p ms r.1
        | (a, s) => libEnd s0 s p ms a
      | (a, s) => libEnd s0 s p ms a

/-! ### On the tadpole engine (R301 to R306) -/

/-- The limits of R302, given the control block: LONG or not. -/
def tadpoleOk (c w : Bytes) : Bool :=
  let fi := fieldAt c 0x40 1
  let fw := fieldAt c 0x41 1
  let half (f : Nat) : Bool := f == 1 || f == 2
  let eight (f : Nat) : Bool := f == 3 || f == 4
  (decide (cvDim c 2 ≤ 16) || decide (cvDim c 1 ≤ 16)) && decide (cvDim c 3 ≤ 32768)
    && decide (cvDim c 2 * cvDim c 3 ≤ 16777216)
    && ((half fi && half fw) || (eight fi && eight fw) || (fi == 7 && fw == 7)) && wcbOk w none

/-- The ranges that a tadpole convolution reads: its input pixels and its filter (R294, R303). -/
def tadpoleReads (c : Bytes) : List (Nat × Nat) :=
  let sz (o : Nat) : Nat := match fmtCode (fieldAt c o 1) with | some f => f.fmt.bits / 8 | none => 0
  let px := fieldAt c 4 2 * sz 0x40
  let used := ((List.range (cvDim c 0)).flatMap fun m => (List.range (cvDim c 3)).filterMap (convPixel c m)).eraseDups
  used.map (fun p => (fieldAt c 0x28 8 + p * px, px))
    ++ [(fieldAt c 0x30 8, cvGroups c * cvDim c 3 * cvDim c 2 * cvDim c 1 * sz 0x41)]

/-- The terms of output element (g, m, n) at tap t on the tadpole engine. -/
def tadpoleTerms (s : State) (c : Bytes) (g m n t : Nat) : List Term :=
  match fmtCode (fieldAt c 0x40 1), fmtCode (fieldAt c 0x41 1) with
  | some fi, some fw =>
    let k := cvDim c 2
    let si := fi.fmt.bits / 8
    let sw := fw.fmt.bits / 8
    let px := convPixel c m t
    (List.range k).map fun i =>
      { pos := 32 * ceilDiv k 32 * t + i, pad := px.isNone, sa := 127, sb := 127
        a := match px with
          | some p => fi.fmt.elem (peek s (fieldAt c 0x28 8 + (p * fieldAt c 4 2 + g * k + i) * si) si) 0
          | none => Num.zero
        b := fw.fmt.elem (peek s (fieldAt c 0x30 8 + (((g * cvDim c 3 + t) * k + i) * cvDim c 1 + n) * sw) sw) 0 }
  | _, _ => []

/-- The output of a tadpole convolution, by output position and channel (R303 to R305). -/
def tadpoleOut (s : State) (c : Bytes) : List ((Nat × Nat) × Num) × Nat :=
  let long := decide (3 ≤ fieldAt c 0x40 1)
  (List.range (cvDim c 0)).foldl (fun acc m =>
    (List.range (cvOut c)).foldl (fun (acc : List ((Nat × Nat) × Num) × Nat) ch =>
      let (v, f) := sumTerms long false (cvDim c 2)
        ((List.range (cvDim c 3)).map (tadpoleTerms s c (ch / cvDim c 1) m (ch % cvDim c 1)))
      (acc.1 ++ [((m, ch), v)], acc.2 ||| f)) acc) ([], 0)

/-- The output as stored through the control block, elements in one packed run from OUT_BASE, the scales of a block-scaled
format after them; what its arithmetic meets is recorded in no tile (R303, log entry 41). -/
def tadpoleStore (s : State) (c w : Bytes) : List (Nat × Bytes) :=
  match fmtCode (fieldAt w 0 1) with
  | none => []
  | some f =>
    let (es, _) := tadpoleOut s c
    let col := bitOf (fieldAt w 1 1) 3
    let idx (m ch : Nat) : Nat := m * cvOut c + ch
    let o := convert f w col (es.map fun e => (e.1, e.2, wcbRnd w ((fieldAt w 0x18 8 + idx e.1.1 e.1.2) % 2 ^ 64)))
    let base := fieldAt c 0x38 8
    let sb := base + f.fmt.bytesFor (cvDim c 0 * cvOut c)
    runsOf (layBits (rawByte s) (o.elems.map fun e => (base * 8 + idx e.1.1 e.1.2 * f.fmt.bits, f.fmt.bits, e.2)))
      ++ o.scales.map fun k =>
        (sb + (if col then k.1.1 * ceilDiv (cvDim c 0) 32 + k.1.2 else k.1.1 * ceilDiv (cvOut c) 32 + k.1.2), [BitVec.ofNat 8 k.2])

def convTadpole (p : Nat) (s0 s : State) (ms : List Nat) (c : Bytes) : State :=
  if partDies s p = [] then failStep s p stNoResource
  else match libWcb s (nth 0 ms 0) (fieldAt c 0x44 4) with
    | none => libFault s ms 0x03
    | some w =>
      if tadpoleOk c w = false then libFault s ms 0x09
      else match readAll s p (tadpoleReads c) with
        | (.ok, s) =>
          let r := writeRuns s (.step p) (partPrio s p) (tadpoleStore s c w)
          libEnd s0 r.2 p ms r.1
        | (a, s) => libEnd s0 s p ms a

/-- A routine with an 80-byte descriptor at a library word, once every member calls it (R274, R289). -/
def libRow (p word n : Nat) (hit : Option TileId) (s : State) (f : State → List Nat → Bytes → State) : State :=
  match scratchCall s p word hit (descArg n) with
  | (none, s) => s
  | (some ms, s) =>
    match libDesc s (nth 0 ms 0) n with
    | none => libFault s ms 0x03
    | some d => f s ms d

def doConv (p : PartId) (hit : Option TileId) (s : State) : State :=
  libRow p.val 7 80 hit s fun s1 ms c =>
    if cvOk c = false then libFault s1 ms 0x09
    else if fieldAt c 1 1 = 0 then convMatrix p.val s s1 ms c
    else convTadpole p.val s s1 ms c

/-- CONV: a convolution on the matrix units or on the tadpole engine (R289 to R306). -/
def execConv (p : RoutineCall) (s : State) : Res := done s (doConv p.part p.hit s)

/-! ### Detection -/

def isFinite32 (w : W32) : Bool := match f32Val w with | .fin _ _ _ => true | _ => false
def word32 (b : Bytes) (o : Nat) : W32 := BitVec.ofNat 32 (fieldAt b o 4)

/-- The checks of R308 and R315. -/
def detOk (d : Bytes) : Bool :=
  let in_ (o n lo hi : Nat) : Bool := decide (lo ≤ fieldAt d o n) && decide (fieldAt d o n ≤ hi)
  let iou := f32Val (word32 d 0x10)
  in_ 0 2 1 4096 && in_ 2 2 1 1024 && in_ 4 4 1 4194304 && fieldAt d 8 1 / 8 == 0 && zeroAt d 9 3
    && !iou.isNan && !iou.lt Num.zero && !(f32Val f32One).lt iou && in_ 0x14 4 1 65536
    && (List.range 4).all (fun i =>
        let w := word32 d (0x18 + 4 * i)
        isFinite32 w && Num.zero.lt (f32Val w))
    && isFinite32 (word32 d 0x28) && zeroAt d 0x2C 4 && decide (fieldAt d 4 4 * fieldAt d 2 2 ≤ 2 ^ 32)

/-- A box by its corners. -/
structure Box where
  x1 : W32
  y1 : W32
  x2 : W32
  y2 : W32
  deriving DecidableEq, Repr

/-- A candidate that has passed R310: its index, score and box. -/
structure Cand where
  index : Nat
  score : W32
  box : Box
  deriving DecidableEq, Repr

def f32Half : W32 := 0x3F000000#32

/-- The decoding of R309. -/
def decodeBox (d : Bytes) (anchor off : List W32) : Box :=
  let a (i : Nat) : W32 := nth 0 anchor i
  let o (i : Nat) : W32 := nth 0 off i
  let w (i : Nat) : W32 := word32 d (0x18 + 4 * i)
  let clip := word32 d 0x28
  let px := f32Fma (f32Div (o 0) (w 0)) (a 2) (a 0)
  let py := f32Fma (f32Div (o 1) (w 1)) (a 3) (a 1)
  let pw := f32Mul (f32Exp (f32Min (f32Div (o 2) (w 2)) clip)) (a 2)
  let ph := f32Mul (f32Exp (f32Min (f32Div (o 3) (w 3)) clip)) (a 3)
  { x1 := f32Sub px (f32Mul pw f32Half), y1 := f32Sub py (f32Mul ph f32Half)
    x2 := f32Add px (f32Mul pw f32Half), y2 := f32Add py (f32Mul ph f32Half) }

/-- The box conditions of R310. -/
def boxOk (b : Box) : Bool :=
  isFinite32 b.x1 && isFinite32 b.y1 && isFinite32 b.x2 && isFinite32 b.y2
    && (f32Val b.x1).lt (f32Val b.x2) && (f32Val b.y1).lt (f32Val b.y2)

/-- The test of R312: `a` suppresses `b`. -/
def suppresses (iou : W32) (a b : Box) : Bool :=
  let iw := f32Max f32Zero (f32Sub (f32Min a.x2 b.x2) (f32Max a.x1 b.x1))
  let ih := f32Max f32Zero (f32Sub (f32Min a.y2 b.y2) (f32Max a.y1 b.y1))
  let inter := f32Mul iw ih
  let ua := f32Mul (f32Sub a.x2 a.x1) (f32Sub a.y2 a.y1)
  let ub := f32Mul (f32Sub b.x2 b.x1) (f32Sub b.y2 b.y1)
  let uni := f32Sub (f32Add ua ub) inter
  (f32Val (f32Mul iou uni)).lt (f32Val inter)

/-- A score is at least SCORE_MIN; a NaN is not (R310). -/
def scoreOk (min_ score : W32) : Bool :=
  !(f32Val score).isNan && !(f32Val min_).isNan && !(f32Val score).lt (f32Val min_)

/-- Candidates in the order of R311, given in increasing index. -/
def orderCands (cs : List Cand) : List Cand := sortBy (fun a b => (f32Val b.score).lt (f32Val a.score)) cs

/-- The candidates kept by R312, with their ranks. -/
def keepCands (ncls : Nat) (agnostic : Bool) (iou : W32) (maxOut : Nat) (cs : List Cand) : List (Nat × Cand) :=
  (cs.mapIdx fun i c => (i, c)).foldl (fun (kept : List (Nat × Cand)) c =>
    if maxOut ≤ kept.length then kept
    else if kept.any fun k => (agnostic || k.2.index % ncls == c.2.index % ncls) && suppresses iou k.2.box c.2.box then kept
    else kept ++ [c]) []

/-- An image's output (R313, R314): its header and the records kept. -/
def detImage (d : Bytes) (anchors offs scores : List W32) : Bytes :=
  let ncls := fieldAt d 2 2
  let n := fieldAt d 4 4
  let mode := fieldAt d 8 1
  let hot := (List.range (n * ncls)).filter fun i => scoreOk (word32 d 0x0C) (nth 0 scores i)
  let all := hot.map fun i =>
    let a := i / ncls
    ({ index := i, score := nth 0 scores i, box := decodeBox d ((anchors.drop (4 * a)).take 4) ((offs.drop (4 * a)).take 4) } : Cand)
  let good := all.filter fun c => boxOk c.box
  let ordered := orderCands good
  let kept := keepCands ncls (bitOf mode 0) (word32 d 0x10) (fieldAt d 0x14 4) (ordered.take 65536)
  leBytes 4 kept.length ++ leBytes 4 good.length ++ leBytes 4 (all.length - good.length) ++ leBytes 4 (b2n (decide (65536 < good.length)))
    ++ kept.flatMap fun k =>
      f32Bytes [k.2.box.x1, k.2.box.y1, k.2.box.x2, k.2.box.y2, k.2.score] ++ leBytes 4 (k.2.index / ncls)
        ++ leBytes 2 (k.2.index % ncls) ++ leBytes 2 0 ++ leBytes 4 k.1

/-- One image read, decoded and written (R308, R313). -/
def detOne (p : Nat) (d : Bytes) (i : Nat) (s : State) : Acc × State :=
  let n := fieldAt d 4 4
  let mode := fieldAt d 8 1
  let fo : Fmt := if bitOf mode 2 then .bf16 else .f32
  let fs : Fmt := if bitOf mode 1 then .bf16 else .f32
  let ns := n * fieldAt d 2 2
  match readElems s p .f32 (fieldAt d 0x30 8) (4 * n) with
  | (.ok, anchors, s) =>
    match readElems s p fo (fieldAt d 0x38 8 + i * fo.bytesFor (4 * n)) (4 * n) with
    | (.ok, offs, s) =>
      match readElems s p fs (fieldAt d 0x40 8 + i * fs.bytesFor ns) ns with
      | (.ok, scores, s) =>
        writeMem s (.step p) (fieldAt d 0x48 8 + i * (16 + 32 * fieldAt d 0x14 4)) (detImage d anchors offs scores) (partPrio s p)
      | (a, _, s) => (a, s)
    | (a, _, s) => (a, s)
  | (a, _, s) => (a, s)

def doDet (p : PartId) (hit : Option TileId) (s : State) : State :=
  libRow p.val 8 80 hit s fun s1 ms d =>
    if detOk d = false then libFault s1 ms 0x09
    else if partDies s1 p.val = [] then failStep s1 p.val stNoResource
    else
      let r := accAll (List.range (fieldAt d 0 2)) s1 fun s i => detOne p.val d i s
      libEnd s r.2 p.val ms r.1

/-- DET: boxes decoded, ordered and suppressed, image by image (R307 to R315). -/
def execDet (p : RoutineCall) (s : State) : Res := done s (doDet p.part p.hit s)

end Sys2Proof.Machine
end

