-- ==== Sys2Proof/Machine/Steps.lean ====
section
/-! DEFINITION. Steps, the deadline monitor and accounting (chapter 15): the commands STEP_START, STEP_STOP, PROG_LOAD, DLM_SET
and ACCT_READ, the start and end of a step, markers, fallback and deadlines. -/

namespace Sys2Proof.Machine
open Sys2Proof

/-! ### Accounting (R777 to R783) -/

def acctTop : Nat := 2 ^ 64 - 1

/-- A client's counts changed; a count that saturates is noted (R782, R789). -/
def charge (s : State) (client : Nat) (f : Account → Account) : State :=
  let a := f (Tbl.get {} s.accounts client)
  let s := { s with accounts := Tbl.put {} s.accounts client a }
  let full (n : Nat) : Bool := n == acctTop
  if full a.tileNs || full a.engineNs || full a.t1Bytes || full a.t2Bytes || full a.hostBytes || full a.link0 || full a.link1
      || full a.link2 || full a.link3 || a.energyPj == acctTop * 1000000 then
    regOr s ⟨.acctStat, 0, 0⟩ 1
  else s

/-- The tiles that a running step is charged for: its start group, and the reserve while the gecko runs (R778). -/
def chargedTiles (r : Step) : Nat := r.group + if r.gecko then r.members.length else 0

/-- A running step's tile time charged up to now (R778, R784). -/
def chargeStep (s : State) (p : Nat) : State :=
  match (partAt s p).run with
  | none => s
  | some r =>
    let n := (s.now - r.charged) * chargedTiles r
    modRun (if n = 0 then s else charge s r.client fun a => { a with tileNs := satAdd acctTop a.tileNs n }) p fun r =>
      { r with charged := s.now }

/-- An accounting record (R782). -/
def acctRecord (s : State) (client : Nat) : Bytes :=
  let a : Account := Tbl.get {} s.accounts client
  let cs := [a.tileNs, a.engineNs, a.t1Bytes, a.t2Bytes, a.hostBytes, a.link0, a.link1, a.link2, a.link3]
  let uj := a.energyPj / 1000000
  leBytes 2 client ++ leBytes 1 (b2n ((cs ++ [uj]).any (· == acctTop))) ++ leBytes 5 0 ++ cs.flatMap (leBytes 8) ++ leBytes 8 uj
    ++ leBytes 8 s.now

/-- The clients of a VF's queues (R781). -/
def clientsOf (s : State) (fn : Nat) : List Nat := (s.host.queues.filter fun e => e.2.fn == fn && e.2.st != .free).map (·.2.client)

/-- The fields of an ACCT_READ lie in their ranges, and a VF reads its own clients (R781). -/
def acctOk (s : State) (c : Cmd) (b : Bytes) : Bool :=
  let first := fieldAt b 0 2
  let n := fieldAt b 2 2
  decide (1 ≤ n) && decide (n ≤ 4096) && decide (first + n ≤ 4096) && decide (fieldAt b 4 1 < 2) && zeroAt b 5 3 && zeroAt b 0x10 8
    && (c.fn == 0 || (span first n).all fun k => (clientsOf s c.fn).contains k)

/-- Bytes written where a command's DST says: host memory, or device memory with PAY_DEV. -/
def writeDst (s : State) (c : Cmd) (a : Nat) (b : Bytes) : Acc × State :=
  if bitOf c.flags 3 then writeMem s c.who a b else (.ok, { s with hostMem := putBytes 0 s.hostMem a b })

def doAcctRead (cid : Nat) (s : State) : State :=
  match cmdFor s cid 0x140 with
  | none => s
  | some c =>
    withPayload (beginCmd s cid) c 24 fun s1 b =>
      if acctOk s1 c b = false then complete s1 cid stBadDescriptor
      else
        let cl := span (fieldAt b 0 2) (fieldAt b 2 2)
        let s2 := forEach (List.range 16) s1 chargeStep
        match writeDst s2 c (fieldAt b 8 8) (cl.flatMap (acctRecord s2)) with
        | (.ok, s3) =>
          let s3 := if bitOf (fieldAt b 4 1) 0 then
              { s3 with accounts := cl.foldl (fun t k =>
                  Tbl.upd {} t k fun (a : Account) => { energyPj := a.energyPj % 1000000 }) s3.accounts }
            else s3
          complete (regAddWrap s3 ⟨.acctStat, 0, 0⟩ 16 16 1) cid stOk
        | (a, s3) => endBy s s3 cid a

/-- ACCT_READ (R781 to R783). -/
def execAcctRead (cid : Nat) (s : State) : Res := done s (doAcctRead cid s)

/-! ### Programs (R755, R756) -/

/-- The tiles that a descriptor's GROUP names: those of a bitmap, or for zero `all` (R745); else how the bitmap's read ends. -/
def groupTiles (s : State) (w : Who) (a : Nat) (all : List TileId) : Except Acc (List TileId) × State :=
  if a = 0 then (.ok all, s)
  else let r := readBitmap s w a; (r.1.map fun l => l.map toTile, r.2)

/-- A tile whose newt can take a program: it answers, and no step runs on it. -/
def loadable (s : State) (t : TileId) : Bool :=
  let st := (tileAt s (liveTile s t.toNat)).st
  st == .empty || st == .ready

def doProgLoad (cid : Nat) (s : State) : State :=
  match cmdFor s cid 0x110 with
  | none => s
  | some c =>
    if atRest s c (cmdPart s c) = false then s
    else withPayload (beginCmd s cid) c 32 fun s1 b =>
      let p := fieldAt b 0 1
      let len := fieldAt b 0x18 4
      if 16 ≤ p ∨ zeroAt b 1 7 = false ∨ zeroAt b 0x1C 4 = false ∨ c.may p = false ∨ (partAt s1 p).st ≠ .idle ∨ 98304 < len then
        complete s1 cid stBadDescriptor
      else
        match groupTiles s1 (.host (some p)) (fieldAt b 8 8) (partAt s1 p).tiles with
        | (.error a, s2) => endBy s s2 cid a
        | (.ok g, s2) =>
          if !(g.all fun t => (partAt s2 p).tiles.contains t && loadable s2 t) then complete s2 cid stBadDescriptor
          else match readMem s2 (.host (some p)) (fieldAt b 0x10 8) len with
            | (.ok, img, s3) =>
              if imgOk s3.boot.libVersion img = false ∨ img.length ≠ imgSize img then complete s3 cid stBadDescriptor
              else complete (tierNotice s3 (forEach g s3 fun s t => loadTile s (liveTile s t.toNat) p img) p) cid stOk
            | (a, _, s3) => endBy s s3 cid a

/-- PROG_LOAD (R160 to R162, R383, R420, R755, R756). -/
def execProgLoad (cid : Nat) (s : State) : Res := done s (doProgLoad cid s)

/-! ### Starting a step -/

/-- The shape tiles of a partition's open pipelines: for each, the SHAPE_TILES highest identifiers (R631). -/
def shapeTiles (s : State) (p : Nat) : List TileId :=
  let n := maxN (s.ing.pipes.map fun e => if e.2.st ≠ .closed ∧ e.2.part.val = p then fieldAt e.2.desc 0x4C 2 else 0)
  let ts := sortBy (fun a b => decide (a.toNat < b.toNat)) (partAt s p).tiles
  ts.drop (ts.length - n)

def reserveOf (s : State) (p : Nat) : List TileId := match (partAt s p).dlm with | some d => d.reserve | none => []

/-- The tiles that a start group with GROUP zero takes (R757). -/
def freeTiles (s : State) (p : Nat) : List TileId :=
  (partAt s p).tiles.filter fun t => !(reserveOf s p).contains t && !(shapeTiles s p).contains t

/-- The fields of a step descriptor that no other command changes (R757). -/
def stepFields (b : Bytes) : Bool :=
  decide (fieldAt b 0 1 < 16) && zeroAt b 1 1 && decide (fieldAt b 2 2 ≤ 4096) && zeroAt b 4 4 && zeroAt b 0x20 16
    && (fieldAt b 2 2 != 0 || fieldAt b 0x10 8 == 0)

/-- The deadline rules of R758. -/
def stepDeadlineOk (s : State) (c : Cmd) (b : Bytes) : Bool :=
  let d := fieldAt b 0x18 8
  (d == 0 || (partAt s (fieldAt b 0 1)).serving) && (d != 0) == c.deadlineQ

/-- The start group of a step, refused where R758 refuses it for its members; else how the read of its bitmap ends. -/
def stepGroup (s : State) (b : Bytes) : Except Acc (List TileId) × State :=
  let p := fieldAt b 0 1
  match groupTiles s (.host (some p)) (fieldAt b 8 8) (freeTiles s p) with
  | (.error a, s) => (.error a, s)
  | (.ok g, s) =>
    let g := sortBy (fun a b => decide (a.toNat < b.toNat)) g
    (if g.isEmpty || !(g.all fun t => (freeTiles s p).contains t) then .error .bounds else .ok g, s)

/-- Every member is READY and all hold an image with the same CRC (R758). -/
def membersReady (s : State) (g : List TileId) : Bool :=
  let crc (t : TileId) : Option Nat := (tileAt s (liveTile s t.toNat)).image.map fun i => imgCrc i.bytes
  g.all fun t => (tileAt s (liveTile s t.toNat)).st == .ready && (crc t).isSome && crc t == crc (nth 0 g 0)

/-- An earlier command of the partition that will change it still waits: its effect comes first (R784). -/
def partPending (s : State) (c : Cmd) (p : Nat) : Bool :=
  s.host.cmds.any fun e => decide (e.id < c.id) && !e.started && restOpcodes.contains e.opcode && (cmdParts s e).contains p

def doStepStart (cid : Nat) (s : State) : State :=
  match cmdFor s cid 0x120 with
  | none => s
  | some c =>
    match payloadOf s c with
    | (.ok, b, _) =>
      let p := fieldAt b 0 1
      if (partAt s p).waiting.contains cid then s
      else if b.length < 48 ∨ stepFields b = false ∨ c.may p = false then complete s cid stBadDescriptor
      else if partPending s c p then s
      else if ((partAt s p).st ≠ .idle ∧ (partAt s p).st ≠ .running) ∨ stepDeadlineOk s c b = false then complete s cid stBadDescriptor
      else match (stepGroup s b).1 with
      | .error .wait => s
      | .error a => complete s cid (accStatus a)
      | .ok _ => modPart (modCmd s cid fun c => { c with payBytes := some b }) p fun q => { q with waiting := q.waiting ++ [cid] }
    | (.wait, _, _) => s
    | (a, _, s) => complete s cid (accStatus a)

/-- STEP_START: refused, or waiting for its turn (R757, R758, R760). -/
def execStepStart (cid : Nat) (s : State) : Res := done s (doStepStart cid s)

/-- A partition changes its state, with a fault record (R764, R785). -/
def setPartState (s : State) (p : Nat) (st : PartState) : State :=
  let s := modPart s p fun q => { q with st := st }
  faultReg s p ⟨.partState, 0, p⟩

/-! ### The deadline monitor (R765 to R776) -/

/-- Fallback (R771): the members stop, their status is not reported, the holdback page is discarded, and the reserve starts
the gecko with the step's number and arguments. -/
def fallback (s : State) (p : Nat) : State :=
  match (partAt s p).run, (partAt s p).dlm with
  | some r, some d =>
    let s := forEach (liveMembers s r.members) s stopTile
    let s := discardPage (dropStaged (collStop s p) p) p
    let s := chargeStep s p
    let page := match stepQueue s p with | some q => (queueAt s q).prTail | none => 0
    let s := modRun s p fun r =>
      { r with gecko := true, members := d.reserve, geckoPage := page, status := none, faults := [], replayDue := false
               recovered := false }
    faultRec (launch s p r.num r.args d.reserve) stOkFallback p ⟨.partStepstat, 0, p⟩
  | _, _ => s

/-- miss_predicted (R769): fallback where the gecko is used, else only the prediction stands. -/
def missPredicted (s : State) (p : Nat) : State :=
  match (partAt s p).run, (partAt s p).dlm with
  | some r, some d => if d.fallback ∧ r.gecko = false ∧ r.status.isNone then fallback s p else s
  | _, _ => s

/-- MARKERS of the image that a step's members hold (R160, R767). -/
def stepMarkers (s : State) (r : Step) : Nat :=
  match r.members with
  | t :: _ => match (tileAt s (liveTile s t.toNat)).image with | some i => imgMarkers i.bytes | none => 0
  | [] => 0

/-- The prediction of R767, made with progress `m` last raised at `tm`: recorded, and acted on when it misses. -/
def predict (s : State) (p : Nat) : State :=
  match (partAt s p).run, (partAt s p).dlm with
  | some r, some d =>
    if r.deadline ≠ 0 ∧ d.minMark ≤ r.progress ∧ r.progress ≠ 0 then
      let t := r.t0 + (r.tm - r.t0) * stepMarkers s r / r.progress
      let s := modPart s p fun q => { q with pred := t }
      if r.deadline < t + d.guardNs then missPredicted s p else s
    else s
  | _, _ => s

/-- A member's marker enters the step's progress (R767). -/
def noteMark (s : State) (p : Nat) (t : TileId) (v time : Nat) : State :=
  modRun s p fun r =>
    let ms := Tbl.put 0 r.marks t.toNat v
    let ids := r.members.map fun u => liveTile s u.toNat
    let m := minN v (ids.map (Tbl.get 0 ms))
    { r with marks := ms, progress := max r.progress m, tm := if r.progress < m then time else r.tm }

def doMarkerRecord (p : PartId) (s0 : State) : State :=
  let s := settleStop s0 p.val
  match (partAt s p.val).marks with
  | [] => s
  | (t, num, v, time) :: rest =>
    let s := modPart s p.val fun q => { q with marks := rest }
    match (partAt s p.val).run with
    | none => s
    | some r =>
      if r.num ≠ num ∨ r.gecko ∨ r.status.isSome ∨ (liveMembers s r.members).contains t.toNat = false then s
      else predict (noteMark s p.val t (min v (stepMarkers s r)) time) p.val

/-- MARKER_RECORD: a marker reaches the monitor, which evaluates its prediction (R767, R769, R784, R788). -/
def execMarkerRecord (p : PartId) (s : State) : Res := done s (doMarkerRecord p s)

/-- The latest fallback point of a running step has come (R768). -/
def fallbackDue (s : State) (p : Nat) : Bool :=
  match (partAt s p).run, (partAt s p).dlm with
  | some r, some d => r.deadline != 0 && d.fallback && decide (r.deadline ≤ s.now + d.geckoNs)
  | _, _ => false

def doFallbackPoint (p : PartId) (s0 : State) : State :=
  let s := settleStop s0 p.val
  if fallbackDue s p.val then missPredicted s p.val else s

/-- FALLBACK_POINT: DEADLINE − GECKO_NS has come and the step has not ended (R768, R769, R771). -/
def execFallbackPoint (p : PartId) (s : State) : Res := done s (doFallbackPoint p s)

def doDeadlineExpiry (p : PartId) (s0 : State) : State :=
  let s := settleStop s0 p.val
  match (partAt s p.val).run with
  | none => s
  | some r =>
    if r.deadline = 0 ∨ s.now < r.deadline ∨ r.status.isSome then s
    else
      let stalled := match stepQueue s p.val with | some q => (queueAt s q).hostStall | none => false
      if stalled then stallStop s p.val
      else match (partAt s p.val).dlm with
        | some d => if d.end_ ∧ (d.fallback = false ∨ r.gecko) then stopStep s p.val stDeadlineMiss else s
        | none => s

/-- DEADLINE_EXPIRY: a step, or its gecko, that has not ended by DEADLINE (R770, R772, R775). -/
def execDeadlineExpiry (p : PartId) (s : State) : Res := done s (doDeadlineExpiry p s)

/-- The fields of a monitor descriptor lie in their ranges (R765). -/
def dlmFields (b : Bytes) : Bool :=
  let ctl := fieldAt b 1 1
  decide (fieldAt b 0 1 < 16) && decide (ctl < 4) && decide (1 ≤ fieldAt b 2 2) && decide (fieldAt b 2 2 ≤ 4095) && zeroAt b 4 4
    && zeroAt b 0x20 16 && (!bitOf ctl 0 || (fieldAt b 8 8 != 0 && fieldAt b 0x10 8 != 0))

/-- All the reserve's newts hold one image (R766). -/
def oneImage (s : State) (g : List TileId) : Bool :=
  let img (t : TileId) : Option Image := (tileAt s (liveTile s t.toNat)).image
  g.all fun t => (img t).isSome && img t == img (nth 0 g 0)

def doDlmSet (cid : Nat) (s : State) : State :=
  match cmdFor s cid 0x130 with
  | none => s
  | some c =>
    if atRest s c (cmdPart s c) = false then s
    else withPayload (beginCmd s cid) c 48 fun s1 b =>
      let p := fieldAt b 0 1
      let ctl := fieldAt b 1 1
      if dlmFields b = false ∨ c.may p = false ∨ (partAt s1 p).st ≠ .idle ∨ (partAt s1 p).serving = false then
        complete s1 cid stBadDescriptor
      else match groupTiles s1 (.host (some p)) (fieldAt b 8 8) [] with
        | (.error a, s2) => endBy s s2 cid a
        | (.ok g, s2) =>
          let inside := g.all fun t => (partAt s2 p).tiles.contains t && !(shapeTiles s2 p).contains t
          if inside = false ∨ (bitOf ctl 0 ∧ oneImage s2 g = false) then complete s2 cid stBadDescriptor
          else complete (modPart s2 p fun q =>
            { q with dlm := some { fallback := bitOf ctl 0, end_ := bitOf ctl 1, minMark := fieldAt b 2 2, reserve := g
                                   geckoNs := fieldAt b 0x10 8, guardNs := fieldAt b 0x18 8 } }) cid stOk

/-- DLM_SET (R765, R766). -/
def execDlmSet (cid : Nat) (s : State) : Res := done s (doDlmSet cid s)

/-! ### Beginning and ending -/

/-- A refused step leaves the wait. -/
def dropWaiting (s : State) (p cid : Nat) : State := modPart s p fun q => { q with waiting := q.waiting.filter (· != cid) }

/-- A step starts on its group (R759, R761, R764, R768). -/
def beginStep (s : State) (p : Nat) (c : Cmd) (b args : Bytes) (g : List TileId) : State :=
  let s := dropWaiting (beginCmd s c.id) p c.id
  let num := (partAt s p).stepNum + 1
  let s := modPart s p fun q =>
    { q with stepNum := num, pred := 0
             run := some { cid := c.id, num := num, members := g, args := args, deadline := fieldAt b 0x18 8, t0 := s.now
                           client := c.client, group := g.length, charged := s.now } }
  let s := setPartState (launch s p num args g) p .running
  if fallbackDue s p then missPredicted s p else s

def doStepBegin (p : PartId) (s : State) : State :=
  let q := partAt s p.val
  match q.waiting with
  | [] => s
  | cid :: _ =>
    match cmdAt s cid with
    | none => dropWaiting s p.val cid
    | some c =>
      if q.run.isSome ∨ s.boot.phase ≠ .run ∨ atRest s c p.val = false then s
      else
        let b := c.payBytes.getD []
        let bad (s : State) : State := dropWaiting (complete s cid stBadDescriptor) p.val cid
        if q.st ≠ .idle ∨ stepDeadlineOk s c b = false then bad s
        else match stepGroup s b with
          | (.error .wait, _) => s
          | (.error a, s1) => dropWaiting (complete s1 cid (accStatus a)) p.val cid
          | (.ok g, s1) =>
            if membersReady s1 g = false then bad s1
            else match readMem s1 (.step p.val) (fieldAt b 0x10 8) (fieldAt b 2 2) with
              | (.ok, args, s2) => beginStep s2 p.val c b args g
              | (.wait, _, _) => s
              | (a, _, s2) => dropWaiting (complete s2 cid (accStatus a)) p.val cid

/-- STEP_BEGIN: the first waiting STEP_START begins once no step of its partition runs (R163, R758 to R761, R768). -/
def execStepBegin (p : PartId) (s : State) : Res := done s (doStepBegin p s)

def doStepStop (cid : Nat) (s : State) : State :=
  match cmdFor s cid 0x121 with
  | none => s
  | some c =>
    let s := beginCmd s cid
    let p := c.byte 0
    if 16 ≤ p ∨ c.may p = false ∨ (partAt s p).st = .none then complete s cid stBadDescriptor
    else
      let s := stopStep s p stAborted
      let s := if bitOf (c.byte 1) 0 then
          let ws := (s.host.cmds.filter fun e => e.opcode == 0x120 && !e.started && decide (e.id < cid) && cmdPart s e == p).map (·.id)
          forEach ws s fun s w => complete (dropWaiting s p w) w stAborted
        else s
      complete s cid stOk

/-- STEP_STOP (R167, R168, R763, R784). -/
def execStepStop (cid : Nat) (s : State) : Res := done s (doStepStop cid s)

/-- The statistics of a step's collectives added in order (R617, R623, R624). -/
def gradientNoise (s : State) (p : Nat) (r : Step) : State :=
  let rs := sortBy (fun (a b : Nat × Nat × Bytes) => decide (a.1 < b.1 ∨ (a.1 = b.1 ∧ a.2.1 < b.2.1))) r.stats
  let sum (o : Nat) : W32 := rs.foldl (fun acc x => f32Add acc (BitVec.ofNat 32 (fieldAt x.2.2 o 4))) f32Zero
  let qin := sum 0x10
  let qout := sum 0x14
  let mem (x : Nat × Nat × Bytes) : Nat := fieldAt x.2.2 4 2 % 2 ^ 15
  let first := match rs with | x :: _ => mem x | [] => 0
  let nonfin := rs.any (fun x => bitOf (fieldAt x.2.2 7 1) 0) || !isFinite32 qin || !isFinite32 qout
  let mixed := rs.any fun x => mem x != first
  let s := regSet s ⟨.partGns, 0, p⟩ (qout.toNat * 2 ^ 32 + qin.toNat)
  let s := regSet s ⟨.partGnsstep, 0, p⟩ r.num.toNat
  regSet s ⟨.partGnsinfo, 0, p⟩ (min 0x7FFF rs.length * 2 ^ 17 + b2n nonfin * 2 ^ 16 + b2n mixed * 2 ^ 15 + first)

/-- RECOMPUTE failures that awaited the step's replay are resolved by the status that the step ends with (R357, R358): RECOVERED where the
replay succeeded, LOST, and with that outcome in a record of the failure, where it ends PARITY_LOST, neither otherwise (log entry 84). -/
def resolveAwaiting (s : State) (p : Nat) (st : Status) : State :=
  let mine := s.strata.awaiting.filter fun e => e.1.val == p
  let s := setStrata s fun x => { x with awaiting := x.awaiting.filter fun e => e.1.val != p }
  forEach mine s fun s e =>
    let (t, off) := e.2
    let r : Reg := ⟨.strErrlog, t, 0⟩
    if st = stParityLost then
      strLost (if regBit s r 0 ∧ regFld s r 8 2 = 2 ∧ regFld s r 2 3 = 2 ∧ regFld s r 10 27 = off then regPut s r 2 3 4 else s) t
    else if st = stOkRecovered then strRecovered s t
    else s

/-- The writes that a step owes, each made before it ends, whatever the others met (R204, R375, R391, R407): how they end. -/
def owedWrites (s : State) (p : PartId) (r : Step) (ms : List Nat) : Acc × State :=
  let flushes := (s.tier.regions.filter fun g => g.backed && g.stepFlush && g.part == p).map fun g s => flushRange s g g.base g.length
  accEach ((fun s => flushC s p.val ms none) :: flushes ++ [fun s => wcFlushStep s p r.num]) s fun s f => f s

/-- The lateness of a step's start (R725), when it is late. -/
def startLate (s : State) (c : Cmd) : Nat :=
  match c.at_ with
  | some a => let b := c.begun.getD s.now; if c.late ∨ a + 2000 < b then b - a else 0
  | none => 0

/-- The status and INFO of a step that ends (R762, R770, R771, R772, R920). -/
def stepOutcome (s : State) (c : Cmd) (r : Step) : Status × Nat :=
  match r.status with
  | some st => (st, r.num.toNat)
  | none =>
    let after := if r.deadline ≠ 0 then s.now - r.deadline else 0
    if r.gecko then
      let page := match c.queue with
        | some q => if (queueAt s q).prTail = r.geckoPage then 0xFFFF else r.geckoPage % 65536
        | none => 0xFFFF
      (stOkFallback, page * 2 ^ 48 + min (2 ^ 48 - 1) after)
    else if r.recovered then (stOkRecovered, r.num.toNat)
    else
      let late := max after (startLate s c)
      if late ≠ 0 ∨ c.late then (stOkLate, late) else (stOk, r.num.toNat)

/-- A deadline step counted by how it ended (R787). -/
def countDeadline (s : State) (p : Nat) (r : Step) (st : Status) : State :=
  if r.deadline = 0 then s
  else if st = stOkFallback then dlmCount s p 48
  else if st = stDeadlineMiss ∨ st = stHostStall ∨ st = stExpired then dlmCount s p 32
  else if st = stOkLate ∨ (st = stOkRecovered ∧ r.deadline < s.now) then dlmCount s p 16
  else if st = stOk ∨ st = stOkRecovered then dlmCount s p 0
  else s

/-- A step whose members have ended and whose writes are made: its records, its counts, its completion. -/
def endStep (s : State) (p : PartId) (r : Step) : State :=
  match cmdAt s r.cid with
  | none => setPartState (modPart s p.val fun q => { q with run := none }) p.val .idle
  | some c =>
    let (st, info) := stepOutcome s c r
    let s := resolveAwaiting s p.val st
    let s := gradientNoise s p.val r
    let s := countDeadline (chargeStep s p.val) p.val r st
    let s := forEach (liveMembers s r.members) (dropStaged s p.val) fun s t =>
      if (tileAt s t).st = .faulted then endProgram s t else s
    let s := { s with partSent := s.partSent.filter fun e => e.2.1 != p }
    let s := modPart s p.val fun q => { q with run := none, lastStatus := st }
    let s := if st = stDeadlineMiss ∨ st = stHostStall then faultRec s st p.val ⟨.partStepstat, 0, p.val⟩ else s
    complete (setPartState s p.val .idle) r.cid st info

def doStepEnd (p : PartId) (s0 : State) : State :=
  let s := settleStop s0 p.val
  match (partAt s p.val).run with
  | none => s
  | some r =>
    let ms := liveMembers s r.members
    let at_ (t : Nat) : Bool := let st := (tileAt s t).st; st == .ready || st == .faulted || st == .retired || st == .empty
    if r.replayDue ∨ ms.all at_ = false then s
    else match owedWrites s p r ms with
      | (.wait, s1) => stillWaits s s1
      | (a, s1) =>
        let s2 := if a = .ok then s1 else stepStatus s1 p.val (accStatus a)
        match (partAt s2 p.val).run with
        | some r2 => endStep s2 p r2
        | none => s2

/-- STEP_END: every member has halted or stopped and every write the step owes has completed (R762). -/
def execStepEnd (p : PartId) (s : State) : Res := done s (doStepEnd p s)

end Sys2Proof.Machine
end

