-- ==== Sys2Proof/Machine/CollOps.lean ====
section
/-! DEFINITION. How a collective runs on one member: its phases (R538, R551, R573), the fixed order of reduction (R546 to
R548), chunks, requests and grants (R552 to R560), and its end (R533, R573). -/

namespace Sys2Proof.Machine
open Sys2Proof

/-! ### Elements in travelling form -/

def cExact (d : Bytes) : Bool := cElem d ≤ 2 && cRed d == 0 && cAcc d == 2
/-- F32 travels (R547). -/
def cWide (d : Bytes) : Bool := cElem d ≤ 2 && cRed d == 0 && cAcc d == 0

/-- The value of an element as F32; an I32 or a long partial rounds once (log entry 52). -/
def cF32 (e : Nat) (b : Bytes) : W32 :=
  match elemFmt e with
  | some f => f32Of (f.decode (leNat b))
  | none =>
    if e = 8 then i32ToF32 (BitVec.ofNat 32 (leNat b))
    else if e = 9 then f32Of (elNum true (partialEl b)) else f32Zero

def cRound (e : Nat) (v : Num) : Bytes :=
  match elemFmt e with
  | some f => leBytes (cElemSize e) (f.encode false .rne v).1
  | none => leBytes (cElemSize e) 0

/-- One element's contribution to its block's anchor (R551): bits 9 to 0 the anchor plus 256, zero for none, then NAN, PINF
and NINF (log entry 53). -/
def anchorOf (v : Num) : Nat :=
  match v with
  | .nan => 2 ^ 13
  | .inf false => 2 ^ 14
  | .inf true => 2 ^ 15
  | .fin _ m e => if m = 0 then 0 else (magLog2 m e + 256).toNat

def anchorMax (a b : Nat) : Nat := max (bitsOf a 0 10) (bitsOf b 0 10) + (bitsOf a 13 3 ||| bitsOf b 13 3) * 2 ^ 13

/-- The 64-bit integer of an element under its block's anchor (R551). -/
def exactInt (anchor : Nat) (v : Num) : Nat :=
  let a : Int := (bitsOf anchor 0 10 : Nat) - 256
  match v with
  | .fin s m e =>
    let k := e + 47 - a
    let x : Int := if s then -(m : Int) else m
    codeOf 64 (if 0 ≤ k then x * 2 ^ k.toNat else x / 2 ^ (-k).toNat)
  | _ => 0

/-- The element of an exact sum (R96, R551). -/
def exactNum (anchor sum : Nat) : Num :=
  let a : Int := (bitsOf anchor 0 10 : Nat) - 256
  let v := signedOf 64 sum
  if bitOf anchor 13 || (bitOf anchor 14 && bitOf anchor 15) then .nan
  else if bitOf anchor 14 then .inf false
  else if bitOf anchor 15 then .inf true
  else if v = 0 then .zero
  else .fin (v < 0) v.natAbs (a - 47)

/-- op of R547 on two elements in travelling form: `x` the sum so far, `y` the member's own. -/
def reduceElem (d x y : Bytes) : Bytes :=
  let e := cElem d
  let a := BitVec.ofNat 32 (leNat x)
  let b := BitVec.ofNat 32 (leNat y)
  if cRed d = 0 then
    if cExact d then leBytes 8 (leNat x + leNat y)
    else if cWide d then leBytes 4 (f32Add a b).toNat
    else if e = 8 then leBytes 4 (leNat x + leNat y)
    else if e = 9 then longPartial (mergeLong (partialEl x) (partialEl y)).1
    else match elemFmt e with
      | some f => cRound e ((f.decode (leNat x)).add (f.decode (leNat y)))
      | none => x
  else if e = 8 then
    let lo := decide (a.toInt < b.toInt)
    if (cRed d = 1) = lo then y else x
  else match elemFmt e with
    | some f =>
      let v := f32Of (f.decode (leNat x))
      let w := f32Of (f.decode (leNat y))
      cRound e (f32Val (if cRed d = 1 then f32Max v w else f32Min v w))
    | none => [Config.byteExtreme (cRed d) (BitVec.ofNat 8 (leNat x)) (BitVec.ofNat 8 (leNat y))]

/-! ### Domains and phases -/

/-- What a phase moves: the data, the anchors of R551 (an item for each block), the pair of sums of R573. -/
inductive CollDom where
  | data | anchor | stats
  deriving DecidableEq, Repr

/-- A phase of a collective on one member. -/
inductive CollPhase where
  | rs (dom : CollDom) (a : Nat)
  | ag (dom : CollDom) (a : Nat)
  | a2a
  | enter
  | round
  | sums
  deriving DecidableEq, Repr

def rsPhases (d : Bytes) (m : CollDom) : List CollPhase := (liveAxes d).map (.rs m)
def agPhases (d : Bytes) (m : CollDom) : List CollPhase := (liveAxes d).reverse.map (.ag m)

/-- The phases in order (R538, R548, R551, R573; log entry 50). -/
def collPhases (d : Bytes) : List CollPhase :=
  let stats := if cStats d then [.sums] ++ rsPhases d .stats ++ agPhases d .stats else []
  let first := (if cExact d then rsPhases d .anchor ++ agPhases d .anchor else []) ++ [.enter] ++ rsPhases d .data ++ [.round]
  match cOp d with
  | 1 => first ++ stats
  | 3 => first ++ agPhases d .data ++ stats
  | 5 => [.a2a]
  | _ => agPhases d .data

def domCount (d : Bytes) : CollDom → Nat
  | .data => cCount d | .anchor => cBlocks d | .stats => 2
def domPer : CollDom → Nat
  | .data => 64 | .anchor => 1 | .stats => 64
def domKey (m : CollDom) (i : Nat) : Nat :=
  match m with
  | .data => i | .anchor => 2 ^ 48 + i | .stats => 2 ^ 49 + i
def domBlocks (d : Bytes) (m : CollDom) : Nat := ceilDiv (domCount d m) (domPer m)

/-- Bytes of an item in a phase. -/
def itemBytes (d : Bytes) (m : CollDom) (gather : Bool) : Nat :=
  match m with
  | .anchor => 2
  | .stats => 4
  | .data => if gather then cBytes d else if cExact d then 8 else if cWide d then 4 else cBytes d

def itemAt (r : CollRun) (m : CollDom) (w i : Nat) : Bytes :=
  match Tbl.get [] r.vals (domKey m i) with
  | [] => List.replicate w 0
  | b => b

def putItem (r : CollRun) (m : CollDom) (i : Nat) (b : Bytes) : CollRun := { r with vals := Tbl.put [] r.vals (domKey m i) b }

/-- PASS (R553). -/
def passByte (m : CollDom) (a : Nat) (gather minus : Bool) : Nat :=
  (if m = .data then a else 3) + b2n gather * 4 + b2n minus * 8

/-- CHUNK of a pass: the passes that share axis code 3 interleave (log entry 54). -/
def chunkNo (m : CollDom) (a c : Nat) : Nat :=
  match m with
  | .data => c | .anchor => 6 * c + a | .stats => 6 * c + 3 + a

/-! ### Segments and units -/

/-- The blocks of segment `r` of a pass: of the range held before it (R539), or all of them at the root's position of a
BCAST. -/
def segBlocks (s : State) (d : Bytes) (chip : Nat) (m : CollDom) (a r : Nat) : Nat × Nat :=
  if cOp d = 4 then (if r = ringPos s d a (cRoot d a) then (0, domBlocks d m) else (0, 0))
  else cutSeg (rangeBefore s d chip (domBlocks d m) a) (cLen d a) r

/-- The items of a segment that travel in one direction, in order (R540). -/
def segItems (s : State) (d : Bytes) (chip : Nat) (m : CollDom) (a r : Nat) (minus : Bool) : List Nat :=
  let x := segBlocks s d chip m a r
  ((span x.1 (x.2 - x.1)).filter fun b => (b - x.1) % 2 == b2n minus).flatMap fun b =>
    span (domPer m * b) (min (domPer m * (b + 1)) (domCount d m) - domPer m * b)

/-- Items of a unit: those of one chunk, or the whole segment where chunks cut items (log entry 54). -/
def unitLen (d : Bytes) (w n : Nat) : Nat := if cChunk d % w = 0 then cChunk d / w else max 1 n

/-- A unit of a pass: segment, direction, the items, their first chunk, and its number of chunks. -/
structure CollUnit where
  seg : Nat
  minus : Bool
  items : List Nat
  chunk : Nat
  chunks : Nat
  deriving DecidableEq, Repr

/-- The units of a segment in one direction; chunks are counted through the segments of the pass. -/
def segUnits (s : State) (d : Bytes) (chip : Nat) (m : CollDom) (a : Nat) (gather minus : Bool) (r : Nat) : List CollUnit :=
  let w := itemBytes d m gather
  let base := sumN ((List.range r).map fun q => ceilDiv ((segItems s d chip m a q minus).length * w) (cChunk d))
  let is := segItems s d chip m a r minus
  let k := unitLen d w is.length
  (List.range (ceilDiv is.length k)).map fun u =>
    let it := (is.drop (u * k)).take k
    ⟨r, minus, it, base + u, ceilDiv (it.length * w) (cChunk d)⟩

/-- The steps that a segment has travelled when it comes to ring position `q`: 0 at its owner in a gather, 1 at the first
member of a reduction (R546). -/
def travelled (l q r : Nat) (minus : Bool) : Nat := if minus then (r + l - q) % l else (q + l - r) % l

/-- This member takes part in a pass: in a BCAST, the bangles that the root's data has reached (log entry 50). -/
def inPass (s : State) (d : Bytes) (chip a : Nat) : Bool :=
  cOp d != 4 || (List.range a).all fun b => memberIdx s d chip b == cRoot d b

/-- The units that this member receives in a pass. -/
def unitsIn (s : State) (d : Bytes) (chip : Nat) (m : CollDom) (a : Nat) (gather : Bool) : List CollUnit :=
  if !inPass s d chip a then []
  else
    let l := cLen d a
    let q := ringPos s d a (memberIdx s d chip a)
    [false, true].flatMap fun minus =>
      ((List.range l).filter fun r => travelled l q r minus != (if gather then 0 else 1)).flatMap
        (segUnits s d chip m a gather minus)

/-- The units that it sends from what it holds on entry. -/
def unitsOwn (s : State) (d : Bytes) (chip : Nat) (m : CollDom) (a : Nat) (gather : Bool) : List CollUnit :=
  if !inPass s d chip a then []
  else
    let l := cLen d a
    let q := ringPos s d a (memberIdx s d chip a)
    [false, true].flatMap fun minus =>
      ((List.range l).filter fun r => travelled l q r minus == (if gather then 0 else 1)).flatMap
        (segUnits s d chip m a gather minus)

/-! ### Sending -/

def modCollRun (s : State) (p n : Nat) (f : CollRun → CollRun) : State := modColl s p n fun c => { c with run := c.run.map f }
def collRun (s : State) (p n : Nat) : Option CollRun := (collAt s p n).run
def noteMove (s : State) (p n : Nat) : State := modCollRun s p n fun r => { r with lastMove := s.now }

/-- A COLLECTIVE message of a stream (R526, R553). -/
def sendColl (s : State) (p n : Nat) (byPhys : Bool) (dst epoch : Nat) (tag : W32) (body : Bytes) : Option Status × State :=
  sendMsg s { byPhys, dst, cls := 0x10, part := p, prio := partPrio s p, epoch, flow := n, tag := tag.toNat, payload := body }

/-- A produced chunk is kept for its request (R554, R556, R557). -/
def produce (s : State) (p n : Nat) (chip pass chunk : Nat) (data : Bytes) : State :=
  let (tag, s) := newTag s
  modCollRun s p n fun r =>
    { r with sent := r.sent ++ [{ chip, pass := BitVec.ofNat 8 pass, chunk := BitVec.ofNat 32 chunk, data
                                  crc := BitVec.ofNat 32 (crc32c data), tag := BitVec.ofNat 32 tag }] }

/-- A unit cut into its chunks and produced for the next member of the ring in its direction (R540, R552). -/
def produceUnit (s : State) (p n : Nat) (d : Bytes) (chip : Nat) (m : CollDom) (a : Nat) (gather : Bool) (u : CollUnit)
    (data : Bytes) : State :=
  let l := cLen d a
  let q := ringPos s d a (memberIdx s d chip a)
  let next := ringChip s d chip a (if u.minus then q + l - 1 else q + 1)
  forEach (List.range u.chunks) s fun s i =>
    produce s p n next (passByte m a gather u.minus) (chunkNo m a (u.chunk + i)) ((data.drop (i * cChunk d)).take (cChunk d))

/-- Requests outstanding at a receiving module, over all streams (R559). -/
def asksAt (s : State) (chip : Nat) : Nat :=
  sumN (s.coll.streams.map fun e => match e.2.run with
    | some r => (r.sent.filter fun c => c.chip == chip && c.asked && !c.granted).length
    | none => 0)

/-- The status with which a collective ends when a message of it cannot go (R566). -/
def lostStatus : Status → Status := fun st => if st = stLinkDown then stPeerLost else st

/-- A chunk announced by its REQ where R559 lets it. -/
def askChunk (s : State) (p n : Nat) (tag : W32) : State :=
  match collRun s p n with
  | none => s
  | some r =>
    match r.sent.find? fun c => c.tag == tag with
    | none => s
    | some c =>
      if c.asked || decide (2 ≤ asksAt s c.chip) then s
      else
        let h := collHeader r.op.seq n 1 c.pass.toNat 0 c.chunk r.op.digest 0 c.data.length
        match sendColl s p n false c.chip (partAt s p).epoch.toNat tag h with
        | (some st, s) => collFail s p n r.op (lostStatus st) 0 true
        | (none, s) => modCollRun s p n fun r =>
            { r with sent := r.sent.map fun x =>
                if x.tag = tag then { x with asked := true, dst := (mapEntry s c.chip).getD 0 } else x }

/-- Every stream of the module asks for what it may (R559). -/
def askAll (s : State) : State :=
  forEach (s.coll.streams.map (·.1)) s fun s k =>
    match (Tbl.get {} s.coll.streams k).run with
    | none => s
    | some r => forEach (r.sent.map (·.tag)) s fun s t => askChunk s (k / 64) (k % 64) t

/-- A granted chunk's DATA fragments (R552, R557). -/
def sendChunk (s : State) (p n : Nat) (c : SentChunk) : State :=
  let k := ceilDiv c.data.length 32768
  forEach (List.range k) s fun s i =>
    match collRun s p n with
    | none => s
    | some r =>
      let part := (c.data.drop (32768 * i)).take 32768
      let last := i + 1 == k
      let h := collHeader r.op.seq n 3 c.pass.toNat (i + b2n last * 128) c.chunk r.op.digest (if last then c.crc.toNat else 0)
        part.length
      match sendColl s p n false c.chip c.epoch.toNat c.tag (h ++ part) with
      | (some st, s) => collFail s p n r.op (lostStatus st) 0 true
      | (none, s) => s

/-! ### Granting -/

/-- A control message of a receiver to a chunk's sender, its tag kept (R557, R566). -/
def answerColl (s : State) (p n type : Nat) (src : Nat) (seq : W32) (pass : Byte) (chunk digest : W32) : State :=
  let (tag, s) := newTag s
  let s := modColl s p n fun c => { c with tags := c.tags ++ [BitVec.ofNat 32 tag] }
  let h := collHeader seq n type pass.toNat 0 chunk digest 0 0
  (sendColl s p n true src (partAt s p).epoch.toNat (BitVec.ofNat 32 tag) h).2

/-- The chunk that a REQ announces. -/
def chunkOfReq (e : CollReqEntry) : Chunk :=
  { seq := hSeq e.msg, pass := hPass e.msg, chunk := hChunk e.msg, src := BitVec.ofNat 15 (msgSrc e.msg), digest := hDigest e.msg
    size := hBytes e.msg, die := e.die }

def ofStream (p n : Nat) (e : CollReqEntry) : Bool := msgPart e.msg == p && hStream e.msg == n

/-- Bytes of a stream's landing zone in use on a die (R558, R561). -/
def lzUsed (c : CollStream) (die : Die) : Nat := sumN ((c.held.filter fun h => h.die == die).map (·.size))

/-- A request is granted where R558 lets it: staging for the running collective, the landing zone ahead of it. -/
def grantOne (s : State) (p n : Nat) (e : CollReqEntry) : Bool × State :=
  let c := collAt s p n
  let k := chunkOfReq e
  let give (s : State) : State :=
    answerColl { s with coll := { s.coll with requests := removeFirst (· == e) s.coll.requests } } p n 2 k.src.toNat k.seq k.pass
      k.chunk k.digest
  match c.run with
  | some r =>
    if k.seq = r.op.seq then
      if 2 ≤ (r.recv.filter fun x => x.src == k.src && x.pass == k.pass && !x.complete).length then (true, s)
      else (true, give (modCollRun s p n fun r => { r with recv := r.recv ++ [k], lastMove := s.now }))
    else if 33554432 < lzUsed c e.die + k.size then (false, s)
    else (true, give (modColl s p n fun c => { c with held := c.held ++ [k] }))
  | none =>
    if k.seq = c.nextSeq then (true, s)
    else if 33554432 < lzUsed c e.die + k.size then (false, s)
    else (true, give (modColl s p n fun c => { c with held := c.held ++ [k] }))

/-- Requests of a stream looked at again, the running collective's first, then the lowest sequence number first, until one
finds no room (R558, R560). -/
def grantAll (s : State) (p n : Nat) : State :=
  let c := collAt s p n
  if c.st ≠ .opened ∧ c.st ≠ .running then s
  else
    let rs := s.coll.requests.filter (ofStream p n)
    let rs := sortBy (fun a b => decide ((hSeq a.msg - c.nextSeq).toNat < (hSeq b.msg - c.nextSeq).toNat)) rs
    ((List.finRange 8).foldl (fun s d =>
      ((rs.filter fun e => e.die == d).foldl (fun (acc : Bool × State) e =>
        if acc.1 then grantOne acc.2 p n e else acc) (true, s)).2) s)

/-! ### Using what has come -/

/-- The chunks of a received unit, if every one has come and passed its check. -/
def unitData (r : CollRun) (m : CollDom) (a : Nat) (gather : Bool) (u : CollUnit) : Option Bytes :=
  let pb := BitVec.ofNat 8 (passByte m a gather u.minus)
  (List.range u.chunks).foldl (fun (acc : Option Bytes) i =>
    match acc, r.recv.find? fun x => x.pass == pb && x.chunk == BitVec.ofNat 32 (chunkNo m a (u.chunk + i)) && x.complete with
    | some b, some x => some (b ++ x.data)
    | _, _ => none) (some [])

def dropUnit (r : CollRun) (m : CollDom) (a : Nat) (gather : Bool) (u : CollUnit) : CollRun :=
  let pb := BitVec.ofNat 8 (passByte m a gather u.minus)
  let nos := (List.range u.chunks).map fun i => BitVec.ofNat 32 (chunkNo m a (u.chunk + i))
  { r with recv := r.recv.filter fun x => !(x.pass == pb && nos.contains x.chunk && x.complete), used := r.used + 1 }

/-- The op of a domain. -/
def domOp (d : Bytes) (m : CollDom) (x y : Bytes) : Bytes :=
  match m with
  | .data => reduceElem d x y
  | .anchor => leBytes 2 (anchorMax (leNat x) (leNat y))
  | .stats => leBytes 4 (f32Add (BitVec.ofNat 32 (leNat x)) (BitVec.ofNat 32 (leNat y))).toNat

/-- A received unit used (R546, R555): reduced with the member's own and passed on, or kept by its owner; gathered and
passed on. -/
def useUnit (s : State) (p n : Nat) (d : Bytes) (chip : Nat) (m : CollDom) (a : Nat) (gather : Bool) (u : CollUnit)
    (data : Bytes) : State :=
  match collRun s p n with
  | none => s
  | some r =>
    let w := itemBytes d m gather
    let l := cLen d a
    let q := ringPos s d a (memberIdx s d chip a)
    let j := travelled l q u.seg u.minus
    let got (k : Nat) : Bytes := (data.drop (k * w)).take w
    let new := u.items.mapIdx fun k i => (i, if gather then got k else domOp d m (got k) (itemAt r m w i))
    let keep := gather || j == 0
    let r := dropUnit r m a gather u
    let r := if keep then new.foldl (fun r e => putItem r m e.1 e.2) r else r
    let s := modCollRun s p n fun _ => { r with lastMove := s.now }
    if (gather && j + 1 == l) || (!gather && j == 0) then s
    else produceUnit s p n d chip m a gather u (new.flatMap (·.2))

/-- The first received unit of a pass that can be used. -/
def useFirst (s : State) (p n : Nat) (d : Bytes) (chip : Nat) (m : CollDom) (a : Nat) (gather : Bool) : Option State :=
  match collRun s p n with
  | none => none
  | some r => (unitsIn s d chip m a gather).findSome? fun u =>
      if u.chunks = 0 then none else (unitData r m a gather u).map (useUnit s p n d chip m a gather u)

/-- Chunks of the slot that one member sends another in an A2A (log entry 50). -/
def a2aChunks (d : Bytes) : Nat := ceilDiv (cCount d * cBytes d) (cChunk d)

/-- One chunk of an A2A stored in the slot of its sender (R543). -/
def useA2a (s : State) (p n : Nat) (d : Bytes) : Option State :=
  match collRun s p n with
  | none => none
  | some r =>
    match r.recv.find? fun x => x.pass == 0 && x.complete with
    | none => none
    | some x =>
      let c := x.chunk.toNat
      let at_ := c / a2aChunks d * (cCount d * cBytes d) + c % a2aChunks d * cChunk d
      let vals := (x.data.mapIdx fun i b => (at_ + i, b)).foldl (fun t e => Tbl.put [] t (2 ^ 50 + e.1) [e.2]) r.vals
      let recv := r.recv.filter fun y => !(y.pass == 0 && y.chunk == x.chunk && y.complete)
      some (modCollRun s p n fun r => { r with vals, used := r.used + 1, lastMove := s.now, recv })

/-- The elements of SRC that a member sums for QIN: COUNT of them (R573). -/
def squareSum (e : Nat) (bs : List Bytes) : W32 := chainSum (bs.map fun b => f32Mul (cF32 e b) (cF32 e b))

/-- What a phase does when it is entered (R546, R548, R551, R573). -/
def enterPhase (s : State) (p n : Nat) (d : Bytes) (chip : Nat) (ph : CollPhase) : State :=
  let own (m : CollDom) (a : Nat) (gather : Bool) : State :=
    match collRun s p n with
    | none => s
    | some r => forEach (unitsOwn s d chip m a gather) s fun s u =>
        produceUnit s p n d chip m a gather u (u.items.flatMap (itemAt r m (itemBytes d m gather)))
  let w := cBytes d
  let piece := let x := pieceElems s d chip; span x.1 x.2
  match ph with
  | .rs m a => own m a false
  | .ag m a => own m a true
  | .a2a =>
    match collRun s p n with
    | none => s
    | some r =>
      let me := ordinal s d chip
      let len := cCount d * w
      let byte (i : Nat) : Byte := match Tbl.get [] r.vals (2 ^ 51 + i) with | b :: _ => b | [] => 0
      let slot (j : Nat) : Bytes := (span (j * len) len).map byte
      let vals := ((slot me).foldl (fun (t : Tbl Bytes × Nat) b => (Tbl.put [] t.1 (2 ^ 50 + t.2) [b], t.2 + 1))
        (r.vals, me * len)).1
      let s := modCollRun s p n fun r => { r with vals }
      forEach ((List.range (cSize d)).filter (· != me)) s fun s j =>
        forEach (List.range (a2aChunks d)) s fun s c =>
          produce s p n (ordinalChip s d j) 0 (me * a2aChunks d + c) (((slot j).drop (c * cChunk d)).take (cChunk d))
  | .enter =>
    if cWide d || cExact d then
      modCollRun s p n fun r => (List.range (cCount d)).foldl (fun r i =>
        let b := itemAt r .data w i
        let v := f32Val (cF32 (cElem d) b)
        putItem r .data i (if cWide d then leBytes 4 (cF32 (cElem d) b).toNat
          else leBytes 8 (exactInt (leNat (itemAt r .anchor 2 (i / 64))) v))) r
    else s
  | .round =>
    if cWide d || cExact d then
      modCollRun s p n fun r => piece.foldl (fun r i =>
        putItem r .data i (cRound (cElem d) (if cWide d then f32Val (BitVec.ofNat 32 (leNat (itemAt r .data 4 i)))
          else exactNum (leNat (itemAt r .anchor 2 (i / 64))) (leNat (itemAt r .data 8 i))))) r
    else s
  | .sums => modCollRun s p n fun r =>
      let qout := squareSum (cElem d) (piece.map (itemAt r .data w))
      putItem (putItem { r with qout } .stats 0 (leBytes 4 r.qin.toNat)) .stats 1 (leBytes 4 qout.toNat)

/-- What a phase still expects to receive, in units. -/
def phaseUnits (s : State) (d : Bytes) (chip : Nat) (ph : CollPhase) : Nat :=
  match ph with
  | .rs m a => (unitsIn s d chip m a false).length
  | .ag m a => (unitsIn s d chip m a true).length
  | .a2a => (cSize d - 1) * a2aChunks d
  | _ => 0

def useNext (s : State) (p n : Nat) (d : Bytes) (chip : Nat) (ph : CollPhase) : Option State :=
  match ph with
  | .rs m a => useFirst s p n d chip m a false
  | .ag m a => useFirst s p n d chip m a true
  | .a2a => useA2a s p n d
  | _ => none

/-- The collective goes as far as what it holds lets it: received units are used, and each phase follows the one before. -/
def pump : Nat → State → Nat → Nat → Nat → State
  | 0, s, _, _, _ => s
  | k + 1, s, p, n, chip =>
    match collRun s p n with
    | none => s
    | some r =>
      let d := r.op.desc
      match (collPhases d)[r.phase]? with
      | none => s
      | some ph =>
        match useNext s p n d chip ph with
        | some s => pump k s p n chip
        | none =>
          if r.used < phaseUnits s d chip ph then s
          else
            let s := modCollRun s p n fun r => { r with phase := r.phase + 1, used := 0 }
            match (collPhases d)[r.phase + 1]? with
            | none => s
            | some nx => pump k (enterPhase s p n d chip nx) p n chip

/-! ### The start and the end of a collective -/

/-- The status of an access of a collective that failed (R570). -/
def collAcc : Acc → Status
  | .ok => stOk
  | .fail st => st
  | .replay => stParityLost
  | _ => stBadDescriptor

/-- The bytes of SRC as the run holds them on entry (R543, R551, R573). -/
def loadVals (s : State) (d : Bytes) (chip : Nat) (r : CollRun) (b : Bytes) : CollRun :=
  let w := cBytes d
  let els (n : Nat) : List Bytes := (List.range n).map fun i => (b.drop (i * w)).take w
  let putAll (first : Nat) (l : List Bytes) (r : CollRun) : CollRun :=
    (l.mapIdx fun i x => (first + i, x)).foldl (fun r e => putItem r .data e.1 e.2) r
  match cOp d with
  | 2 => let x := pieceElems s d chip; putAll x.1 (els x.2) r
  | 4 => putAll 0 (els (b.length / w)) r
  | 5 => { r with vals := (b.mapIdx fun i x => (2 ^ 51 + i, [x])) }
  | _ =>
    let es := els (cCount d)
    let r := putAll 0 es { r with qin := if cStats d then squareSum (cElem d) es else 0 }
    if cExact d then
      (List.range (cBlocks d)).foldl (fun r k =>
        let a := ((es.drop (64 * k)).take 64).foldl (fun a x => anchorMax a (anchorOf (f32Val (cF32 (cElem d) x)))) 0
        putItem r .anchor k (leBytes 2 a)) r
    else r

/-- What DST receives (R543). -/
def dstBytes (s : State) (d : Bytes) (chip : Nat) (r : CollRun) : Bytes :=
  let w := cBytes d
  if cBarrier d then []
  else match cOp d with
    | 1 => let x := pieceElems s d chip; (span x.1 x.2).flatMap (itemAt r .data w)
    | 5 => (List.range (dstLen s d chip)).map fun i => match Tbl.get [] r.vals (2 ^ 50 + i) with | b :: _ => b | [] => 0
    | _ => (List.range (cCount d)).flatMap (itemAt r .data w)

/-- The statistics record (R573). -/
def statsRecord (s : State) (n : Nat) (r : CollRun) : Bytes :=
  let d := r.op.desc
  let qi := itemAt r .stats 4 0
  let qo := itemAt r .stats 4 1
  let bad (b : Bytes) : Bool := !isFinite32 (BitVec.ofNat 32 (leNat b))
  let local_ := bad (leBytes 4 r.qin.toNat) || bad (leBytes 4 r.qout.toNat)
  leBytes 4 r.op.seq.toNat ++ leBytes 2 (cSize d - 1) ++ leBytes 1 n ++ leBytes 1 (b2n (local_ || bad qi || bad qo))
    ++ leBytes 4 r.qin.toNat ++ leBytes 4 r.qout.toNat ++ qi ++ qo ++ leBytes 8 s.now

/-- The record kept for the gradient noise of the step that issued the collective (R617). -/
def keepStats (s : State) (p n : Nat) (op : CollOp) (b : Bytes) : State :=
  modRun s p fun x => if x.num = op.step then { x with stats := x.stats ++ [(n, op.seq.toNat, b)] } else x

/-- A collective whose phases are over and whose chunks are all acknowledged completes (R533): DST and the record are
written, and NEXT_SEQ advances. While a write must wait, nothing has come about: the state in which
it waits is given beside (`stillWaits`). -/
def finishColl (s : State) (p n chip : Nat) : Except State State :=
  match collRun s p n with
  | none => .ok s
  | some r =>
    let d := r.op.desc
    if r.phase < (collPhases d).length ∨ !r.sent.isEmpty then .ok s
    else
      let x := writeMem s (.step p) (cDst d) (dstBytes s d chip r) (partPrio s p)
      let y : Acc × State := match x.1 with
        | .ok => if cStats d then writeMem x.2 (.step p) (cStatsAddr d) (statsRecord x.2 n r) (partPrio s p) else x
        | _ => x
      match y with
      | (.wait, s1) => .error s1
      | (.ok, s) =>
        let s := if cStats d then keepStats s p n r.op (statsRecord s n r) else s
        let s := modColl s p n fun c =>
          { c with st := .opened, run := none, nextSeq := c.nextSeq + 1, tags := [], ended := c.ended ++ [(r.op.seq, stOk, 0)] }
        .ok (grantAll s p n)
      | (a, s) => .ok (collFail s p n r.op (collAcc a) 0 true)

/-- Everything that a change to a running collective lets follow. -/
def collGo (s : State) (p n : Nat) : Except State State :=
  match ownChip s with
  | none => .ok s
  | some chip =>
    let fuel := match collRun s p n with
      | some r => r.recv.length + 2 * (collPhases r.op.desc).length + 2
      | none => 0
    (finishColl (askAll (grantAll (pump fuel s p n chip) p n)) p n chip).map askAll

/-- A change to a running collective with what follows it; while a write of it must wait, the state `s0` before it stands. -/
def collOr (s0 s : State) (p n : Nat) : State :=
  match collGo s p n with
  | .ok t => t
  | .error s1 => stillWaits s0 s1

end Sys2Proof.Machine
end

