-- ==== Sys2Proof/Machine/Coll.lean ====
section
/-! DEFINITION. The commands and messages of chapter 11: streams, the library calls COLL and COLL_WAIT, the start of a
collective, its requests, grants, data and acknowledgements, order stalls and aborts. -/

namespace Sys2Proof.Machine
open Sys2Proof

/-! ### Streams (R527 to R532) -/

/-- The landing zone of die `d` (R529). -/
def lzBase (d off : Nat) : Nat := d * 0x1000000000 + off

/-- A landing zone that another open stream holds (R530). -/
def lzTaken (s : State) (p n off : Nat) : Bool :=
  s.coll.streams.any fun e => e.1 != 64 * p + n && e.2.st != .closed && overlap off 33554432 e.2.lzOff 33554432

def collOpenOk (s : State) (b : Bytes) : Bool :=
  let n := fieldAt b 0 1
  let p := fieldAt b 1 1
  let off := fieldAt b 8 8
  let c := collAt s p n
  decide (n < 64) && decide (p < 16) && off % 65536 == 0 && zeroAt b 0x10 16 && (c.st == .closed || c.st == .failed)
    && (List.range 8).all (fun d => decide (off + 33554432 ≤ 0x1000000000) && inFixed s p (lzBase d off) 33554432)
    && !lzTaken s p n off

def doCollOpen (cid : Nat) (s : State) : State :=
  match cmdFor s cid 0x0030 with
  | none => s
  | some c =>
    if !atRest s c (cmdPart s c) then s
    else
      let s := beginCmd s cid
      withPayload s c 32 fun s b =>
        let n := fieldAt b 0 1
        let p := fieldAt b 1 1
        if b.length ≠ 32 ∨ !c.may p ∨ !collOpenOk s b then complete s cid stBadDescriptor
        else
          let wdog := fieldAt b 2 2
          let s := modColl s p n fun _ =>
            { st := .opened, wdog := if wdog = 0 then 50 else wdog, nextSeq := BitVec.ofNat 32 (fieldAt b 4 4)
              lzOff := fieldAt b 8 8 }
          complete (grantAll s p n) cid stOk

/-- COLL_OPEN (R527 to R530). -/
def execCollOpen (cid : Nat) (s : State) : Res := done s (doCollOpen cid s)

/-- A stream closed: every pending collective ends with ABORTED_BY_COMMAND, its held data goes (R532). -/
def closeColl (s : State) (p n : Nat) : State :=
  let c := collAt s p n
  let s := match c.run, c.pending with
    | some r, _ => collFail s p n r.op stAborted 0 true
    | none, o :: _ => collFail s p n o stAborted 0 true
    | none, [] => s
  modColl (dropRequests s p n) p n fun c => { ended := c.ended }

def doCollClose (cid : Nat) (s : State) : State :=
  match cmdFor s cid 0x0031 with
  | none => s
  | some c =>
    let n := c.byte 0
    let p := c.byte 1
    if !atRest s c p then s
    else
      let s := beginCmd s cid
      if 64 ≤ n ∨ 16 ≤ p ∨ !c.may p ∨ (collAt s p n).st = .closed ∨ !zeroAt c.inl 2 22 then complete s cid stBadDescriptor
      else complete (closeColl s p n) cid stOk

/-- COLL_CLOSE (R527, R532): INLINE byte 0 the stream, byte 1 the partition (log entry 55). -/
def execCollClose (cid : Nat) (s : State) : Res := done s (doCollClose cid s)

/-! ### Order stalls (R563, R564, R576) -/

/-- The record of a stall: kept if none is held, else counted as a further one. -/
def stallRecord (s : State) (p cause n : Nat) (seq : W32) (nOther : Nat) (other : W32) : State :=
  if regBit s ⟨.collStall1, 0, 0⟩ 0 then regOr s ⟨.collStall1, 0, 0⟩ 2
  else
    let s := regSet s ⟨.collStall0, 0, 0⟩ (other.toNat * 2 ^ 32 + seq.toNat)
    regSet s ⟨.collStall1, 0, 0⟩ (nOther * 2 ^ 14 + n * 2 ^ 8 + p * 2 ^ 4 + cause * 4 + 1)

/-- A collective ends with ORDER_STALL on every member (R563 to R565). -/
def orderStall (s : State) (p n cause : Nat) (op : CollOp) (nOther : Nat) (other : W32) : State :=
  collFail (stallRecord s p cause n op.seq nOther other) p n op stOrderStall other true

def doCollStall1Write (v hw : W64) (s : State) : State :=
  logWrite s ⟨.collStall1, 0, 0⟩ v.toNat hw.toNat

/-- COLL_STALL1_WRITE (R15, R16, R576): clearing VALID also clears OVER. -/
def execCollStall1Write (v hw : W64) (s : State) : Res := done s (doCollStall1Write v hw s)

def doCollWatchdog (p : PartId) (stream : Fin 64) (s : State) : State :=
  let n := stream.val
  let c := collAt s p.val n
  match c.run with
  | none => s
  | some r =>
    if s.now < r.lastMove + c.wdog * 1000000 then s
    else
      let low := c.held.foldl (fun (m : Option W32) h => match m with
        | none => some h.seq
        | some x => if (h.seq - c.nextSeq).toNat < (x - c.nextSeq).toNat then some h.seq else some x) none
      orderStall s p.val n 0 r.op n (low.getD c.nextSeq)

/-- COLL_WATCHDOG (R563, R564): a running collective has received, sent and added no chunk for WDOG. -/
def execCollWatchdog (p : PartId) (stream : Fin 64) (s : State) : Res := done s (doCollWatchdog p stream s)

/-! ### Issuing (R541 to R545) -/

/-- The fields of a collective descriptor within R542 and R544. -/
def collDescOk (s : State) (d : Bytes) : Bool :=
  let op := fieldAt d 0 1
  let e := fieldAt d 1 1
  let red := fieldAt d 2 1
  let reduces := op == 1 || op == 3
  let acc := cAcc d
  decide (1 ≤ op) && decide (op ≤ 6) && decide (cElemSize e ≠ 0) && decide (red ≤ 2) && decide (acc ≤ 2) && decide (fieldAt d 3 1 < 8)
    && decide (fieldAt d 4 1 < 64) && decide (15 ≤ fieldAt d 5 1) && decide (fieldAt d 5 1 ≤ 18) && zeroAt d 6 2
    && (if op = 6 then fieldAt d 0x0C 4 == 0 else decide (1 ≤ fieldAt d 0x0C 4))
    && (List.range 3).all (fun a => decide (cOrg d a < extOf s a) && decide (1 ≤ cLen d a) && decide (cLen d a ≤ extOf s a)
          && (if op = 4 then decide (cRoot d a < cLen d a) else cRoot d a == 0))
    && zeroAt d 0x29 7 && zeroAt d 0x38 8
    && (reduces || red == 0)
    && !(reduces && red == 0 && (e == 3 || e == 4 || e == 0x0F))
    && !(red != 0 && e == 9)
    && !(acc == 2 && (decide (2 < e) || red != 0))
    && !(acc == 1 && (e == 9 || e == 8))
    && (if cStats d then reduces && red == 0 && cStatsAddr d % 8 == 0 else cStatsAddr d == 0)

/-- SRC and DST may stand together (R544). -/
def collApart (s : State) (d : Bytes) (chip : Nat) : Bool :=
  !(overlap (cSrc d) (srcLen s d chip) (cDst d) (dstLen s d chip) && decide (0 < srcLen s d chip) && decide (0 < dstLen s d chip))
    || (fieldAt d 0 1 == 3 && cSrc d == cDst d)

/-- SRC, DST and the record's place lie in the partition's memory (R151). -/
def collInside (s : State) (p : Nat) (d : Bytes) (chip : Nat) : Bool :=
  canRead s (.step p) (cSrc d) (srcLen s d chip) && canWrite s (.step p) (cDst d) (dstLen s d chip)
    && (!cStats d || canWrite s (.step p) (cStatsAddr d) 32)

/-- A collective of another stream of the partition, admitted and not ended, whose group shares two chips with this one:
its stream and number (R563). -/
def overlapping (s : State) (p n : Nat) (d : Bytes) : Option (Nat × W32) :=
  ((List.range 64).filter (· != n)).findSome? fun m =>
    let c := collAt s p m
    (((match c.run with | some r => [r.op] | none => []) ++ c.pending).find? fun o => decide (2 ≤ sharedChips s o.desc d)).map
      fun o => (m, o.seq)

/-- What an admitted collective meets on this chip: a request or a held chunk with another digest (R563). -/
def digestClash (s : State) (p n : Nat) (op : CollOp) : Bool :=
  (s.coll.requests.any fun e => ofStream p n e && hSeq e.msg == op.seq && hDigest e.msg != op.digest)
    || (collAt s p n).held.any fun h => h.seq == op.seq && h.digest != op.digest

/-- A collective is admitted to its stream (R541, R563, R567). -/
def admitColl (s : State) (p : Nat) (d : Bytes) : State :=
  let n := cStream d
  let num := match (partAt s p).run with | some r => r.num | none => 0
  let op : CollOp := ⟨cSeq d, d, cDigest d, s.coll.order, num⟩
  let s := { s with coll := { s.coll with order := s.coll.order + 1 } }
  let c := collAt s p n
  if c.st = .failed then
    freeDst (modColl s p n fun c => { c with ended := c.ended ++ [(op.seq, c.failStatus, 0)] }) p op
  else
    let clash := overlapping s p n d
    let s := modColl s p n fun c => { c with pending := c.pending ++ [op] }
    match clash with
    | some (m, o) => orderStall s p n 1 op m o
    | none => if digestClash s p n op then orderStall s p n 2 op n op.seq else s

def doColl (p : PartId) (hit : Option TileId) (s : State) : State :=
  match scratchCall s p.val 12 hit (descArg 64) with
  | (none, s) => s
  | (some ms, s) =>
    match libDesc s (nth 0 ms 0) 64, ownChip s with
    | some d, some chip =>
      let c := collAt s p.val (cStream d)
      let seq := cSeq d
      let bad := !collDescOk s d || c.st == .closed || !isMember s d chip || !collApart s d chip
        || (c.st != .failed && ((seq != c.nextSeq && !seqAhead seq c.nextSeq) || c.pending.any (fun o => o.seq == seq)
              || (match c.run with | some r => r.op.seq == seq | none => false)))
      if bad then libFault s ms 0x09
      else if c.st ≠ .failed ∧ 64 ≤ c.pending.length then libFault s ms 0x0F
      else if !collInside s p.val d chip then libFault s ms 0x0A
      else groupReturn (admitColl s p.val d) ms
    | _, _ => libFault s ms 0x09

/-- COLL (R533 to R535, R541 to R545, R563, R567): the group's collective is admitted to its stream. -/
def execColl (p : RoutineCall) (s : State) : Res := done s (doColl p.part p.hit s)

def doCollWait (p : PartId) (s : State) : State :=
  match groupCall s p.val 13 (fun s t => [gNum s t 4, gNum s t 5]) with
  | (none, s) => s
  | (some ms, s) =>
    let t := nth 0 ms 0
    let seq := BitVec.ofNat 32 (gNum s t 5)
    if 64 ≤ gNum s t 4 then libFault s ms 0x09
    else match (collAt s p.val (gNum s t 4)).ended.find? fun e => e.1 == seq with
      | none => forEach ms s fun s t => parkAt s t .coll
      | some (_, st, other) => groupReturn s ms fun x =>
          let x := setG x 6 (BitVec.ofNat 64 st.toNat)
          if st = stOrderStall then setG x 7 (BitVec.ofNat 64 other.toNat) else x

/-- COLL_WAIT (R541, R564): returns once the collective has ended, with its status. -/
def execCollWait (p : PartId) (s : State) : Res := done s (doCollWait p s)

/-! ### The start (R533, R558, R561, R567, R570) -/

/-- The stream's next collective starts with the bytes of its SRC: data held for it is taken (R561). -/
def startColl (s : State) (p n chip : Nat) (op : CollOp) (b : Bytes) : State :=
  let d := op.desc
  let c := collAt s p n
  let run := loadVals s d chip { op, recv := c.held.filter fun h => h.seq == op.seq, lastMove := s.now } b
  let pending := c.pending.filter fun o => o.seq != op.seq
  let held := c.held.filter fun h => h.seq != op.seq
  let s := modColl s p n fun c => { c with st := .running, run := some run, pending, held }
  match (collPhases d)[0]? with
  | some ph => enterPhase s p n d chip ph
  | none => s

def doCollectiveStart (p : PartId) (stream : Fin 64) (s0 : State) : State :=
  let n := stream.val
  let c := collAt s0 p.val n
  match c.run, c.pending.find? fun o => o.seq == c.nextSeq, ownChip s0 with
  | none, some op, some chip =>
    match c.aborts.find? fun a => a.1 == op.seq with
    | some (_, st, tell) => collFail s0 p.val n op st 0 tell
    | none =>
      match readMem s0 (.step p.val) (cSrc op.desc) (srcLen s0 op.desc chip) with
      | (.wait, _, _) => s0
      | (.ok, b, s) => collOr s0 (startColl s p.val n chip op b) p.val n
      | (a, _, s) => collFail s p.val n op (collAcc a) 0 true
  | _, _, _ => s0

/-- COLLECTIVE_START (R533, R538, R558, R561, R567, R570). -/
def execCollectiveStart (p : PartId) (stream : Fin 64) (s : State) : Res := done s (doCollectiveStart p stream s)

/-! ### Messages -/

/-- A COLLECTIVE message of a type for a stream, checked (R485, R553): handled, refused, or not this event. -/
def collMsg (s : State) (m : Bytes) (type : Nat) (epoch : Bool) (k : State → State) : State :=
  let t := takeMsg s m
  match msgRefused t m 0x10 epoch with
  | some st => refuse t m st
  | none => if m.length < 64 then refuse t m stCheckFail else if hType m ≠ type then s else k t

def stale (s : State) (d : Die) : State := regAddSat s ⟨.collCnt, d.val, 0⟩ 48 16 1

def doCollReq (d : Die) (m : Bytes) (s0 : State) : State :=
  collMsg s0 m 1 false fun s =>
    let p := msgPart m
    let n := hStream m
    let c := collAt s p n
    let seq := hSeq m
    let add (s : State) : State := { s with coll := { s.coll with requests := s.coll.requests ++ [⟨d, m⟩] } }
    if c.st = .failed ∨ (c.st ≠ .closed ∧ seq ≠ c.nextSeq ∧ !seqAhead seq c.nextSeq) then stale s d
    else
      let mine := ((match c.run with | some r => [r.op] | none => []) ++ c.pending).find? fun o => o.seq == seq
      match mine with
      | some o => if o.digest ≠ hDigest m then orderStall s p n 2 o n seq else grantAll (add s) p n
      | none => grantAll (add s) p n

/-- COLL_REQ (R545, R557 to R563). -/
def execCollReq (d : Die) (m : Bytes) (s : State) : Res := done s (doCollReq d m s)

/-- The sent chunk that an answer names: its stream, number, pass, chunk and receiver. -/
def answered (s : State) (m : Bytes) : Option (CollRun × SentChunk) :=
  match collRun s (msgPart m) (hStream m) with
  | none => none
  | some r =>
    if r.op.seq ≠ hSeq m then none
    else (r.sent.find? fun c => c.dst.toNat == msgSrc m && c.pass == hPass m && c.chunk == hChunk m).map fun c => (r, c)

def setSent (s : State) (p n : Nat) (tag : W32) (f : SentChunk → SentChunk) : State :=
  modCollRun s p n fun r => { r with sent := r.sent.map fun c => if c.tag = tag then f c else c }

def doCollGrant (_d : Die) (m : Bytes) (s0 : State) : State :=
  collMsg s0 m 2 false fun s =>
    let p := msgPart m
    let n := hStream m
    match answered s m with
    | some (_, c) =>
      if !c.asked || c.granted then s
      else
        let ep := BitVec.ofNat 16 (msgEpoch m)
        let s := noteMove (setSent s p n c.tag fun c => { c with granted := true, epoch := ep }) p n
        askAll (sendChunk s p n { c with epoch := ep })
    | none => s

/-- COLL_GRANT (R552, R554, R557, R559): the sender sends the chunk's DATA fragments under the receiver's epoch. -/
def execCollGrant (d : Die) (m : Bytes) (s : State) : Res := done s (doCollGrant d m s)

def doCollAck (_d : Die) (m : Bytes) (s0 : State) : State :=
  collMsg s0 m 4 false fun s =>
    let p := msgPart m
    let n := hStream m
    match answered s m with
    | some (_, c) =>
      let s := modCollRun s p n fun r => { r with sent := r.sent.filter fun x => x.tag != c.tag }
      collOr s0 s p n
    | none => s

/-- COLL_ACK (R533, R556, R558): the sender releases the chunk. -/
def execCollAck (d : Die) (m : Bytes) (s : State) : Res := done s (doCollAck d m s)

def doCollResend (d : Die) (m : Bytes) (s0 : State) : State :=
  collMsg s0 m 5 false fun s =>
    let p := msgPart m
    let n := hStream m
    match answered s m with
    | some (_, c) =>
      if c.again then s
      else
        let s := regAddSat s ⟨.collCnt, d.val, 0⟩ 32 16 1
        sendChunk (setSent s p n c.tag fun c => { c with again := true }) p n c
    | none => s

/-- COLL_RESEND (R556, R577): the sender sends the chunk again once. -/
def execCollResend (d : Die) (m : Bytes) (s : State) : Res := done s (doCollResend d m s)

/-- A chunk that fails its check a second time ends its collective with CHECK_FAIL: at once where it is admitted here, else
when it would start (R556, R565, R570). -/
def checkFailed (s : State) (p n : Nat) (d : Die) (seq : W32) : State :=
  let s := regAddSat s ⟨.collCnt, d.val, 0⟩ 16 16 1
  let c := collAt s p n
  match ((match c.run with | some r => [r.op] | none => []) ++ c.pending).find? fun o => o.seq == seq with
  | some o => if c.run.isSome && c.nextSeq == seq then collFail s p n o stCheckFail 0 true
      else modColl s p n fun c => { c with aborts := c.aborts ++ [(seq, stCheckFail, true)] }
  | none => modColl s p n fun c => { c with aborts := c.aborts ++ [(seq, stCheckFail, true)] }

/-- The chunk with one fragment's data placed (R552). -/
def placeFrag (k : Chunk) (m : Bytes) : Chunk :=
  let base := if k.data.isEmpty then List.replicate k.size 0 else k.data
  { k with data := putAt base (hFrag m % 8 * 32768) (((msgPayload m).drop 32).take (hBytes m)) }

def doCollData (d : Die) (m : Bytes) (s0 : State) : State :=
  collMsg s0 m 3 true fun s =>
    let p := msgPart m
    let n := hStream m
    let c := collAt s p n
    let seq := hSeq m
    let here (k : Chunk) : Bool := k.seq == seq && k.src.toNat == msgSrc m && k.pass == hPass m && k.chunk == hChunk m && !k.complete
    let running := match c.run with | some r => r.op.seq == seq | none => false
    let put (s : State) (k : Chunk) : State :=
      let swap (l : List Chunk) : List Chunk := l.map fun x => if here x then k else x
      if running then modCollRun s p n fun r => { r with recv := swap r.recv, lastMove := s.now }
      else modColl s p n fun c => { c with held := swap c.held }
    match (match c.run with | some r => r.recv | none => []) ++ c.held |>.find? here with
    | none => if c.st ≠ .closed ∧ c.st ≠ .failed ∧ (seq = c.nextSeq ∨ seqAhead seq c.nextSeq) then s else stale s d
    | some k =>
      let k := placeFrag k m
      if !bitOf (hFrag m) 7 then put s k
      else if crc32c k.data = hCrc m ∧ hDigest m = k.digest then
        let s := answerColl (put s { k with complete := true }) p n 4 k.src.toNat seq k.pass k.chunk k.digest
        if running then collOr s0 s p n else s
      else if k.fails = 0 then
        answerColl (put s { k with data := [], fails := 1 }) p n 5 k.src.toNat seq k.pass k.chunk k.digest
      else checkFailed s p n d seq

/-- COLL_DATA (R524, R543, R546 to R548, R551, R554 to R556, R561, R562, R573): the chunk is checked at LAST, then reduced
or stored, and what follows from it is sent on. -/
def execCollData (d : Die) (m : Bytes) (s : State) : Res := done s (doCollData d m s)

def doCollAbort (m : Bytes) (s : State) : State :=
  let s := takeMsg s m
  match msgRefused s m 0 false with
  | some st => refuse s m st
  | none =>
    let e := (msgPayload m).take 64
    let inl := (e.drop 0x28).take 24
    if fieldAt e 0 2 ≠ 0x0032 then s
    else
      let n := fieldAt inl 0 1
      let p := fieldAt inl 1 1
      let st : Status := BitVec.ofNat 16 (fieldAt inl 2 2)
      let seq := BitVec.ofNat 32 (fieldAt inl 4 4)
      let c := collAt s p n
      if 64 ≤ n ∨ 16 ≤ p ∨ (c.st ≠ .opened ∧ c.st ≠ .running) then s
      else
        let count (s : State) : State := regAddSat s ⟨.collCnt, 0, 0⟩ 0 16 1
        match c.run with
        | some r =>
          if r.op.seq = seq then collFail (count s) p n r.op st 0 false
          else if seqAhead seq c.nextSeq then count (modColl s p n fun c => { c with aborts := c.aborts ++ [(seq, st, false)] })
          else s
        | none =>
          if seq = c.nextSeq ∨ seqAhead seq c.nextSeq then
            count (modColl s p n fun c => { c with aborts := c.aborts ++ [(seq, st, false)] })
          else s

/-- COLL_ABORT (R565, R567, R570, R577, R705): a collective ends with the status of another member. -/
def execCollAbort (m : Bytes) (s : State) : Res := done s (doCollAbort m s)

end Sys2Proof.Machine
end

