-- ==== Sys2Proof/Machine/Ckpt.lean ====
section
/-! DEFINITION. The commands of chapter 12 on checkpoints: shards, stores, takes with their snapshots and drains, restores
and the axolotl takeover. -/

namespace Sys2Proof.Machine
open Sys2Proof

def setCkpt (s : State) (f : Ckpt → Ckpt) : State := { s with ckpt := f s.ckpt }
def takeOf (s : State) (p : Nat) : Option Take := Tbl.get none s.ckpt.takes p
def setTake (s : State) (p : Nat) (t : Option Take) : State := setCkpt s fun c => { c with takes := Tbl.put none c.takes p t }
def shardOf (s : State) (p : Nat) : Option Shard := Tbl.get none s.ckpt.shards p

/-- The key that a command of a partition may use in a slot (R817, R820, R822), or the status that refuses it. -/
def keyUse (s : State) (k p : Nat) : Except Status Key :=
  let x := slotAt s k
  match x.current with
  | none => .error stKeyEmpty
  | some y =>
    if x.erasing then .error stKeyEmpty
    else if x.part.val ≠ p ∨ x.kek then .error stBadDescriptor
    else .ok y

/-- A die's AES engine has room for one more operation (R824). -/
def engineRoom (s : State) (d : Nat) : Bool := decide ((s.sec.ops.filter fun e => e.1 == d).length < 32)

/-- A die's AES engine admits an operation, which binds a slot's current key (R823, R824). -/
def bindKey (s : State) (d k : Nat) : State :=
  let s := match (slotAt s k).current with
    | some y => { s with sec := { s.sec with ops := s.sec.ops ++ [(d, k, y.gen)] } }
    | none => s
  modSlot s k fun x => { x with current := x.current.map fun y => { y with bound := y.bound + 1 } }

/-- The engine that takes a drain's next chunk: the first with room of the partition's dies, of CD0 where it owns none
(log entry 89). -/
def drainEngine (s : State) (p : Nat) : Option Nat :=
  let ds := bitSet 8 (partAt s p).dies.toNat
  (if ds.isEmpty then [0] else ds).find? (engineRoom s)

/-- A partition that exists (R747). -/
def partLives (s : State) (p : Nat) : Bool :=
  decide (p < 16) && ((partAt s p).st == .idle || (partAt s p).st == .running)

/-! ### Shards (R579 to R582) -/

/-- A range wholly within one FIXED region of a partition (R582, R584). -/
def inFixedOf (s : State) (p a n : Nat) (ok : TierRegion → Bool) : Bool :=
  s.tier.regions.any fun r => !r.backed && r.part.val == p && decide (r.base ≤ a) && decide (a + n ≤ r.base + r.size) && ok r

/-- A range wholly within one FIXED region, or one declared strata region, of a partition (R582, R612). -/
def inPartRegion (s : State) (p a n : Nat) : Bool :=
  if isT1 a || isT2 a then inFixedOf s p a n fun _ => true
  else match strataPhys s a n with
    | none => false
    | some (_, l, off) =>
      (tileRegions s l).any fun e => e.2.part == p && decide (e.2.offset ≤ off) && decide (off + n ≤ e.2.offset + e.2.length)

def extAddr (e : Bytes) : Nat := fieldAt e 8 8
def extLen (e : Bytes) : Nat := fieldAt e 0x10 8
def extKind (e : Bytes) : Nat := fieldAt e 0 1

def extentOk (s : State) (p : Nat) (e : Bytes) : Bool :=
  decide (1 ≤ extKind e) && decide (extKind e ≤ 4) && zeroAt e 1 7 && zeroAt e 0x18 8 && extAddr e % 2048 == 0
    && extLen e % 2048 == 0 && decide (2048 ≤ extLen e) && !inAperture (extAddr e) && inPartRegion s p (extAddr e) (extLen e)

/-- No two ranges of a list overlap. -/
def apart : List (Nat × Nat) → Bool
  | [] => true
  | x :: xs => xs.all (fun y => !overlap x.1 x.2 y.1 y.2) && apart xs

def shardOk (s : State) (b : Bytes) : Bool :=
  let p := fieldAt b 0 1
  let n := fieldAt b 4 2
  let es := (List.range n).map fun i => (b.drop (32 + 32 * i)).take 32
  let pool := fieldAt b 8 8
  let plen := fieldAt b 0x10 8
  let ks := slotAt s (fieldAt b 1 1)
  partLives s p && decide (fieldAt b 1 1 < 64) && (decide (fieldAt b 2 1 < 6) || fieldAt b 2 1 == 0xFF) && decide (fieldAt b 3 1 < 16)
    && decide (1 ≤ n) && decide (n ≤ 1024) && b.length == 32 + 32 * n && zeroAt b 6 2 && zeroAt b 0x18 8 && plen % 65536 == 0
    && !(ks.current.isSome && (ks.kek || ks.part.val != p))
    && es.all (extentOk s p) && apart ((pool, plen) :: es.map fun e => (extAddr e, extLen e))
    && isT2 pool && inFixedOf s p pool plen fun r => r.codec == 0

def doCkptShard (cid : Nat) (s : State) : State :=
  match cmdFor s cid 0x0040 with
  | none => s
  | some c =>
    if !atRest s c (cmdPart s c) then s
    else withPayload (beginCmd s cid) c 64 fun s b =>
      let p := fieldAt b 0 1
      if !shardOk s b ∨ !c.may p then complete s cid stBadDescriptor
      else
        let es := (List.range (fieldAt b 4 2)).map fun i => (b.drop (32 + 32 * i)).take 32
        complete (setCkpt s fun k => { k with shards := Tbl.put none k.shards p (some ⟨b.take 32, es⟩) }) cid stOk

/-- CKPT_SHARD (R579 to R582, R820). -/
def execCkptShard (cid : Nat) (s : State) : Res := done s (doCkptShard cid s)

/-! ### Stores (R584 to R586) -/

def storeSlotLen (t : Store) : Nat := (t.length - 4096) / 4096 * 2048
/-- The device address of a slot (R586). -/
def storeSlot (t : Store) (k : Nat) : Nat := t.base + 4096 + k * storeSlotLen t

def isStore (chip part : Nat) (t : Store) : Bool := t.srcChip == chip && t.srcPart == part
def findStore (s : State) (chip part : Nat) : Option Store := s.ckpt.stores.find? (isStore chip part)
def setStore (s : State) (t : Store) : State :=
  setCkpt s fun k => { k with stores := k.stores.map fun x => if isStore t.srcChip t.srcPart x then t else x }

def doCkptStore (cid : Nat) (s : State) : State :=
  match cmdFor s cid 0x0041 with
  | none => s
  | some c =>
    if !atRest s c (cmdPart s c) then s
    else withPayload (beginCmd s cid) c 32 fun s b =>
      let p := fieldAt b 0 1
      let sp := fieldAt b 1 1
      let chip := fieldAt b 2 2
      let base := fieldAt b 8 8
      let len := fieldAt b 0x10 8
      if b.length ≠ 32 ∨ !partLives s p ∨ 16 ≤ sp ∨ 32768 ≤ chip ∨ !zeroAt b 4 4 ∨ !zeroAt b 0x18 8 ∨ !c.may p then
        complete s cid stBadDescriptor
      else if len = 0 then
        match findStore s chip sp with
        | some t => if t.part.val ≠ p then complete s cid stBadDescriptor
            else complete (setCkpt s fun k => { k with stores := k.stores.filter fun x => !isStore chip sp x }) cid stOk
        | none => complete s cid stBadDescriptor
      else if base % 65536 ≠ 0 ∨ len % 65536 ≠ 0 ∨ len < 262144 ∨ !isT2 base
          ∨ !(inFixedOf s p base len fun r => r.codec == 0) then complete s cid stBadDescriptor
      else if (findStore s chip sp).isSome ∨ 16 ≤ s.ckpt.stores.length then complete s cid stNoResource
      else
        let t : Store := { part := Fin.ofNat 16 p, srcPart := sp, srcChip := chip, base, length := len }
        complete (setCkpt s fun k => { k with stores := k.stores ++ [t] }) cid stOk

/-- CKPT_STORE (R584 to R586): declares a store, or releases it with LENGTH 0. -/
def execCkptStore (cid : Nat) (s : State) : Res := done s (doCkptStore cid s)

/-! ### Slots and manifests (R597 to R603) -/

/-- The manifest's checksum over its first 0x30 bytes with STATE as zero, then the extent table (R602). -/
def manifestCrc (m table : Bytes) : Nat := crc32c (putAt (m.take 0x30) 7 [0] ++ table)

/-- A slot's bytes read by offset. -/
abbrev SlotBytes : Type := Tbl Byte

def slotTable (b : SlotBytes) : Bytes := bytesAt 0 b 0x80 (32 * fieldAt (bytesAt 0 b 0 128) 0x1C 2)

/-- A slot is valid (R603), and its AFTER_STEP. -/
def slotValid (b : SlotBytes) : Option Nat :=
  let m := bytesAt 0 b 0 128
  if fieldAt m 0 4 = 0x4B435053 ∧ fieldAt m 7 1 = 2 ∧ manifestCrc m (slotTable b) = fieldAt m 0x30 4 then some (fieldAt m 8 8) else none

/-- The bytes of a slot of a store of this module, from its offset 0. -/
def ownSlot (s : State) (t : Store) (k : Nat) : SlotBytes :=
  (Tbl.inRange (wcFlushRange s (storeSlot t k) (storeSlotLen t)).2.mem (storeSlot t k) (storeSlotLen t)).map fun e =>
    (e.1 - storeSlot t k, e.2)

/-- The slot that the next take writes: the one that does not hold the VALID manifest with the higher AFTER_STEP (R603). -/
def nextSlot (s : State) (t : Store) : Nat :=
  match slotValid (ownSlot s t 0), slotValid (ownSlot s t 1) with
  | some a, some b => if a < b then 0 else 1
  | some _, none => 1
  | none, _ => 0

/-- The chunks of a shard's extents with their lengths (R597): extent, offset, bytes. -/
def chunkList (lens : List Nat) : List (Nat × Nat × Nat) :=
  (lens.mapIdx fun e n => (List.range (ceilDiv n 32768)).map fun i => (e, 32768 * i, min 32768 (n - 32768 * i))).flatten

/-- The slot offset of a chunk (R597) and the slot span (R598). -/
def chunkAt (c : Nat) : Nat := 65536 + c * 32816
def slotSpan (chunks : Nat) : Nat := 65536 + (chunks - 1) * 32816 + 4144

/-! ### The take (R588 to R596) -/

def ckReg (p : Nat) : Reg := ⟨.partCkstat, 0, p⟩
/-- PART_CKSTAT.STATUS, and a fault record where the end is neither OK nor OK_LATE (R621). -/
def ckEnd (s : State) (p : Nat) (st : Status) : State :=
  let s := regPut s (ckReg p) 16 16 st.toNat
  if st = stOk ∨ st = stOkLate then s else faultRec s st p (ckReg p)

/-- The status with which a command completes now (R725). -/
def endStatus (s : State) (cid : Nat) (st : Status) : Status :=
  match cmdAt s cid with
  | some c => (lateness s c st 0).1
  | none => st

/-- A take, restore or takeover completes. -/
def ckComplete (s : State) (cid p : Nat) (st : Status) : State :=
  ckEnd (complete s cid st) p (endStatus s cid st)

/-- The highest step of a partition that has been admitted. -/
def lastAdmitted (s : State) (p : Nat) : Nat := (partAt s p).stepNum.toNat + (partAt s p).waiting.length

def doCkptTake (cid : Nat) (s : State) : State :=
  match cmdFor s cid 0x0042 with
  | none => s
  | some c =>
    let p := c.byte 0
    if 16 ≤ p ∨ !c.may p then complete (beginCmd s cid) cid stBadDescriptor
    else if !zeroAt c.inl 1 7 ∨ !zeroAt c.inl 16 8 ∨ (shardOf s p).isNone ∨ fieldAt c.inl 8 8 < lastAdmitted s p then
      ckComplete (beginCmd s cid) cid p stBadDescriptor
    else modCmd s cid fun c => { c with started := true }

/-- CKPT_TAKE (R588, R590): INLINE byte 0 the partition, bytes 8 to 15 AFTER_STEP (log entry 56). The take then waits for its
step, and for an earlier take to end. -/
def execCkptTake (cid : Nat) (s : State) : Res := done s (doCkptTake cid s)

/-- The buddy of a shard (R583). -/
def buddyChip (s : State) (sh : Shard) : Option Nat :=
  (ownChip s).map fun c => stepDir s c (if fieldAt sh.header 2 1 = 0xFF then 4 else fieldAt sh.header 2 1) 1

/-- What the buddy holds for this module's shard (R591 step 1): its own stores where the buddy is this module. -/
def buddyInfo (s : State) (chip p : Nat) (buddy : Nat) (b : Option BuddyStore) : Option BuddyStore :=
  if buddy = chip then
    (findStore s chip p).map fun t => ⟨storeSlotLen t, t.part, (partAt s t.part.val).epoch, Fin.ofNat 2 (nextSlot s t)⟩
  else b

def pendingColl (s : State) (p : Nat) : Bool :=
  (List.range 64).any fun n => (collAt s p n).run.isSome || !(collAt s p n).pending.isEmpty

/-- The step-state record (R596). -/
def stateRecord (s : State) (p chip : Nat) (after : W64) : Bytes :=
  let code (c : CollState) : Nat := match c with | .closed => 0 | .opened => 1 | .running => 2 | .failed => 3
  leBytes 8 after.toNat ++ leBytes 8 s.now ++ leBytes 2 (partAt s p).epoch.toNat ++ leBytes 2 chip ++ leBytes 1 p ++ leBytes 11 0
    ++ ((List.range 64).flatMap fun n => leBytes 8 ((collAt s p n).nextSeq.toNat + code (collAt s p n).st * 2 ^ 32))
    ++ ((List.range 8).flatMap fun w => leBytes 8 (match Tbl.get none s.tier.streams (8 * p + w) with
        | some x => x.last.getD 0 + b2n x.down * 65536
        | none => 0))
    ++ List.replicate 3488 0

/-- The extent table of a manifest: the shard's entries and the STATE entry (R602). The STATE extent has no device address
(log entry 57). -/
def manifestTable (sh : Shard) : List Bytes :=
  sh.extents ++ [leBytes 1 5 ++ leBytes 7 0 ++ leBytes 8 0 ++ leBytes 8 4096 ++ leBytes 8 0]

def manifestOf (t : Take) (p : Nat) (state : Nat) : Bytes :=
  let lens := t.table.map extLen
  let m := leBytes 4 0x4B435053 ++ leBytes 2 t.srcChip ++ leBytes 1 p ++ leBytes 1 state ++ leBytes 8 t.afterStep.toNat
    ++ leBytes 8 t.snapTime ++ leBytes 4 t.seq.toNat ++ leBytes 2 t.table.length ++ leBytes 1 t.keySlot ++ leBytes 1 t.keyGen.toNat
    ++ leBytes 8 (chunkList lens).length ++ leBytes 8 (sumN lens)
  m ++ leBytes 4 (manifestCrc m t.table.flatten) ++ List.replicate 76 0

/-- A CHECKPOINT message of a take to its buddy, at P3, or at the priority of a write that waits for it (R595, R597). AUX names the source's partition, and bit 8 the manifest with its
extent table (log entry 58). -/
def sendCkpt (s : State) (p : Nat) (t : Take) (manifest : Bool) (b : Bytes) (prio : Nat := 3) : Option Status × W32 × State :=
  let (tag, s) := newTag s
  let x := sendMsg s { byPhys := false, dst := t.buddy, cls := 0x31, part := t.buddyPart, prio, epoch := t.epoch.toNat, tag
                       aux := p + b2n manifest * 256, payload := b }
  (x.1, BitVec.ofNat 32 tag, x.2)

/-- A drain ends without commit (R605). -/
def drainEnd (s : State) (p : Nat) (st : Status) : State :=
  match takeOf s p with
  | none => s
  | some t => ckComplete (setTake s p none) t.cid p st

/-- A range copied into the pool. -/
def poolCopy (s : State) (a n dst : Nat) : Acc × State :=
  match readMem s .device a n with
  | (.ok, b, s) => writeMem s .device dst b 2
  | (x, _, s) => (x, s)

/-- Steps 2 to 5 of the snapshot (R591): copies, protection, the step-state record. -/
def snapshotBody (s : State) (p : Nat) (t : Take) (sh : Shard) (poolLen : Nat) : Acc × State :=
  let strata := sh.extents.filter fun e => !(isT1 (extAddr e) || isT2 (extAddr e))
  let offs := strata.mapIdx fun i e => (e, sumN ((strata.take i).map extLen))
  let total := sumN (strata.map extLen)
  let place (e : Bytes) : Nat × Nat × Bool :=
    match offs.find? fun x => x.1 == e with
    | some x => (t.poolBase + x.2, extLen e, false)
    | none => (extAddr e, extLen e, true)
  let record := stateRecord s p t.srcChip t.afterStep
  match accAll offs s fun s x => poolCopy s (extAddr x.1) (extLen x.1) (t.poolBase + x.2) with
  | (.ok, s) =>
    match writeMem s .device (t.poolBase + total) record 2 with
    | (.ok, s) =>
      let live := (sh.extents.map place).filter fun e => e.2.2
      let prot := live.flatMap fun e => (List.range (e.2.1 / 2048)).map fun i => e.1 + 2048 * i
      let t := { t with
        extents := sh.extents.map place ++ [(t.poolBase + total, 4096, false)]
        prot := prot.foldl (fun m u => Tbl.put false m u true) []
        poolLen, poolUsed := total + 4096 }
      (.ok, setTake s p (some t))
    | x => x
  | x => x

/-- The take of a partition that is due for its snapshot (R588, R590). -/
def dueTake (s : State) (p : Nat) : Option Cmd :=
  if (takeOf s p).isSome ∨ (partAt s p).run.isSome then none
  else s.host.cmds.find? fun c => c.opcode == 0x42 && c.started && c.byte 0 == p && decide ((partAt s p).stepNum.toNat = fieldAt c.inl 8 8)

def doSnapshot (p : PartId) (b : Option BuddyStore) (s0 : State) : State :=
  match dueTake s0 p.val with
  | none => s0
  | some c =>
    if (match c.notAfter with | some x => decide (x < s0.now) | none => false) then ckComplete s0 c.id p.val stExpired
    else
      let s := beginCmd s0 c.id
      let s := setCkpt s fun k => { k with counter := k.counter + 1 }
      let after := BitVec.ofNat 64 (fieldAt c.inl 8 8)
      let s := regPut (regSet s ⟨.partCkbytes, 0, p.val⟩ 0) (ckReg p.val) 32 32 after.toNat
      let fail (st : Status) : State := ckComplete s c.id p.val st
      match shardOf s p.val, ownChip s with
      | some sh, some chip =>
        match buddyChip s sh with
        | none => fail stBadDescriptor
        | some buddy =>
          let strata := sumN ((sh.extents.filter fun e => !(isT1 (extAddr e) || isT2 (extAddr e))).map extLen)
          let poolLen := fieldAt sh.header 0x10 8
          let ks := fieldAt sh.header 1 1
          match buddyInfo s chip p.val buddy b, keyUse s ks p.val with
          | none, _ => fail stBadDescriptor
          | some bs, key =>
            if bs.part.val ≠ fieldAt sh.header 3 1 then fail stBadDescriptor
            else if bs.slotLen < slotSpan (chunkList ((manifestTable sh).map extLen)).length then fail stNoResource
            else if poolLen < strata + 4096 ∨ pendingColl s p.val then fail stBadDescriptor
            else match key with
              | .error st => fail st
              | .ok k =>
                let t : Take :=
                  { cid := c.id, afterStep := after, snapTime := s.now, seq := s.ckpt.counter, keySlot := ks, keyGen := k.gen, key := k.key
                    srcChip := chip, buddy, buddyPart := fieldAt sh.header 3 1, epoch := bs.epoch, slot := bs.slot.val
                    table := manifestTable sh, poolBase := fieldAt sh.header 8 8 }
                match snapshotBody s p.val t sh poolLen with
                | (.wait, s1) => stillWaits s0 s1
                | (.ok, s) =>
                  match takeOf s p.val with
                  | none => s
                  | some t => match sendCkpt s p.val t true (manifestOf t p.val 1 ++ t.table.flatten) with
                    | (some st, _, s) => drainEnd s p.val st
                    | (none, tag, s) => setTake s p.val (some { t with tags := [tag] })
                | (a, s) => ckComplete s c.id p.val (collAcc a)
      | _, _ => fail stBadDescriptor

/-- SNAPSHOT (R583, R588 to R593, R601, R602): the take executes. `b` is what a buddy on another module answers. -/
def execSnapshot (p : PartId) (b : Option BuddyStore) (s : State) : Res := done s (doSnapshot p b s)

/-! ### The drain (R594 to R600, R603 to R605) -/

/-- The IV of a chunk (R600). -/
def chunkIv (seq : Nat) (chip gen chunk : Nat) : Bytes := leBytes 4 seq ++ leBytes 2 chip ++ leBytes 1 gen ++ [0] ++ leBytes 4 chunk

/-- A range of an extent as the drain reads it: the pool's copy of a unit where one exists, else the live unit (R594). -/
def drainRead (s : State) (t : Take) (a n : Nat) (live : Bool) : Acc × Bytes × State :=
  if !live then readMem s .device a n
  else (List.range (n / 2048)).foldl (fun (acc : Acc × Bytes × State) i =>
    match acc with
    | (.ok, b, s) =>
      let u := a + 2048 * i
      let c := Tbl.get 0 t.pool u
      match readMem s .device (if c = 0 then u else c) 2048 with
      | (.ok, x, s) => (.ok, b ++ x, s)
      | (x, _, s) => (x, b, s)
    | x => x) (.ok, [], s)

/-- The chunk that the drain sends next: one that a waiting write needs, else the next in order (R595, R597). -/
def nextChunk (t : Take) : Option (Nat × Take) :=
  let total := (chunkList (t.table.map extLen)).length
  match t.urgent.filter fun c => decide (t.next ≤ c.1) && !t.ahead.contains c.1 with
  | (c, _) :: _ => if c = t.next then some (c, { t with next := c + 1, urgent := t.urgent.filter (·.1 != c) })
      else some (c, { t with ahead := c :: t.ahead, urgent := t.urgent.filter (·.1 != c) })
  | [] =>
    match (span t.next (total - t.next)).find? fun c => !t.ahead.contains c with
    | some c => some (c, { t with next := c + 1 })
    | none => none

/-- The priority of a chunk: of the writes that wait for it, else P3 (R595, R597). -/
def chunkPrio (t : Take) (c : Nat) : Nat := match t.urgent.find? fun x => x.1 == c with | some x => x.2 | none => 3

/-- The chunk record of R599. -/
def chunkRecord (t : Take) (chunk ext off : Nat) (b : Bytes) : Bytes :=
  let h := leBytes 4 t.seq.toNat ++ leBytes 4 chunk ++ leBytes 2 ext ++ leBytes 2 t.srcChip ++ leBytes 4 b.length ++ leBytes 8 off
  let e := Config.gcmSeal t.key (chunkIv t.seq.toNat t.srcChip t.keyGen.toNat chunk) h b
  h ++ e.2 ++ leBytes 8 0 ++ e.1

def doDrainChunk (p : PartId) (s0 : State) : State :=
  match takeOf s0 p.val with
  | none => s0
  | some t0 =>
    match nextChunk t0, drainEngine s0 p.val with
    | none, _ => s0
    | _, none => s0
    | some (c, t), some d =>
      match (chunkList (t.table.map extLen))[c]? with
      | none => s0
      | some (e, off, n) =>
        let x := nth (0, 0, false) t.extents e
        match drainRead s0 t (x.1 + off) n x.2.2 with
        | (.wait, _, _) => s0
        | (.ok, b, s) =>
          let units := if x.2.2 then (List.range (n / 2048)).map fun i => x.1 + off + 2048 * i else []
          let t := { t with
            prot := units.foldl (fun m u => Tbl.put false m u false) t.prot
            pool := units.foldl (fun m u => Tbl.put 0 m u 0) t.pool }
          match sendCkpt s p.val t false (chunkRecord t c e off b) (chunkPrio t0 c) with
          | (some st, _, s) => drainEnd s p.val st
          | (none, tag, s) =>
            let s := bindKey s d t.keySlot
            regAddWrap (setTake s p.val (some { t with tags := t.tags ++ [tag] })) ⟨.partCkbytes, 0, p.val⟩ 0 64 (48 + n)
        | (a, _, s) => drainEnd s p.val (collAcc a)

/-- DRAIN_CHUNK (R594, R595, R597 to R600, R605): an AES engine with room admits the chunk's operation, which binds the take's key (R823, R824). -/
def execDrainChunk (p : PartId) (s : State) : Res := done s (doDrainChunk p s)

/-- Every chunk of a take has been sent. -/
def drained (t : Take) : Bool := (nextChunk t).isNone

def doDrainCommit (side : CommitSide) (s : State) : State :=
  match side with
  | .buddy chip part =>
    match findStore s chip.toNat part.val with
    | none => s
    | some t =>
      match t.writing with
      | none => s
      | some k =>
        if t.got < leNat (memBytes s (storeSlot t k + 0x20) 8) then s
        else
          let (a, s') := writeMem s .device (storeSlot t k + 7) [2] 3
          if a = .ok then setStore s' { t with writing := none, got := 0 } else s
  | .source p =>
    match takeOf s p.val with
    | none => s
    | some t =>
      let mine := decide (ownChip s = some t.buddy) && (match findStore s t.srcChip p.val with | some x => x.writing.isSome | none => false)
      if !drained t ∨ mine then s
      else
        let st := endStatus s t.cid stOk
        let s := regPut (regPut s (ckReg p.val) 5 1 1) (ckReg p.val) 4 1 t.slot
        let s := regSet s ⟨.partCkseq, 0, p.val⟩ t.seq.toNat
        ckEnd (complete (setTake s p.val none) t.cid stOk) p.val st

/-- DRAIN_COMMIT (R603, R621, R622): the buddy marks the slot VALID; the source's take completes. -/
def execDrainCommit (side : CommitSide) (s : State) : Res := done s (doDrainCommit side s)

def doMsgCheckpoint (m : Bytes) (s0 : State) : State :=
  let s := takeMsg s0 m
  match msgRefused s m 0x31 true with
  | some st => refuse s m st
  | none =>
    let b := msgPayload m
    let sp := bitsOf (msgAux m) 0 4
    let manifest := bitOf (msgAux m) 8
    let chip := if manifest then fieldAt b 4 2 else fieldAt b 0x0A 2
    match findStore s chip sp with
    | none => refuse s m stBadDescriptor
    | some t =>
      if t.part.val ≠ msgPart m then refuse s m stBadDescriptor
      else if manifest then
        let k := nextSlot s t
        if storeSlotLen t < b.length then refuse s m stCheckFail
        else match writeMem s .device (storeSlot t k) (putAt b 7 [1]) 3 with
          | (.ok, s) => setStore s { t with writing := some k, got := 0 }
          | (.wait, s1) => stillWaits s0 s1
          | (a, s) => refuse s m (collAcc a)
      else
        match t.writing with
        | none => refuse s m stBadDescriptor
        | some k =>
          let c := fieldAt b 4 4
          if storeSlotLen t < chunkAt c + b.length ∨ 48 + 32768 < b.length then refuse s m stCheckFail
          else match writeMem s .device (storeSlot t k + chunkAt c) b 3 with
            | (.ok, s) => setStore s { t with got := t.got + 1 }
            | (.wait, s1) => stillWaits s0 s1
            | (a, s) => refuse s m (collAcc a)

/-- CHECKPOINT (R597, R598, R602, R603): a chunk record, or the manifest that opens the slot, is written into its store. -/
def execMsgCheckpoint (m : Bytes) (s : State) : Res := done s (doMsgCheckpoint m s)

/-! ### Restores (R607 to R610) -/

/-- The slot of a shard's store at a holder that is VALID with an AFTER_STEP: on this module, or as the holder answers. -/
def findSlot (s : State) (held : List RemoteStore) (holder chip part after : Nat) : Option SlotBytes :=
  let both : Option (SlotBytes × SlotBytes) :=
    if ownChip s = some holder then (findStore s chip part).map fun t => (ownSlot s t 0, ownSlot s t 1)
    else if (mapEntry s holder).isNone then none
    else (held.find? fun h => h.holder.toNat == holder && h.srcChip.toNat == chip && h.srcPart.val == part).map fun h => (h.slot0, h.slot1)
  match both with
  | none => none
  | some (a, b) => if slotValid a = some after then some a else if slotValid b = some after then some b else none

/-- A chunk of a slot opened (R600, R609): none when its tag does not verify. -/
def openChunk (b : SlotBytes) (key : Bytes) (c : Nat) : Option Bytes :=
  let m := bytesAt 0 b 0 128
  let h := bytesAt 0 b (chunkAt c) 48
  let n := fieldAt h 0x0C 4
  Config.gcmOpen key (chunkIv (fieldAt m 0x18 4) (fieldAt m 4 2) (fieldAt m 0x1F 1) c) (h.take 0x18)
    (bytesAt 0 b (chunkAt c + 48) (min n 32768)) ((h.drop 0x18).take 16)

/-- One range to restore: the slot, the extent, the range within it and where it goes; STATE sets the step number. -/
structure RestoreRange where
  slot : SlotBytes
  ext : Nat
  off : Nat
  len : Nat
  dst : Nat
  setStep : Bool
  deriving DecidableEq, Repr

/-- The chunks that a range touches: number, offset in the extent, bytes. -/
def rangeChunks (r : RestoreRange) : List (Nat × Nat × Nat) :=
  let all := chunkList ((List.range ((slotTable r.slot).length / 32)).map fun i => fieldAt (slotTable r.slot) (32 * i + 0x10) 8)
  ((all.mapIdx fun i c => (i, c)).filter fun c => c.2.1 == r.ext && overlap r.off r.len c.2.2.1 c.2.2.2).map fun c => (c.1, c.2.2.1, c.2.2.2)

/-- The chunks of a restore, each once, with the ranges that it serves (R609). -/
def restoreWork (rs : List RestoreRange) : List ((SlotBytes × Nat × Nat × Nat) × List RestoreRange) :=
  let keys := (rs.flatMap fun r => (rangeChunks r).map fun c => (r.slot, c)).eraseDups
  keys.map fun k => (k, rs.filter fun r => r.slot == k.1 && (rangeChunks r).contains k.2)

/-- The chunks fetched, checked and written in turn; an error ends it and leaves what was written (R609). -/
def restoreGo (p : Nat) (key : Bytes) (s : State) (rs : List RestoreRange) : Acc × State :=
  accAll (restoreWork rs) s fun s w =>
    let (slot, c, off, n) := w.1
    match openChunk slot key c with
    | none => (.fail stAuthFail, s)
    | some b =>
      let s := regAddWrap s ⟨.partCkbytes, 0, p⟩ 0 64 (48 + n)
      accAll w.2 s fun s r =>
        let lo := max r.off off
        let hi := min (r.off + r.len) (off + n)
        if r.dst = 0 ∧ r.setStep then (.ok, s)
        else writeMem s (.step p) (r.dst + (lo - r.off)) ((b.drop (lo - off)).take (hi - lo)) 2

/-- The restore's end: the step number where an entry has STATE set, then its completion (R610). -/
def restoreEnd (s0 s : State) (cid p : Nat) (after : Nat) (setStep : Bool) (a : Acc) : State :=
  match a with
  | .wait => stillWaits s0 s
  | .ok =>
    let s := if setStep then modPart s p fun q => { q with stepNum := BitVec.ofNat 64 after } else s
    ckComplete s cid p stOk
  | a => ckComplete s cid p (collAcc a)

/-- An entry of R607 within its table and its extent: none where it breaks them. -/
def restoreRange (s : State) (held : List RemoteStore) (after : Nat) (e : Bytes) : Option RestoreRange :=
  if !(decide (fieldAt e 0 2 < 32768) && decide (fieldAt e 2 2 < 32768) && decide (fieldAt e 4 1 < 16) && decide (fieldAt e 5 1 < 2)
      && fieldAt e 8 8 % 2048 == 0 && fieldAt e 0x10 8 % 2048 == 0 && fieldAt e 0x18 8 % 2048 == 0) then none
  else match findSlot s held (fieldAt e 0 2) (fieldAt e 2 2) (fieldAt e 4 1) after with
    | none => none
    | some b =>
      let t := slotTable b
      let x := fieldAt e 6 2
      let setStep := bitOf (fieldAt e 5 1) 0
      if t.length / 32 ≤ x ∨ fieldAt t (32 * x + 0x10) 8 < fieldAt e 8 8 + fieldAt e 0x10 8 ∨ (setStep ∧ fieldAt t (32 * x) 1 ≠ 5) then none
      else some ⟨b, x, fieldAt e 8 8, fieldAt e 0x10 8, fieldAt e 0x18 8, setStep⟩

def doCkptRestore (cid : Nat) (held : List RemoteStore) (s0 : State) : State :=
  match cmdFor s0 cid 0x0043 with
  | none => s0
  | some c =>
    if !atRest s0 c (cmdPart s0 c) then s0
    else withPayload (beginCmd s0 cid) c 48 fun s b =>
      let p := fieldAt b 0 1
      let n := fieldAt b 2 2
      let after := fieldAt b 8 8
      if !partLives s p ∨ !c.may p then complete s cid stBadDescriptor
      else if 64 ≤ fieldAt b 1 1 ∨ n = 0 ∨ b.length ≠ 16 + 32 * n ∨ !zeroAt b 4 4 then ckComplete s cid p stBadDescriptor
      else
        let s := regSet s ⟨.partCkbytes, 0, p⟩ 0
        let es := (List.range n).map fun i => restoreRange s held after ((b.drop (16 + 32 * i)).take 32)
        match keyUse s (fieldAt b 1 1) p with
        | .error st => ckComplete s cid p st
        | .ok k =>
          if es.any (·.isNone) then ckComplete s cid p stBadDescriptor
          else
            let rs := es.filterMap id
            if rs.any fun r => !(r.setStep && r.dst == 0) && !canWrite s (.step p) r.dst r.len then ckComplete s cid p stBadDescriptor
            else
              let x := restoreGo p k.key s rs
              restoreEnd s0 x.2 cid p after (rs.any (·.setStep)) x.1

/-- CKPT_RESTORE (R607 to R610, R820): one event; `held` is what the stores on other modules hold. -/
def execCkptRestore (cid : Nat) (held : List RemoteStore) (s : State) : Res := done s (doCkptRestore cid held s)

/-! ### The chip map (R495, R497) and the takeover (R611 to R615) -/

/-- A chip map applied (R497): pairs of 4 bytes, the logical identifier and the coordinate; 0xFFFF names none (log entry 59). -/
def applyMap (s : State) (gen : W32) (pairs : Bytes) : State :=
  let ps := (List.range (pairs.length / 4)).map fun i => (fieldAt pairs (4 * i) 2, fieldAt pairs (4 * i + 2) 2)
  let f := s.fab
  let m := ps.foldl (fun m e => Tbl.put none m (e.1 % 32768) (some (if e.2 = 0xFFFF then none else some (BitVec.ofNat 15 e.2)))) f.map
  { s with fab := { f with map := m, mapGen := gen } }

def podCoords (s : State) : List Nat :=
  let (x, y, z) := s.fab.ext
  (List.range z).flatMap fun c => (List.range y).flatMap fun b => (List.range x).map fun a => a + 32 * b + 1024 * c

/-- Step 2 of R612: one MAP message to every other coordinate of the pod, and the same map here. -/
def sendMap (s : State) (gen : W32) (pairs : Bytes) : State :=
  let s := forEach ((podCoords s).filter (· != ownPhys s)) s fun s c =>
    (sendMsg s { byPhys := true, dst := c, cls := 2, payload := leBytes 4 gen.toNat ++ pairs }).2
  applyMap s gen pairs

/-- The takeover's map already stands here (R613). -/
def mapStands (s : State) (failed : Nat) (gen : W32) : Bool :=
  mapEntry s failed == some s.fab.phys && decide (gen.toNat ≤ s.fab.mapGen.toNat)

def doAxolotlTakeover (cid : Nat) (held : List RemoteStore) (s0 : State) : State :=
  match cmdFor s0 cid 0x0044 with
  | none => s0
  | some c =>
    match payloadOf s0 c with
    | (.ok, b0, _) =>
      if (partAt s0 (fieldAt b0 5 1)).run.isSome then s0
      else withPayload (beginCmd s0 cid) c 32 fun s b =>
        let failed := fieldAt b 0 2
        let holder := fieldAt b 2 2
        let sp := fieldAt b 4 1
        let p := fieldAt b 5 1
        let after := fieldAt b 8 8
        let gen := BitVec.ofNat 32 (fieldAt b 0x10 4)
        let stands := mapStands s failed gen
        if !partLives s p ∨ !c.may p then complete s cid stBadDescriptor
        else if b.length ≠ 32 ∨ 32768 ≤ failed ∨ 32768 ≤ holder ∨ 16 ≤ sp ∨ 64 ≤ fieldAt b 6 1 ∨ !zeroAt b 7 1 ∨ !zeroAt b 0x14 12 then
          ckComplete s cid p stBadDescriptor
        else
          let s := regSet s ⟨.partCkbytes, 0, p⟩ 0
          if !stands ∧ gen.toNat ≤ s.fab.mapGen.toNat then ckComplete s cid p stBadDescriptor
          else match keyUse s (fieldAt b 6 1) p with
            | .error st => ckComplete s cid p st
            | .ok k =>
              match findSlot s held holder failed sp after with
              | none => ckComplete s cid p stPeerLost
              | some slot =>
                let t := slotTable slot
                let es := (List.range (t.length / 32)).map fun i => (t.drop (32 * i)).take 32
                if !(es.all fun e => extKind e == 5 || inPartRegion s p (extAddr e) (extLen e)) then ckComplete s cid p stBadDescriptor
                else
                  let pairs := leBytes 2 failed ++ leBytes 2 (ownPhys s) ++ (match ownChip s with
                    | some old => if old = failed then [] else leBytes 2 old ++ leBytes 2 0xFFFF
                    | none => [])
                  let s := if stands then s else sendMap s gen pairs
                  let rs := es.mapIdx fun i e => (⟨slot, i, 0, extLen e, extAddr e, extKind e == 5⟩ : RestoreRange)
                  let x := restoreGo p k.key s rs
                  restoreEnd s0 x.2 cid p after true x.1
    | _ => withPayload (beginCmd s0 cid) c 32 fun s _ => s

/-- AXOLOTL_TAKEOVER (R611 to R615): one event; `held` is what the stores on other modules hold. -/
def execAxolotlTakeover (cid : Nat) (held : List RemoteStore) (s : State) : Res := done s (doAxolotlTakeover cid held s)

end Sys2Proof.Machine
end

