-- ==== Sys2Proof/Machine/IngestOps.lean ====
section
/-! DEFINITION. The work of the ingest stages on their data (chapter 13): record parsing (R641 to R646), tokenising (R669 to
R672), shaping (R665, R666), slots and lockets (R651, R674, R677). -/

namespace Sys2Proof.Machine
open Sys2Proof

/-! ### The pipeline descriptor (R628) -/

def pdKey (d : Bytes) : Nat := fieldAt d 4 1
def pdDict (d : Bytes) : Nat := fieldAt d 5 1
def pdRate (d : Bytes) : Nat := fieldAt d 6 1
def pdQcap (d : Bytes) : Nat := fieldAt d 8 4
def pdFrameNs (d : Bytes) : Nat := fieldAt d 0x0C 4
def pdDpbLen (d : Bytes) : Nat := fieldAt d 0x20 8
def pdOut (d : Bytes) : Nat := fieldAt d 0x28 8
def pdSlots (d : Bytes) : Nat := fieldAt d 0x30 4
def pdSlotLen (d : Bytes) : Nat := fieldAt d 0x34 4
def pdShape (d : Bytes) : Nat := fieldAt d 0x38 8
def pdLocket (d : Bytes) : Nat := fieldAt d 0x40 8
def pdLocketMax (d : Bytes) : Nat := fieldAt d 0x48 4
def pdTiles (d : Bytes) : Nat := fieldAt d 0x4C 2
def pdLockets (d : Bytes) : Bool := fieldAt d 2 1 == 1
def pdSealed (d : Bytes) : Bool := bitOf (fieldAt d 3 1) 0
def pdLocketWr (d : Bytes) : Bool := bitOf (fieldAt d 3 1) 1 && !pdLockets d
def pdStats (d : Bytes) : Bool := bitOf (fieldAt d 3 1) 2
def pdHdrFw (d : Bytes) : Bool := bitOf (fieldAt d 3 1) 3

def slotAddr (d : Bytes) (i : Nat) : Nat := pdOut d + i * pdSlotLen d

/-! ### Records (R642 to R646) -/

def padTo (n k : Nat) : Nat := ceilDiv k n * n

/-- The size of a numeric FTYPE (R643). -/
def ftypeSize (t : Nat) : Option Nat :=
  match t with
  | 1 => some 1 | 2 => some 2 | 3 => some 4 | 4 => some 8 | 6 => some 4 | _ => none

/-- The fields of a payload as tag, type and value; none when one runs past the end or its reserved byte is set (R645). -/
def parseFields : Nat → Bytes → Option (List (Nat × Nat × Bytes))
  | 0, b => if b.isEmpty then some [] else none
  | k + 1, b =>
    if b.isEmpty then some []
    else
      let n := fieldAt b 4 4
      if b.length < 8 + n ∨ fieldAt b 3 1 ≠ 0 then none
      else (parseFields k (b.drop (padTo 8 (8 + n)))).map fun r => (fieldAt b 0 2, fieldAt b 2 1, (b.drop 8).take n) :: r

/-- A field of a tag and type, of its type's size. -/
def recField (fs : List (Nat × Nat × Bytes)) (tag ty : Nat) : Option Bytes :=
  match fs.find? fun f => f.1 == tag with
  | some (_, t, v) => if t == ty && (match ftypeSize ty with | some n => v.length == n | none => true) then some v else none
  | none => none

def recNum (fs : List (Nat × Nat × Bytes)) (tag ty : Nat) : Option Nat := (recField fs tag ty).map leNat

/-- A parsed record: a sample, a component with its SAMPLE_ID, or one that is skipped. -/
inductive Rec where
  | sample (id ncomp : Nat) (at_ notAfter : Option Nat)
  | comp (id : Nat) (c : Comp)
  | skip
  deriving DecidableEq, Repr

/-- What a record's type and fields say (R644); none where R645 ends the object. -/
def parseRecord (hdrFw : Bool) (ty : Nat) (payload : Bytes) : Option Rec :=
  if ty = 0 then some .skip
  else
    match parseFields payload.length payload with
    | none => none
    | some fs =>
      if ty = 0x80000001 then
        match recNum fs 1 4, recNum fs 2 2 with
        | some id, some n => if 1 ≤ n ∧ n ≤ 64 then some (.sample id n (recNum fs 3 4) (recNum fs 4 4)) else none
        | _, _ => none
      else if ty = 0x80000002 then
        match recNum fs 1 4, recNum fs 5 2, recNum fs 6 1, recNum fs 7 3, recNum fs 8 3, recField fs 9 7, recNum fs 11 1 with
        | some id, some num, some codec, some first, some count, some bits, some shape =>
          if count = 0 then none
          else some (.comp id { num, kind := 1, codec, firstFrame := first, count, bits, shape
                                hdrFw := match recNum fs 10 1 with | some h => h == 1 | none => hdrFw })
        | _, _, _, _, _, _, _ => none
      else if ty = 0x80000003 then
        match recNum fs 1 4, recNum fs 5 2, recNum fs 11 1, recField fs 12 8 with
        | some id, some num, some shape, some text => some (.comp id { num, kind := 2, bits := text, shape })
        | _, _, _, _ => none
      else if ty = 0x80000004 then
        match recNum fs 1 4, recNum fs 5 2, recNum fs 13 1, recField fs 14 7 with
        | some id, some num, some fmt, some data => some (.comp id { num, kind := 3, bits := data, fmt, decoded := true })
        | _, _, _, _ => none
      else if bitOf ty 31 then none else some .skip

/-! ### Tokens (R669 to R672) -/

/-- The continuation bytes that may follow a lead byte of UTF-8, in order, as ranges (The Unicode Standard, table 3-7). -/
def utf8Tail (b : Nat) : Option (List (Nat × Nat)) :=
  let c : Nat × Nat := (0x80, 0xBF)
  if b < 0x80 then some []
  else if 0xC2 ≤ b ∧ b ≤ 0xDF then some [c]
  else if b = 0xE0 then some [(0xA0, 0xBF), c]
  else if b = 0xED then some [(0x80, 0x9F), c]
  else if 0xE1 ≤ b ∧ b ≤ 0xEF then some [c, c]
  else if b = 0xF0 then some [(0x90, 0xBF), c, c]
  else if 0xF1 ≤ b ∧ b ≤ 0xF3 then some [c, c, c]
  else if b = 0xF4 then some [(0x80, 0x8F), c, c]
  else none

/-- Continuation bytes that fit, one after another. -/
def tailLen : List (Nat × Nat) → Bytes → Nat
  | [], _ => 0
  | _, [] => 0
  | r :: rs, b :: bs => if r.1 ≤ b.toNat ∧ b.toNat ≤ r.2 then 1 + tailLen rs bs else 0

/-- The text with each maximal subpart of an ill-formed sequence replaced by U+FFFD, and how many were (R671). -/
def utf8Repair : Nat → Bytes → Bytes × Nat
  | 0, _ => ([], 0)
  | _, [] => ([], 0)
  | k + 1, b :: bs =>
    match utf8Tail b.toNat with
    | none => let r := utf8Repair k bs; ([0xEF, 0xBF, 0xBD] ++ r.1, r.2 + 1)
    | some rs =>
      let n := tailLen rs bs
      let r := utf8Repair k (bs.drop n)
      if n = rs.length then (b :: bs.take n ++ r.1, r.2) else ([0xEF, 0xBF, 0xBD] ++ r.1, r.2 + 1)

/-- Node fields of a dictionary's node array (R669). -/
def nodeTok (a : Bytes) (i : Nat) : Nat := fieldAt a (16 * i) 4
def nodeChild (a : Bytes) (i : Nat) : Nat := fieldAt a (16 * i + 4) 4
def nodeKids (a : Bytes) (i : Nat) : Nat := fieldAt a (16 * i + 8) 2
def nodeByte (a : Bytes) (i : Nat) : Nat := fieldAt a (16 * i + 10) 1
def nodeDepth (a : Bytes) (i : Nat) : Nat := fieldAt a (16 * i + 11) 1
def nodeNone (a : Bytes) (i : Nat) : Bool := bitOf (nodeTok a i) 31

/-- The longest match from a node on: the token and length of the last node with one (R671). -/
def longest (a : Bytes) : Bytes → Nat → Nat → Nat × Nat → Nat × Nat
  | [], _, _, best => best
  | b :: bs, node, len, best =>
    match (span (nodeChild a node) (nodeKids a node)).find? fun c => nodeByte a c == b.toNat with
    | none => best
    | some c => longest a bs c (len + 1) (if nodeNone a c then best else (nodeTok a c, len + 1))

/-- The tokens of a text (R671). -/
def tokens (a : Bytes) : Nat → Bytes → List Nat
  | 0, _ => []
  | _, [] => []
  | k + 1, t =>
    let m := longest a t 0 0 (0, 1)
    m.1 :: tokens a k (t.drop (max 1 m.2))

/-- A dictionary's header and node array as R669 and R670 have them. -/
def dictOk (h a : Bytes) : Bool :=
  let entries := fieldAt h 8 4
  let nodes := fieldAt h 0x0C 4
  let idOk (v : Nat) (opt : Bool) : Bool := decide (v < entries) || (opt && v == 0xFFFFFFFF)
  let all := List.range nodes
  let kids := all.flatMap fun i => span (nodeChild a i) (nodeKids a i)
  let toks := (all.filter fun i => !nodeNone a i).map (nodeTok a)
  fieldAt h 0 4 == 0x43544B54 && fieldAt h 4 2 == 1 && zeroAt h 6 2 && decide (256 ≤ entries) && decide (entries ≤ 262144)
    && decide (257 ≤ nodes) && decide (nodes ≤ 1048576) && idOk (fieldAt h 0x10 4) true && idOk (fieldAt h 0x14 4) true
    && idOk (fieldAt h 0x18 4) false && decide (1 ≤ fieldAt h 0x1C 1) && zeroAt h 0x1D 3 && zeroAt h 0x24 2012
    && a.length == 16 * nodes && crc32c a == fieldAt h 0x20 4
    && fieldAt h 0x1C 1 == maxN ((all.filter fun i => !nodeNone a i).map (nodeDepth a))
    && all.all (fun i =>
        (if nodeNone a i then nodeTok a i == 2 ^ 31 else decide (nodeTok a i < entries)) && zeroAt a (16 * i + 12) 4
          && decide (nodeKids a i ≤ 256)
          && (if nodeKids a i = 0 then nodeChild a i == 0
              else decide (i < nodeChild a i) && decide (nodeChild a i + nodeKids a i ≤ nodes)
                && (span (nodeChild a i) (nodeKids a i)).all (fun c => nodeDepth a c == nodeDepth a i + 1)
                && (span (nodeChild a i) (nodeKids a i - 1)).all fun c => decide (nodeByte a c < nodeByte a (c + 1))))
    && kids.length + 1 == nodes && kids.eraseDups.length == kids.length
    && toks.length == entries && toks.eraseDups.length == entries
    && nodeDepth a 0 == 0 && nodeKids a 0 == 256 && (span (nodeChild a 0) 256).all fun c => !nodeNone a c

/-! ### Shaping (R665, R666) -/

/-- The nearest F32 to a fraction. -/
def f32Ratio (n d : Nat) : W32 := let x := magDiv n d 0 0; f32Of (.fin false x.1 x.2.1) x.2.2
def f32Nat (n : Nat) : W32 := f32Of (.fin false n 0)
def f32NegHalf : W32 := 0xBF000000#32
/-- The floor of a value that is not negative. -/
def f32Floor (w : W32) : Nat := match f32Val w with | .fin false m e => shiftNat m e | _ => 0

/-- The luma coefficients Kr, Kb, Kg of a matrix, in ten-thousandths (R666). -/
def lumaCoeffs (m : Nat) : Nat × Nat × Nat :=
  match m with
  | 0 => (2990, 1140, 5870) | 1 => (2126, 722, 7152) | _ => (2627, 593, 6780)

/-- The R, G, B of a luma position (R666). -/
def rgbAt (p : Picture) (matrix : Nat) (full : Bool) (x y : Nat) : List W32 :=
  let n := p.depth
  let (kr, kb, kg) := lumaCoeffs matrix
  let cw := (p.width + 1) / 2
  let at_ (l : List Nat) (i : Nat) : W32 := f32Nat (nth 0 l i)
  let yv := at_ p.luma (y * p.width + x)
  let yf := if full then f32Div yv (f32Nat (2 ^ n - 1))
    else f32Div (f32Sub yv (f32Nat (16 * 2 ^ (n - 8)))) (f32Nat (219 * 2 ^ (n - 8)))
  if p.mono then [yf, yf, yf]
  else
    let ch (l : List Nat) : W32 :=
      let c := at_ l (y / 2 * cw + x / 2)
      if full then f32Div (f32Sub c (f32Nat (2 ^ (n - 1)))) (f32Nat (2 ^ n - 1))
      else f32Div (f32Sub c (f32Nat (128 * 2 ^ (n - 8)))) (f32Nat (224 * 2 ^ (n - 8)))
    let r := f32Fma (f32Ratio (2 * (10000 - kr)) 10000) (ch p.cr) yf
    let b := f32Fma (f32Ratio (2 * (10000 - kb)) 10000) (ch p.cb) yf
    let g := f32Div (f32Sub (f32Sub yf (f32Mul (f32Ratio kr 10000) r)) (f32Mul (f32Ratio kb 10000) b)) (f32Ratio kg 10000)
    [r, g, b]

/-- One output value (R666): crop origin and size, output size, the channel's mean and inverse deviation. -/
def shapeValue (p : Picture) (d : Bytes) (matrix : Nat) (full : Bool) (x0 y0 cw ch ox oy c : Nat) : W32 :=
  let px (y x : Nat) : W32 := nth f32Zero (rgbAt p matrix full (x0 + x) (y0 + y)) c
  let mid (o : Nat) : W32 := f32Add (f32Nat o) f32Half
  let sxs := f32Div (f32Nat cw) (f32Nat (fieldAt d 0 2))
  let sys := f32Div (f32Nat ch) (f32Nat (fieldAt d 2 2))
  let pos (o : Nat) (sc : W32) (n : Nat) : W32 := f32Min (f32Max (f32Fma (mid o) sc f32NegHalf) f32Zero) (f32Nat (n - 1))
  let v :=
    if fieldAt d 0x0C 1 = 0 then
      px (min (f32Floor (f32Mul (mid oy) sys)) (ch - 1)) (min (f32Floor (f32Mul (mid ox) sxs)) (cw - 1))
    else
      let fx := pos ox sxs cw
      let fy := pos oy sys ch
      let xa := f32Floor fx
      let ya := f32Floor fy
      let xb := min (xa + 1) (cw - 1)
      let yb := min (ya + 1) (ch - 1)
      let ax := f32Sub fx (f32Nat xa)
      let ay := f32Sub fy (f32Nat ya)
      let t := f32Fma ax (f32Sub (px ya xb) (px ya xa)) (px ya xa)
      let u := f32Fma ax (f32Sub (px yb xb) (px yb xa)) (px yb xa)
      f32Fma ay (f32Sub u t) t
  let k (off : Nat) : W32 := BitVec.ofNat 32 (fieldAt d (off + 4 * c) 4)
  f32Mul (f32Sub v (k 0x10)) (k 0x1C)

/-- A shape descriptor of a video component within R665. -/
def shapeOk (d : Bytes) : Bool :=
  decide (1 ≤ fieldAt d 0 2) && decide (fieldAt d 0 2 ≤ 8192) && decide (1 ≤ fieldAt d 2 2) && decide (fieldAt d 2 2 ≤ 8192)
    && decide (fieldAt d 0x0C 1 ≤ 1) && (decide (fieldAt d 0x0D 1 ≤ 2) || fieldAt d 0x0D 1 == 0xFF)
    && (decide (fieldAt d 0x0E 1 ≤ 1) || fieldAt d 0x0E 1 == 0xFF) && decide (fieldAt d 0x0F 1 ≤ 6)
    && fieldAt d 0x28 4 == 0 && zeroAt d 0x2C 20

/-- A shape descriptor of a text component within R665. -/
def textShapeOk (d : Bytes) : Bool :=
  zeroAt d 0 4 && decide (1 ≤ fieldAt d 0x28 4) && decide (fieldAt d 0x28 4 ≤ 1048576) && zeroAt d 0x2C 20

/-- The element codes of one shaped frame (R666): none where the crop leaves the picture. -/
def shapeFrame (p : Picture) (d : Bytes) : Option (List Nat) :=
  let x0 := fieldAt d 4 2
  let y0 := fieldAt d 6 2
  let cw := if fieldAt d 8 2 = 0 then p.width else fieldAt d 8 2
  let ch := if fieldAt d 0x0A 2 = 0 then p.height else fieldAt d 0x0A 2
  if p.width < x0 + cw ∨ p.height < y0 + ch then none
  else
    let m := if fieldAt d 0x0D 1 = 0xFF then (match p.matrix with | some m => m.val | none => 1) else fieldAt d 0x0D 1
    let full := if fieldAt d 0x0E 1 = 0xFF then p.fullRange.getD false else fieldAt d 0x0E 1 == 1
    match fmtCode (fieldAt d 0x0F 1) with
    | none => none
    | some f => some ((List.range (fieldAt d 2 2)).flatMap fun oy => (List.range (fieldAt d 0 2)).flatMap fun ox =>
        (List.range 3).map fun c => (f.fmt.encode false .rne (f32Val (shapeValue p d m full x0 y0 cw ch ox oy c))).1)

/-- A coded area of a picture holds a luma sample. -/
def holdsSample (ax ay w h x y : Nat) : Bool := decide (ax ≤ x) && decide (x < ax + w) && decide (ay ≤ y) && decide (y < ay + h)

/-- The luma sample whose prediction block the entry of block (`bx`, `by_`) describes (R663). -/
def entrySample (p : Picture) (bx by_ : Nat) : Nat × Nat := (min (16 * bx + 8) (p.width - 1), min (16 * by_ + 8) (p.height - 1))

def predAt (p : Picture) (x y : Nat) : Option PredBlock := p.preds.find? fun b => holdsSample b.x b.y b.w b.h x y

/-- The vector, REF and L1 of a block entry (R663): of list 0, else of list 1; AV1 vectors, in eighth samples, are shifted right by
one and its REF is the first reference frame's index minus 1; REF -1 and a zero vector of an intra block. -/
def entryMotion (av1 : Bool) (b : Option PredBlock) : Motion × Bool :=
  let own (m : Motion) : Motion := if av1 then ⟨m.x / 2, m.y / 2, m.ref - 1⟩ else m
  match b.bind (·.l0), b.bind (·.l1) with
  | some m, _ => (own m, false)
  | none, some m => (own m, true)
  | none, none => (⟨0, 0, -1⟩, false)

/-- The blocks of 16 by 16 that a unit covers, of a picture of `bw` by `bh` blocks: every block that it reaches into (log entry 119). -/
def codedBlocks (bw bh : Nat) (u : CodingUnit) : List (Nat × Nat) :=
  let xs := (List.range bw).filter fun i => overlap (16 * i) 16 u.x u.w
  let ys := (List.range bh).filter fun i => overlap (16 * i) 16 u.y u.h
  ys.flatMap fun y => xs.map fun x => (x, y)

/-- The bins that a unit gives to a block (R664): an equal share rounded down, and the remainder to the block of its top-left sample. -/
def unitShare (bw bh : Nat) (u : CodingUnit) (bx by_ : Nat) : Nat :=
  let n := (codedBlocks bw bh u).length
  if !(codedBlocks bw bh u).contains (bx, by_) then 0
  else u.bins / n + (if u.x / 16 = bx ∧ u.y / 16 = by_ then u.bins % n else 0)

/-- CPLX of a block entry (R664). -/
def blockCplx (p : Picture) (bx by_ : Nat) : Nat :=
  min 0xFFFF (sumN (p.units.map fun u => unitShare (ceilDiv p.width 16) (ceilDiv p.height 16) u bx by_))

/-- A block entry (R662 to R664). -/
def blockEntry (av1 : Bool) (p : Picture) (bx by_ : Nat) : Bytes :=
  let (x, y) := entrySample p bx by_
  let (m, l1) := entryMotion av1 (predAt p x y)
  leBytes 2 (BitVec.ofInt 16 m.x).toNat ++ leBytes 2 (BitVec.ofInt 16 m.y).toNat ++ leBytes 1 (BitVec.ofInt 8 m.ref).toNat ++ leBytes 1 (b2n l1)
    ++ leBytes 2 (blockCplx p bx by_)

/-- A kept frame's statistics record (R662 to R664): its index, and whether metadata were cut (R661). -/
def statRecord (av1 fw : Bool) (k : Nat) (p : Picture) : Bytes × Bool :=
  let meta_ := if fw then p.metadata.take 1024 else []
  let cut := fw && decide (1024 < p.metadata.length)
  let bw := ceilDiv p.width 16
  let bh := ceilDiv p.height 16
  let h := leBytes 4 k ++ leBytes 2 (b2n (p.preds.all fun b => b.l0.isNone && b.l1.isNone) + b2n p.grain * 2 + b2n cut * 4) ++ leBytes 2 meta_.length ++ leBytes 2 bw ++ leBytes 2 bh
    ++ leBytes 4 (min 0xFFFFFFFF (sumN (p.units.map (·.bins)))) ++ leBytes 4 p.coded ++ leBytes 12 0
  let blocks := (List.range (bw * bh)).flatMap fun i => blockEntry av1 p (i % bw) (i / bw)
  (h ++ blocks ++ meta_ ++ List.replicate (padTo 8 meta_.length - meta_.length) 0, cut)

/-! ### Slots (R651, R652) -/

/-- The output components of a sample: component, kind, data, count, flags (R651). -/
def outParts (stats : Bool) (m : Sample) : List (Nat × Nat × Bytes × Nat × Nat) :=
  m.comps.flatMap fun c =>
    (c.num, c.kind, c.out, c.outCount, b2n c.trunc + b2n c.lossy * 2) ::
      (if c.kind = 1 ∧ stats then [(c.num, 4, c.stats, c.framesKept, b2n c.metaTrunc * 4)] else [])

/-- The slot of a sample (R651): header, directory, data at multiples of 2,048. -/
def slotBytes (id status ncomp seq obj done late locket : Nat) (parts : List (Nat × Nat × Bytes × Nat × Nat)) : Bytes :=
  let h := leBytes 8 id ++ leBytes 2 status ++ leBytes 2 ncomp ++ leBytes 4 seq ++ leBytes 8 obj ++ leBytes 8 done ++ leBytes 8 late
    ++ leBytes 4 locket ++ List.replicate 20 (0 : Byte)
  let first := padTo 2048 (64 + 16 * parts.length)
  let offs := parts.mapIdx fun i x => (first + sumN ((parts.take i).map fun y => padTo 2048 y.2.2.1.length), x)
  let dir := offs.flatMap fun x => leBytes 4 x.1 ++ leBytes 4 x.2.2.2.1.length ++ leBytes 4 x.2.2.2.2.1 ++ leBytes 2 x.2.1
    ++ leBytes 1 x.2.2.1 ++ leBytes 1 x.2.2.2.2.2
  let pad (n : Nat) (b : Bytes) : Bytes := b ++ List.replicate (padTo n b.length - b.length) 0
  if parts.isEmpty then h else pad 2048 (h ++ dir) ++ parts.flatMap fun x => pad 2048 x.2.2.1

/-! ### Lockets (R673, R674, R677) -/

/-- Where the runs of a slot lie: the first 2,048 bytes, then each component's data with its padding (R674). -/
def slotRuns (b : Bytes) : List (Nat × Nat) :=
  let ent (i : Nat) : Bytes := (b.drop (64 + 16 * i)).take 16
  (0, 2048) :: (List.range (fieldAt b 0x0A 2)).map fun i => (fieldAt (ent i) 0 4, padTo 2048 (fieldAt (ent i) 4 4))

/-- The ELEM and RATE of each run of a sample's slot (R674). -/
def runCodes (d : Bytes) (m : Sample) : List (Nat × Nat) :=
  (3, 1) :: m.comps.flatMap fun c =>
    (if c.kind = 1 ∧ c.outFmt ≤ 4 then (c.outFmt, pdRate d) else (3, 1)) :: (if c.kind = 1 ∧ pdStats d then [(3, 1)] else [])

/-- The stored bytes of a run. -/
def runStored (r : Nat × Nat × Nat × Nat) : Nat := r.2.2.2 / blkDecoded r.1 * blkStored r.1 r.2.1
/-- The bytes of a locket, rounded up (R674). -/
def locketSize (runs : List (Nat × Nat × Nat × Nat)) : Nat := padTo 2048 (64 + sumN (runs.map runStored))

/-- A locket of a slot (R674), the blocks it took and whether an encoder met a NaN. -/
def locketBytes (rate : Nat) (slot : Bytes) (runs : List (Nat × Nat × Nat × Nat)) : Bytes × Nat × Bool :=
  let h := slot.take 8 ++ leBytes 4 slot.length ++ leBytes 2 runs.length ++ leBytes 1 rate ++ List.replicate 45 0
  let es := runs.map fun r => encodeBlocks r.1 r.2.1 0 false ((slot.drop r.2.2.1).take r.2.2.2)
  let b := h ++ leBytes 4 (crc32c h) ++ (es.map (·.1)).flatten
  (b ++ List.replicate (padTo 2048 b.length - b.length) 0, sumN (runs.map fun r => r.2.2.2 / blkDecoded r.1), es.any (·.2))

/-- The first byte of locket data, from LOCKET_BASE (R673). -/
def locketData (d : Bytes) : Nat := padTo 65536 (16 * pdLocketMax d)

/-- A run decoded from stored bytes: its bytes, how many stored bytes and blocks it took, whether its rate is lossy; or the
block and reason that failed. ELEM and RATE stand in the first block (R431). -/
def decodeRun (b : Bytes) (n : Nat) : Except (Nat × Nat) (Bytes × Nat × Nat × Bool) :=
  let ctl := fieldAt b 1 1
  let rate := bitsOf ctl 0 3
  let elem := bitsOf ctl 3 3
  if n = 0 then .ok ([], 0, 0, false)
  else if rate = 0 ∨ 4 < rate ∨ 4 < elem then .error (0, 3)
  else
    let k := ceilDiv n (blkDecoded elem)
    let bs := decodeBlocks elem rate 0 (b.take (k * blkStored elem rate))
    match firstBad bs with
    | some e => .error e
    | none => if bs.length < k then .error (bs.length, 1) else .ok (okBytes bs, k * blkStored elem rate, k, decide (1 < rate))

/-- A locket decoded into its slot (R677), with the blocks it took; or what failed: the header, or a block with its reason. -/
def decodeLocket (b : Bytes) : Except (Option (Nat × Nat)) (Bytes × Nat) :=
  if crc32c (b.take 60) ≠ fieldAt b 60 4 then .error none
  else match decodeRun (b.drop 64) (min 2048 (fieldAt b 8 4)) with
    | .error e => .error (some e)
    | .ok (first, used, k0, _) =>
      let run (acc : Except (Option (Nat × Nat)) (Bytes × Nat × Nat)) (i : Nat) : Except (Option (Nat × Nat)) (Bytes × Nat × Nat) :=
        match acc with
        | .error e => .error e
        | .ok (slot, pos, k) =>
          let e := (first.drop (64 + 16 * i)).take 16
          match decodeRun (b.drop pos) (padTo 2048 (fieldAt e 4 4)) with
          | .error x => .error (some x)
          | .ok (data, u, k1, lossy) =>
            let slot := if lossy then putAt slot (64 + 16 * i + 15) (leBytes 1 (fieldAt e 15 1 ||| 2)) else slot
            .ok (slot ++ List.replicate (fieldAt e 0 4 - slot.length) 0 ++ data, pos + u, k + k1)
      match (List.range (fieldAt first 0x0A 2)).foldl run (.ok (first, 64 + used, k0)) with
      | .error e => .error e
      | .ok (slot, _, k) => .ok (slot, k)

end Sys2Proof.Machine
end

