-- ==== Sys2Proof/Machine/Ingest.lean ====
section
/-! DEFINITION. The commands and events of chapter 13: ingest pipelines from source objects to output slots, tokenizer
dictionaries, lockets and video encodes. -/

namespace Sys2Proof.Machine
open Sys2Proof

/-! ### Records of failure, engines, contexts -/

def pipeReg (p : Nat) : Reg := ⟨.ingPipe, 0, p⟩

/-- The first failing object since VALID was cleared (R681). -/
def pipeErr (s : State) (p ordinal : Nat) (st : Status) (stage : Nat) : State :=
  let r : Reg := ⟨.ingPipeerr, 0, p⟩
  if regBit s r 0 then regOr s r 2
  else regSet s r (ordinal % 2 ^ 32 * 2 ^ 32 + st.toNat * 2 ^ 16 + stage * 2 ^ 13 + 1)

/-- The video pairs of the dies whose engines a partition owns (R626). -/
def partPairs (s : State) (p : Nat) : List Nat := (partDies s p).flatMap fun d => [2 * d, 2 * d + 1]

def setCtx (s : State) (i : Nat) (c : Option VidCtx) : State := { s with ing := { s.ing with ctxs := Tbl.put none s.ing.ctxs i c } }
def ctxUsed (s : State) (v : Nat) : Nat := (Tbl.inRange s.ing.ctxs (64 * v) 64).length
def freeCtx (s : State) (v : Nat) : Option Nat := leastBelow 64 fun c => (Tbl.get none s.ing.ctxs (64 * v + c)).isNone

/-- The contexts that a test names are freed. -/
def dropCtxs (s : State) (f : VidCtx → Bool) : State :=
  let keep := s.ing.ctxs.filter fun e => match e.2 with | some c => !f c | none => false
  { s with ing := { s.ing with ctxs := keep } }

def ofSample (p seq : Nat) (c : VidCtx) : Bool := (match c.pipe with | some q => q.val == p | none => false) && c.sample == seq

/-! ### ING_OPEN, ING_FEED, ING_CLOSE (R627 to R632, R685) -/

/-- The areas of a pipeline: queues, picture buffers, slots, and its lockets to the end of their region (R628, R629). -/
def locketEnd (s : State) (d : Bytes) : Nat :=
  match tierRegionAt s (pdLocket d) with | some r => r.base + r.size | none => 0

def pipeAreas (s : State) (d : Bytes) : List (Nat × Nat) :=
  [(fieldAt d 0x10 8, 5 * pdQcap d), (fieldAt d 0x18 8, pdDpbLen d), (pdOut d, pdSlots d * pdSlotLen d)]
    ++ if pdLocketMax d = 0 then [] else [(pdLocket d, locketEnd s d - pdLocket d)]

def pdWantsLockets (d : Bytes) : Bool := pdLockets d || bitOf (fieldAt d 3 1) 1

def pipeOk (s : State) (d : Bytes) : Bool :=
  let p := fieldAt d 1 1
  let ks := slotAt s (pdKey d)
  let t1 (a n : Nat) : Bool := isT1 a && inFixedOf s p a n fun _ => true
  decide (fieldAt d 0 1 < 32) && partLives s p && decide (fieldAt d 2 1 ≤ 1) && decide (fieldAt d 3 1 < 16) && decide (pdKey d < 64)
    && (decide (pdDict d < 4) || pdDict d == 0xFF) && decide (1 ≤ pdRate d) && decide (pdRate d ≤ 4) && zeroAt d 7 1
    && pdQcap d % 65536 == 0 && decide (1048576 ≤ pdQcap d) && pdDpbLen d % 65536 == 0 && decide (1 ≤ pdSlots d)
    && decide (pdSlots d ≤ 65536) && pdSlotLen d % 2048 == 0 && decide (2048 ≤ pdSlotLen d) && pdLocket d % 65536 == 0
    && decide (1 ≤ pdTiles d) && decide (pdTiles d ≤ 64) && decide (pdTiles d ≤ (partAt s p).tiles.length) && zeroAt d 0x4E 2
    && (pdWantsLockets d || pdLocketMax d == 0)
    && (pipeAt s (fieldAt d 0 1)).st == .closed
    && t1 (fieldAt d 0x10 8) (5 * pdQcap d) && t1 (fieldAt d 0x18 8) (pdDpbLen d) && t1 (pdOut d) (pdSlots d * pdSlotLen d)
    && canRead s (.host (some p)) (pdShape d) 1024
    && (!pdWantsLockets d || (isT2 (pdLocket d) && inFixedOf s p (pdLocket d) (16 * pdLocketMax d) fun r => r.codec == 0))
    && apart (pipeAreas s d)
    && (!pdSealed d || (ks.current.isSome && !ks.kek && ks.part.val == p))
    && (pdDict d == 0xFF || (Tbl.get none s.ing.dicts (4 * p + pdDict d)).isSome)

def openPipes (s : State) (p : Nat) : Nat := (s.ing.pipes.filter fun e => e.2.st != .closed && e.2.part.val == p).length

def doIngOpen (cid : Nat) (s : State) : State :=
  match cmdFor s cid 0x0050 with
  | none => s
  | some c =>
    if !atRest s c (cmdPart s c) then s
    else withPayload (beginCmd s cid) c 80 fun s b =>
      let p := fieldAt b 1 1
      let n := fieldAt b 0 1
      if b.length ≠ 80 ∨ !pipeOk s b ∨ !c.may p then complete s cid stBadDescriptor
      else if (partDies s p).isEmpty ∨ 8 ≤ openPipes s p then complete s cid stNoResource
      else
        let s := modPipe s n fun _ => { st := .opened, desc := b, part := Fin.ofNat 16 p, locketAt := locketData b }
        let s := regPut s (pipeReg n) 32 32 0
        let s := if pdLocketWr b then regSet s ⟨.ingLockets, 0, n⟩ 0 else s
        complete s cid stOk

/-- ING_OPEN (R626 to R631, R680). -/
def execIngOpen (cid : Nat) (s : State) : Res := done s (doIngOpen cid s)

/-- A source entry of R632. -/
def srcOk (lockets : Bool) (e : Bytes) : Bool :=
  zeroAt e 0x18 8 && (if lockets then zeroAt e 4 4 && fieldAt e 8 8 == 0 else decide (32 ≤ fieldAt e 8 8))

def doIngFeed (cid : Nat) (s : State) : State :=
  match cmdFor s cid 0x0051 with
  | none => s
  | some c => withPayload (beginCmd s cid) c 32 fun s b =>
      let n := c.byte 0
      let x := pipeAt s n
      let es := pieces 32 b
      if 32 ≤ n ∨ x.st ≠ .opened ∨ !c.may x.part.val ∨ b.length % 32 ≠ 0 ∨ 4096 < es.length ∨ !(es.all (srcOk (pdLockets x.desc))) then
        complete s cid stBadDescriptor
      else if 65536 < x.entries.length + es.length then complete s cid stNoResource
      else
        let add := es.mapIdx fun i e => ⟨fieldAt e 0 8, fieldAt e 8 8, fieldAt e 0x10 8, (x.feedNext + i) % 2 ^ 32⟩
        complete (modPipe s n fun x => { x with entries := x.entries ++ add, feedNext := x.feedNext + es.length }) cid stOk

/-- ING_FEED (R627, R632): INLINE byte 0 names the pipeline (log entry 62). -/
def execIngFeed (cid : Nat) (s : State) : Res := done s (doIngFeed cid s)

/-- A pipeline closes (R685): what has not reached a slot is dropped, ready slots not taken are discarded, and its contexts
are free. -/
def closePipe (s : State) (n : Nat) (cid : Option Nat) : State :=
  let s := dropCtxs s fun c => match c.pipe with | some q => q.val == n | none => false
  modPipe s n fun x =>
    let keep := (x.slots.filter fun u => u.taken || u.locketOwed).map fun u => if u.taken then u else { u with given := true }
    { x with st := .closing, closeCid := cid, entries := [], sealed_ := [], parse := [], current := none, samples := [], ready := []
             slots := keep }

def doIngClose (cid : Nat) (s : State) : State :=
  match cmdFor s cid 0x0052 with
  | none => s
  | some c =>
    if !atRest s c (cmdPart s c) then s
    else
      let n := c.byte 0
      let x := pipeAt s n
      let s := beginCmd s cid
      if 32 ≤ n ∨ x.st ≠ .opened ∨ !c.may x.part.val then complete s cid stBadDescriptor
      else closePipe s n (some cid)

/-- ING_CLOSE (R685): INLINE byte 0 names the pipeline (log entry 62). -/
def execIngClose (cid : Nat) (s : State) : Res := done s (doIngClose cid s)

def doIngCloseComplete (p : PipeId) (s : State) : State :=
  let x := pipeAt s p.val
  if x.st ≠ .closing ∨ !x.locketDue.isEmpty then s
  else
    let s := modPipe s p.val fun x => { x with st := .closed, closeCid := none }
    match x.closeCid with
    | some cid => complete s cid stOk
    | none => s

/-- ING_CLOSE_COMPLETE (R685). -/
def execIngCloseComplete (p : PipeId) (s : State) : Res := done s (doIngCloseComplete p s)

/-- A die's engines leave a partition (R686): components on its pairs and its tokenizer end with NO_RESOURCE, and a pipeline
without dies closes. -/
def loseEngines (s : State) (p : Nat) (lost : List Nat) : State :=
  forEach ((s.ing.pipes.filter fun e => e.2.st == .opened && e.2.part.val == p).map (·.1)) s fun s n =>
    let s := modPipe s n fun x =>
      let samples := x.samples.map fun m =>
        let comps := m.comps.map fun c => match c.pair with
          | some v => if lost.contains (v.val / 2) && !c.decoded then { c with status := stNoResource, stage := 3 } else c
          | none => c
        { m with comps }
      { x with samples }
    let s := { s with ing := { s.ing with ctxs := s.ing.ctxs.filter fun e => match e.2 with
        | some c => !((match c.pipe with | some q => q.val == n | none => false) && lost.contains (e.1 / 128))
        | none => false } }
    if (partDies s p).isEmpty then closePipe s n none else s

/-! ### FETCH (R633, R634, R677) -/

/-- An object ends in a stage with a status before PARSE has all of it. -/
def endObject (x : Pipe) (e : SrcEntry) (st : Status) : Pipe :=
  if x.parse.any fun q => q.1.ordinal == e.ordinal then
    { x with parse := x.parse.map fun q => if q.1.ordinal = e.ordinal then (q.1, q.2.1, q.2.2.1, some st) else q }
  else { x with parse := x.parse ++ [(e, [], false, some st)] }

/-- The sample of a locket: its slot as the locket has it, or what ended it (R677). -/
def locketSample (x : Pipe) (e : SrcEntry) (id i : Nat) (r : Except Status Bytes) : Pipe :=
  let m : Sample := { id, seq := x.sampleNext, obj := e.obj, entry := e.ordinal, admitted := true, stage := 0, locket := some i }
  let m := match r with | .ok b => { m with raw := b } | .error st => { m with status := st }
  { x with samples := x.samples ++ [m], sampleNext := (x.sampleNext + 1) % 2 ^ 32 }

/-- A locket read and decoded through BC0 (R677, R439, R464, R465). -/
def fetchLocket (s0 : State) (p : Nat) (x : Pipe) (e : SrcEntry) : State :=
  let d := x.desc
  let i := e.addr % 2 ^ 32
  let fin (s : State) (id : Nat) (r : Except Status Bytes) : State :=
    modPipe s p fun x => locketSample { x with entries := x.entries.drop 1 } e id i r
  let noId (s : State) (st : Status) : State :=
    let (k, s) := takeFree s
    fin s (Config.freeWord k).toNat (.error st)
  if regGet s0 ⟨.ingLockets, 0, p⟩ ≤ i then noId s0 stBadDescriptor
  else match readMem s0 .device (pdLocket d + 16 * i) 16 with
    | (.wait, _, _) => s0
    | (.ok, ie, s) =>
      let id := fieldAt ie 0 8
      match readMem s .device (pdLocket d + 2048 * fieldAt ie 8 4) (fieldAt ie 12 4) with
      | (.wait, _, _) => s0
      | (.ok, b, s) =>
        match decodeLocket b with
        | .ok (slot, k) => fin (codecDone s (bc0 (pdLocket d)) k false) id (.ok slot)
        | .error none => fin s id (.error stCheckFail)
        | .error (some (blk, why)) => fin (codecFail s (bc0 (pdLocket d)) blk why) id (.error stCheckFail)
      | (_, _, s) => fin s id (.error stTierFail)
    | (_, _, s) => noId s stTierFail

def doFetchObjectRead (p : PipeId) (r : ReadResult) (s : State) : State :=
  let x := pipeAt s p.val
  match x.st, x.entries with
  | .opened, e :: es =>
    if pdLockets x.desc then fetchLocket s p.val x e
    else match r with
      | .error => pipeErr (modPipe s p.val fun x => endObject { x with entries := es } e stBadDescriptor) p.val e.ordinal stBadDescriptor 0
      | .bytes b =>
        if b.length ≠ e.length then s
        else modPipe s p.val fun x =>
          if pdSealed x.desc then { x with entries := es, sealed_ := x.sealed_ ++ [(e, b, 0)] }
          else { x with entries := es, parse := x.parse ++ [(e, b, false, some stOk)] }
  | _, _ => s

/-- FETCH_OBJECT_READ (R633, R677, R681): the oldest entry's read completes with the object's bytes, or with an error; a
locket is read from its area. -/
def execFetchObjectRead (p : PipeId) (r : ReadResult) (s : State) : Res := done s (doFetchObjectRead p r s)

def doFetchTimeout (p : PipeId) (s : State) : State :=
  let x := pipeAt s p.val
  match x.st, x.entries with
  | .opened, e :: es =>
    if pdLockets x.desc then s
    else pipeErr (modPipe s p.val fun x => endObject { x with entries := es } e stHostStall) p.val e.ordinal stHostStall 0
  | _, _ => s

/-- FETCH_TIMEOUT (R634). -/
def execFetchTimeout (p : PipeId) (s : State) : Res := done s (doFetchTimeout p s)

/-! ### DECRYPT (R638 to R640) -/

/-- The framing of a segment holds (R638, R640). -/
def segmentOk (b : Bytes) (n : Nat) : Bool :=
  let len := fieldAt b 4 4
  decide (48 + len ≤ b.length) && fieldAt b 0 4 == 0x47534C52 && decide (1 ≤ len) && decide (len ≤ 65536) && fieldAt b 0x14 4 == n
    && decide (fieldAt b 0x18 4 ≤ 1) && zeroAt b 0x1C 4

/-- A segment opened: its plaintext, the bytes after it, whether it is the LAST; or the status that ends the object. -/
def openSegment (key : Except Status Key) (b : Bytes) (n : Nat) : Except Status (Bytes × Bytes × Bool) :=
  let len := fieldAt b 4 4
  if !segmentOk b n then .error stCheckFail
  else match key with
    | .error st => .error st
    | .ok k =>
      match Config.gcmOpen k.key ((b.drop 8).take 12) (b.take 32) ((b.drop 32).take len) ((b.drop (32 + len)).take 16) with
      | none => .error stAuthFail
      | some pt => .ok (pt, b.drop (48 + len), fieldAt b 0x18 4 == 1)

/-- Plaintext that DECRYPT passes to PARSE. -/
def passBytes (x : Pipe) (e : SrcEntry) (b : Bytes) (ended : Option Status) : Pipe :=
  if x.parse.any fun q => q.1.ordinal == e.ordinal then
    { x with parse := x.parse.map fun q => if q.1.ordinal = e.ordinal then (q.1, q.2.1 ++ b, q.2.2.1, ended) else q }
  else { x with parse := x.parse ++ [(e, b, false, ended)] }

def doSegmentDecrypt (p : PipeId) (d : Die) (s : State) : State :=
  let x := pipeAt s p.val
  match x.st, x.sealed_ with
  | .opened, (e, b, n) :: rest =>
    if !(partDies s x.part.val).contains d.val then s
    else
      let key := keyUse s (pdKey x.desc) x.part.val
      let opens := segmentOk b n && match key with | .ok _ => true | .error _ => false
      if opens && !engineRoom s d.val then s
      else
      let s := if opens then bindKey s d.val (pdKey x.desc) else s
      let fail (x : Pipe) (st : Status) : State :=
        pipeErr (modPipe s p.val fun _ => endObject { x with sealed_ := rest } e st) p.val e.ordinal st 1
      match openSegment key b n with
      | .error st => fail x st
      | .ok (pt, left, last) =>
        if last then
          if left.isEmpty then modPipe s p.val fun x => passBytes { x with sealed_ := rest } e pt (some stOk)
          else fail (passBytes x e pt none) stCheckFail
        else if left.isEmpty then fail (passBytes x e pt none) stCheckFail
        else modPipe s p.val fun x => passBytes { x with sealed_ := (e, left, n + 1) :: rest } e pt none
  | _, _ => s

/-- SEGMENT_DECRYPT (R638 to R640, R681, R823, R824): the die's engine, when it has room, admits the next segment, which binds its key
and is opened, or ends its object. -/
def execSegmentDecrypt (p : PipeId) (d : Die) (s : State) : Res := done s (doSegmentDecrypt p d s)

/-! ### PARSE (R641 to R646) -/

/-- The sample being assembled ends with a status, already logged with its object or not. -/
def cutSample (x : Pipe) (st : Status) (logged : Bool) : Pipe :=
  match x.current with
  | none => x
  | some m => { x with current := none, samples := x.samples ++ [{ m with status := st, stage := 2, logged }] }

/-- An object ends: the sample it was in the midst of ends too (R646). -/
def objectDone (x : Pipe) (st : Status) : Pipe :=
  cutSample { x with parse := x.parse.drop 1 } (if st = stOk then stCheckFail else st) (st != stOk)

/-- A component that no engine takes, or that cannot pass its queue (R636, R644, R656, R665). -/
def checkComp (d : Bytes) (c : Comp) : Comp :=
  if pdQcap d < c.bits.length then { c with status := stNoResource, stage := 2 }
  else if (c.kind = 1 ∧ ¬ (1 ≤ c.codec ∧ c.codec ≤ 3)) ∨ (c.kind = 3 ∧ (fmtCode c.fmt).isNone) ∨ 16 ≤ c.shape then
    { c with status := stBadDescriptor, stage := 2 }
  else c

/-- A record that PARSE accepts takes its place in the pipeline's samples. -/
def takeRecord (x : Pipe) (e : SrcEntry) : Rec → Pipe
  | .skip => x
  | .sample id n at_ na =>
    let x := cutSample x stCheckFail false
    { x with
      current := some { id, seq := x.sampleNext, obj := e.obj, entry := e.ordinal, at_, notAfter := na, expectComps := n }
      sampleNext := (x.sampleNext + 1) % 2 ^ 32 }
  | .comp id c =>
    match x.current with
    | none => x
    | some m =>
      if id ≠ m.id ∨ c.num ≠ m.comps.length then cutSample x stCheckFail false
      else
        let m := { m with comps := m.comps ++ [checkComp x.desc c] }
        if m.comps.length = m.expectComps then { x with current := none, samples := x.samples ++ [m] } else { x with current := some m }

def fileHeaderOk (b : Bytes) : Bool :=
  fieldAt b 0 4 == 0x31435252 && fieldAt b 4 2 == 1 && zeroAt b 6 2 && zeroAt b 0x10 12 && fieldAt b 0x1C 4 == crc32c (b.take 0x1C)

def doRecordParse (p : PipeId) (s : State) : State :=
  let x := pipeAt s p.val
  match x.st, x.parse with
  | .opened, (e, b, checked, ended) :: rest =>
    let fail : State := pipeErr (modPipe s p.val fun x => objectDone x stCheckFail) p.val e.ordinal stCheckFail 2
    let fail := { fail with ing := { fail.ing with pipes := Tbl.upd {} fail.ing.pipes p.val fun y =>
      { y with sealed_ := y.sealed_.filter fun q => q.1.ordinal != e.ordinal } } }
    let short : State := match ended with
      | none => s
      | some st => if st = stOk then fail else modPipe s p.val fun x => objectDone x st
    if !checked then
      if b.length < 32 then short
      else if !fileHeaderOk b then fail
      else modPipe s p.val fun x => { x with parse := (e, b.drop 32, true, ended) :: rest }
    else if b.isEmpty then
      match ended with
      | none => s
      | some st => modPipe s p.val fun x => objectDone x st
    else if b.length < 16 then short
    else
      let len := fieldAt b 0 4
      let size := 16 + padTo 8 len
      if 67108864 < len ∨ !zeroAt b 12 4 then fail
      else if b.length < size then short
      else
        let payload := (b.drop 16).take len
        if crc32c (b.take 8 ++ payload) ≠ fieldAt b 8 4 then fail
        else match parseRecord (pdHdrFw x.desc) (fieldAt b 4 4) payload with
          | none => fail
          | some r => modPipe s p.val fun x => takeRecord { x with parse := (e, b.drop size, true, ended) :: rest } e r
  | _, _ => s

/-- RECORD_PARSE (R636, R641 to R646, R681): the file header or the next record of the oldest object is checked and taken;
an object whose check fails ends. -/
def execRecordParse (p : PipeId) (s : State) : Res := done s (doRecordParse p s)

/-! ### Admission to DECODE (R649, R659) -/

/-- The first sample that a test names is changed. -/
def modFirst (l : List Sample) (f : Sample → Bool) (g : Sample → Sample) : List Sample :=
  match l with
  | [] => []
  | m :: ms => if f m then g m :: ms else m :: modFirst ms f g

def modSample (s : State) (p seq : Nat) (g : Sample → Sample) : State :=
  modPipe s p fun x => { x with samples := modFirst x.samples (fun m => m.seq == seq) g }

def modComp (s : State) (p seq num : Nat) (g : Comp → Comp) : State :=
  modSample s p seq fun m => { m with comps := m.comps.map fun c => if c.num = num then g c else c }

def doSampleAdmit (p : PipeId) (s : State) : State :=
  match (pipeAt s p.val).samples.find? fun m => !m.admitted && m.status == stOk with
  | none => s
  | some m =>
    let due := match m.at_ with | some a => decide (a ≤ s.now) | none => true
    let gone := match m.notAfter with | some a => decide (a < s.now) | none => false
    if !due then s
    else if gone then modSample s p.val m.seq fun m => { m with status := stExpired, stage := 3 }
    else modSample s p.val m.seq fun m => match m.at_ with
      | some a => { m with admitted := true, late := m.late || decide (a < s.now), lateNs := max m.lateNs (s.now - a) }
      | none => { m with admitted := true }

/-- SAMPLE_ADMIT (R649, R650): the oldest sample not admitted is admitted once its AT has come, or expires. -/
def execSampleAdmit (p : PipeId) (s : State) : Res := done s (doSampleAdmit p s)

/-- The first component of the admitted samples that a test names. -/
def firstComp (x : Pipe) (f : Comp → Bool) : Option (Sample × Comp) :=
  x.samples.findSome? fun m =>
    if m.admitted && m.status == stOk then (m.comps.find? fun c => c.status == stOk && f c).map fun c => (m, c) else none

/-- Picture buffer in use by a pipeline (R659). -/
def dpbUsed (x : Pipe) : Nat :=
  sumN (x.samples.flatMap fun m => m.comps.map fun c =>
    if c.pair.isSome && !c.decoded && c.status == stOk then Config.dpbBytes c.codec c.bits else 0)

/-- The pair with the most free contexts, the lower number on a tie; none while every pair is full. -/
def bestPair (s : State) (vs : List Nat) : Option Nat :=
  vs.foldl (fun best v =>
    if 64 ≤ ctxUsed s v then best
    else match best with
      | none => some v
      | some w => if ctxUsed s v < ctxUsed s w then some v else some w) none

def doComponentAdmit (p : PipeId) (s : State) : State :=
  let x := pipeAt s p.val
  match firstComp x fun c => c.kind == 1 && c.pair.isNone && !c.decoded with
  | none => s
  | some (m, c) =>
    let need := Config.dpbBytes c.codec c.bits
    if pdDpbLen x.desc < need then modComp s p.val m.seq c.num fun c => { c with status := stNoResource, stage := 3 }
    else if pdDpbLen x.desc < dpbUsed x + need then s
    else match bestPair s (partPairs s x.part.val) with
      | none => s
      | some v =>
        match freeCtx s v with
        | none => s
        | some k =>
          let s := setCtx s (64 * v + k) (some ⟨some p, m.seq, c.num, none, !dispatchHeld s⟩)
          modComp s p.val m.seq c.num fun c => { c with pair := some (Fin.ofNat 16 v), ctx := k }

/-- COMPONENT_ADMIT (R659): the oldest waiting video component takes a context on the pair with the most free ones. -/
def execComponentAdmit (p : PipeId) (s : State) : Res := done s (doComponentAdmit p s)

/-! ### DECODE (R655 to R664, R668 to R672) -/

/-- A picture of a supported stream: 8 or 10 bits, 4:2:0 or monochrome, planes of its size, no coding unit empty, and a prediction
block wherever a block entry is taken (R656, R663). -/
def pictureOk (p : Picture) : Bool :=
  let cn := if p.mono then 0 else (p.width + 1) / 2 * ((p.height + 1) / 2)
  (p.depth == 8 || p.depth == 10) && decide (1 ≤ p.width) && decide (1 ≤ p.height) && p.luma.length == p.width * p.height
    && p.cb.length == cn && p.cr.length == cn && (p.luma ++ p.cb ++ p.cr).all (fun v => decide (v < 2 ^ p.depth))
    && (p.units.all fun u => decide (1 ≤ u.w) && decide (1 ≤ u.h)) && decide (p.coded < 2 ^ 32)
    && (List.range (ceilDiv p.width 16)).all fun bx => (List.range (ceilDiv p.height 16)).all fun by_ =>
      (predAt p (entrySample p bx by_).1 (entrySample p bx by_).2).isSome

/-- A frame of a pair has ended. While dispatch is held the pair begins no other (R64). -/
def frameDone (s : State) (v : Nat) : State :=
  if dispatchHeld s then
    { s with ing := { s.ing with ctxs := s.ing.ctxs.map fun e =>
        if e.1 / 64 = v then (e.1, e.2.map fun c => { c with frame := false }) else e } }
  else s

def vidReg (v : Nat) : Reg := ⟨.vidStat, v, 0⟩

/-- A component's context is freed and its state changed. -/
def leaveCtx (s : State) (v k p seq num : Nat) (g : Comp → Comp) : State := modComp (setCtx s (64 * v + k) none) p seq num g

def doFrameDecodeDone (v : PairId) (ctx : Fin 64) (r : FrameResult) (s : State) : State :=
  match Tbl.get none s.ing.ctxs (64 * v.val + ctx.val) with
  | none => s
  | some vc =>
    match vc.pipe with
    | none => s
    | some p =>
      let x := pipeAt s p.val
      match x.samples.find? fun m => m.seq == vc.sample with
      | none => s
      | some m =>
        match m.comps.find? fun c => c.num == vc.comp with
        | none => s
        | some c =>
          let s1 := { s with ing := { s.ing with lastCtx := Tbl.put 0 s.ing.lastCtx v.val ctx.val } }
          match r with
          | .damaged =>
            leaveCtx (regAddSat s1 (vidReg v.val) 16 8 1) v.val ctx.val p.val m.seq c.num fun c => { c with status := stCheckFail, stage := 3 }
          | .refusedStream => leaveCtx s1 v.val ctx.val p.val m.seq c.num fun c => { c with status := stBadDescriptor, stage := 3 }
          | .picture pic =>
            if !pictureOk pic ∨ vc.frame = false then s
            else
              let s := regAddWrap (frameDone s1 v.val) (vidReg v.val) 32 32 1
              if c.framesSeen < c.firstFrame then modComp s p.val m.seq c.num fun c => { c with framesSeen := c.framesSeen + 1 }
              else
                let k := c.framesKept
                let st := if pdStats x.desc then statRecord (c.codec == 3) c.hdrFw k pic else ([], false)
                let fns := pdFrameNs x.desc
                let slotEnd := match m.at_ with | some a => if fns = 0 then none else some (a + (k + 1) * fns) | none => none
                let lateBy := match slotEnd with | some t => s.now - t | none => 0
                let s := if lateBy = 0 then s
                  else regAddSat (modSample s p.val m.seq fun m => { m with late := true, lateNs := max m.lateNs lateBy }) (vidReg v.val) 24 8 1
                let g (c : Comp) : Comp :=
                  { c with framesSeen := c.framesSeen + 1, framesKept := k + 1, frames := c.frames ++ [pic], stats := c.stats ++ st.1
                           metaTrunc := c.metaTrunc || st.2, decoded := decide (c.count ≤ k + 1) }
                if c.count ≤ k + 1 then leaveCtx s v.val ctx.val p.val m.seq c.num g else modComp s p.val m.seq c.num g

/-- FRAME_DECODE_DONE (R64, R650, R655 to R664, R683): a context's next picture in output order, or what ends its component.
While dispatch is held a pair finishes the one frame it has begun. -/
def execFrameDecodeDone (v : PairId) (ctx : Fin 64) (r : FrameResult) (s : State) : Res := done s (doFrameDecodeDone v ctx r s)

/-- A component's shape descriptor (R665). -/
def shapeDesc (s : State) (d : Bytes) (i : Nat) : Acc × Bytes × State := readMem s .device (pdShape d + 64 * i) 64

/-- A component ends with a status in a stage. -/
def compFails (s : State) (p seq num : Nat) (st : Status) (stage : Nat) : State :=
  modComp s p seq num fun c => { c with status := st, stage }

/-- The copy of a dictionary on a die. -/
def dictPlace (x : Dict) (d : Nat) : Option (Nat × Nat) := x.places.find? fun e => tileDie e.1 == d

def doTextTokenize (p : PipeId) (d : Die) (s0 : State) : State :=
  let x := pipeAt s0 p.val
  match firstComp x fun c => c.kind == 2 && !c.decoded with
  | none => s0
  | some (m, c) =>
    if !(partDies s0 x.part.val).contains d.val then s0
    else match Tbl.get none s0.ing.dicts (4 * x.part.val + pdDict x.desc), pdDict x.desc == 0xFF with
      | some k, false =>
        match dictPlace k d.val, shapeDesc s0 x.desc c.shape with
        | some (t, off), (.ok, sd, s) =>
          if !textShapeOk sd then compFails s p.val m.seq c.num stBadDescriptor 4
          else match readMem s .device (strataAddr t off) (16 * fieldAt k.header 0x0C 4) with
            | (.ok, a, s) =>
              let u := utf8Repair c.bits.length c.bits
              let opt (v : Nat) : List Nat := if v = 0xFFFFFFFF then [] else [v]
              let ts := opt (fieldAt k.header 0x10 4) ++ tokens a u.1.length u.1 ++ opt (fieldAt k.header 0x14 4)
              let top := fieldAt sd 0x28 4
              let kept := ts.take top
              let out := (kept ++ List.replicate (top - kept.length) (fieldAt k.header 0x18 4)).flatMap (leBytes 4)
              modComp (regAddSat s ⟨.tokStat, d.val, 0⟩ 8 24 u.2) p.val m.seq c.num fun c =>
                { c with out, outCount := kept.length, trunc := decide (top < ts.length), decoded := true, shaped := true }
            | (.wait, _, _) => s0
            | (_, _, s) => compFails s p.val m.seq c.num stTierFail 3
        | some _, (.wait, _, _) => s0
        | some _, (_, _, s) => compFails s p.val m.seq c.num stTierFail 4
        | none, _ => s0
      | _, _ => compFails s0 p.val m.seq c.num stBadDescriptor 3

/-- TEXT_TOKENIZE (R671, R672, R684): the tokenizer of a die turns the oldest text component into its tensor. -/
def execTextTokenize (p : PipeId) (d : Die) (s : State) : Res := done s (doTextTokenize p d s)

/-! ### SHAPE (R665 to R667) -/

/-- A RAW component's elements (R667). -/
def rawCount (c : Comp) : Option Nat :=
  match fmtCode c.fmt with
  | some f => if c.bits.length * 8 % f.fmt.bits = 0 then some (c.bits.length * 8 / f.fmt.bits) else none
  | none => none

/-- A frame's codes join its component; after the last kept frame its data is whole. -/
def addFrame (fc : Nat) (codes : List Nat) (c : Comp) : Comp :=
  let c := { c with codes := c.codes ++ codes, outFmt := fc, frames := c.frames.drop 1 }
  if c.decoded && c.frames.isEmpty then
    match fmtCode fc with
    | some f => { c with shaped := true, out := f.fmt.packAll c.codes, outCount := c.count, codes := [] }
    | none => c
  else c

def doShapeItem (p : PipeId) (s0 : State) : State :=
  let x := pipeAt s0 p.val
  if dispatchHeld s0 then s0
  else match firstComp x fun c => !c.shaped && ((c.kind == 1 && !c.frames.isEmpty) || c.kind == 3) with
    | none => s0
    | some (m, c) =>
      if c.kind = 3 then
        match rawCount c with
        | none => compFails s0 p.val m.seq c.num stCheckFail 4
        | some n => modComp s0 p.val m.seq c.num fun c => { c with out := c.bits, outCount := n, shaped := true }
      else
        match shapeDesc s0 x.desc c.shape, c.frames with
        | (.ok, sd, s), pic :: _ =>
          match shapeOk sd, shapeFrame pic sd with
          | true, some codes => modComp s p.val m.seq c.num (addFrame (fieldAt sd 0x0F 1) codes)
          | _, _ => compFails s p.val m.seq c.num stBadDescriptor 4
        | (.wait, _, _), _ => s0
        | (_, _, s), _ => compFails s p.val m.seq c.num stTierFail 4

/-- SHAPE_ITEM (R665 to R667, R686): the oldest decoded frame is shaped, or the oldest raw component passes; none while
dispatch is held. -/
def execShapeItem (p : PipeId) (s : State) : Res := done s (doShapeItem p s)

/-! ### TENSORISE (R648 to R654, R673 to R677) -/

/-- How a sample ends, once that is settled: its own status, that of its first failing component in COMP order, or OK. -/
def sampleEnd (m : Sample) : Option (Status × Nat) :=
  if m.status ≠ stOk then some (m.status, m.stage)
  else if !m.admitted then none
  else match m.comps.find? fun c => c.status != stOk || !c.shaped with
    | none => some (if m.late then stOkLate else stOk, 5)
    | some c => if c.status ≠ stOk then some (c.status, c.stage) else none

/-- The next free slot, in increasing index, cyclically (R654). -/
def nextFree (x : Pipe) : Option Nat :=
  ((List.range (min (pdSlots x.desc) (x.slots.length + 1))).map fun i => (x.slotNext + i) % pdSlots x.desc).find? fun i =>
    !(x.slots.any fun u => u.index == i)

/-- The locket that a sample's slot will have (R673 to R675); none where it does not fit or none is asked. -/
def planLocket (s : State) (x : Pipe) (m : Sample) (slot : Bytes) (idx : Nat) : Option LocketDue :=
  let runs := ((runCodes x.desc m).zip (slotRuns slot)).map fun r => (r.1.1, r.1.2, r.2.1, r.2.2)
  if !pdLocketWr x.desc then none
  else if pdLocketMax x.desc ≤ x.locketNext ∨ locketEnd s x.desc < pdLocket x.desc + x.locketAt + locketSize runs then none
  else some ⟨idx, x.locketNext, x.locketAt, m.entry, runs⟩

/-- The bytes of a slot that TENSORISE writes: those of a locket with its own SEQ, DONE_TIME, LATE_NS and LOCKET (R677), or
the header and components of R651. -/
def slotFor (s : State) (x : Pipe) (m : Sample) (st : Status) (locket : Nat) : Bytes :=
  match m.locket with
  | some i => putAt (putAt (putAt m.raw 0x0C (leBytes 4 m.seq)) 0x18 (leBytes 8 s.now ++ leBytes 8 0)) 0x28 (leBytes 4 i)
  | none =>
    let parts := outParts (pdStats x.desc) m
    slotBytes m.id st.toNat parts.length m.seq m.obj s.now (if st = stOkLate then m.lateNs else 0) locket parts

/-- A failed sample's slot: its header alone (R648). -/
def failedSlot (s : State) (m : Sample) (st : Status) : Bytes :=
  slotBytes m.id st.toNat 0 m.seq m.obj s.now 0 (match m.locket with | some i => i | none => 0xFFFFFFFF) []

/-- A slot is ready with a status (R648, R653, R680, R681). -/
def readySlot (s : State) (p : Nat) (m : Sample) (idx : Nat) (st : Status) (stage : Nat) (due : Option LocketDue) : State :=
  let s := dropCtxs s (ofSample p m.seq)
  let s := modPipe s p fun x =>
    { x with
      samples := removeFirst (fun y => y.seq == m.seq) x.samples
      ready := x.ready ++ [idx]
      slots := x.slots ++ [⟨idx, false, due.isSome, false⟩]
      slotNext := (idx + 1) % pdSlots x.desc
      locketDue := x.locketDue ++ due.toList
      locketNext := x.locketNext + due.toList.length
      locketAt := x.locketAt + sumN (due.toList.map fun d => locketSize d.runs) }
  let s := regAddWrap s (pipeReg p) 32 32 1
  if isSuccess st then s
  else
    let s := regAddSat s (pipeReg p) 16 16 1
    if m.logged then s else pipeErr s p m.entry st stage

/-- A failed sample's slot, written as far as its write succeeds. -/
def failSlot (s0 : State) (p : Nat) (x : Pipe) (m : Sample) (idx : Nat) (st : Status) (stage : Nat) : State :=
  match writeMem s0 .device (slotAddr x.desc idx) (failedSlot s0 m st) with
  | (.wait, s1) => stillWaits s0 s1
  | (_, s) => readySlot s p m idx st stage none

def doSlotReady (p : PipeId) (s : State) : State :=
  let x := pipeAt s p.val
  match x.st, x.samples.findSome? (fun m => (sampleEnd m).map fun e => (m, e)), nextFree x with
  | .opened, some (m, st, stage), some idx =>
    if !isSuccess st then failSlot s p.val x m idx st stage
    else
      let due := if m.locket.isSome then none else planLocket s x m (slotFor s x m st 0) idx
      let b := slotFor s x m st (match due with | some d => d.index | none => 0xFFFFFFFF)
      if pdSlotLen x.desc < b.length then failSlot s p.val x m idx stNoResource 5
      else match writeMem s .device (slotAddr x.desc idx) b with
        | (.wait, s1) => stillWaits s s1
        | (.ok, s) =>
          let s := if pdLocketWr x.desc && due.isNone then regOr s (pipeReg p.val) 16 else s
          readySlot s p.val m idx st stage due
        | _ => failSlot s p.val x m idx stTierFail 5
  | _, _, _ => s

/-- SLOT_READY (R648 to R654, R676, R677, R680): the oldest sample that has ended takes the next free slot. -/
def execSlotReady (p : PipeId) (s : State) : Res := done s (doSlotReady p s)

/-- A slot's locket has been read: a slot given back meanwhile is free (R676). -/
def locketRead (x : Pipe) (idx : Nat) : Pipe :=
  { x with locketDue := x.locketDue.drop 1
           slots := (x.slots.filter fun u => !(u.index == idx && u.given)).map fun u =>
             if u.index = idx then { u with locketOwed := false } else u }

def doLocketWrite (p : PipeId) (s0 : State) : State :=
  let x := pipeAt s0 p.val
  match x.locketDue with
  | [] => s0
  | d :: _ =>
    let len := maxN (d.runs.map fun r => r.2.2.1 + r.2.2.2)
    match readMem s0 .device (slotAddr x.desc d.slot) len with
    | (.wait, _, _) => s0
    | (a, slot, s) =>
      let (b, k, nan) := locketBytes (pdRate x.desc) slot d.runs
      let entry := slot.take 8 ++ leBytes 4 (d.off / 2048) ++ leBytes 4 b.length
      let w : Acc × State := if a ≠ .ok then (a, s) else
        match writeMem s .device (pdLocket x.desc + d.off) b 3 with
        | (.ok, s) => writeMem s .device (pdLocket x.desc + 16 * d.index) entry 3
        | y => y
      match w with
      | (.wait, s1) => stillWaits s0 s1
      | (.ok, s) =>
        let s := codecDone (modPipe s p.val fun x => locketRead x d.slot) (bc0 (pdLocket x.desc)) k nan
        if regGet s ⟨.ingLockets, 0, p.val⟩ = d.index then regSet s ⟨.ingLockets, 0, p.val⟩ (d.index + 1) else s
      | (_, s) => pipeErr (modPipe s p.val fun x => locketRead x d.slot) p.val d.entry stTierFail 5

/-- LOCKET_WRITE (R673 to R676, R682): the oldest locket owed is coded through BC0 and written, then its index entry. -/
def execLocketWrite (p : PipeId) (s : State) : Res := done s (doLocketWrite p s)

/-! ### INGEST_TAKE and INGEST_GIVE (R653, R676, R686) -/

/-- The pipeline that a newt names in g4, where its partition holds it. -/
def takePipe (s : State) (u : Nat) : Option Nat :=
  match (tileAt s u).part with
  | none => none
  | some p =>
    let n := gNum s u 4
    if n < 32 ∧ (pipeAt s n).st ≠ .closed ∧ (pipeAt s n).part = p then some n else none

def doIngestTake (t : TileId) (s : State) : State :=
  let u := liveTile s t.toNat
  if !atWord s u 14 then s
  else match takePipe s u with
    | none => newtFault s u 0x09 0 false
    | some n =>
      match (pipeAt s n).ready with
      | [] => parkAt s u .ingest
      | i :: rest =>
        let a := slotAddr (pipeAt s n).desc i
        let s := modPipe s n fun x =>
          { x with ready := rest, slots := x.slots.map fun k => if k.index = i then { k with taken := true } else k }
        modTile s u fun x => libReturn (setG (setG x 6 (BitVec.ofNat 64 a)) 7 (BitVec.ofNat 64 i))

/-- INGEST_TAKE (R653): the calling newt takes the oldest ready slot, or waits for one. -/
def execIngestTake (t : TileId) (s : State) : Res := done s (doIngestTake t s)

def doIngestGive (t : TileId) (s : State) : State :=
  let u := liveTile s t.toNat
  if !atWord s u 15 then s
  else
    let n := gNum s u 4
    let i := gNum s u 5
    let x := pipeAt s n
    if 32 ≤ n ∨ (tileAt s u).part ≠ some x.part then newtFault s u 0x09 0 false
    else if !(x.slots.any fun k => k.index == i && k.taken && !k.given) then newtFault s u 0x08 0 false
    else
      let slots := (x.slots.filter fun k => !(k.index == i && !k.locketOwed)).map fun k => if k.index = i then { k with given := true } else k
      modTile (modPipe s n fun x => { x with slots }) u libReturn

/-- INGEST_GIVE (R653, R676, R686): a taken slot returns to TENSORISE. -/
def execIngestGive (t : TileId) (s : State) : Res := done s (doIngestGive t s)

def doIngPipeerrWrite (p : PipeId) (v hw : W64) (s : State) : State := logWrite s ⟨.ingPipeerr, 0, p.val⟩ v.toNat hw.toNat

/-- ING_PIPEERR_WRITE: writing 1 to VALID also clears OVER (R681). -/
def execIngPipeerrWrite (p : PipeId) (v hw : W64) (s : State) : Res := done s (doIngPipeerrWrite p v hw s)

/-! ### TOK_LOAD (R668 to R670) -/

/-- A dictionary's regions on its tiles, by live tile and table entry. -/
def dictRegions (s : State) (k : Dict) : List (Nat × Nat) :=
  k.places.filterMap fun e => (regionStart s e.1 e.2).map fun r => (liveTile s e.1, r.1)

def releaseDict (s : State) (i : Nat) : State :=
  match Tbl.get none s.ing.dicts i with
  | none => s
  | some k =>
    let s := forEach (dictRegions s k) s fun s e => releaseRegion s e.1 e.2
    { s with ing := { s.ing with dicts := Tbl.put none s.ing.dicts i none } }

/-- A pipeline uses a dictionary of its partition. -/
def dictInUse (s : State) (p n : Nat) : Bool :=
  s.ing.pipes.any fun e => e.2.st != .closed && e.2.part.val == p && pdDict e.2.desc == n

/-- The CLEAN region of a dictionary's copy, as a descriptor of R326 that is loaded. -/
def dictRegion (p image len tile off : Nat) : Bytes :=
  leBytes 4 off ++ leBytes 4 len ++ [1, 1] ++ leBytes 2 tile ++ leBytes 1 p ++ leBytes 3 0 ++ leBytes 8 (image + 2048) ++ leBytes 8 0

def doTokLoad (cid : Nat) (s0 : State) : State :=
  match cmdFor s0 cid 0x0053 with
  | none => s0
  | some c =>
    if !atRest s0 c (cmdPart s0 c) then s0
    else withPayload (beginCmd s0 cid) c 80 fun s b =>
      let n := fieldAt b 0 1
      let p := fieldAt b 1 1
      let image := fieldAt b 8 8
      if b.length ≠ 80 ∨ 4 ≤ n ∨ !partLives s p ∨ !c.may p ∨ !zeroAt b 2 6 ∨ image % 2048 ≠ 0 ∨ dictInUse s p n ∨ !(isT1 image || isT2 image)
          ∨ !canRead s (.host (some p)) image 2048 then complete s cid stBadDescriptor
      else match readMem s .device image 2048 with
        | (.ok, h, s) =>
          let size := 16 * fieldAt h 0x0C 4
          if 1048576 < fieldAt h 0x0C 4 ∨ !canRead s (.host (some p)) (image + 2048) size then complete s cid stBadDescriptor
          else match readMem s .device (image + 2048) size with
            | (.ok, a, s) =>
              let places := (partDies s p).map fun d => (fieldAt b (16 + 8 * d) 2, fieldAt b (20 + 8 * d) 4)
              let onDie := (partDies s p).all fun d => tileDie (fieldAt b (16 + 8 * d) 2) == d
              let ds := places.map fun e => dictRegion p image (padTo 4096 size) e.1 e.2
              let rs := ds.map regionOfBytes
              let free := releaseDict s (4 * p + n)
              if !dictOk h a ∨ !onDie ∨ !(ds.all (regionOk free c)) ∨ (rs.mapIdx (regionClash free rs)).any id then
                complete s cid stBadDescriptor
              else if !regionsFit free rs then complete s cid stNoResource
              else match accAll rs free loadRegion with
                | (.ok, s) =>
                  let s := forEach rs s declareRegion
                  let s := { s with ing := { s.ing with dicts := Tbl.put none s.ing.dicts (4 * p + n) (some ⟨image, h, places⟩) } }
                  complete s cid stOk
                | (x, s) => endBy s0 s cid x
            | (x, _, s) => endBy s0 s cid x
        | (x, _, s) => endBy s0 s cid x

/-- TOK_LOAD (R668 to R670, R686): a dictionary is checked and loaded on each die of its partition (log entry 62). -/
def execTokLoad (cid : Nat) (s : State) : Res := done s (doTokLoad cid s)

/-! ### VID_ENCODE (R678, R679) -/

def encOk (s : State) (b : Bytes) : Bool :=
  let codec := fieldAt b 0 1
  let rc := fieldAt b 1 1
  let w := fieldAt b 4 2
  let h := fieldAt b 6 2
  let p := fieldAt b 0x2A 1
  let depth := if codec = 2 then 1 else 2
  let frame := w * h * 3 / 2
  let sizes := if codec = 4 then [frame, 2 * frame] else [depth * frame]
  b.length == 64 && decide (2 ≤ codec) && decide (codec ≤ 4) && decide (rc ≤ 1)
    && (rc == 1 || decide (fieldAt b 2 1 ≤ if codec = 4 then 255 else 51))
    && decide (fieldAt b 3 1 < 16) && decide (16 ≤ w) && decide (w ≤ 7680) && w % 2 == 0 && decide (16 ≤ h) && decide (h ≤ 4320)
    && h % 2 == 0 && decide (1 ≤ fieldAt b 8 4) && (rc == 1 || fieldAt b 0x0C 4 == 0) && decide (1 ≤ fieldAt b 0x28 2)
    && zeroAt b 0x2B 21 && partLives s p && (partPairs s p).contains (fieldAt b 3 1)
    && sizes.any (fun n => canRead s (.host (some p)) (fieldAt b 0x10 8) (n * fieldAt b 8 4))
    && canWrite s (.host (some p)) (fieldAt b 0x18 8) (fieldAt b 0x20 8)

def doVidEncode (cid : Nat) (s0 : State) : State :=
  match cmdFor s0 cid 0x0054 with
  | none => s0
  | some c => withPayload (beginCmd s0 cid) c 64 fun s b =>
      if !encOk s b ∨ !c.may (fieldAt b 0x2A 1) then complete s cid stBadDescriptor
      else
        let v := fieldAt b 3 1
        match freeCtx s v with
        | none => s0
        | some k => modCmd (setCtx s (64 * v + k) (some ⟨none, 0, 0, some cid, !dispatchHeld s⟩)) cid fun c =>
            { c with payBytes := some b, begun := if dispatchHeld s then none else c.begun }

/-- VID_ENCODE (R678, R679): the encode takes a stream context of its pair, and waits while none is free (R659). While
dispatch is held its execution does not begin (R68). -/
def execVidEncode (cid : Nat) (s : State) : Res := done s (doVidEncode cid s)

/-- The encode that a pair is at, of those that may have begun a frame: its context, command and descriptor. -/
def encodeAt (s : State) (v : Nat) : Option (Nat × Nat × Bytes) :=
  (List.range 64).findSome? fun k =>
    match Tbl.get none s.ing.ctxs (64 * v + k) with
    | some c => match c.cid with
      | some cid => if c.frame = false then none else (cmdAt s cid).map fun x => (k, cid, x.payBytes.getD [])
      | none => none
    | none => none

def doVideoEncodeDone (v : PairId) (stream : Bytes) (s : State) : State :=
  match encodeAt s v.val with
  | none => s
  | some (k, cid, b) =>
    let fin := regAddWrap (frameDone (setCtx s (64 * v.val + k) none) v.val) (vidReg v.val) 32 32 (fieldAt b 8 4)
    if fieldAt b 0x20 8 < stream.length then complete fin cid stNoResource
    else
      let x := writeMem fin (.host (some (fieldAt b 0x2A 1))) (fieldAt b 0x18 8) stream
      endBy s x.2 cid x.1 stream.length

/-- VIDEO_ENCODE_DONE (R64, R679, R683): the stream is written at DST and the command completes with its length. -/
def execVideoEncodeDone (v : PairId) (stream : Bytes) (s : State) : Res := done s (doVideoEncodeDone v stream s)

end Sys2Proof.Machine
end

