-- ==== Sys2Proof/Machine/Keys.lean ====
section
/-! DEFINITION. Key slots (chapter 17): KEY_WRITE, KEY_ERASE, and the end of an AES operation. -/

namespace Sys2Proof.Machine
open Sys2Proof

/-- A key whose material remains only while an operation is bound to it (R821, R822). -/
def keepBound (k : Option Key) : Option Key :=
  match k with
  | some k => if k.bound = 0 then none else some k
  | none => none

/-- Takes that use a key slot end with a status (R605). -/
def endTakes (s : State) (k : Nat) (st : Status) : State :=
  forEach (List.range 16) s fun s p =>
    match takeOf s p with
    | some t => if t.keySlot = k then drainEnd s p st else s
    | none => s

/-- A slot with nothing left of it is free: it keeps only its last generation (R817, R821). -/
def freeSlotOf (x : KeySlot) : KeySlot := { gen := x.gen }

/-- A slot whose erase has zeroised everything: it is free, and the erases complete (R822). -/
def settleSlot (s : State) (k : Nat) : State :=
  let x := slotAt s k
  if x.current.isSome ∨ x.shadow.isSome then s
  else
    let s := modSlot s k freeSlotOf
    forEach x.eraseCids s fun s cid => complete s cid stOk

/-! ### KEY_WRITE (R817 to R821) -/

def kwSlot (b : Bytes) : Nat := fieldAt b 0 1
def kwPart (b : Bytes) : Nat := fieldAt b 1 1
def kwWrapped (b : Bytes) : Bool := fieldAt b 2 1 == 1
def kwKek (b : Bytes) : Bool := bitOf (fieldAt b 3 1) 0
def kwKekSlot (b : Bytes) : Nat := fieldAt b 4 1

/-- The fields of R818. -/
def keyFields (s : State) (b : Bytes) : Bool :=
  b.length == 80 && decide (kwSlot b < 64) && partLives s (kwPart b) && decide (fieldAt b 2 1 ≤ 1) && decide (fieldAt b 3 1 < 2)
    && decide (kwKekSlot b < 64) && zeroAt b 5 3 && zeroAt b 0x14 4 && zeroAt b 0x48 8
    && (kwWrapped b || (zeroAt b 4 1 && zeroAt b 8 12 && zeroAt b 0x38 16))

/-- The key that a descriptor carries: in plain, or opened under its wrapping key (R819, R820). -/
def keyOf (s : State) (b : Bytes) : Except Status Bytes :=
  if !kwWrapped b then .ok ((b.drop 0x18).take 32)
  else
    let w := slotAt s (kwKekSlot b)
    match w.current with
    | none => .error stKeyEmpty
    | some k =>
      if w.erasing then .error stKeyEmpty
      else if !w.kek ∨ w.part.val ≠ kwPart b then .error stBadDescriptor
      else match Config.gcmOpen k.key ((b.drop 8).take 12) (b.take 8) ((b.drop 0x18).take 32) ((b.drop 0x38).take 16) with
        | some x => .ok x
        | none => .error stAuthFail

/-- A slot that holds something belongs to its partition (R817). -/
def slotTaken (x : KeySlot) (p : Nat) : Bool := (x.current.isSome || x.shadow.isSome) && x.part.val != p

def doKeyWrite (cid : Nat) (s : State) : State :=
  match cmdFor s cid 0x0300 with
  | none => s
  | some c => withPayload (beginCmd s cid) c 80 fun s b =>
      let n := kwSlot b
      let x := slotAt s n
      if !keyFields s b ∨ !c.may (kwPart b) ∨ slotTaken x (kwPart b) then complete s cid stBadDescriptor
      else if x.erasing ∨ x.shadow.isSome then complete s cid stKeyBusy
      else match keyOf s b with
        | .error st => complete s cid st
        | .ok key =>
          let gen := x.gen + 1
          let s := modSlot s n fun x =>
            { x with current := some ⟨key, gen, 0⟩, shadow := keepBound x.current, gen, kek := kwKek b, part := Fin.ofNat 16 (kwPart b) }
          complete (endTakes s n stAborted) cid stOk gen.toNat

/-- KEY_WRITE (R605, R817 to R821, R825, R827). -/
def execKeyWrite (cid : Nat) (s : State) : Res := done s (doKeyWrite cid s)

/-! ### KEY_ERASE (R822) -/

/-- A slot's keys are erased for new admissions; what is bound remains until its last operation ends (R822). -/
def eraseSlot (s : State) (k : Nat) (cid : Option Nat) : State :=
  let s := endTakes s k stKeyEmpty
  let s := modSlot s k fun x =>
    { x with current := keepBound x.current, shadow := keepBound x.shadow, erasing := true, eraseCids := x.eraseCids ++ cid.toList }
  settleSlot s k

def doKeyErase (cid : Nat) (s : State) : State :=
  match cmdFor s cid 0x0301 with
  | none => s
  | some c =>
    let s := beginCmd s cid
    let k := c.byte 0
    if 64 ≤ k ∨ (c.fn ≠ 0 ∧ slotTaken (slotAt s k) c.part) then complete s cid stBadDescriptor
    else eraseSlot s k (some cid)

/-- KEY_ERASE (R605, R822, R825): INLINE byte 0 names the slot. -/
def execKeyErase (cid : Nat) (s : State) : Res := done s (doKeyErase cid s)

/-! ### The end of an operation (R821 to R823) -/

/-- One operation fewer bound to a key of a generation. -/
def unbind (g : Byte) (k : Key) : Key := if k.gen = g then { k with bound := k.bound - 1 } else k

def doAesOperationDone (d : Die) (slot : Fin 64) (gen : Byte) (s : State) : State :=
  let n := slot.val
  let has (k : Option Key) : Bool := match k with | some k => k.gen == gen && decide (0 < k.bound) | none => false
  let x := slotAt s n
  if !has x.current && !has x.shadow then s
  else
    let s := { s with sec := { s.sec with ops := s.sec.ops.erase (d.val, n, gen) } }
    let s := modSlot s n fun x =>
      let cur := x.current.map (unbind gen)
      { x with current := if x.erasing then keepBound cur else cur, shadow := keepBound (x.shadow.map (unbind gen)) }
    if x.erasing then settleSlot s n else s

/-- AES_OPERATION_DONE (R821 to R824): a bound operation of a die's engine ends, and key material whose last use it was is zeroised. -/
def execAesOperationDone (slot : EngineSlot) (gen : Byte) (s : State) : Res :=
  done s (doAesOperationDone slot.die slot.slot gen s)

end Sys2Proof.Machine
end

