-- ==== Sys2Proof/Machine/Tier.lean ====
section
/-! DEFINITION. The tiers (chapter 08): allocation and release of regions, flushes and quotas, streaming windows, write
combining by age, fills, write-backs and reclaim, and failure, retirement and scrub of their units. -/

namespace Sys2Proof.Machine
open Sys2Proof

def setTier (s : State) (f : Tier → Tier) : State := { s with tier := f s.tier }

/-! ### Regions (R380 to R382) -/

def allocOf (b : Bytes) : TierRegion :=
  { backed := fieldAt b 0 1 == 2, part := Fin.ofNat 16 (fieldAt b 1 1), codec := fieldAt b 2 1, elem := fieldAt b 3 1
    stepFlush := bitOf (fieldAt b 4 1) 1, base := fieldAt b 8 8, length := fieldAt b 0x10 8, backing := fieldAt b 0x18 8 }

/-- The fields of an allocation descriptor lie in their ranges (R380, R381). -/
def allocFields (b : Bytes) : Bool :=
  let r := allocOf b
  let kind := fieldAt b 0 1
  (kind == 1 || kind == 2) && decide (fieldAt b 1 1 < 16) && decide (r.codec ≤ 4)
    && (r.codec == 0 || (kind == 1 && isT2 r.base)) && (if r.codec = 0 then r.elem == 0 else decide (r.elem ≤ 4))
    && decide (fieldAt b 4 1 < (if kind = 2 then 4 else 2)) && zeroAt b 5 3 && zeroAt b 0x20 16
    && r.base % 65536 == 0 && r.length % 65536 == 0 && decide (65536 ≤ r.length)
    && (kind == 2 || r.backing == 0)

/-- Where the region may lie (R365, R370, R381). -/
def allocPlace (s : State) (r : TierRegion) : Bool :=
  if r.backed then
    inAperture r.base && decide (r.base % 0x1000000000 + r.length ≤ 0x1000000000)
      && s.tier.regions.any (fun b => !b.backed && isT2 b.base && b.base == r.backing && b.part == r.part && b.length == r.length)
      && !(s.tier.regions.any fun k => k.backed && k.backing == r.backing)
  else populatedTier r.base r.size && !inQueueRegion r.base r.size

def regionOverlap (s : State) (r : TierRegion) : Bool := s.tier.regions.any fun k => overlap r.base r.size k.base k.size

/-- The cells of a FIXED allocation are free: not held by resident frames (R381), and filled since their last owner was
deleted (R751, R872). -/
def cellsFree (s : State) (r : TierRegion) : Bool :=
  r.backed || ((!isT1 r.base || decide (stackUse s (r.base / 0x1000000000) + r.length ≤ 48000000000))
    && !(s.tier.unfilled.any fun u => overlap r.base r.size u.1 u.2))

/-- The allocation keeps its partition within its quotas (R401). -/
def withinQuota (s : State) (r : TierRegion) : Bool :=
  let p := r.part.val
  if r.backed then true
  else if isT1 r.base then decide (t1Use s p + r.length ≤ (partAt s p).t1Quota)
  else decide (t2Use s p + r.size ≤ (partAt s p).t2Quota)

/-- Zeros as the region holds them: plain, or as blocks of zero elements (R380, R382). -/
def zeroFill (s : State) (r : TierRegion) : State :=
  if r.backed then s
  else
    let us := tierPieces r.base r.size
    let s := forEach us s fun s u => setWc (setLost s u.1 false) u.1 none
    let s := { s with mem := Tbl.clearRange s.mem r.base r.size }
    if r.codec = 0 then s
    else putMem s r.base (encodeBlocks r.elem r.codec 0 false (List.replicate r.length 0)).1

def doTierAlloc (cid : Nat) (s : State) : State :=
  match cmdFor s cid 0x20 with
  | none => s
  | some c =>
    if atRest s c (cmdPart s c) = false then s
    else withPayload (beginCmd s cid) c 48 fun s b =>
      let r := allocOf b
      if allocFields b = false ∨ c.may (fieldAt b 1 1) = false ∨ (partAt s r.part.val).st = .none
          ∨ allocPlace s r = false ∨ regionOverlap s r then complete s cid stBadDescriptor
      else if cellsFree s r = false then complete s cid stNoResource
      else if withinQuota s r = false then complete s cid stQuotaOver
      else
        let s := if bitOf (fieldAt b 4 1) 0 then zeroFill s r else s
        complete (setTier s fun t => { t with regions := t.regions ++ [r] }) cid stOk

/-- TIER_ALLOC (R380 to R383, R400, R401). -/
def execTierAlloc (cid : Nat) (s : State) : Res := done s (doTierAlloc cid s)

/-- A region leaves, with the frames of a BACKED one. -/
def dropTierRegion (s : State) (r : TierRegion) : State :=
  let s := if r.backed then
      forEach ((Tbl.inRange s.tier.frames r.base r.length).map (·.1)) s freeFrame
    else s
  setTier s fun t => { t with regions := t.regions.filter fun k => k.base != r.base }

/-- The region holds part of an open stream's landing zone, or of a store (R531, R587). -/
def heldRegion (s : State) (r : TierRegion) : Bool :=
  inStore s r.base r.size
    || s.coll.streams.any fun e => e.2.st != .closed && e.1 / 64 == r.part.val
        && (List.range 8).any fun d => overlap r.base r.size (d * 0x1000000000 + e.2.lzOff) 33554432

def doTierFree (cid : Nat) (s : State) : State :=
  match cmdFor s cid 0x21 with
  | none => s
  | some c =>
    if atRest s c (cmdPart s c) = false then s
    else
      let s1 := beginCmd s cid
      match s1.tier.regions.find? fun r => r.base == fieldAt c.inl 0 8 with
      | none => complete s1 cid stBadDescriptor
      | some r =>
        if zeroAt c.inl 8 16 = false ∨ c.may r.part.val = false ∨ (backedBy s1 r).isSome ∨ heldRegion s1 r then complete s1 cid stBadDescriptor
        else
          let x : Acc × State := if r.backed then flushRange s1 r r.base r.length else (.ok, s1)
          match x with
          | (.ok, s2) => tierNotice s (complete (dropTierRegion s2 r) cid stOk) r.part.val
          | (a, s2) => endBy s s2 cid a

/-- TIER_FREE: a BACKED region's DIRTY units are written back first (R380, R390, R531, R587). -/
def execTierFree (cid : Nat) (s : State) : Res := done s (doTierFree cid s)

def doTierFlush (cid : Nat) (s : State) : State :=
  match cmdFor s cid 0x22 with
  | none => s
  | some c =>
    if atRest s c (cmdPart s c) = false then s
    else
      let s1 := beginCmd s cid
      let a := fieldAt c.inl 0 8
      let n := fieldAt c.inl 8 8
      match tierRegionAt s1 a with
      | none => complete s1 cid stBadDescriptor
      | some r =>
        if r.backed = false ∨ r.base + r.length < a + n ∨ c.may r.part.val = false then complete s1 cid stBadDescriptor
        else
          let x := flushRange s1 r a n
          endBy s x.2 cid x.1

/-- TIER_FLUSH (R375, R380, R387, R390). -/
def execTierFlush (cid : Nat) (s : State) : Res := done s (doTierFlush cid s)

def doTierQuota (cid : Nat) (s : State) : State :=
  match cmdFor s cid 0x23 with
  | none => s
  | some c => withPayload (beginCmd s cid) c 32 fun s1 b =>
    let p := fieldAt b 0 1
    if c.fn ≠ 0 ∨ 16 ≤ p ∨ (partAt s1 p).st = .none ∨ zeroAt b 1 7 = false ∨ zeroAt b 0x18 8 = false then
      complete s1 cid stBadDescriptor
    else
      let s2 := modPart s1 p fun q => { q with t1Quota := fieldAt b 8 8, t2Quota := fieldAt b 0x10 8 }
      complete (tierNotice s1 s2 p) cid stOk

/-- TIER_QUOTA: at once, without an admission point (R400, R402). -/
def execTierQuota (cid : Nat) (s : State) : Res := done s (doTierQuota cid s)

/-! ### Streams (R394 to R399) -/

def stNo (d : Bytes) : Nat := fieldAt d 0 1
def stDst (d : Bytes) : Nat := fieldAt d 2 1
def stDepth (d : Bytes) : Nat := fieldAt d 3 1
def stPf (d : Bytes) : Nat := fieldAt d 4 1
def stLocal (d : Bytes) : Bool := bitOf (fieldAt d 5 1) 0
def stLayers (d : Bytes) : Nat := fieldAt d 6 2
def stSrc (d : Bytes) : Nat := fieldAt d 8 8
def stSrcStride (d : Bytes) : Nat := fieldAt d 0x10 8
def stSlice (d : Bytes) : Nat := fieldAt d 0x18 8
def stDstBase (d : Bytes) : Nat := fieldAt d 0x20 8
def stDstStride (d : Bytes) : Nat := fieldAt d 0x28 8
/-- The slot of a layer: its offset or address (R395). -/
def stSlot (d : Bytes) (l : Nat) : Nat := stDstBase d + l % stDepth d * stDstStride d

/-- The FIXED region of a partition that an address is a source in: the one that occupies it, else the compressed one whose decoded
bytes, counted from its base, reach it (R382, R396). -/
def sourceRegion (s : State) (p a : Nat) : Option TierRegion :=
  let own (r : TierRegion) : Bool := !r.backed && r.part.val == p && decide (r.base ≤ a)
  match s.tier.regions.find? fun r => own r && decide (a < r.base + r.size) with
  | some r => some r
  | none => s.tier.regions.find? fun r => own r && r.codec != 0 && decide (a < r.base + r.length)

def streamOk (s : State) (b : Bytes) : Bool :=
  let p := fieldAt b 1 1
  let last := stDstBase b + (stDepth b - 1) * stDstStride b + stSlice b
  decide (stNo b < 8) && decide (p < 16) && (partAt s p).st != .none
    && decide (2 ≤ stDepth b) && decide (stDepth b ≤ 16) && decide (1 ≤ stPf b) && decide (stPf b < stDepth b)
    && decide (fieldAt b 5 1 < 2) && decide (1 ≤ stLayers b) && decide (stLayers b ≤ 1024)
    && stSrcStride b % 2048 == 0 && decide (1 ≤ stSlice b) && stDstStride b % 2048 == 0 && decide (stSlice b ≤ stDstStride b)
    && zeroAt b 0x30 16 && (sourceRegion s p (stSrc b)).isSome
    && (!stLocal b || decide (stSrc b < 0x1000000000)
         || (decide (0x100000000000 ≤ stSrc b) && decide (stSrc b < 0x102000000000)))
    && (match stDst b with
        | 1 => stSlice b % 2048 == 0 && decide (last ≤ strataSize)
        | 3 => isT1 (stDstBase b) && tierCovered s (fun r => !r.backed && r.part.val == p) (stDstBase b) (last - stDstBase b)
        | _ => false)

def streamAt (s : State) (p n : Nat) : Option WStream := Tbl.get none s.tier.streams (8 * p + n)
def setStream (s : State) (p n : Nat) (w : WStream) : State :=
  setTier s fun t => { t with streams := Tbl.put none t.streams (8 * p + n) (some w) }

def doStreamDeclare (cid : Nat) (s : State) : State :=
  match cmdFor s cid 0x24 with
  | none => s
  | some c =>
    if atRest s c (cmdPart s c) = false then s
    else withPayload (beginCmd s cid) c 64 fun s b =>
      if streamOk s b = false ∨ c.may (fieldAt b 1 1) = false then complete s cid stBadDescriptor
      else complete (setStream s (fieldAt b 1 1) (stNo b) { desc := b.take 64 }) cid stOk

/-- STREAM_DECLARE (R394). -/
def execStreamDeclare (cid : Nat) (s : State) : Res := done s (doStreamDeclare cid s)

/-- Bytes of the FIXED region that a stream's source `src` lies in (R396): decoded bytes, through BC0 of the region's die, where it is
compressed. -/
def readDecoded (s : State) (p src a n : Nat) : Acc × Bytes × State :=
  match sourceRegion s p src with
  | none => (.bounds, [], s)
  | some r =>
    if r.codec = 0 then readMem s (.step p) a n
    else
      let lo := a - r.base
      let w := blkDecoded r.elem
      let v := blkStored r.elem r.codec
      if r.length < lo + n then (.bounds, [], s)
      else
        let k := lo / w
        let cnt := (lo + n - 1) / w - k + 1
        match readMem s (.step p) (r.base + k * v) (cnt * v) with
        | (.ok, b, s) =>
          let ds := decodeBlocks r.elem r.codec k b
          match firstBad ds with
          | some (blk, why) => (.fail stCheckFail, [], codecFail (codecDone s (bc0 r.base) cnt false) (bc0 r.base) blk why)
          | none => (.ok, ((okBytes ds).drop (lo - k * w)).take n, codecDone s (bc0 r.base) cnt false)
        | (x, _, s) => (x, [], s)

/-- The destination and the source of each slice of a layer, and the address of layer 0 at that source (R395): with LOCAL the tiles of
die d read stack d, or channel 2·d. -/
def streamSlices (s : State) (p : Nat) (d : Bytes) (l : Nat) : List (Nat × Nat × Nat) :=
  let src := stSrc d + l * stSrcStride d
  if stDst d = 3 then [(stSlot d l, src, stSrc d)]
  else if stLocal d then
    (List.range 8).flatMap fun die =>
      let shift := if isT1 (stSrc d) then die * 0x1000000000 else die * 0x4000000000
      ((partTiles s p).filter fun t => tileDie t == die).mapIdx fun i t =>
        (strataAddr t (stSlot d l), src + shift + i * stSlice d, stSrc d + shift)
  else (partTiles s p).mapIdx fun i t => (strataAddr t (stSlot d l), src + i * stSlice d, stSrc d)

/-- A layer copied into its slot. -/
def fetchLayer (s : State) (p : Nat) (d : Bytes) (l : Nat) : Acc × State :=
  accAll (streamSlices s p d l) s fun s x =>
    match readDecoded s p x.2.2 x.2.1 (stSlice d) with
    | (.ok, b, s) => writeMem s (.step p) x.1 b (partPrio s p)
    | (a, _, s) => (a, s)

/-- The slot of a layer still holds an acquired layer (R398, R399). -/
def slotHeld (w : WStream) (l : Nat) : Bool := w.acquired.any fun m => m % stDepth w.desc == l % stDepth w.desc

/-- A layer's fetch begins where its slot is free, else once it is (R398). -/
def wantLayer (w : WStream) (l : Nat) : WStream :=
  if w.present.contains l || w.fetching.contains l then w
  else if slotHeld w l || w.fetching.any (fun m => m % stDepth w.desc == l % stDepth w.desc) then
    if w.want.contains l then w else { w with want := w.want ++ [l] }
  else { w with fetching := w.fetching ++ [l], present := w.present.filter fun m => m % stDepth w.desc != l % stDepth w.desc }

/-- The fetches that waited for a slot begin (R398). -/
def startWanted (w : WStream) : WStream := w.want.foldl wantLayer { w with want := [] }

/-- The direction after an acquisition, and the layer to fetch next (R398). -/
def acquireLayer (w : WStream) (l : Nat) : WStream :=
  let down := match w.last with
    | some m => if l < m then true else if m < l then false else w.down
    | none => w.down
  let w := { w with acquired := w.acquired ++ [l], last := some l, down := down, want := w.want.filter (· != l) }
  let pf := stPf w.desc
  if down then (if pf ≤ l then wantLayer w (l - pf) else w)
  else if l + pf < stLayers w.desc then wantLayer w (l + pf) else w

/-- The arguments of the stream routines (R397). -/
def streamArg (s : State) (t : Nat) : List Nat := [gNum s t 4, gNum s t 5]

/-- STREAM_ACQ by the whole group: the slot when the layer is present, a wait while it is not, BAD_DESCRIPTOR for a layer
out of range or a slot still held (R397 to R399). -/
def streamAcqGo (s : State) (p : Nat) : State :=
  match groupCall s p 9 streamArg with
  | (none, s) => s
  | (some ms, s) =>
    let t := nth 0 ms 0
    let l := gNum s t 5
    match (if gNum s t 4 < 8 then streamAt s p (gNum s t 4) else none) with
    | none => failStep s p stBadDescriptor
    | some w =>
      if stLayers w.desc ≤ l ∨ slotHeld w l then failStep s p stBadDescriptor
      else if w.present.contains l then
        groupReturn (setStream s p (gNum s t 4) (acquireLayer w l)) ms fun x => setG x 6 (BitVec.ofNat 64 (stSlot w.desc l))
      else forEach ms (setStream s p (gNum s t 4) (wantLayer w l)) fun s t => parkAt s t .tier

def doStreamAcq (p : PartId) (s : State) : State := streamAcqGo s p.val

/-- STREAM_ACQ (R397 to R399). -/
def execStreamAcq (p : PartId) (s : State) : Res := done s (doStreamAcq p s)

def doStreamRel (p : PartId) (s : State) : State :=
  match groupCall s p.val 10 streamArg with
  | (none, s) => s
  | (some ms, s) =>
    let t := nth 0 ms 0
    match (if gNum s t 4 < 8 then streamAt s p.val (gNum s t 4) else none) with
    | none => failStep s p.val stBadDescriptor
    | some w =>
      let w := startWanted { w with acquired := w.acquired.filter (· != gNum s t 5) }
      groupReturn (setStream s p.val (gNum s t 4) w) ms

/-- STREAM_REL (R397, R398). -/
def execStreamRel (p : PartId) (s : State) : Res := done s (doStreamRel p s)

/-- The group of a step waits for a layer of a stream (R399). -/
def streamAwaited (s : State) (p n l : Nat) : Bool :=
  (runMembers s p).any fun t => atWord s t 9 && (tileAt s t).wait == .tier && gNum s t 4 == n && gNum s t 5 == l

def doStreamFetchDone (p : PartId) (stream : Fin 8) (layer : Nat) (s : State) : State :=
  match streamAt s p.val stream.val with
  | none => s
  | some w =>
    if w.fetching.contains layer = false then s
    else
      let s0 := s
      match fetchLayer s p.val w.desc layer with
      | (.wait, s) => stillWaits s0 s
      | (.ok, s) =>
        let w := { w with fetching := w.fetching.filter (· != layer), present := layer :: w.present }
        let s := setStream s p.val stream.val (startWanted w)
        if (runMembers s p.val).any fun t => atWord s t 9 && (tileAt s t).wait == .tier then streamAcqGo s p.val else s
      | (a, s) =>
        let awaited := streamAwaited s p.val stream.val layer
        let s := setStream s p.val stream.val (startWanted { w with fetching := w.fetching.filter (· != layer) })
        if awaited then accStop s p.val a else s

/-- STREAM_FETCH_DONE: the layer is in its slot; newts that wait for it acquire it (R395 to R399). A fetch that fails ends the step only
where its newts wait for the layer (R407, R440); else a later acquisition fetches it anew. -/
def execStreamFetchDone (p : PartId) (stream : Fin 8) (layer : Nat) (s : State) : Res :=
  done s (doStreamFetchDone p stream layer s)

/-! ### Errors of the tiers (R406 to R408) -/

/-- The key of the error times of the unit that holds an address (R408, R409). -/
def errKey (s : State) (a : Nat) : Nat := unitKey (holder s a)

/-- Times within the last second. -/
def lastSecond (now : Nat) (ts : List Nat) : List Nat := ts.filter fun t => decide (now < t + 1000000000)

/-- An uncorrectable error counted (R408, R416). -/
def noteUe (s : State) (c a : Nat) : State :=
  let s := regAddSat s (tierStat c) 40 8 1
  setTier s fun t => { t with ueTimes := Tbl.upd [] t.ueTimes (errKey s a) fun ts => lastSecond s.now ts ++ [s.now] }

/-- A late request counted (R408, R416). -/
def noteLate (s : State) (c a : Nat) : State :=
  let s := regAddSat s (tierStat c) 32 8 1
  setTier s fun t => { t with lateTimes := Tbl.upd [] t.lateTimes (errKey s a) fun ts => lastSecond s.now ts ++ [s.now] }

/-- The address belongs to the controller. -/
def ofCtl (c a : Nat) : Bool := (isT1 a || isT2 a) && tierCtlOf a == c

/-- A write-combining entry written by a read-merge-write, whose read may meet an uncorrectable error, which counts (R373, R408). -/
def mergeOut (s : State) (c u : Nat) (ue : Bool) : State :=
  let met := ue && !isLost s u && !unitFailed s u && !unitHeld s u
    && (match Tbl.get none s.tier.wc u with | some e => decide (e.bytes.length ≠ (tierUnit u).2) | none => false)
  let s := wcWriteOut s u ue
  if met then noteUe s c u else s

def doWcAgeExpiry (c : TierCtl) (unit : Nat) (uncorrectable : Bool) (s : State) : State :=
  match Tbl.get none s.tier.wc unit with
  | none => s
  | some e =>
    let age := regFld s (tierCtrl (tierCtlNo c)) 4 4 * 1000
    if ofCtl (tierCtlNo c) unit = false ∨ s.now < e.written + age then s
    else mergeOut s (tierCtlNo c) unit uncorrectable

/-- WC_AGE_EXPIRY: an entry idle for CTRL.WC_AGE is written, by a read-merge-write unless it is full (R373, R375, R415). -/
def execWcAgeExpiry (c : TierCtl) (unit : Nat) (uncorrectable : Bool) (s : State) : Res :=
  done s (doWcAgeExpiry c unit uncorrectable s)

def doBackedFill (addr : BitVec 48) (t : Option TileId) (s : State) : State :=
  let s0 := s
  let u := addr.toNat / 2048 * 2048
  match tierRegionAt s u with
  | none => s
  | some r =>
    if r.backed = false ∨ unitState s u ≠ .absent then s
    else
      match fillUnit s r u with
      | (.ok, s) => s
      | (.wait, _) => s0
      | (a, s) =>
        match t.bind fun t => (tileAt s (liveTile s t.toNat)).part with
        | some p => accStop s p.val a
        | none => s

/-- BACKED_FILL: an ABSENT unit is filled from its backing and becomes CLEAN; a failing fill ends the request that caused it, and the step
of a tile whose request that is (R385, R386, R406, R407, R440). -/
def execBackedFill (addr : FillRequest) (s : State) : Res := done s (doBackedFill addr.addr addr.tile s)

def doWriteBack (addr : BitVec 48) (s : State) : State :=
  let u := addr.toNat / 2048 * 2048
  match tierRegionAt s u with
  | none => s
  | some r =>
    if r.backed = false ∨ unitState s u ≠ .dirty ∨ losslessBacking s r = false then s
    else
      match writeBackUnit s 3 r u with
      | (.ok, t) => t
      | _ => s

/-- WRITE_BACK: a DIRTY unit of a plain or EXACT backing is written back and is CLEAN, its bits unchanged (R388, R389). -/
def execWriteBack (addr : BitVec 48) (s : State) : Res := done s (doWriteBack addr s)

/-- Reclaim frees a frame next (R403). -/
def reclaims (s : State) (p : Nat) : Bool :=
  regBit s ⟨.partTierstat, 0, p⟩ 3 && decide ((partAt s p).t1Quota < t1Use s p) && (evictable s p).isSome

def doReclaim (p : PartId) (s : State) : State :=
  if reclaims s p.val = false then regPut s ⟨.partTierstat, 0, p.val⟩ 2 1 0
  else
    match evictFrame s p.val with
    | (.ok, t) =>
      let t := regPut t ⟨.partTierstat, 0, p.val⟩ 2 1 (b2n (reclaims t p.val))
      tierNotice s t p.val
    | _ => s

/-- RECLAIM: one frame is freed by the order of R386, while use exceeds the quota (R402 to R405, R420). -/
def execReclaim (p : PartId) (s : State) : Res := done s (doReclaim p s)

/-! ### Retirement (R408 to R411) -/

/-- The unit that retires: whether it is a tier-2 channel, and its number. -/
def retireUnit (c : TierCtl) (pc : Fin 64) : Bool × Nat :=
  match c with
  | .t1 k => (false, 64 * k.val + pc.val)
  | .t2 k => (true, k.val)

def setUnitNo (s : State) (u : Bool × Nat) (v : Nat) : State :=
  if u.1 then setTier s fun t => { t with chState := Tbl.put 0 t.chState u.2 v }
  else setTier s fun t => { t with pcState := Tbl.put 0 t.pcState u.2 v }

/-- The condition of a retirement holds (R408). -/
def retireDue (s : State) (c : TierCtl) (u : Bool × Nat) (why : RetireCause) : Bool :=
  let r := tierCtrl (tierCtlNo c)
  let key := unitKey u
  let reached (ts : List Nat) (limit : Nat) : Bool := decide (0 < limit) && decide (limit ≤ (lastSecond s.now ts).length)
  match why with
  | .ueLimit => reached (Tbl.get [] s.tier.ueTimes key) (regFld s r 16 8)
  | .lateLimit => reached (Tbl.get [] s.tier.lateTimes key) (regFld s r 8 8)
  | .retraining => true
  | .reportedUnusable => true

/-- The reserve can take one more unit: four pseudo-channels of a stack, one channel of the module (R408). -/
def reserveLeft (s : State) (u : Bool × Nat) : Bool :=
  if u.1 then !(s.tier.chState.any fun e => e.2 == 1)
  else decide (((Tbl.inRange s.tier.pcState (u.2 / 64 * 64) 64).filter fun e => e.2 == 1).length < 4)

def doTierRetirement (c : TierCtl) (pc : Fin 64) (why : RetireCause) (s : State) : State :=
  let u := retireUnit c pc
  if unitStateNo s u ≠ 0 ∨ retireDue s c u why = false then s
  else
    let ok := regBit s (tierCtrl (tierCtlNo c)) 1 && reserveLeft s u
    let s := setUnitNo s u (if ok then 1 else 2)
    let s := if ok then setTier s fun t => { t with redirecting := t.redirecting ++ [u] } else s
    faultReg s 0xFF (tierStat (tierCtlNo c))

/-- TIER_RETIREMENT: the unit retires and its redirection begins, or it is FAILED (R408, R411, R415, R420). -/
def execTierRetirement (c : TierCtl) (pc : Fin 64) (why : RetireCause) (s : State) : Res :=
  done s (doTierRetirement c pc why s)

/-- The populated units of a pseudo-channel by address. -/
def pcUnits (n : Nat) : List Nat :=
  (List.range 366211).filterMap fun i =>
    let o := 131072 * i + 2048 * (n % 64)
    if o + 2048 ≤ 48000000000 then some (n / 64 * 0x1000000000 + o) else none

/-- Units of BACKED regions that a pseudo-channel holds, by state. -/
def pcBacked (s : State) (n : Nat) (v : UnitSt) : List Nat :=
  (Tbl.inRange s.tier.frames (n / 64 * 0x1000000000) 0x1000000000).flatMap fun e =>
    ((List.range 32).map fun i => e.1 + 2048 * i).filter fun u => holder s u == (false, n) && unitState s u == v

/-- The populated units that a pseudo-channel holds: its own, and those that earlier retirements of the stack brought to it (R409). -/
def pcHeld (s : State) (n : Nat) : List Nat :=
  pcUnits n ++ ((List.range 64).filter fun q => n / 64 * 64 + q != n && Tbl.get 0 s.tier.pcState (n / 64 * 64 + q) == 1).flatMap fun q =>
    (pcUnits (n / 64 * 64 + q)).filter fun a => holder s a == (false, n)

/-- A retired pseudo-channel (R410): CLEAN copies become ABSENT, every other unit is lost. -/
def losePc (s : State) (n : Nat) : State :=
  let clean := pcBacked s n .clean
  let dirty := pcBacked s n .dirty
  let held := pcHeld s n
  let s := forEach clean s fun s u => setUnit s u .absent
  forEach (held ++ dirty) s fun s u => setLost s u true

/-- The units that can take a retired unit's addresses: the stack's other pseudo-channels, or the other channels, that are in use
(R409). -/
def takers (s : State) (u : Bool × Nat) : List Nat :=
  (if u.1 then List.range 16 else (List.range 64).map fun q => u.2 / 64 * 64 + q).filter fun n => n != u.2 && unitStateNo s (u.1, n) == 0

/-- The BACKED units whose blocks touch a line of tier 2. -/
def lineCopies (s : State) (a : Nat) : List Nat :=
  match tierRegionAt s a with
  | none => []
  | some b => match backedBy s b with
    | none => []
    | some r => coveredUnits r b (max a b.base) (min (a + 512) (b.base + b.size) - max a b.base)

/-- A retired channel (R410): a line with a CLEAN or DIRTY copy makes that copy DIRTY, every other line is lost. -/
def loseChannel (s : State) (n : Nat) : State :=
  forEach (List.range 187500000) s fun s i =>
    let a := 0x100000000000 + n * 0x2000000000 + 512 * i
    let us := lineCopies s a
    if !us.isEmpty && us.all (fun u => unitState s u != .absent) then forEach us s fun s u => setUnit s u .dirty
    else setLost s a true

def doRedirectionComplete (c : TierCtl) (pc : Fin 64) (s : State) : State :=
  let u := retireUnit c pc
  if s.tier.redirecting.contains u = false then s
  else
    let s := if u.1 then loseChannel s u.2 else losePc s u.2
    setTier s fun t => { t with redirecting := t.redirecting.filter (· != u), targets := Tbl.put [] t.targets (unitKey u) (takers s u) }

/-- REDIRECTION_COMPLETE: the redirection tables are written, states are set under R410 and held requests go on (R409 to
R411). -/
def execRedirectionComplete (c : TierCtl) (pc : Fin 64) (s : State) : Res := done s (doRedirectionComplete c pc s)

def doTierScrub (c : TierCtl) (unit : Nat) (r : ScrubResult) (s : State) : State :=
  let k := tierCtlNo c
  if regBit s (tierCtrl k) 0 = false ∨ ofCtl k unit = false ∨ unit ≠ (tierUnit unit).1 then s
  else match r with
    | .clean => s
    | .corrected => regAddSat s (tierStat k) 48 16 1
    | .uncorrectable => setLost (noteUe s k unit) unit true

/-- TIER_SCRUB: a corrected error is counted, an uncorrectable one marks the unit lost and counts (R414, R416). -/
def execTierScrub (c : TierCtl) (unit : Nat) (r : ScrubResult) (s : State) : Res := done s (doTierScrub c unit r s)

end Sys2Proof.Machine
end

