-- ==== Sys2Proof/Machine/Part.lean ====
section
/-! DEFINITION. Partitions (chapter 15): PART_CREATE, PART_MODIFY, PART_DELETE and the zero fill that ends a deletion. -/

namespace Sys2Proof.Machine
open Sys2Proof

/-! ### The descriptor (R746, R747) -/

def pdMode (b : Bytes) : Nat := fieldAt b 1 1
def pdDies (b : Bytes) : Nat := fieldAt b 2 1

def partFields (b : Bytes) : Bool :=
  b.length == 32 && decide (fieldAt b 0 1 < 16) && (pdMode b == 1 || pdMode b == 2) && zeroAt b 3 5 && zeroAt b 0x10 16

/-- Every tile named is an active one (R740, R747). -/
def namesActive (s : State) (ts : List Nat) : Bool :=
  !ts.isEmpty && ts.all fun t => validTile t && (activeTiles s (tileDie t)).contains t

/-- A named tile or a die's engines belong to another partition (R740, R741). -/
def partClash (s : State) (p : Nat) (ts : List Nat) (dies : Nat) : Bool :=
  (List.range 16).any fun q =>
    q != p && (partAt s q).st != .none
      && ((partAt s q).dies.toNat &&& dies != 0 || (partTiles s q).any ts.contains)

/-- A newt is EMPTY (R166, R754): its program leaves it, and what waits for it. -/
def emptyNewt (s : State) (t : Nat) : State :=
  modTile s t fun x =>
    if x.st = .retired then x
    else { x with st := .empty, image := none, imem := [], queue := [], wait := .nothing, halting := false, heldEvents := [], events := []
                  binding := none, posted := 0, naks := 0 }

/-- A tile joins a partition with its strata zero-filled (R748). -/
def joinTile (s : State) (p : Nat) (t : Nat) : State :=
  let l := liveTile s t
  modTile (emptyNewt (zeroStrata s l 0 strataSize) l) l fun x => { x with part := some (Fin.ofNat 16 p) }

/-- A tile leaves its partition: its regions are released and its strata are zeros (R336, R748). -/
def leaveTile (s : State) (p : Nat) (t : Nat) : State :=
  let l := liveTile s t
  modTile (emptyNewt (releaseTile s p l) l) l fun x => { x with part := none }

/-- The epoch advances, and takes effect on every newt of the partition at once (R753, R754); with its programs gone, the partition's
tier-2 use may fall to its quota (R402, R420). -/
def advanceEpoch (s0 : State) (p : Nat) : State :=
  let s := modPart s0 p fun q => { q with epoch := q.epoch + 1 }
  tierNotice s0 (forEach (partTiles s p) s fun s t =>
    modTile (emptyNewt s (liveTile s t)) (liveTile s t) fun x => { x with epoch := (partAt s p).epoch }) p

/-! ### PART_CREATE and PART_MODIFY -/

def doPartCreate (cid : Nat) (s0 : State) : State :=
  match cmdFor s0 cid 0x0100 with
  | none => s0
  | some c => withPayload (beginCmd s0 cid) c 32 fun s b =>
      let p := fieldAt b 0 1
      if c.fn ≠ 0 ∨ !partFields b ∨ (partAt s p).st ≠ .none then complete s cid stBadDescriptor
      else match readBitmap s c.who (fieldAt b 8 8) with
        | (.error a, s1) => endBy s0 s1 cid a
        | (.ok ts, s) =>
          if !namesActive s ts then complete s cid stBadDescriptor
          else if partClash s p ts (pdDies b) then complete s cid stNoResource
          else
            let s := modPart s p fun q =>
              { epoch := q.epoch, serving := pdMode b == 1, dies := BitVec.ofNat 8 (pdDies b), tiles := ts.map toTile, waiting := q.waiting }
            let s := forEach ts s fun s t => joinTile s p t
            complete (setPartState (advanceEpoch s p) p .idle) cid stOk

/-- PART_CREATE (R739 to R747, R753, R754, R761, R764). -/
def execPartCreate (cid : Nat) (s : State) : Res := done s (doPartCreate cid s)

/-- What a PART_MODIFY may not remove: the reserve and the shape tiles (R750). -/
def keptTiles (s : State) (p : Nat) : List TileId := reserveOf s p ++ shapeTiles s p

/-- Encodes on the pairs of dies that a partition loses end (R686). -/
def loseEncodes (s : State) (lost : List Nat) : State :=
  let gone := s.ing.ctxs.filterMap fun e => match e.2 with
    | some c => if lost.contains (e.1 / 128) then c.cid.map fun cid => (e.1, cid) else none
    | none => none
  forEach gone s fun s e => complete (setCtx s e.1 none) e.2 stNoResource

/-- A dictionary keeps its copies on tiles of its partition. -/
def trimDicts (s : State) (p : Nat) : State :=
  forEach (List.range 4) s fun s n =>
    match Tbl.get none s.ing.dicts (4 * p + n) with
    | none => s
    | some k =>
      let k := { k with places := k.places.filter fun e => (partTiles s p).contains e.1 }
      { s with ing := { s.ing with dicts := Tbl.put none s.ing.dicts (4 * p + n) (some k) } }

/-- The new tile set, die mask and mode given in full (R748, R753). -/
def applyModify (s : State) (p : Nat) (b : Bytes) (ts : List Nat) : State :=
  let q := partAt s p
  let old := partTiles s p
  let dies := BitVec.ofNat 8 (pdDies b)
  let serving := pdMode b == 1
  let lost := bitSet 8 (q.dies &&& ~~~ dies).toNat
  let same := old.all ts.contains && ts.all old.contains && q.dies == dies && q.serving == serving
  if same then s
  else
    let s := forEach (old.filter fun t => !ts.contains t) s fun s t => leaveTile s p t
    let s := modPart s p fun q => { q with tiles := ts.map toTile, dies, serving, dlm := if serving then q.dlm else none }
    let s := trimDicts s p
    let s := loseEncodes (loseEngines s p lost) lost
    let s := forEach (ts.filter fun t => !old.contains t) s fun s t => joinTile s p t
    advanceEpoch s p

def doPartModify (cid : Nat) (s0 : State) : State :=
  match cmdFor s0 cid 0x0101 with
  | none => s0
  | some c =>
    if !atRest s0 c (cmdPart s0 c) then s0
    else withPayload (beginCmd s0 cid) c 32 fun s b =>
      let p := fieldAt b 0 1
      if c.fn ≠ 0 ∨ !partFields b ∨ !partLives s p then complete s cid stBadDescriptor
      else match readBitmap s c.who (fieldAt b 8 8) with
        | (.error a, s1) => endBy s0 s1 cid a
        | (.ok ts, s) =>
          if !namesActive s ts ∨ !((keptTiles s p).all fun t => ts.contains t.toNat) then complete s cid stBadDescriptor
          else if partClash s p ts (pdDies b) then complete s cid stNoResource
          else complete (applyModify s p b ts) cid stOk

/-- PART_MODIFY (R336, R747 to R750, R753, R754). -/
def execPartModify (cid : Nat) (s : State) : Res := done s (doPartModify cid s)

/-! ### PART_DELETE (R751) -/

/-- Step 1: every queue of the partition is deleted, and what it had admitted completes with ROLE_CHANGED (R702, R703); the
deletion's own entry, and a queue that carries it, end with the deletion. A page in holdback is discarded. -/
def deleteQueues (s : State) (p cid : Nat) : State :=
  let qs := (s.host.queues.filter fun e => e.2.part == p && (e.2.st == .active || e.2.st == .error)).map (·.1)
  let gone := (s.host.cmds.filter fun c => c.id != cid && (match c.queue with | some q => qs.contains q | none => false)).map (·.id)
  let s := forEach (List.range 16) s fun s q =>
    match takeOf s q with
    | some t => if gone.contains t.cid then setTake s q none else s
    | none => s
  let s := { s with ing := { s.ing with ctxs := s.ing.ctxs.filter fun e => match e.2 with
      | some c => !(match c.cid with | some k => gone.contains k | none => false)
      | none => false } }
  let s := forEach gone s fun s k => complete s k stRoleChanged
  forEach qs s fun s q => modQueue (drainBegin s q none stRoleChanged) q fun d => { d with holdLen := 0, holdFull := none }

/-- Step 2: every pipeline closes, its owed lockets written first, and every stream. -/
def writeLockets : Nat → State → PipeId → State
  | 0, s, _ => s
  | k + 1, s, n => if (pipeAt s n.val).locketDue.isEmpty then s else writeLockets k (doLocketWrite n s) n

def closePipes (s : State) (p : Nat) : State :=
  let ns := (s.ing.pipes.filter fun e => e.2.st != .closed && e.2.part.val == p).map (·.1)
  forEach ns s fun s n =>
    let s := if (pipeAt s n).st = .opened then closePipe s n none else s
    let s := writeLockets (pipeAt s n).locketDue.length s (Fin.ofNat 32 n)
    doIngCloseComplete (Fin.ofNat 32 n) (modPipe s n fun x => { x with locketDue := [] })

def closeStreams (s : State) (p : Nat) : State :=
  forEach (List.range 64) s fun s n => if (collAt s p n).st = .closed then s else closeColl s p n

/-- Held takes of a partition that ceases (R588, R703). -/
def endHeldTakes (s : State) (p : Nat) : State :=
  let ids := (s.host.cmds.filter fun c => c.opcode == 0x42 && c.started && c.byte 0 == p).map (·.id)
  forEach ids (setTake s p none) fun s k => complete s k stRoleChanged

/-- Step 4: the tier regions leave without write-back; their cells wait for the fill (R751). -/
def freeRegions (s : State) (p : Nat) : State :=
  let rs := s.tier.regions.filter fun r => r.part.val == p
  let s := forEach rs s fun s r => forEach ((Tbl.inRange s.tier.frames r.base r.length).map (·.1)) s fun s f => if r.backed then freeFrame s f else s
  let cells := (rs.filter fun r => !r.backed).map fun r => (r.base, r.size)
  let s := setTier s fun t =>
    { t with regions := t.regions.filter fun r => r.part.val != p, unfilled := t.unfilled ++ cells
             streams := Tbl.clearRange t.streams (8 * p) 8 }
  modPart s p fun q => { q with t1Quota := 0, t2Quota := 0 }

/-- Steps 3 to 5 up to the fill: stores, strata regions and tiles, tier regions, keys. -/
def stripPart (s0 : State) (p : Nat) : State :=
  let s := setCkpt s0 fun k => { k with stores := k.stores.filter fun t => t.part.val != p, shards := Tbl.put none k.shards p none }
  let s := forEach (partTiles s p) s fun s t => leaveTile s p t
  let s := { s with ing := { s.ing with dicts := Tbl.clearRange s.ing.dicts (4 * p) 4 } }
  let s := tierNotice s0 (freeRegions s p) p
  forEach (List.range 64) s fun s k => if (slotAt s k).part.val = p ∧ slotTaken (slotAt s k) 16 then eraseSlot s k none else s

def doPartDelete (cid : Nat) (s : State) : State :=
  match cmdFor s cid 0x0102 with
  | none => s
  | some c =>
    let p := c.byte 0
    if !atRest s c p then s
    else
      let s := beginCmd s cid
      if c.fn ≠ 0 ∨ 16 ≤ p ∨ !partLives s p then complete s cid stBadDescriptor
      else
        let s := setPartState s p .deleting
        let s := closeStreams (closePipes (deleteQueues s p cid) p) p
        let s := loseEncodes s (partDies s p)
        let s := stripPart (advanceEpoch s p) p
        modPart (endHeldTakes s p) p fun q => { q with deleteCid := some cid }

/-- PART_DELETE (R336, R702, R703, R751, R753, R817): INLINE byte 0 names the partition; its cells are then filled. -/
def execPartDelete (cid : Nat) (s : State) : Res := done s (doPartDelete cid s)

/-- Cells filled with zeros of valid ECC. -/
def fillCells (s : State) (a n : Nat) : State :=
  let s := { s with mem := Tbl.clearRange s.mem a n }
  setTier s fun t => { t with lost := Tbl.clearRange t.lost a n, wc := Tbl.clearRange t.wc a n }

def fillAll (s : State) : State :=
  setTier (forEach s.tier.unfilled s fun s u => fillCells s u.1 u.2) fun t => { t with unfilled := [] }

def doTierZeroFillDone (p : PartId) (s : State) : State :=
  let q := partAt s p.val
  match q.st, q.deleteCid with
  | .deleting, some cid =>
    let s := fillAll s
    let s := modPart s p.val fun q => { epoch := q.epoch, st := q.st, waiting := q.waiting }
    complete (setPartState s p.val .none) cid stOk
  | _, _ => if s.tier.unfilled.isEmpty ∨ (List.range 16).any (fun r => (partAt s r).st == .deleting) then s else fillAll s

/-- TIER_ZERO_FILL_DONE (R751, R872): the fill of freed cells is complete; a partition being deleted ceases to exist. -/
def execTierZeroFillDone (p : PartId) (s : State) : Res := done s (doTierZeroFillDone p s)

end Sys2Proof.Machine
end

