-- ==== Sys2Proof/Machine/LinkOps.lean ====
section
/-! DEFINITION. The operations of the torus links that several commands share: acknowledgement and replay (R474 to R477),
the egress (R481), state changes with the flows they move (R499, R508, R509), clasps (R502, R503) and the join (R504). -/

namespace Sys2Proof.Machine
open Sys2Proof

/-! ### States of a link -/

def lnkStatR (l : Nat) : Reg := ⟨.lnkStat, l, 0⟩

/-- Messages of a link that have not been acknowledged, oldest first, as to be sent from their first flit (R509). -/
def heldMsgs (k : Link) : List OutMsg :=
  sortBy (fun a b => decide (a.order < b.order)) (k.unacked ++ k.egress)

/-- The flits that a message's bytes fill so far (R482). -/
def flitsIn (m : OutMsg) : Nat := if m.whole then ceilDiv m.bytes.length 244 else m.bytes.length / 244

/-- Buffers of a receiver freed: their credits are returned (R480). -/
def freeBuffers (s : State) (src : Option (Nat × Nat)) (n : Nat) : State :=
  match src with
  | some (l, key) => if n = 0 then s else modLink s l fun k => { k with freed := Tbl.upd 0 k.freed key (· + n) }
  | none => s

/-- A message of a link that leaves goes its way again from its first flit, in its old place (R489, R490, R508, R509). -/
def moveMsg (s : State) (l : Nat) (m : OutMsg) : State :=
  match routeOf s m.bytes (some (linkAxis l, m.cls)) with
  | .deliver => deliverMsg s m.bytes
  | .hop n cls route =>
    putEgress s n { m with bytes := putAt m.bytes 12 (leBytes 1 route), cls, slot := none, sent := 0, lastSeq := none, p0 := 0 }
  | .refuse st => refuse (freeBuffers s m.src (flitsIn m - m.freed)) m.bytes st l

/-- Every message that a link had not had acknowledged moves to the links that take its flow, or to a detour, or is
refused (R489, R490, R508, R509). -/
def moveFlows (s : State) (l : Nat) : State :=
  let ms := heldMsgs (linkAt s l)
  let s := modLink s l fun k => { k with egress := [], unacked := [], replay := [], resend := [], tries := [], used := [] }
  forEach ms s fun s m => moveMsg s l m

/-- The link is out of its direction for good: numbering, credits and part-received messages start afresh. -/
def freshLink (k : Link) : Link :=
  { k with seq := 0, replay := [], resend := [], tries := [], used := [], expect := 0, rejecting := false,
           unackedRx := 0, asm := [], freed := [], stopped := false, readyOwed := false }

/-- The flits taken of a message that was cut at its ingress link are discarded: the message leaves the egress it waits at
(R509). -/
def dropCut (s : State) (x : InMsg) : State :=
  match x with
  | .on o => { s with fab := { s.fab with links := s.fab.links.map fun e =>
      (e.1, { e.2 with egress := e.2.egress.filter fun m => m.order != o || m.whole }) } }
  | _ => s

/-- The part-received messages of a link, and the buffers of it that messages still hold, are given up with the link. -/
def dropParts (s : State) (l : Nat) : State :=
  let s := forEach (linkAt s l).asm s fun s e => dropCut s e.2
  let off (m : OutMsg) : OutMsg := match m.src with | some (i, _) => if i = l then { m with src := none } else m | none => m
  { s with fab := { s.fab with links := s.fab.links.map fun e =>
      (e.1, { e.2 with egress := e.2.egress.map off, unacked := e.2.unacked.map off }) } }

/-- STANDBY links become ACTIVE when the direction's other links have all left (R499). -/
def promoteStandby (s : State) (d : Nat) : State :=
  if dirUsable s d then s
  else forEach (dirLinks d) s fun s l =>
    modLink s l fun k => if k.st = .standby then { k with st := .active } else k

/-- A link leaves ACTIVE or DEGRADED for good: its flows move, its direction's STANDBY links take over, and none of its lanes is in use
(R517). -/
def leaveLink (s : State) (l : Nat) (dest : LinkState) : State :=
  let was := linkUsable s l
  let s := modLink s l fun k => { k with st := dest }
  let s := if was then promoteStandby s (linkDir l) else s
  modLink (dropParts (moveFlows s l) l) l fun k => { freshLink k with lanes := 0 }

/-- Into FAILED with its cause (R517). -/
def failLink (s : State) (l why : Nat) : State :=
  leaveLink (regPut s (lnkStatR l) 24 4 why) l .failed

/-- Into TRAINING: nothing is known of the peer (R499, R517). -/
def startTraining (s : State) (l : Nat) : State :=
  let s := regPut (regPut s (lnkStatR l) 34 15 0) (lnkStatR l) 32 1 1
  modLink s l fun k => { freshLink k with st := .training, trained := false, lanes := 0 }

/-- Into RETRAIN, counted; the direction's STANDBY links take over where no other link is left (R499, R517). -/
def startRetrain (s : State) (l cause : Nat) : State :=
  let s := regAddSat s (lnkStatR l) 8 16 1
  promoteStandby (modLink s l fun k => { k with st := .retrain, cause }) (linkDir l)

def axisExtent (s : State) (l : Nat) : Nat := extOf s (linkAxis l)

/-- Into BYPASSED, or DISABLED on an axis of extent 1 (R499). -/
def bypassLink (s : State) (l : Nat) : State :=
  leaveLink s l (if axisExtent s l ≤ 1 then .disabled else .bypassed)

/-! ### Clasps -/

/-- The two links of a clasp channel 6a + k (R502). -/
def claspLinks (c : Nat) : List Nat := [12 * (c / 6) + c % 6, 12 * (c / 6) + 6 + c % 6]

def claspOpen (s : State) (l : Nat) : Bool := s.fab.clasps.getLsbD (6 * linkAxis l + l % 6)

def setClasps (s : State) (v : BitVec 18) : State := { s with fab := { s.fab with clasps := v, sensed := v } }

/-- Clasps close: their links become BYPASSED, and joins of those axes end (R499, R503, R510). -/
def closeClasps (s : State) (cs : List Nat) : State :=
  let mask := BitVec.ofNat 18 (sumN (cs.map (2 ^ ·)))
  let s := setClasps s (s.fab.clasps &&& ~~~ mask)
  let s := { s with fab := { s.fab with joins := s.fab.joins.filter fun e => !(cs.any fun c => c / 6 == e.1) } }
  forEach (cs.flatMap claspLinks) s bypassLink

def allClasps : List Nat := List.range 18
def closeAll (s : State) : State := closeClasps s allClasps

/-- Clasps open: their BYPASSED links enter TRAINING, whatever LNK_CTRL.EN (R499). Nothing opens while CLSP_HOLD# is low
(R894). -/
def openClasps (s : State) (cs : List Nat) : State :=
  if s.clspHold then s
  else
    let mask := BitVec.ofNat 18 (sumN (cs.map (2 ^ ·)))
    let s := setClasps s (s.fab.clasps ||| mask)
    forEach (cs.flatMap claspLinks) s fun s l =>
      if 1 < axisExtent s l ∧ (linkAt s l).st = .bypassed then startTraining s l else s

/-! ### The join -/

def joinAt (s : State) (a : Nat) : JoinSt := Tbl.get {} s.fab.joins a
def setJoin (s : State) (a : Nat) (j : JoinSt) : State :=
  { s with fab := { s.fab with joins := Tbl.put {} s.fab.joins a j } }

/-- The lowest STANDBY link of a direction. -/
def standbyLink (s : State) (d : Nat) : Option Nat := (dirLinks d).find? fun l => (linkAt s l).st == .standby

/-- A record to both neighbours of an axis on STANDBY links (R504, R505). -/
def sendBoth (s : State) (a ty : Nat) : State :=
  forEach ([2 * a, 2 * a + 1].filterMap (standbyLink s)) s fun s l => sendPlainCtl s l ty

/-- Step 5: once links 3 to 5 of both directions have trained, JOIN goes to both neighbours. -/
def joinReady (s : State) (a : Nat) : State :=
  let j := joinAt s a
  let busy := [2 * a, 2 * a + 1].any fun d => (span (6 * d + 3) 3).any fun l => (linkAt s l).st == .training
  if j.step = .half ∧ !busy ∧ (standbyLink s (2 * a)).isSome ∧ (standbyLink s (2 * a + 1)).isSome then
    sendBoth (setJoin s a { j with step := .sent, readyPlus := false, readyMinus := false }) a 3
  else s

/-- The join of R504 starts: on every axis of extent above 1 that has not joined, the clasps of links 3 to 5 open (steps 1 and 2),
and links of them that an ended join has left STANDBY go on with step 5. A wrong address opens nothing (R887). -/
def startJoin (s : State) : State :=
  if s.clspHold || s.boot.parErr || s.boot.range then s
  else forEach (List.range 3) s fun s a =>
    if extOf s a ≤ 1 ∨ (joinAt s a).step ≠ .idle ∨ (List.range 3).any (fun k => s.fab.clasps.getLsbD (6 * a + k)) then s
    else joinReady (openClasps (setJoin s a { step := .half }) [6 * a + 3, 6 * a + 4, 6 * a + 5]) a

/-- STANDBY links of a direction become ACTIVE. -/
def activateStandby (s : State) (d : Nat) : State :=
  forEach (dirLinks d) s fun s l => modLink s l fun k => if k.st = .standby then { k with st := .active } else k

/-- Step 6 at the joining module: JOIN_COMMIT to both, its STANDBY links ACTIVE; step 7: the clasps of links 0 to 2 open. -/
def joinCommit (s : State) (a : Nat) : State :=
  let s := sendBoth s a 5
  let s := activateStandby (activateStandby s (2 * a)) (2 * a + 1)
  let s := setJoin s a { joinAt s a with step := .relaying }
  openClasps s [6 * a, 6 * a + 1, 6 * a + 2]

/-- The join of an axis ends when its links 0 to 2 have trained or failed. -/
def joinEnd (s : State) (a : Nat) : State :=
  let busy := [2 * a, 2 * a + 1].any fun d => (span (6 * d) 3).any fun l => (linkAt s l).st == .training
  if (joinAt s a).step = .relaying ∧ !busy then setJoin s a {} else s

/-- The module relays on every axis (R868). -/
def relaysAll (s : State) : Bool := (List.range 3).all fun a => extOf s a ≤ 1 || (dirUsable s (2 * a) && dirUsable s (2 * a + 1))

/-- An activation's pause ends (R868). -/
def endPause (s : State) : State := { s with boot := { s.boot with phase := .run, actPaused := true } }

/-- The joins of every axis looked at again after a link changed. -/
def joinProgress (s : State) : State := forEach (List.range 3) s fun s a => joinEnd (joinReady s a) a

/-! ### Acknowledgement, credits and replay -/

/-- A neighbour that stopped for a join answers JOIN_READY once everything on its bypass links is acknowledged (R504). -/
def answerJoin (s : State) (d : Nat) : State :=
  let waiting := (dirLinks d).any fun l => (linkAt s l).stopped && !(linkAt s l).replay.isEmpty
  if waiting then s
  else forEach ((dirLinks d).filter fun l => (linkAt s l).readyOwed) s fun s l =>
    sendPlainCtl (modLink s l fun k => { k with readyOwed := false }) l 4

/-- What is left of the replay buffer after an ACK: everything up to the acknowledged flit leaves (R474, R476). -/
def ackedBy (replay : List (Nat × Bytes)) (ack : Nat) : List (Nat × Bytes) :=
  if replay.any (·.1 == ack) then (replay.dropWhile fun e => e.1 != ack).drop 1 else replay

def takeAck (s : State) (l ack : Nat) : State :=
  let k := linkAt s l
  let left := ackedBy k.replay ack
  let has (q : Nat) : Bool := left.any (·.1 == q)
  let s := modLink s l fun k =>
    { k with replay := left, resend := k.resend.filter fun e => has e.1
             tries := k.tries.filter fun e => has e.1
             unacked := k.unacked.filter fun m => match m.lastSeq with | some q => has q | none => true }
  answerJoin s (linkDir l)

/-- The credits a flit returns (R480). -/
def takeCredits (s : State) (l : Nat) (f : Bytes) : State :=
  let c := fieldAt f 5 1
  modLink s l fun k => { k with used := Tbl.upd 0 k.used (3 * bitsOf c 5 2 + bitsOf c 3 2) (· - fieldAt f 6 1) }

/-- How often the oldest unacknowledged flit has been sent again; no other has been so more often (R477). -/
def oldestTries (k : Link) : Nat := match k.replay with | (q, _) :: _ => Tbl.get 0 k.tries q | [] => 0

/-- A flit has been sent again REPLAY_LIM times without ACK passing it (R477). -/
def replayLimit (s : State) (l : Nat) : Bool := decide (regFld s ⟨.lnkCtrl, l, 0⟩ 8 4 ≤ oldestTries (linkAt s l))

/-- A replay begins: every flit after the last acknowledged one is sent again (R475, R518). Past REPLAY_LIM the link waits
for its fault (R477). -/
def startReplay (s : State) (l : Nat) : State :=
  if (linkAt s l).replay.isEmpty || replayLimit s l then s
  else regAddSat (modLink s l fun k => { k with resend := k.replay }) ⟨.lnkErrcnt, l, 0⟩ 0 16 1

/-- What any good flit carries beside its payload: ACK, credits, and NAK (R472, R475). -/
def takeLinkFields (s : State) (l : Nat) (f : Bytes) : State :=
  let s := takeCredits (takeAck s l (flitAck f)) l f
  if bitOf (fieldAt f 5 1) 7 then startReplay s l else s

/-! ### The egress (R481) -/

/-- A slot of a VC free on this hop. -/
def freeSlot (k : Link) (vc : Nat) : Option Nat :=
  (List.range 16).find? fun i => !(k.egress.any fun m => m.vc == vc && m.slot == some i)

def credited (k : Link) (m : OutMsg) : Bool := decide (Tbl.get 0 k.used (3 * m.vc + m.cls) < buffersOf m.vc m.cls)

/-- An older message of the flow: later ones are sent behind it (R484). -/
def olderOf (m o : OutMsg) : Bool := decide (o.order < m.order) && flowKey o.bytes == flowKey m.bytes

/-- An older message of the flow waits on this link, or waits or is unacknowledged on another, as after a detour or a move
(R484). -/
def flowWaits (s : State) (l : Nat) (m : OutMsg) : Bool :=
  s.fab.links.any fun e => e.2.egress.any (olderOf m) || (e.1 != l && e.2.unacked.any (olderOf m))

/-- A flit of the message is ready: a full one, or its last (R493). -/
def flitReady (m : OutMsg) : Bool := decide (m.sent < m.bytes.length) && (m.whole || decide (m.sent + 244 ≤ m.bytes.length))

/-- The message may send its next flit: it is ready, holds a credit and a slot, and none of its flow comes before it. A flit
of VC0 goes from the P0 queue (R56). -/
def sendable (s : State) (l : Nat) (k : Link) (m : OutMsg) : Bool :=
  flitReady m && credited k m && (m.slot.isSome || (freeSlot k m.vc).isSome) && (m.vc != 0 || decide (0 < m.p0))
    && !flowWaits s l m

/-- The P0 queue of link egress holds four VC0 flits; the flits beyond wait at their sources, in order of arrival (R55 to
R57). -/
def fillP0 (k : Link) : Link :=
  let held := sumN (k.egress.map (·.p0))
  let step (acc : Nat × List OutMsg) (m : OutMsg) : Nat × List OutMsg :=
    let more := if m.vc = 0 then min acc.1 (flitsIn m - m.sent / 244 - m.p0) else 0
    (acc.1 - more, acc.2 ++ [{ m with p0 := m.p0 + more }])
  { k with egress := (k.egress.foldl step (4 - held, [])).2 }

/-- The better of two messages: VC0 first, then the higher priority, then the older. -/
def betterMsg (a b : OutMsg) : Bool :=
  if (a.vc == 0) != (b.vc == 0) then a.vc == 0
  else if a.prio ≠ b.prio then decide (a.prio < b.prio) else decide (a.order < b.order)

/-- The message whose flit link egress sends next. -/
def nextMsg (s : State) (l : Nat) (k : Link) : Option OutMsg :=
  (k.egress.filter (sendable s l k)).foldl (fun best m => match best with
    | none => some m
    | some b => if betterMsg m b then some m else some b) none

/-- A CONTROL flit is taken and sent by a link that carries control traffic: trained, and not off (R472, R498). -/
def takesCtl (k : Link) : Bool :=
  usable k || k.st == .standby || (k.st == .training && k.trained)

/-- The next flit of a message goes (R470, R474, R480, R482); a relayed flit leaves its buffer of the ingress link. -/
def sendNext (s : State) (l : Nat) (m : OutMsg) : State :=
  let k := linkAt s l
  let slot := m.slot.getD ((freeSlot k m.vc).getD 0)
  let n := min 244 (m.bytes.length - m.sent)
  let som := m.sent == 0
  let eom := m.whole && m.sent + n == m.bytes.length
  let ctl := m.vc + b2n som * 16 + b2n eom * 32 + m.cls * 64
  let pay := (m.bytes.drop m.sent).take n
  let leaves := m.src.isSome && decide (m.freed ≤ m.sent / 244)
  let m' := { m with slot := some slot, sent := m.sent + n, lastSeq := if eom then some k.seq else none
                     freed := if leaves then m.sent / 244 + 1 else m.freed, p0 := m.p0 - 1 }
  let f := flitBytes ctl slot k.seq 0 0 0 n pay
  let s := modLink s l fun k =>
    { k with seq := (k.seq + 1) % 4096, replay := k.replay ++ [(k.seq, f)]
             used := Tbl.upd 0 k.used (3 * m.vc + m.cls) (· + 1)
             egress := if eom then k.egress.filter (fun o => o.order != m.order)
                       else k.egress.map fun o => if o.order = m.order then m' else o
             unacked := if eom then k.unacked ++ [m'] else k.unacked }
  freeBuffers (sendFlit s l ctl slot k.seq n false pay) m.src (b2n leaves)

/-- One flit boundary of link egress: a flit being replayed, or the next flit of the message that R481 chooses; IDLE where
there is nothing else to send (R472). -/
def egressFlit (s : State) (l : Nat) : State :=
  let s := modLink s l fillP0
  let k := linkAt s l
  if !usable k then (if takesCtl k then sendPlainCtl s l 0 else s)
  else match k.resend with
    | (q, f) :: _ =>
      let s := modLink s l fun k => { k with resend := k.resend.drop 1, tries := Tbl.upd 0 k.tries q (· + 1) }
      sendFlit s l (fieldAt f 0 1) (fieldAt f 1 1) q (fieldAt f 7 1) false ((f.drop 8).take 244)
    | [] =>
      if 512 ≤ k.replay.length || k.stopped then sendPlainCtl s l 0
      else match nextMsg s l k with
        | none => sendPlainCtl s l 0
        | some m => sendNext s l m

/-! ### A message off the link -/

/-- The buffer class with which a message that came in on link `l` in class `cls` goes on along the same axis: class 1
once it has crossed the dateline (R479). -/
def classAfter (s : State) (l cls : Nat) : Nat :=
  let a := linkAxis l
  let own := axisOf (ownPhys s) a
  let steps := if regBit s (lnkStatR l) 33 then 2 else 1
  let crossed := if linkDir l % 2 = 1 then decide (own < steps) else decide (extOf s a ≤ own + steps)
  if cls = 1 ∨ (cls = 0 ∧ crossed) then 1 else cls

/-- One hop more (R482). -/
def hopMore (m : Bytes) : Bytes := putAt m 13 (leBytes 1 (msgHops m + 1))

/-- A whole message has come in on a link: one hop more, then delivery or its next hop (R488, R491, R493). -/
def messageIn (s : State) (l cls : Nat) (m : Bytes) : State :=
  sendBytes s (hopMore m) (some (linkAxis l, classAfter s l cls)) l

/-- The first flit of a message of more flits: its header says where the message goes. One for this module is kept until it
is whole; one that goes on is relayed flit by flit from here (R488, R493). -/
def firstFlit (s : State) (l cls key : Nat) (pay : Bytes) : InMsg × State :=
  if pay.length < 32 then (.here pay, s)
  else
    let m := hopMore pay
    match routeOf s m (some (linkAxis l, classAfter s l cls)) with
    | .deliver => (.here pay, s)
    | .hop n c route =>
      (.on s.fab.msgOrder, nextOrder (putEgress s n { outMsg s c route m with whole := false, src := some (l, key) }))
    | .refuse st => (.dropped, refuse s m st l)

/-- More bytes of a message that goes on, and whether it is whole with them; false where no egress holds it any more. -/
def moreOf (s : State) (o : Nat) (pay : Bytes) (eom : Bool) : Bool × State :=
  (s.fab.links.any fun e => e.2.egress.any fun m => m.order == o,
   { s with fab := { s.fab with links := s.fab.links.map fun e =>
      (e.1, { e.2 with egress := e.2.egress.map fun m =>
        if m.order = o then { m with bytes := m.bytes ++ pay, whole := eom } else m }) } })

/-- A DATA flit accepted in order (R474, R478 to R481, R493): the flit of a message that goes on keeps its buffer until it is
sent; any other leaves it at once. -/
def acceptFlit (s : State) (l : Nat) (f : Bytes) : State :=
  let ctl := fieldAt f 0 1
  let vc := bitsOf ctl 0 2
  let cls := bitsOf ctl 6 2
  let key := 16 * vc + fieldAt f 1 1 % 16
  let buf := 3 * vc + cls
  let pay := (f.drop 8).take (fieldAt f 7 1)
  let som := bitOf ctl 4
  let eom := bitOf ctl 5
  let old := Tbl.get .idle (linkAt s l).asm key
  let s := modLink s l fun k =>
    { k with expect := (k.expect + 1) % 4096, rejecting := false, unackedRx := k.unackedRx + 1 }
  let s := if 32 ≤ (linkAt s l).unackedRx then sendPlainCtl s l 0 else s
  let setIn (s : State) (x : InMsg) : State := modLink s l fun k => { k with asm := Tbl.put .idle k.asm key x }
  let free (s : State) : State := freeBuffers s (some (l, buf)) 1
  if som then
    let s := dropCut s old
    if eom then messageIn (free (setIn s .idle)) l cls pay
    else
      let (x, s) := firstFlit s l cls buf pay
      let s := setIn s x
      match x with | .on _ => s | _ => free s
  else match old with
    | .here b => if eom then messageIn (free (setIn s .idle)) l cls (b ++ pay) else free (setIn s (.here (b ++ pay)))
    | .on o =>
      let (held, s) := moreOf s o pay eom
      let s := if eom then setIn s .idle else s
      if held then s else free s
    | _ => free (if eom then setIn s .idle else s)

/-! ### Identification (R501) -/

def identRecord (s : State) (l : Nat) : Bytes :=
  leBytes 1 1 ++ leBytes 1 (linkDir l) ++ leBytes 1 (l % 6) ++ leBytes 1 (linkAt s l).lanes.toNat
    ++ leBytes 2 (ownPhys s) ++ leBytes 2 ((ownChip s).getD 0xFFFF)
    ++ leBytes 1 s.fab.ext.1 ++ leBytes 1 s.fab.ext.2.1 ++ leBytes 1 s.fab.ext.2.2
    ++ leBytes 1 (linkCode (linkAt s l).st) ++ leBytes 4 s.fab.mapGen.toNat ++ List.replicate 228 0

/-- The peer that an IDENT names is the adjacent one (some false), the one beyond a bypassed module (some true), or none
that this link may reach. -/
def identGap (s : State) (l : Nat) (r : Bytes) : Option Bool :=
  let d := linkDir l
  let peer := fieldAt r 4 2
  let right := fieldAt r 1 1 == oppositeDir d && fieldAt r 2 1 == l % 6 && fieldAt r 8 1 == s.fab.ext.1
    && fieldAt r 9 1 == s.fab.ext.2.1 && fieldAt r 10 1 == s.fab.ext.2.2
  if !right then none
  else if peer = stepDir s (ownPhys s) d 1 then some false
  else if peer = stepDir s (ownPhys s) d 2 then some true
  else none

/-- What LNK_STAT shows of the peer (R517). -/
def notePeer (s : State) (l : Nat) (r : Bytes) (gap : Bool) : State :=
  let chip := fieldAt r 6 2
  let s := regPut s (lnkStatR l) 49 15 (fieldAt r 4 2)
  let s := regPut s (lnkStatR l) 34 15 (if chip = 0xFFFF then 0 else chip)
  let s := regPut s (lnkStatR l) 33 1 (b2n gap)
  regPut s (lnkStatR l) 32 1 (b2n (chip == 0xFFFF))

/-- The peer of a link as LNK_STAT holds it. -/
def peerPhys (s : State) (l : Nat) : Nat := regFld s (lnkStatR l) 49 15

/-- A write of LNK_CTRL (R499, R516): REPLAY_LIM of 0 is ignored, EN and RETRY act. -/
def lnkCtrlWrite (s : State) (l : Nat) (v : Nat) : State :=
  let r : Reg := ⟨.lnkCtrl, l, 0⟩
  let old := regGet s r
  let v' := if bitsOf v 8 4 = 0 then putBits v 8 4 (bitsOf old 8 4) else v
  let s := regWritePlain s r v' 0
  let k := linkAt s l
  let s :=
    if !bitOf v 0 then
      (if k.st = .active ∨ k.st = .degraded ∨ k.st = .standby ∨ k.st = .retrain ∨ k.st = .failed then leaveLink s l .disabled else s)
    else if k.st = .disabled ∧ claspOpen s l ∧ 1 < axisExtent s l then startTraining s l else s
  if bitOf v 1 ∧ (linkAt s l).st = .failed then startTraining s l else s

end Sys2Proof.Machine
end

