-- ==== Sys2Proof/Machine/Fabric.lean ====
section
/-! DEFINITION. Self-timed operation, crossings and priorities (chapter 01): the clocked islands, the arbiters, the pace
sensors and the brake. -/

namespace Sys2Proof.Machine
open Sys2Proof

/-! ### Clocked islands (R39 to R50) -/

/-- The islands in the order of R39's table. -/
def islandNo : Island → Nat
  | .t1c s => s.val
  | .t2c c => 8 + c.val
  | .lnk l => 24 + l.val
  | .host => 60
  | .boot => 61
  | .tel => 62
  | .kom d => 63 + d.val

/-- The depth of an island's dual-clock queues (R39). -/
def islandDepth : Island → Nat
  | .t1c _ | .lnk _ | .host => 32
  | .t2c _ | .kom _ => 16
  | .boot | .tel => 8

/-- The island's XSTAT register (R49). -/
def xstatR : Island → Reg
  | .t1c s => ⟨.t1cXstat, s.val, 0⟩
  | .t2c c => ⟨.t2cXstat, c.val, 0⟩
  | .lnk l => ⟨.lnkXstat, l.val, 0⟩
  | .host => ⟨.hostXstat, 0, 0⟩
  | .boot => ⟨.bootXstat, 0, 0⟩
  | .tel => ⟨.telXstat, 0, 0⟩
  | .kom d => ⟨.komXstat, d.val, 0⟩

/-- An island whose wake has a bound (R39). -/
def wakeBounded : Island → Bool
  | .t1c _ | .t2c _ | .boot | .tel => true
  | _ => false

def islandAt (s : State) (i : Island) : IslandSt := Tbl.get {} s.islands (islandNo i)
def modIsland (s : State) (i : Island) (f : IslandSt → IslandSt) : State :=
  { s with islands := Tbl.upd {} s.islands (islandNo i) f }

/-- CLK_STATE: 0 running, 1 stop requested, 2 stopped, 3 waking (R49). -/
def clkState (s : State) (i : Island) : Nat := regFld s (xstatR i) 8 2

/-- The island's clock runs: also while a stop request is not decided (R47). -/
def clkRuns (s : State) (i : Island) : Bool := decide (clkState s i < 2)

/-- The bytes of an entry of an island's dual-clock queues, where R39 gives them. -/
def entryFits (i : Island) (v : Bytes) : Bool := match i with | .lnk _ => v.length == 64 | _ => true

/-- The wake line is raised at a stopped island (R46). -/
def raiseWake (s : State) (i : Island) : State :=
  if clkState s i = 2 then regOr (regPut s (xstatR i) 8 2 3) (xstatR i) 1 else s

/-- A fault record of an island at P0 (R50). -/
def xstatFault (s : State) (i : Island) : State := faultReg s 0xFF (xstatR i)

/-- Events merge: EVT_OVR is set and counted (R45, R50). -/
def mergeEvent (s : State) (i : Island) : State :=
  let was := regBit s (xstatR i) 1
  let s := regAddSat (regOr s (xstatR i) 2) (xstatR i) 16 16 1
  if was then s else xstatFault s i

/-- An event enters the crossing of its direction (R44, R45). -/
def enterEvent (s : State) (i : Island) (toIsland : Bool) : State :=
  let x := islandAt s i
  let (fly, pend) := if toIsland then (x.inFlight, x.inPend) else (x.outFlight, x.outPend)
  let put (f p : Bool) : State :=
    modIsland s i fun x => if toIsland then { x with inFlight := f, inPend := p } else { x with outFlight := f, outPend := p }
  if !fly then put true false else if !pend then put true true else mergeEvent s i

/-- An event's round trip ends; the pending one follows (R44). -/
def endEvent (s : State) (i : Island) (toIsland : Bool) : State :=
  modIsland s i fun x =>
    if toIsland then { x with inFlight := x.inPend, inPend := false } else { x with outFlight := x.outPend, outPend := false }

/-- A value enters a dual-clock queue; a sender without credit waits (R41, R43). -/
def enterValue (s : State) (i : Island) (toIsland : Bool) (v : Bytes) : State :=
  modIsland s i fun x =>
    let q := if toIsland then x.inQ else x.outQ
    if islandDepth i ≤ q.length ∨ entryFits i v = false then x
    else if toIsland then { x with inQ := q ++ [v] } else { x with outQ := q ++ [v] }

/-- The oldest value reaches the other side (R41 to R43). -/
def takeValue (s : State) (i : Island) (toIsland : Bool) : State :=
  modIsland s i fun x => if toIsland then { x with inQ := x.inQ.drop 1 } else { x with outQ := x.outQ.drop 1 }

/-- What a stopped or waking island receives raises its wake line and is held (R46). -/
def enterStopped (s : State) (i : Island) (x : CrossItem) : State :=
  match x with
  | .value true v => raiseWake (enterValue s i true v) i
  | .event true => raiseWake (enterEvent s i true) i
  | _ => s

def doCrossingDeliver (i : Island) (x : CrossItem) (s : State) : State :=
  if clkRuns s i then
    match x with
    | .value d v => enterValue s i d v
    | .deliver d => takeValue s i d
    | .event d => endEvent s i d
  else match x with
    | .value true v => enterStopped s i (.value true v)
    | .deliver false => takeValue s i false
    | .event false => endEvent s i false
    | _ => s

/-- CROSSING_DELIVER (R41 to R43): a value enters a dual-clock queue in order, or the oldest one, or an event, reaches the
other side. -/
def execCrossingDeliver (i : Island) (x : CrossItem) (s : State) : Res := done s (doCrossingDeliver i x s)

def doEventCrossingSend (i : Island) (toIsland : Bool) (s : State) : State :=
  if clkRuns s i then enterEvent s i toIsland
  else if toIsland then enterStopped s i (.event true) else s

/-- EVENT_CROSSING_SEND (R44, R45, R49, R50). -/
def execEventCrossingSend (i : Island) (toIsland : Bool) (s : State) : Res := done s (doEventCrossingSend i toIsland s)

def doIslandWake (i : Island) (x : CrossItem) (s : State) : State := if clkRuns s i then s else enterStopped s i x

/-- ISLAND_WAKE (R46): a stopped island's crossing receives a value or an event. -/
def execIslandWake (i : Island) (x : CrossItem) (s : State) : Res := done s (doIslandWake i x s)

/-- The clock runs: what was held is delivered (R46). -/
def clockRuns (s : State) (i : Island) : State :=
  let s := regPut (regPut s (xstatR i) 8 2 0) (xstatR i) 0 1 0
  endEvent (modIsland s i fun x => { x with inQ := [] }) i true

/-- A link's island restarts by its training (R39). -/
def linkRestarts (s : State) (i : Island) : Bool :=
  match i with
  | .lnk l => let k := (linkAt s l.val).st; !(k == .disabled || k == .bypassed || k == .failed)
  | _ => false

def doIslandWakeDone (i : Island) (s : State) : State :=
  let lnk : Bool := match i with | .lnk _ => true | _ => false
  if (!lnk && clkState s i == 3) || (decide (2 ≤ clkState s i) && linkRestarts s i) then clockRuns s i else s

/-- ISLAND_WAKE_DONE (R46, R49). -/
def execIslandWakeDone (i : Island) (s : State) : Res := done s (doIslandWakeDone i s)

def doWakeLate (i : Island) (s : State) : State :=
  if clkState s i ≠ 3 ∨ !wakeBounded i then s
  else if regBit s (xstatR i) 2 then s else xstatFault (regOr s (xstatR i) 4) i

/-- WAKE_LATE (R49, R50). -/
def execWakeLate (i : Island) (s : State) : Res := done s (doWakeLate i s)

/-- An island may ask to stop (R39): nothing waits in its crossings, and its row's condition holds as far as it is state of
the module. -/
def mayStop (s : State) (i : Island) : Bool :=
  let x := islandAt s i
  let idle := x.inQ.isEmpty && x.outQ.isEmpty && !x.inFlight && !x.outFlight
  idle && (match i with
    | .kom _ => false
    | .host => Tbl.get false s.host.d3hot 0
    | .boot => s.boot.op.isNone
    | .lnk l => match (linkAt s l.val).st with
      | .bypassed | .disabled | .failed => true
      | .training => !(linkAt s l.val).trained
      | _ => false
    | _ => true)

def doIslandStopRequest (i : Island) (w : WakeMeet) (s : State) : State :=
  if !clkRuns s i then s
  else if !mayStop s i then (if clkState s i = 1 then regPut s (xstatR i) 8 2 0 else s)
  else match w with
    | .asked => regPut s (xstatR i) 8 2 1
    | .noWake => regPut s (xstatR i) 8 2 2
    | .wakeWins => regPut s (xstatR i) 8 2 0
    | .stopWins => raiseWake (regPut s (xstatR i) 8 2 2) i

/-- ISLAND_STOP_REQUEST (R47, R49): asked and not yet decided; granted; refused by a wake that wins, or by what has come to wait
since it was asked; granted and woken at once. -/
def execIslandStopRequest (i : Island) (w : WakeMeet) (s : State) : Res := done s (doIslandStopRequest i w s)

def doI3cStartCondition (s : State) : State := raiseWake s .tel

/-- I3C_START_CONDITION (R48). -/
def execI3cStartCondition (s : State) : Res := done s (doI3cStartCondition s)

/-- A write of an XSTAT register (R16, R45, R49): clearing EVT_OVR zeroes OVR_COUNT; a bit that hardware sets at that moment stays
set, with its record where it was not set before, and an event merged at that moment counts. -/
def xstatPut (s : State) (i : Island) (v hw : Nat) : State :=
  let r := xstatR i
  let new := hw &&& 6 &&& (6 - (regGet s r &&& 6))
  let s := regWritePlain s r v (hw &&& 6)
  let s := if bitOf hw 1 then regAddSat s r 16 16 1 else if bitOf v 1 then regPut s r 16 16 0 else s
  if new = 0 then s else xstatFault s i

def doXstatWrite (i : Island) (v hw : W32) (s : State) : State := xstatPut s i v.toNat hw.toNat

/-- XSTAT_WRITE (R16, R49). -/
def execXstatWrite (i : Island) (v hw : W32) (s : State) : Res := done s (doXstatWrite i v hw s)

/-! ### Arbiters (R51 to R59, R377, R378, R481) -/

def resourceNo : Resource → Nat
  | .strataBank t b => 4 * t.toNat + b.val
  | .fillPort t => 10000 + t.toNat
  | .meshLink d n => 20000 + 1024 * d.val + n
  | .bridge d n => 30000 + 1024 * d.val + n
  | .codecLane d i l => 40000 + 64 * d.val + 16 * i.val + l.val
  | .t1Channel s p => 41000 + 64 * s.val + p.val
  | .t2Channel c p => 42000 + 4 * c.val + p.val
  | .linkEgress l => 43000 + l.val
  | .hostDma => 44000
  | .collSequencer d => 45000 + d.val
  | .videoPair p => 46000 + p.val
  | .komodo d => 47000 + d.val

/-- The P0 queue depth of a resource (R57). -/
def p0Depth : Resource → Nat
  | .strataBank _ _ | .t1Channel _ _ | .t2Channel _ _ | .hostDma => 2
  | .fillPort _ | .codecLane _ _ _ => 1
  | .meshLink _ _ | .bridge _ _ | .linkEgress _ => 4
  | .collSequencer _ | .videoPair _ => 0
  | .komodo _ => 16

/-- The tier controller whose write-combining buffer decides between reads and writes (R378). -/
def resourceCtl : Resource → Option Nat
  | .t1Channel s _ => some s.val
  | .t2Channel c _ => some (8 + c.val)
  | _ => none

/-- The priority of a request (R51), and of a write-combining entry the highest of the writes it holds (R379). -/
def reqPrio (s : State) (q : Request) : Fin 4 :=
  match q.origin with
  | .fault | .command | .vc0 => 0
  | .step p => if (partAt s p.val).serving then 1 else 2
  | .background => 3
  | .combined u => match Tbl.get none s.tier.wc u with | some e => e.prio | none => 3

/-- The addresses of a request lead to this bank, pseudo-channel or sub-channel (R317, R350, R368). -/
def atResource (s : State) (r : Resource) (q : Request) : Bool :=
  match r with
  | .strataBank t b => match strataLoc q.addr with
    | some (w, off) => decide (liveTile s w = t.toNat) && decide (off / stratumSize = b.val)
    | none => false
  | .t1Channel k p => isT1 q.addr && decide (q.addr / 0x1000000000 = k.val) && decide (q.addr / 2048 % 64 = p.val)
  | .t2Channel c p => isT2 q.addr && decide ((q.addr - 0x100000000000) / 0x2000000000 = c.val) && decide (q.addr / 512 % 4 = p.val)
  | _ => true

/-- The controller of a resource drains writes: from 24 entries until at most 16 remain (R378). -/
def drainsWrites (s : State) (r : Resource) (was : Bool) : Bool :=
  match resourceCtl r with
  | none => false
  | some c => let n := (wcOf s c).length; decide (24 ≤ n) || (was && decide (16 < n))

/-- Requests of one source that touch the same bytes (R377). -/
def sameBytes (a b : Request) : Bool := a.src == b.src && overlap a.addr a.len b.addr b.len

/-! #### Merge tables (R219 to R221) -/

/-- The merge table that a resource's reads pass: a strata bank's own, a tier controller's. -/
def mergeNo : Resource → Option Nat
  | .strataBank t b => some (4 * t.toNat + b.val)
  | .t1Channel s _ => some (5000 + s.val)
  | .t2Channel c _ => some (5100 + c.val)
  | _ => none

/-- The line of a request: 256 B of strata, 2 KiB of tier 1, 512 B of tier 2 (R219). -/
def lineOf (r : Resource) (q : Request) : Nat :=
  match r with
  | .strataBank _ _ => q.addr / 256
  | .t1Channel _ _ => q.addr / 2048
  | _ => q.addr / 512

def mergeAt (s : State) (k : Nat) : List MergeEntry := Tbl.get [] s.merges k
def setMerge (s : State) (k : Nat) (l : List MergeEntry) : State := { s with merges := Tbl.put [] s.merges k l }
def arbAt (s : State) (r : Resource) : ArbSt := Tbl.get {} s.arbs (resourceNo r)
def setArb (s : State) (r : Resource) (x : ArbSt) : State := { s with arbs := Tbl.put {} s.arbs (resourceNo r) x }

/-- A P0 request that finds its queue full waits at its source (R56). A resource with no P0 queue has one place for it. -/
def p0Full (r : Resource) (ws : List WaitReq) : Bool :=
  decide (max 1 (p0Depth r) ≤ (ws.filter fun w => w.prio == 0).length)

/-- Arrivals join the arbiter in order (R52, R56). -/
def arrive (s : State) (r : Resource) (q : Request) : State :=
  let x := arbAt s r
  let p := reqPrio s q
  if p = 0 ∧ p0Full r x.waiting then s else setArb s r { x with waiting := x.waiting ++ [{ req := q, prio := p }] }

/-- A fetch that waits takes the priority of a joiner above its own, as of that joiner's arrival (R221). -/
def raiseFetch (ws : List WaitReq) (first : Option Request) (p : Fin 4) : List WaitReq :=
  match ws.find? fun w => some w.req == first with
  | some w => if p.val < w.prio.val then ws.erase w ++ [{ w with prio := p, p0Seen := 0 }] else ws
  | none => ws

/-- The pending fetch that a read joins (R219, R220): of its line, not yet delivering, and behind no write of the read's own
source to the same bytes (R377). -/
def joins (x : ArbSt) (r : Resource) (q : Request) (e : MergeEntry) : Bool :=
  e.line == lineOf r q && e.resource == resourceNo r && (!e.granted || q.inTime)
    && !(x.waiting.any fun w => w.req.write && sameBytes w.req q)

/-- A read joins the fetch of its line, or takes an entry of the merge table with a fetch of its own; with the table full it waits
for an entry (R219, R221). -/
def arriveRead (s : State) (r : Resource) (k : Nat) (q : Request) : State :=
  let x := arbAt s r
  let l := mergeAt s k
  match l.find? (joins x r q) with
  | some e =>
    let s := setMerge s k (l.map fun o => if o == e then { e with joiners := e.joiners ++ [q] } else o)
    if e.granted then s else setArb s r { x with waiting := raiseFetch x.waiting e.joiners.head? (reqPrio s q) }
  | none =>
    if 64 ≤ l.length then setArb s r { x with unmerged := x.unmerged ++ [q] }
    else if reqPrio s q = 0 ∧ p0Full r x.waiting then s
    else arrive (setMerge s k (l ++ [{ line := lineOf r q, resource := resourceNo r, joiners := [q] }])) r q

def arriveAny (s : State) (r : Resource) (q : Request) : State :=
  match mergeNo r with
  | some k => if q.write then arrive s r q else arriveRead s r k q
  | none => arrive s r q

/-- The fetch granted last delivers: no read joins it any more, and its entry is free (R220). -/
def endFetch (s : State) (r : Resource) : State :=
  match mergeNo r with
  | some k => setMerge s k ((mergeAt s k).filter fun e => !(e.granted && e.resource == resourceNo r))
  | none => s

/-- What arrives at a resource: reads that came in time join the fetch in progress; then that fetch delivers, and the reads
that waited for an entry come before the rest. -/
def takeArrivals (s : State) (r : Resource) (qs : List Request) : State :=
  let early (q : Request) : Bool := q.inTime && !q.write && (match mergeNo r with
    | some k => (mergeAt s k).any fun e => e.granted && joins (arbAt s r) r q e
    | none => false)
  let s' := endFetch (forEach (qs.filter early) s fun s q => arriveAny s r q) r
  let held := (arbAt s' r).unmerged
  let s' := setArb s' r { arbAt s' r with unmerged := [] }
  forEach (held ++ qs.filter fun q => !early q) s' fun s q => arriveAny s r { q with inTime := false }

/-! #### The grant -/

/-- The requests that no earlier one of their source to the same bytes precedes (R377). -/
def unblocked (ws : List WaitReq) : List WaitReq :=
  (ws.zipIdx.filter fun e => !((ws.take e.2).any fun w => sameBytes w.req e.1.req)).map (·.1)

/-- The oldest of the requests of one priority, reads or writes first at a tier channel (R52, R378). -/
def oldestOf (tier draining : Bool) (ws : List WaitReq) (p : Fin 4) : Option WaitReq :=
  let qs := ws.filter fun w => w.prio == p
  let first := if tier then qs.find? fun w => w.req.write == draining else none
  first.orElse fun _ => qs.head?

/-- The request granted next: a P1 request that has waited for a full P0 queue, else the highest priority (R52, R55). -/
def chooseRequest (r : Resource) (x : ArbSt) : Option WaitReq :=
  let tier := (resourceCtl r).isSome
  let ws := if tier then unblocked x.waiting else x.waiting
  let pick := oldestOf tier x.draining ws
  (ws.find? fun w => w.prio == 1 && decide (p0Depth r ≤ w.p0Seen)).orElse fun _ =>
    (pick 0).orElse fun _ => (pick 1).orElse fun _ => (pick 2).orElse fun _ => pick 3

/-- An arbiter after a grant: every P1 request that waits counts a P0 grant (R55). -/
def afterGrant (x : ArbSt) (q : WaitReq) : ArbSt :=
  { x with granted := some q.req
           waiting := (x.waiting.erase q).map fun w =>
             if q.prio = 0 ∧ w.prio = 1 then { w with p0Seen := w.p0Seen + 1 } else w }

/-- The fetch of a granted read is granted (R219, R221). -/
def grantFetch (s : State) (r : Resource) (q : Request) : State :=
  match mergeNo r with
  | some k => if q.write then s else setMerge s k ((mergeAt s k).map fun e =>
      if e.resource = resourceNo r ∧ e.joiners.head? = some q then { e with granted := true } else e)
  | none => s

def grantNext (s : State) (r : Resource) : State :=
  let x := arbAt s r
  let x := { x with draining := drainsWrites s r x.draining, granted := none }
  match chooseRequest r x with
  | some q => grantFetch (setArb s r (afterGrant x q)) r q.req
  | none => setArb s r x

def doArbiterGrant (r : Resource) (arrivals : List Request) (s : State) : State :=
  match r with
  | .linkEgress l => egressFlit s l.val
  | r => grantNext (takeArrivals s r (arrivals.filter (atResource s r))) r

/-- ARBITER_GRANT (R51 to R57, R219 to R221, R368, R377 to R379, R481): the resource is free, and its arbiter grants the waiting
request that goes next; at link egress, the next flit goes. -/
def execArbiterGrant (r : Resource) (arrivals : List Request) (s : State) : Res := done s (doArbiterGrant r arrivals s)

/-! ### Pace sensors (R27 to R35) -/

/-- The lowest of some indices and where it stands, the lower number on a tie. -/
def lowestOf (l : List Nat) : Nat × Nat :=
  (l.zipIdx).foldl (fun b x => if x.1 < b.1 then x else b) (nth 0 l 0, 0)

/-- One die's readings (R30, R33 to R35). -/
def paceDie (s : State) (d : Nat) (r : List Nat) : State :=
  let s := forEach (List.range 16) s fun s n => regPut s ⟨.telPaceSensor, d, n⟩ 0 12 (nth 0 r n)
  let (v, n) := lowestOf r
  let s := regPut (regPut s ⟨.telPaceDie, d, 0⟩ 0 12 v) ⟨.telPaceDie, d, 0⟩ 16 4 n
  regPut s ⟨.telPaceMin, d, 0⟩ 0 12 (min (regFld s ⟨.telPaceMin, d, 0⟩ 0 12) v)

/-- A window's end on every die (R30, R32). -/
def paceWindow (s : State) (rs : List (List Nat)) : State :=
  let s := forEach (List.range 8) s fun s d => paceDie s d (nth [] rs d)
  let (v, d) := lowestOf (rs.map fun r => (lowestOf r).1)
  regPut (regPut s ⟨.telPacePkg, 0, 0⟩ 0 12 v) ⟨.telPacePkg, 0, 0⟩ 12 3 d

/-- The nominal ring rate of a pace sensor in the fuse map (R28). -/
def nominalRate (s : State) (d n : Nat) : Nat := Tbl.get 1600 s.fuses.nominal (16 * d + n)

/-- The throughput index of a sensor: its ring rate by its nominal rate, in units of 1/1,024, at most 4,095 (R28, R31). -/
def paceIndex (s : State) (d n rate : Nat) : Nat := min 4095 (rate * 1024 / nominalRate s d n)

def doPaceWindowEnd (rs : List (List Nat)) (s : State) : State :=
  if s.pwr.powered ∧ rs.length = 8 ∧ rs.all (·.length == 16) then
    paceWindow s (rs.mapIdx fun d r => r.mapIdx fun n v => paceIndex s d n v)
  else s

/-- PACE_WINDOW_END (R28 to R30, R32 to R35): the ring rates of the 16 sensors of each die. -/
def execPaceWindowEnd (rates : List (List Nat)) (s : State) : Res := done s (doPaceWindowEnd rates s)

/-! ### The brake (R36, R37, R62 to R69, R797) -/

/-- The brake threshold of a voltage state, in mV (R36, R37). -/
def brakeLevel (v : Nat) : Nat := match v with | 0 => 580 | 1 => 630 | _ => 660

/-- A bit of PWR_STAT set or cleared makes a fault record (chapter 16). -/
def setPwrBit (s : State) (n : Nat) (b : Bool) : State :=
  if regBit s ⟨.pwrStat, 0, 0⟩ n = b then s
  else faultReg (regPut s ⟨.pwrStat, 0, 0⟩ n 1 (b2n b)) 0xFF ⟨.pwrStat, 0, 0⟩

def applyBrake (s : State) : State := setPwrBit { s with pwr := { s.pwr with brake := true } } 0 true

/-- A held newt starts, unless the starts of its die are staggered (R793). -/
def startHeld (s : State) (t : Nat) : State :=
  if (tileAt s t).st = .held ∧ startable s t then noteStart (modTile s t fun x => { x with st := .running }) t else s

/-- The held newts of a step start; where all were held, the step begins its execution now (R68). -/
def beginHeld (s : State) (p : Nat) : State :=
  match (partAt s p).run with
  | none => s
  | some r =>
    let ts := liveMembers s r.members
    let held := ts.all (fun t => (tileAt s t).st == .held) && ts.any (startable s)
    let s := if held ∧ r.gecko = false ∧ r.replays = 0 then modCmd s r.cid fun c => { c with begun := some s.now } else s
    forEach ts s startHeld

/-- Contexts of the video pairs begin frames again; an encode that was held begins its execution now (R64, R68). -/
def beginFrames (s : State) : State :=
  let ids := s.ing.ctxs.filterMap fun e => e.2.bind (·.cid)
  let s := { s with ing := { s.ing with ctxs := s.ing.ctxs.map fun e => (e.1, e.2.map fun c => { c with frame := true }) } }
  forEach ids s fun s k => modCmd s k fun c => { c with begun := if c.begun.isSome then c.begun else some s.now }

/-- Dispatch resumes once nothing holds it (R66, R798, R799). -/
def resumeDispatch (s : State) : State :=
  if dispatchHeld s then s
  else beginFrames (forEach (List.range 16) s beginHeld)

def releaseBrake (s : State) : State := resumeDispatch (setPwrBit { s with pwr := { s.pwr with brake := false } } 0 false)

def doBrakeApply (_d : Die) (mv ns : Nat) (s : State) : State :=
  if s.pwr.powered ∧ s.pwr.brake = false ∧ mv < brakeLevel (brakeState s) ∧ 2000 < ns then applyBrake s else s

/-- BRAKE_APPLY (R62 to R65, R797): die `d` has stayed at `mv` or below for `ns`. -/
def execBrakeApply (d : Die) (mv ns : Nat) (s : State) : Res := done s (doBrakeApply d mv ns s)

def doBrakeRelease (mv ns : Nat) (s : State) : State :=
  if s.pwr.powered ∧ s.pwr.brake ∧ s.pwr.holdup = false ∧ brakeLevel (brakeState s) + 15 < mv ∧ 10000 ≤ ns then releaseBrake s else s

/-- BRAKE_RELEASE (R66 to R68, R797): every die has stayed at `mv` or above for `ns`. -/
def execBrakeRelease (mv ns : Nat) (s : State) : Res := done s (doBrakeRelease mv ns s)

end Sys2Proof.Machine
end

