-- ==== Sys2Proof/Machine/Flash.lean ====
section
/-! DEFINITION. The boot flash (R844 to R849), the Luawyn image and its checks (R850 to R854), and the measured-boot log
(R833, R834). -/

namespace Sys2Proof.Machine
open Sys2Proof

def setBoot (s : State) (f : Boot → Boot) : State := { s with boot := f s.boot }
def setSec (s : State) (f : Security → Security) : State := { s with sec := f s.sec }

/-! ### Areas (R844, R845) -/

def flashBytes (s : State) (a n : Nat) : Bytes := bytesAt 0xFF s.boot.flash a n
def putFlash (s : State) (a : Nat) (b : Bytes) : State := setBoot s fun x => { x with flash := putBytes 0xFF x.flash a b }
def eraseFlash (s : State) (a n : Nat) : State := setBoot s fun x => { x with flash := Tbl.clearRange x.flash a n }
/-- Programming only clears bits of an erased NOR cell. -/
def programFlash (s : State) (a : Nat) (b : Bytes) : State :=
  putFlash s a (((flashBytes s a b.length).zip b).map fun x => x.1 &&& x.2)

def slotLen : Nat := 0x3000000
def slotBase (k : Nat) : Nat := k * slotLen
def selectorArea : Nat := 0x6000000
def ownerArea : Nat := 0x6002000
def chainArea : Nat := 0x6010000
def countArea : Nat := 0x6020000

/-! ### Records of two copies (R846 to R848) -/

/-- A kind of record: its area, magic and length with its CRC. -/
structure RecKind where
  area : Nat
  magic : Nat
  len : Nat

def selKind : RecKind := ⟨selectorArea, 0x4C455353, 16⟩
def ownKind : RecKind := ⟨ownerArea, 0x4452434F, 116⟩

def recCopy (s : State) (k : RecKind) (i : Nat) : Option Bytes :=
  let b := flashBytes s (k.area + 0x1000 * i) k.len
  if fieldAt b 0 4 = k.magic ∧ crc32c (b.take (k.len - 4)) = fieldAt b (k.len - 4) 4 then some b else none

/-- A sequence number ahead of another, modulo 2^32 (R534). -/
def recAhead (a b : Nat) : Bool := let d := (a + 2 ^ 32 - b) % 2 ^ 32; decide (0 < d) && decide (d < 2 ^ 31)

/-- The current copy: its number and bytes. -/
def recCurrent (s : State) (k : RecKind) : Option (Nat × Bytes) :=
  match recCopy s k 0, recCopy s k 1 with
  | some a, some b => if recAhead (fieldAt b 4 4) (fieldAt a 4 4) then some (1, b) else some (0, a)
  | some a, none => some (0, a)
  | none, some b => some (1, b)
  | none, none => none

/-- The place of the copy that the next record replaces. -/
def recTarget (s : State) (k : RecKind) : Nat :=
  k.area + 0x1000 * (match recCurrent s k with | some (i, _) => 1 - i | none => 0)

/-- A record of a body, from its magic and SEQ to its CRC. -/
def recBytes (s : State) (k : RecKind) (body : Bytes) : Bytes :=
  let seq := match recCurrent s k with | some (_, b) => (fieldAt b 4 4 + 1) % 2 ^ 32 | none => 1
  let b := leBytes 4 k.magic ++ leBytes 4 seq ++ body
  b ++ leBytes 4 (crc32c b)

/-- A record written: the older copy's sector is erased, then programmed (R846). -/
def putRec (s : State) (k : RecKind) (b : Bytes) : State :=
  let a := recTarget s k
  putFlash (eraseFlash s a 0x1000) a b

/-- The selector: the slot it names, and whether it is a TRIAL (R847). -/
def selector (s : State) : Nat × Bool :=
  match recCurrent s selKind with
  | some (_, b) => (if fieldAt b 8 1 = 1 then 1 else 0, fieldAt b 9 1 == 2)
  | none => (0, false)

def selBody (slot : Nat) (trial : Bool) : Bytes := leBytes 1 slot ++ leBytes 1 (if trial then 2 else 1) ++ leBytes 2 0
def writeSelector (s : State) (slot : Nat) (trial : Bool) : State := putRec s selKind (recBytes s selKind (selBody slot trial))

/-- The body of an owner record (R848). -/
def ownBody (key : Option Bytes) (lock once : Bool) : Bytes :=
  leBytes 1 (b2n key.isSome + b2n lock * 2 + b2n once * 4) ++ leBytes 7 0 ++ key.getD (List.replicate 96 0)

def ownState (b : Bytes) : Option Bytes × Bool × Bool :=
  let f := fieldAt b 8 1
  (if bitOf f 0 then some ((b.drop 0x10).take 96) else none, bitOf f 1, bitOf f 2)

/-- The owner state as the flash holds it: no key and no lock where neither copy is valid. -/
def ownerRec (s : State) : Option Bytes × Bool × Bool :=
  match recCurrent s ownKind with
  | some (_, b) => ownState b
  | none => (none, false, false)

/-! ### The start counter (R849) -/

def countBlock (i : Nat) : Nat := countArea + 0x10000 * i
/-- A block's BASE; none while it is erased. -/
def countBase (s : State) (i : Nat) : Option Nat :=
  let b := fieldAt (flashBytes s (countBlock i) 8) 0 8
  if b = 2 ^ 64 - 1 then none else some b
def countUsed (s : State) (i : Nat) : Nat :=
  ((List.range 8191).filter fun k => fieldAt (flashBytes s (countBlock i + 8 + 8 * k) 8) 0 8 != 2 ^ 64 - 1).length
def countActive (s : State) : Nat :=
  match countBase s 0, countBase s 1 with
  | some a, some b => if a < b then 1 else 0
  | none, some _ => 1
  | _, none => 0
def startCount (s : State) : Nat := (countBase s (countActive s)).getD 0 + countUsed s (countActive s)

/-- A start is counted: the next erased entry is programmed to zero; a full block hands over to the other. -/
def countStart (s : State) : State :=
  let i := countActive s
  let n := countUsed s i
  let base := (countBase s i).getD 0
  let s := if n < 8191 then putFlash (putFlash s (countBlock i) (leBytes 8 base)) (countBlock i + 8 + 8 * n) (leBytes 8 0)
    else
      let s := putFlash (eraseFlash s (countBlock (1 - i)) 0x10000) (countBlock (1 - i)) (leBytes 8 (base + n))
      putFlash s (countBlock (1 - i) + 8) (leBytes 8 0)
  setBoot s fun x => { x with count := startCount s }

/-! ### The image (R850 to R854) -/

def imgHeader (s : State) (k : Nat) : Bytes := flashBytes s (slotBase k) 4096
def imgSignature (s : State) (k : Nat) : Bytes := flashBytes s (slotBase k + 0x2FFF000) 4096
def ihVersion (h : Bytes) : Nat := fieldAt h 8 4
def ihLib (h : Bytes) : Nat := fieldAt h 0xC 2
def ihSvn (h : Bytes) : Nat := fieldAt h 0xE 1
def ihRaiseSvn (h : Bytes) : Bool := bitOf (fieldAt h 6 2) 0
def ihSigned (h : Bytes) : Nat := fieldAt h 0x10 4
def secEntry (h : Bytes) (i : Nat) : Bytes := (h.drop (0x20 + 32 * i)).take 32
def secEntries (h : Bytes) : List Bytes := (List.range 6).map (secEntry h)
def secOf (h : Bytes) (ty : Nat) : Bytes := ((secEntries h).find? fun e => fieldAt e 0 1 == ty).getD []
def secBytes (s : State) (k : Nat) (e : Bytes) : Bytes := flashBytes s (slotBase k + fieldAt e 4 4) (fieldAt e 8 4)

/-- The fields of a section entry (R851). -/
def secOk (e : Bytes) : Bool :=
  let ty := fieldAt e 0 1
  let n := fieldAt e 8 4
  decide (1 ≤ ty) && decide (ty ≤ 6) && zeroAt e 1 3 && fieldAt e 4 4 % 4096 == 0 && decide (0x1000 ≤ fieldAt e 4 4) && decide (1 ≤ n)
    && (ty != 2 || decide (n ≤ 8192)) && (ty != 6 || n == 256) && zeroAt e 0x10 16

/-- Check 1 of R853. -/
def headerOk (h : Bytes) : Bool :=
  fieldAt h 0 4 == 0x4E57554C && fieldAt h 4 2 == 3 && decide (fieldAt h 6 2 ≤ 1) && decide (ihSvn h ≤ 64) && fieldAt h 0xF 1 == 0xB1
    && ihSigned h % 4096 == 0 && decide (8192 ≤ ihSigned h) && decide (ihSigned h ≤ 50327552) && fieldAt h 0x14 2 == 6 && zeroAt h 0x16 10
    && zeroAt h 0xE0 320 && zeroAt h 0x220 3552 && (secEntries h).all secOk

/-- Check 3 of R853. -/
def sectionsApart (h : Bytes) : Bool :=
  let rs := (secEntries h).map fun e => (fieldAt e 4 4, fieldAt e 8 4)
  rs.all (fun r => decide (r.1 + r.2 ≤ ihSigned h))
    && (rs.mapIdx fun i r => (rs.drop (i + 1)).all fun q => !overlap r.1 r.2 q.1 q.2).all id

/-- The configuration section (R854). -/
def cfgOk (b : Bytes) : Bool :=
  let ext (i : Nat) : Bool := decide (1 ≤ fieldAt b (6 + i) 1) && decide (fieldAt b (6 + i) 1 ≤ 32)
  b.length == 256 && fieldAt b 0 4 == 0x46474E43 && fieldAt b 4 2 == 1 && ext 0 && ext 1 && ext 2 && decide (fieldAt b 9 1 ≤ 5)
    && decide (fieldAt b 0xA 1 ≤ 16) && decide (fieldAt b 0xB 1 < 8) && zeroAt b 0xC 4 && decide (fieldAt b 0x10 8 < 2 ^ 36) && zeroAt b 0x18 232

/-- The number of an unrevoked fused vendor key of a digest (R828). -/
def vendorKey (s : State) (digest : Bytes) : Option Nat :=
  (List.range (min 4 s.fuses.vendor.length)).find? fun i => nth [] s.fuses.vendor i == digest && !s.fuses.revoked.getLsbD i

/-- The image of a slot, checked under R828 and R853: OK, SIG_FAIL or IMAGE_BAD. -/
def imageStatus (s : State) (k : Nat) : Status :=
  let h := imgHeader s k
  let g := imgSignature s k
  let key := g.take 96
  if !headerOk h then stImageBad
  else if !((span 1 6).all fun ty => ((secEntries h).filter fun e => fieldAt e 0 1 == ty).length == 1) then stImageBad
  else if !sectionsApart h then stImageBad
  else if !((secEntries h).all fun e => crc32c (secBytes s k e) == fieldAt e 0xC 4) then stImageBad
  else if (vendorKey s (Config.sha384 key)).isNone then stImageBad
  else if !Config.ecdsaVerify key (Config.sha384 (flashBytes s (slotBase k) (ihSigned h))) ((g.drop 96).take 96) then stSigFail
  else if ihSvn h < s.fuses.svnMin then stImageBad
  else if !cfgOk (secBytes s k (secOf h 6)) then stImageBad
  else stOk

/-- The SHA-384 of each section of a slot, by TYPE (R856 step 4b). -/
def sectionDigests (s : State) (k : Nat) : List Bytes :=
  (span 1 6).map fun ty => Config.sha384 (secBytes s k (secOf (imgHeader s k) ty))

/-! ### The measured-boot log (R833, R834) -/

/-- An entry appended; the log holds at most 256. -/
def measure (s : State) (index event : Nat) (digest : Bytes) : State :=
  let e := leBytes 1 index ++ leBytes 1 event ++ leBytes 2 0 ++ leBytes 4 s.sec.logSeq ++ leBytes 8 s.boot.count ++ digest
  if 256 ≤ s.sec.log.length then s else setSec s fun x => { x with log := x.log ++ [e], logSeq := x.logSeq + 1 }

/-- What is measured at index 8: the owner key's digest, or zeros, and the lock state. -/
def ownerMeasure (s : State) : Bytes :=
  Config.sha384 ((match s.sec.ownerKey with | some k => Config.sha384 k | none => List.replicate 48 0) ++ leBytes 1 (b2n s.sec.lock))

/-- The measurements of a start or an activation: indices 1 to 9 (R834). -/
def measureAll (s : State) (event : Nat) (k : Nat) : State :=
  let s := measure s 1 event Config.romDigest
  let s := forEach (List.range 6) s fun s i => measure s (2 + i) event (nth [] s.boot.digests i)
  let s := measure s 8 event (ownerMeasure s)
  measure s 9 event (Config.sha384 (leBytes 1 s.fuses.svnMin ++ (imgSignature s k).take 96))

/-! ### Operations in progress -/

/-- A flash operation cut by a loss of power leaves what it was writing without a defined value; the other copy of a record
stays (R846, R873). -/
def cutFlash (s : State) : State :=
  let free (s : State) (a n : Nat) : State :=
    let (k, s) := takeFree s
    putFlash s a (freeBytes k n)
  let s := match s.boot.op with
    | none => s
    | some (.erase k _) => free s (slotBase k) slotLen
    | some (.program k off d _) => free s (slotBase k + off) d.length
    | some (.owner _ _) => free s (recTarget s ownKind) 0x1000
    | some (.selector _) => free s (recTarget s selKind) 0x1000
  setBoot s fun x => { x with op := none }

/-- A flash operation may start: none is in progress, and the input is not lost (R802 step 2). -/
def flashFree (s : State) : Bool := s.boot.op.isNone && !s.pwr.holdup

def startFlash (s : State) (o : FlashOp) : State := setBoot s fun x => { x with op := some o }

/-- A write of the owner state is done: SEC_STAT, its measurement, and a fault record where LOCK or OWNER changed. -/
def takeOwner (s : State) (key : Option Bytes) (lock once : Bool) : State :=
  let x := s.sec
  let changed := x.lock != lock || x.ownerKey.isSome != key.isSome
  let s := setSec s fun x => { x with ownerKey := key, lock, once }
  let s := measure s 8 3 (ownerMeasure s)
  if changed then faultReg s 0xFF ⟨.secStat, 0, 0⟩ else s

/-- What an operation that ends leaves in the flash, and its status. -/
def flashWritten (s : State) (o : FlashOp) (readBackOk : Bool) : Status × State :=
  match o with
  | .erase k _ => (stOk, eraseFlash s (slotBase k) slotLen)
  | .program k off d _ =>
    let s := programFlash s (slotBase k + off) d
    if readBackOk then (if flashBytes s (slotBase k + off) d.length = d then stOk else stCheckFail, s)
    else
      let (f, s) := takeFree s
      (stCheckFail, putFlash s (slotBase k + off) (freeBytes f d.length))
  | .owner b _ =>
    let (key, lock, once) := ownState b
    (stOk, takeOwner (putRec s ownKind b) key lock once)
  | .selector b => (stOk, putRec s selKind b)

def FlashOp.cid : FlashOp → Option Nat
  | .erase _ c => c
  | .program _ _ _ c => c
  | .owner _ c => c
  | .selector _ => none

/-- The operation in progress ends (R802, R846, R863, R864): its command completes, or the recovery status stands. -/
def finishFlash (s : State) (readBackOk : Bool) : State :=
  match s.boot.op with
  | none => s
  | some o =>
    let (st, s) := flashWritten (setBoot s fun x => { x with op := none }) o readBackOk
    match o.cid with
    | some cid => complete s cid st
    | none => if s.boot.phase = .recovery then setBoot s fun x => { x with rstatus := st } else s

def doFlashOperationDone (readBackOk : Bool) (s : State) : State := if s.pwr.powered then finishFlash s readBackOk else s

/-- FLASH_OPERATION_DONE (R846, R863, R864): the erase or program in progress is complete and, for a program, read back. -/
def execFlashOperationDone (readBackOk : Bool) (s : State) : Res := done s (doFlashOperationDone readBackOk s)

end Sys2Proof.Machine
end

