-- ==== Sys2Proof/Machine/Power.lean ====
section
/-! DEFINITION. Power control and telemetry (chapter 16), the charging of energy (R779, R780), the loss of input (R802) and
the open mate pin (R885). -/

namespace Sys2Proof.Machine
open Sys2Proof

def setPwr (s : State) (f : Power → Power) : State := { s with pwr := f s.pwr }

/-! ### The granted voltage state (R795 to R797) -/

def vreqR : Reg := ⟨.pwrVreq, 0, 0⟩
def limitR : Reg := ⟨.pwrLimit, 0, 0⟩
def pwrStatR : Reg := ⟨.pwrStat, 0, 0⟩

/-- The effective power limit in mW (R798). -/
def limitMw (s : State) : Nat := min (regFld s limitR 20 12) (regFld s limitR 8 12) * 1000

/-- A temperature site in 0.01 °C (R815). -/
def siteTemp (s : State) (d n : Nat) : Int := signedOf 16 (regFld s ⟨.telSite, d, n⟩ 0 16)

/-- The hottest site of a die: its temperature (R799). -/
def hottest (s : State) (d : Nat) : Int := (List.range 64).foldl (fun m n => max m (siteTemp s d n)) (siteTemp s d 0)

def allDies (p : Nat → Bool) : Bool := (List.range 8).all p

/-- VS4 and VS5 are allowed (R795). -/
def highAllowed (s : State) : Bool :=
  decide (regFld s pwrStatR 32 32 * 10 ≤ limitMw s * 9) && allDies fun d => decide (hottest s d < 8500)

/-- The state that R795 grants. -/
def wantedState (s : State) : Nat :=
  let v := min (regFld s vreqR 0 3) (min s.pwr.allowedPower s.pwr.allowedTherm)
  if 4 ≤ v ∧ !highAllowed s then 3 else v

/-- A new grant starts, or redirects, the ramp (R796). The voltage that a redirected ramp has reached lies no lower than the
lower of the states it was between. -/
def regrant (s : State) : State :=
  let g := grantedState s
  let w := wantedState s
  if w = g then s
  else
    let from_ := if s.pwr.ramping then min s.pwr.rampFrom g else g
    setPwr (regPut s vreqR 8 3 w) fun p => { p with rampFrom := from_, ramping := true }

/-- A write of STATE: 6 and 7 are ignored (R811). -/
def requestState (s : State) (v : Nat) : State := if 5 < v then s else regrant (regPut s vreqR 0 3 v)

def doPwrVreqWrite (v : W32) (s : State) : State := if inRun s then requestState s (bitsOf v.toNat 0 3) else s

/-- PWR_VREQ_WRITE (R36, R38, R795, R796, R811). -/
def execPwrVreqWrite (v : W32) (s : State) : Res := done s (doPwrVreqWrite v s)

def doVoltageRampDone (s : State) : State := setPwr s fun p => { p with ramping := false, rampFrom := grantedState s }

/-- VOLTAGE_RAMP_DONE (R36, R796). -/
def execVoltageRampDone (s : State) : Res := done s (doVoltageRampDone s)

/-! ### Power and thermal limits (R794, R798 to R800) -/

/-- The phases of a rail and each one's rating in mA (R790, R794); the input has none. -/
def railPhases (r : Nat) : Nat × Nat :=
  if r < 8 then (8, 50000) else if r < 16 then (2, 40000) else if r < 24 then (1, 90000)
  else match r with | 24 => (2, 40000) | 25 => (4, 80000) | 26 => (2, 30000) | _ => (0, 0)

def railMa (s : State) (r : Nat) : Nat := regFld s ⟨.telRail, 0, r⟩ 32 32

/-- A rail that has lost phases is asked for more than the rest are rated for (R794). -/
def railOver (s : State) : Bool :=
  s.pwr.phasesLost.any fun e => let (n, ma) := railPhases e.1; decide ((n - e.2) * ma < railMa s e.1)

/-- Dispatch holds of R798 as PWR_STAT shows them, and dispatch where nothing holds it any more. -/
def settleHolds (s : State) : State := resumeDispatch (setPwrBit s 1 (powerHold s))

/-- The average limit of R798, evaluated once each millisecond. -/
def averageLimit (s : State) (r : PowerReading) : State :=
  let lim := limitMw s
  let above := (decide (lim < r.avg1) && decide (lim < r.avg100)) || railOver s
  let low := decide (r.avg100 * 100 ≤ lim * 95) && !railOver s
  let g := grantedState s
  let s :=
    if above then setPwr s fun p =>
      if g = 0 then { p with holdAvg := true, msUp := 0 } else { p with allowedPower := min p.allowedPower (g - 1), msUp := 0 }
    else if low then setPwr s fun p =>
      if p.msUp + 1 < 10 then { p with msUp := p.msUp + 1 } else { p with msUp := 0, allowedPower := min 5 (p.allowedPower + 1) }
    else setPwr s fun p => { p with msUp := 0 }
  if low ∧ r.avg1 * 100 ≤ lim * 95 then setPwr s fun p => { p with holdAvg := false } else s

/-- The 10 ms limit of R798. -/
def peakLimit (s : State) (r : PowerReading) : State :=
  if 2950000 < r.avg10 then setPwr s fun p => { p with holdPeak := true }
  else if r.avg10 ≤ 2800000 then setPwr s fun p => { p with holdPeak := false }
  else s

def holdupR : Reg := ⟨.pwrHoldup, 0, 0⟩

/-- CHARGE: a weak bank caps it at 89 % (R801, R803). -/
def setCharge (s : State) (c : Nat) : State := regPut s holdupR 0 7 (min c (if regBit s holdupR 8 then 89 else 100))

def doPowerLimitTick (r : PowerReading) (s : State) : State :=
  if s.pwr.powered then
    let s := setCharge (regPut (setPwr s fun p => { p with lastReading := r }) pwrStatR 32 32 (min r.avg100 (2 ^ 32 - 1))) r.charge
    regrant (settleHolds (peakLimit (averageLimit s r) r))
  else s

/-- POWER_LIMIT_TICK (R794, R795, R798, R800, R810): one millisecond's readings. -/
def execPowerLimitTick (r : PowerReading) (s : State) : Res := done s (doPowerLimitTick r s)

/-- The thermal lowering of R799, evaluated each 100 µs: by one after each 1 ms at TLIM, back by one after each 10 ms at
3.0 °C below it. -/
def thermalLimit (s : State) : State :=
  let tlim : Int := regFld s limitR 0 7 * 100
  let hot := !(allDies fun d => decide (hottest s d < tlim))
  let cool := allDies fun d => decide (hottest s d ≤ tlim - 300)
  let g := grantedState s
  setPwr s fun p =>
    if hot then
      if p.thermUs + 100 < 1000 then { p with thermUs := p.thermUs + 100, coolUs := 0 }
      else { p with thermUs := 0, coolUs := 0, allowedTherm := min p.allowedTherm (g - 1) }
    else if cool then
      if p.coolUs + 100 < 10000 then { p with thermUs := 0, coolUs := p.coolUs + 100 }
      else { p with thermUs := 0, coolUs := 0, allowedTherm := min 5 (p.allowedTherm + 1) }
    else { p with thermUs := 0, coolUs := 0 }

/-- The thermal hold of R799. -/
def thermalHold (s : State) : State :=
  if !(allDies fun d => decide (hottest s d < 10000)) then setPwrBit s 2 true
  else if allDies fun d => decide (hottest s d ≤ 9700) then setPwrBit s 2 false
  else s

/-- How long each die has been at 110.0 °C (R799). -/
def tripTimes (s : State) : State :=
  forEach (List.range 8) s fun s d => setPwr s fun p =>
    { p with tripUs := Tbl.put 0 p.tripUs d (if 11000 ≤ hottest s d then Tbl.get 0 p.tripUs d + 100 else 0) }

def coolantR : Reg := ⟨.telCoolant, 0, 0⟩

/-- The measured temperatures as the registers hold them (R815, R909). -/
def noteTemps (s : State) (r : ThermalReading) : State :=
  let s := forEach (List.range 8) s fun s d => forEach (List.range 64) s fun s n =>
    regPut s ⟨.telSite, d, n⟩ 0 16 (codeOf 16 (nth 0 (nth [] r.sites d) n))
  regPut (regPut (setPwr s fun p => { p with lastThermal := r }) coolantR 48 16 (codeOf 16 r.inlet)) coolantR 32 16 (codeOf 16 r.outlet)

def doTemperatureMeasure (r : ThermalReading) (s : State) : State :=
  if s.pwr.powered then regrant (resumeDispatch (thermalHold (tripTimes (thermalLimit (noteTemps s r))))) else s

/-- TEMPERATURE_MEASURE (R795, R799, R800, R810, R815). -/
def execTemperatureMeasure (r : ThermalReading) (s : State) : Res := done s (doTemperatureMeasure r s)

/-- A phase shut off is recorded each time (R794). -/
def losePhase (s : State) (r : Nat) : State :=
  let s := setPwr s fun p => { p with phasesLost := Tbl.upd 0 p.phasesLost r (· + 1) }
  faultReg (regPut s pwrStatR 4 1 1) 0xFF pwrStatR

/-- A stack's FAILED bit that has changed makes a fault record (R420). -/
def tierFailedNotice (old s : State) (k : Nat) : State :=
  if bitOf (regRead old (tierStat k)) 31 = bitOf (regRead s (tierStat k)) 31 then s else faultReg s 0xFF (tierStat k)

def doPhaseFault (rail : Fin 28) (s : State) : State :=
  let r := rail.val
  let lost := Tbl.get 0 s.pwr.phasesLost r
  if !s.pwr.powered ∨ (railPhases r).1 ≤ lost then s
  else
    let s := losePhase s r
    if r < 8 ∧ lost = 2 then forEach (allTiles.filter fun t => tileDie t == r) s hwFault
    else if 16 ≤ r ∧ r < 24 then tierFailedNotice s (forEach (List.range 64) s fun s n => setUnitNo s (false, 64 * (r - 16) + n) 2) (r - 16)
    else s

/-- PHASE_FAULT (R173, R408, R794, R810, R812): a phase of the rail is shut off. -/
def execPhaseFault (rail : Fin 28) (s : State) : Res := done s (doPhaseFault rail s)

/-! ### Off (R71, R799, R802) -/

/-- What outlasts a power-off: the flash, the fuses, PWR_STAT.TRIP, the pins, host memory, and what has left the module.
Fabric time starts at 0 again, as TIME_NOW does (R14, R522). -/
def offState (s : State) : State :=
  let t : State :=
    { pending := s.pending, fresh := s.fresh, hostMem := s.hostMem, out := s.out, fuses := s.fuses
      clspHold := s.clspHold, boot := { flash := s.boot.flash }, host := { perst := s.host.perst }
      pwr := { mateA := s.pwr.mateA, mateB := s.pwr.mateB, inputMv := s.pwr.inputMv } }
  regPut t pwrStatR 5 1 (regFld s pwrStatR 5 1)

/-- Step 5 of R802: the clasps close, the phases stop, and the module is unpowered. A flash operation still in progress is
cut. -/
def powerOff (s : State) : State := offState (cutFlash (closeAll s))

def doThermalTrip (d : Die) (s : State) : State :=
  if s.pwr.powered ∧ 1000 ≤ Tbl.get 0 s.pwr.tripUs d.val then powerOff (setPwrBit s 5 true) else s

/-- THERMAL_TRIP (R799, R810, R812, R873): the die has been at 110.0 °C for 1 ms. -/
def execThermalTrip (d : Die) (s : State) : Res := done s (doThermalTrip d s)

/-- Steps 1 and 2 of R802: the switch opens, INLOSS is set, and the brake is applied. -/
def loseInput (s : State) : State :=
  if s.pwr.powered ∧ s.pwr.holdup = false then
    applyBrake (setPwrBit (setPwr s fun p => { p with switchOpen := true, holdup := true }) 3 true)
  else s

def noteInput (s : State) (mv : Nat) : State := setPwr s fun p => { p with inputMv := mv }

def doInputLoss (mv : Nat) (s : State) : State := if mv < 44000 then loseInput (noteInput s mv) else s

/-- INPUT_LOSS (R802, R873, R898): the input has been below 44 V for 2 µs. -/
def execInputLoss (mv : Nat) (s : State) : Res := done s (doInputLoss mv s)

def doInputOvervoltage (mv : Nat) (s : State) : State := if 60000 < mv then loseInput (noteInput s mv) else s

/-- INPUT_OVERVOLTAGE (R802, R898, R907): the input has been above 60 V for 100 µs. -/
def execInputOvervoltage (mv : Nat) (s : State) : Res := done s (doInputOvervoltage mv s)

def doMateOpen (b : Bool) (s : State) : State :=
  loseInput (setPwr s fun p => if b then { p with mateB := false } else { p with mateA := false })

/-- MATE_OPEN (R802, R885, R907): MATE_A, or MATE_B, opens; the input counts as absent. -/
def execMateOpen (b : Bool) (s : State) : Res := done s (doMateOpen b s)

def doInputReturn (mv : Nat) (s : State) : State :=
  if 45000 < mv ∧ mv ≤ 60000 then
    let s := setPwr (noteInput s mv) fun p => { p with mateA := true, mateB := true }
    if s.pwr.powered ∧ s.pwr.holdup then
      releaseBrake (setPwrBit (setPwr s fun p => { p with switchOpen := false, holdup := false }) 3 false)
    else s
  else s

/-- INPUT_RETURN (R802 step 3, R810): both mates closed, the input has stayed above 45 V for 100 µs. -/
def execInputReturn (mv : Nat) (s : State) : Res := done s (doInputReturn mv s)

def doHoldupDeadline (s : State) : State :=
  if s.pwr.powered ∧ s.pwr.holdup then powerOff (faultReg (finishFlash s true) 0xFF pwrStatR) else s

/-- HOLDUP_DEADLINE (R802 steps 4 and 5, R503, R884): the flash operation in progress completes, a fault record is written,
and the module powers off. -/
def execHoldupDeadline (s : State) : Res := done s (doHoldupDeadline s)

/-! ### Telemetry (R806 to R809) -/

/-- The body of a telemetry record; none for a type that R807 does not give. -/
def recordBody (s : State) (ty : Nat) : Option Bytes :=
  let rail (r : Nat) : Nat := regGet s ⟨.telRail, 0, r⟩
  let mv := bitsOf (rail 27) 16 16
  let ma := bitsOf (rail 27) 32 32
  let hot := (List.range 8).foldl (fun b d => if hottest s b < hottest s d then d else b) 0
  match ty with
  | 1 => some (leBytes 4 mv ++ leBytes 4 ma ++ leBytes 4 (mv * ma / 1000) ++ leBytes 4 (regFld s pwrStatR 32 32)
      ++ leBytes 1 (regFld s holdupR 0 7) ++ leBytes 1 (grantedState s) ++ leBytes 1 (regFld s vreqR 0 3)
      ++ leBytes 1 (b2n s.pwr.brake + b2n (powerHold s) * 2 + regFld s pwrStatR 2 2 * 4 + regFld s holdupR 8 1 * 16)
      ++ leBytes 2 (codeOf 16 (hottest s hot)) ++ leBytes 1 hot ++ leBytes 1 0
      ++ leBytes 2 (regFld s coolantR 48 16) ++ leBytes 2 (regFld s coolantR 32 16))
  | 2 => some ((List.range 28).flatMap fun r => leBytes 8 (rail r))
  | 3 => some ((List.range 8).flatMap fun d => (List.range 64).flatMap fun n => leBytes 2 (regFld s ⟨.telSite, d, n⟩ 0 16))
  | 4 => some ((List.range 8).flatMap fun d => leBytes 4 (regGet s ⟨.telPaceDie, d, 0⟩)
      ++ (List.range 16).flatMap fun n => leBytes 2 (regFld s ⟨.telPaceSensor, d, n⟩ 0 12))
  | 5 => some ((List.range 28).flatMap fun r => leBytes 8 (Tbl.get 0 s.pwr.energy r / 1000000))
  | _ => none

def recordSeq (s : State) (ty : Nat) : Nat := Tbl.get 0 s.pwr.seqs ty
def nextSeq (s : State) (ty : Nat) : State :=
  setPwr s fun p => { p with seqs := Tbl.put 0 p.seqs ty ((recordSeq s ty + 1) % 2 ^ 32) }

/-- A telemetry record with its header (R807). -/
def telRecord (s : State) (ty : Nat) : Option Bytes :=
  (recordBody s ty).map fun b =>
    leBytes 1 ty ++ leBytes 1 1 ++ leBytes 2 b.length ++ leBytes 4 (recordSeq s ty) ++ leBytes 8 s.now ++ b

/-- The I3C controller answers a transfer only while its clock runs (R48). -/
def i3cAnswers (s : State) : Bool := s.pwr.powered && clkRuns s .tel

def doGetRecord (rtype : Byte) (s : State) : State :=
  if !i3cAnswers s then s
  else match telRecord s rtype.toNat with
    | none => s
    | some b => nextSeq (emit s (.mctp b)) rtype.toNat

/-- GET_RECORD (R48, R806, R807). -/
def execGetRecord (rtype : Byte) (s : State) : Res := done s (doGetRecord rtype s)

def doSubscribe (rtype : Byte) (periodMs : BitVec 16) (s : State) : State :=
  let n := periodMs.toNat
  if i3cAnswers s ∧ 1 ≤ rtype.toNat ∧ rtype.toNat ≤ 5 ∧ (n = 0 ∨ (10 ≤ n ∧ n ≤ 60000)) then
    setPwr s fun p => { p with subs := Tbl.put 0 p.subs rtype.toNat n }
  else s

/-- SUBSCRIBE (R48, R806). -/
def execSubscribe (rtype : Byte) (periodMs : BitVec 16) (s : State) : Res := done s (doSubscribe rtype periodMs s)

def doSubscriptionPush (rtype : Byte) (sendable : Bool) (s : State) : State :=
  let ty := rtype.toNat
  if !s.pwr.powered ∨ Tbl.get 0 s.pwr.subs ty = 0 then s
  else match telRecord s ty with
    | none => s
    | some b =>
      if sendable ∧ clkRuns s .tel then endEvent (nextSeq (emit s (.mctp b)) ty) .tel true
      else nextSeq (doEventCrossingSend .tel true s) ty

/-- SUBSCRIPTION_PUSH (R45, R807, R808): a record that cannot be sent is merged, and its SEQ is skipped. -/
def execSubscriptionPush (rtype : Byte) (sendable : Bool) (s : State) : Res := done s (doSubscriptionPush rtype sendable s)

/-- A limit clamps to 1,000 to 2,600 W, TLIM to 70 to 100 °C (R813). -/
def clampW (w : Nat) : Nat := max 1000 (min 2600 w)
def clampT (t : Nat) : Nat := max 70 (min 100 t)

def doSetLimit (w : BitVec 16) (s : State) : State :=
  if i3cAnswers s then regrant (emit (regPut s limitR 8 12 (clampW w.toNat)) (.mctp (leBytes 2 stOk.toNat))) else s

/-- SET_LIMIT (R48, R806, R810, R813): answered with a status of 2 bytes. -/
def execSetLimit (w : BitVec 16) (s : State) : Res := done s (doSetLimit w s)

def pwrSetOk (c : Cmd) : Bool := c.fn == 0 && decide (c.byte 2 ≤ 5) && decide (70 ≤ c.byte 3) && decide (c.byte 3 ≤ 100)

/-- The limits of a PWR_SET (R809, R813). -/
def putLimits (s : State) (c : Cmd) : State :=
  let s := regPut (regPut s limitR 20 12 (clampW (fieldAt c.inl 0 2))) limitR 0 7 (c.byte 3)
  regrant (regPut s vreqR 0 3 (c.byte 2))

def doPwrSet (cid : Nat) (s : State) : State :=
  match cmdFor s cid 0x0200 with
  | none => s
  | some c =>
    let s := beginCmd s cid
    if pwrSetOk c then complete (putLimits s c) cid stOk else complete s cid stBadDescriptor

/-- PWR_SET (R795, R809, R810, R813). -/
def execPwrSet (cid : Nat) (s : State) : Res := done s (doPwrSet cid s)

def doTelRead (cid : Nat) (s : State) : State :=
  match cmdFor s cid 0x0201 with
  | none => s
  | some c =>
    let s1 := beginCmd s cid
    match telRecord s1 (c.byte 0) with
    | none => complete s1 cid stBadDescriptor
    | some b =>
      if c.fn ≠ 0 ∨ c.payLen < b.length then complete s1 cid stBadDescriptor
      else
        let (a, s2) := writeDst s1 c c.payload b
        endBy s (nextSeq s2 (c.byte 0)) cid a

/-- TEL_READ (R807, R809): the record of INLINE byte 0, written to PAYLOAD. -/
def execTelRead (cid : Nat) (s : State) : Res := done s (doTelRead cid s)

/-! ### Energy (R779, R780, R807, R815) -/

/-- The sums of a list by client. -/
def byClient (l : List (Nat × Nat)) : List (Nat × Nat) :=
  ((l.map (·.1)).eraseDups).map fun c => (c, sumN ((l.filter fun e => e.1 == c).map (·.2)))

def chargePj (s : State) (client pj : Nat) : State :=
  if pj = 0 then s else charge s client fun a => { a with energyPj := satAdd (acctTop * 1000000) a.energyPj pj }

/-- Energy divided in proportion, out of `total`, each share rounded down; and what is charged (R779, R780). -/
def chargeShares (s : State) (pj total : Nat) (l : List (Nat × Nat)) : State × Nat :=
  (byClient l).foldl (fun (x : State × Nat) e =>
    let share := if total = 0 then 0 else pj * e.2 / total
    (chargePj x.1 e.1 share, x.2 + share)) (s, 0)

/-- The entries of one die or stack. -/
def ofDie (d : Nat) (l : List (Nat × Nat × Nat)) : List (Nat × Nat) := (l.filter fun e => e.1 == d).map (·.2)

def total (l : List (Nat × Nat)) : Nat := sumN (l.map (·.2))

/-- One window's shares: each table row's energy, its divisor and its clients. Die and stack numbers come first in the
entries of `tileNs`, `engineNs` and `t1Bytes`; the virtual channel comes second in those of `linkBytes`. -/
def windowShares (w : EnergyWindow) : List (Nat × Nat × List (Nat × Nat)) :=
  let e (r : Nat) : Nat := nth 0 w.railPj r
  let dies := (List.range 8).map fun d => (e d + e (8 + d), 93000, ofDie d w.tileNs ++ ofDie d w.engineNs)
  let t1 := (List.range 8).map fun d => let l := ofDie d w.t1Bytes; (e (16 + d), total l, l)
  let link := w.linkBytes.map fun x => (x.1, x.2.2)
  dies ++ t1 ++ [(e 24, total w.t2Bytes, w.t2Bytes), (e 25, total link, link)]

/-- The energy measured: the input's, or the rails' where that is more. -/
def windowPj (w : EnergyWindow) : Nat := max (nth 0 w.railPj 27) (sumN (w.railPj.take 27))

/-- The counts of R778 that a window brings. -/
def chargeCounts (s : State) (w : EnergyWindow) : State :=
  let add (s : State) (client : Nat) (f : Account → Account) : State := charge s client f
  let top := acctTop
  let s := forEach w.engineNs s fun s e => add s e.2.1 fun a => { a with engineNs := satAdd top a.engineNs e.2.2 }
  let s := forEach w.t1Bytes s fun s e => add s e.2.1 fun a => { a with t1Bytes := satAdd top a.t1Bytes e.2.2 }
  let s := forEach w.t2Bytes s fun s e => add s e.1 fun a => { a with t2Bytes := satAdd top a.t2Bytes e.2 }
  let s := forEach w.hostBytes s fun s e => add s e.1 fun a => { a with hostBytes := satAdd top a.hostBytes e.2 }
  forEach w.linkBytes s fun s e => add s e.1 fun a =>
    let n := e.2.2
    match e.2.1 with
    | 0 => { a with link0 := satAdd top a.link0 n }
    | 1 => { a with link1 := satAdd top a.link1 n }
    | 2 => { a with link2 := satAdd top a.link2 n }
    | _ => { a with link3 := satAdd top a.link3 n }

/-- TEL_RAIL and the energy of each rail since reset (R807, R815). -/
def noteRails (s : State) (w : EnergyWindow) : State :=
  forEach (List.range 28) s fun s r =>
    let s := regSet s ⟨.telRail, 0, r⟩ (nth 0 w.railMa r % 2 ^ 32 * 2 ^ 32 + nth 0 w.railMv r % 2 ^ 16 * 2 ^ 16)
    setPwr s fun p => { p with energy := Tbl.upd 0 p.energy r (· + nth 0 w.railPj r) }

def doEnergyWindow (w : EnergyWindow) (s : State) : State :=
  if s.pwr.powered then
    let s := chargeCounts (noteRails s w) w
    let (s, given) := (windowShares w).foldl (fun (x : State × Nat) e =>
      let (t, n) := chargeShares x.1 e.1 e.2.1 e.2.2
      (t, x.2 + n)) (s, 0)
    chargePj s 4095 (windowPj w - given)
  else s

/-- ENERGY_WINDOW (R778 to R780, R815). -/
def execEnergyWindow (w : EnergyWindow) (s : State) : Res := done s (doEnergyWindow w s)

end Sys2Proof.Machine
end

