-- ==== Sys2Proof/Machine/Boot.lean ====
section
/-! DEFINITION. The start (R856 to R862), the brown-out reset (R70, R71), updates and activation (R864 to R872). -/

namespace Sys2Proof.Machine
open Sys2Proof

/-! ### The start up to the choice of a slot -/

/-- The coordinate and parity straps sampled at step 2 (R886, R908). -/
def sampleStraps (s : State) (v : BitVec 16) : State :=
  let ones := (bitSet 16 v.toNat).length
  let s := setBoot s fun b => { b with straps := v, parErr := ones % 2 == 0 }
  { s with fab := { s.fab with phys := v.setWidth 15 } }

/-- STR_SELFTEST of a tile from what its self-test found (R351, R360). -/
def selfTestWord (fs : List SelfTestFault) (t : Nat) : Nat :=
  let mine := fs.filter fun f => f.tile.toNat == t
  let bit (p : SelfTestFault → Bool) (i : Nat) : Nat := b2n (mine.any fun f => f.stratum.val == i && p f) * 2 ^ i
  let mask (p : SelfTestFault → Bool) : Nat := sumN ((List.range 4).map (bit p))
  let bad := mask fun f => f.missed || f.falseFlag
  4096 + mask (·.falseFlag) * 256 + mask (·.missed) * 16 + (15 - bad)

def selfTestBad (fs : List SelfTestFault) : List Nat :=
  allTiles.filter fun t => fs.any fun f => f.tile.toNat == t && (f.missed || f.falseFlag)

/-- A tile that failed takes a spare of its die, where one is left (R352, R860); which one is open (log entry 4). -/
def takeSpare (s : State) (t : Nat) : State :=
  let free := freeSpares s (tileDie t)
  if free.isEmpty then s
  else
    let (k, s) := takeFree s
    { s with strata := { s.strata with remap := Tbl.put none s.strata.remap t (some (nth 0 free (Config.freeNat k % free.length))) } }

/-- Step 4a: the checker self-test and the fill (R351 to R353, R360). -/
def selfTest (s : State) (fs : List SelfTestFault) : State :=
  let s := forEach allTiles s fun s t => regSet s ⟨.strSelftest, t, 0⟩ (selfTestWord fs t)
  let bad := selfTestBad fs
  let s := forEach bad s fun s t => modTile s t fun x => { x with st := .retired }
  forEach (bad.filter fun t => !s.fuses.spares.contains t) s takeSpare

/-- A tier unit that fails training retires, or is FAILED where the reserve is used up (R408, R409, R861). -/
def failTraining (s : State) (u : Bool × Nat) : State := setUnitNo s u (if reserveLeft s u then 1 else 2)

def badUnits (env : StartEnv) : List (Bool × Nat) :=
  env.badT1.map (fun u => (false, 64 * u.1.val + u.2.val)) ++ env.badT2.map fun c => (true, c.val)

/-- Step 4d: the capacitance test (R803, R814). -/
def capTest (s : State) (cap : Nat) : State :=
  setCharge (regPut (regPut s holdupR 16 16 (min 0xFFFF cap)) holdupR 8 1 (b2n (decide (cap < 7200)))) 100

/-- The readings of the first pace window are open, and none is 0 (R31; log entry 4). -/
def firstWindow (s : State) : State :=
  let (k, s) := takeFree s
  paceWindow s ((List.range 8).map fun d => (List.range 16).map fun n => 1 + freeAt k (16 * d + n) % 4095)

/-- 32 fresh random bytes (R838). -/
def freshNonce (s : State) : State :=
  let (k, s) := takeFree s
  setSec s fun x => { x with nonce := freeBytes k 32 }

/-- What CD0's ROM reads of the owner area and the counter (step 4b; R835, R839, R849). -/
def readOwner (s : State) : State :=
  let (key, lock, once) := ownerRec s
  setBoot (setSec s fun x => { x with ownerKey := key, lock, once }) fun b => { b with count := startCount s }

/-- The slot that a start tries first: the selector's, or the other while an activation was on trial (R847, R858). -/
def firstSlot (s : State) : Nat := let (k, trial) := selector s; if trial then 1 - k else k

/-- A slot is tried (R858, R859). -/
def trySlot (s : State) (k : Nat) : State :=
  setBoot s fun b => { b with slot := k, fallback := k != (selector s).1, phase := .verify, imageOk := false }

/-- Steps 2 to 4 of the start of a module whose input is good (R856). -/
def startModule (s : State) (env : StartEnv) : State :=
  let t := offState s
  let t := setPwr t fun p => { p with powered := true, switchOpen := false, rampFrom := 3 }
  let t := regPut (regPut t vreqR 0 3 3) vreqR 8 3 3
  let t := selfTest (sampleStraps t env.straps) env.selfTest
  let t := capTest (forEach (badUnits env) t failTraining) env.cap10uF
  let t := readOwner (freshNonce (firstWindow t))
  trySlot t (firstSlot t)

def doPowerOnStart (inputMv : Nat) (env : StartEnv) (s : State) : State :=
  if s.pwr.powered = false ∧ 46000 ≤ inputMv ∧ inputMv ≤ 60000 then
    startModule (setPwr s fun p => { p with mateA := true, mateB := true, inputMv }) env
  else s

/-- POWER_ON_START (R14, R31, R351 to R353, R360, R413, R487, R495, R499, R511, R601, R739, R764, R791, R803, R814, R816, R833,
R838, R856, R860, R861, R884, R886, R887, R897, R908): both mates closed, the input has stayed at 46 V for 1 ms. -/
def execPowerOnStart (inputMv : Nat) (env : StartEnv) (s : State) : Res := done s (doPowerOnStart inputMv env s)

/-- A brown-out reset: the clasps close, memory is lost, the module starts from step 2 (R70, R71, R856). An input that is
lost stays lost. -/
def brownOut (s : State) (env : StartEnv) : State :=
  let lost := s.pwr.holdup
  let t := startModule (cutFlash (closeAll s)) env
  if lost then loseInput t else t

def doBrownOutReset (_d : Die) (mv : Nat) (env : StartEnv) (s : State) : State :=
  if s.pwr.powered ∧ mv ≤ 560 then brownOut s env else s

/-- BROWN_OUT_RESET (R14, R70, R71, R166, R499, R503, R739, R764, R816, R856, R873, R886): the detector of die `d` trips. -/
def execBrownOutReset (d : Die) (mv : Nat) (env : StartEnv) (s : State) : Res := done s (doBrownOutReset d mv env s)

/-! ### Verification, fill and release -/

/-- The IMG fields and the pod extents of the image in the active slot (R854, R855, R887). The chip map keeps its entries. -/
def keepMap (s : State) (ext : Nat × Nat × Nat) : State :=
  let t : State := { s with fab := { s.fab with ext } }
  if s.fab.ext = ext then s
  else forEach (List.range 32768) t fun t i =>
    if mapEntry s i = mapEntry t i then t
    else { t with fab := { t.fab with map := Tbl.put none t.fab.map i (some (mapEntry s i)) } }

/-- A coordinate outside the extents (R887). -/
def outside (p : Nat) (ext : Nat × Nat × Nat) : Bool :=
  decide (ext.1 ≤ p % 32) || decide (ext.2.1 ≤ p / 32 % 32) || decide (ext.2.2 ≤ p / 1024)

def cfgExt (b : Bytes) : Nat × Nat × Nat := (fieldAt b 6 1, fieldAt b 7 1, fieldAt b 8 1)

/-- The vendor key that verified a slot, as VKEY shows it (R841). -/
def vkeyBits (s : State) (k : Nat) : Nat :=
  match vendorKey s (Config.sha384 ((imgSignature s k).take 96)) with
  | some i => 2 ^ i
  | none => 0

def setImg (s : State) (k : Nat) (keep : Bool) : State :=
  let h := imgHeader s k
  let b := secBytes s k (secOf h 6)
  let ext := cfgExt b
  let s := if keep then keepMap s ext else s
  let s := { s with fab := { s.fab with ext } }
  let s := setBoot s fun x => { x with cfg := b, fwActive := BitVec.ofNat 32 (ihVersion h), svn := ihSvn h, libVersion := ihLib h
                                       range := outside s.fab.phys.toNat ext }
  let s := regPut (regPut s ⟨.secStat, 0, 0⟩ 16 4 (vkeyBits s k)) ⟨.timeCtrl, 0, 0⟩ 0 1 (fieldAt b 0xB 1 % 2)
  let s := forEach (List.range 36) s fun s l =>
    let s := regPut s ⟨.lnkCtrl, l, 0⟩ 0 1 (fieldAt b 0x10 8 / 2 ^ l % 2)
    modLink s l fun x => if x.st = .bypassed ∨ x.st = .disabled then
      { x with st := if axisExtent s l ≤ 1 then .disabled else .bypassed } else x
  regrant (regPut s vreqR 0 3 (fieldAt b 9 1))

/-- Step 5: the release (R833, R834, R849, R855, R856). A start is counted once, whichever slots it tries (R849). -/
def release (s : State) : State :=
  let s := setImg s s.boot.slot false
  let s := if s.boot.counted then s else countStart s
  setBoot (measureAll s 1 s.boot.slot) fun b => { b with phase := .load, counted := true }

/-- A slot fails for this start: the other is tried, or the module enters RECOVERY (R859). -/
def slotFailed (s : State) (st : Status) : State :=
  let k := s.boot.slot
  let s := setBoot s fun b => { b with lastErr := st, tried := b.tried ++ [k] }
  if s.boot.tried.contains (1 - k) then setBoot s fun b => { b with phase := .recovery, verified := none, rstatus := stOk }
  else trySlot s (1 - k)

/-- A good slot: under R858 the selector now names it; the release waits for the fill. -/
def slotGood (s : State) : State :=
  let k := s.boot.slot
  let (sel, trial) := selector s
  let s := if trial ∧ k ≠ sel then writeSelector s k false else s
  let s := setBoot s fun b => { b with imageOk := true, digests := sectionDigests s k, phase := .fill }
  if s.boot.tiersFilled then release s else s

def doImageVerifyDone (s : State) : State :=
  if s.boot.phase ≠ .verify then s
  else
    let st := imageStatus s s.boot.slot
    if st = stOk then slotGood s else slotFailed s st

/-- IMAGE_VERIFY_DONE (R828, R829, R847, R853, R854, R856, R858, R859, R874). -/
def execImageVerifyDone (s : State) : Res := done s (doImageVerifyDone s)

def doTierFillDone (s : State) : State :=
  if s.boot.tiersFilled ∨ !(s.boot.phase == .verify || s.boot.phase == .fill || s.boot.phase == .recovery) then s
  else
    let s := setBoot s fun b => { b with tiersFilled := true }
    if s.boot.phase = .fill ∧ s.boot.imageOk then release s else s

/-- TIER_FILL_DONE (R413, R849, R855, R856, R876). -/
def execTierFillDone (s : State) : Res := done s (doTierFillDone s)

/-- The address is wrong: the links stay BYPASSED (R887). -/
def geoBad (s : State) : Bool := s.boot.parErr || s.boot.range

/-- The fault records that Komodo makes at RUN (R803, R860, R887). -/
def runRecords (s : State) : State :=
  let short := (List.range 8).any fun d => decide ((activeTiles s d).length < 80)
  let s := if short then faultReg s 0xFF ⟨.bootActive, 0, 0⟩ else s
  let s := if geoBad s then faultReg s 0xFF ⟨.bootGeo, 0, 0⟩ else s
  if regBit s holdupR 8 then faultReg s 0xFF holdupR else s

/-- The writes of ADMQ_EN that waited for RUN (R862). -/
def wantedAdmq (s : State) : State :=
  let fs := s.host.admqWanted
  forEach fs (setHost s fun h => { h with admqWanted := [] }) fun s f => doAdmqEnable (Fin.ofNat 17 f) s

/-- The words of a section, each of four bytes at its address, the last filled up with zeros (R12, R851). -/
def sectionWords (b : Bytes) : Tbl W32 := wordTbl 0 (b ++ List.replicate (3 - (b.length + 3) % 4) 0)

/-- Komodo loads the library region of every newt from the NEWT_LIB section of the active slot (R133, R164, R178, R851). -/
def loadLib (s : State) : State :=
  setBoot s fun b => { b with newtLib := sectionWords (secBytes s b.slot (secOf (imgHeader s b.slot) 2)) }

/-- Steps 6 and 7: RUN, and the join where the image asks for it (R856, R894). -/
def reachRun (s : State) : State :=
  let s := wantedAdmq (runRecords (setBoot (loadLib s) fun b => { b with phase := .run }))
  if bitOf (fieldAt s.boot.cfg 0xB 1) 1 ∧ !geoBad s ∧ s.clspHold = false then startJoin s else s

def doEnterRun (s : State) : State :=
  if s.boot.phase ≠ .load then s
  else if sectionDigests s s.boot.slot = s.boot.digests then reachRun s
  else slotFailed s stImageBad

/-- ENTER_RUN (R164, R178, R504, R856, R857, R859, R860, R862, R875, R887, R894). -/
def execEnterRun (s : State) : Res := done s (doEnterRun s)

/-- A failure for which no status is given: some status other than a success (log entry 4). -/
def someFailure (s : State) : Status × State :=
  let (k, s) := takeFree s
  let l := statusCatalogue.filter fun c => !isSuccess c
  (nth stImageBad l (Config.freeNat k % l.length), s)

def doKomodoRunTimeout (s : State) : State :=
  if s.boot.phase ≠ .load then s
  else
    let (st, s) := someFailure s
    slotFailed s st

/-- KOMODO_RUN_TIMEOUT (R859): which status LAST_ERR takes is open. -/
def execKomodoRunTimeout (s : State) : Res := done s (doKomodoRunTimeout s)

def doPerstDeassert (s : State) : State := setHost s fun h => { h with perst := false }

/-- PERST_DEASSERT (R862): the endpoint answers. -/
def execPerstDeassert (s : State) : Res := done s (doPerstDeassert s)

/-! ### Updates (R864 to R866) -/

def inactiveSlot (s : State) : Nat := 1 - s.boot.slot
def chargeLow (s : State) : Bool := decide (regFld s holdupR 0 7 < 90)

/-- The first two checks of R865. -/
def updateRefused (s : State) : Option Status :=
  if s.sec.lock then some stUpdLock else if chargeLow s then some stUpdHoldup else none

def clearInact (s : State) : State := setBoot s fun b => { b with inactOk := false }

def doUpdBegin (cid : Nat) (s : State) : State :=
  match cmdFor s cid 0x0400 with
  | none => s
  | some c =>
    if !flashFree s then s
    else
      let s := beginCmd s cid
      if c.fn ≠ 0 then complete s cid stBadDescriptor
      else match updateRefused s with
        | some st => complete s cid st
        | none => startFlash (clearInact s) (.erase (inactiveSlot s) (some cid))

/-- UPD_BEGIN (R840, R864, R865): the inactive slot's erase begins; it completes with FLASH_OPERATION_DONE. -/
def execUpdBegin (cid : Nat) (s : State) : Res := done s (doUpdBegin cid s)

def doUpdWrite (cid : Nat) (s0 : State) : State :=
  match cmdFor s0 cid 0x0401 with
  | none => s0
  | some c =>
    if !flashFree s0 then s0
    else
      let s := beginCmd s0 cid
      if c.fn ≠ 0 then complete s cid stBadDescriptor
      else match updateRefused s with
        | some st => complete s cid st
        | none =>
          let off := fieldAt c.inl 0 4
          if off % 4096 ≠ 0 ∨ slotLen < off + c.payLen then complete s cid stBadDescriptor
          else withPayload s c 0 fun s b => startFlash (clearInact s) (.program (inactiveSlot s) off b (some cid))

/-- UPD_WRITE (R840, R864, R865, R873, R874): the write into the inactive slot begins. -/
def execUpdWrite (cid : Nat) (s : State) : Res := done s (doUpdWrite cid s)

def doUpdVerify (cid : Nat) (s : State) : State :=
  match cmdFor s cid 0x0402 with
  | none => s
  | some c =>
    if s.boot.op.isSome then s
    else
      let s := beginCmd s cid
      let k := inactiveSlot s
      if c.fn ≠ 0 then complete s cid stBadDescriptor
      else
        let st := imageStatus s k
        let s := if st = stOk then
          setBoot s fun b => { b with inactOk := true, fwInactive := BitVec.ofNat 32 (ihVersion (imgHeader s k)) } else s
        complete s cid st

/-- UPD_VERIFY (R4, R828, R829, R853, R864, R874, R875). -/
def execUpdVerify (cid : Nat) (s : State) : Res := done s (doUpdVerify cid s)

/-- R865 of an ACTIVATE. -/
def activateRefused (s : State) : Option Status :=
  match updateRefused s with
  | some st => some st
  | none =>
    if (List.range 16).any fun p => (partAt s p).st == .running then some stUpdActive
    else if !s.boot.inactOk then some stImageBad else none

def doActivate (cid : Nat) (s : State) : State :=
  match cmdFor s cid 0x0403 with
  | none => s
  | some c =>
    if !flashFree s ∨ s.boot.act.isSome then s
    else
      let s := beginCmd s cid
      if c.fn ≠ 0 ∨ 2 ≤ c.byte 0 then complete s cid stBadDescriptor
      else match activateRefused s with
        | some st => complete s cid st
        | none =>
          let s := startFlash s (.selector (recBytes s selKind (selBody (inactiveSlot s) true)))
          setBoot s fun b => { b with act := some (cid, c.byte 0 == 1), actPaused := false, actFailed := none, trial := true }

/-- ACTIVATE (R840, R846, R864 to R867, R873, R874): the TRIAL selector is written; then the pause begins. -/
def execActivate (cid : Nat) (s : State) : Res := done s (doActivate cid s)

/-! ### The pause (R868 to R870, R872) -/

/-- AES operations that were bound end, and their bindings are released (R825, R868 step 1). -/
def releaseBindings (s : State) : State :=
  forEach (List.range 64) { s with sec := { s.sec with ops := [] } } fun s k =>
    let x := slotAt s k
    let s := modSlot s k fun x =>
      { x with current := if x.erasing then none else x.current.map fun y => { y with bound := 0 }, shadow := none }
    if x.erasing then settleSlot s k else s

/-- Encodes in progress end with ABORTED_BY_COMMAND. -/
def endEncodes (s : State) : State :=
  let gone := s.ing.ctxs.filterMap fun e => match e.2 with
    | some c => c.cid.map fun cid => (e.1, cid)
    | none => none
  forEach gone s fun s e => complete (setCtx s e.1 none) e.2 stAborted

/-- Step 1: the clasps close, and what runs ends with ABORTED_BY_COMMAND. -/
def pauseStops (s : State) : State :=
  let s := closeAll s
  let s := forEach (List.range 16) s fun s p => closePipes (drainEnd s p stAborted) p
  releaseBindings (endEncodes s)

/-- Every newt is EMPTY: program regions are cleared (R164, R872). -/
def emptyAll (s : State) : State := forEach allTiles s emptyNewt

/-- A collective stream of a kept partition fails (R872). -/
def failStream (s : State) (p n : Nat) : State :=
  let c := collAt s p n
  match c.st, c.run, c.pending with
  | .closed, _, _ => s
  | .failed, _, _ => s
  | _, some r, _ => collFail s p n r.op stAborted 0 false
  | _, none, o :: _ => collFail s p n o stAborted 0 false
  | _, none, [] => modColl s p n fun c => { c with st := .failed, failStatus := stAborted, held := [], tags := [], aborts := [] }

/-- R872 with ACT_KEEP set. -/
def keepState (s : State) : State :=
  let s := forEach ((List.range 16).filter fun p => (partAt s p).st != .none) s fun s p => advanceEpoch s p
  let s := forEach (List.range 16) s fun s p => forEach (List.range 64) s fun s n => failStream s p n
  emptyAll s

/-- Queues but for the PF's of no partition become FREE, their commands completing with ROLE_CHANGED (R872). -/
def freeQueues (s : State) : State :=
  let qs := (s.host.queues.filter fun e => e.2.st != .free && !(e.2.fn == 0 && e.2.part == 0xFF)).map (·.1)
  let gone := (s.host.cmds.filter fun c => match c.queue with | some q => qs.contains q | none => false).map (·.id)
  let s := forEach gone s fun s k => complete s k stRoleChanged
  let s := forEach qs s fun s q => modQueue s q fun _ => {}
  setHost s fun h => { h with coalescer := h.coalescer.filter fun e => !qs.contains e.1
                              bitmap := h.bitmap.filter fun e => !qs.contains e.1, binds := [] }

/-- A partition ceases, keeping its number's epoch; a deletion of it is complete (R739). -/
def ceasePart (s : State) (p : Nat) : State :=
  let q := partAt s p
  let s := endHeldTakes s p
  let s := modPart (if q.st = .none then s else setPartState s p .none) p fun q => { epoch := q.epoch }
  match q.deleteCid with
  | some cid => complete s cid stOk
  | none => s

/-- The strata are filled and their tables of regions cleared; a remapped tile keeps its spare, and spare lines stay mapped (R346,
R353, R354; log entry 118). -/
def clearStrata (s : State) : State :=
  let s := { s with mem := Tbl.clearRange s.mem 0x200000000000 (8 * 0x400000000) }
  { s with strata := { s.strata with regions := [], badParity := [], refetching := [], awaiting := [] } }

/-- The tier regions are freed; their cells wait for the fill (R413, R751, R872). -/
def clearTiers (s : State) : State :=
  let cells := (s.tier.regions.filter fun r => !r.backed).map fun r => (r.base, r.size)
  setTier s fun t => { t with regions := [], frames := [], wc := [], streams := [], unfilled := t.unfilled ++ cells }

/-- R872 with ACT_KEEP clear. -/
def dropState (s0 : State) : State :=
  let s := freeQueues s0
  let s := forEach (List.range 16) s ceasePart
  let s := { s with coll := {}, ckpt := { counter := s.ckpt.counter }, ing := { s.ing with pipes := [], ctxs := [], dicts := [] }
                    staged := [], chains := [], holds := [], partials := [], partSent := [], flying := [] }
  let s := setSec s fun x => { x with slots := [] }
  let s := clearTiers (clearStrata s)
  let s := forEach allTiles s fun s t => modTile (emptyNewt s t) t fun x => { x with part := none, smem := [] }
  forEach (List.range 16) s (tierNotice s0)

/-- Step 2: the new slot, or the old one where the new one fails (R868, R870). -/
def pauseSlot (s : State) : State :=
  let k := inactiveSlot s
  let st := imageStatus s k
  if st = stOk then
    setBoot s fun b => { b with slot := k, digests := sectionDigests s k, inactOk := false }
  else
    setBoot (writeSelector s s.boot.slot false) fun b => { b with lastErr := st, actFailed := some st, trial := false
                                                                  digests := sectionDigests s b.slot }

/-- An activation that failed completes with its status (R870). -/
def failedAct (s : State) (cid : Nat) : State :=
  match s.boot.actFailed with
  | some st => setBoot (complete s cid st) fun b => { b with act := none, actFailed := none }
  | none => s

/-- Steps 5 and 6: the join starts, or is skipped and the pause ends (R868, R887, R894, R907). -/
def pauseJoin (s : State) : State :=
  let s := setBoot s fun b => { b with phase := .pause }
  let none_ := (List.range 3).all fun a => decide (extOf s a ≤ 1)
  if s.clspHold ∨ geoBad s ∨ none_ then endPause s else startJoin s

def doActivationPause (s : State) : State :=
  match s.boot.act with
  | none => s
  | some (cid, keep) =>
    if s.boot.op.isSome ∨ s.boot.phase ≠ .run ∨ s.boot.actPaused then s
    else
      let s := loadLib (pauseSlot (pauseStops s))
      let s := setImg (measureAll s 2 s.boot.slot) s.boot.slot true
      let s := if keep then keepState s else dropState s
      pauseJoin (failedAct s cid)

/-- ACTIVATION_PAUSE (R164, R178, R353, R354, R413, R503, R504, R605, R739, R753, R764, R816, R825, R833, R853, R855, R857, R867,
R868, R870, R872): the pause up to the start of its join. -/
def execActivationPause (s : State) : Res := done s (doActivationPause s)

def doPauseTimeout (s : State) : State :=
  if s.boot.phase = .pause then endPause (regOr s ⟨.bootStat, 0, 0⟩ (2 ^ 22)) else s

/-- PAUSE_TIMEOUT (R868, R869, R874): at 650 ms the pause ends, and the join continues. -/
def execPauseTimeout (s : State) : Res := done s (doPauseTimeout s)

/-- The owner record written again with the lock that UNLOCK_ONCE had cleared (R839, R872). -/
def relock (s : State) : State :=
  if s.sec.once then
    takeOwner (putRec s ownKind (recBytes s ownKind (ownBody s.sec.ownerKey true false))) s.sec.ownerKey true false
  else s

/-- The fused minimum raised to the image's (R828, R871). -/
def raiseSvn (s : State) : State :=
  let h := imgHeader s s.boot.slot
  if ihRaiseSvn h ∧ s.fuses.svnMin < ihSvn h then { s with fuses := { s.fuses with svnMin := ihSvn h } } else s

def doActivationCommit (s : State) : State :=
  match s.boot.act with
  | none => s
  | some (cid, _) =>
    if s.boot.actPaused ∧ s.boot.phase = .run ∧ flashFree s then
      let s := relock (raiseSvn (writeSelector s s.boot.slot false))
      complete (setBoot s fun b => { b with act := none, actPaused := false, trial := false }) cid stOk
    else s

/-- ACTIVATION_COMMIT (R839, R846, R867, R871, R872). -/
def execActivationCommit (s : State) : Res := done s (doActivationCommit s)

end Sys2Proof.Machine
end

