-- ==== Sys2Proof/Machine/Links.lean ====
section
/-! DEFINITION. The commands of chapter 10: flits and control records on the torus links, training, clasps and joins,
fabric time. -/

namespace Sys2Proof.Machine
open Sys2Proof

def doDataFlit (l : LinkId) (f : Bytes) (corrected : Nat) (fecBad : Bool) (s : State) : State :=
  let n := l.val
  let k := linkAt s n
  let good := flitGood f && !fecBad
  if !usable k || (good && flitKind f != 0) then s
  else
    let s := regAddSat s ⟨.lnkErrcnt, n, 0⟩ 32 32 corrected
    let s := if fecBad then regAddSat s ⟨.lnkErrcnt, n, 0⟩ 24 8 1 else s
    let s := if good then takeLinkFields s n f else s
    if good && flitSeq f == k.expect && decide (1 ≤ fieldAt f 7 1) && decide (fieldAt f 7 1 ≤ 244)
        && decide (bitsOf (fieldAt f 0 1) 6 2 < 3) then acceptFlit s n f
    else if (linkAt s n).rejecting then s
    else sendPlainCtl (modLink s n fun k => { k with rejecting := true }) n 0 true

/-- DATA_FLIT (R474, R475, R476, R478 to R480, R488 to R493, R518): a flit accepted in order is acknowledged, and its message
relayed flit by flit or delivered when whole; any other is rejected with NAK. `fec` counts the codewords that the FEC
corrected in it and says whether one was uncorrectable. -/
def execDataFlit (l : LinkId) (f : Bytes) (fec : FecResult) (s : State) : Res :=
  done s (doDataFlit l f fec.corrected fec.bad s)

def doCtlIdle (l : LinkId) (f : Bytes) (s : State) : State :=
  if takesCtl (linkAt s l.val) && isCtl f 0 then takeLinkFields s l.val f else s

/-- IDLE (R472, R475, R480): ACK, NAK and credits. -/
def execCtlIdle (l : LinkId) (f : Bytes) (s : State) : Res := done s (doCtlIdle l f s)

def doAckTimer (l : LinkId) (s : State) : State :=
  let k := linkAt s l.val
  if usable k && decide (0 < k.unackedRx) then sendPlainCtl s l.val 0 else s

/-- ACK_TIMER (R474): 100 ns with unacknowledged flits; an IDLE carries the ACK. -/
def execAckTimer (l : LinkId) (s : State) : Res := done s (doAckTimer l s)

def doReplayTimeout (l : LinkId) (s : State) : State :=
  if usable (linkAt s l.val) then startReplay s l.val else s

/-- REPLAY_TIMEOUT (R475, R477): ACK has not advanced for 2 us; the sender resends from the oldest unacknowledged flit. -/
def execReplayTimeout (l : LinkId) (s : State) : Res := done s (doReplayTimeout l s)

def doIdentSend (s : State) : State :=
  forEach ((List.range 36).filter fun l => takesCtl (linkAt s l)) s fun s l => sendCtl s l (identRecord s l)

/-- IDENT_SEND (R473): IDENT on every link whose lanes have adapted. -/
def execIdentSend (s : State) : Res := done s (doIdentSend s)

def doCtlIdent (l : LinkId) (f : Bytes) (s : State) : State :=
  let n := l.val
  let k := linkAt s n
  if !(takesCtl k && isCtl f 1) then s
  else
    let s := takeLinkFields s n f
    let r := ctlRecord f
    match identGap s n r with
    | none => if k.st = .training then joinProgress (failLink s n 2) else s
    | some gap =>
      let s := notePeer s n r gap
      if k.st ≠ .training then s
      else
        let d := linkDir n
        let joining := (joinAt s (linkAxis n)).step = .half
        let others := (dirLinks d).filter (linkUsable s)
        let same := others.all fun o => peerPhys s o == peerPhys s n
        joinProgress (modLink s n fun k => { k with st := if !joining && same then .active else .standby })

/-- IDENT (R499, R501): identification makes a link in TRAINING ACTIVE, STANDBY or FAILED. -/
def execCtlIdent (l : LinkId) (f : Bytes) (s : State) : Res := done s (doCtlIdent l f s)

def doTimeSend (s : State) : State :=
  let ls := (List.range 6).filterMap fun d => (dirLinks d).find? fun l => (linkAt s l).st == .active
  forEach ls s fun s l => sendPlainCtl s l 2

/-- TIME_SEND (R512): a TIME record on the lowest-numbered ACTIVE link to each neighbour. The layout of the record beyond
its type is not given. -/
def execTimeSend (s : State) : Res := done s (doTimeSend s)

def setFab (s : State) (f : Fabric → Fabric) : State := { s with fab := f s.fab }

/-- A fabric time moved by an offset in units of 0.1 ns, never below zero. -/
def stepTime (now : Nat) (offset : Int) : Nat := ((now : Int) + offset / 10).toNat

def doTimeRecord (l : LinkId) (f : Bytes) (offset : Int) (s : State) : State :=
  if !((linkAt s l.val).st == .active && isCtl f 2) then s
  else
    let s := takeLinkFields s l.val f
    if s.fab.parent.map Fin.val ≠ some (linkDir l.val) ∨ s.fab.gm then s
    else
      let s := regPut s ⟨.timeStat, 0, 0⟩ 0 16 (min 0xFFFF offset.natAbs)
      if !s.fab.locked then
        lockStep (setFab s fun x => { x with locked := true, holdover := false }) (stepTime s.now offset)
      else
        let (k, s) := takeFree s
        let m : Int := (Config.freeNat k % 101 : Nat)
        setFab s fun x => { x with slew := if offset < 0 then -m else if offset = 0 then 0 else m
                                   holdover := decide (200 < offset.natAbs) }

/-- TIME_RECORD (R512 to R514): the estimated offset to the parent, parent less own, in 0.1 ns. Before the first lock the
time steps; after it the rate slews by at most 100 ppm, by an amount the specification does not fix. -/
def execTimeRecord (l : LinkId) (f : Bytes) (offset : Int) (s : State) : Res := done s (doTimeRecord l f offset s)

def doCtlJoin (l : LinkId) (f : Bytes) (s : State) : State :=
  if !((linkAt s l.val).st == .standby && isCtl f 3) then s
  else
    let s := takeLinkFields s l.val f
    let d := linkDir l.val
    let s := forEach ((dirLinks d).filter (linkUsable s)) s fun s o => modLink s o fun k => { k with stopped := true }
    answerJoin (modLink s l.val fun k => { k with readyOwed := true }) d

/-- JOIN (R504 step 5): the neighbour stops its bypass links and answers JOIN_READY once they are acknowledged. -/
def execCtlJoin (l : LinkId) (f : Bytes) (s : State) : Res := done s (doCtlJoin l f s)

def doCtlJoinReady (l : LinkId) (f : Bytes) (s : State) : State :=
  let a := linkAxis l.val
  let j := joinAt s a
  if !((linkAt s l.val).st == .standby && isCtl f 4 && j.step == .sent) then s
  else
    let s := takeLinkFields s l.val f
    let j := if linkDir l.val % 2 = 0 then { j with readyPlus := true } else { j with readyMinus := true }
    let s := setJoin s a j
    let s := if j.readyPlus && j.readyMinus then joinCommit s a else s
    if s.boot.phase = .pause ∧ relaysAll s then endPause s else s

/-- JOIN_READY (R504 step 6, R868): with both records in, JOIN_COMMIT goes to both neighbours and the module relays; an
activation's pause ends once it relays on every axis. -/
def execCtlJoinReady (l : LinkId) (f : Bytes) (s : State) : Res := done s (doCtlJoinReady l f s)

def doCtlJoinCommit (l : LinkId) (f : Bytes) (s : State) : State :=
  if !((linkAt s l.val).st == .standby && isCtl f 5) then s
  else
    let s := takeLinkFields s l.val f
    let d := linkDir l.val
    let old := (dirLinks d).filter (linkUsable s)
    let s := activateStandby s d
    forEach old s fun s o => leaveLink s o .failed

/-- JOIN_COMMIT (R499, R504): the neighbour's STANDBY links become ACTIVE and its bypass links FAILED; their flows move. -/
def execCtlJoinCommit (l : LinkId) (f : Bytes) (s : State) : Res := done s (doCtlJoinCommit l f s)

def doCtlJoinAbort (l : LinkId) (f : Bytes) (s : State) : State :=
  if !((linkAt s l.val).st == .standby && isCtl f 6) then s
  else
    let s := takeLinkFields s l.val f
    forEach (dirLinks (linkDir l.val)) s fun s o => modLink s o fun k => { k with stopped := false, readyOwed := false }

/-- JOIN_ABORT (R505): a neighbour that had stopped resumes its bypass links. -/
def execCtlJoinAbort (l : LinkId) (f : Bytes) (s : State) : Res := done s (doCtlJoinAbort l f s)

def doJoinReadyTimeout (axis : Fin 3) (s : State) : State :=
  let a := axis.val
  let j := joinAt s a
  if j.step ≠ .sent then s
  else
    let s := sendBoth s a 6
    if j.retries + 1 < 3 then setJoin s a { j with step := .retryWait, retries := j.retries + 1 }
    else
      let ls := (dirLinks (2 * a) ++ dirLinks (2 * a + 1)).filter fun l => (linkAt s l).st == .standby
      setJoin (forEach ls s fun s l => regPut s (lnkStatR l) 24 4 6) a {}

/-- JOIN_READY_TIMEOUT (R505): 1 ms without both JOIN_READY records; JOIN_ABORT, and after the third the links stay
STANDBY with WHY JOIN. -/
def execJoinReadyTimeout (axis : Fin 3) (s : State) : Res := done s (doJoinReadyTimeout axis s)

def doJoinRetry (axis : Fin 3) (s : State) : State :=
  let j := joinAt s axis.val
  if j.step ≠ .retryWait then s
  else sendBoth (setJoin s axis.val { j with step := .sent, readyPlus := false, readyMinus := false }) axis.val 3

/-- JOIN_RETRY (R505): 10 ms after an abort, step 5 again. -/
def execJoinRetry (axis : Fin 3) (s : State) : Res := done s (doJoinRetry axis s)

def doLaneFault (l : LinkId) (_lane : Fin 4) (s : State) : State :=
  match (linkAt s l.val).st with
  | .active => startRetrain s l.val 3
  | .degraded => failLink s l.val 3
  | _ => s

/-- LANE_FAULT (R499, R508, R510): an ACTIVE link retrains; a DEGRADED one fails and its flows move. -/
def execLaneFault (l : LinkId) (lane : Fin 4) (s : State) : Res := done s (doLaneFault l lane s)

def whyCode : LinkWhy → Nat
  | .secondLane => 3 | .retrainFailed => 3 | .codewords => 5 | .replayLimit => 4

def doLinkFault (l : LinkId) (why : LinkWhy) (s : State) : State :=
  let k := linkAt s l.val
  let due := match why with
    | .replayLimit => replayLimit s l.val
    | _ => true
  if usable k && due then
    let s := startRetrain s l.val (whyCode why)
    modLink (dropParts (moveFlows s l.val) l.val) l.val fun k => { freshLink k with st := .retrain }
  else s

/-- LINK_FAULT (R477, R499, R508, R509): the link retrains and every message it had not had acknowledged moves to the
direction's other links or to a detour. -/
def execLinkFault (l : LinkId) (why : LinkWhy) (s : State) : Res := done s (doLinkFault l why s)

def doTrainingComplete (l : LinkId) (lanes : BitVec 4) (s : State) : State :=
  if (linkAt s l.val).st = .training ∧ lanes = 15#4 then
    modLink s l.val fun k => { k with trained := true, lanes }
  else s

/-- TRAINING_COMPLETE (R500): the lanes have adapted; identification follows. -/
def execTrainingComplete (l : LinkId) (lanes : BitVec 4) (s : State) : Res := done s (doTrainingComplete l lanes s)

def doTrainingTimeout (l : LinkId) (s : State) : State :=
  if (linkAt s l.val).st = .training then joinProgress (failLink s l.val 1) else s

/-- TRAINING_TIMEOUT (R499, R507): 40 ms without identification. -/
def execTrainingTimeout (l : LinkId) (s : State) : Res := done s (doTrainingTimeout l s)

def doRetrainComplete (l : LinkId) (lanes : BitVec 4) (s : State) : State :=
  let n := (bitSet 4 lanes.toNat).length
  if (linkAt s l.val).st ≠ .retrain then s
  else if n < 3 then failLink s l.val (linkAt s l.val).cause
  else startReplay (modLink s l.val fun k =>
    { k with st := if n = 4 then .active else .degraded, lanes, resend := [] }) l.val

/-- RETRAIN_COMPLETE (R499, R500, R508, R510): ACTIVE on four lanes, DEGRADED on three, else FAILED; unacknowledged flits go
again. -/
def execRetrainComplete (l : LinkId) (lanes : BitVec 4) (s : State) : Res := done s (doRetrainComplete l lanes s)

def doRetrainTimeout (l : LinkId) (s : State) : State :=
  if (linkAt s l.val).st = .retrain then failLink s l.val (linkAt s l.val).cause else s

/-- RETRAIN_TIMEOUT (R499): 100 us elapsed. -/
def execRetrainTimeout (l : LinkId) (s : State) : Res := done s (doRetrainTimeout l s)

def doSignalDetected (l : LinkId) (lanes : BitVec 4) (s : State) : State :=
  if (linkAt s l.val).st = .failed ∧ lanes = 15#4 ∧ regBit s ⟨.lnkCtrl, l.val, 0⟩ 2 then startTraining s l.val else s

/-- SIGNAL_DETECTED (R499): a FAILED link with AUTO_RETRY trains when signal returns on four lanes. -/
def execSignalDetected (l : LinkId) (lanes : BitVec 4) (s : State) : Res := done s (doSignalDetected l lanes s)

/-- LNK_RETRY (R499, R516): a write of LNK_CTRL with RETRY set. -/
def execLnkRetry (l : LinkId) (v : W32) (s : State) : Res :=
  done s (if bitOf v.toNat 1 && s.pwr.powered then lnkCtrlWrite s l.val v.toNat else s)

/-- LNK_ENABLE (R499, R516): a write of LNK_CTRL with EN set. -/
def execLnkEnable (l : LinkId) (v : W32) (s : State) : Res :=
  done s (if bitOf v.toNat 0 && s.pwr.powered then lnkCtrlWrite s l.val v.toNat else s)

/-- LNK_DISABLE (R499, R516): a write of LNK_CTRL with EN clear. -/
def execLnkDisable (l : LinkId) (v : W32) (s : State) : Res :=
  done s (if !bitOf v.toNat 0 && s.pwr.powered then lnkCtrlWrite s l.val v.toNat else s)

/-- A write of CLSP_CTRL (R503, R504, R519): a LEAVE written with a JOIN closes what the JOIN opened. -/
def clspWrite (s : State) (v : Nat) : State :=
  let s := if bitOf v 1 then startJoin s else s
  if bitOf v 0 then closeAll s else s

/-- CLSP_JOIN (R504, R519, R887, R894): a write of CLSP_CTRL with JOIN set. -/
def execClspJoin (v : W32) (s : State) : Res :=
  done s (if bitOf v.toNat 1 && inRun s then clspWrite s v.toNat else s)

/-- CLSP_LEAVE (R503, R519): a write of CLSP_CTRL with LEAVE set closes every clasp. -/
def execClspLeave (v : W32) (s : State) : Res :=
  done s (if bitOf v.toNat 0 && inRun s then clspWrite s v.toNat else s)

def doClaspSenseMismatch (sensed : BitVec 18) (s : State) : State :=
  if s.pwr.powered = false ∨ sensed = s.fab.clasps then s
  else
    let s := setFab s fun x => { x with sensed }
    closeAll (faultReg s 0xFF ⟨.clspStat, 0, 0⟩)

/-- CLASP_SENSE_MISMATCH (R520): a sensed state unlike the commanded one for 50 us; a fault record, and every clasp
closes. -/
def execClaspSenseMismatch (sensed : BitVec 18) (s : State) : Res := done s (doClaspSenseMismatch sensed s)

def doParentChange (dir : Fin 6) (s : State) : State :=
  if inRun s && dirUsable s dir.val && decide (s.fab.parent ≠ some dir) then
    setFab s fun x => { x with parent := some dir, gm := false, holdover := x.locked }
  else s

/-- PARENT_CHANGE (R512, R515, R523): the module follows a new parent and holds over until it locks to it. -/
def execParentChange (dir : Fin 6) (s : State) : Res := done s (doParentChange dir s)

def doGrandmasterTakeover (s : State) : State :=
  if inRun s && regBit s ⟨.timeCtrl, 0, 0⟩ 0 && (ownChip s).isSome then
    setFab s fun x => { x with gm := true, parent := none, holdover := false, locked := true, slew := 0 }
  else s

/-- GRANDMASTER_TAKEOVER (R511, R515): the eligible chip takes the role and continues from its own time. -/
def execGrandmasterTakeover (s : State) : Res := done s (doGrandmasterTakeover s)

end Sys2Proof.Machine
end

