-- ==== Sys2Proof/Machine/Msgs.lean ====
section
/-! DEFINITION. The messages of chapter 10 that reach this module: commands, refusals, the chip map, remote reads and
writes, bulk data. -/

namespace Sys2Proof.Machine
open Sys2Proof

/-! ### COMMAND (R700) -/

/-- The command of a COMMAND message, as of a PF queue of its own; AUX names the client that pays (R777; log entry 60). -/
def remoteCmd (s : State) (m : Bytes) : Cmd :=
  let b := msgPayload m
  { id := s.host.nextCid, queue := none
    origin := some ⟨BitVec.ofNat 15 (msgSrc m), msgSrcChip m, BitVec.ofNat 32 (msgTag m)⟩
    opcode := fieldAt b 0 2, flags := fieldAt b 2 1, tag := BitVec.ofNat 32 (fieldAt b 4 4)
    at_ := if bitOf (fieldAt b 2 1) 0 then some (fieldAt b 8 8) else none, late := false
    payload := fieldAt b 0x18 8, payBytes := some (b.drop 64), payLen := fieldAt b 0x20 4, inl := (b.drop 0x28).take 24
    fn := 0, part := 0xFF, client := msgAux m % 4096, deadlineQ := false
    notAfter := if bitOf (fieldAt b 2 1) 1 then some (fieldAt b 0x10 8) else none }

/-- The admission point of a remote command has come (R588, R696, R723, R867). -/
def remoteAdmissible (s : State) (m : Bytes) : Bool :=
  let c := remoteCmd s m
  s.boot.phase == .run && !activationHolds s c.opcode && (match c.at_ with | some a => decide (a ≤ s.now) | none => true)
    && (!bitOf c.flags 2 || !(s.host.cmds.any fun e => match e.origin with | some o => o.phys.toNat == msgSrc m | none => false))
    && !(c.opcode == 0x120 && stepBarred s (fieldAt (msgPayload m) 64 1))

def doMsgCommand (m : Bytes) (s0 : State) : State :=
  let s := takeMsg s0 m
  match msgRefused s m 0 false with
  | some st => refuse s m st
  | none =>
    let b := msgPayload m
    let op := fieldAt b 0 2
    if b.length < 64 ∨ b.length ≠ 64 + fieldAt b 0x20 4 then refuse s m stCheckFail
    else if op = 0x0006 ∨ op = 0x0032 ∨ !remoteAdmissible s m then s0
    else admitCmd s (remoteCmd s m) (b.take 64)

/-- COMMAND (R485, R494, R700, R777): checked, then executed as an entry of a PF queue; REMOTE_CPL and COLL_ABORT are events
of their own. -/
def execMsgCommand (m : Bytes) (s : State) : Res := done s (doMsgCommand m s)

/-! ### NACK (R486) -/

/-- A collective whose message was refused ends (R562, R566). -/
def collNacked (s : State) (p n : Nat) (r : CollRun) (sent : Option SentChunk) (st : Status) : State :=
  let lost := st == stPeerLost || st == stLinkDown
  let moved := match sent with | some c => mapEntry s c.chip != some c.dst | none => false
  let st := if lost || (st == stRoleChanged && moved) then stPeerLost else st
  collFail s p n r.op st 0 true

/-- What a refused message was of, by its tag (R562, R566, R605, R700, R272). -/
def nackTo (s : State) (tag : W32) (st : Status) : State :=
  match s.host.remote.find? fun r => r.msgTag == tag with
  | some r => complete (setHost s fun h => { h with remote := h.remote.filter fun x => x.msgTag != tag }) r.cid st
  | none =>
    match s.partSent.find? fun e => e.1 == tag with
    | some (_, p, num) =>
      if (match (partAt s p.val).run with | some r => r.num == num | none => false) then
        failStep s p.val (if st = stLinkDown then stPeerLost else st)
      else s
    | none =>
      let take := s.ckpt.takes.find? fun e => match e.2 with | some t => t.tags.contains tag | none => false
      match take with
      | some (p, _) => drainEnd s p (if st = stLinkDown then stPeerLost else st)
      | none =>
        let hit (e : Nat × CollStream) : Option (Nat × CollRun × Option SentChunk) :=
          match e.2.run with
          | none => none
          | some r => match r.sent.find? fun c => c.tag == tag with
            | some c => some (e.1, r, some c)
            | none => if e.2.tags.contains tag then some (e.1, r, none) else none
        match s.coll.streams.findSome? hit with
        | some (k, r, c) => collNacked s (k / 64) (k % 64) r c st
        | none => s

def doMsgNack (m : Bytes) (s : State) : State :=
  let s := takeMsg s m
  if !msgSound m || msgClass m != 1 || !msgMine s m then s
  else nackTo { s with fab := { s.fab with nacks := s.fab.nacks + 1 } } (BitVec.ofNat 32 (msgTag m)) (BitVec.ofNat 16 (msgAux m % 65536))

/-- NACK (R272, R273, R486, R562, R566, R605, R700): counted, never answered; the sender's own unit acts on it, and what it sends
afterwards is resolved by the map anew (R495). -/
def execMsgNack (m : Bytes) (s : State) : Res := done s (doMsgNack m s)

/-! ### MAP (R497) -/

def doMsgMap (m : Bytes) (s : State) : State :=
  let s := takeMsg s m
  match msgRefused s m 2 false with
  | some st => refuse s m st
  | none =>
    let b := msgPayload m
    if b.length < 4 ∨ b.length % 4 ≠ 0 ∨ 4 + 4 * 8192 < b.length then refuse s m stCheckFail
    else
      let gen := BitVec.ofNat 32 (fieldAt b 0 4)
      if s.fab.mapGen.toNat < gen.toNat then applyMap s gen (b.drop 4) else s

/-- MAP (R495 to R497): applied only where its generation exceeds the chip's own, all pairs at once. -/
def execMsgMap (m : Bytes) (s : State) : Res := done s (doMsgMap m s)

/-! ### READ, READ_DATA, WRITE, BULK (R483, R485) -/

/-- Whose memory a message reaches: the partition that it names. -/
def msgWho (m : Bytes) : Who := .host (some (msgPart m))

def doMsgRead (m : Bytes) (s0 : State) : State :=
  let s := takeMsg s0 m
  match msgRefused s m 0x20 true with
  | some st => refuse s m st
  | none =>
    let a := fieldAt (msgPayload m) 0 8
    let n := msgAux m
    if (msgPayload m).length ≠ 8 ∨ n = 0 ∨ 65536 < n then refuse s m stCheckFail
    else match readMem s (msgWho m) a n with
      | (.ok, b, s) =>
        (sendMsg s { byPhys := true, dst := msgSrc m, cls := 0x21, part := msgPart m, prio := msgPrio m, epoch := msgEpoch m
                     flow := msgFlow m, tag := msgTag m, payload := b }).2
      | (.wait, _, _) => s0
      | (a, _, s) => refuse s m (accStatus a)

/-- READ (R483, R485): the data of the destination partition's memory are returned under the same TAG. -/
def execMsgRead (m : Bytes) (s : State) : Res := done s (doMsgRead m s)

def doMsgReadData (m : Bytes) (s : State) : State :=
  let s := takeMsg s m
  match msgRefused s m 0x21 false with
  | some st => refuse s m st
  | none => setCkpt s fun c => { c with answers := c.answers ++ [(BitVec.ofNat 32 (msgTag m), msgPayload m)] }

/-- READ_DATA (R483): the data of an earlier READ, by its TAG. -/
def execMsgReadData (m : Bytes) (s : State) : Res := done s (doMsgReadData m s)

def doMsgWrite (m : Bytes) (s0 : State) : State :=
  let s := takeMsg s0 m
  match msgRefused s m 0x22 true with
  | some st => refuse s m st
  | none =>
    if (msgPayload m).length < 8 then refuse s m stCheckFail
    else match writeMem s (msgWho m) (fieldAt (msgPayload m) 0 8) ((msgPayload m).drop 8) (msgPrio m) with
      | (.ok, s) => s
      | (.wait, s) => stillWaits s0 s
      | (a, s) => refuse s m (accStatus a)

/-- WRITE (R483, R485): the data are written in the destination partition's memory. -/
def execMsgWrite (m : Bytes) (s : State) : Res := done s (doMsgWrite m s)

def doMsgBulk (m : Bytes) (s : State) : State :=
  let s := takeMsg s m
  match msgRefused s m 0x30 true with
  | some st => refuse s m st
  | none => s

/-- BULK (R483, R485): checked; no unit of the specification sends one, so that it ends here (log entry 61). -/
def execMsgBulk (m : Bytes) (s : State) : Res := done s (doMsgBulk m s)

end Sys2Proof.Machine
end

