-- ==== Sys2Proof/Machine/Newt.lean ====
section
/-! DEFINITION. The newt instructions (R140 to R142, R152 to R159): each row makes the newt of a tile execute the
instruction at its program counter. -/

namespace Sys2Proof.Machine
open Sys2Proof

/-! ### Arithmetic and moves -/

def doNewtNop (t : TileId) (e : ParityHit) (s : State) : State := newtRow s t e 0x00 (scalar fun x _ => x)
/-- NOP (R140). -/
def execNewtNop (t : TileId) (e : ParityHit) (s : State) : Res := done s (doNewtNop t e s)

def doNewtAdd (t : TileId) (e : ParityHit) (s : State) : State := newtRow s t e 0x01 (aluRR (· + ·))
/-- ADD (R140). -/
def execNewtAdd (t : TileId) (e : ParityHit) (s : State) : Res := done s (doNewtAdd t e s)

def doNewtSub (t : TileId) (e : ParityHit) (s : State) : State := newtRow s t e 0x02 (aluRR (· - ·))
/-- SUB (R140). -/
def execNewtSub (t : TileId) (e : ParityHit) (s : State) : Res := done s (doNewtSub t e s)

def doNewtAnd (t : TileId) (e : ParityHit) (s : State) : State := newtRow s t e 0x03 (aluRR (· &&& ·))
/-- AND (R140). -/
def execNewtAnd (t : TileId) (e : ParityHit) (s : State) : Res := done s (doNewtAnd t e s)

def doNewtOr (t : TileId) (e : ParityHit) (s : State) : State := newtRow s t e 0x04 (aluRR (· ||| ·))
/-- OR (R140). -/
def execNewtOr (t : TileId) (e : ParityHit) (s : State) : Res := done s (doNewtOr t e s)

def doNewtXor (t : TileId) (e : ParityHit) (s : State) : State := newtRow s t e 0x05 (aluRR (· ^^^ ·))
/-- XOR (R140). -/
def execNewtXor (t : TileId) (e : ParityHit) (s : State) : Res := done s (doNewtXor t e s)

/-- The shifts of R140, by the low six bits. -/
def shlW (a b : W64) : W64 := a <<< (b.toNat % 64)
def shrW (a b : W64) : W64 := a >>> (b.toNat % 64)
def sraW (a b : W64) : W64 := a.sshiftRight (b.toNat % 64)

def doNewtShl (t : TileId) (e : ParityHit) (s : State) : State := newtRow s t e 0x06 (aluRR shlW)
/-- SHL (R140). -/
def execNewtShl (t : TileId) (e : ParityHit) (s : State) : Res := done s (doNewtShl t e s)

def doNewtShr (t : TileId) (e : ParityHit) (s : State) : State := newtRow s t e 0x07 (aluRR shrW)
/-- SHR (R140). -/
def execNewtShr (t : TileId) (e : ParityHit) (s : State) : Res := done s (doNewtShr t e s)

def doNewtSra (t : TileId) (e : ParityHit) (s : State) : State := newtRow s t e 0x08 (aluRR sraW)
/-- SRA (R140). -/
def execNewtSra (t : TileId) (e : ParityHit) (s : State) : Res := done s (doNewtSra t e s)

def doNewtMul (t : TileId) (e : ParityHit) (s : State) : State := newtRow s t e 0x09 (aluRR (· * ·))
/-- MUL keeps the low 64 bits (R140). -/
def execNewtMul (t : TileId) (e : ParityHit) (s : State) : Res := done s (doNewtMul t e s)

/-- MIN and MAX are signed (R140). -/
def minW (a b : W64) : W64 := if a.sle b then a else b
def maxW (a b : W64) : W64 := if b.sle a then a else b

def doNewtMin (t : TileId) (e : ParityHit) (s : State) : State := newtRow s t e 0x0A (aluRR minW)
/-- MIN (R140). -/
def execNewtMin (t : TileId) (e : ParityHit) (s : State) : Res := done s (doNewtMin t e s)

def doNewtMax (t : TileId) (e : ParityHit) (s : State) : State := newtRow s t e 0x0B (aluRR maxW)
/-- MAX (R140). -/
def execNewtMax (t : TileId) (e : ParityHit) (s : State) : Res := done s (doNewtMax t e s)

def doNewtAddi (t : TileId) (e : ParityHit) (s : State) : State := newtRow s t e 0x0C (aluRI (· + ·))
/-- ADDI (R140). -/
def execNewtAddi (t : TileId) (e : ParityHit) (s : State) : Res := done s (doNewtAddi t e s)

def doNewtAndi (t : TileId) (e : ParityHit) (s : State) : State := newtRow s t e 0x0D (aluRI (· &&& ·))
/-- ANDI (R140). -/
def execNewtAndi (t : TileId) (e : ParityHit) (s : State) : Res := done s (doNewtAndi t e s)

def doNewtOri (t : TileId) (e : ParityHit) (s : State) : State := newtRow s t e 0x0E (aluRI (· ||| ·))
/-- ORI (R140). -/
def execNewtOri (t : TileId) (e : ParityHit) (s : State) : Res := done s (doNewtOri t e s)

def doNewtShli (t : TileId) (e : ParityHit) (s : State) : State := newtRow s t e 0x0F (aluRI shlW)
/-- SHLI (R140). -/
def execNewtShli (t : TileId) (e : ParityHit) (s : State) : Res := done s (doNewtShli t e s)

def doNewtShri (t : TileId) (e : ParityHit) (s : State) : State := newtRow s t e 0x10 (aluRI shrW)
/-- SHRI (R140). -/
def execNewtShri (t : TileId) (e : ParityHit) (s : State) : Res := done s (doNewtShri t e s)

def doNewtMovz (t : TileId) (e : ParityHit) (s : State) : State :=
  newtRow s t e 0x11 (scalar fun x i => setG x i.rdw (BitVec.ofNat 64 (i.imm16 * 2 ^ (16 * i.hw))))
/-- MOVZ (R140). -/
def execNewtMovz (t : TileId) (e : ParityHit) (s : State) : Res := done s (doNewtMovz t e s)

def doNewtMovk (t : TileId) (e : ParityHit) (s : State) : State :=
  newtRow s t e 0x12 (scalar fun x i =>
    setG x i.rdw (BitVec.ofNat 64 (putBits (gReg x i.rdw).toNat (16 * i.hw) 16 i.imm16)))
/-- MOVK replaces 16 bits (R140). -/
def execNewtMovk (t : TileId) (e : ParityHit) (s : State) : Res := done s (doNewtMovk t e s)

/-! ### Predicates -/

def doNewtCmp (t : TileId) (e : ParityHit) (s : State) : State :=
  newtRow s t e 0x13 (scalar fun x i => setP x (i.rd % 8) (condOf (bitsOf i.fn 0 3) (gReg x i.ra) (gReg x i.rb)))
/-- CMP (R139, R140). -/
def execNewtCmp (t : TileId) (e : ParityHit) (s : State) : Res := done s (doNewtCmp t e s)

def doNewtCmpi (t : TileId) (e : ParityHit) (s : State) : State :=
  newtRow s t e 0x14 (scalar fun x i =>
    setP x (i.rd % 8) (condOf (bitsOf i.imm 9 3) (gReg x i.ra) (BitVec.ofInt 64 (signedOf 9 i.imm))))
/-- CMPI: the condition in IMM12[11:9], a signed 9-bit immediate (R139). -/
def execNewtCmpi (t : TileId) (e : ParityHit) (s : State) : Res := done s (doNewtCmpi t e s)

def doNewtPlog (t : TileId) (e : ParityHit) (s : State) : State :=
  newtRow s t e 0x15 (scalar fun x i =>
    let a := pReg x (i.ra % 8)
    let b := pReg x (i.rb % 8)
    setP x (i.rd % 8) (match i.fn % 4 with | 0 => a && b | 1 => a || b | 2 => a != b | _ => a && !b))
/-- PLOG (R139, R140). -/
def execNewtPlog (t : TileId) (e : ParityHit) (s : State) : Res := done s (doNewtPlog t e s)

/-! ### Control flow -/

/-- A branch target, as a word address; one outside both regions faults when it is fetched (R138, R171). -/
def branchTo (pc : Nat) (off : Int) : Nat := (((pc : Int) + off) % 2 ^ 32).toNat

def brOp (s : State) (l : Nat) (i : NInstr) : State :=
  let x := tileAt s l
  let tgt := branchTo x.pc i.off
  match x.loops with
  | e :: _ =>
    if e.start ≤ x.pc ∧ x.pc ≤ e.last ∧ ¬ (e.start ≤ tgt ∧ tgt ≤ e.last) then newtFault s l 0x05 0 false
    else modTile s l fun x => goOn x tgt (br := true)
  | [] => modTile s l fun x => goOn x tgt (br := true)

def doNewtBr (t : TileId) (e : ParityHit) (s : State) : State := newtRow s t e 0x16 brOp
/-- BR, with LOOP_EXIT out of the innermost body that holds it (R140, R141). -/
def execNewtBr (t : TileId) (e : ParityHit) (s : State) : Res := done s (doNewtBr t e s)

def doNewtCall (t : TileId) (e : ParityHit) (s : State) : State :=
  newtRow s t e 0x17 fun s l i =>
    modTile s l fun x => goOn (setG x 31 (BitVec.ofNat 64 (x.pc + 1))) (branchTo x.pc i.off) (call := true)
/-- CALL: g31 := pc + 1 (R132, R140). -/
def execNewtCall (t : TileId) (e : ParityHit) (s : State) : Res := done s (doNewtCall t e s)

def doNewtRet (t : TileId) (e : ParityHit) (s : State) : State :=
  newtRow s t e 0x18 fun s l i => modTile s l fun x => goOn x ((gReg x i.ra).toNat % 2 ^ 14) (ret := true)
/-- RET: pc := g[RA][13:0] (R140). -/
def execNewtRet (t : TileId) (e : ParityHit) (s : State) : Res := done s (doNewtRet t e s)

def loopOp (s : State) (l : Nat) (i : NInstr) : State :=
  let x := tileAt s l
  let n := (gReg x i.ra).toNat
  if i.imm = 0 ∨ 2047 < i.imm then newtFault s l 0x01 0 false
  else if 4 ≤ x.loops.length then newtFault s l 0x04 0 false
  else if n = 0 then modTile s l fun x => goOn x (x.pc + 1 + i.imm)
  else modTile s l fun x =>
    let r := loopEnd false false false x.pc x.loops (x.pc + 1)
    { x with loops := { start := x.pc + 1, last := x.pc + i.imm, left := n - 1 } :: r.1, pc := r.2 }

def doNewtLoop (t : TileId) (e : ParityHit) (s : State) : State := newtRow s t e 0x19 loopOp
/-- LOOP (R141). One at the last address of an outer body completes there, so that the outer counter advances (log
entry 101). -/
def execNewtLoop (t : TileId) (e : ParityHit) (s : State) : Res := done s (doNewtLoop t e s)

def doNewtHalt (t : TileId) (e : ParityHit) (s : State) : State :=
  newtRow s t e 0x1A fun s l _ => settleHalt (modTile s l fun x => { x with halting := true }) l
/-- HALT ends the program once every tile command has completed (R140, R155, R166). -/
def execNewtHalt (t : TileId) (e : ParityHit) (s : State) : Res := done s (doNewtHalt t e s)

def doNewtTrap (t : TileId) (e : ParityHit) (s : State) : State :=
  newtRow s t e 0x1B fun s l i => newtFault s l 0x08 i.imm false
/-- TRAP raises fault TRAP with IMM12 (R140, R171, R176). -/
def execNewtTrap (t : TileId) (e : ParityHit) (s : State) : Res := done s (doNewtTrap t e s)

/-! ### Scratch memory -/

def doNewtLd (t : TileId) (e : ParityHit) (s : State) : State := newtRow s t e 0x1C (loadOp 8 e)
/-- LD (R134, R140). -/
def execNewtLd (t : TileId) (e : ParityHit) (s : State) : Res := done s (doNewtLd t e s)

def doNewtSt (t : TileId) (e : ParityHit) (s : State) : State := newtRow s t e 0x1D (storeOp 8)
/-- ST (R134, R140). -/
def execNewtSt (t : TileId) (e : ParityHit) (s : State) : Res := done s (doNewtSt t e s)

def doNewtLdw (t : TileId) (e : ParityHit) (s : State) : State := newtRow s t e 0x1E (loadOp 4 e)
/-- LDW loads zero-extended (R134, R140). -/
def execNewtLdw (t : TileId) (e : ParityHit) (s : State) : Res := done s (doNewtLdw t e s)

def doNewtStw (t : TileId) (e : ParityHit) (s : State) : State := newtRow s t e 0x1F (storeOp 4)
/-- STW stores g[RD][31:0] (R134, R140). -/
def execNewtStw (t : TileId) (e : ParityHit) (s : State) : Res := done s (doNewtStw t e s)

/-! ### Tile commands -/

def doNewtAclr (t : TileId) (e : ParityHit) (s : State) : State := newtRow s t e 0x20 (issueOp e)
/-- ACLR issued (R140, R143). -/
def execNewtAclr (t : TileId) (e : ParityHit) (s : State) : Res := done s (doNewtAclr t e s)

def doNewtMma (t : TileId) (e : ParityHit) (s : State) : State := newtRow s t e 0x21 (issueOp e)
/-- MMA issued, bound to the read half (R143, R145, R147). -/
def execNewtMma (t : TileId) (e : ParityHit) (s : State) : Res := done s (doNewtMma t e s)

def doNewtFill (t : TileId) (e : ParityHit) (s : State) : State := newtRow s t e 0x22 (issueOp e)
/-- FILL issued (R143, R145, R147). -/
def execNewtFill (t : TileId) (e : ParityHit) (s : State) : Res := done s (doNewtFill t e s)

def doNewtSwap (t : TileId) (e : ParityHit) (s : State) : State := newtRow s t e 0x23 (issueOp e)
/-- SWAP issued: it takes a number and a queue entry, and toggles the read half (R140, R143, R145). -/
def execNewtSwap (t : TileId) (e : ParityHit) (s : State) : Res := done s (doNewtSwap t e s)

def doNewtWout (t : TileId) (e : ParityHit) (s : State) : State := newtRow s t e 0x24 (issueOp e)
/-- WOUT issued with the set's masks (R143, R147, R225). -/
def execNewtWout (t : TileId) (e : ParityHit) (s : State) : Res := done s (doNewtWout t e s)

def doNewtVop (t : TileId) (e : ParityHit) (s : State) : State := newtRow s t e 0x25 (issueOp e)
/-- VOP issued (R143, R147). -/
def execNewtVop (t : TileId) (e : ParityHit) (s : State) : Res := done s (doNewtVop t e s)

def doNewtFexp (t : TileId) (e : ParityHit) (s : State) : State := newtRow s t e 0x26 (issueOp e)
/-- FEXP issued (R143, R147). -/
def execNewtFexp (t : TileId) (e : ParityHit) (s : State) : Res := done s (doNewtFexp t e s)

def xwaitOp (s : State) (l : Nat) (i : NInstr) : State :=
  let x := tileAt s l
  let n := (gReg x i.ra).toNat
  if x.issued < n then newtFault s l 0x06 0 false
  else if n = 0 then modTile s l goNext
  else waitFor s l (.xwait n)

def doNewtXwait (t : TileId) (e : ParityHit) (s : State) : State := newtRow s t e 0x27 xwaitOp
/-- XWAIT (R140, R146). -/
def execNewtXwait (t : TileId) (e : ParityHit) (s : State) : Res := done s (doNewtXwait t e s)

/-! ### Synchronisation -/

def doNewtBar (t : TileId) (e : ParityHit) (s : State) : State :=
  newtRow s t e 0x28 fun s l _ => wakeGroup (waitFor (modTile s l fun x => { x with bars := x.bars + 1 }) l .bar) l
/-- BAR completes on every member once every member has executed the same count of BARs (R152). -/
def execNewtBar (t : TileId) (e : ParityHit) (s : State) : Res := done s (doNewtBar t e s)

def sevOp (s : State) (l : Nat) (i : NInstr) : State :=
  let x := tileAt s l
  let n := (gReg x i.ra).toNat
  if x.groupSize ≤ n then newtFault s l 0x0A 0 false
  else
    let p : PartId := x.part.getD 0
    let members := match (partAt s p.val).run with | some r => r.members | none => []
    let dst := nth 0#10 members n
    let ev : EvMsg := ⟨dst, Fin.ofNat 16 i.fn, p, x.epoch, x.step, some (toTile l), s.fab.phys, 0⟩
    { modTile s l fun x => goNext { x with posted := x.posted + 1 } with flying := s.flying ++ [ev] }

def doNewtSev (t : TileId) (e : ParityHit) (s : State) : State := newtRow s t e 0x29 sevOp
/-- SEV is posted to a group member (R153). -/
def execNewtSev (t : TileId) (e : ParityHit) (s : State) : Res := done s (doNewtSev t e s)

def doNewtWev (t : TileId) (e : ParityHit) (s : State) : State :=
  newtRow s t e 0x2A fun s l i => waitFor s l (.wev (Fin.ofNat 16 i.fn) (gReg (tileAt s l) i.ra))
/-- WEV waits until the counter is at least g[RA] (R140). -/
def execNewtWev (t : TileId) (e : ParityHit) (s : State) : Res := done s (doNewtWev t e s)

/-- A marker record on its way to the deadline monitor (R157). -/
def sendMark (s : State) (l v time : Nat) : State :=
  let x := tileAt s l
  let s := modTile s l fun x => { x with lastForward := some s.now, unsentMark := none }
  match x.part with
  | some p => modPart s p.val fun q => { q with marks := q.marks ++ [(toTile l, x.step, v, time)] }
  | none => s

/-- MARK: the previous marker of R158 is the last one that was not itself suppressed (log entry 104). -/
def markOp (s : State) (l : Nat) (i : NInstr) : State :=
  let x := tileAt s l
  let v := i.imm
  let low := match x.lastMark with | some m => decide (v < m) | none => false
  if low then modTile (regOr s ⟨.newtStat, l, 0⟩ (2 ^ 9)) l goNext
  else
    let s := modTile s l fun x => goNext { x with lastMark := some v }
    let soon := match x.lastForward with | some f => decide (s.now < f + 1000) | none => false
    if soon then modTile s l fun x => { x with unsentMark := some (v, s.now) } else sendMark s l v s.now

def doNewtMark (t : TileId) (e : ParityHit) (s : State) : State := newtRow s t e 0x2B markOp
/-- MARK (R157 to R159). -/
def execNewtMark (t : TileId) (e : ParityHit) (s : State) : Res := done s (doNewtMark t e s)

def doMarkerForward (t : TileId) (s : State) : State :=
  let l := liveTile s t.toNat
  match (tileAt s l).unsentMark, (tileAt s l).lastForward with
  | some (v, time), some f => if s.now < f + 1000 then s else sendMark s l v time
  | some (v, time), none => sendMark s l v time
  | none, _ => s

/-- MARKER_FORWARD: the latest unsent marker goes when the 1 us interval ends (R159). -/
def execMarkerForward (t : TileId) (s : State) : Res := done s (doMarkerForward t s)

def doNewtFence (t : TileId) (e : ParityHit) (s : State) : State :=
  newtRow s t e 0x2C fun s l i => waitFor s l (.fence i.rd)
/-- FENCE waits for all posted SEVs and returns the negative acknowledgements since the last FENCE (R140, R153). -/
def execNewtFence (t : TileId) (e : ParityHit) (s : State) : Res := done s (doNewtFence t e s)

def doNewtTime (t : TileId) (e : ParityHit) (s : State) : State :=
  newtRow s t e 0x2D fun s l i => modTile s l fun x => goNext (setG x i.rd (BitVec.ofNat 64 s.now))
/-- TIME (R140). -/
def execNewtTime (t : TileId) (e : ParityHit) (s : State) : Res := done s (doNewtTime t e s)

/-! ### Control registers -/

/-- The readable CSRs (R142). -/
def csrValue (s : State) (l c : Nat) : Option Nat :=
  let x := tileAt s l
  match c with
  | 0x000 => some l
  | 0x001 => some (match x.part with | some p => p.val | none => 0)
  | 0x002 => some x.epoch.toNat
  | 0x003 => some x.step.toNat
  | 0x004 => some x.index
  | 0x005 => some x.groupSize
  | 0x010 => some (regGet s ⟨.tileFpstat, l, 0⟩)
  | _ => none

def doNewtCsrr (t : TileId) (e : ParityHit) (s : State) : State :=
  newtRow s t e 0x2E fun s l i =>
    match csrValue s l i.imm with
    | some v => modTile s l fun x => goNext (setG x i.rd (BitVec.ofNat 64 v))
    | none => newtFault s l 0x07 0 false
/-- CSRR (R140, R142). -/
def execNewtCsrr (t : TileId) (e : ParityHit) (s : State) : Res := done s (doNewtCsrr t e s)

def doNewtCsrw (t : TileId) (e : ParityHit) (s : State) : State :=
  newtRow s t e 0x2F fun s l i =>
    if i.imm = 0x010 then
      modTile (regWritePlain s ⟨.tileFpstat, l, 0⟩ ((gReg (tileAt s l) i.ra).toNat % 2 ^ 32) 0) l goNext
    else newtFault s l 0x07 0 false
/-- CSRW: TILE_FPSTAT alone is writable (R129, R142). -/
def execNewtCsrw (t : TileId) (e : ParityHit) (s : State) : Res := done s (doNewtCsrw t e s)

/-! ### The watchdog -/

def doWaitTimeout (t : TileId) (s : State) : State :=
  let l := liveTile s t.toNat
  let x := tileAt s l
  let timed : Bool := match x.wait with
    | .bar => true | .wev _ _ => true | .xwait _ => true | .fence _ => true | .group => true | _ => false
  let w := regFld s ⟨.newtCtrl, l, 0⟩ 0 8
  if x.st = .waiting ∧ timed ∧ w ≠ 0 ∧ x.waitSince + w * 100000 < s.now then newtFault s l 0x0C 0 false else s

/-- WAIT_TIMEOUT: a wait longer than NEWT_CTRL.WDOG (R156, R174). -/
def execWaitTimeout (t : TileId) (s : State) : Res := done s (doWaitTimeout t s)

end Sys2Proof.Machine
end

