-- ==== Sys2Proof/Machine/Owner.lean ====
section
/-! DEFINITION. The owner lock (R835 to R840) and recovery (R863, R877, R878). -/

namespace Sys2Proof.Machine
open Sys2Proof

/-! ### Keys and tokens (R830, R835 to R837) -/

/-- A big-endian number (R830). -/
def beNat (b : Bytes) : Nat := leNat b.reverse

def p384 : Nat := 2 ^ 384 - 2 ^ 128 - 2 ^ 96 + 2 ^ 32 - 1
def p384b : Nat :=
  0xb3312fa7e23ee7e4988e056be3f82d19181d9c6efe8141120314088f5013875ac656398d8a2ed19d2a85c8edd3ec2aef

/-- A key of 96 bytes is a point of P-384 (R830, R835; log entry 5). -/
def onCurve (k : Bytes) : Bool :=
  let x := beNat (k.take 48)
  let y := beNat ((k.drop 48).take 48)
  k.length == 96 && decide (x < p384) && decide (y < p384) && y * y % p384 == (x * x * x + (p384 - 3) * x + p384b) % p384

def tokAction (t : Bytes) : Nat := fieldAt t 4 1
def tokNewKey (t : Bytes) : Bytes := (t.drop 0x60).take 96

/-- The first check of R837. -/
def tokenFields (t : Bytes) : Bool :=
  t.length == 288 && fieldAt t 0 4 == 0x554E574F && decide (1 ≤ tokAction t) && decide (tokAction t ≤ 4) && zeroAt t 5 3
    && zeroAt t 0x58 8 && (tokAction t == 3 || zeroAt t 0x60 96)

/-- A token checked in the order of R837. -/
def tokenStatus (s : State) (t : Bytes) : Status :=
  if !tokenFields t then stBadDescriptor
  else match s.sec.ownerKey with
    | none => stBadDescriptor
    | some key =>
      if (t.drop 8).take 32 ≠ s.sec.nonce ∨ (t.drop 0x28).take 48 ≠ Config.sha384 Config.identityKey then stAuthFail
      else if !Config.ecdsaVerify key (Config.sha384 (t.take 0xC0)) ((t.drop 0xC0).take 96) then stSigFail
      else stOk

/-- The owner key, lock and ONCE that an accepted token leaves (R839). A plain UNLOCK ends an UNLOCK_ONCE. -/
def tokenEffect (s : State) (t : Bytes) : Option Bytes × Bool × Bool :=
  match tokAction t with
  | 1 => (s.sec.ownerKey, false, false)
  | 2 => (s.sec.ownerKey, false, true)
  | 3 => (some (tokNewKey t), s.sec.lock, s.sec.once)
  | _ => (none, false, false)

/-- A write of the owner record begins (R846, R848). -/
def startOwner (s : State) (o : Option Bytes × Bool × Bool) (cid : Option Nat) : State :=
  startFlash s (.owner (recBytes s ownKind (ownBody o.1 o.2.1 o.2.2)) cid)

/-! ### The commands (R835) -/

def doOwnerInstall (cid : Nat) (s : State) : State :=
  match cmdFor s cid 0x0310 with
  | none => s
  | some c =>
    if !flashFree s then s
    else withPayload (beginCmd s cid) c 96 fun s b =>
      if c.fn ≠ 0 then complete s cid stBadDescriptor
      else if chargeLow s then complete s cid stUpdHoldup
      else if s.sec.ownerKey.isSome ∨ !onCurve (b.take 96) then complete s cid stBadDescriptor
      else startOwner s (some (b.take 96), s.sec.lock, s.sec.once) (some cid)

/-- OWNER_INSTALL (R833, R835, R848): completes with FLASH_OPERATION_DONE. -/
def execOwnerInstall (cid : Nat) (s : State) : Res := done s (doOwnerInstall cid s)

def doOwnerLock (cid : Nat) (s : State) : State :=
  match cmdFor s cid 0x0311 with
  | none => s
  | some c =>
    if !flashFree s then s
    else
      let s := beginCmd s cid
      if c.fn ≠ 0 then complete s cid stBadDescriptor
      else if chargeLow s then complete s cid stUpdHoldup
      else if s.sec.ownerKey.isNone then complete s cid stBadDescriptor
      else startOwner s (s.sec.ownerKey, true, false) (some cid)

/-- OWNER_LOCK (R835, R846, R873): completes with FLASH_OPERATION_DONE. -/
def execOwnerLock (cid : Nat) (s : State) : Res := done s (doOwnerLock cid s)

/-- An OWNER_AUTH fails: the nonce is replaced, and Komodo records it (R838, and the end of chapter 17's registers). -/
def authFails (s : State) (cid : Nat) (st : Status) : State :=
  complete (faultRec (freshNonce s) st 0xFF ⟨.secStat, 0, 0⟩) cid st

/-- The status of an OWNER_AUTH. -/
def authStatus (s : State) (c : Cmd) (t : Bytes) : Status :=
  if c.fn ≠ 0 then stBadDescriptor else if chargeLow s then stUpdHoldup else tokenStatus s t

def doOwnerAuth (cid : Nat) (s : State) : State :=
  match cmdFor s cid 0x0312 with
  | none => s
  | some c =>
    if !flashFree s then s
    else match payloadOf (beginCmd s cid) c with
      | (.wait, _, _) => s
      | (.ok, t, s) =>
        if t.length < 288 then authFails s cid stBadDescriptor
        else
          let t := t.take 288
          let st := authStatus s c t
          if st = stOk then freshNonce (startOwner s (tokenEffect s t) (some cid)) else authFails s cid st
      | (a, _, s) => authFails s cid (accStatus a)

/-- OWNER_AUTH (R833, R835 to R839, R848): an accepted token completes with FLASH_OPERATION_DONE. -/
def execOwnerAuth (cid : Nat) (s : State) : Res := done s (doOwnerAuth cid s)

/-! ### Recovery (R863, R877, R878) -/

/-- A command of BOOT_RCMD is taken: in RECOVERY, while none runs; SLOT is written with it. -/
def recTakes (s : State) (v cmd : Nat) : Bool := s.boot.phase == .recovery && s.boot.op.isNone && bitsOf v 0 4 == cmd

/-- A command that writes the flash is not started while the input is lost (R802). -/
def recWrites (s : State) (v cmd : Nat) : Bool := recTakes s v cmd && flashFree s

def recSlot (v : Nat) : Nat := bitsOf v 4 1
def setRstatus (s : State) (st : Status) : State := setBoot s fun b => { b with rstatus := st }
def putSlot (s : State) (v : Nat) : State := regPut s ⟨.bootRcmd, 0, 0⟩ 4 1 (recSlot v)

/-- A write into a slot ends what VERIFY found of it. -/
def unverify (s : State) (k : Nat) : State :=
  setBoot s fun b => { b with verified := if b.verified = some k then none else b.verified }

def doRecErase (v : W32) (s : State) : State :=
  if !recWrites s v.toNat 1 then s
  else
    let s := putSlot s v.toNat
    let k := recSlot v.toNat
    match updateRefused s with
    | some st => setRstatus s st
    | none => startFlash (unverify s k) (.erase k none)

/-- ERASE (R840, R863, R878). -/
def execRecErase (v : W32) (s : State) : Res := done s (doRecErase v s)

def doRecProgram (v : W32) (s : State) : State :=
  if !recWrites s v.toNat 2 then s
  else
    let s := putSlot s v.toNat
    let k := recSlot v.toNat
    let off := regGet s ⟨.bootRoff, 0, 0⟩
    match updateRefused s with
    | some st => setRstatus s st
    | none =>
      if off % 4096 ≠ 0 ∨ slotLen < off + 4096 then setRstatus s stBadDescriptor
      else startFlash (unverify s k) (.program k off (bytesAt 0 s.boot.rwin 0 4096) none)

/-- PROGRAM (R840, R863, R877, R878). -/
def execRecProgram (v : W32) (s : State) : Res := done s (doRecProgram v s)

def doRecVerify (v : W32) (s : State) : State :=
  if !recTakes s v.toNat 3 then s
  else
    let s := putSlot s v.toNat
    let st := imageStatus s (recSlot v.toNat)
    setBoot s fun b => { b with rstatus := st, verified := if st = stOk then some (recSlot v.toNat) else none }

/-- VERIFY (R828, R853, R863, R878). -/
def execRecVerify (v : W32) (s : State) : Res := done s (doRecVerify v s)

def doRecAuth (v : W32) (s : State) : State :=
  if !recWrites s v.toNat 4 then s
  else
    let s := putSlot s v.toNat
    let t := bytesAt 0 s.boot.rwin 0 288
    let st := tokenStatus s t
    if st = stOk then freshNonce (startOwner s (tokenEffect s t) none) else freshNonce (setRstatus s st)

/-- AUTH (R836, R837, R838, R863, R878): the token in BOOT_RWIN. -/
def execRecAuth (v : W32) (s : State) : Res := done s (doRecAuth v s)

def doRecStart (v : W32) (env : StartEnv) (s : State) : State :=
  if !recWrites s v.toNat 5 then s
  else
    let s := putSlot s v.toNat
    let k := recSlot v.toNat
    if s.boot.verified ≠ some k then setRstatus s stImageBad
    else startModule (writeSelector s k false) env

/-- START (R856, R863, R878): a COMMITTED selector, and a start from step 2. -/
def execRecStart (v : W32) (env : StartEnv) (s : State) : Res := done s (doRecStart v env s)

end Sys2Proof.Machine
end

