-- ==== Sys2Proof/Machine/Pins.lean ====
section
/-! DEFINITION. Pins and coolant (chapter 19): the clasp control group and the coolant flags. -/

namespace Sys2Proof.Machine
open Sys2Proof

/-- PG is released: VAUX is good and no power-off has begun (R884). -/
def pgReleased (s : State) : Bool := s.pwr.powered

/-- CLSP_SENSE# is low: all clasps are sensed closed (R893); valid while PG is released. -/
def clspSenseLow (s : State) : Bool := s.fab.sensed == 0

def doClspHoldAssert (s : State) : State :=
  let s := { s with clspHold := true }
  if s.pwr.powered = false then s
  else
    let s := closeAll (faultReg s 0xFF ⟨.clspStat, 0, 0⟩)
    if s.boot.phase = .pause then endPause s else s

/-- CLSP_HOLD_ASSERT (R499, R892 to R894, R907): CLSP_HOLD# goes low. -/
def execClspHoldAssert (s : State) : Res := done s (doClspHoldAssert s)

def doClspHoldRelease (s : State) : State := { s with clspHold := false }

/-- CLSP_HOLD_RELEASE (R894): opens nothing. -/
def execClspHoldRelease (s : State) : Res := done s (doClspHoldRelease s)

def inletTemp (s : State) : Int := signedOf 16 (regFld s coolantR 48 16)
def outletTemp (s : State) : Int := signedOf 16 (regFld s coolantR 32 16)

/-- A coolant flag is set, with its record (R901). -/
def coolantFlag (s : State) (n : Nat) : State := faultReg (regPut s coolantR n 1 1) 0xFF coolantR

def doLowFlow (s : State) : State :=
  if s.pwr.powered ∧ 2500 < outletTemp s - inletTemp s ∧ 1000000 < regFld s pwrStatR 32 32 then coolantFlag s 0 else s

/-- LOW_FLOW (R901, R909): the outlet has been more than 25.0 °C above the inlet for 1 s at more than 1,000 W. -/
def execLowFlow (s : State) : Res := done s (doLowFlow s)

def doHotInlet (s : State) : State := if s.pwr.powered ∧ 4000 < inletTemp s then coolantFlag s 1 else s

/-- HOT_INLET (R901, R907, R909): the inlet has been above 40.0 °C for 1 s. -/
def execHotInlet (s : State) : Res := done s (doHotInlet s)

end Sys2Proof.Machine
end

