-- ==== Sys2Proof/Machine/Spdm.lean ====
section
/-! DEFINITION. Attestation (R831, R832, R834): the SPDM responder behind the DOE mailbox, with the message layouts of DSP0274
(log entry 5). -/

namespace Sys2Proof.Machine
open Sys2Proof

/-! ### Messages -/

def spHead (ver code p1 p2 : Nat) : Bytes := leBytes 1 ver ++ leBytes 1 code ++ leBytes 1 p1 ++ leBytes 1 p2
def spVer (r : Bytes) : Nat := fieldAt r 0 1
def spCode (r : Bytes) : Nat := fieldAt r 1 1

/-- The version byte of an answer: the one agreed, or 0x10 before. -/
def answerVer (s : State) : Nat := if s.sec.spdmVersion = 0 then 0x10 else s.sec.spdmVersion

def spError (s : State) (code : Nat) : Bytes := spHead (answerVer s) 0x7F code 0
def errInvalid : Nat := 0x01
def errBusy : Nat := 0x03
def errUnexpected : Nat := 0x04
def errUnsupported : Nat := 0x07
def errVersion : Nat := 0x41

/-- An answer of the mailbox. -/
def answer (s : State) (b : Bytes) : State := emit s (.doe b)

/-- A request reaches the responder in RUN; during an activation's pause the answer is ERROR Busy, and a request of another
code is unsupported (R832). Requests after GET_VERSION carry the version agreed. -/
def responder (s : State) (r : Bytes) (code : Nat) (k : State → State) : State :=
  if noFn s 0 ∨ !inRun s then s
  else if s.boot.phase = .pause then answer s (spError s errBusy)
  else if spCode r ≠ code then answer s (spError s errUnsupported)
  else k s

/-- A request that needs the agreed version, of at least `n` bytes. -/
def versioned (s : State) (r : Bytes) (n : Nat) (k : State → State) : State :=
  if s.sec.spdmVersion = 0 then answer s (spError s errUnexpected)
  else if spVer r ≠ s.sec.spdmVersion then answer s (spError s errVersion)
  else if r.length < n then answer s (spError s errInvalid)
  else k s

/-- A request that also needs the algorithms agreed. -/
def agreed (s : State) (r : Bytes) (n : Nat) (k : State → State) : State :=
  versioned s r n fun s => if s.sec.spdmAlgs then k s else answer s (spError s errUnexpected)

/-- Answered, and noted for the signature that covers the exchange. -/
def exchange (s : State) (r a : Bytes) : State :=
  answer (setSec s fun x => { x with transcript := x.transcript ++ r ++ a }) a

/-- The same for version, capabilities and algorithms, which every signature covers. -/
def opening (s : State) (r a : Bytes) : State := answer (setSec s fun x => { x with vca := x.vca ++ r ++ a }) a

/-! ### Version, capabilities, algorithms -/

def doSpdmGetVersion (r : Bytes) (s : State) : State :=
  responder s r 0x84 fun s =>
    let a := spHead 0x10 0x04 0 0 ++ leBytes 1 0 ++ leBytes 1 2 ++ leBytes 2 0x1200 ++ leBytes 2 0x1300
    opening (setSec s fun x => { x with spdmVersion := 0, spdmAlgs := false, vca := [], transcript := [] }) r a

/-- GET_VERSION (R832): versions 1.2 and 1.3. -/
def execSpdmGetVersion (req : Bytes) (s : State) : Res := done s (doSpdmGetVersion req s)

/-- CERT, CHAL and MEAS with signature. -/
def spCaps : Nat := 0x02 + 0x04 + 0x10

def doSpdmGetCapabilities (r : Bytes) (s : State) : State :=
  responder s r 0xE1 fun s =>
    if s.sec.vca.isEmpty ∨ s.sec.spdmVersion ≠ 0 then answer s (spError s errUnexpected)
    else if spVer r ≠ 0x12 ∧ spVer r ≠ 0x13 then answer s (spError s errVersion)
    else
      let (k, s) := takeFree s
      let a := spHead (spVer r) 0x61 0 0 ++ leBytes 1 0 ++ leBytes 1 17 ++ leBytes 2 0 ++ leBytes 4 spCaps ++ freeBytes k 8
      opening (setSec s fun x => { x with spdmVersion := spVer r }) r a

/-- GET_CAPABILITIES (R832): CTExponent 17; the buffer sizes are open. -/
def execSpdmGetCapabilities (req : Bytes) (s : State) : Res := done s (doSpdmGetCapabilities req s)

def doSpdmNegotiateAlgorithms (r : Bytes) (s : State) : State :=
  responder s r 0xE3 fun s => versioned s r 32 fun s =>
    if !bitOf (fieldAt r 8 4) 7 ∨ !bitOf (fieldAt r 12 4) 1 ∨ !bitOf (fieldAt r 6 1) 0 then answer s (spError s errInvalid)
    else
      let a := spHead s.sec.spdmVersion 0x63 0 0 ++ leBytes 2 36 ++ leBytes 1 1 ++ leBytes 1 0 ++ leBytes 4 4 ++ leBytes 4 0x80
        ++ leBytes 4 2 ++ leBytes 16 0
      opening (setSec s fun x => { x with spdmAlgs := true }) r a

/-- NEGOTIATE_ALGORITHMS (R832): ECDSA P-384 with SHA-384 only. -/
def execSpdmNegotiateAlgorithms (req : Bytes) (s : State) : Res := done s (doSpdmNegotiateAlgorithms req s)

/-! ### Certificates (R831) -/

def chainDer (s : State) : Bytes :=
  let n := fieldAt (flashBytes s chainArea 4) 0 4
  flashBytes s (chainArea + 4) (min n 0xFFFC)

/-- The first certificate of the chain, by its DER length. -/
def rootCert (d : Bytes) : Bytes :=
  let n := fieldAt d 1 1
  if n < 0x80 then d.take (2 + n)
  else if n = 0x81 then d.take (3 + fieldAt d 2 1)
  else d.take (4 + fieldAt d 2 1 * 256 + fieldAt d 3 1)

/-- Slot 0's chain as SPDM carries it: length, root hash, certificates. -/
def spChain (s : State) : Bytes :=
  let d := chainDer s
  leBytes 2 (52 + d.length) ++ leBytes 2 0 ++ Config.sha384 (rootCert d) ++ d

def doSpdmGetDigests (r : Bytes) (s : State) : State :=
  responder s r 0x81 fun s => agreed s r 4 fun s =>
    exchange s r (spHead s.sec.spdmVersion 0x01 (if s.sec.spdmVersion = 0x13 then 1 else 0) 1 ++ Config.sha384 (spChain s))

/-- GET_DIGESTS (R831, R832). -/
def execSpdmGetDigests (req : Bytes) (s : State) : Res := done s (doSpdmGetDigests req s)

def doSpdmGetCertificate (r : Bytes) (s : State) : State :=
  responder s r 0x82 fun s => agreed s r 8 fun s =>
    let c := spChain s
    let off := fieldAt r 4 2
    if fieldAt r 2 1 % 16 ≠ 0 ∨ c.length ≤ off then answer s (spError s errInvalid)
    else
      let n := min (fieldAt r 6 2) (c.length - off)
      exchange s r (spHead s.sec.spdmVersion 0x02 0 0 ++ leBytes 2 n ++ leBytes 2 (c.length - off - n) ++ (c.drop off).take n)

/-- GET_CERTIFICATE (R831, R832): slot 0 only. -/
def execSpdmGetCertificate (req : Bytes) (s : State) : Res := done s (doSpdmGetCertificate req s)

/-! ### Measurements (R834) -/

/-- The digest of an index's latest log entry; zeros where there is none. -/
def latestDigest (s : State) (i : Nat) : Bytes :=
  match (s.sec.log.filter fun e => fieldAt e 0 1 == i).getLast? with
  | some e => e.drop 0x10
  | none => List.replicate 48 0

/-- The kind of value that a block carries. -/
def blockType (i : Nat) : Nat :=
  if i = 1 then 0 else if i ≤ 6 then 1 else if i = 7 then 3 else if i ≤ 9 then 2 else 0x84

/-- A measurement block. -/
def measBlock (s : State) (i : Nat) : Bytes :=
  let v := if i = 16 then s.sec.log.flatten else latestDigest s i
  leBytes 1 i ++ leBytes 1 1 ++ leBytes 2 (3 + v.length) ++ leBytes 1 (blockType i) ++ leBytes 2 v.length ++ v

def measIndices : List Nat := span 1 9 ++ [16]

/-- The signature that ends an answer, over the opening and everything since the last signature (R832). -/
def signed (s : State) (r a : Bytes) : State :=
  let sig := Config.identitySign (s.sec.vca ++ s.sec.transcript ++ r ++ a)
  answer (setSec s fun x => { x with transcript := [] }) (a ++ sig)

/-- The requester's context of version 1.3. -/
def spContext (s : State) (r : Bytes) (off : Nat) : Bytes := if s.sec.spdmVersion = 0x13 then (r.drop off).take 8 else []

def doSpdmChallenge (r : Bytes) (s : State) : State :=
  responder s r 0x83 fun s => agreed s r (if s.sec.spdmVersion = 0x13 then 44 else 36) fun s =>
    let ty := fieldAt r 3 1
    if fieldAt r 2 1 ≠ 0 ∨ !(ty == 0 || ty == 1 || ty == 0xFF) then answer s (spError s errInvalid)
    else
      let (k, s) := takeFree s
      let sum := if ty = 0 then [] else Config.sha384 ((span 1 9).flatMap (measBlock s))
      signed s r (spHead s.sec.spdmVersion 0x03 0 1 ++ Config.sha384 (spChain s) ++ freeBytes k 32 ++ sum ++ leBytes 2 0
        ++ spContext s r 36)

/-- CHALLENGE (R831, R832): signed with the identity key. -/
def execSpdmChallenge (req : Bytes) (s : State) : Res := done s (doSpdmChallenge req s)

/-- The blocks that a GET_MEASUREMENTS asks for: none, all, or one; `none` where it asks for one that is not served. -/
def askedBlocks (op : Nat) : Option (List Nat) :=
  if op = 0 then some [] else if op = 0xFF then some measIndices else if measIndices.contains op then some [op] else none

def doSpdmGetMeasurements (r : Bytes) (s : State) : State :=
  responder s r 0xE0 fun s =>
    let sign := bitOf (fieldAt r 2 1) 0
    let is13 := s.sec.spdmVersion = 0x13
    let need := if sign then (if is13 then 45 else 37) else (if is13 then 12 else 4)
    agreed s r need fun s =>
      let op := fieldAt r 3 1
      match askedBlocks op with
      | none => answer s (spError s errInvalid)
      | some is =>
        let (k, s) := takeFree s
        let rec_ := is.flatMap (measBlock s)
        let a := spHead s.sec.spdmVersion 0x60 (if op = 0 then measIndices.length else 0) 0 ++ leBytes 1 is.length
          ++ leBytes 3 rec_.length ++ rec_ ++ freeBytes k 32 ++ leBytes 2 0 ++ spContext s r (need - 8)
        if sign then signed s r a else exchange s r a

/-- GET_MEASUREMENTS (R832, R834). -/
def execSpdmGetMeasurements (req : Bytes) (s : State) : Res := done s (doSpdmGetMeasurements req s)

end Sys2Proof.Machine
end

