-- ==== Sys2Proof/Machine/Registers.lean ====
section
/-! DEFINITION. Writes of registers through BAR0 (R13, R15, R16, R691, R862, R914 to R917). -/

namespace Sys2Proof.Machine
open Sys2Proof

/-- Where a BAR0 offset of a function leads: die and window offset (R691). -/
def bar0Window (fn off : Nat) : Option (Nat × Nat) :=
  if fn = 0 then (if off < 8 * 0x800000 then some (off / 0x800000, off % 0x800000) else none)
  else if off < 0x10000 then some (0, 0x100000 + 0x10000 * fn + off) else none

/-- Before RUN only CD0's boot registers are reached, through the PF (R862, R863). -/
def reaches (s : State) (fn : Nat) (r : Reg) : Bool := inRun s || (fn == 0 && r.name.info.blk == .boot && s.boot.phase != .power)

/-- The island of an XSTAT register (R49). -/
def islandOf (r : Reg) : Option Island :=
  match r.name with
  | .t1cXstat => some (.t1c (Fin.ofNat 8 r.unit))
  | .t2cXstat => some (.t2c (Fin.ofNat 16 r.unit))
  | .lnkXstat => some (.lnk (Fin.ofNat 36 r.unit))
  | .hostXstat => some .host
  | .bootXstat => some .boot
  | .telXstat => some .tel
  | .komXstat => some (.kom (Fin.ofNat 8 r.unit))
  | _ => none

/-- A tier controller's CTRL: a LATE or a WC_AGE of 0 is ignored (R415, R418). -/
def tierCtrlWrite (s : State) (r : Reg) (v : Nat) : State :=
  let old := regGet s r
  let v := if bitsOf v 24 8 = 0 then putBits v 24 8 (bitsOf old 24 8) else v
  let v := if bitsOf v 4 4 = 0 then putBits v 4 4 (bitsOf old 4 4) else v
  regWritePlain s r v 0

/-- PWR_STAT: a bit that clears makes a fault record (R812). -/
def pwrStatWrite (s : State) (r : Reg) (v hw : Nat) : State :=
  let t := regWritePlain s r v hw
  if regFld t r 4 2 = regFld s r 4 2 then t else faultReg t 0xFF r

/-- PWR_LIMIT: values clamp (R813). -/
def pwrLimitWrite (s : State) (r : Reg) (v : Nat) : State :=
  regrant (regPut (regPut s r 20 12 (clampW (bitsOf v 20 12))) r 0 7 (clampT (bitsOf v 0 7)))

/-- BOOT_RCMD: a command, or SLOT alone (R863, R878). START is an event of its own, for what its start finds. -/
def rcmdWrite (s : State) (v : W32) : State :=
  match bitsOf v.toNat 0 4 with
  | 1 => doRecErase v s
  | 2 => doRecProgram v s
  | 3 => doRecVerify v s
  | 4 => doRecAuth v s
  | 5 => s
  | _ => if s.boot.phase = .recovery then putSlot s v.toNat else s

/-- The command window of RECOVERY (R877). -/
def rwinWrite (s : State) (i v : Nat) : State :=
  if s.boot.phase = .recovery then setBoot s fun b => { b with rwin := putBytes 0 b.rwin (8 * i) (leBytes 8 v) } else s

/-- HOST_FNCTRL: ADMQ_EN creates or deletes the admin queue (R733). -/
def fnctrlWrite (s : State) (r : Reg) (v : Nat) : State :=
  let fn : FnId := Fin.ofNat 17 r.unit
  let s := regWritePlain s r (putBits v 0 1 (b2n (regBit s r 0))) 0
  if bitOf v 0 then doAdmqEnable fn s else doAdmqDisable fn s

/-- HOST_ADMQ: ignored while ADMQ_EN is 1 (R734). -/
def admqWrite (s : State) (r : Reg) (v : Nat) : State :=
  if regBit s ⟨.hostFnctrl, r.unit, 0⟩ 0 then s else regWritePlain s r v 0

/-- A write of a whole register, with what it does beside setting its fields (R15). -/
def regAct (s : State) (r : Reg) (v hw : Nat) : State :=
  let v32 := BitVec.ofNat 32 v
  match islandOf r with
  | some i => xstatPut s i v hw
  | none =>
    match r.name with
    | .strErrlog | .codecErrlog | .ingPipeerr => logWrite s r v hw
    | .strScrub => strScrubWrite s r.unit v hw
    | .t1cCtrl | .t2cCtrl => tierCtrlWrite s r v
    | .collStall1 => doCollStall1Write (BitVec.ofNat 64 v) (BitVec.ofNat 64 hw) s
    | .pwrVreq => requestState s (bitsOf v 0 3)
    | .pwrStat => pwrStatWrite s r v (hw &&& 0x30)
    | .pwrLimit => pwrLimitWrite s r v
    | .bootRoff => if s.boot.phase = .recovery then regWritePlain s r v 0 else s
    | .bootRwin => rwinWrite s r.idx v
    | .bootRcmd => rcmdWrite s v32
    | .clspCtrl => clspWrite s v
    | .lnkCtrl => lnkCtrlWrite s r.unit v
    | .hostFnctrl => fnctrlWrite s r v
    | .hostEvthead => doHostEvtheadWrite (Fin.ofNat 17 r.unit) v32 s
    | .hostAdmq => admqWrite s r v
    | _ => regWritePlain s r v (hw &&& r.name.info.w1c)

/-- The registers that are arrays of 64-bit words and take narrower accesses (R13). -/
def isArray (n : RegName) : Bool := n == .strRegion || n == .hostAdmq || n == .bootRwin

/-- The bytes that a narrower write leaves as they are. -/
def arrayOld (s : State) (r : Reg) : Nat := if r.name = .bootRwin then regRead s r else regGet s r

/-- A 32-bit write at a window offset (R13, R916). -/
def writeWord (s : State) (fn die o v hw : Nat) : State :=
  match regAt die o with
  | none => s
  | some (r, x) =>
    if !reaches s fn r then s
    else if r.name.info.bits = 32 then regAct s r v hw
    else if isArray r.name then regAct s r (putBits (arrayOld s r) (8 * x) 32 v) 0
    else s

/-- A 64-bit write: to a 64-bit register, or as two 32-bit writes, the lower first (R13). -/
def writeWide (s : State) (fn die o v hw : Nat) : State :=
  match regAt die o with
  | some (r, 0) =>
    if r.name.info.bits = 64 then (if reaches s fn r then regAct s r v hw else s)
    else writeWord (writeWord s fn die o (v % 2 ^ 32) (hw % 2 ^ 32)) fn die (o + 4) (v / 2 ^ 32) (hw / 2 ^ 32)
  | _ => writeWord (writeWord s fn die o (v % 2 ^ 32) (hw % 2 ^ 32)) fn die (o + 4) (v / 2 ^ 32) (hw / 2 ^ 32)

def doRegisterWrite (fn : FnId) (off : Nat) (wide : Bool) (v hw : W64) (s : State) : State :=
  if noFn s fn.val ∨ Tbl.get false s.host.d3hot fn.val then s
  else match bar0Window fn.val off with
    | none => s
    | some (die, o) =>
      if wide then (if o % 8 = 0 then writeWide s fn.val die o v.toNat hw.toNat else s)
      else if o % 4 = 0 then writeWord s fn.val die o (v.toNat % 2 ^ 32) (hw.toNat % 2 ^ 32) else s

/-- REGISTER_WRITE (R13, R15, R16, R34, R129, R174, R175, R358, R415, R416, R418, R420, R464, R466, R516, R518, R522, R577, R578,
R620, R680, R682 to R684, R691, R733 to R738, R787, R789, R812, R813, R862, R874, R877, R909, R914 to R917): a write of 32 or 64
bits through a function's BAR0; `hw` are the W1C bits that hardware sets at that moment. -/
def execRegisterWrite (fn : FnId) (off : Nat) (wide : Bool) (v hw : W64) (s : State) : Res :=
  done s (doRegisterWrite fn off wide v hw s)

/-- What an aligned 32-bit read at a window offset returns: a 32-bit register, or a word of an array; a reserved word and a
read narrower than its register read 0 (R13, R916). Reads have no side effect. -/
def readWord (s : State) (fn die o : Nat) : Nat :=
  match regAt die o with
  | none => 0
  | some (r, x) =>
    if !reaches s fn r then 0
    else if r.name.info.bits = 32 then (if x = 0 then regRead s r % 2 ^ 32 else 0)
    else if isArray r.name then bitsOf (regRead s r) (8 * x) 32
    else 0

/-- What an aligned 64-bit read returns: a 64-bit register, or two words, each as a read of it alone (R13). -/
def readWide (s : State) (fn die o : Nat) : Nat :=
  let words := readWord s fn die o + readWord s fn die (o + 4) * 2 ^ 32
  match regAt die o with
  | some (r, x) => if r.name.info.bits = 64 ∧ x = 0 then (if reaches s fn r then regRead s r % 2 ^ 64 else 0) else words
  | none => words

/-- What a read of a function's BAR0 returns, of 64 bits where `wide` says so: 0 where it is misaligned (R13, R691, R916). -/
def registerRead (s : State) (fn : FnId) (off : Nat) (wide : Bool) : Nat :=
  if noFn s fn.val ∨ Tbl.get false s.host.d3hot fn.val then 0
  else match bar0Window fn.val off with
    | none => 0
    | some (die, o) =>
      if wide then (if o % 8 = 0 then readWide s fn.val die o else 0)
      else if o % 4 = 0 then readWord s fn.val die o else 0

end Sys2Proof.Machine
end

