-- ==== Sys2Proof/Machine/TierFail.lean ====
section
/-! DEFINITION. Requests to the tiers that end with TIER_FAIL (R373, R406, R407). -/

namespace Sys2Proof.Machine
open Sys2Proof

/-- A command's own request fails: it completes, a step that waits leaves the wait; the tile requests of a running step are not its
command's. -/
def cmdFails (s : State) (cid : Nat) : State :=
  match cmdAt s cid with
  | none => s
  | some c =>
    let p := cmdPart s c
    if (match (partAt s p).run with | some r => r.cid == cid | none => false) then s
    else complete (dropWaiting s p cid) cid stTierFail

/-- A request ends with TIER_FAIL (R407): a tile's ends its step, a command completes, a drain ends, the host's read is answered by a
poisoned completion (R692); a read-merge-write writes nothing and every write of its entry ends (R373). -/
def requestFails (s : State) (a : Nat) (r : TierReq) : State :=
  match r with
  | .tile t => match (tileAt s (liveTile s t.toNat)).part with
    | some p => failStep s p.val stTierFail
    | none => s
  | .command cid => cmdFails s cid
  | .drain p => drainEnd s p.val stTierFail
  | .bar4 => emit (emit s .bar4Poisoned) .aer
  | .merge => wcWriteOut s (tierUnit a).1 true
  | .none => s

/-- The read of a read-merge-write comes late: every write that the entry holds ends with TIER_FAIL, and its steps (R373, R406). -/
def mergeLate (s : State) (u : Nat) : State :=
  match Tbl.get none s.tier.wc u with
  | none => s
  | some e => forEach e.writers (setWc s u none) fun s w =>
      if ((partAt s w.1.val).run.map (·.num)) = some w.2 then stepFails s w.1.val stTierFail else s

def doTierLate (c : TierCtl) (addr : BitVec 48) (r : TierReq) (s : State) : State :=
  if ofCtl (tierCtlNo c) addr.toNat then
    let s := noteLate s (tierCtlNo c) addr.toNat
    if r = .merge then mergeLate s (tierUnit addr.toNat).1 else requestFails s addr.toNat r
  else s

/-- TIER_LATE: a request took longer than CTRL.LATE and ends with TIER_FAIL (R406 to R408). -/
def execTierLate (c : TierCtl) (addr : BitVec 48) (r : TierReq) (s : State) : Res := done s (doTierLate c addr r s)

def doTierUncorrectable (c : TierCtl) (addr : BitVec 48) (r : TierReq) (s : State) : State :=
  if ofCtl (tierCtlNo c) addr.toNat then requestFails (noteUe s (tierCtlNo c) addr.toNat) addr.toNat r else s

/-- TIER_UNCORRECTABLE: a request meets an uncorrectable error and ends with TIER_FAIL (R373, R406 to R408). -/
def execTierUncorrectable (c : TierCtl) (addr : BitVec 48) (r : TierReq) (s : State) : Res :=
  done s (doTierUncorrectable c addr r s)

end Sys2Proof.Machine
end

