-- ==== Sys2Proof/Machine/Dispatch.lean ====
section
/-! DEFINITION. The effect of every command: one arm for each row of the table, one call of its meaning. -/

namespace Sys2Proof.Machine
open Sys2Proof

/-- What a command does to everything but the queue of waiting commands. -/
def exec (i : Instr) (s : State) : Host.Outcome State Fault Refusal :=
  match i with
  | .powerOnStart inputMv env => Sys2Proof.Machine.execPowerOnStart inputMv env s
  | .imageVerifyDone => Sys2Proof.Machine.execImageVerifyDone s
  | .tierFillDone => Sys2Proof.Machine.execTierFillDone s
  | .enterRun => Sys2Proof.Machine.execEnterRun s
  | .komodoRunTimeout => Sys2Proof.Machine.execKomodoRunTimeout s
  | .brownOutReset d mv env => Sys2Proof.Machine.execBrownOutReset d mv env s
  | .perstDeassert => Sys2Proof.Machine.execPerstDeassert s
  | .paceWindowEnd rates => Sys2Proof.Machine.execPaceWindowEnd rates s
  | .crossingDeliver i1 x => Sys2Proof.Machine.execCrossingDeliver i1 x s
  | .eventCrossingSend i1 toIsland => Sys2Proof.Machine.execEventCrossingSend i1 toIsland s
  | .islandWake i1 x => Sys2Proof.Machine.execIslandWake i1 x s
  | .islandWakeDone i1 => Sys2Proof.Machine.execIslandWakeDone i1 s
  | .wakeLate i1 => Sys2Proof.Machine.execWakeLate i1 s
  | .islandStopRequest i1 w => Sys2Proof.Machine.execIslandStopRequest i1 w s
  | .i3cStartCondition => Sys2Proof.Machine.execI3cStartCondition s
  | .xstatWrite i1 v hw => Sys2Proof.Machine.execXstatWrite i1 v hw s
  | .arbiterGrant r arrivals => Sys2Proof.Machine.execArbiterGrant r arrivals s
  | .brakeApply d mv ns => Sys2Proof.Machine.execBrakeApply d mv ns s
  | .brakeRelease mv ns => Sys2Proof.Machine.execBrakeRelease mv ns s
  | .newtNop t e => Sys2Proof.Machine.execNewtNop t e s
  | .newtAdd t e => Sys2Proof.Machine.execNewtAdd t e s
  | .newtSub t e => Sys2Proof.Machine.execNewtSub t e s
  | .newtAnd t e => Sys2Proof.Machine.execNewtAnd t e s
  | .newtOr t e => Sys2Proof.Machine.execNewtOr t e s
  | .newtXor t e => Sys2Proof.Machine.execNewtXor t e s
  | .newtShl t e => Sys2Proof.Machine.execNewtShl t e s
  | .newtShr t e => Sys2Proof.Machine.execNewtShr t e s
  | .newtSra t e => Sys2Proof.Machine.execNewtSra t e s
  | .newtMul t e => Sys2Proof.Machine.execNewtMul t e s
  | .newtMin t e => Sys2Proof.Machine.execNewtMin t e s
  | .newtMax t e => Sys2Proof.Machine.execNewtMax t e s
  | .newtAddi t e => Sys2Proof.Machine.execNewtAddi t e s
  | .newtAndi t e => Sys2Proof.Machine.execNewtAndi t e s
  | .newtOri t e => Sys2Proof.Machine.execNewtOri t e s
  | .newtShli t e => Sys2Proof.Machine.execNewtShli t e s
  | .newtShri t e => Sys2Proof.Machine.execNewtShri t e s
  | .newtMovz t e => Sys2Proof.Machine.execNewtMovz t e s
  | .newtMovk t e => Sys2Proof.Machine.execNewtMovk t e s
  | .newtCmp t e => Sys2Proof.Machine.execNewtCmp t e s
  | .newtCmpi t e => Sys2Proof.Machine.execNewtCmpi t e s
  | .newtPlog t e => Sys2Proof.Machine.execNewtPlog t e s
  | .newtBr t e => Sys2Proof.Machine.execNewtBr t e s
  | .newtCall t e => Sys2Proof.Machine.execNewtCall t e s
  | .newtRet t e => Sys2Proof.Machine.execNewtRet t e s
  | .newtLoop t e => Sys2Proof.Machine.execNewtLoop t e s
  | .newtHalt t e => Sys2Proof.Machine.execNewtHalt t e s
  | .newtTrap t e => Sys2Proof.Machine.execNewtTrap t e s
  | .newtLd t e => Sys2Proof.Machine.execNewtLd t e s
  | .newtSt t e => Sys2Proof.Machine.execNewtSt t e s
  | .newtLdw t e => Sys2Proof.Machine.execNewtLdw t e s
  | .newtStw t e => Sys2Proof.Machine.execNewtStw t e s
  | .newtAclr t e => Sys2Proof.Machine.execNewtAclr t e s
  | .newtMma t e => Sys2Proof.Machine.execNewtMma t e s
  | .newtFill t e => Sys2Proof.Machine.execNewtFill t e s
  | .newtSwap t e => Sys2Proof.Machine.execNewtSwap t e s
  | .newtWout t e => Sys2Proof.Machine.execNewtWout t e s
  | .newtVop t e => Sys2Proof.Machine.execNewtVop t e s
  | .newtFexp t e => Sys2Proof.Machine.execNewtFexp t e s
  | .newtXwait t e => Sys2Proof.Machine.execNewtXwait t e s
  | .newtBar t e => Sys2Proof.Machine.execNewtBar t e s
  | .newtSev t e => Sys2Proof.Machine.execNewtSev t e s
  | .newtWev t e => Sys2Proof.Machine.execNewtWev t e s
  | .newtMark t e => Sys2Proof.Machine.execNewtMark t e s
  | .markerForward t => Sys2Proof.Machine.execMarkerForward t s
  | .newtFence t e => Sys2Proof.Machine.execNewtFence t e s
  | .newtTime t e => Sys2Proof.Machine.execNewtTime t e s
  | .newtCsrr t e => Sys2Proof.Machine.execNewtCsrr t e s
  | .newtCsrw t e => Sys2Proof.Machine.execNewtCsrw t e s
  | .waitTimeout t => Sys2Proof.Machine.execWaitTimeout t s
  | .aclrExecute t => Sys2Proof.Machine.execAclrExecute t s
  | .mmaExecute t => Sys2Proof.Machine.execMmaExecute t s
  | .fillExecute t => Sys2Proof.Machine.execFillExecute t s
  | .woutExecute t => Sys2Proof.Machine.execWoutExecute t s
  | .vopExecute t => Sys2Proof.Machine.execVopExecute t s
  | .fexpExecute t => Sys2Proof.Machine.execFexpExecute t s
  | .tileCommandComplete t num => Sys2Proof.Machine.execTileCommandComplete t num s
  | .levelStage t level opnd => Sys2Proof.Machine.execLevelStage t level opnd s
  | .stepReplay p => Sys2Proof.Machine.execStepReplay p s
  | .tileHardwareFault t => Sys2Proof.Machine.execTileHardwareFault t s
  | .remapCopyComplete t => Sys2Proof.Machine.execRemapCopyComplete t s
  | .attnFwd p => Sys2Proof.Machine.execAttnFwd p s
  | .attnAppend p => Sys2Proof.Machine.execAttnAppend p s
  | .attnBwd p => Sys2Proof.Machine.execAttnBwd p s
  | .partialRecord m => Sys2Proof.Machine.execPartialRecord m s
  | .conv p => Sys2Proof.Machine.execConv p s
  | .det p => Sys2Proof.Machine.execDet p s
  | .strataDeclare cid => Sys2Proof.Machine.execStrataDeclare cid s
  | .strataRelease cid => Sys2Proof.Machine.execStrataRelease cid s
  | .strataParityFail addr by_ readBackFails => Sys2Proof.Machine.execStrataParityFail addr by_ readBackFails s
  | .cleanRefetchDone addr tierOk readBackFails => Sys2Proof.Machine.execCleanRefetchDone addr tierOk readBackFails s
  | .scrubLine d fails readBackFails => Sys2Proof.Machine.execScrubLine d fails readBackFails s
  | .scrubBehind d => Sys2Proof.Machine.execScrubBehind d s
  | .strScrubWrite d v hw => Sys2Proof.Machine.execStrScrubWrite d v hw s
  | .strErrlogWrite t v hw => Sys2Proof.Machine.execStrErrlogWrite t v hw s
  | .tierAlloc cid => Sys2Proof.Machine.execTierAlloc cid s
  | .tierFree cid => Sys2Proof.Machine.execTierFree cid s
  | .tierFlush cid => Sys2Proof.Machine.execTierFlush cid s
  | .tierQuota cid => Sys2Proof.Machine.execTierQuota cid s
  | .streamDeclare cid => Sys2Proof.Machine.execStreamDeclare cid s
  | .streamAcq p => Sys2Proof.Machine.execStreamAcq p s
  | .streamRel p => Sys2Proof.Machine.execStreamRel p s
  | .streamFetchDone p stream layer => Sys2Proof.Machine.execStreamFetchDone p stream layer s
  | .wcAgeExpiry c unit uncorrectable => Sys2Proof.Machine.execWcAgeExpiry c unit uncorrectable s
  | .backedFill addr => Sys2Proof.Machine.execBackedFill addr s
  | .writeBack addr => Sys2Proof.Machine.execWriteBack addr s
  | .reclaim p => Sys2Proof.Machine.execReclaim p s
  | .tierLate c addr r => Sys2Proof.Machine.execTierLate c addr r s
  | .tierUncorrectable c addr r => Sys2Proof.Machine.execTierUncorrectable c addr r s
  | .tierRetirement c pc why => Sys2Proof.Machine.execTierRetirement c pc why s
  | .redirectionComplete c pc => Sys2Proof.Machine.execRedirectionComplete c pc s
  | .tierScrub c unit r => Sys2Proof.Machine.execTierScrub c unit r s
  | .bcEnc p => Sys2Proof.Machine.execBcEnc p s
  | .bcDec p => Sys2Proof.Machine.execBcDec p s
  | .bcVerify p => Sys2Proof.Machine.execBcVerify p s
  | .ral2pDecode p => Sys2Proof.Machine.execRal2pDecode p s
  | .spEnc p => Sys2Proof.Machine.execSpEnc p s
  | .spDec p => Sys2Proof.Machine.execSpDec p s
  | .fcProject p => Sys2Proof.Machine.execFcProject p s
  | .fcOrtho p => Sys2Proof.Machine.execFcOrtho p s
  | .fcQproj p => Sys2Proof.Machine.execFcQproj p s
  | .fcResid p => Sys2Proof.Machine.execFcResid p s
  | .codecErrlogWrite d inst v hw => Sys2Proof.Machine.execCodecErrlogWrite d inst v hw s
  | .dataFlit l f fec => Sys2Proof.Machine.execDataFlit l f fec s
  | .ctlIdle l f => Sys2Proof.Machine.execCtlIdle l f s
  | .ackTimer l => Sys2Proof.Machine.execAckTimer l s
  | .replayTimeout l => Sys2Proof.Machine.execReplayTimeout l s
  | .identSend => Sys2Proof.Machine.execIdentSend s
  | .ctlIdent l f => Sys2Proof.Machine.execCtlIdent l f s
  | .timeSend => Sys2Proof.Machine.execTimeSend s
  | .timeRecord l f offset => Sys2Proof.Machine.execTimeRecord l f offset s
  | .ctlJoin l f => Sys2Proof.Machine.execCtlJoin l f s
  | .ctlJoinReady l f => Sys2Proof.Machine.execCtlJoinReady l f s
  | .ctlJoinCommit l f => Sys2Proof.Machine.execCtlJoinCommit l f s
  | .ctlJoinAbort l f => Sys2Proof.Machine.execCtlJoinAbort l f s
  | .joinReadyTimeout axis => Sys2Proof.Machine.execJoinReadyTimeout axis s
  | .joinRetry axis => Sys2Proof.Machine.execJoinRetry axis s
  | .msgCommand m => Sys2Proof.Machine.execMsgCommand m s
  | .msgNack m => Sys2Proof.Machine.execMsgNack m s
  | .msgMap m => Sys2Proof.Machine.execMsgMap m s
  | .msgRead m => Sys2Proof.Machine.execMsgRead m s
  | .msgReadData m => Sys2Proof.Machine.execMsgReadData m s
  | .msgWrite m => Sys2Proof.Machine.execMsgWrite m s
  | .newtEvent ev => Sys2Proof.Machine.execNewtEvent ev s
  | .msgBulk m => Sys2Proof.Machine.execMsgBulk m s
  | .msgCheckpoint m => Sys2Proof.Machine.execMsgCheckpoint m s
  | .laneFault l lane => Sys2Proof.Machine.execLaneFault l lane s
  | .linkFault l why => Sys2Proof.Machine.execLinkFault l why s
  | .trainingComplete l lanes => Sys2Proof.Machine.execTrainingComplete l lanes s
  | .trainingTimeout l => Sys2Proof.Machine.execTrainingTimeout l s
  | .retrainComplete l lanes => Sys2Proof.Machine.execRetrainComplete l lanes s
  | .retrainTimeout l => Sys2Proof.Machine.execRetrainTimeout l s
  | .signalDetected l lanes => Sys2Proof.Machine.execSignalDetected l lanes s
  | .lnkRetry l v => Sys2Proof.Machine.execLnkRetry l v s
  | .lnkEnable l v => Sys2Proof.Machine.execLnkEnable l v s
  | .lnkDisable l v => Sys2Proof.Machine.execLnkDisable l v s
  | .clspJoin v => Sys2Proof.Machine.execClspJoin v s
  | .clspLeave v => Sys2Proof.Machine.execClspLeave v s
  | .claspSenseMismatch sensed => Sys2Proof.Machine.execClaspSenseMismatch sensed s
  | .parentChange dir => Sys2Proof.Machine.execParentChange dir s
  | .grandmasterTakeover => Sys2Proof.Machine.execGrandmasterTakeover s
  | .collOpen cid => Sys2Proof.Machine.execCollOpen cid s
  | .collClose cid => Sys2Proof.Machine.execCollClose cid s
  | .collAbort m => Sys2Proof.Machine.execCollAbort m s
  | .coll p => Sys2Proof.Machine.execColl p s
  | .collWait p => Sys2Proof.Machine.execCollWait p s
  | .collectiveStart p stream => Sys2Proof.Machine.execCollectiveStart p stream s
  | .collReq d m => Sys2Proof.Machine.execCollReq d m s
  | .collGrant d m => Sys2Proof.Machine.execCollGrant d m s
  | .collData d m => Sys2Proof.Machine.execCollData d m s
  | .collAck d m => Sys2Proof.Machine.execCollAck d m s
  | .collResend d m => Sys2Proof.Machine.execCollResend d m s
  | .collWatchdog p stream => Sys2Proof.Machine.execCollWatchdog p stream s
  | .collStall1Write v hw => Sys2Proof.Machine.execCollStall1Write v hw s
  | .ckptShard cid => Sys2Proof.Machine.execCkptShard cid s
  | .ckptStore cid => Sys2Proof.Machine.execCkptStore cid s
  | .ckptTake cid => Sys2Proof.Machine.execCkptTake cid s
  | .snapshot p b => Sys2Proof.Machine.execSnapshot p b s
  | .drainChunk p => Sys2Proof.Machine.execDrainChunk p s
  | .drainCommit side => Sys2Proof.Machine.execDrainCommit side s
  | .ckptRestore cid held => Sys2Proof.Machine.execCkptRestore cid held s
  | .axolotlTakeover cid held => Sys2Proof.Machine.execAxolotlTakeover cid held s
  | .ingOpen cid => Sys2Proof.Machine.execIngOpen cid s
  | .ingFeed cid => Sys2Proof.Machine.execIngFeed cid s
  | .ingClose cid => Sys2Proof.Machine.execIngClose cid s
  | .ingCloseComplete p => Sys2Proof.Machine.execIngCloseComplete p s
  | .tokLoad cid => Sys2Proof.Machine.execTokLoad cid s
  | .vidEncode cid => Sys2Proof.Machine.execVidEncode cid s
  | .fetchObjectRead p r => Sys2Proof.Machine.execFetchObjectRead p r s
  | .fetchTimeout p => Sys2Proof.Machine.execFetchTimeout p s
  | .segmentDecrypt p d => Sys2Proof.Machine.execSegmentDecrypt p d s
  | .recordParse p => Sys2Proof.Machine.execRecordParse p s
  | .sampleAdmit p => Sys2Proof.Machine.execSampleAdmit p s
  | .componentAdmit p => Sys2Proof.Machine.execComponentAdmit p s
  | .frameDecodeDone v ctx r => Sys2Proof.Machine.execFrameDecodeDone v ctx r s
  | .textTokenize p d => Sys2Proof.Machine.execTextTokenize p d s
  | .shapeItem p => Sys2Proof.Machine.execShapeItem p s
  | .slotReady p => Sys2Proof.Machine.execSlotReady p s
  | .locketWrite p => Sys2Proof.Machine.execLocketWrite p s
  | .ingestTake t => Sys2Proof.Machine.execIngestTake t s
  | .ingestGive t => Sys2Proof.Machine.execIngestGive t s
  | .ingPipeerrWrite p v hw => Sys2Proof.Machine.execIngPipeerrWrite p v hw s
  | .nopCommand cid => Sys2Proof.Machine.execNopCommand cid s
  | .queCreate cid => Sys2Proof.Machine.execQueCreate cid s
  | .queDelete cid => Sys2Proof.Machine.execQueDelete cid s
  | .vfBind cid => Sys2Proof.Machine.execVfBind cid s
  | .remoteCpl m => Sys2Proof.Machine.execRemoteCpl m s
  | .submissionDoorbell fn off v stores => Sys2Proof.Machine.execSubmissionDoorbell fn off v stores s
  | .creditDoorbell fn off v stores => Sys2Proof.Machine.execCreditDoorbell fn off v stores s
  | .queueFetch => Sys2Proof.Machine.execQueueFetch s
  | .entryAdmit q => Sys2Proof.Machine.execEntryAdmit q s
  | .msixHoldoffEnd fn vec => Sys2Proof.Machine.execMsixHoldoffEnd fn vec s
  | .hostOut t => Sys2Proof.Machine.execHostOut t s
  | .hostTmoExpiry q => Sys2Proof.Machine.execHostTmoExpiry q s
  | .functionLevelReset fn => Sys2Proof.Machine.execFunctionLevelReset fn s
  | .d3hotEntry fn => Sys2Proof.Machine.execD3hotEntry fn s
  | .admqEnable fn => Sys2Proof.Machine.execAdmqEnable fn s
  | .admqDisable fn => Sys2Proof.Machine.execAdmqDisable fn s
  | .hostEvtheadWrite fn v => Sys2Proof.Machine.execHostEvtheadWrite fn v s
  | .bar4Read fn off len => Sys2Proof.Machine.execBar4Read fn off len s
  | .bar4Write fn off data => Sys2Proof.Machine.execBar4Write fn off data s
  | .ptmMeasure hostTime => Sys2Proof.Machine.execPtmMeasure hostTime s
  | .partCreate cid => Sys2Proof.Machine.execPartCreate cid s
  | .partModify cid => Sys2Proof.Machine.execPartModify cid s
  | .partDelete cid => Sys2Proof.Machine.execPartDelete cid s
  | .tierZeroFillDone p => Sys2Proof.Machine.execTierZeroFillDone p s
  | .progLoad cid => Sys2Proof.Machine.execProgLoad cid s
  | .stepStart cid => Sys2Proof.Machine.execStepStart cid s
  | .stepBegin p => Sys2Proof.Machine.execStepBegin p s
  | .stepEnd p => Sys2Proof.Machine.execStepEnd p s
  | .stepStop cid => Sys2Proof.Machine.execStepStop cid s
  | .dlmSet cid => Sys2Proof.Machine.execDlmSet cid s
  | .markerRecord p => Sys2Proof.Machine.execMarkerRecord p s
  | .fallbackPoint p => Sys2Proof.Machine.execFallbackPoint p s
  | .deadlineExpiry p => Sys2Proof.Machine.execDeadlineExpiry p s
  | .acctRead cid => Sys2Proof.Machine.execAcctRead cid s
  | .energyWindow w => Sys2Proof.Machine.execEnergyWindow w s
  | .pwrSet cid => Sys2Proof.Machine.execPwrSet cid s
  | .telRead cid => Sys2Proof.Machine.execTelRead cid s
  | .getRecord rtype => Sys2Proof.Machine.execGetRecord rtype s
  | .subscribe rtype periodMs => Sys2Proof.Machine.execSubscribe rtype periodMs s
  | .subscriptionPush rtype sendable => Sys2Proof.Machine.execSubscriptionPush rtype sendable s
  | .setLimit w => Sys2Proof.Machine.execSetLimit w s
  | .pwrVreqWrite v => Sys2Proof.Machine.execPwrVreqWrite v s
  | .voltageRampDone => Sys2Proof.Machine.execVoltageRampDone s
  | .powerLimitTick r => Sys2Proof.Machine.execPowerLimitTick r s
  | .temperatureMeasure r => Sys2Proof.Machine.execTemperatureMeasure r s
  | .thermalTrip d => Sys2Proof.Machine.execThermalTrip d s
  | .phaseFault rail => Sys2Proof.Machine.execPhaseFault rail s
  | .inputLoss mv => Sys2Proof.Machine.execInputLoss mv s
  | .inputReturn mv => Sys2Proof.Machine.execInputReturn mv s
  | .holdupDeadline => Sys2Proof.Machine.execHoldupDeadline s
  | .inputOvervoltage mv => Sys2Proof.Machine.execInputOvervoltage mv s
  | .keyWrite cid => Sys2Proof.Machine.execKeyWrite cid s
  | .keyErase cid => Sys2Proof.Machine.execKeyErase cid s
  | .aesOperationDone slot gen => Sys2Proof.Machine.execAesOperationDone slot gen s
  | .ownerInstall cid => Sys2Proof.Machine.execOwnerInstall cid s
  | .ownerLock cid => Sys2Proof.Machine.execOwnerLock cid s
  | .ownerAuth cid => Sys2Proof.Machine.execOwnerAuth cid s
  | .spdmGetVersion req => Sys2Proof.Machine.execSpdmGetVersion req s
  | .spdmGetCapabilities req => Sys2Proof.Machine.execSpdmGetCapabilities req s
  | .spdmNegotiateAlgorithms req => Sys2Proof.Machine.execSpdmNegotiateAlgorithms req s
  | .spdmGetDigests req => Sys2Proof.Machine.execSpdmGetDigests req s
  | .spdmGetCertificate req => Sys2Proof.Machine.execSpdmGetCertificate req s
  | .spdmChallenge req => Sys2Proof.Machine.execSpdmChallenge req s
  | .spdmGetMeasurements req => Sys2Proof.Machine.execSpdmGetMeasurements req s
  | .recErase v => Sys2Proof.Machine.execRecErase v s
  | .recProgram v => Sys2Proof.Machine.execRecProgram v s
  | .recVerify v => Sys2Proof.Machine.execRecVerify v s
  | .recAuth v => Sys2Proof.Machine.execRecAuth v s
  | .recStart v env => Sys2Proof.Machine.execRecStart v env s
  | .updBegin cid => Sys2Proof.Machine.execUpdBegin cid s
  | .updWrite cid => Sys2Proof.Machine.execUpdWrite cid s
  | .updVerify cid => Sys2Proof.Machine.execUpdVerify cid s
  | .activate cid => Sys2Proof.Machine.execActivate cid s
  | .activationPause => Sys2Proof.Machine.execActivationPause s
  | .pauseTimeout => Sys2Proof.Machine.execPauseTimeout s
  | .activationCommit => Sys2Proof.Machine.execActivationCommit s
  | .mateOpen b => Sys2Proof.Machine.execMateOpen b s
  | .clspHoldAssert => Sys2Proof.Machine.execClspHoldAssert s
  | .clspHoldRelease => Sys2Proof.Machine.execClspHoldRelease s
  | .lowFlow => Sys2Proof.Machine.execLowFlow s
  | .hotInlet => Sys2Proof.Machine.execHotInlet s
  | .registerWrite fn off wide v hw => Sys2Proof.Machine.execRegisterWrite fn off wide v hw s
  | .entryFetchDone q ok => Sys2Proof.Machine.execEntryFetchDone q ok s
  | .entryFetchTimeout q => Sys2Proof.Machine.execEntryFetchTimeout q s
  | .flashOperationDone readBackOk => Sys2Proof.Machine.execFlashOperationDone readBackOk s
  | .d0Return fn => Sys2Proof.Machine.execD0Return fn s
  | .videoEncodeDone v stream => Sys2Proof.Machine.execVideoEncodeDone v stream s
  | .msixVectorUnmask fn vec => Sys2Proof.Machine.execMsixVectorUnmask fn vec s

end Sys2Proof.Machine
end

