-- ==== Sys2Proof/Machine/Tick.lean ====
section
/-! DEFINITION. A nanosecond in which no command comes (log entry 10): fabric time and the counters that time drives. -/

namespace Sys2Proof.Machine
open Sys2Proof

/-- The states of a partition's newts on a die. -/
def diePart (s : State) (p d : Nat) : List Tile :=
  ((liveMembers s (partAt s p).tiles).filter fun t => tileDie t == d).map (tileAt s)

/-- What a waiting newt counts as (R618). -/
def waitCode (w : WaitFor) : Nat := match w with | .tier => 2 | .ingest => 3 | .host => 4 | .coll => 0 | _ => 1

/-- The category of a partition on a die at this moment (R69, R618). -/
def idleCode (s : State) (p : Nat) (ts : List Tile) : Nat :=
  let q := partAt s p
  let waits (c : Nat) : Bool := ts.any fun x => x.st == .waiting && waitCode x.wait == c
  if regBit s ⟨.pwrStat, 0, 0⟩ 2 then 6
  else if s.pwr.brake || powerHold s then 5
  else if ts.any (·.st == .running) then 7
  else if waits 2 then 2
  else if waits 3 then 3
  else if waits 4 || (q.run.isNone && q.waiting.isEmpty) then 4
  else if waits 0 then 0
  else 1

/-- One nanosecond more in a die's category of every partition that has tiles on it (R618, R620). -/
def idleTick (s : State) : State :=
  forEach (s.parts.filter fun e => e.2.st != .none) s fun s e =>
    forEach (List.range 8) s fun s d =>
      let ts := diePart s e.1 d
      if ts.isEmpty then s else regAddSat s ⟨.partIdle, d, 8 * e.1 + idleCode s e.1 ts⟩ 0 64 1

/-- A running collective waits between the events that move it: for staging while a request of it waits at a die, else for
data or a grant (R578). -/
def collTick (s : State) : State :=
  if !(s.coll.streams.any fun e => e.2.run.isSome) then s
  else forEach (List.range 8) s fun s d =>
    let blocked := s.coll.requests.any fun r => r.die.val == d
    regAddSat s (if blocked then ⟨.collBlockedns, d, 0⟩ else ⟨.collWaitns, d, 0⟩) 0 64 1

/-- A running collective with a member whose module has left the torus, so that a link passes over its place, ends with PEER_LOST
(R566). -/
def lostTick (s : State) : State :=
  let gap := (List.range 36).any fun l => linkUsable s l && regBit s ⟨.lnkStat, l, 0⟩ 33
  if !gap then s
  else forEach s.coll.streams s fun s e =>
    match e.2.run with
    | none => s
    | some r =>
      if (groupChips s r.op.desc).any fun c => match mapEntry s c with | some x => inGap s x.toNat | none => false then
        collFail s (e.1 / 64) (e.1 % 64) r.op stPeerLost 0 true
      else s

/-- Between its commands, each an event of its own, every one of the 16 lanes of a codec instance waits for input; none waits for
credit at its output (R427, R466; log entry 97). -/
def codecTick (s : State) : State :=
  forEach (List.range 32) s fun s i => regAddSat s ⟨.codecStarved, i, 0⟩ 0 64 16

/-- The stages of a pipeline that have no input, and those whose output waits (R625, R637): between its events a stage with an
item has finished what it can. -/
def stageIdle (x : Pipe) : List Bool :=
  let comps := x.samples.flatMap (·.comps)
  [x.entries.isEmpty, x.sealed_.isEmpty, x.parse.isEmpty, !(comps.any fun c => !c.decoded), !(comps.any fun c => c.decoded && !c.shaped),
   x.samples.isEmpty]

/-- An open pipeline's starved stages count, and its last stage counts as blocked while ended samples find no slot (R637, R654,
R682). -/
def pipeTick (s : State) (p : Nat) (x : Pipe) : State :=
  let slots := pdSlots x.desc
  let s := forEach (stageIdle x).zipIdx s fun s e => if e.1 then regAddSat s ⟨.ingStarved, 0, 8 * p + e.2⟩ 0 64 1 else s
  if !x.samples.isEmpty ∧ slots ≤ x.slots.length then regAddSat s ⟨.ingBlocked, 0, 8 * p + 5⟩ 0 64 1 else s

def ingestTick (s : State) : State :=
  forEach (s.ing.pipes.filter fun e => e.2.st == .opened) s fun s e => pipeTick s e.1 e.2

/-- Fabric time after a nanosecond of the module's oscillator: slewed by the correction in force (R511, R514). -/
def advance (s : State) : State :=
  let a := s.fab.slewAcc + s.fab.slew
  let go (now : Nat) (acc : Int) : State := { s with now, fab := { s.fab with slewAcc := acc } }
  if 1000000 ≤ a then go (s.now + 2) (a - 1000000)
  else if a ≤ -1000000 then go s.now (a + 1000000)
  else go (s.now + 1) a

/-- The stop that a fault made Komodo send reaches the step's newts (R170). -/
def stopTick (s : State) : State :=
  forEach (s.parts.filter fun e => match e.2.run with | some r => r.stopDue | none => false) s fun s e => settleStop s e.1

/-- Newts whose start VS0 staggers start as their die allows (R793). -/
def startTick (s : State) : State := if dispatchHeld s then s else forEach (List.range 16) s beginHeld

/-- A nanosecond passes: fabric time advances, and what time drives with it. -/
def tick (s : State) : State :=
  if s.pwr.powered then ingestTick (codecTick (lostTick (collTick (idleTick (barTick (pageTick (settleWorn (startTick (stopTick (advance s)))))))))) else advance s

end Sys2Proof.Machine
end

