-- ==== Sys2Proof/Safety.lean ====
section
/-! DEFINITION. What a safe state is, and the conditions on states and operands that the statements are made under: a newt
about to execute a word, a command waiting to be taken up. -/

namespace Sys2Proof.Machine
open Sys2Proof

/-- The invariant of every step: both memories stand in their canonical form, and the security version minimum counts fuses
that exist, of which a die has 64 (R828). -/
def Inv (s : State) : Prop :=
  Tbl.wf 0 s.mem = true ∧ Tbl.wf 0 s.hostMem = true ∧ s.fuses.svnMin ≤ 64

/-- A byte of device memory as it reads, and one of host memory. -/
def devByte (s : State) (a : Nat) : Byte := Tbl.get 0 s.mem a
def hostByte (s : State) (a : Nat) : Byte := Tbl.get 0 s.hostMem a

/-- The tile that answers for a tile identifier, and that tile's newt (R740). -/
def newtOf (s : State) (t : TileId) : Tile := tileAt s (liveTile s t.toNat)

/-- The newt of a tile runs and fetches word `w`, of its program region or of the library region but for the words at which a
routine with a command of its own begins (R133; log entry 102). -/
def Fetches (s : State) (t : TileId) (w : W32) : Prop :=
  newtRuns s (liveTile s t.toNat) = true ∧ (newtOf s t).pc < 16384 ∧ routineWord (newtOf s t).pc = false
    ∧ fetchWord s (newtOf s t) = w

/-- The newt of a tile executes word `w`: it fetches the word, the word decodes, its guard is true (R133, R137). -/
def Executes (s : State) (t : TileId) (w : W32) : Prop :=
  Fetches s t w ∧ nlegal w = true ∧ guardOf (newtOf s t) (ndecode w) = true

/-- The state after the newt of a tile, and nothing else, has changed. -/
def newtNext (s : State) (t : TileId) (f : Tile → Tile) : State := modTile s (liveTile s t.toNat) f

/-- The newt instructions with their operation codes (R140). -/
def newtRows : List (Nat × (TileId → ParityHit → Instr)) :=
  [(0x00, .newtNop), (0x01, .newtAdd), (0x02, .newtSub), (0x03, .newtAnd), (0x04, .newtOr), (0x05, .newtXor),
   (0x06, .newtShl), (0x07, .newtShr), (0x08, .newtSra), (0x09, .newtMul), (0x0A, .newtMin), (0x0B, .newtMax),
   (0x0C, .newtAddi), (0x0D, .newtAndi), (0x0E, .newtOri), (0x0F, .newtShli), (0x10, .newtShri), (0x11, .newtMovz),
   (0x12, .newtMovk), (0x13, .newtCmp), (0x14, .newtCmpi), (0x15, .newtPlog), (0x16, .newtBr), (0x17, .newtCall),
   (0x18, .newtRet), (0x19, .newtLoop), (0x1A, .newtHalt), (0x1B, .newtTrap), (0x1C, .newtLd), (0x1D, .newtSt),
   (0x1E, .newtLdw), (0x1F, .newtStw), (0x20, .newtAclr), (0x21, .newtMma), (0x22, .newtFill), (0x23, .newtSwap),
   (0x24, .newtWout), (0x25, .newtVop), (0x26, .newtFexp), (0x27, .newtXwait), (0x28, .newtBar), (0x29, .newtSev),
   (0x2A, .newtWev), (0x2B, .newtMark), (0x2C, .newtFence), (0x2D, .newtTime), (0x2E, .newtCsrr), (0x2F, .newtCsrw)]

/-- A command of the host's queues with its opcode (R697): the row executes the admitted command of an identifier. -/
def HostRow (op : Nat) (row : Nat → Instr) : Prop :=
  (op, row) ∈ ([(0x0001, .nopCommand), (0x0002, .queCreate), (0x0003, .queDelete), (0x0004, .vfBind), (0x0010, .strataDeclare),
    (0x0011, .strataRelease), (0x0020, .tierAlloc), (0x0021, .tierFree), (0x0022, .tierFlush), (0x0023, .tierQuota),
    (0x0024, .streamDeclare), (0x0030, .collOpen), (0x0031, .collClose), (0x0040, .ckptShard), (0x0041, .ckptStore),
    (0x0042, .ckptTake), (0x0050, .ingOpen), (0x0051, .ingFeed), (0x0052, .ingClose), (0x0053, .tokLoad), (0x0054, .vidEncode),
    (0x0100, .partCreate), (0x0101, .partModify), (0x0102, .partDelete), (0x0110, .progLoad), (0x0120, .stepStart),
    (0x0121, .stepStop), (0x0130, .dlmSet), (0x0140, .acctRead), (0x0200, .pwrSet), (0x0201, .telRead), (0x0300, .keyWrite),
    (0x0301, .keyErase), (0x0310, .ownerInstall), (0x0311, .ownerLock), (0x0312, .ownerAuth), (0x0400, .updBegin),
    (0x0401, .updWrite), (0x0402, .updVerify), (0x0403, .activate)] : List (Nat × (Nat → Instr)))

end Sys2Proof.Machine
end

