-- ==== Sys2Proof/WellFormed.lean ====
section
/-! DEFINITION. Which commands are well formed: the operands that a sender or the environment can supply. A message or a
flit has the length of its format, a reading names every sensor of its kind, an identifier names something that exists. -/

namespace Sys2Proof

/-- A tile identifier that names a tile: rows 0 to 6, columns 0 to 11 (R318). -/
def tileOk (t : TileId) : Bool := t.toNat / 16 % 8 < 7 && t.toNat % 16 < 12

/-- The 256 bytes of a flit (R470). -/
def flitOk (f : Bytes) : Bool := f.length == 256

/-- A message: a header of 32 bytes (R482, R483) and a payload of at most 65,536 bytes; whether the header states that length is
a check of the receiver (R485). -/
def messageOk (m : Bytes) : Bool := decide (32 ≤ m.length) && decide (m.length ≤ 32 + 65536)

/-- An arbitrated resource that can exist: a tile that exists; of mesh links and bridge channels, which the specification does not
number, at most 512 a die. -/
def resourceOk : Resource → Bool
  | .strataBank t _ => tileOk t
  | .fillPort t => tileOk t
  | .meshLink _ n => decide (n < 512)
  | .bridge _ n => decide (n < 512)
  | _ => true

/-- A decoded picture has one sample of luma for each point and chroma for each 2 by 2 points (R657), and no coding unit
of it is empty. -/
def pictureOk (p : Picture) : Bool :=
  p.luma.length == p.width * p.height
    && (p.mono || p.cb.length == ((p.width + 1) / 2) * ((p.height + 1) / 2))
    && (p.mono || p.cr.length == ((p.width + 1) / 2) * ((p.height + 1) / 2))
    && (p.units.all fun u => decide (1 ≤ u.w) && decide (1 ≤ u.h))

/-- An energy window names the 28 rails (R779). -/
def windowOk (w : EnergyWindow) : Bool :=
  w.railPj.length == 28 && w.railMv.length == 28 && w.railMa.length == 28

/-- The measurement of 64 sites of each of eight dies (R799). -/
def thermalOk (r : ThermalReading) : Bool := r.sites.length == 8 && r.sites.all (·.length == 64)

/-- The well-formed commands. -/
def Instr.wf : Instr → Bool
  | .paceWindowEnd r => r.length == 8 && r.all (·.length == 16)
  | .arbiterGrant r _ => resourceOk r
  | .dataFlit _ f _ => flitOk f
  | .ctlIdle _ f => flitOk f
  | .ctlIdent _ f => flitOk f
  | .timeRecord _ f _ => flitOk f
  | .ctlJoin _ f => flitOk f
  | .ctlJoinReady _ f => flitOk f
  | .ctlJoinCommit _ f => flitOk f
  | .ctlJoinAbort _ f => flitOk f
  | .msgCommand m => messageOk m
  | .msgNack m => messageOk m
  | .msgMap m => messageOk m
  | .msgRead m => messageOk m
  | .msgReadData m => messageOk m
  | .msgWrite m => messageOk m
  | .msgBulk m => messageOk m
  | .msgCheckpoint m => messageOk m
  | .partialRecord m => messageOk m
  | .remoteCpl m => messageOk m
  | .collAbort m => messageOk m
  | .collReq _ m => messageOk m
  | .collGrant _ m => messageOk m
  | .collData _ m => messageOk m
  | .collAck _ m => messageOk m
  | .collResend _ m => messageOk m
  | .markerForward t => tileOk t
  | .waitTimeout t => tileOk t
  | .frameDecodeDone _ _ (.picture p) => pictureOk p
  | .energyWindow w => windowOk w
  | .temperatureMeasure r => thermalOk r
  | .bar4Read _ off len => decide (off + len ≤ 2 ^ 30) && decide (1 ≤ len)
  | .bar4Write _ off data => decide (off + data.length ≤ 2 ^ 30) && decide (1 ≤ data.length)
  | .submissionDoorbell _ off _ _ => decide (off < 2 ^ 32)
  | .creditDoorbell _ off _ _ => decide (off < 2 ^ 32)
  | _ => true

end Sys2Proof
end

