-- ==== Sys2Proof/Certificates/Slice0/Obligations.lean ====
section
/-! DEFINITION. The statements about the model. Each is a proposition over all states; `commit s t` is the state `t` with the
queue of commands as in `s` and the memories in canonical form. -/

open Sys2Proof Sys2Proof.Machine

/-! ### Steps, the queue of commands, the invariant -/

/-- A step with a command waiting is the meaning of the command at the front of the queue, on the state with the rest of the
queue. On an empty queue a step is a nanosecond of idling, which leaves the queue empty (the model's choice, log entry 10): of a
module without power nothing changes but fabric time; of a powered one the effects that time drives follow, in a fixed order.
Fabric time advances by one nanosecond while the correction in force has not gathered another. -/
def Obligations.StepRunsTheFrontCommandOrIdles : Prop :=
  (∀ (s : State) (c : Instr) (rest : List Instr), step { s with pending := c :: rest } = exec c { s with pending := rest })
  ∧ (∀ s : State, s.pending = [] → s.pwr.powered = false → step s = .next (commit s (advance s)))
  ∧ (∀ s : State, s.pending = [] → s.pwr.powered = true → step s = .next (commit s (ingestTick (codecTick (lostTick (collTick
      (idleTick (barTick (pageTick (settleWorn (startTick (stopTick (advance s)))))))))))))
  ∧ (∀ s : State, s.pending = [] → ∃ t, step s = .next t ∧ t.pending = [])
  ∧ (∀ s : State, -1000000 < s.fab.slewAcc + s.fab.slew → s.fab.slewAcc + s.fab.slew < 1000000 →
      advance s = { s with now := s.now + 1, fab := { s.fab with slewAcc := s.fab.slewAcc + s.fab.slew } })

/-- Every step from a state that meets the invariant leads to one that meets it: both memories keep the one form in which
equal memories are equal data, and the security version minimum never counts more fuses than a die has. -/
def Obligations.EveryStepKeepsInvariant : Prop :=
  ∀ s t : State, Inv s → step s = .next t → Inv t

/-- No command is turned away by the model and none takes another command out of the queue: each of the 289 ends in a next
state with the queue as it was (log entry 1).
No command and no idle step changes the spare tiles, the vendor digests or the revocation fuses, or lowers the security
version minimum (R828, R871). -/
def Obligations.EveryCommandAnswersKeepsTheQueueAndTheFuses : Prop :=
  (∀ (c : Instr) (s : State), ∃ t, exec c s = .next t ∧ t.pending = s.pending)
  ∧ (∀ s t : State, s.fuses.svnMin ≤ 64 → step s = .next t →
      t.fuses.spares = s.fuses.spares ∧ t.fuses.vendor = s.fuses.vendor ∧ t.fuses.revoked = s.fuses.revoked
        ∧ s.fuses.svnMin ≤ t.fuses.svnMin)

/-- The invariant holds at reset.
What reset leaves: every register holds its reset value, every newt is EMPTY without events or commands, no partition, queue,
region, stream, pipeline or key exists, every byte of both memories reads as 0, the module is not powered. Registers without a
stated reset value hold 0 (the model's choice, log entry 2). -/
def Obligations.ResetMeetsTheInvariantAndEveryResetValue : Prop :=
  (Inv State.reset)
  ∧ ((∀ r : Reg, regGet State.reset r = r.name.info.reset)
    ∧ (∀ t : Nat, (tileAt State.reset t).st = .empty ∧ (tileAt State.reset t).queue = [] ∧ (tileAt State.reset t).events = [])
    ∧ (∀ p : Nat, (partAt State.reset p).st = .none ∧ (partAt State.reset p).epoch = 0)
    ∧ (∀ q : Nat, (queueAt State.reset q).st = .free) ∧ State.reset.strata.regions = [] ∧ State.reset.tier.regions = []
    ∧ (∀ p n : Nat, (collAt State.reset p n).st = .closed) ∧ (∀ p : Nat, (pipeAt State.reset p).st = .closed)
    ∧ (∀ k : Nat, (slotAt State.reset k).current = none) ∧ (∀ a : Nat, devByte State.reset a = 0 ∧ hostByte State.reset a = 0)
    ∧ State.reset.pwr.powered = false ∧ State.reset.boot.phase = .power ∧ State.reset.pending = [])

/-! ### Newts -/

/-- ADD to MAX, ADDI to SHRI, MOVZ and MOVK write their result to g[RD] and the newt goes on; NOP changes nothing else. No
other part of the module changes.
CMP, CMPI and PLOG write p[RD[2:0]]: the six conditions signed and unsigned, CMPI against a signed nine-bit immediate. -/
def Obligations.NewtArithmeticAndPredicateResults : Prop :=
  ((∀ row ∈ ([(0x01, .newtAdd, fun a b => a + b), (0x02, .newtSub, fun a b => a - b), (0x03, .newtAnd, fun a b => a &&& b),
        (0x04, .newtOr, fun a b => a ||| b), (0x05, .newtXor, fun a b => a ^^^ b),
        (0x06, .newtShl, fun a b => a <<< (b.toNat % 64)), (0x07, .newtShr, fun a b => a >>> (b.toNat % 64)),
        (0x08, .newtSra, fun a b => a.sshiftRight (b.toNat % 64)), (0x09, .newtMul, fun a b => a * b),
        (0x0A, .newtMin, fun a b => if a.toInt ≤ b.toInt then a else b),
        (0x0B, .newtMax, fun a b => if b.toInt ≤ a.toInt then a else b)]
        : List (Nat × (TileId → ParityHit → Instr) × (W64 → W64 → W64))),
      ∀ (s : State) (t : TileId) (e : ParityHit) (w : W32), Executes s t w → e ≠ .imem → (ndecode w).op = row.1 →
        exec (row.2.1 t e) s = .next (commit s (newtNext s t fun x =>
          goNext (setG x (ndecode w).rd (row.2.2 (gReg x (ndecode w).ra) (gReg x (ndecode w).rb))))))
    ∧ (∀ row ∈ ([(0x0C, .newtAddi, fun a b => a + b), (0x0D, .newtAndi, fun a b => a &&& b), (0x0E, .newtOri, fun a b => a ||| b),
        (0x0F, .newtShli, fun a b => a <<< (b.toNat % 64)), (0x10, .newtShri, fun a b => a >>> (b.toNat % 64))]
        : List (Nat × (TileId → ParityHit → Instr) × (W64 → W64 → W64))),
      ∀ (s : State) (t : TileId) (e : ParityHit) (w : W32), Executes s t w → e ≠ .imem → (ndecode w).op = row.1 →
        exec (row.2.1 t e) s = .next (commit s (newtNext s t fun x =>
          goNext (setG x (ndecode w).rd (row.2.2 (gReg x (ndecode w).ra) ((w.setWidth 12).signExtend 64))))))
    ∧ (∀ (s : State) (t : TileId) (e : ParityHit) (w : W32), Executes s t w → e ≠ .imem → (ndecode w).op = 0x11 →
        exec (.newtMovz t e) s = .next (commit s (newtNext s t fun x =>
          goNext (setG x (ndecode w).rdw ((w.setWidth 16).setWidth 64 <<< (16 * (ndecode w).hw))))))
    ∧ (∀ (s : State) (t : TileId) (e : ParityHit) (w : W32), Executes s t w → e ≠ .imem → (ndecode w).op = 0x12 →
        exec (.newtMovk t e) s = .next (commit s (newtNext s t fun x =>
          goNext (setG x (ndecode w).rdw (BitVec.ofNat 64
            (putBits (gReg x (ndecode w).rdw).toNat (16 * (ndecode w).hw) 16 (w.toNat % 65536)))))))
    ∧ (∀ (s : State) (t : TileId) (e : ParityHit) (w : W32), Executes s t w → e ≠ .imem → (ndecode w).op = 0x00 →
        exec (.newtNop t e) s = .next (commit s (newtNext s t goNext))))
  ∧ ((∀ (s : State) (t : TileId) (e : ParityHit) (w : W32) (c : W64 → W64 → Bool), Executes s t w → e ≠ .imem →
        ((ndecode w).fn % 8, c) ∈ ([(0, fun a b => decide (a = b)), (1, fun a b => decide (a ≠ b)),
          (2, fun a b => decide (a.toInt < b.toInt)), (3, fun a b => decide (a.toInt ≤ b.toInt)),
          (4, fun a b => decide (a.toNat < b.toNat)), (5, fun a b => decide (a.toNat ≤ b.toNat))] : List (Nat × (W64 → W64 → Bool))) →
        (ndecode w).op = 0x13 →
        exec (.newtCmp t e) s = .next (commit s (newtNext s t fun x =>
          goNext (setP x ((ndecode w).rd % 8) (c (gReg x (ndecode w).ra) (gReg x (ndecode w).rb))))))
    ∧ (∀ (s : State) (t : TileId) (e : ParityHit) (w : W32) (c : W64 → W64 → Bool), Executes s t w → e ≠ .imem →
        (w.toNat / 512 % 8, c) ∈ ([(0, fun a b => decide (a = b)), (1, fun a b => decide (a ≠ b)),
          (2, fun a b => decide (a.toInt < b.toInt)), (3, fun a b => decide (a.toInt ≤ b.toInt)),
          (4, fun a b => decide (a.toNat < b.toNat)), (5, fun a b => decide (a.toNat ≤ b.toNat))] : List (Nat × (W64 → W64 → Bool))) →
        (ndecode w).op = 0x14 →
        exec (.newtCmpi t e) s = .next (commit s (newtNext s t fun x =>
          goNext (setP x ((ndecode w).rd % 8) (c (gReg x (ndecode w).ra) ((w.setWidth 9).signExtend 64))))))
    ∧ (∀ (s : State) (t : TileId) (e : ParityHit) (w : W32) (o : Bool → Bool → Bool), Executes s t w → e ≠ .imem →
        ((ndecode w).fn % 4, o) ∈ ([(0, fun a b => a && b), (1, fun a b => a || b), (2, fun a b => a != b),
          (3, fun a b => a && !b)] : List (Nat × (Bool → Bool → Bool))) →
        (ndecode w).op = 0x15 →
        exec (.newtPlog t e) s = .next (commit s (newtNext s t fun x =>
          goNext (setP x ((ndecode w).rd % 8) (o (pReg x ((ndecode w).ra % 8)) (pReg x ((ndecode w).rb % 8))))))))

/-- g0 and p0 are constants and keep no write; every other register reads as written, and CALL leaves its return address
in g31. -/
def Obligations.ConstantRegistersAndReturnAddress : Prop :=
  (∀ (x : Tile) (v : W64) (n k : Nat), gReg x 0 = 0 ∧ setG x 0 v = x
      ∧ gReg (setG x n v) k = (if k = n ∧ n ≠ 0 then v else gReg x k))
  ∧ (∀ (x : Tile) (v : Bool) (n k : Nat), pReg x 0 = true ∧ setP x 0 v = x
      ∧ pReg (setP x n v) k = (if k = n ∧ n ≠ 0 then v else pReg x k))
  ∧ (∀ (s : State) (t : TileId) (e : ParityHit) (w : W32), Executes s t w → e ≠ .imem → (ndecode w).op = 0x17 →
      ∃ u, exec (.newtCall t e) s = .next u ∧ liveTile u t.toNat = liveTile s t.toNat
        ∧ gReg (newtOf u t) 31 = BitVec.ofNat 64 ((newtOf s t).pc + 1)
        ∧ ∀ k, k ≠ 31 → gReg (newtOf u t) k = gReg (newtOf s t) k)

/-- The 48 newt instructions, each of which makes the newt of a tile execute the word at its program counter. A newt that does
not run does nothing. A program counter outside both regions raises IADDR and a parity error of the fetch IMEM_PARITY, whatever
the row. At a word that begins a routine with a row of its own the instruction rows do nothing (the model's choice, log entry
102). Else the word is fetched, of either region: one that does not decode raises ILLEGAL whatever its guard, one of another
operation code than the row's is not this row's, and one whose guard is false completes as a NOP. A reserved operation code, a
field that is not used and not zero, and a reserved condition do not decode. -/
def Obligations.GuardAndDecodingOfEveryNewtInstruction : Prop :=
  (∀ row ∈ newtRows, ∀ (s : State) (t : TileId) (e : ParityHit),
    let l := liveTile s t.toNat
    let x := newtOf s t
    (newtRuns s l = false → exec (row.2 t e) s = .next (commit s s))
    ∧ (newtRuns s l = true → 16384 ≤ x.pc → exec (row.2 t e) s = .next (commit s (newtFault s l 0x02 0 false)))
    ∧ (newtRuns s l = true → x.pc < 16384 → e = .imem → exec (row.2 t e) s = .next (commit s (newtFault s l 0x0D 0 false)))
    ∧ (newtRuns s l = true → e ≠ .imem → 4 ≤ x.pc → x.pc ≤ 16 → exec (row.2 t e) s = .next (commit s s))
    ∧ (∀ w, Fetches s t w → e ≠ .imem → nlegal w = false →
      exec (row.2 t e) s = .next (commit s (newtFault s l 0x01 0 false)))
    ∧ (∀ w, Fetches s t w → e ≠ .imem → nlegal w = true → (ndecode w).op ≠ row.1 → exec (row.2 t e) s = .next (commit s s))
    ∧ (∀ w, Fetches s t w → e ≠ .imem → nlegal w = true → (ndecode w).op = row.1 →
      ((ndecode w).op = 0x11 ∨ (ndecode w).op = 0x12) → pReg x (ndecode w).pg = false →
      exec (row.2 t e) s = .next (commit s (newtNext s t goNext)))
    ∧ (∀ w, Fetches s t w → e ≠ .imem → nlegal w = true → (ndecode w).op = row.1 →
      ¬ ((ndecode w).op = 0x11 ∨ (ndecode w).op = 0x12) → pReg x (ndecode w).pg = (ndecode w).pn →
      exec (row.2 t e) s = .next (commit s (newtNext s t goNext))))
  ∧ (∀ w : W32, (0x30 ≤ (ndecode w).op → nlegal w = false)
    ∧ (∀ u, usedBits (ndecode w).op = some u → (w.toNat % 2 ^ 22) &&& (0x3FFFFF - u) ≠ 0 → nlegal w = false)
    ∧ ((ndecode w).op = 0x13 → 6 ≤ w.toNat % 8 → nlegal w = false)
    ∧ ((ndecode w).op = 0x14 → 6 ≤ w.toNat / 512 % 8 → nlegal w = false))

/-- BR, CALL, RET and LOOP, where they execute. A taken BR out of the innermost body that holds it raises LOOP_EXIT. LOOP refuses
a body length that is zero or negative and a fifth nesting, skips its body on a count of zero, and else runs the body its count
of times; one at the last address of an outer body completes that body's pass (the model's choice, log entry 101).
The counter of the innermost body advances when the instruction at its last address completes: with iterations left the body
starts again, without any the loop ends and the next body out is looked at alike; elsewhere straight code goes on at the next
word. A taken BR at the last address completes it, whatever its target; a CALL there completes when the code it reaches returns
to the word after the body, and a RET that returns from no such CALL advances no counter. -/
def Obligations.NewtControlFlowAndLoops : Prop :=
  ((∀ (s : State) (t : TileId) (e : ParityHit) (w : W32) (tgt : Nat), Executes s t w → e ≠ .imem → (ndecode w).op = 0x16 →
        tgt = ((((newtOf s t).pc : Int) + (w.setWidth 22).toInt) % 2 ^ 32).toNat →
        ((∀ b r, (newtOf s t).loops = b :: r → b.start ≤ (newtOf s t).pc → (newtOf s t).pc ≤ b.last → b.start ≤ tgt ∧ tgt ≤ b.last) →
          exec (.newtBr t e) s = .next (commit s (newtNext s t fun x => goOn x tgt (br := true))))
        ∧ (∀ b r, (newtOf s t).loops = b :: r → b.start ≤ (newtOf s t).pc → (newtOf s t).pc ≤ b.last → ¬ (b.start ≤ tgt ∧ tgt ≤ b.last) →
          exec (.newtBr t e) s = .next (commit s (newtFault s (liveTile s t.toNat) 0x05 0 false))))
    ∧ (∀ (s : State) (t : TileId) (e : ParityHit) (w : W32) (tgt : Nat), Executes s t w → e ≠ .imem → (ndecode w).op = 0x17 →
        tgt = ((((newtOf s t).pc : Int) + (w.setWidth 22).toInt) % 2 ^ 32).toNat →
        exec (.newtCall t e) s = .next (commit s (newtNext s t fun x =>
          goOn (setG x 31 (BitVec.ofNat 64 (x.pc + 1))) tgt (call := true))))
    ∧ (∀ (s : State) (t : TileId) (e : ParityHit) (w : W32), Executes s t w → e ≠ .imem → (ndecode w).op = 0x18 →
        exec (.newtRet t e) s = .next (commit s (newtNext s t fun x =>
          goOn x ((gReg x (ndecode w).ra).toNat % 16384) (ret := true))))
    ∧ (∀ (s : State) (t : TileId) (e : ParityHit) (w : W32), Executes s t w → e ≠ .imem → (ndecode w).op = 0x19 →
        let x := newtOf s t
        let n := (gReg x (ndecode w).ra).toNat
        let len := (ndecode w).imm
        ((w.setWidth 12).toInt ≤ 0 →
          exec (.newtLoop t e) s = .next (commit s (newtFault s (liveTile s t.toNat) 0x01 0 false)))
        ∧ (0 < (w.setWidth 12).toInt → 4 ≤ x.loops.length →
          exec (.newtLoop t e) s = .next (commit s (newtFault s (liveTile s t.toNat) 0x04 0 false)))
        ∧ (0 < (w.setWidth 12).toInt → x.loops.length < 4 → n = 0 →
          exec (.newtLoop t e) s = .next (commit s (newtNext s t fun x => goOn x (x.pc + 1 + len))))
        ∧ (0 < (w.setWidth 12).toInt → x.loops.length < 4 → n ≠ 0 →
          exec (.newtLoop t e) s = .next (commit s (newtNext s t fun x =>
            { x with loops := ⟨x.pc + 1, x.pc + len, n - 1, false⟩ :: (loopEnd false false false x.pc x.loops (x.pc + 1)).1
                     pc := (loopEnd false false false x.pc x.loops (x.pc + 1)).2 })))
        ∧ (0 < (w.setWidth 12).toInt → x.loops.length < 4 → n ≠ 0 → (∀ b ∈ x.loops, x.pc ≠ b.last) →
          exec (.newtLoop t e) s = .next (commit s (newtNext s t fun x =>
            { x with loops := ⟨x.pc + 1, x.pc + len, n - 1, false⟩ :: x.loops, pc := x.pc + 1 })))))
  ∧ (∀ (x : Tile) (b : LoopEntry) (r : List LoopEntry) (tgt : Nat), x.pc < 2 ^ 31 →
      ((∀ b ∈ x.loops, x.pc ≠ b.last) → goNext x = { x with pc := x.pc + 1 })
      ∧ (x.loops = b :: r → x.pc = b.last → b.left ≠ 0 → b.start < 2 ^ 32 →
          goNext x = { x with loops := { b with left := b.left - 1, calling := false } :: r, pc := b.start })
      ∧ (x.loops = b :: r → x.pc = b.last → b.left = 0 → goNext x = goNext { x with loops := r })
      ∧ (x.loops = [b] → x.pc = b.last → b.left = 0 → goOn x tgt (br := true) = { x with loops := [], pc := x.pc + 1 })
      ∧ (x.loops = [b] → x.pc = b.last → b.left ≠ 0 → b.start < 2 ^ 32 →
          goOn x tgt (br := true) = { x with loops := [{ b with left := b.left - 1, calling := false }], pc := b.start })
      ∧ (x.loops = [b] → x.pc = b.last → tgt < 2 ^ 32 →
          goOn x tgt (call := true) = { x with loops := [{ b with calling := true }], pc := tgt })
      ∧ (x.loops = [b] → x.pc ≠ b.last → b.calling = true → b.left ≠ 0 → b.start < 2 ^ 32 →
          goOn x (b.last + 1) (ret := true) = { x with loops := [{ b with left := b.left - 1, calling := false }], pc := b.start })
      ∧ (x.loops = [b] → x.pc ≠ b.last → b.calling = false → tgt < 2 ^ 32 → goOn x tgt (ret := true) = { x with pc := tgt }))

/-- LD and LDW read, ST and STW write 8 and 4 bytes of scratch memory at g[RA] + IMM12; an address that is misaligned or
outside scratch memory raises DADDR, and a parity error of a load's read SMEM_PARITY. -/
def Obligations.NewtScratchAccess : Prop :=
  ∀ (s : State) (t : TileId) (e : ParityHit) (w : W32) (a : Nat), Executes s t w → e ≠ .imem →
    a = (gReg (newtOf s t) (ndecode w).ra + (w.setWidth 12).signExtend 64).toNat →
    (∀ row ∈ ([(0x1C, .newtLd, 8), (0x1E, .newtLdw, 4)] : List (Nat × (TileId → ParityHit → Instr) × Nat)),
      (ndecode w).op = row.1 →
      (a % row.2.2 = 0 → a + row.2.2 ≤ 0x8000 → e = .none →
        exec (row.2.1 t e) s = .next (commit s (newtNext s t fun x =>
          goNext (setG x (ndecode w).rd (BitVec.ofNat 64 (leNat (bytesAt 0 x.smem a row.2.2)))))))
      ∧ (a % row.2.2 = 0 → a + row.2.2 ≤ 0x8000 → e = .smem →
        exec (row.2.1 t e) s = .next (commit s (newtFault s (liveTile s t.toNat) 0x0E 0 false)))
      ∧ (a % row.2.2 ≠ 0 ∨ 0x8000 < a + row.2.2 →
        exec (row.2.1 t e) s = .next (commit s (newtFault s (liveTile s t.toNat) 0x03 0 false))))
    ∧ (∀ row ∈ ([(0x1D, .newtSt, 8), (0x1F, .newtStw, 4)] : List (Nat × (TileId → ParityHit → Instr) × Nat)),
      (ndecode w).op = row.1 →
      (a % row.2.2 = 0 → a + row.2.2 ≤ 0x8000 →
        exec (row.2.1 t e) s = .next (commit s (newtNext s t fun x =>
          goNext { x with smem := putBytes 0 x.smem a (leBytes row.2.2 (gReg x (ndecode w).rd).toNat) })))
      ∧ (a % row.2.2 ≠ 0 ∨ 0x8000 < a + row.2.2 →
        exec (row.2.1 t e) s = .next (commit s (newtFault s (liveTile s t.toNat) 0x03 0 false))))

/-- ACLR, MMA, FILL, SWAP, WOUT, VOP and FEXP are issued: the command built from the instruction takes the next number and joins
the queue of 16, g[RD] receives the number, and SWAP toggles the read half; a full queue makes the newt wait. A scratch copy that
cannot be taken raises DADDR, one with a parity error SMEM_PARITY; ACLR and SWAP take none.
A command is bound at issue: to the read half that stands then, a FILL with FN[0] = 0 to the other half; with the descriptors that
stand in scratch memory, a WOUT also with the masks of its set. A descriptor that is misaligned or runs out of scratch memory
cannot be copied. -/
def Obligations.TileCommandsAreIssued : Prop :=
  (∀ row ∈ ([(0x20, .newtAclr), (0x21, .newtMma), (0x22, .newtFill), (0x23, .newtSwap), (0x24, .newtWout), (0x25, .newtVop),
        (0x26, .newtFexp)] : List (Nat × (TileId → ParityHit → Instr))),
      ∀ (s : State) (t : TileId) (e : ParityHit) (w : W32), Executes s t w → e ≠ .imem → (ndecode w).op = row.1 →
        let x := newtOf s t
        (∀ c, x.queue.length < 16 → buildCmd x (ndecode w) (x.issued + 1) = some c → (e = .none ∨ row.1 = 0x20 ∨ row.1 = 0x23) →
          exec (row.2 t e) s = .next (commit s (newtNext s t fun x => goNext (setG
            { x with queue := x.queue ++ [c], issued := x.issued + 1, masks := issueMasks x c
                     half := if row.1 = 0x23 then 1 - x.half else x.half } (ndecode w).rd (BitVec.ofNat 64 (x.issued + 1))))))
        ∧ (16 ≤ x.queue.length →
          exec (row.2 t e) s = .next (commit s (newtNext s t fun x =>
            { x with st := .waiting, wait := .queueFull, waitSince := s.now })))
        ∧ (x.queue.length < 16 → buildCmd x (ndecode w) (x.issued + 1) = none →
          exec (row.2 t e) s = .next (commit s (newtFault s (liveTile s t.toNat) 0x03 0 false)))
        ∧ (∀ c, x.queue.length < 16 → buildCmd x (ndecode w) (x.issued + 1) = some c → e = .smem → row.1 ≠ 0x20 → row.1 ≠ 0x23 →
          exec (row.2 t e) s = .next (commit s (newtFault s (liveTile s t.toNat) 0x0E 0 false))))
  ∧ (∀ (x : Tile) (w : W32) (num : Nat),
      let a := (gReg x (ndecode w).ra).toNat
      let b := (gReg x (ndecode w).rb).toNat
      let d := bytesAt 0 x.smem a 48
      ((ndecode w).op = 0x20 →
        buildCmd x (ndecode w) num = some { num := num, op := 0x20, unit := .matrix, fn := (ndecode w).fn, half := x.half })
      ∧ ((ndecode w).op = 0x23 →
        buildCmd x (ndecode w) num = some { num := num, op := 0x23, unit := .none, fn := 0, half := x.half, started := true })
      ∧ ((ndecode w).op = 0x21 → a % 8 = 0 → a + 48 ≤ 0x8000 →
        buildCmd x (ndecode w) num = some { num := num, op := 0x21, unit := .matrix, fn := 0, half := x.half, desc := d })
      ∧ (∀ m, (ndecode w).op = 0x22 → a % 8 = 0 → a + 48 ≤ 0x8000 → xferCopies x d = some m →
        buildCmd x (ndecode w) num = some { num := num, op := 0x22, unit := .fill, fn := (ndecode w).fn
                                            half := if w.getLsbD 0 then x.half else 1 - x.half, xfer := d, bitmap := m })
      ∧ (∀ m, (ndecode w).op = 0x24 → a % 8 = 0 → a + 32 ≤ 0x8000 → b % 8 = 0 → b + 48 ≤ 0x8000 →
        xferCopies x (bytesAt 0 x.smem b 48) = some m →
        buildCmd x (ndecode w) num = some { num := num, op := 0x24, unit := .wout, fn := (ndecode w).fn, half := x.half
                                            rowMask := (setMasks x ((ndecode w).fn % 4)).1, colMask := (setMasks x ((ndecode w).fn % 4)).2
                                            wcb := bytesAt 0 x.smem a 32, xfer := bytesAt 0 x.smem b 48, bitmap := m })
      ∧ ((ndecode w).op = 0x25 → a % 8 = 0 → a + 32 ≤ 0x8000 →
        let d := bytesAt 0 x.smem a 32
        fieldAt d 0x14 4 % 8 = 0 → fieldAt d 0x14 4 + 32 ≤ 0x8000 →
        buildCmd x (ndecode w) num = some { num := num, op := 0x25, unit := .vector, fn := (ndecode w).fn, half := x.half, desc := d
                                            wcb := bytesAt 0 x.smem (fieldAt d 0x14 4) 32 })
      ∧ ((ndecode w).op = 0x26 → a % 8 = 0 → a + 48 ≤ 0x8000 →
        buildCmd x (ndecode w) num = some { num := num, op := 0x26, unit := .fexp, fn := 0, half := x.half, desc := d })
      ∧ ((ndecode w).op ∈ [0x21, 0x22, 0x26] → a % 8 ≠ 0 ∨ 0x8000 < a + 48 → buildCmd x (ndecode w) num = none)
      ∧ ((ndecode w).op ∈ [0x24, 0x25] → a % 8 ≠ 0 ∨ 0x8000 < a + 32 → buildCmd x (ndecode w) num = none)
      ∧ ((ndecode w).op = 0x24 → b % 8 ≠ 0 ∨ 0x8000 < b + 48 → buildCmd x (ndecode w) num = none)
      ∧ (fieldAt d 0 1 ≠ 1 → fieldAt d 0x20 8 / 2 ^ 62 ≠ 2 → xferCopies x d = some []))

/-- The instructions that wait: XWAIT, BAR, WEV and FENCE make the newt wait, or go on where there is nothing to wait for;
XWAIT 0 does not wait and one beyond the commands issued raises BAD_WAIT. -/
def Obligations.NewtWaits : Prop :=
  ∀ (s : State) (t : TileId) (e : ParityHit) (w : W32), Executes s t w → e ≠ .imem →
    let x := newtOf s t
    let l := liveTile s t.toNat
    let n := gReg x (ndecode w).ra
    ((ndecode w).op = 0x27 →
      (n.toNat = 0 → exec (.newtXwait t e) s = .next (commit s (newtNext s t goNext)))
      ∧ (x.issued < n.toNat → exec (.newtXwait t e) s = .next (commit s (newtFault s l 0x06 0 false)))
      ∧ (n.toNat ≠ 0 → n.toNat ≤ x.issued → (∃ c ∈ x.queue, c.num ≤ n.toNat) →
        exec (.newtXwait t e) s = .next (commit s (newtNext s t fun x =>
          { x with st := .waiting, wait := .xwait n.toNat, waitSince := s.now })))
      ∧ (n.toNat ≠ 0 → n.toNat ≤ x.issued → (∀ c ∈ x.queue, n.toNat < c.num) →
        ∃ u, exec (.newtXwait t e) s = .next u ∧ (newtOf u t).st = .running ∧ (newtOf u t).pc = (goNext x).pc))
    ∧ ((ndecode w).op = 0x2A →
      (Tbl.get 0 x.events ((ndecode w).fn % 16) < n.toNat →
        exec (.newtWev t e) s = .next (commit s (newtNext s t fun x =>
          { x with st := .waiting, wait := .wev (Fin.ofNat 16 (ndecode w).fn) n, waitSince := s.now })))
      ∧ (n.toNat ≤ Tbl.get 0 x.events ((ndecode w).fn % 16) →
        ∃ u, exec (.newtWev t e) s = .next u ∧ (newtOf u t).st = .running ∧ (newtOf u t).pc = (goNext x).pc))
    ∧ ((ndecode w).op = 0x2C →
      (x.posted ≠ 0 → exec (.newtFence t e) s = .next (commit s (newtNext s t fun x =>
          { x with st := .waiting, wait := .fence (ndecode w).rd, waitSince := s.now })))
      ∧ (x.posted = 0 → ∃ u, exec (.newtFence t e) s = .next u ∧ (newtOf u t).st = .running ∧ (newtOf u t).naks = 0
          ∧ ((ndecode w).rd ≠ 0 → gReg (newtOf u t) (ndecode w).rd = BitVec.ofNat 64 x.naks)))
    ∧ ((ndecode w).op = 0x28 →
      ∃ u, exec (.newtBar t e) s = .next u ∧ (newtOf u t).bars = x.bars + 1
        ∧ ((∃ m ∈ groupOf s l, m ≠ l ∧ (tileAt s m).bars ≤ x.bars) → (newtOf u t).st = .waiting ∧ (newtOf u t).wait = .bar)
        ∧ ((∀ m ∈ groupOf s l, m ≠ l → x.bars < (tileAt s m).bars) →
            (newtOf u t).st = .running ∧ (newtOf u t).pc = (goNext x).pc))

/-- SEV posts one event message to the group member g[RA], or raises BOUNDS; TIME reads fabric time; CSRR and CSRW read the
seven CSRs and write TILE_FPSTAT, and raise CSR_BAD elsewhere; TRAP raises TRAP with its immediate; HALT ends the program
once every tile command has completed.
MARK forwards a marker record at most once per microsecond, keeps the latest of those in between, and forwards none that
is lower than the newt's last in the step but sets NEWT_STAT.MARK_ORDER; MARKER_FORWARD sends the kept one when the
interval has ended.
A newt that has waited in BAR, WEV, XWAIT or FENCE, or at a routine for the rest of its group, for longer than NEWT_CTRL.WDOG
raises WAIT_TIMEOUT; one that waits for something else, or not so long, or without a bound, goes on waiting. -/
def Obligations.NewtEventsMarkersAndTimeouts : Prop :=
  (∀ (s : State) (t : TileId) (e : ParityHit) (w : W32), Executes s t w → e ≠ .imem →
      let x := newtOf s t
      let l := liveTile s t.toNat
      let n := (gReg x (ndecode w).ra).toNat
      ((ndecode w).op = 0x29 →
        (n < x.groupSize → ∃ u, exec (.newtSev t e) s = .next u ∧ (newtOf u t).posted = x.posted + 1
          ∧ ∃ ev, u.flying = s.flying ++ [ev] ∧ ev.ctr.val = (ndecode w).fn % 16 ∧ ev.part = x.part.getD 0 ∧ ev.epoch = x.epoch
            ∧ ev.step = x.step
            ∧ ∀ p r d, x.part = some p → (partAt s p.val).run = some r → r.members[n]? = some d → ev.dst = d)
        ∧ (x.groupSize ≤ n → exec (.newtSev t e) s = .next (commit s (newtFault s l 0x0A 0 false))))
      ∧ ((ndecode w).op = 0x2D → exec (.newtTime t e) s = .next (commit s (newtNext s t fun x =>
          goNext (setG x (ndecode w).rd (BitVec.ofNat 64 s.now)))))
      ∧ ((ndecode w).op = 0x2E →
        (∀ v, ((ndecode w).imm, v) ∈ [(0x000, l), (0x001, (x.part.getD 0).val), (0x002, x.epoch.toNat), (0x003, x.step.toNat),
            (0x004, x.index), (0x005, x.groupSize), (0x010, regGet s ⟨.tileFpstat, l, 0⟩)] →
          exec (.newtCsrr t e) s = .next (commit s (newtNext s t fun x => goNext (setG x (ndecode w).rd (BitVec.ofNat 64 v)))))
        ∧ ((ndecode w).imm ∉ [0x000, 0x001, 0x002, 0x003, 0x004, 0x005, 0x010] →
          exec (.newtCsrr t e) s = .next (commit s (newtFault s l 0x07 0 false))))
      ∧ ((ndecode w).op = 0x2F →
        ((ndecode w).imm = 0x010 → exec (.newtCsrw t e) s = .next (commit s (modTile
          (regSet s ⟨.tileFpstat, l, 0⟩ (regWritten RegName.tileFpstat.info (regGet s ⟨.tileFpstat, l, 0⟩) (n % 2 ^ 32) 0)) l goNext)))
        ∧ ((ndecode w).imm ≠ 0x010 → exec (.newtCsrw t e) s = .next (commit s (newtFault s l 0x07 0 false))))
      ∧ ((ndecode w).op = 0x1B → exec (.newtTrap t e) s = .next (commit s (newtFault s l 0x08 (ndecode w).imm false)))
      ∧ ((ndecode w).op = 0x1A →
        (x.queue ≠ [] → exec (.newtHalt t e) s = .next (commit s (newtNext s t fun x => { x with halting := true })))
        ∧ (x.queue = [] → ∃ u, exec (.newtHalt t e) s = .next u ∧ (newtOf u t).st = .ready ∧ (newtOf u t).events = [])))
  ∧ ((∀ (s : State) (t : TileId) (e : ParityHit) (w : W32), Executes s t w → e ≠ .imem → (ndecode w).op = 0x2B →
      let x := newtOf s t
      let l := liveTile s t.toNat
      let v := (ndecode w).imm
      (∀ m, x.lastMark = some m → v < m →
        exec (.newtMark t e) s = .next (commit s (modTile (regOr s ⟨.newtStat, l, 0⟩ 0x200) l goNext)))
      ∧ ((∀ m, x.lastMark = some m → m ≤ v) → (∀ f, x.lastForward = some f → f + 1000 ≤ s.now) →
        ∃ u, exec (.newtMark t e) s = .next u ∧ (newtOf u t).lastMark = some v ∧ (newtOf u t).lastForward = some s.now
          ∧ ∀ p, x.part = some p → (partAt u p.val).marks = (partAt s p.val).marks ++ [(BitVec.ofNat 10 l, x.step, v, s.now)])
      ∧ (∀ f, (∀ m, x.lastMark = some m → m ≤ v) → x.lastForward = some f → s.now < f + 1000 →
        exec (.newtMark t e) s = .next (commit s (newtNext s t fun x =>
          { goNext x with lastMark := some v, unsentMark := some (v, s.now) }))))
    ∧ (∀ (s : State) (t : TileId),
        let x := newtOf s t
        (x.unsentMark = none → exec (.markerForward t) s = .next (commit s s))
        ∧ (∀ m f, x.unsentMark = some m → x.lastForward = some f → s.now < f + 1000 →
          exec (.markerForward t) s = .next (commit s s))
        ∧ (∀ v time, x.unsentMark = some (v, time) → (∀ f, x.lastForward = some f → f + 1000 ≤ s.now) →
          ∃ u, exec (.markerForward t) s = .next u ∧ (newtOf u t).unsentMark = none ∧ (newtOf u t).lastForward = some s.now
            ∧ ∀ p, x.part = some p → (partAt u p.val).marks
              = (partAt s p.val).marks ++ [(BitVec.ofNat 10 (liveTile s t.toNat), x.step, v, time)])))
  ∧ (∀ (s : State) (t : TileId),
      let l := liveTile s t.toNat
      let x := newtOf s t
      let wdog := regFld s ⟨.newtCtrl, l, 0⟩ 0 8
      let timed := x.wait = .bar ∨ (∃ c v, x.wait = .wev c v) ∨ (∃ n, x.wait = .xwait n) ∨ (∃ rd, x.wait = .fence rd) ∨ x.wait = .group
      (x.st = .waiting → timed → wdog ≠ 0 → x.waitSince + wdog * 100000 < s.now →
        exec (.waitTimeout t) s = .next (commit s (newtFault s l 0x0C 0 false)))
      ∧ (x.st ≠ .waiting ∨ ¬ timed ∨ wdog = 0 ∨ s.now ≤ x.waitSince + wdog * 100000 →
        exec (.waitTimeout t) s = .next (commit s s)))

/-- What the register instructions leave unchanged: every register but the destination, every predicate but a compare's, the
scratch memory, the accumulators, the operand buffer, the queue, every other tile, every control register and every byte of
device and host memory. -/
def Obligations.NewtRegisterInstructionsFrame : Prop :=
  ∀ row ∈ ([(0x00, .newtNop, fun _ => 0, fun _ => 0), (0x01, .newtAdd, NInstr.rd, fun _ => 0), (0x02, .newtSub, NInstr.rd, fun _ => 0),
      (0x03, .newtAnd, NInstr.rd, fun _ => 0), (0x04, .newtOr, NInstr.rd, fun _ => 0), (0x05, .newtXor, NInstr.rd, fun _ => 0),
      (0x06, .newtShl, NInstr.rd, fun _ => 0), (0x07, .newtShr, NInstr.rd, fun _ => 0), (0x08, .newtSra, NInstr.rd, fun _ => 0),
      (0x09, .newtMul, NInstr.rd, fun _ => 0), (0x0A, .newtMin, NInstr.rd, fun _ => 0), (0x0B, .newtMax, NInstr.rd, fun _ => 0),
      (0x0C, .newtAddi, NInstr.rd, fun _ => 0), (0x0D, .newtAndi, NInstr.rd, fun _ => 0), (0x0E, .newtOri, NInstr.rd, fun _ => 0),
      (0x0F, .newtShli, NInstr.rd, fun _ => 0), (0x10, .newtShri, NInstr.rd, fun _ => 0), (0x11, .newtMovz, NInstr.rdw, fun _ => 0),
      (0x12, .newtMovk, NInstr.rdw, fun _ => 0), (0x13, .newtCmp, fun _ => 0, fun i => i.rd % 8),
      (0x14, .newtCmpi, fun _ => 0, fun i => i.rd % 8), (0x15, .newtPlog, fun _ => 0, fun i => i.rd % 8),
      (0x2D, .newtTime, NInstr.rd, fun _ => 0)]
      : List (Nat × (TileId → ParityHit → Instr) × (NInstr → Nat) × (NInstr → Nat))),
    ∀ (s u : State) (t : TileId) (e : ParityHit) (w : W32), Executes s t w → e ≠ .imem → (ndecode w).op = row.1 →
      exec (row.2.1 t e) s = .next u →
      (∀ k, k ≠ row.2.2.1 (ndecode w) → gReg (newtOf u t) k = gReg (newtOf s t) k)
      ∧ (∀ k, k ≠ row.2.2.2 (ndecode w) → pReg (newtOf u t) k = pReg (newtOf s t) k)
      ∧ (newtOf u t).smem = (newtOf s t).smem ∧ (newtOf u t).acc = (newtOf s t).acc ∧ (newtOf u t).ob = (newtOf s t).ob
      ∧ (newtOf u t).queue = (newtOf s t).queue ∧ (newtOf u t).st = (newtOf s t).st
      ∧ (∀ m, m ≠ liveTile s t.toNat → tileAt u m = tileAt s m)
      ∧ u.regs = s.regs ∧ u.parts = s.parts ∧ u.out = s.out
      ∧ (∀ a, devByte u a = devByte s a) ∧ (∀ a, hostByte u a = hostByte s a)

/-! ### Clocked islands, arbiters, the brake -/

/-- The crossings of a clocked island. While its clock runs, also while a stop request is not decided, values and events enter
and leave in both directions; while it is stopped or waking, a value or an event for it is held and raises its wake line, what it
had sent still arrives, and it sends nothing. A value joins the end of its dual-clock queue while there is room for it (of 64
bytes at a link) and else waits at its sender; the oldest leaves. An event flies, waits behind one in flight, or with one in
flight and one pending is merged: EVT_OVR is set, OVR_COUNT counts, and the first time there is a fault record.
A wake that is done starts the clock and delivers what was held; a link's island starts with its link's training. A wake past its
bound sets WAKE_LATE with its fault record. A stop that may be asked for is asked, granted, refused by a wake that wins, or
granted and woken at once; one that may not be asked for ends a request. A start condition wakes the I3C island.
A write of XSTAT clears EVT_OVR and WAKE_LATE where it writes 1 unless hardware sets them at that moment, and OVR_COUNT with
EVT_OVR. -/
def Obligations.IslandsCrossStopAndWake : Prop :=
  (∀ (s : State) (i : Island) (d : Bool) (v : Bytes), clkState s i < 2 →
      exec (.crossingDeliver i (.value d v)) s = .next (commit s (enterValue s i d v))
      ∧ exec (.crossingDeliver i (.deliver d)) s = .next (commit s (takeValue s i d))
      ∧ exec (.crossingDeliver i (.event d)) s = .next (commit s (endEvent s i d))
      ∧ exec (.eventCrossingSend i d) s = .next (commit s (enterEvent s i d))
      ∧ (∀ x, exec (.islandWake i x) s = .next (commit s s)))
  ∧ (∀ (s : State) (i : Island) (v : Bytes), 2 ≤ clkState s i →
      exec (.crossingDeliver i (.value true v)) s = .next (commit s (raiseWake (enterValue s i true v) i))
      ∧ exec (.islandWake i (.value true v)) s = .next (commit s (raiseWake (enterValue s i true v) i))
      ∧ exec (.eventCrossingSend i true) s = .next (commit s (raiseWake (enterEvent s i true) i))
      ∧ exec (.islandWake i (.event true)) s = .next (commit s (raiseWake (enterEvent s i true) i))
      ∧ exec (.crossingDeliver i (.deliver false)) s = .next (commit s (takeValue s i false))
      ∧ exec (.crossingDeliver i (.event false)) s = .next (commit s (endEvent s i false))
      ∧ exec (.crossingDeliver i (.value false v)) s = .next (commit s s)
      ∧ exec (.crossingDeliver i (.deliver true)) s = .next (commit s s)
      ∧ exec (.crossingDeliver i (.event true)) s = .next (commit s s)
      ∧ exec (.eventCrossingSend i false) s = .next (commit s s)
      ∧ (∀ x ∈ [CrossItem.value false v, .event false, .deliver true, .deliver false],
        exec (.islandWake i x) s = .next (commit s s)))
  ∧ (∀ (s : State) (i : Island) (v : Bytes),
      let x := islandAt s i
      islandAt (enterValue s i true v) i
        = (if x.inQ.length < islandDepth i ∧ entryFits i v = true then { x with inQ := x.inQ ++ [v] } else x)
      ∧ islandAt (enterValue s i false v) i
        = (if x.outQ.length < islandDepth i ∧ entryFits i v = true then { x with outQ := x.outQ ++ [v] } else x)
      ∧ takeValue s i true = modIsland s i (fun x => { x with inQ := x.inQ.tail })
      ∧ takeValue s i false = modIsland s i (fun x => { x with outQ := x.outQ.tail })
      ∧ endEvent s i true = modIsland s i (fun x => { x with inFlight := x.inPend, inPend := false })
      ∧ endEvent s i false = modIsland s i (fun x => { x with outFlight := x.outPend, outPend := false }))
  ∧ (∀ (s : State) (i : Island),
      let x := islandAt s i
      let merged := regAddSat (regOr s (xstatR i) 2) (xstatR i) 16 16 1
      (x.inFlight = false → enterEvent s i true = modIsland s i fun x => { x with inFlight := true, inPend := false })
      ∧ (x.inFlight = true → x.inPend = false →
        enterEvent s i true = modIsland s i fun x => { x with inFlight := true, inPend := true })
      ∧ (x.outFlight = false → enterEvent s i false = modIsland s i fun x => { x with outFlight := true, outPend := false })
      ∧ (x.outFlight = true → x.outPend = false →
        enterEvent s i false = modIsland s i fun x => { x with outFlight := true, outPend := true })
      ∧ (x.inFlight = true → x.inPend = true →
        enterEvent s i true = (if regBit s (xstatR i) 1 then merged else faultReg merged 0xFF (xstatR i)))
      ∧ (x.outFlight = true → x.outPend = true →
        enterEvent s i false = (if regBit s (xstatR i) 1 then merged else faultReg merged 0xFF (xstatR i)))
      ∧ (clkState s i = 2 → raiseWake s i = regOr (regPut s (xstatR i) 8 2 3) (xstatR i) 1)
      ∧ (clkState s i ≠ 2 → raiseWake s i = s))
  ∧ (∀ (s : State) (i : Island),
      let runs := modIsland (modIsland (regPut (regPut s (xstatR i) 8 2 0) (xstatR i) 0 1 0) i fun x => { x with inQ := [] }) i
        fun x => { x with inFlight := x.inPend, inPend := false }
      ((∀ l, i ≠ .lnk l) → clkState s i = 3 → exec (.islandWakeDone i) s = .next (commit s runs))
      ∧ ((∀ l, i ≠ .lnk l) → clkState s i ≠ 3 → exec (.islandWakeDone i) s = .next (commit s s))
      ∧ (∀ l, i = .lnk l → 2 ≤ clkState s i → (linkAt s l.val).st ∉ [.disabled, .bypassed, .failed] →
        exec (.islandWakeDone i) s = .next (commit s runs))
      ∧ (∀ l, i = .lnk l → clkState s i < 2 ∨ (linkAt s l.val).st ∈ [.disabled, .bypassed, .failed] →
        exec (.islandWakeDone i) s = .next (commit s s))
      ∧ (clkState s i = 3 → wakeBounded i = true → regBit s (xstatR i) 2 = false →
        exec (.wakeLate i) s = .next (commit s (faultReg (regOr s (xstatR i) 4) 0xFF (xstatR i))))
      ∧ (clkState s i ≠ 3 ∨ wakeBounded i = false ∨ regBit s (xstatR i) 2 = true →
        exec (.wakeLate i) s = .next (commit s s)))
  ∧ (∀ (s : State) (i : Island) (w : WakeMeet),
      (2 ≤ clkState s i → exec (.islandStopRequest i w) s = .next (commit s s))
      ∧ (clkState s i = 0 → mayStop s i = false → exec (.islandStopRequest i w) s = .next (commit s s))
      ∧ (clkState s i = 1 → mayStop s i = false → exec (.islandStopRequest i w) s = .next (commit s (regPut s (xstatR i) 8 2 0)))
      ∧ (clkState s i < 2 → mayStop s i = true →
        exec (.islandStopRequest i .asked) s = .next (commit s (regPut s (xstatR i) 8 2 1))
        ∧ exec (.islandStopRequest i .noWake) s = .next (commit s (regPut s (xstatR i) 8 2 2))
        ∧ exec (.islandStopRequest i .wakeWins) s = .next (commit s (regPut s (xstatR i) 8 2 0))
        ∧ exec (.islandStopRequest i .stopWins) s
            = .next (commit s (regOr (regPut (regPut s (xstatR i) 8 2 2) (xstatR i) 8 2 3) (xstatR i) 1)))
      ∧ (mayStop s i = true → (islandAt s i).inQ = [] ∧ (islandAt s i).outQ = [] ∧ (islandAt s i).inFlight = false
        ∧ (islandAt s i).outFlight = false ∧ ∀ d, i ≠ .kom d))
  ∧ (∀ s : State,
      (clkState s .tel = 2 →
        exec .i3cStartCondition s = .next (commit s (regOr (regPut s ⟨.telXstat, 0, 0⟩ 8 2 3) ⟨.telXstat, 0, 0⟩ 1)))
      ∧ (clkState s .tel ≠ 2 → exec .i3cStartCondition s = .next (commit s s)))
  ∧ (∀ (s : State) (i : Island) (v hw : W32),
      let r := xstatR i
      let t := regSet s r (regWritten r.name.info (regGet s r) v.toNat (hw.toNat &&& 6))
      let u := if hw.getLsbD 1 then regAddSat t r 16 16 1 else if v.getLsbD 1 then regPut t r 16 16 0 else t
      exec (.xstatWrite i v hw) s
        = .next (commit s (if (hw.toNat &&& 6) &&& (6 - (regGet s r &&& 6)) = 0 then u else faultReg u 0xFF r)))

/-- A resource that is free takes what has arrived for it and grants one request; at link egress the next flit goes. Nothing is
granted while nothing waits. Away from the tier channels the arbiter grants the first P1 request that has waited while as many P0
requests were granted as the P0 queue is deep; without one, the oldest request of the highest priority. At a tier channel the
oldest read of a priority goes before its oldest write, or after it while the controller drains its writes. The priority is that
of the request's origin, not of its address. A P0 grant counts at every P1 request that waits, and a P0 request that finds its
queue full is not taken.
In every voltage state the brake threshold is the lower of 660 mV and 20 mV below the setpoint, and the release level is
15 mV above it; during a ramp the lower of the two states' counts. Below the threshold for more than 2 us the brake applies;
above the release level for 10 us, and not in a hold-up, it is released, and dispatch resumes where nothing else holds it.
At a window's end of a powered module every sensor shows its ring rate by its nominal rate in units of 1/1024, at most 4095;
TEL_PACE_DIE shows the lowest of the die's sixteen and where it stands, TEL_PACE_MIN keeps the lowest die index, TEL_PACE_PKG
shows the lowest of the dies. -/
def Obligations.ArbitersBrakeAndPace : Prop :=
  ((∀ (s : State) (l : LinkId) (arrivals : List Request),
      exec (.arbiterGrant (.linkEgress l) arrivals) s = .next (commit s (egressFlit s l.val)))
    ∧ (∀ (s : State) (r : Resource) (arrivals : List Request), (∀ l, r ≠ .linkEgress l) →
      let t := takeArrivals s r (arrivals.filter (atResource s r))
      let x := { arbAt t r with draining := drainsWrites t r (arbAt t r).draining, granted := none }
      (chooseRequest r x = none → exec (.arbiterGrant r arrivals) s = .next (commit s (setArb t r x)))
      ∧ (∀ q, chooseRequest r x = some q → exec (.arbiterGrant r arrivals) s
          = .next (commit s (grantFetch (setArb t r { x with
              granted := some q.req
              waiting := (x.waiting.erase q).map fun w =>
                if q.prio = 0 ∧ w.prio = 1 then { w with p0Seen := w.p0Seen + 1 } else w }) r q.req))))
    ∧ (∀ (r : Resource) (x : ArbSt), x.waiting = [] → chooseRequest r x = none)
    ∧ (∀ (r : Resource) (x : ArbSt) (q : WaitReq), resourceCtl r = none →
      let first (p : Fin 4) : Option WaitReq := (x.waiting.filter fun w => w.prio == p).head?
      let due (w : WaitReq) : Bool := w.prio == 1 && decide (p0Depth r ≤ w.p0Seen)
      (x.waiting.find? due = some q → chooseRequest r x = some q)
      ∧ (x.waiting.find? due = none → first 0 = some q → chooseRequest r x = some q)
      ∧ (x.waiting.find? due = none → first 0 = none → first 1 = some q → chooseRequest r x = some q)
      ∧ (first 0 = none → first 1 = none → first 2 = some q → chooseRequest r x = some q)
      ∧ (first 0 = none → first 1 = none → first 2 = none → first 3 = some q → chooseRequest r x = some q))
    ∧ (∀ (ws : List WaitReq) (p : Fin 4) (drains : Bool) (q : WaitReq),
      (ws.filter fun w => w.prio == p).find? (fun w => w.req.write == drains) = some q → oldestOf true drains ws p = some q)
    ∧ (∀ (s : State) (q : Request),
      ((q.origin = .fault ∨ q.origin = .command ∨ q.origin = .vc0) → reqPrio s q = 0)
      ∧ (∀ p, q.origin = .step p → reqPrio s q = (if (partAt s p.val).serving then 1 else 2))
      ∧ (q.origin = .background → reqPrio s q = 3))
    ∧ (∀ (s : State) (r : Resource) (q : Request), p0Full r (arbAt s r).waiting = true → reqPrio s q = 0 → arrive s r q = s))
  ∧ ((∀ row ∈ [(0, 600), (1, 650), (2, 700), (3, 750), (4, 800), (5, 850)], brakeLevel row.1 = min 660 (row.2 - 20))
    ∧ (∀ s : State, (s.pwr.ramping = false → brakeState s = regFld s ⟨.pwrVreq, 0, 0⟩ 8 3)
      ∧ (s.pwr.ramping = true → brakeState s = min s.pwr.rampFrom (regFld s ⟨.pwrVreq, 0, 0⟩ 8 3)))
    ∧ (∀ (s : State) (d : Die) (mv ns : Nat),
      (s.pwr.powered = true → s.pwr.brake = false → mv < brakeLevel (brakeState s) → 2000 < ns →
        exec (.brakeApply d mv ns) s = .next (commit s (setPwrBit { s with pwr := { s.pwr with brake := true } } 0 true)))
      ∧ (s.pwr.powered = false ∨ s.pwr.brake = true ∨ brakeLevel (brakeState s) ≤ mv ∨ ns ≤ 2000 →
        exec (.brakeApply d mv ns) s = .next (commit s s)))
    ∧ (∀ (s : State) (mv ns : Nat),
      (s.pwr.powered = true → s.pwr.brake = true → s.pwr.holdup = false → brakeLevel (brakeState s) + 15 < mv → 10000 ≤ ns →
        exec (.brakeRelease mv ns) s
          = .next (commit s (resumeDispatch (setPwrBit { s with pwr := { s.pwr with brake := false } } 0 false))))
      ∧ (s.pwr.powered = false ∨ s.pwr.brake = false ∨ s.pwr.holdup = true ∨ mv ≤ brakeLevel (brakeState s) + 15 ∨ ns < 10000 →
        exec (.brakeRelease mv ns) s = .next (commit s s)))
    ∧ (∀ s : State, (dispatchHeld s = true → resumeDispatch s = s)
      ∧ (dispatchHeld s = false → resumeDispatch s = beginFrames (forEach (List.range 16) s beginHeld))))
  ∧ (∀ (s : State) (rs : List (List Nat)),
      (s.pwr.powered = true → rs.length = 8 → (∀ r ∈ rs, r.length = 16) →
        ∃ u, exec (.paceWindowEnd rs) s = .next u
          ∧ (∀ d r, rs[d]? = some r →
            (∀ n x, r[n]? = some x →
              regFld u ⟨.telPaceSensor, d, n⟩ 0 12 = min 4095 (x * 1024 / nominalRate s d n)
              ∧ regFld u ⟨.telPaceDie, d, 0⟩ 0 12 ≤ min 4095 (x * 1024 / nominalRate s d n))
            ∧ (∃ n x, r[n]? = some x ∧ regFld u ⟨.telPaceDie, d, 0⟩ 0 12 = min 4095 (x * 1024 / nominalRate s d n)
              ∧ regFld u ⟨.telPaceDie, d, 0⟩ 16 4 = n)
            ∧ regFld u ⟨.telPaceMin, d, 0⟩ 0 12
                = min (regFld s ⟨.telPaceMin, d, 0⟩ 0 12) (regFld u ⟨.telPaceDie, d, 0⟩ 0 12))
          ∧ (∃ d < 8, regFld u ⟨.telPacePkg, 0, 0⟩ 0 12 = regFld u ⟨.telPaceDie, d, 0⟩ 0 12 ∧ regFld u ⟨.telPacePkg, 0, 0⟩ 12 3 = d)
          ∧ (∀ d < 8, regFld u ⟨.telPacePkg, 0, 0⟩ 0 12 ≤ regFld u ⟨.telPaceDie, d, 0⟩ 0 12)
          ∧ u.tiles = s.tiles ∧ u.parts = s.parts ∧ u.host = s.host)
      ∧ (s.pwr.powered = false ∨ rs.length ≠ 8 ∨ (∃ r ∈ rs, r.length ≠ 16) →
        exec (.paceWindowEnd rs) s = .next (commit s s)))

/-! ### Start, updates, activation -/

/-- The start. An unpowered module, both mates closed and the input at 46 to 60 V, starts; every other POWER_ON_START changes
nothing. The start keeps the flash and the fuses, empties device memory, the partitions and the key slots, samples the straps, and
verifies the slot that the selector names, or the other while an activation was on trial. At the end of a verification a good
image waits for the fill, or is released where the tiers are filled; the selector then names it where it was on trial against it.
A bad one fails its slot: LAST_ERR shows why, and the other slot is tried, or the module enters RECOVERY where that has failed
too. The fill's end releases a good image that waits for it. A released module reaches RUN where the digests of the sections
that its cores read agree with those of the verification, and else its slot fails with IMAGE_BAD; after 500 ms without RUN its
slot fails with a status that is no success (which one is open, log entry 4). A core rail at 560 mV or less closes the clasps
and starts a powered module again; an input that is lost stays lost. PERST ends in every phase. Outside their phases the commands
change nothing. -/
def Obligations.StartRunsThroughItsPhases : Prop :=
  (∀ (s : State) (mv : Nat) (env : StartEnv),
    (s.pwr.powered = false → 46000 ≤ mv → mv ≤ 60000 → exec (.powerOnStart mv env) s
      = .next (commit s (startModule { s with pwr := { s.pwr with mateA := true, mateB := true, inputMv := mv } } env)))
    ∧ (s.pwr.powered = true ∨ mv < 46000 ∨ 60000 < mv → exec (.powerOnStart mv env) s = .next (commit s s)))
  ∧ (∀ (s : State) (env : StartEnv), ∃ t, startModule s env = t
      ∧ t.pwr.powered = true ∧ t.pwr.brake = false ∧ t.pwr.holdup = false ∧ t.boot.phase = .verify ∧ t.boot.imageOk = false
      ∧ t.boot.tiersFilled = false ∧ t.boot.tried = [] ∧ t.boot.flash = s.boot.flash ∧ t.fuses = s.fuses ∧ t.boot.straps = env.straps
      ∧ t.fab.phys = env.straps.setWidth 15 ∧ t.mem = [] ∧ t.parts = [] ∧ t.sec.slots = [] ∧ t.sec.log = []
      ∧ t.boot.slot = (if (selector t).2 then 1 - (selector t).1 else (selector t).1))
  ∧ (∀ s : State, (s.boot.phase = .verify → exec .imageVerifyDone s = .next (commit s
        (if imageStatus s s.boot.slot = stOk then slotGood s else slotFailed s (imageStatus s s.boot.slot))))
    ∧ (s.boot.phase ≠ .verify → exec .imageVerifyDone s = .next (commit s s)))
  ∧ (∀ s : State, ∃ t, t = (if (selector s).2 = true ∧ s.boot.slot ≠ (selector s).1 then writeSelector s s.boot.slot false else s)
      ∧ (s.boot.tiersFilled = false → slotGood s = { t with boot :=
          { t.boot with imageOk := true, digests := sectionDigests t s.boot.slot, phase := .fill } })
      ∧ (s.boot.tiersFilled = true → slotGood s = release { t with boot :=
          { t.boot with imageOk := true, digests := sectionDigests t s.boot.slot, phase := .fill } }))
  ∧ (∀ (s : State) (st : Status),
      (s.boot.tried.contains (1 - s.boot.slot) = false → slotFailed s st = { s with boot :=
        { s.boot with
          lastErr := st, tried := s.boot.tried ++ [s.boot.slot], slot := 1 - s.boot.slot
          fallback := decide (1 - s.boot.slot ≠ (selector s).1), phase := .verify, imageOk := false } })
      ∧ (s.boot.tried.contains (1 - s.boot.slot) = true → slotFailed s st = { s with boot :=
        { s.boot with
          lastErr := st, tried := s.boot.tried ++ [s.boot.slot], phase := .recovery, verified := none, rstatus := stOk } }))
  ∧ (∀ s : State,
      (s.boot.tiersFilled = false → s.boot.phase = .fill → s.boot.imageOk = true →
        exec .tierFillDone s = .next (commit s (release { s with boot := { s.boot with tiersFilled := true } })))
      ∧ (s.boot.tiersFilled = false → s.boot.phase = .verify ∨ s.boot.phase = .recovery ∨ (s.boot.phase = .fill ∧ s.boot.imageOk = false) →
        exec .tierFillDone s = .next (commit s { s with boot := { s.boot with tiersFilled := true } }))
      ∧ (s.boot.tiersFilled = true ∨ (s.boot.phase ≠ .verify ∧ s.boot.phase ≠ .fill ∧ s.boot.phase ≠ .recovery) →
        exec .tierFillDone s = .next (commit s s)))
  ∧ (∀ s : State, (release s).boot.phase = .load ∧ (release s).boot.counted = true ∧ (release s).boot.slot = s.boot.slot
      ∧ (release s).boot.cfg = secBytes s s.boot.slot (secOf (imgHeader s s.boot.slot) 6))
  ∧ (∀ s : State, (s.boot.phase = .load → exec .enterRun s = .next (commit s
        (if sectionDigests s s.boot.slot = s.boot.digests then reachRun s else slotFailed s stImageBad)))
    ∧ (s.boot.phase ≠ .load → exec .enterRun s = .next (commit s s)))
  ∧ (∀ s : State, (reachRun s).boot.phase = .run
      ∧ (reachRun s).boot.newtLib = sectionWords (secBytes s s.boot.slot (secOf (imgHeader s s.boot.slot) 2)))
  ∧ (∀ s : State, (s.boot.phase = .load → ∃ st, isSuccess st = false ∧ exec .komodoRunTimeout s
        = .next (commit s (slotFailed { s with fresh := s.fresh + 1 } st)))
    ∧ (s.boot.phase ≠ .load → exec .komodoRunTimeout s = .next (commit s s)))
  ∧ (∀ (s : State) (d : Die) (mv : Nat) (env : StartEnv),
      (s.pwr.powered = true → mv ≤ 560 → s.pwr.holdup = false →
        exec (.brownOutReset d mv env) s = .next (commit s (startModule (cutFlash (closeAll s)) env)))
      ∧ (s.pwr.powered = true → mv ≤ 560 → s.pwr.holdup = true →
        exec (.brownOutReset d mv env) s = .next (commit s (loseInput (startModule (cutFlash (closeAll s)) env))))
      ∧ (s.pwr.powered = false ∨ 560 < mv → exec (.brownOutReset d mv env) s = .next (commit s s)))
  ∧ (∀ s : State, exec .perstDeassert s = .next (commit s { s with host := { s.host with perst := false } }))

/-- The commands of the update, taken up while the flash may begin an operation. UPD_BEGIN erases the inactive slot and UPD_WRITE
programs it; a lock refuses both with UPD_LOCK, a hold-up bank below 90 % with UPD_HOLDUP, a range outside the slot with
BAD_DESCRIPTOR; either clears INACT_OK. UPD_VERIFY checks the inactive slot and completes with what the check found. ACTIVATE is
refused as those are, with UPD_ACTIVE while a step runs and with IMAGE_BAD while INACT_OK is 0; else it writes the TRIAL selector.
The activation's pause, once the selector is written, stops what runs, changes to the new slot, loads its library, measures,
takes its IMG fields, and keeps or drops the state; a new slot that fails its check leaves the old one, and the command
completes with why. At its time-out the pause ends with PAUSE_LATE. The commit writes the selector CURRENT, raises the security
version minimum where the image asks for it, restores a lock that was lifted once, and completes the command OK. A flash
operation that ends leaves its bytes and completes its command: an erase and an owner record with OK, a program with OK or,
where it does not read back as written, CHECK_FAIL. Outside their phases the commands change nothing. -/
def Obligations.UpdatesAndActivation : Prop :=
  (∀ (s : State) (cid : Nat) (c : Cmd),
    let u := beginCmd s cid
    let low := regFld s ⟨.pwrHoldup, 0, 0⟩ 0 7 < 90
    let off := fieldAt c.inl 0 4
    let cleared (t : State) : State := { t with boot := { t.boot with inactOk := false } }
    (cmdFor s cid 0x0400 = some c → flashFree s = true → exec (.updBegin cid) s = .next (commit s
        (if c.fn ≠ 0 then complete u cid stBadDescriptor
        else if s.sec.lock = true then complete u cid stUpdLock
        else if low then complete u cid stUpdHoldup
        else startFlash (cleared u) (.erase (1 - s.boot.slot) (some cid)))))
      ∧ (cmdFor s cid 0x0401 = some c → flashFree s = true → exec (.updWrite cid) s = .next (commit s
        (if c.fn ≠ 0 then complete u cid stBadDescriptor
        else if s.sec.lock = true then complete u cid stUpdLock
        else if low then complete u cid stUpdHoldup
        else if off % 4096 ≠ 0 ∨ 0x3000000 < off + c.payLen then complete u cid stBadDescriptor
        else withPayload u c 0 fun t b => startFlash (cleared t) (.program (1 - t.boot.slot) off b (some cid)))))
      ∧ (cmdFor s cid 0x0402 = some c → s.boot.op = none → exec (.updVerify cid) s = .next (commit s
        (if c.fn ≠ 0 then complete u cid stBadDescriptor
        else if imageStatus u (1 - s.boot.slot) = stOk then complete { u with boot := { u.boot with
          inactOk := true, fwInactive := BitVec.ofNat 32 (ihVersion (imgHeader s (1 - s.boot.slot))) } } cid stOk
        else complete u cid (imageStatus u (1 - s.boot.slot)))))
      ∧ (cmdFor s cid 0x0403 = some c → flashFree s = true → s.boot.act = none → exec (.activate cid) s = .next (commit s
        (if c.fn ≠ 0 ∨ 2 ≤ c.byte 0 then complete u cid stBadDescriptor
        else if s.sec.lock = true then complete u cid stUpdLock
        else if low then complete u cid stUpdHoldup
        else if (List.range 16).any (fun p => (partAt s p).st == .running) = true then complete u cid stUpdActive
        else if s.boot.inactOk = false then complete u cid stImageBad
        else { u with boot := { u.boot with
          op := some (.selector (recBytes u selKind [BitVec.ofNat 8 (1 - s.boot.slot), 2, 0, 0]))
          act := some (cid, c.byte 0 == 1), actPaused := false, actFailed := none, trial := true } })))
      ∧ (flashFree s = false → exec (.updBegin cid) s = .next (commit s s) ∧ exec (.updWrite cid) s = .next (commit s s)
        ∧ exec (.activate cid) s = .next (commit s s))
      ∧ (s.boot.op ≠ none → exec (.updVerify cid) s = .next (commit s s))
      ∧ (s.boot.act ≠ none → exec (.activate cid) s = .next (commit s s)))
  ∧ (∀ s : State, flashFree s = true ↔ s.boot.op = none ∧ s.pwr.holdup = false)
  ∧ ((∀ (s : State) (cid : Nat) (keep : Bool), s.boot.act = some (cid, keep) → s.boot.op = none → s.boot.phase = .run →
      s.boot.actPaused = false →
      ∃ t, t = loadLib (pauseSlot (pauseStops s)) ∧ exec .activationPause s = .next (commit s (pauseJoin (failedAct
          (if keep then keepState (setImg (measureAll t 2 t.boot.slot) t.boot.slot true)
            else dropState (setImg (measureAll t 2 t.boot.slot) t.boot.slot true)) cid))))
    ∧ (∀ s : State, s.boot.act = none ∨ s.boot.op ≠ none ∨ s.boot.phase ≠ .run ∨ s.boot.actPaused = true →
      exec .activationPause s = .next (commit s s))
    ∧ (∀ (s : State) (k : Nat), k = 1 - s.boot.slot → pauseSlot s =
        (if imageStatus s k = stOk then { s with boot := { s.boot with slot := k, digests := sectionDigests s k, inactOk := false } }
        else
          let t := writeSelector s s.boot.slot false
          { t with boot := { t.boot with
              lastErr := imageStatus s k, actFailed := some (imageStatus s k), trial := false, digests := sectionDigests t t.boot.slot } }))
    ∧ (∀ (s : State) (cid : Nat), (s.boot.actFailed = none → failedAct s cid = s)
      ∧ (∀ st, s.boot.actFailed = some st →
        ∃ t, t = complete s cid st ∧ failedAct s cid = { t with boot := { t.boot with act := none, actFailed := none } }))
    ∧ (∀ s : State, (s.boot.phase = .pause → exec .pauseTimeout s = .next (commit s (endPause (regOr s ⟨.bootStat, 0, 0⟩ 0x400000))))
      ∧ (s.boot.phase ≠ .pause → exec .pauseTimeout s = .next (commit s s))
      ∧ (endPause s).boot.phase = .run ∧ (endPause s).boot.actPaused = true)
    ∧ (∀ (s : State) (cid : Nat) (keep : Bool), s.boot.act = some (cid, keep) → s.boot.actPaused = true → s.boot.phase = .run →
      flashFree s = true →
      ∃ t, t = relock (raiseSvn (writeSelector s s.boot.slot false))
        ∧ exec .activationCommit s = .next (commit s (complete
            { t with boot := { t.boot with act := none, actPaused := false, trial := false } } cid stOk)))
    ∧ (∀ s : State, s.boot.act = none ∨ s.boot.actPaused = false ∨ s.boot.phase ≠ .run ∨ flashFree s = false →
      exec .activationCommit s = .next (commit s s))
    ∧ (∀ (s : State) (h : Bytes), h = imgHeader s s.boot.slot →
      (ihRaiseSvn h = true → s.fuses.svnMin < ihSvn h → raiseSvn s = { s with fuses := { s.fuses with svnMin := ihSvn h } })
      ∧ (ihRaiseSvn h = false ∨ ihSvn h ≤ s.fuses.svnMin → raiseSvn s = s))
    ∧ (∀ (s : State) (ok : Bool), s.pwr.powered = true →
      let r : State := { s with boot := { s.boot with op := none } }
      (∀ k cid, s.boot.op = some (.erase k (some cid)) → exec (.flashOperationDone ok) s = .next (commit s (complete
          { r with boot := { r.boot with flash := Tbl.clearRange s.boot.flash (k * 0x3000000) 0x3000000 } } cid stOk)))
      ∧ (∀ k off d cid, s.boot.op = some (.program k off d (some cid)) → ∃ t, t = programFlash r (k * 0x3000000 + off) d
          ∧ (ok = true → exec (.flashOperationDone ok) s = .next (commit s (complete t cid
              (if flashBytes t (k * 0x3000000 + off) d.length = d then stOk else stCheckFail))))
          ∧ (ok = false → ∃ bs : Bytes, bs.length = d.length ∧ exec (.flashOperationDone ok) s = .next (commit s (complete
              { t with fresh := s.fresh + 1, boot := { t.boot with flash := putBytes 0xFF t.boot.flash (k * 0x3000000 + off) bs } }
              cid stCheckFail))))
      ∧ (∀ b cid, s.boot.op = some (.owner b (some cid)) → exec (.flashOperationDone ok) s = .next (commit s (complete
          (takeOwner (putRec r ownKind b) (ownState b).1 (ownState b).2.1 (ownState b).2.2) cid stOk)))
      ∧ (∀ b, s.boot.op = some (.selector b) → s.boot.phase ≠ .recovery →
        exec (.flashOperationDone ok) s = .next (commit s (putRec r selKind b)))
      ∧ (∀ b, s.boot.op = some (.selector b) → s.boot.phase = .recovery →
        exec (.flashOperationDone ok) s = .next (commit s
          { putRec r selKind b with boot := { (putRec r selKind b).boot with rstatus := stOk } })))
    ∧ (∀ (s : State) (ok : Bool), s.pwr.powered = false ∨ s.boot.op = none →
      exec (.flashOperationDone ok) s = .next (commit s s)))

/-! ### Power and telemetry -/

/-- The voltage states. In RUN a write of PWR_VREQ asks for a state; 6 and 7 are ignored. PWR_SET from the PF with a state up to 5
and a TLIM from 70 to 100 °C sets the host's power limit, clamped to 1,000 to 2,600 W, TLIM and the state asked for; any other
completes with BAD_DESCRIPTOR. SET_LIMIT of the baseboard controller, while the I3C controller answers, sets its own limit,
clamped alike, and is answered with the status OK. Each is followed by the grant of R795: the state is the lowest of the one
asked for, the one that the power limit allows and the one that the thermal limit allows, and 3 at most while the average power is
above 90 % of the limit or a die has reached 85.0 °C. Where the grant changes, the ramp to it starts. A ramp that has ended joins
only the granted state. -/
def Obligations.VoltageStateAndLimits : Prop :=
  (∀ (s : State) (v : W32),
      (s.boot.phase = .run ∨ s.boot.phase = .pause → v.toNat % 8 ≤ 5 →
        exec (.pwrVreqWrite v) s = .next (commit s (regrant (regPut s ⟨.pwrVreq, 0, 0⟩ 0 3 (v.toNat % 8)))))
      ∧ (5 < v.toNat % 8 ∨ (s.boot.phase ≠ .run ∧ s.boot.phase ≠ .pause) → exec (.pwrVreqWrite v) s = .next (commit s s)))
  ∧ (∀ s : State, exec .voltageRampDone s
        = .next (commit s { s with pwr := { s.pwr with ramping := false, rampFrom := regFld s ⟨.pwrVreq, 0, 0⟩ 8 3 } }))
  ∧ (∀ (s : State) (cid : Nat) (c : Cmd), cmdFor s cid 0x0200 = some c → exec (.pwrSet cid) s = .next (commit s
      (if c.fn = 0 ∧ c.byte 2 ≤ 5 ∧ 70 ≤ c.byte 3 ∧ c.byte 3 ≤ 100 then
        complete (regrant (regPut (regPut (regPut (beginCmd s cid)
          ⟨.pwrLimit, 0, 0⟩ 20 12 (max 1000 (min 2600 (fieldAt c.inl 0 2)))) ⟨.pwrLimit, 0, 0⟩ 0 7 (c.byte 3))
          ⟨.pwrVreq, 0, 0⟩ 0 3 (c.byte 2))) cid stOk
      else complete (beginCmd s cid) cid stBadDescriptor)))
  ∧ (∀ (s : State) (w : BitVec 16), (s.pwr.powered = true → clkRuns s .tel = true →
      exec (.setLimit w) s = .next (commit s (regrant { regPut s ⟨.pwrLimit, 0, 0⟩ 8 12 (max 1000 (min 2600 w.toNat)) with
        out := s.out ++ [.mctp [0, 0]] })))
      ∧ (s.pwr.powered = false ∨ clkRuns s .tel = false → exec (.setLimit w) s = .next (commit s s)))
  ∧ (∀ s : State, let lowest := min (regFld s ⟨.pwrVreq, 0, 0⟩ 0 3) (min s.pwr.allowedPower s.pwr.allowedTherm)
      (highAllowed s = true → wantedState s = lowest) ∧ (highAllowed s = false → wantedState s = min 3 lowest))
  ∧ (∀ s : State, let limit := min (regFld s ⟨.pwrLimit, 0, 0⟩ 20 12) (regFld s ⟨.pwrLimit, 0, 0⟩ 8 12)
      highAllowed s = true ↔ regFld s ⟨.pwrStat, 0, 0⟩ 32 32 * 10 ≤ limit * 1000 * 9
        ∧ ∀ d < 8, ∀ n < 64, signedOf 16 (regFld s ⟨.telSite, d, n⟩ 0 16) < 8500)
  ∧ (∀ s : State, regFld (regrant s) ⟨.pwrVreq, 0, 0⟩ 8 3 = wantedState s
      ∧ (regFld s ⟨.pwrVreq, 0, 0⟩ 8 3 = wantedState s → regrant s = s)
      ∧ (regFld s ⟨.pwrVreq, 0, 0⟩ 8 3 ≠ wantedState s → (regrant s).pwr.ramping = true))

/-- The limits of a powered module; without power the readings change nothing. A millisecond's reading shows the 100 ms average in
PWR_STAT and the charge of the hold-up bank, of a weak bank at most 89 %. While the 1 ms and the 100 ms average are above the limit,
or a rail that lost phases is asked for more than the rest are rated for, the allowed state falls by one below the granted one each
millisecond, and in state 0 dispatch is held; it rises by one after ten milliseconds at most 95 % of the limit. Above 2,950 W in
the 10 ms average dispatch is held, until that is at most 2,800 W. A temperature reading is kept; after 1 ms of a site at TLIM the
allowed state falls by one below the granted one and after 10 ms with every site 3 °C below it rises by one; at 100 °C dispatch is
held until every site is at most at 97 °C. A die that has been at 110 °C for 1 ms powers the module off with TRIP set.
A phase that is shut off is counted and recorded. A core rail that loses its third gives every tile of its die a hardware fault;
a tier-1 rail that loses its only one makes the channels of its stack FAILED; a rail without phases left is left as it was. -/
def Obligations.LimitsActAndPhaseFaultsAreRecorded : Prop :=
  (∀ (s : State) (r : PowerReading),
      (s.pwr.powered = true → exec (.powerLimitTick r) s = .next (commit s (regrant (settleHolds (peakLimit (averageLimit
        (setCharge (regPut { s with pwr := { s.pwr with lastReading := r } } ⟨.pwrStat, 0, 0⟩ 32 32 (min r.avg100 (2 ^ 32 - 1))) r.charge)
        r) r)))))
      ∧ (s.pwr.powered = false → exec (.powerLimitTick r) s = .next (commit s s)))
  ∧ (∀ (s : State) (c : Nat), setCharge s c = regPut s ⟨.pwrHoldup, 0, 0⟩ 0 7 (min c (if regBit s ⟨.pwrHoldup, 0, 0⟩ 8 then 89 else 100)))
  ∧ (∀ (s : State) (r : PowerReading), let lim := limitMw s; let p := (averageLimit s r).pwr
      ((lim < r.avg1 ∧ lim < r.avg100) ∨ railOver s = true → 0 < grantedState s →
        p = { s.pwr with allowedPower := min s.pwr.allowedPower (grantedState s - 1), msUp := 0 })
      ∧ ((lim < r.avg1 ∧ lim < r.avg100) ∨ railOver s = true → grantedState s = 0 → p = { s.pwr with holdAvg := true, msUp := 0 })
      ∧ (railOver s = false → r.avg100 * 100 ≤ lim * 95 →
        p.allowedPower = (if s.pwr.msUp < 9 then s.pwr.allowedPower else min 5 (s.pwr.allowedPower + 1))
        ∧ p.msUp = (if s.pwr.msUp < 9 then s.pwr.msUp + 1 else 0)
        ∧ p.holdAvg = (s.pwr.holdAvg && decide (lim * 95 < r.avg1 * 100))))
  ∧ (∀ (s : State) (r : PowerReading), (2950000 < r.avg10 → (peakLimit s r).pwr.holdPeak = true)
      ∧ (r.avg10 ≤ 2800000 → (peakLimit s r).pwr.holdPeak = false)
      ∧ (2800000 < r.avg10 → r.avg10 ≤ 2950000 → peakLimit s r = s))
  ∧ (∀ s : State, settleHolds s = resumeDispatch (setPwrBit s 1 (s.pwr.holdAvg || s.pwr.holdPeak)))
  ∧ (∀ (s : State) (r : ThermalReading),
      (s.pwr.powered = true → exec (.temperatureMeasure r) s
        = .next (commit s (regrant (resumeDispatch (thermalHold (tripTimes (thermalLimit (noteTemps s r))))))))
      ∧ (s.pwr.powered = false → exec (.temperatureMeasure r) s = .next (commit s s)))
  ∧ (∀ s : State, let tlim : Int := regFld s ⟨.pwrLimit, 0, 0⟩ 0 7 * 100; let p := (thermalLimit s).pwr
      ((∃ d < 8, tlim ≤ hottest s d) →
        (s.pwr.thermUs < 900 → p = { s.pwr with thermUs := s.pwr.thermUs + 100, coolUs := 0 })
        ∧ (900 ≤ s.pwr.thermUs →
          p = { s.pwr with thermUs := 0, coolUs := 0, allowedTherm := min s.pwr.allowedTherm (grantedState s - 1) }))
      ∧ ((∀ d < 8, hottest s d ≤ tlim - 300) →
        (s.pwr.coolUs < 9900 → p = { s.pwr with thermUs := 0, coolUs := s.pwr.coolUs + 100 })
        ∧ (9900 ≤ s.pwr.coolUs → p = { s.pwr with thermUs := 0, coolUs := 0, allowedTherm := min 5 (s.pwr.allowedTherm + 1) })))
  ∧ (∀ s : State, ((∃ d < 8, 10000 ≤ hottest s d) → thermalHold s = setPwrBit s 2 true)
      ∧ ((∀ d < 8, hottest s d ≤ 9700) → thermalHold s = setPwrBit s 2 false)
      ∧ ((∀ d < 8, hottest s d < 10000) → (∃ d < 8, 9700 < hottest s d) → thermalHold s = s))
  ∧ (∀ (s : State) (d : Die),
      (s.pwr.powered = true → 1000 ≤ Tbl.get 0 s.pwr.tripUs d.val →
        exec (.thermalTrip d) s = .next (commit s (powerOff (setPwrBit s 5 true))))
      ∧ (s.pwr.powered = false ∨ Tbl.get 0 s.pwr.tripUs d.val < 1000 → exec (.thermalTrip d) s = .next (commit s s)))
  ∧ (∀ s : State, (powerOff s).pwr.powered = false ∧ (powerOff s).boot.phase = .power ∧ (powerOff s).tiles = [] ∧ (powerOff s).mem = []
      ∧ (powerOff s).parts = [] ∧ (powerOff s).sec.slots = [] ∧ (powerOff s).fuses = s.fuses)
  ∧ (∀ (s : State) (rail : Fin 28), s.pwr.powered = true → Tbl.get 0 s.pwr.phasesLost rail.val < (railPhases rail.val).1 →
      let t := faultReg (regPut { s with pwr := { s.pwr with phasesLost := Tbl.upd 0 s.pwr.phasesLost rail.val (· + 1) } }
        ⟨.pwrStat, 0, 0⟩ 4 1 1) 0xFF ⟨.pwrStat, 0, 0⟩
      (rail.val < 8 → Tbl.get 0 s.pwr.phasesLost rail.val = 2 →
        exec (.phaseFault rail) s = .next (commit s (forEach (allTiles.filter fun x => tileDie x == rail.val) t hwFault)))
      ∧ (16 ≤ rail.val → rail.val < 24 → exec (.phaseFault rail) s = .next (commit s (tierFailedNotice t
          (forEach (List.range 64) t fun s n => setUnitNo s (false, 64 * (rail.val - 16) + n) 2) (rail.val - 16))))
      ∧ ((rail.val < 8 → Tbl.get 0 s.pwr.phasesLost rail.val ≠ 2) → (rail.val < 16 ∨ 24 ≤ rail.val) →
        exec (.phaseFault rail) s = .next (commit s t)))
  ∧ (∀ (s : State) (rail : Fin 28), s.pwr.powered = false ∨ (railPhases rail.val).1 ≤ Tbl.get 0 s.pwr.phasesLost rail.val →
      exec (.phaseFault rail) s = .next (commit s s))
  ∧ (∀ r < 28, (railPhases r).1 = (if r < 8 then 8 else if r < 16 then 2 else if r < 24 then 1
      else if r = 24 then 2 else if r = 25 then 4 else if r = 26 then 2 else 0))

/-- The loss of the input. An input below 44 V, one above 60 V and an open mate pin each open the switch of a powered module,
set INLOSS and apply the brake; in a hold-up, and without power, they only note the input or the pin, and an input within the
bounds changes nothing. An input that returns to between 45 and 60 V, both mates closed, ends a hold-up: the switch closes, INLOSS
clears and the brake is released; otherwise it is only noted. At the hold-up's deadline the flash operation in progress is
finished, a fault record is written and the module powers off: the clasps close, and what is left is the flash, the fuses, the pins,
host memory, PWR_STAT.TRIP and what has left the module. -/
def Obligations.InputLossRunsTheHoldUp : Prop :=
  (∀ s : State, (s.pwr.powered = true → s.pwr.holdup = false → loseInput s
      = applyBrake (setPwrBit { s with pwr := { s.pwr with switchOpen := true, holdup := true } } 3 true))
    ∧ (s.pwr.powered = false ∨ s.pwr.holdup = true → loseInput s = s))
  ∧ (∀ (s : State) (mv : Nat),
    (mv < 44000 → exec (.inputLoss mv) s = .next (commit s (loseInput { s with pwr := { s.pwr with inputMv := mv } })))
    ∧ (44000 ≤ mv → exec (.inputLoss mv) s = .next (commit s s))
    ∧ (60000 < mv → exec (.inputOvervoltage mv) s = .next (commit s (loseInput { s with pwr := { s.pwr with inputMv := mv } })))
    ∧ (mv ≤ 60000 → exec (.inputOvervoltage mv) s = .next (commit s s)))
  ∧ (∀ s : State, exec (.mateOpen true) s = .next (commit s (loseInput { s with pwr := { s.pwr with mateB := false } }))
    ∧ exec (.mateOpen false) s = .next (commit s (loseInput { s with pwr := { s.pwr with mateA := false } })))
  ∧ (∀ (s : State) (mv : Nat),
    (s.pwr.powered = true → s.pwr.holdup = true → 45000 < mv → mv ≤ 60000 →
      exec (.inputReturn mv) s = .next (commit s (releaseBrake (setPwrBit { s with pwr := { s.pwr with
        inputMv := mv, mateA := true, mateB := true, switchOpen := false, holdup := false } } 3 false))))
    ∧ (s.pwr.powered = false ∨ s.pwr.holdup = false → 45000 < mv → mv ≤ 60000 → exec (.inputReturn mv) s
      = .next (commit s { s with pwr := { s.pwr with inputMv := mv, mateA := true, mateB := true } }))
    ∧ (mv ≤ 45000 ∨ 60000 < mv → exec (.inputReturn mv) s = .next (commit s s)))
  ∧ (∀ s : State, (s.pwr.powered = true → s.pwr.holdup = true → exec .holdupDeadline s
      = .next (commit s (powerOff (faultReg (finishFlash s true) 0xFF ⟨.pwrStat, 0, 0⟩))))
    ∧ (s.pwr.powered = false ∨ s.pwr.holdup = false → exec .holdupDeadline s = .next (commit s s)))
  ∧ (∀ s : State, s.boot.op = none → ∃ t, powerOff s = t ∧ t.boot = { flash := s.boot.flash } ∧ t.fuses = s.fuses
      ∧ t.hostMem = s.hostMem ∧ t.clspHold = s.clspHold ∧ t.host = { perst := s.host.perst }
      ∧ t.pwr = { mateA := s.pwr.mateA, mateB := s.pwr.mateB, inputMv := s.pwr.inputMv }
      ∧ (∃ sent, t.out = s.out ++ sent) ∧ regFld t ⟨.pwrStat, 0, 0⟩ 5 1 = regFld s ⟨.pwrStat, 0, 0⟩ 5 1
      ∧ t.fab = {} ∧ t.mem = [] ∧ t.parts = [] ∧ t.tiles = [] ∧ t.sec = {})

/-- The records of the baseboard controller and the host. While the I3C controller answers, GET_RECORD of a type from 1 to 5 sends
the record, SUBSCRIBE of such a type with a period from 10 to 60,000 ms, or 0 to end it, sets the period. A due push of a
subscribed type sends the record where it can be sent and ends the round trip of its event; where it cannot, its event is
merged; each sent or skipped record takes one sequence number. A record has a header of 16 bytes: its type, version 1, the
length of its body, its sequence number and fabric time. TEL_READ from the PF whose payload has room for the record of its type
writes it and completes with how the write ends; any other completes with BAD_DESCRIPTOR. The commands change nothing else.
An energy window of a powered module sets every rail's voltage and current in TEL_RAIL and adds its energy to that rail's total,
and changes no tile, no partition and nothing of the host port. -/
def Obligations.TelemetryRecordsAndEnergyWindows : Prop :=
  (∀ (s : State) (ty : Byte), s.pwr.powered = true → clkRuns s .tel = true →
      (∀ b, telRecord s ty.toNat = some b → exec (.getRecord ty) s = .next (commit s { s with
        out := s.out ++ [.mctp b]
        pwr := { s.pwr with seqs := Tbl.put 0 s.pwr.seqs ty.toNat ((Tbl.get 0 s.pwr.seqs ty.toNat + 1) % 2 ^ 32) } }))
      ∧ (telRecord s ty.toNat = none → exec (.getRecord ty) s = .next (commit s s))
      ∧ ∀ ms : BitVec 16, (1 ≤ ty.toNat → ty.toNat ≤ 5 → (ms = 0 ∨ (10 ≤ ms.toNat ∧ ms.toNat ≤ 60000)) → exec (.subscribe ty ms) s
          = .next (commit s { s with pwr := { s.pwr with subs := Tbl.put 0 s.pwr.subs ty.toNat ms.toNat } }))
        ∧ (ty = 0 ∨ 5 < ty.toNat ∨ (ms ≠ 0 ∧ (ms.toNat < 10 ∨ 60000 < ms.toNat)) → exec (.subscribe ty ms) s = .next (commit s s)))
  ∧ (∀ (s : State) (ty : Byte) (ms : BitVec 16), s.pwr.powered = false ∨ clkRuns s .tel = false →
      exec (.getRecord ty) s = .next (commit s s) ∧ exec (.subscribe ty ms) s = .next (commit s s))
  ∧ (∀ (s : State) (ty : Nat), (telRecord s ty = none ↔ ¬ (1 ≤ ty ∧ ty ≤ 5))
      ∧ ∀ b, telRecord s ty = some b → ∃ body, recordBody s ty = some body ∧ b = leBytes 1 ty ++ leBytes 1 1
        ++ leBytes 2 body.length ++ leBytes 4 (Tbl.get 0 s.pwr.seqs ty) ++ leBytes 8 s.now ++ body)
  ∧ (∀ (s : State) (ty : Byte) (b : Bytes), s.pwr.powered = true → Tbl.get 0 s.pwr.subs ty.toNat ≠ 0 → telRecord s ty.toNat = some b →
      let skip (t : State) : State := { t with pwr := { t.pwr with
        seqs := Tbl.put 0 t.pwr.seqs ty.toNat ((Tbl.get 0 t.pwr.seqs ty.toNat + 1) % 2 ^ 32) } }
      (clkRuns s .tel = true → exec (.subscriptionPush ty true) s
        = .next (commit s (endEvent (skip { s with out := s.out ++ [.mctp b] }) .tel true)))
      ∧ (clkRuns s .tel = false → exec (.subscriptionPush ty true) s = .next (commit s (skip (doEventCrossingSend .tel true s))))
      ∧ exec (.subscriptionPush ty false) s = .next (commit s (skip (doEventCrossingSend .tel true s))))
  ∧ (∀ (s : State) (ty : Byte) (sendable : Bool), s.pwr.powered = false ∨ Tbl.get 0 s.pwr.subs ty.toNat = 0 →
      exec (.subscriptionPush ty sendable) s = .next (commit s s))
  ∧ (∀ (s : State) (cid : Nat) (c : Cmd), cmdFor s cid 0x0201 = some c →
      let u := beginCmd s cid
      (telRecord u (c.byte 0) = none → exec (.telRead cid) s = .next (commit s (complete u cid stBadDescriptor)))
      ∧ (∀ b, telRecord u (c.byte 0) = some b →
        (c.fn ≠ 0 ∨ c.payLen < b.length → exec (.telRead cid) s = .next (commit s (complete u cid stBadDescriptor)))
        ∧ (c.fn = 0 → b.length ≤ c.payLen → ∃ a t, writeDst u c c.payload b = (a, t)
          ∧ exec (.telRead cid) s = .next (commit s (endBy s { t with pwr := { t.pwr with
            seqs := Tbl.put 0 t.pwr.seqs (c.byte 0) ((Tbl.get 0 t.pwr.seqs (c.byte 0) + 1) % 2 ^ 32) } } cid a)))))
  ∧ (∀ (s : State) (w : EnergyWindow), s.pwr.powered = true → ∃ u, exec (.energyWindow w) s = .next u
        ∧ (∀ r < 28, Tbl.get 0 u.pwr.energy r = Tbl.get 0 s.pwr.energy r + nth 0 w.railPj r)
        ∧ (∀ r < 28, regFld u ⟨.telRail, 0, r⟩ 32 32 = nth 0 w.railMa r % 2 ^ 32
          ∧ regFld u ⟨.telRail, 0, r⟩ 16 16 = nth 0 w.railMv r % 2 ^ 16)
        ∧ u.tiles = s.tiles ∧ u.parts = s.parts ∧ u.host = s.host)
  ∧ (∀ (s : State) (w : EnergyWindow), s.pwr.powered = false → exec (.energyWindow w) s = .next (commit s s))

/-! ### Keys, owner lock, recovery, attestation -/

/-- KEY_WRITE of 80 bytes with fields in their ranges, for a partition that its function may name and a slot that is free or that
partition's, puts a key into the slot with the next generation and keeps the old one for what is bound to it; a slot that is being
erased or still holds a shadow answers KEY_BUSY, a wrapped key that does not open completes with why. KEY_ERASE ends the takes
that use the slot and leaves of its keys only what operations are bound to; once none is left the slot is free, keeping its
generation, and the erases complete. The end of an AES operation on a bound generation releases one binding and frees what it was
the last of; on another it changes nothing.
The owner's commands, once the flash may begin an operation, need the PF and a charge of 90 %: OWNER_INSTALL installs the first
key, a point of the curve; OWNER_LOCK needs a key; an OWNER_AUTH token that passes the checks of R837 in their order takes the
effect of its action. Each then writes the owner record. An OWNER_AUTH that fails replaces the nonce, is recorded, and completes
with its status. While the flash is busy or the input lost they wait. -/
def Obligations.KeySlotsAndTheOwnerRecord : Prop :=
  ((∀ (s : State) (cid : Nat) (c : Cmd), cmdFor s cid 0x0300 = some c → exec (.keyWrite cid) s = .next (commit s
        (withPayload (beginCmd s cid) c 80 fun t b =>
          let x := slotAt t (kwSlot b)
          if keyFields t b = false ∨ c.may (kwPart b) = false ∨ slotTaken x (kwPart b) = true then complete t cid stBadDescriptor
          else if x.erasing = true ∨ x.shadow.isSome = true then complete t cid stKeyBusy
          else match keyOf t b with
            | .error st => complete t cid st
            | .ok key => complete (endTakes (modSlot t (kwSlot b) fun x =>
                { x with current := some ⟨key, x.gen + 1, 0⟩, shadow := keepBound x.current, gen := x.gen + 1, kek := kwKek b
                         part := Fin.ofNat 16 (kwPart b) }) (kwSlot b) stAborted) cid stOk (x.gen + 1).toNat)))
    ∧ (∀ (s : State) (b : Bytes), (kwWrapped b = false → keyOf s b = .ok ((b.drop 0x18).take 32))
      ∧ (kwWrapped b = true → (slotAt s (kwKekSlot b)).current = none → keyOf s b = .error stKeyEmpty))
    ∧ (∀ k : Key, keepBound none = none ∧ (k.bound = 0 → keepBound (some k) = none) ∧ (0 < k.bound → keepBound (some k) = some k))
    ∧ (∀ (s : State) (cid : Nat) (c : Cmd), cmdFor s cid 0x0301 = some c → exec (.keyErase cid) s = .next (commit s
        (if 64 ≤ c.byte 0 ∨ (c.fn ≠ 0 ∧ slotTaken (slotAt s (c.byte 0)) c.part = true) then complete (beginCmd s cid) cid stBadDescriptor
        else settleSlot (modSlot (endTakes (beginCmd s cid) (c.byte 0) stKeyEmpty) (c.byte 0) fun x =>
          { x with current := keepBound x.current, shadow := keepBound x.shadow, erasing := true, eraseCids := x.eraseCids ++ [cid] })
          (c.byte 0))))
    ∧ (∀ (s : State) (k : Nat), ((slotAt s k).current ≠ none ∨ (slotAt s k).shadow ≠ none → settleSlot s k = s)
      ∧ ((slotAt s k).current = none → (slotAt s k).shadow = none → settleSlot s k
        = forEach (slotAt s k).eraseCids (modSlot s k fun x => { gen := x.gen }) fun s cid => complete s cid stOk))
    ∧ (∀ (s : State) (d : Die) (slot : Fin 64) (gen : Byte),
      let x := slotAt s slot.val
      let bound (k : Option Key) : Prop := ∃ y, k = some y ∧ y.gen = gen ∧ 0 < y.bound
      let less (k : Option Key) : Option Key := k.map fun y => if y.gen = gen then { y with bound := y.bound - 1 } else y
      let t := modSlot { s with sec := { s.sec with ops := s.sec.ops.erase (d.val, slot.val, gen) } } slot.val fun x =>
        { x with current := if x.erasing then keepBound (less x.current) else less x.current, shadow := keepBound (less x.shadow) }
      (¬ bound x.current → ¬ bound x.shadow → exec (.aesOperationDone ⟨d, slot⟩ gen) s = .next (commit s s))
      ∧ (bound x.current ∨ bound x.shadow → x.erasing = false → exec (.aesOperationDone ⟨d, slot⟩ gen) s = .next (commit s t))
      ∧ (bound x.current ∨ bound x.shadow → x.erasing = true →
        exec (.aesOperationDone ⟨d, slot⟩ gen) s = .next (commit s (settleSlot t slot.val)))))
  ∧ (∀ (s : State) (cid : Nat) (c : Cmd), flashFree s = true →
      let u := beginCmd s cid
      let low (t : State) : Bool := decide (regFld t ⟨.pwrHoldup, 0, 0⟩ 0 7 < 90)
      let writes (t : State) (key : Option Bytes) (lock once : Bool) : State := { t with boot := { t.boot with
        op := some (.owner (recBytes t ownKind (ownBody key lock once)) (some cid)) } }
      (cmdFor s cid 0x0310 = some c → exec (.ownerInstall cid) s = .next (commit s (withPayload u c 96 fun t b =>
        if c.fn ≠ 0 then complete t cid stBadDescriptor
        else if low t = true then complete t cid stUpdHoldup
        else if t.sec.ownerKey.isSome = true ∨ onCurve (b.take 96) = false then complete t cid stBadDescriptor
        else writes t (some (b.take 96)) t.sec.lock t.sec.once)))
      ∧ (cmdFor s cid 0x0311 = some c → exec (.ownerLock cid) s = .next (commit s
        (if c.fn ≠ 0 then complete u cid stBadDescriptor
        else if low s = true then complete u cid stUpdHoldup
        else if s.sec.ownerKey = none then complete u cid stBadDescriptor
        else writes u s.sec.ownerKey true false)))
      ∧ (cmdFor s cid 0x0312 = some c → ∀ a b t, payloadOf u c = (a, b, t) →
        (a = .wait → exec (.ownerAuth cid) s = .next (commit s s))
        ∧ (a = .ok → 288 ≤ b.length → exec (.ownerAuth cid) s = .next (commit s
          (if c.fn = 0 ∧ low t = false ∧ tokenStatus t (b.take 288) = stOk then
            let e := tokenEffect t (b.take 288)
            freshNonce (writes t e.1 e.2.1 e.2.2)
          else authFails t cid
            (if c.fn ≠ 0 then stBadDescriptor else if low t = true then stUpdHoldup else tokenStatus t (b.take 288)))))
        ∧ (a = .ok → b.length < 288 → exec (.ownerAuth cid) s = .next (commit s (authFails t cid stBadDescriptor)))
        ∧ (a ≠ .ok → a ≠ .wait → exec (.ownerAuth cid) s = .next (commit s (authFails t cid (accStatus a))))))
  ∧ (∀ (s : State) (cid : Nat), flashFree s = false → exec (.ownerInstall cid) s = .next (commit s s)
      ∧ exec (.ownerLock cid) s = .next (commit s s) ∧ exec (.ownerAuth cid) s = .next (commit s s))
  ∧ (∀ (s : State) (cid : Nat) (st : Status), authFails s cid st
      = complete (faultRec (freshNonce s) st 0xFF ⟨.secStat, 0, 0⟩) cid st
      ∧ (freshNonce s).sec.nonce.length = 32)
  ∧ (∀ (s : State) (t : Bytes), tokenStatus s t =
      (if tokenFields t = false then stBadDescriptor
      else match s.sec.ownerKey with
        | none => stBadDescriptor
        | some key =>
          if (t.drop 8).take 32 ≠ s.sec.nonce ∨ (t.drop 0x28).take 48 ≠ Config.sha384 Config.identityKey then stAuthFail
          else if Config.ecdsaVerify key (Config.sha384 (t.take 0xC0)) ((t.drop 0xC0).take 96) = false then stSigFail
          else stOk))
  ∧ (∀ (s : State) (t : Bytes), (fieldAt t 4 1 = 1 → tokenEffect s t = (s.sec.ownerKey, false, false))
      ∧ (fieldAt t 4 1 = 2 → tokenEffect s t = (s.sec.ownerKey, false, true))
      ∧ (fieldAt t 4 1 = 3 → tokenEffect s t = (some ((t.drop 0x60).take 96), s.sec.lock, s.sec.once))
      ∧ (fieldAt t 4 1 = 4 → tokenEffect s t = (none, false, false)))

/-- The recovery commands of BOOT_RCMD are taken in RECOVERY while no flash operation runs, those that write the flash also only
while the input is not lost; else they change nothing, as a write of another CMD does. Each notes its SLOT. ERASE and PROGRAM write
the slot and end what VERIFY had found of it; a lock refuses them with UPD_LOCK, a low charge with UPD_HOLDUP, an offset that is
not a sector of the slot with BAD_DESCRIPTOR. VERIFY shows what the check of the slot found. AUTH takes the token in BOOT_RWIN
and replaces the nonce. START from the slot that VERIFY has passed writes a COMMITTED selector and starts; from another it shows
IMAGE_BAD.
The attestation responder is reached in RUN: each request of the exchange is answered by its own command, one of another code
with UnsupportedRequest, one in the pause with Busy, one before its version or its algorithms are agreed with
UnexpectedRequest, one of another version with VersionMismatch, one that is too short with InvalidRequest. GET_VERSION, which
begins an exchange anew, is answered with versions 1.2 and 1.3, GET_CAPABILITIES with CERT, CHAL and MEAS signed, the algorithms
with ECDSA P-384 and SHA-384, GET_DIGESTS with the digest of slot 0's chain, GET_CERTIFICATE with the part asked for, CHALLENGE
with a signature over the exchange, GET_MEASUREMENTS with the blocks asked for, signed where that is asked for. The layouts of
the messages are the model's (log entry 5). -/
def Obligations.RecoveryAndAttestation : Prop :=
  ((∀ (s : State) (v : W32) (env : StartEnv),
      let taken (cmd : Nat) : Prop := s.boot.phase = .recovery ∧ s.boot.op = none ∧ v.toNat % 16 = cmd
      let k := v.toNat / 16 % 2
      let t := regPut s ⟨.bootRcmd, 0, 0⟩ 4 1 k
      let shows (st : Status) : State := { t with boot := { t.boot with rstatus := st } }
      let begins (o : FlashOp) : State := { t with boot := { t.boot with
        op := some o, verified := if t.boot.verified = some k then none else t.boot.verified } }
      let token := bytesAt 0 s.boot.rwin 0 288
      (¬ taken 1 ∨ s.pwr.holdup = true → exec (.recErase v) s = .next (commit s s))
      ∧ (¬ taken 2 ∨ s.pwr.holdup = true → exec (.recProgram v) s = .next (commit s s))
      ∧ (¬ taken 3 → exec (.recVerify v) s = .next (commit s s))
      ∧ (¬ taken 4 ∨ s.pwr.holdup = true → exec (.recAuth v) s = .next (commit s s))
      ∧ (¬ taken 5 ∨ s.pwr.holdup = true → exec (.recStart v env) s = .next (commit s s))
      ∧ (taken 1 → s.pwr.holdup = false → exec (.recErase v) s = .next (commit s
        (if s.sec.lock = true then shows stUpdLock
        else if regFld s ⟨.pwrHoldup, 0, 0⟩ 0 7 < 90 then shows stUpdHoldup
        else begins (.erase k none))))
      ∧ (taken 2 → s.pwr.holdup = false → exec (.recProgram v) s = .next (commit s
        (if s.sec.lock = true then shows stUpdLock
        else if regFld s ⟨.pwrHoldup, 0, 0⟩ 0 7 < 90 then shows stUpdHoldup
        else if regGet s ⟨.bootRoff, 0, 0⟩ % 4096 ≠ 0 ∨ 0x3000000 < regGet s ⟨.bootRoff, 0, 0⟩ + 4096 then shows stBadDescriptor
        else begins (.program k (regGet s ⟨.bootRoff, 0, 0⟩) (bytesAt 0 s.boot.rwin 0 4096) none))))
      ∧ (taken 3 → exec (.recVerify v) s = .next (commit s { t with boot := { t.boot with
          rstatus := imageStatus t k, verified := if imageStatus t k = stOk then some k else none } }))
      ∧ (taken 4 → s.pwr.holdup = false → exec (.recAuth v) s = .next (commit s (freshNonce
        (if tokenStatus t token = stOk then startOwner t (tokenEffect t token) none else shows (tokenStatus t token)))))
      ∧ (taken 5 → s.pwr.holdup = false → exec (.recStart v env) s = .next (commit s
        (if s.boot.verified = some k then startModule (writeSelector t k false) env else shows stImageBad)))))
  ∧ (∀ (s : State) (r : Bytes) (code : Nat) (k : State → State),
      (s.host.perst = true ∨ (s.boot.phase ≠ .run ∧ s.boot.phase ≠ .pause) → responder s r code k = s)
      ∧ (s.host.perst = false → s.boot.phase = .pause → responder s r code k = answer s (spError s 0x03))
      ∧ (s.host.perst = false → s.boot.phase = .run → fieldAt r 1 1 ≠ code → responder s r code k = answer s (spError s 0x07))
      ∧ (s.host.perst = false → s.boot.phase = .run → fieldAt r 1 1 = code → responder s r code k = k s))
  ∧ (∀ (s : State) (r : Bytes) (n : Nat) (k : State → State),
      (s.sec.spdmVersion = 0 → versioned s r n k = answer s (spError s 0x04))
      ∧ (s.sec.spdmVersion ≠ 0 → fieldAt r 0 1 ≠ s.sec.spdmVersion → versioned s r n k = answer s (spError s 0x41))
      ∧ (s.sec.spdmVersion ≠ 0 → fieldAt r 0 1 = s.sec.spdmVersion → r.length < n → versioned s r n k = answer s (spError s 0x01))
      ∧ (s.sec.spdmVersion ≠ 0 → fieldAt r 0 1 = s.sec.spdmVersion → n ≤ r.length → versioned s r n k = k s)
      ∧ (s.sec.spdmAlgs = true → agreed s r n k = versioned s r n k)
      ∧ (s.sec.spdmAlgs = false → agreed s r n k = versioned s r n fun s => answer s (spError s 0x04)))
  ∧ (∀ (s : State) (r a : Bytes), answer s a = { s with out := s.out ++ [.doe a] }
      ∧ spError s (fieldAt r 0 1) = [BitVec.ofNat 8 (if s.sec.spdmVersion = 0 then 0x10 else s.sec.spdmVersion), 0x7F,
          BitVec.ofNat 8 (fieldAt r 0 1), 0]
      ∧ exchange s r a = { s with out := s.out ++ [.doe a], sec := { s.sec with transcript := s.sec.transcript ++ r ++ a } }
      ∧ opening s r a = { s with out := s.out ++ [.doe a], sec := { s.sec with vca := s.sec.vca ++ r ++ a } }
      ∧ signed s r a = { s with
          out := s.out ++ [.doe (a ++ Config.identitySign (s.sec.vca ++ s.sec.transcript ++ r ++ a))]
          sec := { s.sec with transcript := [] } })
  ∧ (∀ (s : State) (r : Bytes),
      exec (.spdmGetVersion r) s = .next (commit s (responder s r 0x84 fun s =>
        opening { s with sec := { s.sec with spdmVersion := 0, spdmAlgs := false, vca := [], transcript := [] } } r
          [0x10, 0x04, 0, 0, 0, 2, 0x00, 0x12, 0x00, 0x13]))
      ∧ exec (.spdmGetCapabilities r) s = .next (commit s (responder s r 0xE1 fun s =>
        if s.sec.vca = [] ∨ s.sec.spdmVersion ≠ 0 then answer s (spError s 0x04)
        else if fieldAt r 0 1 ≠ 0x12 ∧ fieldAt r 0 1 ≠ 0x13 then answer s (spError s 0x41)
        else opening { s with fresh := s.fresh + 1, sec := { s.sec with spdmVersion := fieldAt r 0 1 } } r
          ([BitVec.ofNat 8 (fieldAt r 0 1), 0x61, 0, 0, 0, 17, 0, 0, 0x16, 0, 0, 0] ++ freeBytes s.fresh 8)))
      ∧ exec (.spdmNegotiateAlgorithms r) s = .next (commit s (responder s r 0xE3 fun s => versioned s r 32 fun s =>
        if bitOf (fieldAt r 8 4) 7 = true ∧ bitOf (fieldAt r 12 4) 1 = true ∧ bitOf (fieldAt r 6 1) 0 = true then
          opening { s with sec := { s.sec with spdmAlgs := true } } r ([BitVec.ofNat 8 s.sec.spdmVersion, 0x63, 0, 0, 36, 0, 1, 0,
            4, 0, 0, 0, 0x80, 0, 0, 0, 2, 0, 0, 0] ++ List.replicate 16 0)
        else answer s (spError s 0x01)))
      ∧ exec (.spdmGetDigests r) s = .next (commit s (responder s r 0x81 fun s => agreed s r 4 fun s => exchange s r
        ([BitVec.ofNat 8 s.sec.spdmVersion, 1, if s.sec.spdmVersion = 0x13 then 1 else 0, 1] ++ Config.sha384 (spChain s))))
      ∧ exec (.spdmGetCertificate r) s = .next (commit s (responder s r 0x82 fun s => agreed s r 8 fun s =>
        let c := spChain s
        let off := fieldAt r 4 2
        let n := min (fieldAt r 6 2) (c.length - off)
        if fieldAt r 2 1 % 16 ≠ 0 ∨ c.length ≤ off then answer s (spError s 0x01)
        else exchange s r ([BitVec.ofNat 8 s.sec.spdmVersion, 2, 0, 0] ++ leBytes 2 n ++ leBytes 2 (c.length - off - n)
          ++ (c.drop off).take n)))
      ∧ exec (.spdmChallenge r) s = .next (commit s (responder s r 0x83 fun s =>
        agreed s r (if s.sec.spdmVersion = 0x13 then 44 else 36) fun s =>
          if fieldAt r 2 1 = 0 ∧ (fieldAt r 3 1 = 0 ∨ fieldAt r 3 1 = 1 ∨ fieldAt r 3 1 = 0xFF) then
            signed { s with fresh := s.fresh + 1 } r ([BitVec.ofNat 8 s.sec.spdmVersion, 3, 0, 1] ++ Config.sha384 (spChain s)
              ++ freeBytes s.fresh 32
              ++ (if fieldAt r 3 1 = 0 then [] else Config.sha384 ((List.range 9).flatMap fun i => measBlock s (i + 1)))
              ++ [0, 0] ++ (if s.sec.spdmVersion = 0x13 then (r.drop 36).take 8 else []))
          else answer s (spError s 0x01)))
      ∧ exec (.spdmGetMeasurements r) s = .next (commit s (responder s r 0xE0 fun s =>
        let sign := bitOf (fieldAt r 2 1) 0
        let n := (if sign then 37 else 4) + (if s.sec.spdmVersion = 0x13 then 8 else 0)
        agreed s r n fun s => match askedBlocks (fieldAt r 3 1) with
          | none => answer s (spError s 0x01)
          | some is =>
            let blocks := is.flatMap (measBlock s)
            let a := [BitVec.ofNat 8 s.sec.spdmVersion, 0x60, if fieldAt r 3 1 = 0 then 10 else 0, 0] ++ leBytes 1 is.length
              ++ leBytes 3 blocks.length ++ blocks ++ freeBytes s.fresh 32 ++ [0, 0]
              ++ (if s.sec.spdmVersion = 0x13 then (r.drop (n - 8)).take 8 else [])
            if sign then signed { s with fresh := s.fresh + 1 } r a else exchange { s with fresh := s.fresh + 1 } r a)))
  ∧ (askedBlocks 0 = some [] ∧ askedBlocks 0xFF = some [1, 2, 3, 4, 5, 6, 7, 8, 9, 16]
      ∧ (∀ i, 1 ≤ i → i ≤ 9 → askedBlocks i = some [i]) ∧ askedBlocks 16 = some [16]
      ∧ (∀ i, 10 ≤ i → i ≤ 15 → askedBlocks i = none) ∧ ∀ i, 17 ≤ i → i ≤ 0xFE → askedBlocks i = none)

/-! ### The host port: commands, doorbells, fetching, output pages, functions, BAR4 -/

/-- Every row of a host command acts on the admitted command of its identifier and opcode that has not been taken up, and changes
nothing where there is none; one that takes effect at an admission point at which no step runs waits while its partitions are not
at rest. A payload that is too short, or outside what the command may reach, completes it with BAD_DESCRIPTOR, one that cannot be
read with why; while its read must wait the command stays.
NOP completes OK. QUE_CREATE of the PF makes the FREE queue above 16 that INLINE names from a descriptor within R694, for a VF
within that VF's binding; one of a VF makes the lowest FREE queue for its own VSLOT; past the binding's limit, or without a FREE
queue, it completes with NO_RESOURCE, else with BAD_DESCRIPTOR. QUE_DELETE of an ACTIVE or ERROR queue above 16, by its VSLOT from
a VF, drains it. VF_BIND of the PF binds VF 1 to 16 to a partition that is IDLE or RUNNING. Each refuses the rest with
BAD_DESCRIPTOR. REMOTE_CPL ends the remote command that its tag names with its status and INFO; one that names none, or is no
completion, changes nothing but the inbox, and a message that is not for it is refused. -/
def Obligations.CommandsOfTheHostPort : Prop :=
  (∀ (op : Nat) (row : Nat → Instr), HostRow op row → ∀ (s : State) (cid : Nat),
      (cmdFor s cid op = none → exec (row cid) s = .next (commit s s))
      ∧ (∀ c, cmdFor s cid op = some c → restOpcodes.contains op = true → allAtRest s c = false →
        exec (row cid) s = .next (commit s s)))
  ∧ (∀ (s : State) (cid op : Nat) (c : Cmd), cmdFor s cid op = some c ↔ cmdAt s cid = some c ∧ c.opcode = op ∧ c.started = false)
  ∧ (∀ (s t : State) (c : Cmd) (n : Nat) (k : State → Bytes → State) (a : Acc) (b : Bytes), payloadOf s c = (a, b, t) →
      (a = .ok → n ≤ b.length → withPayload s c n k = k t b)
      ∧ (a = .ok → b.length < n → withPayload s c n k = complete t c.id stBadDescriptor)
      ∧ (a = .bounds ∨ a = .replay → withPayload s c n k = complete t c.id stBadDescriptor)
      ∧ (∀ st, a = .fail st → withPayload s c n k = complete t c.id st)
      ∧ (a = .wait → withPayload s c n k = modCmd s c.id fun c => { c with started := false }))
  ∧ (∀ (s : State) (cid : Nat) (c : Cmd),
      (cmdFor s cid 0x0001 = some c → exec (.nopCommand cid) s = .next (commit s (complete (beginCmd s cid) cid stOk)))
      ∧ (cmdFor s cid 0x0002 = some c → exec (.queCreate cid) s = .next (commit s (withPayload (beginCmd s cid) c 64 fun t b =>
        let x := queCreateCheck t c b
        if x.1 = stOk then complete (modQueue t x.2.1 fun _ => x.2.2) cid stOk (if c.fn = 0 then 0 else x.2.1)
        else complete t cid x.1))))
  ∧ (∀ (s : State) (c : Cmd) (b : Bytes),
      let d := queueOf b
      let q := fieldAt c.inl 0 4 % 2 ^ 20
      let made (n : Nat) : List Nat := (s.host.queues.filter fun e => e.2.fn == n && decide (17 ≤ e.1)).map (·.1)
      (c.fn = 0 →
        ((queueAt s q).st ≠ .free ∨ q ≤ 16 ∨ queueOk s d = false → (queCreateCheck s c b).1 = stBadDescriptor)
        ∧ ((queueAt s q).st = .free → 17 ≤ q → queueOk s d = true →
          (d.fn = 0 → queCreateCheck s c b = (stOk, q, d))
          ∧ (d.fn ≠ 0 → bindAt s d.fn = none → (queCreateCheck s c b).1 = stBadDescriptor)
          ∧ (∀ x, d.fn ≠ 0 → bindAt s d.fn = some x →
            (x.part.val ≠ d.part ∨ (queueByVslot s d.fn d.vslot).isSome = true → (queCreateCheck s c b).1 = stBadDescriptor)
            ∧ (x.part.val = d.part → queueByVslot s d.fn d.vslot = none →
              (x.limit ≤ (made d.fn).length → (queCreateCheck s c b).1 = stNoResource)
              ∧ ((made d.fn).length < x.limit → queCreateCheck s c b = (stOk, q, d))))))
      ∧ (c.fn ≠ 0 →
        let v := fieldAt c.inl 0 2
        let e : Queue := { d with fn := c.fn, part := c.part, vslot := v }
        (bindAt s c.fn = none → (queCreateCheck s c b).1 = stBadDescriptor)
        ∧ (∀ x, bindAt s c.fn = some x →
          (fieldAt c.inl 2 1 % 16 ≠ 0 ∨ (queueByVslot s c.fn v).isSome = true ∨ queueOk s e = false →
            (queCreateCheck s c b).1 = stBadDescriptor)
          ∧ (fieldAt c.inl 2 1 % 16 = 0 → queueByVslot s c.fn v = none → queueOk s e = true →
            (x.limit ≤ (made c.fn).length → (queCreateCheck s c b).1 = stNoResource)
            ∧ ((made c.fn).length < x.limit → lowestFree s = none → (queCreateCheck s c b).1 = stNoResource)
            ∧ (∀ n, (made c.fn).length < x.limit → lowestFree s = some n → queCreateCheck s c b = (stOk, n, e))))))
  ∧ (∀ (s : State) (cid : Nat) (c : Cmd), cmdFor s cid 0x0003 = some c →
      let u := beginCmd s cid
      let n := fieldAt c.inl 0 4 % 2 ^ 20
      let named : Option Nat := if c.fn = 0 then some n else if n / 2 ^ 16 ≠ 0 then none else queueByVslot s c.fn n
      (named = none → exec (.queDelete cid) s = .next (commit s (complete u cid stBadDescriptor)))
      ∧ (∀ q, named = some q →
        (17 ≤ q → (queueAt s q).st = .active ∨ (queueAt s q).st = .error →
          exec (.queDelete cid) s = .next (commit s (drainBegin u q (some cid) stAborted)))
        ∧ (q ≤ 16 ∨ (queueAt s q).st = .free ∨ (queueAt s q).st = .draining →
          exec (.queDelete cid) s = .next (commit s (complete u cid stBadDescriptor)))))
  ∧ (∀ (s : State) (cid : Nat) (c : Cmd), cmdFor s cid 0x0004 = some c → exec (.vfBind cid) s = .next (commit s
      (if c.fn = 0 ∧ 1 ≤ c.byte 0 ∧ c.byte 0 ≤ 16 ∧ c.byte 1 < 16
          ∧ ((partAt s (c.byte 1)).st = .idle ∨ (partAt s (c.byte 1)).st = .running) then
        complete { beginCmd s cid with host := { (beginCmd s cid).host with
          binds := Tbl.put none s.host.binds (c.byte 0) (some ⟨Fin.ofNat 16 (c.byte 1), fieldAt c.inl 4 4⟩) } } cid stOk
      else complete (beginCmd s cid) cid stBadDescriptor)))
  ∧ (∀ (s : State) (m : Bytes), let t := takeMsg s m
      let e := (msgPayload m).take 64
      (∀ st, msgRefused t m 0 false = some st → exec (.remoteCpl m) s = .next (commit s (refuse t m st)))
      ∧ (msgRefused t m 0 false = none → fieldAt e 0 2 ≠ 0x0006 → exec (.remoteCpl m) s = .next (commit s t))
      ∧ (msgRefused t m 0 false = none → fieldAt e 0 2 = 0x0006 →
        (∀ r, t.host.remote.find? (fun r => r.msgTag.toNat == msgTag m) = some r →
          exec (.remoteCpl m) s = .next (commit s (complete
            { t with host := { t.host with remote := t.host.remote.filter fun x => x.msgTag.toNat != msgTag m } }
            r.cid (BitVec.ofNat 16 (fieldAt e 0x2C 2)) (fieldAt e 0x30 8))))
        ∧ (t.host.remote.find? (fun r => r.msgTag.toNat == msgTag m) = none → exec (.remoteCpl m) s = .next (commit s t))))

/-- A doorbell of a function whose registers the host reaches, aligned, of a powered module, after the host's own stores. A
submission doorbell of the lower half of the function's window, or a credit doorbell of its upper half, for no queue of the
function, or before RUN, is dropped and counted in HOST_DBSTAT; so is one with a reserved bit. A submission doorbell of an ACTIVE
queue writes a changed TAIL within the ring, enters the coalescer with the at-time of R708 where it is timed, and puts the queue
into ERROR where TAIL lies outside the ring; an equal TAIL and a queue that is not ACTIVE change nothing. A credit doorbell
returns completion records and page entries up to what has been written, and a page that waits for an entry is posted; one that
returns more is dropped and counted. A doorbell that names the other half, and one of a function that the host does not reach,
changes nothing but host memory. -/
def Obligations.DoorbellsAreTaken : Prop :=
  (∀ (fn : FnId) (off : Nat) (v : W64) (w : List (Nat × Byte)) (s0 : State),
      ∃ s, s = { s0 with hostMem := w.foldl (fun m e => Tbl.put 0 m e.1 e.2) s0.hostMem }
      ∧ (noFn s fn.val = true ∨ s.pwr.powered = false ∨ off % 8 ≠ 0 →
        exec (.submissionDoorbell fn off v w) s0 = .next (commit s0 s) ∧ exec (.creditDoorbell fn off v w) s0 = .next (commit s0 s))
      ∧ (noFn s fn.val = false → s.pwr.powered = true → off % 8 = 0 →
        let dropped := regAddSat s ⟨.hostDbstat, fn.val, 0⟩ 16 16 1
        let x := doorbellQueue s fn.val off
        (x.2 = true → exec (.submissionDoorbell fn off v w) s0 = .next (commit s0 s))
        ∧ (x.2 = false → exec (.creditDoorbell fn off v w) s0 = .next (commit s0 s))
        ∧ (x.1 = none ∨ inRun s = false →
          (x.2 = false → exec (.submissionDoorbell fn off v w) s0 = .next (commit s0 dropped))
          ∧ (x.2 = true → exec (.creditDoorbell fn off v w) s0 = .next (commit s0 dropped)))
        ∧ (∀ q, x = (some q, false) → inRun s = true →
          let d := queueAt s q
          let tail := v.toNat % 2 ^ 20
          let timed := bitOf v.toNat 63
          exec (.submissionDoorbell fn off v w) s0 = .next (commit s0
            (if v.toNat / 2 ^ 20 % 16 ≠ 0 ∨ (timed = false ∧ v.toNat / 2 ^ 24 % 2 ^ 39 ≠ 0) then dropped
            else if d.st ≠ .active ∨ tail = d.tail then s
            else if 2 ^ d.ringLog ≤ tail then queueError s q stBadDescriptor
            else coalesce (modQueue s q fun d => { d with tail := tail }) fn.val q tail
              (if timed then some (doorTime s.now v.toNat) else none))))
        ∧ (∀ q, x = (some q, true) → inRun s = true →
          let d := queueAt s q
          let c := v.toNat % 2 ^ 20
          let p := v.toNat / 2 ^ 32 % 2 ^ 20
          let records := d.cplHead + (c + 2 ^ d.cplLog - d.cplHead % 2 ^ d.cplLog) % 2 ^ d.cplLog
          let pages := d.prHead + (p + 2 ^ d.prLog - d.prHead % 2 ^ d.prLog) % 2 ^ d.prLog
          exec (.creditDoorbell fn off v w) s0 = .next (commit s0
            (if v.toNat / 2 ^ 20 % 2 ^ 12 ≠ 0 ∨ v.toNat / 2 ^ 52 % 2 ^ 12 ≠ 0 ∨ 2 ^ d.cplLog ≤ c ∨ d.cplTail < records
                ∨ (d.pring ≠ 0 ∧ (2 ^ d.prLog ≤ p ∨ d.prTail + 2 ^ d.prLog ≤ pages)) then dropped
            else postPage (modQueue s q fun d =>
              { d with cplHead := records, prHead := if d.pring = 0 then d.prHead else pages }) q)))))
  ∧ (∀ (s : State) (fn off : Nat), off % 8 = 0 →
      (fn = 0 → off < 0x1000000 → doorbellQueue s fn off
        = (if (queueAt s (off % 0x800000 / 8)).fn = 0 ∧ (queueAt s (off % 0x800000 / 8)).st ≠ .free then some (off % 0x800000 / 8)
            else none, decide (0x800000 ≤ off)))
      ∧ (fn ≠ 0 → off < 0x100000 → doorbellQueue s fn off
        = (queueByVslot s fn (off % 0x80000 / 8), decide (0x80000 ≤ off))))
  ∧ (∀ (s : State) (fn q tail : Nat) (at_ : Option Nat), let h := s.host
      (h.coalescer.any (fun e => e.1 == q) = true → coalesce s fn q tail at_ = { s with host := { h with
        coalescer := h.coalescer.map fun e => if e.1 = q then (q, tail, at_, s.now) else e } })
      ∧ (h.coalescer.any (fun e => e.1 == q) = false → Tbl.get none h.bitmap q ≠ none → coalesce s fn q tail at_
        = { s with host := { h with bitmap := Tbl.put none h.bitmap q (some (tail, at_, s.now)) } })
      ∧ (h.coalescer.any (fun e => e.1 == q) = false → Tbl.get none h.bitmap q = none →
        (h.coalescer.length < 4096 → coalesce s fn q tail at_
          = { s with host := { h with coalescer := h.coalescer ++ [(q, tail, at_, s.now)] } })
        ∧ (4096 ≤ h.coalescer.length → coalesce s fn q tail at_ = regOr { s with host := { h with
          bitmap := Tbl.put none h.bitmap q (some (tail, at_, s.now)) } } ⟨.hostDbspill, fn, 0⟩ 0x80000000)))

/-- A fetch takes a queue that may be fetched, the oldest of the coalescer first, and reads at most 32 entries, no more than
there are free completion records; without one it changes nothing. The read's end appends its entries, each from its index in
the ring, and moves HEAD; its error or its timeout puts an ACTIVE queue into ERROR; without a read on its way nothing changes.
The entry at the front of a queue is admitted when its admission point has come, and stays until then; not before its at-time.
An entry whose NOT_AFTER has passed completes EXPIRED, then one with an unknown opcode or a reserved field BAD_DESCRIPTOR; one with
REMOTE is sent to its chip; a STEP_START whose deadline has passed under END is discarded and counted; another becomes a command
that waits for its execution. -/
def Obligations.EntriesAreFetchedAndAdmitted : Prop :=
  ((∀ s : State, nextFetch s = none → exec .queueFetch s = .next (commit s s))
    ∧ (∀ (s : State) (q tail arr : Nat) (at_ : Option Nat), nextFetch s = some (q, tail, at_, arr) →
      let ring := 2 ^ (queueAt s q).ringLog
      let want := (tail + ring - (queueAt s q).head % ring) % ring
      ∃ u, exec .queueFetch s = .next u ∧ u.tiles = s.tiles ∧ u.out = s.out ∧ (∀ p, p ≠ q → queueAt u p = queueAt s p)
        ∧ (0 < want → (queueAt u q).fetching = some (min (min want 32) (freeRecords s q), at_, arr))
        ∧ (want = 0 → queueAt u q = queueAt s q)
        ∧ (min (min want 32) (freeRecords s q) = want → (u.host.coalescer.any (fun e => e.1 == q)) = false))
    ∧ (∀ s e, nextFetch s = some e → fetchable s e = true ∧ (∀ c, s.host.coalescer.find? (fetchable s) = some c → e = c))
    ∧ (∀ (s : State) (q : Nat) (ok : Bool), (queueAt s q).fetching = none →
      exec (.entryFetchDone q ok) s = .next (commit s s) ∧ exec (.entryFetchTimeout q) s = .next (commit s s))
    ∧ (∀ (s : State) (q k arr : Nat) (at_ : Option Nat), let d := queueAt s q
      d.fetching = some (k, at_, arr) →
      exec (.entryFetchTimeout q) s = .next (commit s (queueError s q stHostStall))
      ∧ (d.st ≠ .active → ∀ ok, exec (.entryFetchDone q ok) s = .next (commit s s))
      ∧ (d.st = .active → exec (.entryFetchDone q false) s = .next (commit s (queueError s q stBadDescriptor))
        ∧ ∀ a bs t, readEntries s d k = (a, bs, t) →
          (a = .ok → exec (.entryFetchDone q true) s = .next (commit s (modQueue t q fun d =>
            { d with head := d.head + k, fetching := none, entries := d.entries ++ bs.map fun b => ⟨b, at_, arr⟩ })))
          ∧ (a = .wait → exec (.entryFetchDone q true) s = .next (commit s s))
          ∧ (a = .bounds ∨ a = .replay → exec (.entryFetchDone q true) s = .next (commit s (queueError t q stBadDescriptor)))
          ∧ (∀ st, a = .fail st → exec (.entryFetchDone q true) s = .next (commit s (queueError t q stTierFail)))))
    ∧ (∀ (s : State) (d : Queue) (k : Nat), bitOf d.flags 1 = false → readEntries s d k
        = (.ok, (List.range k).map fun i => bytesAt 0 s.hostMem (d.ring + 64 * ((d.head + i) % 2 ^ d.ringLog)) 64, s))
    ∧ (∀ (s : State) (q : Nat) (st : Status), ((queueAt s q).st ≠ .active → queueError s q st = s)
      ∧ ((queueAt s q).st = .active → (queueAt (queueError s q st) q).st = .error ∧ (queueAt (queueError s q st) q).lastErr = st
        ∧ (queueAt (queueError s q st) q).entries = [] ∧ (queueAt (queueError s q st) q).fetching = none)))
  ∧ ((∀ (s : State) (q : Nat), (queueAt s q).entries = [] → exec (.entryAdmit q) s = .next (commit s s))
    ∧ (∀ (s : State) (q : Nat) (e : Entry) (rest : List Entry), (queueAt s q).entries = e :: rest → exec (.entryAdmit q) s
        = .next (commit s (if admissible s q e = true then
            admitCmd (modQueue s q fun d => { d with entries := rest }) (cmdOf s q e) e.bytes else s)))
    ∧ (∀ (s : State) (q : Nat) (e : Entry) (t : Nat), entryAt e = some t → s.now < t → admissible s q e = false)
    ∧ (∀ (s : State) (c : Cmd) (b : Bytes),
      let t : State := { s with host := { s.host with cmds := s.host.cmds ++ [c], nextCid := s.host.nextCid + 1 } }
      (bitOf c.flags 1 = true → fieldAt b 0x10 8 < s.now → admitCmd s c b = complete t c.id stExpired)
      ∧ (bitOf c.flags 1 = false ∨ s.now ≤ fieldAt b 0x10 8 →
        (entryOk b = false ∨ knownOpcodes.contains c.opcode = false → admitCmd s c b = complete t c.id stBadDescriptor)
        ∧ (entryOk b = true → knownOpcodes.contains c.opcode = true →
          (bitOf c.flags 4 = true → c.origin = none → admitCmd s c b = sendRemote t c b)
          ∧ (bitOf c.flags 4 = true → c.origin ≠ none → admitCmd s c b = complete t c.id stBadDescriptor)
          ∧ (bitOf c.flags 4 = false → c.opcode ≠ 0x120 → admitCmd s c b = t)
          ∧ (bitOf c.flags 4 = false → c.opcode = 0x120 → ∀ a pay u, payloadOf t c = (a, pay, u) →
            (a = .ok → admitCmd s c b = (if deadlineGone u pay = true then
              regAddSat (complete u c.id stExpired) ⟨.dlmCnt, 0, fieldAt pay 0 1⟩ 32 16 1 else u))
            ∧ (a ≠ .ok → admitCmd s c b = t)))))
    ∧ (∀ (s : State) (pay : Bytes), deadlineGone s pay = true ↔ ∃ m, (partAt s (fieldAt pay 0 1)).dlm = some m ∧ m.end_ = true
        ∧ fieldAt pay 0x18 8 ≠ 0 ∧ fieldAt pay 0x18 8 < s.now))

/-- Interrupts: an event of a vector that is masked makes it pending, one within its holdoff is noted; any other sends the message,
and a holdoff begins where the function asks for one. Unmasking a masked vector signals what was pending, the holdoff's end what
was noted, each once; else the two commands change nothing.
HOST_OUT of a newt that calls it, or waits in it: a call outside R718 ends the step BAD_DESCRIPTOR; the first caller of a queue
appends its bytes to the holdback page and, once all are appended, returns to g31 and leaves the callers; it waits while a
complete page waits for an entry, and a later caller waits for it; an access that fails stops the step.
A complete page that has waited for HOST_TMO (10 ms where it is 0) without an armed entry sets the queue's stall, with its
fault record, and on a queue with the deadline flag stops the steps whose deadline has passed; before that, or with an armed entry,
nothing happens. -/
def Obligations.InterruptsAndOutputPages : Prop :=
  ((∀ (s : State) (fn v : Nat),
      ((msixAt s fn v).masked = true → signalVec s fn v = modMsix s fn v fun m => { m with pending := true })
      ∧ ((msixAt s fn v).masked = false → (msixAt s fn v).holdoff = true →
        signalVec s fn v = modMsix s fn v fun m => { m with noted := true })
      ∧ ((msixAt s fn v).masked = false → (msixAt s fn v).holdoff = false →
        (regFld s ⟨.hostFnctrl, fn, 0⟩ 16 16 = 0 → signalVec s fn v = { s with out := s.out ++ [.msix fn v] })
        ∧ (regFld s ⟨.hostFnctrl, fn, 0⟩ 16 16 ≠ 0 → signalVec s fn v
          = modMsix { s with out := s.out ++ [.msix fn v] } fn v fun m => { m with holdoff := true })))
    ∧ (∀ (s : State) (fn : FnId) (v : Nat),
      let unmasked := modMsix s fn.val v fun m => { m with masked := false, pending := false }
      let ended := modMsix s fn.val v fun m => { m with holdoff := false, noted := false }
      exec (.msixVectorUnmask fn v) s = .next (commit s
        (if (msixAt s fn.val v).masked = false then s
        else if (msixAt s fn.val v).pending = true then signalVec unmasked fn.val v else unmasked))
      ∧ exec (.msixHoldoffEnd fn v) s = .next (commit s
        (if (msixAt s fn.val v).holdoff = false then s
        else if (msixAt s fn.val v).noted = true then signalVec ended fn.val v else ended))))
  ∧ (∀ (s : State) (t : TileId),
      let l := liveTile s t.toNat
      let x := newtOf s t
      let calls : Prop := x.pc = 16 ∧ (x.st = .running ∨ (x.st = .waiting ∧ x.wait = .host))
      (x.part = none ∨ ¬ calls → exec (.hostOut t) s = .next (commit s s))
      ∧ (∀ p : PartId, x.part = some p → calls →
        let q := (gReg x 4).toNat
        let n := (gReg x 6).toNat
        let wrong : Prop := (queueAt s q).st = .free ∨ (queueAt s q).part ≠ p.val ∨ (queueAt s q).pring = 0 ∨ n = 0 ∨ 16777216 < n
          ∨ canRead s (.step p.val) (gReg x 5).toNat n = false
        let others := (liveCallers s q).filter fun c => c != toTile l
        let cs := if (liveCallers s q).contains (toTile l) then liveCallers s q else others ++ [toTile l]
        let s1 := modQueue s q fun d => { d with callers := cs }
        let waits (s : State) : State := modTile s l fun x => { x with st := .waiting, wait := .host, waitSince := s.now }
        (wrong → exec (.hostOut t) s = .next (commit s (failStep s p.val stBadDescriptor)))
        ∧ (¬ wrong → cs.head? ≠ some (toTile l) → exec (.hostOut t) s = .next (commit s (waits s1)))
        ∧ (¬ wrong → cs.head? = some (toTile l) → ∀ a m s2,
          appendAll (n / 4096 + 2) s1 q p.val ((gReg x 5).toNat + x.hostDone) (n - x.hostDone) (bitOf (gReg x 7).toNat 0) = (a, m, s2) →
          (a = .ok → x.hostDone + m = n → exec (.hostOut t) s = .next (commit s
            (modTile (modQueue s2 q fun d => { d with callers := d.callers.filter fun c => c != toTile l }) l
              fun x => { libReturn x with hostDone := 0 })))
          ∧ (a = .ok → x.hostDone + m ≠ n →
            exec (.hostOut t) s = .next (commit s (waits (modTile s2 l fun y => { y with hostDone := x.hostDone + m }))))
          ∧ (a = .wait → exec (.hostOut t) s = .next (commit s (modTile s2 l fun y => { y with hostDone := x.hostDone + m })))
          ∧ (a ≠ .ok → a ≠ .wait → exec (.hostOut t) s = .next (commit s (accStop s2 p.val a))))))
  ∧ (∀ (s : State) (q : Nat),
      ((queueAt s q).holdFull = none → exec (.hostTmoExpiry q) s = .next (commit s s))
      ∧ (∀ (since : Nat) (last : Bool), (queueAt s q).holdFull = some (last, since) →
        let due := since + (if (queueAt s q).hostTmo = 0 then 10 else (queueAt s q).hostTmo) * 1000000
        let t := queueFault (modQueue s q fun d => { d with hostStall := true }) q stHostStall
        ((queueAt s q).hostStall = true ∨ s.now < due ∨ (queueAt s q).prTail < (queueAt s q).prHead →
          exec (.hostTmoExpiry q) s = .next (commit s s))
        ∧ ((queueAt s q).hostStall = false → due ≤ s.now → (queueAt s q).prHead ≤ (queueAt s q).prTail →
          (bitOf (queueAt s q).flags 0 = false → exec (.hostTmoExpiry q) s = .next (commit s t))
          ∧ (bitOf (queueAt s q).flags 0 = true → exec (.hostTmoExpiry q) s = .next (commit s
            (forEach (List.range 16) t fun s p => if stepQueue s p = some q then stallStop s p else s))))))

/-- A function-level reset in RUN leaves every queue of the function FREE, its vectors and its host registers at reset and no
access of its aperture held, and where it had no queue changes no partition and sends nothing; outside RUN it does nothing. D3hot
withholds the records of its queues and the return to D0 writes them; ADMQ_EN set creates the admin queue from HOST_ADMQ where the
descriptor is within R694, before RUN once RUN is reached, and cleared deletes it; HOST_EVTHEAD returns records of the event ring up
to what has been written.
BAR4 through the aperture, behind the accesses that are held: an access outside the BAR, of a function the host does not
reach or before RUN has no effect, of a VF without a partition an Unsupported Request. A read answers the bytes at aperture base
plus offset, the PF's of the queue region the queues' fields; a failed one is poisoned and reported, one outside memory an
Unsupported Request; one that must wait is held. A write stores its bytes; one to a CLEAN region is reported, to the queue region it
has no effect, outside memory an Unsupported Request; one that must wait is held.
On the grandmaster the first measurement of the host's time sets fabric time to it and later ones slew it by at most 100 ppm;
on another module fabric time stays and every function's HOST_PTMOFF reports the offset within 40 ns; outside RUN nothing happens. -/
def Obligations.FunctionsApertureAndHostTime : Prop :=
  ((∀ (s : State) (fn : FnId), (inRun s = false → exec (.functionLevelReset fn) s = .next (commit s s))
      ∧ (inRun s = true → ∃ u, exec (.functionLevelReset fn) s = .next u ∧ (∀ q ∈ fnQueues s fn.val, queueAt u q = {})
        ∧ (∀ n ∈ [RegName.hostFnctrl, .hostEvtbase, .hostEvtstat, .hostDbstat, .hostDbspill, .hostApbase, .queSel],
          regGet u ⟨n, fn.val, 0⟩ = n.info.reset)
        ∧ (∀ v < 4096, msixAt u fn.val v = {}) ∧ (∀ x ∈ u.host.barHeld, x.fn ≠ fn)
        ∧ Tbl.get false u.host.d3hot fn.val = false
        ∧ (fnQueues s fn.val = [] → u.parts = s.parts ∧ u.out = s.out)))
    ∧ (∀ (s : State) (fn : FnId),
      exec (.d3hotEntry fn) s = .next (commit s (if noFn s fn.val = true then s
        else { s with host := { s.host with d3hot := Tbl.put false s.host.d3hot fn.val true } }))
      ∧ exec (.d0Return fn) s = .next (commit s (if Tbl.get false s.host.d3hot fn.val = false then s
        else forEach (fnQueues s fn.val) { s with host := { s.host with d3hot := Tbl.put false s.host.d3hot fn.val false } } flushWithheld)))
    ∧ (∀ (s : State) (fn : FnId), let d := admqOf s fn.val
      let on := regBit s ⟨.hostFnctrl, fn.val, 0⟩ 0
      (noFn s fn.val = true ∨ s.pwr.powered = false ∨ on = true → exec (.admqEnable fn) s = .next (commit s s))
      ∧ (noFn s fn.val = false → s.pwr.powered = true → on = false →
        (inRun s = false → exec (.admqEnable fn) s = .next (commit s { s with host := { s.host with
          admqWanted := s.host.admqWanted.filter (· != fn.val) ++ [fn.val] } }))
        ∧ (inRun s = true → exec (.admqEnable fn) s = .next (commit s
          (if d.fn = fn.val ∧ queueOk s d = true ∧ (queueAt s fn.val).st = .free ∧ (fn.val = 0 ∨ queueByVslot s fn.val d.vslot = none) then
            modQueue (regOr s ⟨.hostFnctrl, fn.val, 0⟩ 1) fn.val fun _ => d else s))))
      ∧ (noFn s fn.val = true ∨ on = false → exec (.admqDisable fn) s = .next (commit s s))
      ∧ (noFn s fn.val = false → on = true → exec (.admqDisable fn) s = .next (commit s
        (if (queueAt s fn.val).st = .active ∨ (queueAt s fn.val).st = .error then
          drainBegin (regPut s ⟨.hostFnctrl, fn.val, 0⟩ 0 1 0) fn.val none stAborted
        else regPut s ⟨.hostFnctrl, fn.val, 0⟩ 0 1 0))))
    ∧ (∀ (s : State) (fn : FnId) (v : W32),
      let n := 2 ^ regFld s ⟨.hostEvtbase, fn.val, 0⟩ 0 5
      let h := Tbl.get 0 s.host.evtHead fn.val
      let g := h + (v.toNat % n + n - h % n) % n
      (noFn s fn.val = true ∨ Tbl.get 0 s.host.evtWritten fn.val < g → exec (.hostEvtheadWrite fn v) s = .next (commit s s))
      ∧ (noFn s fn.val = false → g ≤ Tbl.get 0 s.host.evtWritten fn.val → exec (.hostEvtheadWrite fn v) s
        = .next (commit s { s with host := { s.host with evtHead := Tbl.put 0 s.host.evtHead fn.val g } }))))
  ∧ ((∀ (s : State) (fn : FnId) (off len : Nat) (b : Bytes), s.host.barHeld ≠ [] →
      exec (.bar4Read fn off len) s = .next (commit s { s with host := { s.host with
        barHeld := s.host.barHeld ++ [{ fn := fn, off := off, len := len, data := none }] } })
      ∧ exec (.bar4Write fn off b) s = .next (commit s { s with host := { s.host with
        barHeld := s.host.barHeld ++ [{ fn := fn, off := off, len := b.length, data := some b }] } }))
    ∧ (∀ (s : State) (fn : FnId) (off len : Nat) (b : Bytes), s.host.barHeld = [] →
      (bar4Addr s fn.val off len = none → exec (.bar4Read fn off len) s = .next (commit s s))
      ∧ (bar4Addr s fn.val off b.length = none → exec (.bar4Write fn off b) s = .next (commit s s))
      ∧ (∀ a, bar4Addr s fn.val off len = some a →
        (fnWho s fn.val = none → exec (.bar4Read fn off len) s = .next (commit s (emit s .bar4Unsupported)))
        ∧ (∀ w, fnWho s fn.val = some w →
          (w = .host none → 0x1016560BC000 ≤ a → a + len ≤ 0x10165A0BC000 → exec (.bar4Read fn off len) s
            = .next (commit s (emit s (.bar4Data ((span a len).map (queueRegionByte s))))))
          ∧ (w ≠ .host none ∨ a < 0x1016560BC000 ∨ 0x10165A0BC000 < a + len → ∀ x d t, readMem s w a len = (x, d, t) →
            (x = .ok → exec (.bar4Read fn off len) s = .next (commit s (emit t (.bar4Data d))))
            ∧ (∀ st, x = .fail st → exec (.bar4Read fn off len) s = .next (commit s (emit (emit t .bar4Poisoned) .aer)))
            ∧ (x = .bounds ∨ x = .replay → exec (.bar4Read fn off len) s = .next (commit s (emit t .bar4Unsupported)))
            ∧ (x = .wait → ∃ u, u = stillWaits s t ∧ exec (.bar4Read fn off len) s = .next (commit s { u with host := { u.host with
              barHeld := [{ fn := fn, off := off, len := len, data := none }] } })))))
      ∧ (∀ a, bar4Addr s fn.val off b.length = some a →
        (fnWho s fn.val = none → exec (.bar4Write fn off b) s = .next (commit s (emit s .bar4Unsupported)))
        ∧ (∀ w, fnWho s fn.val = some w →
          let toQueues : Bool := decide (w = .host none) && inQueueRegion a b.length
          (toQueues = true → exec (.bar4Write fn off b) s = .next (commit s s))
          ∧ (toQueues = false → writesClean s w a b.length = true → exec (.bar4Write fn off b) s = .next (commit s (emit s .aer)))
          ∧ (toQueues = false → writesClean s w a b.length = false → ∀ x t, writeMem s w a b = (x, t) →
            (x = .bounds → exec (.bar4Write fn off b) s = .next (commit s (emit t .bar4Unsupported)))
            ∧ (x = .wait → ∃ u, u = stillWaits s t ∧ exec (.bar4Write fn off b) s = .next (commit s { u with host := { u.host with
              barHeld := [{ fn := fn, off := off, len := b.length, data := some b }] } }))
            ∧ (x ≠ .bounds → x ≠ .wait → exec (.bar4Write fn off b) s = .next (commit s t))))))
    ∧ (∀ (s : State) (fn off len : Nat),
      bar4Addr s fn off len = (if noFn s fn = true ∨ inRun s = false ∨ (if fn = 0 then 64 * 2 ^ 30 else 4 * 2 ^ 30) < off + len then none
        else some (regFld s ⟨.hostApbase, fn, 0⟩ 30 18 * 2 ^ 30 + off))))
  ∧ (∀ (s : State) (h : Nat),
      (noFn s 0 = true ∨ inRun s = false → exec (.ptmMeasure h) s = .next (commit s s))
      ∧ (noFn s 0 = false → inRun s = true →
        (s.fab.gm = true → s.host.ptmLocked = false → exec (.ptmMeasure h) s
          = .next (commit s (lockStep { s with host := { s.host with ptmLocked := true } } h)) ∧ (lockStep s h).now = h)
        ∧ (s.fab.gm = true → s.host.ptmLocked = true → ∃ m : Int, 0 ≤ m ∧ m ≤ 100 ∧ exec (.ptmMeasure h) s
          = .next (commit s { s with fresh := s.fresh + 1, fab := { s.fab with
              slew := if h < s.now then -m else if h = s.now then 0 else m } }))
        ∧ (s.fab.gm = false → ∃ u e, exec (.ptmMeasure h) s = .next u ∧ u.now = s.now ∧ (-40 : Int) ≤ e ∧ e ≤ 40
          ∧ ∀ fn < 17, regGet u ⟨.hostPtmoff, fn, 0⟩ = (((s.now : Int) - h + e) % 2 ^ 64).toNat)))

/-! ### Registers and pins -/

/-- What a write leaves in each bit of a register: an RW bit takes the value written; a W1C bit is cleared by a 1 unless
hardware sets it at that moment; every other bit stays; no bit is both.
A write through BAR0 is aligned to its width, by a function that the host reaches and that is in D0; any other has no effect. A
32-bit write at a 32-bit register that the function reaches acts on it, at a word of an array of 64-bit words writes that word,
and has no effect at a wider register or where there is none; a 64-bit write acts on a 64-bit register, and else as two 32-bit
writes, the lower first. Acting on a register whose write does nothing but set its fields leaves what its bits become. -/
def Obligations.RegisterWritesActByTheirBits : Prop :=
  (∀ (n : RegName) (old v hw i : Nat), i < 64 →
      (n.info.rw.testBit i = true → n.info.w1c.testBit i = false ∧ (regWritten n.info old v hw).testBit i = v.testBit i)
      ∧ (n.info.w1c.testBit i = true →
        (regWritten n.info old v hw).testBit i = ((old.testBit i && !v.testBit i) || hw.testBit i))
      ∧ (n.info.rw.testBit i = false → n.info.w1c.testBit i = false → (regWritten n.info old v hw).testBit i = old.testBit i))
  ∧ (∀ (s : State) (fn : FnId) (off : Nat) (v hw : W64),
      let open_ : Prop := noFn s fn.val = false ∧ Tbl.get false s.host.d3hot fn.val = false
      (¬ open_ → ∀ wide, exec (.registerWrite fn off wide v hw) s = .next (commit s s))
      ∧ (bar0Window fn.val off = none → ∀ wide, exec (.registerWrite fn off wide v hw) s = .next (commit s s))
      ∧ (off % 4 ≠ 0 → exec (.registerWrite fn off false v hw) s = .next (commit s s))
      ∧ (off % 8 ≠ 0 → exec (.registerWrite fn off true v hw) s = .next (commit s s))
      ∧ (∀ die o, open_ → bar0Window fn.val off = some (die, o) →
        (o % 4 = 0 → exec (.registerWrite fn off false v hw) s
          = .next (commit s (writeWord s fn.val die o (v.toNat % 2 ^ 32) (hw.toNat % 2 ^ 32))))
        ∧ (o % 8 = 0 → exec (.registerWrite fn off true v hw) s = .next (commit s (writeWide s fn.val die o v.toNat hw.toNat)))))
  ∧ (∀ (fn off : Nat), (fn = 0 → off < 0x4000000 → bar0Window fn off = some (off / 0x800000, off % 0x800000))
      ∧ (fn ≠ 0 → off < 0x10000 → bar0Window fn off = some (0, 0x100000 + 0x10000 * fn + off))
      ∧ ((fn = 0 ∧ 0x4000000 ≤ off) ∨ (fn ≠ 0 ∧ 0x10000 ≤ off) → bar0Window fn off = none))
  ∧ (∀ (s : State) (fn die o v hw : Nat),
      (regAt die o = none → writeWord s fn die o v hw = s)
      ∧ (∀ r x, regAt die o = some (r, x) →
        (reaches s fn r = false → writeWord s fn die o v hw = s)
        ∧ (reaches s fn r = true →
          (r.name.info.bits = 32 → writeWord s fn die o v hw = regAct s r v hw)
          ∧ (r.name.info.bits ≠ 32 → isArray r.name = true →
            writeWord s fn die o v hw = regAct s r (putBits (arrayOld s r) (8 * x) 32 v) 0)
          ∧ (r.name.info.bits ≠ 32 → isArray r.name = false → writeWord s fn die o v hw = s))
        ∧ (x = 0 → r.name.info.bits = 64 → writeWide s fn die o v hw = if reaches s fn r = true then regAct s r v hw else s))
      ∧ ((∀ r, regAt die o = some (r, 0) → r.name.info.bits ≠ 64) → writeWide s fn die o v hw
        = writeWord (writeWord s fn die o (v % 2 ^ 32) (hw % 2 ^ 32)) fn die (o + 4) (v / 2 ^ 32) (hw / 2 ^ 32)))
  ∧ (∀ (s : State) (r : Reg) (v hw : Nat), islandOf r = none →
      r.name ∉ [RegName.strErrlog, .codecErrlog, .ingPipeerr, .strScrub, .t1cCtrl, .t2cCtrl, .collStall1, .pwrVreq, .pwrStat, .pwrLimit,
        .bootRoff, .bootRwin, .bootRcmd, .clspCtrl, .lnkCtrl, .hostFnctrl, .hostEvthead, .hostAdmq] →
      regAct s r v hw = regSet s r (regWritten r.name.info (regGet s r) v (hw &&& r.name.info.w1c)))
  ∧ (∀ (s : State) (r : Reg) (v : Nat), v < 2 ^ 64 → regGet (regSet s r v) r = v)

/-- CLSP_HOLD# low: a powered module closes the clasps, with a fault record, and in the pause of an activation ends the pause; an
unpowered one only notes the pin. Its release opens nothing. The coolant flags of a powered module are set by their two
conditions, each with its record, and by nothing else: LOW_FLOW where the outlet is more than 25 °C above the inlet at more than
1,000 W, HOT_INLET where the inlet is above 40 °C. -/
def Obligations.PinsAndCoolantFlags : Prop :=
  (∀ s : State,
    let u := closeAll (faultReg { s with clspHold := true } 0xFF ⟨.clspStat, 0, 0⟩)
    (s.pwr.powered = true → u.boot.phase ≠ .pause → exec .clspHoldAssert s = .next (commit s u))
    ∧ (s.pwr.powered = true → u.boot.phase = .pause → exec .clspHoldAssert s
      = .next (commit s { u with boot := { u.boot with phase := .run, actPaused := true } }))
    ∧ u.boot.phase = s.boot.phase ∧ u.clspHold = true ∧ u.fab.clasps = 0
    ∧ (s.pwr.powered = false → exec .clspHoldAssert s = .next (commit s { s with clspHold := true })))
  ∧ (∀ s : State, exec .clspHoldRelease s = .next (commit s { s with clspHold := false }))
  ∧ (∀ s : State,
    let outlet := signedOf 16 (regFld s ⟨.telCoolant, 0, 0⟩ 32 16)
    let inlet := signedOf 16 (regFld s ⟨.telCoolant, 0, 0⟩ 48 16)
    let mw := regFld s ⟨.pwrStat, 0, 0⟩ 32 32
    (s.pwr.powered = true → 2500 < outlet - inlet → 1000000 < mw →
      exec .lowFlow s = .next (commit s (faultReg (regPut s ⟨.telCoolant, 0, 0⟩ 0 1 1) 0xFF ⟨.telCoolant, 0, 0⟩)))
    ∧ (s.pwr.powered = false ∨ outlet - inlet ≤ 2500 ∨ mw ≤ 1000000 → exec .lowFlow s = .next (commit s s))
    ∧ (s.pwr.powered = true → 4000 < inlet →
      exec .hotInlet s = .next (commit s (faultReg (regPut s ⟨.telCoolant, 0, 0⟩ 1 1 1) 0xFF ⟨.telCoolant, 0, 0⟩)))
    ∧ (s.pwr.powered = false ∨ inlet ≤ 4000 → exec .hotInlet s = .next (commit s s)))

/-! ### Partitions, programs, steps, deadlines, accounting -/

/-- PART_CREATE of the PF makes the partition of its descriptor, IDLE, with the tiles of its bitmap, whose strata are zeros, and its
epoch one on; a tile or engine of another partition refuses it NO_RESOURCE; an existing partition, a field outside its range
and a tile that is not active BAD_DESCRIPTOR. PART_MODIFY of the PF, once the partition is at rest, applies the sets given in full;
it may not take a reserve tile or shape tile away; sets that change nothing leave the partition as it is. PART_DELETE of the PF
deletes the partition's queues, closes its pipelines and streams, advances its epoch, strips it of tiles, regions, stores and keys
and leaves it DELETING; the zero fill then ends it and completes the command. A fill with nothing to fill changes nothing. -/
def Obligations.PartitionsAreCreatedModifiedAndDeleted : Prop :=
  (∀ (s : State) (cid : Nat) (c : Cmd), cmdFor s cid 0x0100 = some c → exec (.partCreate cid) s = .next (commit s
      (withPayload (beginCmd s cid) c 32 fun t b =>
        let p := fieldAt b 0 1
        let dies := fieldAt b 2 1
        if c.fn ≠ 0 ∨ partFields b = false ∨ (partAt t p).st ≠ .none then complete t cid stBadDescriptor
        else match readBitmap t c.who (fieldAt b 8 8) with
          | (.error a, t) => endBy s t cid a
          | (.ok ts, t) =>
            if namesActive t ts = false then complete t cid stBadDescriptor
            else if partClash t p ts dies = true then complete t cid stNoResource
            else complete (setPartState (advanceEpoch (forEach ts (modPart t p fun q =>
              { epoch := q.epoch, serving := fieldAt b 1 1 == 1, dies := BitVec.ofNat 8 dies, tiles := ts.map toTile
                waiting := q.waiting }) fun s t => joinTile s p t) p) p .idle) cid stOk)))
  ∧ (∀ (s : State) (cid : Nat) (c : Cmd), cmdFor s cid 0x0101 = some c → atRest s c (cmdPart s c) = true →
      exec (.partModify cid) s = .next (commit s (withPayload (beginCmd s cid) c 32 fun t b =>
        let p := fieldAt b 0 1
        if c.fn ≠ 0 ∨ partFields b = false ∨ partLives t p = false then complete t cid stBadDescriptor
        else match readBitmap t c.who (fieldAt b 8 8) with
          | (.error a, t) => endBy s t cid a
          | (.ok ts, t) =>
            if namesActive t ts = false ∨ (∃ k ∈ reserveOf t p ++ shapeTiles t p, k.toNat ∉ ts) then complete t cid stBadDescriptor
            else if partClash t p ts (fieldAt b 2 1) = true then complete t cid stNoResource
            else complete (applyModify t p b ts) cid stOk)))
  ∧ (∀ (s : State) (p : Nat) (b : Bytes) (ts : List Nat),
      let q := partAt s p
      ((∀ t ∈ partTiles s p, t ∈ ts) → (∀ t ∈ ts, t ∈ partTiles s p) → q.dies = BitVec.ofNat 8 (fieldAt b 2 1) →
        q.serving = (fieldAt b 1 1 == 1) → applyModify s p b ts = s)
      ∧ ((∃ t ∈ partTiles s p, t ∉ ts) ∨ (∃ t ∈ ts, t ∉ partTiles s p) ∨ q.dies ≠ BitVec.ofNat 8 (fieldAt b 2 1)
          ∨ q.serving ≠ (fieldAt b 1 1 == 1) →
        ∃ u, applyModify s p b ts = advanceEpoch u p ∧ (partAt u p).tiles = ts.map toTile
          ∧ (partAt u p).dies = BitVec.ofNat 8 (fieldAt b 2 1) ∧ (partAt u p).serving = (fieldAt b 1 1 == 1)
          ∧ (partAt u p).epoch = q.epoch))
  ∧ (∀ (s : State) (cid : Nat) (c : Cmd), cmdFor s cid 0x0102 = some c → atRest s c (c.byte 0) = true →
      let p := c.byte 0
      let s1 := closeStreams (closePipes (deleteQueues (setPartState (beginCmd s cid) p .deleting) p cid) p) p
      exec (.partDelete cid) s = .next (commit s
        (if c.fn = 0 ∧ p < 16 ∧ partLives s p = true then
          modPart (endHeldTakes (stripPart (advanceEpoch (loseEncodes s1 (partDies s1 p)) p) p) p) p fun q => { q with deleteCid := some cid }
        else complete (beginCmd s cid) cid stBadDescriptor)))
  ∧ (∀ (s : State) (p : PartId),
      (∀ cid, (partAt s p.val).st = .deleting → (partAt s p.val).deleteCid = some cid →
        exec (.tierZeroFillDone p) s = .next (commit s (complete (setPartState
          (modPart (fillAll s) p.val fun q => { epoch := q.epoch, st := q.st, waiting := q.waiting }) p.val .none) cid stOk)))
      ∧ ((partAt s p.val).st ≠ .deleting ∨ (partAt s p.val).deleteCid = none →
        (s.tier.unfilled = [] ∨ (∃ r < 16, (partAt s r).st = .deleting) → exec (.tierZeroFillDone p) s = .next (commit s s))
        ∧ (s.tier.unfilled ≠ [] → (∀ r < 16, (partAt s r).st ≠ .deleting) →
          exec (.tierZeroFillDone p) s = .next (commit s (fillAll s)))))
  ∧ (∀ (s : State), (fillAll s).tier.unfilled = []
      ∧ ∀ u ∈ s.tier.unfilled, ∀ a, u.1 ≤ a → a < u.1 + u.2 → Tbl.get 0 (fillAll s).mem a = 0)

/-- The epoch of a partition advances by one and stands at once in every tile of it, whose newts are EMPTY with no image. -/
def Obligations.EpochReachesEveryTileOfThePartition : Prop :=
  ∀ (s : State) (p : Nat), (partAt (advanceEpoch s p) p).epoch = (partAt s p).epoch + 1
    ∧ (partAt (advanceEpoch s p) p).tiles = (partAt s p).tiles
    ∧ (∀ q, q ≠ p → partAt (advanceEpoch s p) q = partAt s q)
    ∧ (∀ t ∈ partTiles s p, (tileAt (advanceEpoch s p) (liveTile s t)).epoch = (partAt s p).epoch + 1
        ∧ ((tileAt s (liveTile s t)).st ≠ .retired →
          (tileAt (advanceEpoch s p) (liveTile s t)).st = .empty ∧ (tileAt (advanceEpoch s p) (liveTile s t)).image = none))

/-- PROG_LOAD of an IDLE partition, once it is at rest, loads a valid image into every tile of its group; a group tile that is not
EMPTY or READY or of another partition, an image that R161 refuses, or a field outside its range completes it BAD_DESCRIPTOR,
a bitmap or an image that cannot be read with why. A loaded tile is READY with the image's words from address 2048 on.
STEP_START with a valid descriptor joins the steps that wait, in order; one outside the ranges, or whose group is none, completes
BAD_DESCRIPTOR; one behind an earlier command that will change its partition stays.
The first that waits begins in RUN once no step runs and its partition is at rest: a READY group of one image starts with its
arguments; a group that is not READY, or one no longer valid, completes it BAD_DESCRIPTOR. Each member starts at its image's entry
with g1, g2 and g3 of R163 and every other register 0; it is RUNNING, or HELD while dispatch is held or its start is staggered. -/
def Obligations.ProgramsAreLoadedAndStepsBegin : Prop :=
  ((∀ (s : State) (cid : Nat) (c : Cmd), cmdFor s cid 0x0110 = some c → atRest s c (cmdPart s c) = true →
      exec (.progLoad cid) s = .next (commit s (withPayload (beginCmd s cid) c 32 fun t b =>
        let p := fieldAt b 0 1
        let len := fieldAt b 0x18 4
        if 16 ≤ p ∨ zeroAt b 1 7 = false ∨ zeroAt b 0x1C 4 = false ∨ c.may p = false ∨ (partAt t p).st ≠ .idle ∨ 98304 < len then
          complete t cid stBadDescriptor
        else match groupTiles t (.host (some p)) (fieldAt b 8 8) (partAt t p).tiles with
          | (.error a, t) => endBy s t cid a
          | (.ok g, t) =>
            if g.all (fun x => (partAt t p).tiles.contains x && loadable t x) = false then complete t cid stBadDescriptor
            else match readMem t (.host (some p)) (fieldAt b 0x10 8) len with
              | (.ok, img, t) =>
                if imgOk t.boot.libVersion img = true ∧ img.length = imgSize img then
                  complete (tierNotice t (forEach g t fun s x => loadTile s (liveTile s x.toNat) p img) p) cid stOk
                else complete t cid stBadDescriptor
              | (a, _, t) => endBy s t cid a)))
    ∧ (∀ (s : State) (x : TileId), loadable s x = true
        ↔ (tileAt s (liveTile s x.toNat)).st = .empty ∨ (tileAt s (liveTile s x.toNat)).st = .ready)
    ∧ (∀ (s : State) (t p : Nat) (img : Bytes), imgWords img ≤ 14336 →
      (tileAt (loadTile s t p img) t).st = .ready ∧ (tileAt (loadTile s t p img) t).epoch = (partAt s p).epoch
      ∧ (∀ i, i < imgWords img → 32 + 4 * imgWords img ≤ img.length →
        Tbl.get 0 (tileAt (loadTile s t p img) t).imem (2048 + i) = BitVec.ofNat 32 (fieldAt img (32 + 4 * i) 4))
      ∧ (∀ u, u ≠ t → tileAt (loadTile s t p img) u = tileAt s u)))
  ∧ ((∀ (s : State) (cid : Nat) (c : Cmd) (a : Acc) (b : Bytes) (t : State), cmdFor s cid 0x0120 = some c → payloadOf s c = (a, b, t) →
      let p := fieldAt b 0 1
      (a = .wait → exec (.stepStart cid) s = .next (commit s s))
      ∧ (a ≠ .wait → a ≠ .ok → exec (.stepStart cid) s = .next (commit s (complete t cid (accStatus a))))
      ∧ (a = .ok →
        ((partAt s p).waiting.contains cid = true → exec (.stepStart cid) s = .next (commit s s))
        ∧ ((partAt s p).waiting.contains cid = false →
          (b.length < 48 ∨ stepFields b = false ∨ c.may p = false →
            exec (.stepStart cid) s = .next (commit s (complete s cid stBadDescriptor)))
          ∧ (48 ≤ b.length → stepFields b = true → c.may p = true →
            (partPending s c p = true → exec (.stepStart cid) s = .next (commit s s))
            ∧ (partPending s c p = false →
              (((partAt s p).st ≠ .idle ∧ (partAt s p).st ≠ .running) ∨ stepDeadlineOk s c b = false →
                exec (.stepStart cid) s = .next (commit s (complete s cid stBadDescriptor)))
              ∧ ((partAt s p).st = .idle ∨ (partAt s p).st = .running → stepDeadlineOk s c b = true →
                (∀ e, (stepGroup s b).1 = .error e → exec (.stepStart cid) s
                  = .next (commit s (if e = .wait then s else complete s cid (accStatus e))))
                ∧ (∀ g, (stepGroup s b).1 = .ok g → exec (.stepStart cid) s = .next (commit s
                  (modPart (modCmd s cid fun c => { c with payBytes := some b }) p
                    fun q => { q with waiting := q.waiting ++ [cid] })))))))))
    ∧ (∀ (s t : State) (b : Bytes) (g : List TileId), stepGroup s b = (.ok g, t) →
      g ≠ [] ∧ ∀ x ∈ g, x ∈ (partAt t (fieldAt b 0 1)).tiles ∧ x ∉ reserveOf t (fieldAt b 0 1) ∧ x ∉ shapeTiles t (fieldAt b 0 1))
    ∧ (∀ (s : State) (p : PartId), ((partAt s p.val).waiting = [] → exec (.stepBegin p) s = .next (commit s s))
      ∧ (∀ cid rest, (partAt s p.val).waiting = cid :: rest →
        let leaves (t : State) (st : Status) : State :=
          modPart (complete t cid st) p.val fun q => { q with waiting := q.waiting.filter (· != cid) }
        (cmdAt s cid = none → exec (.stepBegin p) s
          = .next (commit s (modPart s p.val fun q => { q with waiting := q.waiting.filter (· != cid) })))
        ∧ (∀ c, cmdAt s cid = some c →
          ((partAt s p.val).run ≠ none ∨ s.boot.phase ≠ .run ∨ atRest s c p.val = false →
            exec (.stepBegin p) s = .next (commit s s))
          ∧ ((partAt s p.val).run = none → s.boot.phase = .run → atRest s c p.val = true → ∀ b, b = c.payBytes.getD [] →
            ((partAt s p.val).st ≠ .idle ∨ stepDeadlineOk s c b = false →
              exec (.stepBegin p) s = .next (commit s (leaves s stBadDescriptor)))
            ∧ ((partAt s p.val).st = .idle → stepDeadlineOk s c b = true →
              (∀ e t, stepGroup s b = (.error e, t) → exec (.stepBegin p) s
                = .next (commit s (if e = .wait then s else leaves t (accStatus e))))
              ∧ (∀ g t, stepGroup s b = (.ok g, t) →
                (membersReady t g = false → exec (.stepBegin p) s = .next (commit s (leaves t stBadDescriptor)))
                ∧ (membersReady t g = true → ∀ a args v, readMem t (.step p.val) (fieldAt b 0x10 8) (fieldAt b 2 2) = (a, args, v) →
                  (a = .ok → exec (.stepBegin p) s = .next (commit s (beginStep v p.val c b args g)))
                  ∧ (a = .wait → exec (.stepBegin p) s = .next (commit s s))
                  ∧ (a ≠ .ok → a ≠ .wait → exec (.stepBegin p) s = .next (commit s (leaves v (accStatus a)))))))))))
    ∧ (∀ (s : State) (p : Nat) (num : W64) (args : Bytes) (size idx t : Nat),
      (tileAt s t).heldEvents = [] →
      let x := tileAt (startTile s p num args size idx t) t
      x.st = (if dispatchHeld s = true ∨ startable s t = false then .held else .running)
        ∧ gReg x 1 = BitVec.ofNat 64 idx ∧ gReg x 2 = BitVec.ofNat 64 size
        ∧ gReg x 3 = 0x7000 ∧ (∀ n, 4 ≤ n → gReg x n = 0) ∧ (∀ n, 1 ≤ n → pReg x n = false) ∧ x.step = num
        ∧ (∀ i, (tileAt s t).image = some i → x.pc = 2048 + imgEntry i.bytes)
        ∧ (∀ i, i < args.length → Tbl.get 0 x.smem (0x7000 + i) = nth 0 args i)))

/-- STEP_STOP of an existing partition that its function may name stops the running step ABORTED_BY_COMMAND, with its second byte
set also those of the partition that wait, and completes OK; another completes BAD_DESCRIPTOR. DLM_SET of an idle SERVING
partition at rest sets its monitor; fields outside their ranges, a reserve tile outside the partition or among its shape tiles, and
with FALLBACK a reserve without one image, refuse it.
A newt fault whose stop has been deferred stops its step before anything below. A step ends once all its members have halted or
stopped and its writes are made, with the status of a write that fails; while a member runs, or a replay is due, nothing happens.
A deadline that passes under END stops the step DEADLINE_MISS, one on a stalled queue HOST_STALL; the fallback point starts the
gecko; before those times nothing happens. A marker of the running step enters its progress, and the prediction is made. ACCT_READ
writes one record for each client asked for, clears them where asked, and counts. -/
def Obligations.StepsStopAndEndByTheirDeadline : Prop :=
  ((∀ (s : State) (cid : Nat) (c : Cmd), cmdFor s cid 0x0121 = some c →
      let p := c.byte 0
      let t := stopStep (beginCmd s cid) p stAborted
      let waiting := (t.host.cmds.filter fun e => e.opcode == 0x120 && !e.started && decide (e.id < cid) && cmdPart t e == p).map (·.id)
      exec (.stepStop cid) s = .next (commit s
        (if 16 ≤ p ∨ c.may p = false ∨ (partAt s p).st = .none then complete (beginCmd s cid) cid stBadDescriptor
        else if bitOf (c.byte 1) 0 = true then complete (forEach waiting t fun s w => complete (dropWaiting s p w) w stAborted) cid stOk
        else complete t cid stOk)))
    ∧ (∀ (s : State) (cid : Nat) (c : Cmd), cmdFor s cid 0x0130 = some c → atRest s c (cmdPart s c) = true →
      exec (.dlmSet cid) s = .next (commit s (withPayload (beginCmd s cid) c 48 fun t b =>
        let p := fieldAt b 0 1
        let ctl := fieldAt b 1 1
        if dlmFields b = false ∨ c.may p = false ∨ (partAt t p).st ≠ .idle ∨ (partAt t p).serving = false then
          complete t cid stBadDescriptor
        else match groupTiles t (.host (some p)) (fieldAt b 8 8) [] with
          | (.error a, t) => endBy s t cid a
          | (.ok g, t) =>
            if (∃ x ∈ g, x ∉ (partAt t p).tiles ∨ x ∈ shapeTiles t p) ∨ (bitOf ctl 0 = true ∧ oneImage t g = false) then
              complete t cid stBadDescriptor
            else complete (modPart t p fun q =>
              { q with dlm := some { fallback := bitOf ctl 0, end_ := bitOf ctl 1, minMark := fieldAt b 2 2, reserve := g,
                                     geckoNs := fieldAt b 0x10 8, guardNs := fieldAt b 0x18 8 } }) cid stOk))))
  ∧ (∀ (s : State) (p : PartId), (partAt s p.val).run = none → exec (.stepEnd p) s = .next (commit s s)
      ∧ exec (.deadlineExpiry p) s = .next (commit s s) ∧ exec (.fallbackPoint p) s = .next (commit s s))
  ∧ (∀ (s0 s : State) (p : PartId) (r : Step), s = settleStop s0 p.val → (partAt s p.val).run = some r →
      let halted : Prop := ∀ t ∈ liveMembers s r.members, (tileAt s t).st = .ready ∨ (tileAt s t).st = .faulted
        ∨ (tileAt s t).st = .retired ∨ (tileAt s t).st = .empty
      (r.replayDue = true ∨ ¬ halted → exec (.stepEnd p) s0 = .next (commit s0 s))
      ∧ (r.replayDue = false → halted → ∀ a t, owedWrites s p r (liveMembers s r.members) = (a, t) →
        (a = .wait → exec (.stepEnd p) s0 = .next (commit s0 (stillWaits s t)))
        ∧ (∀ r2, a = .ok → (partAt t p.val).run = some r2 → exec (.stepEnd p) s0 = .next (commit s0 (endStep t p r2)))
        ∧ (∀ r2, a ≠ .ok → a ≠ .wait → (partAt (stepStatus t p.val (accStatus a)) p.val).run = some r2 →
          exec (.stepEnd p) s0 = .next (commit s0 (endStep (stepStatus t p.val (accStatus a)) p r2)))))
  ∧ (∀ (s : State) (p : PartId) (r : Step) (c : Cmd), cmdAt s r.cid = some c →
      (partAt (endStep s p r) p.val).run = none ∧ (partAt (endStep s p r) p.val).lastStatus = (stepOutcome s c r).1)
  ∧ ((∀ (s0 s : State) (p : PartId) (r : Step), s = settleStop s0 p.val → (partAt s p.val).run = some r →
      (r.deadline = 0 ∨ s.now < r.deadline ∨ r.status ≠ none → exec (.deadlineExpiry p) s0 = .next (commit s0 s))
      ∧ (r.deadline ≠ 0 → r.deadline ≤ s.now → r.status = none →
        let stalled : Prop := ∃ q, stepQueue s p.val = some q ∧ (queueAt s q).hostStall = true
        (stalled → exec (.deadlineExpiry p) s0 = .next (commit s0 (discardPage (stopStep s p.val stHostStall) p.val)))
        ∧ (¬ stalled → (partAt s p.val).dlm = none → exec (.deadlineExpiry p) s0 = .next (commit s0 s))
        ∧ (∀ d, ¬ stalled → (partAt s p.val).dlm = some d → exec (.deadlineExpiry p) s0 = .next (commit s0
          (if d.end_ = true ∧ (d.fallback = false ∨ r.gecko = true) then stopStep s p.val stDeadlineMiss else s))))
      ∧ ((partAt s p.val).dlm = none → exec (.fallbackPoint p) s0 = .next (commit s0 s))
      ∧ (∀ d, (partAt s p.val).dlm = some d → exec (.fallbackPoint p) s0 = .next (commit s0
        (if r.deadline ≠ 0 ∧ d.fallback = true ∧ r.deadline ≤ s.now + d.geckoNs ∧ r.gecko = false ∧ r.status = none then
          fallback s p.val else s))))
    ∧ (∀ (s0 s : State) (p : PartId), s = settleStop s0 p.val →
      ((partAt s p.val).marks = [] → exec (.markerRecord p) s0 = .next (commit s0 s))
      ∧ (∀ t num v time rest, (partAt s p.val).marks = (t, num, v, time) :: rest →
        let s1 := modPart s p.val fun q => { q with marks := rest }
        ((partAt s p.val).run = none → exec (.markerRecord p) s0 = .next (commit s0 s1))
        ∧ (∀ r, (partAt s p.val).run = some r → exec (.markerRecord p) s0 = .next (commit s0
          (if r.num = num ∧ r.gecko = false ∧ r.status = none ∧ t.toNat ∈ liveMembers s r.members then
            predict (noteMark s1 p.val t (min v (stepMarkers s1 r)) time) p.val else s1)))))
    ∧ (∀ (s : State) (p : Nat) (r : Step) (d : Dlm), (partAt s p).run = some r → (partAt s p).dlm = some d →
      let at_ := r.t0 + (r.tm - r.t0) * stepMarkers s r / r.progress
      let t := modPart s p fun q => { q with pred := at_ }
      predict s p = (if r.deadline ≠ 0 ∧ d.minMark ≤ r.progress ∧ r.progress ≠ 0 then
        (if r.deadline < at_ + d.guardNs then (if d.fallback = true ∧ r.gecko = false ∧ r.status = none then fallback t p else t) else t)
        else s)))
  ∧ (∀ (s : State) (cid : Nat) (c : Cmd), cmdFor s cid 0x0140 = some c →
      exec (.acctRead cid) s = .next (commit s (withPayload (beginCmd s cid) c 24 fun t b =>
        let clients := span (fieldAt b 0 2) (fieldAt b 2 2)
        let t1 := forEach (List.range 16) t chargeStep
        let w := writeDst t1 c (fieldAt b 8 8) (clients.flatMap (acctRecord t1))
        let cleared := if bitOf (fieldAt b 4 1) 0 = true then { w.2 with accounts := clients.foldl (fun x k =>
            Tbl.upd {} x k fun (a : Account) => { energyPj := a.energyPj % 1000000 }) w.2.accounts } else w.2
        if acctOk t c b = false then complete t cid stBadDescriptor
        else if w.1 = .ok then complete (regAddWrap cleared ⟨.acctStat, 0, 0⟩ 16 16 1) cid stOk
        else endBy s w.2 cid w.1)))

/-! ### The tile's units and library routines -/

/-- Each unit acts on the first command of its kind that may start in the queue of the tile that answers for the name; with none,
nothing changes. ACLR leaves a set of its mode with no position and every element at rest. MMA adds K positions to its set and
changes no other set, no operand byte and no memory; a descriptor outside its rules raises CMD_DESC, imprecise, with the command's
number in INFO. VOP stores its converted results and their scale bytes, or 32-bit integers for F32_TO_I32, and enters the
operation's bits in TILE_FPSTAT; FEXP leaves 4,096 expanded elements in the expansion unit; each raises the same cause where its
descriptor breaks a rule. -/
def Obligations.MatrixAndVectorUnitsExecute : Prop :=
  (∀ (s : State) (t : TileId),
    (nextCmd s (liveTile s t.toNat) 0x20 = none → exec (.aclrExecute t) s = .next (commit s s))
    ∧ (nextCmd s (liveTile s t.toNat) 0x21 = none → exec (.mmaExecute t) s = .next (commit s s))
    ∧ (nextCmd s (liveTile s t.toNat) 0x25 = none → exec (.vopExecute t) s = .next (commit s s))
    ∧ (nextCmd s (liveTile s t.toNat) 0x26 = none → exec (.fexpExecute t) s = .next (commit s s)))
  ∧ (∀ (s : State) (t : TileId) (c : TileCmd), nextCmd s (liveTile s t.toNat) 0x20 = some c →
    exec (.aclrExecute t) s = .next (commit s (startCmd (modTile s (liveTile s t.toNat) fun x =>
      { x with acc := Tbl.put {} x.acc (c.fn % 4) { long := !bitOf c.fn 2 } }) (liveTile s t.toNat) c [] [] (some (c.fn % 4)))))
  ∧ (∀ (s : State) (t : TileId) (c : TileCmd), nextCmd s (liveTile s t.toNat) 0x21 = some c →
    let x := newtOf s t
    let n := fieldAt c.desc 2 1 % 4
    (mmaOk x c.desc = false →
      exec (.mmaExecute t) s = .next (commit s (newtFault s (liveTile s t.toNat) 0x09 c.num true)))
    ∧ (mmaOk x c.desc = true →
      ∃ u, exec (.mmaExecute t) s = .next u ∧ accAt (newtOf u t) n = (mmaSet x c.half c.desc (accAt x n)).1
        ∧ (accAt (newtOf u t) n).count = (accAt x n).count + fieldAt c.desc 4 4
        ∧ (∀ k, k ≠ n → accAt (newtOf u t) k = accAt x k) ∧ (newtOf u t).ob = x.ob ∧ (newtOf u t).smem = x.smem
        ∧ u.mem = (commit s s).mem ∧ u.parts = s.parts ∧ u.host = s.host))
  ∧ (∀ (s : State) (t : TileId) (c : TileCmd), nextCmd s (liveTile s t.toNat) 0x25 = some c →
    let x := newtOf s t
    let l := liveTile s t.toNat
    let r := vopResults x c
    let dst := fieldAt c.desc 0x0C 4
    let ends (v : State) (f : Nat) : State := startCmd (setFp v l (r.2 ||| f)) l c []
      [(dst, vopDstBytes c.fn c.wcb r.1.length)] none
    (vopOk c = false → exec (.vopExecute t) s = .next (commit s (newtFault s l 0x09 c.num true)))
    ∧ (vopOk c = true → ∀ fm, fmtCode (fieldAt c.wcb 0 1) = some fm →
      (c.fn = 0x08 → exec (.vopExecute t) s = .next (commit s (ends (modTile s l fun x =>
        obPut x dst (r.1.flatMap fun w => leBytes 4 w.toNat)) 0)))
      ∧ (c.fn ≠ 0x08 → ∀ o, o = convert fm c.wcb false (r.1.mapIdx fun i w =>
          ((i / 64, i % 64), f32Val w, wcbRnd c.wcb (wcbIndex c.wcb (i / 64) (i % 64)))) →
        let n := fm.fmt.packedBytes r.1.length
        exec (.vopExecute t) s = .next (commit s (ends (forEach o.scales
          (modTile s l fun x => obPut x dst ((fm.fmt.packAll (o.elems.map (·.2))).take n))
          fun s k => modTile s l fun x => obPut x (dst + n + 2 * k.1.1 + k.1.2) [BitVec.ofNat 8 k.2]) o.flags)))))
  ∧ (∀ (c : TileCmd), vopOk c = true → (fmtCode (fieldAt c.wcb 0 1)).isSome = true)
  ∧ (∀ (s : State) (t : TileId) (c : TileCmd), nextCmd s (liveTile s t.toNat) 0x26 = some c →
    let x := newtOf s t
    let d := c.desc
    (fexpOk d = false → exec (.fexpExecute t) s = .next (commit s (newtFault s (liveTile s t.toNat) 0x09 c.num true)))
    ∧ (fexpOk d = true → ∀ uf vf f op, op = (if mmaFact d 0 then 0 else 1) → factFmt (fieldAt d 0x2C 1) = some uf →
      factFmt (fieldAt d 0x2D 1) = some vf → factFmt (fieldAt d op 1) = some f →
      ∃ u, exec (.fexpExecute t) s = .next u ∧ (newtOf u t).factor.fmt = fieldAt d op 1
        ∧ (newtOf u t).factor.elems.length = 4096
        ∧ (∀ i < 64, ∀ j < 64, nth 0 (newtOf u t).factor.elems (64 * i + j)
            = (expandEl x uf vf f (obAddr c.half (mmaOff d op)) (obAddr c.half (mmaOff d op) + 64 * fieldAt d 3 1 * (uf.bits / 8))
                (fieldAt d 3 1) i j).1)
        ∧ (newtOf u t).acc = x.acc ∧ (newtOf u t).ob = x.ob ∧ u.parts = s.parts ∧ u.host = s.host))

/-- What an MMA does to a set: the position count rises by K, the mode stays, and an element outside the active rows or columns
keeps everything it holds. -/
def Obligations.MmaChangesOnlyActiveElements : Prop :=
  ∀ (x : Tile) (half : Nat) (d : Bytes) (a : AccSet),
    (mmaSet x half d a).1.count = a.count + fieldAt d 4 4 ∧ (mmaSet x half d a).1.long = a.long
    ∧ ∀ i j, i < 64 → j < 64 → (fieldAt d 0x18 8).testBit i = false ∨ (fieldAt d 0x20 8).testBit j = false →
      Tbl.get {} (mmaSet x half d a).1.elems (64 * i + j) = Tbl.get {} a.elems (64 * i + j)

/-- FILL and WOUT act on the first command of their kind that may start, or change nothing. A DIRECT FILL whose descriptor, place
or multicast set breaks a rule raises CMD_DESC, and one whose set or rows lie outside the partition BOUNDS; one whose data a die
holds for it takes them and leaves the hold; another reads its rows in order and puts them into the half, and a multicast one, where
its own die's hold has room, leaves them held on every die that has room for the members there. A DIRECT WOUT that breaks a rule of its descriptor raises CMD_DESC;
otherwise it stores its elements' runs, and nothing else, with their bits entered in TILE_FPSTAT. A TILED transfer outside its
rules raises CMD_DESC; one that keeps them acts through the binding that it names. Completion frees the queue entry of a started
command, and lets a waiting newt go on, once the chain pieces that it delivered have been added. A level stages inward for A and
B, outward for C; a member without a binding, a level or operand that the descriptor does not stage, or a wait for a replay leaves
the state. -/
def Obligations.FillsWriteOutsAndCompletion : Prop :=
  (∀ (s : State) (t : TileId) (hit : Bool),
    (nextCmd s (liveTile s t.toNat) 0x22 = none → exec (.fillExecute ⟨t, hit⟩) s = .next (commit s s))
    ∧ (nextCmd s (liveTile s t.toNat) 0x24 = none → exec (.woutExecute ⟨t, hit⟩) s = .next (commit s s)))
  ∧ (∀ (s : State) (t : TileId) (hit : Bool) (c : TileCmd), nextCmd s (liveTile s t.toNat) 0x22 = some c →
    fieldAt c.xfer 0 1 ≠ 1 →
    let l := liveTile s t.toNat
    let d := c.xfer
    let n := fieldAt d 0x10 4
    let rows := fieldAt d 0x14 4
    let fin (v : State) (b : Bytes) : State := startCmd (modTile v l fun x => putRows x c.half d n b) l c []
      ((List.range rows).map fun r => (obAddr c.half (fieldAt d 4 4 + r * fieldAt d 0x28 4), n)) none
    (directOk d = false ∨ halfSize < fieldAt d 4 4 + (rows - 1) * fieldAt d 0x28 4 + n ∨ mcastIds (fieldAt d 0x20 8) c.bitmap = none →
      exec (.fillExecute ⟨t, hit⟩) s = .next (commit s (newtFault s l 0x09 c.num true)))
    ∧ (directOk d = true → fieldAt d 4 4 + (rows - 1) * fieldAt d 0x28 4 + n ≤ halfSize →
      ∀ ids, mcastIds (fieldAt d 0x20 8) c.bitmap = some ids →
      let named := ids.getD []
      let outside : Prop := (∃ u ∈ named, u ∉ partTiles s (tilePart s l))
        ∨ ∃ a ∈ dirAddrs d, canRead s (.step (tilePart s l)) a n = false
      let key := (d.drop 8).take 0x20
      let held := if l ∈ named.map (liveTile s) then
        (Tbl.get [] s.holds (tileDie l)).find? (fun h => h.key == key && h.left.contains (toTile l)) else none
      (outside → exec (.fillExecute ⟨t, hit⟩) s = .next (commit s (newtFault s l 0x0A c.num true)))
      ∧ (¬ outside → ∀ h, held = some h →
        let rest := ((Tbl.get [] s.holds (tileDie l)).map fun k =>
          if k = h then { k with left := k.left.filter (· != toTile l) } else k).filter fun k => !k.left.isEmpty
        exec (.fillExecute ⟨t, hit⟩) s = .next (commit s (fin { s with holds := Tbl.put [] s.holds (tileDie l) rest } h.data)))
      ∧ (¬ outside → held = none → ∀ a b s1, readRows s (tilePart s l) l (dirAddrs d) n = (a, b, s1) →
        (a = .ok → l ∉ named.map (liveTile s) → exec (.fillExecute ⟨t, hit⟩) s = .next (commit s (fin s1 b)))
        ∧ (a = .ok → l ∈ named.map (liveTile s) →
          let room (die : Nat) : Prop := holdUsed s1 die + b.length ≤ 1048576
          ∃ s2, exec (.fillExecute ⟨t, hit⟩) s = .next (commit s (fin s2 b)) ∧ s2 = { s1 with holds := s2.holds }
            ∧ ∀ die < 8, Tbl.get [] s2.holds die = Tbl.get [] s1.holds die
              ++ (if room (tileDie l) ∧ holdMembers s1 named die l ≠ [] ∧ room die
                then [⟨key, b, holdMembers s1 named die l⟩] else []))
        ∧ (a = .bounds → exec (.fillExecute ⟨t, hit⟩) s = .next (commit s (newtFault s1 l 0x0A c.num true)))
        ∧ (a ≠ .ok → a ≠ .bounds → exec (.fillExecute ⟨t, hit⟩) s = .next (commit s (accStop s1 (tilePart s l) a))))))
  ∧ (∀ (s : State) (t : TileId) (hit : Bool) (c : TileCmd), nextCmd s (liveTile s t.toNat) 0x22 = some c →
    fieldAt c.xfer 0 1 = 1 →
    let l := liveTile s t.toNat
    let k := fieldAt c.xfer 1 1
    (tiledOk c.xfer = false ∨ (3 < k ∧ k ≠ 0x0F) →
      exec (.fillExecute ⟨t, hit⟩) s = .next (commit s (newtFault s l 0x09 c.num true)))
    ∧ (tiledOk c.xfer = true → k ≤ 3 ∨ k = 0x0F →
      (∀ cause u, useBinding s l c.num (fieldAt c.xfer 8 8) hit = .fault cause u →
        exec (.fillExecute ⟨t, hit⟩) s = .next (commit s (newtFault u l cause c.num true)))
      ∧ (∀ a u, useBinding s l c.num (fieldAt c.xfer 8 8) hit = .stop a u →
        exec (.fillExecute ⟨t, hit⟩) s = .next (commit s (accStop u (tilePart u l) a)))
      ∧ (∀ u b, useBinding s l c.num (fieldAt c.xfer 8 8) hit = .ok u → (tileAt u l).binding = some b →
        (k = 0x0F → exec (.fillExecute ⟨t, hit⟩) s = .next (commit s (fillAdvance u l c b)))
        ∧ (k ≠ 0x0F → (b.pos.bind fun n => (walkOf b.desc (tileAt u l).index)[n]?) = none →
          exec (.fillExecute ⟨t, hit⟩) s = .next (commit s (newtFault u l 0x09 c.num true)))
        ∧ (k ≠ 0x0F → ∀ pos, (b.pos.bind fun n => (walkOf b.desc (tileAt u l).index)[n]?) = some pos →
          exec (.fillExecute ⟨t, hit⟩) s = .next (commit s (if 2 ≤ k ∧ tdScaled b.desc (k % 2) = false then
            newtFault u l 0x09 c.num true else fillPiece u l c b (k % 2) pos (decide (2 ≤ k))))))))
  ∧ (∀ (s : State) (t : TileId) (hit : Bool) (c : TileCmd), nextCmd s (liveTile s t.toNat) 0x24 = some c →
    let l := liveTile s t.toNat
    let d := c.xfer
    (fieldAt d 0 1 ≠ 1 →
      exec (.woutExecute ⟨t, hit⟩) s = .next (commit s (woutDirect s l c))
      ∧ (directOk d = false ∨ fieldAt d 4 4 ≠ 0 ∨ fieldAt d 0x28 4 ≠ 0 ∨ 64 < fieldAt d 0x14 4
          ∨ wcbOk c.wcb (some (accAt (tileAt s l) (c.fn % 4)).long) = false ∨ mcastIds (fieldAt d 0x20 8) c.bitmap = none →
        exec (.woutExecute ⟨t, hit⟩) s = .next (commit s (newtFault s l 0x09 c.num true))))
    ∧ (fieldAt d 0 1 = 1 →
      exec (.woutExecute ⟨t, hit⟩) s = .next (commit s (woutTiled s l c hit))
      ∧ (tiledOk d = false ∨ fieldAt d 1 1 ≠ 4 ∨ fieldAt d 4 4 ≠ 0 ∨ fieldAt d 0x28 4 ≠ 0 →
        exec (.woutExecute ⟨t, hit⟩) s = .next (commit s (newtFault s l 0x09 c.num true)))
      ∧ (tiledOk d = true → fieldAt d 1 1 = 4 → fieldAt d 4 4 = 0 → fieldAt d 0x28 4 = 0 →
        ∀ u b, useBinding s l c.num (fieldAt d 8 8) hit = .ok u → (tileAt u l).binding = some b →
        ∀ pos, (b.pos.bind fun n => (walkOf b.desc (tileAt u l).index)[n]?) = some pos →
        exec (.woutExecute ⟨t, hit⟩) s = .next (commit s (woutPiece u l c b pos)))))
  ∧ (∀ (s : State) (t : TileId) (num : Nat),
    let found := (newtOf s t).queue.find? (fun c => c.num == num && c.started)
    (found = none → exec (.tileCommandComplete t num) s = .next (commit s s))
    ∧ (∀ c, found = some c →
      (chainsIn s (tilePart s (liveTile s t.toNat)) c = false → exec (.tileCommandComplete t num) s = .next (commit s s))
      ∧ (chainsIn s (tilePart s (liveTile s t.toNat)) c = true →
        exec (.tileCommandComplete t num) s = .next (commit s (settleHalt (wake (modTile s (liveTile s t.toNat) fun x =>
          { x with queue := x.queue.filter fun c => c.num != num }) (liveTile s t.toNat)) (liveTile s t.toNat))))))
  ∧ (∀ (s : State) (t : TileId) (lv : Fin 5) (op : Fin 3),
    ((newtOf s t).binding = none → exec (.levelStage t lv op) s = .next (commit s s))
    ∧ (∀ b, (newtOf s t).binding = some b →
      exec (.levelStage t lv op) s = .next (commit s
        (if lvlStage b.desc lv.val op.val = false ∨ lv.val = 0 ∨ replayWaits s (newtOf s t) = true then s
        else if op.val = 2 then stageOut s (liveTile s t.toNat) b lv.val
        else stageIn s (liveTile s t.toNat) b lv.val op.val))))

/-- A hardware fault of a tile in use retires it and, where its identifier needs one and its die has a spare left, begins the copy
to a spare; of a retired tile, or an identifier that names none, it changes nothing. The completion of a copy resolves the failing
bytes of its source, waits where a refetch must, and makes the spare answer for the identifier. A step that awaits its replay, once
no copy of a member goes on, starts again on its whole group with the same number and arguments, and its completion will say
OK_RECOVERED; without a replay left it ends PARITY_LOST.
A newt event raises its receiver's counter when it comes for the step that runs, is held for a later step, up to 16, is dropped and
counted for an earlier one, and is answered with ROLE_CHANGED for a partition, an epoch or a tile that is not the one it names; the
sender's count of events on their way falls, and it learns of the refusal. An event of another module comes as a message, which is
checked first; a refusal is answered there. -/
def Obligations.FaultsReplaysAndNewtEvents : Prop :=
  ((∀ (s : State) (t : TileId),
      (validTile t.toNat = false ∨ (tileAt s t.toNat).st = .retired → exec (.tileHardwareFault t) s = .next (commit s s))
      ∧ (validTile t.toNat = true → (tileAt s t.toNat).st ≠ .retired →
        exec (.tileHardwareFault t) s = .next (commit s (hwFault s t.toNat)))
      ∧ (validTile t.toNat = true → (tileAt s t.toNat).st ≠ .retired → ownerOf s (nameOf s t.toNat) = none →
        (tileAt (hwFault s t.toNat) t.toNat).st = .retired
        ∧ (∀ k, k ≠ t.toNat → tileAt (hwFault s t.toNat) k = tileAt s k)
        ∧ ((tileAt s t.toNat).queue = [] → (hwFault s t.toNat).parts = s.parts)
        ∧ (freeSpares s (tileDie t.toNat) = [] → (hwFault s t.toNat).strata.copying = s.strata.copying)
        ∧ ((tileAt s t.toNat).queue = [] → nameOf s t.toNat ∉ s.fuses.spares → freeSpares s (tileDie t.toNat) ≠ [] →
          ∃ u ∈ freeSpares s (tileDie t.toNat), (hwFault s t.toNat).strata.copying = s.strata.copying ++ [(t.toNat, u)])))
    ∧ (∀ (s : State) (t : TileId),
      (s.strata.copying.find? (fun c => c.1 == t.toNat) = none → exec (.remapCopyComplete t) s = .next (commit s s))
      ∧ (∀ old spare, s.strata.copying.find? (fun c => c.1 == t.toNat) = some (old, spare) →
        ((resolveCopy s old spare).1 = .wait → exec (.remapCopyComplete t) s = .next (commit s s))
        ∧ ((resolveCopy s old spare).1 ≠ .wait →
          let v := setStrata (copyStrata (resolveCopy s old spare).2 old spare) fun y =>
            { y with copying := y.copying.filter (fun c => c.1 != old), remap := Tbl.put none y.remap (nameOf s old) (some spare) }
          liveTile v (nameOf s old) = spare ∧ (∀ c ∈ v.strata.copying, c.1 ≠ old)
          ∧ (∀ i p, (tileAt s old).image = some i → (tileAt s old).part = some p →
            exec (.remapCopyComplete t) s = .next (commit s (loadTile v spare p.val i.bytes)))
          ∧ ((tileAt s old).image = none ∨ (tileAt s old).part = none →
            exec (.remapCopyComplete t) s = .next (commit s v)))))
    ∧ (∀ (s0 s : State) (p : PartId), s = settleStop s0 p.val →
      ((partAt s p.val).run = none → exec (.stepReplay p) s0 = .next (commit s0 s))
      ∧ (∀ r, (partAt s p.val).run = some r →
        let copies : Prop := ∃ t ∈ liveMembers s r.members, ∃ c ∈ s.strata.copying, c.1 = t
        (r.replayDue = false ∨ copies → exec (.stepReplay p) s0 = .next (commit s0 s))
        ∧ (r.replayDue = true → ¬ copies → mayReplay s p.val = false →
          exec (.stepReplay p) s0 = .next (commit s0 (stopStep s p.val stParityLost)))
        ∧ (r.replayDue = true → ¬ copies → mayReplay s p.val = true →
          let s1 := forEach (liveMembers s r.members) s fun s t => reload s p.val t
          let s2 := modRun (dropStaged (forEach (liveMembers s r.members) s1 stopTile) p.val) p.val fun r =>
            { r with replayDue := false, recovered := true, replays := r.replays + 1, faults := [], marks := [], progress := 0 }
          exec (.stepReplay p) s0 = .next (commit s0 (launch s2 p.val r.num r.args r.members))))))
  ∧ ((∀ (s : State) (ev : EvMsg),
      let known : Prop := (partAt s ev.part.val).st ≠ .none ∧ (partAt s ev.part.val).epoch = ev.epoch
        ∧ (partTiles s ev.part.val).contains ev.dst.toNat = true
      let l := liveTile s ev.dst.toNat
      (¬ known → applyEvent s ev = (some stRoleChanged, s))
      ∧ (known → inStep (tileAt s l).st = true → (tileAt s l).step = ev.step →
        applyEvent s ev = (none, wake (modTile s l fun x =>
          { x with events := Tbl.upd 0 x.events ev.ctr.val fun n => min (2 ^ 32 - 1) (n + 1) }) l))
      ∧ (known → (tileAt s l).step.toNat < ev.step.toNat → (tileAt s l).heldEvents.length < 16 →
        applyEvent s ev = (none, modTile s l fun x => { x with heldEvents := x.heldEvents ++ [ev] }))
      ∧ (known → (tileAt s l).step.toNat < ev.step.toNat → 16 ≤ (tileAt s l).heldEvents.length →
        applyEvent s ev = (some stNoResource, s))
      ∧ (known → ev.step.toNat ≤ (tileAt s l).step.toNat → ¬ (inStep (tileAt s l).st = true ∧ (tileAt s l).step = ev.step) →
        applyEvent s ev = (none, regAddSat s ⟨.newtStat, l, 0⟩ 16 16 1)))
    ∧ (∀ (s : State) (ev : EvMsg),
      (s.flying.contains ev = false → exec (.newtEvent (.here ev)) s = .next (commit s s))
      ∧ (s.flying.contains ev = true →
        let r := applyEvent { s with flying := removeFirst (fun e => e == ev) s.flying } ev
        (∀ t, ev.src = some t → exec (.newtEvent (.here ev)) s = .next (commit s (eventAcked r.2 t.toNat ev r.1.isSome)))
        ∧ (ev.src = none → exec (.newtEvent (.here ev)) s = .next (commit s r.2))))
    ∧ (∀ (s : State) (t : Nat) (ev : EvMsg) (nak : Bool),
      ((tileAt s t).part ≠ some ev.part ∨ (tileAt s t).epoch ≠ ev.epoch → eventAcked s t ev nak = s)
      ∧ ((tileAt s t).part = some ev.part → (tileAt s t).epoch = ev.epoch → (tileAt s t).st ≠ .waiting →
        (tileAt (eventAcked s t ev nak) t).posted = (tileAt s t).posted - 1
        ∧ (tileAt (eventAcked s t ev nak) t).naks = (tileAt s t).naks + (if nak = true then 1 else 0)))
    ∧ (∀ (s : State) (m : Bytes) (dst : TileId) (ctr : Fin 16) (step : W64),
      let v := takeMsg s m
      (∀ st, msgRefused v m 0x23 false = some st →
        exec (.newtEvent (.message m dst ctr step)) s = .next (commit s (refuse v m st)))
      ∧ (msgRefused v m 0x23 false = none →
        let r := applyEvent v (eventOf m dst ctr step)
        (r.1 = none → exec (.newtEvent (.message m dst ctr step)) s = .next (commit s r.2))
        ∧ (∀ st, r.1 = some st → exec (.newtEvent (.message m dst ctr step)) s = .next (commit s (refuse r.2 m st))))))

/-- A library routine of the tiles acts once every member of its step stands at the routine's word with one descriptor: before
that, the members that stand there wait, and a parity error in a member's scratch faults that member. A descriptor that is misaligned
or outside scratch raises DADDR on the first member, one outside the routine's rules CMD_DESC. The three attention routines then
load their batch: one that cannot be read ends the call as its reads end, one whose entries break a rule raises CMD_DESC. ATTN_APPEND
faults where a page is not VALID, ends the step NO_RESOURCE where a frame list is short, and otherwise appends its entries in order.
CONV runs on the matrix units or on the tadpole engine, which needs a die of the partition. DET does each image and then returns
every member to g31. A partial record of another module is checked and held at its slot. -/
def Obligations.LibraryRoutinesRunForTheGroup : Prop :=
  ((∀ (s : State) (p k : Nat) (hit : Option TileId) (arg : State → Nat → List Nat),
      let ms := runMembers s p
      let here := ms.filter fun t => atWord s t k
      (∀ l, libParity s p k hit = some l → scratchCall s p k hit arg = (none, newtFault s l 0x0E 0 false))
      ∧ (libParity s p k hit = none → here = [] → scratchCall s p k hit arg = (none, s))
      ∧ (libParity s p k hit = none → here ≠ [] → (here ≠ ms ∨ ∃ u ∈ here, arg s u ≠ arg s (nth 0 here 0)) →
        scratchCall s p k hit arg = (none, forEach here s fun s u => parkAt s u .group))
      ∧ (libParity s p k hit = none → here ≠ [] → here = ms → (∀ u ∈ here, arg s u = arg s (nth 0 here 0)) →
        scratchCall s p k hit arg = (some ms, s)))
    ∧ (∀ (s : State) (t n : Nat),
      (gNum s t 4 % 8 = 0 → gNum s t 4 + n ≤ 0x8000 → libDesc s t n = some (bytesAt 0 (tileAt s t).smem (gNum s t 4) n))
      ∧ (gNum s t 4 % 8 ≠ 0 ∨ 0x8000 < gNum s t 4 + n → libDesc s t n = none))
    ∧ (∀ (s0 s : State) (p : Nat) (ms : List Nat) (st : Status),
      libEnd s0 s p ms .ok = forEach ms s (fun s t => modTile s t libReturn)
      ∧ libEnd s0 s p ms .bounds = newtFault s (nth 0 ms 0) 0x0A 0 false
      ∧ libEnd s0 s p ms .wait = forEach ms (stillWaits s0 s) (fun s t => parkAt s t .tier)
      ∧ libEnd s0 s p ms (.fail st) = accStop s p (.fail st)))
  ∧ (∀ (s : State) (p : PartId) (hit : Option TileId) (row : Instr) (word op : Nat)
      (body : State → Bytes → List BatchE → List Nat → State → State),
    (row = .attnFwd ⟨p, hit⟩ ∧ word = 4 ∧ op = 1 ∧ body = attnFwdBody p.val)
      ∨ (row = .attnAppend ⟨p, hit⟩ ∧ word = 5 ∧ op = 2 ∧ body = attnAppendBody p.val)
      ∨ (row = .attnBwd ⟨p, hit⟩ ∧ word = 6 ∧ op = 3 ∧ body = attnBwdBody p.val) →
    (∀ u, scratchCall s p.val word hit (descArg 112) = (none, u) → exec row s = .next (commit s u))
    ∧ (∀ ms s1, scratchCall s p.val word hit (descArg 112) = (some ms, s1) →
      (libDesc s1 (nth 0 ms 0) 112 = none → exec row s = .next (commit s (newtFault s1 (nth 0 ms 0) 0x03 0 false)))
      ∧ (∀ d, libDesc s1 (nth 0 ms 0) 112 = some d →
        (attnDescOk op d = false → exec row s = .next (commit s (newtFault s1 (nth 0 ms 0) 0x09 0 false)))
        ∧ (attnDescOk op d = true → ∀ a o t, loadBatch s1 p.val op d = (a, o, t) →
          (a ≠ .ok → exec row s = .next (commit s (libEnd s1 t p.val ms a)))
          ∧ (a = .ok → o = none → exec row s = .next (commit s (newtFault t (nth 0 ms 0) 0x09 0 false)))
          ∧ (∀ es, a = .ok → o = some es → exec row s = .next (commit s (body s1 d es ms t)))))))
  ∧ (∀ (p : Nat) (s0 s s1 : State) (d : Bytes) (es : List BatchE) (ms : List Nat),
    let rows := es.flatMap fun e => if (appendPages e).isEmpty then [] else
      [(atQ d + e.row * e.seq.heads * e.seq.d * 2, e.count * e.seq.heads * e.seq.d * 2),
       (atO d + e.row * e.seq.heads * e.seq.d * 2, e.count * e.seq.heads * e.seq.d * 2)]
    let r := readAll s p ((es.flatMap fun e => (appendPages e).map fun n => (pteAddr e.seq n, 8)) ++ rows)
    (r.1 ≠ .ok → attnAppendBody p s0 d es ms s = libEnd s0 r.2 p ms r.1)
    ∧ (r = (.ok, s1) →
      let invalid : Prop := ∃ e ∈ es, ∃ n ∈ appendPages e, openPage e n = true ∧ bitOf (pte s1 e.seq n) 0 = false
      (invalid → attnAppendBody p s0 d es ms s = newtFault s1 (nth 0 ms 0) 0x09 0 true)
      ∧ (¬ invalid → ∀ s2, gatherFrames s1 p es = (.ok, none, s2) →
        attnAppendBody p s0 d es ms s = failStep s2 p stNoResource)))
  ∧ (∀ (s : State) (p : PartId) (hit : Option TileId),
    (∀ u, scratchCall s p.val 7 hit (descArg 80) = (none, u) → exec (.conv ⟨p, hit⟩) s = .next (commit s u))
    ∧ (∀ ms s1, scratchCall s p.val 7 hit (descArg 80) = (some ms, s1) →
      (libDesc s1 (nth 0 ms 0) 80 = none → exec (.conv ⟨p, hit⟩) s = .next (commit s (newtFault s1 (nth 0 ms 0) 0x03 0 false)))
      ∧ (∀ c, libDesc s1 (nth 0 ms 0) 80 = some c →
        (cvOk c = false → exec (.conv ⟨p, hit⟩) s = .next (commit s (newtFault s1 (nth 0 ms 0) 0x09 0 false)))
        ∧ (cvOk c = true → fieldAt c 1 1 = 0 → exec (.conv ⟨p, hit⟩) s = .next (commit s (convMatrix p.val s s1 ms c)))
        ∧ (cvOk c = true → fieldAt c 1 1 ≠ 0 →
          (partDies s1 p.val = [] → exec (.conv ⟨p, hit⟩) s = .next (commit s (failStep s1 p.val stNoResource)))
          ∧ (partDies s1 p.val ≠ [] → libWcb s1 (nth 0 ms 0) (fieldAt c 0x44 4) = none →
            exec (.conv ⟨p, hit⟩) s = .next (commit s (newtFault s1 (nth 0 ms 0) 0x03 0 false)))
          ∧ (∀ w, partDies s1 p.val ≠ [] → libWcb s1 (nth 0 ms 0) (fieldAt c 0x44 4) = some w →
            (tadpoleOk c w = false → exec (.conv ⟨p, hit⟩) s = .next (commit s (newtFault s1 (nth 0 ms 0) 0x09 0 false)))
            ∧ (∀ s2 s3, tadpoleOk c w = true → readAll s1 p.val (tadpoleReads c) = (.ok, s2) →
              writeRuns s2 (.step p.val) (partPrio s2 p.val) (tadpoleStore s2 c w) = (.ok, s3) →
              exec (.conv ⟨p, hit⟩) s = .next (commit s (forEach ms s3 fun s t => modTile s t libReturn)))
            ∧ (∀ a s2, tadpoleOk c w = true → readAll s1 p.val (tadpoleReads c) = (a, s2) → a ≠ .ok →
              exec (.conv ⟨p, hit⟩) s = .next (commit s (libEnd s s2 p.val ms a))))))))
  ∧ (∀ (s : State) (p : PartId) (hit : Option TileId),
    (∀ u, scratchCall s p.val 8 hit (descArg 80) = (none, u) → exec (.det ⟨p, hit⟩) s = .next (commit s u))
    ∧ (∀ ms s1, scratchCall s p.val 8 hit (descArg 80) = (some ms, s1) →
      (libDesc s1 (nth 0 ms 0) 80 = none → exec (.det ⟨p, hit⟩) s = .next (commit s (newtFault s1 (nth 0 ms 0) 0x03 0 false)))
      ∧ (∀ d, libDesc s1 (nth 0 ms 0) 80 = some d →
        (detOk d = false → exec (.det ⟨p, hit⟩) s = .next (commit s (newtFault s1 (nth 0 ms 0) 0x09 0 false)))
        ∧ (detOk d = true → partDies s1 p.val = [] → exec (.det ⟨p, hit⟩) s = .next (commit s (failStep s1 p.val stNoResource)))
        ∧ (∀ a s2, detOk d = true → partDies s1 p.val ≠ [] →
          accAll (List.range (fieldAt d 0 2)) s1 (fun s i => detOne p.val d i s) = (a, s2) →
          (a = .ok → exec (.det ⟨p, hit⟩) s = .next (commit s (forEach ms s2 fun s t => modTile s t libReturn)))
          ∧ (a ≠ .ok → exec (.det ⟨p, hit⟩) s = .next (commit s (libEnd s s2 p.val ms a)))))))
  ∧ (∀ (s : State) (m : Bytes),
    (s.fab.inbox.contains m = false ∨ msgClass m ≠ 0x24 → exec (.partialRecord m) s = .next (commit s s))
    ∧ (s.fab.inbox.contains m = true → msgClass m = 0x24 →
      (∀ st, msgRefused (takeMsg s m) m 0x24 true = some st →
        exec (.partialRecord m) s = .next (commit s (refuse (takeMsg s m) m st)))
      ∧ (msgRefused (takeMsg s m) m 0x24 true = none →
        exec (.partialRecord m) s = .next (commit s { takeMsg s m with
          partials := (takeMsg s m).partials ++ [⟨Fin.ofNat 16 (msgPart m), msgPayload m⟩] }))))

/-! ### Strata, tiers, codecs -/

/-- STRATA_DECLARE and STRATA_RELEASE wait until every partition they name is at rest. A declaration of 1 to 64 whole descriptors, each
in range and clashing with no other, all of which fit, enters its regions after the CLEAN loads; an overlap or a bad field completes
BAD_DESCRIPTOR, a full table NO_RESOURCE, a load that fails its own status. A release of regions that its function may name zeroes and
frees each; any other completes BAD_DESCRIPTOR.
A parity failure of a populated strata byte is resolved as its region's class says: of a CLEAN region by a refetch that a second reader
of the line shares, of a RECOMPUTE region by a replay of its step, of a twin range from the other copy. A refetch takes the line from
its source and counts it recovered, waits while its source unit is redirected, or ends each reader's step TIER_FAIL. The scrubber does
one line at a time, resolving a byte of it that fails; a pass ends in STR_SCRUB_PASS and a new one, and an overrun of twice the period
is recorded once. -/
def Obligations.StrataRegionsAndParity : Prop :=
  ((∀ (s : State) (cid : Nat) (c : Cmd), cmdFor s cid 0x0010 = some c →
      (allAtRest s c = false → exec (.strataDeclare cid) s = .next (commit s s))
      ∧ (allAtRest s c = true → exec (.strataDeclare cid) s = .next (commit s
        (withPayload (beginCmd s cid) c 32 fun s1 b =>
          let ds := pieces 32 b
          let rs := ds.map regionOfBytes
          let load := accAll (rs.filter fun r => r.cls == 1 && bitOf r.flags 0) s1 loadRegion
          if b.length % 32 ≠ 0 ∨ 64 < ds.length ∨ (∃ d ∈ ds, regionOk s1 c d = false) ∨ (∃ x ∈ rs.mapIdx (regionClash s1 rs), x = true) then
            complete s1 cid stBadDescriptor
          else if regionsFit s1 rs = false then complete s1 cid stNoResource
          else if load.1 = .ok then complete (forEach rs load.2 declareRegion) cid stOk
          else endBy s load.2 cid load.1))))
    ∧ (∀ (s : State) (cid : Nat) (c : Cmd), cmdFor s cid 0x0011 = some c →
      (allAtRest s c = false → exec (.strataRelease cid) s = .next (commit s s))
      ∧ (allAtRest s c = true → exec (.strataRelease cid) s = .next (commit s
        (withPayload (beginCmd s cid) c 32 fun s1 b =>
          let ns := (pieces 32 b).map fun d => (fieldAt d 0xA 2, fieldAt d 0 4)
          let good (n : Nat × Nat) : Prop := validTile n.1 = true ∧ ∃ e, regionStart s1 n.1 n.2 = some e ∧ c.may e.2.part = true
          if b.length % 32 = 0 ∧ (∀ n ∈ ns, good n) then
            complete (forEach ns s1 fun s n => match regionStart s n.1 n.2 with
              | some e => releaseRegion s (liveTile s n.1) e.1
              | none => s) cid stOk
          else complete s1 cid stBadDescriptor))))
    ∧ (∀ (s : State) (l n : Nat) (r : Region), Tbl.get none s.strata.regions (64 * l + n) = some r →
      Tbl.get none (releaseRegion s l n).strata.regions (64 * l + n) = none
        ∧ ∀ k, k ≠ 64 * l + n → Tbl.get none (releaseRegion s l n).strata.regions k = Tbl.get none s.strata.regions k))
  ∧ ((∀ (s : State) (a : BitVec 48) (by_ : FoundBy) (rb : Bool),
      (strataAt s a.toNat = none → exec (.strataParityFail a by_ rb) s = .next (commit s s))
      ∧ (∀ l off, strataAt s a.toNat = some (l, off) →
        exec (.strataParityFail a by_ rb) s
          = .next (commit s (resolveFail (setParity s (strataAddr l off) true) l off by_ rb))))
    ∧ (∀ (s : State) (t off : Nat) (by_ : FoundBy) (rb : Bool) (r : Region), regionOf s t off = some r →
      (r.cls = 1 → (resolveFail s t off by_ rb).strata.refetching = s.strata.refetching ++ [(strataAddr t off, by_)]
        ∧ ((∃ e ∈ s.strata.refetching, e.1 / 256 = strataAddr t off / 256) → (resolveFail s t off by_ rb).regs = s.regs))
      ∧ (r.cls = 2 → rb = false →
        let x := recoverByte s t off (foundCode by_)
        resolveFail s t off by_ rb = (if x.1 = .replay then replayStep x.2 r.part else x.2)))
    ∧ (∀ (s : State) (a : BitVec 48) (ok rb : Bool),
      (strataAt s a.toNat = none → exec (.cleanRefetchDone a ok rb) s = .next (commit s s))
      ∧ (∀ l off, strataAt s a.toNat = some (l, off) →
        let here := s.strata.refetching.filter fun e => e.1 / 256 == strataAddr l off / 256
        (here = [] ∨ regionOf s l off = none → exec (.cleanRefetchDone a ok rb) s = .next (commit s s))
        ∧ (∀ e more r, here = e :: more → regionOf s l off = some r →
          let o := e.1 % 0x8000000
          let t := setStrata s fun x => { x with refetching := x.refetching.filter fun x => x.1 / 256 != e.1 / 256 }
          let ends (v : State) (y : Acc) : State := forEach (here.map (·.2)) v fun s b => readerOutcome s b l y
          (ok = false → exec (.cleanRefetchDone a ok rb) s = .next (commit s (ends (strLost (relog t l o 5) l) (.fail stTierFail))))
          ∧ (∀ y b v, ok = true → tierFetch t 0 (r.source + (o / 2048 * 2048 - r.offset)) 2048 = (y, b, v) →
            (y = .wait → exec (.cleanRefetchDone a ok rb) s = .next (commit s s))
            ∧ (y = .ok → exec (.cleanRefetchDone a ok rb) s = .next (commit s (ends (repairLine (strRecovered
              (putStrata v l (o / 256 * 256) ((b.drop (o / 256 * 256 % 2048)).take 256)) l) l o rb) .ok)))
            ∧ (y ≠ .ok → y ≠ .wait → exec (.cleanRefetchDone a ok rb) s
              = .next (commit s (ends (strLost (relog v l o 5) l) (.fail stTierFail)))))))))
  ∧ ((∀ (s : State) (d : Die) (fails rb : Bool),
      let x := scrubAt s d.val
      let t := (scrubTarget d.val x.pos).1
      let line := (scrubTarget d.val x.pos).2
      let moved (v : State) : State := if x.pos + 1 = dieLines then newPass (regAddWrap v ⟨.strScrubPass, d.val, 0⟩ 0 32 1) d.val
        else setScrub v d.val { x with pos := x.pos + 1 }
      (regBit s ⟨.strScrub, d.val, 0⟩ 30 = false → exec (.scrubLine d fails rb) s = .next (commit s s))
      ∧ (regBit s ⟨.strScrub, d.val, 0⟩ 30 = true →
        (∀ o more, badIn s t line 256 = o :: more →
          exec (.scrubLine d fails rb) s = .next (commit s (moved (resolveFail s t o .scrubber rb))))
        ∧ (badIn s t line 256 = [] → fails = false → exec (.scrubLine d fails rb) s = .next (commit s (moved s)))
        ∧ (badIn s t line 256 = [] → fails = true → ∃ o v, line ≤ o ∧ o < line + 256 ∧ v.strata = s.strata ∧ v.mem = s.mem
          ∧ exec (.scrubLine d fails rb) s = .next (commit s (moved (resolveFail (setParity v (strataAddr t o) true) t o .scrubber rb))))))
    ∧ (∀ (s : State) (d : Die),
      let r : Reg := ⟨.strScrub, d.val, 0⟩
      let x := scrubAt s d.val
      let late : Prop := regBit s r 30 = true ∧ x.behind = false ∧ x.start + 2 * x.period * 1000000000 ≤ s.now
      (late → exec (.scrubBehind d) s = .next (commit s (faultReg (setScrub (regOr s r (2 ^ 31)) d.val { x with behind := true }) 0xFF r)))
      ∧ (¬ late → exec (.scrubBehind d) s = .next (commit s s))))

/-- TIER_ALLOC makes its region, zeroed where it asks for that, when the fields, the place, the cells and the quota allow it, each
refused with its own status; TIER_FREE ends a region no one uses, after a BACKED one's DIRTY units are written back; TIER_FLUSH writes
a BACKED range back and ends as its write-backs end. Each waits until its partition is at rest. TIER_QUOTA sets both limits at once.
A region that a TIER_FREE drops is in no table afterwards, and every other region stays. -/
def Obligations.TierRegionsAreAllocatedAndFreed : Prop :=
  (∀ (s : State) (cid : Nat) (c : Cmd), cmdFor s cid 0x0020 = some c →
    (atRest s c (cmdPart s c) = false → exec (.tierAlloc cid) s = .next (commit s s))
    ∧ (atRest s c (cmdPart s c) = true → exec (.tierAlloc cid) s = .next (commit s
      (withPayload (beginCmd s cid) c 48 fun t b =>
        let r := allocOf b
        if allocFields b = false ∨ c.may (fieldAt b 1 1) = false ∨ (partAt t r.part.val).st = .none ∨ allocPlace t r = false
            ∨ regionOverlap t r = true then complete t cid stBadDescriptor
        else if cellsFree t r = false then complete t cid stNoResource
        else if withinQuota t r = false then complete t cid stQuotaOver
        else complete (setTier (if bitOf (fieldAt b 4 1) 0 = true then zeroFill t r else t) fun x =>
          { x with regions := x.regions ++ [r] }) cid stOk))))
  ∧ (∀ (s : State) (r : TierRegion), r.backed = false →
      (∀ a, a < r.base ∨ r.base + r.size ≤ a → r.codec = 0 → Tbl.get 0 (zeroFill s r).mem a = Tbl.get 0 s.mem a)
      ∧ (∀ a, r.base ≤ a → a < r.base + r.size → r.codec = 0 → Tbl.get 0 (zeroFill s r).mem a = 0))
  ∧ (∀ (s : State) (cid : Nat) (c : Cmd), cmdFor s cid 0x0021 = some c →
    (atRest s c (cmdPart s c) = false → exec (.tierFree cid) s = .next (commit s s))
    ∧ (atRest s c (cmdPart s c) = true →
      let s1 := beginCmd s cid
      let found := s1.tier.regions.find? fun r => r.base == fieldAt c.inl 0 8
      (found = none → exec (.tierFree cid) s = .next (commit s (complete s1 cid stBadDescriptor)))
      ∧ (∀ r, found = some r →
        let kept : Prop := zeroAt c.inl 8 16 = false ∨ c.may r.part.val = false ∨ backedBy s1 r ≠ none ∨ heldRegion s1 r = true
        (kept → exec (.tierFree cid) s = .next (commit s (complete s1 cid stBadDescriptor)))
        ∧ (¬ kept → r.backed = false →
          exec (.tierFree cid) s = .next (commit s (tierNotice s (complete (dropTierRegion s1 r) cid stOk) r.part.val)))
        ∧ (∀ a s2, ¬ kept → r.backed = true → flushRange s1 r r.base r.length = (a, s2) →
          (a = .ok → exec (.tierFree cid) s
            = .next (commit s (tierNotice s (complete (dropTierRegion s2 r) cid stOk) r.part.val)))
          ∧ (a ≠ .ok → exec (.tierFree cid) s = .next (commit s (endBy s s2 cid a)))))))
  ∧ (∀ (s : State) (r k : TierRegion), (k ∈ (dropTierRegion s r).tier.regions ↔ k ∈ s.tier.regions ∧ k.base ≠ r.base))
  ∧ (∀ (s : State) (cid : Nat) (c : Cmd), cmdFor s cid 0x0022 = some c →
    (atRest s c (cmdPart s c) = false → exec (.tierFlush cid) s = .next (commit s s))
    ∧ (atRest s c (cmdPart s c) = true →
      let s1 := beginCmd s cid
      let a := fieldAt c.inl 0 8
      let n := fieldAt c.inl 8 8
      (tierRegionAt s1 a = none → exec (.tierFlush cid) s = .next (commit s (complete s1 cid stBadDescriptor)))
      ∧ (∀ r, tierRegionAt s1 a = some r →
        (r.backed = false ∨ r.base + r.length < a + n ∨ c.may r.part.val = false →
          exec (.tierFlush cid) s = .next (commit s (complete s1 cid stBadDescriptor)))
        ∧ (r.backed = true → a + n ≤ r.base + r.length → c.may r.part.val = true → ∀ x s2, flushRange s1 r a n = (x, s2) →
          (x = .ok → exec (.tierFlush cid) s = .next (commit s (complete s2 cid stOk)))
          ∧ (x = .wait → exec (.tierFlush cid) s = .next (commit s (stillWaits s s2)))
          ∧ (x ≠ .ok → x ≠ .wait → exec (.tierFlush cid) s = .next (commit s (complete s2 cid (accStatus x))))))))
  ∧ (∀ (s : State) (cid : Nat) (c : Cmd), cmdFor s cid 0x0023 = some c →
    exec (.tierQuota cid) s = .next (commit s (withPayload (beginCmd s cid) c 32 fun t b =>
      let p := fieldAt b 0 1
      if c.fn ≠ 0 ∨ 16 ≤ p ∨ (partAt t p).st = .none ∨ zeroAt b 1 7 = false ∨ zeroAt b 0x18 8 = false then
        complete t cid stBadDescriptor
      else complete (tierNotice t (modPart t p fun q => { q with t1Quota := fieldAt b 8 8, t2Quota := fieldAt b 0x10 8 }) p) cid stOk)))

/-- STREAM_DECLARE, once its partition is at rest, sets a weight stream. Once its group stands together, STREAM_ACQ returns the slot of a
layer that is present and has the group wait for one that is not, and STREAM_REL gives the layer up; a stream that is not there, a
layer out of range or a slot still held end the step BAD_DESCRIPTOR. The end of a fetch makes the layer present, and a group that waits
acquires it; a fetch that fails ends the step only where its group waits for that layer, and one whose source waits stays.
BACKED_FILL fills an ABSENT unit, and a failing fill ends the step of the tile whose request it was; WRITE_BACK writes a DIRTY unit of a
lossless backing, RECLAIM evicts one frame while the quota is over; each does nothing where its unit is in no such state or the access
cannot be made now. An entry idle for CTRL.WC_AGE is written out, none before. -/
def Obligations.WeightStreamsAndBackedUnits : Prop :=
  ((∀ (s : State) (cid : Nat) (c : Cmd), cmdFor s cid 0x0024 = some c →
      (atRest s c (cmdPart s c) = false → exec (.streamDeclare cid) s = .next (commit s s))
      ∧ (atRest s c (cmdPart s c) = true → exec (.streamDeclare cid) s = .next (commit s
        (withPayload (beginCmd s cid) c 64 fun t b =>
          if streamOk t b = true ∧ c.may (fieldAt b 1 1) = true then
            complete (setStream t (fieldAt b 1 1) (stNo b) { desc := b.take 64 }) cid stOk
          else complete t cid stBadDescriptor))))
    ∧ (∀ (s s1 : State) (p : PartId),
      (groupCall s p.val 9 streamArg = (none, s1) → exec (.streamAcq p) s = .next (commit s s1))
      ∧ (groupCall s p.val 10 streamArg = (none, s1) → exec (.streamRel p) s = .next (commit s s1))
      ∧ (∀ ms,
        let n := gNum s1 (nth 0 ms 0) 4
        let l := gNum s1 (nth 0 ms 0) 5
        (groupCall s p.val 9 streamArg = (some ms, s1) →
          (8 ≤ n ∨ streamAt s1 p.val n = none → exec (.streamAcq p) s = .next (commit s (failStep s1 p.val stBadDescriptor)))
          ∧ (∀ w, n < 8 → streamAt s1 p.val n = some w →
            (stLayers w.desc ≤ l ∨ slotHeld w l = true → exec (.streamAcq p) s = .next (commit s (failStep s1 p.val stBadDescriptor)))
            ∧ (l < stLayers w.desc → slotHeld w l = false → l ∈ w.present →
              exec (.streamAcq p) s = .next (commit s (groupReturn (setStream s1 p.val n (acquireLayer w l)) ms fun x =>
                setG x 6 (BitVec.ofNat 64 (stSlot w.desc l)))))
            ∧ (l < stLayers w.desc → slotHeld w l = false → l ∉ w.present →
              exec (.streamAcq p) s = .next (commit s (forEach ms (setStream s1 p.val n (wantLayer w l)) fun s t => parkAt s t .tier)))))
        ∧ (groupCall s p.val 10 streamArg = (some ms, s1) →
          (8 ≤ n ∨ streamAt s1 p.val n = none → exec (.streamRel p) s = .next (commit s (failStep s1 p.val stBadDescriptor)))
          ∧ (∀ w, n < 8 → streamAt s1 p.val n = some w → exec (.streamRel p) s = .next (commit s (groupReturn
            (setStream s1 p.val n (startWanted { w with acquired := w.acquired.filter (· != l) })) ms))))))
    ∧ (∀ (s : State) (p : PartId) (n : Fin 8) (l : Nat),
      (streamAt s p.val n.val = none → exec (.streamFetchDone p n l) s = .next (commit s s))
      ∧ (∀ w, streamAt s p.val n.val = some w →
        (l ∉ w.fetching → exec (.streamFetchDone p n l) s = .next (commit s s))
        ∧ (l ∈ w.fetching → ∀ a s1, fetchLayer s p.val w.desc l = (a, s1) →
          let t := setStream s1 p.val n.val
            (startWanted { w with fetching := w.fetching.filter (· != l), present := l :: w.present })
          let f := setStream s1 p.val n.val (startWanted { w with fetching := w.fetching.filter (· != l) })
          let awaits : Prop := ∃ u ∈ runMembers t p.val, atWord t u 9 = true ∧ (tileAt t u).wait = .tier
          (a = .wait → exec (.streamFetchDone p n l) s = .next (commit s (stillWaits s s1)))
          ∧ (a = .ok → ¬ awaits → exec (.streamFetchDone p n l) s = .next (commit s t))
          ∧ (a = .ok → awaits → exec (.streamFetchDone p n l) s = .next (commit s (streamAcqGo t p.val)))
          ∧ (a ≠ .ok → a ≠ .wait → exec (.streamFetchDone p n l) s
            = .next (commit s (if streamAwaited s1 p.val n.val l = true then accStop f p.val a else f)))))))
  ∧ ((∀ (s : State) (a : BitVec 48) (by_ : Option TileId),
      let u := a.toNat / 2048 * 2048
      (tierRegionAt s u = none → exec (.backedFill ⟨a, by_⟩) s = .next (commit s s) ∧ exec (.writeBack a) s = .next (commit s s))
      ∧ (∀ r, tierRegionAt s u = some r →
        (r.backed = false ∨ unitState s u ≠ .absent → exec (.backedFill ⟨a, by_⟩) s = .next (commit s s))
        ∧ (∀ x s1, r.backed = true → unitState s u = .absent → fillUnit s r u = (x, s1) →
          (x = .ok → exec (.backedFill ⟨a, by_⟩) s = .next (commit s s1))
          ∧ (x = .wait → exec (.backedFill ⟨a, by_⟩) s = .next (commit s s))
          ∧ (x ≠ .ok → x ≠ .wait →
            (by_ = none → exec (.backedFill ⟨a, by_⟩) s = .next (commit s s1))
            ∧ (∀ t, by_ = some t →
              ((tileAt s1 (liveTile s1 t.toNat)).part = none → exec (.backedFill ⟨a, by_⟩) s = .next (commit s s1))
              ∧ (∀ p, (tileAt s1 (liveTile s1 t.toNat)).part = some p →
                exec (.backedFill ⟨a, by_⟩) s = .next (commit s (accStop s1 p.val x))))))
        ∧ (r.backed = false ∨ unitState s u ≠ .dirty ∨ losslessBacking s r = false →
          exec (.writeBack a) s = .next (commit s s))
        ∧ (∀ x s1, r.backed = true → unitState s u = .dirty → losslessBacking s r = true → writeBackUnit s 3 r u = (x, s1) →
          (x = .ok → exec (.writeBack a) s = .next (commit s s1))
          ∧ (x ≠ .ok → exec (.writeBack a) s = .next (commit s s)))))
    ∧ (∀ (s s1 : State) (r : TierRegion) (u : Nat) (b : TierRegion), backingOf s r = some b → b.codec = 0 →
      (fillUnit s r u = (.ok, s1) → unitState s1 u = .clean)
      ∧ (writeBackUnit s 3 r u = (.ok, s1) → unitState s u ≠ .absent → unitState s1 u = .clean))
    ∧ (∀ (s : State) (p : PartId),
      (reclaims s p.val = false →
        exec (.reclaim p) s = .next (commit s (regPut s ⟨.partTierstat, 0, p.val⟩ 2 1 0)))
      ∧ (∀ x s1, reclaims s p.val = true → evictFrame s p.val = (x, s1) →
        (x = .ok → exec (.reclaim p) s = .next (commit s (tierNotice s
          (regPut s1 ⟨.partTierstat, 0, p.val⟩ 2 1 (b2n (reclaims s1 p.val))) p.val)))
        ∧ (x ≠ .ok → exec (.reclaim p) s = .next (commit s s))))
    ∧ (∀ (s : State) (c : TierCtl) (u : Nat) (ue : Bool),
      (Tbl.get none s.tier.wc u = none → exec (.wcAgeExpiry c u ue) s = .next (commit s s))
      ∧ (∀ e, Tbl.get none s.tier.wc u = some e →
        let due : Prop := ofCtl (tierCtlNo c) u = true ∧ e.written + regFld s (tierCtrl (tierCtlNo c)) 4 4 * 1000 ≤ s.now
        (due → exec (.wcAgeExpiry c u ue) s = .next (commit s (mergeOut s (tierCtlNo c) u ue)))
        ∧ (due → ue = false → exec (.wcAgeExpiry c u ue) s = .next (commit s (wcWriteOut s u false)))
        ∧ (¬ due → exec (.wcAgeExpiry c u ue) s = .next (commit s s)))))

/-- Late requests and uncorrectable errors of a controller's unit are noted there, and the request ends TIER_FAIL: a tile's step, a
command, a drain, a host read, or every write of an entry that is being merged; for an address of another controller nothing happens.
A unit in use whose retirement is due retires while ENABLE is set and the reserve has room, else it is FAILED, with a fault record; the
end of its redirection loses what it held and names the units that take its addresses. A tier scrub, while it is enabled, counts what
it corrects and marks lost what it cannot.
The logs of failures: a write of 1 to VALID clears VALID and OVER, unless hardware sets VALID at that moment; every other
bit stays. STR_SCRUB ignores a PERIOD of 0 and starts a new pass when ENABLE is set. -/
def Obligations.TierErrorsAndErrorLogs : Prop :=
  ((∀ (s : State) (c : TierCtl) (a : BitVec 48) (r : TierReq),
      (ofCtl (tierCtlNo c) a.toNat = true →
        exec (.tierLate c a r) s = .next (commit s (if r = .merge then mergeLate (noteLate s (tierCtlNo c) a.toNat) (tierUnit a.toNat).1
          else requestFails (noteLate s (tierCtlNo c) a.toNat) a.toNat r))
        ∧ exec (.tierUncorrectable c a r) s = .next (commit s (requestFails (noteUe s (tierCtlNo c) a.toNat) a.toNat r)))
      ∧ (ofCtl (tierCtlNo c) a.toNat = false →
        exec (.tierLate c a r) s = .next (commit s s) ∧ exec (.tierUncorrectable c a r) s = .next (commit s s)))
    ∧ (∀ (s : State) (a : Nat),
      requestFails s a .none = s
      ∧ (∀ t : TileId, (∀ p, (tileAt s (liveTile s t.toNat)).part = some p →
          requestFails s a (.tile t) = stopStep s p.val stTierFail)
        ∧ ((tileAt s (liveTile s t.toNat)).part = none → requestFails s a (.tile t) = s))
      ∧ (∀ cid c, cmdAt s cid = some c → (∀ r, (partAt s (cmdPart s c)).run = some r → r.cid ≠ cid) →
        requestFails s a (.command cid) = complete (dropWaiting s (cmdPart s c) cid) cid stTierFail)
      ∧ (∀ p : PartId, requestFails s a (.drain p) = drainEnd s p.val stTierFail)
      ∧ requestFails s a .bar4 = emit (emit s .bar4Poisoned) .aer
      ∧ requestFails s a .merge = wcWriteOut s (tierUnit a).1 true)
    ∧ (∀ (s : State) (u : Nat) (e : WcEntry), Tbl.get none s.tier.wc u = some e → e.bytes.length ≠ (tierUnit u).2 →
      unitHeld s u = false → unitFailed s u = false →
      (wcWriteOut s u true).mem = s.mem ∧ isLost (wcWriteOut s u true) u = true ∧ Tbl.get none (wcWriteOut s u true).tier.wc u = none)
    ∧ (∀ (s : State) (c : TierCtl) (pc : Fin 64) (why : RetireCause),
      let u := retireUnit c pc
      (unitStateNo s u ≠ 0 ∨ retireDue s c u why = false → exec (.tierRetirement c pc why) s = .next (commit s s))
      ∧ (unitStateNo s u = 0 → retireDue s c u why = true → regBit s (tierCtrl (tierCtlNo c)) 1 = true → reserveLeft s u = true →
        exec (.tierRetirement c pc why) s = .next (commit s (faultReg (setTier (setUnitNo s u 1) fun t =>
          { t with redirecting := t.redirecting ++ [u] }) 0xFF (tierStat (tierCtlNo c)))))
      ∧ (unitStateNo s u = 0 → retireDue s c u why = true → regBit s (tierCtrl (tierCtlNo c)) 1 = false ∨ reserveLeft s u = false →
        exec (.tierRetirement c pc why) s = .next (commit s (faultReg (setUnitNo s u 2) 0xFF (tierStat (tierCtlNo c))))))
    ∧ (∀ (s : State) (c : TierCtl) (pc : Fin 64),
      let u := retireUnit c pc
      (u ∈ s.tier.redirecting → exec (.redirectionComplete c pc) s
        = .next (commit s (let v := if u.1 = true then loseChannel s u.2 else losePc s u.2
            setTier v fun t => { t with redirecting := t.redirecting.filter (· != u), targets := Tbl.put [] t.targets (unitKey u) (takers v u) })))
      ∧ (u ∉ s.tier.redirecting → exec (.redirectionComplete c pc) s = .next (commit s s)))
    ∧ (∀ (s : State) (c : TierCtl) (u : Nat) (f : ScrubResult),
      let k := tierCtlNo c
      (regBit s (tierCtrl k) 0 = false ∨ ofCtl k u = false ∨ u ≠ (tierUnit u).1 → exec (.tierScrub c u f) s = .next (commit s s))
      ∧ (regBit s (tierCtrl k) 0 = true → ofCtl k u = true → u = (tierUnit u).1 →
        (f = .clean → exec (.tierScrub c u f) s = .next (commit s s))
        ∧ (f = .corrected → exec (.tierScrub c u f) s = .next (commit s (regAddSat s (tierStat k) 48 16 1)))
        ∧ (f = .uncorrectable → exec (.tierScrub c u f) s = .next (commit s (setLost (noteUe s k u) u true))))))
  ∧ ((∀ (s : State) (t : TileId) (v hw : W64),
      (validTile t.toNat = false → exec (.strErrlogWrite t v hw) s = .next (commit s s))
      ∧ (validTile t.toNat = true → ∃ u, exec (.strErrlogWrite t v hw) s = .next u
        ∧ (v.toNat % 2 = 1 → hw = 0 → regFld u ⟨.strErrlog, t.toNat, 0⟩ 0 2 = 0)
        ∧ (hw.toNat % 2 = 1 → regBit u ⟨.strErrlog, t.toNat, 0⟩ 0 = true)
        ∧ (hw = 1 → v.toNat / 2 % 2 = 0 → regBit u ⟨.strErrlog, t.toNat, 0⟩ 1 = regBit s ⟨.strErrlog, t.toNat, 0⟩ 1)
        ∧ regFld u ⟨.strErrlog, t.toNat, 0⟩ 2 62 = regFld s ⟨.strErrlog, t.toNat, 0⟩ 2 62
        ∧ (∀ r : Reg, r.key ≠ (⟨.strErrlog, t.toNat, 0⟩ : Reg).key → regGet u r = regGet s r)))
    ∧ (∀ (s : State) (d : Die) (i : Fin 4) (v hw : W64),
      ∃ u, exec (.codecErrlogWrite d i v hw) s = .next u
        ∧ (v.toNat % 2 = 1 → hw = 0 → regFld u ⟨.codecErrlog, 4 * d.val + i.val, 0⟩ 0 2 = 0)
        ∧ (hw.toNat % 2 = 1 → regBit u ⟨.codecErrlog, 4 * d.val + i.val, 0⟩ 0 = true)
        ∧ regFld u ⟨.codecErrlog, 4 * d.val + i.val, 0⟩ 2 62 = regFld s ⟨.codecErrlog, 4 * d.val + i.val, 0⟩ 2 62)
    ∧ (∀ (s : State) (p : PipeId) (v hw : W64),
      ∃ u, exec (.ingPipeerrWrite p v hw) s = .next u
        ∧ (v.toNat % 2 = 1 → hw = 0 → regFld u ⟨.ingPipeerr, 0, p.val⟩ 0 2 = 0)
        ∧ (hw.toNat % 2 = 1 → regBit u ⟨.ingPipeerr, 0, p.val⟩ 0 = true)
        ∧ regFld u ⟨.ingPipeerr, 0, p.val⟩ 2 62 = regFld s ⟨.ingPipeerr, 0, p.val⟩ 2 62)
    ∧ (∀ (s : State) (d : Die) (v hw : W32),
      ∃ u, exec (.strScrubWrite d v hw) s = .next u
        ∧ (v.toNat % 65536 = 0 → regFld u ⟨.strScrub, d.val, 0⟩ 0 16 = regFld s ⟨.strScrub, d.val, 0⟩ 0 16)
        ∧ (v.toNat % 65536 ≠ 0 → regFld u ⟨.strScrub, d.val, 0⟩ 0 16 = v.toNat % 65536)
        ∧ (regBit s ⟨.strScrub, d.val, 0⟩ 30 = false → v.getLsbD 30 = true → (scrubAt u d.val).pos = 0 ∧ (scrubAt u d.val).start = s.now)
        ∧ (regBit s ⟨.strScrub, d.val, 0⟩ 30 = true ∨ v.getLsbD 30 = false → scrubAt u d.val = scrubAt s d.val)))

/-- The ten codec operations act once the group stands at CODEC with one descriptor, and until then leave its members waiting: a
descriptor that is misaligned or outside scratch raises DADDR, a bad one CMD_DESC; where the descriptor names another operation the row
changes nothing; without a die the step ends NO_RESOURCE, where a check failed CHECK_FAIL, and where an access did not end well as that
says. Otherwise the members return to g31 with the operation's writes made. BC_ENC writes each block of its source encoded in order,
and nothing where its source cannot be read. -/
def Obligations.CodecOperationsRunForTheGroup : Prop :=
  (∀ row ∈ ([(1, .bcEnc, bcEncGo), (2, .bcDec, bcDecGo), (3, .bcVerify, bcVerifyGo), (4, .ral2pDecode, r2Go), (5, .spEnc, spEncGo),
      (6, .spDec, spDecGo), (7, .fcProject, fcProjectGo), (8, .fcOrtho, fcOrthoGo), (9, .fcQproj, fcQprojGo), (10, .fcResid, fcResidGo)]
      : List (Nat × (RoutineCall → Instr) × (Nat → State → Bytes → List Nat → Acc × Bool × State))),
    ∀ (s : State) (p : PartId) (hit : Option TileId),
      (∀ u, scratchCall s p.val 11 hit (descArg 64) = (none, u) → exec (row.2.1 ⟨p, hit⟩) s = .next (commit s u))
      ∧ (∀ ms s1, scratchCall s p.val 11 hit (descArg 64) = (some ms, s1) →
        (libDesc s1 (nth 0 ms 0) 64 = none → exec (row.2.1 ⟨p, hit⟩) s = .next (commit s (newtFault s1 (nth 0 ms 0) 0x03 0 false)))
        ∧ (∀ d, libDesc s1 (nth 0 ms 0) 64 = some d →
          (codecOk d = false → exec (row.2.1 ⟨p, hit⟩) s = .next (commit s (newtFault s1 (nth 0 ms 0) 0x09 0 false)))
          ∧ (codecOk d = true → cdOp d ≠ row.1 → exec (row.2.1 ⟨p, hit⟩) s = .next (commit s s1))
          ∧ (codecOk d = true → cdOp d = row.1 → partDies s1 p.val = [] →
            exec (row.2.1 ⟨p, hit⟩) s = .next (commit s (failStep s1 p.val stNoResource)))
          ∧ (∀ a bad t, codecOk d = true → cdOp d = row.1 → partDies s1 p.val ≠ [] →
            row.2.2 p.val s1 d (partDies s1 p.val) = (a, bad, t) →
            (a = .ok → bad = true → exec (row.2.1 ⟨p, hit⟩) s = .next (commit s (failStep t p.val stCheckFail)))
            ∧ (a = .ok → bad = false → exec (row.2.1 ⟨p, hit⟩) s = .next (commit s (forEach ms t fun s u => modTile s u libReturn)))
            ∧ (a ≠ .ok → exec (row.2.1 ⟨p, hit⟩) s = .next (commit s (libEnd s1 t p.val ms a)))))))
  ∧ (∀ (p : Nat) (s s1 : State) (d : Bytes) (ds : List Nat) (a : Acc) (b : Bytes),
    let w := blkDecoded (cdElem d)
    readMem s (.step p) (cdSrc d) (cdCount d / 64 * w) = (a, b, s1) →
    (a ≠ .ok → bcEncGo p s d ds = (a, false, s1))
    ∧ (a = .ok →
      let bs := (List.range (cdCount d / 64)).map fun i =>
        blkEncode (cdElem d) (cdRate d) (cdBidx d + i) (cdTrunc d) ((b.drop (i * w)).take w)
      ∀ s2, writeMem s1 (.step p) (cdDst d) (bs.flatMap (·.1)) (partPrio s1 p) = (.ok, s2) →
        (bcEncGo p s d ds).1 = .ok ∧ (bcEncGo p s d ds).2.2.mem = s2.mem))

/-! ### Links, clasps, fabric time, messages -/

/-- Flits and messages read back as they were built: a flit's CRC holds and its kind, SEQ and ACK are those given; a message's
header is sound, its MCRC holds and every field is the one given. -/
def Obligations.FlitsAndMessagesReadBackAsBuilt : Prop :=
  (∀ (ctl slot seq ack lc cn valid : Nat) (pay : Bytes), pay.length ≤ 244 →
    let f := flitBytes ctl slot seq ack lc cn valid pay
    flitGood f = true ∧ flitKind f = ctl / 4 % 4 ∧ flitSeq f = seq % 4096 ∧ flitAck f = ack % 4096
      ∧ fieldAt f 7 1 = valid % 256 ∧ (ctlRecord f).take pay.length = pay)
  ∧ (∀ (s : State) (x : MsgOut) (m : Bytes), buildMsg s x = some m → x.payload.length ≤ 65536 → (classVc x.cls).isSome = true →
    x.dst < 32768 →
    msgSound m = true ∧ msgClass m = x.cls ∧ msgPart m = x.part % 16 ∧ msgPrio m = x.prio % 4 ∧ msgEpoch m = x.epoch % 65536
      ∧ msgFlow m = x.flow % 65536 ∧ msgTag m = x.tag % 2 ^ 32 ∧ msgAux m = x.aux % 2 ^ 32 ∧ msgLen m = x.payload.length
      ∧ msgPayload m = x.payload ∧ msgSrc m = s.fab.phys.toNat ∧ msgHops m = 0 ∧ (x.byPhys = true → msgDst m = x.dst))

/-- On a usable link, a good DATA flit with the expected SEQ, a payload of 1 to 244 bytes and a buffer class is accepted; another, or
one whose CRC or FEC fails, has a NAK sent once, until a flit is accepted again. The codewords that the FEC corrected are counted, and
one that it could not correct. On any other link, and for a CONTROL flit, nothing happens. Accepting a flit makes the next SEQ expected.
IDLE brings ACK, NAK and credits to a link that takes control traffic. The timers send an acknowledgement that is owed, or every
unacknowledged flit again, the resend counted, unless none is left or the oldest has been sent again REPLAY_LIM times. -/
def Obligations.FlitsAreAcceptedInOrder : Prop :=
  (∀ (s : State) (l : LinkId) (f : Bytes) (cw : Nat) (fec : Bool),
    let good : Prop := flitGood f = true ∧ fec = false
    let s0 := regAddSat s ⟨.lnkErrcnt, l.val, 0⟩ 32 32 cw
    let bad := if fec = true then regAddSat s0 ⟨.lnkErrcnt, l.val, 0⟩ 24 8 1 else s0
    let s1 := takeLinkFields s0 l.val f
    let nak (v : State) : State := if (linkAt v l.val).rejecting = true then v
      else sendPlainCtl (modLink v l.val fun k => { k with rejecting := true }) l.val 0 true
    let fits : Prop := flitSeq f = (linkAt s l.val).expect ∧ 1 ≤ fieldAt f 7 1 ∧ fieldAt f 7 1 ≤ 244 ∧ bitsOf (fieldAt f 0 1) 6 2 < 3
    (usable (linkAt s l.val) = false ∨ (good ∧ flitKind f ≠ 0) → exec (.dataFlit l f ⟨cw, fec⟩) s = .next (commit s s))
    ∧ (usable (linkAt s l.val) = true → good → flitKind f = 0 → fits →
      exec (.dataFlit l f ⟨cw, fec⟩) s = .next (commit s (acceptFlit s1 l.val f)))
    ∧ (usable (linkAt s l.val) = true → good → flitKind f = 0 → ¬ fits →
      exec (.dataFlit l f ⟨cw, fec⟩) s = .next (commit s (nak s1)))
    ∧ (usable (linkAt s l.val) = true → ¬ good → exec (.dataFlit l f ⟨cw, fec⟩) s = .next (commit s (nak bad))))
  ∧ (∀ (s : State) (l : Nat) (f : Bytes), bitOf (fieldAt f 0 1) 4 = true → bitOf (fieldAt f 0 1) 5 = false → 32 ≤ fieldAt f 7 1 → f.length = 256 →
    (linkAt s l).unackedRx < 31 → l < 36 →
    let key := 16 * bitsOf (fieldAt f 0 1) 0 2 + fieldAt f 1 1 % 16
    let m := hopMore ((f.drop 8).take (fieldAt f 7 1))
    Tbl.get .idle (linkAt s l).asm key = .idle →
    routeOf (modLink s l fun k => { k with expect := (k.expect + 1) % 4096, rejecting := false, unackedRx := k.unackedRx + 1 })
      m (some (linkAxis l, classAfter s l (bitsOf (fieldAt f 0 1) 6 2))) = .deliver →
    (linkAt (acceptFlit s l f) l).expect = ((linkAt s l).expect + 1) % 4096
    ∧ (linkAt (acceptFlit s l f) l).rejecting = false
    ∧ Tbl.get .idle (linkAt (acceptFlit s l f) l).asm key = .here ((f.drop 8).take (fieldAt f 7 1)))
  ∧ (∀ (s : State) (l : LinkId) (f : Bytes),
    (takesCtl (linkAt s l.val) = true → isCtl f 0 = true → exec (.ctlIdle l f) s = .next (commit s (takeLinkFields s l.val f)))
    ∧ (takesCtl (linkAt s l.val) = false ∨ isCtl f 0 = false → exec (.ctlIdle l f) s = .next (commit s s)))
  ∧ (∀ (s : State) (l : LinkId),
    let k := linkAt s l.val
    (usable k = true → 0 < k.unackedRx → exec (.ackTimer l) s = .next (commit s (sendPlainCtl s l.val 0)))
    ∧ (usable k = false ∨ k.unackedRx = 0 → exec (.ackTimer l) s = .next (commit s s))
    ∧ (usable k = false ∨ k.replay = [] ∨ regFld s ⟨.lnkCtrl, l.val, 0⟩ 8 4 ≤ oldestTries k →
      exec (.replayTimeout l) s = .next (commit s s))
    ∧ (usable k = true → k.replay ≠ [] → oldestTries k < regFld s ⟨.lnkCtrl, l.val, 0⟩ 8 4 →
      exec (.replayTimeout l) s = .next (commit s (regAddSat (modLink s l.val fun k => { k with resend := k.replay })
        ⟨.lnkErrcnt, l.val, 0⟩ 0 16 1))))

/-- Identification and fabric time: IDENT goes out on every link that takes control records; an IDENT that names a peer this link may
reach makes a training link ACTIVE, or STANDBY while its axis joins or the direction's other links have another peer; another fails it.
TIME goes out on the lowest ACTIVE link of each direction. A TIME record from the parent sets fabric time before the first lock, and
then sets its slew within 100 ppm; from any other neighbour, or at the grandmaster, it moves nothing. In RUN a module follows another
usable parent, or, where it may and has a chip number, becomes the grandmaster.
The join of an axis: a neighbour's JOIN stops its links and owes a JOIN_READY; both JOIN_READYs commit the join, and end an
activation's pause once the module relays on every axis; a commit activates the standby links and fails the ones they replace; an abort
lets the neighbour go on; the timeout aborts and retries, the third marking the standby links JOIN and ending the join. JOIN opens the
clasps of links 3 to 5 of each axis that has not joined and LEAVE closes all; a wrong sense closes them, with a fault record. A record
of another type, on another link state, or in another step of the join changes nothing. -/
def Obligations.IdentificationTimeAndJoins : Prop :=
  ((∀ s : State, exec .identSend s
      = .next (commit s (forEach ((List.range 36).filter fun l => takesCtl (linkAt s l)) s fun s l => sendCtl s l (identRecord s l))))
    ∧ (∀ (s : State) (l : LinkId) (f : Bytes),
      (takesCtl (linkAt s l.val) = false ∨ isCtl f 1 = false → exec (.ctlIdent l f) s = .next (commit s s))
      ∧ (takesCtl (linkAt s l.val) = true → isCtl f 1 = true →
        let s1 := takeLinkFields s l.val f
        (identGap s1 l.val (ctlRecord f) = none →
          exec (.ctlIdent l f) s
            = .next (commit s (if (linkAt s l.val).st = .training then joinProgress (failLink s1 l.val 2) else s1)))
        ∧ (∀ gap, identGap s1 l.val (ctlRecord f) = some gap →
          let s2 := notePeer s1 l.val (ctlRecord f) gap
          let alone : Prop := (joinAt s2 (linkAxis l.val)).step ≠ .half
            ∧ ∀ o ∈ dirLinks (linkDir l.val), linkUsable s2 o = true → peerPhys s2 o = peerPhys s2 l.val
          ((linkAt s l.val).st ≠ .training → exec (.ctlIdent l f) s = .next (commit s s2))
          ∧ ((linkAt s l.val).st = .training → alone →
            exec (.ctlIdent l f) s = .next (commit s (joinProgress (modLink s2 l.val fun k => { k with st := .active }))))
          ∧ ((linkAt s l.val).st = .training → ¬ alone →
            exec (.ctlIdent l f) s = .next (commit s (joinProgress (modLink s2 l.val fun k => { k with st := .standby })))))))
    ∧ (∀ s : State, exec .timeSend s = .next (commit s (forEach
      ((List.range 6).filterMap fun d => (dirLinks d).find? fun l => (linkAt s l).st == .active) s fun s l => sendPlainCtl s l 2)))
    ∧ (∀ (s : State) (l : LinkId) (f : Bytes) (off : Int),
      ((linkAt s l.val).st ≠ .active ∨ isCtl f 2 = false → exec (.timeRecord l f off) s = .next (commit s s))
      ∧ ((linkAt s l.val).st = .active → isCtl f 2 = true →
        let s1 := takeLinkFields s l.val f
        (s1.fab.gm = true ∨ s1.fab.parent.map Fin.val ≠ some (linkDir l.val) →
          exec (.timeRecord l f off) s = .next (commit s s1))
        ∧ (s1.fab.gm = false → s1.fab.parent.map Fin.val = some (linkDir l.val) → ∃ u, exec (.timeRecord l f off) s = .next u
          ∧ regFld u ⟨.timeStat, 0, 0⟩ 0 16 = min 0xFFFF off.natAbs
          ∧ (s1.fab.locked = false → u.now = stepTime s1.now off ∧ u.fab.locked = true ∧ u.fab.holdover = false)
          ∧ (s1.fab.locked = true → u.now = s1.now ∧ u.fab.slew.natAbs ≤ 100 ∧ (off < 0 → u.fab.slew ≤ 0) ∧ (0 < off → 0 ≤ u.fab.slew)
            ∧ (off = 0 → u.fab.slew = 0) ∧ u.fab.holdover = decide (200 < off.natAbs)))))
    ∧ (∀ (s : State) (d : Fin 6),
      let due : Prop := inRun s = true ∧ dirUsable s d.val = true ∧ s.fab.parent ≠ some d
      (due → exec (.parentChange d) s = .next (commit s { s with
        fab := { s.fab with parent := some d, gm := false, holdover := s.fab.locked } }))
      ∧ (¬ due → exec (.parentChange d) s = .next (commit s s)))
    ∧ (∀ s : State,
      let due : Prop := inRun s = true ∧ regBit s ⟨.timeCtrl, 0, 0⟩ 0 = true ∧ ownChip s ≠ none
      (due → exec .grandmasterTakeover s = .next (commit s { s with
        fab := { s.fab with gm := true, parent := none, holdover := false, locked := true, slew := 0 } }))
      ∧ (¬ due → exec .grandmasterTakeover s = .next (commit s s))))
  ∧ ((∀ (s : State) (l : LinkId) (f : Bytes),
      ((linkAt s l.val).st ≠ .standby → exec (.ctlJoin l f) s = .next (commit s s) ∧ exec (.ctlJoinReady l f) s = .next (commit s s)
        ∧ exec (.ctlJoinCommit l f) s = .next (commit s s) ∧ exec (.ctlJoinAbort l f) s = .next (commit s s))
      ∧ (isCtl f 3 = false → exec (.ctlJoin l f) s = .next (commit s s))
      ∧ (isCtl f 4 = false → exec (.ctlJoinReady l f) s = .next (commit s s))
      ∧ (isCtl f 5 = false → exec (.ctlJoinCommit l f) s = .next (commit s s))
      ∧ (isCtl f 6 = false → exec (.ctlJoinAbort l f) s = .next (commit s s))
      ∧ ((linkAt s l.val).st = .standby →
        let s1 := takeLinkFields s l.val f
        (isCtl f 3 = true → exec (.ctlJoin l f) s = .next (commit s (answerJoin
          (modLink (forEach ((dirLinks (linkDir l.val)).filter (linkUsable s1)) s1 fun s o => modLink s o fun k => { k with stopped := true })
            l.val fun k => { k with readyOwed := true }) (linkDir l.val))))
        ∧ (isCtl f 5 = true → exec (.ctlJoinCommit l f) s = .next (commit s
          (forEach ((dirLinks (linkDir l.val)).filter (linkUsable s1)) (activateStandby s1 (linkDir l.val))
            fun s o => leaveLink s o .failed)))
        ∧ (isCtl f 6 = true → exec (.ctlJoinAbort l f) s = .next (commit s
          (forEach (dirLinks (linkDir l.val)) s1 fun s o => modLink s o fun k => { k with stopped := false, readyOwed := false })))))
    ∧ (∀ (s : State) (l : LinkId) (f : Bytes), (linkAt s l.val).st = .standby → isCtl f 4 = true →
      let j := joinAt s (linkAxis l.val)
      let s1 := takeLinkFields s l.val f
      let j' := if linkDir l.val % 2 = 0 then { j with readyPlus := true } else { j with readyMinus := true }
      let t := setJoin s1 (linkAxis l.val) j'
      let v := if j'.readyPlus = true ∧ j'.readyMinus = true then joinCommit t (linkAxis l.val) else t
      (j.step ≠ .sent → exec (.ctlJoinReady l f) s = .next (commit s s))
      ∧ (j.step = .sent → exec (.ctlJoinReady l f) s
        = .next (commit s (if v.boot.phase = .pause ∧ relaysAll v = true then endPause v else v))))
    ∧ (∀ (s : State) (a : Fin 3),
      let j := joinAt s a.val
      let t := sendBoth s a.val 6
      (j.step ≠ .sent → exec (.joinReadyTimeout a) s = .next (commit s s))
      ∧ (j.step = .sent → j.retries + 1 < 3 → exec (.joinReadyTimeout a) s = .next (commit s (setJoin t a.val
        { j with step := .retryWait, retries := j.retries + 1 })))
      ∧ (j.step = .sent → 3 ≤ j.retries + 1 → exec (.joinReadyTimeout a) s = .next (commit s (setJoin
        (forEach ((dirLinks (2 * a.val) ++ dirLinks (2 * a.val + 1)).filter fun l => (linkAt t l).st == .standby) t
          fun s l => regPut s (lnkStatR l) 24 4 6) a.val {})))
      ∧ (j.step = .retryWait → exec (.joinRetry a) s = .next (commit s (sendBoth
        (setJoin s a.val { j with step := .sent, readyPlus := false, readyMinus := false }) a.val 3)))
      ∧ (j.step ≠ .retryWait → exec (.joinRetry a) s = .next (commit s s)))
    ∧ (∀ (s : State) (v : W32),
      (inRun s = true → v.getLsbD 1 = true → exec (.clspJoin v) s
        = .next (commit s (if v.getLsbD 0 = true then closeAll (startJoin s) else startJoin s)))
      ∧ (inRun s = false ∨ v.getLsbD 1 = false → exec (.clspJoin v) s = .next (commit s s))
      ∧ (inRun s = true → v.getLsbD 0 = true → exec (.clspLeave v) s
        = .next (commit s (closeAll (if v.getLsbD 1 = true then startJoin s else s))))
      ∧ (inRun s = false ∨ v.getLsbD 0 = false → exec (.clspLeave v) s = .next (commit s s)))
    ∧ (∀ s : State, s.clspHold = true ∨ s.boot.parErr = true ∨ s.boot.range = true → startJoin s = s)
    ∧ (∀ (s : State) (x : BitVec 18),
      (s.pwr.powered = true → x ≠ s.fab.clasps → exec (.claspSenseMismatch x) s
        = .next (commit s (closeAll (faultReg { s with fab := { s.fab with sensed := x } } 0xFF ⟨.clspStat, 0, 0⟩))))
      ∧ (s.pwr.powered = false ∨ x = s.fab.clasps → exec (.claspSenseMismatch x) s = .next (commit s s)))
    ∧ (∀ s : State, (closeAll s).fab.clasps = 0#18))

/-- The states of a link: a lane fault retrains an ACTIVE link and fails a DEGRADED one; a link fault of a usable link, at the replay
limit only once it is reached, retrains it and moves its flows; retraining ends ACTIVE with four lanes, DEGRADED with three, FAILED with
fewer or by its timeout, and what was not acknowledged is sent again; training on four lanes goes on to identification, and its timeout
fails the link; a FAILED link with AUTO_RETRY trains when its signal returns. In any other state each of these changes nothing.
Of a powered module a write of LNK_CTRL with EN clear disables a link, one with EN set trains a DISABLED link whose clasp is open, and
RETRY trains a FAILED one; a write of another kind than its row names, or of an unpowered module, changes nothing. A link that leaves
for good holds no message, no credit and no lane. -/
def Obligations.LinkStatesFollowTheirTable : Prop :=
  (∀ (s : State) (l : LinkId) (n : Fin 4),
    ((linkAt s l.val).st = .active → exec (.laneFault l n) s = .next (commit s (startRetrain s l.val 3)))
    ∧ ((linkAt s l.val).st = .degraded → exec (.laneFault l n) s = .next (commit s (failLink s l.val 3)))
    ∧ ((linkAt s l.val).st ≠ .active → (linkAt s l.val).st ≠ .degraded → exec (.laneFault l n) s = .next (commit s s)))
  ∧ (∀ (s : State) (l : LinkId) (why : LinkWhy),
    let due : Prop := usable (linkAt s l.val) = true
      ∧ (why = .replayLimit → regFld s ⟨.lnkCtrl, l.val, 0⟩ 8 4 ≤ oldestTries (linkAt s l.val))
    (¬ due → exec (.linkFault l why) s = .next (commit s s))
    ∧ (due → ∃ u, exec (.linkFault l why) s = .next u ∧ (linkAt u l.val).st = .retrain ∧ (linkAt u l.val).seq = 0
      ∧ (linkAt u l.val).expect = 0 ∧ (linkAt u l.val).replay = [] ∧ (linkAt u l.val).used = []))
  ∧ (∀ (s : State) (l : LinkId) (n : BitVec 4),
    ((linkAt s l.val).st ≠ .retrain → exec (.retrainComplete l n) s = .next (commit s s) ∧ exec (.retrainTimeout l) s = .next (commit s s))
    ∧ ((linkAt s l.val).st = .retrain →
      (n = 15#4 → exec (.retrainComplete l n) s = .next (commit s (startReplay (modLink s l.val fun k =>
        { k with st := .active, lanes := n, resend := [] }) l.val)))
      ∧ ((bitSet 4 n.toNat).length = 3 → exec (.retrainComplete l n) s = .next (commit s (startReplay (modLink s l.val fun k =>
        { k with st := .degraded, lanes := n, resend := [] }) l.val)))
      ∧ ((bitSet 4 n.toNat).length < 3 → exec (.retrainComplete l n) s
        = .next (commit s (failLink s l.val (linkAt s l.val).cause)))
      ∧ exec (.retrainTimeout l) s = .next (commit s (failLink s l.val (linkAt s l.val).cause))))
  ∧ (∀ (s : State) (l : LinkId) (n : BitVec 4),
    ((linkAt s l.val).st = .training → n = 15#4 →
      exec (.trainingComplete l n) s = .next (commit s (modLink s l.val fun k => { k with trained := true, lanes := n })))
    ∧ ((linkAt s l.val).st ≠ .training ∨ n ≠ 15#4 → exec (.trainingComplete l n) s = .next (commit s s))
    ∧ ((linkAt s l.val).st = .training → exec (.trainingTimeout l) s = .next (commit s (joinProgress (failLink s l.val 1))))
    ∧ ((linkAt s l.val).st ≠ .training → exec (.trainingTimeout l) s = .next (commit s s))
    ∧ ((linkAt s l.val).st = .failed → n = 15#4 → regBit s ⟨.lnkCtrl, l.val, 0⟩ 2 = true →
      exec (.signalDetected l n) s = .next (commit s (startTraining s l.val)))
    ∧ ((linkAt s l.val).st ≠ .failed ∨ n ≠ 15#4 ∨ regBit s ⟨.lnkCtrl, l.val, 0⟩ 2 = false →
      exec (.signalDetected l n) s = .next (commit s s)))
  ∧ (∀ (s : State) (l : LinkId) (v : W32),
    (s.pwr.powered = false → exec (.lnkRetry l v) s = .next (commit s s) ∧ exec (.lnkEnable l v) s = .next (commit s s)
      ∧ exec (.lnkDisable l v) s = .next (commit s s))
    ∧ (v.getLsbD 1 = false → exec (.lnkRetry l v) s = .next (commit s s))
    ∧ (v.getLsbD 0 = false → exec (.lnkEnable l v) s = .next (commit s s))
    ∧ (v.getLsbD 0 = true → exec (.lnkDisable l v) s = .next (commit s s))
    ∧ (s.pwr.powered = true →
      (v.getLsbD 1 = true → exec (.lnkRetry l v) s = .next (commit s (lnkCtrlWrite s l.val v.toNat)))
      ∧ (v.getLsbD 0 = true → exec (.lnkEnable l v) s = .next (commit s (lnkCtrlWrite s l.val v.toNat)))
      ∧ (v.getLsbD 0 = false → exec (.lnkDisable l v) s = .next (commit s (lnkCtrlWrite s l.val v.toNat)))))
  ∧ (∀ (s : State) (l : LinkId) (v : W32),
    let u := lnkCtrlWrite s l.val v.toNat
    (v.getLsbD 1 = true → v.getLsbD 0 = true → (linkAt s l.val).st = .failed → (linkAt u l.val).st = .training)
    ∧ (v.getLsbD 0 = true → (linkAt s l.val).st = .disabled → claspOpen s l.val = true → 1 < axisExtent s l.val →
      (linkAt u l.val).st = .training)
    ∧ (v.getLsbD 0 = false → v.getLsbD 1 = false → (linkAt s l.val).st = .active ∨ (linkAt s l.val).st = .degraded
        ∨ (linkAt s l.val).st = .standby ∨ (linkAt s l.val).st = .retrain ∨ (linkAt s l.val).st = .failed →
      (linkAt u l.val).st = .disabled)
    ∧ (v.getLsbD 0 = true → v.getLsbD 1 = false → (linkAt s l.val).st ≠ .disabled → (linkAt u l.val).st = (linkAt s l.val).st))
  ∧ (∀ (s : State) (l : Nat) (why : Nat), (linkAt (failLink s l why) l).st = .failed ∧ (linkAt (failLink s l why) l).used = []
    ∧ (linkAt (failLink s l why) l).replay = [] ∧ (linkAt (failLink s l why) l).lanes = 0#4)

/-- Messages that reach the module: one that a check refuses is answered by a NACK with its status. A COMMAND whose length is its own is
admitted once its admission point has come, else it waits in the inbox; REMOTE_CPL and COLL_ABORT are left to their own events. NACK is
counted and reaches what sent the refused message, or, unsound or not for this module, is dropped. MAP replaces the chip map where its
generation is later; READ returns the bytes it asks for, WRITE stores its bytes, READ_DATA is kept for what asked, BULK ends checked,
CHECKPOINT writes a manifest or a chunk into its store. A message whose fields or length its class does not allow is refused CHECK_FAIL,
one whose range or store is not its partition's as its entry says, and an access that must wait leaves the message where it was. -/
def Obligations.MessagesActByTheirClass : Prop :=
  (∀ row ∈ ([(0x00, false, .msgCommand), (0x02, false, .msgMap), (0x20, true, .msgRead), (0x21, false, .msgReadData),
      (0x22, true, .msgWrite), (0x30, true, .msgBulk), (0x31, true, .msgCheckpoint)] : List (Nat × Bool × (Bytes → Instr))),
    ∀ (s : State) (m : Bytes) (st : Status), msgRefused (takeMsg s m) m row.1 row.2.1 = some st →
      exec (row.2.2 m) s = .next (commit s (refuse (takeMsg s m) m st)))
  ∧ (∀ (s : State) (m : Bytes) (cls : Nat) (ep : Bool) (st : Status),
      (msgSound m = false ∨ msgClass m ≠ cls → msgRefused s m cls ep = some stCheckFail)
      ∧ (refuse s m st).mem = s.mem ∧ (refuse s m st).parts = s.parts)
  ∧ (∀ (s : State) (m : Bytes), msgRefused (takeMsg s m) m 0x00 false = none →
    let t := takeMsg s m
    let b := msgPayload m
    let whole : Prop := 64 ≤ b.length ∧ b.length = 64 + fieldAt b 0x20 4
    (¬ whole → exec (.msgCommand m) s = .next (commit s (refuse t m stCheckFail)))
    ∧ (whole → fieldAt b 0 2 = 0x0006 ∨ fieldAt b 0 2 = 0x0032 ∨ remoteAdmissible t m = false →
      exec (.msgCommand m) s = .next (commit s s))
    ∧ (whole → fieldAt b 0 2 ≠ 0x0006 → fieldAt b 0 2 ≠ 0x0032 → remoteAdmissible t m = true →
      exec (.msgCommand m) s = .next (commit s (admitCmd t (remoteCmd t m) (b.take 64)))))
  ∧ (∀ (s : State) (m : Bytes),
    let t := takeMsg s m
    (msgSound m = true → msgClass m = 1 → msgMine t m = true →
      exec (.msgNack m) s = .next (commit s (nackTo { t with fab := { t.fab with nacks := t.fab.nacks + 1 } }
        (BitVec.ofNat 32 (msgTag m)) (BitVec.ofNat 16 (msgAux m % 65536)))))
    ∧ (msgSound m = false ∨ msgClass m ≠ 1 ∨ msgMine t m = false → exec (.msgNack m) s = .next (commit s t)))
  ∧ (∀ (s : State) (m : Bytes), msgRefused (takeMsg s m) m 0x02 false = none →
    let b := msgPayload m
    let fits : Prop := 4 ≤ b.length ∧ b.length % 4 = 0 ∧ b.length ≤ 4 + 4 * 8192
    (¬ fits → exec (.msgMap m) s = .next (commit s (refuse (takeMsg s m) m stCheckFail)))
    ∧ (fits → s.fab.mapGen.toNat < fieldAt b 0 4 →
      exec (.msgMap m) s = .next (commit s (applyMap (takeMsg s m) (BitVec.ofNat 32 (fieldAt b 0 4)) (b.drop 4))))
    ∧ (fits → fieldAt b 0 4 ≤ s.fab.mapGen.toNat → exec (.msgMap m) s = .next (commit s (takeMsg s m))))
  ∧ (∀ (s : State) (m : Bytes), msgRefused (takeMsg s m) m 0x20 true = none →
    let fits : Prop := (msgPayload m).length = 8 ∧ 0 < msgAux m ∧ msgAux m ≤ 65536
    (¬ fits → exec (.msgRead m) s = .next (commit s (refuse (takeMsg s m) m stCheckFail)))
    ∧ (∀ a b s1, fits → readMem (takeMsg s m) (msgWho m) (fieldAt (msgPayload m) 0 8) (msgAux m) = (a, b, s1) →
      (a = .ok → exec (.msgRead m) s = .next (commit s (sendMsg s1
        { byPhys := true, dst := msgSrc m, cls := 0x21, part := msgPart m, prio := msgPrio m, epoch := msgEpoch m, flow := msgFlow m,
          tag := msgTag m, payload := b }).2))
      ∧ (a = .wait → exec (.msgRead m) s = .next (commit s s))
      ∧ (a ≠ .ok → a ≠ .wait → exec (.msgRead m) s = .next (commit s (refuse s1 m (accStatus a))))))
  ∧ (∀ (s : State) (m : Bytes), msgRefused (takeMsg s m) m 0x21 false = none →
    exec (.msgReadData m) s = .next (commit s (setCkpt (takeMsg s m) fun c =>
      { c with answers := c.answers ++ [(BitVec.ofNat 32 (msgTag m), msgPayload m)] })))
  ∧ (∀ (s : State) (m : Bytes), msgRefused (takeMsg s m) m 0x22 true = none →
    ((msgPayload m).length < 8 → exec (.msgWrite m) s = .next (commit s (refuse (takeMsg s m) m stCheckFail)))
    ∧ (∀ a s1, 8 ≤ (msgPayload m).length →
      writeMem (takeMsg s m) (msgWho m) (fieldAt (msgPayload m) 0 8) ((msgPayload m).drop 8) (msgPrio m) = (a, s1) →
      (a = .ok → exec (.msgWrite m) s = .next (commit s s1))
      ∧ (a = .wait → exec (.msgWrite m) s = .next (commit s (stillWaits s s1)))
      ∧ (a ≠ .ok → a ≠ .wait → exec (.msgWrite m) s = .next (commit s (refuse s1 m (accStatus a))))))
  ∧ (∀ (s : State) (m : Bytes), msgRefused (takeMsg s m) m 0x30 true = none →
    exec (.msgBulk m) s = .next (commit s (takeMsg s m)))
  ∧ (∀ (s : State) (m : Bytes), msgRefused (takeMsg s m) m 0x31 true = none →
    let v := takeMsg s m
    let b := msgPayload m
    let manifest := bitOf (msgAux m) 8
    let store := findStore v (if manifest = true then fieldAt b 4 2 else fieldAt b 0x0A 2) (bitsOf (msgAux m) 0 4)
    let ends (t : Store) (a : Acc) (s1 : State) : State := if a = .ok then setStore s1 t else if a = .wait then stillWaits s s1
      else refuse s1 m (collAcc a)
    (store = none → exec (.msgCheckpoint m) s = .next (commit s (refuse v m stBadDescriptor)))
    ∧ (∀ t, store = some t →
      (t.part.val ≠ msgPart m → exec (.msgCheckpoint m) s = .next (commit s (refuse v m stBadDescriptor)))
      ∧ (t.part.val = msgPart m → manifest = true →
        (storeSlotLen t < b.length → exec (.msgCheckpoint m) s = .next (commit s (refuse v m stCheckFail)))
        ∧ (∀ a s1, b.length ≤ storeSlotLen t → writeMem v .device (storeSlot t (nextSlot v t)) (putAt b 7 [1]) 3 = (a, s1) →
          exec (.msgCheckpoint m) s = .next (commit s (ends { t with writing := some (nextSlot v t), got := 0 } a s1))))
      ∧ (t.part.val = msgPart m → manifest = false →
        (t.writing = none → exec (.msgCheckpoint m) s = .next (commit s (refuse v m stBadDescriptor)))
        ∧ (∀ k, t.writing = some k →
          (storeSlotLen t < chunkAt (fieldAt b 4 4) + b.length ∨ 48 + 32768 < b.length →
            exec (.msgCheckpoint m) s = .next (commit s (refuse v m stCheckFail)))
          ∧ (∀ a s1, chunkAt (fieldAt b 4 4) + b.length ≤ storeSlotLen t → b.length ≤ 48 + 32768 →
            writeMem v .device (storeSlot t k + chunkAt (fieldAt b 4 4)) b 3 = (a, s1) →
            exec (.msgCheckpoint m) s = .next (commit s (ends { t with got := t.got + 1 } a s1)))))))

/-! ### Collectives, checkpoints, takeover -/

/-- COLL_OPEN, once its partition is at rest, opens a stream with its watchdog and next sequence number, and grants what waits for it;
COLL_CLOSE closes one. COLL acts once its group stands together with one descriptor, which must lie in scratch: it admits a collective
whose descriptor, order and group hold, whose place in the stream is free and whose ranges lie in the partition's memory, and faults the
first member otherwise, BOUNDS for the ranges and NO_RESOURCE for a 65th that waits. COLL_WAIT returns the status of a collective that has
ended, with the other number after an order stall, and waits for another. Until the group stands together its members wait. -/
def Obligations.CollectivesAreOpenedIssuedAndAwaited : Prop :=
  (∀ (s : State) (cid : Nat) (c : Cmd), cmdFor s cid 0x0030 = some c →
    (atRest s c (cmdPart s c) = false → exec (.collOpen cid) s = .next (commit s s))
    ∧ (atRest s c (cmdPart s c) = true → exec (.collOpen cid) s = .next (commit s
      (withPayload (beginCmd s cid) c 32 fun t b =>
        let n := fieldAt b 0 1
        let p := fieldAt b 1 1
        if b.length = 32 ∧ c.may p = true ∧ collOpenOk t b = true then
          complete (grantAll (modColl t p n fun _ =>
            { st := .opened, wdog := (if fieldAt b 2 2 = 0 then 50 else fieldAt b 2 2),
              nextSeq := BitVec.ofNat 32 (fieldAt b 4 4), lzOff := fieldAt b 8 8 }) p n) cid stOk
        else complete t cid stBadDescriptor))))
  ∧ (∀ (s : State) (cid : Nat) (c : Cmd), cmdFor s cid 0x0031 = some c →
    let bad : Prop := 64 ≤ c.byte 0 ∨ 16 ≤ c.byte 1 ∨ c.may (c.byte 1) = false ∨ (collAt s (c.byte 1) (c.byte 0)).st = .closed
      ∨ zeroAt c.inl 2 22 = false
    (atRest s c (c.byte 1) = false → exec (.collClose cid) s = .next (commit s s))
    ∧ (atRest s c (c.byte 1) = true → bad → exec (.collClose cid) s = .next (commit s (complete (beginCmd s cid) cid stBadDescriptor)))
    ∧ (atRest s c (c.byte 1) = true → ¬ bad →
      exec (.collClose cid) s = .next (commit s (complete (closeColl (beginCmd s cid) (c.byte 1) (c.byte 0)) cid stOk))))
  ∧ (∀ (s : State) (p n : Nat), (collAt (closeColl s p n) p n).st = .closed
    ∧ ∀ q m, (q < 16 ∧ m < 64 ∧ p < 16 ∧ n < 64 ∧ (q ≠ p ∨ m ≠ n)) → collAt (closeColl s p n) q m = collAt s q m)
  ∧ (∀ (s : State) (p : PartId) (hit : Option TileId),
    (∀ u, scratchCall s p.val 12 hit (descArg 64) = (none, u) → exec (.coll ⟨p, hit⟩) s = .next (commit s u))
    ∧ (∀ ms s1, scratchCall s p.val 12 hit (descArg 64) = (some ms, s1) →
      let fault (cause : Nat) : State := newtFault s1 (nth 0 ms 0) cause 0 false
      (libDesc s1 (nth 0 ms 0) 64 = none ∨ ownChip s1 = none → exec (.coll ⟨p, hit⟩) s = .next (commit s (fault 0x09)))
      ∧ (∀ d chip, libDesc s1 (nth 0 ms 0) 64 = some d → ownChip s1 = some chip →
        let c := collAt s1 p.val (cStream d)
        let seq := cSeq d
        let misplaced : Prop := (seq ≠ c.nextSeq ∧ seqAhead seq c.nextSeq = false) ∨ (∃ o ∈ c.pending, o.seq = seq)
          ∨ ∃ r, c.run = some r ∧ r.op.seq = seq
        let bad : Prop := collDescOk s1 d = false ∨ c.st = .closed ∨ isMember s1 d chip = false ∨ collApart s1 d chip = false
          ∨ (c.st ≠ .failed ∧ misplaced)
        let full : Prop := c.st ≠ .failed ∧ 64 ≤ c.pending.length
        (bad → exec (.coll ⟨p, hit⟩) s = .next (commit s (fault 0x09)))
        ∧ (¬ bad → full → exec (.coll ⟨p, hit⟩) s = .next (commit s (fault 0x0F)))
        ∧ (¬ bad → ¬ full → collInside s1 p.val d chip = false → exec (.coll ⟨p, hit⟩) s = .next (commit s (fault 0x0A)))
        ∧ (¬ bad → ¬ full → collInside s1 p.val d chip = true →
          exec (.coll ⟨p, hit⟩) s = .next (commit s (forEach ms (admitColl s1 p.val d) fun s t => modTile s t libReturn))))))
  ∧ (∀ (s s1 : State) (p : PartId),
    (groupCall s p.val 13 (fun s t => [gNum s t 4, gNum s t 5]) = (none, s1) → exec (.collWait p) s = .next (commit s s1))
    ∧ (∀ ms, groupCall s p.val 13 (fun s t => [gNum s t 4, gNum s t 5]) = (some ms, s1) →
      let n := gNum s1 (nth 0 ms 0) 4
      let seq := BitVec.ofNat 32 (gNum s1 (nth 0 ms 0) 5)
      let ended := (collAt s1 p.val n).ended.find? fun e => e.1 == seq
      (64 ≤ n → exec (.collWait p) s = .next (commit s (newtFault s1 (nth 0 ms 0) 0x09 0 false)))
      ∧ (n < 64 → ended = none → exec (.collWait p) s = .next (commit s (forEach ms s1 fun s t => parkAt s t .coll)))
      ∧ (∀ q st other, n < 64 → ended = some (q, st, other) →
        exec (.collWait p) s = .next (commit s (groupReturn s1 ms fun x =>
          let x := setG x 6 (BitVec.ofNat 64 st.toNat)
          if st = stOrderStall then setG x 7 (BitVec.ofNat 64 other.toNat) else x)))))

/-- The collective whose turn it is starts with its source bytes: one already aborted fails with its status, one whose source cannot be
read with that, and one whose source must be waited for stays; with a collective running, none whose turn it is, or no chip number,
nothing starts. The watchdog ends a collective that has not moved for its time with ORDER_STALL, naming the lowest number held ahead of
it, and none before. Clearing VALID of COLL_STALL1 clears OVER.
Collective messages: a refused one is answered, one shorter than its header is refused CHECK_FAIL, and one of another type is left. A REQ
for a failed stream, or behind its stream's next number, is stale; one whose digest differs from its collective's stalls it; any other waits
for its grant. A GRANT has its chunk sent once; an ACK removes it; a RESEND has it sent once more; for a chunk that is not sent they change
nothing. DATA is placed in the chunk it names; its last fragment completes a sound chunk, which is acknowledged and used, asks once again
for one that fails its check, and fails the collective the second time; for no chunk it is stale where the stream is not open or the number
lies behind. An abort of the running collective fails it without telling the others, one ahead of it is kept, another changes nothing. -/
def Obligations.CollectivesRunAndMoveChunks : Prop :=
  ((∀ (s : State) (p : PartId) (n : Fin 64),
      let c := collAt s p.val n.val
      let turn := c.pending.find? fun o => o.seq == c.nextSeq
      (c.run ≠ none ∨ turn = none ∨ ownChip s = none → exec (.collectiveStart p n) s = .next (commit s s))
      ∧ (∀ op chip, c.run = none → turn = some op → ownChip s = some chip →
        (∀ q st tell, c.aborts.find? (fun a => a.1 == op.seq) = some (q, st, tell) →
          exec (.collectiveStart p n) s = .next (commit s (collFail s p.val n.val op st 0 tell)))
        ∧ (∀ a b s1, c.aborts.find? (fun a => a.1 == op.seq) = none →
          readMem s (.step p.val) (cSrc op.desc) (srcLen s op.desc chip) = (a, b, s1) →
          (a = .wait → exec (.collectiveStart p n) s = .next (commit s s))
          ∧ (a ≠ .ok → a ≠ .wait → exec (.collectiveStart p n) s = .next (commit s (collFail s1 p.val n.val op (collAcc a) 0 true)))
          ∧ (∀ t, a = .ok → collGo (startColl s1 p.val n.val chip op b) p.val n.val = .ok t →
            exec (.collectiveStart p n) s = .next (commit s t))
          ∧ (∀ t, a = .ok → collGo (startColl s1 p.val n.val chip op b) p.val n.val = .error t →
            exec (.collectiveStart p n) s = .next (commit s (stillWaits s t))))))
    ∧ (∀ (s : State) (p : PartId) (n : Fin 64),
      let c := collAt s p.val n.val
      (c.run = none → exec (.collWatchdog p n) s = .next (commit s s))
      ∧ (∀ r, c.run = some r →
        (s.now < r.lastMove + c.wdog * 1000000 → exec (.collWatchdog p n) s = .next (commit s s))
        ∧ (r.lastMove + c.wdog * 1000000 ≤ s.now →
          (c.held = [] → exec (.collWatchdog p n) s = .next (commit s (orderStall s p.val n.val 0 r.op n.val c.nextSeq)))
          ∧ (c.held ≠ [] → ∃ h ∈ c.held, (∀ k ∈ c.held, (h.seq - c.nextSeq).toNat ≤ (k.seq - c.nextSeq).toNat)
            ∧ exec (.collWatchdog p n) s = .next (commit s (orderStall s p.val n.val 0 r.op n.val h.seq))))))
    ∧ (∀ (s : State) (v hw : W64), ∃ u, exec (.collStall1Write v hw) s = .next u
        ∧ (v.toNat % 2 = 1 → hw = 0 → regFld u ⟨.collStall1, 0, 0⟩ 0 2 = 0)
        ∧ (hw.toNat % 2 = 1 → regBit u ⟨.collStall1, 0, 0⟩ 0 = true)
        ∧ regFld u ⟨.collStall1, 0, 0⟩ 2 62 = regFld s ⟨.collStall1, 0, 0⟩ 2 62))
  ∧ ((∀ row ∈ ([(1, false, .collReq), (2, false, .collGrant), (3, true, .collData), (4, false, .collAck), (5, false, .collResend)]
        : List (Nat × Bool × (Die → Bytes → Instr))),
      ∀ (s : State) (d : Die) (m : Bytes),
        (∀ st, msgRefused (takeMsg s m) m 0x10 row.2.1 = some st →
          exec (row.2.2 d m) s = .next (commit s (refuse (takeMsg s m) m st)))
        ∧ (msgRefused (takeMsg s m) m 0x10 row.2.1 = none → m.length < 64 →
          exec (row.2.2 d m) s = .next (commit s (refuse (takeMsg s m) m stCheckFail)))
        ∧ (msgRefused (takeMsg s m) m 0x10 row.2.1 = none → 64 ≤ m.length → hType m ≠ row.1 →
          exec (row.2.2 d m) s = .next (commit s s)))
    ∧ (∀ (s : State) (d : Die) (m : Bytes), msgRefused (takeMsg s m) m 0x10 false = none → 64 ≤ m.length → hType m = 1 →
      let t := takeMsg s m
      let p := msgPart m
      let n := hStream m
      let c := collAt t p n
      let late : Prop := c.st = .failed ∨ (c.st ≠ .closed ∧ hSeq m ≠ c.nextSeq ∧ seqAhead (hSeq m) c.nextSeq = false)
      let mine := ((match c.run with | some r => [r.op] | none => []) ++ c.pending).find? fun o => o.seq == hSeq m
      let waits := grantAll { t with coll := { t.coll with requests := t.coll.requests ++ [⟨d, m⟩] } } p n
      (late → exec (.collReq d m) s = .next (commit s (stale t d)))
      ∧ (¬ late → mine = none → exec (.collReq d m) s = .next (commit s waits))
      ∧ (∀ o, ¬ late → mine = some o →
        exec (.collReq d m) s = .next (commit s (if o.digest = hDigest m then waits else orderStall t p n 2 o n (hSeq m)))))
    ∧ (∀ (s : State) (d : Die) (m : Bytes), msgRefused (takeMsg s m) m 0x10 false = none → 64 ≤ m.length →
      let t := takeMsg s m
      let p := msgPart m
      let n := hStream m
      (answered t m = none →
        (hType m = 2 → exec (.collGrant d m) s = .next (commit s t)) ∧ (hType m = 4 → exec (.collAck d m) s = .next (commit s t))
        ∧ (hType m = 5 → exec (.collResend d m) s = .next (commit s t)))
      ∧ (∀ r c, answered t m = some (r, c) →
        (hType m = 2 → c.asked = false ∨ c.granted = true → exec (.collGrant d m) s = .next (commit s t))
        ∧ (hType m = 2 → c.asked = true → c.granted = false →
          exec (.collGrant d m) s = .next (commit s (askAll (sendChunk (noteMove (setSent t p n c.tag fun c =>
            { c with granted := true, epoch := BitVec.ofNat 16 (msgEpoch m) }) p n) p n
            { c with epoch := BitVec.ofNat 16 (msgEpoch m) }))))
        ∧ (∀ u, hType m = 4 → collGo (modCollRun t p n fun r => { r with sent := r.sent.filter fun x => x.tag != c.tag }) p n = .ok u →
          exec (.collAck d m) s = .next (commit s u))
        ∧ (∀ u, hType m = 4 → collGo (modCollRun t p n fun r => { r with sent := r.sent.filter fun x => x.tag != c.tag }) p n = .error u →
          exec (.collAck d m) s = .next (commit s (stillWaits s u)))
        ∧ (hType m = 5 → c.again = true → exec (.collResend d m) s = .next (commit s t))
        ∧ (hType m = 5 → c.again = false → exec (.collResend d m) s = .next (commit s (sendChunk
          (setSent (regAddSat t ⟨.collCnt, d.val, 0⟩ 32 16 1) p n c.tag fun c => { c with again := true }) p n c)))))
    ∧ (∀ (s : State) (d : Die) (m : Bytes), msgRefused (takeMsg s m) m 0x10 true = none → 64 ≤ m.length → hType m = 3 →
      let t := takeMsg s m
      let p := msgPart m
      let n := hStream m
      let c := collAt t p n
      let here (k : Chunk) : Bool := k.seq == hSeq m && k.src.toNat == msgSrc m && k.pass == hPass m && k.chunk == hChunk m && !k.complete
      let found := ((match c.run with | some r => r.recv | none => []) ++ c.held).find? here
      let swap (k : Chunk) (l : List Chunk) : List Chunk := l.map fun x => if here x = true then k else x
      (found = none → exec (.collData d m) s = .next (commit s
        (if c.st ≠ .closed ∧ c.st ≠ .failed ∧ (hSeq m = c.nextSeq ∨ seqAhead (hSeq m) c.nextSeq = true) then t else stale t d)))
      ∧ (∀ k0, found = some k0 →
        let k := placeFrag k0 m
        let sound : Prop := crc32c k.data = hCrc m ∧ hDigest m = k.digest
        (∀ r, c.run = some r → r.op.seq = hSeq m →
          let put (x : Chunk) : State := modCollRun t p n fun r => { r with recv := swap x r.recv, lastMove := t.now }
          (bitOf (hFrag m) 7 = false → exec (.collData d m) s = .next (commit s (put k)))
          ∧ (bitOf (hFrag m) 7 = true → sound →
            let v := answerColl (put { k with complete := true }) p n 4 k.src.toNat (hSeq m) k.pass k.chunk k.digest
            (∀ u, collGo v p n = .ok u → exec (.collData d m) s = .next (commit s u))
            ∧ (∀ u, collGo v p n = .error u → exec (.collData d m) s = .next (commit s (stillWaits s u))))
          ∧ (bitOf (hFrag m) 7 = true → ¬ sound → k.fails = 0 → exec (.collData d m) s = .next (commit s
            (answerColl (put { k with data := [], fails := 1 }) p n 5 k.src.toNat (hSeq m) k.pass k.chunk k.digest))))
        ∧ ((∀ r, c.run = some r → r.op.seq ≠ hSeq m) →
          let put (x : Chunk) : State := modColl t p n fun c => { c with held := swap x c.held }
          (bitOf (hFrag m) 7 = false → exec (.collData d m) s = .next (commit s (put k)))
          ∧ (bitOf (hFrag m) 7 = true → sound → exec (.collData d m) s = .next (commit s
            (answerColl (put { k with complete := true }) p n 4 k.src.toNat (hSeq m) k.pass k.chunk k.digest)))
          ∧ (bitOf (hFrag m) 7 = true → ¬ sound → k.fails = 0 → exec (.collData d m) s = .next (commit s
            (answerColl (put { k with data := [], fails := 1 }) p n 5 k.src.toNat (hSeq m) k.pass k.chunk k.digest))))
        ∧ (bitOf (hFrag m) 7 = true → ¬ sound → k.fails ≠ 0 →
          exec (.collData d m) s = .next (commit s (checkFailed t p n d (hSeq m))))))
    ∧ (∀ (s : State) (m : Bytes),
      let t := takeMsg s m
      let e := (msgPayload m).take 64
      let inl := (e.drop 0x28).take 24
      let n := fieldAt inl 0 1
      let p := fieldAt inl 1 1
      let st : Status := BitVec.ofNat 16 (fieldAt inl 2 2)
      let seq := BitVec.ofNat 32 (fieldAt inl 4 4)
      let c := collAt t p n
      let mine : Prop := fieldAt e 0 2 = 0x0032 ∧ n < 64 ∧ p < 16 ∧ (c.st = .opened ∨ c.st = .running)
      let count (v : State) : State := regAddSat v ⟨.collCnt, 0, 0⟩ 0 16 1
      let kept := count (modColl t p n fun c => { c with aborts := c.aborts ++ [(seq, st, false)] })
      (∀ x, msgRefused t m 0 false = some x → exec (.collAbort m) s = .next (commit s (refuse t m x)))
      ∧ (msgRefused t m 0 false = none → ¬ mine → exec (.collAbort m) s = .next (commit s t))
      ∧ (msgRefused t m 0 false = none → mine →
        (∀ r, c.run = some r → exec (.collAbort m) s = .next (commit s
          (if r.op.seq = seq then collFail (count t) p n r.op st 0 false
          else if seqAhead seq c.nextSeq = true then kept else t)))
        ∧ (c.run = none → exec (.collAbort m) s = .next (commit s
          (if seq = c.nextSeq ∨ seqAhead seq c.nextSeq = true then kept else t))))))

/-- CKPT_SHARD and CKPT_STORE, once their partition is at rest, set what they describe, or complete BAD_DESCRIPTOR, or, with no store
left, NO_RESOURCE; CKPT_TAKE of a partition that has a shard, for a step not behind the last admitted one, waits for its step.
No take that is due leaves the state; one whose NOT_AFTER has passed ends EXPIRED. Any other counts itself and keeps its step; it ends
BAD_DESCRIPTOR without a shard, a chip number, a buddy that holds a store for the shard's partition, or with a pool too small or a
collective pending, NO_RESOURCE for a store too small, and as the key slot says; else it copies what the shard names and sends the
manifest. The drain sends one chunk at a time, with its protection taken off, while an engine has room, and binds the key; a read that
must wait leaves it, another that fails ends the take. The buddy commits its slot when every chunk is there, the source when every chunk
is sent. -/
def Obligations.CheckpointsAreTakenDrainedAndCommitted : Prop :=
  ((∀ (s : State) (cid : Nat) (c : Cmd), cmdFor s cid 0x0040 = some c →
      (atRest s c (cmdPart s c) = false → exec (.ckptShard cid) s = .next (commit s s))
      ∧ (atRest s c (cmdPart s c) = true → exec (.ckptShard cid) s = .next (commit s (withPayload (beginCmd s cid) c 64 fun t b =>
        if shardOk t b = true ∧ c.may (fieldAt b 0 1) = true then
          let sh : Shard := ⟨b.take 32, (List.range (fieldAt b 4 2)).map fun i => (b.drop (32 + 32 * i)).take 32⟩
          complete (setCkpt t fun k => { k with shards := Tbl.put none k.shards (fieldAt b 0 1) (some sh) }) cid stOk
        else complete t cid stBadDescriptor))))
    ∧ (∀ (s : State) (cid : Nat) (c : Cmd), cmdFor s cid 0x0041 = some c →
      (atRest s c (cmdPart s c) = false → exec (.ckptStore cid) s = .next (commit s s))
      ∧ (atRest s c (cmdPart s c) = true → exec (.ckptStore cid) s = .next (commit s (withPayload (beginCmd s cid) c 32 fun t b =>
        let p := fieldAt b 0 1
        let sp := fieldAt b 1 1
        let chip := fieldAt b 2 2
        let base := fieldAt b 8 8
        let len := fieldAt b 0x10 8
        if b.length ≠ 32 ∨ partLives t p = false ∨ 16 ≤ sp ∨ 32768 ≤ chip ∨ zeroAt b 4 4 = false ∨ zeroAt b 0x18 8 = false
            ∨ c.may p = false then complete t cid stBadDescriptor
        else if len = 0 then
          (if (∃ x ∈ findStore t chip sp, x.part.val = p) then
            complete (setCkpt t fun k => { k with stores := k.stores.filter fun x => !isStore chip sp x }) cid stOk
          else complete t cid stBadDescriptor)
        else if base % 65536 ≠ 0 ∨ len % 65536 ≠ 0 ∨ len < 262144 ∨ isT2 base = false
            ∨ inFixedOf t p base len (fun r => r.codec == 0) = false then complete t cid stBadDescriptor
        else if findStore t chip sp ≠ none ∨ 16 ≤ t.ckpt.stores.length then complete t cid stNoResource
        else complete (setCkpt t fun k => { k with stores := k.stores ++
          [{ part := Fin.ofNat 16 p, srcPart := sp, srcChip := chip, base := base, length := len }] }) cid stOk))))
    ∧ (∀ (s : State) (cid : Nat) (c : Cmd), cmdFor s cid 0x0042 = some c →
      let p := c.byte 0
      let bad : Prop := zeroAt c.inl 1 7 = false ∨ zeroAt c.inl 16 8 = false ∨ shardOf s p = none ∨ fieldAt c.inl 8 8 < lastAdmitted s p
      (16 ≤ p ∨ c.may p = false → exec (.ckptTake cid) s = .next (commit s (complete (beginCmd s cid) cid stBadDescriptor)))
      ∧ (p < 16 → c.may p = true → bad → exec (.ckptTake cid) s = .next (commit s (ckComplete (beginCmd s cid) cid p stBadDescriptor)))
      ∧ (p < 16 → c.may p = true → ¬ bad → exec (.ckptTake cid) s = .next (commit s (modCmd s cid fun c => { c with started := true })))))
  ∧ ((∀ (s : State) (p : PartId) (b : Option BuddyStore), dueTake s p.val = none → exec (.snapshot p b) s = .next (commit s s))
    ∧ (∀ (s : State) (p : PartId) (b : Option BuddyStore) (c : Cmd), dueTake s p.val = some c →
      let expired : Prop := ∃ x, c.notAfter = some x ∧ x < s.now
      (expired → exec (.snapshot p b) s = .next (commit s (ckComplete s c.id p.val stExpired)))
      ∧ (¬ expired → ∀ s1, s1 = regPut (regSet (setCkpt (beginCmd s c.id) fun k => { k with counter := k.counter + 1 })
            ⟨.partCkbytes, 0, p.val⟩ 0) (ckReg p.val) 32 32 (BitVec.ofNat 64 (fieldAt c.inl 8 8)).toNat →
        let fails (st : Status) : Prop := exec (.snapshot p b) s = .next (commit s (ckComplete s1 c.id p.val st))
        (shardOf s1 p.val = none ∨ ownChip s1 = none → fails stBadDescriptor)
        ∧ (∀ sh chip, shardOf s1 p.val = some sh → ownChip s1 = some chip →
          (buddyChip s1 sh = none → fails stBadDescriptor)
          ∧ (∀ buddy, buddyChip s1 sh = some buddy →
            let strata := sumN ((sh.extents.filter fun e => !(isT1 (extAddr e) || isT2 (extAddr e))).map extLen)
            let poolLen := fieldAt sh.header 0x10 8
            let need := slotSpan (chunkList ((manifestTable sh).map extLen)).length
            (buddyInfo s1 chip p.val buddy b = none → fails stBadDescriptor)
            ∧ (∀ bs, buddyInfo s1 chip p.val buddy b = some bs →
              (bs.part.val ≠ fieldAt sh.header 3 1 → fails stBadDescriptor)
              ∧ (bs.part.val = fieldAt sh.header 3 1 → bs.slotLen < need → fails stNoResource)
              ∧ (bs.part.val = fieldAt sh.header 3 1 → need ≤ bs.slotLen → poolLen < strata + 4096 ∨ pendingColl s1 p.val = true →
                fails stBadDescriptor)
              ∧ (bs.part.val = fieldAt sh.header 3 1 → need ≤ bs.slotLen → strata + 4096 ≤ poolLen → pendingColl s1 p.val = false →
                (∀ st, keyUse s1 (fieldAt sh.header 1 1) p.val = .error st → fails st)
                ∧ (∀ k a s2, keyUse s1 (fieldAt sh.header 1 1) p.val = .ok k → snapshotBody s1 p.val
                    { cid := c.id, afterStep := BitVec.ofNat 64 (fieldAt c.inl 8 8), snapTime := s1.now, seq := s1.ckpt.counter,
                      keySlot := fieldAt sh.header 1 1, keyGen := k.gen, key := k.key, srcChip := chip, buddy := buddy,
                      buddyPart := fieldAt sh.header 3 1, epoch := bs.epoch, slot := bs.slot.val, table := manifestTable sh,
                      poolBase := fieldAt sh.header 8 8 } sh poolLen = (a, s2) →
                  (a = .wait → exec (.snapshot p b) s = .next (commit s (stillWaits s s2)))
                  ∧ (a ≠ .ok → a ≠ .wait → exec (.snapshot p b) s = .next (commit s (ckComplete s2 c.id p.val (collAcc a))))
                  ∧ (∀ t, a = .ok → takeOf s2 p.val = some t →
                    (∀ tag s3, sendCkpt s2 p.val t true (manifestOf t p.val 1 ++ t.table.flatten) = (none, tag, s3) →
                      exec (.snapshot p b) s = .next (commit s (setTake s3 p.val (some { t with tags := [tag] }))))
                    ∧ (∀ st tag s3, sendCkpt s2 p.val t true (manifestOf t p.val 1 ++ t.table.flatten) = (some st, tag, s3) →
                      exec (.snapshot p b) s = .next (commit s (drainEnd s3 p.val st)))))))))))
    ∧ (∀ (s s1 : State) (p : Nat) (t : Take) (sh : Shard) (n : Nat), snapshotBody s p t sh n = (.ok, s1) →
      ∃ u, takeOf s1 p = some u ∧ u.cid = t.cid ∧ u.afterStep = t.afterStep ∧ u.poolLen = n))
  ∧ ((∀ (s : State) (p : PartId),
      (takeOf s p.val = none → exec (.drainChunk p) s = .next (commit s s))
      ∧ (∀ t0, takeOf s p.val = some t0 →
        (nextChunk t0 = none ∨ drainEngine s p.val = none → exec (.drainChunk p) s = .next (commit s s))
        ∧ (∀ c t d, nextChunk t0 = some (c, t) → drainEngine s p.val = some d →
          ((chunkList (t.table.map extLen))[c]? = none → exec (.drainChunk p) s = .next (commit s s))
          ∧ (∀ e off n x a b s1, (chunkList (t.table.map extLen))[c]? = some (e, off, n) → nth (0, 0, false) t.extents e = x →
            drainRead s t (x.1 + off) n x.2.2 = (a, b, s1) →
            let units := if x.2.2 = true then (List.range (n / 2048)).map fun i => x.1 + off + 2048 * i else []
            let t1 := { t with prot := units.foldl (fun m u => Tbl.put false m u false) t.prot,
                               pool := units.foldl (fun m u => Tbl.put 0 m u 0) t.pool }
            (a = .wait → exec (.drainChunk p) s = .next (commit s s))
            ∧ (a ≠ .ok → a ≠ .wait → exec (.drainChunk p) s = .next (commit s (drainEnd s1 p.val (collAcc a))))
            ∧ (∀ tag s2, a = .ok → sendCkpt s1 p.val t1 false (chunkRecord t1 c e off b) (chunkPrio t0 c) = (none, tag, s2) →
              exec (.drainChunk p) s = .next (commit s (regAddWrap
                (setTake (bindKey s2 d t.keySlot) p.val (some { t1 with tags := t1.tags ++ [tag] })) ⟨.partCkbytes, 0, p.val⟩ 0 64 (48 + n))))
            ∧ (∀ st tag s2, a = .ok → sendCkpt s1 p.val t1 false (chunkRecord t1 c e off b) (chunkPrio t0 c) = (some st, tag, s2) →
              exec (.drainChunk p) s = .next (commit s (drainEnd s2 p.val st)))))))
    ∧ (∀ (s : State) (d k : Nat) (y : Key), (slotAt s k).current = some y →
      (bindKey s d k).sec.ops = s.sec.ops ++ [(d, k, y.gen)]
      ∧ (slotAt (bindKey s d k) k).current = some { y with bound := y.bound + 1 })
    ∧ (∀ (s : State) (p d : Nat), drainEngine s p = some d → (s.sec.ops.filter fun e => e.1 == d).length < 32)
    ∧ (∀ (s : State) (chip : BitVec 15) (part : PartId),
      (findStore s chip.toNat part.val = none → exec (.drainCommit (.buddy chip part)) s = .next (commit s s))
      ∧ (∀ t, findStore s chip.toNat part.val = some t →
        (t.writing = none → exec (.drainCommit (.buddy chip part)) s = .next (commit s s))
        ∧ (∀ k, t.writing = some k →
          let whole : Prop := leNat (memBytes s (storeSlot t k + 0x20) 8) ≤ t.got
          (¬ whole → exec (.drainCommit (.buddy chip part)) s = .next (commit s s))
          ∧ (∀ a s1, whole → writeMem s .device (storeSlot t k + 7) [2] 3 = (a, s1) →
            exec (.drainCommit (.buddy chip part)) s
              = .next (commit s (if a = .ok then setStore s1 { t with writing := none, got := 0 } else s))))))
    ∧ (∀ (s : State) (p : PartId),
      (takeOf s p.val = none → exec (.drainCommit (.source p)) s = .next (commit s s))
      ∧ (∀ t, takeOf s p.val = some t →
        let here : Prop := ownChip s = some t.buddy ∧ ∃ x, findStore s t.srcChip p.val = some x ∧ x.writing.isSome = true
        (drained t = false ∨ here → exec (.drainCommit (.source p)) s = .next (commit s s))
        ∧ (drained t = true → ¬ here →
          exec (.drainCommit (.source p)) s = .next (commit s (ckEnd (complete (setTake
            (regSet (regPut (regPut s (ckReg p.val) 5 1 1) (ckReg p.val) 4 1 t.slot) ⟨.partCkseq, 0, p.val⟩ t.seq.toNat) p.val none)
            t.cid stOk) p.val (endStatus s t.cid stOk)))))))

/-- CKPT_RESTORE, once its partition is at rest, and AXOLOTL_TAKEOVER, once its partition runs no step, open every chunk that they need
and end as their reads and writes end. A partition that does not live or that its function may not name completes BAD_DESCRIPTOR; a field
outside its range, an entry or a destination that breaks its rule, or a map behind the module's own does so with PART_CKSTAT set; an empty
or foreign key slot ends them with its status, a slot of a takeover that is not there PEER_LOST. A takeover whose map does not yet stand
first sends it to every other coordinate and applies it. Each chunk is checked before it is written: one that fails ends AUTH_FAIL. -/
def Obligations.RestoresAndTakeovers : Prop :=
  (∀ (s : State) (cid : Nat) (held : List RemoteStore) (c : Cmd), cmdFor s cid 0x0043 = some c →
    (atRest s c (cmdPart s c) = false → exec (.ckptRestore cid held) s = .next (commit s s))
    ∧ (atRest s c (cmdPart s c) = true → exec (.ckptRestore cid held) s = .next (commit s (withPayload (beginCmd s cid) c 48 fun t b =>
      let p := fieldAt b 0 1
      let n := fieldAt b 2 2
      let v := regSet t ⟨.partCkbytes, 0, p⟩ 0
      let es := (List.range n).map fun i => restoreRange v held (fieldAt b 8 8) ((b.drop (16 + 32 * i)).take 32)
      let rs := es.filterMap id
      if partLives t p = false ∨ c.may p = false then complete t cid stBadDescriptor
      else if 64 ≤ fieldAt b 1 1 ∨ n = 0 ∨ b.length ≠ 16 + 32 * n ∨ zeroAt b 4 4 = false then ckComplete t cid p stBadDescriptor
      else match keyUse v (fieldAt b 1 1) p with
        | .error st => ckComplete v cid p st
        | .ok k =>
          if (∃ e ∈ es, e = none) ∨ (∃ r ∈ rs, ¬ (r.setStep = true ∧ r.dst = 0) ∧ canWrite v (.step p) r.dst r.len = false) then
            ckComplete v cid p stBadDescriptor
          else restoreEnd s (restoreGo p k.key v rs).2 cid p (fieldAt b 8 8) (rs.any (·.setStep)) (restoreGo p k.key v rs).1))))
  ∧ (∀ (s : State) (cid : Nat) (held : List RemoteStore) (c : Cmd), cmdFor s cid 0x0044 = some c →
    ((payloadOf s c).1 ≠ .ok → exec (.axolotlTakeover cid held) s = .next (commit s (withPayload (beginCmd s cid) c 32 fun t _ => t)))
    ∧ ((payloadOf s c).1 = .ok → (partAt s (fieldAt (payloadOf s c).2.1 5 1)).run ≠ none →
      exec (.axolotlTakeover cid held) s = .next (commit s s))
    ∧ ((payloadOf s c).1 = .ok → (partAt s (fieldAt (payloadOf s c).2.1 5 1)).run = none →
      exec (.axolotlTakeover cid held) s = .next (commit s (withPayload (beginCmd s cid) c 32 fun t b =>
        let failed := fieldAt b 0 2
        let p := fieldAt b 5 1
        let gen := BitVec.ofNat 32 (fieldAt b 0x10 4)
        let v := regSet t ⟨.partCkbytes, 0, p⟩ 0
        if partLives t p = false ∨ c.may p = false then complete t cid stBadDescriptor
        else if b.length ≠ 32 ∨ 32768 ≤ failed ∨ 32768 ≤ fieldAt b 2 2 ∨ 16 ≤ fieldAt b 4 1 ∨ 64 ≤ fieldAt b 6 1 ∨ zeroAt b 7 1 = false
            ∨ zeroAt b 0x14 12 = false then ckComplete t cid p stBadDescriptor
        else if mapStands t failed gen = false ∧ gen.toNat ≤ v.fab.mapGen.toNat then ckComplete v cid p stBadDescriptor
        else match keyUse v (fieldAt b 6 1) p with
          | .error st => ckComplete v cid p st
          | .ok k => match findSlot v held (fieldAt b 2 2) failed (fieldAt b 4 1) (fieldAt b 8 8) with
            | none => ckComplete v cid p stPeerLost
            | some slot =>
              let es := (List.range ((slotTable slot).length / 32)).map fun i => ((slotTable slot).drop (32 * i)).take 32
              if (∃ e ∈ es, extKind e ≠ 5 ∧ inPartRegion v p (extAddr e) (extLen e) = false) then ckComplete v cid p stBadDescriptor
              else
                let pairs := leBytes 2 failed ++ leBytes 2 (ownPhys v) ++ (match ownChip v with
                  | some old => if old = failed then [] else leBytes 2 old ++ leBytes 2 0xFFFF
                  | none => [])
                let w := if mapStands t failed gen = true then v else sendMap v gen pairs
                let x := restoreGo p k.key w (es.mapIdx fun i e => ⟨slot, i, 0, extLen e, extAddr e, extKind e == 5⟩)
                restoreEnd s x.2 cid p (fieldAt b 8 8) true x.1))))
  ∧ (∀ (s0 s : State) (cid p after : Nat) (set : Bool) (a : Acc),
    restoreEnd s0 s cid p after set .wait = stillWaits s0 s
    ∧ restoreEnd s0 s cid p after set .ok
      = ckComplete (if set = true then modPart s p fun q => { q with stepNum := BitVec.ofNat 64 after } else s) cid p stOk
    ∧ (a ≠ .ok → a ≠ .wait → restoreEnd s0 s cid p after set a = ckComplete s cid p (collAcc a)))
  ∧ (∀ (p : Nat) (key : Bytes) (s : State) (rs : List RestoreRange),
    (restoreWork rs = [] → restoreGo p key s rs = (.ok, s))
    ∧ (∀ w more, restoreWork rs = w :: more → (openChunk w.1.1 key w.1.2.1).isSome = true ∨ restoreGo p key s rs = (.fail stAuthFail, s))
    ∧ (∀ w, restoreWork rs = [w] → restoreGo p key s rs = match openChunk w.1.1 key w.1.2.1 with
      | none => (.fail stAuthFail, s)
      | some b => accAll w.2 (regAddWrap s ⟨.partCkbytes, 0, p⟩ 0 64 (48 + w.1.2.2.2)) fun s r =>
        let lo := max r.off w.1.2.2.1
        let hi := min (r.off + r.len) (w.1.2.2.1 + w.1.2.2.2)
        if r.dst = 0 ∧ r.setStep then (.ok, s)
        else writeMem s (.step p) (r.dst + (lo - r.off)) ((b.drop (lo - w.1.2.2.1)).take (hi - lo)) 2))

/-! ### Ingest -/

/-- ING_OPEN, once its partition is at rest, opens the pipeline its 80-byte payload names: BAD_DESCRIPTOR for a payload of another
length, a field that a check refuses or a partition the function may not name; NO_RESOURCE with no engine or eight pipelines open in
the partition; else the pipeline is OPENED with that descriptor, its count is 0, and where it writes lockets their count too. A
pipeline is opened only from CLOSED, in a live partition, with 2 KiB slots.
ING_FEED appends its 32-byte entries in order, numbered on from the last; none is appended where one is bad, the pipeline is not open
or the queue of 65,536 has no room for all.
ING_CLOSE, once its partition is at rest, drops what has not reached a slot and closes the pipeline; its completion comes once every
owed locket is written, and an ING_CLOSE_COMPLETE before that, or of a pipeline not closing, changes nothing. -/
def Obligations.PipelinesOpenFeedAndClose : Prop :=
  (∀ (s : State) (cid : Nat) (c : Cmd), cmdFor s cid 0x0050 = some c →
    (atRest s c (cmdPart s c) = false → exec (.ingOpen cid) s = .next (commit s s))
    ∧ (atRest s c (cmdPart s c) = true → exec (.ingOpen cid) s = .next (commit s
      (withPayload (beginCmd s cid) c 80 fun t b =>
        let p := fieldAt b 1 1
        let n := fieldAt b 0 1
        let opened := regPut (modPipe t n fun _ => { st := .opened, desc := b, part := Fin.ofNat 16 p, locketAt := locketData b })
          ⟨.ingPipe, 0, n⟩ 32 32 0
        if b.length ≠ 80 ∨ pipeOk t b = false ∨ c.may p = false then complete t cid stBadDescriptor
        else if partDies t p = [] ∨ 8 ≤ openPipes t p then complete t cid stNoResource
        else complete (if pdLocketWr b = true then regSet opened ⟨.ingLockets, 0, n⟩ 0 else opened) cid stOk))))
  ∧ (∀ (s : State) (b : Bytes), pipeOk s b = true → fieldAt b 0 1 < 32 ∧ (pipeAt s (fieldAt b 0 1)).st = .closed
      ∧ partLives s (fieldAt b 1 1) = true ∧ 2048 ≤ pdSlotLen b ∧ pdSlotLen b % 2048 = 0 ∧ 1 ≤ pdSlots b ∧ pdSlots b ≤ 65536)
  ∧ (∀ (s : State) (cid : Nat) (c : Cmd), cmdFor s cid 0x0051 = some c →
    exec (.ingFeed cid) s = .next (commit s (withPayload (beginCmd s cid) c 32 fun t b =>
      let n := c.byte 0
      let x := pipeAt t n
      let es := pieces 32 b
      if 32 ≤ n ∨ x.st ≠ .opened ∨ c.may x.part.val = false ∨ b.length % 32 ≠ 0 ∨ 4096 < es.length
          ∨ (∃ e ∈ es, srcOk (pdLockets x.desc) e = false) then complete t cid stBadDescriptor
      else if 65536 < x.entries.length + es.length then complete t cid stNoResource
      else
        let add := es.mapIdx fun i e => (⟨fieldAt e 0 8, fieldAt e 8 8, fieldAt e 0x10 8, (x.feedNext + i) % 2 ^ 32⟩ : SrcEntry)
        complete (modPipe t n fun x => { x with entries := x.entries ++ add, feedNext := x.feedNext + es.length }) cid stOk)))
  ∧ (∀ (s : State) (cid : Nat) (c : Cmd), cmdFor s cid 0x0052 = some c →
    let x := pipeAt s (c.byte 0)
    (atRest s c (cmdPart s c) = false → exec (.ingClose cid) s = .next (commit s s))
    ∧ (atRest s c (cmdPart s c) = true → c.byte 0 < 32 → x.st = .opened → c.may x.part.val = true →
      exec (.ingClose cid) s = .next (commit s (closePipe (beginCmd s cid) (c.byte 0) (some cid))))
    ∧ (atRest s c (cmdPart s c) = true → 32 ≤ c.byte 0 ∨ x.st ≠ .opened ∨ c.may x.part.val = false →
      exec (.ingClose cid) s = .next (commit s (complete (beginCmd s cid) cid stBadDescriptor))))
  ∧ (∀ (s : State) (n : Nat) (cid : Option Nat),
      let y := pipeAt (closePipe s n cid) n
      y.st = .closing ∧ y.closeCid = cid ∧ y.entries = [] ∧ y.sealed_ = [] ∧ y.parse = [] ∧ y.current = none ∧ y.samples = []
        ∧ y.ready = [] ∧ y.locketDue = (pipeAt s n).locketDue
        ∧ (∀ u ∈ (pipeAt s n).slots, u.taken = true → u ∈ y.slots)
        ∧ (∀ u ∈ y.slots, u.taken = true ∨ (u.locketOwed = true ∧ u.given = true)))
  ∧ (∀ (s : State) (p : PipeId),
    let t := modPipe s p.val fun x => { x with st := .closed, closeCid := none }
    ((pipeAt s p.val).st ≠ .closing ∨ (pipeAt s p.val).locketDue ≠ [] →
      exec (.ingCloseComplete p) s = .next (commit s s))
    ∧ ((pipeAt s p.val).st = .closing → (pipeAt s p.val).locketDue = [] → (pipeAt s p.val).closeCid = none →
      exec (.ingCloseComplete p) s = .next (commit s t))
    ∧ (∀ cid, (pipeAt s p.val).st = .closing → (pipeAt s p.val).locketDue = [] → (pipeAt s p.val).closeCid = some cid →
      exec (.ingCloseComplete p) s = .next (commit s (complete t cid stOk))))

/-- TOK_LOAD, once its partition is at rest, places a dictionary: BAD_DESCRIPTOR for a descriptor, an image or a copy that a check
refuses; NO_RESOURCE where a copy has no room on its tile; else the earlier dictionary of that number is released, a copy is loaded on
each die of the partition and the dictionary is the one loaded. A read or a write that fails ends the command with its status, and one
that must wait has it wait. A dictionary that a pipeline uses, an image of neither tier and one off its 2 KiB boundary are refused.
VID_ENCODE takes the least free context of its pair, waits while there is none, and is refused for a descriptor that a check refuses
or a partition the function may not name; while dispatch is held its execution has not begun. The end of the encode a pair is at frees
its context, counts its frames, and writes the stream at DST; a stream longer than its room completes NO_RESOURCE and is not written.
With no encode begun on the pair it changes nothing. -/
def Obligations.DictionariesLoadAndVideoEncodes : Prop :=
  (∀ (s : State) (cid : Nat) (c : Cmd), cmdFor s cid 0x0053 = some c →
    (atRest s c (cmdPart s c) = false → exec (.tokLoad cid) s = .next (commit s s))
    ∧ (atRest s c (cmdPart s c) = true → exec (.tokLoad cid) s = .next (commit s
      (withPayload (beginCmd s cid) c 80 fun s1 b =>
        let n := fieldAt b 0 1
        let p := fieldAt b 1 1
        let image := fieldAt b 8 8
        if b.length ≠ 80 ∨ 4 ≤ n ∨ partLives s1 p = false ∨ c.may p = false ∨ zeroAt b 2 6 = false ∨ image % 2048 ≠ 0
            ∨ dictInUse s1 p n = true ∨ (isT1 image = false ∧ isT2 image = false) ∨ canRead s1 (.host (some p)) image 2048 = false then
          complete s1 cid stBadDescriptor
        else match readMem s1 .device image 2048 with
          | (.ok, h, s2) =>
            let size := 16 * fieldAt h 0x0C 4
            if 1048576 < fieldAt h 0x0C 4 ∨ canRead s2 (.host (some p)) (image + 2048) size = false then complete s2 cid stBadDescriptor
            else match readMem s2 .device (image + 2048) size with
              | (.ok, a, s3) =>
                let places := (partDies s3 p).map fun d => (fieldAt b (16 + 8 * d) 2, fieldAt b (20 + 8 * d) 4)
                let ds := places.map fun e => dictRegion p image (padTo 4096 size) e.1 e.2
                let rs := ds.map regionOfBytes
                let free := releaseDict s3 (4 * p + n)
                if dictOk h a = false ∨ (∃ d ∈ partDies s3 p, tileDie (fieldAt b (16 + 8 * d) 2) ≠ d)
                    ∨ (∃ d ∈ ds, regionOk free c d = false) ∨ (∃ x ∈ rs.mapIdx (regionClash free rs), x = true) then
                  complete s3 cid stBadDescriptor
                else if regionsFit free rs = false then complete s3 cid stNoResource
                else match accAll rs free loadRegion with
                  | (.ok, s4) =>
                    let t := forEach rs s4 declareRegion
                    complete { t with
                      ing := { t.ing with dicts := Tbl.put none t.ing.dicts (4 * p + n) (some ⟨image, h, places⟩) } } cid stOk
                  | (x, s4) => endBy s s4 cid x
              | (x, _, s3) => endBy s s3 cid x
          | (x, _, s2) => endBy s s2 cid x))))
  ∧ (∀ (s : State) (cid : Nat) (c : Cmd), cmdFor s cid 0x0054 = some c →
    exec (.vidEncode cid) s = .next (commit s (withPayload (beginCmd s cid) c 64 fun t b =>
      let v := fieldAt b 3 1
      if encOk t b = false ∨ c.may (fieldAt b 0x2A 1) = false then complete t cid stBadDescriptor
      else match leastBelow 64 fun k => (Tbl.get none t.ing.ctxs (64 * v + k)).isNone with
        | none => s
        | some k => modCmd (setCtx t (64 * v + k) (some ⟨none, 0, 0, some cid, !dispatchHeld t⟩)) cid fun c =>
            { c with payBytes := some b, begun := if dispatchHeld t = true then none else c.begun })))
  ∧ (∀ (s : State) (b : Bytes), encOk s b = true → b.length = 64 ∧ 2 ≤ fieldAt b 0 1 ∧ fieldAt b 0 1 ≤ 4
      ∧ 16 ≤ fieldAt b 4 2 ∧ fieldAt b 4 2 ≤ 7680 ∧ fieldAt b 4 2 % 2 = 0 ∧ 16 ≤ fieldAt b 6 2 ∧ fieldAt b 6 2 ≤ 4320
      ∧ fieldAt b 6 2 % 2 = 0 ∧ 1 ≤ fieldAt b 8 4 ∧ (partPairs s (fieldAt b 0x2A 1)).contains (fieldAt b 3 1) = true)
  ∧ (∀ (s : State) (v : PairId) (stream : Bytes),
    (encodeAt s v.val = none → exec (.videoEncodeDone v stream) s = .next (commit s s))
    ∧ (∀ k cid b, encodeAt s v.val = some (k, cid, b) →
      let fin := regAddWrap (frameDone (setCtx s (64 * v.val + k) none) v.val) (vidReg v.val) 32 32 (fieldAt b 8 4)
      (fieldAt b 0x20 8 < stream.length →
        exec (.videoEncodeDone v stream) s = .next (commit s (complete fin cid stNoResource)))
      ∧ (∀ a s1, stream.length ≤ fieldAt b 0x20 8 →
        writeMem fin (.host (some (fieldAt b 0x2A 1))) (fieldAt b 0x18 8) stream = (a, s1) →
        exec (.videoEncodeDone v stream) s = .next (commit s (endBy s s1 cid a stream.length)))))
  ∧ (∀ (s : State) (v k cid : Nat) (b : Bytes), encodeAt s v = some (k, cid, b) →
      k < 64 ∧ ∃ x, Tbl.get none s.ing.ctxs (64 * v + k) = some x ∧ x.cid = some cid ∧ x.frame = true)

/-- FETCH: of a pipeline that is not open or has no entry waiting, a read or a timeout changes nothing. Else the oldest entry leaves
the queue: a read that fails ends its object BAD_DESCRIPTOR and a timeout HOST_STALL, both recorded in ING_PIPEERR at stage 0; its
bytes go to DECRYPT where the pipeline is SEALED, else to PARSE; bytes of another length than asked for change nothing, as a timeout
of a locket does. A locket is read from the pipeline's area: its sample is its slot, or ends BAD_DESCRIPTOR for a number not written,
CHECK_FAIL for a locket whose check fails, TIER_FAIL for a read that fails; a read that must wait leaves all as it was.
DECRYPT: a die's engine of the pipeline's partition, once it has room, opens the next segment of the oldest sealed object; framing
that does not hold ends the object CHECK_FAIL, a key the slot does not give ends it with that status, a tag that does not match
AUTH_FAIL; plaintext goes on to PARSE, the LAST segment ending the object, and a LAST that is not the object's last bytes, or last
bytes that are not LAST, end it CHECK_FAIL. Framing that holds has the magic, the next number and a length from 1 to 65,536 that is there.
PARSE: the file header, then each record whose check holds, is taken; bytes that a check refuses end the object CHECK_FAIL at stage 2,
bytes not all there are waited for while more may come, and end it so when the object is whole; an object that is used up ends with its
own status. -/
def Obligations.ObjectsAreFetchedAndParsed : Prop :=
  ((∀ (s : State) (p : PipeId) (r : ReadResult), (pipeAt s p.val).st ≠ .opened ∨ (pipeAt s p.val).entries = [] →
      exec (.fetchObjectRead p r) s = .next (commit s s) ∧ exec (.fetchTimeout p) s = .next (commit s s))
    ∧ (∀ (s : State) (p : PipeId) (e : SrcEntry) (es : List SrcEntry), (pipeAt s p.val).st = .opened →
      (pipeAt s p.val).entries = e :: es →
      (pdLockets (pipeAt s p.val).desc = false →
        (exec (.fetchObjectRead p .error) s = .next (commit s (pipeErr
          (modPipe s p.val fun x => endObject { x with entries := es } e stBadDescriptor) p.val e.ordinal stBadDescriptor 0)))
        ∧ (exec (.fetchTimeout p) s = .next (commit s (pipeErr
          (modPipe s p.val fun x => endObject { x with entries := es } e stHostStall) p.val e.ordinal stHostStall 0)))
        ∧ (∀ b : Bytes,
          (b.length ≠ e.length → exec (.fetchObjectRead p (.bytes b)) s = .next (commit s s))
          ∧ (b.length = e.length → pdSealed (pipeAt s p.val).desc = false →
            exec (.fetchObjectRead p (.bytes b)) s
              = .next (commit s (modPipe s p.val fun x => { x with entries := es, parse := x.parse ++ [(e, b, false, some stOk)] })))
          ∧ (b.length = e.length → pdSealed (pipeAt s p.val).desc = true →
            exec (.fetchObjectRead p (.bytes b)) s
              = .next (commit s (modPipe s p.val fun x => { x with entries := es, sealed_ := x.sealed_ ++ [(e, b, 0)] })))))
      ∧ (pdLockets (pipeAt s p.val).desc = true →
        exec (.fetchTimeout p) s = .next (commit s s)
        ∧ (∀ r, let d := (pipeAt s p.val).desc
          let i := e.addr % 2 ^ 32
          let fin (t : State) (id : Nat) (x : Except Status Bytes) : State :=
            modPipe t p.val fun y => locketSample { y with entries := y.entries.drop 1 } e id i x
          (regGet s ⟨.ingLockets, 0, p.val⟩ ≤ i →
            ∃ id, exec (.fetchObjectRead p r) s = .next (commit s (fin (takeFree s).2 id (.error stBadDescriptor))))
          ∧ (∀ a ie s1, i < regGet s ⟨.ingLockets, 0, p.val⟩ → readMem s .device (pdLocket d + 16 * i) 16 = (a, ie, s1) →
            (a = .wait → exec (.fetchObjectRead p r) s = .next (commit s s))
            ∧ (a ≠ .ok → a ≠ .wait →
              ∃ id, exec (.fetchObjectRead p r) s = .next (commit s (fin (takeFree s1).2 id (.error stTierFail))))
            ∧ (∀ a2 b s2, a = .ok → readMem s1 .device (pdLocket d + 2048 * fieldAt ie 8 4) (fieldAt ie 12 4) = (a2, b, s2) →
              let id := fieldAt ie 0 8
              (a2 = .wait → exec (.fetchObjectRead p r) s = .next (commit s s))
              ∧ (a2 ≠ .ok → a2 ≠ .wait → exec (.fetchObjectRead p r) s = .next (commit s (fin s2 id (.error stTierFail))))
              ∧ (a2 = .ok →
                (∀ slot k, decodeLocket b = .ok (slot, k) →
                  exec (.fetchObjectRead p r) s = .next (commit s (fin (codecDone s2 (bc0 (pdLocket d)) k false) id (.ok slot))))
                ∧ (decodeLocket b = .error none →
                  exec (.fetchObjectRead p r) s = .next (commit s (fin s2 id (.error stCheckFail))))
                ∧ (∀ blk why, decodeLocket b = .error (some (blk, why)) →
                  exec (.fetchObjectRead p r) s
                    = .next (commit s (fin (codecFail s2 (bc0 (pdLocket d)) blk why) id (.error stCheckFail)))))))))))
  ∧ ((∀ (s : State) (p : PipeId) (d : Die), (pipeAt s p.val).st ≠ .opened ∨ (pipeAt s p.val).sealed_ = []
        ∨ (partDies s (pipeAt s p.val).part.val).contains d.val = false →
      exec (.segmentDecrypt p d) s = .next (commit s s))
    ∧ (∀ (s : State) (p : PipeId) (d : Die) (e : SrcEntry) (b : Bytes) (n : Nat) (rest : List (SrcEntry × Bytes × Nat)),
      (pipeAt s p.val).st = .opened → (pipeAt s p.val).sealed_ = (e, b, n) :: rest →
      (partDies s (pipeAt s p.val).part.val).contains d.val = true →
      let x := pipeAt s p.val
      let ends (t : State) (y : Pipe) (st : Status) : State :=
        pipeErr (modPipe t p.val fun _ => endObject { y with sealed_ := rest } e st) p.val e.ordinal st 1
      (segmentOk b n = false → exec (.segmentDecrypt p d) s = .next (commit s (ends s x stCheckFail)))
      ∧ (∀ st, segmentOk b n = true → keyUse s (pdKey x.desc) x.part.val = .error st →
        exec (.segmentDecrypt p d) s = .next (commit s (ends s x st)))
      ∧ (∀ k, segmentOk b n = true → keyUse s (pdKey x.desc) x.part.val = .ok k →
        let t := bindKey s d.val (pdKey x.desc)
        let len := fieldAt b 4 4
        let left := b.drop (48 + len)
        (engineRoom s d.val = false → exec (.segmentDecrypt p d) s = .next (commit s s))
        ∧ (engineRoom s d.val = true → exec (.segmentDecrypt p d) s = .next (commit s
          (match Config.gcmOpen k.key ((b.drop 8).take 12) (b.take 32) ((b.drop 32).take len) ((b.drop (32 + len)).take 16) with
          | none => ends t x stAuthFail
          | some pt =>
            if fieldAt b 0x18 4 = 1 then
              if left = [] then modPipe t p.val fun x => passBytes { x with sealed_ := rest } e pt (some stOk)
              else ends t (passBytes x e pt none) stCheckFail
            else if left = [] then ends t (passBytes x e pt none) stCheckFail
            else modPipe t p.val fun x => passBytes { x with sealed_ := (e, left, n + 1) :: rest } e pt none)))))
    ∧ (∀ (b : Bytes) (n : Nat), segmentOk b n = true → fieldAt b 0 4 = 0x47534C52 ∧ fieldAt b 0x14 4 = n ∧ 1 ≤ fieldAt b 4 4
        ∧ fieldAt b 4 4 ≤ 65536 ∧ 48 + fieldAt b 4 4 ≤ b.length))
  ∧ ((∀ (s : State) (p : PipeId), (pipeAt s p.val).st ≠ .opened ∨ (pipeAt s p.val).parse = [] →
      exec (.recordParse p) s = .next (commit s s))
    ∧ (∀ (s : State) (p : PipeId) (e : SrcEntry) (b : Bytes) (checked : Bool) (ended : Option Status)
        (rest : List (SrcEntry × Bytes × Bool × Option Status)), (pipeAt s p.val).st = .opened →
      (pipeAt s p.val).parse = (e, b, checked, ended) :: rest →
      let failed := pipeErr (modPipe s p.val fun x => objectDone x stCheckFail) p.val e.ordinal stCheckFail 2
      let fails : State := modPipe failed p.val fun y => { y with sealed_ := y.sealed_.filter fun q => q.1.ordinal != e.ordinal }
      let short : State := match ended with
        | none => s
        | some st => if st = stOk then fails else modPipe s p.val fun x => objectDone x st
      let len := fieldAt b 0 4
      let size := 16 + padTo 8 len
      let payload := (b.drop 16).take len
      (checked = false →
        (b.length < 32 → exec (.recordParse p) s = .next (commit s short))
        ∧ (32 ≤ b.length → fileHeaderOk b = false → exec (.recordParse p) s = .next (commit s fails))
        ∧ (32 ≤ b.length → fileHeaderOk b = true →
          exec (.recordParse p) s
            = .next (commit s (modPipe s p.val fun x => { x with parse := (e, b.drop 32, true, ended) :: rest }))))
      ∧ (checked = true →
        (b = [] → ended = none → exec (.recordParse p) s = .next (commit s s))
        ∧ (∀ st, b = [] → ended = some st →
          exec (.recordParse p) s = .next (commit s (modPipe s p.val fun x => objectDone x st)))
        ∧ (b ≠ [] → b.length < 16 → exec (.recordParse p) s = .next (commit s short))
        ∧ (16 ≤ b.length → 67108864 < len ∨ zeroAt b 12 4 = false → exec (.recordParse p) s = .next (commit s fails))
        ∧ (16 ≤ b.length → len ≤ 67108864 → zeroAt b 12 4 = true → b.length < size →
          exec (.recordParse p) s = .next (commit s short))
        ∧ (16 ≤ b.length → len ≤ 67108864 → zeroAt b 12 4 = true → size ≤ b.length →
          (crc32c (b.take 8 ++ payload) ≠ fieldAt b 8 4
              ∨ parseRecord (pdHdrFw (pipeAt s p.val).desc) (fieldAt b 4 4) payload = none →
            exec (.recordParse p) s = .next (commit s fails))
          ∧ (∀ r, crc32c (b.take 8 ++ payload) = fieldAt b 8 4 →
            parseRecord (pdHdrFw (pipeAt s p.val).desc) (fieldAt b 4 4) payload = some r →
            exec (.recordParse p) s = .next (commit s (modPipe s p.val fun x =>
              takeRecord { x with parse := (e, b.drop size, true, ended) :: rest } e r)))))))

/-- Admission: the oldest sample not admitted waits for its AT, ends EXPIRED past its NOT_AFTER, and else is admitted, late where its AT
has passed; with none to admit nothing changes. A video component whose pictures no buffer of the pipeline can hold ends NO_RESOURCE;
one waits while the buffer or every pair is full; else it takes the least free context of the pair with the most free ones, and begins
no frame while dispatch is held.
Decode: for a context that holds no component nothing changes. A damaged stream ends its component CHECK_FAIL and counts it, one the
decoder refuses ends it BAD_DESCRIPTOR, each leaving its context; a picture of another size or depth than a supported stream has, or for
a context that has begun no frame, changes nothing; a picture before FIRST_FRAME is counted and dropped, any other is kept with its
statistics record where the pipeline asks for them, and is late past its slot's end; the last of COUNT pictures frees the context.
Text: a die's tokenizer that the partition holds turns the oldest text component into START, its tokens and END, cut or padded to TOP;
with no dictionary it ends BAD_DESCRIPTOR, and with a shape descriptor or dictionary that cannot be read TIER_FAIL; one that must be
waited for leaves all as it was.
Shape: nothing is shaped while dispatch is held. The oldest decoded frame joins its component with its descriptor's codes, one whose
descriptor a check refuses ends BAD_DESCRIPTOR; a raw component passes with its elements, and one that is not whole ends CHECK_FAIL. -/
def Obligations.SamplesDecodeAndShape : Prop :=
  ((∀ (s : State) (p : PipeId),
    let oldest := (pipeAt s p.val).samples.find? fun m => !m.admitted && m.status == stOk
    (oldest = none → exec (.sampleAdmit p) s = .next (commit s s))
    ∧ (∀ m, oldest = some m →
      let gone : Prop := ∃ a, m.notAfter = some a ∧ a < s.now
      (∀ a, m.at_ = some a → s.now < a → exec (.sampleAdmit p) s = .next (commit s s))
      ∧ ((∀ a, m.at_ = some a → a ≤ s.now) → gone →
        exec (.sampleAdmit p) s = .next (commit s (modSample s p.val m.seq fun m => { m with status := stExpired, stage := 3 })))
      ∧ ((∀ a, m.at_ = some a → a ≤ s.now) → ¬ gone →
        exec (.sampleAdmit p) s = .next (commit s (modSample s p.val m.seq fun m => match m.at_ with
          | some a => { m with admitted := true, late := m.late || decide (a < s.now), lateNs := max m.lateNs (s.now - a) }
          | none => { m with admitted := true })))))
  ∧ (∀ (s : State) (p : PipeId),
    let x := pipeAt s p.val
    let waiting := firstComp x fun c => c.kind == 1 && c.pair.isNone && !c.decoded
    (waiting = none → exec (.componentAdmit p) s = .next (commit s s))
    ∧ (∀ m c, waiting = some (m, c) →
      let need := Config.dpbBytes c.codec c.bits
      exec (.componentAdmit p) s = .next (commit s
        (if pdDpbLen x.desc < need then modComp s p.val m.seq c.num fun c => { c with status := stNoResource, stage := 3 }
        else if pdDpbLen x.desc < dpbUsed x + need then s
        else match bestPair s (partPairs s x.part.val) with
          | none => s
          | some v => match leastBelow 64 fun k => (Tbl.get none s.ing.ctxs (64 * v + k)).isNone with
            | none => s
            | some k => modComp (setCtx s (64 * v + k) (some ⟨some p, m.seq, c.num, none, !dispatchHeld s⟩)) p.val m.seq
                c.num fun c => { c with pair := some (Fin.ofNat 16 v), ctx := k }))))
  ∧ (∀ (s : State) (vs : List Nat),
    (bestPair s vs = none → ∀ v ∈ vs, 64 ≤ ctxUsed s v)
    ∧ (∀ v, bestPair s vs = some v → v ∈ vs ∧ ctxUsed s v < 64 ∧ ∀ w ∈ vs, ctxUsed s v ≤ ctxUsed s w)))
  ∧ (∀ (s : State) (v : PairId) (ctx : Fin 64),
    let at_ : Option VidCtx := Tbl.get none s.ing.ctxs (64 * v.val + ctx.val)
    let s1 := { s with ing := { s.ing with lastCtx := Tbl.put 0 s.ing.lastCtx v.val ctx.val } }
    (at_ = none → ∀ r, exec (.frameDecodeDone v ctx r) s = .next (commit s s))
    ∧ (∀ vc r, at_ = some vc → vc.pipe = none → exec (.frameDecodeDone v ctx r) s = .next (commit s s))
    ∧ (∀ vc p, at_ = some vc → vc.pipe = some p →
      let x := pipeAt s p.val
      let sample := x.samples.find? fun m => m.seq == vc.sample
      (sample = none → ∀ r, exec (.frameDecodeDone v ctx r) s = .next (commit s s))
      ∧ (∀ m r, sample = some m → m.comps.find? (fun c => c.num == vc.comp) = none →
        exec (.frameDecodeDone v ctx r) s = .next (commit s s))
      ∧ (∀ m c, sample = some m → m.comps.find? (fun c => c.num == vc.comp) = some c →
        exec (.frameDecodeDone v ctx .damaged) s = .next (commit s (leaveCtx (regAddSat s1 (vidReg v.val) 16 8 1) v.val ctx.val p.val
          m.seq c.num fun c => { c with status := stCheckFail, stage := 3 }))
        ∧ exec (.frameDecodeDone v ctx .refusedStream) s = .next (commit s (leaveCtx s1 v.val ctx.val p.val m.seq c.num fun c =>
          { c with status := stBadDescriptor, stage := 3 }))
        ∧ (∀ pic, (Machine.pictureOk pic = false ∨ vc.frame = false →
            exec (.frameDecodeDone v ctx (.picture pic)) s = .next (commit s s))
          ∧ (Machine.pictureOk pic = true → vc.frame = true →
            let t := regAddWrap (frameDone s1 v.val) (vidReg v.val) 32 32 1
            let k := c.framesKept
            let st : Bytes × Bool := if pdStats x.desc = true then statRecord (c.codec == 3) c.hdrFw k pic else ([], false)
            let lateBy := match m.at_ with
              | some a => if pdFrameNs x.desc = 0 then 0 else s.now - (a + (k + 1) * pdFrameNs x.desc)
              | none => 0
            let t2 := if lateBy = 0 then t else
              regAddSat (modSample t p.val m.seq fun m => { m with late := true, lateNs := max m.lateNs lateBy }) (vidReg v.val) 24 8 1
            let keep (y : Comp) : Comp := { y with
              framesSeen := y.framesSeen + 1, framesKept := k + 1, frames := y.frames ++ [pic], stats := y.stats ++ st.1
              metaTrunc := y.metaTrunc || st.2, decoded := decide (y.count ≤ k + 1) }
            (c.framesSeen < c.firstFrame →
              exec (.frameDecodeDone v ctx (.picture pic)) s
                = .next (commit s (modComp t p.val m.seq c.num fun c => { c with framesSeen := c.framesSeen + 1 })))
            ∧ (c.firstFrame ≤ c.framesSeen → c.count ≤ k + 1 →
              exec (.frameDecodeDone v ctx (.picture pic)) s = .next (commit s (leaveCtx t2 v.val ctx.val p.val m.seq c.num keep)))
            ∧ (c.firstFrame ≤ c.framesSeen → k + 1 < c.count →
              exec (.frameDecodeDone v ctx (.picture pic)) s = .next (commit s (modComp t2 p.val m.seq c.num keep))))))))
  ∧ (∀ (s : State) (p : PipeId) (d : Die),
    let x := pipeAt s p.val
    let waiting := firstComp x fun c => c.kind == 2 && !c.decoded
    (waiting = none ∨ (partDies s x.part.val).contains d.val = false → exec (.textTokenize p d) s = .next (commit s s))
    ∧ (∀ m c, waiting = some (m, c) → (partDies s x.part.val).contains d.val = true →
      let dict : Option Dict := Tbl.get none s.ing.dicts (4 * x.part.val + pdDict x.desc)
      (dict = none ∨ pdDict x.desc = 0xFF →
        exec (.textTokenize p d) s = .next (commit s (compFails s p.val m.seq c.num stBadDescriptor 3)))
      ∧ (∀ k, dict = some k → pdDict x.desc ≠ 0xFF →
        (dictPlace k d.val = none → exec (.textTokenize p d) s = .next (commit s s))
        ∧ (∀ tile off a sd s1, dictPlace k d.val = some (tile, off) → shapeDesc s x.desc c.shape = (a, sd, s1) →
          (a = .wait → exec (.textTokenize p d) s = .next (commit s s))
          ∧ (a ≠ .ok → a ≠ .wait → exec (.textTokenize p d) s = .next (commit s (compFails s1 p.val m.seq c.num stTierFail 4)))
          ∧ (a = .ok → textShapeOk sd = false →
            exec (.textTokenize p d) s = .next (commit s (compFails s1 p.val m.seq c.num stBadDescriptor 4)))
          ∧ (∀ a2 arr s2, a = .ok → textShapeOk sd = true →
            readMem s1 .device (strataAddr tile off) (16 * fieldAt k.header 0x0C 4) = (a2, arr, s2) →
            (a2 = .wait → exec (.textTokenize p d) s = .next (commit s s))
            ∧ (a2 ≠ .ok → a2 ≠ .wait → exec (.textTokenize p d) s = .next (commit s (compFails s2 p.val m.seq c.num stTierFail 3)))
            ∧ (a2 = .ok →
              let u := utf8Repair c.bits.length c.bits
              let opt : Nat → List Nat := fun v => if v = 0xFFFFFFFF then [] else [v]
              let ts := opt (fieldAt k.header 0x10 4) ++ tokens arr u.1.length u.1 ++ opt (fieldAt k.header 0x14 4)
              let top := fieldAt sd 0x28 4
              exec (.textTokenize p d) s = .next (commit s (modComp (regAddSat s2 ⟨.tokStat, d.val, 0⟩ 8 24 u.2) p.val m.seq c.num
                fun c => { c with
                  out := (ts.take top ++ List.replicate (top - (ts.take top).length) (fieldAt k.header 0x18 4)).flatMap (leBytes 4)
                  outCount := (ts.take top).length, trunc := decide (top < ts.length), decoded := true, shaped := true }))))))))
  ∧ (∀ (s : State) (p : PipeId),
    let x := pipeAt s p.val
    let waiting := firstComp x fun c => !c.shaped && ((c.kind == 1 && !c.frames.isEmpty) || c.kind == 3)
    (dispatchHeld s = true ∨ waiting = none → exec (.shapeItem p) s = .next (commit s s))
    ∧ (∀ m c, dispatchHeld s = false → waiting = some (m, c) →
      (c.kind = 3 → rawCount c = none → exec (.shapeItem p) s = .next (commit s (compFails s p.val m.seq c.num stCheckFail 4)))
      ∧ (∀ n, c.kind = 3 → rawCount c = some n →
        exec (.shapeItem p) s
          = .next (commit s (modComp s p.val m.seq c.num fun c => { c with out := c.bits, outCount := n, shaped := true })))
      ∧ (∀ a sd s1, c.kind = 1 → shapeDesc s x.desc c.shape = (a, sd, s1) →
        (a = .wait → exec (.shapeItem p) s = .next (commit s s))
        ∧ (a ≠ .ok → a ≠ .wait → exec (.shapeItem p) s = .next (commit s (compFails s1 p.val m.seq c.num stTierFail 4)))
        ∧ (∀ pic pics, a = .ok → c.frames = pic :: pics →
          (shapeOk sd = false ∨ shapeFrame pic sd = none →
            exec (.shapeItem p) s = .next (commit s (compFails s1 p.val m.seq c.num stBadDescriptor 4)))
          ∧ (∀ codes, shapeOk sd = true → shapeFrame pic sd = some codes →
            exec (.shapeItem p) s = .next (commit s (modComp s1 p.val m.seq c.num (addFrame (fieldAt sd 0x0F 1) codes))))))))

/-- The oldest sample that has ended takes the next free slot of an open pipeline: a failed one its header alone; one whose bytes are
longer than a slot ends NO_RESOURCE there, and one whose write fails TIER_FAIL; a write that must wait has the sample wait. The slot is
then ready, the count of slots rises by one, and where lockets are written one is owed, or ING_PIPE says that one was left out. With no
ended sample or no free slot nothing changes. The next free slot is in the ring and in no use.
The oldest locket owed is read from its slot, coded and written, then its index entry, and the count of lockets goes on; a read or a write
that fails leaves it out, recorded in ING_PIPEERR, and one that must wait leaves it owed.
A newt that takes a slot gets the oldest ready one's address and number, waits where none is ready, and faults CMD_DESC for a pipeline
its partition does not hold; one that gives a slot back returns it, faults CMD_DESC for a pipeline that is not its partition's, and TRAP
for a slot it has not taken (the model's choice, log entry 76).
Each changes nothing where the newt is not at that routine. -/
def Obligations.SlotsAreReadyTakenAndGiven : Prop :=
  ((∀ (s : State) (p : PipeId),
    let x := pipeAt s p.val
    let ended := x.samples.findSome? fun m => (sampleEnd m).map fun e => (m, e)
    (x.st ≠ .opened ∨ ended = none ∨ nextFree x = none → exec (.slotReady p) s = .next (commit s s))
    ∧ (∀ m st stage i, x.st = .opened → ended = some (m, st, stage) → nextFree x = some i →
      (isSuccess st = false → exec (.slotReady p) s = .next (commit s (failSlot s p.val x m i st stage)))
      ∧ (isSuccess st = true →
        let due := if m.locket.isSome = true then none else planLocket s x m (slotFor s x m st 0) i
        let b := slotFor s x m st (match due with | some d => d.index | none => 0xFFFFFFFF)
        (pdSlotLen x.desc < b.length → exec (.slotReady p) s = .next (commit s (failSlot s p.val x m i stNoResource 5)))
        ∧ (∀ a s1, b.length ≤ pdSlotLen x.desc → writeMem s .device (slotAddr x.desc i) b = (a, s1) →
          (a = .wait → exec (.slotReady p) s = .next (commit s (stillWaits s s1)))
          ∧ (a = .ok → exec (.slotReady p) s = .next (commit s (readySlot
            (if pdLocketWr x.desc = true ∧ due = none then regOr s1 ⟨.ingPipe, 0, p.val⟩ 16 else s1) p.val m i st stage due)))
          ∧ (a ≠ .ok → a ≠ .wait → exec (.slotReady p) s = .next (commit s (failSlot s p.val x m i stTierFail 5)))))))
  ∧ (∀ (s : State) (p : Nat) (x : Pipe) (m : Sample) (i stage : Nat) (st : Status),
      let w := writeMem s .device (slotAddr x.desc i) (failedSlot s m st)
      failSlot s p x m i st stage = if w.1 = .wait then stillWaits s w.2 else readySlot w.2 p m i st stage none)
  ∧ (∀ (x : Pipe) (i : Nat), nextFree x = some i → i < pdSlots x.desc ∧ ∀ u ∈ x.slots, u.index ≠ i)
  ∧ (∀ (s : State) (p : Nat) (m : Sample) (i stage : Nat) (st : Status) (due : Option LocketDue),
      let y := pipeAt (readySlot s p m i st stage due) p
      y.ready = (pipeAt s p).ready ++ [i] ∧ y.slots = (pipeAt s p).slots ++ [⟨i, false, due.isSome, false⟩]
        ∧ y.locketDue = (pipeAt s p).locketDue ++ due.toList))
  ∧ (∀ (s : State) (p : PipeId),
    let x := pipeAt s p.val
    (x.locketDue = [] → exec (.locketWrite p) s = .next (commit s s))
    ∧ (∀ d ds a slot s1, x.locketDue = d :: ds →
      readMem s .device (slotAddr x.desc d.slot) (maxN (d.runs.map fun r => r.2.2.1 + r.2.2.2)) = (a, slot, s1) →
      let left (t : State) := pipeErr (modPipe t p.val fun x => locketRead x d.slot) p.val d.entry stTierFail 5
      (a = .wait → exec (.locketWrite p) s = .next (commit s s))
      ∧ (a ≠ .ok → a ≠ .wait → exec (.locketWrite p) s = .next (commit s (left s1)))
      ∧ (∀ b k nan a2 s2, a = .ok → locketBytes (pdRate x.desc) slot d.runs = (b, k, nan) →
        writeMem s1 .device (pdLocket x.desc + d.off) b 3 = (a2, s2) →
        (a2 = .wait → exec (.locketWrite p) s = .next (commit s (stillWaits s s2)))
        ∧ (a2 ≠ .ok → a2 ≠ .wait → exec (.locketWrite p) s = .next (commit s (left s2)))
        ∧ (∀ a3 s3, a2 = .ok → writeMem s2 .device (pdLocket x.desc + 16 * d.index)
            (slot.take 8 ++ leBytes 4 (d.off / 2048) ++ leBytes 4 b.length) 3 = (a3, s3) →
          let t := codecDone (modPipe s3 p.val fun x => locketRead x d.slot) (bc0 (pdLocket x.desc)) k nan
          (a3 = .wait → exec (.locketWrite p) s = .next (commit s (stillWaits s s3)))
          ∧ (a3 ≠ .ok → a3 ≠ .wait → exec (.locketWrite p) s = .next (commit s (left s3)))
          ∧ (a3 = .ok → exec (.locketWrite p) s = .next (commit s (if regGet t ⟨.ingLockets, 0, p.val⟩ = d.index
            then regSet t ⟨.ingLockets, 0, p.val⟩ (d.index + 1) else t)))))))
  ∧ (∀ (s : State) (t : TileId),
    let l := liveTile s t.toNat
    (atWord s l 14 = false → exec (.ingestTake t) s = .next (commit s s))
    ∧ (atWord s l 14 = true → takePipe s l = none →
      exec (.ingestTake t) s = .next (commit s (newtFault s l 0x09 0 false)))
    ∧ (∀ n, atWord s l 14 = true → takePipe s l = some n →
      ((pipeAt s n).ready = [] → exec (.ingestTake t) s = .next (commit s (parkAt s l .ingest)))
      ∧ (∀ i rest, (pipeAt s n).ready = i :: rest →
        exec (.ingestTake t) s = .next (commit s (modTile (modPipe s n fun x =>
          { x with ready := rest, slots := x.slots.map fun k => if k.index = i then { k with taken := true } else k })
          l fun x => libReturn (setG (setG x 6 (BitVec.ofNat 64 (slotAddr (pipeAt s n).desc i))) 7 (BitVec.ofNat 64 i)))))))
  ∧ (∀ (s : State) (t : TileId),
    let l := liveTile s t.toNat
    let n := gNum s l 4
    let i := gNum s l 5
    let x := pipeAt s n
    (atWord s l 15 = false → exec (.ingestGive t) s = .next (commit s s))
    ∧ (atWord s l 15 = true → 32 ≤ n ∨ (tileAt s l).part ≠ some x.part →
      exec (.ingestGive t) s = .next (commit s (newtFault s l 0x09 0 false)))
    ∧ (atWord s l 15 = true → n < 32 → (tileAt s l).part = some x.part →
      (∀ k ∈ x.slots, k.index = i → k.taken = false ∨ k.given = true) →
      exec (.ingestGive t) s = .next (commit s (newtFault s l 0x08 0 false)))
    ∧ (atWord s l 15 = true → n < 32 → (tileAt s l).part = some x.part →
      (∃ k ∈ x.slots, k.index = i ∧ k.taken = true ∧ k.given = false) →
      exec (.ingestGive t) s = .next (commit s (modTile (modPipe s n fun y => { y with
        slots := (x.slots.filter fun k => !(k.index == i && !k.locketOwed)).map fun k => if k.index = i then { k with given := true } else k })
        l libReturn))))

/-! ### Records and frames -/

/-- A completion record stands in the 16 bytes of its place in the ring: TAG, STATUS, PHASE and INFO; no other byte of host
memory changes, and the count of records rises by one. PHASE is 1 on the ring's first pass and changes with each pass. In D3hot
the record is withheld; a FREE queue gets none.
A fault record takes the next 32 bytes of the function's event ring while the ring has room, with the register's value and
fabric time; without room it is dropped and counted. A function whose ring is not enabled, or whose ring size is outside R734, gets
none. -/
def Obligations.RecordsTakeTheirPlaceInHostMemory : Prop :=
  (∀ (s : State) (q tag info : Nat) (st : Status),
      let d := queueAt s q
      let n := 2 ^ d.cplLog
      let a := d.cpl + 16 * (d.cplTail % n)
      let u := writeRecord s q tag st info
      (d.st = .free → u = s)
      ∧ (d.st ≠ .free → Tbl.get false s.host.d3hot d.fn = true →
        (∀ x, hostByte u x = hostByte s x) ∧ (queueAt u q).withheld.length = d.withheld.length + 1 ∧ (queueAt u q).cplTail = d.cplTail)
      ∧ (d.st ≠ .free → Tbl.get false s.host.d3hot d.fn = false →
        (queueAt u q).cplTail = d.cplTail + 1
        ∧ (∀ x, x < a ∨ a + 16 ≤ x → hostByte u x = hostByte s x)
        ∧ leNat (bytesAt 0 u.hostMem a 4) = tag % 2 ^ 32 ∧ leNat (bytesAt 0 u.hostMem (a + 4) 2) = st.toNat
        ∧ leNat (bytesAt 0 u.hostMem (a + 6) 1) = 1 - d.cplTail / n % 2 ∧ leNat (bytesAt 0 u.hostMem (a + 8) 8) = info % 2 ^ 64
        ∧ (∀ x, devByte u x = devByte s x) ∧ u.tiles = s.tiles ∧ u.parts = s.parts))
  ∧ (∀ (s : State) (fn part queue : Nat) (st : Status) (r : Reg),
      let b := regGet s ⟨.hostEvtbase, fn, 0⟩
      let n := 2 ^ (b % 32)
      let w := Tbl.get 0 s.host.evtWritten fn
      let a := b / 4096 * 4096 + 32 * (w % n)
      let u := faultTo s fn st part r queue
      (regBit s ⟨.hostFnctrl, fn, 0⟩ 1 = false ∨ b % 32 < 4 ∨ 16 < b % 32 → u = s)
      ∧ (regBit s ⟨.hostFnctrl, fn, 0⟩ 1 = true → 4 ≤ b % 32 → b % 32 ≤ 16 → Tbl.get 0 s.host.evtHead fn + n ≤ w →
        u = regAddSat s ⟨.hostEvtstat, fn, 0⟩ 16 16 1)
      ∧ (regBit s ⟨.hostFnctrl, fn, 0⟩ 1 = true → 4 ≤ b % 32 → b % 32 ≤ 16 → w < Tbl.get 0 s.host.evtHead fn + n →
        Tbl.get 0 u.host.evtWritten fn = w + 1
        ∧ (∀ x, x < a ∨ a + 32 ≤ x → hostByte u x = hostByte s x)
        ∧ leNat (bytesAt 0 u.hostMem a 4) = w % 2 ^ 32
        ∧ leNat (bytesAt 0 u.hostMem (a + 4) 2) = st.toNat ∧ leNat (bytesAt 0 u.hostMem (a + 6) 1) = part % 256
        ∧ leNat (bytesAt 0 u.hostMem (a + 7) 1) = 1 - w / n % 2
        ∧ leNat (bytesAt 0 u.hostMem (a + 8) 8) = s.now % 2 ^ 64 ∧ leNat (bytesAt 0 u.hostMem (a + 16) 8) = r.addr % 2 ^ 64
        ∧ leNat (bytesAt 0 u.hostMem (a + 24) 4) = regRead s r % 2 ^ 32 ∧ leNat (bytesAt 0 u.hostMem (a + 28) 4) = queue % 2 ^ 32
        ∧ (∀ x, devByte u x = devByte s x) ∧ u.regs = s.regs ∧ u.tiles = s.tiles ∧ u.parts = s.parts))

/-- Commands of the links, of power and of the management port that store nothing: every byte of device and of host memory, every
tile, every partition and every queue is as before. -/
def Obligations.LinkAndPowerCommandsStoreNothing : Prop :=
  ∀ (s u : State) (c : Instr) (l : LinkId) (n : Fin 4) (lanes : BitVec 4) (v : W32) (w : BitVec 16) (ty : Byte) (a : Fin 3) (d : Fin 6),
    c ∈ [.laneFault l n, .trainingComplete l lanes, .trainingTimeout l, .retrainComplete l lanes, .retrainTimeout l,
      .signalDetected l lanes, .lnkRetry l v, .lnkEnable l v, .lnkDisable l v, .joinRetry a, .parentChange d, .grandmasterTakeover,
      .ackTimer l, .replayTimeout l, .identSend, .timeSend, .pwrVreqWrite v, .voltageRampDone, .setLimit w, .subscribe ty w,
      .getRecord ty, .clspHoldRelease] →
    exec c s = .next u →
    (∀ x, devByte u x = devByte s x) ∧ (∀ x, hostByte u x = hostByte s x) ∧ u.tiles = s.tiles ∧ u.parts = s.parts
      ∧ u.host.queues = s.host.queues ∧ u.tier.regions = s.tier.regions ∧ u.accounts = s.accounts
end

