-- ==== Sys2Proof/Laws/Exec.lean ====
section
/-! SUPPORT. Every command answers a next state: for each, the state that its meaning reaches, with the queue kept and the
memories brought to canonical form. -/

namespace Sys2Proof.Machine
open Sys2Proof

theorem exec_powerOnStart (inputMv : Nat) (env : StartEnv) (s : State) :
    exec (.powerOnStart inputMv env) s = .next (commit s (doPowerOnStart inputMv env s)) := rfl

theorem exec_imageVerifyDone (s : State) :
    exec (.imageVerifyDone) s = .next (commit s (doImageVerifyDone s)) := rfl

theorem exec_tierFillDone (s : State) :
    exec (.tierFillDone) s = .next (commit s (doTierFillDone s)) := rfl

theorem exec_enterRun (s : State) :
    exec (.enterRun) s = .next (commit s (doEnterRun s)) := rfl

theorem exec_komodoRunTimeout (s : State) :
    exec (.komodoRunTimeout) s = .next (commit s (doKomodoRunTimeout s)) := rfl

theorem exec_brownOutReset (d : Die) (mv : Nat) (env : StartEnv) (s : State) :
    exec (.brownOutReset d mv env) s = .next (commit s (doBrownOutReset d mv env s)) := rfl

theorem exec_perstDeassert (s : State) :
    exec (.perstDeassert) s = .next (commit s (doPerstDeassert s)) := rfl

theorem exec_paceWindowEnd (rates : List (List Nat)) (s : State) :
    exec (.paceWindowEnd rates) s = .next (commit s (doPaceWindowEnd rates s)) := rfl

theorem exec_crossingDeliver (i : Island) (x : CrossItem) (s : State) :
    exec (.crossingDeliver i x) s = .next (commit s (doCrossingDeliver i x s)) := rfl

theorem exec_eventCrossingSend (i : Island) (toIsland : Bool) (s : State) :
    exec (.eventCrossingSend i toIsland) s = .next (commit s (doEventCrossingSend i toIsland s)) := rfl

theorem exec_islandWake (i : Island) (x : CrossItem) (s : State) :
    exec (.islandWake i x) s = .next (commit s (doIslandWake i x s)) := rfl

theorem exec_islandWakeDone (i : Island) (s : State) :
    exec (.islandWakeDone i) s = .next (commit s (doIslandWakeDone i s)) := rfl

theorem exec_wakeLate (i : Island) (s : State) :
    exec (.wakeLate i) s = .next (commit s (doWakeLate i s)) := rfl

theorem exec_islandStopRequest (i : Island) (w : WakeMeet) (s : State) :
    exec (.islandStopRequest i w) s = .next (commit s (doIslandStopRequest i w s)) := rfl

theorem exec_i3cStartCondition (s : State) :
    exec (.i3cStartCondition) s = .next (commit s (doI3cStartCondition s)) := rfl

theorem exec_xstatWrite (i : Island) (v hw : W32) (s : State) :
    exec (.xstatWrite i v hw) s = .next (commit s (doXstatWrite i v hw s)) := rfl

theorem exec_arbiterGrant (r : Resource) (arrivals : List Request) (s : State) :
    exec (.arbiterGrant r arrivals) s = .next (commit s (doArbiterGrant r arrivals s)) := rfl

theorem exec_brakeApply (d : Die) (mv ns : Nat) (s : State) :
    exec (.brakeApply d mv ns) s = .next (commit s (doBrakeApply d mv ns s)) := rfl

theorem exec_brakeRelease (mv ns : Nat) (s : State) :
    exec (.brakeRelease mv ns) s = .next (commit s (doBrakeRelease mv ns s)) := rfl

theorem exec_newtNop (t : TileId) (e : ParityHit) (s : State) :
    exec (.newtNop t e) s = .next (commit s (doNewtNop t e s)) := rfl

theorem exec_newtAdd (t : TileId) (e : ParityHit) (s : State) :
    exec (.newtAdd t e) s = .next (commit s (doNewtAdd t e s)) := rfl

theorem exec_newtSub (t : TileId) (e : ParityHit) (s : State) :
    exec (.newtSub t e) s = .next (commit s (doNewtSub t e s)) := rfl

theorem exec_newtAnd (t : TileId) (e : ParityHit) (s : State) :
    exec (.newtAnd t e) s = .next (commit s (doNewtAnd t e s)) := rfl

theorem exec_newtOr (t : TileId) (e : ParityHit) (s : State) :
    exec (.newtOr t e) s = .next (commit s (doNewtOr t e s)) := rfl

theorem exec_newtXor (t : TileId) (e : ParityHit) (s : State) :
    exec (.newtXor t e) s = .next (commit s (doNewtXor t e s)) := rfl

theorem exec_newtShl (t : TileId) (e : ParityHit) (s : State) :
    exec (.newtShl t e) s = .next (commit s (doNewtShl t e s)) := rfl

theorem exec_newtShr (t : TileId) (e : ParityHit) (s : State) :
    exec (.newtShr t e) s = .next (commit s (doNewtShr t e s)) := rfl

theorem exec_newtSra (t : TileId) (e : ParityHit) (s : State) :
    exec (.newtSra t e) s = .next (commit s (doNewtSra t e s)) := rfl

theorem exec_newtMul (t : TileId) (e : ParityHit) (s : State) :
    exec (.newtMul t e) s = .next (commit s (doNewtMul t e s)) := rfl

theorem exec_newtMin (t : TileId) (e : ParityHit) (s : State) :
    exec (.newtMin t e) s = .next (commit s (doNewtMin t e s)) := rfl

theorem exec_newtMax (t : TileId) (e : ParityHit) (s : State) :
    exec (.newtMax t e) s = .next (commit s (doNewtMax t e s)) := rfl

theorem exec_newtAddi (t : TileId) (e : ParityHit) (s : State) :
    exec (.newtAddi t e) s = .next (commit s (doNewtAddi t e s)) := rfl

theorem exec_newtAndi (t : TileId) (e : ParityHit) (s : State) :
    exec (.newtAndi t e) s = .next (commit s (doNewtAndi t e s)) := rfl

theorem exec_newtOri (t : TileId) (e : ParityHit) (s : State) :
    exec (.newtOri t e) s = .next (commit s (doNewtOri t e s)) := rfl

theorem exec_newtShli (t : TileId) (e : ParityHit) (s : State) :
    exec (.newtShli t e) s = .next (commit s (doNewtShli t e s)) := rfl

theorem exec_newtShri (t : TileId) (e : ParityHit) (s : State) :
    exec (.newtShri t e) s = .next (commit s (doNewtShri t e s)) := rfl

theorem exec_newtMovz (t : TileId) (e : ParityHit) (s : State) :
    exec (.newtMovz t e) s = .next (commit s (doNewtMovz t e s)) := rfl

theorem exec_newtMovk (t : TileId) (e : ParityHit) (s : State) :
    exec (.newtMovk t e) s = .next (commit s (doNewtMovk t e s)) := rfl

theorem exec_newtCmp (t : TileId) (e : ParityHit) (s : State) :
    exec (.newtCmp t e) s = .next (commit s (doNewtCmp t e s)) := rfl

theorem exec_newtCmpi (t : TileId) (e : ParityHit) (s : State) :
    exec (.newtCmpi t e) s = .next (commit s (doNewtCmpi t e s)) := rfl

theorem exec_newtPlog (t : TileId) (e : ParityHit) (s : State) :
    exec (.newtPlog t e) s = .next (commit s (doNewtPlog t e s)) := rfl

theorem exec_newtBr (t : TileId) (e : ParityHit) (s : State) :
    exec (.newtBr t e) s = .next (commit s (doNewtBr t e s)) := rfl

theorem exec_newtCall (t : TileId) (e : ParityHit) (s : State) :
    exec (.newtCall t e) s = .next (commit s (doNewtCall t e s)) := rfl

theorem exec_newtRet (t : TileId) (e : ParityHit) (s : State) :
    exec (.newtRet t e) s = .next (commit s (doNewtRet t e s)) := rfl

theorem exec_newtLoop (t : TileId) (e : ParityHit) (s : State) :
    exec (.newtLoop t e) s = .next (commit s (doNewtLoop t e s)) := rfl

theorem exec_newtHalt (t : TileId) (e : ParityHit) (s : State) :
    exec (.newtHalt t e) s = .next (commit s (doNewtHalt t e s)) := rfl

theorem exec_newtTrap (t : TileId) (e : ParityHit) (s : State) :
    exec (.newtTrap t e) s = .next (commit s (doNewtTrap t e s)) := rfl

theorem exec_newtLd (t : TileId) (e : ParityHit) (s : State) :
    exec (.newtLd t e) s = .next (commit s (doNewtLd t e s)) := rfl

theorem exec_newtSt (t : TileId) (e : ParityHit) (s : State) :
    exec (.newtSt t e) s = .next (commit s (doNewtSt t e s)) := rfl

theorem exec_newtLdw (t : TileId) (e : ParityHit) (s : State) :
    exec (.newtLdw t e) s = .next (commit s (doNewtLdw t e s)) := rfl

theorem exec_newtStw (t : TileId) (e : ParityHit) (s : State) :
    exec (.newtStw t e) s = .next (commit s (doNewtStw t e s)) := rfl

theorem exec_newtAclr (t : TileId) (e : ParityHit) (s : State) :
    exec (.newtAclr t e) s = .next (commit s (doNewtAclr t e s)) := rfl

theorem exec_newtMma (t : TileId) (e : ParityHit) (s : State) :
    exec (.newtMma t e) s = .next (commit s (doNewtMma t e s)) := rfl

theorem exec_newtFill (t : TileId) (e : ParityHit) (s : State) :
    exec (.newtFill t e) s = .next (commit s (doNewtFill t e s)) := rfl

theorem exec_newtSwap (t : TileId) (e : ParityHit) (s : State) :
    exec (.newtSwap t e) s = .next (commit s (doNewtSwap t e s)) := rfl

theorem exec_newtWout (t : TileId) (e : ParityHit) (s : State) :
    exec (.newtWout t e) s = .next (commit s (doNewtWout t e s)) := rfl

theorem exec_newtVop (t : TileId) (e : ParityHit) (s : State) :
    exec (.newtVop t e) s = .next (commit s (doNewtVop t e s)) := rfl

theorem exec_newtFexp (t : TileId) (e : ParityHit) (s : State) :
    exec (.newtFexp t e) s = .next (commit s (doNewtFexp t e s)) := rfl

theorem exec_newtXwait (t : TileId) (e : ParityHit) (s : State) :
    exec (.newtXwait t e) s = .next (commit s (doNewtXwait t e s)) := rfl

theorem exec_newtBar (t : TileId) (e : ParityHit) (s : State) :
    exec (.newtBar t e) s = .next (commit s (doNewtBar t e s)) := rfl

theorem exec_newtSev (t : TileId) (e : ParityHit) (s : State) :
    exec (.newtSev t e) s = .next (commit s (doNewtSev t e s)) := rfl

theorem exec_newtWev (t : TileId) (e : ParityHit) (s : State) :
    exec (.newtWev t e) s = .next (commit s (doNewtWev t e s)) := rfl

theorem exec_newtMark (t : TileId) (e : ParityHit) (s : State) :
    exec (.newtMark t e) s = .next (commit s (doNewtMark t e s)) := rfl

theorem exec_markerForward (t : TileId) (s : State) :
    exec (.markerForward t) s = .next (commit s (doMarkerForward t s)) := rfl

theorem exec_newtFence (t : TileId) (e : ParityHit) (s : State) :
    exec (.newtFence t e) s = .next (commit s (doNewtFence t e s)) := rfl

theorem exec_newtTime (t : TileId) (e : ParityHit) (s : State) :
    exec (.newtTime t e) s = .next (commit s (doNewtTime t e s)) := rfl

theorem exec_newtCsrr (t : TileId) (e : ParityHit) (s : State) :
    exec (.newtCsrr t e) s = .next (commit s (doNewtCsrr t e s)) := rfl

theorem exec_newtCsrw (t : TileId) (e : ParityHit) (s : State) :
    exec (.newtCsrw t e) s = .next (commit s (doNewtCsrw t e s)) := rfl

theorem exec_waitTimeout (t : TileId) (s : State) :
    exec (.waitTimeout t) s = .next (commit s (doWaitTimeout t s)) := rfl

theorem exec_aclrExecute (t : TileId) (s : State) :
    exec (.aclrExecute t) s = .next (commit s (doAclrExecute t s)) := rfl

theorem exec_mmaExecute (t : TileId) (s : State) :
    exec (.mmaExecute t) s = .next (commit s (doMmaExecute t s)) := rfl

theorem exec_fillExecute (t : TileId) (hit : Bool) (s : State) :
    exec (.fillExecute ⟨t, hit⟩) s = .next (commit s (doFillExecute t hit s)) := rfl

theorem exec_woutExecute (t : TileId) (hit : Bool) (s : State) :
    exec (.woutExecute ⟨t, hit⟩) s = .next (commit s (doWoutExecute t hit s)) := rfl

theorem exec_vopExecute (t : TileId) (s : State) :
    exec (.vopExecute t) s = .next (commit s (doVopExecute t s)) := rfl

theorem exec_fexpExecute (t : TileId) (s : State) :
    exec (.fexpExecute t) s = .next (commit s (doFexpExecute t s)) := rfl

theorem exec_tileCommandComplete (t : TileId) (num : Nat) (s : State) :
    exec (.tileCommandComplete t num) s = .next (commit s (doTileCommandComplete t num s)) := rfl

theorem exec_levelStage (t : TileId) (level : Fin 5) (opnd : Fin 3) (s : State) :
    exec (.levelStage t level opnd) s = .next (commit s (doLevelStage t level opnd s)) := rfl

theorem exec_stepReplay (p : PartId) (s : State) :
    exec (.stepReplay p) s = .next (commit s (doStepReplay p s)) := rfl

theorem exec_tileHardwareFault (t : TileId) (s : State) :
    exec (.tileHardwareFault t) s = .next (commit s (doTileHardwareFault t s)) := rfl

theorem exec_remapCopyComplete (t : TileId) (s : State) :
    exec (.remapCopyComplete t) s = .next (commit s (doRemapCopyComplete t s)) := rfl

theorem exec_attnFwd (p : PartId) (hit : Option TileId) (s : State) :
    exec (.attnFwd ⟨p, hit⟩) s = .next (commit s (doAttnFwd p hit s)) := rfl

theorem exec_attnAppend (p : PartId) (hit : Option TileId) (s : State) :
    exec (.attnAppend ⟨p, hit⟩) s = .next (commit s (doAttnAppend p hit s)) := rfl

theorem exec_attnBwd (p : PartId) (hit : Option TileId) (s : State) :
    exec (.attnBwd ⟨p, hit⟩) s = .next (commit s (doAttnBwd p hit s)) := rfl

theorem exec_partialRecord (m : Bytes) (s : State) :
    exec (.partialRecord m) s = .next (commit s (doPartialRecord m s)) := rfl

theorem exec_conv (p : PartId) (hit : Option TileId) (s : State) :
    exec (.conv ⟨p, hit⟩) s = .next (commit s (doConv p hit s)) := rfl

theorem exec_det (p : PartId) (hit : Option TileId) (s : State) :
    exec (.det ⟨p, hit⟩) s = .next (commit s (doDet p hit s)) := rfl

theorem exec_strataDeclare (cid : Nat) (s : State) :
    exec (.strataDeclare cid) s = .next (commit s (doStrataDeclare cid s)) := rfl

theorem exec_strataRelease (cid : Nat) (s : State) :
    exec (.strataRelease cid) s = .next (commit s (doStrataRelease cid s)) := rfl

theorem exec_strataParityFail (addr : BitVec 48) (by_ : FoundBy) (readBackFails : Bool) (s : State) :
    exec (.strataParityFail addr by_ readBackFails) s = .next (commit s (doStrataParityFail addr by_ readBackFails s)) := rfl

theorem exec_cleanRefetchDone (addr : BitVec 48) (tierOk readBackFails : Bool) (s : State) :
    exec (.cleanRefetchDone addr tierOk readBackFails) s = .next (commit s (doCleanRefetchDone addr tierOk readBackFails s)) := rfl

theorem exec_scrubLine (d : Die) (fails readBackFails : Bool) (s : State) :
    exec (.scrubLine d fails readBackFails) s = .next (commit s (doScrubLine d fails readBackFails s)) := rfl

theorem exec_scrubBehind (d : Die) (s : State) :
    exec (.scrubBehind d) s = .next (commit s (doScrubBehind d s)) := rfl

theorem exec_strScrubWrite (d : Die) (v hw : W32) (s : State) :
    exec (.strScrubWrite d v hw) s = .next (commit s (doStrScrubWrite d v hw s)) := rfl

theorem exec_strErrlogWrite (t : TileId) (v hw : W64) (s : State) :
    exec (.strErrlogWrite t v hw) s = .next (commit s (doStrErrlogWrite t v hw s)) := rfl

theorem exec_tierAlloc (cid : Nat) (s : State) :
    exec (.tierAlloc cid) s = .next (commit s (doTierAlloc cid s)) := rfl

theorem exec_tierFree (cid : Nat) (s : State) :
    exec (.tierFree cid) s = .next (commit s (doTierFree cid s)) := rfl

theorem exec_tierFlush (cid : Nat) (s : State) :
    exec (.tierFlush cid) s = .next (commit s (doTierFlush cid s)) := rfl

theorem exec_tierQuota (cid : Nat) (s : State) :
    exec (.tierQuota cid) s = .next (commit s (doTierQuota cid s)) := rfl

theorem exec_streamDeclare (cid : Nat) (s : State) :
    exec (.streamDeclare cid) s = .next (commit s (doStreamDeclare cid s)) := rfl

theorem exec_streamAcq (p : PartId) (s : State) :
    exec (.streamAcq p) s = .next (commit s (doStreamAcq p s)) := rfl

theorem exec_streamRel (p : PartId) (s : State) :
    exec (.streamRel p) s = .next (commit s (doStreamRel p s)) := rfl

theorem exec_streamFetchDone (p : PartId) (stream : Fin 8) (layer : Nat) (s : State) :
    exec (.streamFetchDone p stream layer) s = .next (commit s (doStreamFetchDone p stream layer s)) := rfl

theorem exec_wcAgeExpiry (c : TierCtl) (unit : Nat) (uncorrectable : Bool) (s : State) :
    exec (.wcAgeExpiry c unit uncorrectable) s = .next (commit s (doWcAgeExpiry c unit uncorrectable s)) := rfl

theorem exec_backedFill (addr : BitVec 48) (t : Option TileId) (s : State) :
    exec (.backedFill ⟨addr, t⟩) s = .next (commit s (doBackedFill addr t s)) := rfl

theorem exec_writeBack (addr : BitVec 48) (s : State) :
    exec (.writeBack addr) s = .next (commit s (doWriteBack addr s)) := rfl

theorem exec_reclaim (p : PartId) (s : State) :
    exec (.reclaim p) s = .next (commit s (doReclaim p s)) := rfl

theorem exec_tierLate (c : TierCtl) (addr : BitVec 48) (r : TierReq) (s : State) :
    exec (.tierLate c addr r) s = .next (commit s (doTierLate c addr r s)) := rfl

theorem exec_tierUncorrectable (c : TierCtl) (addr : BitVec 48) (r : TierReq) (s : State) :
    exec (.tierUncorrectable c addr r) s = .next (commit s (doTierUncorrectable c addr r s)) := rfl

theorem exec_tierRetirement (c : TierCtl) (pc : Fin 64) (why : RetireCause) (s : State) :
    exec (.tierRetirement c pc why) s = .next (commit s (doTierRetirement c pc why s)) := rfl

theorem exec_redirectionComplete (c : TierCtl) (pc : Fin 64) (s : State) :
    exec (.redirectionComplete c pc) s = .next (commit s (doRedirectionComplete c pc s)) := rfl

theorem exec_tierScrub (c : TierCtl) (unit : Nat) (r : ScrubResult) (s : State) :
    exec (.tierScrub c unit r) s = .next (commit s (doTierScrub c unit r s)) := rfl

theorem exec_bcEnc (p : PartId) (hit : Option TileId) (s : State) :
    exec (.bcEnc ⟨p, hit⟩) s = .next (commit s (doBcEnc p hit s)) := rfl

theorem exec_bcDec (p : PartId) (hit : Option TileId) (s : State) :
    exec (.bcDec ⟨p, hit⟩) s = .next (commit s (doBcDec p hit s)) := rfl

theorem exec_bcVerify (p : PartId) (hit : Option TileId) (s : State) :
    exec (.bcVerify ⟨p, hit⟩) s = .next (commit s (doBcVerify p hit s)) := rfl

theorem exec_ral2pDecode (p : PartId) (hit : Option TileId) (s : State) :
    exec (.ral2pDecode ⟨p, hit⟩) s = .next (commit s (doRal2pDecode p hit s)) := rfl

theorem exec_spEnc (p : PartId) (hit : Option TileId) (s : State) :
    exec (.spEnc ⟨p, hit⟩) s = .next (commit s (doSpEnc p hit s)) := rfl

theorem exec_spDec (p : PartId) (hit : Option TileId) (s : State) :
    exec (.spDec ⟨p, hit⟩) s = .next (commit s (doSpDec p hit s)) := rfl

theorem exec_fcProject (p : PartId) (hit : Option TileId) (s : State) :
    exec (.fcProject ⟨p, hit⟩) s = .next (commit s (doFcProject p hit s)) := rfl

theorem exec_fcOrtho (p : PartId) (hit : Option TileId) (s : State) :
    exec (.fcOrtho ⟨p, hit⟩) s = .next (commit s (doFcOrtho p hit s)) := rfl

theorem exec_fcQproj (p : PartId) (hit : Option TileId) (s : State) :
    exec (.fcQproj ⟨p, hit⟩) s = .next (commit s (doFcQproj p hit s)) := rfl

theorem exec_fcResid (p : PartId) (hit : Option TileId) (s : State) :
    exec (.fcResid ⟨p, hit⟩) s = .next (commit s (doFcResid p hit s)) := rfl

theorem exec_codecErrlogWrite (d : Die) (inst : Fin 4) (v hw : W64) (s : State) :
    exec (.codecErrlogWrite d inst v hw) s = .next (commit s (doCodecErrlogWrite d inst v hw s)) := rfl

theorem exec_dataFlit (l : LinkId) (f : Bytes) (corrected : Nat) (fecBad : Bool) (s : State) :
    exec (.dataFlit l f ⟨corrected, fecBad⟩) s = .next (commit s (doDataFlit l f corrected fecBad s)) := rfl

theorem exec_ctlIdle (l : LinkId) (f : Bytes) (s : State) :
    exec (.ctlIdle l f) s = .next (commit s (doCtlIdle l f s)) := rfl

theorem exec_ackTimer (l : LinkId) (s : State) :
    exec (.ackTimer l) s = .next (commit s (doAckTimer l s)) := rfl

theorem exec_replayTimeout (l : LinkId) (s : State) :
    exec (.replayTimeout l) s = .next (commit s (doReplayTimeout l s)) := rfl

theorem exec_identSend (s : State) :
    exec (.identSend) s = .next (commit s (doIdentSend s)) := rfl

theorem exec_ctlIdent (l : LinkId) (f : Bytes) (s : State) :
    exec (.ctlIdent l f) s = .next (commit s (doCtlIdent l f s)) := rfl

theorem exec_timeSend (s : State) :
    exec (.timeSend) s = .next (commit s (doTimeSend s)) := rfl

theorem exec_timeRecord (l : LinkId) (f : Bytes) (offset : Int) (s : State) :
    exec (.timeRecord l f offset) s = .next (commit s (doTimeRecord l f offset s)) := rfl

theorem exec_ctlJoin (l : LinkId) (f : Bytes) (s : State) :
    exec (.ctlJoin l f) s = .next (commit s (doCtlJoin l f s)) := rfl

theorem exec_ctlJoinReady (l : LinkId) (f : Bytes) (s : State) :
    exec (.ctlJoinReady l f) s = .next (commit s (doCtlJoinReady l f s)) := rfl

theorem exec_ctlJoinCommit (l : LinkId) (f : Bytes) (s : State) :
    exec (.ctlJoinCommit l f) s = .next (commit s (doCtlJoinCommit l f s)) := rfl

theorem exec_ctlJoinAbort (l : LinkId) (f : Bytes) (s : State) :
    exec (.ctlJoinAbort l f) s = .next (commit s (doCtlJoinAbort l f s)) := rfl

theorem exec_joinReadyTimeout (axis : Fin 3) (s : State) :
    exec (.joinReadyTimeout axis) s = .next (commit s (doJoinReadyTimeout axis s)) := rfl

theorem exec_joinRetry (axis : Fin 3) (s : State) :
    exec (.joinRetry axis) s = .next (commit s (doJoinRetry axis s)) := rfl

theorem exec_msgCommand (m : Bytes) (s : State) :
    exec (.msgCommand m) s = .next (commit s (doMsgCommand m s)) := rfl

theorem exec_msgNack (m : Bytes) (s : State) :
    exec (.msgNack m) s = .next (commit s (doMsgNack m s)) := rfl

theorem exec_msgMap (m : Bytes) (s : State) :
    exec (.msgMap m) s = .next (commit s (doMsgMap m s)) := rfl

theorem exec_msgRead (m : Bytes) (s : State) :
    exec (.msgRead m) s = .next (commit s (doMsgRead m s)) := rfl

theorem exec_msgReadData (m : Bytes) (s : State) :
    exec (.msgReadData m) s = .next (commit s (doMsgReadData m s)) := rfl

theorem exec_msgWrite (m : Bytes) (s : State) :
    exec (.msgWrite m) s = .next (commit s (doMsgWrite m s)) := rfl

theorem exec_newtEvent (ev : EventIn) (s : State) :
    exec (.newtEvent ev) s = .next (commit s (doNewtEvent ev s)) := rfl

theorem exec_msgBulk (m : Bytes) (s : State) :
    exec (.msgBulk m) s = .next (commit s (doMsgBulk m s)) := rfl

theorem exec_msgCheckpoint (m : Bytes) (s : State) :
    exec (.msgCheckpoint m) s = .next (commit s (doMsgCheckpoint m s)) := rfl

theorem exec_laneFault (l : LinkId) (lane : Fin 4) (s : State) :
    exec (.laneFault l lane) s = .next (commit s (doLaneFault l lane s)) := rfl

theorem exec_linkFault (l : LinkId) (why : LinkWhy) (s : State) :
    exec (.linkFault l why) s = .next (commit s (doLinkFault l why s)) := rfl

theorem exec_trainingComplete (l : LinkId) (lanes : BitVec 4) (s : State) :
    exec (.trainingComplete l lanes) s = .next (commit s (doTrainingComplete l lanes s)) := rfl

theorem exec_trainingTimeout (l : LinkId) (s : State) :
    exec (.trainingTimeout l) s = .next (commit s (doTrainingTimeout l s)) := rfl

theorem exec_retrainComplete (l : LinkId) (lanes : BitVec 4) (s : State) :
    exec (.retrainComplete l lanes) s = .next (commit s (doRetrainComplete l lanes s)) := rfl

theorem exec_retrainTimeout (l : LinkId) (s : State) :
    exec (.retrainTimeout l) s = .next (commit s (doRetrainTimeout l s)) := rfl

theorem exec_signalDetected (l : LinkId) (lanes : BitVec 4) (s : State) :
    exec (.signalDetected l lanes) s = .next (commit s (doSignalDetected l lanes s)) := rfl

theorem exec_lnkRetry (l : LinkId) (v : W32) (s : State) :
    exec (.lnkRetry l v) s = .next (commit s (if bitOf v.toNat 1 && s.pwr.powered then lnkCtrlWrite s l.val v.toNat else s)) := rfl

theorem exec_lnkEnable (l : LinkId) (v : W32) (s : State) :
    exec (.lnkEnable l v) s = .next (commit s (if bitOf v.toNat 0 && s.pwr.powered then lnkCtrlWrite s l.val v.toNat else s)) := rfl

theorem exec_lnkDisable (l : LinkId) (v : W32) (s : State) :
    exec (.lnkDisable l v) s = .next (commit s (if !bitOf v.toNat 0 && s.pwr.powered then lnkCtrlWrite s l.val v.toNat else s)) := rfl

theorem exec_clspJoin (v : W32) (s : State) :
    exec (.clspJoin v) s = .next (commit s (if bitOf v.toNat 1 && inRun s then clspWrite s v.toNat else s)) := rfl

theorem exec_clspLeave (v : W32) (s : State) :
    exec (.clspLeave v) s = .next (commit s (if bitOf v.toNat 0 && inRun s then clspWrite s v.toNat else s)) := rfl

theorem exec_claspSenseMismatch (sensed : BitVec 18) (s : State) :
    exec (.claspSenseMismatch sensed) s = .next (commit s (doClaspSenseMismatch sensed s)) := rfl

theorem exec_parentChange (dir : Fin 6) (s : State) :
    exec (.parentChange dir) s = .next (commit s (doParentChange dir s)) := rfl

theorem exec_grandmasterTakeover (s : State) :
    exec (.grandmasterTakeover) s = .next (commit s (doGrandmasterTakeover s)) := rfl

theorem exec_collOpen (cid : Nat) (s : State) :
    exec (.collOpen cid) s = .next (commit s (doCollOpen cid s)) := rfl

theorem exec_collClose (cid : Nat) (s : State) :
    exec (.collClose cid) s = .next (commit s (doCollClose cid s)) := rfl

theorem exec_collAbort (m : Bytes) (s : State) :
    exec (.collAbort m) s = .next (commit s (doCollAbort m s)) := rfl

theorem exec_coll (p : PartId) (hit : Option TileId) (s : State) :
    exec (.coll ⟨p, hit⟩) s = .next (commit s (doColl p hit s)) := rfl

theorem exec_collWait (p : PartId) (s : State) :
    exec (.collWait p) s = .next (commit s (doCollWait p s)) := rfl

theorem exec_collectiveStart (p : PartId) (stream : Fin 64) (s : State) :
    exec (.collectiveStart p stream) s = .next (commit s (doCollectiveStart p stream s)) := rfl

theorem exec_collReq (d : Die) (m : Bytes) (s : State) :
    exec (.collReq d m) s = .next (commit s (doCollReq d m s)) := rfl

theorem exec_collGrant (d : Die) (m : Bytes) (s : State) :
    exec (.collGrant d m) s = .next (commit s (doCollGrant d m s)) := rfl

theorem exec_collData (d : Die) (m : Bytes) (s : State) :
    exec (.collData d m) s = .next (commit s (doCollData d m s)) := rfl

theorem exec_collAck (d : Die) (m : Bytes) (s : State) :
    exec (.collAck d m) s = .next (commit s (doCollAck d m s)) := rfl

theorem exec_collResend (d : Die) (m : Bytes) (s : State) :
    exec (.collResend d m) s = .next (commit s (doCollResend d m s)) := rfl

theorem exec_collWatchdog (p : PartId) (stream : Fin 64) (s : State) :
    exec (.collWatchdog p stream) s = .next (commit s (doCollWatchdog p stream s)) := rfl

theorem exec_collStall1Write (v hw : W64) (s : State) :
    exec (.collStall1Write v hw) s = .next (commit s (doCollStall1Write v hw s)) := rfl

theorem exec_ckptShard (cid : Nat) (s : State) :
    exec (.ckptShard cid) s = .next (commit s (doCkptShard cid s)) := rfl

theorem exec_ckptStore (cid : Nat) (s : State) :
    exec (.ckptStore cid) s = .next (commit s (doCkptStore cid s)) := rfl

theorem exec_ckptTake (cid : Nat) (s : State) :
    exec (.ckptTake cid) s = .next (commit s (doCkptTake cid s)) := rfl

theorem exec_snapshot (p : PartId) (b : Option BuddyStore) (s : State) :
    exec (.snapshot p b) s = .next (commit s (doSnapshot p b s)) := rfl

theorem exec_drainChunk (p : PartId) (s : State) :
    exec (.drainChunk p) s = .next (commit s (doDrainChunk p s)) := rfl

theorem exec_drainCommit (side : CommitSide) (s : State) :
    exec (.drainCommit side) s = .next (commit s (doDrainCommit side s)) := rfl

theorem exec_ckptRestore (cid : Nat) (held : List RemoteStore) (s : State) :
    exec (.ckptRestore cid held) s = .next (commit s (doCkptRestore cid held s)) := rfl

theorem exec_axolotlTakeover (cid : Nat) (held : List RemoteStore) (s : State) :
    exec (.axolotlTakeover cid held) s = .next (commit s (doAxolotlTakeover cid held s)) := rfl

theorem exec_ingOpen (cid : Nat) (s : State) :
    exec (.ingOpen cid) s = .next (commit s (doIngOpen cid s)) := rfl

theorem exec_ingFeed (cid : Nat) (s : State) :
    exec (.ingFeed cid) s = .next (commit s (doIngFeed cid s)) := rfl

theorem exec_ingClose (cid : Nat) (s : State) :
    exec (.ingClose cid) s = .next (commit s (doIngClose cid s)) := rfl

theorem exec_ingCloseComplete (p : PipeId) (s : State) :
    exec (.ingCloseComplete p) s = .next (commit s (doIngCloseComplete p s)) := rfl

theorem exec_tokLoad (cid : Nat) (s : State) :
    exec (.tokLoad cid) s = .next (commit s (doTokLoad cid s)) := rfl

theorem exec_vidEncode (cid : Nat) (s : State) :
    exec (.vidEncode cid) s = .next (commit s (doVidEncode cid s)) := rfl

theorem exec_fetchObjectRead (p : PipeId) (r : ReadResult) (s : State) :
    exec (.fetchObjectRead p r) s = .next (commit s (doFetchObjectRead p r s)) := rfl

theorem exec_fetchTimeout (p : PipeId) (s : State) :
    exec (.fetchTimeout p) s = .next (commit s (doFetchTimeout p s)) := rfl

theorem exec_segmentDecrypt (p : PipeId) (d : Die) (s : State) :
    exec (.segmentDecrypt p d) s = .next (commit s (doSegmentDecrypt p d s)) := rfl

theorem exec_recordParse (p : PipeId) (s : State) :
    exec (.recordParse p) s = .next (commit s (doRecordParse p s)) := rfl

theorem exec_sampleAdmit (p : PipeId) (s : State) :
    exec (.sampleAdmit p) s = .next (commit s (doSampleAdmit p s)) := rfl

theorem exec_componentAdmit (p : PipeId) (s : State) :
    exec (.componentAdmit p) s = .next (commit s (doComponentAdmit p s)) := rfl

theorem exec_frameDecodeDone (v : PairId) (ctx : Fin 64) (r : FrameResult) (s : State) :
    exec (.frameDecodeDone v ctx r) s = .next (commit s (doFrameDecodeDone v ctx r s)) := rfl

theorem exec_textTokenize (p : PipeId) (d : Die) (s : State) :
    exec (.textTokenize p d) s = .next (commit s (doTextTokenize p d s)) := rfl

theorem exec_shapeItem (p : PipeId) (s : State) :
    exec (.shapeItem p) s = .next (commit s (doShapeItem p s)) := rfl

theorem exec_slotReady (p : PipeId) (s : State) :
    exec (.slotReady p) s = .next (commit s (doSlotReady p s)) := rfl

theorem exec_locketWrite (p : PipeId) (s : State) :
    exec (.locketWrite p) s = .next (commit s (doLocketWrite p s)) := rfl

theorem exec_ingestTake (t : TileId) (s : State) :
    exec (.ingestTake t) s = .next (commit s (doIngestTake t s)) := rfl

theorem exec_ingestGive (t : TileId) (s : State) :
    exec (.ingestGive t) s = .next (commit s (doIngestGive t s)) := rfl

theorem exec_ingPipeerrWrite (p : PipeId) (v hw : W64) (s : State) :
    exec (.ingPipeerrWrite p v hw) s = .next (commit s (doIngPipeerrWrite p v hw s)) := rfl

theorem exec_nopCommand (cid : Nat) (s : State) :
    exec (.nopCommand cid) s = .next (commit s (doNopCommand cid s)) := rfl

theorem exec_queCreate (cid : Nat) (s : State) :
    exec (.queCreate cid) s = .next (commit s (doQueCreate cid s)) := rfl

theorem exec_queDelete (cid : Nat) (s : State) :
    exec (.queDelete cid) s = .next (commit s (doQueDelete cid s)) := rfl

theorem exec_vfBind (cid : Nat) (s : State) :
    exec (.vfBind cid) s = .next (commit s (doVfBind cid s)) := rfl

theorem exec_remoteCpl (m : Bytes) (s : State) :
    exec (.remoteCpl m) s = .next (commit s (doRemoteCpl m s)) := rfl

theorem exec_submissionDoorbell (fn : FnId) (off : Nat) (v : W64) (stores : List (Nat × Byte)) (s : State) :
    exec (.submissionDoorbell fn off v stores) s = .next (commit s (doSubmissionDoorbell fn off v stores s)) := rfl

theorem exec_creditDoorbell (fn : FnId) (off : Nat) (v : W64) (stores : List (Nat × Byte)) (s : State) :
    exec (.creditDoorbell fn off v stores) s = .next (commit s (doCreditDoorbell fn off v stores s)) := rfl

theorem exec_queueFetch (s : State) :
    exec (.queueFetch) s = .next (commit s (doQueueFetch s)) := rfl

theorem exec_entryAdmit (q : Nat) (s : State) :
    exec (.entryAdmit q) s = .next (commit s (doEntryAdmit q s)) := rfl

theorem exec_msixHoldoffEnd (fn : FnId) (vec : Nat) (s : State) :
    exec (.msixHoldoffEnd fn vec) s = .next (commit s (doMsixHoldoffEnd fn vec s)) := rfl

theorem exec_hostOut (t : TileId) (s : State) :
    exec (.hostOut t) s = .next (commit s (doHostOut t s)) := rfl

theorem exec_hostTmoExpiry (q : Nat) (s : State) :
    exec (.hostTmoExpiry q) s = .next (commit s (doHostTmoExpiry q s)) := rfl

theorem exec_functionLevelReset (fn : FnId) (s : State) :
    exec (.functionLevelReset fn) s = .next (commit s (doFunctionLevelReset fn s)) := rfl

theorem exec_d3hotEntry (fn : FnId) (s : State) :
    exec (.d3hotEntry fn) s = .next (commit s (doD3hotEntry fn s)) := rfl

theorem exec_admqEnable (fn : FnId) (s : State) :
    exec (.admqEnable fn) s = .next (commit s (doAdmqEnable fn s)) := rfl

theorem exec_admqDisable (fn : FnId) (s : State) :
    exec (.admqDisable fn) s = .next (commit s (doAdmqDisable fn s)) := rfl

theorem exec_hostEvtheadWrite (fn : FnId) (v : W32) (s : State) :
    exec (.hostEvtheadWrite fn v) s = .next (commit s (doHostEvtheadWrite fn v s)) := rfl

theorem exec_bar4Read (fn : FnId) (off : Nat) (len : Nat) (s : State) :
    exec (.bar4Read fn off len) s = .next (commit s (doBar4Read fn off len s)) := rfl

theorem exec_bar4Write (fn : FnId) (off : Nat) (data : Bytes) (s : State) :
    exec (.bar4Write fn off data) s = .next (commit s (doBar4Write fn off data s)) := rfl

theorem exec_ptmMeasure (hostTime : Nat) (s : State) :
    exec (.ptmMeasure hostTime) s = .next (commit s (doPtmMeasure hostTime s)) := rfl

theorem exec_partCreate (cid : Nat) (s : State) :
    exec (.partCreate cid) s = .next (commit s (doPartCreate cid s)) := rfl

theorem exec_partModify (cid : Nat) (s : State) :
    exec (.partModify cid) s = .next (commit s (doPartModify cid s)) := rfl

theorem exec_partDelete (cid : Nat) (s : State) :
    exec (.partDelete cid) s = .next (commit s (doPartDelete cid s)) := rfl

theorem exec_tierZeroFillDone (p : PartId) (s : State) :
    exec (.tierZeroFillDone p) s = .next (commit s (doTierZeroFillDone p s)) := rfl

theorem exec_progLoad (cid : Nat) (s : State) :
    exec (.progLoad cid) s = .next (commit s (doProgLoad cid s)) := rfl

theorem exec_stepStart (cid : Nat) (s : State) :
    exec (.stepStart cid) s = .next (commit s (doStepStart cid s)) := rfl

theorem exec_stepBegin (p : PartId) (s : State) :
    exec (.stepBegin p) s = .next (commit s (doStepBegin p s)) := rfl

theorem exec_stepEnd (p : PartId) (s : State) :
    exec (.stepEnd p) s = .next (commit s (doStepEnd p s)) := rfl

theorem exec_stepStop (cid : Nat) (s : State) :
    exec (.stepStop cid) s = .next (commit s (doStepStop cid s)) := rfl

theorem exec_dlmSet (cid : Nat) (s : State) :
    exec (.dlmSet cid) s = .next (commit s (doDlmSet cid s)) := rfl

theorem exec_markerRecord (p : PartId) (s : State) :
    exec (.markerRecord p) s = .next (commit s (doMarkerRecord p s)) := rfl

theorem exec_fallbackPoint (p : PartId) (s : State) :
    exec (.fallbackPoint p) s = .next (commit s (doFallbackPoint p s)) := rfl

theorem exec_deadlineExpiry (p : PartId) (s : State) :
    exec (.deadlineExpiry p) s = .next (commit s (doDeadlineExpiry p s)) := rfl

theorem exec_acctRead (cid : Nat) (s : State) :
    exec (.acctRead cid) s = .next (commit s (doAcctRead cid s)) := rfl

theorem exec_energyWindow (w : EnergyWindow) (s : State) :
    exec (.energyWindow w) s = .next (commit s (doEnergyWindow w s)) := rfl

theorem exec_pwrSet (cid : Nat) (s : State) :
    exec (.pwrSet cid) s = .next (commit s (doPwrSet cid s)) := rfl

theorem exec_telRead (cid : Nat) (s : State) :
    exec (.telRead cid) s = .next (commit s (doTelRead cid s)) := rfl

theorem exec_getRecord (rtype : Byte) (s : State) :
    exec (.getRecord rtype) s = .next (commit s (doGetRecord rtype s)) := rfl

theorem exec_subscribe (rtype : Byte) (periodMs : BitVec 16) (s : State) :
    exec (.subscribe rtype periodMs) s = .next (commit s (doSubscribe rtype periodMs s)) := rfl

theorem exec_subscriptionPush (rtype : Byte) (sendable : Bool) (s : State) :
    exec (.subscriptionPush rtype sendable) s = .next (commit s (doSubscriptionPush rtype sendable s)) := rfl

theorem exec_setLimit (w : BitVec 16) (s : State) :
    exec (.setLimit w) s = .next (commit s (doSetLimit w s)) := rfl

theorem exec_pwrVreqWrite (v : W32) (s : State) :
    exec (.pwrVreqWrite v) s = .next (commit s (doPwrVreqWrite v s)) := rfl

theorem exec_voltageRampDone (s : State) :
    exec (.voltageRampDone) s = .next (commit s (doVoltageRampDone s)) := rfl

theorem exec_powerLimitTick (r : PowerReading) (s : State) :
    exec (.powerLimitTick r) s = .next (commit s (doPowerLimitTick r s)) := rfl

theorem exec_temperatureMeasure (r : ThermalReading) (s : State) :
    exec (.temperatureMeasure r) s = .next (commit s (doTemperatureMeasure r s)) := rfl

theorem exec_thermalTrip (d : Die) (s : State) :
    exec (.thermalTrip d) s = .next (commit s (doThermalTrip d s)) := rfl

theorem exec_phaseFault (rail : Fin 28) (s : State) :
    exec (.phaseFault rail) s = .next (commit s (doPhaseFault rail s)) := rfl

theorem exec_inputLoss (mv : Nat) (s : State) :
    exec (.inputLoss mv) s = .next (commit s (doInputLoss mv s)) := rfl

theorem exec_inputReturn (mv : Nat) (s : State) :
    exec (.inputReturn mv) s = .next (commit s (doInputReturn mv s)) := rfl

theorem exec_holdupDeadline (s : State) :
    exec (.holdupDeadline) s = .next (commit s (doHoldupDeadline s)) := rfl

theorem exec_inputOvervoltage (mv : Nat) (s : State) :
    exec (.inputOvervoltage mv) s = .next (commit s (doInputOvervoltage mv s)) := rfl

theorem exec_keyWrite (cid : Nat) (s : State) :
    exec (.keyWrite cid) s = .next (commit s (doKeyWrite cid s)) := rfl

theorem exec_keyErase (cid : Nat) (s : State) :
    exec (.keyErase cid) s = .next (commit s (doKeyErase cid s)) := rfl

theorem exec_aesOperationDone (d : Die) (slot : Fin 64) (gen : Byte) (s : State) :
    exec (.aesOperationDone ⟨d, slot⟩ gen) s = .next (commit s (doAesOperationDone d slot gen s)) := rfl

theorem exec_ownerInstall (cid : Nat) (s : State) :
    exec (.ownerInstall cid) s = .next (commit s (doOwnerInstall cid s)) := rfl

theorem exec_ownerLock (cid : Nat) (s : State) :
    exec (.ownerLock cid) s = .next (commit s (doOwnerLock cid s)) := rfl

theorem exec_ownerAuth (cid : Nat) (s : State) :
    exec (.ownerAuth cid) s = .next (commit s (doOwnerAuth cid s)) := rfl

theorem exec_spdmGetVersion (req : Bytes) (s : State) :
    exec (.spdmGetVersion req) s = .next (commit s (doSpdmGetVersion req s)) := rfl

theorem exec_spdmGetCapabilities (req : Bytes) (s : State) :
    exec (.spdmGetCapabilities req) s = .next (commit s (doSpdmGetCapabilities req s)) := rfl

theorem exec_spdmNegotiateAlgorithms (req : Bytes) (s : State) :
    exec (.spdmNegotiateAlgorithms req) s = .next (commit s (doSpdmNegotiateAlgorithms req s)) := rfl

theorem exec_spdmGetDigests (req : Bytes) (s : State) :
    exec (.spdmGetDigests req) s = .next (commit s (doSpdmGetDigests req s)) := rfl

theorem exec_spdmGetCertificate (req : Bytes) (s : State) :
    exec (.spdmGetCertificate req) s = .next (commit s (doSpdmGetCertificate req s)) := rfl

theorem exec_spdmChallenge (req : Bytes) (s : State) :
    exec (.spdmChallenge req) s = .next (commit s (doSpdmChallenge req s)) := rfl

theorem exec_spdmGetMeasurements (req : Bytes) (s : State) :
    exec (.spdmGetMeasurements req) s = .next (commit s (doSpdmGetMeasurements req s)) := rfl

theorem exec_recErase (v : W32) (s : State) :
    exec (.recErase v) s = .next (commit s (doRecErase v s)) := rfl

theorem exec_recProgram (v : W32) (s : State) :
    exec (.recProgram v) s = .next (commit s (doRecProgram v s)) := rfl

theorem exec_recVerify (v : W32) (s : State) :
    exec (.recVerify v) s = .next (commit s (doRecVerify v s)) := rfl

theorem exec_recAuth (v : W32) (s : State) :
    exec (.recAuth v) s = .next (commit s (doRecAuth v s)) := rfl

theorem exec_recStart (v : W32) (env : StartEnv) (s : State) :
    exec (.recStart v env) s = .next (commit s (doRecStart v env s)) := rfl

theorem exec_updBegin (cid : Nat) (s : State) :
    exec (.updBegin cid) s = .next (commit s (doUpdBegin cid s)) := rfl

theorem exec_updWrite (cid : Nat) (s : State) :
    exec (.updWrite cid) s = .next (commit s (doUpdWrite cid s)) := rfl

theorem exec_updVerify (cid : Nat) (s : State) :
    exec (.updVerify cid) s = .next (commit s (doUpdVerify cid s)) := rfl

theorem exec_activate (cid : Nat) (s : State) :
    exec (.activate cid) s = .next (commit s (doActivate cid s)) := rfl

theorem exec_activationPause (s : State) :
    exec (.activationPause) s = .next (commit s (doActivationPause s)) := rfl

theorem exec_pauseTimeout (s : State) :
    exec (.pauseTimeout) s = .next (commit s (doPauseTimeout s)) := rfl

theorem exec_activationCommit (s : State) :
    exec (.activationCommit) s = .next (commit s (doActivationCommit s)) := rfl

theorem exec_mateOpen (b : Bool) (s : State) :
    exec (.mateOpen b) s = .next (commit s (doMateOpen b s)) := rfl

theorem exec_clspHoldAssert (s : State) :
    exec (.clspHoldAssert) s = .next (commit s (doClspHoldAssert s)) := rfl

theorem exec_clspHoldRelease (s : State) :
    exec (.clspHoldRelease) s = .next (commit s (doClspHoldRelease s)) := rfl

theorem exec_lowFlow (s : State) :
    exec (.lowFlow) s = .next (commit s (doLowFlow s)) := rfl

theorem exec_hotInlet (s : State) :
    exec (.hotInlet) s = .next (commit s (doHotInlet s)) := rfl

theorem exec_registerWrite (fn : FnId) (off : Nat) (wide : Bool) (v hw : W64) (s : State) :
    exec (.registerWrite fn off wide v hw) s = .next (commit s (doRegisterWrite fn off wide v hw s)) := rfl

theorem exec_entryFetchDone (q : Nat) (ok : Bool) (s : State) :
    exec (.entryFetchDone q ok) s = .next (commit s (doEntryFetchDone q ok s)) := rfl

theorem exec_entryFetchTimeout (q : Nat) (s : State) :
    exec (.entryFetchTimeout q) s = .next (commit s (doEntryFetchTimeout q s)) := rfl

theorem exec_flashOperationDone (readBackOk : Bool) (s : State) :
    exec (.flashOperationDone readBackOk) s = .next (commit s (doFlashOperationDone readBackOk s)) := rfl

theorem exec_d0Return (fn : FnId) (s : State) :
    exec (.d0Return fn) s = .next (commit s (doD0Return fn s)) := rfl

theorem exec_videoEncodeDone (v : PairId) (stream : Bytes) (s : State) :
    exec (.videoEncodeDone v stream) s = .next (commit s (doVideoEncodeDone v stream s)) := rfl

theorem exec_msixVectorUnmask (fn : FnId) (vec : Nat) (s : State) :
    exec (.msixVectorUnmask fn vec) s = .next (commit s (doMsixVectorUnmask fn vec s)) := rfl

end Sys2Proof.Machine
end

