-- ==== Sys2Proof/Laws/Tbl.lean ====
section
/-! SUPPORT. Sparse tables: what a read gives after a write, and that every operation keeps the canonical form. -/

namespace Sys2Proof.Machine
open Sys2Proof

variable {α : Type} [DecidableEq α] {d : α} {t : Tbl α} {k j lo n : Nat} {v : α}

theorem Tbl.wfFrom_cons {e : Nat × α} :
    Tbl.wfFrom d lo (e :: t) = true ↔ lo ≤ e.1 ∧ e.2 ≠ d ∧ Tbl.wfFrom d (e.1 + 1) t = true := by
  obtain ⟨i, w⟩ := e
  simp [Tbl.wfFrom, and_assoc]

theorem Tbl.wfFrom_weaken (h : Tbl.wfFrom d lo t = true) (hl : j ≤ lo) : Tbl.wfFrom d j t = true := by
  cases t with
  | nil => rfl
  | cons e r => rw [Tbl.wfFrom_cons] at *; exact ⟨hl.trans h.1, h.2⟩

/-- Below the least key a canonical table reads the default. -/
theorem Tbl.get_below (h : Tbl.wfFrom d lo t = true) (hk : k < lo) : Tbl.get d t k = d := by
  induction t generalizing lo with
  | nil => rfl
  | cons e r ih =>
    rw [Tbl.wfFrom_cons] at h
    have : (e.1 == k) = false := by simp; omega
    simp only [Tbl.get, this]
    exact ih h.2.2 (by omega)

omit [DecidableEq α] in
theorem Tbl.get_set : Tbl.get d (Tbl.set t k v) j = if j = k then v else Tbl.get d t j := by
  induction t with
  | nil =>
    by_cases h : j = k
    · simp [Tbl.set, Tbl.get, h]
    · simp [Tbl.set, Tbl.get, h, Ne.symm h]
  | cons e r ih =>
    obtain ⟨i, w⟩ := e
    by_cases h1 : i = k
    · subst h1
      by_cases h : j = i
      · simp [Tbl.set, Tbl.get, h]
      · simp [Tbl.set, Tbl.get, h, Ne.symm h]
    · by_cases h2 : k < i
      · by_cases h : j = k
        · simp [Tbl.set, Tbl.get, h1, h2, h]
        · simp [Tbl.set, Tbl.get, h1, h2, h, Ne.symm h]
      · by_cases h3 : i = j
        · subst h3; simp [Tbl.set, Tbl.get, h1, h2]
        · simp [Tbl.set, Tbl.get, h1, h2, h3, ih]

omit [DecidableEq α] in
theorem Tbl.get_drop : Tbl.get d (Tbl.drop t k) j = if j = k then d else Tbl.get d t j := by
  induction t with
  | nil => simp [Tbl.drop, Tbl.get]
  | cons e r ih =>
    obtain ⟨i, w⟩ := e
    by_cases h1 : i = k
    · subst h1
      by_cases hj : j = i
      · subst hj; simpa [Tbl.drop] using ih
      · simpa [Tbl.drop, Tbl.get, hj, Ne.symm hj] using ih
    · by_cases h3 : i = j
      · subst h3; simp [Tbl.drop, Tbl.get, h1]
      · simp [Tbl.drop, Tbl.get, h1, h3, ih]

theorem Tbl.set_wf (h : Tbl.wfFrom d lo t = true) (hv : v ≠ d) (hk : lo ≤ k) :
    Tbl.wfFrom d lo (Tbl.set t k v) = true := by
  induction t generalizing lo with
  | nil => simp [Tbl.set, Tbl.wfFrom, hv, hk]
  | cons e r ih =>
    obtain ⟨i, w⟩ := e
    rw [Tbl.wfFrom_cons] at h
    simp only [Tbl.set]
    split
    · rename_i hi; simp at hi; subst hi
      exact Tbl.wfFrom_cons.2 ⟨hk, hv, h.2.2⟩
    · rename_i hi; simp at hi
      split
      · exact Tbl.wfFrom_cons.2 ⟨hk, hv, Tbl.wfFrom_cons.2 ⟨by simp; omega, h.2⟩⟩
      · exact Tbl.wfFrom_cons.2 ⟨h.1, h.2.1, ih h.2.2 (by simp; omega)⟩

theorem Tbl.drop_wf (h : Tbl.wfFrom d lo t = true) : Tbl.wfFrom d lo (Tbl.drop t k) = true := by
  induction t generalizing lo with
  | nil => rfl
  | cons e r ih =>
    obtain ⟨i, w⟩ := e
    rw [Tbl.wfFrom_cons] at h
    simp only [Tbl.drop]
    split
    · exact Tbl.wfFrom_weaken (ih h.2.2) (Nat.le_succ_of_le h.1)
    · exact Tbl.wfFrom_cons.2 ⟨h.1, h.2.1, ih h.2.2⟩

/-- A write keeps the canonical form. -/
theorem Tbl.put_wf (h : Tbl.wf d t = true) : Tbl.wf d (Tbl.put d t k v) = true := by
  unfold Tbl.put Tbl.wf at *
  split
  · exact Tbl.drop_wf h
  · exact Tbl.set_wf h ‹_› (Nat.zero_le _)

/-- A read after a write: the written value at the written key, elsewhere what was there. -/
theorem Tbl.get_put : Tbl.get d (Tbl.put d t k v) j = if j = k then v else Tbl.get d t j := by
  unfold Tbl.put
  split
  · rename_i hv; subst hv; exact Tbl.get_drop
  · exact Tbl.get_set

@[simp] theorem Tbl.get_put_self : Tbl.get d (Tbl.put d t k v) k = v := by simp [Tbl.get_put]

/-- A write leaves every other key as it was, whatever default it is read with. -/
theorem Tbl.get_put_other {d' : α} (h : j ≠ k) : Tbl.get d (Tbl.put d' t k v) j = Tbl.get d t j := by
  unfold Tbl.put
  split
  · simp [Tbl.get_drop, h]
  · simp [Tbl.get_set, h]

theorem Tbl.upd_wf {f : α → α} (h : Tbl.wf d t = true) : Tbl.wf d (Tbl.upd d t k f) = true := Tbl.put_wf h

theorem Tbl.get_upd {f : α → α} :
    Tbl.get d (Tbl.upd d t k f) j = if j = k then f (Tbl.get d t k) else Tbl.get d t j := Tbl.get_put

@[simp] theorem Tbl.get_upd_self {f : α → α} : Tbl.get d (Tbl.upd d t k f) k = f (Tbl.get d t k) := Tbl.get_put_self

theorem Tbl.filter_wf {p : Nat × α → Bool} (h : Tbl.wfFrom d lo t = true) :
    Tbl.wfFrom d lo (t.filter p) = true := by
  induction t generalizing lo with
  | nil => rfl
  | cons e r ih =>
    rw [Tbl.wfFrom_cons] at h
    simp only [List.filter]
    split
    · exact Tbl.wfFrom_cons.2 ⟨h.1, h.2.1, ih h.2.2⟩
    · exact ih (Tbl.wfFrom_weaken h.2.2 (Nat.le_succ_of_le h.1))

theorem Tbl.clearRange_wf (h : Tbl.wf d t = true) : Tbl.wf d (Tbl.clearRange t lo n) = true := Tbl.filter_wf h

omit [DecidableEq α] in
theorem Tbl.get_clearRange :
    Tbl.get d (Tbl.clearRange t k n) j = if k ≤ j ∧ j < k + n then d else Tbl.get d t j := by
  induction t with
  | nil => simp [Tbl.clearRange, Tbl.get]
  | cons e r ih =>
    obtain ⟨i, w⟩ := e
    unfold Tbl.clearRange at *
    simp only [List.filter]
    by_cases hi : k ≤ i ∧ i < k + n
    · simp only [hi, decide_true, Bool.and_self, Bool.not_true]
      rw [ih]
      by_cases hij : i = j
      · subst hij; simp [hi]
      · simp [Tbl.get, hij]
    · have : (!(decide (k ≤ i) && decide (i < k + n))) = true := by simp; omega
      simp only [this]
      by_cases hij : i = j
      · subst hij; simp [Tbl.get, hi]
      · simp only [Tbl.get, beq_iff_eq, hij, if_false, ih]

/-- The form that `canon` gives is canonical. -/
theorem Tbl.canon_wf : Tbl.wf d (Tbl.canon d t) = true := by
  unfold Tbl.canon
  split
  · assumption
  · rename_i h
    clear h
    induction t with
    | nil => rfl
    | cons e r ih => exact Tbl.put_wf ih

/-- Canonical form changes no reading. -/
@[simp] theorem Tbl.get_canon : Tbl.get d (Tbl.canon d t) j = Tbl.get d t j := by
  unfold Tbl.canon
  split
  · rfl
  · rename_i h
    clear h
    induction t with
    | nil => rfl
    | cons e r ih =>
      obtain ⟨i, w⟩ := e
      simp only [List.foldr]
      rw [Tbl.get_put, ih]
      by_cases hij : j = i
      · simp [Tbl.get, hij]
      · simp [Tbl.get, hij, Ne.symm hij]

/-- A canonical table is its own canonical form. -/
theorem Tbl.canon_of_wf (h : Tbl.wf d t = true) : Tbl.canon d t = t := by simp [Tbl.canon, h]

/-- Writing bytes keeps the canonical form. -/
theorem putBytes_wf {b : Bytes} {d : Byte} {t : Tbl Byte} {a : Nat} (h : Tbl.wf d t = true) :
    Tbl.wf d (putBytes d t a b) = true := by
  induction b generalizing t a with
  | nil => exact h
  | cons x r ih => exact ih (Tbl.put_wf h)

/-- A byte outside the written range reads as before. -/
theorem get_putBytes_outside {b : Bytes} {d : Byte} {t : Tbl Byte} {a j : Nat}
    (hj : j < a ∨ a + b.length ≤ j) : Tbl.get d (putBytes d t a b) j = Tbl.get d t j := by
  induction b generalizing t a with
  | nil => rfl
  | cons x r ih =>
    simp only [List.length_cons] at hj
    rw [putBytes, ih (by omega), Tbl.get_put, if_neg (by omega)]

/-- A byte inside the written range reads as written. -/
theorem get_putBytes_inside {b : Bytes} {d : Byte} {t : Tbl Byte} {a i : Nat}
    (hi : i < b.length) : Tbl.get d (putBytes d t a b) (a + i) = b[i] := by
  induction b generalizing t a i with
  | nil => simp at hi
  | cons x r ih =>
    cases i with
    | zero => rw [putBytes, get_putBytes_outside (by omega)]; simp
    | succ i =>
      have := ih (a := a + 1) (t := Tbl.put d t a x) (i := i) (by simpa using hi)
      rw [putBytes, show a + (i + 1) = a + 1 + i by omega, this]
      simp

end Sys2Proof.Machine
end

