-- ==== Sys2Proof/Laws/State.lean ====
section
/-! SUPPORT. What each named update of the state leaves as it was, field by field, and what it changes; what a command's end
(`commit`) does; reads after writes of the parts of the state. -/

namespace Sys2Proof.Machine
open Sys2Proof

variable (s : State)

/-! ### modTile -/

@[simp] theorem modTile_pending (t : Nat) (f : Tile → Tile) : (modTile s t f).pending = s.pending := rfl
@[simp] theorem modTile_fresh (t : Nat) (f : Tile → Tile) : (modTile s t f).fresh = s.fresh := rfl
@[simp] theorem modTile_now (t : Nat) (f : Tile → Tile) : (modTile s t f).now = s.now := rfl
@[simp] theorem modTile_regs (t : Nat) (f : Tile → Tile) : (modTile s t f).regs = s.regs := rfl
@[simp] theorem modTile_mem (t : Nat) (f : Tile → Tile) : (modTile s t f).mem = s.mem := rfl
@[simp] theorem modTile_hostMem (t : Nat) (f : Tile → Tile) : (modTile s t f).hostMem = s.hostMem := rfl
@[simp] theorem modTile_islands (t : Nat) (f : Tile → Tile) : (modTile s t f).islands = s.islands := rfl
@[simp] theorem modTile_arbs (t : Nat) (f : Tile → Tile) : (modTile s t f).arbs = s.arbs := rfl
@[simp] theorem modTile_merges (t : Nat) (f : Tile → Tile) : (modTile s t f).merges = s.merges := rfl
@[simp] theorem modTile_holds (t : Nat) (f : Tile → Tile) : (modTile s t f).holds = s.holds := rfl
@[simp] theorem modTile_staged (t : Nat) (f : Tile → Tile) : (modTile s t f).staged = s.staged := rfl
@[simp] theorem modTile_chains (t : Nat) (f : Tile → Tile) : (modTile s t f).chains = s.chains := rfl
@[simp] theorem modTile_partials (t : Nat) (f : Tile → Tile) : (modTile s t f).partials = s.partials := rfl
@[simp] theorem modTile_strata (t : Nat) (f : Tile → Tile) : (modTile s t f).strata = s.strata := rfl
@[simp] theorem modTile_tier (t : Nat) (f : Tile → Tile) : (modTile s t f).tier = s.tier := rfl
@[simp] theorem modTile_fab (t : Nat) (f : Tile → Tile) : (modTile s t f).fab = s.fab := rfl
@[simp] theorem modTile_coll (t : Nat) (f : Tile → Tile) : (modTile s t f).coll = s.coll := rfl
@[simp] theorem modTile_ckpt (t : Nat) (f : Tile → Tile) : (modTile s t f).ckpt = s.ckpt := rfl
@[simp] theorem modTile_ing (t : Nat) (f : Tile → Tile) : (modTile s t f).ing = s.ing := rfl
@[simp] theorem modTile_host (t : Nat) (f : Tile → Tile) : (modTile s t f).host = s.host := rfl
@[simp] theorem modTile_parts (t : Nat) (f : Tile → Tile) : (modTile s t f).parts = s.parts := rfl
@[simp] theorem modTile_accounts (t : Nat) (f : Tile → Tile) : (modTile s t f).accounts = s.accounts := rfl
@[simp] theorem modTile_pwr (t : Nat) (f : Tile → Tile) : (modTile s t f).pwr = s.pwr := rfl
@[simp] theorem modTile_sec (t : Nat) (f : Tile → Tile) : (modTile s t f).sec = s.sec := rfl
@[simp] theorem modTile_fuses (t : Nat) (f : Tile → Tile) : (modTile s t f).fuses = s.fuses := rfl
@[simp] theorem modTile_boot (t : Nat) (f : Tile → Tile) : (modTile s t f).boot = s.boot := rfl
@[simp] theorem modTile_clspHold (t : Nat) (f : Tile → Tile) : (modTile s t f).clspHold = s.clspHold := rfl
@[simp] theorem modTile_flying (t : Nat) (f : Tile → Tile) : (modTile s t f).flying = s.flying := rfl
@[simp] theorem modTile_partSent (t : Nat) (f : Tile → Tile) : (modTile s t f).partSent = s.partSent := rfl
@[simp] theorem modTile_out (t : Nat) (f : Tile → Tile) : (modTile s t f).out = s.out := rfl

/-! ### modPart -/

@[simp] theorem modPart_pending (p : Nat) (f : Part → Part) : (modPart s p f).pending = s.pending := rfl
@[simp] theorem modPart_fresh (p : Nat) (f : Part → Part) : (modPart s p f).fresh = s.fresh := rfl
@[simp] theorem modPart_now (p : Nat) (f : Part → Part) : (modPart s p f).now = s.now := rfl
@[simp] theorem modPart_regs (p : Nat) (f : Part → Part) : (modPart s p f).regs = s.regs := rfl
@[simp] theorem modPart_mem (p : Nat) (f : Part → Part) : (modPart s p f).mem = s.mem := rfl
@[simp] theorem modPart_hostMem (p : Nat) (f : Part → Part) : (modPart s p f).hostMem = s.hostMem := rfl
@[simp] theorem modPart_islands (p : Nat) (f : Part → Part) : (modPart s p f).islands = s.islands := rfl
@[simp] theorem modPart_arbs (p : Nat) (f : Part → Part) : (modPart s p f).arbs = s.arbs := rfl
@[simp] theorem modPart_merges (p : Nat) (f : Part → Part) : (modPart s p f).merges = s.merges := rfl
@[simp] theorem modPart_tiles (p : Nat) (f : Part → Part) : (modPart s p f).tiles = s.tiles := rfl
@[simp] theorem modPart_holds (p : Nat) (f : Part → Part) : (modPart s p f).holds = s.holds := rfl
@[simp] theorem modPart_staged (p : Nat) (f : Part → Part) : (modPart s p f).staged = s.staged := rfl
@[simp] theorem modPart_chains (p : Nat) (f : Part → Part) : (modPart s p f).chains = s.chains := rfl
@[simp] theorem modPart_partials (p : Nat) (f : Part → Part) : (modPart s p f).partials = s.partials := rfl
@[simp] theorem modPart_strata (p : Nat) (f : Part → Part) : (modPart s p f).strata = s.strata := rfl
@[simp] theorem modPart_tier (p : Nat) (f : Part → Part) : (modPart s p f).tier = s.tier := rfl
@[simp] theorem modPart_fab (p : Nat) (f : Part → Part) : (modPart s p f).fab = s.fab := rfl
@[simp] theorem modPart_coll (p : Nat) (f : Part → Part) : (modPart s p f).coll = s.coll := rfl
@[simp] theorem modPart_ckpt (p : Nat) (f : Part → Part) : (modPart s p f).ckpt = s.ckpt := rfl
@[simp] theorem modPart_ing (p : Nat) (f : Part → Part) : (modPart s p f).ing = s.ing := rfl
@[simp] theorem modPart_host (p : Nat) (f : Part → Part) : (modPart s p f).host = s.host := rfl
@[simp] theorem modPart_accounts (p : Nat) (f : Part → Part) : (modPart s p f).accounts = s.accounts := rfl
@[simp] theorem modPart_pwr (p : Nat) (f : Part → Part) : (modPart s p f).pwr = s.pwr := rfl
@[simp] theorem modPart_sec (p : Nat) (f : Part → Part) : (modPart s p f).sec = s.sec := rfl
@[simp] theorem modPart_fuses (p : Nat) (f : Part → Part) : (modPart s p f).fuses = s.fuses := rfl
@[simp] theorem modPart_boot (p : Nat) (f : Part → Part) : (modPart s p f).boot = s.boot := rfl
@[simp] theorem modPart_clspHold (p : Nat) (f : Part → Part) : (modPart s p f).clspHold = s.clspHold := rfl
@[simp] theorem modPart_flying (p : Nat) (f : Part → Part) : (modPart s p f).flying = s.flying := rfl
@[simp] theorem modPart_partSent (p : Nat) (f : Part → Part) : (modPart s p f).partSent = s.partSent := rfl
@[simp] theorem modPart_out (p : Nat) (f : Part → Part) : (modPart s p f).out = s.out := rfl

/-! ### modRun -/

@[simp] theorem modRun_pending (p : Nat) (f : Step → Step) : (modRun s p f).pending = s.pending := rfl
@[simp] theorem modRun_fresh (p : Nat) (f : Step → Step) : (modRun s p f).fresh = s.fresh := rfl
@[simp] theorem modRun_now (p : Nat) (f : Step → Step) : (modRun s p f).now = s.now := rfl
@[simp] theorem modRun_regs (p : Nat) (f : Step → Step) : (modRun s p f).regs = s.regs := rfl
@[simp] theorem modRun_mem (p : Nat) (f : Step → Step) : (modRun s p f).mem = s.mem := rfl
@[simp] theorem modRun_hostMem (p : Nat) (f : Step → Step) : (modRun s p f).hostMem = s.hostMem := rfl
@[simp] theorem modRun_islands (p : Nat) (f : Step → Step) : (modRun s p f).islands = s.islands := rfl
@[simp] theorem modRun_arbs (p : Nat) (f : Step → Step) : (modRun s p f).arbs = s.arbs := rfl
@[simp] theorem modRun_merges (p : Nat) (f : Step → Step) : (modRun s p f).merges = s.merges := rfl
@[simp] theorem modRun_tiles (p : Nat) (f : Step → Step) : (modRun s p f).tiles = s.tiles := rfl
@[simp] theorem modRun_holds (p : Nat) (f : Step → Step) : (modRun s p f).holds = s.holds := rfl
@[simp] theorem modRun_staged (p : Nat) (f : Step → Step) : (modRun s p f).staged = s.staged := rfl
@[simp] theorem modRun_chains (p : Nat) (f : Step → Step) : (modRun s p f).chains = s.chains := rfl
@[simp] theorem modRun_partials (p : Nat) (f : Step → Step) : (modRun s p f).partials = s.partials := rfl
@[simp] theorem modRun_strata (p : Nat) (f : Step → Step) : (modRun s p f).strata = s.strata := rfl
@[simp] theorem modRun_tier (p : Nat) (f : Step → Step) : (modRun s p f).tier = s.tier := rfl
@[simp] theorem modRun_fab (p : Nat) (f : Step → Step) : (modRun s p f).fab = s.fab := rfl
@[simp] theorem modRun_coll (p : Nat) (f : Step → Step) : (modRun s p f).coll = s.coll := rfl
@[simp] theorem modRun_ckpt (p : Nat) (f : Step → Step) : (modRun s p f).ckpt = s.ckpt := rfl
@[simp] theorem modRun_ing (p : Nat) (f : Step → Step) : (modRun s p f).ing = s.ing := rfl
@[simp] theorem modRun_host (p : Nat) (f : Step → Step) : (modRun s p f).host = s.host := rfl
@[simp] theorem modRun_accounts (p : Nat) (f : Step → Step) : (modRun s p f).accounts = s.accounts := rfl
@[simp] theorem modRun_pwr (p : Nat) (f : Step → Step) : (modRun s p f).pwr = s.pwr := rfl
@[simp] theorem modRun_sec (p : Nat) (f : Step → Step) : (modRun s p f).sec = s.sec := rfl
@[simp] theorem modRun_fuses (p : Nat) (f : Step → Step) : (modRun s p f).fuses = s.fuses := rfl
@[simp] theorem modRun_boot (p : Nat) (f : Step → Step) : (modRun s p f).boot = s.boot := rfl
@[simp] theorem modRun_clspHold (p : Nat) (f : Step → Step) : (modRun s p f).clspHold = s.clspHold := rfl
@[simp] theorem modRun_flying (p : Nat) (f : Step → Step) : (modRun s p f).flying = s.flying := rfl
@[simp] theorem modRun_partSent (p : Nat) (f : Step → Step) : (modRun s p f).partSent = s.partSent := rfl
@[simp] theorem modRun_out (p : Nat) (f : Step → Step) : (modRun s p f).out = s.out := rfl

/-! ### modQueue -/

@[simp] theorem modQueue_pending (q : Nat) (f : Queue → Queue) : (modQueue s q f).pending = s.pending := rfl
@[simp] theorem modQueue_fresh (q : Nat) (f : Queue → Queue) : (modQueue s q f).fresh = s.fresh := rfl
@[simp] theorem modQueue_now (q : Nat) (f : Queue → Queue) : (modQueue s q f).now = s.now := rfl
@[simp] theorem modQueue_regs (q : Nat) (f : Queue → Queue) : (modQueue s q f).regs = s.regs := rfl
@[simp] theorem modQueue_mem (q : Nat) (f : Queue → Queue) : (modQueue s q f).mem = s.mem := rfl
@[simp] theorem modQueue_hostMem (q : Nat) (f : Queue → Queue) : (modQueue s q f).hostMem = s.hostMem := rfl
@[simp] theorem modQueue_islands (q : Nat) (f : Queue → Queue) : (modQueue s q f).islands = s.islands := rfl
@[simp] theorem modQueue_arbs (q : Nat) (f : Queue → Queue) : (modQueue s q f).arbs = s.arbs := rfl
@[simp] theorem modQueue_merges (q : Nat) (f : Queue → Queue) : (modQueue s q f).merges = s.merges := rfl
@[simp] theorem modQueue_tiles (q : Nat) (f : Queue → Queue) : (modQueue s q f).tiles = s.tiles := rfl
@[simp] theorem modQueue_holds (q : Nat) (f : Queue → Queue) : (modQueue s q f).holds = s.holds := rfl
@[simp] theorem modQueue_staged (q : Nat) (f : Queue → Queue) : (modQueue s q f).staged = s.staged := rfl
@[simp] theorem modQueue_chains (q : Nat) (f : Queue → Queue) : (modQueue s q f).chains = s.chains := rfl
@[simp] theorem modQueue_partials (q : Nat) (f : Queue → Queue) : (modQueue s q f).partials = s.partials := rfl
@[simp] theorem modQueue_strata (q : Nat) (f : Queue → Queue) : (modQueue s q f).strata = s.strata := rfl
@[simp] theorem modQueue_tier (q : Nat) (f : Queue → Queue) : (modQueue s q f).tier = s.tier := rfl
@[simp] theorem modQueue_fab (q : Nat) (f : Queue → Queue) : (modQueue s q f).fab = s.fab := rfl
@[simp] theorem modQueue_coll (q : Nat) (f : Queue → Queue) : (modQueue s q f).coll = s.coll := rfl
@[simp] theorem modQueue_ckpt (q : Nat) (f : Queue → Queue) : (modQueue s q f).ckpt = s.ckpt := rfl
@[simp] theorem modQueue_ing (q : Nat) (f : Queue → Queue) : (modQueue s q f).ing = s.ing := rfl
@[simp] theorem modQueue_parts (q : Nat) (f : Queue → Queue) : (modQueue s q f).parts = s.parts := rfl
@[simp] theorem modQueue_accounts (q : Nat) (f : Queue → Queue) : (modQueue s q f).accounts = s.accounts := rfl
@[simp] theorem modQueue_pwr (q : Nat) (f : Queue → Queue) : (modQueue s q f).pwr = s.pwr := rfl
@[simp] theorem modQueue_sec (q : Nat) (f : Queue → Queue) : (modQueue s q f).sec = s.sec := rfl
@[simp] theorem modQueue_fuses (q : Nat) (f : Queue → Queue) : (modQueue s q f).fuses = s.fuses := rfl
@[simp] theorem modQueue_boot (q : Nat) (f : Queue → Queue) : (modQueue s q f).boot = s.boot := rfl
@[simp] theorem modQueue_clspHold (q : Nat) (f : Queue → Queue) : (modQueue s q f).clspHold = s.clspHold := rfl
@[simp] theorem modQueue_flying (q : Nat) (f : Queue → Queue) : (modQueue s q f).flying = s.flying := rfl
@[simp] theorem modQueue_partSent (q : Nat) (f : Queue → Queue) : (modQueue s q f).partSent = s.partSent := rfl
@[simp] theorem modQueue_out (q : Nat) (f : Queue → Queue) : (modQueue s q f).out = s.out := rfl

/-! ### modMsix -/

@[simp] theorem modMsix_pending (fn v : Nat) (f : MsixVec → MsixVec) : (modMsix s fn v f).pending = s.pending := rfl
@[simp] theorem modMsix_fresh (fn v : Nat) (f : MsixVec → MsixVec) : (modMsix s fn v f).fresh = s.fresh := rfl
@[simp] theorem modMsix_now (fn v : Nat) (f : MsixVec → MsixVec) : (modMsix s fn v f).now = s.now := rfl
@[simp] theorem modMsix_regs (fn v : Nat) (f : MsixVec → MsixVec) : (modMsix s fn v f).regs = s.regs := rfl
@[simp] theorem modMsix_mem (fn v : Nat) (f : MsixVec → MsixVec) : (modMsix s fn v f).mem = s.mem := rfl
@[simp] theorem modMsix_hostMem (fn v : Nat) (f : MsixVec → MsixVec) : (modMsix s fn v f).hostMem = s.hostMem := rfl
@[simp] theorem modMsix_islands (fn v : Nat) (f : MsixVec → MsixVec) : (modMsix s fn v f).islands = s.islands := rfl
@[simp] theorem modMsix_arbs (fn v : Nat) (f : MsixVec → MsixVec) : (modMsix s fn v f).arbs = s.arbs := rfl
@[simp] theorem modMsix_merges (fn v : Nat) (f : MsixVec → MsixVec) : (modMsix s fn v f).merges = s.merges := rfl
@[simp] theorem modMsix_tiles (fn v : Nat) (f : MsixVec → MsixVec) : (modMsix s fn v f).tiles = s.tiles := rfl
@[simp] theorem modMsix_holds (fn v : Nat) (f : MsixVec → MsixVec) : (modMsix s fn v f).holds = s.holds := rfl
@[simp] theorem modMsix_staged (fn v : Nat) (f : MsixVec → MsixVec) : (modMsix s fn v f).staged = s.staged := rfl
@[simp] theorem modMsix_chains (fn v : Nat) (f : MsixVec → MsixVec) : (modMsix s fn v f).chains = s.chains := rfl
@[simp] theorem modMsix_partials (fn v : Nat) (f : MsixVec → MsixVec) : (modMsix s fn v f).partials = s.partials := rfl
@[simp] theorem modMsix_strata (fn v : Nat) (f : MsixVec → MsixVec) : (modMsix s fn v f).strata = s.strata := rfl
@[simp] theorem modMsix_tier (fn v : Nat) (f : MsixVec → MsixVec) : (modMsix s fn v f).tier = s.tier := rfl
@[simp] theorem modMsix_fab (fn v : Nat) (f : MsixVec → MsixVec) : (modMsix s fn v f).fab = s.fab := rfl
@[simp] theorem modMsix_coll (fn v : Nat) (f : MsixVec → MsixVec) : (modMsix s fn v f).coll = s.coll := rfl
@[simp] theorem modMsix_ckpt (fn v : Nat) (f : MsixVec → MsixVec) : (modMsix s fn v f).ckpt = s.ckpt := rfl
@[simp] theorem modMsix_ing (fn v : Nat) (f : MsixVec → MsixVec) : (modMsix s fn v f).ing = s.ing := rfl
@[simp] theorem modMsix_parts (fn v : Nat) (f : MsixVec → MsixVec) : (modMsix s fn v f).parts = s.parts := rfl
@[simp] theorem modMsix_accounts (fn v : Nat) (f : MsixVec → MsixVec) : (modMsix s fn v f).accounts = s.accounts := rfl
@[simp] theorem modMsix_pwr (fn v : Nat) (f : MsixVec → MsixVec) : (modMsix s fn v f).pwr = s.pwr := rfl
@[simp] theorem modMsix_sec (fn v : Nat) (f : MsixVec → MsixVec) : (modMsix s fn v f).sec = s.sec := rfl
@[simp] theorem modMsix_fuses (fn v : Nat) (f : MsixVec → MsixVec) : (modMsix s fn v f).fuses = s.fuses := rfl
@[simp] theorem modMsix_boot (fn v : Nat) (f : MsixVec → MsixVec) : (modMsix s fn v f).boot = s.boot := rfl
@[simp] theorem modMsix_clspHold (fn v : Nat) (f : MsixVec → MsixVec) : (modMsix s fn v f).clspHold = s.clspHold := rfl
@[simp] theorem modMsix_flying (fn v : Nat) (f : MsixVec → MsixVec) : (modMsix s fn v f).flying = s.flying := rfl
@[simp] theorem modMsix_partSent (fn v : Nat) (f : MsixVec → MsixVec) : (modMsix s fn v f).partSent = s.partSent := rfl
@[simp] theorem modMsix_out (fn v : Nat) (f : MsixVec → MsixVec) : (modMsix s fn v f).out = s.out := rfl

/-! ### setHost -/

@[simp] theorem setHost_pending (f : HostPort → HostPort) : (setHost s f).pending = s.pending := rfl
@[simp] theorem setHost_fresh (f : HostPort → HostPort) : (setHost s f).fresh = s.fresh := rfl
@[simp] theorem setHost_now (f : HostPort → HostPort) : (setHost s f).now = s.now := rfl
@[simp] theorem setHost_regs (f : HostPort → HostPort) : (setHost s f).regs = s.regs := rfl
@[simp] theorem setHost_mem (f : HostPort → HostPort) : (setHost s f).mem = s.mem := rfl
@[simp] theorem setHost_hostMem (f : HostPort → HostPort) : (setHost s f).hostMem = s.hostMem := rfl
@[simp] theorem setHost_islands (f : HostPort → HostPort) : (setHost s f).islands = s.islands := rfl
@[simp] theorem setHost_arbs (f : HostPort → HostPort) : (setHost s f).arbs = s.arbs := rfl
@[simp] theorem setHost_merges (f : HostPort → HostPort) : (setHost s f).merges = s.merges := rfl
@[simp] theorem setHost_tiles (f : HostPort → HostPort) : (setHost s f).tiles = s.tiles := rfl
@[simp] theorem setHost_holds (f : HostPort → HostPort) : (setHost s f).holds = s.holds := rfl
@[simp] theorem setHost_staged (f : HostPort → HostPort) : (setHost s f).staged = s.staged := rfl
@[simp] theorem setHost_chains (f : HostPort → HostPort) : (setHost s f).chains = s.chains := rfl
@[simp] theorem setHost_partials (f : HostPort → HostPort) : (setHost s f).partials = s.partials := rfl
@[simp] theorem setHost_strata (f : HostPort → HostPort) : (setHost s f).strata = s.strata := rfl
@[simp] theorem setHost_tier (f : HostPort → HostPort) : (setHost s f).tier = s.tier := rfl
@[simp] theorem setHost_fab (f : HostPort → HostPort) : (setHost s f).fab = s.fab := rfl
@[simp] theorem setHost_coll (f : HostPort → HostPort) : (setHost s f).coll = s.coll := rfl
@[simp] theorem setHost_ckpt (f : HostPort → HostPort) : (setHost s f).ckpt = s.ckpt := rfl
@[simp] theorem setHost_ing (f : HostPort → HostPort) : (setHost s f).ing = s.ing := rfl
@[simp] theorem setHost_parts (f : HostPort → HostPort) : (setHost s f).parts = s.parts := rfl
@[simp] theorem setHost_accounts (f : HostPort → HostPort) : (setHost s f).accounts = s.accounts := rfl
@[simp] theorem setHost_pwr (f : HostPort → HostPort) : (setHost s f).pwr = s.pwr := rfl
@[simp] theorem setHost_sec (f : HostPort → HostPort) : (setHost s f).sec = s.sec := rfl
@[simp] theorem setHost_fuses (f : HostPort → HostPort) : (setHost s f).fuses = s.fuses := rfl
@[simp] theorem setHost_boot (f : HostPort → HostPort) : (setHost s f).boot = s.boot := rfl
@[simp] theorem setHost_clspHold (f : HostPort → HostPort) : (setHost s f).clspHold = s.clspHold := rfl
@[simp] theorem setHost_flying (f : HostPort → HostPort) : (setHost s f).flying = s.flying := rfl
@[simp] theorem setHost_partSent (f : HostPort → HostPort) : (setHost s f).partSent = s.partSent := rfl
@[simp] theorem setHost_out (f : HostPort → HostPort) : (setHost s f).out = s.out := rfl

/-! ### modCmd -/

@[simp] theorem modCmd_pending (cid : Nat) (f : Cmd → Cmd) : (modCmd s cid f).pending = s.pending := rfl
@[simp] theorem modCmd_fresh (cid : Nat) (f : Cmd → Cmd) : (modCmd s cid f).fresh = s.fresh := rfl
@[simp] theorem modCmd_now (cid : Nat) (f : Cmd → Cmd) : (modCmd s cid f).now = s.now := rfl
@[simp] theorem modCmd_regs (cid : Nat) (f : Cmd → Cmd) : (modCmd s cid f).regs = s.regs := rfl
@[simp] theorem modCmd_mem (cid : Nat) (f : Cmd → Cmd) : (modCmd s cid f).mem = s.mem := rfl
@[simp] theorem modCmd_hostMem (cid : Nat) (f : Cmd → Cmd) : (modCmd s cid f).hostMem = s.hostMem := rfl
@[simp] theorem modCmd_islands (cid : Nat) (f : Cmd → Cmd) : (modCmd s cid f).islands = s.islands := rfl
@[simp] theorem modCmd_arbs (cid : Nat) (f : Cmd → Cmd) : (modCmd s cid f).arbs = s.arbs := rfl
@[simp] theorem modCmd_merges (cid : Nat) (f : Cmd → Cmd) : (modCmd s cid f).merges = s.merges := rfl
@[simp] theorem modCmd_tiles (cid : Nat) (f : Cmd → Cmd) : (modCmd s cid f).tiles = s.tiles := rfl
@[simp] theorem modCmd_holds (cid : Nat) (f : Cmd → Cmd) : (modCmd s cid f).holds = s.holds := rfl
@[simp] theorem modCmd_staged (cid : Nat) (f : Cmd → Cmd) : (modCmd s cid f).staged = s.staged := rfl
@[simp] theorem modCmd_chains (cid : Nat) (f : Cmd → Cmd) : (modCmd s cid f).chains = s.chains := rfl
@[simp] theorem modCmd_partials (cid : Nat) (f : Cmd → Cmd) : (modCmd s cid f).partials = s.partials := rfl
@[simp] theorem modCmd_strata (cid : Nat) (f : Cmd → Cmd) : (modCmd s cid f).strata = s.strata := rfl
@[simp] theorem modCmd_tier (cid : Nat) (f : Cmd → Cmd) : (modCmd s cid f).tier = s.tier := rfl
@[simp] theorem modCmd_fab (cid : Nat) (f : Cmd → Cmd) : (modCmd s cid f).fab = s.fab := rfl
@[simp] theorem modCmd_coll (cid : Nat) (f : Cmd → Cmd) : (modCmd s cid f).coll = s.coll := rfl
@[simp] theorem modCmd_ckpt (cid : Nat) (f : Cmd → Cmd) : (modCmd s cid f).ckpt = s.ckpt := rfl
@[simp] theorem modCmd_ing (cid : Nat) (f : Cmd → Cmd) : (modCmd s cid f).ing = s.ing := rfl
@[simp] theorem modCmd_parts (cid : Nat) (f : Cmd → Cmd) : (modCmd s cid f).parts = s.parts := rfl
@[simp] theorem modCmd_accounts (cid : Nat) (f : Cmd → Cmd) : (modCmd s cid f).accounts = s.accounts := rfl
@[simp] theorem modCmd_pwr (cid : Nat) (f : Cmd → Cmd) : (modCmd s cid f).pwr = s.pwr := rfl
@[simp] theorem modCmd_sec (cid : Nat) (f : Cmd → Cmd) : (modCmd s cid f).sec = s.sec := rfl
@[simp] theorem modCmd_fuses (cid : Nat) (f : Cmd → Cmd) : (modCmd s cid f).fuses = s.fuses := rfl
@[simp] theorem modCmd_boot (cid : Nat) (f : Cmd → Cmd) : (modCmd s cid f).boot = s.boot := rfl
@[simp] theorem modCmd_clspHold (cid : Nat) (f : Cmd → Cmd) : (modCmd s cid f).clspHold = s.clspHold := rfl
@[simp] theorem modCmd_flying (cid : Nat) (f : Cmd → Cmd) : (modCmd s cid f).flying = s.flying := rfl
@[simp] theorem modCmd_partSent (cid : Nat) (f : Cmd → Cmd) : (modCmd s cid f).partSent = s.partSent := rfl
@[simp] theorem modCmd_out (cid : Nat) (f : Cmd → Cmd) : (modCmd s cid f).out = s.out := rfl

/-! ### dropCmd -/

@[simp] theorem dropCmd_pending (cid : Nat) : (dropCmd s cid).pending = s.pending := rfl
@[simp] theorem dropCmd_fresh (cid : Nat) : (dropCmd s cid).fresh = s.fresh := rfl
@[simp] theorem dropCmd_now (cid : Nat) : (dropCmd s cid).now = s.now := rfl
@[simp] theorem dropCmd_regs (cid : Nat) : (dropCmd s cid).regs = s.regs := rfl
@[simp] theorem dropCmd_mem (cid : Nat) : (dropCmd s cid).mem = s.mem := rfl
@[simp] theorem dropCmd_hostMem (cid : Nat) : (dropCmd s cid).hostMem = s.hostMem := rfl
@[simp] theorem dropCmd_islands (cid : Nat) : (dropCmd s cid).islands = s.islands := rfl
@[simp] theorem dropCmd_arbs (cid : Nat) : (dropCmd s cid).arbs = s.arbs := rfl
@[simp] theorem dropCmd_merges (cid : Nat) : (dropCmd s cid).merges = s.merges := rfl
@[simp] theorem dropCmd_tiles (cid : Nat) : (dropCmd s cid).tiles = s.tiles := rfl
@[simp] theorem dropCmd_holds (cid : Nat) : (dropCmd s cid).holds = s.holds := rfl
@[simp] theorem dropCmd_staged (cid : Nat) : (dropCmd s cid).staged = s.staged := rfl
@[simp] theorem dropCmd_chains (cid : Nat) : (dropCmd s cid).chains = s.chains := rfl
@[simp] theorem dropCmd_partials (cid : Nat) : (dropCmd s cid).partials = s.partials := rfl
@[simp] theorem dropCmd_strata (cid : Nat) : (dropCmd s cid).strata = s.strata := rfl
@[simp] theorem dropCmd_tier (cid : Nat) : (dropCmd s cid).tier = s.tier := rfl
@[simp] theorem dropCmd_fab (cid : Nat) : (dropCmd s cid).fab = s.fab := rfl
@[simp] theorem dropCmd_coll (cid : Nat) : (dropCmd s cid).coll = s.coll := rfl
@[simp] theorem dropCmd_ckpt (cid : Nat) : (dropCmd s cid).ckpt = s.ckpt := rfl
@[simp] theorem dropCmd_ing (cid : Nat) : (dropCmd s cid).ing = s.ing := rfl
@[simp] theorem dropCmd_parts (cid : Nat) : (dropCmd s cid).parts = s.parts := rfl
@[simp] theorem dropCmd_accounts (cid : Nat) : (dropCmd s cid).accounts = s.accounts := rfl
@[simp] theorem dropCmd_pwr (cid : Nat) : (dropCmd s cid).pwr = s.pwr := rfl
@[simp] theorem dropCmd_sec (cid : Nat) : (dropCmd s cid).sec = s.sec := rfl
@[simp] theorem dropCmd_fuses (cid : Nat) : (dropCmd s cid).fuses = s.fuses := rfl
@[simp] theorem dropCmd_boot (cid : Nat) : (dropCmd s cid).boot = s.boot := rfl
@[simp] theorem dropCmd_clspHold (cid : Nat) : (dropCmd s cid).clspHold = s.clspHold := rfl
@[simp] theorem dropCmd_flying (cid : Nat) : (dropCmd s cid).flying = s.flying := rfl
@[simp] theorem dropCmd_partSent (cid : Nat) : (dropCmd s cid).partSent = s.partSent := rfl
@[simp] theorem dropCmd_out (cid : Nat) : (dropCmd s cid).out = s.out := rfl

/-! ### beginCmd -/

@[simp] theorem beginCmd_pending (cid : Nat) : (beginCmd s cid).pending = s.pending := rfl
@[simp] theorem beginCmd_fresh (cid : Nat) : (beginCmd s cid).fresh = s.fresh := rfl
@[simp] theorem beginCmd_now (cid : Nat) : (beginCmd s cid).now = s.now := rfl
@[simp] theorem beginCmd_regs (cid : Nat) : (beginCmd s cid).regs = s.regs := rfl
@[simp] theorem beginCmd_mem (cid : Nat) : (beginCmd s cid).mem = s.mem := rfl
@[simp] theorem beginCmd_hostMem (cid : Nat) : (beginCmd s cid).hostMem = s.hostMem := rfl
@[simp] theorem beginCmd_islands (cid : Nat) : (beginCmd s cid).islands = s.islands := rfl
@[simp] theorem beginCmd_arbs (cid : Nat) : (beginCmd s cid).arbs = s.arbs := rfl
@[simp] theorem beginCmd_merges (cid : Nat) : (beginCmd s cid).merges = s.merges := rfl
@[simp] theorem beginCmd_tiles (cid : Nat) : (beginCmd s cid).tiles = s.tiles := rfl
@[simp] theorem beginCmd_holds (cid : Nat) : (beginCmd s cid).holds = s.holds := rfl
@[simp] theorem beginCmd_staged (cid : Nat) : (beginCmd s cid).staged = s.staged := rfl
@[simp] theorem beginCmd_chains (cid : Nat) : (beginCmd s cid).chains = s.chains := rfl
@[simp] theorem beginCmd_partials (cid : Nat) : (beginCmd s cid).partials = s.partials := rfl
@[simp] theorem beginCmd_strata (cid : Nat) : (beginCmd s cid).strata = s.strata := rfl
@[simp] theorem beginCmd_tier (cid : Nat) : (beginCmd s cid).tier = s.tier := rfl
@[simp] theorem beginCmd_fab (cid : Nat) : (beginCmd s cid).fab = s.fab := rfl
@[simp] theorem beginCmd_coll (cid : Nat) : (beginCmd s cid).coll = s.coll := rfl
@[simp] theorem beginCmd_ckpt (cid : Nat) : (beginCmd s cid).ckpt = s.ckpt := rfl
@[simp] theorem beginCmd_ing (cid : Nat) : (beginCmd s cid).ing = s.ing := rfl
@[simp] theorem beginCmd_parts (cid : Nat) : (beginCmd s cid).parts = s.parts := rfl
@[simp] theorem beginCmd_accounts (cid : Nat) : (beginCmd s cid).accounts = s.accounts := rfl
@[simp] theorem beginCmd_pwr (cid : Nat) : (beginCmd s cid).pwr = s.pwr := rfl
@[simp] theorem beginCmd_sec (cid : Nat) : (beginCmd s cid).sec = s.sec := rfl
@[simp] theorem beginCmd_fuses (cid : Nat) : (beginCmd s cid).fuses = s.fuses := rfl
@[simp] theorem beginCmd_boot (cid : Nat) : (beginCmd s cid).boot = s.boot := rfl
@[simp] theorem beginCmd_clspHold (cid : Nat) : (beginCmd s cid).clspHold = s.clspHold := rfl
@[simp] theorem beginCmd_flying (cid : Nat) : (beginCmd s cid).flying = s.flying := rfl
@[simp] theorem beginCmd_partSent (cid : Nat) : (beginCmd s cid).partSent = s.partSent := rfl
@[simp] theorem beginCmd_out (cid : Nat) : (beginCmd s cid).out = s.out := rfl

/-! ### modLink -/

@[simp] theorem modLink_pending (l : Nat) (f : Link → Link) : (modLink s l f).pending = s.pending := rfl
@[simp] theorem modLink_fresh (l : Nat) (f : Link → Link) : (modLink s l f).fresh = s.fresh := rfl
@[simp] theorem modLink_now (l : Nat) (f : Link → Link) : (modLink s l f).now = s.now := rfl
@[simp] theorem modLink_regs (l : Nat) (f : Link → Link) : (modLink s l f).regs = s.regs := rfl
@[simp] theorem modLink_mem (l : Nat) (f : Link → Link) : (modLink s l f).mem = s.mem := rfl
@[simp] theorem modLink_hostMem (l : Nat) (f : Link → Link) : (modLink s l f).hostMem = s.hostMem := rfl
@[simp] theorem modLink_islands (l : Nat) (f : Link → Link) : (modLink s l f).islands = s.islands := rfl
@[simp] theorem modLink_arbs (l : Nat) (f : Link → Link) : (modLink s l f).arbs = s.arbs := rfl
@[simp] theorem modLink_merges (l : Nat) (f : Link → Link) : (modLink s l f).merges = s.merges := rfl
@[simp] theorem modLink_tiles (l : Nat) (f : Link → Link) : (modLink s l f).tiles = s.tiles := rfl
@[simp] theorem modLink_holds (l : Nat) (f : Link → Link) : (modLink s l f).holds = s.holds := rfl
@[simp] theorem modLink_staged (l : Nat) (f : Link → Link) : (modLink s l f).staged = s.staged := rfl
@[simp] theorem modLink_chains (l : Nat) (f : Link → Link) : (modLink s l f).chains = s.chains := rfl
@[simp] theorem modLink_partials (l : Nat) (f : Link → Link) : (modLink s l f).partials = s.partials := rfl
@[simp] theorem modLink_strata (l : Nat) (f : Link → Link) : (modLink s l f).strata = s.strata := rfl
@[simp] theorem modLink_tier (l : Nat) (f : Link → Link) : (modLink s l f).tier = s.tier := rfl
@[simp] theorem modLink_coll (l : Nat) (f : Link → Link) : (modLink s l f).coll = s.coll := rfl
@[simp] theorem modLink_ckpt (l : Nat) (f : Link → Link) : (modLink s l f).ckpt = s.ckpt := rfl
@[simp] theorem modLink_ing (l : Nat) (f : Link → Link) : (modLink s l f).ing = s.ing := rfl
@[simp] theorem modLink_host (l : Nat) (f : Link → Link) : (modLink s l f).host = s.host := rfl
@[simp] theorem modLink_parts (l : Nat) (f : Link → Link) : (modLink s l f).parts = s.parts := rfl
@[simp] theorem modLink_accounts (l : Nat) (f : Link → Link) : (modLink s l f).accounts = s.accounts := rfl
@[simp] theorem modLink_pwr (l : Nat) (f : Link → Link) : (modLink s l f).pwr = s.pwr := rfl
@[simp] theorem modLink_sec (l : Nat) (f : Link → Link) : (modLink s l f).sec = s.sec := rfl
@[simp] theorem modLink_fuses (l : Nat) (f : Link → Link) : (modLink s l f).fuses = s.fuses := rfl
@[simp] theorem modLink_boot (l : Nat) (f : Link → Link) : (modLink s l f).boot = s.boot := rfl
@[simp] theorem modLink_clspHold (l : Nat) (f : Link → Link) : (modLink s l f).clspHold = s.clspHold := rfl
@[simp] theorem modLink_flying (l : Nat) (f : Link → Link) : (modLink s l f).flying = s.flying := rfl
@[simp] theorem modLink_partSent (l : Nat) (f : Link → Link) : (modLink s l f).partSent = s.partSent := rfl
@[simp] theorem modLink_out (l : Nat) (f : Link → Link) : (modLink s l f).out = s.out := rfl

/-! ### setFab -/

@[simp] theorem setFab_pending (f : Fabric → Fabric) : (setFab s f).pending = s.pending := rfl
@[simp] theorem setFab_fresh (f : Fabric → Fabric) : (setFab s f).fresh = s.fresh := rfl
@[simp] theorem setFab_now (f : Fabric → Fabric) : (setFab s f).now = s.now := rfl
@[simp] theorem setFab_regs (f : Fabric → Fabric) : (setFab s f).regs = s.regs := rfl
@[simp] theorem setFab_mem (f : Fabric → Fabric) : (setFab s f).mem = s.mem := rfl
@[simp] theorem setFab_hostMem (f : Fabric → Fabric) : (setFab s f).hostMem = s.hostMem := rfl
@[simp] theorem setFab_islands (f : Fabric → Fabric) : (setFab s f).islands = s.islands := rfl
@[simp] theorem setFab_arbs (f : Fabric → Fabric) : (setFab s f).arbs = s.arbs := rfl
@[simp] theorem setFab_merges (f : Fabric → Fabric) : (setFab s f).merges = s.merges := rfl
@[simp] theorem setFab_tiles (f : Fabric → Fabric) : (setFab s f).tiles = s.tiles := rfl
@[simp] theorem setFab_holds (f : Fabric → Fabric) : (setFab s f).holds = s.holds := rfl
@[simp] theorem setFab_staged (f : Fabric → Fabric) : (setFab s f).staged = s.staged := rfl
@[simp] theorem setFab_chains (f : Fabric → Fabric) : (setFab s f).chains = s.chains := rfl
@[simp] theorem setFab_partials (f : Fabric → Fabric) : (setFab s f).partials = s.partials := rfl
@[simp] theorem setFab_strata (f : Fabric → Fabric) : (setFab s f).strata = s.strata := rfl
@[simp] theorem setFab_tier (f : Fabric → Fabric) : (setFab s f).tier = s.tier := rfl
@[simp] theorem setFab_coll (f : Fabric → Fabric) : (setFab s f).coll = s.coll := rfl
@[simp] theorem setFab_ckpt (f : Fabric → Fabric) : (setFab s f).ckpt = s.ckpt := rfl
@[simp] theorem setFab_ing (f : Fabric → Fabric) : (setFab s f).ing = s.ing := rfl
@[simp] theorem setFab_host (f : Fabric → Fabric) : (setFab s f).host = s.host := rfl
@[simp] theorem setFab_parts (f : Fabric → Fabric) : (setFab s f).parts = s.parts := rfl
@[simp] theorem setFab_accounts (f : Fabric → Fabric) : (setFab s f).accounts = s.accounts := rfl
@[simp] theorem setFab_pwr (f : Fabric → Fabric) : (setFab s f).pwr = s.pwr := rfl
@[simp] theorem setFab_sec (f : Fabric → Fabric) : (setFab s f).sec = s.sec := rfl
@[simp] theorem setFab_fuses (f : Fabric → Fabric) : (setFab s f).fuses = s.fuses := rfl
@[simp] theorem setFab_boot (f : Fabric → Fabric) : (setFab s f).boot = s.boot := rfl
@[simp] theorem setFab_clspHold (f : Fabric → Fabric) : (setFab s f).clspHold = s.clspHold := rfl
@[simp] theorem setFab_flying (f : Fabric → Fabric) : (setFab s f).flying = s.flying := rfl
@[simp] theorem setFab_partSent (f : Fabric → Fabric) : (setFab s f).partSent = s.partSent := rfl
@[simp] theorem setFab_out (f : Fabric → Fabric) : (setFab s f).out = s.out := rfl

/-! ### modColl -/

@[simp] theorem modColl_pending (p n : Nat) (f : CollStream → CollStream) : (modColl s p n f).pending = s.pending := rfl
@[simp] theorem modColl_fresh (p n : Nat) (f : CollStream → CollStream) : (modColl s p n f).fresh = s.fresh := rfl
@[simp] theorem modColl_now (p n : Nat) (f : CollStream → CollStream) : (modColl s p n f).now = s.now := rfl
@[simp] theorem modColl_regs (p n : Nat) (f : CollStream → CollStream) : (modColl s p n f).regs = s.regs := rfl
@[simp] theorem modColl_mem (p n : Nat) (f : CollStream → CollStream) : (modColl s p n f).mem = s.mem := rfl
@[simp] theorem modColl_hostMem (p n : Nat) (f : CollStream → CollStream) : (modColl s p n f).hostMem = s.hostMem := rfl
@[simp] theorem modColl_islands (p n : Nat) (f : CollStream → CollStream) : (modColl s p n f).islands = s.islands := rfl
@[simp] theorem modColl_arbs (p n : Nat) (f : CollStream → CollStream) : (modColl s p n f).arbs = s.arbs := rfl
@[simp] theorem modColl_merges (p n : Nat) (f : CollStream → CollStream) : (modColl s p n f).merges = s.merges := rfl
@[simp] theorem modColl_tiles (p n : Nat) (f : CollStream → CollStream) : (modColl s p n f).tiles = s.tiles := rfl
@[simp] theorem modColl_holds (p n : Nat) (f : CollStream → CollStream) : (modColl s p n f).holds = s.holds := rfl
@[simp] theorem modColl_staged (p n : Nat) (f : CollStream → CollStream) : (modColl s p n f).staged = s.staged := rfl
@[simp] theorem modColl_chains (p n : Nat) (f : CollStream → CollStream) : (modColl s p n f).chains = s.chains := rfl
@[simp] theorem modColl_partials (p n : Nat) (f : CollStream → CollStream) : (modColl s p n f).partials = s.partials := rfl
@[simp] theorem modColl_strata (p n : Nat) (f : CollStream → CollStream) : (modColl s p n f).strata = s.strata := rfl
@[simp] theorem modColl_tier (p n : Nat) (f : CollStream → CollStream) : (modColl s p n f).tier = s.tier := rfl
@[simp] theorem modColl_fab (p n : Nat) (f : CollStream → CollStream) : (modColl s p n f).fab = s.fab := rfl
@[simp] theorem modColl_ckpt (p n : Nat) (f : CollStream → CollStream) : (modColl s p n f).ckpt = s.ckpt := rfl
@[simp] theorem modColl_ing (p n : Nat) (f : CollStream → CollStream) : (modColl s p n f).ing = s.ing := rfl
@[simp] theorem modColl_host (p n : Nat) (f : CollStream → CollStream) : (modColl s p n f).host = s.host := rfl
@[simp] theorem modColl_parts (p n : Nat) (f : CollStream → CollStream) : (modColl s p n f).parts = s.parts := rfl
@[simp] theorem modColl_accounts (p n : Nat) (f : CollStream → CollStream) : (modColl s p n f).accounts = s.accounts := rfl
@[simp] theorem modColl_pwr (p n : Nat) (f : CollStream → CollStream) : (modColl s p n f).pwr = s.pwr := rfl
@[simp] theorem modColl_sec (p n : Nat) (f : CollStream → CollStream) : (modColl s p n f).sec = s.sec := rfl
@[simp] theorem modColl_fuses (p n : Nat) (f : CollStream → CollStream) : (modColl s p n f).fuses = s.fuses := rfl
@[simp] theorem modColl_boot (p n : Nat) (f : CollStream → CollStream) : (modColl s p n f).boot = s.boot := rfl
@[simp] theorem modColl_clspHold (p n : Nat) (f : CollStream → CollStream) : (modColl s p n f).clspHold = s.clspHold := rfl
@[simp] theorem modColl_flying (p n : Nat) (f : CollStream → CollStream) : (modColl s p n f).flying = s.flying := rfl
@[simp] theorem modColl_partSent (p n : Nat) (f : CollStream → CollStream) : (modColl s p n f).partSent = s.partSent := rfl
@[simp] theorem modColl_out (p n : Nat) (f : CollStream → CollStream) : (modColl s p n f).out = s.out := rfl

/-! ### setCkpt -/

@[simp] theorem setCkpt_pending (f : Ckpt → Ckpt) : (setCkpt s f).pending = s.pending := rfl
@[simp] theorem setCkpt_fresh (f : Ckpt → Ckpt) : (setCkpt s f).fresh = s.fresh := rfl
@[simp] theorem setCkpt_now (f : Ckpt → Ckpt) : (setCkpt s f).now = s.now := rfl
@[simp] theorem setCkpt_regs (f : Ckpt → Ckpt) : (setCkpt s f).regs = s.regs := rfl
@[simp] theorem setCkpt_mem (f : Ckpt → Ckpt) : (setCkpt s f).mem = s.mem := rfl
@[simp] theorem setCkpt_hostMem (f : Ckpt → Ckpt) : (setCkpt s f).hostMem = s.hostMem := rfl
@[simp] theorem setCkpt_islands (f : Ckpt → Ckpt) : (setCkpt s f).islands = s.islands := rfl
@[simp] theorem setCkpt_arbs (f : Ckpt → Ckpt) : (setCkpt s f).arbs = s.arbs := rfl
@[simp] theorem setCkpt_merges (f : Ckpt → Ckpt) : (setCkpt s f).merges = s.merges := rfl
@[simp] theorem setCkpt_tiles (f : Ckpt → Ckpt) : (setCkpt s f).tiles = s.tiles := rfl
@[simp] theorem setCkpt_holds (f : Ckpt → Ckpt) : (setCkpt s f).holds = s.holds := rfl
@[simp] theorem setCkpt_staged (f : Ckpt → Ckpt) : (setCkpt s f).staged = s.staged := rfl
@[simp] theorem setCkpt_chains (f : Ckpt → Ckpt) : (setCkpt s f).chains = s.chains := rfl
@[simp] theorem setCkpt_partials (f : Ckpt → Ckpt) : (setCkpt s f).partials = s.partials := rfl
@[simp] theorem setCkpt_strata (f : Ckpt → Ckpt) : (setCkpt s f).strata = s.strata := rfl
@[simp] theorem setCkpt_tier (f : Ckpt → Ckpt) : (setCkpt s f).tier = s.tier := rfl
@[simp] theorem setCkpt_fab (f : Ckpt → Ckpt) : (setCkpt s f).fab = s.fab := rfl
@[simp] theorem setCkpt_coll (f : Ckpt → Ckpt) : (setCkpt s f).coll = s.coll := rfl
@[simp] theorem setCkpt_ing (f : Ckpt → Ckpt) : (setCkpt s f).ing = s.ing := rfl
@[simp] theorem setCkpt_host (f : Ckpt → Ckpt) : (setCkpt s f).host = s.host := rfl
@[simp] theorem setCkpt_parts (f : Ckpt → Ckpt) : (setCkpt s f).parts = s.parts := rfl
@[simp] theorem setCkpt_accounts (f : Ckpt → Ckpt) : (setCkpt s f).accounts = s.accounts := rfl
@[simp] theorem setCkpt_pwr (f : Ckpt → Ckpt) : (setCkpt s f).pwr = s.pwr := rfl
@[simp] theorem setCkpt_sec (f : Ckpt → Ckpt) : (setCkpt s f).sec = s.sec := rfl
@[simp] theorem setCkpt_fuses (f : Ckpt → Ckpt) : (setCkpt s f).fuses = s.fuses := rfl
@[simp] theorem setCkpt_boot (f : Ckpt → Ckpt) : (setCkpt s f).boot = s.boot := rfl
@[simp] theorem setCkpt_clspHold (f : Ckpt → Ckpt) : (setCkpt s f).clspHold = s.clspHold := rfl
@[simp] theorem setCkpt_flying (f : Ckpt → Ckpt) : (setCkpt s f).flying = s.flying := rfl
@[simp] theorem setCkpt_partSent (f : Ckpt → Ckpt) : (setCkpt s f).partSent = s.partSent := rfl
@[simp] theorem setCkpt_out (f : Ckpt → Ckpt) : (setCkpt s f).out = s.out := rfl

/-! ### modPipe -/

@[simp] theorem modPipe_pending (p : Nat) (f : Pipe → Pipe) : (modPipe s p f).pending = s.pending := rfl
@[simp] theorem modPipe_fresh (p : Nat) (f : Pipe → Pipe) : (modPipe s p f).fresh = s.fresh := rfl
@[simp] theorem modPipe_now (p : Nat) (f : Pipe → Pipe) : (modPipe s p f).now = s.now := rfl
@[simp] theorem modPipe_regs (p : Nat) (f : Pipe → Pipe) : (modPipe s p f).regs = s.regs := rfl
@[simp] theorem modPipe_mem (p : Nat) (f : Pipe → Pipe) : (modPipe s p f).mem = s.mem := rfl
@[simp] theorem modPipe_hostMem (p : Nat) (f : Pipe → Pipe) : (modPipe s p f).hostMem = s.hostMem := rfl
@[simp] theorem modPipe_islands (p : Nat) (f : Pipe → Pipe) : (modPipe s p f).islands = s.islands := rfl
@[simp] theorem modPipe_arbs (p : Nat) (f : Pipe → Pipe) : (modPipe s p f).arbs = s.arbs := rfl
@[simp] theorem modPipe_merges (p : Nat) (f : Pipe → Pipe) : (modPipe s p f).merges = s.merges := rfl
@[simp] theorem modPipe_tiles (p : Nat) (f : Pipe → Pipe) : (modPipe s p f).tiles = s.tiles := rfl
@[simp] theorem modPipe_holds (p : Nat) (f : Pipe → Pipe) : (modPipe s p f).holds = s.holds := rfl
@[simp] theorem modPipe_staged (p : Nat) (f : Pipe → Pipe) : (modPipe s p f).staged = s.staged := rfl
@[simp] theorem modPipe_chains (p : Nat) (f : Pipe → Pipe) : (modPipe s p f).chains = s.chains := rfl
@[simp] theorem modPipe_partials (p : Nat) (f : Pipe → Pipe) : (modPipe s p f).partials = s.partials := rfl
@[simp] theorem modPipe_strata (p : Nat) (f : Pipe → Pipe) : (modPipe s p f).strata = s.strata := rfl
@[simp] theorem modPipe_tier (p : Nat) (f : Pipe → Pipe) : (modPipe s p f).tier = s.tier := rfl
@[simp] theorem modPipe_fab (p : Nat) (f : Pipe → Pipe) : (modPipe s p f).fab = s.fab := rfl
@[simp] theorem modPipe_coll (p : Nat) (f : Pipe → Pipe) : (modPipe s p f).coll = s.coll := rfl
@[simp] theorem modPipe_ckpt (p : Nat) (f : Pipe → Pipe) : (modPipe s p f).ckpt = s.ckpt := rfl
@[simp] theorem modPipe_host (p : Nat) (f : Pipe → Pipe) : (modPipe s p f).host = s.host := rfl
@[simp] theorem modPipe_parts (p : Nat) (f : Pipe → Pipe) : (modPipe s p f).parts = s.parts := rfl
@[simp] theorem modPipe_accounts (p : Nat) (f : Pipe → Pipe) : (modPipe s p f).accounts = s.accounts := rfl
@[simp] theorem modPipe_pwr (p : Nat) (f : Pipe → Pipe) : (modPipe s p f).pwr = s.pwr := rfl
@[simp] theorem modPipe_sec (p : Nat) (f : Pipe → Pipe) : (modPipe s p f).sec = s.sec := rfl
@[simp] theorem modPipe_fuses (p : Nat) (f : Pipe → Pipe) : (modPipe s p f).fuses = s.fuses := rfl
@[simp] theorem modPipe_boot (p : Nat) (f : Pipe → Pipe) : (modPipe s p f).boot = s.boot := rfl
@[simp] theorem modPipe_clspHold (p : Nat) (f : Pipe → Pipe) : (modPipe s p f).clspHold = s.clspHold := rfl
@[simp] theorem modPipe_flying (p : Nat) (f : Pipe → Pipe) : (modPipe s p f).flying = s.flying := rfl
@[simp] theorem modPipe_partSent (p : Nat) (f : Pipe → Pipe) : (modPipe s p f).partSent = s.partSent := rfl
@[simp] theorem modPipe_out (p : Nat) (f : Pipe → Pipe) : (modPipe s p f).out = s.out := rfl

/-! ### modSlot -/

@[simp] theorem modSlot_pending (n : Nat) (f : KeySlot → KeySlot) : (modSlot s n f).pending = s.pending := rfl
@[simp] theorem modSlot_fresh (n : Nat) (f : KeySlot → KeySlot) : (modSlot s n f).fresh = s.fresh := rfl
@[simp] theorem modSlot_now (n : Nat) (f : KeySlot → KeySlot) : (modSlot s n f).now = s.now := rfl
@[simp] theorem modSlot_regs (n : Nat) (f : KeySlot → KeySlot) : (modSlot s n f).regs = s.regs := rfl
@[simp] theorem modSlot_mem (n : Nat) (f : KeySlot → KeySlot) : (modSlot s n f).mem = s.mem := rfl
@[simp] theorem modSlot_hostMem (n : Nat) (f : KeySlot → KeySlot) : (modSlot s n f).hostMem = s.hostMem := rfl
@[simp] theorem modSlot_islands (n : Nat) (f : KeySlot → KeySlot) : (modSlot s n f).islands = s.islands := rfl
@[simp] theorem modSlot_arbs (n : Nat) (f : KeySlot → KeySlot) : (modSlot s n f).arbs = s.arbs := rfl
@[simp] theorem modSlot_merges (n : Nat) (f : KeySlot → KeySlot) : (modSlot s n f).merges = s.merges := rfl
@[simp] theorem modSlot_tiles (n : Nat) (f : KeySlot → KeySlot) : (modSlot s n f).tiles = s.tiles := rfl
@[simp] theorem modSlot_holds (n : Nat) (f : KeySlot → KeySlot) : (modSlot s n f).holds = s.holds := rfl
@[simp] theorem modSlot_staged (n : Nat) (f : KeySlot → KeySlot) : (modSlot s n f).staged = s.staged := rfl
@[simp] theorem modSlot_chains (n : Nat) (f : KeySlot → KeySlot) : (modSlot s n f).chains = s.chains := rfl
@[simp] theorem modSlot_partials (n : Nat) (f : KeySlot → KeySlot) : (modSlot s n f).partials = s.partials := rfl
@[simp] theorem modSlot_strata (n : Nat) (f : KeySlot → KeySlot) : (modSlot s n f).strata = s.strata := rfl
@[simp] theorem modSlot_tier (n : Nat) (f : KeySlot → KeySlot) : (modSlot s n f).tier = s.tier := rfl
@[simp] theorem modSlot_fab (n : Nat) (f : KeySlot → KeySlot) : (modSlot s n f).fab = s.fab := rfl
@[simp] theorem modSlot_coll (n : Nat) (f : KeySlot → KeySlot) : (modSlot s n f).coll = s.coll := rfl
@[simp] theorem modSlot_ckpt (n : Nat) (f : KeySlot → KeySlot) : (modSlot s n f).ckpt = s.ckpt := rfl
@[simp] theorem modSlot_ing (n : Nat) (f : KeySlot → KeySlot) : (modSlot s n f).ing = s.ing := rfl
@[simp] theorem modSlot_host (n : Nat) (f : KeySlot → KeySlot) : (modSlot s n f).host = s.host := rfl
@[simp] theorem modSlot_parts (n : Nat) (f : KeySlot → KeySlot) : (modSlot s n f).parts = s.parts := rfl
@[simp] theorem modSlot_accounts (n : Nat) (f : KeySlot → KeySlot) : (modSlot s n f).accounts = s.accounts := rfl
@[simp] theorem modSlot_pwr (n : Nat) (f : KeySlot → KeySlot) : (modSlot s n f).pwr = s.pwr := rfl
@[simp] theorem modSlot_fuses (n : Nat) (f : KeySlot → KeySlot) : (modSlot s n f).fuses = s.fuses := rfl
@[simp] theorem modSlot_boot (n : Nat) (f : KeySlot → KeySlot) : (modSlot s n f).boot = s.boot := rfl
@[simp] theorem modSlot_clspHold (n : Nat) (f : KeySlot → KeySlot) : (modSlot s n f).clspHold = s.clspHold := rfl
@[simp] theorem modSlot_flying (n : Nat) (f : KeySlot → KeySlot) : (modSlot s n f).flying = s.flying := rfl
@[simp] theorem modSlot_partSent (n : Nat) (f : KeySlot → KeySlot) : (modSlot s n f).partSent = s.partSent := rfl
@[simp] theorem modSlot_out (n : Nat) (f : KeySlot → KeySlot) : (modSlot s n f).out = s.out := rfl

/-! ### setSec -/

@[simp] theorem setSec_pending (f : Security → Security) : (setSec s f).pending = s.pending := rfl
@[simp] theorem setSec_fresh (f : Security → Security) : (setSec s f).fresh = s.fresh := rfl
@[simp] theorem setSec_now (f : Security → Security) : (setSec s f).now = s.now := rfl
@[simp] theorem setSec_regs (f : Security → Security) : (setSec s f).regs = s.regs := rfl
@[simp] theorem setSec_mem (f : Security → Security) : (setSec s f).mem = s.mem := rfl
@[simp] theorem setSec_hostMem (f : Security → Security) : (setSec s f).hostMem = s.hostMem := rfl
@[simp] theorem setSec_islands (f : Security → Security) : (setSec s f).islands = s.islands := rfl
@[simp] theorem setSec_arbs (f : Security → Security) : (setSec s f).arbs = s.arbs := rfl
@[simp] theorem setSec_merges (f : Security → Security) : (setSec s f).merges = s.merges := rfl
@[simp] theorem setSec_tiles (f : Security → Security) : (setSec s f).tiles = s.tiles := rfl
@[simp] theorem setSec_holds (f : Security → Security) : (setSec s f).holds = s.holds := rfl
@[simp] theorem setSec_staged (f : Security → Security) : (setSec s f).staged = s.staged := rfl
@[simp] theorem setSec_chains (f : Security → Security) : (setSec s f).chains = s.chains := rfl
@[simp] theorem setSec_partials (f : Security → Security) : (setSec s f).partials = s.partials := rfl
@[simp] theorem setSec_strata (f : Security → Security) : (setSec s f).strata = s.strata := rfl
@[simp] theorem setSec_tier (f : Security → Security) : (setSec s f).tier = s.tier := rfl
@[simp] theorem setSec_fab (f : Security → Security) : (setSec s f).fab = s.fab := rfl
@[simp] theorem setSec_coll (f : Security → Security) : (setSec s f).coll = s.coll := rfl
@[simp] theorem setSec_ckpt (f : Security → Security) : (setSec s f).ckpt = s.ckpt := rfl
@[simp] theorem setSec_ing (f : Security → Security) : (setSec s f).ing = s.ing := rfl
@[simp] theorem setSec_host (f : Security → Security) : (setSec s f).host = s.host := rfl
@[simp] theorem setSec_parts (f : Security → Security) : (setSec s f).parts = s.parts := rfl
@[simp] theorem setSec_accounts (f : Security → Security) : (setSec s f).accounts = s.accounts := rfl
@[simp] theorem setSec_pwr (f : Security → Security) : (setSec s f).pwr = s.pwr := rfl
@[simp] theorem setSec_fuses (f : Security → Security) : (setSec s f).fuses = s.fuses := rfl
@[simp] theorem setSec_boot (f : Security → Security) : (setSec s f).boot = s.boot := rfl
@[simp] theorem setSec_clspHold (f : Security → Security) : (setSec s f).clspHold = s.clspHold := rfl
@[simp] theorem setSec_flying (f : Security → Security) : (setSec s f).flying = s.flying := rfl
@[simp] theorem setSec_partSent (f : Security → Security) : (setSec s f).partSent = s.partSent := rfl
@[simp] theorem setSec_out (f : Security → Security) : (setSec s f).out = s.out := rfl

/-! ### setBoot -/

@[simp] theorem setBoot_pending (f : Boot → Boot) : (setBoot s f).pending = s.pending := rfl
@[simp] theorem setBoot_fresh (f : Boot → Boot) : (setBoot s f).fresh = s.fresh := rfl
@[simp] theorem setBoot_now (f : Boot → Boot) : (setBoot s f).now = s.now := rfl
@[simp] theorem setBoot_regs (f : Boot → Boot) : (setBoot s f).regs = s.regs := rfl
@[simp] theorem setBoot_mem (f : Boot → Boot) : (setBoot s f).mem = s.mem := rfl
@[simp] theorem setBoot_hostMem (f : Boot → Boot) : (setBoot s f).hostMem = s.hostMem := rfl
@[simp] theorem setBoot_islands (f : Boot → Boot) : (setBoot s f).islands = s.islands := rfl
@[simp] theorem setBoot_arbs (f : Boot → Boot) : (setBoot s f).arbs = s.arbs := rfl
@[simp] theorem setBoot_merges (f : Boot → Boot) : (setBoot s f).merges = s.merges := rfl
@[simp] theorem setBoot_tiles (f : Boot → Boot) : (setBoot s f).tiles = s.tiles := rfl
@[simp] theorem setBoot_holds (f : Boot → Boot) : (setBoot s f).holds = s.holds := rfl
@[simp] theorem setBoot_staged (f : Boot → Boot) : (setBoot s f).staged = s.staged := rfl
@[simp] theorem setBoot_chains (f : Boot → Boot) : (setBoot s f).chains = s.chains := rfl
@[simp] theorem setBoot_partials (f : Boot → Boot) : (setBoot s f).partials = s.partials := rfl
@[simp] theorem setBoot_strata (f : Boot → Boot) : (setBoot s f).strata = s.strata := rfl
@[simp] theorem setBoot_tier (f : Boot → Boot) : (setBoot s f).tier = s.tier := rfl
@[simp] theorem setBoot_fab (f : Boot → Boot) : (setBoot s f).fab = s.fab := rfl
@[simp] theorem setBoot_coll (f : Boot → Boot) : (setBoot s f).coll = s.coll := rfl
@[simp] theorem setBoot_ckpt (f : Boot → Boot) : (setBoot s f).ckpt = s.ckpt := rfl
@[simp] theorem setBoot_ing (f : Boot → Boot) : (setBoot s f).ing = s.ing := rfl
@[simp] theorem setBoot_host (f : Boot → Boot) : (setBoot s f).host = s.host := rfl
@[simp] theorem setBoot_parts (f : Boot → Boot) : (setBoot s f).parts = s.parts := rfl
@[simp] theorem setBoot_accounts (f : Boot → Boot) : (setBoot s f).accounts = s.accounts := rfl
@[simp] theorem setBoot_pwr (f : Boot → Boot) : (setBoot s f).pwr = s.pwr := rfl
@[simp] theorem setBoot_sec (f : Boot → Boot) : (setBoot s f).sec = s.sec := rfl
@[simp] theorem setBoot_fuses (f : Boot → Boot) : (setBoot s f).fuses = s.fuses := rfl
@[simp] theorem setBoot_clspHold (f : Boot → Boot) : (setBoot s f).clspHold = s.clspHold := rfl
@[simp] theorem setBoot_flying (f : Boot → Boot) : (setBoot s f).flying = s.flying := rfl
@[simp] theorem setBoot_partSent (f : Boot → Boot) : (setBoot s f).partSent = s.partSent := rfl
@[simp] theorem setBoot_out (f : Boot → Boot) : (setBoot s f).out = s.out := rfl

/-! ### setPwr -/

@[simp] theorem setPwr_pending (f : Power → Power) : (setPwr s f).pending = s.pending := rfl
@[simp] theorem setPwr_fresh (f : Power → Power) : (setPwr s f).fresh = s.fresh := rfl
@[simp] theorem setPwr_now (f : Power → Power) : (setPwr s f).now = s.now := rfl
@[simp] theorem setPwr_regs (f : Power → Power) : (setPwr s f).regs = s.regs := rfl
@[simp] theorem setPwr_mem (f : Power → Power) : (setPwr s f).mem = s.mem := rfl
@[simp] theorem setPwr_hostMem (f : Power → Power) : (setPwr s f).hostMem = s.hostMem := rfl
@[simp] theorem setPwr_islands (f : Power → Power) : (setPwr s f).islands = s.islands := rfl
@[simp] theorem setPwr_arbs (f : Power → Power) : (setPwr s f).arbs = s.arbs := rfl
@[simp] theorem setPwr_merges (f : Power → Power) : (setPwr s f).merges = s.merges := rfl
@[simp] theorem setPwr_tiles (f : Power → Power) : (setPwr s f).tiles = s.tiles := rfl
@[simp] theorem setPwr_holds (f : Power → Power) : (setPwr s f).holds = s.holds := rfl
@[simp] theorem setPwr_staged (f : Power → Power) : (setPwr s f).staged = s.staged := rfl
@[simp] theorem setPwr_chains (f : Power → Power) : (setPwr s f).chains = s.chains := rfl
@[simp] theorem setPwr_partials (f : Power → Power) : (setPwr s f).partials = s.partials := rfl
@[simp] theorem setPwr_strata (f : Power → Power) : (setPwr s f).strata = s.strata := rfl
@[simp] theorem setPwr_tier (f : Power → Power) : (setPwr s f).tier = s.tier := rfl
@[simp] theorem setPwr_fab (f : Power → Power) : (setPwr s f).fab = s.fab := rfl
@[simp] theorem setPwr_coll (f : Power → Power) : (setPwr s f).coll = s.coll := rfl
@[simp] theorem setPwr_ckpt (f : Power → Power) : (setPwr s f).ckpt = s.ckpt := rfl
@[simp] theorem setPwr_ing (f : Power → Power) : (setPwr s f).ing = s.ing := rfl
@[simp] theorem setPwr_host (f : Power → Power) : (setPwr s f).host = s.host := rfl
@[simp] theorem setPwr_parts (f : Power → Power) : (setPwr s f).parts = s.parts := rfl
@[simp] theorem setPwr_accounts (f : Power → Power) : (setPwr s f).accounts = s.accounts := rfl
@[simp] theorem setPwr_sec (f : Power → Power) : (setPwr s f).sec = s.sec := rfl
@[simp] theorem setPwr_fuses (f : Power → Power) : (setPwr s f).fuses = s.fuses := rfl
@[simp] theorem setPwr_boot (f : Power → Power) : (setPwr s f).boot = s.boot := rfl
@[simp] theorem setPwr_clspHold (f : Power → Power) : (setPwr s f).clspHold = s.clspHold := rfl
@[simp] theorem setPwr_flying (f : Power → Power) : (setPwr s f).flying = s.flying := rfl
@[simp] theorem setPwr_partSent (f : Power → Power) : (setPwr s f).partSent = s.partSent := rfl
@[simp] theorem setPwr_out (f : Power → Power) : (setPwr s f).out = s.out := rfl

/-! ### setTier -/

@[simp] theorem setTier_pending (f : Tier → Tier) : (setTier s f).pending = s.pending := rfl
@[simp] theorem setTier_fresh (f : Tier → Tier) : (setTier s f).fresh = s.fresh := rfl
@[simp] theorem setTier_now (f : Tier → Tier) : (setTier s f).now = s.now := rfl
@[simp] theorem setTier_regs (f : Tier → Tier) : (setTier s f).regs = s.regs := rfl
@[simp] theorem setTier_mem (f : Tier → Tier) : (setTier s f).mem = s.mem := rfl
@[simp] theorem setTier_hostMem (f : Tier → Tier) : (setTier s f).hostMem = s.hostMem := rfl
@[simp] theorem setTier_islands (f : Tier → Tier) : (setTier s f).islands = s.islands := rfl
@[simp] theorem setTier_arbs (f : Tier → Tier) : (setTier s f).arbs = s.arbs := rfl
@[simp] theorem setTier_merges (f : Tier → Tier) : (setTier s f).merges = s.merges := rfl
@[simp] theorem setTier_tiles (f : Tier → Tier) : (setTier s f).tiles = s.tiles := rfl
@[simp] theorem setTier_holds (f : Tier → Tier) : (setTier s f).holds = s.holds := rfl
@[simp] theorem setTier_staged (f : Tier → Tier) : (setTier s f).staged = s.staged := rfl
@[simp] theorem setTier_chains (f : Tier → Tier) : (setTier s f).chains = s.chains := rfl
@[simp] theorem setTier_partials (f : Tier → Tier) : (setTier s f).partials = s.partials := rfl
@[simp] theorem setTier_strata (f : Tier → Tier) : (setTier s f).strata = s.strata := rfl
@[simp] theorem setTier_fab (f : Tier → Tier) : (setTier s f).fab = s.fab := rfl
@[simp] theorem setTier_coll (f : Tier → Tier) : (setTier s f).coll = s.coll := rfl
@[simp] theorem setTier_ckpt (f : Tier → Tier) : (setTier s f).ckpt = s.ckpt := rfl
@[simp] theorem setTier_ing (f : Tier → Tier) : (setTier s f).ing = s.ing := rfl
@[simp] theorem setTier_host (f : Tier → Tier) : (setTier s f).host = s.host := rfl
@[simp] theorem setTier_parts (f : Tier → Tier) : (setTier s f).parts = s.parts := rfl
@[simp] theorem setTier_accounts (f : Tier → Tier) : (setTier s f).accounts = s.accounts := rfl
@[simp] theorem setTier_pwr (f : Tier → Tier) : (setTier s f).pwr = s.pwr := rfl
@[simp] theorem setTier_sec (f : Tier → Tier) : (setTier s f).sec = s.sec := rfl
@[simp] theorem setTier_fuses (f : Tier → Tier) : (setTier s f).fuses = s.fuses := rfl
@[simp] theorem setTier_boot (f : Tier → Tier) : (setTier s f).boot = s.boot := rfl
@[simp] theorem setTier_clspHold (f : Tier → Tier) : (setTier s f).clspHold = s.clspHold := rfl
@[simp] theorem setTier_flying (f : Tier → Tier) : (setTier s f).flying = s.flying := rfl
@[simp] theorem setTier_partSent (f : Tier → Tier) : (setTier s f).partSent = s.partSent := rfl
@[simp] theorem setTier_out (f : Tier → Tier) : (setTier s f).out = s.out := rfl

/-! ### setStrata -/

@[simp] theorem setStrata_pending (f : Strata → Strata) : (setStrata s f).pending = s.pending := rfl
@[simp] theorem setStrata_fresh (f : Strata → Strata) : (setStrata s f).fresh = s.fresh := rfl
@[simp] theorem setStrata_now (f : Strata → Strata) : (setStrata s f).now = s.now := rfl
@[simp] theorem setStrata_regs (f : Strata → Strata) : (setStrata s f).regs = s.regs := rfl
@[simp] theorem setStrata_mem (f : Strata → Strata) : (setStrata s f).mem = s.mem := rfl
@[simp] theorem setStrata_hostMem (f : Strata → Strata) : (setStrata s f).hostMem = s.hostMem := rfl
@[simp] theorem setStrata_islands (f : Strata → Strata) : (setStrata s f).islands = s.islands := rfl
@[simp] theorem setStrata_arbs (f : Strata → Strata) : (setStrata s f).arbs = s.arbs := rfl
@[simp] theorem setStrata_merges (f : Strata → Strata) : (setStrata s f).merges = s.merges := rfl
@[simp] theorem setStrata_tiles (f : Strata → Strata) : (setStrata s f).tiles = s.tiles := rfl
@[simp] theorem setStrata_holds (f : Strata → Strata) : (setStrata s f).holds = s.holds := rfl
@[simp] theorem setStrata_staged (f : Strata → Strata) : (setStrata s f).staged = s.staged := rfl
@[simp] theorem setStrata_chains (f : Strata → Strata) : (setStrata s f).chains = s.chains := rfl
@[simp] theorem setStrata_partials (f : Strata → Strata) : (setStrata s f).partials = s.partials := rfl
@[simp] theorem setStrata_tier (f : Strata → Strata) : (setStrata s f).tier = s.tier := rfl
@[simp] theorem setStrata_fab (f : Strata → Strata) : (setStrata s f).fab = s.fab := rfl
@[simp] theorem setStrata_coll (f : Strata → Strata) : (setStrata s f).coll = s.coll := rfl
@[simp] theorem setStrata_ckpt (f : Strata → Strata) : (setStrata s f).ckpt = s.ckpt := rfl
@[simp] theorem setStrata_ing (f : Strata → Strata) : (setStrata s f).ing = s.ing := rfl
@[simp] theorem setStrata_host (f : Strata → Strata) : (setStrata s f).host = s.host := rfl
@[simp] theorem setStrata_parts (f : Strata → Strata) : (setStrata s f).parts = s.parts := rfl
@[simp] theorem setStrata_accounts (f : Strata → Strata) : (setStrata s f).accounts = s.accounts := rfl
@[simp] theorem setStrata_pwr (f : Strata → Strata) : (setStrata s f).pwr = s.pwr := rfl
@[simp] theorem setStrata_sec (f : Strata → Strata) : (setStrata s f).sec = s.sec := rfl
@[simp] theorem setStrata_fuses (f : Strata → Strata) : (setStrata s f).fuses = s.fuses := rfl
@[simp] theorem setStrata_boot (f : Strata → Strata) : (setStrata s f).boot = s.boot := rfl
@[simp] theorem setStrata_clspHold (f : Strata → Strata) : (setStrata s f).clspHold = s.clspHold := rfl
@[simp] theorem setStrata_flying (f : Strata → Strata) : (setStrata s f).flying = s.flying := rfl
@[simp] theorem setStrata_partSent (f : Strata → Strata) : (setStrata s f).partSent = s.partSent := rfl
@[simp] theorem setStrata_out (f : Strata → Strata) : (setStrata s f).out = s.out := rfl

/-! ### modIsland -/

@[simp] theorem modIsland_pending (i : Island) (f : IslandSt → IslandSt) : (modIsland s i f).pending = s.pending := rfl
@[simp] theorem modIsland_fresh (i : Island) (f : IslandSt → IslandSt) : (modIsland s i f).fresh = s.fresh := rfl
@[simp] theorem modIsland_now (i : Island) (f : IslandSt → IslandSt) : (modIsland s i f).now = s.now := rfl
@[simp] theorem modIsland_regs (i : Island) (f : IslandSt → IslandSt) : (modIsland s i f).regs = s.regs := rfl
@[simp] theorem modIsland_mem (i : Island) (f : IslandSt → IslandSt) : (modIsland s i f).mem = s.mem := rfl
@[simp] theorem modIsland_hostMem (i : Island) (f : IslandSt → IslandSt) : (modIsland s i f).hostMem = s.hostMem := rfl
@[simp] theorem modIsland_arbs (i : Island) (f : IslandSt → IslandSt) : (modIsland s i f).arbs = s.arbs := rfl
@[simp] theorem modIsland_merges (i : Island) (f : IslandSt → IslandSt) : (modIsland s i f).merges = s.merges := rfl
@[simp] theorem modIsland_tiles (i : Island) (f : IslandSt → IslandSt) : (modIsland s i f).tiles = s.tiles := rfl
@[simp] theorem modIsland_holds (i : Island) (f : IslandSt → IslandSt) : (modIsland s i f).holds = s.holds := rfl
@[simp] theorem modIsland_staged (i : Island) (f : IslandSt → IslandSt) : (modIsland s i f).staged = s.staged := rfl
@[simp] theorem modIsland_chains (i : Island) (f : IslandSt → IslandSt) : (modIsland s i f).chains = s.chains := rfl
@[simp] theorem modIsland_partials (i : Island) (f : IslandSt → IslandSt) : (modIsland s i f).partials = s.partials := rfl
@[simp] theorem modIsland_strata (i : Island) (f : IslandSt → IslandSt) : (modIsland s i f).strata = s.strata := rfl
@[simp] theorem modIsland_tier (i : Island) (f : IslandSt → IslandSt) : (modIsland s i f).tier = s.tier := rfl
@[simp] theorem modIsland_fab (i : Island) (f : IslandSt → IslandSt) : (modIsland s i f).fab = s.fab := rfl
@[simp] theorem modIsland_coll (i : Island) (f : IslandSt → IslandSt) : (modIsland s i f).coll = s.coll := rfl
@[simp] theorem modIsland_ckpt (i : Island) (f : IslandSt → IslandSt) : (modIsland s i f).ckpt = s.ckpt := rfl
@[simp] theorem modIsland_ing (i : Island) (f : IslandSt → IslandSt) : (modIsland s i f).ing = s.ing := rfl
@[simp] theorem modIsland_host (i : Island) (f : IslandSt → IslandSt) : (modIsland s i f).host = s.host := rfl
@[simp] theorem modIsland_parts (i : Island) (f : IslandSt → IslandSt) : (modIsland s i f).parts = s.parts := rfl
@[simp] theorem modIsland_accounts (i : Island) (f : IslandSt → IslandSt) : (modIsland s i f).accounts = s.accounts := rfl
@[simp] theorem modIsland_pwr (i : Island) (f : IslandSt → IslandSt) : (modIsland s i f).pwr = s.pwr := rfl
@[simp] theorem modIsland_sec (i : Island) (f : IslandSt → IslandSt) : (modIsland s i f).sec = s.sec := rfl
@[simp] theorem modIsland_fuses (i : Island) (f : IslandSt → IslandSt) : (modIsland s i f).fuses = s.fuses := rfl
@[simp] theorem modIsland_boot (i : Island) (f : IslandSt → IslandSt) : (modIsland s i f).boot = s.boot := rfl
@[simp] theorem modIsland_clspHold (i : Island) (f : IslandSt → IslandSt) : (modIsland s i f).clspHold = s.clspHold := rfl
@[simp] theorem modIsland_flying (i : Island) (f : IslandSt → IslandSt) : (modIsland s i f).flying = s.flying := rfl
@[simp] theorem modIsland_partSent (i : Island) (f : IslandSt → IslandSt) : (modIsland s i f).partSent = s.partSent := rfl
@[simp] theorem modIsland_out (i : Island) (f : IslandSt → IslandSt) : (modIsland s i f).out = s.out := rfl

/-! ### emit -/

@[simp] theorem emit_pending (o : Output) : (emit s o).pending = s.pending := rfl
@[simp] theorem emit_fresh (o : Output) : (emit s o).fresh = s.fresh := rfl
@[simp] theorem emit_now (o : Output) : (emit s o).now = s.now := rfl
@[simp] theorem emit_regs (o : Output) : (emit s o).regs = s.regs := rfl
@[simp] theorem emit_mem (o : Output) : (emit s o).mem = s.mem := rfl
@[simp] theorem emit_hostMem (o : Output) : (emit s o).hostMem = s.hostMem := rfl
@[simp] theorem emit_islands (o : Output) : (emit s o).islands = s.islands := rfl
@[simp] theorem emit_arbs (o : Output) : (emit s o).arbs = s.arbs := rfl
@[simp] theorem emit_merges (o : Output) : (emit s o).merges = s.merges := rfl
@[simp] theorem emit_tiles (o : Output) : (emit s o).tiles = s.tiles := rfl
@[simp] theorem emit_holds (o : Output) : (emit s o).holds = s.holds := rfl
@[simp] theorem emit_staged (o : Output) : (emit s o).staged = s.staged := rfl
@[simp] theorem emit_chains (o : Output) : (emit s o).chains = s.chains := rfl
@[simp] theorem emit_partials (o : Output) : (emit s o).partials = s.partials := rfl
@[simp] theorem emit_strata (o : Output) : (emit s o).strata = s.strata := rfl
@[simp] theorem emit_tier (o : Output) : (emit s o).tier = s.tier := rfl
@[simp] theorem emit_fab (o : Output) : (emit s o).fab = s.fab := rfl
@[simp] theorem emit_coll (o : Output) : (emit s o).coll = s.coll := rfl
@[simp] theorem emit_ckpt (o : Output) : (emit s o).ckpt = s.ckpt := rfl
@[simp] theorem emit_ing (o : Output) : (emit s o).ing = s.ing := rfl
@[simp] theorem emit_host (o : Output) : (emit s o).host = s.host := rfl
@[simp] theorem emit_parts (o : Output) : (emit s o).parts = s.parts := rfl
@[simp] theorem emit_accounts (o : Output) : (emit s o).accounts = s.accounts := rfl
@[simp] theorem emit_pwr (o : Output) : (emit s o).pwr = s.pwr := rfl
@[simp] theorem emit_sec (o : Output) : (emit s o).sec = s.sec := rfl
@[simp] theorem emit_fuses (o : Output) : (emit s o).fuses = s.fuses := rfl
@[simp] theorem emit_boot (o : Output) : (emit s o).boot = s.boot := rfl
@[simp] theorem emit_clspHold (o : Output) : (emit s o).clspHold = s.clspHold := rfl
@[simp] theorem emit_flying (o : Output) : (emit s o).flying = s.flying := rfl
@[simp] theorem emit_partSent (o : Output) : (emit s o).partSent = s.partSent := rfl

/-! ### regSet -/

@[simp] theorem regSet_pending (r : Reg) (v : Nat) : (regSet s r v).pending = s.pending := rfl
@[simp] theorem regSet_fresh (r : Reg) (v : Nat) : (regSet s r v).fresh = s.fresh := rfl
@[simp] theorem regSet_now (r : Reg) (v : Nat) : (regSet s r v).now = s.now := rfl
@[simp] theorem regSet_mem (r : Reg) (v : Nat) : (regSet s r v).mem = s.mem := rfl
@[simp] theorem regSet_hostMem (r : Reg) (v : Nat) : (regSet s r v).hostMem = s.hostMem := rfl
@[simp] theorem regSet_islands (r : Reg) (v : Nat) : (regSet s r v).islands = s.islands := rfl
@[simp] theorem regSet_arbs (r : Reg) (v : Nat) : (regSet s r v).arbs = s.arbs := rfl
@[simp] theorem regSet_merges (r : Reg) (v : Nat) : (regSet s r v).merges = s.merges := rfl
@[simp] theorem regSet_tiles (r : Reg) (v : Nat) : (regSet s r v).tiles = s.tiles := rfl
@[simp] theorem regSet_holds (r : Reg) (v : Nat) : (regSet s r v).holds = s.holds := rfl
@[simp] theorem regSet_staged (r : Reg) (v : Nat) : (regSet s r v).staged = s.staged := rfl
@[simp] theorem regSet_chains (r : Reg) (v : Nat) : (regSet s r v).chains = s.chains := rfl
@[simp] theorem regSet_partials (r : Reg) (v : Nat) : (regSet s r v).partials = s.partials := rfl
@[simp] theorem regSet_strata (r : Reg) (v : Nat) : (regSet s r v).strata = s.strata := rfl
@[simp] theorem regSet_tier (r : Reg) (v : Nat) : (regSet s r v).tier = s.tier := rfl
@[simp] theorem regSet_fab (r : Reg) (v : Nat) : (regSet s r v).fab = s.fab := rfl
@[simp] theorem regSet_coll (r : Reg) (v : Nat) : (regSet s r v).coll = s.coll := rfl
@[simp] theorem regSet_ckpt (r : Reg) (v : Nat) : (regSet s r v).ckpt = s.ckpt := rfl
@[simp] theorem regSet_ing (r : Reg) (v : Nat) : (regSet s r v).ing = s.ing := rfl
@[simp] theorem regSet_host (r : Reg) (v : Nat) : (regSet s r v).host = s.host := rfl
@[simp] theorem regSet_parts (r : Reg) (v : Nat) : (regSet s r v).parts = s.parts := rfl
@[simp] theorem regSet_accounts (r : Reg) (v : Nat) : (regSet s r v).accounts = s.accounts := rfl
@[simp] theorem regSet_pwr (r : Reg) (v : Nat) : (regSet s r v).pwr = s.pwr := rfl
@[simp] theorem regSet_sec (r : Reg) (v : Nat) : (regSet s r v).sec = s.sec := rfl
@[simp] theorem regSet_fuses (r : Reg) (v : Nat) : (regSet s r v).fuses = s.fuses := rfl
@[simp] theorem regSet_boot (r : Reg) (v : Nat) : (regSet s r v).boot = s.boot := rfl
@[simp] theorem regSet_clspHold (r : Reg) (v : Nat) : (regSet s r v).clspHold = s.clspHold := rfl
@[simp] theorem regSet_flying (r : Reg) (v : Nat) : (regSet s r v).flying = s.flying := rfl
@[simp] theorem regSet_partSent (r : Reg) (v : Nat) : (regSet s r v).partSent = s.partSent := rfl
@[simp] theorem regSet_out (r : Reg) (v : Nat) : (regSet s r v).out = s.out := rfl

/-! ### regPut -/

@[simp] theorem regPut_pending (r : Reg) (lo len x : Nat) : (regPut s r lo len x).pending = s.pending := rfl
@[simp] theorem regPut_fresh (r : Reg) (lo len x : Nat) : (regPut s r lo len x).fresh = s.fresh := rfl
@[simp] theorem regPut_now (r : Reg) (lo len x : Nat) : (regPut s r lo len x).now = s.now := rfl
@[simp] theorem regPut_mem (r : Reg) (lo len x : Nat) : (regPut s r lo len x).mem = s.mem := rfl
@[simp] theorem regPut_hostMem (r : Reg) (lo len x : Nat) : (regPut s r lo len x).hostMem = s.hostMem := rfl
@[simp] theorem regPut_islands (r : Reg) (lo len x : Nat) : (regPut s r lo len x).islands = s.islands := rfl
@[simp] theorem regPut_arbs (r : Reg) (lo len x : Nat) : (regPut s r lo len x).arbs = s.arbs := rfl
@[simp] theorem regPut_merges (r : Reg) (lo len x : Nat) : (regPut s r lo len x).merges = s.merges := rfl
@[simp] theorem regPut_tiles (r : Reg) (lo len x : Nat) : (regPut s r lo len x).tiles = s.tiles := rfl
@[simp] theorem regPut_holds (r : Reg) (lo len x : Nat) : (regPut s r lo len x).holds = s.holds := rfl
@[simp] theorem regPut_staged (r : Reg) (lo len x : Nat) : (regPut s r lo len x).staged = s.staged := rfl
@[simp] theorem regPut_chains (r : Reg) (lo len x : Nat) : (regPut s r lo len x).chains = s.chains := rfl
@[simp] theorem regPut_partials (r : Reg) (lo len x : Nat) : (regPut s r lo len x).partials = s.partials := rfl
@[simp] theorem regPut_strata (r : Reg) (lo len x : Nat) : (regPut s r lo len x).strata = s.strata := rfl
@[simp] theorem regPut_tier (r : Reg) (lo len x : Nat) : (regPut s r lo len x).tier = s.tier := rfl
@[simp] theorem regPut_fab (r : Reg) (lo len x : Nat) : (regPut s r lo len x).fab = s.fab := rfl
@[simp] theorem regPut_coll (r : Reg) (lo len x : Nat) : (regPut s r lo len x).coll = s.coll := rfl
@[simp] theorem regPut_ckpt (r : Reg) (lo len x : Nat) : (regPut s r lo len x).ckpt = s.ckpt := rfl
@[simp] theorem regPut_ing (r : Reg) (lo len x : Nat) : (regPut s r lo len x).ing = s.ing := rfl
@[simp] theorem regPut_host (r : Reg) (lo len x : Nat) : (regPut s r lo len x).host = s.host := rfl
@[simp] theorem regPut_parts (r : Reg) (lo len x : Nat) : (regPut s r lo len x).parts = s.parts := rfl
@[simp] theorem regPut_accounts (r : Reg) (lo len x : Nat) : (regPut s r lo len x).accounts = s.accounts := rfl
@[simp] theorem regPut_pwr (r : Reg) (lo len x : Nat) : (regPut s r lo len x).pwr = s.pwr := rfl
@[simp] theorem regPut_sec (r : Reg) (lo len x : Nat) : (regPut s r lo len x).sec = s.sec := rfl
@[simp] theorem regPut_fuses (r : Reg) (lo len x : Nat) : (regPut s r lo len x).fuses = s.fuses := rfl
@[simp] theorem regPut_boot (r : Reg) (lo len x : Nat) : (regPut s r lo len x).boot = s.boot := rfl
@[simp] theorem regPut_clspHold (r : Reg) (lo len x : Nat) : (regPut s r lo len x).clspHold = s.clspHold := rfl
@[simp] theorem regPut_flying (r : Reg) (lo len x : Nat) : (regPut s r lo len x).flying = s.flying := rfl
@[simp] theorem regPut_partSent (r : Reg) (lo len x : Nat) : (regPut s r lo len x).partSent = s.partSent := rfl
@[simp] theorem regPut_out (r : Reg) (lo len x : Nat) : (regPut s r lo len x).out = s.out := rfl

/-! ### regOr -/

@[simp] theorem regOr_pending (r : Reg) (m : Nat) : (regOr s r m).pending = s.pending := rfl
@[simp] theorem regOr_fresh (r : Reg) (m : Nat) : (regOr s r m).fresh = s.fresh := rfl
@[simp] theorem regOr_now (r : Reg) (m : Nat) : (regOr s r m).now = s.now := rfl
@[simp] theorem regOr_mem (r : Reg) (m : Nat) : (regOr s r m).mem = s.mem := rfl
@[simp] theorem regOr_hostMem (r : Reg) (m : Nat) : (regOr s r m).hostMem = s.hostMem := rfl
@[simp] theorem regOr_islands (r : Reg) (m : Nat) : (regOr s r m).islands = s.islands := rfl
@[simp] theorem regOr_arbs (r : Reg) (m : Nat) : (regOr s r m).arbs = s.arbs := rfl
@[simp] theorem regOr_merges (r : Reg) (m : Nat) : (regOr s r m).merges = s.merges := rfl
@[simp] theorem regOr_tiles (r : Reg) (m : Nat) : (regOr s r m).tiles = s.tiles := rfl
@[simp] theorem regOr_holds (r : Reg) (m : Nat) : (regOr s r m).holds = s.holds := rfl
@[simp] theorem regOr_staged (r : Reg) (m : Nat) : (regOr s r m).staged = s.staged := rfl
@[simp] theorem regOr_chains (r : Reg) (m : Nat) : (regOr s r m).chains = s.chains := rfl
@[simp] theorem regOr_partials (r : Reg) (m : Nat) : (regOr s r m).partials = s.partials := rfl
@[simp] theorem regOr_strata (r : Reg) (m : Nat) : (regOr s r m).strata = s.strata := rfl
@[simp] theorem regOr_tier (r : Reg) (m : Nat) : (regOr s r m).tier = s.tier := rfl
@[simp] theorem regOr_fab (r : Reg) (m : Nat) : (regOr s r m).fab = s.fab := rfl
@[simp] theorem regOr_coll (r : Reg) (m : Nat) : (regOr s r m).coll = s.coll := rfl
@[simp] theorem regOr_ckpt (r : Reg) (m : Nat) : (regOr s r m).ckpt = s.ckpt := rfl
@[simp] theorem regOr_ing (r : Reg) (m : Nat) : (regOr s r m).ing = s.ing := rfl
@[simp] theorem regOr_host (r : Reg) (m : Nat) : (regOr s r m).host = s.host := rfl
@[simp] theorem regOr_parts (r : Reg) (m : Nat) : (regOr s r m).parts = s.parts := rfl
@[simp] theorem regOr_accounts (r : Reg) (m : Nat) : (regOr s r m).accounts = s.accounts := rfl
@[simp] theorem regOr_pwr (r : Reg) (m : Nat) : (regOr s r m).pwr = s.pwr := rfl
@[simp] theorem regOr_sec (r : Reg) (m : Nat) : (regOr s r m).sec = s.sec := rfl
@[simp] theorem regOr_fuses (r : Reg) (m : Nat) : (regOr s r m).fuses = s.fuses := rfl
@[simp] theorem regOr_boot (r : Reg) (m : Nat) : (regOr s r m).boot = s.boot := rfl
@[simp] theorem regOr_clspHold (r : Reg) (m : Nat) : (regOr s r m).clspHold = s.clspHold := rfl
@[simp] theorem regOr_flying (r : Reg) (m : Nat) : (regOr s r m).flying = s.flying := rfl
@[simp] theorem regOr_partSent (r : Reg) (m : Nat) : (regOr s r m).partSent = s.partSent := rfl
@[simp] theorem regOr_out (r : Reg) (m : Nat) : (regOr s r m).out = s.out := rfl

/-! ### regAddSat -/

@[simp] theorem regAddSat_pending (r : Reg) (lo len n : Nat) : (regAddSat s r lo len n).pending = s.pending := rfl
@[simp] theorem regAddSat_fresh (r : Reg) (lo len n : Nat) : (regAddSat s r lo len n).fresh = s.fresh := rfl
@[simp] theorem regAddSat_now (r : Reg) (lo len n : Nat) : (regAddSat s r lo len n).now = s.now := rfl
@[simp] theorem regAddSat_mem (r : Reg) (lo len n : Nat) : (regAddSat s r lo len n).mem = s.mem := rfl
@[simp] theorem regAddSat_hostMem (r : Reg) (lo len n : Nat) : (regAddSat s r lo len n).hostMem = s.hostMem := rfl
@[simp] theorem regAddSat_islands (r : Reg) (lo len n : Nat) : (regAddSat s r lo len n).islands = s.islands := rfl
@[simp] theorem regAddSat_arbs (r : Reg) (lo len n : Nat) : (regAddSat s r lo len n).arbs = s.arbs := rfl
@[simp] theorem regAddSat_merges (r : Reg) (lo len n : Nat) : (regAddSat s r lo len n).merges = s.merges := rfl
@[simp] theorem regAddSat_tiles (r : Reg) (lo len n : Nat) : (regAddSat s r lo len n).tiles = s.tiles := rfl
@[simp] theorem regAddSat_holds (r : Reg) (lo len n : Nat) : (regAddSat s r lo len n).holds = s.holds := rfl
@[simp] theorem regAddSat_staged (r : Reg) (lo len n : Nat) : (regAddSat s r lo len n).staged = s.staged := rfl
@[simp] theorem regAddSat_chains (r : Reg) (lo len n : Nat) : (regAddSat s r lo len n).chains = s.chains := rfl
@[simp] theorem regAddSat_partials (r : Reg) (lo len n : Nat) : (regAddSat s r lo len n).partials = s.partials := rfl
@[simp] theorem regAddSat_strata (r : Reg) (lo len n : Nat) : (regAddSat s r lo len n).strata = s.strata := rfl
@[simp] theorem regAddSat_tier (r : Reg) (lo len n : Nat) : (regAddSat s r lo len n).tier = s.tier := rfl
@[simp] theorem regAddSat_fab (r : Reg) (lo len n : Nat) : (regAddSat s r lo len n).fab = s.fab := rfl
@[simp] theorem regAddSat_coll (r : Reg) (lo len n : Nat) : (regAddSat s r lo len n).coll = s.coll := rfl
@[simp] theorem regAddSat_ckpt (r : Reg) (lo len n : Nat) : (regAddSat s r lo len n).ckpt = s.ckpt := rfl
@[simp] theorem regAddSat_ing (r : Reg) (lo len n : Nat) : (regAddSat s r lo len n).ing = s.ing := rfl
@[simp] theorem regAddSat_host (r : Reg) (lo len n : Nat) : (regAddSat s r lo len n).host = s.host := rfl
@[simp] theorem regAddSat_parts (r : Reg) (lo len n : Nat) : (regAddSat s r lo len n).parts = s.parts := rfl
@[simp] theorem regAddSat_accounts (r : Reg) (lo len n : Nat) : (regAddSat s r lo len n).accounts = s.accounts := rfl
@[simp] theorem regAddSat_pwr (r : Reg) (lo len n : Nat) : (regAddSat s r lo len n).pwr = s.pwr := rfl
@[simp] theorem regAddSat_sec (r : Reg) (lo len n : Nat) : (regAddSat s r lo len n).sec = s.sec := rfl
@[simp] theorem regAddSat_fuses (r : Reg) (lo len n : Nat) : (regAddSat s r lo len n).fuses = s.fuses := rfl
@[simp] theorem regAddSat_boot (r : Reg) (lo len n : Nat) : (regAddSat s r lo len n).boot = s.boot := rfl
@[simp] theorem regAddSat_clspHold (r : Reg) (lo len n : Nat) : (regAddSat s r lo len n).clspHold = s.clspHold := rfl
@[simp] theorem regAddSat_flying (r : Reg) (lo len n : Nat) : (regAddSat s r lo len n).flying = s.flying := rfl
@[simp] theorem regAddSat_partSent (r : Reg) (lo len n : Nat) : (regAddSat s r lo len n).partSent = s.partSent := rfl
@[simp] theorem regAddSat_out (r : Reg) (lo len n : Nat) : (regAddSat s r lo len n).out = s.out := rfl

/-! ### regAddWrap -/

@[simp] theorem regAddWrap_pending (r : Reg) (lo len n : Nat) : (regAddWrap s r lo len n).pending = s.pending := rfl
@[simp] theorem regAddWrap_fresh (r : Reg) (lo len n : Nat) : (regAddWrap s r lo len n).fresh = s.fresh := rfl
@[simp] theorem regAddWrap_now (r : Reg) (lo len n : Nat) : (regAddWrap s r lo len n).now = s.now := rfl
@[simp] theorem regAddWrap_mem (r : Reg) (lo len n : Nat) : (regAddWrap s r lo len n).mem = s.mem := rfl
@[simp] theorem regAddWrap_hostMem (r : Reg) (lo len n : Nat) : (regAddWrap s r lo len n).hostMem = s.hostMem := rfl
@[simp] theorem regAddWrap_islands (r : Reg) (lo len n : Nat) : (regAddWrap s r lo len n).islands = s.islands := rfl
@[simp] theorem regAddWrap_arbs (r : Reg) (lo len n : Nat) : (regAddWrap s r lo len n).arbs = s.arbs := rfl
@[simp] theorem regAddWrap_merges (r : Reg) (lo len n : Nat) : (regAddWrap s r lo len n).merges = s.merges := rfl
@[simp] theorem regAddWrap_tiles (r : Reg) (lo len n : Nat) : (regAddWrap s r lo len n).tiles = s.tiles := rfl
@[simp] theorem regAddWrap_holds (r : Reg) (lo len n : Nat) : (regAddWrap s r lo len n).holds = s.holds := rfl
@[simp] theorem regAddWrap_staged (r : Reg) (lo len n : Nat) : (regAddWrap s r lo len n).staged = s.staged := rfl
@[simp] theorem regAddWrap_chains (r : Reg) (lo len n : Nat) : (regAddWrap s r lo len n).chains = s.chains := rfl
@[simp] theorem regAddWrap_partials (r : Reg) (lo len n : Nat) : (regAddWrap s r lo len n).partials = s.partials := rfl
@[simp] theorem regAddWrap_strata (r : Reg) (lo len n : Nat) : (regAddWrap s r lo len n).strata = s.strata := rfl
@[simp] theorem regAddWrap_tier (r : Reg) (lo len n : Nat) : (regAddWrap s r lo len n).tier = s.tier := rfl
@[simp] theorem regAddWrap_fab (r : Reg) (lo len n : Nat) : (regAddWrap s r lo len n).fab = s.fab := rfl
@[simp] theorem regAddWrap_coll (r : Reg) (lo len n : Nat) : (regAddWrap s r lo len n).coll = s.coll := rfl
@[simp] theorem regAddWrap_ckpt (r : Reg) (lo len n : Nat) : (regAddWrap s r lo len n).ckpt = s.ckpt := rfl
@[simp] theorem regAddWrap_ing (r : Reg) (lo len n : Nat) : (regAddWrap s r lo len n).ing = s.ing := rfl
@[simp] theorem regAddWrap_host (r : Reg) (lo len n : Nat) : (regAddWrap s r lo len n).host = s.host := rfl
@[simp] theorem regAddWrap_parts (r : Reg) (lo len n : Nat) : (regAddWrap s r lo len n).parts = s.parts := rfl
@[simp] theorem regAddWrap_accounts (r : Reg) (lo len n : Nat) : (regAddWrap s r lo len n).accounts = s.accounts := rfl
@[simp] theorem regAddWrap_pwr (r : Reg) (lo len n : Nat) : (regAddWrap s r lo len n).pwr = s.pwr := rfl
@[simp] theorem regAddWrap_sec (r : Reg) (lo len n : Nat) : (regAddWrap s r lo len n).sec = s.sec := rfl
@[simp] theorem regAddWrap_fuses (r : Reg) (lo len n : Nat) : (regAddWrap s r lo len n).fuses = s.fuses := rfl
@[simp] theorem regAddWrap_boot (r : Reg) (lo len n : Nat) : (regAddWrap s r lo len n).boot = s.boot := rfl
@[simp] theorem regAddWrap_clspHold (r : Reg) (lo len n : Nat) : (regAddWrap s r lo len n).clspHold = s.clspHold := rfl
@[simp] theorem regAddWrap_flying (r : Reg) (lo len n : Nat) : (regAddWrap s r lo len n).flying = s.flying := rfl
@[simp] theorem regAddWrap_partSent (r : Reg) (lo len n : Nat) : (regAddWrap s r lo len n).partSent = s.partSent := rfl
@[simp] theorem regAddWrap_out (r : Reg) (lo len n : Nat) : (regAddWrap s r lo len n).out = s.out := rfl

/-! ### regWritePlain -/

@[simp] theorem regWritePlain_pending (r : Reg) (v hw : Nat) : (regWritePlain s r v hw).pending = s.pending := rfl
@[simp] theorem regWritePlain_fresh (r : Reg) (v hw : Nat) : (regWritePlain s r v hw).fresh = s.fresh := rfl
@[simp] theorem regWritePlain_now (r : Reg) (v hw : Nat) : (regWritePlain s r v hw).now = s.now := rfl
@[simp] theorem regWritePlain_mem (r : Reg) (v hw : Nat) : (regWritePlain s r v hw).mem = s.mem := rfl
@[simp] theorem regWritePlain_hostMem (r : Reg) (v hw : Nat) : (regWritePlain s r v hw).hostMem = s.hostMem := rfl
@[simp] theorem regWritePlain_islands (r : Reg) (v hw : Nat) : (regWritePlain s r v hw).islands = s.islands := rfl
@[simp] theorem regWritePlain_arbs (r : Reg) (v hw : Nat) : (regWritePlain s r v hw).arbs = s.arbs := rfl
@[simp] theorem regWritePlain_merges (r : Reg) (v hw : Nat) : (regWritePlain s r v hw).merges = s.merges := rfl
@[simp] theorem regWritePlain_tiles (r : Reg) (v hw : Nat) : (regWritePlain s r v hw).tiles = s.tiles := rfl
@[simp] theorem regWritePlain_holds (r : Reg) (v hw : Nat) : (regWritePlain s r v hw).holds = s.holds := rfl
@[simp] theorem regWritePlain_staged (r : Reg) (v hw : Nat) : (regWritePlain s r v hw).staged = s.staged := rfl
@[simp] theorem regWritePlain_chains (r : Reg) (v hw : Nat) : (regWritePlain s r v hw).chains = s.chains := rfl
@[simp] theorem regWritePlain_partials (r : Reg) (v hw : Nat) : (regWritePlain s r v hw).partials = s.partials := rfl
@[simp] theorem regWritePlain_strata (r : Reg) (v hw : Nat) : (regWritePlain s r v hw).strata = s.strata := rfl
@[simp] theorem regWritePlain_tier (r : Reg) (v hw : Nat) : (regWritePlain s r v hw).tier = s.tier := rfl
@[simp] theorem regWritePlain_fab (r : Reg) (v hw : Nat) : (regWritePlain s r v hw).fab = s.fab := rfl
@[simp] theorem regWritePlain_coll (r : Reg) (v hw : Nat) : (regWritePlain s r v hw).coll = s.coll := rfl
@[simp] theorem regWritePlain_ckpt (r : Reg) (v hw : Nat) : (regWritePlain s r v hw).ckpt = s.ckpt := rfl
@[simp] theorem regWritePlain_ing (r : Reg) (v hw : Nat) : (regWritePlain s r v hw).ing = s.ing := rfl
@[simp] theorem regWritePlain_host (r : Reg) (v hw : Nat) : (regWritePlain s r v hw).host = s.host := rfl
@[simp] theorem regWritePlain_parts (r : Reg) (v hw : Nat) : (regWritePlain s r v hw).parts = s.parts := rfl
@[simp] theorem regWritePlain_accounts (r : Reg) (v hw : Nat) : (regWritePlain s r v hw).accounts = s.accounts := rfl
@[simp] theorem regWritePlain_pwr (r : Reg) (v hw : Nat) : (regWritePlain s r v hw).pwr = s.pwr := rfl
@[simp] theorem regWritePlain_sec (r : Reg) (v hw : Nat) : (regWritePlain s r v hw).sec = s.sec := rfl
@[simp] theorem regWritePlain_fuses (r : Reg) (v hw : Nat) : (regWritePlain s r v hw).fuses = s.fuses := rfl
@[simp] theorem regWritePlain_boot (r : Reg) (v hw : Nat) : (regWritePlain s r v hw).boot = s.boot := rfl
@[simp] theorem regWritePlain_clspHold (r : Reg) (v hw : Nat) : (regWritePlain s r v hw).clspHold = s.clspHold := rfl
@[simp] theorem regWritePlain_flying (r : Reg) (v hw : Nat) : (regWritePlain s r v hw).flying = s.flying := rfl
@[simp] theorem regWritePlain_partSent (r : Reg) (v hw : Nat) : (regWritePlain s r v hw).partSent = s.partSent := rfl
@[simp] theorem regWritePlain_out (r : Reg) (v hw : Nat) : (regWritePlain s r v hw).out = s.out := rfl

/-! ### takeFree -/

@[simp] theorem takeFree_pending : ((takeFree s).2).pending = s.pending := rfl
@[simp] theorem takeFree_now : ((takeFree s).2).now = s.now := rfl
@[simp] theorem takeFree_regs : ((takeFree s).2).regs = s.regs := rfl
@[simp] theorem takeFree_mem : ((takeFree s).2).mem = s.mem := rfl
@[simp] theorem takeFree_hostMem : ((takeFree s).2).hostMem = s.hostMem := rfl
@[simp] theorem takeFree_islands : ((takeFree s).2).islands = s.islands := rfl
@[simp] theorem takeFree_arbs : ((takeFree s).2).arbs = s.arbs := rfl
@[simp] theorem takeFree_merges : ((takeFree s).2).merges = s.merges := rfl
@[simp] theorem takeFree_tiles : ((takeFree s).2).tiles = s.tiles := rfl
@[simp] theorem takeFree_holds : ((takeFree s).2).holds = s.holds := rfl
@[simp] theorem takeFree_staged : ((takeFree s).2).staged = s.staged := rfl
@[simp] theorem takeFree_chains : ((takeFree s).2).chains = s.chains := rfl
@[simp] theorem takeFree_partials : ((takeFree s).2).partials = s.partials := rfl
@[simp] theorem takeFree_strata : ((takeFree s).2).strata = s.strata := rfl
@[simp] theorem takeFree_tier : ((takeFree s).2).tier = s.tier := rfl
@[simp] theorem takeFree_fab : ((takeFree s).2).fab = s.fab := rfl
@[simp] theorem takeFree_coll : ((takeFree s).2).coll = s.coll := rfl
@[simp] theorem takeFree_ckpt : ((takeFree s).2).ckpt = s.ckpt := rfl
@[simp] theorem takeFree_ing : ((takeFree s).2).ing = s.ing := rfl
@[simp] theorem takeFree_host : ((takeFree s).2).host = s.host := rfl
@[simp] theorem takeFree_parts : ((takeFree s).2).parts = s.parts := rfl
@[simp] theorem takeFree_accounts : ((takeFree s).2).accounts = s.accounts := rfl
@[simp] theorem takeFree_pwr : ((takeFree s).2).pwr = s.pwr := rfl
@[simp] theorem takeFree_sec : ((takeFree s).2).sec = s.sec := rfl
@[simp] theorem takeFree_fuses : ((takeFree s).2).fuses = s.fuses := rfl
@[simp] theorem takeFree_boot : ((takeFree s).2).boot = s.boot := rfl
@[simp] theorem takeFree_clspHold : ((takeFree s).2).clspHold = s.clspHold := rfl
@[simp] theorem takeFree_flying : ((takeFree s).2).flying = s.flying := rfl
@[simp] theorem takeFree_partSent : ((takeFree s).2).partSent = s.partSent := rfl
@[simp] theorem takeFree_out : ((takeFree s).2).out = s.out := rfl

/-! ### What each named update leaves, as the accessors read it -/

@[simp] theorem tileAt_modPart (p : Nat) (f : Part → Part) (k : Nat) : tileAt (modPart s p f) k = tileAt s k := rfl
@[simp] theorem tileAt_modRun (p : Nat) (f : Step → Step) (k : Nat) : tileAt (modRun s p f) k = tileAt s k := rfl
@[simp] theorem tileAt_modQueue (q : Nat) (f : Queue → Queue) (k : Nat) : tileAt (modQueue s q f) k = tileAt s k := rfl
@[simp] theorem tileAt_modMsix (fn v : Nat) (f : MsixVec → MsixVec) (k : Nat) : tileAt (modMsix s fn v f) k = tileAt s k := rfl
@[simp] theorem tileAt_setHost (f : HostPort → HostPort) (k : Nat) : tileAt (setHost s f) k = tileAt s k := rfl
@[simp] theorem tileAt_modCmd (cid : Nat) (f : Cmd → Cmd) (k : Nat) : tileAt (modCmd s cid f) k = tileAt s k := rfl
@[simp] theorem tileAt_dropCmd (cid : Nat) (k : Nat) : tileAt (dropCmd s cid) k = tileAt s k := rfl
@[simp] theorem tileAt_beginCmd (cid : Nat) (k : Nat) : tileAt (beginCmd s cid) k = tileAt s k := rfl
@[simp] theorem tileAt_modLink (l : Nat) (f : Link → Link) (k : Nat) : tileAt (modLink s l f) k = tileAt s k := rfl
@[simp] theorem tileAt_setFab (f : Fabric → Fabric) (k : Nat) : tileAt (setFab s f) k = tileAt s k := rfl
@[simp] theorem tileAt_modColl (p n : Nat) (f : CollStream → CollStream) (k : Nat) : tileAt (modColl s p n f) k = tileAt s k := rfl
@[simp] theorem tileAt_setCkpt (f : Ckpt → Ckpt) (k : Nat) : tileAt (setCkpt s f) k = tileAt s k := rfl
@[simp] theorem tileAt_modPipe (p : Nat) (f : Pipe → Pipe) (k : Nat) : tileAt (modPipe s p f) k = tileAt s k := rfl
@[simp] theorem tileAt_modSlot (n : Nat) (f : KeySlot → KeySlot) (k : Nat) : tileAt (modSlot s n f) k = tileAt s k := rfl
@[simp] theorem tileAt_setSec (f : Security → Security) (k : Nat) : tileAt (setSec s f) k = tileAt s k := rfl
@[simp] theorem tileAt_setBoot (f : Boot → Boot) (k : Nat) : tileAt (setBoot s f) k = tileAt s k := rfl
@[simp] theorem tileAt_setPwr (f : Power → Power) (k : Nat) : tileAt (setPwr s f) k = tileAt s k := rfl
@[simp] theorem tileAt_setTier (f : Tier → Tier) (k : Nat) : tileAt (setTier s f) k = tileAt s k := rfl
@[simp] theorem tileAt_setStrata (f : Strata → Strata) (k : Nat) : tileAt (setStrata s f) k = tileAt s k := rfl
@[simp] theorem tileAt_modIsland (i : Island) (f : IslandSt → IslandSt) (k : Nat) : tileAt (modIsland s i f) k = tileAt s k := rfl
@[simp] theorem tileAt_emit (o : Output) (k : Nat) : tileAt (emit s o) k = tileAt s k := rfl
@[simp] theorem tileAt_regSet (r : Reg) (v : Nat) (k : Nat) : tileAt (regSet s r v) k = tileAt s k := rfl
@[simp] theorem tileAt_regPut (r : Reg) (lo len x : Nat) (k : Nat) : tileAt (regPut s r lo len x) k = tileAt s k := rfl
@[simp] theorem tileAt_regOr (r : Reg) (m : Nat) (k : Nat) : tileAt (regOr s r m) k = tileAt s k := rfl
@[simp] theorem tileAt_regAddSat (r : Reg) (lo len n : Nat) (k : Nat) : tileAt (regAddSat s r lo len n) k = tileAt s k := rfl
@[simp] theorem tileAt_regAddWrap (r : Reg) (lo len n : Nat) (k : Nat) : tileAt (regAddWrap s r lo len n) k = tileAt s k := rfl
@[simp] theorem tileAt_regWritePlain (r : Reg) (v hw : Nat) (k : Nat) : tileAt (regWritePlain s r v hw) k = tileAt s k := rfl
@[simp] theorem tileAt_takeFree (k : Nat) : tileAt ((takeFree s).2) k = tileAt s k := rfl
@[simp] theorem liveTile_modTile (t : Nat) (f : Tile → Tile) (k : Nat) : liveTile (modTile s t f) k = liveTile s k := rfl
@[simp] theorem liveTile_modPart (p : Nat) (f : Part → Part) (k : Nat) : liveTile (modPart s p f) k = liveTile s k := rfl
@[simp] theorem liveTile_modRun (p : Nat) (f : Step → Step) (k : Nat) : liveTile (modRun s p f) k = liveTile s k := rfl
@[simp] theorem liveTile_modQueue (q : Nat) (f : Queue → Queue) (k : Nat) : liveTile (modQueue s q f) k = liveTile s k := rfl
@[simp] theorem liveTile_modMsix (fn v : Nat) (f : MsixVec → MsixVec) (k : Nat) : liveTile (modMsix s fn v f) k = liveTile s k := rfl
@[simp] theorem liveTile_setHost (f : HostPort → HostPort) (k : Nat) : liveTile (setHost s f) k = liveTile s k := rfl
@[simp] theorem liveTile_modCmd (cid : Nat) (f : Cmd → Cmd) (k : Nat) : liveTile (modCmd s cid f) k = liveTile s k := rfl
@[simp] theorem liveTile_dropCmd (cid : Nat) (k : Nat) : liveTile (dropCmd s cid) k = liveTile s k := rfl
@[simp] theorem liveTile_beginCmd (cid : Nat) (k : Nat) : liveTile (beginCmd s cid) k = liveTile s k := rfl
@[simp] theorem liveTile_modLink (l : Nat) (f : Link → Link) (k : Nat) : liveTile (modLink s l f) k = liveTile s k := rfl
@[simp] theorem liveTile_setFab (f : Fabric → Fabric) (k : Nat) : liveTile (setFab s f) k = liveTile s k := rfl
@[simp] theorem liveTile_modColl (p n : Nat) (f : CollStream → CollStream) (k : Nat) : liveTile (modColl s p n f) k = liveTile s k := rfl
@[simp] theorem liveTile_setCkpt (f : Ckpt → Ckpt) (k : Nat) : liveTile (setCkpt s f) k = liveTile s k := rfl
@[simp] theorem liveTile_modPipe (p : Nat) (f : Pipe → Pipe) (k : Nat) : liveTile (modPipe s p f) k = liveTile s k := rfl
@[simp] theorem liveTile_modSlot (n : Nat) (f : KeySlot → KeySlot) (k : Nat) : liveTile (modSlot s n f) k = liveTile s k := rfl
@[simp] theorem liveTile_setSec (f : Security → Security) (k : Nat) : liveTile (setSec s f) k = liveTile s k := rfl
@[simp] theorem liveTile_setBoot (f : Boot → Boot) (k : Nat) : liveTile (setBoot s f) k = liveTile s k := rfl
@[simp] theorem liveTile_setPwr (f : Power → Power) (k : Nat) : liveTile (setPwr s f) k = liveTile s k := rfl
@[simp] theorem liveTile_setTier (f : Tier → Tier) (k : Nat) : liveTile (setTier s f) k = liveTile s k := rfl
@[simp] theorem liveTile_modIsland (i : Island) (f : IslandSt → IslandSt) (k : Nat) : liveTile (modIsland s i f) k = liveTile s k := rfl
@[simp] theorem liveTile_emit (o : Output) (k : Nat) : liveTile (emit s o) k = liveTile s k := rfl
@[simp] theorem liveTile_regSet (r : Reg) (v : Nat) (k : Nat) : liveTile (regSet s r v) k = liveTile s k := rfl
@[simp] theorem liveTile_regPut (r : Reg) (lo len x : Nat) (k : Nat) : liveTile (regPut s r lo len x) k = liveTile s k := rfl
@[simp] theorem liveTile_regOr (r : Reg) (m : Nat) (k : Nat) : liveTile (regOr s r m) k = liveTile s k := rfl
@[simp] theorem liveTile_regAddSat (r : Reg) (lo len n : Nat) (k : Nat) : liveTile (regAddSat s r lo len n) k = liveTile s k := rfl
@[simp] theorem liveTile_regAddWrap (r : Reg) (lo len n : Nat) (k : Nat) : liveTile (regAddWrap s r lo len n) k = liveTile s k := rfl
@[simp] theorem liveTile_regWritePlain (r : Reg) (v hw : Nat) (k : Nat) : liveTile (regWritePlain s r v hw) k = liveTile s k := rfl
@[simp] theorem liveTile_takeFree (k : Nat) : liveTile ((takeFree s).2) k = liveTile s k := rfl
@[simp] theorem partAt_modTile (t : Nat) (f : Tile → Tile) (k : Nat) : partAt (modTile s t f) k = partAt s k := rfl
@[simp] theorem partAt_modQueue (q : Nat) (f : Queue → Queue) (k : Nat) : partAt (modQueue s q f) k = partAt s k := rfl
@[simp] theorem partAt_modMsix (fn v : Nat) (f : MsixVec → MsixVec) (k : Nat) : partAt (modMsix s fn v f) k = partAt s k := rfl
@[simp] theorem partAt_setHost (f : HostPort → HostPort) (k : Nat) : partAt (setHost s f) k = partAt s k := rfl
@[simp] theorem partAt_modCmd (cid : Nat) (f : Cmd → Cmd) (k : Nat) : partAt (modCmd s cid f) k = partAt s k := rfl
@[simp] theorem partAt_dropCmd (cid : Nat) (k : Nat) : partAt (dropCmd s cid) k = partAt s k := rfl
@[simp] theorem partAt_beginCmd (cid : Nat) (k : Nat) : partAt (beginCmd s cid) k = partAt s k := rfl
@[simp] theorem partAt_modLink (l : Nat) (f : Link → Link) (k : Nat) : partAt (modLink s l f) k = partAt s k := rfl
@[simp] theorem partAt_setFab (f : Fabric → Fabric) (k : Nat) : partAt (setFab s f) k = partAt s k := rfl
@[simp] theorem partAt_modColl (p n : Nat) (f : CollStream → CollStream) (k : Nat) : partAt (modColl s p n f) k = partAt s k := rfl
@[simp] theorem partAt_setCkpt (f : Ckpt → Ckpt) (k : Nat) : partAt (setCkpt s f) k = partAt s k := rfl
@[simp] theorem partAt_modPipe (p : Nat) (f : Pipe → Pipe) (k : Nat) : partAt (modPipe s p f) k = partAt s k := rfl
@[simp] theorem partAt_modSlot (n : Nat) (f : KeySlot → KeySlot) (k : Nat) : partAt (modSlot s n f) k = partAt s k := rfl
@[simp] theorem partAt_setSec (f : Security → Security) (k : Nat) : partAt (setSec s f) k = partAt s k := rfl
@[simp] theorem partAt_setBoot (f : Boot → Boot) (k : Nat) : partAt (setBoot s f) k = partAt s k := rfl
@[simp] theorem partAt_setPwr (f : Power → Power) (k : Nat) : partAt (setPwr s f) k = partAt s k := rfl
@[simp] theorem partAt_setTier (f : Tier → Tier) (k : Nat) : partAt (setTier s f) k = partAt s k := rfl
@[simp] theorem partAt_setStrata (f : Strata → Strata) (k : Nat) : partAt (setStrata s f) k = partAt s k := rfl
@[simp] theorem partAt_modIsland (i : Island) (f : IslandSt → IslandSt) (k : Nat) : partAt (modIsland s i f) k = partAt s k := rfl
@[simp] theorem partAt_emit (o : Output) (k : Nat) : partAt (emit s o) k = partAt s k := rfl
@[simp] theorem partAt_regSet (r : Reg) (v : Nat) (k : Nat) : partAt (regSet s r v) k = partAt s k := rfl
@[simp] theorem partAt_regPut (r : Reg) (lo len x : Nat) (k : Nat) : partAt (regPut s r lo len x) k = partAt s k := rfl
@[simp] theorem partAt_regOr (r : Reg) (m : Nat) (k : Nat) : partAt (regOr s r m) k = partAt s k := rfl
@[simp] theorem partAt_regAddSat (r : Reg) (lo len n : Nat) (k : Nat) : partAt (regAddSat s r lo len n) k = partAt s k := rfl
@[simp] theorem partAt_regAddWrap (r : Reg) (lo len n : Nat) (k : Nat) : partAt (regAddWrap s r lo len n) k = partAt s k := rfl
@[simp] theorem partAt_regWritePlain (r : Reg) (v hw : Nat) (k : Nat) : partAt (regWritePlain s r v hw) k = partAt s k := rfl
@[simp] theorem partAt_takeFree (k : Nat) : partAt ((takeFree s).2) k = partAt s k := rfl
@[simp] theorem queueAt_modTile (t : Nat) (f : Tile → Tile) (k : Nat) : queueAt (modTile s t f) k = queueAt s k := rfl
@[simp] theorem queueAt_modPart (p : Nat) (f : Part → Part) (k : Nat) : queueAt (modPart s p f) k = queueAt s k := rfl
@[simp] theorem queueAt_modRun (p : Nat) (f : Step → Step) (k : Nat) : queueAt (modRun s p f) k = queueAt s k := rfl
@[simp] theorem queueAt_modLink (l : Nat) (f : Link → Link) (k : Nat) : queueAt (modLink s l f) k = queueAt s k := rfl
@[simp] theorem queueAt_setFab (f : Fabric → Fabric) (k : Nat) : queueAt (setFab s f) k = queueAt s k := rfl
@[simp] theorem queueAt_modColl (p n : Nat) (f : CollStream → CollStream) (k : Nat) : queueAt (modColl s p n f) k = queueAt s k := rfl
@[simp] theorem queueAt_setCkpt (f : Ckpt → Ckpt) (k : Nat) : queueAt (setCkpt s f) k = queueAt s k := rfl
@[simp] theorem queueAt_modPipe (p : Nat) (f : Pipe → Pipe) (k : Nat) : queueAt (modPipe s p f) k = queueAt s k := rfl
@[simp] theorem queueAt_modSlot (n : Nat) (f : KeySlot → KeySlot) (k : Nat) : queueAt (modSlot s n f) k = queueAt s k := rfl
@[simp] theorem queueAt_setSec (f : Security → Security) (k : Nat) : queueAt (setSec s f) k = queueAt s k := rfl
@[simp] theorem queueAt_setBoot (f : Boot → Boot) (k : Nat) : queueAt (setBoot s f) k = queueAt s k := rfl
@[simp] theorem queueAt_setPwr (f : Power → Power) (k : Nat) : queueAt (setPwr s f) k = queueAt s k := rfl
@[simp] theorem queueAt_setTier (f : Tier → Tier) (k : Nat) : queueAt (setTier s f) k = queueAt s k := rfl
@[simp] theorem queueAt_setStrata (f : Strata → Strata) (k : Nat) : queueAt (setStrata s f) k = queueAt s k := rfl
@[simp] theorem queueAt_modIsland (i : Island) (f : IslandSt → IslandSt) (k : Nat) : queueAt (modIsland s i f) k = queueAt s k := rfl
@[simp] theorem queueAt_emit (o : Output) (k : Nat) : queueAt (emit s o) k = queueAt s k := rfl
@[simp] theorem queueAt_regSet (r : Reg) (v : Nat) (k : Nat) : queueAt (regSet s r v) k = queueAt s k := rfl
@[simp] theorem queueAt_regPut (r : Reg) (lo len x : Nat) (k : Nat) : queueAt (regPut s r lo len x) k = queueAt s k := rfl
@[simp] theorem queueAt_regOr (r : Reg) (m : Nat) (k : Nat) : queueAt (regOr s r m) k = queueAt s k := rfl
@[simp] theorem queueAt_regAddSat (r : Reg) (lo len n : Nat) (k : Nat) : queueAt (regAddSat s r lo len n) k = queueAt s k := rfl
@[simp] theorem queueAt_regAddWrap (r : Reg) (lo len n : Nat) (k : Nat) : queueAt (regAddWrap s r lo len n) k = queueAt s k := rfl
@[simp] theorem queueAt_regWritePlain (r : Reg) (v hw : Nat) (k : Nat) : queueAt (regWritePlain s r v hw) k = queueAt s k := rfl
@[simp] theorem queueAt_takeFree (k : Nat) : queueAt ((takeFree s).2) k = queueAt s k := rfl
@[simp] theorem cmdAt_modTile (t : Nat) (f : Tile → Tile) (k : Nat) : cmdAt (modTile s t f) k = cmdAt s k := rfl
@[simp] theorem cmdAt_modPart (p : Nat) (f : Part → Part) (k : Nat) : cmdAt (modPart s p f) k = cmdAt s k := rfl
@[simp] theorem cmdAt_modRun (p : Nat) (f : Step → Step) (k : Nat) : cmdAt (modRun s p f) k = cmdAt s k := rfl
@[simp] theorem cmdAt_modLink (l : Nat) (f : Link → Link) (k : Nat) : cmdAt (modLink s l f) k = cmdAt s k := rfl
@[simp] theorem cmdAt_setFab (f : Fabric → Fabric) (k : Nat) : cmdAt (setFab s f) k = cmdAt s k := rfl
@[simp] theorem cmdAt_modColl (p n : Nat) (f : CollStream → CollStream) (k : Nat) : cmdAt (modColl s p n f) k = cmdAt s k := rfl
@[simp] theorem cmdAt_setCkpt (f : Ckpt → Ckpt) (k : Nat) : cmdAt (setCkpt s f) k = cmdAt s k := rfl
@[simp] theorem cmdAt_modPipe (p : Nat) (f : Pipe → Pipe) (k : Nat) : cmdAt (modPipe s p f) k = cmdAt s k := rfl
@[simp] theorem cmdAt_modSlot (n : Nat) (f : KeySlot → KeySlot) (k : Nat) : cmdAt (modSlot s n f) k = cmdAt s k := rfl
@[simp] theorem cmdAt_setSec (f : Security → Security) (k : Nat) : cmdAt (setSec s f) k = cmdAt s k := rfl
@[simp] theorem cmdAt_setBoot (f : Boot → Boot) (k : Nat) : cmdAt (setBoot s f) k = cmdAt s k := rfl
@[simp] theorem cmdAt_setPwr (f : Power → Power) (k : Nat) : cmdAt (setPwr s f) k = cmdAt s k := rfl
@[simp] theorem cmdAt_setTier (f : Tier → Tier) (k : Nat) : cmdAt (setTier s f) k = cmdAt s k := rfl
@[simp] theorem cmdAt_setStrata (f : Strata → Strata) (k : Nat) : cmdAt (setStrata s f) k = cmdAt s k := rfl
@[simp] theorem cmdAt_modIsland (i : Island) (f : IslandSt → IslandSt) (k : Nat) : cmdAt (modIsland s i f) k = cmdAt s k := rfl
@[simp] theorem cmdAt_emit (o : Output) (k : Nat) : cmdAt (emit s o) k = cmdAt s k := rfl
@[simp] theorem cmdAt_regSet (r : Reg) (v : Nat) (k : Nat) : cmdAt (regSet s r v) k = cmdAt s k := rfl
@[simp] theorem cmdAt_regPut (r : Reg) (lo len x : Nat) (k : Nat) : cmdAt (regPut s r lo len x) k = cmdAt s k := rfl
@[simp] theorem cmdAt_regOr (r : Reg) (m : Nat) (k : Nat) : cmdAt (regOr s r m) k = cmdAt s k := rfl
@[simp] theorem cmdAt_regAddSat (r : Reg) (lo len n : Nat) (k : Nat) : cmdAt (regAddSat s r lo len n) k = cmdAt s k := rfl
@[simp] theorem cmdAt_regAddWrap (r : Reg) (lo len n : Nat) (k : Nat) : cmdAt (regAddWrap s r lo len n) k = cmdAt s k := rfl
@[simp] theorem cmdAt_regWritePlain (r : Reg) (v hw : Nat) (k : Nat) : cmdAt (regWritePlain s r v hw) k = cmdAt s k := rfl
@[simp] theorem cmdAt_takeFree (k : Nat) : cmdAt ((takeFree s).2) k = cmdAt s k := rfl
@[simp] theorem linkAt_modTile (t : Nat) (f : Tile → Tile) (k : Nat) : linkAt (modTile s t f) k = linkAt s k := rfl
@[simp] theorem linkAt_modPart (p : Nat) (f : Part → Part) (k : Nat) : linkAt (modPart s p f) k = linkAt s k := rfl
@[simp] theorem linkAt_modRun (p : Nat) (f : Step → Step) (k : Nat) : linkAt (modRun s p f) k = linkAt s k := rfl
@[simp] theorem linkAt_modQueue (q : Nat) (f : Queue → Queue) (k : Nat) : linkAt (modQueue s q f) k = linkAt s k := rfl
@[simp] theorem linkAt_modMsix (fn v : Nat) (f : MsixVec → MsixVec) (k : Nat) : linkAt (modMsix s fn v f) k = linkAt s k := rfl
@[simp] theorem linkAt_setHost (f : HostPort → HostPort) (k : Nat) : linkAt (setHost s f) k = linkAt s k := rfl
@[simp] theorem linkAt_modCmd (cid : Nat) (f : Cmd → Cmd) (k : Nat) : linkAt (modCmd s cid f) k = linkAt s k := rfl
@[simp] theorem linkAt_dropCmd (cid : Nat) (k : Nat) : linkAt (dropCmd s cid) k = linkAt s k := rfl
@[simp] theorem linkAt_beginCmd (cid : Nat) (k : Nat) : linkAt (beginCmd s cid) k = linkAt s k := rfl
@[simp] theorem linkAt_modColl (p n : Nat) (f : CollStream → CollStream) (k : Nat) : linkAt (modColl s p n f) k = linkAt s k := rfl
@[simp] theorem linkAt_setCkpt (f : Ckpt → Ckpt) (k : Nat) : linkAt (setCkpt s f) k = linkAt s k := rfl
@[simp] theorem linkAt_modPipe (p : Nat) (f : Pipe → Pipe) (k : Nat) : linkAt (modPipe s p f) k = linkAt s k := rfl
@[simp] theorem linkAt_modSlot (n : Nat) (f : KeySlot → KeySlot) (k : Nat) : linkAt (modSlot s n f) k = linkAt s k := rfl
@[simp] theorem linkAt_setSec (f : Security → Security) (k : Nat) : linkAt (setSec s f) k = linkAt s k := rfl
@[simp] theorem linkAt_setBoot (f : Boot → Boot) (k : Nat) : linkAt (setBoot s f) k = linkAt s k := rfl
@[simp] theorem linkAt_setPwr (f : Power → Power) (k : Nat) : linkAt (setPwr s f) k = linkAt s k := rfl
@[simp] theorem linkAt_setTier (f : Tier → Tier) (k : Nat) : linkAt (setTier s f) k = linkAt s k := rfl
@[simp] theorem linkAt_setStrata (f : Strata → Strata) (k : Nat) : linkAt (setStrata s f) k = linkAt s k := rfl
@[simp] theorem linkAt_modIsland (i : Island) (f : IslandSt → IslandSt) (k : Nat) : linkAt (modIsland s i f) k = linkAt s k := rfl
@[simp] theorem linkAt_emit (o : Output) (k : Nat) : linkAt (emit s o) k = linkAt s k := rfl
@[simp] theorem linkAt_regSet (r : Reg) (v : Nat) (k : Nat) : linkAt (regSet s r v) k = linkAt s k := rfl
@[simp] theorem linkAt_regPut (r : Reg) (lo len x : Nat) (k : Nat) : linkAt (regPut s r lo len x) k = linkAt s k := rfl
@[simp] theorem linkAt_regOr (r : Reg) (m : Nat) (k : Nat) : linkAt (regOr s r m) k = linkAt s k := rfl
@[simp] theorem linkAt_regAddSat (r : Reg) (lo len n : Nat) (k : Nat) : linkAt (regAddSat s r lo len n) k = linkAt s k := rfl
@[simp] theorem linkAt_regAddWrap (r : Reg) (lo len n : Nat) (k : Nat) : linkAt (regAddWrap s r lo len n) k = linkAt s k := rfl
@[simp] theorem linkAt_regWritePlain (r : Reg) (v hw : Nat) (k : Nat) : linkAt (regWritePlain s r v hw) k = linkAt s k := rfl
@[simp] theorem linkAt_takeFree (k : Nat) : linkAt ((takeFree s).2) k = linkAt s k := rfl
@[simp] theorem collAt_modTile (t : Nat) (f : Tile → Tile) (k j : Nat) : collAt (modTile s t f) k j = collAt s k j := rfl
@[simp] theorem collAt_modPart (p : Nat) (f : Part → Part) (k j : Nat) : collAt (modPart s p f) k j = collAt s k j := rfl
@[simp] theorem collAt_modRun (p : Nat) (f : Step → Step) (k j : Nat) : collAt (modRun s p f) k j = collAt s k j := rfl
@[simp] theorem collAt_modQueue (q : Nat) (f : Queue → Queue) (k j : Nat) : collAt (modQueue s q f) k j = collAt s k j := rfl
@[simp] theorem collAt_modMsix (fn v : Nat) (f : MsixVec → MsixVec) (k j : Nat) : collAt (modMsix s fn v f) k j = collAt s k j := rfl
@[simp] theorem collAt_setHost (f : HostPort → HostPort) (k j : Nat) : collAt (setHost s f) k j = collAt s k j := rfl
@[simp] theorem collAt_modCmd (cid : Nat) (f : Cmd → Cmd) (k j : Nat) : collAt (modCmd s cid f) k j = collAt s k j := rfl
@[simp] theorem collAt_dropCmd (cid : Nat) (k j : Nat) : collAt (dropCmd s cid) k j = collAt s k j := rfl
@[simp] theorem collAt_beginCmd (cid : Nat) (k j : Nat) : collAt (beginCmd s cid) k j = collAt s k j := rfl
@[simp] theorem collAt_modLink (l : Nat) (f : Link → Link) (k j : Nat) : collAt (modLink s l f) k j = collAt s k j := rfl
@[simp] theorem collAt_setFab (f : Fabric → Fabric) (k j : Nat) : collAt (setFab s f) k j = collAt s k j := rfl
@[simp] theorem collAt_setCkpt (f : Ckpt → Ckpt) (k j : Nat) : collAt (setCkpt s f) k j = collAt s k j := rfl
@[simp] theorem collAt_modPipe (p : Nat) (f : Pipe → Pipe) (k j : Nat) : collAt (modPipe s p f) k j = collAt s k j := rfl
@[simp] theorem collAt_modSlot (n : Nat) (f : KeySlot → KeySlot) (k j : Nat) : collAt (modSlot s n f) k j = collAt s k j := rfl
@[simp] theorem collAt_setSec (f : Security → Security) (k j : Nat) : collAt (setSec s f) k j = collAt s k j := rfl
@[simp] theorem collAt_setBoot (f : Boot → Boot) (k j : Nat) : collAt (setBoot s f) k j = collAt s k j := rfl
@[simp] theorem collAt_setPwr (f : Power → Power) (k j : Nat) : collAt (setPwr s f) k j = collAt s k j := rfl
@[simp] theorem collAt_setTier (f : Tier → Tier) (k j : Nat) : collAt (setTier s f) k j = collAt s k j := rfl
@[simp] theorem collAt_setStrata (f : Strata → Strata) (k j : Nat) : collAt (setStrata s f) k j = collAt s k j := rfl
@[simp] theorem collAt_modIsland (i : Island) (f : IslandSt → IslandSt) (k j : Nat) : collAt (modIsland s i f) k j = collAt s k j := rfl
@[simp] theorem collAt_emit (o : Output) (k j : Nat) : collAt (emit s o) k j = collAt s k j := rfl
@[simp] theorem collAt_regSet (r : Reg) (v : Nat) (k j : Nat) : collAt (regSet s r v) k j = collAt s k j := rfl
@[simp] theorem collAt_regPut (r : Reg) (lo len x : Nat) (k j : Nat) : collAt (regPut s r lo len x) k j = collAt s k j := rfl
@[simp] theorem collAt_regOr (r : Reg) (m : Nat) (k j : Nat) : collAt (regOr s r m) k j = collAt s k j := rfl
@[simp] theorem collAt_regAddSat (r : Reg) (lo len n : Nat) (k j : Nat) : collAt (regAddSat s r lo len n) k j = collAt s k j := rfl
@[simp] theorem collAt_regAddWrap (r : Reg) (lo len n : Nat) (k j : Nat) : collAt (regAddWrap s r lo len n) k j = collAt s k j := rfl
@[simp] theorem collAt_regWritePlain (r : Reg) (v hw : Nat) (k j : Nat) : collAt (regWritePlain s r v hw) k j = collAt s k j := rfl
@[simp] theorem collAt_takeFree (k j : Nat) : collAt ((takeFree s).2) k j = collAt s k j := rfl
@[simp] theorem pipeAt_modTile (t : Nat) (f : Tile → Tile) (k : Nat) : pipeAt (modTile s t f) k = pipeAt s k := rfl
@[simp] theorem pipeAt_modPart (p : Nat) (f : Part → Part) (k : Nat) : pipeAt (modPart s p f) k = pipeAt s k := rfl
@[simp] theorem pipeAt_modRun (p : Nat) (f : Step → Step) (k : Nat) : pipeAt (modRun s p f) k = pipeAt s k := rfl
@[simp] theorem pipeAt_modQueue (q : Nat) (f : Queue → Queue) (k : Nat) : pipeAt (modQueue s q f) k = pipeAt s k := rfl
@[simp] theorem pipeAt_modMsix (fn v : Nat) (f : MsixVec → MsixVec) (k : Nat) : pipeAt (modMsix s fn v f) k = pipeAt s k := rfl
@[simp] theorem pipeAt_setHost (f : HostPort → HostPort) (k : Nat) : pipeAt (setHost s f) k = pipeAt s k := rfl
@[simp] theorem pipeAt_modCmd (cid : Nat) (f : Cmd → Cmd) (k : Nat) : pipeAt (modCmd s cid f) k = pipeAt s k := rfl
@[simp] theorem pipeAt_dropCmd (cid : Nat) (k : Nat) : pipeAt (dropCmd s cid) k = pipeAt s k := rfl
@[simp] theorem pipeAt_beginCmd (cid : Nat) (k : Nat) : pipeAt (beginCmd s cid) k = pipeAt s k := rfl
@[simp] theorem pipeAt_modLink (l : Nat) (f : Link → Link) (k : Nat) : pipeAt (modLink s l f) k = pipeAt s k := rfl
@[simp] theorem pipeAt_setFab (f : Fabric → Fabric) (k : Nat) : pipeAt (setFab s f) k = pipeAt s k := rfl
@[simp] theorem pipeAt_modColl (p n : Nat) (f : CollStream → CollStream) (k : Nat) : pipeAt (modColl s p n f) k = pipeAt s k := rfl
@[simp] theorem pipeAt_setCkpt (f : Ckpt → Ckpt) (k : Nat) : pipeAt (setCkpt s f) k = pipeAt s k := rfl
@[simp] theorem pipeAt_modSlot (n : Nat) (f : KeySlot → KeySlot) (k : Nat) : pipeAt (modSlot s n f) k = pipeAt s k := rfl
@[simp] theorem pipeAt_setSec (f : Security → Security) (k : Nat) : pipeAt (setSec s f) k = pipeAt s k := rfl
@[simp] theorem pipeAt_setBoot (f : Boot → Boot) (k : Nat) : pipeAt (setBoot s f) k = pipeAt s k := rfl
@[simp] theorem pipeAt_setPwr (f : Power → Power) (k : Nat) : pipeAt (setPwr s f) k = pipeAt s k := rfl
@[simp] theorem pipeAt_setTier (f : Tier → Tier) (k : Nat) : pipeAt (setTier s f) k = pipeAt s k := rfl
@[simp] theorem pipeAt_setStrata (f : Strata → Strata) (k : Nat) : pipeAt (setStrata s f) k = pipeAt s k := rfl
@[simp] theorem pipeAt_modIsland (i : Island) (f : IslandSt → IslandSt) (k : Nat) : pipeAt (modIsland s i f) k = pipeAt s k := rfl
@[simp] theorem pipeAt_emit (o : Output) (k : Nat) : pipeAt (emit s o) k = pipeAt s k := rfl
@[simp] theorem pipeAt_regSet (r : Reg) (v : Nat) (k : Nat) : pipeAt (regSet s r v) k = pipeAt s k := rfl
@[simp] theorem pipeAt_regPut (r : Reg) (lo len x : Nat) (k : Nat) : pipeAt (regPut s r lo len x) k = pipeAt s k := rfl
@[simp] theorem pipeAt_regOr (r : Reg) (m : Nat) (k : Nat) : pipeAt (regOr s r m) k = pipeAt s k := rfl
@[simp] theorem pipeAt_regAddSat (r : Reg) (lo len n : Nat) (k : Nat) : pipeAt (regAddSat s r lo len n) k = pipeAt s k := rfl
@[simp] theorem pipeAt_regAddWrap (r : Reg) (lo len n : Nat) (k : Nat) : pipeAt (regAddWrap s r lo len n) k = pipeAt s k := rfl
@[simp] theorem pipeAt_regWritePlain (r : Reg) (v hw : Nat) (k : Nat) : pipeAt (regWritePlain s r v hw) k = pipeAt s k := rfl
@[simp] theorem pipeAt_takeFree (k : Nat) : pipeAt ((takeFree s).2) k = pipeAt s k := rfl
@[simp] theorem slotAt_modTile (t : Nat) (f : Tile → Tile) (k : Nat) : slotAt (modTile s t f) k = slotAt s k := rfl
@[simp] theorem slotAt_modPart (p : Nat) (f : Part → Part) (k : Nat) : slotAt (modPart s p f) k = slotAt s k := rfl
@[simp] theorem slotAt_modRun (p : Nat) (f : Step → Step) (k : Nat) : slotAt (modRun s p f) k = slotAt s k := rfl
@[simp] theorem slotAt_modQueue (q : Nat) (f : Queue → Queue) (k : Nat) : slotAt (modQueue s q f) k = slotAt s k := rfl
@[simp] theorem slotAt_modMsix (fn v : Nat) (f : MsixVec → MsixVec) (k : Nat) : slotAt (modMsix s fn v f) k = slotAt s k := rfl
@[simp] theorem slotAt_setHost (f : HostPort → HostPort) (k : Nat) : slotAt (setHost s f) k = slotAt s k := rfl
@[simp] theorem slotAt_modCmd (cid : Nat) (f : Cmd → Cmd) (k : Nat) : slotAt (modCmd s cid f) k = slotAt s k := rfl
@[simp] theorem slotAt_dropCmd (cid : Nat) (k : Nat) : slotAt (dropCmd s cid) k = slotAt s k := rfl
@[simp] theorem slotAt_beginCmd (cid : Nat) (k : Nat) : slotAt (beginCmd s cid) k = slotAt s k := rfl
@[simp] theorem slotAt_modLink (l : Nat) (f : Link → Link) (k : Nat) : slotAt (modLink s l f) k = slotAt s k := rfl
@[simp] theorem slotAt_setFab (f : Fabric → Fabric) (k : Nat) : slotAt (setFab s f) k = slotAt s k := rfl
@[simp] theorem slotAt_modColl (p n : Nat) (f : CollStream → CollStream) (k : Nat) : slotAt (modColl s p n f) k = slotAt s k := rfl
@[simp] theorem slotAt_setCkpt (f : Ckpt → Ckpt) (k : Nat) : slotAt (setCkpt s f) k = slotAt s k := rfl
@[simp] theorem slotAt_modPipe (p : Nat) (f : Pipe → Pipe) (k : Nat) : slotAt (modPipe s p f) k = slotAt s k := rfl
@[simp] theorem slotAt_setBoot (f : Boot → Boot) (k : Nat) : slotAt (setBoot s f) k = slotAt s k := rfl
@[simp] theorem slotAt_setPwr (f : Power → Power) (k : Nat) : slotAt (setPwr s f) k = slotAt s k := rfl
@[simp] theorem slotAt_setTier (f : Tier → Tier) (k : Nat) : slotAt (setTier s f) k = slotAt s k := rfl
@[simp] theorem slotAt_setStrata (f : Strata → Strata) (k : Nat) : slotAt (setStrata s f) k = slotAt s k := rfl
@[simp] theorem slotAt_modIsland (i : Island) (f : IslandSt → IslandSt) (k : Nat) : slotAt (modIsland s i f) k = slotAt s k := rfl
@[simp] theorem slotAt_emit (o : Output) (k : Nat) : slotAt (emit s o) k = slotAt s k := rfl
@[simp] theorem slotAt_regSet (r : Reg) (v : Nat) (k : Nat) : slotAt (regSet s r v) k = slotAt s k := rfl
@[simp] theorem slotAt_regPut (r : Reg) (lo len x : Nat) (k : Nat) : slotAt (regPut s r lo len x) k = slotAt s k := rfl
@[simp] theorem slotAt_regOr (r : Reg) (m : Nat) (k : Nat) : slotAt (regOr s r m) k = slotAt s k := rfl
@[simp] theorem slotAt_regAddSat (r : Reg) (lo len n : Nat) (k : Nat) : slotAt (regAddSat s r lo len n) k = slotAt s k := rfl
@[simp] theorem slotAt_regAddWrap (r : Reg) (lo len n : Nat) (k : Nat) : slotAt (regAddWrap s r lo len n) k = slotAt s k := rfl
@[simp] theorem slotAt_regWritePlain (r : Reg) (v hw : Nat) (k : Nat) : slotAt (regWritePlain s r v hw) k = slotAt s k := rfl
@[simp] theorem slotAt_takeFree (k : Nat) : slotAt ((takeFree s).2) k = slotAt s k := rfl
@[simp] theorem islandAt_modTile (t : Nat) (f : Tile → Tile) (k : Island) : islandAt (modTile s t f) k = islandAt s k := rfl
@[simp] theorem islandAt_modPart (p : Nat) (f : Part → Part) (k : Island) : islandAt (modPart s p f) k = islandAt s k := rfl
@[simp] theorem islandAt_modRun (p : Nat) (f : Step → Step) (k : Island) : islandAt (modRun s p f) k = islandAt s k := rfl
@[simp] theorem islandAt_modQueue (q : Nat) (f : Queue → Queue) (k : Island) : islandAt (modQueue s q f) k = islandAt s k := rfl
@[simp] theorem islandAt_modMsix (fn v : Nat) (f : MsixVec → MsixVec) (k : Island) : islandAt (modMsix s fn v f) k = islandAt s k := rfl
@[simp] theorem islandAt_setHost (f : HostPort → HostPort) (k : Island) : islandAt (setHost s f) k = islandAt s k := rfl
@[simp] theorem islandAt_modCmd (cid : Nat) (f : Cmd → Cmd) (k : Island) : islandAt (modCmd s cid f) k = islandAt s k := rfl
@[simp] theorem islandAt_dropCmd (cid : Nat) (k : Island) : islandAt (dropCmd s cid) k = islandAt s k := rfl
@[simp] theorem islandAt_beginCmd (cid : Nat) (k : Island) : islandAt (beginCmd s cid) k = islandAt s k := rfl
@[simp] theorem islandAt_modLink (l : Nat) (f : Link → Link) (k : Island) : islandAt (modLink s l f) k = islandAt s k := rfl
@[simp] theorem islandAt_setFab (f : Fabric → Fabric) (k : Island) : islandAt (setFab s f) k = islandAt s k := rfl
@[simp] theorem islandAt_modColl (p n : Nat) (f : CollStream → CollStream) (k : Island) : islandAt (modColl s p n f) k = islandAt s k := rfl
@[simp] theorem islandAt_setCkpt (f : Ckpt → Ckpt) (k : Island) : islandAt (setCkpt s f) k = islandAt s k := rfl
@[simp] theorem islandAt_modPipe (p : Nat) (f : Pipe → Pipe) (k : Island) : islandAt (modPipe s p f) k = islandAt s k := rfl
@[simp] theorem islandAt_modSlot (n : Nat) (f : KeySlot → KeySlot) (k : Island) : islandAt (modSlot s n f) k = islandAt s k := rfl
@[simp] theorem islandAt_setSec (f : Security → Security) (k : Island) : islandAt (setSec s f) k = islandAt s k := rfl
@[simp] theorem islandAt_setBoot (f : Boot → Boot) (k : Island) : islandAt (setBoot s f) k = islandAt s k := rfl
@[simp] theorem islandAt_setPwr (f : Power → Power) (k : Island) : islandAt (setPwr s f) k = islandAt s k := rfl
@[simp] theorem islandAt_setTier (f : Tier → Tier) (k : Island) : islandAt (setTier s f) k = islandAt s k := rfl
@[simp] theorem islandAt_setStrata (f : Strata → Strata) (k : Island) : islandAt (setStrata s f) k = islandAt s k := rfl
@[simp] theorem islandAt_emit (o : Output) (k : Island) : islandAt (emit s o) k = islandAt s k := rfl
@[simp] theorem islandAt_regSet (r : Reg) (v : Nat) (k : Island) : islandAt (regSet s r v) k = islandAt s k := rfl
@[simp] theorem islandAt_regPut (r : Reg) (lo len x : Nat) (k : Island) : islandAt (regPut s r lo len x) k = islandAt s k := rfl
@[simp] theorem islandAt_regOr (r : Reg) (m : Nat) (k : Island) : islandAt (regOr s r m) k = islandAt s k := rfl
@[simp] theorem islandAt_regAddSat (r : Reg) (lo len n : Nat) (k : Island) : islandAt (regAddSat s r lo len n) k = islandAt s k := rfl
@[simp] theorem islandAt_regAddWrap (r : Reg) (lo len n : Nat) (k : Island) : islandAt (regAddWrap s r lo len n) k = islandAt s k := rfl
@[simp] theorem islandAt_regWritePlain (r : Reg) (v hw : Nat) (k : Island) : islandAt (regWritePlain s r v hw) k = islandAt s k := rfl
@[simp] theorem islandAt_takeFree (k : Island) : islandAt ((takeFree s).2) k = islandAt s k := rfl
@[simp] theorem regGet_modTile (t : Nat) (f : Tile → Tile) (k : Reg) : regGet (modTile s t f) k = regGet s k := rfl
@[simp] theorem regGet_modPart (p : Nat) (f : Part → Part) (k : Reg) : regGet (modPart s p f) k = regGet s k := rfl
@[simp] theorem regGet_modRun (p : Nat) (f : Step → Step) (k : Reg) : regGet (modRun s p f) k = regGet s k := rfl
@[simp] theorem regGet_modQueue (q : Nat) (f : Queue → Queue) (k : Reg) : regGet (modQueue s q f) k = regGet s k := rfl
@[simp] theorem regGet_modMsix (fn v : Nat) (f : MsixVec → MsixVec) (k : Reg) : regGet (modMsix s fn v f) k = regGet s k := rfl
@[simp] theorem regGet_setHost (f : HostPort → HostPort) (k : Reg) : regGet (setHost s f) k = regGet s k := rfl
@[simp] theorem regGet_modCmd (cid : Nat) (f : Cmd → Cmd) (k : Reg) : regGet (modCmd s cid f) k = regGet s k := rfl
@[simp] theorem regGet_dropCmd (cid : Nat) (k : Reg) : regGet (dropCmd s cid) k = regGet s k := rfl
@[simp] theorem regGet_beginCmd (cid : Nat) (k : Reg) : regGet (beginCmd s cid) k = regGet s k := rfl
@[simp] theorem regGet_modLink (l : Nat) (f : Link → Link) (k : Reg) : regGet (modLink s l f) k = regGet s k := rfl
@[simp] theorem regGet_setFab (f : Fabric → Fabric) (k : Reg) : regGet (setFab s f) k = regGet s k := rfl
@[simp] theorem regGet_modColl (p n : Nat) (f : CollStream → CollStream) (k : Reg) : regGet (modColl s p n f) k = regGet s k := rfl
@[simp] theorem regGet_setCkpt (f : Ckpt → Ckpt) (k : Reg) : regGet (setCkpt s f) k = regGet s k := rfl
@[simp] theorem regGet_modPipe (p : Nat) (f : Pipe → Pipe) (k : Reg) : regGet (modPipe s p f) k = regGet s k := rfl
@[simp] theorem regGet_modSlot (n : Nat) (f : KeySlot → KeySlot) (k : Reg) : regGet (modSlot s n f) k = regGet s k := rfl
@[simp] theorem regGet_setSec (f : Security → Security) (k : Reg) : regGet (setSec s f) k = regGet s k := rfl
@[simp] theorem regGet_setBoot (f : Boot → Boot) (k : Reg) : regGet (setBoot s f) k = regGet s k := rfl
@[simp] theorem regGet_setPwr (f : Power → Power) (k : Reg) : regGet (setPwr s f) k = regGet s k := rfl
@[simp] theorem regGet_setTier (f : Tier → Tier) (k : Reg) : regGet (setTier s f) k = regGet s k := rfl
@[simp] theorem regGet_setStrata (f : Strata → Strata) (k : Reg) : regGet (setStrata s f) k = regGet s k := rfl
@[simp] theorem regGet_modIsland (i : Island) (f : IslandSt → IslandSt) (k : Reg) : regGet (modIsland s i f) k = regGet s k := rfl
@[simp] theorem regGet_emit (o : Output) (k : Reg) : regGet (emit s o) k = regGet s k := rfl
@[simp] theorem regGet_takeFree (k : Reg) : regGet ((takeFree s).2) k = regGet s k := rfl
@[simp] theorem regFld_modTile (t : Nat) (f : Tile → Tile) (k : Reg) (a b : Nat) : regFld (modTile s t f) k a b = regFld s k a b := rfl
@[simp] theorem regFld_modPart (p : Nat) (f : Part → Part) (k : Reg) (a b : Nat) : regFld (modPart s p f) k a b = regFld s k a b := rfl
@[simp] theorem regFld_modRun (p : Nat) (f : Step → Step) (k : Reg) (a b : Nat) : regFld (modRun s p f) k a b = regFld s k a b := rfl
@[simp] theorem regFld_modQueue (q : Nat) (f : Queue → Queue) (k : Reg) (a b : Nat) : regFld (modQueue s q f) k a b = regFld s k a b := rfl
@[simp] theorem regFld_modMsix (fn v : Nat) (f : MsixVec → MsixVec) (k : Reg) (a b : Nat) : regFld (modMsix s fn v f) k a b = regFld s k a b := rfl
@[simp] theorem regFld_setHost (f : HostPort → HostPort) (k : Reg) (a b : Nat) : regFld (setHost s f) k a b = regFld s k a b := rfl
@[simp] theorem regFld_modCmd (cid : Nat) (f : Cmd → Cmd) (k : Reg) (a b : Nat) : regFld (modCmd s cid f) k a b = regFld s k a b := rfl
@[simp] theorem regFld_dropCmd (cid : Nat) (k : Reg) (a b : Nat) : regFld (dropCmd s cid) k a b = regFld s k a b := rfl
@[simp] theorem regFld_beginCmd (cid : Nat) (k : Reg) (a b : Nat) : regFld (beginCmd s cid) k a b = regFld s k a b := rfl
@[simp] theorem regFld_modLink (l : Nat) (f : Link → Link) (k : Reg) (a b : Nat) : regFld (modLink s l f) k a b = regFld s k a b := rfl
@[simp] theorem regFld_setFab (f : Fabric → Fabric) (k : Reg) (a b : Nat) : regFld (setFab s f) k a b = regFld s k a b := rfl
@[simp] theorem regFld_modColl (p n : Nat) (f : CollStream → CollStream) (k : Reg) (a b : Nat) : regFld (modColl s p n f) k a b = regFld s k a b := rfl
@[simp] theorem regFld_setCkpt (f : Ckpt → Ckpt) (k : Reg) (a b : Nat) : regFld (setCkpt s f) k a b = regFld s k a b := rfl
@[simp] theorem regFld_modPipe (p : Nat) (f : Pipe → Pipe) (k : Reg) (a b : Nat) : regFld (modPipe s p f) k a b = regFld s k a b := rfl
@[simp] theorem regFld_modSlot (n : Nat) (f : KeySlot → KeySlot) (k : Reg) (a b : Nat) : regFld (modSlot s n f) k a b = regFld s k a b := rfl
@[simp] theorem regFld_setSec (f : Security → Security) (k : Reg) (a b : Nat) : regFld (setSec s f) k a b = regFld s k a b := rfl
@[simp] theorem regFld_setBoot (f : Boot → Boot) (k : Reg) (a b : Nat) : regFld (setBoot s f) k a b = regFld s k a b := rfl
@[simp] theorem regFld_setPwr (f : Power → Power) (k : Reg) (a b : Nat) : regFld (setPwr s f) k a b = regFld s k a b := rfl
@[simp] theorem regFld_setTier (f : Tier → Tier) (k : Reg) (a b : Nat) : regFld (setTier s f) k a b = regFld s k a b := rfl
@[simp] theorem regFld_setStrata (f : Strata → Strata) (k : Reg) (a b : Nat) : regFld (setStrata s f) k a b = regFld s k a b := rfl
@[simp] theorem regFld_modIsland (i : Island) (f : IslandSt → IslandSt) (k : Reg) (a b : Nat) : regFld (modIsland s i f) k a b = regFld s k a b := rfl
@[simp] theorem regFld_emit (o : Output) (k : Reg) (a b : Nat) : regFld (emit s o) k a b = regFld s k a b := rfl
@[simp] theorem regFld_takeFree (k : Reg) (a b : Nat) : regFld ((takeFree s).2) k a b = regFld s k a b := rfl
@[simp] theorem regBit_modTile (t : Nat) (f : Tile → Tile) (k : Reg) (a : Nat) : regBit (modTile s t f) k a = regBit s k a := rfl
@[simp] theorem regBit_modPart (p : Nat) (f : Part → Part) (k : Reg) (a : Nat) : regBit (modPart s p f) k a = regBit s k a := rfl
@[simp] theorem regBit_modRun (p : Nat) (f : Step → Step) (k : Reg) (a : Nat) : regBit (modRun s p f) k a = regBit s k a := rfl
@[simp] theorem regBit_modQueue (q : Nat) (f : Queue → Queue) (k : Reg) (a : Nat) : regBit (modQueue s q f) k a = regBit s k a := rfl
@[simp] theorem regBit_modMsix (fn v : Nat) (f : MsixVec → MsixVec) (k : Reg) (a : Nat) : regBit (modMsix s fn v f) k a = regBit s k a := rfl
@[simp] theorem regBit_setHost (f : HostPort → HostPort) (k : Reg) (a : Nat) : regBit (setHost s f) k a = regBit s k a := rfl
@[simp] theorem regBit_modCmd (cid : Nat) (f : Cmd → Cmd) (k : Reg) (a : Nat) : regBit (modCmd s cid f) k a = regBit s k a := rfl
@[simp] theorem regBit_dropCmd (cid : Nat) (k : Reg) (a : Nat) : regBit (dropCmd s cid) k a = regBit s k a := rfl
@[simp] theorem regBit_beginCmd (cid : Nat) (k : Reg) (a : Nat) : regBit (beginCmd s cid) k a = regBit s k a := rfl
@[simp] theorem regBit_modLink (l : Nat) (f : Link → Link) (k : Reg) (a : Nat) : regBit (modLink s l f) k a = regBit s k a := rfl
@[simp] theorem regBit_setFab (f : Fabric → Fabric) (k : Reg) (a : Nat) : regBit (setFab s f) k a = regBit s k a := rfl
@[simp] theorem regBit_modColl (p n : Nat) (f : CollStream → CollStream) (k : Reg) (a : Nat) : regBit (modColl s p n f) k a = regBit s k a := rfl
@[simp] theorem regBit_setCkpt (f : Ckpt → Ckpt) (k : Reg) (a : Nat) : regBit (setCkpt s f) k a = regBit s k a := rfl
@[simp] theorem regBit_modPipe (p : Nat) (f : Pipe → Pipe) (k : Reg) (a : Nat) : regBit (modPipe s p f) k a = regBit s k a := rfl
@[simp] theorem regBit_modSlot (n : Nat) (f : KeySlot → KeySlot) (k : Reg) (a : Nat) : regBit (modSlot s n f) k a = regBit s k a := rfl
@[simp] theorem regBit_setSec (f : Security → Security) (k : Reg) (a : Nat) : regBit (setSec s f) k a = regBit s k a := rfl
@[simp] theorem regBit_setBoot (f : Boot → Boot) (k : Reg) (a : Nat) : regBit (setBoot s f) k a = regBit s k a := rfl
@[simp] theorem regBit_setPwr (f : Power → Power) (k : Reg) (a : Nat) : regBit (setPwr s f) k a = regBit s k a := rfl
@[simp] theorem regBit_setTier (f : Tier → Tier) (k : Reg) (a : Nat) : regBit (setTier s f) k a = regBit s k a := rfl
@[simp] theorem regBit_setStrata (f : Strata → Strata) (k : Reg) (a : Nat) : regBit (setStrata s f) k a = regBit s k a := rfl
@[simp] theorem regBit_modIsland (i : Island) (f : IslandSt → IslandSt) (k : Reg) (a : Nat) : regBit (modIsland s i f) k a = regBit s k a := rfl
@[simp] theorem regBit_emit (o : Output) (k : Reg) (a : Nat) : regBit (emit s o) k a = regBit s k a := rfl
@[simp] theorem regBit_takeFree (k : Reg) (a : Nat) : regBit ((takeFree s).2) k a = regBit s k a := rfl
@[simp] theorem devByte_modTile (t : Nat) (f : Tile → Tile) (k : Nat) : devByte (modTile s t f) k = devByte s k := rfl
@[simp] theorem devByte_modPart (p : Nat) (f : Part → Part) (k : Nat) : devByte (modPart s p f) k = devByte s k := rfl
@[simp] theorem devByte_modRun (p : Nat) (f : Step → Step) (k : Nat) : devByte (modRun s p f) k = devByte s k := rfl
@[simp] theorem devByte_modQueue (q : Nat) (f : Queue → Queue) (k : Nat) : devByte (modQueue s q f) k = devByte s k := rfl
@[simp] theorem devByte_modMsix (fn v : Nat) (f : MsixVec → MsixVec) (k : Nat) : devByte (modMsix s fn v f) k = devByte s k := rfl
@[simp] theorem devByte_setHost (f : HostPort → HostPort) (k : Nat) : devByte (setHost s f) k = devByte s k := rfl
@[simp] theorem devByte_modCmd (cid : Nat) (f : Cmd → Cmd) (k : Nat) : devByte (modCmd s cid f) k = devByte s k := rfl
@[simp] theorem devByte_dropCmd (cid : Nat) (k : Nat) : devByte (dropCmd s cid) k = devByte s k := rfl
@[simp] theorem devByte_beginCmd (cid : Nat) (k : Nat) : devByte (beginCmd s cid) k = devByte s k := rfl
@[simp] theorem devByte_modLink (l : Nat) (f : Link → Link) (k : Nat) : devByte (modLink s l f) k = devByte s k := rfl
@[simp] theorem devByte_setFab (f : Fabric → Fabric) (k : Nat) : devByte (setFab s f) k = devByte s k := rfl
@[simp] theorem devByte_modColl (p n : Nat) (f : CollStream → CollStream) (k : Nat) : devByte (modColl s p n f) k = devByte s k := rfl
@[simp] theorem devByte_setCkpt (f : Ckpt → Ckpt) (k : Nat) : devByte (setCkpt s f) k = devByte s k := rfl
@[simp] theorem devByte_modPipe (p : Nat) (f : Pipe → Pipe) (k : Nat) : devByte (modPipe s p f) k = devByte s k := rfl
@[simp] theorem devByte_modSlot (n : Nat) (f : KeySlot → KeySlot) (k : Nat) : devByte (modSlot s n f) k = devByte s k := rfl
@[simp] theorem devByte_setSec (f : Security → Security) (k : Nat) : devByte (setSec s f) k = devByte s k := rfl
@[simp] theorem devByte_setBoot (f : Boot → Boot) (k : Nat) : devByte (setBoot s f) k = devByte s k := rfl
@[simp] theorem devByte_setPwr (f : Power → Power) (k : Nat) : devByte (setPwr s f) k = devByte s k := rfl
@[simp] theorem devByte_setTier (f : Tier → Tier) (k : Nat) : devByte (setTier s f) k = devByte s k := rfl
@[simp] theorem devByte_setStrata (f : Strata → Strata) (k : Nat) : devByte (setStrata s f) k = devByte s k := rfl
@[simp] theorem devByte_modIsland (i : Island) (f : IslandSt → IslandSt) (k : Nat) : devByte (modIsland s i f) k = devByte s k := rfl
@[simp] theorem devByte_emit (o : Output) (k : Nat) : devByte (emit s o) k = devByte s k := rfl
@[simp] theorem devByte_regSet (r : Reg) (v : Nat) (k : Nat) : devByte (regSet s r v) k = devByte s k := rfl
@[simp] theorem devByte_regPut (r : Reg) (lo len x : Nat) (k : Nat) : devByte (regPut s r lo len x) k = devByte s k := rfl
@[simp] theorem devByte_regOr (r : Reg) (m : Nat) (k : Nat) : devByte (regOr s r m) k = devByte s k := rfl
@[simp] theorem devByte_regAddSat (r : Reg) (lo len n : Nat) (k : Nat) : devByte (regAddSat s r lo len n) k = devByte s k := rfl
@[simp] theorem devByte_regAddWrap (r : Reg) (lo len n : Nat) (k : Nat) : devByte (regAddWrap s r lo len n) k = devByte s k := rfl
@[simp] theorem devByte_regWritePlain (r : Reg) (v hw : Nat) (k : Nat) : devByte (regWritePlain s r v hw) k = devByte s k := rfl
@[simp] theorem devByte_takeFree (k : Nat) : devByte ((takeFree s).2) k = devByte s k := rfl
@[simp] theorem hostByte_modTile (t : Nat) (f : Tile → Tile) (k : Nat) : hostByte (modTile s t f) k = hostByte s k := rfl
@[simp] theorem hostByte_modPart (p : Nat) (f : Part → Part) (k : Nat) : hostByte (modPart s p f) k = hostByte s k := rfl
@[simp] theorem hostByte_modRun (p : Nat) (f : Step → Step) (k : Nat) : hostByte (modRun s p f) k = hostByte s k := rfl
@[simp] theorem hostByte_modQueue (q : Nat) (f : Queue → Queue) (k : Nat) : hostByte (modQueue s q f) k = hostByte s k := rfl
@[simp] theorem hostByte_modMsix (fn v : Nat) (f : MsixVec → MsixVec) (k : Nat) : hostByte (modMsix s fn v f) k = hostByte s k := rfl
@[simp] theorem hostByte_setHost (f : HostPort → HostPort) (k : Nat) : hostByte (setHost s f) k = hostByte s k := rfl
@[simp] theorem hostByte_modCmd (cid : Nat) (f : Cmd → Cmd) (k : Nat) : hostByte (modCmd s cid f) k = hostByte s k := rfl
@[simp] theorem hostByte_dropCmd (cid : Nat) (k : Nat) : hostByte (dropCmd s cid) k = hostByte s k := rfl
@[simp] theorem hostByte_beginCmd (cid : Nat) (k : Nat) : hostByte (beginCmd s cid) k = hostByte s k := rfl
@[simp] theorem hostByte_modLink (l : Nat) (f : Link → Link) (k : Nat) : hostByte (modLink s l f) k = hostByte s k := rfl
@[simp] theorem hostByte_setFab (f : Fabric → Fabric) (k : Nat) : hostByte (setFab s f) k = hostByte s k := rfl
@[simp] theorem hostByte_modColl (p n : Nat) (f : CollStream → CollStream) (k : Nat) : hostByte (modColl s p n f) k = hostByte s k := rfl
@[simp] theorem hostByte_setCkpt (f : Ckpt → Ckpt) (k : Nat) : hostByte (setCkpt s f) k = hostByte s k := rfl
@[simp] theorem hostByte_modPipe (p : Nat) (f : Pipe → Pipe) (k : Nat) : hostByte (modPipe s p f) k = hostByte s k := rfl
@[simp] theorem hostByte_modSlot (n : Nat) (f : KeySlot → KeySlot) (k : Nat) : hostByte (modSlot s n f) k = hostByte s k := rfl
@[simp] theorem hostByte_setSec (f : Security → Security) (k : Nat) : hostByte (setSec s f) k = hostByte s k := rfl
@[simp] theorem hostByte_setBoot (f : Boot → Boot) (k : Nat) : hostByte (setBoot s f) k = hostByte s k := rfl
@[simp] theorem hostByte_setPwr (f : Power → Power) (k : Nat) : hostByte (setPwr s f) k = hostByte s k := rfl
@[simp] theorem hostByte_setTier (f : Tier → Tier) (k : Nat) : hostByte (setTier s f) k = hostByte s k := rfl
@[simp] theorem hostByte_setStrata (f : Strata → Strata) (k : Nat) : hostByte (setStrata s f) k = hostByte s k := rfl
@[simp] theorem hostByte_modIsland (i : Island) (f : IslandSt → IslandSt) (k : Nat) : hostByte (modIsland s i f) k = hostByte s k := rfl
@[simp] theorem hostByte_emit (o : Output) (k : Nat) : hostByte (emit s o) k = hostByte s k := rfl
@[simp] theorem hostByte_regSet (r : Reg) (v : Nat) (k : Nat) : hostByte (regSet s r v) k = hostByte s k := rfl
@[simp] theorem hostByte_regPut (r : Reg) (lo len x : Nat) (k : Nat) : hostByte (regPut s r lo len x) k = hostByte s k := rfl
@[simp] theorem hostByte_regOr (r : Reg) (m : Nat) (k : Nat) : hostByte (regOr s r m) k = hostByte s k := rfl
@[simp] theorem hostByte_regAddSat (r : Reg) (lo len n : Nat) (k : Nat) : hostByte (regAddSat s r lo len n) k = hostByte s k := rfl
@[simp] theorem hostByte_regAddWrap (r : Reg) (lo len n : Nat) (k : Nat) : hostByte (regAddWrap s r lo len n) k = hostByte s k := rfl
@[simp] theorem hostByte_regWritePlain (r : Reg) (v hw : Nat) (k : Nat) : hostByte (regWritePlain s r v hw) k = hostByte s k := rfl
@[simp] theorem hostByte_takeFree (k : Nat) : hostByte ((takeFree s).2) k = hostByte s k := rfl

/-! ### What the named updates change -/

@[simp] theorem tileAt_modTile (t u : Nat) (f : Tile → Tile) :
    tileAt (modTile s t f) u = if u = t then f (tileAt s t) else tileAt s u := by
  simp [tileAt, modTile, Tbl.get_upd]

@[simp] theorem partAt_modPart (p q : Nat) (f : Part → Part) :
    partAt (modPart s p f) q = if q = p then f (partAt s p) else partAt s q := by
  simp [partAt, modPart, Tbl.get_upd]

@[simp] theorem queueAt_modQueue (p q : Nat) (f : Queue → Queue) :
    queueAt (modQueue s p f) q = if q = p then f (queueAt s p) else queueAt s q := by
  simp [queueAt, modQueue, Tbl.get_upd]

@[simp] theorem linkAt_modLink (l m : Nat) (f : Link → Link) :
    linkAt (modLink s l f) m = if m = l then f (linkAt s l) else linkAt s m := by
  simp [linkAt, modLink, Tbl.get_upd]

@[simp] theorem pipeAt_modPipe (p q : Nat) (f : Pipe → Pipe) :
    pipeAt (modPipe s p f) q = if q = p then f (pipeAt s p) else pipeAt s q := by
  simp [pipeAt, modPipe, Tbl.get_upd]

@[simp] theorem slotAt_modSlot (k m : Nat) (f : KeySlot → KeySlot) :
    slotAt (modSlot s k f) m = if m = k then f (slotAt s k) else slotAt s m := by
  simp [slotAt, modSlot, Tbl.get_upd]

theorem collAt_modColl_self (p n : Nat) (f : CollStream → CollStream) :
    collAt (modColl s p n f) p n = f (collAt s p n) := by simp [collAt, modColl]

@[simp] theorem emit_out_eq (o : Output) : (emit s o).out = s.out ++ [o] := rfl

@[simp] theorem takeFree_fst : (takeFree s).1 = s.fresh := rfl

/-- A view of the state that no update of a fold changes is as it was after the fold. -/
theorem forEach_keeps {α β : Type} (view : State → β) (l : List α) (f : State → α → State)
    (h : ∀ s a, view (f s a) = view s) : view (forEach l s f) = view s := by
  unfold forEach
  induction l generalizing s with
  | nil => rfl
  | cons a r ih => simp [List.foldl, ih, h]

/-! ### The end of a command -/

variable (t : State)

@[simp] theorem commit_pending : (commit s t).pending = s.pending := rfl
@[simp] theorem commit_fresh : (commit s t).fresh = t.fresh := rfl
@[simp] theorem commit_now : (commit s t).now = t.now := rfl
@[simp] theorem commit_regs : (commit s t).regs = t.regs := rfl
@[simp] theorem commit_islands : (commit s t).islands = t.islands := rfl
@[simp] theorem commit_arbs : (commit s t).arbs = t.arbs := rfl
@[simp] theorem commit_merges : (commit s t).merges = t.merges := rfl
@[simp] theorem commit_tiles : (commit s t).tiles = t.tiles := rfl
@[simp] theorem commit_holds : (commit s t).holds = t.holds := rfl
@[simp] theorem commit_staged : (commit s t).staged = t.staged := rfl
@[simp] theorem commit_chains : (commit s t).chains = t.chains := rfl
@[simp] theorem commit_partials : (commit s t).partials = t.partials := rfl
@[simp] theorem commit_strata : (commit s t).strata = t.strata := rfl
@[simp] theorem commit_tier : (commit s t).tier = t.tier := rfl
@[simp] theorem commit_fab : (commit s t).fab = t.fab := rfl
@[simp] theorem commit_coll : (commit s t).coll = t.coll := rfl
@[simp] theorem commit_ckpt : (commit s t).ckpt = t.ckpt := rfl
@[simp] theorem commit_ing : (commit s t).ing = t.ing := rfl
@[simp] theorem commit_host : (commit s t).host = t.host := rfl
@[simp] theorem commit_parts : (commit s t).parts = t.parts := rfl
@[simp] theorem commit_accounts : (commit s t).accounts = t.accounts := rfl
@[simp] theorem commit_pwr : (commit s t).pwr = t.pwr := rfl
@[simp] theorem commit_sec : (commit s t).sec = t.sec := rfl
@[simp] theorem commit_boot : (commit s t).boot = t.boot := rfl
@[simp] theorem commit_clspHold : (commit s t).clspHold = t.clspHold := rfl
@[simp] theorem commit_flying : (commit s t).flying = t.flying := rfl
@[simp] theorem commit_partSent : (commit s t).partSent = t.partSent := rfl
@[simp] theorem commit_out : (commit s t).out = t.out := rfl

@[simp] theorem tileAt_commit (k : Nat) : tileAt (commit s t) k = tileAt t k := rfl
@[simp] theorem liveTile_commit (k : Nat) : liveTile (commit s t) k = liveTile t k := rfl
@[simp] theorem partAt_commit (k : Nat) : partAt (commit s t) k = partAt t k := rfl
@[simp] theorem queueAt_commit (k : Nat) : queueAt (commit s t) k = queueAt t k := rfl
@[simp] theorem cmdAt_commit (k : Nat) : cmdAt (commit s t) k = cmdAt t k := rfl
@[simp] theorem linkAt_commit (k : Nat) : linkAt (commit s t) k = linkAt t k := rfl
@[simp] theorem collAt_commit (k j : Nat) : collAt (commit s t) k j = collAt t k j := rfl
@[simp] theorem pipeAt_commit (k : Nat) : pipeAt (commit s t) k = pipeAt t k := rfl
@[simp] theorem slotAt_commit (k : Nat) : slotAt (commit s t) k = slotAt t k := rfl
@[simp] theorem islandAt_commit (k : Island) : islandAt (commit s t) k = islandAt t k := rfl
@[simp] theorem regGet_commit (k : Reg) : regGet (commit s t) k = regGet t k := rfl
@[simp] theorem regFld_commit (k : Reg) (a b : Nat) : regFld (commit s t) k a b = regFld t k a b := rfl
@[simp] theorem regBit_commit (k : Reg) (a : Nat) : regBit (commit s t) k a = regBit t k a := rfl

/-- A committed state reads every byte of device memory as the command left it. -/
@[simp] theorem devByte_commit (a : Nat) : devByte (commit s t) a = devByte t a := by simp [devByte, commit]
/-- And every byte of host memory. -/
@[simp] theorem hostByte_commit (a : Nat) : hostByte (commit s t) a = hostByte t a := by simp [hostByte, commit]

/-- A committed state meets the invariant. -/
theorem commit_inv : Inv (commit s t) := by
  refine ⟨Tbl.canon_wf, Tbl.canon_wf, ?_⟩
  simp only [commit]
  omega

/-- A committed state has the fuses of before, but that the security version minimum may have risen. -/
theorem commit_fuses_keep (h : s.fuses.svnMin ≤ 64) :
    (commit s t).fuses.spares = s.fuses.spares ∧ (commit s t).fuses.vendor = s.fuses.vendor
      ∧ (commit s t).fuses.revoked = s.fuses.revoked ∧ s.fuses.svnMin ≤ (commit s t).fuses.svnMin := by
  refine ⟨rfl, rfl, rfl, ?_⟩
  simp only [commit]
  omega

/-! ### Registers -/

/-- A register reads as it was set, within its 64 bits. -/
theorem regGet_regSet_self (r : Reg) (v : Nat) : regGet (regSet s r v) r = v % 2 ^ 64 := by
  simp [regGet, regSet]

/-- Setting one register leaves every register of another key. -/
theorem regGet_regSet_other (r q : Reg) (v : Nat) (h : q.key ≠ r.key) : regGet (regSet s r v) q = regGet s q := by
  simp [regGet, regSet, Tbl.get_put_other h]

end Sys2Proof.Machine
end

