-- ==== Sys2Proof/Laws/Newt.lean ====
section
/-! SUPPORT. What the operations that the newt instructions share can do: a row that executes, registers and predicates after
a write, the loop stack, waits. -/

namespace Sys2Proof.Machine
open Sys2Proof

/-- A newt about to execute a word of a row's operation code does what the row does. -/
theorem newtRow_runs {s : State} {t : TileId} {e : ParityHit} {w : W32} {op : Nat} {act : State → Nat → NInstr → State}
    (h : Executes s t w) (he : e ≠ .imem) (ho : (ndecode w).op = op) :
    newtRow s t e op act = act s (liveTile s t.toNat) (ndecode w) := by
  obtain ⟨⟨h1, h2, h3, h4⟩, h5, h6⟩ := h
  unfold newtOf at *
  subst ho
  unfold newtRow
  simp only [h1, h3, Bool.true_eq_false, Bool.false_eq_true, if_false, he]
  rw [if_neg (Nat.not_le.2 h2), h4]
  simp [h5, h6]

/-- A word that decoding refuses raises ILLEGAL under every row. -/
theorem newtRow_illegal {s : State} {t : TileId} {e : ParityHit} {w : W32} {op : Nat} {act : State → Nat → NInstr → State}
    (h : Fetches s t w) (hw : nlegal w = false) (he : e ≠ .imem) :
    newtRow s t e op act = newtFault s (liveTile s t.toNat) 0x01 0 false := by
  obtain ⟨h1, h2, h3, h4⟩ := h
  unfold newtOf at *
  unfold newtRow
  simp only [h1, h3, Bool.true_eq_false, Bool.false_eq_true, if_false, he]
  rw [if_neg (Nat.not_le.2 h2), h4, if_pos hw]

/-- A row whose guard is false completes as a NOP. -/
theorem newtRow_guard {s : State} {t : TileId} {e : ParityHit} {w : W32} {op : Nat} {act : State → Nat → NInstr → State}
    (h : Fetches s t w) (h5 : nlegal w = true)
    (h6 : guardOf (newtOf s t) (ndecode w) = false) (he : e ≠ .imem) (ho : (ndecode w).op = op) :
    newtRow s t e op act = modTile s (liveTile s t.toNat) goNext := by
  obtain ⟨h1, h2, h3, h4⟩ := h
  unfold newtOf at *
  subst ho
  unfold newtRow
  simp only [h1, h3, Bool.true_eq_false, Bool.false_eq_true, if_false, he]
  rw [if_neg (Nat.not_le.2 h2), h4]
  simp [h5, h6]

theorem gReg_zero (x : Tile) : gReg x 0 = 0 := rfl
theorem pReg_zero (x : Tile) : pReg x 0 = true := rfl

theorem gReg_setG (x : Tile) (v : W64) (n k : Nat) : gReg (setG x n v) k = if k = n ∧ n ≠ 0 then v else gReg x k := by
  unfold gReg setG
  by_cases hn : n = 0 <;> by_cases hk : k = 0 <;> by_cases h : k = n <;> simp_all [Tbl.get_put]

theorem pReg_setP (x : Tile) (v : Bool) (n k : Nat) : pReg (setP x n v) k = if k = n ∧ n ≠ 0 then v else pReg x k := by
  unfold pReg setP
  by_cases hn : n = 0 <;> by_cases hk : k = 0 <;> by_cases h : k = n <;> simp_all [Tbl.get_put]

@[simp] theorem goOn_g (x : Tile) (n : Nat) (a b c : Bool) : (goOn x n a b c).g = x.g := rfl
@[simp] theorem goOn_p (x : Tile) (n : Nat) (a b c : Bool) : (goOn x n a b c).p = x.p := rfl
@[simp] theorem goOn_st (x : Tile) (n : Nat) (a b c : Bool) : (goOn x n a b c).st = x.st := rfl
@[simp] theorem goOn_smem (x : Tile) (n : Nat) (a b c : Bool) : (goOn x n a b c).smem = x.smem := rfl
@[simp] theorem goOn_acc (x : Tile) (n : Nat) (a b c : Bool) : (goOn x n a b c).acc = x.acc := rfl
@[simp] theorem goOn_ob (x : Tile) (n : Nat) (a b c : Bool) : (goOn x n a b c).ob = x.ob := rfl
@[simp] theorem goOn_queue (x : Tile) (n : Nat) (a b c : Bool) : (goOn x n a b c).queue = x.queue := rfl
@[simp] theorem goOn_bars (x : Tile) (n : Nat) (a b c : Bool) : (goOn x n a b c).bars = x.bars := rfl
@[simp] theorem goOn_part (x : Tile) (n : Nat) (a b c : Bool) : (goOn x n a b c).part = x.part := rfl
@[simp] theorem setG_pc (x : Tile) (n : Nat) (v : W64) : (setG x n v).pc = x.pc := by unfold setG; split <;> rfl
@[simp] theorem setG_loops (x : Tile) (n : Nat) (v : W64) : (setG x n v).loops = x.loops := by unfold setG; split <;> rfl
@[simp] theorem setG_p (x : Tile) (n : Nat) (v : W64) : (setG x n v).p = x.p := by unfold setG; split <;> rfl
@[simp] theorem setG_st (x : Tile) (n : Nat) (v : W64) : (setG x n v).st = x.st := by unfold setG; split <;> rfl
@[simp] theorem setG_smem (x : Tile) (n : Nat) (v : W64) : (setG x n v).smem = x.smem := by unfold setG; split <;> rfl
@[simp] theorem setG_acc (x : Tile) (n : Nat) (v : W64) : (setG x n v).acc = x.acc := by unfold setG; split <;> rfl
@[simp] theorem setG_ob (x : Tile) (n : Nat) (v : W64) : (setG x n v).ob = x.ob := by unfold setG; split <;> rfl
@[simp] theorem setG_queue (x : Tile) (n : Nat) (v : W64) : (setG x n v).queue = x.queue := by unfold setG; split <;> rfl
@[simp] theorem setP_g (x : Tile) (n : Nat) (v : Bool) : (setP x n v).g = x.g := by unfold setP; split <;> rfl
@[simp] theorem setP_pc (x : Tile) (n : Nat) (v : Bool) : (setP x n v).pc = x.pc := by unfold setP; split <;> rfl
@[simp] theorem setP_st (x : Tile) (n : Nat) (v : Bool) : (setP x n v).st = x.st := by unfold setP; split <;> rfl
@[simp] theorem setP_smem (x : Tile) (n : Nat) (v : Bool) : (setP x n v).smem = x.smem := by unfold setP; split <;> rfl
@[simp] theorem setP_acc (x : Tile) (n : Nat) (v : Bool) : (setP x n v).acc = x.acc := by unfold setP; split <;> rfl
@[simp] theorem setP_ob (x : Tile) (n : Nat) (v : Bool) : (setP x n v).ob = x.ob := by unfold setP; split <;> rfl
@[simp] theorem setP_queue (x : Tile) (n : Nat) (v : Bool) : (setP x n v).queue = x.queue := by unfold setP; split <;> rfl
theorem gReg_goOn (x : Tile) (n : Nat) (a b c : Bool) (k : Nat) : gReg (goOn x n a b c) k = gReg x k := rfl
theorem pReg_goOn (x : Tile) (n : Nat) (a b c : Bool) (k : Nat) : pReg (goOn x n a b c) k = pReg x k := rfl

/-- The sign-extended immediate of a word, from its low twelve bits. -/
theorem ndecode_simm (w : W32) : (ndecode w).simm = (w.setWidth 12).signExtend 64 := by
  simp only [NInstr.simm, ndecode, signedOf, bitsOf, BitVec.signExtend, BitVec.toInt_eq_toNat_cond, BitVec.toNat_setWidth]
  congr 1
  norm_num
  split <;> split <;> omega

/-- A newt that has nothing to wait for runs on; else it waits. -/
theorem waitFor_waits {s : State} {l : Nat} {w : WaitFor}
    (h : waitOver (modTile s l fun x => { x with st := .waiting, wait := w, waitSince := s.now }) l = false) :
    waitFor s l w = modTile s l fun x => { x with st := .waiting, wait := w, waitSince := s.now } := by
  unfold waitFor wake
  simp [h]

/-- Waking a newt changes tiles alone. -/
theorem wake_strata (s : State) (l : Nat) : (wake s l).strata = s.strata := by
  unfold wake; simp only; split <;> rfl
theorem wake_parts (s : State) (l : Nat) : (wake s l).parts = s.parts := by
  unfold wake; simp only; split <;> rfl
theorem waitFor_strata (s : State) (l : Nat) (w : WaitFor) : (waitFor s l w).strata = s.strata := wake_strata _ l
theorem waitFor_parts (s : State) (l : Nat) (w : WaitFor) : (waitFor s l w).parts = s.parts := wake_parts _ l
@[simp] theorem waitFor_liveTile (s : State) (l : Nat) (w : WaitFor) (u : Nat) : liveTile (waitFor s l w) u = liveTile s u := by
  simp [liveTile, waitFor_strata]

/-- A newt whose wait is over at once completes the instruction. -/
theorem waitFor_over {s : State} {l : Nat} {w : WaitFor}
    (h : waitOver (modTile s l fun x => { x with st := .waiting, wait := w, waitSince := s.now }) l = true)
    (hw : w = .bar ∨ (∃ c v, w = .wev c v) ∨ ∃ n, w = .xwait n) :
    tileAt (waitFor s l w) l = { goNext (tileAt s l) with st := .running, wait := .nothing, waitSince := s.now } := by
  unfold waitFor wake
  simp only [h, tileAt_modTile, if_true, and_self]
  rcases hw with rfl | ⟨c, v, rfl⟩ | ⟨n, rfl⟩ <;> rfl

/-- FENCE whose posted messages have all been answered returns the count of negative acknowledgements. -/
theorem waitFor_fence_over {s : State} {l rd : Nat} (h : (tileAt s l).posted = 0) :
    tileAt (waitFor s l (.fence rd)) l
      = { goNext (setG { tileAt s l with st := .waiting, wait := .fence rd, waitSince := s.now } rd
            (BitVec.ofNat 64 (tileAt s l).naks)) with st := .running, wait := .nothing, naks := 0 } := by
  have ho : waitOver (modTile s l fun x => { x with st := .waiting, wait := .fence rd, waitSince := s.now }) l = true := by
    simp [waitOver, h]
  unfold waitFor wake
  simp only [ho, tileAt_modTile, if_true, and_self]

/-- The command that an issue builds has the number it is given and the instruction's operation code. -/
theorem buildCmd_num {x : Tile} {i : NInstr} {n : Nat} {c : TileCmd} (h : buildCmd x i n = some c) : c.num = n := by
  unfold buildCmd at h
  simp only at h
  repeat' split at h
  all_goals first
    | (simp only [Option.some.injEq] at h; rw [← h])
    | (simp only [Option.map_eq_some_iff] at h; obtain ⟨_, _, rfl⟩ := h; rfl)
    | cases h

theorem buildCmd_op {x : Tile} {i : NInstr} {n : Nat} {c : TileCmd} (h : buildCmd x i n = some c)
    (ho : i.op ∈ [0x20, 0x21, 0x22, 0x24, 0x25, 0x26]) : c.op = i.op := by
  unfold buildCmd at h
  simp only [List.mem_cons, List.not_mem_nil, or_false] at ho
  rcases ho with ho | ho | ho | ho | ho | ho <;> simp only [ho] at h ⊢ <;> repeat' split at h
  all_goals first
    | (simp only [Option.some.injEq] at h; rw [← h])
    | (simp only [Option.map_eq_some_iff] at h; obtain ⟨_, _, rfl⟩ := h; rfl)
    | cases h

end Sys2Proof.Machine
end

