-- ==== Sys2Proof/Tests/Slice0.lean ====
section
/-! SUPPORT. Tests: ill-formed terms that the checks refuse, small results worked out by hand from the spec, and, for each
statement, states and operands that meet its hypotheses together. -/

set_option Elab.async false
set_option maxRecDepth 100000
set_option exponentiation.threshold 400

namespace Sys2Proof.Tests
open Sys2Proof Sys2Proof.Machine

/-! ### Small states -/

/-- A module in RUN with its power on. -/
def tOn : State :=
  { boot := { phase := .run }, pwr := { powered := true, switchOpen := false } }
/-- The newt of tile 0, running word `w` of partition 0's program. -/
def tNewt (w : W32) (f : Tile → Tile := id) : State :=
  { tOn with tiles := [(0, f { st := .running, pc := 2048, imem := [(2048, w)], part := some 0, groupSize := 1 })] }
/-- A word of an operation code with its lower 22 bits. -/
def tWord (op low : Nat) : W32 := BitVec.ofNat 32 (op * 2 ^ 26 + low)
/-- The outcome's state. -/
def tNext (r : Res) : State := match r with | .next s => s | _ => State.reset
/-- Bytes of small numbers. -/
def tBytes (l : List Nat) : Bytes := l.map (BitVec.ofNat 8)
/-- A list padded with zeros. -/
def tPad (n : Nat) (l : List Nat) : Bytes := tBytes (l ++ List.replicate (n - l.length) 0)
/-- A command of the PF that waits to be taken up, with its payload. -/
def tCmd (op : Nat) (inl : List Nat := []) (pay : Bytes := []) : Cmd :=
  { id := 1, queue := none, origin := none, opcode := op, flags := 0, tag := 7, at_ := none, late := false, payload := 0,
    payBytes := some pay, payLen := pay.length, inl := tPad 24 inl, fn := 0, part := 0xFF, client := 0, deadlineQ := false }
/-- A state with one command. -/
def tWith (c : Cmd) (s : State := tOn) : State := { s with host := { s.host with cmds := [c] } }

/-- A picture of one point. -/
def tPic : Picture :=
  { width := 1, height := 1, depth := 8, mono := false, matrix := none, fullRange := none, luma := [16], cb := [128], cr := [128]
    coded := 0, grain := false, preds := [⟨0, 0, 16, 16, none, none⟩], units := [], metadata := [] }
/-- A window in which rail 27 took 5 pJ. -/
def tWindow : EnergyWindow :=
  { railPj := List.replicate 27 0 ++ [5], railMv := List.replicate 28 800, railMa := List.replicate 28 9, tileNs := []
    engineNs := [], t1Bytes := [], t2Bytes := [], linkBytes := [], hostBytes := [] }
/-- A step of partition 0 on two tiles. -/
def tRun : Step :=
  { cid := 1, num := 1, members := [0, 1], args := [], deadline := 0, client := 0, t0 := 0 }
/-- Partition 0 runs its step on tiles 0 and 1; tile 0 executes `w`. -/
def tGroup (w : W32) (f : Tile → Tile := id) (g : Step → Step := id) : State :=
  { tOn with
    tiles := [(0, f { st := .running, pc := 2048, imem := [(2048, w)], part := some 0, groupSize := 2 }),
      (1, { st := .running, pc := 2048, part := some 0, index := 1, groupSize := 2 })]
    parts := [(0, { st := .running, dies := 1, tiles := [0, 1], stepNum := 1, run := some (g tRun) })] }

/-! ### Well-formedness refuses -/

theorem test_wf_paceWindow : Instr.wf (.paceWindowEnd [[0]]) = false := by decide
theorem test_wf_paceWindow_ok : Instr.wf (.paceWindowEnd (List.replicate 8 (List.replicate 16 0))) = true := by decide
theorem test_wf_arbiter_tile : Instr.wf (.arbiterGrant (.fillPort 0x00C) []) = false := by decide
theorem test_wf_arbiter_mesh : Instr.wf (.arbiterGrant (.meshLink 0 512) []) = false := by decide
theorem test_wf_dataFlit : Instr.wf (.dataFlit 0 [1] ⟨0, false⟩) = false := by decide
theorem test_wf_ctl : (∀ i ∈ [Instr.ctlIdle 0 [], .ctlIdent 0 [], .timeRecord 0 [] 0, .ctlJoin 0 [], .ctlJoinReady 0 [],
    .ctlJoinCommit 0 [], .ctlJoinAbort 0 []], i.wf = false) := by decide
theorem test_wf_messages : (∀ i ∈ [Instr.msgCommand [], .msgNack [], .msgMap [], .msgRead [], .msgReadData [], .msgWrite [],
    .msgBulk [], .msgCheckpoint [], .partialRecord [], .remoteCpl [], .collAbort [], .collReq 0 [], .collGrant 0 [],
    .collData 0 [], .collAck 0 [], .collResend 0 []], i.wf = false) := by decide
theorem test_wf_tiles : (∀ i ∈ [Instr.markerForward 0x070, .waitTimeout 0x00C], i.wf = false) := by decide
theorem test_wf_picture : Instr.wf (.frameDecodeDone 0 0 (.picture { tPic with cb := [] })) = false := by decide
theorem test_wf_window : Instr.wf (.energyWindow { tWindow with railMa := [] }) = false := by decide
theorem test_wf_thermal : Instr.wf (.temperatureMeasure ⟨[], 0, 0⟩) = false := by decide
theorem test_wf_bar4 : (∀ i ∈ [Instr.bar4Read 0 (2 ^ 30) 1, .bar4Read 0 0 0, .bar4Write 0 (2 ^ 30) [0], .bar4Write 0 0 []],
    i.wf = false) := by decide
theorem test_wf_doorbells : (∀ i ∈ [Instr.submissionDoorbell 0 (2 ^ 32) 0 [], .creditDoorbell 0 (2 ^ 32) 0 []], i.wf = false) := by
  decide

/-! ### Newts: words by their bits (R136, R138 to R140) -/

/-- ADD g3, g4, g5 under p0: OP 000001, PG 000, PN 0, RD 00011, RA 00100, RB 00101. -/
theorem test_decode_add : nlegal 0b00000100000001100100001010000000#32 = true
    ∧ (ndecode 0b00000100000001100100001010000000#32).op = 0x01 ∧ (ndecode 0b00000100000001100100001010000000#32).rd = 3
    ∧ (ndecode 0b00000100000001100100001010000000#32).ra = 4 ∧ (ndecode 0b00000100000001100100001010000000#32).rb = 5 := by decide
/-- ADDI g1, g2, -1 under not p3: IMM12 all ones. -/
theorem test_decode_addi : nlegal 0b00110001110000100010111111111111#32 = true
    ∧ (ndecode 0b00110001110000100010111111111111#32).pg = 3 ∧ (ndecode 0b00110001110000100010111111111111#32).pn = true
    ∧ (ndecode 0b00110001110000100010111111111111#32).simm = BitVec.allOnes 64 := by decide
/-- MOVK g17, #0x1234, lsl 48: RD[4] in bit 22, RD[3:0] 0001, HW 11. -/
theorem test_decode_movk : nlegal 0b01001000010001110001001000110100#32 = true
    ∧ (ndecode 0b01001000010001110001001000110100#32).rdw = 17 ∧ (ndecode 0b01001000010001110001001000110100#32).hw = 3
    ∧ (ndecode 0b01001000010001110001001000110100#32).imm16 = 0x1234 := by decide
/-- BR -2: OFF22 all ones but the last. -/
theorem test_decode_br : (ndecode 0b01011000001111111111111111111110#32).off = -2 := by decide
/-- A reserved operation code, a reserved field that is not zero, a reserved condition. -/
theorem test_decode_reserved : nlegal (tWord 0x30 0) = false ∧ nlegal (tWord 0x00 1) = false ∧ nlegal (tWord 0x13 6) = false := by
  decide

/-! ### Newts: hypotheses that are met -/

/-- The newt of tile 0 executes `w`: `Executes`, as a check. -/
def tExec (s : State) (w : W32) : Bool :=
  newtRuns s (liveTile s 0) && decide ((newtOf s 0).pc < 16384) && routineWord (newtOf s 0).pc == false
    && fetchWord s (newtOf s 0) == w && nlegal w && guardOf (newtOf s 0) (ndecode w)
theorem executes_of_tExec {s : State} {w : W32} (h : tExec s w = true) : Executes s 0 w := by
  simpa [tExec, Executes, Fetches, and_assoc] using h

/-- Every instruction executes somewhere, with each register field at its highest number. -/
theorem wit_executes : ∀ row ∈ ([(0x00, 0), (0x01, 0x3FFF80), (0x02, 0x3FFF80), (0x03, 0x3FFF80), (0x04, 0x3FFF80),
    (0x05, 0x3FFF80), (0x06, 0x3FFF80), (0x07, 0x3FFF80), (0x08, 0x3FFF80), (0x09, 0x3FFF80), (0x0A, 0x3FFF80), (0x0B, 0x3FFF80),
    (0x0C, 0x3FFFFF), (0x0D, 0x3FFFFF), (0x0E, 0x3FFFFF), (0x0F, 0x3FFFFF), (0x10, 0x3FFFFF), (0x11, 0x3FFFFF), (0x12, 0x3FFFFF),
    (0x13, 0xFFF85), (0x14, 0xFFBFF), (0x15, 0xE7383), (0x16, 0x3FFFFF), (0x17, 0x3FFFFF), (0x18, 0x1F000), (0x19, 0x1F7FF),
    (0x1A, 0), (0x1B, 0xFFF), (0x1C, 0x3FFFFF), (0x1D, 0x3FFFFF), (0x1E, 0x3FFFFF), (0x1F, 0x3FFFFF), (0x20, 0x3E0003),
    (0x21, 0x3FF000), (0x22, 0x3FF001), (0x23, 0x3E0000), (0x24, 0x3FFF83), (0x25, 0x3FF07F), (0x26, 0x3FF000), (0x27, 0x1F000),
    (0x28, 0), (0x29, 0x1F00F), (0x2A, 0x1F00F), (0x2B, 0xFFF), (0x2C, 0x3E0000), (0x2D, 0x3E0000), (0x2E, 0x3E0010),
    (0x2F, 0x1F010)] : List (Nat × Nat)),
    tExec (tNewt (tWord row.1 row.2)) (tWord row.1 row.2) = true ∧ (ndecode (tWord row.1 row.2)).op = row.1 := by decide

/-- The last word of the program region executes. -/
theorem wit_executes_last : tExec (tNewt (tWord 0 0) fun x => { x with pc := 16383, imem := [(16383, tWord 0 0)] }) (tWord 0 0) = true := by
  decide
theorem wit_cmp : ∀ c ∈ [0, 1, 2, 3, 4, 5], tExec (tNewt (tWord 0x13 c)) (tWord 0x13 c) = true ∧ (ndecode (tWord 0x13 c)).fn % 8 = c
    ∧ tExec (tNewt (tWord 0x14 (512 * c))) (tWord 0x14 (512 * c)) = true ∧ (tWord 0x14 (512 * c)).toNat / 512 % 8 = c := by decide
theorem wit_plog : ∀ c ∈ [0, 1, 2, 3], tExec (tNewt (tWord 0x15 c)) (tWord 0x15 c) = true ∧ (ndecode (tWord 0x15 c)).fn % 4 = c := by
  decide
/-- A guard that is false in the formats with PN and in the W format (MOVZ and MOVK under p1, which is 0). -/
theorem wit_guard_false : ∀ row ∈ newtRows,
    let w := if row.1 = 0x11 ∨ row.1 = 0x12 then tWord row.1 0x800000 else tWord row.1 (0x400000 + if row.1 = 0x19 then 1 else 0)
    newtRuns (tNewt w) 0 = true ∧ nlegal w = true ∧ (ndecode w).op = row.1
      ∧ pReg (newtOf (tNewt w) 0) (ndecode w).pg = (if row.1 = 0x11 ∨ row.1 = 0x12 then false else (ndecode w).pn) := by decide
theorem wit_reserved : newtRuns (tNewt (tWord 0x30 0)) 0 = true ∧ 0x30 ≤ (ndecode (tWord 0x30 0)).op ∧ nlegal (tWord 0x3F 0) = false := by
  decide

/-- BR within and out of a body at its boundaries, and with no body. -/
theorem wit_br :
    let x := fun w => tNewt w fun x => { x with loops := [⟨2047, 2049, 3, false⟩] }
    tExec (x (tWord 0x16 1)) (tWord 0x16 1) = true ∧ 2047 ≤ 2048 + 1 ∧ 2048 + 1 ≤ 2049
      ∧ tExec (x (tWord 0x16 2)) (tWord 0x16 2) = true ∧ ¬ (2048 + 2 ≤ 2049)
      ∧ ((2048 : Int) + ((tWord 0x16 0x3FFFFE).setWidth 22).toInt) % 2 ^ 32 = 2046 := by decide
/-- LOOP: a body of no length, the fourth and the fifth nesting, a count of zero. -/
theorem wit_loop :
    let x := fun w n => tNewt w fun x => { x with loops := List.replicate n ⟨2048, 3000, 1, false⟩, g := [(1, 2)] }
    (tExec (x (tWord 0x19 0x1000) 0) (tWord 0x19 0x1000) = true ∧ ((tWord 0x19 0x1000).setWidth 12).toInt ≤ 0)
      ∧ (tExec (x (tWord 0x19 0x17FF) 4) (tWord 0x19 0x17FF) = true ∧ 0 < ((tWord 0x19 0x17FF).setWidth 12).toInt)
      ∧ (tExec (x (tWord 0x19 1) 3) (tWord 0x19 1) = true ∧ gReg (newtOf (x (tWord 0x19 1) 3) 0) 0 = 0)
      ∧ (tExec (x (tWord 0x19 0x1001) 3) (tWord 0x19 0x1001) = true ∧ gReg (newtOf (x (tWord 0x19 0x1001) 3) 0) 1 ≠ 0) := by decide
theorem wit_loopCounter :
    let x : Tile := { pc := 5, loops := [⟨3, 5, 1, false⟩] }
    x.pc < 2 ^ 31 ∧ x.pc = 5 ∧ (3 : Nat) < 2 ^ 32 ∧ (goNext x).pc = 3 ∧ (goNext { x with loops := [⟨3, 5, 0, false⟩] }).loops = []
      ∧ (goNext { x with pc := 4 }).pc = 5 := by decide

/-- Scratch addresses at the end of scratch memory, beyond it, and misaligned. -/
theorem wit_scratch :
    let x := fun w a => tNewt w fun x => { x with g := [(1, BitVec.ofNat 64 a)] }
    ∀ op ∈ [0x1C, 0x1D, 0x1E, 0x1F], tExec (x (tWord op 0x1000) 0x7FF8) (tWord op 0x1000) = true
      ∧ (gReg (newtOf (x (tWord op 0x1000) 0x7FF8) 0) 1 + ((tWord op 0x1000).setWidth 12).signExtend 64).toNat + 8 ≤ 0x8000
      ∧ 0x8000 < (gReg (newtOf (x (tWord op 0x1000) 0x8000) 0) 1 + ((tWord op 0x1000).setWidth 12).signExtend 64).toNat + 4
      ∧ (gReg (newtOf (x (tWord op 0x1FFF) 0x7FF8) 0) 1 + ((tWord op 0x1FFF).setWidth 12).signExtend 64).toNat % 4 ≠ 0 := by decide
/-- Tile commands: a queue with one free place and a full one; a descriptor at the end of scratch memory and beyond it. -/
theorem wit_issue : ∀ op ∈ [0x20, 0x21, 0x22, 0x24, 0x25, 0x26],
    let x : Tile := { g := [(1, 0x7FD0)], queue := List.replicate 15 ⟨1, 0x20, .matrix, 0, 0, 0, 0, [], [], [], [], false, [], [], none, false, []⟩ }
    x.queue.length < 16 ∧ (buildCmd x (ndecode (tWord op (0x1000 + 0x80))) 1).isSome = true
      ∧ (buildCmd { x with g := [(1, 0x7FD8 + 0x10)] } (ndecode (tWord op (0x1000 + 0x80))) 1 = none ∨ op = 0x20) := by decide
theorem wit_half : fieldAt (bytesAt 0 [] 0x7FD0 48) 0 1 ≠ 1 ∧ fieldAt (bytesAt 0 [] 0x7FD0 48) 0x20 8 / 2 ^ 62 ≠ 2 ∧ 0x7FD0 % 8 = 0 := by
  decide
/-- XWAIT on a number at most, equal to and beyond those issued, and on one that has completed. -/
theorem wit_xwait :
    let x := fun n q => tNewt (tWord 0x27 0x1000) fun x => { x with g := [(1, n)], issued := 3, queue := q }
    let c : TileCmd := ⟨3, 0x20, .matrix, 0, 0, 0, 0, [], [], [], [], false, [], [], none, false, []⟩
    tExec (x 0 []) (tWord 0x27 0x1000) = true ∧ tExec (x 4 []) (tWord 0x27 0x1000) = true
      ∧ tExec (x 3 [c]) (tWord 0x27 0x1000) = true ∧ ((newtOf (x 3 [c]) 0).queue.any fun c => decide (c.num ≤ 3)) = true
      ∧ tExec (x 2 [c]) (tWord 0x27 0x1000) = true ∧ ((newtOf (x 2 [c]) 0).queue.all fun c => decide (2 < c.num)) = true := by decide
/-- WEV below and at its count, FENCE with and without events on their way, BAR before and after the other member. -/
theorem wit_waits :
    let v := fun n => tNewt (tWord 0x2A 0x100F) fun x => { x with g := [(1, 2)], events := [(15, n)] }
    let f := fun n => tNewt (tWord 0x2C 0x20000) fun x => { x with posted := n }
    let b := fun n => tGroup (tWord 0x28 0) fun x => { x with bars := n }
    (tExec (v 1) (tWord 0x2A 0x100F) = true ∧ Tbl.get 0 (newtOf (v 1) 0).events 15 < 2)
      ∧ (tExec (v 2) (tWord 0x2A 0x100F) = true ∧ 2 ≤ Tbl.get 0 (newtOf (v 2) 0).events 15)
      ∧ (tExec (f 1) (tWord 0x2C 0x20000) = true ∧ tExec (f 0) (tWord 0x2C 0x20000) = true)
      ∧ (tExec (b 0) (tWord 0x28 0) = true ∧ groupOf (b 0) 0 = [0, 1] ∧ (tileAt (b 0) 1).bars = 0) := by decide
theorem wit_barOver :
    let s := { tGroup (tWord 0x28 0) with tiles := [(0, newtOf (tGroup (tWord 0x28 0)) 0), (1, { part := some 0, bars := 1 })] }
    tExec s (tWord 0x28 0) = true ∧ ∀ m ∈ groupOf s 0, m ≠ 0 → 0 < (tileAt s m).bars := by decide
/-- SEV to the last member and beyond, MARK lower, first and within the microsecond, HALT with and without commands. -/
theorem wit_events :
    let e := fun n => tGroup (tWord 0x29 0x100F) fun x => { x with g := [(1, n)] }
    let m := fun l f => tGroup (tWord 0x2B 7) fun x => { x with lastMark := l, lastForward := f }
    (tExec (e 1) (tWord 0x29 0x100F) = true ∧ 1 < (newtOf (e 1) 0).groupSize ∧ (newtOf (e 2) 0).groupSize ≤ 2)
      ∧ (tExec (m (some 8) none) (tWord 0x2B 7) = true ∧ tExec (m (some 7) none) (tWord 0x2B 7) = true)
      ∧ ((m (some 7) (some 0)).now < 0 + 1000) ∧ tExec (tNewt (tWord 0x2E 0x010)) (tWord 0x2E 0x010) = true
      ∧ tExec (tNewt (tWord 0x2E 0x006)) (tWord 0x2E 0x006) = true ∧ tExec (tNewt (tWord 0x2F 0x011)) (tWord 0x2F 0x011) = true := by
  decide
theorem wit_markerForward :
    let s := { tGroup 0 (fun x => { x with unsentMark := some (9, 5), lastForward := some 0 }) with now := 1000 }
    (newtOf s 0).unsentMark = some (9, 5) ∧ (newtOf s 0).lastForward = some 0 ∧ 0 + 1000 ≤ s.now ∧ (newtOf s 0).part = some 0 := by
  decide
/-- A wait at and one nanosecond past its bound of 100 us, and a bound of 0. -/
theorem wit_waitTimeout :
    let s := fun n => regPut { tNewt 0 (fun x => { x with st := .waiting, wait := .bar }) with now := n } ⟨.newtCtrl, 0, 0⟩ 0 8 1
    ((newtOf (s 100001) 0).st = .waiting ∧ regFld (s 100001) ⟨.newtCtrl, 0, 0⟩ 0 8 = 1 ∧ 0 + 1 * 100000 < (s 100001).now)
      ∧ (s 100000).now ≤ 0 + 1 * 100000 ∧ regFld (regPut (s 0) ⟨.newtCtrl, 0, 0⟩ 0 8 0) ⟨.newtCtrl, 0, 0⟩ 0 8 = 0 := by decide

/-! ### Newts: results worked out by hand -/

/-- MIN takes the signed lower, MAX the signed higher; SHL by 64 shifts by 0; MUL keeps the low 64 bits. -/
theorem test_arith :
    let r : (TileId → ParityHit → Instr) → Nat → W64 → W64 → W64 := fun i op a b => gReg (newtOf (tNext (exec (i 0 .none) (tNewt (tWord op (0x60000 + 0x1000 + 0x100)) fun x =>
      { x with g := [(1, a), (2, b)] }))) 0) 3
    r .newtMin 0x0A (-1) 1 = -1 ∧ r .newtMax 0x0B (-1) 1 = 1 ∧ r .newtShl 0x06 3 64 = 3 ∧ r .newtSra 0x08 (-8) 1 = -4
      ∧ r .newtMul 0x09 (-1) (-1) = 1 ∧ r .newtSub 0x02 0 1 = -1 := by decide
/-- MOVK replaces 16 bits and keeps the rest. -/
theorem test_movk : gReg (newtOf (tNext (exec (.newtMovk 0 .none) (tNewt (tWord 0x12 (0x40000 + 0x10000 + 0xABCD)) fun x =>
    { x with g := [(1, 0x1111222233334444)] }))) 0) 1 = 0x11112222ABCD4444 := by decide
/-- A loop of one instruction with a count of two runs it twice. -/
theorem test_loop : (goNext (goNext { pc := 9, loops := [⟨9, 9, 1, false⟩] : Tile })).pc = 10 := by decide

/-! ### Islands, arbiters, the brake: hypotheses that are met -/

/-- Island `i` with CLK_STATE `k`. -/
def tIsland (i : Island) (k : Nat) (f : IslandSt → IslandSt := id) : State := regPut (modIsland tOn i f) (xstatR i) 8 2 k

theorem wit_crossings :
    clkState (tIsland .tel 0) .tel = 0 ∧ (islandAt (tIsland .tel 0 fun x => { x with inQ := List.replicate 7 [] }) .tel).inQ.length < islandDepth .tel
      ∧ (islandAt (tIsland .tel 0 fun x => { x with outQ := [[5]] }) .tel).outQ = [[5]]
      ∧ (islandAt (tIsland .tel 0) .tel).inFlight = false
      ∧ (islandAt (tIsland .tel 0 fun x => { x with inFlight := true, outFlight := true }) .tel).inPend = false
      ∧ clkState (regPut (tIsland .tel 0 fun x => { x with inFlight := true, inPend := true }) (xstatR .tel) 1 1 1) .tel = 0
      ∧ regBit (regPut (tIsland .tel 0 fun x => { x with inFlight := true, inPend := true }) (xstatR .tel) 1 1 1) (xstatR .tel) 1 = true
      ∧ regBit (tIsland .tel 0 fun x => { x with outFlight := true, outPend := true }) (xstatR .tel) 1 = false := by decide
theorem wit_wakes :
    clkState (tIsland .tel 2) .tel = 2 ∧ (islandAt (tIsland .tel 2) .tel).inQ.length < islandDepth .tel
      ∧ clkState (tIsland (.t1c 7) 3) (.t1c 7) = 3 ∧ wakeBounded (.t1c 7) = true ∧ regBit (tIsland (.t1c 7) 3) (xstatR (.t1c 7)) 2 = false
      ∧ clkState tOn .boot = 0 ∧ mayStop tOn .boot = true ∧ bitOf (2 : W32).toNat 1 = true ∧ bitOf (1 : W32).toNat 1 = false := by decide
/-- An arbiter with the oldest request of each priority, and the P1 request that has waited long enough. -/
theorem wit_arbiter :
    let r := fun (p : Fin 4) (n : Nat) => (⟨⟨p.val, n, .background, false, 0, 0, false⟩, p, n⟩ : WaitReq)
    let first := fun (l : List WaitReq) (p : Fin 4) => (l.filter fun w => w.prio == p).head?
    let due := fun w : WaitReq => w.prio == 1 && decide (p0Depth (.fillPort 0) ≤ w.p0Seen)
    let n := p0Depth (.fillPort 0)
    resourceCtl (.fillPort 0) = none ∧ [r 0 0, r 1 n].find? due = some (r 1 n) ∧ [r 1 (n - 1), r 0 0].find? due = none
      ∧ first [r 1 (n - 1), r 0 0] 0 = some (r 0 0) ∧ first [r 1 0, r 2 0] 0 = none ∧ first [r 1 0, r 2 0] 1 = some (r 1 0)
      ∧ first [r 2 0, r 3 0] 1 = none ∧ first [r 2 0, r 3 0] 2 = some (r 2 0) ∧ first [r 3 0] 2 = none ∧ first [r 3 0] 3 = some (r 3 0)
      ∧ ([r 2 0].filter fun w => w.prio == 2).find? (fun w => w.req.write == false) = some (r 2 0)
      ∧ reqPrio tOn (r 0 0).req = 3 ∧ reqPrio tOn { (r 0 0).req with origin := .fault } = 0
      ∧ p0Full (.fillPort 0) (List.replicate n (r 0 0)) = true := by decide
theorem wit_brake :
    let s := regPut tOn ⟨.pwrVreq, 0, 0⟩ 8 3 5
    s.pwr.powered = true ∧ s.pwr.brake = false ∧ 659 < brakeLevel (brakeState s) ∧ 2000 < 2001
      ∧ brakeLevel (brakeState s) ≤ 660 ∧ brakeLevel (brakeState s) + 15 < 676 ∧ 675 ≤ brakeLevel (brakeState s) + 15
      ∧ ({ tOn.pwr with brake := true } : Power).holdup = false := by decide
theorem wit_pace : tOn.pwr.powered = true ∧ State.reset.pwr.powered = false ∧ (List.replicate 8 (List.replicate 16 (7 : Nat))).length = 8
    ∧ ∀ r ∈ List.replicate 8 (List.replicate 16 (7 : Nat)), r.length = 16 := by decide +kernel
/-- A window: the die's index is its lowest sensor's. -/
theorem test_pace : regFld (tNext (exec (.paceWindowEnd ([List.replicate 15 1700 ++ [1600]] ++ List.replicate 7 (List.replicate 16 1650))) tOn))
    ⟨.telPaceDie, 0, 0⟩ 0 12 = 1024 := by decide

/-! ### Start, updates, activation: hypotheses that are met -/

/-- A phase of the start. -/
def tPhase (p : Phase) (f : Boot → Boot := id) : State := { tOn with boot := f { phase := p } }

theorem wit_start :
    State.reset.pwr.powered = false ∧ (tPhase .verify).boot.phase = .verify ∧ imageStatus (tPhase .verify) 0 ≠ stOk
      ∧ (tPhase .verify).boot.tried.contains 1 = false ∧ (tPhase .verify fun b => { b with tried := [1] }).boot.tried.contains 1 = true
      ∧ imageStatus (tPhase .verify fun b => { b with tried := [1] }) 0 ≠ stOk ∧ (tPhase .fill fun b => { b with imageOk := true }).boot.imageOk = true
      ∧ (tPhase .fill).boot.tiersFilled = false ∧ (tPhase .load).boot.phase = .load ∧ tOn.pwr.holdup = false := by decide
theorem wit_digests : sectionDigests (tPhase .load fun b => { b with digests := sectionDigests (tPhase .load) 0 }) 0
    = (tPhase .load fun b => { b with digests := sectionDigests (tPhase .load) 0 }).boot.digests := rfl
theorem wit_digests_differ : sectionDigests (tPhase .load) 0 ≠ (tPhase .load).boot.digests := by decide
/-- The hold-up bank at 90 %, and at 89 %. -/
def tCharged (n : Nat) (c : Cmd) (f : State → State := id) : State := f (regPut (tWith c) ⟨.pwrHoldup, 0, 0⟩ 0 7 n)
theorem wit_updates :
    let s := fun op (inl : List Nat) => tCharged 90 (tCmd op inl)
    (∀ op ∈ [0x400, 0x402, 0x403], cmdFor (s op []) 1 op = some (tCmd op)) ∧ (tCmd 0x400).fn = 0 ∧ flashFree (s 0x400 []) = true
      ∧ regFld (s 0x400 []) ⟨.pwrHoldup, 0, 0⟩ 0 7 = 90 ∧ regFld (tCharged 89 (tCmd 0x400)) ⟨.pwrHoldup, 0, 0⟩ 0 7 < 90
      ∧ cmdFor (s 0x401 [0, 0xF0, 0xFF, 2]) 1 0x401 = some (tCmd 0x401 [0, 0xF0, 0xFF, 2])
      ∧ fieldAt (tCmd 0x401 [0, 0xF0, 0xFF, 2]).inl 0 4 % 4096 = 0 ∧ fieldAt (tCmd 0x401 [0, 0xF0, 0xFF, 2]).inl 0 4 + 4096 = 0x3000000
      ∧ (s 0x402 []).boot.op = none ∧ imageStatus (beginCmd (s 0x402 []) 1) 1 ≠ stOk
      ∧ (s 0x403 [1]).boot.act = none ∧ (tCmd 0x403 [1]).byte 0 < 2 ∧ ∀ p < 16, (partAt (s 0x403 [1]) p).st ≠ .running := by decide
theorem wit_activation :
    let s : State := { tOn with boot := { phase := .run, act := some (1, true) } }
    let t : State := { tOn with boot := { phase := .run, act := some (1, true), actPaused := true } }
    s.boot.op = none ∧ s.boot.actPaused = false ∧ (tPhase .pause).boot.phase = .pause ∧ t.boot.actPaused = true ∧ flashFree t = true
      ∧ (tPhase .run fun b => { b with op := some (.erase 1 (some 1)) }).boot.op = some (.erase 1 (some 1))
      ∧ (tPhase .run fun b => { b with op := some (.selector []) }).boot.phase ≠ .recovery := by decide

/-! ### Power and telemetry: hypotheses that are met -/

theorem wit_voltage :
    tOn.boot.phase = .run ∧ (5 : W32).toNat % 8 ≤ 5 ∧ 5 < (6 : W32).toNat % 8
      ∧ cmdFor (tWith (tCmd 0x200 [0, 0, 5, 100])) 1 0x200 = some (tCmd 0x200 [0, 0, 5, 100])
      ∧ (tCmd 0x200 [0, 0, 5, 100]).byte 2 ≤ 5 ∧ 70 ≤ (tCmd 0x200 [0, 0, 5, 70]).byte 3 ∧ (tCmd 0x200 [0, 0, 5, 100]).byte 3 ≤ 100
      ∧ 5 < (tCmd 0x200 [0, 0, 6, 100]).byte 2 ∧ (tCmd 0x200 [0, 0, 5, 69]).byte 3 < 70 ∧ 100 < (tCmd 0x200 [0, 0, 5, 101]).byte 3 := by
  decide
theorem wit_highAllowed : highAllowed tOn = true
    ∧ highAllowed (regPut tOn ⟨.pwrStat, 0, 0⟩ 32 32 4000000) = false := by decide
theorem wit_limits :
    limitMw tOn < 3000000 ∧ tOn.pwr.phasesLost = [] ∧ 0 < grantedState (regPut tOn ⟨.pwrVreq, 0, 0⟩ 8 3 1)
      ∧ grantedState (regPut tOn ⟨.pwrVreq, 0, 0⟩ 8 3 0) = 0
      ∧ 1000 ≤ Tbl.get 0 ([(7, 1000)] : Tbl Nat) 7 ∧ Tbl.get 0 ([(7, 999)] : Tbl Nat) 7 < 1000 := by decide
theorem wit_phaseFault :
    (∀ r : Fin 27, Tbl.get 0 tOn.pwr.phasesLost r.val < (railPhases r.val).1)
      ∧ Tbl.get 0 ([(7, 2)] : Tbl Nat) 7 = 2 ∧ 2 < (railPhases 7).1 ∧ Tbl.get 0 ([(7, 1)] : Tbl Nat) 7 ≠ 2 := by decide
theorem wit_inputLoss : tOn.pwr.powered = true ∧ tOn.pwr.holdup = false ∧ (43999 : Nat) < 44000 ∧ (60000 : Nat) < 60001
    ∧ (45000 : Nat) < 45001 ∧ ({ tOn with pwr := { tOn.pwr with holdup := true } } : State).pwr.holdup = true := by decide
theorem wit_telemetry :
    (∀ ty ∈ [1, 2, 3, 4, 5], (telRecord tOn ty).isSome = true) ∧ (10#16).toNat = 10 ∧ (60000#16).toNat ≤ 60000
      ∧ Tbl.get 0 ({ tOn.pwr with subs := [(5, 10)] } : Power).subs 5 ≠ 0 ∧ clkState tOn .tel = 0
      ∧ cmdFor (tWith (tCmd 0x201 [5])) 1 0x201 = some (tCmd 0x201 [5]) ∧ (tCmd 0x201 [0]).byte 0 = 0 ∧ 5 < (tCmd 0x201 [6]).byte 0 := by
  decide
theorem wit_telRead :
    let c : Cmd := { tCmd 0x201 [1] with payLen := 4096, payload := 0x1000 }
    cmdFor (tWith c) 1 0x201 = some c ∧ ((telRecord (beginCmd (tWith c) 1) 1).map fun b => decide (b.length ≤ c.payLen)) = some true := by
  decide
theorem wit_energyWindow : tOn.pwr.powered = true ∧ Sys2Proof.windowOk tWindow = true := by decide

/-! ### Keys, owner lock, recovery, attestation: hypotheses that are met -/

/-- A module with an idle partition 0. -/
def tPart : State := { tOn with parts := [(0, { st := .idle, dies := 1, tiles := [0] })] }
/-- KEY_WRITE's payload for slot 63 of partition 0: the key in plain. -/
def tKey : Bytes := tPad 80 ([63, 0, 0, 0, 0, 0, 0, 0] ++ List.replicate 16 0 ++ [1, 2, 3])
def tKeyed (x : KeySlot) : State := { tWith (tCmd 0x300 [] tKey) tPart with sec := { slots := [(63, x)] } }

theorem wit_keyWrite :
    let s := tKeyed {}
    let s1 := beginCmd s 1
    cmdFor s 1 0x300 = some (tCmd 0x300 [] tKey) ∧ (payloadOf s1 (tCmd 0x300 [] tKey)).1 = .ok ∧ (payloadOf s1 (tCmd 0x300 [] tKey)).2.1 = tKey
      ∧ keyFields s1 tKey = true ∧ (tCmd 0x300 [] tKey).may (kwPart tKey) = true ∧ slotTaken (slotAt s1 63) 0 = false ∧ kwSlot tKey = 63
      ∧ (slotAt s1 63).erasing = false ∧ (slotAt s1 63).shadow = none ∧ (match keyOf s1 tKey with | .ok k => k.length == 32 | _ => false) = true
      ∧ slotTaken (slotAt (beginCmd (tKeyed { erasing := true }) 1) 63) 0 = false ∧ (slotAt (tKeyed { shadow := some ⟨[], 1, 1⟩ }) 63).shadow ≠ none := by
  decide
theorem wit_keyErase :
    cmdFor (tWith (tCmd 0x301 [63])) 1 0x301 = some (tCmd 0x301 [63]) ∧ (tCmd 0x301 [63]).byte 0 < 64
      ∧ (slotAt (endTakes (tKeyed { current := some ⟨[], 1, 0⟩ }) 63 stKeyEmpty) 63).current = some ⟨[], 1, 0⟩
      ∧ (slotAt (endTakes (tKeyed { current := some ⟨[], 1, 0⟩ }) 63 stKeyEmpty) 63).shadow = none
      ∧ (slotAt (endTakes (tKeyed { current := some ⟨[], 1, 0⟩ }) 63 stKeyEmpty) 63).eraseCids = []
      ∧ (slotAt (tKeyed { current := some ⟨[], 1, 1⟩ }) 63).current = some ⟨[], 1, 1⟩ := by decide
/-- The generator of P-384 lies on the curve. -/
def tPoint : Bytes :=
  (leBytes 48 0xaa87ca22be8b05378eb1c71ef320ad746e1d3b628ba79b9859f741e082542a385502f25dbf55296c3a545e3872760ab7).reverse
    ++ (leBytes 48 0x3617de4a96262c6f5d9e98bf9292dc29f8f41dbd289a147ce9da3113b5f0b8c00a60b1ce1d7e819d7a431d7c90ea0e5f).reverse
theorem wit_owner :
    onCurve (tPoint.take 96) = true ∧ flashFree (tCharged 90 (tCmd 0x310 [] tPoint)) = true
      ∧ cmdFor (tCharged 90 (tCmd 0x310 [] tPoint)) 1 0x310 = some (tCmd 0x310 [] tPoint)
      ∧ (tCharged 90 (tCmd 0x310 [] tPoint)).sec.ownerKey = none
      ∧ cmdFor (tCharged 90 (tCmd 0x311)) 1 0x311 = some (tCmd 0x311)
      ∧ cmdFor (tCharged 90 (tCmd 0x312 [] (tPad 288 []))) 1 0x312 = some (tCmd 0x312 [] (tPad 288 []))
      ∧ tokenStatus (beginCmd (tCharged 90 (tCmd 0x312 [] (tPad 288 []))) 1) ((tPad 288 []).take 288) ≠ stOk := by decide
theorem wit_recovery :
    let s := regPut (tPhase .recovery) ⟨.pwrHoldup, 0, 0⟩ 0 7 90
    s.boot.phase = .recovery ∧ s.boot.op = none ∧ s.sec.lock = false ∧ regFld s ⟨.pwrHoldup, 0, 0⟩ 0 7 = 90
      ∧ (0x11 : W32).toNat % 16 = 1 ∧ (0x11 : W32).toNat / 16 % 2 = 1 ∧ regGet s ⟨.bootRoff, 0, 0⟩ + 4096 ≤ 0x3000000
      ∧ tokenStatus (regPut s ⟨.bootRcmd, 0, 0⟩ 4 1 0) (bytesAt 0 s.boot.rwin 0 288) ≠ stOk
      ∧ (tPhase .recovery fun b => { b with verified := some 1 }).boot.verified = some 1 ∧ s.boot.verified ≠ some 1
      ∧ tOn.boot.phase ≠ .recovery := by decide
/-- Requests of the attestation exchange under version 1.2 (the digests' chain is longer than offset 0). -/
theorem wit_attestation :
    let s : State := { tOn with host := { perst := false }, sec := { vca := [1] } }
    let a : State := { s with sec := { vca := [1], spdmVersion := 0x12, spdmAlgs := true } }
    s.host.perst = false ∧ s.boot.phase = .run ∧ fieldAt (tBytes [0x10, 0x84]) 1 1 = 0x84 ∧ fieldAt (tBytes [0x13, 0xE1]) 0 1 = 0x13
      ∧ s.sec.vca ≠ [] ∧ s.sec.spdmVersion = 0 ∧ a.sec.spdmVersion ≠ 0 ∧ fieldAt (tPad 32 [0x12, 0xE3, 0, 0, 0, 0, 1, 0, 0x80]) 0 1 = 0x12
      ∧ bitOf (fieldAt (tPad 32 [0x12, 0xE3, 0, 0, 0, 0, 1, 0, 0x80, 0, 0, 0, 2]) 8 4) 7 = true
      ∧ bitOf (fieldAt (tPad 32 [0x12, 0xE3, 0, 0, 0, 0, 1, 0, 0x80, 0, 0, 0, 2]) 12 4) 1 = true
      ∧ bitOf (fieldAt (tPad 32 [0x12, 0xE3, 0, 0, 0, 0, 1, 0, 0x80, 0, 0, 0, 2]) 6 1) 0 = true
      ∧ (tPad 32 [0x12, 0xE3]).length = 32 ∧ a.sec.spdmAlgs = true := by decide
theorem wit_chain (s : State) : 0 < (spChain s).length := by
  simp only [spChain, List.length_append, leBytes]; simp

/-! ### The host port: hypotheses that are met -/

/-- A module in RUN with a live bus. -/
def tHost (f : HostPort → HostPort := id) : State := { tOn with host := f { perst := false } }
/-- Queue 17: ACTIVE, rings of 16 entries and records. -/
def tQueue : Queue := { st := .active, ring := 0x1000, cpl := 0x2000, ringLog := 4, cplLog := 4, cplTail := 3 }
def tQ (f : Queue → Queue := id) (g : State → State := id) : State := g (tHost fun h => { h with queues := [(17, f tQueue)] })
/-- The descriptor of such a queue (R694). -/
def tQueueDesc (log : Nat := 4) : Bytes :=
  tPad 64 ([0, 0x10] ++ List.replicate 6 0 ++ [0, 0x20] ++ List.replicate 22 0 ++ [log, 4, 0, 0, 0xFF])

theorem wit_queCreate :
    cmdFor (tWith (tCmd 0x0001)) 1 0x0001 = some (tCmd 0x0001) ∧ fieldAt (tCmd 0x0002 [17]).inl 0 4 % 2 ^ 20 = 17
      ∧ fieldAt (tCmd 0x0002 [16]).inl 0 4 % 2 ^ 20 ≤ 16 ∧ fieldAt (tCmd 0x0002 [0xFF, 0xFF, 0xFF]).inl 0 4 % 2 ^ 20 = 2 ^ 20 - 1
      ∧ cmdFor (tWith (tCmd 0x0002 [17] tQueueDesc) tHost) 1 0x0002 = some (tCmd 0x0002 [17] tQueueDesc)
      ∧ queueOk tHost (queueOf tQueueDesc) = true ∧ queueOk tHost (queueOf (tQueueDesc 3)) = false ∧ queueOk tHost (queueOf (tQueueDesc 20)) = true
      ∧ fieldAt tQueueDesc 0x25 1 = 0 ∧ (queueAt tHost 17).st = .free ∧ (queueAt tQ 17).st ≠ .free := by decide
theorem wit_queDelete :
    cmdFor (tWith (tCmd 0x0003 [17]) tQ) 1 0x0003 = some (tCmd 0x0003 [17]) ∧ fieldAt (tCmd 0x0003 [17]).inl 0 4 % 2 ^ 20 = 17
      ∧ (queueAt (tWith (tCmd 0x0003 [17]) tQ) 17).st = .active ∧ (queueAt (tQ fun d => { d with st := .draining }) 17).st = .draining
      ∧ cmdFor (tWith (tCmd 0x0004 [16, 0]) tPart) 1 0x0004 = some (tCmd 0x0004 [16, 0]) ∧ (tCmd 0x0004 [16, 0]).byte 0 = 16
      ∧ (tCmd 0x0004 [16, 0]).byte 1 = (0 : PartId).val ∧ (partAt tPart 0).st = .idle ∧ 16 < (tCmd 0x0004 [17]).byte 0
      ∧ 16 ≤ (tCmd 0x0004 [1, 16]).byte 1 ∧ (tCmd 0x0004 [0]).byte 0 = 0 := by decide
/-- Doorbells of queue 17 at the ring's last entry, at the tail, beyond the ring, with a reserved bit. -/
theorem wit_submission :
    noFn tQ 0 = false ∧ inRun tQ = true ∧ (queueAt tQ 17).fn = 0 ∧ (queueAt tQ 17).st = .active ∧ (15 : W64).toNat % 2 ^ 20 < 2 ^ (queueAt tQ 17).ringLog
      ∧ (15 : W64).toNat % 2 ^ 20 ≠ (queueAt tQ 17).tail ∧ (0 : W64).toNat % 2 ^ 20 = (queueAt tQ 17).tail
      ∧ 2 ^ (queueAt tQ 17).ringLog ≤ (16 : W64).toNat % 2 ^ 20 ∧ (0x100000 : W64).toNat / 2 ^ 20 % 16 ≠ 0 ∧ (queueAt tQ 18).st = .free := by decide
theorem wit_credit :
    (queueAt tQ 17).pring = 0 ∧ (3 : W64).toNat < 16 ∧ 0 + ((3 : W64).toNat + 16 - 0 % 16) % 16 ≤ (queueAt tQ 17).cplTail
      ∧ (queueAt tQ 17).cplTail < 0 + ((4 : W64).toNat + 16 - 0 % 16) % 16 ∧ 16 ≤ (16 : W64).toNat := by decide
theorem wit_fetch :
    let s := tQ id fun s => { s with host := { s.host with coalescer := [(17, 15, none, 0)] } }
    nextFetch tHost = none ∧ nextFetch s = some (17, 15, none, 0)
      ∧ min (min ((15 + 2 ^ (queueAt s 17).ringLog - (queueAt s 17).head % 2 ^ (queueAt s 17).ringLog) % 2 ^ (queueAt s 17).ringLog) 32)
          (freeRecords s 17) = 13
      ∧ (queueAt (tQ fun d => { d with fetching := some (13, none, 0) }) 17).fetching = some (13, none, 0)
      ∧ bitOf (queueAt tQ 17).flags 1 = false := by decide
/-- An entry of NOP, one with an AT of 5 and a reserved field. -/
theorem wit_entries :
    let e : Entry := ⟨tPad 64 [1], none, 0⟩
    let s := tQ fun d => { d with entries := [e] }
    (queueAt s 17).entries = [e] ∧ admissible s 17 e = true ∧ admissible s 17 ⟨tPad 64 [1, 0, 1, 0, 0, 0, 0, 0, 5], none, 0⟩ = false
      ∧ entryAt ⟨tPad 64 [1, 0, 1, 0, 0, 0, 0, 0, 5], none, 0⟩ = some 5 ∧ s.now < 5
      ∧ entryOk e.bytes = true ∧ knownOpcodes.contains (cmdOf s 17 e).opcode = true ∧ bitOf (cmdOf s 17 e).flags 4 = false
      ∧ entryOk (tPad 64 [1, 0, 32]) = false ∧ knownOpcodes.contains 0xFFFF = false
      ∧ bitOf (cmdOf s 17 ⟨tPad 64 [1, 0, 2], none, 0⟩).flags 1 = true
      ∧ fieldAt (tPad 64 [1, 0, 2]) 0x10 8 < ({ s with now := 1 } : State).now := by decide
theorem wit_msix :
    let s := fun m => modMsix tHost 0 2047 fun _ => m
    (msixAt tHost 0 2047).masked = true ∧ (msixAt (s { masked := false }) 0 2047).masked = false
      ∧ (msixAt (s { masked := false, holdoff := true, noted := true }) 0 2047).holdoff = true := by decide
/-- A newt at HOST_OUT with a call of 16 MiB for a page ring, of 0 bytes, and of one byte too many. -/
theorem wit_hostOut :
    let s := fun n => { tGroup 0 (fun x => { x with pc := 16, g := [(4, 17), (5, 0x1016560BC000), (6, n)] }) with
      host := { perst := false, queues := [(17, { tQueue with part := 0, pring := 0x4000 })] } }
    (newtOf (s 1) 0).part = some 0 ∧ (newtOf (s 1) 0).pc = 16 ∧ (newtOf (s 1) 0).st = .running ∧ (gReg (newtOf (s 1) 0) 4).toNat = 17
      ∧ (gReg (newtOf (s 16777217) 0) 6).toNat > 16777216 ∧ (gReg (newtOf (s 0) 0) 6).toNat = 0 ∧ (queueAt (s 1) 17).part = 0
      ∧ (queueAt (s 1) 17).pring ≠ 0 ∧ liveCallers (s 1) 17 = [] := by decide
theorem wit_hostTmo :
    let s := fun n => { tQ (fun d => { d with holdFull := some (false, 5), prTail := 2, prHead := 2 }) with now := n }
    (queueAt (s 10000005) 17).holdFull = some (false, 5) ∧ bitOf (queueAt (s 0) 17).flags 0 = false ∧ 5 + 10 * 1000000 ≤ (s 10000005).now
      ∧ (s 10000004).now < 5 + 10 * 1000000 ∧ (queueAt (tQ fun d => { d with prHead := 1 }) 17).prTail < 1 := by decide
theorem wit_functions :
    let a := (List.range 8).foldl (fun s i => regSet s ⟨.hostAdmq, 0, i⟩ (fieldAt tQueueDesc (8 * i) 8)) tHost
    fnQueues tHost 0 = [] ∧ Tbl.get false ({ tHost.host with d3hot := [(0, true)] } : HostPort).d3hot 0 = true
      ∧ regBit a ⟨.hostFnctrl, 0, 0⟩ 0 = false ∧ (admqOf a 0).fn = 0 ∧ queueOk a (admqOf a 0) = true ∧ (queueAt a 0).st = .free
      ∧ regBit (regOr a ⟨.hostFnctrl, 0, 0⟩ 1) ⟨.hostFnctrl, 0, 0⟩ 0 = true
      ∧ 0 + ((0 : W32).toNat % 2 ^ regFld tHost ⟨.hostEvtbase, 0, 0⟩ 0 5 + 1 - 0 % 1) % 1 ≤ Tbl.get 0 tHost.host.evtWritten 0 := by decide
/-- BAR4 at its last byte and beyond, of the PF and of a VF that is not bound. -/
theorem wit_bar4 :
    let s : State := { tHost with boot := { phase := .run, cfg := tPad 64 (List.replicate 10 0 ++ [16]) } }
    (bar4Addr s 0 (64 * 2 ^ 30 - 1) 1).isSome = true ∧ bar4Addr s 0 (64 * 2 ^ 30) 1 = none ∧ bar4Addr tOn 0 0 1 = none
      ∧ (bar4Addr s 16 (4 * 2 ^ 30 - 1) 1).isSome = true ∧ fnWho s 16 = none ∧ fnWho s 0 = some (.host none)
      ∧ bar4Addr s 0 0 1 = some 0 ∧ writesClean s (.host none) (2 ^ 40) 1 = false := by decide
theorem wit_bar4Access :
    (readMem tHost (.host none) 0x1000 4).1 = .ok ∧ (writeMem tHost (.host none) 0x1000 [1]).1 = .ok
      ∧ (writeMem tHost (.host none) 0x00FFFFFFFFFF [1]).1 ≠ .wait := by decide
theorem wit_ptm : ({ tHost.fab with gm := true } : Fabric).locked = false ∧ tHost.fab.gm = false ∧ tHost.host.ptmLocked = false := by decide

/-! ### Registers and pins: hypotheses that are met -/

/-- The last tile of die 7, the time block and the PF's queue block; offsets without a register. -/
theorem wit_registerWrite :
    (∀ e ∈ [(0x400, RegName.newtCtrl), (0x404, .newtStat), (0x200, .tileFpstat), (0x308, .strErrcnt)],
      regAt 7 (0x6B000 + e.1) = some (⟨e.2, 128 * 7 + 0x6B, 0⟩, 0) ∧ e.2.info.bits = 32 ∧ reaches tHost 0 ⟨e.2, 128 * 7 + 0x6B, 0⟩ = true)
      ∧ regAt 0 0x8D00C = some (⟨.timeCtrl, 0, 0⟩, 0) ∧ regAt 0 0x100080 = some (⟨.queSel, 0, 0⟩, 0)
      ∧ Tbl.get false tHost.host.d3hot 0 = false
      ∧ regAt 0 0x7FFFFC = none ∧ bar0Window 0 0x3FFFFFC = some (7, 0x7FFFFC) ∧ bar0Window 0 0x4000000 = none := by decide
theorem wit_pins :
    (closeAll (faultReg { tOn with clspHold := true } 0xFF ⟨.clspStat, 0, 0⟩)).boot.phase = .run
      ∧ 2500 < outletTemp (regPut tOn ⟨.telCoolant, 0, 0⟩ 32 16 2501) - inletTemp tOn
      ∧ 1000000 < regFld (regPut tOn ⟨.pwrStat, 0, 0⟩ 32 32 1000001) ⟨.pwrStat, 0, 0⟩ 32 32
      ∧ outletTemp tOn - inletTemp tOn ≤ 2500 ∧ 4000 < inletTemp (regPut tOn ⟨.telCoolant, 0, 0⟩ 48 16 4001) ∧ inletTemp tOn ≤ 4000 := by decide

/-! ### Partitions, programs, steps: hypotheses that are met -/

/-- A bitmap that names tile 0, at 0x1000 of tier 1; PART_CREATE's payload for partition 15 with it, die 0, TRAINING or SERVING. -/
def tMem : State := { tOn with mem := [(0x1000, 1)] }
def tPartDesc (p : Nat) : Bytes := tPad 32 [p, 1, 1, 0, 0, 0, 0, 0, 0, 0x10]
def tCreate (s : State) (p : Nat) : State := tWith (tCmd 0x0100 [] (tPartDesc p)) s

theorem wit_partCreate :
    let s1 := beginCmd (tCreate tMem 15) 1
    cmdFor (tCreate tMem 15) 1 0x0100 = some (tCmd 0x0100 [] (tPartDesc 15)) ∧ (payloadOf s1 (tCmd 0x0100 [] (tPartDesc 15))).1 = .ok
      ∧ (tPartDesc 15).length = 32 ∧ (partAt s1 15).st = .none ∧ (tCmd 0x0100).fn = 0 ∧ partFields (tPartDesc 15) = true
      ∧ (readBitmap s1 (tCmd 0x0100).who 0x1000).1.toOption = some [0] ∧ namesActive (readBitmap s1 (tCmd 0x0100).who 0x1000).2 [0] = true
      ∧ partClash (readBitmap s1 (tCmd 0x0100).who 0x1000).2 15 [0] 1 = false ∧ partClash tPart 15 [0] 2 = true
      ∧ (partAt tPart 0).st ≠ .none := by decide
/-- A live partition 0 with a bitmap of its tile in tier 1. -/
def tPart1 : State := { tPart with mem := [(0x1000, 1)] }
theorem wit_partModify :
    let c := tCmd 0x0101 [] (tPartDesc 0)
    let s := tWith c tPart1
    cmdFor s 1 0x0101 = some c ∧ atRest s c (cmdPart s c) = true ∧ partLives (beginCmd s 1) 0 = true
      ∧ (readBitmap (beginCmd s 1) c.who 0x1000).1.toOption = some [0] ∧ reserveOf s 0 ++ shapeTiles s 0 = [] ∧ partClash s 0 [0] 1 = false
      ∧ reserveOf { s with parts := [(0, { dlm := some ⟨true, false, 1, [5], 1, 1⟩ })] } 0 = [5]
      ∧ partClash { s with parts := s.parts ++ [(1, { st := .idle, dies := 1 })] } 0 [0] 1 = true := by decide
theorem wit_partDelete :
    let c := tCmd 0x0102 [0]
    cmdFor (tWith c tPart) 1 0x0102 = some c ∧ atRest (tWith c tPart) c 0 = true ∧ partLives (beginCmd (tWith c tPart) 1) 0 = true
      ∧ 16 ≤ (tCmd 0x0102 [16]).byte 0 ∧ partLives (beginCmd (tWith (tCmd 0x0102 [1]) tPart) 1) 1 = false
      ∧ (partAt { tOn with parts := [(0, { st := .deleting, deleteCid := some 1 })] } 0).deleteCid = some 1 := by decide

/-- An image of one word, HALT, and PROG_LOAD's payload for it at 0 of partition 0's region. -/
def tImg : Bytes :=
  let w := leBytes 4 (0x1A * 2 ^ 26)
  leBytes 4 0x5457454E ++ leBytes 2 1 ++ leBytes 2 0 ++ leBytes 4 1 ++ leBytes 4 0 ++ leBytes 4 0 ++ leBytes 4 0 ++ leBytes 4 (crc32c w) ++ leBytes 4 0 ++ w
theorem wit_image : imgOk 0 tImg = true ∧ tImg.length = imgSize tImg ∧ imgWords tImg ≤ 14336 ∧ 32 + 4 * imgWords tImg ≤ tImg.length
    ∧ imgOk 0 (tImg.set 0 0) = false := by decide
/-- Partition 0 with a FIXED region of one MiB at 0 of tier 1. -/
def tFixed : State :=
  { tPart with tier := { regions := [⟨false, 0, 0, 0, false, 0, 0x100000, 0⟩] } }
theorem wit_progLoad :
    let c := tCmd 0x0110 [] (tPad 32 ([0, 0, 0, 0, 0, 0, 0, 0, 0, 0, 0, 0, 0, 0, 0, 0, 0, 0, 0, 0, 0, 0, 0, 0, 36]))
    let s := tWith c { tFixed with mem := putBytes 0 [] 0 tImg }
    cmdFor s 1 0x0110 = some c ∧ atRest s c (cmdPart s c) = true ∧ (partAt (beginCmd s 1) 0).st = .idle
      ∧ (∀ t ∈ (partAt (beginCmd s 1) 0).tiles, loadable (beginCmd s 1) t = true)
      ∧ (readMem (beginCmd s 1) (.host (some 0)) 0 36).1 = .ok ∧ (readMem (beginCmd s 1) (.host (some 0)) 0 36).2.1 = tImg := by decide
/-- STEP_START's payload for partition 0's whole group, without arguments. -/
def tStart : Cmd := tCmd 0x0120 [] (tPad 48 [0])
theorem wit_stepStart :
    let s := tWith tStart tPart
    cmdFor s 1 0x0120 = some tStart ∧ (payloadOf s tStart).1 = .ok ∧ (partAt s 0).waiting.contains 1 = false ∧ stepFields (tPad 48 [0]) = true
      ∧ stepFields (tPad 48 [16]) = false ∧ tStart.may 0 = true ∧ partPending s tStart 0 = false ∧ (partAt s 0).st = .idle
      ∧ stepDeadlineOk s tStart (tPad 48 [0]) = true ∧ (stepGroup s (tPad 48 [0])).1.toOption = some [0] := by decide
theorem wit_stepBegin :
    let s := fun ts => { tWith tStart { tPart with parts := [(0, { st := .idle, dies := 1, tiles := [0], waiting := [1] })] } with tiles := ts }
    let ready : State := s [(0, { st := .ready, image := some ⟨tImg⟩, part := some 0 })]
    (partAt ready 0).waiting = [1] ∧ cmdAt ready 1 = some tStart ∧ (partAt ready 0).run = none ∧ ready.boot.phase = .run
      ∧ atRest ready tStart 0 = true ∧ tStart.payBytes = some (tPad 48 [0]) ∧ (stepGroup ready (tPad 48 [0])).1.toOption = some [0]
      ∧ membersReady ready [0] = true ∧ membersReady (s []) [0] = false ∧ (readMem ready (.step 0) 0 0).1 = .ok := by decide
theorem wit_stepStop :
    cmdFor (tWith (tCmd 0x0121 [0]) tPart) 1 0x0121 = some (tCmd 0x0121 [0]) ∧ bitOf ((tCmd 0x0121 [0]).byte 1) 0 = false
      ∧ (partAt tPart 0).st ≠ .none ∧ 16 ≤ (tCmd 0x0121 [16]).byte 0 ∧ (partAt tPart 15).st = .none := by decide
theorem wit_dlmSet :
    let b := tPad 48 [0, 2, 1]
    let s := tWith (tCmd 0x0130 [] b) { tOn with parts := [(0, { st := .idle, serving := true, dies := 1, tiles := [0] })] }
    cmdFor s 1 0x0130 = some (tCmd 0x0130 [] b) ∧ dlmFields b = true ∧ (partAt (beginCmd s 1) 0).serving = true
      ∧ (groupTiles (beginCmd s 1) (.host (some 0)) 0 []).1.toOption = some [] ∧ bitOf (fieldAt b 1 1) 0 = false ∧ atRest s (tCmd 0x0130 [] b) 0 = true
      ∧ cmdPart s (tCmd 0x0130 [] b) = 0 ∧ dlmFields (tPad 48 [0, 2, 0]) = false ∧ (partAt tPart 0).serving = false := by decide
/-- A running step that has ended on both tiles, one whose tile runs, and its deadline. -/
theorem wit_stepEnd :
    let s := { tGroup 0 with tiles := [(0, { st := .ready }), (1, { st := .ready })] }
    (partAt s 0).run = some tRun ∧ tRun.replayDue = false ∧ (∀ t ∈ tRun.members, (tileAt s (liveTile s t.toNat)).st = .ready)
      ∧ (owedWrites s 0 tRun (liveMembers s tRun.members)).1 = .ok
      ∧ (tileAt (tGroup 0) (liveTile (tGroup 0) (nth 0 tRun.members 0).toNat)).st = .running := by decide
theorem wit_deadline :
    let d : Dlm := ⟨false, true, 1, [], 10, 1⟩
    let s := fun n => { tGroup 0 id (fun r => { r with deadline := 100 }) with now := n }
    ((partAt (s 100) 0).run.map (·.deadline)) = some 100 ∧ 100 ≤ (s 100).now ∧ (s 99).now < 100 ∧ stepQueue (s 100) 0 = none
      ∧ d.end_ = true ∧ 100 ≤ (s 90).now + d.geckoNs ∧ (s 89).now + d.geckoNs < 100 ∧ tRun.status = none ∧ tRun.gecko = false := by decide
theorem wit_marker :
    let s := tGroup 0
    (liveMembers s tRun.members).contains (1 : TileId).toNat = true
      ∧ (partAt { s with parts := [(0, { run := some tRun, marks := [(1, 1, 5, 9)] })] } 0).marks = [(1, tRun.num, 5, 9)] := by decide
theorem wit_acctRead :
    let b := tPad 24 [0xFF, 0x0F, 1, 0]
    let s := tWith (tCmd 0x0140 [] b)
    cmdFor s 1 0x0140 = some (tCmd 0x0140 [] b) ∧ acctOk (beginCmd s 1) (tCmd 0x0140 [] b) b = true ∧ bitOf (fieldAt b 4 1) 0 = false
      ∧ acctOk (beginCmd s 1) (tCmd 0x0140) (tPad 24 [0xFF, 0x0F, 2, 0]) = false := by decide
theorem wit_startTile : (tileAt tPart 0).heldEvents = [] ∧ (2 : Nat) < 2 ^ 64 := by decide
theorem wit_epoch : partTiles tPart 0 = [0] ∧ (tileAt tPart (liveTile tPart 0)).st ≠ .retired := by decide

/-! ### The tile's units and library routines: hypotheses that are met -/

/-- Tile 0 in a step of partition 0 with one command in its queue. -/
def tUnit (c : TileCmd) (f : Tile → Tile := id) : State := tGroup 0 fun x => f { x with queue := [c], issued := 1 }
def tTile (op : Nat) (u : TileUnit) (fn : Nat) (desc wcb xfer : List Nat) : TileCmd :=
  { num := 1, op := op, unit := u, fn := fn, half := 0, desc := tPad 48 desc, wcb := tPad 32 wcb, xfer := tPad 48 xfer }
def tNone : List Nat := [0xFF, 0xFF, 0xFF, 0xFF]
/-- FP8 by FP8 over 32 positions of 32, row 0 and column 0 active. -/
def tMma : TileCmd :=
  tTile 0x21 .matrix 0 ([3, 3, 3, 0, 32, 0, 0, 0, 0, 0, 0, 0, 0, 0, 0, 0] ++ tNone ++ tNone ++ [1, 0, 0, 0, 0, 0, 0, 0, 1, 0, 0, 0, 0, 0, 0, 0, 32]) [] []
theorem wit_matrix :
    nextCmd (tUnit (tTile 0x20 .matrix 3 [] [] [])) 0 0x20 = some (tTile 0x20 .matrix 3 [] [] []) ∧ nextCmd (tUnit tMma) 0 0x21 = some tMma
      ∧ mmaOk (newtOf (tUnit tMma) 0) tMma.desc = true ∧ mmaOk (newtOf (tUnit tMma) 0) (tPad 48 []) = false
      ∧ nextCmd (tUnit (tTile 0x25 .vector 0x08 [0, 0, 0, 0, 0, 0, 0, 0, 0, 0, 0, 0, 0, 0, 0, 0, 1] [] [])) 0 0x25
          = some (tTile 0x25 .vector 0x08 [0, 0, 0, 0, 0, 0, 0, 0, 0, 0, 0, 0, 0, 0, 0, 0, 1] [] [])
      ∧ vopOk (tTile 0x25 .vector 0x08 [0, 0, 0, 0, 0, 0, 0, 0, 0, 0, 0, 0, 0, 0, 0, 0, 1] [] []) = true
      ∧ vopOk (tTile 0x25 .vector 0 [] [] []) = false ∧ (fmtCode (fieldAt (tPad 32 []) 0 1)).isSome = true := by decide
/-- FEXP of a factored A operand of rank 1, in BF16. -/
def tFexp : TileCmd := tTile 0x26 .fexp 0 ([1, 1, 4, 1, 32] ++ List.replicate 39 0 ++ [1, 1]) [] []
theorem wit_fexp : nextCmd (tUnit tFexp) 0 0x26 = some tFexp ∧ fexpOk tFexp.desc = true ∧ (factFmt (fieldAt tFexp.desc 0x2C 1)).isSome = true
    ∧ (factFmt (fieldAt tFexp.desc 0x2D 1)).isSome = true ∧ (factFmt (fieldAt tFexp.desc 0 1)).isSome = true ∧ fexpOk (tPad 48 []) = false := by
  decide
/-- An active row outside the mask, at both ends. -/
theorem wit_mask : (fieldAt tMma.desc 0x18 8).testBit 63 = false ∧ (fieldAt tMma.desc 0x20 8).testBit 1 = false := by decide

/-- DIRECT FILLs of one row of 8 bytes: at an address of the partition, at one of none, and one that leaves the half. -/
def tFill (a : Nat) (off : List Nat := [0, 0, 0, 0]) : TileCmd :=
  { num := 1, op := 0x22, unit := .fill, fn := 0, half := 1
    xfer := tBytes ([0, 0, 0, 0] ++ off) ++ leBytes 8 a ++ tPad 32 [8, 0, 0, 0, 1] }
def tFillSt (c : TileCmd) : State := { tUnit c with tier := tFixed.tier }
theorem wit_fill :
    nextCmd (tFillSt (tFill 0)) 0 0x22 = some (tFill 0) ∧ fieldAt (tFill 0).xfer 0 1 = 0 ∧ directOk (tFill 0).xfer = true
      ∧ fieldAt (tFill 0).xfer 4 4 + (1 - 1) * fieldAt (tFill 0).xfer 0x28 4 + 8 ≤ halfSize
      ∧ halfSize < fieldAt (tFill 0 [0xFF, 0xFF, 0x0F, 0]).xfer 4 4 + (1 - 1) * 0 + 8
      ∧ (∀ a ∈ dirAddrs (tFill 0).xfer, canRead (tFillSt (tFill 0)) (.step 0) a 8 = true)
      ∧ (readRows (tFillSt (tFill 0)) 0 0 (dirAddrs (tFill 0).xfer) 8).1 = .ok
      ∧ (dirAddrs (tFill 0x100000).xfer).any (fun a => !canRead (tFillSt (tFill 0)) (.step 0) a 8) = true
      ∧ fieldAt (tFill 0).xfer 0x20 8 = 0 ∧ tilePart (tFillSt (tFill 0)) 0 = 0 := by decide
theorem wit_wout :
    nextCmd (tUnit (tTile 0x24 .wout 0 [] [] [0])) 0 0x24 = some (tTile 0x24 .wout 0 [] [] [0]) ∧ directOk (tPad 48 []) = false
      ∧ fieldAt (tPad 48 [1]) 0 1 = 1 ∧ 64 < fieldAt (tPad 48 (List.replicate 20 0 ++ [65])) 0x14 4 := by decide
theorem wit_complete :
    (newtOf (tUnit { tMma with started := true }) 0).queue.find? (fun c => c.num == 1 && c.started) = some { tMma with started := true }
      ∧ chainsIn (tUnit tMma) 0 { tMma with started := true } = true
      ∧ (newtOf (tUnit tMma) 0).queue.find? (fun c => c.num == 1 && c.started) = none := by decide
/-- A tiling of levels 0 and 1 that stages A at level 1. -/
theorem wit_stage :
    let b : Binding := { off := 0, desc := tPad 336 (List.replicate 0x13 0 ++ [3] ++ List.replicate (0xD0 + 0x12 - 0x14) 0 ++ [1]) }
    lvlStage b.desc 1 0 = true ∧ replayWaits (tGroup 0) (newtOf (tGroup 0 fun x => { x with binding := some b }) 0) = false := by decide

theorem wit_tileFault :
    validTile (0x36B : TileId).toNat = true ∧ validTile (0x00C : TileId).toNat = false ∧ (tileAt tOn 0x36B).st ≠ .retired
      ∧ ownerOf tOn (nameOf tOn 0x36B) = none ∧ freeSpares { tOn with fuses := { spares := [] } } 0 = []
      ∧ ({ tOn with strata := { copying := [(0, 104)] } } : State).strata.copying.find? (fun c => c.1 == (0 : TileId).toNat) = some (0, 104)
      ∧ (tileAt tOn 0).image = none := by decide
theorem wit_replay :
    let s := fun n => tGroup 0 id fun r => { r with replayDue := true, replays := n }
    ((partAt (s 0) 0).run.map (·.replayDue)) = some true ∧ mayReplay (s 1) 0 = true ∧ mayReplay (s 2) 0 = false ∧ (s 0).strata.copying = [] := by
  decide
/-- Events for the step that runs, for a later step, and of another epoch. -/
def tEv (step : W64) (ep : BitVec 16 := 0) (src : Option TileId := some 1) : EvMsg :=
  { dst := 0, ctr := 15, part := 0, epoch := ep, step := step, src := src, srcPhys := 0, tag := 0 }
theorem wit_newtEvent :
    let s := tGroup 0 fun x => { x with step := 1 }
    (partAt s 0).st ≠ .none ∧ (partAt s 0).epoch = (tEv 1).epoch ∧ (partTiles s 0).contains (tEv 1).dst.toNat = true
      ∧ inStep (tileAt s 0).st = true ∧ (tileAt s 0).step = (tEv 1).step ∧ (tileAt s 0).step.toNat < (tEv 2).step.toNat
      ∧ (tileAt s 0).heldEvents.length < 16 ∧ 16 ≤ (List.replicate 16 (tEv 2)).length ∧ (partAt s 0).epoch ≠ (tEv 1 1).epoch
      ∧ ({ s with flying := [tEv 1] } : State).flying.contains (tEv 1) = true ∧ (applyEvent s (tEv 1 0 none)).1 = none := by decide

/-- Both tiles stand at word `k` of the library with a descriptor at offset 0 of scratch memory. -/
def tLib (k : Nat) (d : List Nat) : State :=
  let x : Tile := { st := .running, pc := k, part := some 0, groupSize := 2, smem := putBytes 0 [] 0 (tBytes d) }
  { tGroup 0 with tiles := [(0, x), (1, { x with index := 1 })], tier := tFixed.tier }
/-- A batch of one entry at 0x100 with its sequence at 0 of tier 1. -/
def tSeqMem : Tbl Byte :=
  putBytes 0 (putBytes 0 [] 0 (tBytes [0, 0, 0, 0, 0, 1, 1, 1, 1, 6, 0, 0, 1]))
    0x114 (tBytes [1, 0, 1])
def tAttn (op : Nat) : List Nat := [op, 0, 0, 0, 0, 0, 0, 0, 0, 1, 0, 0, 0, 0, 0, 0, 1, 0, 1]
theorem wit_groupCall : ∀ k ∈ [4, 5, 6],
    (groupCall (tLib k (tAttn (k - 3))) 0 k (descArg 112)).1 = some [0, 1]
      ∧ (libDesc (groupCall (tLib k (tAttn (k - 3))) 0 k (descArg 112)).2 0 112).isSome = true := by decide
/-- The same with memory that holds the batch; the backward pass names a block of 8 queries. -/
theorem wit_batch : ∀ op ∈ [1, 2, 3],
    let d := tPad 112 (tAttn op ++ (if op = 3 then List.replicate (0x58 - 0x13) 0 ++ [8] else []))
    let s := { tLib (op + 3) (tAttn op) with mem := tSeqMem }
    attnDescOk op d = true ∧ (loadBatch s 0 op d).1 = .ok ∧ (loadBatch s 0 op d).2.1.isSome = true ∧ attnDescOk op (tPad 112 []) = false := by
  decide
/-- CONV of one point on either engine, DET of one box, and descriptors of zeros. -/
def tConv (engine : Nat) : Bytes :=
  tPad 80 [2, engine, 1, 0, 1, 0, 1, 0, 1, 0, 1, 0, 1, 0, 1, 0, 1, 1, 1, 1, 1, 1, 1, 1, 1, 0, 0, 0, 0, 0, 1, 0, 1, 0, 1, 0]
def tDet : Bytes :=
  tPad 80 ([1, 0, 1, 0, 1, 0, 0, 0, 0, 0, 0, 0, 0, 0, 0, 0, 0, 0, 0, 0, 1, 0, 0, 0]
    ++ [0, 0, 0x80, 0x3F, 0, 0, 0x80, 0x3F, 0, 0, 0x80, 0x3F, 0, 0, 0x80, 0x3F])
theorem wit_conv : cvOk (tConv 0) = true ∧ cvOk (tConv 1) = true ∧ cvOk (tPad 80 []) = false ∧ fieldAt (tConv 1) 1 1 ≠ 0
    ∧ (groupCall (tLib 7 ((tConv 0).map BitVec.toNat)) 0 7 (descArg 80)).1 = some [0, 1] := by decide
theorem wit_det : detOk tDet = true ∧ detOk (tPad 80 []) = false ∧ (groupCall (tLib 8 (tDet.map BitVec.toNat)) 0 8 (descArg 80)).1 = some [0, 1]
    ∧ partDies (tLib 8 []) 0 ≠ [] ∧ partDies tOn 0 = [] := by decide
/-- A partial record for partition 0, delivered. -/
def tMsg (x : MsgOut) (s : State := State.reset) : Bytes := (buildMsg s x).getD []
def tInbox (m : Bytes) (s : State) : State := { s with fab := { s.fab with inbox := [m] } }
def tPartial : Bytes := tMsg ⟨true, 0, 0x24, 0, 0, 0, 0, 0, 0, tPad 48 [1]⟩
theorem wit_partialRecord :
    (tInbox tPartial tPart).fab.inbox.contains tPartial = true ∧ msgClass tPartial = 0x24
      ∧ msgRefused (takeMsg (tInbox tPartial tPart) tPartial) tPartial 0x24 true = none := by decide

/-! ### Strata, tiers, codecs: hypotheses that are met -/

/-- A REPLAY region of 4 KiB at the start of tile 0's strata memory, and one that is no multiple of 4 KiB. -/
def tRegion (off : List Nat := [0, 0, 0, 0]) : Bytes := tPad 32 (off ++ [0, 0x10, 0, 0, 2])
theorem wit_strataDeclare :
    let c := tCmd 0x10 [] tRegion
    let s := tWith c tPart
    let s1 := beginCmd s 1
    let rs := (pieces 32 tRegion).map regionOfBytes
    cmdFor s 1 0x10 = some c ∧ atRest s c (cmdPart s c) = true ∧ (∀ d ∈ pieces 32 tRegion, regionOk s1 c d = true)
      ∧ (∀ x ∈ rs.mapIdx (regionClash s1 rs), x = false) ∧ regionsFit s1 rs = true
      ∧ (accAll (rs.filter fun r => r.cls == 1 && bitOf r.flags 0) s1 loadRegion).1 = .ok ∧ regionOk s1 c (tRegion [1]) = false
      ∧ regionsFit { s1 with strata := { regions := (List.range 64).map fun n => (n, some ⟨4096 * n + 4096, 4096, 2, 0, 0, 0, 0⟩) } } rs = false := by
  decide
def tDeclared : State := { tPart with strata := { regions := [(63, some ⟨0, 4096, 2, 0, 0, 0, 0⟩)] } }
theorem wit_strataRelease :
    let c := tCmd 0x11 [] (tPad 32 [])
    let s := tWith c tDeclared
    cmdFor s 1 0x11 = some c ∧ atRest s c (cmdPart s c) = true ∧ validTile 0 = true ∧ (regionStart (beginCmd s 1) 0 0).isSome = true ∧ c.may 0 = true
      ∧ validTile 12 = false ∧ regionStart (beginCmd s 1) 0 1 = none ∧ (Tbl.get none tDeclared.strata.regions (64 * 0 + 63)).isSome = true := by
  decide
/-- A CLEAN line that is fetched again, from tier 1. -/
theorem wit_parity :
    let s : State := { tFixed with strata := { regions := [(0, some ⟨0, 4096, 1, 0, 0, 0, 0x2000⟩)], refetching := [(0x200000000000, .host)] } }
    strataAt tOn 0x200000000000 = some (0, 0) ∧ strataAt tOn 0 = none ∧ strataAddr 0 0 = 0x200000000000
      ∧ s.strata.refetching.find? (fun e => e.1 == strataAddr 0 0) = some (0x200000000000, .host)
      ∧ ((regionOf s 0 0).map (·.source)) = some 0x2000 ∧ (readMem s .device 0x2000 2048).1 = .ok := by decide
theorem wit_logs : validTile (0x36B : TileId).toNat = true ∧ (3 : W64).toNat % 2 = 1 ∧ (0x10000 : W32).toNat % 65536 = 0
    ∧ (0x40000001 : W32).getLsbD 30 = true := by decide

/-- TIER_ALLOC of 64 KiB of tier 1 for partition 0, with and without quota. -/
def tAlloc (base : Nat := 0) : Bytes := tBytes [1, 0, 0, 0, 0, 0, 0, 0] ++ leBytes 8 base ++ tPad 32 [0, 0, 1]
def tQuota : State := { tPart with parts := [(0, { st := .idle, dies := 1, tiles := [0], t1Quota := 65536 })] }
theorem wit_tierAlloc :
    let c := tCmd 0x20 [] tAlloc
    let s := tWith c tQuota
    let s1 := beginCmd s 1
    let r := allocOf tAlloc
    cmdFor s 1 0x20 = some c ∧ atRest s c (cmdPart s c) = true ∧ allocFields tAlloc = true ∧ allocPlace s1 r = true ∧ regionOverlap s1 r = false
      ∧ cellsFree s1 r = true ∧ withinQuota s1 r = true ∧ bitOf (fieldAt tAlloc 4 1) 0 = false ∧ withinQuota tPart r = false
      ∧ allocFields (tAlloc 1) = false ∧ cellsFree { s1 with tier := { unfilled := [(0, 65536)] } } r = false
      ∧ regionOverlap { s1 with tier := tFixed.tier } r = true := by decide
theorem wit_tierFree :
    let c := tCmd 0x21
    let s := tWith c tFixed
    let r : TierRegion := ⟨false, 0, 0, 0, false, 0, 0x100000, 0⟩
    cmdFor s 1 0x21 = some c ∧ atRest s c (cmdPart s c) = true
      ∧ (beginCmd s 1).tier.regions.find? (fun r => r.base == fieldAt c.inl 0 8) = some r ∧ zeroAt c.inl 8 16 = true
      ∧ backedBy (beginCmd s 1) r = none ∧ heldRegion (beginCmd s 1) r = false ∧ r.backed = false
      ∧ (beginCmd (tWith c tPart) 1).tier.regions.find? (fun r => r.base == fieldAt c.inl 0 8) = none := by decide
/-- A BACKED region of 64 KiB in the aperture over 64 KiB of tier 2, with one frame. -/
def tBacked (u : UnitSt) : State :=
  { tPart with tier := { regions := [⟨false, 0, 0, 0, false, 0x100000000000, 0x10000, 0⟩, ⟨true, 0, 0, 0, false, 0xF00000000, 0x10000, 0x100000000000⟩]
                         frames := [(0xF00000000, some { units := [(0, u)] })] } }
theorem wit_tierFlush :
    tierRegionAt tOn 0 = none ∧ cmdFor (tWith (tCmd 0x22) tPart) 1 0x22 = some (tCmd 0x22) ∧ atRest (tWith (tCmd 0x22) tPart) (tCmd 0x22) 0xFF = true
      ∧ cmdPart (tWith (tCmd 0x22) tPart) (tCmd 0x22) = 0xFF := by decide
theorem wit_tierQuota :
    let c := tCmd 0x23 [] (tPad 32 [0])
    cmdFor (tWith c tPart) 1 0x23 = some c ∧ (partAt (beginCmd (tWith c tPart) 1) 0).st ≠ .none ∧ zeroAt (tPad 32 [0]) 1 7 = true
      ∧ (partAt tPart 15).st = .none ∧ 16 ≤ fieldAt (tPad 32 [16]) 0 1 ∧ zeroAt (tPad 32 [0, 1]) 1 7 = false := by decide
/-- A weight stream of two layers of 2 KiB from tier 1 into two slots of strata memory. -/
def tStream : Bytes :=
  tBytes [7, 0, 1, 2, 1, 0, 2, 0] ++ leBytes 8 0 ++ leBytes 8 2048 ++ leBytes 8 2048 ++ tPad 32 ([0, 0, 0, 0, 0, 0, 0, 0, 0, 8])
theorem wit_scrub :
    let s := fun st => setScrub (regPut tOn ⟨.strScrub, 7, 0⟩ 30 1 1) 7 st
    regBit (regPut tOn ⟨.strScrub, 7, 0⟩ 30 1 0) ⟨.strScrub, 7, 0⟩ 30 = false ∧ regBit (s {}) ⟨.strScrub, 7, 0⟩ 30 = true
      ∧ badIn (s {}) (scrubTarget 7 0).1 (scrubTarget 7 0).2 256 = [] ∧ (scrubAt (s {}) 7).pos + 1 ≠ dieLines
      ∧ (scrubAt (s { pos := dieLines - 1 }) 7).pos + 1 = dieLines ∧ (scrubAt (s {}) 7).behind = false
      ∧ 0 + 2 * 60 * 1000000000 ≤ ({ s {} with now := 120000000000 } : State).now ∧ tOn.now < 0 + 2 * 60 * 1000000000 := by decide
theorem wit_tierFlushOk :
    let s := tBacked .dirty
    let c := tCmd 0x22 (([0, 0, 0, 0, 0x0F, 0, 0, 0] : List Nat) ++ [0, 8])
    let s1 := beginCmd (tWith c s) 1
    cmdFor (tWith c s) 1 0x22 = some c ∧ atRest (tWith c s) c (cmdPart (tWith c s) c) = true
      ∧ (∃ r, tierRegionAt s1 0xF00000000 = some r ∧ r.backed = true ∧ 0xF00000000 + 0x800 ≤ r.base + r.length ∧ c.may r.part.val = true
        ∧ (flushRange s1 r 0xF00000000 0x800).1 = .ok) := by
  refine ⟨by decide, by decide, ⟨true, 0, 0, 0, false, 0xF00000000, 0x10000, 0x100000000000⟩, by decide, by decide, by decide, by decide, by decide⟩
theorem wit_backed :
    let r : TierRegion := ⟨true, 0, 0, 0, false, 0xF00000000, 0x10000, 0x100000000000⟩
    (∀ u ∈ [UnitSt.absent, .clean, .dirty], tierRegionAt (tBacked u) ((0xF00000000 : BitVec 48).toNat / 2048 * 2048) = some r)
      ∧ unitState (tBacked .absent) 0xF00000000 = .absent ∧ unitState (tBacked .dirty) 0xF00000000 = .dirty ∧ unitState (tBacked .clean) 0xF00000000 = .clean
      ∧ losslessBacking (tBacked .dirty) r = true ∧ (writeBackUnit (tBacked .dirty) 3 r 0xF00000000).1 = .ok
      ∧ reclaims tPart 0 = false := by decide
/-- Partition 0 with RECLAIM_EN set and no quota of tier 1. -/
def tReclaim (u : UnitSt) : State := regPut (tBacked u) ⟨.partTierstat, 0, 0⟩ 3 1 1
theorem wit_reclaim : reclaims (tReclaim .clean) 0 = true ∧ (evictFrame (tReclaim .clean) 0).1 = .ok := by decide
theorem wit_fill_ok :
    let s := { tBacked .absent with parts := [(0, { st := .idle, dies := 1, tiles := [0], t1Quota := 65536 })] }
    let r : TierRegion := ⟨true, 0, 0, 0, false, 0xF00000000, 0x10000, 0x100000000000⟩
    unitState s 0xF00000000 = .absent ∧ (fillUnit s r 0xF00000000).1 = .ok
      ∧ (fillUnit { s with tier := { s.tier with lost := Tbl.put false s.tier.lost 0x100000000000 true } } r 0xF00000000).1 = .fail stTierFail := by decide
theorem wit_wc :
    Tbl.get none tOn.tier.wc 0 = none ∧ ofCtl (tierCtlNo (.t1 0)) 0 = true
      ∧ Tbl.get none ({ tOn with tier := { wc := [(0, some {})] } } : State).tier.wc 0 = some {} := by decide
/-- Partition 0 with 64 KiB of tier 1, a weight stream 7 in state `w`, and its group at library word `k` with `layer` in g5. -/
def tStreamSt (k layer : Nat) (w : WStream → WStream := id) : State :=
  let x : Tile := { st := .running, pc := k, part := some 0, groupSize := 2, g := Tbl.put 0 (Tbl.put 0 [] 4 7) 5 (BitVec.ofNat 64 layer) }
  { tGroup 0 with tiles := [(0, x), (1, { x with index := 1 })]
                  tier := { tFixed.tier with streams := [(7, some (w { desc := tStream }))] } }
theorem wit_streamDeclare :
    let c := tCmd 0x24 [] tStream
    let s := tWith c tFixed
    cmdFor s 1 0x24 = some c ∧ atRest s c (cmdPart s c) = true ∧ streamOk (beginCmd s 1) tStream = true ∧ streamOk (beginCmd s 1) (tPad 64 [8]) = false := by
  decide
theorem wit_stream :
    gNum (groupCall (tStreamSt 9 1) 0 9 streamArg).2 0 4 = 7 ∧ gNum (groupCall (tStreamSt 9 1) 0 9 streamArg).2 0 5 = 1
      ∧ (groupCall (tStreamSt 9 1) 0 9 streamArg).1 = some [0, 1] ∧ (groupCall (tStreamSt 10 1) 0 10 streamArg).1 = some [0, 1]
      ∧ (streamAt (groupCall (tStreamSt 9 1) 0 9 streamArg).2 0 7).isSome = true
      ∧ stLayers tStream = 2 ∧ slotHeld { desc := tStream } 1 = false ∧ slotHeld { desc := tStream, acquired := [1] } 1 = true
      ∧ ({ desc := tStream, present := [1] } : WStream).present.contains 1 = true := by decide
theorem wit_streamFetch :
    let s := tStreamSt 0 0 fun w => { w with fetching := [1] }
    (streamAt s 0 7).isSome = true ∧ ({ desc := tStream, fetching := [1] } : WStream).fetching.contains 1 = true
      ∧ (fetchLayer s 0 tStream 1).1 = .ok ∧ (∀ t ∈ [0, 1], (tileAt (fetchLayer s 0 tStream 1).2 t).wait ≠ .tier)
      ∧ runMembers (fetchLayer s 0 tStream 1).2 0 = [0, 1] := by decide

theorem wit_tierErrors :
    ofCtl (tierCtlNo (.t1 0)) (0 : BitVec 48).toNat = true ∧ unitStateNo tOn (retireUnit (.t2 15) 0) = 0
      ∧ retireDue tOn (.t1 7) (retireUnit (.t1 7) 63) .ueLimit = false ∧ retireDue tOn (.t1 7) (retireUnit (.t1 7) 63) .retraining = true
      ∧ regBit (regPut tOn (tierCtrl 7) 1 1 1) (tierCtrl (tierCtlNo (.t1 7))) 1 = true ∧ regBit (regPut tOn (tierCtrl 7) 1 1 0) (tierCtrl (tierCtlNo (.t1 7))) 1 = false
      ∧ reserveLeft tOn (retireUnit (.t1 7) 63) = true ∧ reserveLeft { tOn with tier := { chState := [(3, 1)] } } (true, 15) = false
      ∧ ({ tOn with tier := { redirecting := [(false, 511)] } } : State).tier.redirecting.contains (retireUnit (.t1 7) 63) = true
      ∧ tOn.tier.redirecting.contains (retireUnit (.t1 7) 63) = false
      ∧ regBit (regPut tOn (tierCtrl 8) 0 1 1) (tierCtrl (tierCtlNo (.t2 0))) 0 = true ∧ ofCtl (tierCtlNo (.t2 0)) 0x100000000200 = true
      ∧ (0x100000000200 : Nat) = (tierUnit 0x100000000200).1 := by decide

/-- A codec descriptor: operation, RATE, COUNT, the parameter's lower 16 bits. -/
def tCodec (op rate : Nat) (count : Nat := 0) (param : List Nat := []) : List Nat :=
  [op, 0, rate, 0, count, 0, 0, 0, 0, 0, 0, 0, 0, 0, 0, 0, 0, 0, 1] ++ List.replicate 29 0 ++ param
/-- The group stands at CODEC; tier 1 holds the head of an empty RAL-2P stream. -/
def tCodecSt (d : List Nat) : State := { tLib 11 d with mem := putBytes 0 [] 0 (tBytes [0x52, 0x4C, 0x32, 0x50, 2]) }
def tCodecs : List (List Nat) :=
  [tCodec 1 1, tCodec 2 1, tCodec 3 1, tCodec 4 0 0 [144], tCodec 5 0x11, tCodec 6 0x11, tCodec 7 0 0 [1, 1], tCodec 8 0 0 [1, 1],
   tCodec 9 0 0 [1, 1], tCodec 10 0 0 [1, 1]]
theorem wit_codecCall : ∀ d ∈ tCodecs,
    (groupCall (tCodecSt d) 0 11 (descArg 64)).1 = some [0, 1] ∧ libDesc (groupCall (tCodecSt d) 0 11 (descArg 64)).2 0 64 = some (tPad 64 d)
      ∧ codecOk (tPad 64 d) = true ∧ codecOk (tPad 64 []) = false ∧ partDies (groupCall (tCodecSt d) 0 11 (descArg 64)).2 0 = [0] := by decide
theorem wit_codecOps : tCodecs.map (cdOp ∘ tPad 64) = [1, 2, 3, 4, 5, 6, 7, 8, 9, 10] := by decide
/-- Without blocks every operation ends well. -/
theorem wit_codecGo : ∀ e ∈ tCodecs.zip [bcEncGo, bcDecGo, bcVerifyGo, r2Go, spEncGo, spDecGo, fcProjectGo, fcOrthoGo, fcQprojGo, fcResidGo],
    (e.2 0 (tCodecSt e.1) (tPad 64 e.1) [0]).1 = .ok ∧ (e.2 0 (tCodecSt e.1) (tPad 64 e.1) [0]).2.1 = false := by decide +kernel
/-- A block of zeros, a stream without its head and a TOPK record of zeros fail their checks. -/
theorem wit_codecFails :
    (bcDecGo 0 (tCodecSt []) (tPad 64 (tCodec 2 1 64)) [0]).2.1 = true ∧ (bcVerifyGo 0 (tCodecSt []) (tPad 64 (tCodec 3 1 64)) [0]).2.1 = true
      ∧ (r2Go 0 (tLib 11 []) (tPad 64 (tCodec 4 0)) [0]).2.1 = true := by decide
theorem wit_codecNoDie : partDies (modPart (tCodecSt []) 0 fun q => { q with dies := 0 }) 0 = [] := by decide

/-! ### Links, clasps, fabric time, messages: hypotheses that are met -/

/-- Link `l` as `k`, in a pod of two modules along X. -/
def tLinks (ls : Tbl Link) : State := { tOn with fab := { links := ls, ext := (2, 1, 1) } }
def tFlit (kind seq : Nat) (pay : List Nat) : Bytes := flitBytes (kind * 4) 0 seq 0xFFF 0 0 244 (tBytes pay)
def tUp : Link := { st := .active }
theorem wit_message : ∀ c ∈ [0x00, 0x01, 0x02, 0x10, 0x20, 0x21, 0x22, 0x23, 0x24, 0x30, 0x31],
    (classVc c).isSome = true ∧ (buildMsg tOn ⟨true, 32767, c, 15, 3, 65535, 65535, 2 ^ 32 - 1, 2 ^ 32 - 1, tBytes [1, 2, 3]⟩).isSome = true := by
  decide
theorem wit_dataFlit :
    let f := tFlit 0 4095 [1, 2, 3]
    usable tUp = true ∧ flitGood f = true ∧ flitKind f = 0 ∧ flitSeq f = ({ tUp with expect := 4095 } : Link).expect ∧ 1 ≤ fieldAt f 7 1
      ∧ fieldAt f 7 1 ≤ 244 ∧ bitsOf (fieldAt f 0 1) 6 2 < 3 ∧ flitGood (f.set 0 (1 : Byte)) = false ∧ flitSeq f ≠ tUp.expect
      ∧ (linkAt (takeLinkFields (tLinks [(35, { tUp with rejecting := true })]) 35 f) 35).rejecting = true
      ∧ (linkAt (takeLinkFields (tLinks [(35, tUp)]) 35 f) 35).rejecting = false ∧ usable { tUp with st := .failed } = false := by decide
theorem wit_ctl : ∀ ty ∈ [0, 1, 2, 3, 4, 5, 6], isCtl (tFlit 1 0 [ty]) ty = true := by decide +kernel
theorem wit_timers :
    takesCtl tUp = true ∧ 0 < ({ tUp with unackedRx := 1 } : Link).unackedRx ∧ usable { tUp with unackedRx := 1 } = true
      ∧ (let s := tLinks [(0, { tUp with replay := [(0, tFlit 0 0 [])], tries := [(0, 7)] })]
         oldestTries (linkAt s 0) < regFld s ⟨.lnkCtrl, 0, 0⟩ 8 4 ∧ (linkAt s 0).replay ≠ [] ∧ usable (linkAt s 0) = true) := by decide
/-- An IDENT from the neighbour in direction +X on its link 6, and one from nobody this link reaches. -/
def tIdent (peer : Nat) : Bytes := tFlit 1 0 [1, 1, 0, 15, peer, 0, peer, 0, 2, 1, 1]
theorem wit_ident :
    let s := fun st => tLinks [(0, { st := st, trained := true })]
    isCtl (tIdent 1) 1 = true ∧ takesCtl (linkAt (s .training) 0) = true
      ∧ identGap (takeLinkFields (s .training) 0 (tIdent 1)) 0 (ctlRecord (tIdent 1)) = some false
      ∧ identGap (takeLinkFields (s .training) 0 (tIdent 7)) 0 (ctlRecord (tIdent 7)) = none
      ∧ (let s2 := notePeer (takeLinkFields (s .training) 0 (tIdent 1)) 0 (ctlRecord (tIdent 1)) false
         (joinAt s2 0).step ≠ .half ∧ ∀ o ∈ dirLinks 0, linkUsable s2 o = false)
      ∧ (let s3 : State := { s .training with fab := { (s .training).fab with joins := [(0, { step := .half })] } }
         (joinAt (notePeer (takeLinkFields s3 0 (tIdent 1)) 0 (ctlRecord (tIdent 1)) false) 0).step = .half) := by decide
theorem wit_time :
    let s : State := { tLinks [(0, tUp)] with fab := { links := [(0, tUp)], ext := (2, 1, 1), parent := some 0 } }
    (∀ l < 36, (linkAt tOn l).st ≠ .active) ∧ (linkAt s 0).st = .active ∧ (∀ k < 36, k ≠ 0 → (linkAt s k).st ≠ .active)
      ∧ (takeLinkFields s 0 (tFlit 1 0 [2])).fab.gm = false ∧ (takeLinkFields s 0 (tFlit 1 0 [2])).fab.parent.map Fin.val = some (linkDir 0)
      ∧ (takeLinkFields s 0 (tFlit 1 0 [2])).fab.locked = false ∧ inRun s = true ∧ dirUsable s 0 = true ∧ s.fab.parent ≠ some 1
      ∧ regBit (regPut s ⟨.timeCtrl, 0, 0⟩ 0 1 1) ⟨.timeCtrl, 0, 0⟩ 0 = true ∧ (ownChip s).isSome = true := by decide
theorem wit_joins :
    let s := fun (j : JoinSt) => ({ tLinks [(0, { st := .standby })] with fab := { links := [(0, { st := .standby })], ext := (2, 1, 1), joins := [(0, j)] } } : State)
    (linkAt (s {}) 0).st = .standby ∧ (joinAt (s { step := .sent }) 0).step = .sent ∧ (s { step := .sent }).boot.phase = .run
      ∧ (takeLinkFields (s { step := .sent }) 0 (tFlit 1 0 [4])).boot.phase = .run
      ∧ (joinCommit (setJoin (takeLinkFields (s { step := .sent, readyMinus := true }) 0 (tFlit 1 0 [4])) 0
          { step := .sent, readyPlus := true, readyMinus := true }) 0).boot.phase = .run
      ∧ (joinAt (s { step := .sent, retries := 1 }) 0).retries + 1 < 3 ∧ (joinAt (s { step := .retryWait }) 0).step = .retryWait
      ∧ (2 : W32).getLsbD 1 = true ∧ (1 : W32).getLsbD 0 = true ∧ (0x3FFFF : BitVec 18) ≠ tOn.fab.clasps ∧ tOn.pwr.powered = true := by decide
theorem wit_linkStates :
    (15#4 : BitVec 4) = 15#4 ∧ (bitSet 4 (7#4 : BitVec 4).toNat).length = 3 ∧ (bitSet 4 (3#4 : BitVec 4).toNat).length < 3
      ∧ regFld tOn ⟨.lnkCtrl, 35, 0⟩ 8 4 ≤ oldestTries ({ tUp with replay := [(3, [])], tries := [(3, 15)] } : Link)
      ∧ regBit (regPut tOn ⟨.lnkCtrl, 35, 0⟩ 2 1 1) ⟨.lnkCtrl, 35, 0⟩ 2 = true ∧ (3 : W32).getLsbD 1 = true ∧ (3 : W32).getLsbD 0 = true
      ∧ claspOpen { tLinks [] with fab := { ext := (2, 1, 1), clasps := 1 } } 0 = true ∧ 1 < axisExtent (tLinks []) 0 := by decide

/-- A message of a class to this module by coordinate. -/
def tM (cls : Nat) (pay : Bytes) (part : Nat := 0) (aux : Nat := 0) (tag : Nat := 9) : Bytes := tMsg ⟨true, 0, cls, part, 3, 0, 0, tag, aux, pay⟩
def tGot (m : Bytes) : State := takeMsg (tInbox m tFixed) m
theorem wit_messagesRefused : ∀ e ∈ [(0x00, false), (0x02, false), (0x20, true), (0x21, false), (0x22, true), (0x30, true), (0x31, true)],
    msgRefused (tGot []) [] e.1 e.2 = some stCheckFail ∧ msgRefused (tGot (tM e.1 [])) (tM e.1 []) e.1 e.2 = none := by decide
theorem wit_msgCommand :
    let m := tM 0 (tPad 64 [0])
    let late := tM 0 (tPad 64 [0, 0, 1, 0, 0, 0, 0, 0, 0xFF])
    64 ≤ (msgPayload m).length ∧ (msgPayload m).length = 64 + fieldAt (msgPayload m) 0x20 4 ∧ fieldAt (msgPayload m) 0 2 ≠ 0x0006
      ∧ fieldAt (msgPayload m) 0 2 ≠ 0x0032 ∧ remoteAdmissible (tGot m) m = true
      ∧ remoteAdmissible { tGot late with boot := { phase := .pause } } late = false := by decide
theorem wit_msgNack : msgSound (tM 1 []) = true ∧ msgClass (tM 1 []) = 1 ∧ msgMine (tGot (tM 1 [])) (tM 1 []) = true := by decide
theorem wit_msgMap :
    let m := tM 2 (tBytes [1, 0, 0, 0, 1, 0, 0, 0])
    4 ≤ (msgPayload m).length ∧ (msgPayload m).length % 4 = 0 ∧ (msgPayload m).length ≤ 4 + 4 * 8192 ∧ tOn.fab.mapGen.toNat < fieldAt (msgPayload m) 0 4
      ∧ fieldAt (msgPayload (tM 2 (tPad 4 []))) 0 4 ≤ tOn.fab.mapGen.toNat := by decide
theorem wit_msgRead :
    let m := tM 0x20 (tPad 8 []) 0 4
    (msgPayload m).length = 8 ∧ 0 < msgAux m ∧ msgAux m ≤ 65536 ∧ (readMem (tGot m) (msgWho m) (fieldAt (msgPayload m) 0 8) (msgAux m)).1 = .ok := by
  decide
theorem wit_msgWrite :
    let m := tM 0x22 (tPad 12 [])
    8 ≤ (msgPayload m).length ∧ (writeMem (tGot m) (msgWho m) (fieldAt (msgPayload m) 0 8) ((msgPayload m).drop 8) (msgPrio m)).1 = .ok := by decide
/-- A checkpoint store of partition 0, at rest and being written, and messages of both kinds from chip 5. -/
def tStore (w : Option Nat) : Store := ⟨0, 0, 5, 0, 4096 + 2 * 4096 * 20, w, 0⟩
def tStored (m : Bytes) (w : Option Nat) : State := { tGot m with ckpt := { stores := [tStore w] } }
theorem wit_msgCheckpoint :
    let m := tM 0x31 (tPad 64 [0, 0, 0, 0, 5]) 0 256
    let c := tM 0x31 (tPad 48 [0, 0, 0, 0, 0, 0, 0, 0, 0, 0, 5]) 0 0
    (tStore none).part.val = msgPart m ∧ bitOf (msgAux m) 8 = true ∧ findStore (tStored m none) (fieldAt (msgPayload m) 4 2) (bitsOf (msgAux m) 0 4) = some (tStore none)
      ∧ (msgPayload m).length ≤ storeSlotLen (tStore none)
      ∧ (writeMem (tStored m none) .device (storeSlot (tStore none) (nextSlot (tStored m none) (tStore none))) (putAt (msgPayload m) 7 [1]) 3).1 = .ok
      ∧ bitOf (msgAux c) 8 = false ∧ findStore (tStored c (some 1)) (fieldAt (msgPayload c) 0x0A 2) (bitsOf (msgAux c) 0 4) = some (tStore (some 1))
      ∧ chunkAt (fieldAt (msgPayload c) 4 4) + (msgPayload c).length ≤ storeSlotLen (tStore (some 1)) ∧ (msgPayload c).length ≤ 48 + 32768
      ∧ (writeMem (tStored c (some 1)) .device (storeSlot (tStore (some 1)) 1 + chunkAt (fieldAt (msgPayload c) 4 4)) (msgPayload c) 3).1 = .ok := by
  decide

/-! ### Collectives and checkpoints: hypotheses that are met -/

/-- Partition 0 with 64 MiB at the base of every stack. -/
def tZones : State :=
  { tPart with tier := { regions := (List.range 8).map fun d => ⟨false, 0, 0, 0, false, d * 0x1000000000, 0x4000000, 0⟩ } }
def tOpen : Bytes := tPad 32 [63, 0, 0, 0, 7]
theorem wit_collOpen :
    let c := tCmd 0x30 [] tOpen
    let s := tWith c tZones
    cmdFor s 1 0x30 = some c ∧ atRest s c (cmdPart s c) = true ∧ tOpen.length = 32 ∧ c.may 0 = true ∧ collOpenOk (beginCmd s 1) tOpen = true
      ∧ collOpenOk (beginCmd s 1) (tPad 32 [64]) = false ∧ collOpenOk (beginCmd (tWith c tPart) 1) tOpen = false := by decide
def tStream63 (x : CollStream) (s : State) : State := { s with coll := { streams := [(63, x)] } }
theorem wit_collClose :
    let c := tCmd 0x31 [63]
    let s := tWith c (tStream63 { st := .opened } tPart)
    cmdFor s 1 0x31 = some c ∧ atRest s c (c.byte 1) = true ∧ c.byte 0 < 64 ∧ c.byte 1 < 16 ∧ c.may (c.byte 1) = true
      ∧ (collAt s (c.byte 1) (c.byte 0)).st ≠ .closed ∧ zeroAt c.inl 2 22 = true ∧ (collAt tPart 0 63).st = .closed := by decide
/-- A barrier, and an ALL_REDUCE of one F32 from tier 1, of this module alone on stream 63. -/
def tBarrier : List Nat := [6, 0, 0, 0, 63, 15, 0, 0, 0, 0, 0, 0, 0, 0, 0, 0] ++ List.replicate 19 0 ++ [1, 1, 1]
def tReduce (a : Nat) : List Nat :=
  [3, 0, 0, 0, 63, 15, 0, 0, 0, 0, 0, 0, 1, 0, 0, 0, 0, a, 0, 0, 0, 0, 0, 0, 0, a] ++ List.replicate 9 0 ++ [1, 1, 1]
theorem wit_coll : ∀ d ∈ [tBarrier, tReduce 0, tReduce 1],
    let s := tStream63 { st := .opened } (tLib 12 d)
    let s1 := (groupCall s 0 12 (descArg 64)).2
    (groupCall s 0 12 (descArg 64)).1 = some [0, 1] ∧ libDesc s1 0 64 = some (tPad 64 d) ∧ ownChip s1 = some 0
      ∧ collDescOk s1 (tPad 64 d) = true ∧ isMember s1 (tPad 64 d) 0 = true ∧ collApart s1 (tPad 64 d) 0 = true
      ∧ (collAt s1 0 63).st = .opened ∧ cSeq (tPad 64 d) = (collAt s1 0 63).nextSeq ∧ (collAt s1 0 63).pending = [] ∧ (collAt s1 0 63).run = none
      ∧ collInside s1 0 (tPad 64 d) 0 = true ∧ collInside tOn 0 (tPad 64 (tReduce 0)) 0 = false ∧ collDescOk s1 (tPad 64 []) = false := by decide
def tWaits (n seq : Nat) (x : CollStream) : State :=
  let y : Tile := { st := .running, pc := 13, part := some 0, groupSize := 2, g := Tbl.put 0 (Tbl.put 0 [] 4 (BitVec.ofNat 64 n)) 5 (BitVec.ofNat 64 seq) }
  tStream63 x { tGroup 0 with tiles := [(0, y), (1, { y with index := 1 })] }
theorem wit_collWait :
    let a := fun (s : State) (t : Nat) => [gNum s t 4, gNum s t 5]
    (∀ n ∈ [63, 64], (groupCall (tWaits n 5 {}) 0 13 a).1 = some [0, 1] ∧ gNum (groupCall (tWaits n 5 {}) 0 13 a).2 0 4 = n)
      ∧ (collAt (tWaits 63 5 {}) 0 63).ended.find? (fun e => e.1 == 5) = none
      ∧ (collAt (tWaits 63 5 { ended := [(5, stOk, 0)] }) 0 63).ended.find? (fun e => e.1 == 5) = some (5, stOk, 0) ∧ stOk ≠ stOrderStall := by
  decide
def tOp (d : List Nat) : CollOp := { seq := 0, desc := tPad 64 d, digest := cDigest (tPad 64 d), order := 0, step := 1 }
theorem wit_collStart :
    let s := tStream63 { st := .opened, pending := [tOp (tReduce 0)] } tFixed
    (collAt s 0 63).run = none ∧ (collAt s 0 63).pending.find? (fun o => o.seq == (collAt s 0 63).nextSeq) = some (tOp (tReduce 0))
      ∧ ownChip s = some 0 ∧ (collAt s 0 63).aborts = []
      ∧ (readMem s (.step 0) (cSrc (tOp (tReduce 0)).desc) (srcLen s (tOp (tReduce 0)).desc 0)).1 = .ok
      ∧ (collGo (startColl s 0 63 0 (tOp (tReduce 0)) (tPad 4 [])) 0 63).isOk = true := by decide
def tCollRun : CollRun := { op := tOp tBarrier, sent := [⟨1, 1, 0, 0, [], 0, 7, true, false, 0, false⟩] }
theorem wit_collWatchdog :
    let s := tStream63 { st := .running, run := some tCollRun, wdog := 50 } tOn
    (collAt s 0 63).run = some tCollRun ∧ s.now < tCollRun.lastMove + (collAt s 0 63).wdog * 1000000
      ∧ tCollRun.lastMove + (collAt s 0 63).wdog * 1000000 ≤ ({ s with now := 50000000 } : State).now ∧ (collAt s 0 63).held = [] := by decide

/-- A collective message of a type from coordinate 1 for stream 63. -/
def tCollMsg (ty : Nat) : Bytes :=
  let s : State := { tOn with fab := { ext := (2, 1, 1), phys := 1 } }
  tMsg ⟨true, 0, 0x10, 0, 3, 0, 0, 7, 0, collHeader 0 63 ty 0 0 0 0 0 0⟩ s
def tCollSt (ty : Nat) (x : CollStream) : State := tStream63 x (tInbox (tCollMsg ty) tPart)
theorem wit_collMsg : ∀ ty ∈ [1, 2, 3, 4, 5],
    msgRefused (takeMsg (tCollSt ty {}) (tCollMsg ty)) (tCollMsg ty) 0x10 (ty == 3) = none ∧ 64 ≤ (tCollMsg ty).length ∧ hType (tCollMsg ty) = ty
      ∧ hStream (tCollMsg ty) = 63 ∧ msgRefused tPart (tCollMsg ty) 0x02 (ty == 3) = some stCheckFail
      ∧ answered (takeMsg (tCollSt ty {}) (tCollMsg ty)) (tCollMsg ty) = none := by decide
theorem wit_collStream :
    let t := fun ty x => takeMsg (tCollSt ty x) (tCollMsg ty)
    (collAt (t 1 { st := .failed }) 0 63).st = .failed ∧ (collAt (t 1 {}) 0 63).st = .closed ∧ (collAt (t 1 {}) 0 63).run = none
      ∧ (collAt (t 1 {}) 0 63).pending = [] ∧ (collAt (t 3 {}) 0 63).held = [] := by decide
theorem wit_collAnswered : ∀ ty ∈ [2, 4, 5],
    (answered (takeMsg (tCollSt ty { st := .running, run := some tCollRun }) (tCollMsg ty)) (tCollMsg ty)).isSome = true := by decide
theorem wit_collAck :
    (collGo (modCollRun (takeMsg (tCollSt 4 { st := .running, run := some tCollRun }) (tCollMsg 4)) 0 63 fun r =>
      { r with sent := r.sent.filter fun x => x.tag != 7 }) 0 63).isOk = true := by decide
theorem wit_collAbort :
    let m := tM 0 (tPad 64 ([0x32, 0] ++ List.replicate 38 0 ++ [63]))
    let t := takeMsg (tStream63 { st := .running, run := some tCollRun } (tInbox m tPart)) m
    let inl := (((msgPayload m).take 64).drop 0x28).take 24
    msgRefused t m 0 false = none ∧ fieldAt ((msgPayload m).take 64) 0 2 = 0x0032 ∧ fieldAt inl 0 1 < 64 ∧ fieldAt inl 1 1 < 16
      ∧ (collAt t (fieldAt inl 1 1) (fieldAt inl 0 1)).st = .running ∧ (collAt t (fieldAt inl 1 1) (fieldAt inl 0 1)).run = some tCollRun
      ∧ tCollRun.op.seq = BitVec.ofNat 32 (fieldAt inl 4 4) := by decide

/-- Partition 0 with 1 MiB of tier 1 and of tier 2 and a key in slot 5. -/
def tCk : State :=
  { tPart with
    tier := { regions := [⟨false, 0, 0, 0, false, 0, 0x100000, 0⟩, ⟨false, 0, 0, 0, false, 0x100000000000, 0x100000, 0⟩] }
    sec := { slots := [(5, { current := some ⟨List.replicate 32 0, 1, 0⟩, gen := 1 })] } }
/-- A shard of 2 KiB of tier 1 with its pool at the end of the tier-2 region; its buddy is the module itself. -/
def tShardB : Bytes := tBytes [0, 5, 0, 0, 1, 0, 0, 0] ++ leBytes 8 0x1000000F0000 ++ leBytes 8 0x10000 ++ leBytes 8 0
    ++ tBytes [1, 0, 0, 0, 0, 0, 0, 0] ++ leBytes 8 0 ++ leBytes 8 2048 ++ leBytes 8 0
theorem wit_ckptShard :
    let c := tCmd 0x40 [] tShardB
    let s := tWith c tCk
    cmdFor s 1 0x40 = some c ∧ atRest s c (cmdPart s c) = true ∧ 64 ≤ tShardB.length ∧ shardOk (beginCmd s 1) tShardB = true
      ∧ c.may (fieldAt tShardB 0 1) = true ∧ shardOk (beginCmd s 1) (tPad 64 []) = false := by decide
def tStoreDesc (len : Nat) : Bytes := tPad 8 [] ++ leBytes 8 0x100000000000 ++ leBytes 8 len ++ leBytes 8 0
def tOwnStore : Store := ⟨0, 0, 0, 0x100000000000, 0x40000, none, 0⟩
theorem wit_ckptStore :
    let c := tCmd 0x41 [] (tStoreDesc 0x40000)
    let b := tStoreDesc 0x40000
    let s := tWith c tCk
    cmdFor s 1 0x41 = some c ∧ atRest s c (cmdPart s c) = true ∧ b.length = 32 ∧ fieldAt b 0 1 = 0 ∧ partLives (beginCmd s 1) 0 = true
      ∧ fieldAt b 1 1 < 16 ∧ fieldAt b 2 2 < 32768 ∧ zeroAt b 4 4 = true ∧ zeroAt b 0x18 8 = true ∧ c.may 0 = true
      ∧ fieldAt b 8 8 % 65536 = 0 ∧ fieldAt b 0x10 8 % 65536 = 0 ∧ 262144 ≤ fieldAt b 0x10 8 ∧ isT2 (fieldAt b 8 8) = true
      ∧ inFixedOf (beginCmd s 1) 0 (fieldAt b 8 8) (fieldAt b 0x10 8) (fun r => r.codec == 0) = true
      ∧ findStore (beginCmd s 1) 0 0 = none ∧ (beginCmd s 1).ckpt.stores.length < 16
      ∧ findStore { s with ckpt := { stores := [tOwnStore] } } 0 0 = some tOwnStore ∧ fieldAt (tStoreDesc 0) 0x10 8 = 0 := by decide
def tTaking (f : Cmd → Cmd) : State :=
  let c := f { tCmd 0x42 [] with started := true }
  { tWith c tCk with
    ckpt := { shards := [(0, some ⟨tShardB.take 32, [tShardB.drop 32]⟩)], stores := [tOwnStore] } }
theorem wit_ckptTake :
    let s := tTaking fun c => { c with started := false }
    let c := tCmd 0x42
    cmdFor s 1 0x42 = some c ∧ c.byte 0 < 16 ∧ c.may (c.byte 0) = true ∧ zeroAt c.inl 1 7 = true ∧ zeroAt c.inl 16 8 = true
      ∧ (shardOf s 0).isSome = true ∧ lastAdmitted s 0 ≤ fieldAt c.inl 8 8 ∧ shardOf tCk 0 = none := by decide
theorem wit_snapshotDue :
    dueTake tCk 0 = none ∧ (dueTake (tTaking id) 0).isSome = true
      ∧ dueTake (tTaking fun c => { c with notAfter := some 3 }) 0 = some { tCmd 0x42 with started := true, notAfter := some 3 }
      ∧ 3 < ({ tTaking id with now := 4 } : State).now := by decide
/-- The take that the snapshot of `tTaking` makes. -/
def tTake0 : Take :=
  { cid := 1, afterStep := 0, snapTime := 0, seq := 1, keySlot := 5, keyGen := 1, key := List.replicate 32 0, srcChip := 0, buddy := 0, buddyPart := 0
    epoch := 0, slot := 0, table := manifestTable ⟨tShardB.take 32, [tShardB.drop 32]⟩, poolBase := 0x1000000F0000 }
def tSnap : State :=
  let s := tTaking id
  regPut (regSet (setCkpt (beginCmd s 1) fun k => { k with counter := k.counter + 1 }) ⟨.partCkbytes, 0, 0⟩ 0) (ckReg 0) 32 32 0
theorem wit_snapshot :
    let sh : Shard := ⟨tShardB.take 32, [tShardB.drop 32]⟩
    let s1 := tSnap
    shardOf s1 0 = some sh ∧ ownChip s1 = some 0 ∧ buddyChip s1 sh = some 0
      ∧ buddyInfo s1 0 0 0 none = some ⟨storeSlotLen tOwnStore, 0, 0, 0⟩ ∧ (keyUse s1 (fieldAt sh.header 1 1) 0).isOk = true
      ∧ fieldAt sh.header 3 1 = 0 ∧ slotSpan (chunkList ((manifestTable sh).map extLen)).length ≤ storeSlotLen tOwnStore
      ∧ sumN ((sh.extents.filter fun e => !(isT1 (extAddr e) || isT2 (extAddr e))).map extLen) + 4096 ≤ fieldAt sh.header 0x10 8
      ∧ pendingColl s1 0 = false := by decide
theorem wit_snapshotGoes :
    let sh : Shard := ⟨tShardB.take 32, [tShardB.drop 32]⟩
    let x := snapshotBody tSnap 0 tTake0 sh 0x10000
    x.1 = .ok ∧ (match takeOf x.2 0 with
      | some t => t.cid == 1 && (sendCkpt x.2 0 t true (manifestOf t 0 1 ++ t.table.flatten)).1 == none
      | none => false) = true := by decide
/-- The drain of that take: chunk 0 is the extent's, chunk 1 the step-state record's. -/
def tDrain (n : Nat) : State :=
  let t := { tTake0 with next := n, extents := [(0, 2048, false), (0x1000000F0000, 4096, false)] }
  { tCk with ckpt := { takes := [(0, some t)], stores := [{ tOwnStore with writing := some 0, got := 2 }] } }
theorem wit_drainNext :
    (takeOf (tDrain 0) 0).isSome = true ∧ (takeOf (tDrain 0) 0).map (fun t => (nextChunk t).isSome) = some true
      ∧ (takeOf (tDrain 2) 0).map (fun t => (nextChunk t).isNone && drained t) = some true
      ∧ (takeOf (tDrain 1) 0).map drained = some false ∧ ownChip (tDrain 2) ≠ some 1
      ∧ (chunkList (tTake0.table.map extLen))[0]? = some (0, 0, 2048)
      ∧ (drainRead (tDrain 0) tTake0 0 2048 false).1 = .ok := by decide
theorem wit_drainSends (b : Bytes) : (sendCkpt (tDrain 0) 0 tTake0 false b).1 = none := by
  have h : mapEntry (newTag (tDrain 0)).2 tTake0.buddy = some 0 := by decide
  simp [sendCkpt, sendMsg, buildMsg, h]
theorem wit_buddyCommit :
    let t := { tOwnStore with writing := some 0, got := 2 }
    findStore (tDrain 0) 0 0 = some t ∧ leNat (memBytes (tDrain 0) (storeSlot t 0 + 0x20) 8) ≤ t.got
      ∧ (writeMem (tDrain 0) .device (storeSlot t 0 + 7) [2] 3).1 = .ok
      ∧ (1 : Nat) < leNat (memBytes { tDrain 0 with mem := putBytes 0 [] (storeSlot t 0 + 0x20) [2] } (storeSlot t 0 + 0x20) 8) := by decide

/-- A store of module 1 that holds the committed slot of that take, whose STATE entry goes nowhere. -/
def tSlot : Tbl Byte := putBytes 0 [] 0 (manifestOf tTake0 0 2 ++ tTake0.table.flatten)
def tHeld : List RemoteStore := [⟨1, 0, 0, storeSlotLen tOwnStore, tSlot, []⟩]
def tCk2 : State := { tCk with fab := { ext := (2, 1, 1) } }
/-- CKPT_RESTORE of the first 2 KiB of the shard to 64 KiB of tier 1. -/
def tRestore (n : Nat) : Bytes :=
  tBytes [0, 5, n, 0, 0, 0, 0, 0] ++ leBytes 8 0
    ++ tBytes [1, 0, 0, 0, 0, 0, 0, 0] ++ leBytes 8 0 ++ leBytes 8 2048 ++ leBytes 8 0x10000
theorem wit_ckptRestore :
    let b := tRestore 1
    let c := tCmd 0x43 [] b
    let s := tWith c tCk2
    let s1 := beginCmd s 1
    let e := restoreRange (regSet s1 ⟨.partCkbytes, 0, 0⟩ 0) tHeld 0 ((b.drop 16).take 32)
    cmdFor s 1 0x43 = some c ∧ atRest s c (cmdPart s c) = true ∧ 48 ≤ b.length ∧ partLives s1 0 = true ∧ c.may 0 = true ∧ fieldAt b 1 1 < 64
      ∧ fieldAt b 2 2 ≠ 0 ∧ b.length = 16 + 32 * fieldAt b 2 2 ∧ zeroAt b 4 4 = true ∧ (keyUse s1 5 0).isOk = true ∧ (keyUse tPart 5 0).isOk = false
      ∧ e.isSome = true ∧ canWrite s1 (.step 0) 0x10000 2048 = true ∧ fieldAt (tRestore 0) 2 2 = 0 := by decide
/-- AXOLOTL_TAKEOVER of chip 0's partition 0 from the store of chip 1, the map already as it will be. -/
def tAxolotl : Bytes := tPad 32 [0, 0, 1, 0, 0, 0, 5]
theorem wit_axolotl :
    let b := tAxolotl
    let c := tCmd 0x44 [] b
    let s := tWith c tCk2
    let s1 := beginCmd s 1
    cmdFor s 1 0x44 = some c ∧ (payloadOf s c).1 = .ok ∧ (partAt s (fieldAt b 5 1)).run = none ∧ b.length = 32 ∧ fieldAt b 0 2 < 32768
      ∧ fieldAt b 2 2 < 32768 ∧ fieldAt b 4 1 < 16 ∧ partLives s1 (fieldAt b 5 1) = true ∧ c.may (fieldAt b 5 1) = true ∧ fieldAt b 6 1 < 64
      ∧ zeroAt b 7 1 = true ∧ zeroAt b 0x14 12 = true ∧ mapStands s1 0 (BitVec.ofNat 32 (fieldAt b 0x10 4)) = true
      ∧ findSlot (regSet s1 ⟨.partCkbytes, 0, 0⟩ 0) [] 1 0 0 0 = none ∧ findSlot (regSet s1 ⟨.partCkbytes, 0, 0⟩ 0) tHeld 1 0 0 0 = some tSlot
      ∧ (∀ e ∈ (List.range ((slotTable tSlot).length / 32)).map fun i => ((slotTable tSlot).drop (32 * i)).take 32,
          extKind e = 5 ∨ inPartRegion s1 0 (extAddr e) (extLen e) = true) := by decide

/-! ### Ingest: hypotheses that are met -/

/-- A pipeline of partition 0: queues, picture buffers, eight slots of 2 KiB, shapes, all in 16 MiB of tier 1. -/
def tPipe (n mode flags dict : Nat) (slotLen : Nat := 2048) : Bytes :=
  tBytes [n, 0, mode, flags, 5, dict, 1, 0] ++ leBytes 4 0x100000 ++ leBytes 4 0 ++ leBytes 8 0 ++ leBytes 8 0x800000 ++ leBytes 8 0x10000
    ++ leBytes 8 0x900000 ++ leBytes 4 8 ++ leBytes 4 slotLen ++ leBytes 8 0xA00000 ++ leBytes 8 0 ++ leBytes 4 0 ++ leBytes 2 1 ++ leBytes 2 0
def tIng (m : Tbl Byte := []) : State :=
  { tPart with tier := { regions := [⟨false, 0, 0, 0, false, 0, 0x1000000, 0⟩] }, mem := m }
def tPiped (x : Pipe) (s : State := tIng) : State := { s with ing := { s.ing with pipes := [(31, x)] } }
def tOpened (f : Pipe → Pipe) (desc : Bytes := tPipe 31 0 0 0xFF) : Pipe := f { st := .opened, desc, part := 0 }
theorem wit_ingOpen :
    let b := tPipe 31 0 0 0xFF
    let c := tCmd 0x50 [] b
    let s := tWith c tIng
    cmdFor s 1 0x50 = some c ∧ atRest s c (cmdPart s c) = true ∧ b.length = 80 ∧ fieldAt b 1 1 = 0 ∧ pdLocketWr b = false ∧ pipeOk (beginCmd s 1) b = true
      ∧ c.may 0 = true ∧ partDies (beginCmd s 1) 0 ≠ [] ∧ openPipes (beginCmd s 1) 0 < 8
      ∧ partDies (modPart tIng 0 fun q => { q with dies := 0 }) 0 = []
      ∧ 8 ≤ openPipes { tIng with ing := { pipes := (List.range 8).map fun n => (n, tOpened id) } } 0 := by decide
def tSrc (n : Nat) : Bytes := leBytes 8 0x1000 ++ leBytes 8 n ++ tPad 16 [1]
theorem wit_ingFeed :
    let c := tCmd 0x51 [31] (tSrc 32)
    let s := tWith c (tPiped (tOpened id))
    cmdFor s 1 0x51 = some c ∧ (tSrc 32).length = 32 ∧ c.byte 0 < 32 ∧ (pipeAt (beginCmd s 1) 31).st = .opened ∧ c.may 0 = true
      ∧ srcOk (pdLockets (tPipe 31 0 0 0xFF)) (tSrc 32) = true ∧ (pipeAt (beginCmd s 1) 31).entries.length < 65536
      ∧ srcOk (pdLockets (tPipe 31 0 0 0xFF)) (tSrc 31) = false ∧ (pipeAt tIng 31).st ≠ .opened := by decide
theorem wit_ingFeedFull (e : SrcEntry) : 65536 ≤ (tOpened fun x => { x with entries := List.replicate 65536 e }).entries.length :=
  le_of_eq List.length_replicate.symm
theorem wit_ingClose :
    let c := tCmd 0x52 [31]
    let s := tWith c (tPiped (tOpened id))
    cmdFor s 1 0x52 = some c ∧ atRest s c (cmdPart s c) = true ∧ c.byte 0 < 32 ∧ (pipeAt s (c.byte 0)).st = .opened ∧ c.may 0 = true
      ∧ (pipeAt tIng 31).st ≠ .opened ∧ (pipeAt (tPiped (tOpened fun x => { x with st := .closing, closeCid := some 1 })) 31).locketDue = [] := by
  decide

/-- A dictionary of the 256 single bytes: header and node array. -/
def tNodes : Bytes :=
  tBytes [0, 0, 0, 0x80, 1, 0, 0, 0, 0, 1, 0, 0, 0, 0, 0, 0]
    ++ (List.range 256).flatMap fun i => leBytes 4 i ++ leBytes 4 0 ++ leBytes 2 0 ++ leBytes 1 i ++ leBytes 1 1 ++ leBytes 4 0
def tDictHead (crc : Nat) : Bytes :=
  leBytes 4 0x43544B54 ++ leBytes 2 1 ++ leBytes 2 0 ++ leBytes 4 256 ++ leBytes 4 257 ++ leBytes 4 0xFFFFFFFF ++ leBytes 4 0xFFFFFFFF
    ++ leBytes 4 0 ++ leBytes 1 1 ++ leBytes 3 0 ++ leBytes 4 crc ++ List.replicate 2012 0
def tTok : Bytes := tPad 80 [3, 0, 0, 0, 0, 0, 0, 0, 0, 0, 0xB0]
theorem wit_tokLoad :
    let c := tCmd 0x53 [] tTok
    let s := tWith c (tIng (putBytes 0 [] 0xB0000C [1, 1]))
    let s1 := beginCmd s 1
    let ds := [dictRegion 0 0xB00000 (padTo 4096 (16 * 257)) 0 0]
    cmdFor s 1 0x53 = some c ∧ atRest s c (cmdPart s c) = true ∧ tTok.length = 80 ∧ fieldAt tTok 0 1 < 4 ∧ partLives s1 0 = true ∧ c.may 0 = true
      ∧ zeroAt tTok 2 6 = true ∧ fieldAt tTok 8 8 = 0xB00000 ∧ dictInUse s1 0 3 = false ∧ isT1 0xB00000 = true
      ∧ canRead s1 (.host (some 0)) 0xB00000 2048 = true ∧ (readMem s1 .device 0xB00000 2048).1 = .ok
      ∧ fieldAt (readMem s1 .device 0xB00000 2048).2.1 0x0C 4 = 257 ∧ canRead s1 (.host (some 0)) 0xB00800 (16 * 257) = true
      ∧ (readMem s1 .device 0xB00800 (16 * 257)).1 = .ok ∧ dictOk [] [] = false
      ∧ (∀ d ∈ partDies s1 0, tileDie (fieldAt tTok (16 + 8 * d) 2) = d) ∧ (∀ d ∈ ds, regionOk s1 c d = true)
      ∧ (∀ x ∈ (ds.map regionOfBytes).mapIdx (regionClash s1 (ds.map regionOfBytes)), x = false) ∧ regionsFit s1 (ds.map regionOfBytes) = true
      ∧ (accAll (ds.map regionOfBytes) s1 loadRegion).1 = .ok := by decide
/-- Two pictures of 16 by 16 in NV12, encoded by pair 0. -/
def tEnc (pair : Nat := 0) : Bytes :=
  tBytes [2, 0, 20, pair, 16, 0, 16, 0, 2, 0, 0, 0, 0, 0, 0, 0] ++ leBytes 8 0 ++ leBytes 8 0x10000 ++ leBytes 8 0x1000 ++ leBytes 2 30 ++ tPad 22 [0]
theorem wit_vidEncode :
    let c := tCmd 0x54 [] (tEnc)
    let s := tWith c tIng
    let s1 := beginCmd s 1
    cmdFor s 1 0x54 = some c ∧ 64 ≤ tEnc.length ∧ encOk s1 tEnc = true ∧ c.may (fieldAt tEnc 0x2A 1) = true ∧ freeCtx s1 0 = some 0
      ∧ freeCtx { s1 with ing := { ctxs := (List.range 64).map fun k => (k, some ⟨none, 0, 0, some 1, true⟩) } } 0 = none ∧ encOk s1 (tEnc 15) = false := by
  decide
theorem wit_videoEncodeDone :
    let c := { tCmd 0x54 [] tEnc with payBytes := some tEnc }
    let s := { tWith c tIng with ing := { ctxs := [(63, some ⟨none, 0, 0, some 1, true⟩)] } }
    encodeAt s 0 = some (63, 1, tEnc) ∧ fieldAt (tEnc) 0x20 8 = 4096
      ∧ (writeMem (regAddWrap (setCtx s 63 none) (vidReg 0) 32 32 2) (.host (some 0)) 0x10000 (tBytes [1, 2, 3])).1 = .ok := by decide

/-- An entry of 64 bytes, as a FETCH, DECRYPT or PARSE object. -/
def tEntry : SrcEntry := ⟨0x1000, 64, 1, 0⟩
def tSeg : Bytes := leBytes 4 0x47534C52 ++ leBytes 4 16 ++ tPad 12 [] ++ leBytes 4 0 ++ leBytes 4 1 ++ tPad 36 []
theorem wit_ingFetch :
    let s := fun fl => tPiped (tOpened (fun x => { x with entries := [tEntry], sealed_ := [(tEntry, tSeg, 0)] }) (tPipe 31 0 fl 0xFF))
    (pipeAt (s 0) 31).st = .opened ∧ (pipeAt (s 0) 31).entries = [tEntry] ∧ pdLockets (pipeAt (s 0) 31).desc = false
      ∧ pdSealed (pipeAt (s 0) 31).desc = false ∧ pdSealed (pipeAt (s 1) 31).desc = true ∧ (tPad 64 []).length = tEntry.length
      ∧ (pipeAt (s 1) 31).sealed_ = [(tEntry, tSeg, 0)] ∧ (partDies (s 1) 0).contains 0 = true ∧ segmentOk tSeg 0 = true
      ∧ (keyUse { s 1 with sec := tCk.sec } (pdKey (pipeAt (s 1) 31).desc) 0).isOk = true := by decide
/-- A file header, and a record of a raw component: SAMPLE_ID, COMP, FMT and one byte of data. -/
def tFile : Bytes :=
  let h := leBytes 4 0x31435252 ++ leBytes 2 1 ++ tPad 22 []
  h ++ leBytes 4 (crc32c h)
def tRecPay : Bytes :=
  tBytes [1, 0, 4, 0, 8, 0, 0, 0, 9, 0, 0, 0, 0, 0, 0, 0, 5, 0, 2, 0, 2, 0, 0, 0, 0, 0, 0, 0, 0, 0, 0, 0, 13, 0, 1, 0, 1, 0, 0, 0, 7, 0, 0, 0, 0, 0, 0, 0,
    14, 0, 7, 0, 1, 0, 0, 0, 0x55, 0, 0, 0, 0, 0, 0, 0]
def tRec : Bytes :=
  leBytes 4 tRecPay.length ++ leBytes 4 0x80000004 ++ leBytes 4 (crc32c (leBytes 4 tRecPay.length ++ leBytes 4 0x80000004 ++ tRecPay)) ++ leBytes 4 0 ++ tRecPay
theorem wit_parse :
    32 ≤ tFile.length ∧ fileHeaderOk tFile = true ∧ 16 ≤ tRec.length ∧ fieldAt tRec 0 4 ≤ 67108864 ∧ zeroAt tRec 12 4 = true
      ∧ 16 + padTo 8 (fieldAt tRec 0 4) ≤ tRec.length
      ∧ crc32c (tRec.take 8 ++ (tRec.drop 16).take (fieldAt tRec 0 4)) = fieldAt tRec 8 4
      ∧ parseRecord false (fieldAt tRec 4 4) ((tRec.drop 16).take (fieldAt tRec 0 4))
          = some (.comp 9 { num := 0, kind := 3, bits := [0x55], fmt := 7, decoded := true }) := by decide

/-- A sample of one component in the pipeline. -/
def tSample (c : Comp) (f : Sample → Sample := id) : Sample := f { id := 9, seq := 0, obj := 1, entry := 0, comps := [c], admitted := true, expectComps := 1 }
def tPipeOf (m : Sample) (s : State := tIng) (desc : Bytes := tPipe 31 0 0 0xFF) : State := tPiped (tOpened (fun x => { x with samples := [m] }) desc) s
def tVideo : Comp := { num := 0, kind := 1, codec := 2, count := 1, bits := [1] }
theorem wit_sampleAdmit :
    let m := fun f => tSample tVideo fun x => f { x with admitted := false }
    ((pipeAt (tPipeOf (m id)) 31).samples.find? fun m => !m.admitted && m.status == stOk) = some (m id)
      ∧ (m fun x => { x with at_ := some 5 }).at_ = some 5 ∧ tOn.now < 5
      ∧ ((pipeAt (tPipeOf (m fun x => { x with notAfter := some 5 })) 31).samples.find? fun m => !m.admitted && m.status == stOk)
          = some (m fun x => { x with notAfter := some 5 }) ∧ 5 < ({ tOn with now := 6 } : State).now := by decide
theorem wit_component :
    firstComp (pipeAt (tPipeOf (tSample tVideo)) 31) (fun c => c.kind == 1 && c.pair.isNone && !c.decoded) = some (tSample tVideo, tVideo)
      ∧ bestPair (tPipeOf (tSample tVideo)) (partPairs (tPipeOf (tSample tVideo)) 0) = some 0 ∧ freeCtx (tPipeOf (tSample tVideo)) 0 = some 0 := by decide
theorem wit_frame :
    let m := tSample { tVideo with pair := some 15, ctx := 63 }
    let s := { tPipeOf m with ing := { (tPipeOf m).ing with ctxs := [(64 * 15 + 63, some ⟨some 31, 0, 0, none, true⟩)] } }
    Tbl.get none s.ing.ctxs (64 * 15 + 63) = some ⟨some 31, 0, 0, none, true⟩ ∧ ((pipeAt s 31).samples.find? fun m => m.seq == 0) = some m
      ∧ (m.comps.find? fun c => c.num == 0) = some { tVideo with pair := some 15, ctx := 63 }
      ∧ Machine.pictureOk tPic = true ∧ dispatchHeld s = false ∧ tVideo.firstFrame ≤ tVideo.framesSeen
      ∧ pdStats (pipeAt s 31).desc = false ∧ m.at_ = none ∧ tVideo.count = tVideo.framesKept + 1
      ∧ ({ tVideo with framesSeen := 0, firstFrame := 1 } : Comp).framesSeen < 1 := by decide
def tText : Comp := { num := 0, kind := 2, bits := tBytes [0x41, 0xFF, 0x42], shape := 1 }
theorem wit_tokenize :
    let m := tSample tText
    let s := fun dict => { tPipeOf m (tIng (putBytes 0 [] (0xA00000 + 64 + 0x28) [4])) (tPipe 31 0 0 dict) with tiles := [] }
    let k : Dict := ⟨0xB00000, tDictHead 0, [(0, 0)]⟩
    firstComp (pipeAt (s 3) 31) (fun c => c.kind == 2 && !c.decoded) = some (m, tText) ∧ (partDies (s 3) 0).contains 0 = true
      ∧ pdDict (pipeAt (s 0xFF) 31).desc = 0xFF ∧ pdDict (pipeAt (s 3) 31).desc ≠ 0xFF ∧ dictPlace k 0 = some (0, 0)
      ∧ (shapeDesc (s 3) (pipeAt (s 3) 31).desc tText.shape).1 = .ok ∧ textShapeOk (shapeDesc (s 3) (pipeAt (s 3) 31).desc tText.shape).2.1 = true
      ∧ fieldAt k.header 0x0C 4 = 257 ∧ (readMem (s 3) .device (strataAddr 0 0) (16 * 257)).1 = .ok := by decide
theorem wit_shape :
    let raw : Comp := { num := 0, kind := 3, bits := [0x55], fmt := 7, decoded := true }
    let vid : Comp := { tVideo with frames := [tPic], decoded := true }
    let s := fun c => tPipeOf (tSample c) (tIng (putBytes 0 [] 0xA00000 (tPad 64 ([1, 0, 1, 0] ++ List.replicate 11 0 ++ [1]))))
    let f := fun (c : Comp) => !c.shaped && ((c.kind == 1 && !c.frames.isEmpty) || c.kind == 3)
    dispatchHeld { s raw with pwr := { (s raw).pwr with brake := true } } = true ∧ dispatchHeld (s raw) = false
      ∧ firstComp (pipeAt (s raw) 31) f = some (tSample raw, raw) ∧ rawCount raw = some 1 ∧ rawCount { raw with fmt := 0 } = none
      ∧ firstComp (pipeAt (s vid) 31) f = some (tSample vid, vid) ∧ vid.frames = [tPic]
      ∧ (shapeDesc (s vid) (pipeAt (s vid) 31).desc 0).1 = .ok ∧ shapeOk (shapeDesc (s vid) (pipeAt (s vid) 31).desc 0).2.1 = true
      ∧ (shapeFrame tPic (shapeDesc (s vid) (pipeAt (s vid) 31).desc 0).2.1).isSome = true := by decide
theorem wit_slotReady :
    let raw : Comp := { num := 0, kind := 3, bits := [0x55], fmt := 7, decoded := true, shaped := true, out := [0x55], outCount := 1 }
    let m := tSample raw
    let s := tPipeOf m
    (pipeAt s 31).st = .opened ∧ (pipeAt s 31).samples.findSome? (fun m => (sampleEnd m).map fun e => (m, e)) = some (m, stOk, 5)
      ∧ nextFree (pipeAt s 31) = some 0 ∧ isSuccess stOk = true ∧ isSuccess stCheckFail = false ∧ m.locket = none
      ∧ pdLocketWr (pipeAt s 31).desc = false
      ∧ (slotFor s (pipeAt s 31) m stOk 0xFFFFFFFF).length = 4096 ∧ pdSlotLen (tPipe 31 0 0 0xFF) = 2048 ∧ pdSlotLen (tPipe 31 0 0 0xFF 4096) = 4096
      ∧ (sampleEnd { m with status := stCheckFail }).isSome = true := by decide
theorem wit_slotWrite : (writeMem tIng .device (slotAddr (tPipe 31 0 0 0xFF 4096) 0) (tPad 4096 [9])).1 = .ok := by decide
theorem wit_locket :
    let d : LocketDue := ⟨0, 0, 0x10000, 0, []⟩
    let x := tOpened (fun x => { x with locketDue := [d] }) (tPipe 31 0 2 0xFF)
    let s := tPiped x
    (pipeAt s 31).locketDue = [d] ∧ (readMem s .device (slotAddr x.desc 0) 0).1 = .ok
      ∧ (writeMem s .device (pdLocket x.desc + d.off) (locketBytes 1 [] []).1 3).1 = .ok ∧ (pipeAt tIng 31).locketDue = [] := by decide
/-- Tile 0 at word `k`, with pipeline `n` in g4 and a slot in g5. -/
def tTaker (k n i : Nat) (x : Pipe) : State :=
  tPiped x { tGroup 0 fun t => { t with pc := k, g := Tbl.put 0 (Tbl.put 0 [] 4 (BitVec.ofNat 64 n)) 5 (BitVec.ofNat 64 i) } with tier := tIng.tier }
theorem wit_ingestTake :
    let s := tTaker 14 31 0 (tOpened id)
    let r := tTaker 14 31 0 (tOpened fun x => { x with ready := [2] })
    atWord s (liveTile s 0) 14 = true ∧ takePipe s (liveTile s 0) = some 31 ∧ (pipeAt s 31).ready = [] ∧ (pipeAt r 31).ready = [2]
      ∧ takePipe (tTaker 14 32 0 {}) 0 = none := by decide
theorem wit_ingestGive :
    let s := fun u => tTaker 15 31 2 (tOpened fun x => { x with slots := [⟨2, u, false, false⟩] })
    atWord (s true) (liveTile (s true) 0) 15 = true ∧ gNum (s true) 0 4 = 31 ∧ gNum (s true) 0 5 = 2 ∧ gNum (tTaker 15 32 0 {}) 0 4 = 32
      ∧ (newtOf (s true) 0).part = some (pipeAt (s true) 31).part
      ∧ (pipeAt (s true) 31).slots = [⟨2, true, false, false⟩] ∧ (pipeAt (s false) 31).slots = [⟨2, false, false, false⟩] := by decide

/-! ### Records of completion and of faults: hypotheses that are met -/

/-- Queue 255 with a completion ring of four records at its second pass. -/
def tRecQ (st : QueueState) : State :=
  { tOn with host := { tOn.host with queues := [(255, { st := st, cpl := 0x10000, cplLog := 2, cplTail := 5, fn := 3 })] } }
theorem wit_record :
    (queueAt tOn 255).st = .free ∧ (queueAt (tRecQ .active) 255).st ≠ .free ∧ Tbl.get false (tRecQ .active).host.d3hot (queueAt (tRecQ .active) 255).fn = false
      ∧ Tbl.get false ({ (tRecQ .active).host with d3hot := [(3, true)] } : HostPort).d3hot (queueAt (tRecQ .active) 255).fn = true := by decide
/-- Word for word, the second pass's record 1 has PHASE 0. -/
theorem test_record : bytesAt 0 (writeRecord (tRecQ .active) 255 0xABCD stOk 7).hostMem 0x10010 16
    = tBytes [0xCD, 0xAB, 0, 0, 0, 0, 0, 0, 7, 0, 0, 0, 0, 0, 0, 0] := by decide
/-- The function's event ring of 16 records, enabled: with room, and full. -/
def tRing (w : Nat) : State :=
  regPut (regSet { tOn with host := { tOn.host with evtWritten := [(7, w)] } } ⟨.hostEvtbase, 7, 0⟩ (0x20000 + 4)) ⟨.hostFnctrl, 7, 0⟩ 1 1 1
theorem wit_faultRecord :
    regBit tOn ⟨.hostFnctrl, 7, 0⟩ 1 = false ∧ regBit (tRing 15) ⟨.hostFnctrl, 7, 0⟩ 1 = true
      ∧ 4 ≤ regGet (tRing 15) ⟨.hostEvtbase, 7, 0⟩ % 32 ∧ regGet (tRing 15) ⟨.hostEvtbase, 7, 0⟩ % 32 ≤ 16
      ∧ Tbl.get 0 (tRing 15).host.evtWritten 7 < Tbl.get 0 (tRing 15).host.evtHead 7 + 16
      ∧ Tbl.get 0 (tRing 16).host.evtHead 7 + 16 ≤ Tbl.get 0 (tRing 16).host.evtWritten 7 := by decide
theorem wit_storeNothing (l : LinkId) (n : Fin 4) : ∃ u, exec (.laneFault l n) tOn = .next u := ⟨_, rfl⟩

/-- Idling of a module with and without power, with no correction and one that gathers no nanosecond. -/
theorem wit_idle : tOn.pending = [] ∧ tOn.pwr.powered = true ∧ State.reset.pending = [] ∧ State.reset.pwr.powered = false
    ∧ -1000000 < tOn.fab.slewAcc + tOn.fab.slew ∧ tOn.fab.slewAcc + tOn.fab.slew < 1000000 := by decide
/-- A newt that does not run, one beyond both regions, one at the first and the last word of the routines, and the first and the last
word that it fetches. -/
theorem wit_fetches :
    let s := fun pc => tNewt 0 fun x => { x with pc := pc, imem := [] }
    newtRuns tOn 0 = false ∧ newtRuns (s 16384) 0 = true ∧ (newtOf (s 16384) 0).pc = 16384 ∧ newtRuns (s 4) 0 = true
      ∧ (∀ pc ∈ [0, 3, 17, 2047, 2048, 16383], newtRuns (s pc) 0 = true ∧ (newtOf (s pc) 0).pc < 16384
          ∧ routineWord (newtOf (s pc) 0).pc = false ∧ fetchWord (s pc) (newtOf (s pc) 0) = 0) := by decide
/-- A word with a bit that its operation code does not use. -/
theorem wit_unused : usedBits (ndecode (tWord 0x00 1)).op = some 0 ∧ ((tWord 0x00 1).toNat % 2 ^ 22) &&& (0x3FFFFF - 0) ≠ 0
    ∧ (ndecode (tWord 0x13 6)).op = 0x13 ∧ 6 ≤ (tWord 0x13 6).toNat % 8 ∧ 6 ≤ (tWord 0x14 (512 * 6)).toNat / 512 % 8 := by decide
/-- A body that a CALL left, at its last address and elsewhere, with and without iterations left. -/
theorem wit_loopCall :
    let b := fun (n : Nat) (c : Bool) => (⟨3, 5, n, c⟩ : LoopEntry)
    let x := fun (pc n : Nat) (c : Bool) => ({ pc := pc, loops := [b n c] } : Tile)
    (x 5 0 false).pc = (b 0 false).last ∧ (goOn (x 5 1 false) 9 (br := true)).pc = 3 ∧ (goOn (x 5 0 false) 9 (br := true)).pc = 6
      ∧ (goOn (x 5 1 false) 9 (call := true)).pc = 9 ∧ (x 20 1 true).pc ≠ (b 1 true).last ∧ (b 1 true).calling = true
      ∧ (goOn (x 20 1 true) 6 (ret := true)).pc = 3 ∧ (goOn (x 20 1 false) 7 (ret := true)).pc = 7
      ∧ ∀ k ∈ (x 4 1 false).loops, (x 4 1 false).pc ≠ k.last := by decide
/-- A word whose scratch read is in error, and every place where a descriptor may stand and where it may not. -/
theorem wit_copies :
    let x : Tile := { g := [(1, 0x7FD0), (2, 0x7FE0), (3, 0x7FD8)] }
    (gReg x 1).toNat % 8 = 0 ∧ (gReg x 1).toNat + 48 ≤ 0x8000 ∧ (gReg x 2).toNat + 32 ≤ 0x8000 ∧ 0x8000 < (gReg x 3).toNat + 48
      ∧ xferCopies x (bytesAt 0 x.smem 0x7FD0 48) = some [] ∧ fieldAt (bytesAt 0 x.smem 0x7FE0 32) 0x14 4 % 8 = 0
      ∧ fieldAt (bytesAt 0 x.smem 0x7FE0 32) 0x14 4 + 32 ≤ 0x8000 := by decide
/-- HALT with and without commands, CSRs at both ends of their list, waits that are timed and that are not, markers kept and not. -/
theorem wit_haltCsr :
    (newtOf (tNewt (tWord 0x1A 0)) 0).queue = [] ∧ (newtOf (tNewt (tWord 0x1A 0) fun x => { x with queue := [⟨1, 0x20, .matrix, 0, 0, 0, 0, [], [], [], [], false, [], [], none, false, []⟩] }) 0).queue ≠ []
      ∧ (ndecode (tWord 0x2E 0x010)).imm = 0x010 ∧ (ndecode (tWord 0x2E 0)).imm = 0 ∧ (ndecode (tWord 0x2E 6)).imm ∉ [0x000, 0x001, 0x002, 0x003, 0x004, 0x005, 0x010]
      ∧ (ndecode (tWord 0x2F 0x010)).imm = 0x010 ∧ (ndecode (tWord 0x2F 0x011)).imm ≠ 0x010
      ∧ (newtOf (tNewt 0) 0).st ≠ .waiting ∧ (newtOf (tNewt 0) 0).unsentMark = none
      ∧ (newtOf (tNewt 0 fun x => { x with st := .waiting, wait := .tier }) 0).wait = .tier
      ∧ (999 : Nat) < 0 + 1000 ∧ (newtOf (tNewt (tWord 0x2B 7)) 0).lastMark = none := by decide
/-- Islands whose clock runs, while a stop is asked for, stopped and waking; a link's island in and out of training. -/
theorem wit_islands :
    let l := fun st k => regPut { tOn with fab := { links := [(35, { st := st })] } } (xstatR (.lnk 35)) 8 2 k
    clkState (tIsland .tel 1) .tel < 2 ∧ 2 ≤ clkState (tIsland .tel 2) .tel ∧ clkState (tIsland .tel 3) .tel = 3 ∧ clkState (tIsland .tel 3) .tel ≠ 2
      ∧ wakeBounded (.lnk 0) = false ∧ regBit (regPut (tIsland .tel 3) (xstatR .tel) 2 1 1) (xstatR .tel) 2 = true
      ∧ 2 ≤ clkState (l .active 2) (.lnk 35) ∧ (linkAt (l .active 2) 35).st ∉ [.disabled, .bypassed, .failed]
      ∧ (linkAt (l .failed 3) 35).st ∈ [.disabled, .bypassed, .failed] ∧ clkState (l .active 1) (.lnk 35) < 2
      ∧ mayStop (tIsland .tel 1 fun x => { x with inQ := [[]] }) .tel = false ∧ mayStop (tIsland .tel 0 fun x => { x with inQ := [[]] }) .tel = false
      ∧ clkState (tIsland .tel 1 fun x => { x with inQ := [[]] }) .tel = 1 ∧ clkState (tIsland .tel 0) .tel ≠ 3
      ∧ entryFits (.lnk 0) (List.replicate 64 0) = true ∧ entryFits (.lnk 0) (List.replicate 65 0) = false
      ∧ (islandAt (tIsland .tel 0 fun x => { x with outFlight := true }) .tel).outPend = false := by decide
theorem wit_startCases :
    State.reset.pwr.powered = false ∧ (46000 : Nat) ≤ 46000 ∧ (60000 : Nat) ≤ 60000 ∧ (45999 : Nat) < 46000 ∧ (60000 : Nat) < 60001
      ∧ (tPhase .load).boot.phase ≠ .verify ∧ (tPhase .fill fun b => { b with tiersFilled := true }).boot.tiersFilled = true
      ∧ (tPhase .fill fun b => { b with imageOk := false }).boot.imageOk = false ∧ (tPhase .recovery).boot.tiersFilled = false
      ∧ (tPhase .run).boot.phase ≠ .verify ∧ (tPhase .run).boot.phase ≠ .fill ∧ (tPhase .run).boot.phase ≠ .recovery ∧ (tPhase .run).boot.phase ≠ .load
      ∧ tOn.pwr.powered = true ∧ (560 : Nat) ≤ 560 ∧ (560 : Nat) < 561
      ∧ ({ tOn with pwr := { tOn.pwr with holdup := true } } : State).pwr.holdup = true ∧ tOn.pwr.holdup = false := by decide
/-- A flash that is free, in use, and held up; an activation begun, paused and failed; an image that raises the minimum, and one that
does not. -/
theorem wit_updateCases :
    let b := fun (f : Boot → Boot) => tPhase .run f
    let r := b fun b => { b with flash := [(6, 1), (0xE, 1)] }
    flashFree (b fun b => { b with op := some (.erase 1 (some 1)) }) = false ∧ flashFree { tOn with pwr := { tOn.pwr with holdup := true } } = false
      ∧ (b fun b => { b with act := some (1, true) }).boot.act ≠ none ∧ (b id).boot.act = none ∧ (tPhase .pause).boot.phase ≠ .run
      ∧ (b fun b => { b with actPaused := true }).boot.actPaused = true ∧ (b fun b => { b with actFailed := some stImageBad }).boot.actFailed = some stImageBad
      ∧ (b id).boot.actFailed = none ∧ ihRaiseSvn (imgHeader r 0) = true ∧ r.fuses.svnMin < ihSvn (imgHeader r 0)
      ∧ ihRaiseSvn (imgHeader (b fun b => { b with flash := [(6, 0)] }) 0) = false
      ∧ (b fun b => { b with op := some (.program 1 0xFF000 [1] (some 1)) }).boot.op = some (.program 1 0xFF000 [1] (some 1))
      ∧ (b fun b => { b with op := some (.owner [1] (some 1)) }).boot.op = some (.owner [1] (some 1))
      ∧ (tPhase .recovery fun b => { b with op := some (.selector [1]) }).boot.phase = .recovery := by decide
/-- A grant that changes and one that stays, a stopped I3C clock, a rail beyond its rating, temperatures at each bound. -/
theorem wit_powerCases :
    let p := fun (f : Power → Power) => { tOn with pwr := f tOn.pwr }
    let hot := fun (t : Nat) => regPut tOn ⟨.telSite, 7, 63⟩ 0 16 t
    regFld tOn ⟨.pwrVreq, 0, 0⟩ 8 3 = wantedState tOn ∧ regFld (regPut tOn ⟨.pwrVreq, 0, 0⟩ 0 3 1) ⟨.pwrVreq, 0, 0⟩ 8 3 ≠ wantedState (regPut tOn ⟨.pwrVreq, 0, 0⟩ 0 3 1)
      ∧ State.reset.boot.phase ≠ .run ∧ State.reset.boot.phase ≠ .pause ∧ clkRuns tOn .tel = true ∧ clkRuns (tIsland .tel 2) .tel = false
      ∧ railOver tOn = false ∧ railOver (regPut (p fun x => { x with phasesLost := [(16, 1)] }) ⟨.telRail, 0, 16⟩ 32 32 1) = true
      ∧ limitMw tOn < limitMw tOn + 1 ∧ (limitMw tOn * 95 / 100) * 100 ≤ limitMw tOn * 95
      ∧ (9499 : Nat) < 9500 ∧ (2950000 : Nat) < 2950001 ∧ (2800000 : Nat) ≤ 2800000 ∧ (2800000 : Nat) < 2800001 ∧ (2950000 : Nat) ≤ 2950000
      ∧ (p fun x => { x with thermUs := 899, coolUs := 9899 }).pwr.thermUs < 900 ∧ 900 ≤ (p fun x => { x with thermUs := 900 }).pwr.thermUs
      ∧ 9900 ≤ (p fun x => { x with coolUs := 9900 }).pwr.coolUs ∧ (hot 0).pwr.coolUs < 9900
      ∧ (regFld tOn ⟨.pwrLimit, 0, 0⟩ 0 7 : Int) * 100 ≤ hottest (hot 10000) 7 ∧ 10000 ≤ hottest (hot 10000) 7 ∧ hottest (hot 9999) 7 < 10000
      ∧ 9700 < hottest (hot 9701) 7 ∧ (∀ d < 8, hottest tOn d ≤ (regFld tOn ⟨.pwrLimit, 0, 0⟩ 0 7 : Int) * 100 - 300)
      ∧ (∀ d < 8, hottest tOn d ≤ 9700) ∧ (railPhases 16).1 ≤ Tbl.get 0 ([(16, 1)] : Tbl Nat) 16 ∧ Tbl.get 0 ([] : Tbl Nat) 27 < 1000 := by
  decide
/-- A module at its last limits: every die hot, a die of a rail past its last phase. -/
theorem wit_powerLimits :
    let b := fun ms => (ms = 0#16 ∨ (10 ≤ ms.toNat ∧ ms.toNat ≤ 60000))
    b 0 ∧ b 10 ∧ b 60000 ∧ ¬ b 9 ∧ ¬ b 60001 ∧ telRecord tOn 0 = none ∧ telRecord tOn 6 = none ∧ (telRecord tOn 5).isSome = true
      ∧ tOn.boot.op = none ∧ (45000 : Nat) ≤ 45000 ∧ (60000 : Nat) < 60001 ∧ tOn.pwr.holdup = false ∧ State.reset.pwr.powered = false
      ∧ Tbl.get 0 tOn.pwr.subs 5 = 0 ∧ { tCmd 0x201 [1] with fn := 1 }.fn ≠ 0
      ∧ (tCmd 0x201 [1]).payLen < ((telRecord tOn 1).getD []).length := by decide
/-- Keys that are bound and not; a slot whose key the end of an operation frees, and one it does not name. -/
theorem wit_keyCases :
    let s := fun (x : KeySlot) => tKeyed x
    let k : Key := ⟨[], 2, 1⟩
    (k.bound = 1 ∧ 0 < k.bound) ∧ (⟨[], 2, 0⟩ : Key).bound = 0 ∧ kwWrapped tKey = false ∧ kwWrapped (tPad 80 [63, 0, 1]) = true
      ∧ (slotAt tOn (kwKekSlot (tPad 80 [63, 0, 1]))).current = none
      ∧ (slotAt (s { current := some k }) 63).current = some k ∧ k.gen = 2 ∧ (slotAt (s {}) 63).current = none ∧ (slotAt (s {}) 63).shadow = none
      ∧ (slotAt (s { shadow := some k, erasing := true }) 63).erasing = true ∧ (slotAt (s { shadow := some k }) 63).erasing = false
      ∧ flashFree (tPhase .run fun b => { b with op := some (.selector []) }) = false
      ∧ tokenFields (tPad 288 []) = false ∧ (∀ a ∈ [1, 2, 3, 4], fieldAt (tPad 288 [0, 0, 0, 0, a]) 4 1 = a) ∧ (tPad 288 []).length = 288
      ∧ (tPad 287 []).length < 288 := by decide
/-- A payload in the module's memory: one that is read, one outside what the command may reach, one that must wait. -/
theorem wit_payloads :
    let c := fun a => { tCmd 0x312 with payBytes := none, payLen := 288, flags := 8, payload := a }
    (payloadOf tOn (c 0x1000)).1 = .ok ∧ (payloadOf tOn (c 0x1000)).2.1.length = 288 ∧ (payloadOf tOn (c (2 ^ 48))).1 ≠ .ok
      ∧ (payloadOf tOn (c (2 ^ 48))).1 ≠ .wait := by decide
/-- Recovery commands that are taken and that are not, requests of every kind that is refused. -/
theorem wit_recoveryCases :
    let s := tPhase .recovery
    (∀ cmd ∈ [1, 2, 3, 4, 5], s.boot.phase = .recovery ∧ s.boot.op = none ∧ (BitVec.ofNat 32 (16 + cmd)).toNat % 16 = cmd)
      ∧ ({ s with pwr := { s.pwr with holdup := true } } : State).pwr.holdup = true ∧ s.pwr.holdup = false
      ∧ State.reset.host.perst = true ∧ (tPhase .pause).boot.phase = .pause ∧ tOn.boot.phase = .run ∧ s.boot.phase ≠ .run ∧ s.boot.phase ≠ .pause
      ∧ fieldAt (tBytes [0x12, 0x85]) 1 1 ≠ 0x84 ∧ tOn.sec.spdmVersion = 0 ∧ tOn.sec.spdmAlgs = false
      ∧ ({ tOn.sec with spdmVersion := 0x12 } : Security).spdmVersion ≠ 0 ∧ fieldAt (tBytes [0x13, 0x83]) 0 1 ≠ 0x12
      ∧ (tBytes [0x12, 0x83]).length < 4 ∧ 4 ≤ (tBytes [0x12, 0x81, 0, 0]).length := by decide
/-- Partition 0's region while its first pseudo-channel is being redirected, and once its first unit is lost. -/
def tHeldTier (s : State) : State := { s with tier := { s.tier with redirecting := [(false, 0)] } }
def tLostTier (s : State) : State := { s with tier := { s.tier with lost := [(0, true)] } }
/-- Accesses by the step and by the host that end well, that must wait, that fail, and that leave what they may reach. -/
theorem wit_accesses : ∀ w ∈ [Who.step 0, .host (some 0), .host none],
    (readMem tFixed w 0 8).1 = .ok ∧ (writeMem tFixed w 0 [1]).1 = .ok ∧ (readMem (tHeldTier tFixed) w 0 8).1 = .wait
      ∧ (writeMem (tHeldTier tFixed) w 0 [1]).1 = .wait ∧ (readMem (tLostTier tFixed) w 0 8).1 = .fail stTierFail
      ∧ (readMem tFixed w (2 ^ 48) 8).1 = .bounds ∧ (writeMem tFixed w (2 ^ 48) [1]).1 = .bounds := by decide
/-- A payload in memory, which the host writes at 0x0 of the tiers. -/
def tMemCmd (op : Nat) (n : Nat) (a : Nat := 0) : Cmd := { tCmd op with payBytes := none, payLen := n, flags := 8, payload := a }
theorem wit_hostPayloads :
    let c := tMemCmd 0x0002 64
    cmdFor (tWith c tFixed) 1 0x0002 = some c ∧ (payloadOf tFixed c).1 = .ok ∧ (payloadOf tFixed c).2.1.length = 64
      ∧ (payloadOf (tHeldTier tFixed) c).1 = .wait ∧ (payloadOf (tLostTier tFixed) c).1 = .fail stTierFail
      ∧ (payloadOf tFixed (tMemCmd 0x0002 64 (2 ^ 48))).1 = .bounds ∧ (tMemCmd 0x0002 63).payLen < 64 := by decide
/-- QUE_CREATE at its limits: an unbound VSLOT, a bound one with its limit used up and not, a VF's own command. -/
theorem wit_queueCases :
    let s := fun n => { tPart with host := { perst := false, binds := [(16, some ⟨0, n⟩)] } }
    let v : Cmd := { tCmd 0x0002 with fn := 16, part := 0 }
    let d : Queue := { tQueue with st := .free, fn := 16, part := 0, vslot := 0 }
    bindAt (s 1) 16 = some ⟨0, 1⟩ ∧ bindAt (s 1) 15 = none ∧ (0 : PartId).val = d.part ∧ (0 : PartId).val ≠ 1 ∧ queueByVslot (s 1) 16 0 = none
      ∧ lowestFree (s 1) = some 17 ∧ (0 : Nat) < 1 ∧ (0 : Nat) ≤ 0 ∧ v.fn ≠ 0 ∧ fieldAt v.inl 2 1 % 16 = 0 ∧ fieldAt (tCmd 2 [0, 0, 1]).inl 2 1 % 16 ≠ 0
      ∧ queueOk (s 1) { queueOf tQueueDesc with fn := 16, part := 0, vslot := 0 } = true
      ∧ (queueByVslot { s 1 with host := { (s 1).host with queues := [(17, { d with st := .active })] } } 16 0).isSome = true
      ∧ fieldAt (tCmd 3 [0, 0, 1]).inl 0 4 % 2 ^ 20 / 2 ^ 16 ≠ 0 ∧ allAtRest (tGroup 0) (tCmd 0x0101 [] (tPartDesc 0)) = false
      ∧ restOpcodes.contains 0x0101 = true ∧ cmdFor tOn 1 1 = none := by decide
theorem wit_remoteCpl :
    let m := tMsg ⟨true, 0, 0, 0, 0, 0, 0, 7, 0, tPad 64 [6]⟩
    let s := tInbox m { tHost with host := { tHost.host with remote := [{ cid := 1, msgTag := 7 }] } }
    msgRefused (takeMsg s m) m 0 false = none ∧ fieldAt ((msgPayload m).take 64) 0 2 = 6
      ∧ ((takeMsg s m).host.remote.find? (fun r => r.msgTag.toNat == msgTag m)).isSome = true
      ∧ (takeMsg (tInbox m tHost) m).host.remote.find? (fun r => r.msgTag.toNat == msgTag m) = none := by decide
/-- Doorbells where the host does not reach, unaligned, before RUN; a coalescer that holds the queue, and not; a spilled one. -/
theorem wit_doorbellCases :
    noFn State.reset 0 = true ∧ (4 : Nat) % 8 ≠ 0 ∧ (8 : Nat) % 8 = 0
      ∧ (doorbellQueue tQ 0 (8 * 17)).1 = some 17 ∧ (doorbellQueue tQ 0 (8 * 17)).2 = false ∧ (doorbellQueue tQ 0 (0x800000 + 8 * 17)).2 = true
      ∧ (doorbellQueue tQ 0 (8 * 18)).1 = none ∧ inRun (tPhase .recovery) = false
      ∧ tQ.host.coalescer.any (fun e => e.1 == 17) = false ∧ Tbl.get none tQ.host.bitmap 17 = none ∧ tQ.host.coalescer.length < 4096
      ∧ (tQ id fun s => { s with host := { s.host with coalescer := [(17, 1, none, 0)] } }).host.coalescer.any (fun e => e.1 == 17) = true
      ∧ Tbl.get none ({ tQ.host with bitmap := [(17, some (1, none, 0))] } : HostPort).bitmap 17 ≠ none := by decide
theorem wit_spilled (e : Nat × Nat × Option Nat × Nat) : 4096 ≤ (List.replicate 4096 e).length := by simp
/-- A read of entries on its way for a queue that is ACTIVE, and for one that is not; entries in the module's memory. -/
theorem wit_fetchCases :
    let f := some (2, none, 0)
    let d : Queue := { tQueue with fetching := f, flags := 2, ring := 0 }
    (queueAt tQ 17).fetching = none ∧ (queueAt (tQ fun d => { d with fetching := f }) 17).fetching = f
      ∧ (queueAt (tQ fun d => { d with fetching := f, st := .error }) 17).st ≠ .active ∧ (queueAt (tQ fun d => { d with fetching := f }) 17).st = .active
      ∧ (readEntries tQ tQueue 2).1 = .ok ∧ bitOf tQueue.flags 1 = false
      ∧ (readEntries (tHeldTier tFixed) { d with part := 0 } 2).1 = .wait ∧ (readEntries (tLostTier tFixed) { d with part := 0 } 2).1 = .fail stTierFail
      ∧ (readEntries tFixed { d with ring := 2 ^ 48 } 2).1 = .bounds
      ∧ (queueAt tQ 17).entries = [] ∧ (tCmd 0x120).origin = none ∧ bitOf { tCmd 1 with flags := 16 }.flags 4 = true
      ∧ bitOf (tCmd 1).flags 1 = false ∧ bitOf { tCmd 1 with flags := 2 }.flags 1 = true ∧ fieldAt (tPad 64 []) 0x10 8 < ({ tOn with now := 1 } : State).now
      ∧ (payloadOf tPart tStart).1 = .ok ∧ (payloadOf tFixed (tMemCmd 0x120 48 (2 ^ 48))).1 ≠ .ok
      ∧ deadlineGone tPart (tPad 48 [0]) = false
      ∧ deadlineGone { tPart with now := 6, parts := [(0, { dlm := some ⟨true, true, 1, [5], 1, 1⟩ })] }
          (tPad 48 (List.replicate 24 0 ++ [5])) = true := by decide
/-- HOST_OUT: no partition, no call, a queue of another partition, a later caller, appended bytes that fill a page and wait. -/
theorem wit_hostOutCases :
    let s := fun (f : Queue → Queue) (n : Nat) => { tGroup 0 (fun x => { x with pc := 16, g := [(4, 17), (5, 0), (6, BitVec.ofNat 64 n)] }) with
      tier := tFixed.tier, host := { perst := false, queues := [(17, f { tQueue with part := 0, pring := 0x4000 })] } }
    (newtOf tOn 0).part = none ∧ (newtOf (tGroup 0) 0).pc ≠ 16 ∧ canRead (s id 1) (.step 0) 0 1 = true
      ∧ (queueAt (s (fun d => { d with part := 1 }) 1) 17).part ≠ (0 : PartId).val
      ∧ (liveCallers (s (fun d => { d with callers := [1] }) 1) 17).head? ≠ some (toTile 0)
      ∧ (appendAll 2 (modQueue (s id 1) 17 fun d => { d with callers := [0] }) 17 0 0 1 false).1 = .ok
      ∧ (appendAll 2 (modQueue (s id 1) 17 fun d => { d with callers := [0] }) 17 0 0 1 false).2.1 = 1
      ∧ (appendAll 2 (modQueue (s (fun d => { d with holdFull := some (false, 0) }) 1) 17 fun d => { d with callers := [0] }) 17 0 0 1 false).2.1 = 0
      ∧ (queueAt (s id 1) 17).holdFull = none ∧ (queueAt (tQ fun d => { d with hostStall := true }) 17).hostStall = true
      ∧ bitOf (queueAt (tQ fun d => { d with flags := 1 }) 17).flags 0 = true ∧ regFld (regPut tHost ⟨.hostFnctrl, 0, 0⟩ 16 16 0) ⟨.hostFnctrl, 0, 0⟩ 16 16 = 0
      ∧ regFld tHost ⟨.hostFnctrl, 0, 0⟩ 16 16 ≠ 0
      ∧ (msixAt (modMsix tHost 0 4095 fun _ => { masked := false }) 0 4095).holdoff = false := by decide
/-- The aperture behind a held access; a VF's accesses; the queue region; the grandmaster locked and not, and another module. -/
theorem wit_apertureCases :
    let s := fun (x : HostPort) => { tFixed with boot := { phase := .run }, host := x }
    let p : HostPort := { perst := false }
    inRun tHost = true ∧ ({ p with barHeld := [{ fn := 0, off := 0, len := 1, data := none }] } : HostPort).barHeld ≠ [] ∧ p.barHeld = []
      ∧ noFn tHost 0 = false ∧ (fnWho (s { p with binds := [(16, some ⟨0, 1⟩)] }) 16).isSome = true
      ∧ bar4Addr tHost 0 0 1 = some 0 ∧ fnQueues tHost 0 = [] ∧ fnQueues tQ 0 = [17]
      ∧ inQueueRegion 0x1016560BC000 8 = true ∧ inQueueRegion 0x10165A0BC000 1 = false ∧ writesClean tFixed (.host none) 0 1 = false
      ∧ writesClean { tFixed with strata := { regions := [(0, some ⟨0, 4096, 1, 0, 0, 0, 0x2000⟩)] } } (.host none) (strataAddr 0 0) 1 = true
      ∧ ({ p with ptmLocked := true } : HostPort).ptmLocked = true ∧ ({ tOn.fab with gm := true } : Fabric).gm = true ∧ tOn.fab.gm = false := by decide
/-- Offsets and registers of every kind of write; the pins in the pause and without power. -/
theorem wit_registerCases :
    Tbl.get false ({ tHost.host with d3hot := [(0, true)] } : HostPort).d3hot 0 = true ∧ bar0Window 0 0x4000000 = none ∧ bar0Window 16 0x10000 = none
      ∧ bar0Window 16 0xFFFC = some (0, 0x20FFFC) ∧ (2 : Nat) % 4 ≠ 0 ∧ (4 : Nat) % 8 ≠ 0
      ∧ islandOf ⟨.tileFpstat, 0, 0⟩ = none ∧ RegName.tileFpstat ∉ [RegName.strErrlog, .codecErrlog, .ingPipeerr, .strScrub, .t1cCtrl, .t2cCtrl]
      ∧ isArray .queSel = false ∧ isArray .bootRwin = true ∧ RegName.bootRwin.info.bits ≠ 32
      ∧ (tPhase .pause).pwr.powered = true ∧ (closeAll (faultReg { tPhase .pause with clspHold := true } 0xFF ⟨.clspStat, 0, 0⟩)).boot.phase = .pause
      ∧ State.reset.pwr.powered = false := by decide
/-- Partitions that a modification leaves and changes; zero fills that are due, and not. -/
theorem wit_partCases :
    let s := tPart1
    let d := fun cid => { tOn with parts := [(0, { st := .deleting, deleteCid := cid })] }
    (∀ t ∈ partTiles s 0, t ∈ [0]) ∧ (∀ t ∈ [0], t ∈ partTiles s 0) ∧ (partAt s 0).dies = BitVec.ofNat 8 1 ∧ (partAt s 0).serving = (0 == 1)
      ∧ (∃ t ∈ partTiles s 0, t ∉ [1]) ∧ (partAt s 0).dies ≠ BitVec.ofNat 8 2 ∧ (partAt s 0).serving ≠ (1 == 1)
      ∧ (partAt (d (some 1)) 0).st = .deleting ∧ (partAt (d none) 0).deleteCid = none ∧ tOn.tier.unfilled = []
      ∧ ({ tOn.tier with unfilled := [(0, 65536)] } : Tier).unfilled ≠ [] ∧ (∀ r < 16, (partAt tPart r).st ≠ .deleting)
      ∧ (partAt tPart 0).st ≠ .deleting := by decide

/-- A step that waits behind another, one already begun, and one whose payload or group cannot be read. -/
theorem wit_stepCases :
    let s := tWith (tMemCmd 0x120 48) tFixed
    let w := fun q => tWith tStart { tPart with parts := [(0, q)] }
    let q : Part := { st := .idle, dies := 1, tiles := [0], waiting := [1] }
    (payloadOf (tHeldTier s) (tMemCmd 0x120 48)).1 = .wait ∧ (payloadOf (tLostTier s) (tMemCmd 0x120 48)).1 = .fail stTierFail
      ∧ (partAt (w q) 0).waiting.contains 1 = true ∧ (tPad 47 []).length < 48 ∧ { tStart with fn := 1, part := 1 }.may 0 = false
      ∧ partPending { tWith tStart tPart with host := { tPart.host with cmds := [{ tCmd 0x101 [] (tPartDesc 0) with id := 0 }, tStart] } } tStart 0 = true
      ∧ (partAt (w { q with st := .deleting }) 0).st ≠ .idle ∧ (partAt (w { q with st := .deleting }) 0).st ≠ .running
      ∧ stepDeadlineOk (w q) tStart (tPad 48 [0]) = true ∧ stepDeadlineOk { w q with now := 2 } tStart (tPad 48 (List.replicate 24 0 ++ [1])) = false
      ∧ (stepGroup (w { q with tiles := [] }) (tPad 48 [0])).1.toOption = none ∧ (partAt tPart 0).waiting = [] ∧ cmdAt tPart 1 = none
      ∧ (partAt (w { q with run := some tRun }) 0).run ≠ none ∧ (tPhase .pause).boot.phase ≠ .run ∧ (w q).boot.phase = .run
      ∧ (readMem (tHeldTier s) (.step 0) 0 8).1 = .wait ∧ loadable tPart 0 = true ∧ loadable (tGroup 0) 0 = false
      ∧ dispatchHeld tPart = false ∧ startable tPart 0 = true ∧ 98304 < (98305 : Nat)
      ∧ atRest (tGroup 0) tStart 0 = false ∧ (tPad 48 [0]).length = 48 := by decide
/-- A step with a replay due, with a running member, with owed writes that must wait or fail, on a stalled queue. -/
theorem wit_stepStops :
    let s := fun (r : Step → Step) => tGroup 0 id r
    let h := { tGroup 0 with tiles := [(0, { st := .ready }), (1, { st := .ready })] }
    let m := { tGroup 0 with parts := [(0, { st := .running, dies := 1, tiles := [0, 1], stepNum := 1, run := some tRun, marks := [(0, 1, 5, 9)] })] }
    let d : Dlm := ⟨true, true, 1, [5], 10, 1⟩
    ((partAt (s fun r => { r with replayDue := true }) 0).run.map (·.replayDue)) = some true
      ∧ (settleStop (s id) 0).parts = (s id).parts ∧ (partAt (settleStop h 0) 0).run = some tRun
      ∧ (owedWrites h 0 tRun [0, 1]).1 = .ok ∧ ({ tRun with deadline := 5 }.deadline ≠ 0) ∧ tRun.deadline = 0 ∧ { tRun with status := some stAborted }.status ≠ none
      ∧ (partAt (s id) 0).dlm = none ∧ (partAt m 0).marks = [(0, tRun.num, 5, 9)] ∧ (partAt (s id) 0).marks = [] ∧ (liveMembers m tRun.members) = [0, 1]
      ∧ d.fallback = true ∧ d.minMark ≤ { tRun with progress := 1 }.progress ∧ { tRun with progress := 1 }.progress ≠ 0 ∧ tRun.progress = 0
      ∧ cmdAt (tWith tStart) 1 = some tStart ∧ (partAt tPart 0).run = none ∧ bitOf ((tCmd 0x121 [0, 1]).byte 1) 0 = true := by decide
/-- A stalled queue that owns the step's command. -/
theorem wit_stalled :
    let s := { tGroup 0 with host := { perst := false, queues := [(17, { tQueue with part := 0, hostStall := true, flags := 1 })]
                                       cmds := [{ tStart with queue := some 17, deadlineQ := true }] } }
    (stepQueue s 0).isSome = true ∧ stepQueue s 0 = some 17 ∧ (queueAt s 17).hostStall = true ∧ (queueAt tQ 17).hostStall = false := by decide

/-- A tiling of one element of each operand: OB and T1, FP8 by FP8 into a format of code 1, C at 0x2000. -/
def tTd : Bytes :=
  let lv := fun cap => leBytes 4 1 ++ leBytes 4 1 ++ leBytes 4 1 ++ leBytes 2 1 ++ leBytes 2 1 ++ leBytes 2 0x4688 ++ [0#8, 1#8] ++ leBytes 4 cap ++ leBytes 8 0
  let op := fun base => leBytes 8 2 ++ leBytes 8 base ++ leBytes 8 0 ++ leBytes 8 0 ++ leBytes 8 0 ++ leBytes 8 0
  leBytes 4 1 ++ leBytes 4 1 ++ leBytes 4 1 ++ leBytes 2 1 ++ leBytes 2 1 ++ [3#8, 3#8, 1#8, 5#8] ++ leBytes 4 0 ++ leBytes 4 0x80200 ++ leBytes 4 0
    ++ op 0 ++ op 0x1000 ++ op 0x2000 ++ lv 64 ++ List.replicate 32 0#8 ++ lv 0 ++ List.replicate 64 0#8
/-- A TILED transfer of operand `k` that names the descriptor at 0 of scratch. -/
def tTiled (op : Nat) (k : Nat) : TileCmd := tTile op (if op = 0x22 then .fill else .wout) 0 [] [] [1, k]
def tTiledSt (c : TileCmd) (f : Tile → Tile := id) : State :=
  { tUnit c (fun x => f { x with groupSize := 1, smem := putBytes 0 [] 0 tTd }) with tier := tFixed.tier }
def tBound (r : Bound) : Option State := match r with | .ok s => some s | _ => none
theorem wit_tiling :
    let c := tTiled 0x22 0
    let pos := fun x : Tile => { x with binding := some { off := 0, desc := tTd, pos := some 0 } }
    tTd.length = 336 ∧ tilingOk tTd 1 = true ∧ overflowOf tTd = none ∧ tiledOk c.xfer = true ∧ nextCmd (tTiledSt c) 0 0x22 = some c
      ∧ (∀ k ∈ [0, 1, 2, 3, 0x0F], fieldAt (tTiled 0x22 k).xfer 1 1 = k) ∧ 3 < fieldAt (tTiled 0x22 4).xfer 1 1 ∧ fieldAt c.xfer 0 1 = 1
      ∧ (tBound (useBinding (tTiledSt c) 0 1 0 false)).isSome = true
      ∧ ((tBound (useBinding (tTiledSt c) 0 1 0 false)).bind fun s => (tileAt s 0).binding.map (·.pos)) = some none
      ∧ (tBound (useBinding (tTiledSt c pos) 0 1 0 false)).isSome = true ∧ (walkOf tTd 0).length = 1
      ∧ ((tileAt (tTiledSt c pos) 0).binding.map (·.pos)) = some (some 0)
      ∧ (match useBinding (tTiledSt c fun x => { x with smem := [] }) 0 1 0 false with | .fault 9 _ => true | _ => false) = true
      ∧ (match useBinding (tTiledSt c) 0 1 0 true with | .fault 0x0E _ => true | _ => false) = true
      ∧ tdScaled tTd 0 = false ∧ fieldAt (tTiled 0x24 4).xfer 1 1 = 4 ∧ fieldAt (tTiled 0x24 4).xfer 4 4 = 0 ∧ fieldAt (tTiled 0x24 4).xfer 0x28 4 = 0
      ∧ tiledOk (tPad 48 [1, 0, 1]) = false ∧ fieldAt (tTiled 0x24 3).xfer 1 1 ≠ 4 := by decide
/-- A binding that must wait for a write-out of the old walk. -/
theorem wit_tilingWaits :
    let c := { tTiled 0x22 0 with num := 2 }
    let s := tTiledSt c fun x => { x with queue := [tTiled 0x24 4, c] }
    (match useBinding s 0 2 0 false with | .stop .wait _ => true | _ => false) = true := by decide
/-- Multicast sets: a rectangle of rows 0 to 6 and columns 0 to 11 of die 0, one that names row 7, a kind that is reserved; a fill for
its members and for one outside the partition. -/
theorem wit_multicast :
    let r := 2 ^ 62 + 1
    let c := { tFill 0 with xfer := (tFill 0).xfer.take 0x20 ++ leBytes 8 r ++ tPad 8 [] }
    mcastIds r [] = some (some [0]) ∧ (mcastIds (2 ^ 62 + 1 + 6 * 2048 + 11 * 2 ^ 18) []).isSome = true ∧ mcastIds (2 ^ 62 + 7 * 256) [] = none
      ∧ mcastIds (3 * 2 ^ 62) [] = none ∧ mcastIds 0 [] = some none ∧ nextCmd (tFillSt c) 0 0x22 = some c ∧ directOk c.xfer = true
      ∧ (∀ u ∈ [0], u ∈ partTiles (tFillSt c) 0) ∧ 2 ∉ partTiles (tFillSt c) 0 ∧ 0 ∈ [0].map (liveTile (tFillSt c))
      ∧ ((Tbl.get [] { tFillSt c with holds := [(0, [⟨(c.xfer.drop 8).take 0x20, tPad 8 [], [0]⟩])] }.holds (tileDie 0)).find?
          (fun h => h.key == (c.xfer.drop 8).take 0x20 && h.left.contains (toTile 0))).isSome = true
      ∧ holdUsed (tFillSt c) 0 + 8 ≤ 1048576 ∧ (readRows (tHeldTier (tFillSt c)) 0 0 (dirAddrs c.xfer) 8).1 = .wait
      ∧ (readRows (tLostTier (tFillSt c)) 0 0 (dirAddrs c.xfer) 8).1 = .fail stTierFail := by decide
/-- A level that stages A in, one that stages C out, and one that stages neither. -/
theorem wit_levels :
    let b := fun k => ({ off := 0, desc := tPad 336 (List.replicate 0x13 0 ++ [3] ++ List.replicate (0xD0 + 0x12 - 0x14) 0 ++ [k]) } : Binding)
    lvlStage (b 4).desc 1 2 = true ∧ lvlStage (b 1).desc 1 0 = true ∧ lvlStage (b 1).desc 1 1 = false ∧ (newtOf (tGroup 0) 0).binding = none := by decide
/-- A tile whose copy to a spare goes on, with a program and without one; a replay that may begin, one behind a copy, one used up. -/
theorem wit_replayCases :
    let s := fun (f : Strata → Strata) => { tGroup 0 id (fun r => { r with replayDue := true }) with strata := f {} }
    let c := fun st : Strata => { st with copying := [(0, 104)] }
    (resolveCopy (s c) 0 104).1 ≠ .wait ∧ (∃ x ∈ liveMembers (s c) tRun.members, ∃ y ∈ (s c).strata.copying, y.1 = x)
      ∧ (s id).strata.copying = [] ∧ (settleStop (s id) 0).strata.copying = [] ∧ mayReplay (s id) 0 = true
      ∧ (tileAt { tOn with tiles := [(0, { image := some ⟨tImg⟩, part := some 0 })] } 0).image = some ⟨tImg⟩
      ∧ freeSpares tOn 0 ≠ [] ∧ nameOf tOn 0 ∉ tOn.fuses.spares ∧ (tileAt tOn 0).queue = [] := by decide
/-- The source of a CLEAN line that a copy must resolve is being redirected. -/
theorem wit_copyWaits :
    let s := { tHeldTier tFixed with strata := { regions := [(0, some ⟨0, 4096, 1, 0, 0, 0, 0⟩)], badParity := [(strataAddr 0 0, true)], copying := [(0, 104)] } }
    (resolveCopy s 0 104).1 = .wait ∧ s.strata.copying.find? (fun c => c.1 == (0 : TileId).toNat) = some (0, 104) := by decide
/-- Events: no receiver of the epoch, one held too many, an earlier step; an acknowledgement of an earlier program; a message. -/
theorem wit_eventCases :
    let s := tGroup 0 fun x => { x with step := 1 }
    let m := tMsg ⟨true, 0, 0x23, 0, 0, 0, 0, 7, 0, []⟩
    let g := tGroup 0 fun x => { x with step := 1, heldEvents := List.replicate 16 (tEv 2) }
    16 ≤ (tileAt g 0).heldEvents.length ∧ (tEv 0).step.toNat ≤ (tileAt s 0).step.toNat ∧ ¬ (inStep (tileAt s 0).st = true ∧ (tileAt s 0).step = (tEv 0).step)
      ∧ tOn.flying.contains (tEv 1) = false ∧ (tileAt s 1).part = some (tEv 1).part ∧ (tileAt s 1).epoch = (tEv 1).epoch
      ∧ (tileAt s 1).st ≠ .waiting ∧ (tileAt s 1).epoch ≠ (tEv 1 1).epoch ∧ (applyEvent s (tEv 1 1)).1 = some stRoleChanged ∧ (applyEvent s (tEv 1)).1 = none
      ∧ msgRefused (takeMsg (tInbox m tPart) m) m 0x23 false = none ∧ msgRefused tPart [] 0x23 false = some stCheckFail
      ∧ (applyEvent tPart (eventOf m 0 0 1)).1 = none := by decide
/-- A routine whose group stands together, one of whose members has not come, whose members disagree, and whose scratch fails. -/
theorem wit_scratchCall : ∀ e ∈ [(4, 112), (5, 112), (6, 112), (7, 80), (8, 80), (11, 64)],
    let s := tLib e.1 []
    (scratchCall s 0 e.1 none (descArg e.2)).1 = some [0, 1] ∧ (libDesc s 0 e.2).isSome = true
      ∧ libDesc { s with tiles := [(0, { pc := e.1, g := [(4, 4)] })] } 0 e.2 = none
      ∧ libDesc { s with tiles := [(0, { pc := e.1, g := [(4, 0x8000)] })] } 0 e.2 = none
      ∧ (scratchCall { s with tiles := s.tiles.take 1 } 0 e.1 none (descArg e.2)).1 = none
      ∧ libParity s 0 e.1 (some 1) = some 1 ∧ libParity s 0 e.1 none = none
      ∧ (runMembers s 0).filter (fun t => atWord s t 3) = [] ∧ (scratchCall s 0 e.1 (some 1) (descArg e.2)).1 = none := by decide
theorem wit_scratchDisagree :
    let s := tLib 4 []
    let d := { s with tiles := [(0, { st := .running, pc := 4, part := some 0, groupSize := 2 }),
      (1, { st := .running, pc := 4, part := some 0, index := 1, groupSize := 2, g := [(4, 8)] })] }
    (∃ u ∈ (runMembers d 0).filter (fun t => atWord d t 4), descArg 112 d u ≠ descArg 112 d 0) ∧ (scratchCall d 0 4 none (descArg 112)).1 = none := by
  decide
/-- A batch that must wait, one that cannot be read, one whose entry breaks a rule. -/
theorem wit_batchCases :
    let s := { tLib 4 (tAttn 1) with mem := tSeqMem }
    (loadBatch (tHeldTier s) 0 1 (tPad 112 (tAttn 1))).1 = .wait ∧ (loadBatch (tLostTier s) 0 1 (tPad 112 (tAttn 1))).1 = .fail stTierFail
      ∧ (loadBatch { s with mem := [] } 0 1 (tPad 112 (tAttn 1))).1 = .ok ∧ (loadBatch { s with mem := [] } 0 1 (tPad 112 (tAttn 1))).2.1 = none
      ∧ attnDescOk 1 (tPad 112 []) = false := by decide
/-- APPEND: an open page that is not VALID; a page that takes a new frame of a list without frames, and the reads before it. -/
theorem wit_append :
    let s := { tLib 5 (tAttn 2) with mem := tSeqMem }
    let es := (loadBatch s 0 2 (tPad 112 (tAttn 2))).2.1.getD []
    let open_ := es.map fun e => { e with seq := { e.seq with len := 1 } }
    es.length = 1 ∧ (∃ e ∈ open_, ∃ n ∈ appendPages e, openPage e n = true ∧ bitOf (pte { s with mem := [] } e.seq n) 0 = false)
      ∧ ¬ (∃ e ∈ es, ∃ n ∈ appendPages e, openPage e n = true ∧ bitOf (pte s e.seq n) 0 = false)
      ∧ (gatherFrames s 0 es).1 = .ok ∧ (gatherFrames s 0 es).2.1.isNone = true
      ∧ (readAll s 0 [(0, 8), (0x80, 128)]).1 = .ok ∧ (readAll (tHeldTier s) 0 [(0, 8)]).1 = .wait := by decide
/-- CONV on the tadpole engine of one point in BF16; formats that the engine refuses; a conversion block outside scratch. -/
theorem wit_tadpole :
    let s := tLib 7 []
    let c := ((tConv 1).set 0x40 1).set 0x41 1
    let w := tPad 32 [1]
    (libWcb s 0 0).isSome = true ∧ libWcb s 0 0x7FF0 = none ∧ libWcb s 0 4 = none ∧ partDies s 0 = [0] ∧ fieldAt c 1 1 = 1 ∧ fieldAt (tConv 0) 1 1 = 0
      ∧ tadpoleOk c w = true ∧ tadpoleOk (tConv 1) w = false ∧ cvOk c = true ∧ (readAll s 0 (tadpoleReads c)).1 = .ok
      ∧ (writeRuns s (.step 0) (partPrio s 0) (tadpoleStore s c w)).1 = .ok ∧ (readAll (tHeldTier s) 0 (tadpoleReads c)).1 = .wait := by decide
theorem wit_detCases :
    (accAll (List.range 0) (tLib 8 []) (fun s i => detOne 0 tDet i s)).1 = .ok ∧ (accAll (List.range 1) (tLib 8 []) (fun s i => detOne 0 tDet i s)).1 = .ok
      ∧ (accAll (List.range 1) (tHeldTier (tLib 8 [])) (fun s i => detOne 0 tDet i s)).1 = .wait := by decide
/-- Declarations and releases that name a partition at work, one descriptor too many, a region of another partition. -/
theorem wit_strataCases :
    let c := tCmd 0x11 [] (tPad 32 [])
    let g := { tWith c (tGroup 0) with strata := { regions := [(63, some ⟨0, 4096, 2, 0, 0, 0, 0⟩)] } }
    allAtRest g c = false ∧ cmdFor g 1 0x11 = some c ∧ allAtRest (tWith c tDeclared) c = true ∧ (tPad 33 []).length % 32 ≠ 0
      ∧ 64 < (List.replicate 65 (0 : Nat)).length ∧ (accAll [regionOfBytes (tPad 32 [0, 0, 0, 0, 0, 0x10, 0, 0, 1])] (tHeldTier tFixed) loadRegion).1 = .wait
      ∧ { c with fn := 1, part := 1 }.may 0 = false := by decide
/-- A failing byte of a CLEAN region, whose line is already fetched and not; of a RECOMPUTE region; of a line that no reader waits for;
the refetch of a line whose source is redirected, lost, gone. -/
theorem wit_refetch :
    let s := fun (src : Nat) (f : List (Nat × FoundBy)) => { tFixed with strata := { regions := [(0, some ⟨0, 4096, 1, 0, 0, 0, src⟩)], refetching := f } }
    ((regionOf (s 0 []) 0 4095).map (·.cls)) = some 1 ∧ regionOf (s 0 []) 0 4096 = none ∧ ((regionOf tDeclared 0 0).map (·.cls)) = some 2
      ∧ (∃ e ∈ (s 0 [(strataAddr 0 0, .host)]).strata.refetching, e.1 / 256 = strataAddr 0 255 / 256)
      ∧ ¬ (∃ e ∈ (s 0 [(strataAddr 0 0, .host)]).strata.refetching, e.1 / 256 = strataAddr 0 256 / 256)
      ∧ (tierFetch (s 0 []) 0 0 2048).1 = .ok ∧ (tierFetch (tHeldTier (s 0 [])) 0 0 2048).1 = .wait ∧ (tierFetch (tLostTier (s 0 [])) 0 0 2048).1 = .fail stTierFail
      ∧ (badIn { tOn with strata := { badParity := [(strataAddr (scrubTarget 7 0).1 (scrubTarget 7 0).2, true)] } } (scrubTarget 7 0).1 (scrubTarget 7 0).2 256) ≠ [] := by
  decide
/-- Regions in use, of a live backing, and free; an aperture whose backing waits; a flush that waits and one that fails. -/
theorem wit_tierCases :
    let r : TierRegion := ⟨false, 0, 0, 0, false, 0, 0x100000, 0⟩
    let b : TierRegion := ⟨true, 0, 0, 0, false, 0xF00000000, 0x10000, 0x100000000000⟩
    let held := { tBacked .dirty with tier := { (tBacked .dirty).tier with redirecting := [(true, 0)] } }
    let lost := { tBacked .absent with tier := { (tBacked .absent).tier with lost := [(0x100000000000, true)] } }
    zeroAt (tCmd 0x21 [0, 0, 0, 0, 0, 0, 0, 0, 1]).inl 8 16 = false ∧ backedBy (tBacked .clean) ⟨false, 0, 0, 0, false, 0x100000000000, 0x10000, 0⟩ ≠ none
      ∧ heldRegion tFixed r = false ∧ r.size = 0x100000 ∧ (flushRange (tBacked .dirty) b b.base b.length).1 = .ok ∧ (flushRange held b b.base b.length).1 = .wait
      ∧ atRest (tGroup 0) (tCmd 0x21) 0 = false ∧ tierRegionAt tOn 0 = none ∧ (tierRegionAt tFixed 0).map (·.backed) = some false
      ∧ r.base + r.length < 0 + 0x100001 ∧ (fillUnit held b b.base).1 ≠ .ok ∧ (writeBackUnit held 3 b b.base).1 = .wait
      ∧ (fillUnit lost b b.base).1 = .fail stTierFail ∧ losslessBacking (tBacked .clean) b = true
      ∧ (backingOf (tBacked .clean) b).isSome = true ∧ ((backingOf (tBacked .clean) b).map (·.codec)) = some 0
      ∧ reclaims (tReclaim .clean) 0 = true ∧ (evictFrame { held with tier := { held.tier with redirecting := [(true, 0)] } } 0).1 = .wait
      ∧ (tileAt (tBacked .absent) (liveTile (tBacked .absent) 0)).part = none ∧ (tileAt (tGroup 0) (liveTile (tGroup 0) 0)).part = some 0 := by decide
/-- Streams: none there, one of a layer out of range, a slot held, a layer present and one not, a fetch that waits and that fails. -/
theorem wit_streamCases :
    let w : WStream := { desc := tStream, present := [1] }
    let s := tStreamSt 0 0 fun w => { w with fetching := [1] }
    streamAt (tStreamSt 9 1) 0 6 = none ∧ stLayers w.desc ≤ 2 ∧ 1 < stLayers w.desc ∧ 1 ∈ w.present ∧ 0 ∉ w.present ∧ slotHeld w 0 = false
      ∧ (fetchLayer (tHeldTier s) 0 tStream 0).1 = .wait ∧ (fetchLayer (tLostTier s) 0 tStream 0).1 = .fail stTierFail ∧ 1 ∉ w.fetching
      ∧ streamAwaited s 0 7 1 = false ∧ (groupCall { tStreamSt 9 1 with tiles := (tStreamSt 9 1).tiles.take 1 } 0 9 streamArg).1 = none
      ∧ (groupCall { tStreamSt 10 1 with tiles := (tStreamSt 10 1).tiles.take 1 } 0 10 streamArg).1 = none
      ∧ streamAwaited { tStreamSt 9 1 with tiles := (tStreamSt 9 1).tiles.map fun e => (e.1, { e.2 with st := .waiting, wait := .tier }) } 0 7 1 = true := by
  decide
/-- An entry that has been idle for CTRL.WC_AGE and one that has not; requests of every kind that fail; a scrub of each result. -/
theorem wit_tierTimes :
    let s := fun n => { tOn with now := n, tier := { wc := [(0, some { written := 5, bytes := [(0, 1)] })] } }
    let age := regFld tOn (tierCtrl 0) 4 4 * 1000
    5 + age ≤ (s (5 + age)).now ∧ (s (4 + age)).now < 5 + age + 1 ∧ ofCtl (tierCtlNo (.t1 1)) 0 = false ∧ (tileAt tOn 0).part = none
      ∧ cmdAt (tWith tStart) 1 = some tStart ∧ (∀ r, (partAt (tWith tStart) (cmdPart (tWith tStart) tStart)).run = some r → r.cid ≠ 1)
      ∧ ({ bytes := [(0, 1)] } : WcEntry).bytes.length ≠ (tierUnit 0).2 ∧ unitHeld (s 0) 0 = false ∧ unitFailed (s 0) 0 = false
      ∧ regBit (regPut tOn (tierCtrl 0) 0 1 0) (tierCtrl 0) 0 = false ∧ (1 : Nat) ≠ (tierUnit 1).1 := by decide
/-- Writes of the logs: VALID alone, and while hardware sets it; a codec operation that must wait, and one that another row does. -/
theorem wit_logCases :
    (1 : W64).toNat % 2 = 1 ∧ (1 : W64).toNat / 2 % 2 = 0 ∧ validTile (0x36C : TileId).toNat = false ∧ (0x40000000 : W32).getLsbD 30 = true
      ∧ (bcEncGo 0 (tHeldTier (tCodecSt (tCodec 1 1 64))) (tPad 64 (tCodec 1 1 64)) [0]).1 = .wait ∧ cdOp (tPad 64 (tCodec 2 1)) ≠ 1
      ∧ (readMem (tCodecSt []) (.step 0) 0 128).1 = .ok ∧ (writeMem (tCodecSt []) (.step 0) 0 [1]).1 = .ok := by decide
/-- The first flit of a long message for this module; flits that do not fit; a link whose timers are not due. -/
theorem wit_flitCases :
    let m := tM 0x22 (tPad 300 [])
    let f := flitBytes 16 0 0 0xFFF 0 0 244 (m.take 244)
    let s := tLinks [(35, tUp)]
    bitOf (fieldAt f 0 1) 4 = true ∧ bitOf (fieldAt f 0 1) 5 = false ∧ 32 ≤ fieldAt f 7 1 ∧ f.length = 256 ∧ (linkAt s 35).unackedRx < 31
      ∧ Tbl.get .idle (linkAt s 35).asm (16 * bitsOf (fieldAt f 0 1) 0 2 + fieldAt f 1 1 % 16) = .idle
      ∧ routeOf (modLink s 35 fun k => { k with expect := (k.expect + 1) % 4096, rejecting := false, unackedRx := k.unackedRx + 1 })
          (hopMore ((f.drop 8).take (fieldAt f 7 1))) (some (linkAxis 35, classAfter s 35 (bitsOf (fieldAt f 0 1) 6 2))) = .deliver
      ∧ tUp.unackedRx = 0 ∧ tUp.replay = [] ∧ flitKind (tFlit 1 0 [0]) ≠ 0 ∧ takesCtl { tUp with st := .disabled } = false
      ∧ isCtl (tFlit 1 0 [1]) 0 = false := by decide +kernel
/-- Links that identify behind a standing peer, modules that lock, follow and take over, joins at their last retry. -/
theorem wit_joinCases :
    let st := fun st => tLinks [(0, { st := st, trained := true })]
    let g := fun (f : Fabric → Fabric) => { tLinks [(0, tUp)] with fab := f { links := [(0, tUp)], ext := (2, 1, 1), parent := some 0 } }
    let j := fun (j : JoinSt) => ({ tLinks [] with fab := { links := [(0, { st := .standby })], ext := (2, 1, 1), joins := [(0, j)] } } : State)
    (linkAt (st .active) 0).st ≠ .training ∧ takesCtl (linkAt (st .disabled) 0) = false ∧ (linkAt (st .training) 0).st ≠ .active
      ∧ (takeLinkFields (g fun x => { x with gm := true }) 0 (tFlit 1 0 [2])).fab.gm = true
      ∧ (takeLinkFields (g fun x => { x with locked := true }) 0 (tFlit 1 0 [2])).fab.locked = true
      ∧ (takeLinkFields (g fun x => { x with parent := some 1 }) 0 (tFlit 1 0 [2])).fab.parent.map Fin.val ≠ some (linkDir 0)
      ∧ (g id).fab.parent = some 0 ∧ dirUsable (g id) 0 = true ∧ dirUsable tOn 0 = false ∧ regBit (regPut tOn ⟨.timeCtrl, 0, 0⟩ 0 1 0) ⟨.timeCtrl, 0, 0⟩ 0 = false
      ∧ (linkAt (st .active) 0).st ≠ .standby ∧ isCtl (tFlit 1 0 [2]) 3 = false ∧ (joinAt (j {}) 0).step ≠ .sent ∧ (joinAt (j {}) 0).step ≠ .retryWait
      ∧ 3 ≤ (joinAt (j { step := .sent, retries := 2 }) 0).retries + 1 ∧ (1 : W32).getLsbD 1 = false ∧ (2 : W32).getLsbD 0 = false
      ∧ { tOn with clspHold := true }.clspHold = true ∧ (0 : BitVec 18) = tOn.fab.clasps ∧ State.reset.pwr.powered = false
      ∧ relaysAll (tLinks []) = false ∧ relaysAll tOn = true := by decide
/-- A link in each state that a command acts on, and in one that it leaves. -/
theorem wit_linkCases :
    (∀ st ∈ [LinkState.active, .degraded, .retrain, .training, .failed, .standby, .disabled], (linkAt (tLinks [(35, { st := st })]) 35).st = st)
      ∧ usable tUp = true ∧ usable { tUp with st := .standby } = false ∧ (0 : BitVec 4) ≠ 15#4
      ∧ regBit (regPut tOn ⟨.lnkCtrl, 35, 0⟩ 2 1 0) ⟨.lnkCtrl, 35, 0⟩ 2 = false ∧ (1 : W32).getLsbD 0 = true ∧ (0 : W32).getLsbD 0 = false ∧ (2 : W32).getLsbD 1 = true
      ∧ oldestTries tUp < regFld tOn ⟨.lnkCtrl, 35, 0⟩ 8 4 := by decide
/-- Messages whose length does not fit, of a MAP that is not later, of a store that is not there, full, or not being written; accesses
that must wait, that fail, and outside what the sender may reach. -/
theorem wit_messageCases :
    let r := tM 0x20 (leBytes 8 0) 0 8
    let w := tM 0x22 (tPad 12 [])
    let m := tM 0x31 (tPad 64 [0, 0, 0, 0, 5]) 0 256
    let c := tM 0x31 (tPad 48 [0, 0, 0, 0, 0, 0, 0, 0, 0, 0, 5]) 0 0
    let far := tM 0x31 (tPad 48 [0, 0, 0, 0, 0xFF, 0xFF, 0, 0, 0, 0, 5]) 0 0
    (msgPayload (tM 0 (tPad 63 []))).length < 64 ∧ fieldAt (msgPayload (tM 0 (tPad 64 [6]))) 0 2 = 6 ∧ fieldAt (msgPayload (tM 0 (tPad 64 [0x32]))) 0 2 = 0x32
      ∧ msgSound (tM 1 []) = true ∧ msgSound [] = false ∧ msgMine { tGot [] with fab := { map := [(0, some (some 5))] } } (tMsg ⟨false, 0, 1, 0, 3, 0, 0, 9, 0, []⟩) = false
      ∧ (msgPayload (tM 2 (tPad 3 []))).length < 4 ∧ (msgPayload (tM 0x20 (tPad 7 []))).length ≠ 8 ∧ msgAux (tM 0x20 [] 0 65537) = 65537
      ∧ (readMem (tHeldTier (tGot r)) (msgWho r) 0 8).1 = .wait ∧ (readMem (tLostTier (tGot r)) (msgWho r) 0 8).1 = .fail stTierFail
      ∧ (readMem (tGot r) (msgWho r) (2 ^ 48) 8).1 = .bounds ∧ (msgPayload (tM 0x22 (tPad 7 []))).length < 8
      ∧ (writeMem (tHeldTier (tGot w)) (msgWho w) 0 [1] (msgPrio w)).1 = .wait ∧ (writeMem (tGot w) (msgWho w) (2 ^ 48) [1] (msgPrio w)).1 = .bounds
      ∧ findStore (tGot m) 5 0 = none ∧ ({ tStore none with part := 1 }.part).val ≠ msgPart m ∧ (tStore none).writing = none
      ∧ storeSlotLen (tStore (some 1)) < chunkAt (fieldAt (msgPayload far) 4 4) + (msgPayload far).length
      ∧ storeSlotLen { tStore none with length := 0 } < (msgPayload m).length
      ∧ (writeMem (tHeldTier (tStored c (some 1))) .device 0 [1] 3).1 = .wait := by decide
theorem wit_longChunk (b : Byte) : 48 + 32768 < (List.replicate 32817 b).length := by
  rw [List.length_replicate]; decide
/-- A COLL descriptor outside scratch, on a failed stream, behind its stream, twice, with 64 collectives waiting; a group that has not
gathered; an order stall's record. -/
theorem wit_collCases :
    let s := tStream63 { st := .opened } (tLib 12 tBarrier)
    (scratchCall s 0 12 none (descArg 64)).1 = some [0, 1] ∧ (scratchCall { s with tiles := s.tiles.take 1 } 0 12 none (descArg 64)).1 = none
      ∧ libDesc { s with tiles := [(0, { pc := 12, g := [(4, 4)] })] } 0 64 = none ∧ atRest (tGroup 0) (tCmd 0x31 [63]) 0 = false
      ∧ ownChip { tOn with fab := { map := [(0, some (some 5))] } } = none := by decide
theorem wit_collBad :
    let op := tOp tBarrier
    seqAhead 1 0 = true ∧ seqAhead 0 1 = false ∧ (∃ o ∈ [op], o.seq = 0) ∧ (∃ r, some tCollRun = some r ∧ r.op.seq = 0)
      ∧ isMember tOn (tPad 64 ([6, 0, 0, 0, 63, 15] ++ List.replicate 29 0 ++ [0, 1, 1])) 0 = false
      ∧ collApart tOn (tPad 64 [1]) 0 = true ∧ 64 ≤ (List.replicate 64 op).length ∧ (List.replicate 63 op).length < 64
      ∧ (scratchCall (tWaits 63 5 {}) 0 13 none (fun s t => [gNum s t 4, gNum s t 5])).1 = some [0, 1]
      ∧ (groupCall { tWaits 63 5 {} with tiles := (tWaits 63 5 {}).tiles.take 1 } 0 13 (fun s t => [gNum s t 4, gNum s t 5])).1 = none
      ∧ (collAt (tWaits 63 5 { ended := [(5, stOrderStall, 9)] }) 0 63).ended.find? (fun e => e.1 == 5) = some (5, stOrderStall, 9) := by
  refine ⟨by decide, by decide, ⟨tOp tBarrier, List.mem_singleton.2 rfl, rfl⟩, ⟨tCollRun, rfl, rfl⟩, by decide, by decide, by simp, by simp, by decide, by decide, by decide⟩
/-- A collective whose turn it is and that has been aborted, whose source must be waited for, lies outside; chunks held ahead. -/
theorem wit_collRunCases :
    let s := fun x => tStream63 x tFixed
    let x : CollStream := { st := .opened, pending := [tOp (tReduce 0)] }
    let k := fun q : W32 => ({ seq := q, pass := 0, chunk := 0, src := 1, digest := 0, size := 0, die := 0 } : Chunk)
    ({ x with aborts := [(0, stAborted, true)] } : CollStream).aborts.find? (fun a => a.1 == (tOp (tReduce 0)).seq) = some (0, stAborted, true)
      ∧ (readMem (tHeldTier (s x)) (.step 0) 0 4).1 = .wait ∧ (readMem (s x) (.step 0) (2 ^ 48) 4).1 = .bounds
      ∧ (collAt (s { x with run := some tCollRun }) 0 63).run ≠ none ∧ (collAt (s {}) 0 63).pending.find? (fun o => o.seq == 0) = none
      ∧ (match collGo (startColl (tHeldTier (s x)) 0 63 0 (tOp (tReduce 0)) (tPad 4 [])) 0 63 with | .error _ => true | .ok _ => false) = true
      ∧ [k 3, k 2] ≠ [] ∧ (∀ y ∈ [k 3, k 2], ((k 2).seq - 0).toNat ≤ (y.seq - 0).toNat) := by decide
/-- A REQ behind its stream, one of a collective of its digest and of another; a chunk asked for, granted, sent again. -/
theorem wit_chunkCases :
    let t := fun ty x => takeMsg (tCollSt ty x) (tCollMsg ty)
    let x : CollStream := { st := .opened, nextSeq := 1 }
    ((collAt (t 1 x) 0 63).st ≠ .closed ∧ hSeq (tCollMsg 1) ≠ (collAt (t 1 x) 0 63).nextSeq ∧ seqAhead (hSeq (tCollMsg 1)) (collAt (t 1 x) 0 63).nextSeq = false)
      ∧ ((([] : List CollOp) ++ [tOp tBarrier]).find? (fun o => o.seq == hSeq (tCollMsg 1))).isSome = true
      ∧ { tOp tBarrier with digest := hDigest (tCollMsg 1) }.digest = hDigest (tCollMsg 1) ∧ { tOp tBarrier with digest := 1 }.digest ≠ hDigest (tCollMsg 1)
      ∧ (∀ c ∈ tCollRun.sent, c.asked = true ∧ c.granted = false ∧ c.again = false)
      ∧ msgRefused tPart [] 0x10 true = some stCheckFail ∧ (tM 0x10 []).length < 64 ∧ hType (tCollMsg 2) ≠ 1 := by decide
/-- A DATA fragment that is not the last, and the last of a sound chunk, of one that fails its check once and twice. -/
def tCollFrag (frag : Nat) : Bytes :=
  tMsg ⟨true, 0, 0x10, 0, 3, 0, 0, 7, 0, collHeader 0 63 3 0 frag 0 0 0 0⟩ { tOn with fab := { ext := (2, 1, 1), phys := 1 } }
def tChunk (g : W32) (n : Nat) : Chunk := { seq := 0, pass := 0, chunk := 0, src := 1, digest := g, size := 0, die := 0, fails := n }
theorem wit_collData : ∀ frag ∈ [0, 128],
    let m := tCollFrag frag
    let r := { tCollRun with recv := [tChunk 0 0] }
    let t := takeMsg (tStream63 { st := .running, run := some r } (tInbox m tPart)) m
    let h := takeMsg (tStream63 { st := .opened, held := [tChunk 0 0] } (tInbox m tPart)) m
    let here := fun k : Chunk => k.seq == hSeq m && k.src.toNat == msgSrc m && k.pass == hPass m && k.chunk == hChunk m && !k.complete
    msgRefused t m 0x10 true = none ∧ 64 ≤ m.length ∧ hType m = 3 ∧ bitOf (hFrag m) 7 = (frag == 128) ∧ (collAt t 0 63).run = some r ∧ r.op.seq = hSeq m
      ∧ (r.recv ++ (collAt t 0 63).held).find? here = some (tChunk 0 0) ∧ (collAt h 0 63).run = none ∧ (collAt h 0 63).held.find? here = some (tChunk 0 0)
      ∧ [tChunk 1 0].find? here = some (tChunk 1 0) ∧ [tChunk 1 1].find? here = some (tChunk 1 1)
      ∧ crc32c (placeFrag (tChunk 0 0) m).data = hCrc m ∧ hDigest m = (placeFrag (tChunk 0 0) m).digest
      ∧ hDigest m ≠ (placeFrag (tChunk 1 0) m).digest ∧ (placeFrag (tChunk 1 0) m).fails = 0 ∧ (placeFrag (tChunk 1 1) m).fails ≠ 0
      ∧ (collGo (answerColl (modCollRun t 0 63 fun r => { r with recv := [{ tChunk 0 0 with complete := true }], lastMove := t.now }) 0 63 4 1 0 0 0 0) 0 63).isOk
          = true := by decide
/-- A take whose engines are full, whose chunk must wait or cannot be read, and a key slot of another partition. -/
theorem wit_drainCases :
    let s := tDrain 0
    let full := { s with sec := { s.sec with ops := List.replicate 32 (0, 5, 1) } }
    drainEngine s 0 = some 0 ∧ drainEngine full 0 = none ∧ takeOf tCk 0 = none ∧ (drainRead (tHeldTier s) tTake0 0 2048 false).1 = .wait
      ∧ (drainRead (tLostTier s) tTake0 0 2048 false).1 = .fail stTierFail ∧ (slotAt s 5).current = some ⟨List.replicate 32 0, 1, 0⟩
      ∧ findStore tCk 0 0 = none ∧ ownChip (tDrain 2) = some tTake0.buddy ∧ (∃ x, findStore (tDrain 2) tTake0.srcChip 0 = some x ∧ x.writing.isSome = true)
      ∧ (writeMem (tHeldTier { s with tier := { s.tier with redirecting := [(true, 0)] } }) .device 0 [2] 3).1 ≠ .ok := by
  refine ⟨by decide, by decide, by decide, by decide, by decide, by decide, by decide, by decide, ⟨_, rfl, rfl⟩, by decide⟩
/-- Takes that cannot begin: no buddy's store, one of another partition, one too small, a pool too small, a collective that waits, a
key slot that is empty. -/
theorem wit_snapshotCases :
    let sh : Shard := ⟨tShardB.take 32, [tShardB.drop 32]⟩
    let s := tSnap
    let small : Shard := ⟨tShardB.take 0x10 ++ tPad 16 [], [tShardB.drop 32]⟩
    buddyInfo { s with ckpt := { s.ckpt with stores := [] } } 0 0 0 none = none ∧ (keyUse tPart 5 0).isOk = false ∧ shardOf tCk 0 = none
      ∧ fieldAt small.header 0x10 8 < sumN ((small.extents.filter fun e => !(isT1 (extAddr e) || isT2 (extAddr e))).map extLen) + 4096
      ∧ pendingColl { s with coll := { streams := [(63, { st := .opened, pending := [tOp tBarrier] })] } } 0 = true
      ∧ (1 : PartId).val ≠ fieldAt sh.header 3 1 ∧ 0 < slotSpan (chunkList ((manifestTable sh).map extLen)).length
      ∧ zeroAt (tCmd 0x42 [0, 1]).inl 1 7 = false ∧ 16 ≤ (tCmd 0x42 [16]).byte 0
      ∧ (snapshotBody { s with tier := { s.tier with redirecting := (List.range 16).map fun i => (true, i) } } 0 tTake0 sh 0x10000).1 = .wait
      ∧ (snapshotBody { s with tier := { s.tier with chState := (List.range 16).map fun i => (i, 2) } } 0 tTake0 sh 0x10000).1 = .fail stTierFail
      ∧ (sendCkpt { tDrain 0 with fab := { map := [(0, some none)] } } 0 tTake0 false []).1.isSome = true := by decide
/-- Restores that a check stops: a chunk that is not there, a map behind the module's own and one ahead of it. -/
theorem wit_restoreCases :
    let g := fun n => tPad 32 ([1, 0, 1, 0, 0, 0, 5, 0, 0, 0, 0, 0, 0, 0, 0, 0] ++ [n])
    let s := { tCk2 with fab := { ext := (2, 1, 1), mapGen := 4 } }
    mapStands s (fieldAt (g 3) 0 2) (BitVec.ofNat 32 (fieldAt (g 3) 0x10 4)) = false ∧ (BitVec.ofNat 32 (fieldAt (g 3) 0x10 4)).toNat ≤ s.fab.mapGen.toNat
      ∧ (partAt (tGroup 0) 0).run ≠ none ∧ (restoreWork [⟨tSlot, 0, 0, 2048, 0x10000, false⟩]).length = 1 ∧ restoreWork [] = []
      ∧ atRest (tGroup 0) (tCmd 0x43 [] (tRestore 1)) 0 = false ∧ inPartRegion tOn 0 0 2048 = false := by decide
/-- Closing pipelines that owe a locket and that do not, with a command and without; a feed of one entry too many. -/
theorem wit_ingestCases :
    let x := fun cid due => tPiped (tOpened fun x => { x with st := .closing, closeCid := cid, locketDue := due })
    let b := tPipe 31 0 2 0xFF
    (pipeAt (x none []) 31).closeCid = none ∧ (pipeAt (x (some 1) []) 31).closeCid = some 1 ∧ (pipeAt (x none [⟨0, 0, 0, 0, []⟩]) 31).locketDue ≠ []
      ∧ (pipeAt (x none []) 31).st = .closing ∧ (pipeAt tIng 31).st ≠ .closing ∧ pdLocketWr b = true ∧ atRest (tGroup 0) (tCmd 0x50 [] b) 0 = false
      ∧ (∃ e ∈ pieces 32 (tSrc 31), srcOk false e = false) ∧ (32 : Nat) ≤ (tCmd 0x51 [32]).byte 0 := by decide
theorem wit_feedTooMany (e : Bytes) : 4096 < (List.replicate 4097 e).length := by rw [List.length_replicate]; decide
/-- An encode whose stream does not fit, whose write must wait; a pair that encodes nothing. -/
theorem wit_encodeCases :
    let c := { tCmd 0x54 [] tEnc with payBytes := some tEnc }
    let s := { tWith c tIng with ing := { ctxs := [(63, some ⟨none, 0, 0, some 1, true⟩)] } }
    let all := { s with tier := { s.tier with redirecting := (List.range 64).map fun i => (false, i) } }
    encodeAt tIng 0 = none ∧ encodeAt { s with ing := { ctxs := [(63, some ⟨none, 0, 0, some 1, false⟩)] } } 0 = none
      ∧ encodeAt all 0 = some (63, 1, tEnc) ∧ (writeMem all (.host (some 0)) 0x10000 [1]).1 = .wait ∧ dispatchHeld s = false
      ∧ dispatchHeld { s with pwr := { s.pwr with brake := true } } = true ∧ atRest (tGroup 0) (tCmd 0x53 [] tTok) 0 = false := by decide
theorem wit_longStream (e : Byte) : fieldAt tEnc 0x20 8 < (List.replicate 4097 e).length := by
  rw [List.length_replicate]; decide
/-- Accesses of an ingest pipeline that must wait and that fail. -/
def tIngWaits (s : State) : State := { s with tier := { s.tier with redirecting := (List.range 64).map fun i => (false, i) } }
def tIngLost (s : State) : State := { s with tier := { s.tier with pcState := (List.range 64).map fun i => (i, 2) } }
def tLocket (n : Nat) : Bytes :=
  let h := tPad 60 ([0, 0, 0, 0, 0, 0, 0, 0] ++ [n])
  h ++ leBytes 4 (crc32c h)
/-- A locket pipeline: a number that is not written, one that is, an index and a locket that must wait or cannot be read, one whose
check fails. -/
theorem wit_locketFetch :
    let e : SrcEntry := ⟨0, 64, 1, 0⟩
    let d := tPipe 31 1 0 0xFF
    let s := regSet (tPiped (tOpened (fun x => { x with entries := [e] }) d)) ⟨.ingLockets, 0, 31⟩ 1
    pdLockets d = true ∧ (pipeAt s 31).entries = [e] ∧ e.addr % 2 ^ 32 < regGet s ⟨.ingLockets, 0, 31⟩
      ∧ regGet (tPiped (tOpened id d)) ⟨.ingLockets, 0, 31⟩ ≤ e.addr % 2 ^ 32 ∧ (readMem s .device (pdLocket d) 16).1 = .ok
      ∧ (readMem (tIngWaits s) .device (pdLocket d) 16).1 = .wait ∧ (readMem (tIngLost s) .device (pdLocket d) 16).1 = .fail stTierFail
      ∧ (match decodeLocket (tPad 64 [1]) with | .error none => true | _ => false) = true
      ∧ (match decodeLocket (tLocket 0) with | .ok _ => true | _ => false) = true ∧ (match decodeLocket (tLocket 64) with | .error (some _) => true | _ => false) = true := by decide
/-- Sealed objects: a segment with no engine room, framing that does not hold, a key slot that is empty; parsed objects at each end. -/
theorem wit_objectCases :
    let s := tPiped (tOpened (fun x => { x with sealed_ := [(tEntry, tSeg, 0)] }) (tPipe 31 0 1 0xFF))
    let full := { s with sec := { tCk.sec with ops := List.replicate 32 (0, 5, 1) } }
    engineRoom s 0 = true ∧ engineRoom full 0 = false ∧ segmentOk (tSeg.set 0 0) 0 = false ∧ segmentOk tSeg 1 = false ∧ (keyUse s 5 0).isOk = false
      ∧ (partDies s 0).contains 7 = false ∧ (tPad 65 []).length ≠ tEntry.length ∧ (tPad 31 []).length < 32 ∧ fileHeaderOk (tPad 32 []) = false
      ∧ (tPad 15 []).length < 16 ∧ tPad 15 [] ≠ [] ∧ 67108864 < fieldAt (tPad 16 [0, 0, 0, 5]) 0 4 ∧ zeroAt (tPad 16 [0, 0, 0, 0, 0, 0, 0, 0, 0, 0, 0, 0, 1]) 12 4 = false
      ∧ (tPad 16 [8]).length < 16 + padTo 8 (fieldAt (tPad 16 [8]) 0 4) ∧ crc32c (tPad 8 []) ≠ 0 ∧ parseRecord false 0x80000001 [] = none
      ∧ (pipeAt tIng 31).st ≠ .opened ∧ (tOpened id).sealed_ = [] ∧ (tOpened id).parse = [] ∧ (tOpened id).entries = [] := by decide
/-- Samples with an AT that has come, none to admit; contexts of an encode, without a frame, of a component that is gone. -/
theorem wit_sampleCases :
    let m := tSample { tVideo with pair := some 15, ctx := 63, firstFrame := 0, count := 2 }
    let s := tPipeOf m
    ((pipeAt s 31).samples.find? fun m => !m.admitted && m.status == stOk) = none ∧ 5 ≤ ({ tOn with now := 5 } : State).now
      ∧ firstComp (pipeAt s 31) (fun c => c.kind == 1 && c.pair.isNone && !c.decoded) = none
      ∧ (⟨none, 0, 0, some 1, true⟩ : VidCtx).pipe = none ∧ (⟨some 31, 0, 0, none, false⟩ : VidCtx).frame = false
      ∧ ((pipeAt s 31).samples.find? fun m => m.seq == 1) = none ∧ (m.comps.find? fun c => c.num == 1) = none
      ∧ Machine.pictureOk { tPic with width := 0 } = false ∧ (0 : Nat) + 1 < { tVideo with count := 2 }.count ∧ (0 : Nat) ≤ tVideo.framesSeen
      ∧ bestPair { s with ing := { s.ing with ctxs := (List.range 64).map fun k => (k, some ⟨none, 0, 0, some 1, true⟩) } } [0] = none
      ∧ bestPair s [15] = some 15 := by decide
/-- Text without a dictionary, on a die that holds no copy, whose descriptor and dictionary must wait or cannot be read. -/
theorem wit_textCases :
    let d := tPipe 31 0 0 3
    let s := tPipeOf (tSample tText) (tIng (putBytes 0 [] (0xA00000 + 64 + 0x28) [4])) d
    let k : Dict := ⟨0xB00000, tDictHead 0, [(0, 0)]⟩
    Tbl.get none s.ing.dicts (4 * 0 + pdDict d) = none ∧ dictPlace k 1 = none ∧ (partDies s 0).contains 1 = false
      ∧ (shapeDesc (tIngWaits s) d 1).1 = .wait ∧ (shapeDesc (tIngLost s) d 1).1 = .fail stTierFail
      ∧ textShapeOk (shapeDesc (tIng) d 1).2.1 = false ∧ (readMem s .device (2 ^ 48) 16).1 = .bounds
      ∧ firstComp (pipeAt (tPipeOf (tSample tVideo)) 31) (fun c => c.kind == 2 && !c.decoded) = none
      ∧ shapeOk (shapeDesc (tIng) d 1).2.1 = false
      ∧ Tbl.get none ({ s.ing with dicts := [(3, some k)] } : Ingest).dicts (4 * 0 + pdDict d) = some k := by decide
/-- Slots and lockets whose accesses must wait or fail; a slot of no use, given back twice, of another partition. -/
theorem wit_slotCases :
    let x := tOpened (fun x => { x with slots := [⟨2, true, true, true⟩] }) (tPipe 31 0 2 0xFF 4096)
    let s := tPiped x
    (writeMem (tIngWaits s) .device (slotAddr x.desc 0) (tPad 64 [])).1 = .wait ∧ (writeMem (tIngLost s) .device (slotAddr x.desc 0) (tPad 64 [])).1 = .fail stTierFail
      ∧ (readMem (tIngWaits s) .device (slotAddr x.desc 0) 64).1 = .wait ∧ (readMem (tIngLost s) .device (slotAddr x.desc 0) 64).1 = .fail stTierFail
      ∧ (writeMem (tIngLost s) .device (pdLocket x.desc) [1] 3).1 = .fail stTierFail ∧ nextFree x = some 0
      ∧ (pipeAt tIng 31).samples.findSome? (fun m => (sampleEnd m).map fun e => (m, e)) = none
      ∧ (∀ k ∈ x.slots, k.index = 2 → k.taken = false ∨ k.given = true) ∧ atWord s 0 14 = false ∧ atWord s 0 15 = false
      ∧ nextFree { x with slots := (List.range 8).map fun i => ⟨i, true, false, false⟩ } = none := by decide
/-- Event rings whose size lies outside R734, at both ends. -/
theorem wit_ringSize :
    let r := fun n => regSet (tRing 0) ⟨.hostEvtbase, 7, 0⟩ (0x20000 + n)
    regGet (r 3) ⟨.hostEvtbase, 7, 0⟩ % 32 < 4 ∧ 16 < regGet (r 17) ⟨.hostEvtbase, 7, 0⟩ % 32 ∧ regGet (r 16) ⟨.hostEvtbase, 7, 0⟩ % 32 ≤ 16 := by decide

end Sys2Proof.Tests
end

section
/-! SUPPORT. Fields of registers: what a field reads after a write of the same field, of another field of the register, and of
another register. -/

namespace Sys2Proof.Machine
open Sys2Proof

/-! ### Fields of numbers -/

section
variable {v lo len x : Nat}

theorem testBit_bitsOf (i : Nat) : (bitsOf v lo len).testBit i = (decide (i < len) && v.testBit (lo + i)) := by
  simp [bitsOf, Nat.testBit_mod_two_pow, Nat.testBit_div_two_pow, Nat.add_comm]

/-- A number with a field replaced is made of the part above the field, the field and the part below it. -/
theorem putBits_eq :
    putBits v lo len x = 2 ^ (lo + len) * (v / 2 ^ (lo + len)) + (2 ^ lo * (x % 2 ^ len) + v % 2 ^ lo) := by
  have hlow : v = 2 ^ lo * (v / 2 ^ lo) + v % 2 ^ lo := (Nat.div_add_mod ..).symm
  have hmid : v / 2 ^ lo = 2 ^ len * (v / 2 ^ lo / 2 ^ len) + v / 2 ^ lo % 2 ^ len := (Nat.div_add_mod ..).symm
  rw [putBits, bitsOf, Nat.pow_add, ← Nat.div_div_eq_div_mul]
  generalize v / 2 ^ lo / 2 ^ len = high at *
  generalize v / 2 ^ lo % 2 ^ len = mid at *
  generalize v % 2 ^ lo = low at *
  have hv : v = 2 ^ lo * 2 ^ len * high + mid * 2 ^ lo + low := by rw [hlow, hmid]; ring
  rw [hv, Nat.mul_comm (x % 2 ^ len)]
  omega

theorem testBit_putBits (i : Nat) :
    (putBits v lo len x).testBit i = if lo ≤ i ∧ i < lo + len then x.testBit (i - lo) else v.testBit i := by
  have hlow : v % 2 ^ lo < 2 ^ lo := Nat.mod_lt _ (Nat.two_pow_pos _)
  have hfield : 2 ^ lo * (x % 2 ^ len) + v % 2 ^ lo < 2 ^ (lo + len) := calc
    _ < 2 ^ lo * (x % 2 ^ len + 1) := by rw [Nat.mul_succ]; omega
    _ ≤ 2 ^ (lo + len) := by
      rw [Nat.pow_add]; exact Nat.mul_le_mul_left _ (Nat.mod_lt x (Nat.two_pow_pos len))
  rw [putBits_eq, Nat.testBit_two_pow_mul_add _ hfield, Nat.testBit_two_pow_mul_add _ hlow]
  by_cases h1 : i < lo
  · simp [h1, show i < lo + len by omega, show ¬ lo ≤ i by omega, Nat.testBit_mod_two_pow]
  · by_cases h2 : i < lo + len
    · simp [h1, h2, show lo ≤ i by omega, show i - lo < len by omega, Nat.testBit_mod_two_pow]
    · simp [h2, Nat.testBit_div_two_pow, show i - (lo + len) + (lo + len) = i by omega]

theorem bitsOf_putBits_same : bitsOf (putBits v lo len x) lo len = x % 2 ^ len := by
  refine Nat.eq_of_testBit_eq fun i => ?_
  rw [testBit_bitsOf, testBit_putBits, Nat.testBit_mod_two_pow]
  by_cases h : i < len <;> simp [h]

theorem bitsOf_putBits_disjoint {lo' len' : Nat} (h : lo' + len' ≤ lo ∨ lo + len ≤ lo') :
    bitsOf (putBits v lo len x) lo' len' = bitsOf v lo' len' := by
  refine Nat.eq_of_testBit_eq fun i => ?_
  rw [testBit_bitsOf, testBit_bitsOf, testBit_putBits]
  by_cases hi : i < len'
  · rw [if_neg (by omega)]
  · simp [hi]

/-- A field within the low `n` bits does not see the bits above. -/
theorem bitsOf_mod_two_pow {n : Nat} (h : lo + len ≤ n) : bitsOf (v % 2 ^ n) lo len = bitsOf v lo len := by
  refine Nat.eq_of_testBit_eq fun i => ?_
  rw [testBit_bitsOf, testBit_bitsOf, Nat.testBit_mod_two_pow]
  by_cases hi : i < len
  · simp [show lo + i < n by omega]
  · simp [hi]

theorem bitsOf_lt : bitsOf v lo len < 2 ^ len := Nat.mod_lt _ (Nat.two_pow_pos _)

end

theorem bitOf_eq_testBit (v n : Nat) : bitOf v n = v.testBit n := by
  simp [bitOf, Nat.testBit_eq_decide_div_mod_eq, Bool.beq_eq_decide_eq]

/-! ### Fields of registers -/

/-- The unit and the index of a register stand in the places that its key has for them. -/
def Reg.Fits (r : Reg) : Prop := r.unit < 1024 ∧ r.idx < 65536

theorem Reg.fits_of_unit {name : RegName} {d : Nat} (hd : d < 1024) : (⟨name, d, 0⟩ : Reg).Fits := ⟨hd, by simp⟩

/-- Registers whose units and indices fit have a key of their own. -/
theorem Reg.key_ne {a b : Reg} (ha : a.Fits) (hb : b.Fits) (h : a ≠ b) : a.key ≠ b.key := by
  obtain ⟨na, ua, ia⟩ := a
  obtain ⟨nb, ub, ib⟩ := b
  obtain ⟨hua, hia⟩ := ha
  obtain ⟨hub, hib⟩ := hb
  simp only [Reg.key] at *
  intro hk
  have hn : na.ctorIdx = nb.ctorIdx := by omega
  have hname : na = nb := by rw [← RegName.ofNat_ctorIdx na, hn, RegName.ofNat_ctorIdx]
  exact h (by rw [hname, show ua = ub by omega, show ia = ib by omega])

section
variable {s : State} {r q : Reg} {lo len x : Nat}

theorem regFld_regPut_same (h : lo + len ≤ 64) : regFld (regPut s r lo len x) r lo len = x % 2 ^ len := by
  rw [regFld, regPut, regGet_regSet_self, bitsOf_mod_two_pow h, bitsOf_putBits_same]

theorem regFld_regPut_disjoint {lo' len' : Nat} (h64 : lo' + len' ≤ 64) (h : lo' + len' ≤ lo ∨ lo + len ≤ lo') :
    regFld (regPut s r lo len x) r lo' len' = regFld s r lo' len' := by
  rw [regFld, regPut, regGet_regSet_self, bitsOf_mod_two_pow h64, bitsOf_putBits_disjoint h, regFld]

theorem regGet_regPut_other (h : q.key ≠ r.key) : regGet (regPut s r lo len x) q = regGet s q :=
  regGet_regSet_other _ _ _ _ h

theorem regFld_lt : regFld s r lo len < 2 ^ len := bitsOf_lt

end

/-! ### Folds over the parts of the state -/

section
variable {α β : Type} {view : State → β} {f : State → α → State} {l : List α}

/-- A view that no step of a fold changes is as it was after the fold. -/
theorem forEach_keeps_of_mem (h : ∀ s, ∀ a ∈ l, view (f s a) = view s) (s : State) :
    view (forEach l s f) = view s := by
  unfold forEach
  induction l generalizing s with
  | nil => rfl
  | cons a r ih =>
    rw [List.foldl_cons, ih (fun s b hb => h s b (List.mem_cons_of_mem a hb)), h s a List.mem_cons_self]

/-- A view that one step of a fold changes, and no other, is after the fold as that step leaves it. -/
theorem forEach_at {a : α} (ha : a ∈ l) (hl : l.Nodup) (h : ∀ s, ∀ b ∈ l, b ≠ a → view (f s b) = view s) (s : State) :
    ∃ t, view t = view s ∧ view (forEach l s f) = view (f t a) := by
  obtain ⟨before, after, rfl⟩ := List.append_of_mem ha
  have hnot : a ∉ before ∧ a ∉ after := by
    simp only [List.nodup_append, List.nodup_cons, List.mem_cons] at hl
    obtain ⟨-, ⟨hafter, -⟩, hdisj⟩ := hl
    exact ⟨fun hb => hdisj a hb a (.inl rfl) rfl, hafter⟩
  refine ⟨forEach before s f, ?_, ?_⟩
  · exact forEach_keeps_of_mem (fun s b hb => h s b (by simp [hb]) fun e => hnot.1 (e ▸ hb)) s
  · have hsplit : forEach (before ++ a :: after) s f = forEach after (f (forEach before s f) a) f := by
      simp [forEach]
    rw [hsplit]
    exact forEach_keeps_of_mem (fun s b hb => h s b (by simp [hb]) fun e => hnot.2 (e ▸ hb)) _

end

end Sys2Proof.Machine
end

section
/-! PROOFS. The crossings, wakes and stops of the clocked islands (R39 to R50). -/

namespace Sys2Proof.Machine
open Sys2Proof

/-! ### Whether the clock runs -/

section
variable {s : State} {i : Island}

theorem clkRuns_of_lt (h : clkState s i < 2) : clkRuns s i = true := decide_eq_true h
theorem clkRuns_of_ge (h : 2 ≤ clkState s i) : clkRuns s i = false := decide_eq_false (Nat.not_lt.2 h)

theorem clkState_regPut (k : Nat) : clkState (regPut s (xstatR i) 8 2 k) i = k % 4 := regFld_regPut_same (by decide)

theorem raiseWake_of_stopped (h : clkState s i = 2) : raiseWake s i = regOr (regPut s (xstatR i) 8 2 3) (xstatR i) 1 :=
  if_pos h
theorem raiseWake_of_not_stopped (h : clkState s i ≠ 2) : raiseWake s i = s := if_neg h

end

/-! ### Crossings of a running and of a stopped island -/

/-- A running island's crossings carry in both directions, and nothing wakes it (R41 to R47). -/
theorem running_island_crosses (s : State) (i : Island) (d : Bool) (v : Bytes) (h : clkState s i < 2) :
    exec (.crossingDeliver i (.value d v)) s = .next (commit s (enterValue s i d v))
      ∧ exec (.crossingDeliver i (.deliver d)) s = .next (commit s (takeValue s i d))
      ∧ exec (.crossingDeliver i (.event d)) s = .next (commit s (endEvent s i d))
      ∧ exec (.eventCrossingSend i d) s = .next (commit s (enterEvent s i d))
      ∧ (∀ x, exec (.islandWake i x) s = .next (commit s s)) := by
  simp [exec_crossingDeliver, exec_eventCrossingSend, exec_islandWake, doCrossingDeliver, doEventCrossingSend, doIslandWake,
    clkRuns_of_lt h]

/-- A stopped or waking island holds what comes and raises its wake line; only what it had sent still arrives (R46). -/
theorem stopped_island_holds (s : State) (i : Island) (v : Bytes) (h : 2 ≤ clkState s i) :
    exec (.crossingDeliver i (.value true v)) s = .next (commit s (raiseWake (enterValue s i true v) i))
      ∧ exec (.islandWake i (.value true v)) s = .next (commit s (raiseWake (enterValue s i true v) i))
      ∧ exec (.eventCrossingSend i true) s = .next (commit s (raiseWake (enterEvent s i true) i))
      ∧ exec (.islandWake i (.event true)) s = .next (commit s (raiseWake (enterEvent s i true) i))
      ∧ exec (.crossingDeliver i (.deliver false)) s = .next (commit s (takeValue s i false))
      ∧ exec (.crossingDeliver i (.event false)) s = .next (commit s (endEvent s i false))
      ∧ exec (.crossingDeliver i (.value false v)) s = .next (commit s s)
      ∧ exec (.crossingDeliver i (.deliver true)) s = .next (commit s s)
      ∧ exec (.crossingDeliver i (.event true)) s = .next (commit s s)
      ∧ exec (.eventCrossingSend i false) s = .next (commit s s)
      ∧ (∀ x ∈ [CrossItem.value false v, .event false, .deliver true, .deliver false],
        exec (.islandWake i x) s = .next (commit s s)) := by
  simp [exec_crossingDeliver, exec_eventCrossingSend, exec_islandWake, doCrossingDeliver, doEventCrossingSend, doIslandWake,
    enterStopped, clkRuns_of_ge h]

/-! ### Values and events -/

@[simp] theorem islandAt_modIsland_same (s : State) (i : Island) (f : IslandSt → IslandSt) :
    islandAt (modIsland s i f) i = f (islandAt s i) := Tbl.get_upd_self

/-- Whether a value has room in a queue of an island (R41, R43). -/
theorem not_full_iff {i : Island} {q : List Bytes} {v : Bytes} :
    ¬ (islandDepth i ≤ q.length ∨ entryFits i v = false) ↔ q.length < islandDepth i ∧ entryFits i v = true := by
  simp

theorem islandAt_enterValue_in (s : State) (i : Island) (v : Bytes) :
    islandAt (enterValue s i true v) i
      = (if (islandAt s i).inQ.length < islandDepth i ∧ entryFits i v = true
          then { islandAt s i with inQ := (islandAt s i).inQ ++ [v] } else islandAt s i) := by
  simp only [enterValue, islandAt_modIsland_same, if_true, ← not_full_iff, ite_not]

theorem islandAt_enterValue_out (s : State) (i : Island) (v : Bytes) :
    islandAt (enterValue s i false v) i
      = (if (islandAt s i).outQ.length < islandDepth i ∧ entryFits i v = true
          then { islandAt s i with outQ := (islandAt s i).outQ ++ [v] } else islandAt s i) := by
  simp only [enterValue, islandAt_modIsland_same, Bool.false_eq_true, if_false, ← not_full_iff, ite_not]

theorem takeValue_in (s : State) (i : Island) :
    takeValue s i true = modIsland s i (fun x => { x with inQ := x.inQ.tail }) := by simp [takeValue]

theorem takeValue_out (s : State) (i : Island) :
    takeValue s i false = modIsland s i (fun x => { x with outQ := x.outQ.tail }) := by simp [takeValue]

theorem endEvent_in (s : State) (i : Island) :
    endEvent s i true = modIsland s i (fun x => { x with inFlight := x.inPend, inPend := false }) := rfl

theorem endEvent_out (s : State) (i : Island) :
    endEvent s i false = modIsland s i (fun x => { x with outFlight := x.outPend, outPend := false }) := rfl

section
variable {s : State} {i : Island}

theorem enterEvent_in_flies (h : (islandAt s i).inFlight = false) :
    enterEvent s i true = modIsland s i fun x => { x with inFlight := true, inPend := false } := by
  simp [enterEvent, h]

theorem enterEvent_in_waits (h : (islandAt s i).inFlight = true) (hp : (islandAt s i).inPend = false) :
    enterEvent s i true = modIsland s i fun x => { x with inFlight := true, inPend := true } := by
  simp [enterEvent, h, hp]

theorem enterEvent_in_merges (h : (islandAt s i).inFlight = true) (hp : (islandAt s i).inPend = true) :
    enterEvent s i true = mergeEvent s i := by
  simp [enterEvent, h, hp]

theorem enterEvent_out_flies (h : (islandAt s i).outFlight = false) :
    enterEvent s i false = modIsland s i fun x => { x with outFlight := true, outPend := false } := by
  simp [enterEvent, h]

theorem enterEvent_out_waits (h : (islandAt s i).outFlight = true) (hp : (islandAt s i).outPend = false) :
    enterEvent s i false = modIsland s i fun x => { x with outFlight := true, outPend := true } := by
  simp [enterEvent, h, hp]

theorem enterEvent_out_merges (h : (islandAt s i).outFlight = true) (hp : (islandAt s i).outPend = true) :
    enterEvent s i false = mergeEvent s i := by
  simp [enterEvent, h, hp]

end

/-! ### Wakes -/

section
variable {s : State} {i : Island}

theorem doIslandWakeDone_of_waking (hl : ∀ l, i ≠ .lnk l) (h : clkState s i = 3) :
    doIslandWakeDone i s = clockRuns s i := by
  cases i <;> simp_all [doIslandWakeDone]

theorem doIslandWakeDone_of_not_waking (hl : ∀ l, i ≠ .lnk l) (h : clkState s i ≠ 3) : doIslandWakeDone i s = s := by
  cases i <;> simp_all [doIslandWakeDone, linkRestarts]

theorem linkRestarts_lnk (s : State) (l : LinkId) :
    linkRestarts s (.lnk l) = true ↔ (linkAt s l.val).st ∉ [.disabled, .bypassed, .failed] := by
  simp [linkRestarts, and_assoc]

/-- A link's island starts with its link's training, not by its wake line (R39). -/
theorem doIslandWakeDone_lnk (s : State) (l : LinkId) :
    doIslandWakeDone (.lnk l) s
      = if 2 ≤ clkState s (.lnk l) ∧ (linkAt s l.val).st ∉ [.disabled, .bypassed, .failed] then clockRuns s (.lnk l) else s := by
  simp only [← linkRestarts_lnk, doIslandWakeDone, Bool.not_true, Bool.false_and, Bool.false_or, Bool.and_eq_true,
    decide_eq_true_eq]

theorem doWakeLate_of_late (h : clkState s i = 3) (hb : wakeBounded i = true) (hn : regBit s (xstatR i) 2 = false) :
    doWakeLate i s = faultReg (regOr s (xstatR i) 4) 0xFF (xstatR i) := by
  simp [doWakeLate, h, hb, hn, xstatFault]

theorem doWakeLate_of_not_late (h : clkState s i ≠ 3 ∨ wakeBounded i = false ∨ regBit s (xstatR i) 2 = true) :
    doWakeLate i s = s := by
  rcases h with h | h | h <;> simp [doWakeLate, h]

end

/-! ### Stops -/

section
variable {s : State} {i : Island} {w : WakeMeet}

theorem doIslandStopRequest_of_stopped (h : 2 ≤ clkState s i) : doIslandStopRequest i w s = s := by
  simp [doIslandStopRequest, clkRuns_of_ge h]

/-- An island that may not stop takes back the request that it has made. -/
theorem doIslandStopRequest_of_busy (h : clkState s i < 2) (hm : mayStop s i = false) :
    doIslandStopRequest i w s = if clkState s i = 1 then regPut s (xstatR i) 8 2 0 else s := by
  simp [doIslandStopRequest, clkRuns_of_lt h, hm]

/-- What a request that may be made comes to, by the wake that it meets (R47). -/
theorem doIslandStopRequest_of_idle (h : clkState s i < 2) (hm : mayStop s i = true) :
    doIslandStopRequest i .asked s = regPut s (xstatR i) 8 2 1
      ∧ doIslandStopRequest i .noWake s = regPut s (xstatR i) 8 2 2
      ∧ doIslandStopRequest i .wakeWins s = regPut s (xstatR i) 8 2 0
      ∧ doIslandStopRequest i .stopWins s
          = regOr (regPut (regPut s (xstatR i) 8 2 2) (xstatR i) 8 2 3) (xstatR i) 1 := by
  have hstop : clkState (regPut s (xstatR i) 8 2 2) i = 2 := clkState_regPut 2
  simp [doIslandStopRequest, clkRuns_of_lt h, hm, raiseWake_of_stopped hstop]

theorem mayStop_idle (h : mayStop s i = true) :
    (islandAt s i).inQ = [] ∧ (islandAt s i).outQ = [] ∧ (islandAt s i).inFlight = false
      ∧ (islandAt s i).outFlight = false ∧ ∀ d, i ≠ .kom d := by
  simp only [mayStop, Bool.and_eq_true, List.isEmpty_iff, Bool.not_eq_true'] at h
  obtain ⟨⟨⟨⟨hin, hout⟩, hfin⟩, hfout⟩, hrow⟩ := h
  exact ⟨hin, hout, hfin, hfout, by rintro d rfl; simp at hrow⟩

end

/-! ### A write of XSTAT -/

theorem doXstatWrite_eq (s : State) (i : Island) (v hw : W32) :
    let r := xstatR i
    let t := regSet s r (regWritten r.name.info (regGet s r) v.toNat (hw.toNat &&& 6))
    let u := if hw.getLsbD 1 then regAddSat t r 16 16 1 else if v.getLsbD 1 then regPut t r 16 16 0 else t
    doXstatWrite i v hw s = if (hw.toNat &&& 6) &&& (6 - (regGet s r &&& 6)) = 0 then u else faultReg u 0xFF r := by
  simp only [doXstatWrite, xstatPut, bitOf_eq_testBit, BitVec.testBit_toNat, regWritePlain, xstatFault]

/-! ### The statement -/

/-- Settles O14: each part is the equation of the operation that it speaks of. -/
theorem islandsCrossStopAndWake : Obligations.IslandsCrossStopAndWake := by
  refine ⟨running_island_crosses, stopped_island_holds, fun s i v => ?values, fun s i => ?events, fun s i => ?wakes,
    fun s i w => ?stops, fun s => ?i3c, fun s i v hw => ?xstat⟩
  case values =>
    exact ⟨islandAt_enterValue_in s i v, islandAt_enterValue_out s i v, takeValue_in s i, takeValue_out s i, endEvent_in s i,
      endEvent_out s i⟩
  case events =>
    exact ⟨enterEvent_in_flies, enterEvent_in_waits, enterEvent_out_flies, enterEvent_out_waits, enterEvent_in_merges,
      enterEvent_out_merges, raiseWake_of_stopped, raiseWake_of_not_stopped⟩
  case wakes =>
    simp only [exec_islandWakeDone, exec_wakeLate]
    refine ⟨fun hl h => ?_, fun hl h => ?_, ?_, ?_, fun h hb hn => ?_, fun h => ?_⟩
    · rw [doIslandWakeDone_of_waking hl h]; rfl
    · rw [doIslandWakeDone_of_not_waking hl h]
    · rintro l rfl h ht
      rw [doIslandWakeDone_lnk, if_pos ⟨h, ht⟩]; rfl
    · rintro l rfl h
      rw [doIslandWakeDone_lnk, if_neg]
      rintro ⟨hclk, hst⟩
      exact h.elim (Nat.not_lt.2 hclk) hst
    · rw [doWakeLate_of_late h hb hn]
    · rw [doWakeLate_of_not_late h]
  case stops =>
    simp only [exec_islandStopRequest]
    refine ⟨fun h => ?_, fun h hm => ?_, fun h hm => ?_, fun h hm => ?_, mayStop_idle⟩
    · rw [doIslandStopRequest_of_stopped h]
    · rw [doIslandStopRequest_of_busy (by omega) hm, if_neg (by omega)]
    · rw [doIslandStopRequest_of_busy (by omega) hm, if_pos h]
    · obtain ⟨hasked, hgranted, hrefused, hwoken⟩ := doIslandStopRequest_of_idle h hm
      rw [hasked, hgranted, hrefused, hwoken]
      exact ⟨rfl, rfl, rfl, rfl⟩
  case i3c =>
    simp only [exec_i3cStartCondition, doI3cStartCondition]
    exact ⟨fun h => by rw [raiseWake_of_stopped h]; rfl, fun h => by rw [raiseWake_of_not_stopped h]⟩
  case xstat =>
    rw [exec_xstatWrite]
    exact congrArg (fun u => Host.Outcome.next (commit s u)) (doXstatWrite_eq s i v hw)

end Sys2Proof.Machine
end

section
/-! PROOFS. What an arbiter grants (R51 to R57, R378) and when the brake applies (R36, R37, R62 to R68). -/

namespace Sys2Proof.Machine
open Sys2Proof

/-! ### The choice of a request -/

/-- The oldest waiting request of a priority. -/
def firstOf (ws : List WaitReq) (p : Fin 4) : Option WaitReq := (ws.filter fun w => w.prio == p).head?

/-- A P1 request that has waited while as many P0 requests were granted as the P0 queue is deep (R55). -/
def isDue (r : Resource) (w : WaitReq) : Bool := w.prio == 1 && decide (p0Depth r ≤ w.p0Seen)

theorem find_isDue_of_no_P1 {r : Resource} {ws : List WaitReq} (h : firstOf ws 1 = none) : ws.find? (isDue r) = none := by
  rw [firstOf, List.head?_eq_none_iff, List.filter_eq_nil_iff] at h
  rw [List.find?_eq_none]
  intro w hw hd
  exact h w hw (by simp only [isDue, Bool.and_eq_true] at hd; exact hd.1)

/-- Away from the tier channels a due P1 request goes first, then the oldest of the highest priority (R52, R55). -/
theorem chooseRequest_off_tier {r : Resource} {x : ArbSt} (hr : resourceCtl r = none) :
    chooseRequest r x = (x.waiting.find? (isDue r)).or
      ((firstOf x.waiting 0).or ((firstOf x.waiting 1).or ((firstOf x.waiting 2).or (firstOf x.waiting 3)))) := by
  simp only [chooseRequest, hr, Option.isSome_none, Bool.false_eq_true, if_false, oldestOf, Option.orElse_eq_or, Option.none_or]
  rfl

theorem chooseRequest_of_nothing_waiting {r : Resource} {x : ArbSt} (h : x.waiting = []) : chooseRequest r x = none := by
  simp [chooseRequest, h, unblocked, oldestOf]

/-- The order of grants away from the tier channels, case by case. -/
theorem chooseRequest_order (r : Resource) (x : ArbSt) (q : WaitReq) (hr : resourceCtl r = none) :
    (x.waiting.find? (isDue r) = some q → chooseRequest r x = some q)
      ∧ (x.waiting.find? (isDue r) = none → firstOf x.waiting 0 = some q → chooseRequest r x = some q)
      ∧ (x.waiting.find? (isDue r) = none → firstOf x.waiting 0 = none → firstOf x.waiting 1 = some q →
        chooseRequest r x = some q)
      ∧ (firstOf x.waiting 0 = none → firstOf x.waiting 1 = none → firstOf x.waiting 2 = some q → chooseRequest r x = some q)
      ∧ (firstOf x.waiting 0 = none → firstOf x.waiting 1 = none → firstOf x.waiting 2 = none → firstOf x.waiting 3 = some q →
        chooseRequest r x = some q) := by
  rw [chooseRequest_off_tier hr]
  refine ⟨fun hd => ?_, fun hd h0 => ?_, fun hd h0 h1 => ?_, fun h0 h1 h2 => ?_, fun h0 h1 h2 h3 => ?_⟩
  · simp [hd]
  · simp [hd, h0]
  · simp [hd, h0, h1]
  · simp [find_isDue_of_no_P1 h1, h0, h1, h2]
  · simp [find_isDue_of_no_P1 h1, h0, h1, h2, h3]

/-- At a tier channel the oldest of the kind that the controller serves goes first (R378). -/
theorem oldestOf_tier {ws : List WaitReq} {p : Fin 4} {drains : Bool} {q : WaitReq}
    (h : (ws.filter fun w => w.prio == p).find? (fun w => w.req.write == drains) = some q) :
    oldestOf true drains ws p = some q := by
  simp [oldestOf, h]

/-! ### The grant -/

/-- A free resource that is no link egress grants from what waits once its arrivals have joined. -/
theorem doArbiterGrant_of_not_egress {r : Resource} (h : ∀ l, r ≠ .linkEgress l) (arrivals : List Request) (s : State) :
    doArbiterGrant r arrivals s = grantNext (takeArrivals s r (arrivals.filter (atResource s r))) r := by
  cases r with
  | linkEgress l => exact absurd rfl (h l)
  | _ => rfl

theorem grantNext_of_none {s : State} {r : Resource}
    (h : chooseRequest r { arbAt s r with draining := drainsWrites s r (arbAt s r).draining, granted := none } = none) :
    grantNext s r = setArb s r { arbAt s r with draining := drainsWrites s r (arbAt s r).draining, granted := none } := by
  simp only [grantNext, h]

theorem grantNext_of_some {s : State} {r : Resource} {q : WaitReq}
    (h : chooseRequest r { arbAt s r with draining := drainsWrites s r (arbAt s r).draining, granted := none } = some q) :
    grantNext s r = grantFetch (setArb s r (afterGrant
      { arbAt s r with draining := drainsWrites s r (arbAt s r).draining, granted := none } q)) r q.req := by
  simp only [grantNext, h]

/-! ### Priorities and arrivals -/

theorem reqPrio_P0 {s : State} {q : Request} (h : q.origin = .fault ∨ q.origin = .command ∨ q.origin = .vc0) :
    reqPrio s q = 0 := by
  rcases h with h | h | h <;> simp [reqPrio, h]

theorem reqPrio_step {s : State} {q : Request} {p : PartId} (h : q.origin = .step p) :
    reqPrio s q = if (partAt s p.val).serving then 1 else 2 := by simp [reqPrio, h]

theorem reqPrio_background {s : State} {q : Request} (h : q.origin = .background) : reqPrio s q = 3 := by simp [reqPrio, h]

/-- A P0 request that finds its queue full waits at its source (R56). -/
theorem arrive_of_P0_full {s : State} {r : Resource} {q : Request} (hf : p0Full r (arbAt s r).waiting = true)
    (hp : reqPrio s q = 0) : arrive s r q = s := if_pos ⟨hp, hf⟩

/-! ### The brake -/

section
variable {s : State} {d : Die} {mv ns : Nat}

theorem brakeState_steady (h : s.pwr.ramping = false) : brakeState s = regFld s ⟨.pwrVreq, 0, 0⟩ 8 3 := by
  simp [brakeState, h, grantedState]

theorem brakeState_ramp (h : s.pwr.ramping = true) :
    brakeState s = min s.pwr.rampFrom (regFld s ⟨.pwrVreq, 0, 0⟩ 8 3) := by
  simp [brakeState, h, grantedState]

theorem doBrakeApply_of_low (hp : s.pwr.powered = true) (hb : s.pwr.brake = false) (hm : mv < brakeLevel (brakeState s))
    (hn : 2000 < ns) : doBrakeApply d mv ns s = applyBrake s := if_pos ⟨hp, hb, hm, hn⟩

theorem doBrakeApply_of_not_low
    (h : s.pwr.powered = false ∨ s.pwr.brake = true ∨ brakeLevel (brakeState s) ≤ mv ∨ ns ≤ 2000) :
    doBrakeApply d mv ns s = s := by
  refine if_neg ?_
  rintro ⟨hp, hb, hm, hn⟩
  rcases h with h | h | h | h
  · simp [h] at hp
  · simp [h] at hb
  · omega
  · omega

theorem doBrakeRelease_of_high (hp : s.pwr.powered = true) (hb : s.pwr.brake = true) (hh : s.pwr.holdup = false)
    (hm : brakeLevel (brakeState s) + 15 < mv) (hn : 10000 ≤ ns) : doBrakeRelease mv ns s = releaseBrake s :=
  if_pos ⟨hp, hb, hh, hm, hn⟩

theorem doBrakeRelease_of_not_high
    (h : s.pwr.powered = false ∨ s.pwr.brake = false ∨ s.pwr.holdup = true ∨ mv ≤ brakeLevel (brakeState s) + 15 ∨ ns < 10000) :
    doBrakeRelease mv ns s = s := by
  refine if_neg ?_
  rintro ⟨hp, hb, hh, hm, hn⟩
  rcases h with h | h | h | h | h
  · simp [h] at hp
  · simp [h] at hb
  · simp [h] at hh
  · omega
  · omega

theorem resumeDispatch_of_held (h : dispatchHeld s = true) : resumeDispatch s = s := if_pos h
theorem resumeDispatch_of_free (h : dispatchHeld s = false) :
    resumeDispatch s = beginFrames (forEach (List.range 16) s beginHeld) := if_neg (by simp [h])

end

end Sys2Proof.Machine
end

section
/-! PROOFS. The pace registers at a window's end (R28 to R35). -/

namespace Sys2Proof.Machine
open Sys2Proof

/-! ### The lowest of some indices -/

/-- The lower of two indices with their places, the first on a tie: the step of `lowestOf`. -/
def lower (b x : Nat × Nat) : Nat × Nat := if x.1 < b.1 then x else b

theorem lower_cases (b x : Nat × Nat) : (lower b x = b ∨ lower b x = x) ∧ (lower b x).1 ≤ b.1 ∧ (lower b x).1 ≤ x.1 := by
  unfold lower; split <;> simp <;> omega

theorem foldl_lower (l : List (Nat × Nat)) (b : Nat × Nat) :
    (l.foldl lower b = b ∨ l.foldl lower b ∈ l) ∧ (l.foldl lower b).1 ≤ b.1 ∧ ∀ x ∈ l, (l.foldl lower b).1 ≤ x.1 := by
  induction l generalizing b with
  | nil => simp
  | cons a r ih =>
    obtain ⟨hmem, hle, hall⟩ := ih (lower b a)
    obtain ⟨hor, hb, ha⟩ := lower_cases b a
    rw [List.foldl_cons]
    refine ⟨?_, hle.trans hb, ?_⟩
    · rcases hmem with h | h
      · rcases hor with h' | h'
        · exact .inl (h.trans h')
        · exact .inr (by rw [h, h']; exact List.mem_cons_self)
      · exact .inr (List.mem_cons_of_mem a h)
    · intro x hx
      rcases List.mem_cons.1 hx with rfl | hx
      · exact hle.trans ha
      · exact hall x hx

theorem lowestOf_eq (l : List Nat) : lowestOf l = l.zipIdx.foldl lower (nth 0 l 0, 0) := rfl

/-- The lowest index stands where `lowestOf` says. -/
theorem getElem?_lowestOf {l : List Nat} (h : l ≠ []) : l[(lowestOf l).2]? = some (lowestOf l).1 := by
  rw [lowestOf_eq]
  obtain ⟨hb | hmem, -, -⟩ := foldl_lower l.zipIdx (nth 0 l 0, 0)
  · obtain ⟨a, r, rfl⟩ := List.exists_cons_of_ne_nil h
    rw [hb]; rfl
  · exact List.mem_zipIdx_iff_getElem?.1 hmem

theorem lowestOf_le {l : List Nat} {n v : Nat} (h : l[n]? = some v) : (lowestOf l).1 ≤ v := by
  obtain ⟨-, -, hall⟩ := foldl_lower l.zipIdx (nth 0 l 0, 0)
  exact hall (v, n) (List.mem_zipIdx_iff_getElem?.2 h)

theorem lowestOf_lt_length {l : List Nat} (h : l ≠ []) : (lowestOf l).2 < l.length :=
  (List.getElem?_eq_some_iff.1 (getElem?_lowestOf h)).1

/-! ### One die -/

/-- The registers of a unit with indices below 16, by name and index. -/
def unitRegs (s : State) (d : Nat) (name : RegName) (n : Fin 16) : Nat := regGet s ⟨name, d, n.val⟩

/-- The readings of one die's sixteen sensors. -/
def paceSensors (s : State) (d : Nat) (r : List Nat) : State :=
  forEach (List.range 16) s fun s n => regPut s ⟨.telPaceSensor, d, n⟩ 0 12 (nth 0 r n)

/-- The lowest of a die's readings and its place. -/
def paceLowest (s : State) (d v n : Nat) : State :=
  regPut (regPut s ⟨.telPaceDie, d, 0⟩ 0 12 v) ⟨.telPaceDie, d, 0⟩ 16 4 n

theorem paceDie_eq (s : State) (d : Nat) (r : List Nat) :
    paceDie s d r = regPut (paceLowest (paceSensors s d r) d (lowestOf r).1 (lowestOf r).2) ⟨.telPaceMin, d, 0⟩ 0 12
      (min (regFld (paceLowest (paceSensors s d r) d (lowestOf r).1 (lowestOf r).2) ⟨.telPaceMin, d, 0⟩ 0 12) (lowestOf r).1) :=
  rfl

section
variable {s : State} {d n v : Nat} {r : List Nat} {q : Reg}

theorem regGet_paceLowest_other (hd : d < 1024) (hq : q.Fits) (h : q ≠ ⟨.telPaceDie, d, 0⟩) :
    regGet (paceLowest s d v n) q = regGet s q := by
  have hk : q.key ≠ (⟨.telPaceDie, d, 0⟩ : Reg).key := Reg.key_ne hq (Reg.fits_of_unit hd) h
  rw [paceLowest, regGet_regPut_other hk, regGet_regPut_other hk]

theorem regGet_paceSensors_other (hd : d < 1024) (hq : q.Fits) (h : q.name ≠ .telPaceSensor ∨ q.unit ≠ d) :
    regGet (paceSensors s d r) q = regGet s q := by
  refine forEach_keeps_of_mem (view := fun s => regGet s q) (fun s k hk => regGet_regPut_other ?_) s
  refine Reg.key_ne hq ⟨hd, (List.mem_range.1 hk).trans (by decide)⟩ ?_
  rintro rfl
  simp at h

theorem regFld_paceSensors (hd : d < 1024) (hn : n < 16) :
    regFld (paceSensors s d r) ⟨.telPaceSensor, d, n⟩ 0 12 = nth 0 r n % 2 ^ 12 := by
  obtain ⟨t, -, ht⟩ := forEach_at (view := fun s => regGet s ⟨.telPaceSensor, d, n⟩)
    (f := fun s n => regPut s ⟨.telPaceSensor, d, n⟩ 0 12 (nth 0 r n)) (List.mem_range.2 hn) List.nodup_range
    (fun s k hk hne => regGet_regPut_other (Reg.key_ne ⟨hd, hn.trans (by decide)⟩
      ⟨hd, (List.mem_range.1 hk).trans (by decide)⟩ (by simpa using Ne.symm hne))) s
  exact (congrArg (bitsOf · 0 12) ht).trans (regFld_regPut_same (by decide))

/-- A die's readings leave the registers of every other unit. -/
theorem regGet_paceDie_other (hd : d < 1024) (hq : q.Fits) (h : q.unit ≠ d) : regGet (paceDie s d r) q = regGet s q := by
  have hother (name : RegName) (k : Nat) : q ≠ ⟨name, d, k⟩ := by rintro rfl; exact h rfl
  rw [paceDie_eq, regGet_regPut_other (Reg.key_ne hq (Reg.fits_of_unit hd) (hother _ _)),
    regGet_paceLowest_other hd hq (hother _ _), regGet_paceSensors_other hd hq (.inr h)]

theorem regFld_paceDie_sensor (hd : d < 1024) (hn : n < 16) :
    regFld (paceDie s d r) ⟨.telPaceSensor, d, n⟩ 0 12 = nth 0 r n % 2 ^ 12 := by
  have hq : (⟨.telPaceSensor, d, n⟩ : Reg).Fits := ⟨hd, hn.trans (by decide)⟩
  rw [← regFld_paceSensors (s := s) hd hn, regFld, regFld, paceDie_eq,
    regGet_regPut_other (Reg.key_ne hq (Reg.fits_of_unit hd) (by simp)), regGet_paceLowest_other hd hq (by simp)]

theorem regGet_paceDie_die (hd : d < 1024) :
    regGet (paceDie s d r) ⟨.telPaceDie, d, 0⟩
      = regGet (paceLowest (paceSensors s d r) d (lowestOf r).1 (lowestOf r).2) ⟨.telPaceDie, d, 0⟩ := by
  rw [paceDie_eq, regGet_regPut_other (Reg.key_ne (Reg.fits_of_unit hd) (Reg.fits_of_unit hd) (by simp))]

theorem regFld_paceDie_lowest (hd : d < 1024) :
    regFld (paceDie s d r) ⟨.telPaceDie, d, 0⟩ 0 12 = (lowestOf r).1 % 2 ^ 12 := by
  rw [regFld, regGet_paceDie_die hd, ← regFld, paceLowest, regFld_regPut_disjoint (by decide) (by decide),
    regFld_regPut_same (by decide)]

theorem regFld_paceDie_place (hd : d < 1024) :
    regFld (paceDie s d r) ⟨.telPaceDie, d, 0⟩ 16 4 = (lowestOf r).2 % 2 ^ 4 := by
  rw [regFld, regGet_paceDie_die hd, ← regFld, paceLowest, regFld_regPut_same (by decide)]

theorem regFld_paceDie_min (hd : d < 1024) :
    regFld (paceDie s d r) ⟨.telPaceMin, d, 0⟩ 0 12
      = min (regFld s ⟨.telPaceMin, d, 0⟩ 0 12) (lowestOf r).1 % 2 ^ 12 := by
  have hq : (⟨.telPaceMin, d, 0⟩ : Reg).Fits := Reg.fits_of_unit hd
  have hkeep : regFld (paceLowest (paceSensors s d r) d (lowestOf r).1 (lowestOf r).2) ⟨.telPaceMin, d, 0⟩ 0 12
      = regFld s ⟨.telPaceMin, d, 0⟩ 0 12 := by
    rw [regFld, regGet_paceLowest_other hd hq (by simp), regGet_paceSensors_other hd hq (.inl (by simp)), regFld]
  rw [paceDie_eq, regFld_regPut_same (by decide), hkeep]

end

/-! ### The module -/

section
variable {s : State} {rs : List (List Nat)} {d : Nat}

/-- The readings of all dies. -/
def paceDies (s : State) (rs : List (List Nat)) : State :=
  forEach (List.range 8) s fun s d => paceDie s d (nth [] rs d)

/-- The lowest index of each die. -/
def dieLowest (rs : List (List Nat)) : List Nat := rs.map fun r => (lowestOf r).1

theorem paceWindow_eq (s : State) (rs : List (List Nat)) :
    paceWindow s rs = regPut (regPut (paceDies s rs) ⟨.telPacePkg, 0, 0⟩ 0 12 (lowestOf (dieLowest rs)).1)
      ⟨.telPacePkg, 0, 0⟩ 12 3 (lowestOf (dieLowest rs)).2 := rfl

/-- After a window's end the registers of a die, but for TEL_PACE_PKG, are as that die's readings leave them. -/
theorem regFld_paceWindow (hd : d < 8) :
    ∃ t, unitRegs t d = unitRegs s d ∧ ∀ (name : RegName) (n : Fin 16) (lo len : Nat), name ≠ .telPacePkg →
      regFld (paceWindow s rs) ⟨name, d, n.val⟩ lo len = regFld (paceDie t d (nth [] rs d)) ⟨name, d, n.val⟩ lo len := by
  have hfits (name : RegName) (n : Fin 16) : (⟨name, d, n.val⟩ : Reg).Fits := ⟨hd.trans (by decide), n.isLt.trans (by decide)⟩
  obtain ⟨t, hbefore, hafter⟩ := forEach_at (view := fun s => unitRegs s d) (f := fun s d => paceDie s d (nth [] rs d))
    (List.mem_range.2 hd) List.nodup_range (fun s k hk hne => by
      funext name n
      exact regGet_paceDie_other ((List.mem_range.1 hk).trans (by decide)) (hfits name n) (Ne.symm hne)) s
  refine ⟨t, hbefore, fun name n lo len hname => ?_⟩
  have hk : (⟨name, d, n.val⟩ : Reg).key ≠ (⟨.telPacePkg, 0, 0⟩ : Reg).key :=
    Reg.key_ne (hfits name n) ⟨by decide, by decide⟩ (by simp [hname])
  rw [regFld, paceWindow_eq, regGet_regPut_other hk, regGet_regPut_other hk]
  exact congrArg (bitsOf · lo len) (congrFun (congrFun hafter name) n)

theorem regFld_paceWindow_sensor (hd : d < 8) {n : Nat} (hn : n < 16) :
    regFld (paceWindow s rs) ⟨.telPaceSensor, d, n⟩ 0 12 = nth 0 (nth [] rs d) n % 2 ^ 12 := by
  obtain ⟨t, -, ht⟩ := regFld_paceWindow (s := s) (rs := rs) hd
  exact (ht .telPaceSensor ⟨n, hn⟩ 0 12 (by simp)).trans (regFld_paceDie_sensor (hd.trans (by decide)) hn)

theorem regFld_paceWindow_lowest (hd : d < 8) :
    regFld (paceWindow s rs) ⟨.telPaceDie, d, 0⟩ 0 12 = (lowestOf (nth [] rs d)).1 % 2 ^ 12 := by
  obtain ⟨t, -, ht⟩ := regFld_paceWindow (s := s) (rs := rs) hd
  exact (ht .telPaceDie 0 0 12 (by simp)).trans (regFld_paceDie_lowest (hd.trans (by decide)))

theorem regFld_paceWindow_place (hd : d < 8) :
    regFld (paceWindow s rs) ⟨.telPaceDie, d, 0⟩ 16 4 = (lowestOf (nth [] rs d)).2 % 2 ^ 4 := by
  obtain ⟨t, -, ht⟩ := regFld_paceWindow (s := s) (rs := rs) hd
  exact (ht .telPaceDie 0 16 4 (by simp)).trans (regFld_paceDie_place (hd.trans (by decide)))

theorem regFld_paceWindow_min (hd : d < 8) :
    regFld (paceWindow s rs) ⟨.telPaceMin, d, 0⟩ 0 12
      = min (regFld s ⟨.telPaceMin, d, 0⟩ 0 12) (lowestOf (nth [] rs d)).1 % 2 ^ 12 := by
  obtain ⟨t, hbefore, ht⟩ := regFld_paceWindow (s := s) (rs := rs) hd
  have hkeep : regFld t ⟨.telPaceMin, d, 0⟩ 0 12 = regFld s ⟨.telPaceMin, d, 0⟩ 0 12 :=
    congrArg (bitsOf · 0 12) (congrFun (congrFun hbefore .telPaceMin) 0)
  rw [← hkeep]
  exact (ht .telPaceMin 0 0 12 (by simp)).trans (regFld_paceDie_min (hd.trans (by decide)))

theorem regFld_paceWindow_pkg :
    regFld (paceWindow s rs) ⟨.telPacePkg, 0, 0⟩ 0 12 = (lowestOf (dieLowest rs)).1 % 2 ^ 12 := by
  rw [paceWindow_eq, regFld_regPut_disjoint (by decide) (by decide), regFld_regPut_same (by decide)]

theorem regFld_paceWindow_pkgDie :
    regFld (paceWindow s rs) ⟨.telPacePkg, 0, 0⟩ 12 3 = (lowestOf (dieLowest rs)).2 % 2 ^ 3 := by
  rw [paceWindow_eq, regFld_regPut_same (by decide)]

/-- A window's end changes registers alone. -/
theorem paceWindow_keeps {β : Type} (view : State → β) (h : ∀ s r v, view (regSet s r v) = view s) :
    view (paceWindow s rs) = view s := by
  have hput (s : State) (r : Reg) (lo len x : Nat) : view (regPut s r lo len x) = view s := h ..
  have hdie (s : State) (d : Nat) : view (paceDie s d (nth [] rs d)) = view s := by
    rw [paceDie_eq, hput, paceLowest, hput, hput, paceSensors]
    exact forEach_keeps _ view _ _ fun s n => hput ..
  rw [paceWindow_eq, hput, hput, paceDies]
  exact forEach_keeps _ view _ _ hdie

end

/-! ### Indices -/

section
variable {s : State} {rs : List (List Nat)} {d n x : Nat} {r : List Nat}

/-- The indices of a die's sensors, from their ring rates. -/
def dieIndices (s : State) (d : Nat) (r : List Nat) : List Nat := r.mapIdx fun n v => paceIndex s d n v

/-- The indices of every die's sensors. -/
def paceIndices (s : State) (rs : List (List Nat)) : List (List Nat) := rs.mapIdx (dieIndices s)

theorem paceIndex_lt (s : State) (d n rate : Nat) : paceIndex s d n rate < 2 ^ 12 := by
  unfold paceIndex; omega

theorem nth_eq_of_getElem? {α : Type} {a v : α} {l : List α} (h : l[n]? = some v) : nth a l n = v := by simp [nth, h]

theorem nth_paceIndices (h : rs[d]? = some r) : nth [] (paceIndices s rs) d = dieIndices s d r :=
  nth_eq_of_getElem? (by simp [paceIndices, h])

theorem getElem?_dieIndices (h : r[n]? = some x) : (dieIndices s d r)[n]? = some (paceIndex s d n x) := by
  simp [dieIndices, h]

theorem dieIndices_ne_nil (h : r ≠ []) : dieIndices s d r ≠ [] := by simpa [dieIndices] using h

/-- The lowest index of a die is that of one of its sensors, and none is lower. -/
theorem lowestOf_dieIndices (h : r ≠ []) :
    ∃ x, r[(lowestOf (dieIndices s d r)).2]? = some x
      ∧ (lowestOf (dieIndices s d r)).1 = paceIndex s d (lowestOf (dieIndices s d r)).2 x := by
  have hget := getElem?_lowestOf (dieIndices_ne_nil (s := s) (d := d) h)
  rw [dieIndices, List.getElem?_mapIdx, Option.map_eq_some_iff] at hget
  obtain ⟨x, hx, hv⟩ := hget
  exact ⟨x, hx, hv.symm⟩

theorem lowestOf_dieIndices_lt (h : r ≠ []) : (lowestOf (dieIndices s d r)).1 < 2 ^ 12 := by
  obtain ⟨x, -, hx⟩ := lowestOf_dieIndices (s := s) (d := d) h
  rw [hx]; exact paceIndex_lt ..

theorem getElem?_dieLowest (h : rs[d]? = some r) :
    (dieLowest (paceIndices s rs))[d]? = some (lowestOf (dieIndices s d r)).1 := by
  simp [dieLowest, paceIndices, h]

end

/-- The window's readings are complete: sixteen ring rates of each of eight dies. -/
def PaceComplete (rs : List (List Nat)) : Prop := rs.length = 8 ∧ ∀ r ∈ rs, r.length = 16

section
variable {s : State} {rs : List (List Nat)} {d : Nat} {r : List Nat}

theorem doPaceWindowEnd_of_complete (hp : s.pwr.powered = true) (h : PaceComplete rs) :
    doPaceWindowEnd rs s = paceWindow s (paceIndices s rs) := by
  obtain ⟨hlen, hall⟩ := h
  exact if_pos ⟨hp, hlen, by simpa using hall⟩

theorem doPaceWindowEnd_of_incomplete (h : s.pwr.powered = false ∨ rs.length ≠ 8 ∨ ∃ r ∈ rs, r.length ≠ 16) :
    doPaceWindowEnd rs s = s := by
  refine if_neg ?_
  rintro ⟨hp, hlen, hall⟩
  rcases h with h | h | ⟨r, hr, hne⟩
  · simp [h] at hp
  · exact h hlen
  · exact hne (by simpa using List.all_eq_true.1 hall r hr)

theorem PaceComplete.die_lt (h : PaceComplete rs) (hr : rs[d]? = some r) : d < 8 :=
  h.1 ▸ (List.getElem?_eq_some_iff.1 hr).1

theorem PaceComplete.length (h : PaceComplete rs) (hr : rs[d]? = some r) : r.length = 16 := h.2 r (List.mem_of_getElem? hr)

theorem PaceComplete.die_ne_nil (h : PaceComplete rs) (hr : rs[d]? = some r) : r ≠ [] := by
  rintro rfl; simpa using h.length hr

theorem PaceComplete.exists_die (h : PaceComplete rs) (hd : d < 8) : ∃ r, rs[d]? = some r :=
  ⟨_, List.getElem?_eq_getElem (h.1 ▸ hd)⟩

theorem PaceComplete.dieLowest_ne_nil (h : PaceComplete rs) : dieLowest (paceIndices s rs) ≠ [] := by
  obtain ⟨r, hr⟩ := h.exists_die (d := 0) (by decide)
  rintro hnil
  simpa [hnil] using getElem?_dieLowest (s := s) hr

/-- What TEL_PACE_DIE of a die shows: the lowest index of the die. -/
theorem regFld_window_die (h : PaceComplete rs) (hr : rs[d]? = some r) :
    regFld (paceWindow s (paceIndices s rs)) ⟨.telPaceDie, d, 0⟩ 0 12 = (lowestOf (dieIndices s d r)).1 := by
  rw [regFld_paceWindow_lowest (h.die_lt hr), nth_paceIndices hr, Nat.mod_eq_of_lt (lowestOf_dieIndices_lt (h.die_ne_nil hr))]

/-- The registers of one die at a window's end. -/
theorem window_shows_die (h : PaceComplete rs) (hr : rs[d]? = some r) :
    let u := paceWindow s (paceIndices s rs)
    (∀ n x, r[n]? = some x → regFld u ⟨.telPaceSensor, d, n⟩ 0 12 = paceIndex s d n x
        ∧ regFld u ⟨.telPaceDie, d, 0⟩ 0 12 ≤ paceIndex s d n x)
      ∧ (∃ n x, r[n]? = some x ∧ regFld u ⟨.telPaceDie, d, 0⟩ 0 12 = paceIndex s d n x
        ∧ regFld u ⟨.telPaceDie, d, 0⟩ 16 4 = n)
      ∧ regFld u ⟨.telPaceMin, d, 0⟩ 0 12
          = min (regFld s ⟨.telPaceMin, d, 0⟩ 0 12) (regFld u ⟨.telPaceDie, d, 0⟩ 0 12) := by
  have hd := h.die_lt hr
  have hne := h.die_ne_nil hr
  have hlow := regFld_window_die (s := s) h hr
  refine ⟨fun n x hx => ⟨?sensor, ?lowest⟩, ?place, ?least⟩
  case sensor =>
    have hn : n < 16 := h.length hr ▸ (List.getElem?_eq_some_iff.1 hx).1
    rw [regFld_paceWindow_sensor hd hn, nth_paceIndices hr, nth_eq_of_getElem? (getElem?_dieIndices hx),
      Nat.mod_eq_of_lt (paceIndex_lt ..)]
  case lowest =>
    rw [hlow]
    exact lowestOf_le (getElem?_dieIndices hx)
  case place =>
    obtain ⟨x, hx, hv⟩ := lowestOf_dieIndices (s := s) (d := d) hne
    have hn : (lowestOf (dieIndices s d r)).2 < 16 := h.length hr ▸ (List.getElem?_eq_some_iff.1 hx).1
    refine ⟨_, x, hx, hlow.trans hv, ?_⟩
    rw [regFld_paceWindow_place hd, nth_paceIndices hr]
    exact Nat.mod_eq_of_lt hn
  case least =>
    rw [hlow, regFld_paceWindow_min hd, nth_paceIndices hr, Nat.mod_eq_of_lt]
    exact (Nat.min_le_right ..).trans_lt (lowestOf_dieIndices_lt hne)

/-- TEL_PACE_PKG at a window's end shows the lowest of the dies and which die it is. -/
theorem window_shows_module (h : PaceComplete rs) :
    let u := paceWindow s (paceIndices s rs)
    (∃ d < 8, regFld u ⟨.telPacePkg, 0, 0⟩ 0 12 = regFld u ⟨.telPaceDie, d, 0⟩ 0 12
        ∧ regFld u ⟨.telPacePkg, 0, 0⟩ 12 3 = d)
      ∧ (∀ d < 8, regFld u ⟨.telPacePkg, 0, 0⟩ 0 12 ≤ regFld u ⟨.telPaceDie, d, 0⟩ 0 12) := by
  have hne := h.dieLowest_ne_nil (s := s)
  have hlt : (lowestOf (dieLowest (paceIndices s rs))).2 < 8 := by
    simpa [dieLowest, paceIndices, h.1] using lowestOf_lt_length hne
  obtain ⟨r, hr⟩ := h.exists_die hlt
  have hlow : (lowestOf (dieLowest (paceIndices s rs))).1
      = (lowestOf (dieIndices s (lowestOf (dieLowest (paceIndices s rs))).2 r)).1 := by
    simpa [getElem?_dieLowest hr] using (getElem?_lowestOf hne).symm
  have hpkg : regFld (paceWindow s (paceIndices s rs)) ⟨.telPacePkg, 0, 0⟩ 0 12
      = (lowestOf (dieLowest (paceIndices s rs))).1 := by
    rw [regFld_paceWindow_pkg, Nat.mod_eq_of_lt]
    rw [hlow]; exact lowestOf_dieIndices_lt (h.die_ne_nil hr)
  refine ⟨⟨_, hlt, ?_, ?_⟩, fun d hd => ?_⟩
  · rw [hpkg, regFld_window_die h hr, hlow]
  · rw [regFld_paceWindow_pkgDie]
    exact Nat.mod_eq_of_lt hlt
  · obtain ⟨r', hr'⟩ := h.exists_die hd
    rw [hpkg, regFld_window_die h hr']
    exact lowestOf_le (getElem?_dieLowest hr')

end

/-! ### The statement -/

/-- Settles O15: arbiters and brake by their equations, the pace registers by what a window's end writes to each. -/
theorem arbitersBrakeAndPace : Obligations.ArbitersBrakeAndPace := by
  refine ⟨⟨fun s l arrivals => rfl, fun s r arrivals hr => ⟨fun h => ?grantNone, fun q h => ?grantSome⟩,
      fun r x => chooseRequest_of_nothing_waiting, chooseRequest_order, fun ws p drains q => oldestOf_tier,
      fun s q => ⟨reqPrio_P0, fun p => reqPrio_step, reqPrio_background⟩, fun s r q => arrive_of_P0_full⟩,
    ⟨?levels, fun s => ⟨brakeState_steady, brakeState_ramp⟩,
      fun s d mv ns => ⟨fun hp hb hm hn => ?applied, fun h => ?notApplied⟩,
      fun s mv ns => ⟨fun hp hb hh hm hn => ?released, fun h => ?notReleased⟩,
      fun s => ⟨resumeDispatch_of_held, resumeDispatch_of_free⟩⟩,
    fun s rs => ⟨fun hp hlen hall => ?window, fun h => ?noWindow⟩⟩
  case grantNone => rw [exec_arbiterGrant, doArbiterGrant_of_not_egress hr, grantNext_of_none h]
  case grantSome => rw [exec_arbiterGrant, doArbiterGrant_of_not_egress hr, grantNext_of_some h]; rfl
  case levels => decide
  case applied => rw [exec_brakeApply, doBrakeApply_of_low hp hb hm hn]; rfl
  case notApplied => rw [exec_brakeApply, doBrakeApply_of_not_low h]
  case released => rw [exec_brakeRelease, doBrakeRelease_of_high hp hb hh hm hn]; rfl
  case notReleased => rw [exec_brakeRelease, doBrakeRelease_of_not_high h]
  case window =>
    have hc : PaceComplete rs := ⟨hlen, hall⟩
    -- The state reached stands as a variable while `commit` is read off, so that no comparison unfolds the window.
    obtain ⟨u, hu⟩ : ∃ u, u = paceWindow s (paceIndices s rs) := ⟨_, rfl⟩
    refine ⟨commit s u, by rw [exec_paceWindowEnd, doPaceWindowEnd_of_complete hp hc, hu], ?_⟩
    simp only [regFld_commit, commit_tiles, commit_parts, commit_host]
    subst hu
    obtain ⟨hpkg, hlowest⟩ := window_shows_module (s := s) hc
    exact ⟨fun d r hr => window_shows_die hc hr, hpkg, hlowest, paceWindow_keeps State.tiles fun _ _ _ => rfl,
      paceWindow_keeps State.parts fun _ _ _ => rfl, paceWindow_keeps State.host fun _ _ _ => rfl⟩
  case noWindow => rw [exec_paceWindowEnd, doPaceWindowEnd_of_incomplete h]

end Sys2Proof.Machine
end

section
/-! PROOFS. The registers that are constants and the return address of CALL (R132). -/

namespace Sys2Proof.Machine
open Sys2Proof

theorem setG_zero (x : Tile) (v : W64) : setG x 0 v = x := rfl
theorem setP_zero (x : Tile) (v : Bool) : setP x 0 v = x := rfl

section
variable {s : State} {t : TileId} {e : ParityHit} {w : W32}

theorem doNewtCall_of_executes (h : Executes s t w) (he : e ≠ .imem) (ho : (ndecode w).op = 0x17) :
    doNewtCall t e s = modTile s (liveTile s t.toNat) fun x =>
      goOn (setG x 31 (BitVec.ofNat 64 (x.pc + 1))) (branchTo x.pc (ndecode w).off) (call := true) :=
  newtRow_runs h he ho

/-- After a CALL the general registers are those of before, but for g31. -/
theorem gReg_doNewtCall (h : Executes s t w) (he : e ≠ .imem) (ho : (ndecode w).op = 0x17) (k : Nat) :
    gReg (newtOf (doNewtCall t e s) t) k
      = if k = 31 then BitVec.ofNat 64 ((newtOf s t).pc + 1) else gReg (newtOf s t) k := by
  rw [doNewtCall_of_executes h he ho, newtOf, liveTile_modTile, tileAt_modTile, if_pos rfl, gReg_goOn, gReg_setG]
  simp [newtOf]

end

/-- Settles O6: a read after a write for either register file, and CALL as a write of g31 alone. -/
theorem constantRegistersAndReturnAddress : Obligations.ConstantRegistersAndReturnAddress := by
  refine ⟨fun x v n k => ⟨gReg_zero x, setG_zero x v, gReg_setG x v n k⟩,
    fun x v n k => ⟨pReg_zero x, setP_zero x v, pReg_setP x v n k⟩, fun s t e w h he ho => ?call⟩
  have hread := gReg_doNewtCall h he ho
  refine ⟨commit s (doNewtCall t e s), exec_newtCall t e s, ?_, ?_, fun k hk => ?_⟩
  · rw [liveTile_commit, doNewtCall_of_executes h he ho, liveTile_modTile]
  · exact (hread 31).trans (if_pos rfl)
  · exact (hread k).trans (if_neg hk)

end Sys2Proof.Machine
end

section
/-! PROOFS. The instructions that wait: XWAIT (R146), BAR (R152), WEV (R140) and FENCE (R140, R153). -/

namespace Sys2Proof.Machine
open Sys2Proof

/-! ### Waits that are over, and waits that are not -/

section
variable {s : State} {l : Nat} {w : WaitFor}

/-- The state in which the newt of a tile has begun to wait, before its condition is looked at. -/
def beginWait (s : State) (l : Nat) (w : WaitFor) : State :=
  modTile s l fun x => { x with st := .waiting, wait := w, waitSince := s.now }

theorem waitFor_of_not_over (h : ¬ waitOver (beginWait s l w) l = true) : waitFor s l w = beginWait s l w :=
  waitFor_waits (Bool.eq_false_iff.2 h)

@[simp] theorem tileAt_beginWait_self :
    tileAt (beginWait s l w) l = { tileAt s l with st := .waiting, wait := w, waitSince := s.now } := by simp [beginWait]

theorem waitOver_xwait {n : Nat} :
    waitOver (beginWait s l (.xwait n)) l = true ↔ ∀ c ∈ (tileAt s l).queue, n < c.num := by
  simp [waitOver]

theorem waitOver_wev {c : Fin 16} {v : W64} :
    waitOver (beginWait s l (.wev c v)) l = true ↔ v.toNat ≤ Tbl.get 0 (tileAt s l).events c.val := by
  simp [waitOver]

theorem waitOver_fence {rd : Nat} : waitOver (beginWait s l (.fence rd)) l = true ↔ (tileAt s l).posted = 0 := by
  simp [waitOver]

end

/-! ### Waking -/

@[simp] theorem setG_bars (x : Tile) (n : Nat) (v : W64) : (setG x n v).bars = x.bars := by unfold setG; split <;> rfl
@[simp] theorem setG_part (x : Tile) (n : Nat) (v : W64) : (setG x n v).part = x.part := by unfold setG; split <;> rfl

section
variable {s : State} {t k : Nat}

theorem wake_of_not_waiting (h : (tileAt s t).st ≠ .waiting) : wake s t = s := if_neg fun hw => h hw.1

theorem wake_of_not_over (h : ¬ waitOver s t = true) : wake s t = s := if_neg fun hw => h hw.2

theorem tileAt_wake_other (h : k ≠ t) : tileAt (wake s t) k = tileAt s k := by
  unfold wake
  dsimp only
  split
  · rw [tileAt_modTile, if_neg h]
  · rfl

/-- Waking a newt changes neither its count of BARs nor its partition. -/
theorem wake_keeps_bars_part :
    (tileAt (wake s t) k).bars = (tileAt s k).bars ∧ (tileAt (wake s t) k).part = (tileAt s k).part := by
  by_cases hk : k = t
  · subst hk
    unfold wake
    dsimp only
    split
    · rw [tileAt_modTile, if_pos rfl]
      split <;> simp [goNext]
    · exact ⟨rfl, rfl⟩
  · simp [tileAt_wake_other hk]

theorem groupOf_congr {u : State} (hpart : (tileAt u k).part = (tileAt s k).part) (hparts : u.parts = s.parts)
    (hstrata : u.strata = s.strata) : groupOf u k = groupOf s k := by
  simp only [groupOf, runMembers, partAt, liveMembers, liveTile, hpart, hparts, hstrata]

theorem groupOf_wake : groupOf (wake s t) k = groupOf s k :=
  groupOf_congr wake_keeps_bars_part.2 (wake_parts s t) (wake_strata s t)

theorem waitOver_iff_of_bar (h : (tileAt s k).wait = .bar) :
    waitOver s k = true ↔ ∀ m ∈ groupOf s k, (tileAt s k).bars ≤ (tileAt s m).bars := by
  simp [waitOver, h]

/-- The newt of a tile is past its BAR, or waits in one that is not complete, so that no wake changes it. -/
def BarSettled (s : State) (k : Nat) : Prop :=
  (tileAt s k).st = .running ∨ (tileAt s k).wait = .bar ∧ ¬ waitOver s k = true

theorem BarSettled.tileAt_wake (h : BarSettled s k) (t : Nat) : tileAt (wake s t) k = tileAt s k := by
  by_cases hk : k = t
  · subst hk
    obtain hrun | ⟨-, hover⟩ := h
    · rw [wake_of_not_waiting (by simp [hrun])]
    · rw [wake_of_not_over hover]
  · exact tileAt_wake_other hk

theorem BarSettled.wake (h : BarSettled s k) (t : Nat) : BarSettled (wake s t) k := by
  have htile := h.tileAt_wake t
  refine h.imp (fun hrun => by rw [htile, hrun]) fun ⟨hbar, hover⟩ => ⟨by rw [htile, hbar], ?_⟩
  rw [waitOver_iff_of_bar hbar] at hover
  rw [waitOver_iff_of_bar (by rw [htile, hbar])]
  simpa only [groupOf_wake, wake_keeps_bars_part.1] using hover

/-- Waking the members of a step leaves a newt whose barrier is settled as it was. -/
theorem BarSettled.tileAt_wakeGroup (h : BarSettled s k) (l : Nat) : tileAt (wakeGroup s l) k = tileAt s k := by
  unfold wakeGroup forEach
  induction groupOf s l generalizing s with
  | nil => rfl
  | cons m ms ih => rw [List.foldl_cons, ih (h.wake m), h.tileAt_wake m]

theorem wakeGroup_liveTile (s : State) (l k : Nat) : liveTile (wakeGroup s l) k = liveTile s k := by
  have hstrata : (wakeGroup s l).strata = s.strata := forEach_keeps s State.strata _ _ wake_strata
  simp only [liveTile, hstrata]

end

/-! ### BAR -/

section
variable {s : State} {l : Nat}

/-- The state in which the newt of a tile has counted the BAR that it executes. -/
def countBar (s : State) (l : Nat) : State := modTile s l fun x => { x with bars := x.bars + 1 }

/-- The state after a BAR: counted, waited for, and its group's members woken. -/
def afterBar (s : State) (l : Nat) : State := wakeGroup (waitFor (countBar s l) l .bar) l

theorem tileAt_countBar_self : tileAt (countBar s l) l = { tileAt s l with bars := (tileAt s l).bars + 1 } := by
  simp [countBar]

theorem tileAt_beginBar_other {m : Nat} (h : m ≠ l) : tileAt (beginWait (countBar s l) l .bar) m = tileAt s m := by
  simp [beginWait, countBar, h]

theorem groupOf_beginBar : groupOf (beginWait (countBar s l) l .bar) l = groupOf s l :=
  groupOf_congr (by simp [tileAt_countBar_self]) rfl rfl

/-- A barrier is complete once every other member has executed the BAR that the newt executes (R152). -/
theorem waitOver_beginBar : waitOver (beginWait (countBar s l) l .bar) l = true
    ↔ ∀ m ∈ groupOf s l, m ≠ l → (tileAt s l).bars < (tileAt s m).bars := by
  rw [waitOver_iff_of_bar (by simp), groupOf_beginBar]
  refine forall₂_congr fun m _ => ?_
  by_cases hm : m = l
  · simp [hm]
  · simp [hm, tileAt_beginBar_other hm, tileAt_countBar_self]

theorem afterBar_liveTile (k : Nat) : liveTile (afterBar s l) k = liveTile s k := by
  rw [afterBar, wakeGroup_liveTile, waitFor_liveTile, countBar, liveTile_modTile]

/-- A newt whose barrier is complete goes on. -/
theorem tileAt_afterBar_of_complete (h : ∀ m ∈ groupOf s l, m ≠ l → (tileAt s l).bars < (tileAt s m).bars) :
    tileAt (afterBar s l) l
      = { goNext (tileAt (countBar s l) l) with st := .running, wait := .nothing, waitSince := s.now } := by
  have hgo := waitFor_over (waitOver_beginBar.2 h) (.inl rfl)
  have hset : BarSettled (waitFor (countBar s l) l .bar) l := .inl (by rw [hgo])
  rw [afterBar, hset.tileAt_wakeGroup, hgo]
  rfl

/-- A newt ahead of another member waits. -/
theorem tileAt_afterBar_of_incomplete (h : ∃ m ∈ groupOf s l, m ≠ l ∧ (tileAt s m).bars ≤ (tileAt s l).bars) :
    tileAt (afterBar s l) l = { tileAt (countBar s l) l with st := .waiting, wait := .bar, waitSince := s.now } := by
  have hover : ¬ waitOver (beginWait (countBar s l) l .bar) l = true := mt waitOver_beginBar.1 (by simpa using h)
  have hset : BarSettled (beginWait (countBar s l) l .bar) l := .inr ⟨by simp, hover⟩
  rw [afterBar, waitFor_of_not_over hover, hset.tileAt_wakeGroup, tileAt_beginWait_self]
  rfl

/-- Whether it waits or goes on, the newt has counted the BAR. -/
theorem bars_afterBar : (tileAt (afterBar s l) l).bars = (tileAt s l).bars + 1 := by
  by_cases h : ∀ m ∈ groupOf s l, m ≠ l → (tileAt s l).bars < (tileAt s m).bars
  · rw [tileAt_afterBar_of_complete h, tileAt_countBar_self]; rfl
  · rw [tileAt_afterBar_of_incomplete (by simpa using h), tileAt_countBar_self]

end

/-! ### What each waiting instruction does -/

section
variable {s : State} {t : TileId} {e : ParityHit} {w : W32}

theorem doNewtXwait_of_executes (h : Executes s t w) (he : e ≠ .imem) (ho : (ndecode w).op = 0x27) :
    doNewtXwait t e s = xwaitOp s (liveTile s t.toNat) (ndecode w) := newtRow_runs h he ho

theorem doNewtWev_of_executes (h : Executes s t w) (he : e ≠ .imem) (ho : (ndecode w).op = 0x2A) :
    doNewtWev t e s = waitFor s (liveTile s t.toNat)
      (.wev (Fin.ofNat 16 (ndecode w).fn) (gReg (newtOf s t) (ndecode w).ra)) := newtRow_runs h he ho

theorem doNewtFence_of_executes (h : Executes s t w) (he : e ≠ .imem) (ho : (ndecode w).op = 0x2C) :
    doNewtFence t e s = waitFor s (liveTile s t.toNat) (.fence (ndecode w).rd) := newtRow_runs h he ho

theorem doNewtBar_of_executes (h : Executes s t w) (he : e ≠ .imem) (ho : (ndecode w).op = 0x28) :
    doNewtBar t e s = afterBar s (liveTile s t.toNat) := newtRow_runs h he ho

end

section
variable {s : State} {l : Nat} {i : NInstr}

theorem xwaitOp_of_zero (h : (gReg (tileAt s l) i.ra).toNat = 0) : xwaitOp s l i = modTile s l goNext := by
  simp [xwaitOp, h]

theorem xwaitOp_of_not_issued (h : (tileAt s l).issued < (gReg (tileAt s l) i.ra).toNat) :
    xwaitOp s l i = newtFault s l 0x06 0 false := if_pos h

theorem xwaitOp_of_issued (h0 : (gReg (tileAt s l) i.ra).toNat ≠ 0)
    (h : (gReg (tileAt s l) i.ra).toNat ≤ (tileAt s l).issued) :
    xwaitOp s l i = waitFor s l (.xwait (gReg (tileAt s l) i.ra).toNat) :=
  (if_neg (Nat.not_lt.2 h)).trans (if_neg h0)

/-- A newt with nothing to wait for completes its BAR, WEV or XWAIT as it executes it. -/
theorem waitFor_goes_on {w : WaitFor} (h : waitOver (beginWait s l w) l = true)
    (hw : w = .bar ∨ (∃ c v, w = .wev c v) ∨ ∃ n, w = .xwait n) :
    (tileAt (waitFor s l w) l).st = .running ∧ (tileAt (waitFor s l w) l).pc = (goNext (tileAt s l)).pc := by
  rw [waitFor_over h hw]; exact ⟨rfl, rfl⟩

/-- A FENCE with nothing on its way clears the count of negative acknowledgements and returns it (R153). -/
theorem waitFor_fence_returns {rd : Nat} (h : (tileAt s l).posted = 0) :
    (tileAt (waitFor s l (.fence rd)) l).st = .running ∧ (tileAt (waitFor s l (.fence rd)) l).naks = 0
      ∧ (rd ≠ 0 → gReg (tileAt (waitFor s l (.fence rd)) l) rd = BitVec.ofNat 64 (tileAt s l).naks) := by
  rw [waitFor_fence_over h]
  refine ⟨rfl, rfl, fun hrd => ?_⟩
  exact (gReg_setG _ _ rd rd).trans (if_pos ⟨rfl, hrd⟩)

end

section
variable {s u : State} {t : TileId}

theorem newtOf_commit_of_liveTile (h : liveTile u t.toNat = liveTile s t.toNat) :
    newtOf (commit s u) t = tileAt u (liveTile s t.toNat) := by
  rw [newtOf, liveTile_commit, tileAt_commit, h]

theorem newtOf_commit_waitFor (w : WaitFor) :
    newtOf (commit s (waitFor s (liveTile s t.toNat) w)) t
      = tileAt (waitFor s (liveTile s t.toNat) w) (liveTile s t.toNat) :=
  newtOf_commit_of_liveTile (waitFor_liveTile s _ w _)

end

/-- Settles O11: a wait is `waitFor`, whose outcome `waitOver` decides; after a BAR the wakes of its group leave it so. -/
theorem newtWaits : Obligations.NewtWaits := by
  refine fun s t e w h he => ⟨fun ho => ?xwait, fun ho => ?wev, fun ho => ?fence, fun ho => ?bar⟩
  case xwait =>
    rw [exec_newtXwait, doNewtXwait_of_executes h he ho]
    refine ⟨fun h0 => ?_, fun hbad => ?_, fun h0 hle hq => ?_, fun h0 hle hq => ?_⟩
    · rw [xwaitOp_of_zero h0]; rfl
    · rw [xwaitOp_of_not_issued hbad]
    · rw [xwaitOp_of_issued h0 hle, waitFor_of_not_over (mt waitOver_xwait.1 (by simpa [newtOf] using hq))]; rfl
    · rw [xwaitOp_of_issued h0 hle]
      refine ⟨_, rfl, ?_⟩
      rw [newtOf_commit_waitFor]
      exact waitFor_goes_on (waitOver_xwait.2 hq) (.inr (.inr ⟨_, rfl⟩))
  case wev =>
    rw [exec_newtWev, doNewtWev_of_executes h he ho]
    refine ⟨fun hlt => ?_, fun hle => ⟨_, rfl, ?_⟩⟩
    · rw [waitFor_of_not_over (mt waitOver_wev.1 fun hle => Nat.not_le.2 hlt hle)]; rfl
    · rw [newtOf_commit_waitFor]
      exact waitFor_goes_on (waitOver_wev.2 hle) (.inr (.inl ⟨_, _, rfl⟩))
  case fence =>
    rw [exec_newtFence, doNewtFence_of_executes h he ho]
    refine ⟨fun hposted => ?_, fun hposted => ⟨_, rfl, ?_⟩⟩
    · rw [waitFor_of_not_over (mt waitOver_fence.1 hposted)]; rfl
    · rw [newtOf_commit_waitFor]
      exact waitFor_fence_returns hposted
  case bar =>
    rw [exec_newtBar, doNewtBar_of_executes h he ho]
    refine ⟨_, rfl, ?_⟩
    rw [newtOf_commit_of_liveTile (afterBar_liveTile _)]
    refine ⟨bars_afterBar, fun hbehind => ?_, fun hall => ?_⟩
    · rw [tileAt_afterBar_of_incomplete hbehind]; exact ⟨rfl, rfl⟩
    · rw [tileAt_afterBar_of_complete hall, tileAt_countBar_self]; exact ⟨rfl, rfl⟩

end Sys2Proof.Machine
end

section
/-! PROOFS. Steps, the queue of commands, the invariant and the reset state. -/

namespace Sys2Proof.Machine
open Sys2Proof

/-- Every command ends by committing the state that its meaning reaches. -/
theorem exec_commits (c : Instr) (s : State) : ∃ u, exec c s = .next (commit s u) := by
  cases c <;> exact ⟨_, rfl⟩

section
variable {s t : State}

theorem step_of_empty (h : s.pending = []) : step s = .next (commit s (tick s)) := by
  rw [step, h]; rfl

theorem tick_of_unpowered (h : s.pwr.powered = false) : tick s = advance s := by simp [tick, h]

theorem tick_of_powered (h : s.pwr.powered = true) : tick s = ingestTick (codecTick (lostTick (collTick
    (idleTick (barTick (pageTick (settleWorn (startTick (stopTick (advance s)))))))))) := by simp [tick, h]

/-- A step commits over the state that it begins from, which has the fuses of before. -/
theorem step_commits (s : State) : ∃ r u, r.fuses = s.fuses ∧ step s = .next (commit r u) := by
  cases h : s.pending with
  | nil => exact ⟨s, tick s, rfl, step_of_empty h⟩
  | cons c rest =>
    obtain ⟨u, hu⟩ := exec_commits c { s with pending := rest }
    exact ⟨{ s with pending := rest }, u, rfl, by rw [step, h]; exact hu⟩

/-- A correction that gathers no whole nanosecond leaves fabric time to the oscillator (R514). -/
theorem advance_of_small (hlo : -1000000 < s.fab.slewAcc + s.fab.slew) (hhi : s.fab.slewAcc + s.fab.slew < 1000000) :
    advance s = { s with now := s.now + 1, fab := { s.fab with slewAcc := s.fab.slewAcc + s.fab.slew } } := by
  simp only [advance]
  rw [if_neg (by omega), if_neg (by omega)]

end

theorem reset_lt_two_pow_64 (n : RegName) : n.info.reset < 2 ^ 64 := by cases n <;> decide

theorem regGet_reset (r : Reg) : regGet State.reset r = r.name.info.reset :=
  Nat.mod_eq_of_lt (reset_lt_two_pow_64 r.name)

/-- Settles O1: `step` takes the front of the queue, or `tick` passes a nanosecond. -/
theorem stepRunsTheFrontCommandOrIdles : Obligations.StepRunsTheFrontCommandOrIdles := by
  refine ⟨fun _ _ _ => rfl, fun s h hp => ?_, fun s h hp => ?_, fun s h => ?_, fun s => advance_of_small⟩
  · rw [step_of_empty h, tick_of_unpowered hp]
  · rw [step_of_empty h, tick_of_powered hp]
  · exact ⟨_, step_of_empty h, h⟩

/-- Settles O2: a step ends with `commit`, which brings the memories to their canonical form and bounds the fuses. -/
theorem everyStepKeepsInvariant : Obligations.EveryStepKeepsInvariant := by
  intro s t _ hstep
  obtain ⟨r, u, -, hu⟩ := step_commits s
  obtain rfl : commit r u = t := by simpa [hu] using hstep
  exact commit_inv r u

/-- Settles O3: `commit` keeps the queue, and of the fuses lets the security version minimum alone rise. -/
theorem everyCommandAnswersKeepsTheQueueAndTheFuses : Obligations.EveryCommandAnswersKeepsTheQueueAndTheFuses := by
  refine ⟨fun c s => ?_, fun s t hsvn hstep => ?_⟩
  · obtain ⟨u, hu⟩ := exec_commits c s
    exact ⟨commit s u, hu, commit_pending s u⟩
  · obtain ⟨r, u, hr, hu⟩ := step_commits s
    obtain rfl : commit r u = t := by simpa [hu] using hstep
    rw [← hr] at hsvn ⊢
    exact commit_fuses_keep r u hsvn

/-- Settles O4: the reset state holds nothing, so that every part of it reads as its default. -/
theorem resetMeetsTheInvariantAndEveryResetValue : Obligations.ResetMeetsTheInvariantAndEveryResetValue :=
  ⟨⟨rfl, rfl, by decide⟩, regGet_reset, fun _ => ⟨rfl, rfl, rfl⟩, fun _ => ⟨rfl, rfl⟩, fun _ => rfl, rfl, rfl, fun _ _ => rfl,
    fun _ => rfl, fun _ => rfl, fun _ => ⟨rfl, rfl⟩, rfl, rfl, rfl⟩

end Sys2Proof.Machine
end

section
/-! PROOFS. The rows of the newt instructions: what each does where it executes (R140), the guard and the decoding (R137). -/

namespace Sys2Proof.Machine
open Sys2Proof

/-! ### Rows -/

/-- A command is the row of an operation code, with what it does where the word executes. -/
def IsNewtRow (op : Nat) (row : TileId → ParityHit → Instr) (act : ParityHit → State → Nat → NInstr → State) : Prop :=
  ∀ t e s, exec (row t e) s = .next (commit s (newtRow s t e op (act e)))

section
variable {op : Nat} {row : TileId → ParityHit → Instr} {act : ParityHit → State → Nat → NInstr → State}
  {s : State} {t : TileId} {e : ParityHit} {w : W32}

/-- A row that executes does what it does to the tile that answers for the name. -/
theorem IsNewtRow.exec_of_executes (hrow : IsNewtRow op row act) (h : Executes s t w) (he : e ≠ .imem)
    (ho : (ndecode w).op = op) :
    exec (row t e) s = .next (commit s (act e s (liveTile s t.toNat) (ndecode w))) := by
  rw [hrow t e s, newtRow_runs h he ho]

theorem IsNewtRow.exec_of_not_running (hrow : IsNewtRow op row act) (h : newtRuns s (liveTile s t.toNat) = false) :
    exec (row t e) s = .next (commit s s) := by
  rw [hrow t e s, newtRow, if_pos h]

theorem IsNewtRow.exec_of_outside (hrow : IsNewtRow op row act) (h : newtRuns s (liveTile s t.toNat) = true)
    (hpc : 16384 ≤ (newtOf s t).pc) :
    exec (row t e) s = .next (commit s (newtFault s (liveTile s t.toNat) 0x02 0 false)) := by
  rw [newtOf] at hpc
  rw [hrow t e s, newtRow, if_neg (by simp [h]), if_pos hpc]

theorem IsNewtRow.exec_of_fetch_error (hrow : IsNewtRow op row act) (h : newtRuns s (liveTile s t.toNat) = true)
    (hpc : (newtOf s t).pc < 16384) :
    exec (row t .imem) s = .next (commit s (newtFault s (liveTile s t.toNat) 0x0D 0 false)) := by
  rw [newtOf] at hpc
  rw [hrow t _ s, newtRow, if_neg (by simp [h]), if_neg (Nat.not_le.2 hpc), if_pos rfl]

theorem IsNewtRow.exec_of_routine (hrow : IsNewtRow op row act) (h : newtRuns s (liveTile s t.toNat) = true)
    (he : e ≠ .imem) (hlo : 4 ≤ (newtOf s t).pc) (hhi : (newtOf s t).pc ≤ 16) :
    exec (row t e) s = .next (commit s s) := by
  rw [newtOf] at hlo hhi
  rw [hrow t e s, newtRow, if_neg (by simp [h]), if_neg (by omega), if_neg he, if_pos (by simp [routineWord, hlo, hhi])]

theorem IsNewtRow.exec_of_illegal (hrow : IsNewtRow op row act) (h : Fetches s t w) (he : e ≠ .imem)
    (hw : nlegal w = false) :
    exec (row t e) s = .next (commit s (newtFault s (liveTile s t.toNat) 0x01 0 false)) := by
  rw [hrow t e s, newtRow_illegal h hw he]

/-- A word of another operation code than the row's is not this row's. -/
theorem IsNewtRow.exec_of_other_op (hrow : IsNewtRow op row act) (h : Fetches s t w) (he : e ≠ .imem)
    (hw : nlegal w = true) (ho : (ndecode w).op ≠ op) : exec (row t e) s = .next (commit s s) := by
  obtain ⟨hrun, hpc, hroutine, hfetch⟩ := h
  rw [newtOf] at hpc hroutine hfetch
  rw [hrow t e s, newtRow, if_neg (by simp [hrun]), if_neg (Nat.not_le.2 hpc), if_neg he, if_neg (by simp [hroutine]), hfetch,
    if_neg (by simp [hw]), if_pos ho]

theorem IsNewtRow.exec_of_guard_false (hrow : IsNewtRow op row act) (h : Fetches s t w) (he : e ≠ .imem)
    (hw : nlegal w = true) (ho : (ndecode w).op = op) (hg : guardOf (newtOf s t) (ndecode w) = false) :
    exec (row t e) s = .next (commit s (newtNext s t goNext)) := by
  rw [hrow t e s, newtRow_guard h hw hg he ho]; rfl

end

/-- Each of the 48 instructions is the row of its operation code. -/
theorem exists_act_of_newtRows : ∀ row ∈ newtRows, ∃ act, IsNewtRow row.1 row.2 act := by
  simp only [newtRows, List.forall_mem_cons, List.not_mem_nil, false_imp_iff, implies_true, and_true]
  exact ⟨⟨_, fun _ _ _ => rfl⟩, ⟨_, fun _ _ _ => rfl⟩, ⟨_, fun _ _ _ => rfl⟩, ⟨_, fun _ _ _ => rfl⟩, ⟨_, fun _ _ _ => rfl⟩,
    ⟨_, fun _ _ _ => rfl⟩, ⟨_, fun _ _ _ => rfl⟩, ⟨_, fun _ _ _ => rfl⟩, ⟨_, fun _ _ _ => rfl⟩, ⟨_, fun _ _ _ => rfl⟩,
    ⟨_, fun _ _ _ => rfl⟩, ⟨_, fun _ _ _ => rfl⟩, ⟨_, fun _ _ _ => rfl⟩, ⟨_, fun _ _ _ => rfl⟩, ⟨_, fun _ _ _ => rfl⟩,
    ⟨_, fun _ _ _ => rfl⟩, ⟨_, fun _ _ _ => rfl⟩, ⟨_, fun _ _ _ => rfl⟩, ⟨_, fun _ _ _ => rfl⟩, ⟨_, fun _ _ _ => rfl⟩,
    ⟨_, fun _ _ _ => rfl⟩, ⟨_, fun _ _ _ => rfl⟩, ⟨_, fun _ _ _ => rfl⟩, ⟨_, fun _ _ _ => rfl⟩, ⟨_, fun _ _ _ => rfl⟩,
    ⟨_, fun _ _ _ => rfl⟩, ⟨_, fun _ _ _ => rfl⟩, ⟨_, fun _ _ _ => rfl⟩, ⟨_, fun _ _ _ => rfl⟩, ⟨_, fun _ _ _ => rfl⟩,
    ⟨_, fun _ _ _ => rfl⟩, ⟨_, fun _ _ _ => rfl⟩, ⟨_, fun _ _ _ => rfl⟩, ⟨_, fun _ _ _ => rfl⟩, ⟨_, fun _ _ _ => rfl⟩,
    ⟨_, fun _ _ _ => rfl⟩, ⟨_, fun _ _ _ => rfl⟩, ⟨_, fun _ _ _ => rfl⟩, ⟨_, fun _ _ _ => rfl⟩, ⟨_, fun _ _ _ => rfl⟩,
    ⟨_, fun _ _ _ => rfl⟩, ⟨_, fun _ _ _ => rfl⟩, ⟨_, fun _ _ _ => rfl⟩, ⟨_, fun _ _ _ => rfl⟩, ⟨_, fun _ _ _ => rfl⟩,
    ⟨_, fun _ _ _ => rfl⟩, ⟨_, fun _ _ _ => rfl⟩, ⟨_, fun _ _ _ => rfl⟩⟩

/-! ### The guard and the words that do not decode -/

section
variable {x : Tile} {i : NInstr} {w : W32}

/-- The W format has no PN bit: its guard is the predicate itself (R137). -/
theorem guardOf_of_wide (h : i.op = 0x11 ∨ i.op = 0x12) : guardOf x i = pReg x i.pg := if_pos h

theorem guardOf_of_narrow (h : ¬ (i.op = 0x11 ∨ i.op = 0x12)) : guardOf x i = (pReg x i.pg != i.pn) := if_neg h

/-- The operation codes from 0x30 on are reserved (R140). -/
theorem usedBits_reserved {op : Nat} (h : 0x30 ≤ op) : usedBits op = none := by
  unfold usedBits
  split_ifs
  · omega
  · omega
  · omega
  · split <;> simp at h ⊢

theorem nlegal_of_reserved (h : usedBits (ndecode w).op = none) : nlegal w = false := by simp [nlegal, h]

theorem nlegal_of_unused_bits {u : Nat} (h : usedBits (ndecode w).op = some u)
    (hbits : (w.toNat % 2 ^ 22) &&& (0x3FFFFF - u) ≠ 0) : nlegal w = false := by
  simp only [nlegal, h, beq_eq_false_iff_ne.2 hbits, Bool.false_and]

theorem fn_bits (w : W32) : bitsOf (ndecode w).fn 0 3 = w.toNat % 8 := by simp [ndecode, bitsOf]

theorem imm_bits (w : W32) : bitsOf (ndecode w).imm 9 3 = w.toNat / 512 % 8 := by simp [ndecode, bitsOf]; omega

theorem nlegal_of_cmp_reserved (ho : (ndecode w).op = 0x13) (hc : 6 ≤ w.toNat % 8) : nlegal w = false := by
  rw [nlegal, fn_bits, imm_bits, ho]
  simp [usedBits, hc]

theorem nlegal_of_cmpi_reserved (ho : (ndecode w).op = 0x14) (hc : 6 ≤ w.toNat / 512 % 8) : nlegal w = false := by
  rw [nlegal, fn_bits, imm_bits, ho]
  simp [usedBits, hc]

end

/-- Settles O7: every instruction is a row, and `newtRow` decides in the order of the statement. -/
theorem guardAndDecodingOfEveryNewtInstruction : Obligations.GuardAndDecodingOfEveryNewtInstruction := by
  refine ⟨fun row hmem s t e => ?_, fun w => ⟨fun h => nlegal_of_reserved (usedBits_reserved h),
    fun u => nlegal_of_unused_bits, nlegal_of_cmp_reserved, nlegal_of_cmpi_reserved⟩⟩
  obtain ⟨act, hrow⟩ := exists_act_of_newtRows row hmem
  refine ⟨hrow.exec_of_not_running, hrow.exec_of_outside, fun hrun hpc he => ?_, hrow.exec_of_routine,
    fun w => hrow.exec_of_illegal, fun w => hrow.exec_of_other_op, fun w hf he hw ho hwide hp => ?_,
    fun w hf he hw ho hnarrow hp => ?_⟩
  · rw [he]; exact hrow.exec_of_fetch_error hrun hpc
  · exact hrow.exec_of_guard_false hf he hw ho (by rw [guardOf_of_wide hwide, hp])
  · exact hrow.exec_of_guard_false hf he hw ho (by rw [guardOf_of_narrow hnarrow, hp, bne_self_eq_false])

/-! ### Operands by the bits of the word -/

section
variable (w : W32)

theorem minW_eq : minW = fun a b => if a.toInt ≤ b.toInt then a else b := by
  funext a b; simp only [minW, BitVec.sle_iff_toInt_le]

theorem maxW_eq : maxW = fun a b => if b.toInt ≤ a.toInt then a else b := by
  funext a b; simp only [maxW, BitVec.sle_iff_toInt_le]

/-- MOVZ places its sixteen bits by HW. -/
theorem movz_value : BitVec.ofNat 64 ((ndecode w).imm16 * 2 ^ (16 * (ndecode w).hw))
    = (w.setWidth 16).setWidth 64 <<< (16 * (ndecode w).hw) := by
  refine BitVec.eq_of_toNat_eq ?_
  simp only [BitVec.toNat_ofNat, BitVec.toNat_shiftLeft, BitVec.toNat_setWidth, Nat.shiftLeft_eq]
  rw [Nat.mod_eq_of_lt (a := w.toNat % 2 ^ 16) (by omega)]
  simp [ndecode, bitsOf]

theorem ndecode_imm16 : (ndecode w).imm16 = w.toNat % 65536 := by simp [ndecode, bitsOf]

/-- CMPI compares with its low nine bits, sign-extended. -/
theorem cmpi_immediate : BitVec.ofInt 64 (signedOf 9 (ndecode w).imm) = (w.setWidth 9).signExtend 64 := by
  simp only [ndecode, signedOf, bitsOf, BitVec.signExtend, BitVec.toInt_eq_toNat_cond, BitVec.toNat_setWidth]
  congr 1
  norm_num
  split <;> split <;> omega

/-- The six conditions of R139. -/
theorem condOf_eq {n : Nat} {c : W64 → W64 → Bool}
    (h : (n, c) ∈ ([(0, fun a b => decide (a = b)), (1, fun a b => decide (a ≠ b)),
      (2, fun a b => decide (a.toInt < b.toInt)), (3, fun a b => decide (a.toInt ≤ b.toInt)),
      (4, fun a b => decide (a.toNat < b.toNat)), (5, fun a b => decide (a.toNat ≤ b.toNat))] : List (Nat × (W64 → W64 → Bool))))
    (a b : W64) : condOf n a b = c a b := by
  simp only [List.mem_cons, Prod.mk.injEq, List.not_mem_nil, or_false] at h
  obtain ⟨rfl, rfl⟩ | ⟨rfl, rfl⟩ | ⟨rfl, rfl⟩ | ⟨rfl, rfl⟩ | ⟨rfl, rfl⟩ | ⟨rfl, rfl⟩ := h
  · exact Bool.beq_eq_decide_eq a b
  · simp [condOf, bne, Bool.beq_eq_decide_eq]
  · exact BitVec.slt_eq_decide
  · exact BitVec.sle_eq_decide
  · exact BitVec.ult_eq_decide
  · exact BitVec.ule_eq_decide

/-- The operation of PLOG on two predicates, by its code. -/
def plogOf (n : Nat) (a b : Bool) : Bool := match n with | 0 => a && b | 1 => a || b | 2 => a != b | _ => a && !b

/-- The four operations of PLOG (R139). -/
theorem plogOf_eq {n : Nat} {o : Bool → Bool → Bool}
    (h : (n, o) ∈ ([(0, fun a b => a && b), (1, fun a b => a || b), (2, fun a b => a != b),
      (3, fun a b => a && !b)] : List (Nat × (Bool → Bool → Bool)))) (a b : Bool) :
    plogOf n a b = o a b := by
  simp only [List.mem_cons, Prod.mk.injEq, List.not_mem_nil, or_false] at h
  obtain ⟨rfl, rfl⟩ | ⟨rfl, rfl⟩ | ⟨rfl, rfl⟩ | ⟨rfl, rfl⟩ := h <;> rfl

end

/-! ### Arithmetic and predicates -/

section
variable {op : Nat} {row : TileId → ParityHit → Instr} {f : W64 → W64 → W64} {s : State} {t : TileId} {e : ParityHit} {w : W32}

theorem exec_aluRR (hrow : IsNewtRow op row fun _ => aluRR f) (h : Executes s t w) (he : e ≠ .imem) (ho : (ndecode w).op = op) :
    exec (row t e) s = .next (commit s (newtNext s t fun x =>
      goNext (setG x (ndecode w).rd (f (gReg x (ndecode w).ra) (gReg x (ndecode w).rb))))) :=
  hrow.exec_of_executes h he ho

theorem exec_aluRI (hrow : IsNewtRow op row fun _ => aluRI f) (h : Executes s t w) (he : e ≠ .imem) (ho : (ndecode w).op = op) :
    exec (row t e) s = .next (commit s (newtNext s t fun x =>
      goNext (setG x (ndecode w).rd (f (gReg x (ndecode w).ra) ((w.setWidth 12).signExtend 64))))) := by
  rw [← ndecode_simm]
  exact hrow.exec_of_executes h he ho

end

/-- Settles O5: each instruction is a row whose action is `scalar` of its result, read off the bits of the word. -/
theorem newtArithmeticAndPredicateResults : Obligations.NewtArithmeticAndPredicateResults := by
  refine ⟨⟨?regs, ?imms, fun s t e w h he ho => ?movz, fun s t e w h he ho => ?movk, fun s t e w h he ho => ?nop⟩,
    fun s t e w c h he hc ho => ?cmp, fun s t e w c h he hc ho => ?cmpi, fun s t e w o h he hop ho => ?plog⟩
  case regs =>
    intro row hmem s t e w
    have hrow : IsNewtRow row.1 row.2.1 fun _ => aluRR row.2.2 := by
      revert row
      simp only [List.forall_mem_cons, List.not_mem_nil, false_imp_iff, implies_true, and_true, ← minW_eq, ← maxW_eq]
      exact ⟨fun _ _ _ => rfl, fun _ _ _ => rfl, fun _ _ _ => rfl, fun _ _ _ => rfl, fun _ _ _ => rfl, fun _ _ _ => rfl,
        fun _ _ _ => rfl, fun _ _ _ => rfl, fun _ _ _ => rfl, fun _ _ _ => rfl, fun _ _ _ => rfl⟩
    exact exec_aluRR hrow
  case imms =>
    intro row hmem s t e w
    have hrow : IsNewtRow row.1 row.2.1 fun _ => aluRI row.2.2 := by
      revert row
      simp only [List.forall_mem_cons, List.not_mem_nil, false_imp_iff, implies_true, and_true]
      exact ⟨fun _ _ _ => rfl, fun _ _ _ => rfl, fun _ _ _ => rfl, fun _ _ _ => rfl, fun _ _ _ => rfl⟩
    exact exec_aluRI hrow
  case movz =>
    rw [← movz_value, IsNewtRow.exec_of_executes (fun _ _ _ => rfl) h he ho]; rfl
  case movk =>
    rw [← ndecode_imm16, IsNewtRow.exec_of_executes (fun _ _ _ => rfl) h he ho]; rfl
  case nop => rw [IsNewtRow.exec_of_executes (fun _ _ _ => rfl) h he ho]; rfl
  case cmp =>
    have hcond : bitsOf (ndecode w).fn 0 3 = (ndecode w).fn % 8 := by simp [bitsOf]
    simp only [← condOf_eq hc, ← hcond]
    rw [IsNewtRow.exec_of_executes (fun _ _ _ => rfl) h he ho]; rfl
  case cmpi =>
    simp only [← condOf_eq hc, ← imm_bits, ← cmpi_immediate]
    rw [IsNewtRow.exec_of_executes (fun _ _ _ => rfl) h he ho]; rfl
  case plog =>
    simp only [← plogOf_eq hop]
    rw [IsNewtRow.exec_of_executes (fun _ _ _ => rfl) h he ho]; rfl

end Sys2Proof.Machine
end

section
/-! PROOFS. The newt's control flow (R140, R141), scratch memory (R134) and what the register instructions leave. -/

namespace Sys2Proof.Machine
open Sys2Proof

/-- An update of a tile is what it does to the tile that stands there. -/
theorem modTile_congr {s : State} {l : Nat} {f g : Tile → Tile} (h : f (tileAt s l) = g (tileAt s l)) :
    modTile s l f = modTile s l g := by
  simp only [tileAt] at h
  simp only [modTile, Tbl.upd, h]

/-! ### The counters of loop bodies -/

section
variable {call ret br : Bool} {pc nxt : Nat} {b : LoopEntry} {es : List LoopEntry}

/-- An instruction that is at no last address, and returns from no CALL at one, leaves the bodies. -/
theorem loopEnd_elsewhere (h : ∀ e ∈ es, pc ≠ e.last) : loopEnd false false br pc es nxt = (es, nxt) := by
  induction es with
  | nil => rfl
  | cons e es ih =>
    have hne : pc ≠ e.last := h e List.mem_cons_self
    simp [loopEnd, hne, ih fun k hk => h k (List.mem_cons_of_mem e hk)]

/-- The instruction completes the pass of the innermost body: it is at the last address and no CALL, or the return from one. -/
def passEnds (call ret : Bool) (pc nxt : Nat) (b : LoopEntry) : Bool :=
  (pc == b.last && !call) || (ret && b.calling && nxt == b.last + 1)

theorem loopEnd_again (h : passEnds call ret pc nxt b = true) (hleft : b.left ≠ 0) :
    loopEnd call ret br pc (b :: es) nxt = ({ b with left := b.left - 1, calling := false } :: es, b.start) := by
  rw [passEnds] at h
  rw [loopEnd, if_pos h, if_neg hleft]

theorem loopEnd_last (h : passEnds call ret pc nxt b = true) (hleft : b.left = 0) :
    loopEnd call ret br pc (b :: es) nxt = loopEnd call ret br pc es (if br && pc == b.last then pc + 1 else nxt) := by
  rw [passEnds] at h
  rw [loopEnd, if_pos h, if_pos hleft]

theorem loopEnd_passes (h : passEnds call ret pc nxt b = false) :
    loopEnd call ret br pc [b] nxt = ([{ b with calling := b.calling || (call && pc == b.last) }], nxt) := by
  rw [passEnds] at h
  rw [loopEnd, if_neg (by simp [h])]
  rfl

end

section
variable {x : Tile} {b : LoopEntry} {r : List LoopEntry} {tgt : Nat}

theorem goNext_elsewhere (hpc : x.pc < 2 ^ 31) (h : ∀ b ∈ x.loops, x.pc ≠ b.last) : goNext x = { x with pc := x.pc + 1 } := by
  rw [goNext, goOn, loopEnd_elsewhere h, Nat.mod_eq_of_lt (by omega)]

theorem goNext_again (hl : x.loops = b :: r) (hlast : x.pc = b.last) (hleft : b.left ≠ 0) (hb : b.start < 2 ^ 32) :
    goNext x = { x with loops := { b with left := b.left - 1, calling := false } :: r, pc := b.start } := by
  rw [goNext, goOn, hl, loopEnd_again (by simp [passEnds, hlast]) hleft, Nat.mod_eq_of_lt hb]

theorem goNext_last (hl : x.loops = b :: r) (hlast : x.pc = b.last) (hleft : b.left = 0) :
    goNext x = goNext { x with loops := r } := by
  rw [goNext, goOn, hl, loopEnd_last (by simp [passEnds, hlast]) hleft]
  rfl

/-- A taken branch at the last address of the last pass goes on behind the body. -/
theorem goOn_br_last (hpc : x.pc < 2 ^ 31) (hl : x.loops = [b]) (hlast : x.pc = b.last) (hleft : b.left = 0) :
    goOn x tgt (br := true) = { x with loops := [], pc := x.pc + 1 } := by
  rw [goOn, hl, loopEnd_last (by simp [passEnds, hlast]) hleft, if_pos (by simp [hlast]), loopEnd,
    Nat.mod_eq_of_lt (by omega)]

theorem goOn_br_again (hl : x.loops = [b]) (hlast : x.pc = b.last) (hleft : b.left ≠ 0) (hb : b.start < 2 ^ 32) :
    goOn x tgt (br := true) = { x with loops := [{ b with left := b.left - 1, calling := false }], pc := b.start } := by
  rw [goOn, hl, loopEnd_again (by simp [passEnds, hlast]) hleft, Nat.mod_eq_of_lt hb]

/-- A CALL at the last address is noted in the body that it leaves. -/
theorem goOn_call_last (hl : x.loops = [b]) (hlast : x.pc = b.last) (ht : tgt < 2 ^ 32) :
    goOn x tgt (call := true) = { x with loops := [{ b with calling := true }], pc := tgt } := by
  rw [goOn, hl, loopEnd_passes (by simp [passEnds]), Nat.mod_eq_of_lt ht]
  simp [hlast]

theorem goOn_ret_again (hl : x.loops = [b]) (hcall : b.calling = true) (hleft : b.left ≠ 0) (hb : b.start < 2 ^ 32) :
    goOn x (b.last + 1) (ret := true)
      = { x with loops := [{ b with left := b.left - 1, calling := false }], pc := b.start } := by
  rw [goOn, hl, loopEnd_again (by simp [passEnds, hcall]) hleft, Nat.mod_eq_of_lt hb]

theorem goOn_ret_elsewhere (hl : x.loops = [b]) (hlast : x.pc ≠ b.last) (hcall : b.calling = false) (ht : tgt < 2 ^ 32) :
    goOn x tgt (ret := true) = { x with pc := tgt } := by
  rw [goOn, hl, loopEnd_passes (by simp [passEnds, hlast, hcall]), Nat.mod_eq_of_lt ht]
  obtain ⟨start, last, left, calling⟩ := b
  obtain rfl : calling = false := hcall
  simp

end

/-! ### BR, CALL, RET and LOOP -/

section
variable {s : State} {l : Nat} {i : NInstr}

theorem ndecode_off (w : W32) : (ndecode w).off = (w.setWidth 22).toInt := by
  simp only [ndecode, signedOf, BitVec.toInt_eq_toNat_cond, BitVec.toNat_setWidth]
  norm_num
  split <;> split <;> omega

/-- A body length that is zero or negative, as LOOP reads it. -/
theorem ndecode_imm_nonpos (w : W32) : ((ndecode w).imm = 0 ∨ 2047 < (ndecode w).imm) ↔ (w.setWidth 12).toInt ≤ 0 := by
  simp only [ndecode, bitsOf, BitVec.toInt_eq_toNat_cond, BitVec.toNat_setWidth]
  norm_num
  split <;> omega

theorem brOp_of_exit {b : LoopEntry} {r : List LoopEntry} (hl : (tileAt s l).loops = b :: r)
    (hin : b.start ≤ (tileAt s l).pc ∧ (tileAt s l).pc ≤ b.last)
    (hout : ¬ (b.start ≤ branchTo (tileAt s l).pc i.off ∧ branchTo (tileAt s l).pc i.off ≤ b.last)) :
    brOp s l i = newtFault s l 0x05 0 false := by
  simp only [brOp, hl]
  exact if_pos ⟨hin.1, hin.2, hout⟩

theorem brOp_of_stay (h : ∀ b r, (tileAt s l).loops = b :: r → b.start ≤ (tileAt s l).pc → (tileAt s l).pc ≤ b.last →
      b.start ≤ branchTo (tileAt s l).pc i.off ∧ branchTo (tileAt s l).pc i.off ≤ b.last) :
    brOp s l i = modTile s l fun x => goOn x (branchTo (tileAt s l).pc i.off) (br := true) := by
  cases hl : (tileAt s l).loops with
  | nil => simp only [brOp, hl]
  | cons b r =>
    simp only [brOp, hl]
    exact if_neg fun ⟨hlo, hhi, hout⟩ => hout (h b r hl hlo hhi)

theorem loopOp_of_bad_length (h : i.imm = 0 ∨ 2047 < i.imm) : loopOp s l i = newtFault s l 0x01 0 false := if_pos h

section
variable (h : ¬ (i.imm = 0 ∨ 2047 < i.imm))
include h

theorem loopOp_of_deep (hdeep : 4 ≤ (tileAt s l).loops.length) : loopOp s l i = newtFault s l 0x04 0 false :=
  (if_neg h).trans (if_pos hdeep)

variable (hroom : (tileAt s l).loops.length < 4)
include hroom

theorem loopOp_of_zero (hn : (gReg (tileAt s l) i.ra).toNat = 0) :
    loopOp s l i = modTile s l fun x => goOn x (x.pc + 1 + i.imm) :=
  (if_neg h).trans ((if_neg (Nat.not_le.2 hroom)).trans (if_pos hn))

theorem loopOp_of_count (hn : (gReg (tileAt s l) i.ra).toNat ≠ 0) :
    loopOp s l i = modTile s l fun x =>
      { x with loops := ⟨x.pc + 1, x.pc + i.imm, (gReg (tileAt s l) i.ra).toNat - 1, false⟩ ::
                 (loopEnd false false false x.pc x.loops (x.pc + 1)).1
               pc := (loopEnd false false false x.pc x.loops (x.pc + 1)).2 } :=
  (if_neg h).trans ((if_neg (Nat.not_le.2 hroom)).trans (if_neg hn))

theorem loopOp_of_count_elsewhere (hn : (gReg (tileAt s l) i.ra).toNat ≠ 0)
    (hlast : ∀ b ∈ (tileAt s l).loops, (tileAt s l).pc ≠ b.last) :
    loopOp s l i = modTile s l fun x =>
      { x with loops := ⟨x.pc + 1, x.pc + i.imm, (gReg (tileAt s l) i.ra).toNat - 1, false⟩ :: x.loops, pc := x.pc + 1 } := by
  rw [loopOp_of_count h hroom hn]
  exact modTile_congr (by simp only [loopEnd_elsewhere hlast])

end

end

/-- Settles O8: the four rows by their actions, and the counters by `loopEnd`, body by body. -/
theorem newtControlFlowAndLoops : Obligations.NewtControlFlowAndLoops := by
  refine ⟨⟨fun s t e w tgt h he ho ht => ?br, fun s t e w tgt h he ho ht => ?call, fun s t e w h he ho => ?ret,
    fun s t e w h he ho => ?loop⟩, fun x b r tgt hpc => ⟨goNext_elsewhere hpc, goNext_again, goNext_last, goOn_br_last hpc,
      goOn_br_again, goOn_call_last, fun hl _ => goOn_ret_again hl, goOn_ret_elsewhere⟩⟩
  case br =>
    rw [← ndecode_off] at ht
    subst ht
    rw [IsNewtRow.exec_of_executes (fun _ _ _ => rfl) h he ho]
    refine ⟨fun hstay => ?_, fun b r hl hlo hhi hout => ?_⟩
    · rw [brOp_of_stay hstay]; rfl
    · rw [brOp_of_exit hl ⟨hlo, hhi⟩ hout]
  case call =>
    rw [← ndecode_off] at ht
    subst ht
    rw [IsNewtRow.exec_of_executes (fun _ _ _ => rfl) h he ho]
    exact congrArg (fun u => Host.Outcome.next (commit s u)) (modTile_congr rfl)
  case ret => rw [IsNewtRow.exec_of_executes (fun _ _ _ => rfl) h he ho]; rfl
  case loop =>
    rw [IsNewtRow.exec_of_executes (fun _ _ _ => rfl) h he ho]
    have hpos := fun hp : 0 < (w.setWidth 12).toInt => mt (ndecode_imm_nonpos w).1 (by omega)
    refine ⟨fun hlen => ?_, fun hlen hdeep => ?_, fun hlen hroom hn => ?_, fun hlen hroom hn => ?_,
      fun hlen hroom hn hlast => ?_⟩
    · rw [loopOp_of_bad_length ((ndecode_imm_nonpos w).2 hlen)]
    · rw [loopOp_of_deep (hpos hlen) hdeep]
    · rw [loopOp_of_zero (hpos hlen) hroom hn]; rfl
    · rw [loopOp_of_count (hpos hlen) hroom hn]; rfl
    · rw [loopOp_of_count_elsewhere (hpos hlen) hroom hn hlast]; rfl

/-! ### Scratch memory -/

section
variable {s : State} {l n a : Nat} {i : NInstr} {e : ParityHit}

theorem scratchAddr_of_fits {x : Tile} (ha : a = (gReg x i.ra + i.simm).toNat) (h : a % n = 0 ∧ a + n ≤ 0x8000) :
    scratchAddr x i n = some a := by subst ha; exact if_pos h

theorem scratchAddr_of_not_fits {x : Tile} (ha : a = (gReg x i.ra + i.simm).toNat) (h : a % n ≠ 0 ∨ 0x8000 < a + n) :
    scratchAddr x i n = none := by subst ha; exact if_neg (by omega)

theorem loadOp_of_addr (h : scratchAddr (tileAt s l) i n = some a) (he : e = .none) : loadOp n e s l i
    = modTile s l fun x => goNext (setG x i.rd (BitVec.ofNat 64 (leNat (bytesAt 0 x.smem a n)))) := by
  simp [loadOp, h, he]

theorem loadOp_of_parity (h : scratchAddr (tileAt s l) i n = some a) (he : e = .smem) :
    loadOp n e s l i = newtFault s l 0x0E 0 false := by simp [loadOp, h, he]

theorem loadOp_of_no_addr (h : scratchAddr (tileAt s l) i n = none) : loadOp n e s l i = newtFault s l 0x03 0 false := by
  simp [loadOp, h]

theorem storeOp_of_addr (h : scratchAddr (tileAt s l) i n = some a) : storeOp n s l i
    = modTile s l fun x => goNext { x with smem := putBytes 0 x.smem a (leBytes n (gReg x i.rd).toNat) } := by
  simp [storeOp, h]

theorem storeOp_of_no_addr (h : scratchAddr (tileAt s l) i n = none) : storeOp n s l i = newtFault s l 0x03 0 false := by
  simp [storeOp, h]

end

/-- Settles O9: loads and stores by `scratchAddr`, the address of the access where it has one. -/
theorem newtScratchAccess : Obligations.NewtScratchAccess := by
  intro s t e w a h he ha
  rw [← ndecode_simm] at ha
  refine ⟨fun row hmem ho => ?load, fun row hmem ho => ?store⟩
  case load =>
    have hrow : IsNewtRow row.1 row.2.1 fun e => loadOp row.2.2 e := by
      simp only [List.mem_cons, List.not_mem_nil, or_false] at hmem
      obtain rfl | rfl := hmem <;> exact fun _ _ _ => rfl
    rw [hrow.exec_of_executes h he ho]
    refine ⟨fun hal hin hnone => ?_, fun hal hin hpar => ?_, fun hbad => ?_⟩
    · rw [loadOp_of_addr (scratchAddr_of_fits ha ⟨hal, hin⟩) hnone]; rfl
    · rw [loadOp_of_parity (scratchAddr_of_fits ha ⟨hal, hin⟩) hpar]
    · rw [loadOp_of_no_addr (scratchAddr_of_not_fits ha hbad)]
  case store =>
    have hrow : IsNewtRow row.1 row.2.1 fun _ => storeOp row.2.2 := by
      simp only [List.mem_cons, List.not_mem_nil, or_false] at hmem
      obtain rfl | rfl := hmem <;> exact fun _ _ _ => rfl
    rw [hrow.exec_of_executes h he ho]
    refine ⟨fun hal hin => ?_, fun hbad => ?_⟩
    · rw [storeOp_of_addr (scratchAddr_of_fits ha ⟨hal, hin⟩)]; rfl
    · rw [storeOp_of_no_addr (scratchAddr_of_not_fits ha hbad)]

/-! ### What the register instructions leave -/

/-- A tile that differs from another in one general register or one predicate at most. -/
def WritesOnly (k kp : Nat) (x y : Tile) : Prop := y = x ∨ (∃ v, y = setG x k v) ∨ ∃ b, y = setP x kp b

section
variable {k kp : Nat} {x y : Tile}

theorem WritesOnly.gReg_eq (h : WritesOnly k kp x y) {n : Nat} (hn : n ≠ k) : gReg y n = gReg x n := by
  obtain rfl | ⟨v, rfl⟩ | ⟨b, rfl⟩ := h
  · rfl
  · rw [gReg_setG, if_neg fun h => hn h.1]
  · simp only [gReg, setP_g]

theorem WritesOnly.pReg_eq (h : WritesOnly k kp x y) {n : Nat} (hn : n ≠ kp) : pReg y n = pReg x n := by
  obtain rfl | ⟨v, rfl⟩ | ⟨b, rfl⟩ := h
  · rfl
  · simp only [pReg, setG_p]
  · rw [pReg_setP, if_neg fun h => hn h.1]

theorem WritesOnly.rest_eq (h : WritesOnly k kp x y) :
    y.smem = x.smem ∧ y.acc = x.acc ∧ y.ob = x.ob ∧ y.queue = x.queue ∧ y.st = x.st := by
  obtain rfl | ⟨v, rfl⟩ | ⟨b, rfl⟩ := h <;> simp

end

/-- An action that writes one general register or one predicate of its newt, named by the instruction, and goes on. -/
def IsRegisterAction (dst pdst : NInstr → Nat) (act : ParityHit → State → Nat → NInstr → State) : Prop :=
  ∀ e s l i, ∃ f : Tile → Tile, act e s l i = modTile s l (fun x => goNext (f x)) ∧ ∀ x, WritesOnly (dst i) (pdst i) x (f x)

section
variable {dst pdst : NInstr → Nat}

theorem isRegisterAction_nop : IsRegisterAction dst pdst fun _ => scalar fun x _ => x :=
  fun _ _ _ _ => ⟨_, rfl, fun _ => .inl rfl⟩

theorem isRegisterAction_setG (f : Tile → NInstr → W64) :
    IsRegisterAction dst pdst fun _ => scalar fun x i => setG x (dst i) (f x i) :=
  fun _ _ _ _ => ⟨_, rfl, fun _ => .inr (.inl ⟨_, rfl⟩)⟩

theorem isRegisterAction_setP (f : Tile → NInstr → Bool) :
    IsRegisterAction dst pdst fun _ => scalar fun x i => setP x (pdst i) (f x i) :=
  fun _ _ _ _ => ⟨_, rfl, fun _ => .inr (.inr ⟨_, rfl⟩)⟩

theorem isRegisterAction_time :
    IsRegisterAction NInstr.rd pdst fun _ s l i => modTile s l fun x => goNext (setG x i.rd (BitVec.ofNat 64 s.now)) :=
  fun _ _ _ _ => ⟨_, rfl, fun _ => .inr (.inl ⟨_, rfl⟩)⟩

end

/-- Settles O13: each is a row whose action writes one register of its newt, and `modTile` leaves the rest. -/
theorem newtRegisterInstructionsFrame : Obligations.NewtRegisterInstructionsFrame := by
  intro row hmem
  have hrow : ∃ act, IsNewtRow row.1 row.2.1 act ∧ IsRegisterAction row.2.2.1 row.2.2.2 act := by
    revert row
    simp only [List.forall_mem_cons, List.not_mem_nil, false_imp_iff, implies_true, and_true]
    exact ⟨⟨_, fun _ _ _ => rfl, isRegisterAction_nop⟩, ⟨_, fun _ _ _ => rfl, isRegisterAction_setG _⟩,
      ⟨_, fun _ _ _ => rfl, isRegisterAction_setG _⟩, ⟨_, fun _ _ _ => rfl, isRegisterAction_setG _⟩,
      ⟨_, fun _ _ _ => rfl, isRegisterAction_setG _⟩, ⟨_, fun _ _ _ => rfl, isRegisterAction_setG _⟩,
      ⟨_, fun _ _ _ => rfl, isRegisterAction_setG _⟩, ⟨_, fun _ _ _ => rfl, isRegisterAction_setG _⟩,
      ⟨_, fun _ _ _ => rfl, isRegisterAction_setG _⟩, ⟨_, fun _ _ _ => rfl, isRegisterAction_setG _⟩,
      ⟨_, fun _ _ _ => rfl, isRegisterAction_setG _⟩, ⟨_, fun _ _ _ => rfl, isRegisterAction_setG _⟩,
      ⟨_, fun _ _ _ => rfl, isRegisterAction_setG _⟩, ⟨_, fun _ _ _ => rfl, isRegisterAction_setG _⟩,
      ⟨_, fun _ _ _ => rfl, isRegisterAction_setG _⟩, ⟨_, fun _ _ _ => rfl, isRegisterAction_setG _⟩,
      ⟨_, fun _ _ _ => rfl, isRegisterAction_setG _⟩, ⟨_, fun _ _ _ => rfl, isRegisterAction_setG _⟩,
      ⟨_, fun _ _ _ => rfl, isRegisterAction_setG _⟩, ⟨_, fun _ _ _ => rfl, isRegisterAction_setP _⟩,
      ⟨_, fun _ _ _ => rfl, isRegisterAction_setP _⟩, ⟨_, fun _ _ _ => rfl, isRegisterAction_setP _⟩,
      ⟨_, fun _ _ _ => rfl, isRegisterAction_time⟩⟩
  obtain ⟨act, hact, hreg⟩ := hrow
  intro s u t e w h he ho hu
  obtain ⟨f, hf, hwrites⟩ := hreg e s (liveTile s t.toNat) (ndecode w)
  rw [hact.exec_of_executes h he ho, hf] at hu
  obtain rfl := Host.Outcome.next.inj hu
  have hx : newtOf (commit s (modTile s (liveTile s t.toNat) fun x => goNext (f x))) t = goNext (f (newtOf s t)) := by
    simp [newtOf]
  have hw := hwrites (newtOf s t)
  obtain ⟨hsmem, hacc, hob, hqueue, hst⟩ := hw.rest_eq
  rw [hx]
  refine ⟨fun k hk => hw.gReg_eq hk, fun k hk => hw.pReg_eq hk, hsmem, hacc, hob, hqueue, hst, fun m hm => ?_, rfl, rfl, rfl,
    devByte_commit _ _, hostByte_commit _ _⟩
  simp [hm]

end Sys2Proof.Machine
end

section
/-! PROOFS. The issue of tile commands (R143 to R147). -/

namespace Sys2Proof.Machine
open Sys2Proof

/-! ### Issue -/

section
variable {s : State} {l : Nat} {i : NInstr} {e : ParityHit} {c : TileCmd}

/-- The command that an issue builds has the instruction's operation code, for each of the seven instructions. -/
theorem buildCmd_op_of_issued {x : Tile} {n : Nat} (h : buildCmd x i n = some c)
    (ho : i.op ∈ [0x20, 0x21, 0x22, 0x23, 0x24, 0x25, 0x26]) : c.op = i.op := by
  by_cases hswap : i.op = 0x23
  · simp only [buildCmd, hswap, Option.some.injEq] at h
    rw [hswap, ← h]
  · exact buildCmd_op h (by simp only [List.mem_cons, List.not_mem_nil, or_false] at ho ⊢; omega)

theorem issueOp_of_full (h : 16 ≤ (tileAt s l).queue.length) : issueOp e s l i = beginWait s l .queueFull := by
  rw [issueOp]
  simp only [h, if_true]
  exact waitFor_of_not_over (by simp [waitOver, h])

theorem issueOp_of_no_copy (hroom : (tileAt s l).queue.length < 16)
    (h : buildCmd (tileAt s l) i ((tileAt s l).issued + 1) = none) : issueOp e s l i = newtFault s l 0x03 0 false := by
  simp [issueOp, Nat.not_le.2 hroom, h]

section
variable (hroom : (tileAt s l).queue.length < 16) (h : buildCmd (tileAt s l) i ((tileAt s l).issued + 1) = some c)
include hroom h

theorem issueOp_of_parity (he : e = .smem ∧ c.op ≠ 0x20 ∧ c.op ≠ 0x23) : issueOp e s l i = newtFault s l 0x0E 0 false := by
  simp [issueOp, Nat.not_le.2 hroom, h, he]

/-- The command takes the next number and joins the queue; SWAP toggles the read half (R143, R145). -/
theorem issueOp_of_copied (he : ¬ (e = .smem ∧ c.op ≠ 0x20 ∧ c.op ≠ 0x23)) :
    issueOp e s l i = modTile s l fun x => goNext (setG
      { x with queue := x.queue ++ [c], issued := (tileAt s l).issued + 1, masks := issueMasks x c
               half := if c.op = 0x23 then 1 - x.half else x.half } i.rd (BitVec.ofNat 64 ((tileAt s l).issued + 1))) := by
  simp only [issueOp, Nat.not_le.2 hroom, h, if_neg he, buildCmd_num h]
  rfl

end

end

/-! ### Copies at issue -/

section
variable {x : Tile} {off n : Nat}

theorem scratchCopy_of_fits (h : off % 8 = 0) (hin : off + n ≤ 0x8000) : scratchCopy x off n = some (bytesAt 0 x.smem off n) :=
  if_pos ⟨h, hin⟩

theorem scratchCopy_of_not_fits (h : off % 8 ≠ 0 ∨ 0x8000 < off + n) : scratchCopy x off n = none := if_neg (by omega)

theorem xferCopies_of_direct {d : Bytes} (hmode : fieldAt d 0 1 ≠ 1) (hcast : fieldAt d 0x20 8 / 2 ^ 62 ≠ 2) :
    xferCopies x d = some [] := by
  have hmode' : (fieldAt d 0 1 == 1) = false := beq_eq_false_iff_ne.2 hmode
  simp only [xferCopies, hmode', Bool.false_and, Bool.false_eq_true, if_false, if_neg hcast]

theorem fn_odd (w : W32) : (ndecode w).fn % 2 = 1 ↔ w.getLsbD 0 = true := by
  have hbit : w.getLsbD 0 = decide (w.toNat % 2 = 1) := by
    rw [BitVec.getLsbD, Nat.testBit_zero]
  rw [hbit, decide_eq_true_iff]
  simp [ndecode, bitsOf]

end

section
variable {x : Tile} {w : W32} {num : Nat}

theorem buildCmd_fill {m : Bytes} (ho : (ndecode w).op = 0x22) (hal : (gReg x (ndecode w).ra).toNat % 8 = 0)
    (hin : (gReg x (ndecode w).ra).toNat + 48 ≤ 0x8000)
    (hm : xferCopies x (bytesAt 0 x.smem (gReg x (ndecode w).ra).toNat 48) = some m) :
    buildCmd x (ndecode w) num = some
      { num := num, op := 0x22, unit := .fill, fn := (ndecode w).fn, half := if w.getLsbD 0 then x.half else 1 - x.half
        xfer := bytesAt 0 x.smem (gReg x (ndecode w).ra).toNat 48, bitmap := m } := by
  simp only [buildCmd, ho, scratchCopy_of_fits hal hin, hm, Option.map_some, fn_odd]

theorem buildCmd_wout {m : Bytes} (ho : (ndecode w).op = 0x24) (hal : (gReg x (ndecode w).ra).toNat % 8 = 0)
    (hin : (gReg x (ndecode w).ra).toNat + 32 ≤ 0x8000) (hbl : (gReg x (ndecode w).rb).toNat % 8 = 0)
    (hbin : (gReg x (ndecode w).rb).toNat + 48 ≤ 0x8000)
    (hm : xferCopies x (bytesAt 0 x.smem (gReg x (ndecode w).rb).toNat 48) = some m) :
    buildCmd x (ndecode w) num = some
      { num := num, op := 0x24, unit := .wout, fn := (ndecode w).fn, half := x.half
        rowMask := (setMasks x ((ndecode w).fn % 4)).1, colMask := (setMasks x ((ndecode w).fn % 4)).2
        wcb := bytesAt 0 x.smem (gReg x (ndecode w).ra).toNat 32, xfer := bytesAt 0 x.smem (gReg x (ndecode w).rb).toNat 48
        bitmap := m } := by
  simp only [buildCmd, ho, scratchCopy_of_fits hal hin, scratchCopy_of_fits hbl hbin, hm, Option.map_some]

/-- A command whose 48 bytes cannot be copied is not built. -/
theorem buildCmd_none_of_48 (ho : (ndecode w).op ∈ [0x21, 0x22, 0x26])
    (h : (gReg x (ndecode w).ra).toNat % 8 ≠ 0 ∨ 0x8000 < (gReg x (ndecode w).ra).toNat + 48) :
    buildCmd x (ndecode w) num = none := by
  simp only [List.mem_cons, List.not_mem_nil, or_false] at ho
  obtain ho | ho | ho := ho <;> simp [buildCmd, ho, scratchCopy_of_not_fits h]

theorem buildCmd_none_of_32 (ho : (ndecode w).op ∈ [0x24, 0x25])
    (h : (gReg x (ndecode w).ra).toNat % 8 ≠ 0 ∨ 0x8000 < (gReg x (ndecode w).ra).toNat + 32) :
    buildCmd x (ndecode w) num = none := by
  simp only [List.mem_cons, List.not_mem_nil, or_false] at ho
  obtain ho | ho := ho <;> simp [buildCmd, ho, scratchCopy_of_not_fits h]

theorem buildCmd_none_of_xfer (ho : (ndecode w).op = 0x24)
    (h : (gReg x (ndecode w).rb).toNat % 8 ≠ 0 ∨ 0x8000 < (gReg x (ndecode w).rb).toNat + 48) :
    buildCmd x (ndecode w) num = none := by
  simp [buildCmd, ho, scratchCopy_of_not_fits h]

end

/-- Settles O10: `issueOp` by its branches, and `buildCmd` operation code by operation code. -/
theorem tileCommandsAreIssued : Obligations.TileCommandsAreIssued := by
  refine ⟨fun row hmem s t e w h he ho => ?issue, fun x w num => ⟨fun ho => ?aclr, fun ho => ?swap, fun ho hal hin => ?mma,
    fun m => buildCmd_fill, fun m => buildCmd_wout, fun ho hal hin hwl hwin => ?vop, fun ho hal hin => ?fexp,
    buildCmd_none_of_48, buildCmd_none_of_32, buildCmd_none_of_xfer, xferCopies_of_direct⟩⟩
  case issue =>
    have hrow : IsNewtRow row.1 row.2 issueOp := by
      clear ho
      revert row
      simp only [List.forall_mem_cons, List.not_mem_nil, false_imp_iff, implies_true, and_true]
      exact ⟨fun _ _ _ => rfl, fun _ _ _ => rfl, fun _ _ _ => rfl, fun _ _ _ => rfl, fun _ _ _ => rfl, fun _ _ _ => rfl,
        fun _ _ _ => rfl⟩
    have hop : row.1 ∈ [0x20, 0x21, 0x22, 0x23, 0x24, 0x25, 0x26] := List.mem_map_of_mem (f := Prod.fst) hmem
    rw [← ho] at hop ⊢
    rw [hrow.exec_of_executes h he ho]
    refine ⟨fun c hroom hc hok => ?_, fun hfull => ?_, fun hroom hc => ?_, fun c hroom hc hpar h20 h23 => ?_⟩
    · have hcop := buildCmd_op_of_issued hc hop
      rw [issueOp_of_copied hroom hc (by rw [hcop]; rintro ⟨rfl, h20, h23⟩; simp [h20, h23] at hok), hcop]
      rfl
    · rw [issueOp_of_full hfull]; rfl
    · rw [issueOp_of_no_copy hroom hc]
    · rw [issueOp_of_parity hroom hc (by rw [buildCmd_op_of_issued hc hop]; exact ⟨hpar, h20, h23⟩)]
  case aclr => simp only [buildCmd, ho]
  case swap => simp only [buildCmd, ho]
  case mma => simp only [buildCmd, ho, scratchCopy_of_fits hal hin, Option.map_some]
  case vop => simp only [buildCmd, ho, scratchCopy_of_fits hal hin, scratchCopy_of_fits hwl hwin, Option.map_some]
  case fexp => simp only [buildCmd, ho, scratchCopy_of_fits hal hin, Option.map_some]

end Sys2Proof.Machine
end

section
/-! PROOFS. Events, markers, control registers and the newt's watchdog (R140, R142, R153 to R159). -/

namespace Sys2Proof.Machine
open Sys2Proof

/-! ### Two updates of one tile -/

section
variable {α : Type} {d : α} {t : Tbl α} {k : Nat} {v w : α}

theorem Tbl.set_set : Tbl.set (Tbl.set t k v) k w = Tbl.set t k w := by
  induction t with
  | nil => simp [Tbl.set]
  | cons e r ih =>
    obtain ⟨j, u⟩ := e
    by_cases h1 : j = k
    · simp [Tbl.set, h1]
    · by_cases h2 : k < j
      · simp [Tbl.set, h1, h2]
      · simp [Tbl.set, h1, h2, ih]

theorem Tbl.drop_set : Tbl.drop (Tbl.set t k v) k = Tbl.drop t k := by
  induction t with
  | nil => simp [Tbl.set, Tbl.drop]
  | cons e r ih =>
    obtain ⟨j, u⟩ := e
    by_cases h1 : j = k
    · simp [Tbl.set, Tbl.drop, h1]
    · by_cases h2 : k < j
      · simp [Tbl.set, Tbl.drop, h1, h2]
      · simp [Tbl.set, Tbl.drop, h1, h2, ih]

/-- The later of two writes at one key stands alone, where the earlier one was kept. -/
theorem Tbl.put_put [DecidableEq α] (h : v ≠ d) : Tbl.put d (Tbl.put d t k v) k w = Tbl.put d t k w := by
  rw [Tbl.put, Tbl.put, Tbl.put, if_neg h, Tbl.drop_set, Tbl.set_set]

end

theorem modTile_modTile {s : State} {l : Nat} {f g : Tile → Tile} (h : f (tileAt s l) ≠ {}) :
    modTile (modTile s l f) l g = modTile s l fun x => g (f x) := by
  simp only [tileAt] at h
  simp only [modTile, Tbl.upd, Tbl.get_put_self, Tbl.put_put h]

section
variable {s : State} {l : Nat} {i : NInstr}

/-! ### SEV, CSRR, CSRW, HALT -/

theorem sevOp_of_outside (h : (tileAt s l).groupSize ≤ (gReg (tileAt s l) i.ra).toNat) :
    sevOp s l i = newtFault s l 0x0A 0 false := if_pos h

/-- The event message that SEV posts to the member g[RA] of its step (R153). -/
def sevEvent (s : State) (l : Nat) (i : NInstr) : EvMsg :=
  ⟨nth 0#10 (match (partAt s ((tileAt s l).part.getD 0).val).run with | some r => r.members | none => [])
      (gReg (tileAt s l) i.ra).toNat, Fin.ofNat 16 i.fn, (tileAt s l).part.getD 0, (tileAt s l).epoch, (tileAt s l).step,
    some (toTile l), s.fab.phys, 0⟩

theorem sevOp_of_member (h : (gReg (tileAt s l) i.ra).toNat < (tileAt s l).groupSize) :
    sevOp s l i = { modTile s l fun x => goNext { x with posted := x.posted + 1 } with
                    flying := s.flying ++ [sevEvent s l i] } := if_neg (Nat.not_le.2 h)

theorem tileAt_sevOp_of_member (h : (gReg (tileAt s l) i.ra).toNat < (tileAt s l).groupSize) :
    tileAt (sevOp s l i) l = goNext { tileAt s l with posted := (tileAt s l).posted + 1 } := by
  rw [sevOp_of_member h]
  show tileAt (modTile s l fun x => goNext { x with posted := x.posted + 1 }) l = _
  rw [tileAt_modTile, if_pos rfl]

theorem liveTile_sevOp_of_member (h : (gReg (tileAt s l) i.ra).toNat < (tileAt s l).groupSize) (k : Nat) :
    liveTile (sevOp s l i) k = liveTile s k := by rw [sevOp_of_member h]; rfl

theorem sevOp_flying_of_member (h : (gReg (tileAt s l) i.ra).toNat < (tileAt s l).groupSize) :
    (sevOp s l i).flying = s.flying ++ [sevEvent s l i] := by rw [sevOp_of_member h]

theorem sevEvent_dst {p : PartId} {r : Step} {d : TileId} (hp : (tileAt s l).part = some p)
    (hr : (partAt s p.val).run = some r) (hd : r.members[(gReg (tileAt s l) i.ra).toNat]? = some d) :
    (sevEvent s l i).dst = d := by
  simp [sevEvent, hp, hr, nth, hd]

/-- The seven control registers that a newt reads (R142). -/
theorem csrValue_of_mem {c v : Nat} (h : (c, v) ∈ [(0x000, l), (0x001, ((tileAt s l).part.getD 0).val),
      (0x002, (tileAt s l).epoch.toNat), (0x003, (tileAt s l).step.toNat), (0x004, (tileAt s l).index),
      (0x005, (tileAt s l).groupSize), (0x010, regGet s ⟨.tileFpstat, l, 0⟩)]) : csrValue s l c = some v := by
  simp only [List.mem_cons, Prod.mk.injEq, List.not_mem_nil, or_false] at h
  obtain ⟨rfl, rfl⟩ | ⟨rfl, rfl⟩ | ⟨rfl, rfl⟩ | ⟨rfl, rfl⟩ | ⟨rfl, rfl⟩ | ⟨rfl, rfl⟩ | ⟨rfl, rfl⟩ := h
  case inr.inl => cases hp : (tileAt s l).part <;> simp [csrValue, hp]
  all_goals rfl

theorem csrValue_of_not_mem {c : Nat} (h : c ∉ [0x000, 0x001, 0x002, 0x003, 0x004, 0x005, 0x010]) : csrValue s l c = none := by
  simp only [csrValue]
  split <;> simp at h ⊢

theorem settleHalt_of_commands (h : (tileAt s l).queue ≠ []) : settleHalt s l = s := by
  simp [settleHalt, h]

theorem settleHalt_of_idle (hhalt : (tileAt s l).halting = true) (h : (tileAt s l).queue = []) :
    settleHalt s l = endProgram s l := by
  simp [settleHalt, hhalt, h]

theorem tileAt_endProgram : tileAt (endProgram s l) l
    = { tileAt s l with st := .ready, events := [], halting := false, wait := .nothing, loops := [], queue := [], binding := none } :=
  (tileAt_modTile s l l fun x => { x with
    st := .ready, events := [], halting := false, wait := .nothing, loops := [], queue := [], binding := none }).trans (if_pos rfl)

theorem liveTile_endProgram (k : Nat) : liveTile (endProgram s l) k = liveTile s k := rfl

/-! ### Markers -/

/-- A marker is lower than the last that the newt did not suppress (R158). -/
def markIsLow (x : Tile) (v : Nat) : Bool := match x.lastMark with | some m => decide (v < m) | none => false

/-- The newt has forwarded a marker within the microsecond that ends now (R159). -/
def markIsSoon (x : Tile) (now : Nat) : Bool := match x.lastForward with | some f => decide (now < f + 1000) | none => false

theorem markIsLow_iff {x : Tile} {v : Nat} : markIsLow x v = true ↔ ∃ m, x.lastMark = some m ∧ v < m := by
  cases h : x.lastMark <;> simp [markIsLow, h]

theorem markIsSoon_iff {x : Tile} {now : Nat} : markIsSoon x now = true ↔ ∃ f, x.lastForward = some f ∧ now < f + 1000 := by
  cases h : x.lastForward <;> simp [markIsSoon, h]

/-- The newt after a MARK that it does not suppress. -/
def marked (v : Nat) (x : Tile) : Tile := goNext { x with lastMark := some v }

theorem markOp_eq : markOp s l i =
    if markIsLow (tileAt s l) i.imm then modTile (regOr s ⟨.newtStat, l, 0⟩ 0x200) l goNext
    else if markIsSoon (tileAt s l) s.now then
      modTile (modTile s l (marked i.imm)) l fun x => { x with unsentMark := some (i.imm, s.now) }
    else sendMark (modTile s l (marked i.imm)) l i.imm s.now := rfl

theorem markOp_of_low {m : Nat} (hm : (tileAt s l).lastMark = some m) (h : i.imm < m) :
    markOp s l i = modTile (regOr s ⟨.newtStat, l, 0⟩ 0x200) l goNext := by
  rw [markOp_eq, if_pos (markIsLow_iff.2 ⟨m, hm, h⟩)]

section
variable (hmark : ∀ m, (tileAt s l).lastMark = some m → m ≤ i.imm)
include hmark

theorem not_markIsLow : ¬ markIsLow (tileAt s l) i.imm = true := fun h => by
  obtain ⟨m, hm, hlt⟩ := markIsLow_iff.1 h
  exact Nat.not_lt.2 (hmark m hm) hlt

theorem markOp_of_soon {f : Nat} (hf : (tileAt s l).lastForward = some f) (h : s.now < f + 1000) :
    markOp s l i = modTile s l fun x => { goNext x with lastMark := some i.imm, unsentMark := some (i.imm, s.now) } := by
  rw [markOp_eq, if_neg (not_markIsLow hmark), if_pos (markIsSoon_iff.2 ⟨f, hf, h⟩), modTile_modTile]
  · rfl
  · exact fun h => by simpa [marked, goNext, goOn] using congrArg Tile.lastMark h

theorem markOp_of_late (hf : ∀ f, (tileAt s l).lastForward = some f → f + 1000 ≤ s.now) :
    markOp s l i = sendMark (modTile s l (marked i.imm)) l i.imm s.now := by
  rw [markOp_eq, if_neg (not_markIsLow hmark), if_neg]
  intro h
  obtain ⟨f, hlast, hlt⟩ := markIsSoon_iff.1 h
  exact Nat.not_lt.2 (hf f hlast) hlt

end

theorem tileAt_sendMark {v time : Nat} :
    tileAt (sendMark s l v time) l = { tileAt s l with lastForward := some s.now, unsentMark := none } := by
  simp only [sendMark]
  split <;> simp

theorem liveTile_sendMark {v time : Nat} (k : Nat) : liveTile (sendMark s l v time) k = liveTile s k := by
  simp only [sendMark]
  split <;> rfl

theorem marks_sendMark {v time : Nat} {p : PartId} (hp : (tileAt s l).part = some p) :
    (partAt (sendMark s l v time) p.val).marks
      = (partAt s p.val).marks ++ [(BitVec.ofNat 10 l, (tileAt s l).step, v, time)] := by
  simp [sendMark, hp, toTile]

end

section
variable {s : State} {t : TileId}

theorem doMarkerForward_of_none (h : (newtOf s t).unsentMark = none) : doMarkerForward t s = s := by
  rw [newtOf] at h
  simp only [doMarkerForward, h]

theorem doMarkerForward_of_soon {m : Nat × Nat} {f : Nat} (h : (newtOf s t).unsentMark = some m)
    (hf : (newtOf s t).lastForward = some f) (hsoon : s.now < f + 1000) : doMarkerForward t s = s := by
  rw [newtOf] at h hf
  simp only [doMarkerForward, h, hf, if_pos hsoon]

theorem doMarkerForward_of_late {v time : Nat} (h : (newtOf s t).unsentMark = some (v, time))
    (hf : ∀ f, (newtOf s t).lastForward = some f → f + 1000 ≤ s.now) :
    doMarkerForward t s = sendMark s (liveTile s t.toNat) v time := by
  rw [newtOf] at h hf
  cases hlast : (tileAt s (liveTile s t.toNat)).lastForward with
  | none => simp only [doMarkerForward, h, hlast]
  | some f => simp only [doMarkerForward, h, hlast, if_neg (Nat.not_lt.2 (hf f hlast))]

/-! ### The watchdog -/

/-- The waits that NEWT_CTRL.WDOG bounds (R156). -/
def TimedWait (w : WaitFor) : Prop :=
  w = .bar ∨ (∃ c v, w = .wev c v) ∨ (∃ n, w = .xwait n) ∨ (∃ rd, w = .fence rd) ∨ w = .group

theorem timedWait_iff (w : WaitFor) :
    (match w with
      | .bar => true | .wev _ _ => true | .xwait _ => true | .fence _ => true | .group => true | _ => false) = true
      ↔ TimedWait w := by
  cases w <;> simp [TimedWait]

theorem doWaitTimeout_of_over (hst : (newtOf s t).st = .waiting) (hw : TimedWait (newtOf s t).wait)
    (h0 : regFld s ⟨.newtCtrl, liveTile s t.toNat, 0⟩ 0 8 ≠ 0)
    (hover : (newtOf s t).waitSince + regFld s ⟨.newtCtrl, liveTile s t.toNat, 0⟩ 0 8 * 100000 < s.now) :
    doWaitTimeout t s = newtFault s (liveTile s t.toNat) 0x0C 0 false :=
  if_pos ⟨hst, (timedWait_iff _).2 hw, h0, hover⟩

theorem doWaitTimeout_of_not_over (h : (newtOf s t).st ≠ .waiting ∨ ¬ TimedWait (newtOf s t).wait
      ∨ regFld s ⟨.newtCtrl, liveTile s t.toNat, 0⟩ 0 8 = 0
      ∨ s.now ≤ (newtOf s t).waitSince + regFld s ⟨.newtCtrl, liveTile s t.toNat, 0⟩ 0 8 * 100000) :
    doWaitTimeout t s = s := by
  refine if_neg fun ⟨hst, hw, h0, hover⟩ => ?_
  obtain h | h | h | h := h
  · exact h hst
  · exact h ((timedWait_iff _).1 hw)
  · exact h0 h
  · exact Nat.not_lt.2 h hover

end

/-- The newt of a name after a command, by the tile that then answers for it. -/
theorem newtOf_commit_at {s u : State} {t : TileId} {l : Nat} (h : liveTile u t.toNat = l) :
    newtOf (commit s u) t = tileAt u l := by subst h; rfl

/-- Settles O12: the rows by their actions; markers by `sendMark`, which keeps the record and its time. -/
theorem newtEventsMarkersAndTimeouts : Obligations.NewtEventsMarkersAndTimeouts := by
  refine ⟨fun s t e w h he => ⟨fun ho => ?sev, fun ho => ?time, fun ho => ?csrr, fun ho => ?csrw, fun ho => ?trap, fun ho => ?halt⟩,
    ⟨fun s t e w h he ho => ?mark, fun s t => ?forward⟩, fun s t => ⟨fun hst hw h0 hover => ?_, fun h => ?_⟩⟩
  case sev =>
    rw [IsNewtRow.exec_of_executes (fun _ _ _ => rfl) h he ho]
    refine ⟨fun hlt => ?_, fun hge => ?_⟩
    · refine ⟨_, rfl, ?_, sevEvent s (liveTile s t.toNat) (ndecode w), sevOp_flying_of_member hlt, rfl, rfl, rfl, rfl,
        fun p r d => sevEvent_dst⟩
      rw [newtOf_commit_at (liveTile_sevOp_of_member hlt _), tileAt_sevOp_of_member hlt]
      rfl
    · rw [sevOp_of_outside hge]
  case time => rw [IsNewtRow.exec_of_executes (fun _ _ _ => rfl) h he ho]; rfl
  case csrr =>
    rw [IsNewtRow.exec_of_executes (fun _ _ _ => rfl) h he ho]
    refine ⟨fun v hv => ?_, fun hbad => ?_⟩
    · simp only [csrValue_of_mem hv]; rfl
    · simp only [csrValue_of_not_mem hbad]
  case csrw =>
    rw [IsNewtRow.exec_of_executes (fun _ _ _ => rfl) h he ho]
    exact ⟨fun himm => by rw [if_pos himm]; rfl, fun himm => by rw [if_neg himm]⟩
  case trap => rw [IsNewtRow.exec_of_executes (fun _ _ _ => rfl) h he ho]
  case halt =>
    rw [IsNewtRow.exec_of_executes (fun _ _ _ => rfl) h he ho]
    refine ⟨fun hq => ?_, fun hq => ⟨_, rfl, ?_⟩⟩
    · rw [settleHalt_of_commands (by simpa [newtOf] using hq)]; rfl
    · rw [settleHalt_of_idle (by simp) (by simpa [newtOf] using hq), newtOf_commit_at (liveTile_endProgram _),
        liveTile_modTile, tileAt_endProgram]
      exact ⟨rfl, rfl⟩
  case mark =>
    rw [IsNewtRow.exec_of_executes (fun _ _ _ => rfl) h he ho]
    refine ⟨fun m hm hlow => ?_, fun hmark hf => ⟨_, rfl, ?_⟩, fun f hmark hf hsoon => ?_⟩
    · rw [markOp_of_low hm hlow]
    · rw [markOp_of_late hmark hf, newtOf_commit_at (liveTile_sendMark _), liveTile_modTile, tileAt_sendMark]
      have hmarked := (tileAt_modTile s _ (liveTile s t.toNat) (marked (ndecode w).imm)).trans (if_pos rfl)
      rw [hmarked]
      refine ⟨rfl, rfl, fun p hp => ?_⟩
      rw [partAt_commit, marks_sendMark (by rw [hmarked]; exact hp), hmarked]
      rfl
    · rw [markOp_of_soon hmark hf hsoon]; rfl
  case forward =>
    rw [exec_markerForward]
    refine ⟨fun hn => ?_, fun m f hm hf hsoon => ?_, fun v time hm hf => ⟨_, rfl, ?_⟩⟩
    · rw [doMarkerForward_of_none hn]
    · rw [doMarkerForward_of_soon hm hf hsoon]
    · rw [doMarkerForward_of_late hm hf, newtOf_commit_at (liveTile_sendMark _), tileAt_sendMark]
      exact ⟨rfl, rfl, fun p hp => marks_sendMark hp⟩
  · rw [exec_waitTimeout, doWaitTimeout_of_over hst hw h0 hover]
  · rw [exec_waitTimeout, doWaitTimeout_of_not_over h]

end Sys2Proof.Machine
end

section
/-! PROOFS. What the operations of the torus links leave: they change the fabric, the registers of the link blocks, what leaves the
module and the free values alone. -/

namespace Sys2Proof.Machine
open Sys2Proof

/-- A state reached by operations of the links alone. -/
def NetFrame (s t : State) : Prop :=
  (∃ (fab : Fabric) (regs : Tbl W64) (out : List Output) (fresh : Nat),
    t = { s with fab := fab, regs := regs, out := s.out ++ out, fresh := fresh })
  ∧ ∀ q : Reg, q.Fits → q.name.info.blk ≠ .lnk → regGet t q = regGet s q

namespace NetFrame

variable {s t u : State} {l : Nat}

theorem refl (s : State) : NetFrame s s := ⟨⟨s.fab, s.regs, [], s.fresh, by simp⟩, fun _ _ _ => rfl⟩

theorem trans (h : NetFrame s t) (h' : NetFrame t u) : NetFrame s u := by
  obtain ⟨⟨fab, regs, out, fresh, rfl⟩, hq⟩ := h
  obtain ⟨⟨fab', regs', out', fresh', rfl⟩, hq'⟩ := h'
  exact ⟨⟨fab', regs', out ++ out', fresh', by simp [List.append_assoc]⟩, fun q hf hb => (hq' q hf hb).trans (hq q hf hb)⟩

theorem ite {c : Prop} [Decidable c] (ht : NetFrame s t) (hu : NetFrame s u) : NetFrame s (if c then t else u) := by
  split
  · exact ht
  · exact hu

theorem forEach {α : Type} {f : State → α → State} {as : List α} (h : ∀ s, ∀ a ∈ as, NetFrame s (f s a)) (s : State) :
    NetFrame s (Machine.forEach as s f) := by
  unfold Machine.forEach
  induction as generalizing s with
  | nil => exact .refl s
  | cons a as ih =>
    exact (h s a List.mem_cons_self).trans (ih (fun s b hb => h s b (List.mem_cons_of_mem a hb)) (f s a))

/-! ### The state's operations -/

theorem fab (s : State) (f : Fabric) : NetFrame s { s with fab := f } := ⟨⟨f, s.regs, [], s.fresh, by simp⟩, fun _ _ _ => rfl⟩

theorem emit (s : State) (o : Output) : NetFrame s (Machine.emit s o) := ⟨⟨s.fab, s.regs, [o], s.fresh, rfl⟩, fun _ _ _ => rfl⟩

theorem takeFree (s : State) : NetFrame s (Machine.takeFree s).2 :=
  ⟨⟨s.fab, s.regs, [], s.fresh + 1, by simp [Machine.takeFree]⟩, fun _ _ _ => rfl⟩

theorem regSet {r : Reg} (hr : r.Fits) (hb : r.name.info.blk = .lnk) (s : State) (v : Nat) : NetFrame s (Machine.regSet s r v) :=
  ⟨⟨s.fab, _, [], s.fresh, by simp [Machine.regSet]; rfl⟩, fun q hq hblk =>
    regGet_regSet_other s r q v (Reg.key_ne hq hr fun h => hblk (h ▸ hb))⟩

theorem lnkReg {n : RegName} (hl : l < 1024) (hb : n.info.blk = .lnk) (s : State) (v : Nat) :
    NetFrame s (Machine.regSet s ⟨n, l, 0⟩ v) := .regSet (Reg.fits_of_unit hl) hb s v

end NetFrame

/-- The part of the fabric that the operations of a link leave: the clasps, the module's coordinate, the pod's extents, the chip map. -/
def fabKept (f : Fabric) : BitVec 18 × BitVec 15 × (Nat × Nat × Nat) × Tbl (Option (Option (BitVec 15))) := (f.clasps, f.phys, f.ext, f.map)

/-- A state reached by operations of the links that open and close no clasp. -/
def LinkFrame (s t : State) : Prop := NetFrame s t ∧ fabKept t.fab = fabKept s.fab

namespace LinkFrame

variable {s t u : State} {l : Nat}

theorem net (h : LinkFrame s t) : NetFrame s t := h.1

theorem refl (s : State) : LinkFrame s s := ⟨.refl s, rfl⟩

theorem trans (h : LinkFrame s t) (h' : LinkFrame t u) : LinkFrame s u := ⟨h.1.trans h'.1, h'.2.trans h.2⟩

theorem ite {c : Prop} [Decidable c] (ht : LinkFrame s t) (hu : LinkFrame s u) : LinkFrame s (if c then t else u) := by
  split
  · exact ht
  · exact hu

theorem forEach {α : Type} {f : State → α → State} {as : List α} (h : ∀ s, ∀ a ∈ as, LinkFrame s (f s a)) (s : State) :
    LinkFrame s (Machine.forEach as s f) := by
  unfold Machine.forEach
  induction as generalizing s with
  | nil => exact .refl s
  | cons a as ih =>
    exact (h s a List.mem_cons_self).trans (ih (fun s b hb => h s b (List.mem_cons_of_mem a hb)) (f s a))

theorem fab (s : State) {f : Fabric} (h : fabKept f = fabKept s.fab) : LinkFrame s { s with fab := f } := ⟨.fab s f, h⟩

theorem modLink (s : State) (l : Nat) (f : Link → Link) : LinkFrame s (Machine.modLink s l f) := .fab s rfl

theorem setJoin (s : State) (a : Nat) (j : JoinSt) : LinkFrame s (Machine.setJoin s a j) := .fab s rfl

theorem emit (s : State) (o : Output) : LinkFrame s (Machine.emit s o) := ⟨.emit s o, rfl⟩

theorem takeFree (s : State) : LinkFrame s (Machine.takeFree s).2 := ⟨.takeFree s, rfl⟩

theorem lnkReg {n : RegName} (hl : l < 1024) (hb : n.info.blk = .lnk) (s : State) (v : Nat) :
    LinkFrame s (Machine.regSet s ⟨n, l, 0⟩ v) := ⟨.lnkReg hl hb s v, rfl⟩

/-! ### Sending -/

theorem freeBuffers (s : State) (src : Option (Nat × Nat)) (n : Nat) : LinkFrame s (Machine.freeBuffers s src n) := by
  unfold Machine.freeBuffers
  split
  · split
    · exact .refl s
    · exact .modLink s _ _
  · exact .refl s

theorem sendFlit (s : State) (l ctl slot seq valid : Nat) (nak : Bool) (pay : Bytes) :
    LinkFrame s (Machine.sendFlit s l ctl slot seq valid nak pay) := (modLink s l _).trans (.emit _ _)

theorem sendCtl (s : State) (l : Nat) (r : Bytes) (nak : Bool) : LinkFrame s (Machine.sendCtl s l r nak) := .sendFlit s _ _ _ _ _ _ _

theorem sendPlainCtl (s : State) (l ty : Nat) (nak : Bool) : LinkFrame s (Machine.sendPlainCtl s l ty nak) :=
  (takeFree s).trans (.sendCtl _ _ _ _)

theorem dispatch (s : State) (m : Bytes) (prev : Option (Nat × Nat)) : LinkFrame s (Machine.dispatch s m prev).2 := by
  unfold Machine.dispatch
  split
  · exact .fab s rfl
  · exact .fab s rfl
  · exact .refl s

section
variable (hl : l < 1024)
include hl

theorem refuse (s : State) (m : Bytes) (st : Status) : LinkFrame s (Machine.refuse s m st l) := by
  have hdropped : ∀ t, LinkFrame t (regAddSat t ⟨.lnkErrcnt, l, 0⟩ 16 8 1) := fun t => .lnkReg hl rfl t _
  unfold Machine.refuse
  dsimp only
  split
  · exact hdropped s
  · split
    · exact hdropped s
    · rename_i n _
      have h := dispatch s n none
      revert h
      rcases Machine.dispatch s n none with ⟨_ | st', t⟩ <;> intro h
      · exact h
      · exact h.trans (hdropped t)

theorem sendBytes (s : State) (m : Bytes) (prev : Option (Nat × Nat)) : LinkFrame s (Machine.sendBytes s m prev l) := by
  have h := dispatch s m prev
  unfold Machine.sendBytes
  revert h
  rcases Machine.dispatch s m prev with ⟨_ | st, t⟩ <;> intro h
  · exact h
  · exact h.trans (.refuse hl t m st)

end

theorem sendMsg (s : State) (x : MsgOut) : LinkFrame s (Machine.sendMsg s x).2 := by
  unfold Machine.sendMsg
  split
  · exact .refl s
  · exact .sendBytes (by decide) s _ _

/-! ### The state of a link -/

theorem startReplay (hl : l < 1024) (s : State) : LinkFrame s (Machine.startReplay s l) := by
  unfold Machine.startReplay
  split
  · exact .refl s
  · exact (modLink s l _).trans (.lnkReg hl rfl _ _)

theorem promoteStandby (s : State) (d : Nat) : LinkFrame s (Machine.promoteStandby s d) := by
  unfold Machine.promoteStandby
  split
  · exact .refl s
  · exact .forEach (fun s l _ => .modLink s l _) s

theorem dropCut (s : State) (x : InMsg) : LinkFrame s (Machine.dropCut s x) := by
  unfold Machine.dropCut
  split
  · exact .fab s rfl
  · exact .refl s

theorem dropParts (s : State) (l : Nat) : LinkFrame s (Machine.dropParts s l) :=
  (forEach (fun s e _ => .dropCut s e.2) s).trans (.fab _ rfl)

section
variable (hl : l < 1024)
include hl

theorem moveMsg (s : State) (m : OutMsg) : LinkFrame s (Machine.moveMsg s l m) := by
  unfold Machine.moveMsg
  split
  · exact .fab s rfl
  · exact .modLink s _ _
  · exact (freeBuffers s _ _).trans (.refuse hl _ _ _)

theorem moveFlows (s : State) : LinkFrame s (Machine.moveFlows s l) :=
  (modLink s l _).trans (.forEach (fun s m _ => .moveMsg hl s m) _)

theorem leaveLink (s : State) (dest : LinkState) : LinkFrame s (Machine.leaveLink s l dest) := by
  unfold Machine.leaveLink
  dsimp only
  have hwas := ite (c := linkUsable s l = true) ((modLink s l fun k => { k with st := dest }).trans (.promoteStandby _ (linkDir l)))
    (modLink s l fun k => { k with st := dest })
  exact hwas.trans ((moveFlows hl _).trans ((dropParts _ l).trans (.modLink _ l _)))

theorem failLink (s : State) (why : Nat) : LinkFrame s (Machine.failLink s l why) :=
  (lnkReg hl rfl s _).trans (.leaveLink hl _ _)

theorem startTraining (s : State) : LinkFrame s (Machine.startTraining s l) :=
  (lnkReg hl rfl s _).trans ((lnkReg hl rfl _ _).trans (.modLink _ l _))

theorem startRetrain (s : State) (cause : Nat) : LinkFrame s (Machine.startRetrain s l cause) :=
  (lnkReg hl rfl s _).trans ((modLink _ l _).trans (.promoteStandby _ _))

theorem bypassLink (s : State) : LinkFrame s (Machine.bypassLink s l) := .leaveLink hl s _

theorem lnkCtrlWrite (s : State) (v : Nat) : LinkFrame s (Machine.lnkCtrlWrite s l v) := by
  unfold Machine.lnkCtrlWrite
  dsimp only
  have hen := fun t => ite (c := (!bitOf v 0) = true)
    (ite (c := (linkAt t l).st = .active ∨ (linkAt t l).st = .degraded ∨ (linkAt t l).st = .standby ∨ (linkAt t l).st = .retrain
      ∨ (linkAt t l).st = .failed) (leaveLink hl t .disabled) (refl t))
    (ite (c := (linkAt t l).st = .disabled ∧ claspOpen t l = true ∧ 1 < axisExtent t l) (startTraining hl t) (refl t))
  exact (lnkReg hl rfl s _).trans ((hen _).trans (.ite (.startTraining hl _) (.refl _)))

end

/-! ### Clasps and joins -/

theorem claspLinks_lt {c : Nat} (hc : c < 18) (hl : l ∈ claspLinks c) : l < 1024 := by
  simp only [claspLinks, List.mem_cons, List.not_mem_nil, or_false] at hl
  omega

theorem sendBoth (s : State) (a ty : Nat) : LinkFrame s (Machine.sendBoth s a ty) := .forEach (fun s l _ => .sendPlainCtl s l ty _) s

theorem joinReady (s : State) (a : Nat) : LinkFrame s (Machine.joinReady s a) := by
  unfold Machine.joinReady
  dsimp only
  split
  · exact (setJoin s a _).trans (.sendBoth _ _ _)
  · exact .refl s

theorem joinEnd (s : State) (a : Nat) : LinkFrame s (Machine.joinEnd s a) := by
  unfold Machine.joinEnd
  dsimp only
  split
  · exact .setJoin s a _
  · exact .refl s

theorem joinProgress (s : State) : LinkFrame s (Machine.joinProgress s) :=
  .forEach (fun s a _ => (joinReady s a).trans (.joinEnd _ a)) s

end LinkFrame

/-- Closing clasps changes the links, the clasps and the joins. -/
theorem NetFrame.closeClasps {cs : List Nat} (hcs : ∀ c ∈ cs, c < 18) (s : State) : NetFrame s (Machine.closeClasps s cs) := by
  refine (fab s _).trans ((fab _ _).trans (.forEach (fun s l hl => ?_) _))
  obtain ⟨c, hc, hlc⟩ := List.mem_flatMap.1 hl
  exact (LinkFrame.bypassLink (LinkFrame.claspLinks_lt (hcs c hc) hlc) s).net

theorem NetFrame.closeAll (s : State) : NetFrame s (Machine.closeAll s) := .closeClasps (fun _ hc => List.mem_range.1 hc) s

/-! ### Link and power commands -/

/-- Every part of the module that O60 names reads as before. -/
def StoresNothing (s t : State) : Prop :=
  t.mem = s.mem ∧ t.hostMem = s.hostMem ∧ t.tiles = s.tiles ∧ t.parts = s.parts ∧ t.host.queues = s.host.queues
    ∧ t.tier.regions = s.tier.regions ∧ t.accounts = s.accounts

namespace StoresNothing

variable {s t : State}

theorem refl (s : State) : StoresNothing s s := ⟨rfl, rfl, rfl, rfl, rfl, rfl, rfl⟩

theorem ite {c : Prop} [Decidable c] (h : c → StoresNothing s t) : StoresNothing s (if c then t else s) := by
  by_cases hc : c
  · rw [if_pos hc]; exact h hc
  · rw [if_neg hc]; exact .refl s

theorem of_net (h : NetFrame s t) : StoresNothing s t := by
  obtain ⟨⟨fab, regs, out, fresh, rfl⟩, -⟩ := h
  exact .refl s

theorem of_link (h : LinkFrame s t) : StoresNothing s t := .of_net h.net

theorem regrant (s : State) : StoresNothing s (Machine.regrant s) := by
  unfold Machine.regrant
  dsimp only
  split
  · exact .refl s
  · exact ⟨rfl, rfl, rfl, rfl, rfl, rfl, rfl⟩

theorem requestState (s : State) (v : Nat) : StoresNothing s (Machine.requestState s v) := by
  unfold Machine.requestState
  split
  · exact .refl s
  · exact regrant (regPut s vreqR 0 3 v)

end StoresNothing

section
variable (s : State) (l : LinkId) (lanes : BitVec 4) (v : W32)

theorem linkId_lt : l.val < 1024 := by omega

theorem laneFault_link (n : Fin 4) : LinkFrame s (doLaneFault l n s) := by
  unfold doLaneFault
  split
  · exact .startRetrain (linkId_lt l) s _
  · exact .failLink (linkId_lt l) s _
  · exact .refl s

theorem trainingTimeout_link : LinkFrame s (doTrainingTimeout l s) := by
  unfold doTrainingTimeout
  split
  · exact (LinkFrame.failLink (linkId_lt l) s _).trans (.joinProgress _)
  · exact .refl s

theorem retrainComplete_link : LinkFrame s (doRetrainComplete l lanes s) := by
  unfold doRetrainComplete
  dsimp only
  split
  · exact .refl s
  · split
    · exact .failLink (linkId_lt l) s _
    · exact (LinkFrame.modLink s _ _).trans (.startReplay (linkId_lt l) _)

theorem getRecord_stores_nothing (ty : Byte) : StoresNothing s (doGetRecord ty s) := by
  unfold doGetRecord
  split
  · exact .refl s
  · split
    · exact .refl s
    · exact ⟨rfl, rfl, rfl, rfl, rfl, rfl, rfl⟩

theorem joinRetry_link (a : Fin 3) : LinkFrame s (doJoinRetry a s) := by
  unfold doJoinRetry
  dsimp only
  split
  · exact .refl s
  · exact (LinkFrame.setJoin s _ _).trans (.sendBoth _ _ _)

end

/-- A command whose meaning stores nothing, ended by `commit`, changes no byte and no part that the statement names. -/
theorem StoresNothing.after_commit {s t u : State} {c : Instr} (h : StoresNothing s t) (hc : exec c s = .next (commit s t))
    (hu : exec c s = .next u) :
    (∀ x, devByte u x = devByte s x) ∧ (∀ x, hostByte u x = hostByte s x) ∧ u.tiles = s.tiles ∧ u.parts = s.parts
      ∧ u.host.queues = s.host.queues ∧ u.tier.regions = s.tier.regions ∧ u.accounts = s.accounts := by
  obtain rfl := Host.Outcome.next.inj (hc.symm.trans hu)
  obtain ⟨hmem, hhost, hrest⟩ := h
  exact ⟨fun x => by rw [devByte_commit, devByte, hmem, devByte], fun x => by rw [hostByte_commit, hostByte, hhost, hostByte], hrest⟩

/-- Settles O60: each command is a chain of link operations, or writes power alone. -/
theorem linkAndPowerCommandsStoreNothing : Obligations.LinkAndPowerCommandsStoreNothing := by
  intro s u c l n lanes v w ty a d hc hu
  have hl := linkId_lt l
  have hmeaning : ∃ t, exec c s = .next (commit s t) ∧ StoresNothing s t := by
    simp only [List.mem_cons, List.not_mem_nil, or_false] at hc
    obtain rfl | rfl | rfl | rfl | rfl | rfl | rfl | rfl | rfl | rfl | rfl | rfl | rfl | rfl | rfl | rfl | rfl | rfl | rfl | rfl
      | rfl | rfl := hc
    · exact ⟨_, rfl, .of_net (laneFault_link s l n).net⟩
    · exact ⟨_, rfl, .ite fun _ => .of_link (.modLink s _ _)⟩
    · exact ⟨_, rfl, .of_net (trainingTimeout_link s l).net⟩
    · exact ⟨_, rfl, .of_net (retrainComplete_link s l lanes).net⟩
    · exact ⟨_, rfl, .ite fun _ => .of_link (.failLink hl s _)⟩
    · exact ⟨_, rfl, .ite fun _ => .of_link (.startTraining hl s)⟩
    · exact ⟨_, rfl, .ite fun _ => .of_link (.lnkCtrlWrite hl s _)⟩
    · exact ⟨_, rfl, .ite fun _ => .of_link (.lnkCtrlWrite hl s _)⟩
    · exact ⟨_, rfl, .ite fun _ => .of_link (.lnkCtrlWrite hl s _)⟩
    · exact ⟨_, rfl, .of_net (joinRetry_link s a).net⟩
    · exact ⟨_, rfl, .ite fun _ => .of_net (.fab s _)⟩
    · exact ⟨_, rfl, .ite fun _ => .of_net (.fab s _)⟩
    · exact ⟨_, rfl, .ite fun _ => .of_link (.sendPlainCtl s _ _ _)⟩
    · exact ⟨_, rfl, .ite fun _ => .of_link (.startReplay hl s)⟩
    · exact ⟨_, rfl, .of_link (.forEach (fun s l _ => .sendCtl s l _ _) s)⟩
    · exact ⟨_, rfl, .of_link (.forEach (fun s l _ => .sendPlainCtl s l _ _) s)⟩
    · exact ⟨_, rfl, .ite fun _ => .requestState s _⟩
    · exact ⟨_, rfl, ⟨rfl, rfl, rfl, rfl, rfl, rfl, rfl⟩⟩
    · exact ⟨_, rfl, .ite fun _ => .regrant (emit (regPut s limitR 8 12 _) _)⟩
    · exact ⟨_, rfl, .ite fun _ => ⟨rfl, rfl, rfl, rfl, rfl, rfl, rfl⟩⟩
    · exact ⟨_, rfl, getRecord_stores_nothing s ty⟩
    · exact ⟨_, rfl, ⟨rfl, rfl, rfl, rfl, rfl, rfl, rfl⟩⟩
  obtain ⟨t, hexec, hstores⟩ := hmeaning
  exact hstores.after_commit hexec hu

end Sys2Proof.Machine
end

section
/-! PROOFS. Voltage states and power limits (R794 to R800, R811, R813), the loss of the input and the power-off (R802). -/

namespace Sys2Proof.Machine
open Sys2Proof

/-! ### Temperatures -/

section
variable {s : State} {d : Nat} {b : Int}

theorem foldl_max_lt {f : Nat → Int} {l : List Nat} {a b : Int} :
    l.foldl (fun m n => max m (f n)) a < b ↔ a < b ∧ ∀ n ∈ l, f n < b := by
  induction l generalizing a with
  | nil => simp
  | cons n l ih => rw [List.foldl_cons, ih, max_lt_iff, List.forall_mem_cons, and_assoc]

/-- A die is below a temperature when each of its sites is (R799). -/
theorem hottest_lt_iff : hottest s d < b ↔ ∀ n < 64, siteTemp s d n < b := by
  rw [hottest, foldl_max_lt]
  simp only [List.mem_range]
  exact ⟨fun h => h.2, fun h => ⟨h 0 (by decide), h⟩⟩

theorem allDies_iff {p : Nat → Bool} : allDies p = true ↔ ∀ d < 8, p d = true := by
  simp [allDies]

end

/-! ### The granted state -/

section
variable {s : State}

theorem inRun_iff : inRun s = true ↔ s.boot.phase = .run ∨ s.boot.phase = .pause := by
  simp [inRun]

theorem doPwrVreqWrite_of_request {v : W32} (h : s.boot.phase = .run ∨ s.boot.phase = .pause) (hv : v.toNat % 8 ≤ 5) :
    doPwrVreqWrite v s = regrant (regPut s ⟨.pwrVreq, 0, 0⟩ 0 3 (v.toNat % 8)) := by
  have hbits : bitsOf v.toNat 0 3 = v.toNat % 8 := by simp [bitsOf]
  rw [doPwrVreqWrite, if_pos (inRun_iff.2 h), requestState, hbits, if_neg (by omega)]
  rfl

theorem doPwrVreqWrite_of_ignored {v : W32} (h : 5 < v.toNat % 8 ∨ (s.boot.phase ≠ .run ∧ s.boot.phase ≠ .pause)) :
    doPwrVreqWrite v s = s := by
  have hbits : bitsOf v.toNat 0 3 = v.toNat % 8 := by simp [bitsOf]
  rw [doPwrVreqWrite]
  obtain hv | ⟨hrun, hpause⟩ := h
  · rw [requestState, hbits, if_pos hv, ite_self]
  · exact if_neg fun h => (inRun_iff.1 h).elim hrun hpause

theorem pwrSetOk_iff {c : Cmd} : pwrSetOk c = true ↔ c.fn = 0 ∧ c.byte 2 ≤ 5 ∧ 70 ≤ c.byte 3 ∧ c.byte 3 ≤ 100 := by
  simp [pwrSetOk, and_assoc]

theorem i3cAnswers_iff : i3cAnswers s = true ↔ s.pwr.powered = true ∧ clkRuns s .tel = true := by
  simp [i3cAnswers]

theorem not_i3cAnswers (h : s.pwr.powered = false ∨ clkRuns s .tel = false) : ¬ i3cAnswers s = true := by
  simp only [i3cAnswers_iff]
  rintro ⟨hp, hc⟩
  obtain h | h := h <;> simp_all

theorem wantedState_of_high (h : highAllowed s = true) :
    wantedState s = min (regFld s ⟨.pwrVreq, 0, 0⟩ 0 3) (min s.pwr.allowedPower s.pwr.allowedTherm) := by
  simp [wantedState, h, vreqR]

theorem wantedState_of_not_high (h : highAllowed s = false) :
    wantedState s = min 3 (min (regFld s ⟨.pwrVreq, 0, 0⟩ 0 3) (min s.pwr.allowedPower s.pwr.allowedTherm)) := by
  simp only [wantedState, h, vreqR, Bool.not_false, and_true]
  split <;> omega

theorem highAllowed_iff : highAllowed s = true ↔
    regFld s ⟨.pwrStat, 0, 0⟩ 32 32 * 10
        ≤ min (regFld s ⟨.pwrLimit, 0, 0⟩ 20 12) (regFld s ⟨.pwrLimit, 0, 0⟩ 8 12) * 1000 * 9
      ∧ ∀ d < 8, ∀ n < 64, signedOf 16 (regFld s ⟨.telSite, d, n⟩ 0 16) < 8500 := by
  simp only [highAllowed, Bool.and_eq_true, decide_eq_true_eq, allDies_iff, hottest_lt_iff, siteTemp]
  rfl

theorem wantedState_lt : wantedState s < 8 := by
  have hreq : regFld s vreqR 0 3 < 8 := regFld_lt
  simp only [wantedState]
  split
  · decide
  · omega

theorem regrant_of_same (h : regFld s ⟨.pwrVreq, 0, 0⟩ 8 3 = wantedState s) : regrant s = s := if_pos h.symm

theorem regrant_of_new (h : regFld s ⟨.pwrVreq, 0, 0⟩ 8 3 ≠ wantedState s) :
    regrant s = setPwr (regPut s vreqR 8 3 (wantedState s)) fun p =>
      { p with rampFrom := if s.pwr.ramping then min s.pwr.rampFrom (grantedState s) else grantedState s, ramping := true } :=
  if_neg (Ne.symm h)

/-- The state granted is the one that R795 asks for. -/
theorem regFld_regrant : regFld (regrant s) ⟨.pwrVreq, 0, 0⟩ 8 3 = wantedState s := by
  by_cases h : regFld s ⟨.pwrVreq, 0, 0⟩ 8 3 = wantedState s
  · rw [regrant_of_same h, h]
  · rw [regrant_of_new h]
    show regFld (regPut s vreqR 8 3 (wantedState s)) vreqR 8 3 = _
    rw [regFld_regPut_same (by decide)]
    exact Nat.mod_eq_of_lt wantedState_lt

end

/-- Settles O18: requests and limits by what each writes, the grant by `wantedState`. -/
theorem voltageStateAndLimits : Obligations.VoltageStateAndLimits := by
  refine ⟨fun s v => ⟨fun h hv => ?_, fun h => ?_⟩, fun s => rfl, fun s cid c hc => ?pwrSet, fun s w => ⟨fun hp hclk => ?_, fun h => ?_⟩,
    fun s => ⟨wantedState_of_high, wantedState_of_not_high⟩, fun s => highAllowed_iff,
    fun s => ⟨regFld_regrant, regrant_of_same, fun h => by rw [regrant_of_new h]; rfl⟩⟩
  · rw [exec_pwrVreqWrite, doPwrVreqWrite_of_request h hv]
  · rw [exec_pwrVreqWrite, doPwrVreqWrite_of_ignored h]
  case pwrSet =>
    rw [exec_pwrSet]
    simp only [doPwrSet, hc, pwrSetOk_iff]
    rfl
  · rw [exec_setLimit, doSetLimit, if_pos (i3cAnswers_iff.2 ⟨hp, hclk⟩)]; rfl
  · rw [exec_setLimit, doSetLimit, if_neg (not_i3cAnswers h)]

/-! ### The power-off -/

theorem cutFlash_of_none {s : State} (h : s.boot.op = none) : cutFlash s = setBoot s fun x => { x with op := none } := by
  simp only [cutFlash, h]

theorem cutFlash_fuses (s : State) : (cutFlash s).fuses = s.fuses := by
  unfold cutFlash
  dsimp only
  split <;> rfl

theorem closeAll_fuses (s : State) : (closeAll s).fuses = s.fuses := by
  obtain ⟨⟨fab, regs, out, fresh, h⟩, -⟩ := NetFrame.closeAll s
  rw [h]

theorem regFld_offState_trip (s : State) : regFld (offState s) ⟨.pwrStat, 0, 0⟩ 5 1 = regFld s ⟨.pwrStat, 0, 0⟩ 5 1 := by
  rw [offState]
  show regFld (regPut _ pwrStatR 5 1 _) pwrStatR 5 1 = _
  rw [regFld_regPut_same (by decide), Nat.mod_eq_of_lt regFld_lt]
  rfl

/-- What the closing of the clasps and the end of the phases leave. -/
theorem powerOff_of_no_flash_op {s : State} (h : s.boot.op = none) :
    ∃ sent, (powerOff s).boot = { flash := s.boot.flash } ∧ (powerOff s).fuses = s.fuses ∧ (powerOff s).hostMem = s.hostMem
      ∧ (powerOff s).clspHold = s.clspHold ∧ (powerOff s).host = { perst := s.host.perst }
      ∧ (powerOff s).pwr = { mateA := s.pwr.mateA, mateB := s.pwr.mateB, inputMv := s.pwr.inputMv }
      ∧ (powerOff s).out = s.out ++ sent
      ∧ regFld (powerOff s) ⟨.pwrStat, 0, 0⟩ 5 1 = regFld s ⟨.pwrStat, 0, 0⟩ 5 1 := by
  obtain ⟨⟨fab, regs, out, fresh, hclosed⟩, hregs⟩ := NetFrame.closeAll s
  have htrip : regFld (closeAll s) ⟨.pwrStat, 0, 0⟩ 5 1 = regFld s ⟨.pwrStat, 0, 0⟩ 5 1 :=
    congrArg (bitsOf · 5 1) (hregs ⟨.pwrStat, 0, 0⟩ ⟨by decide, by decide⟩ (by decide))
  have hoff : powerOff s = offState (setBoot (closeAll s) fun x => { x with op := none }) := by
    rw [powerOff, cutFlash_of_none (by rw [hclosed]; exact h)]
  refine ⟨out, ?_⟩
  rw [← htrip, hoff]
  refine ⟨by rw [hclosed]; rfl, by rw [hclosed]; rfl, by rw [hclosed]; rfl, by rw [hclosed]; rfl, by rw [hclosed]; rfl,
    by rw [hclosed]; rfl, by rw [hclosed]; rfl, ?_⟩
  rw [regFld_offState_trip, regFld_setBoot]

/-! ### The hold-up -/

section
variable {s : State} {mv : Nat}

theorem loseInput_of_powered (hp : s.pwr.powered = true) (hh : s.pwr.holdup = false) : loseInput s
    = applyBrake (setPwrBit { s with pwr := { s.pwr with switchOpen := true, holdup := true } } 3 true) := if_pos ⟨hp, hh⟩

theorem loseInput_of_noted (h : s.pwr.powered = false ∨ s.pwr.holdup = true) : loseInput s = s := by
  refine if_neg fun ⟨hp, hh⟩ => ?_
  obtain h | h := h <;> simp_all

/-- The input is within the bounds of R802 step 3, and both mates are closed. -/
theorem doInputReturn_of_within (hlo : 45000 < mv) (hhi : mv ≤ 60000) : doInputReturn mv s =
    if s.pwr.powered = true ∧ s.pwr.holdup = true then releaseBrake (setPwrBit { s with pwr := { s.pwr with
        inputMv := mv, mateA := true, mateB := true, switchOpen := false, holdup := false } } 3 false)
    else { s with pwr := { s.pwr with inputMv := mv, mateA := true, mateB := true } } := if_pos ⟨hlo, hhi⟩

end

/-- Settles O20: each event by the branch of its meaning; the power-off by what the closing clasps leave. -/
theorem inputLossRunsTheHoldUp : Obligations.InputLossRunsTheHoldUp := by
  refine ⟨fun s => ⟨loseInput_of_powered, loseInput_of_noted⟩, fun s mv => ⟨fun h => ?_, fun h => ?_, fun h => ?_, fun h => ?_⟩,
    fun s => ⟨rfl, rfl⟩, fun s mv => ⟨fun hp hh hlo hhi => ?_, fun h hlo hhi => ?_, fun h => ?_⟩,
    fun s => ⟨fun hp hh => ?_, fun h => ?_⟩, fun s h => ?off⟩
  · rw [exec_inputLoss, doInputLoss, if_pos h]; rfl
  · rw [exec_inputLoss, doInputLoss, if_neg (Nat.not_lt.2 h)]
  · rw [exec_inputOvervoltage, doInputOvervoltage, if_pos h]; rfl
  · rw [exec_inputOvervoltage, doInputOvervoltage, if_neg (Nat.not_lt.2 h)]
  · rw [exec_inputReturn, doInputReturn_of_within hlo hhi, if_pos ⟨hp, hh⟩]
  · rw [exec_inputReturn, doInputReturn_of_within hlo hhi, if_neg]
    rintro ⟨hp, hh⟩
    obtain h | h := h <;> simp_all
  · rw [exec_inputReturn, doInputReturn, if_neg (by omega)]
  · rw [exec_holdupDeadline, doHoldupDeadline, if_pos ⟨hp, hh⟩]; rfl
  · rw [exec_holdupDeadline, doHoldupDeadline, if_neg]
    rintro ⟨hp, hh⟩
    obtain h | h := h <;> simp_all
  case off =>
    obtain ⟨sent, hboot, hfuses, hmem, hhold, hhost, hpwr, hout, htrip⟩ := powerOff_of_no_flash_op h
    exact ⟨_, rfl, hboot, hfuses, hmem, hhold, hhost, hpwr, ⟨sent, hout⟩, htrip, rfl, rfl, rfl, rfl, rfl⟩

end Sys2Proof.Machine
end

section
/-! PROOFS. Power and thermal limits, and the phases of the rails (R794, R798 to R800, R812). -/

namespace Sys2Proof.Machine
open Sys2Proof

section
variable {s : State} {r : PowerReading}

theorem averageLimit_of_above (h : (limitMw s < r.avg1 ∧ limitMw s < r.avg100) ∨ railOver s = true) :
    averageLimit s r = setPwr s fun p => if grantedState s = 0 then { p with holdAvg := true, msUp := 0 }
      else { p with allowedPower := min p.allowedPower (grantedState s - 1), msUp := 0 } := by
  have habove : (decide (limitMw s < r.avg1) && decide (limitMw s < r.avg100) || railOver s) = true := by simpa using h
  have hlow : (decide (r.avg100 * 100 ≤ limitMw s * 95) && !railOver s) = false := by
    obtain ⟨-, h⟩ | h := h
    · rw [decide_eq_false (by omega), Bool.false_and]
    · rw [h, Bool.not_true, Bool.and_false]
  simp only [averageLimit, habove, hlow, if_true]
  rw [if_neg (by simp)]

theorem averageLimit_of_low (hr : railOver s = false) (h : r.avg100 * 100 ≤ limitMw s * 95) :
    (averageLimit s r).pwr.allowedPower = (if s.pwr.msUp < 9 then s.pwr.allowedPower else min 5 (s.pwr.allowedPower + 1))
      ∧ (averageLimit s r).pwr.msUp = (if s.pwr.msUp < 9 then s.pwr.msUp + 1 else 0)
      ∧ (averageLimit s r).pwr.holdAvg = (s.pwr.holdAvg && decide (limitMw s * 95 < r.avg1 * 100)) := by
  have habove : (decide (limitMw s < r.avg1) && decide (limitMw s < r.avg100) || railOver s) = false := by
    rw [hr, Bool.or_false, decide_eq_false (p := limitMw s < r.avg100) (by omega), Bool.and_false]
  have hlow : (decide (r.avg100 * 100 ≤ limitMw s * 95) && !railOver s) = true := by simp [h, hr]
  have hten : s.pwr.msUp + 1 < 10 ↔ s.pwr.msUp < 9 := by omega
  simp only [averageLimit, habove, hlow, if_true, Bool.false_eq_true, if_false, true_and, setPwr]
  by_cases hms : s.pwr.msUp < 9 <;> by_cases h1 : r.avg1 * 100 ≤ limitMw s * 95 <;> simp [hten, hms, h1, Nat.not_lt.2, not_le.1]

/-- Some die has reached a temperature. -/
theorem not_allDies_lt_iff {b : Int} : (!allDies fun d => decide (hottest s d < b)) = true ↔ ∃ d < 8, b ≤ hottest s d := by
  simp only [Bool.not_eq_true', ← Bool.not_eq_true, allDies_iff, decide_eq_true_eq, not_forall, not_lt, exists_prop]

theorem allDies_le_iff {b : Int} : (allDies fun d => decide (hottest s d ≤ b)) = true ↔ ∀ d < 8, hottest s d ≤ b := by
  simp only [allDies_iff, decide_eq_true_eq]

theorem thermalLimit_of_hot (h : ∃ d < 8, (regFld s limitR 0 7 * 100 : Int) ≤ hottest s d) : thermalLimit s = setPwr s fun p =>
    if p.thermUs + 100 < 1000 then { p with thermUs := p.thermUs + 100, coolUs := 0 }
    else { p with thermUs := 0, coolUs := 0, allowedTherm := min p.allowedTherm (grantedState s - 1) } := by
  simp only [thermalLimit, not_allDies_lt_iff.2 h, if_true]

theorem thermalLimit_of_cool (h : ∀ d < 8, hottest s d ≤ (regFld s limitR 0 7 * 100 : Int) - 300) :
    thermalLimit s = setPwr s fun p =>
      if p.coolUs + 100 < 10000 then { p with thermUs := 0, coolUs := p.coolUs + 100 }
      else { p with thermUs := 0, coolUs := 0, allowedTherm := min 5 (p.allowedTherm + 1) } := by
  have hhot : ¬ (!allDies fun d => decide (hottest s d < (regFld s limitR 0 7 * 100 : Int))) = true := by
    rw [not_allDies_lt_iff]
    rintro ⟨d, hd, hd'⟩
    have := h d hd
    omega
  simp only [thermalLimit, hhot, allDies_le_iff.2 h, if_true, Bool.false_eq_true, if_false]

theorem thermalHold_of_hot (h : ∃ d < 8, 10000 ≤ hottest s d) : thermalHold s = setPwrBit s 2 true :=
  if_pos (not_allDies_lt_iff.2 h)

theorem thermalHold_of_cool (h : ∀ d < 8, hottest s d ≤ 9700) : thermalHold s = setPwrBit s 2 false := by
  rw [thermalHold, if_neg, if_pos (allDies_le_iff.2 h)]
  rw [not_allDies_lt_iff]
  rintro ⟨d, hd, hd'⟩
  have := h d hd
  omega

theorem thermalHold_of_between (hlt : ∀ d < 8, hottest s d < 10000) (h : ∃ d < 8, 9700 < hottest s d) : thermalHold s = s := by
  obtain ⟨d, hd, hhot⟩ := h
  rw [thermalHold, if_neg, if_neg]
  · exact fun h => absurd (allDies_le_iff.1 h d hd) (by omega)
  · rw [not_allDies_lt_iff]
    rintro ⟨e, he, he'⟩
    have := hlt e he
    omega

theorem offState_fuses (s : State) : (offState s).fuses = s.fuses := rfl

theorem powerOff_leaves (s : State) : (powerOff s).pwr.powered = false ∧ (powerOff s).boot.phase = .power ∧ (powerOff s).tiles = []
    ∧ (powerOff s).mem = [] ∧ (powerOff s).parts = [] ∧ (powerOff s).sec.slots = [] ∧ (powerOff s).fuses = s.fuses :=
  ⟨rfl, rfl, rfl, rfl, rfl, rfl, by rw [powerOff, offState_fuses, cutFlash_fuses, closeAll_fuses]⟩

theorem doPhaseFault_of_lost {rail : Fin 28} (hp : s.pwr.powered = true)
    (h : Tbl.get 0 s.pwr.phasesLost rail.val < (railPhases rail.val).1) : doPhaseFault rail s =
      if rail.val < 8 ∧ Tbl.get 0 s.pwr.phasesLost rail.val = 2 then
        forEach (allTiles.filter fun t => tileDie t == rail.val) (losePhase s rail.val) hwFault
      else if 16 ≤ rail.val ∧ rail.val < 24 then tierFailedNotice (losePhase s rail.val)
        (forEach (List.range 64) (losePhase s rail.val) fun s n => setUnitNo s (false, 64 * (rail.val - 16) + n) 2) (rail.val - 16)
      else losePhase s rail.val := by
  rw [doPhaseFault, if_neg]
  simp [hp, h]

theorem railPhases_count : ∀ r < 28, (railPhases r).1 = (if r < 8 then 8 else if r < 16 then 2 else if r < 24 then 1
    else if r = 24 then 2 else if r = 25 then 4 else if r = 26 then 2 else 0) := by decide

end

/-- Settles O19: each limit by the readings that it looks at. -/
theorem limitsActAndPhaseFaultsAreRecorded : Obligations.LimitsActAndPhaseFaultsAreRecorded := by
  refine ⟨fun s r => ⟨fun hp => ?_, fun hp => ?_⟩, fun s c => rfl,
    fun s r => ⟨fun h hg => ?above, fun h hg => ?aboveZero, averageLimit_of_low⟩, fun s r => ?peak, fun s => rfl,
    fun s r => ⟨fun hp => ?_, fun hp => ?_⟩, fun s => ⟨fun h => ?hot, fun h => ?cool⟩,
    fun s => ⟨thermalHold_of_hot, thermalHold_of_cool, thermalHold_of_between⟩, fun s d => ⟨fun hp ht => ?_, fun h => ?_⟩,
    powerOff_leaves, fun s rail hp hlost => ?phase, fun s rail h => ?_, railPhases_count⟩
  · rw [exec_powerLimitTick, doPowerLimitTick, if_pos hp]; rfl
  · rw [exec_powerLimitTick, doPowerLimitTick, if_neg (by simp [hp])]
  case above =>
    dsimp only
    rw [averageLimit_of_above h]
    exact if_neg hg.ne'
  case aboveZero =>
    dsimp only
    rw [averageLimit_of_above h]
    exact if_pos hg
  case peak =>
    refine ⟨fun h => ?_, fun h => ?_, fun h1 h2 => ?_⟩
    · rw [peakLimit, if_pos h]; rfl
    · rw [peakLimit, if_neg (by omega), if_pos h]; rfl
    · rw [peakLimit, if_neg (by omega), if_neg (by omega)]
  · rw [exec_temperatureMeasure, doTemperatureMeasure, if_pos hp]
  · rw [exec_temperatureMeasure, doTemperatureMeasure, if_neg (by simp [hp])]
  case hot =>
    dsimp only
    rw [thermalLimit_of_hot h]
    exact ⟨fun ht => if_pos (by omega), fun ht => if_neg (by omega)⟩
  case cool =>
    dsimp only
    rw [thermalLimit_of_cool h]
    exact ⟨fun ht => if_pos (by omega), fun ht => if_neg (by omega)⟩
  · rw [exec_thermalTrip, doThermalTrip, if_pos ⟨hp, ht⟩]
  · rw [exec_thermalTrip, doThermalTrip, if_neg]
    rintro ⟨hp, ht⟩
    obtain h | h := h
    · simp_all
    · omega
  case phase =>
    refine ⟨fun hr h2 => ?_, fun h16 h24 => ?_, fun h2 h16 => ?_⟩
    · rw [exec_phaseFault, doPhaseFault_of_lost hp hlost, if_pos ⟨hr, h2⟩]; rfl
    · rw [exec_phaseFault, doPhaseFault_of_lost hp hlost, if_neg (by omega), if_pos ⟨h16, h24⟩]; rfl
    · rw [exec_phaseFault, doPhaseFault_of_lost hp hlost, if_neg fun ⟨hr, h⟩ => h2 hr h, if_neg (by omega)]; rfl
  · rw [exec_phaseFault, doPhaseFault, if_pos (by simpa using h)]

end Sys2Proof.Machine
end

section
/-! PROOFS. Telemetry records and energy windows (R806 to R809, R779, R780, R815). -/

namespace Sys2Proof.Machine
open Sys2Proof

/-! ### Records -/

section
variable {s : State}

theorem recordBody_isSome (s : State) : ∀ ty, (recordBody s ty).isSome = decide (1 ≤ ty ∧ ty ≤ 5)
  | 0 | 1 | 2 | 3 | 4 | 5 => rfl
  | _ + 6 => (decide_eq_false (by omega)).symm

theorem telRecord_eq_none_iff {ty : Nat} : telRecord s ty = none ↔ ¬ (1 ≤ ty ∧ ty ≤ 5) := by
  rw [telRecord, Option.map_eq_none_iff, ← Option.not_isSome_iff_eq_none, recordBody_isSome, decide_eq_true_eq]

theorem telRecord_eq_some {ty : Nat} {b : Bytes} (h : telRecord s ty = some b) : ∃ body, recordBody s ty = some body
    ∧ b = leBytes 1 ty ++ leBytes 1 1 ++ leBytes 2 body.length ++ leBytes 4 (Tbl.get 0 s.pwr.seqs ty) ++ leBytes 8 s.now ++ body := by
  obtain ⟨body, hbody, hb⟩ := Option.map_eq_some_iff.1 h
  exact ⟨body, hbody, hb.symm⟩

theorem doSubscriptionPush_of_record {ty : Byte} {b : Bytes} {sendable : Bool} (hp : s.pwr.powered = true)
    (hs : Tbl.get 0 s.pwr.subs ty.toNat ≠ 0) (h : telRecord s ty.toNat = some b) : doSubscriptionPush ty sendable s
      = if sendable = true ∧ clkRuns s .tel = true then endEvent (nextSeq (emit s (.mctp b)) ty.toNat) .tel true
        else nextSeq (doEventCrossingSend .tel true s) ty.toNat := by
  simp only [doSubscriptionPush, h]
  exact if_neg (by simp [hp, hs])

end

/-! ### Energy -/

/-- The parts of the state that charging a client leaves. -/
def chargeView (q : Reg) (s : State) : Nat × Power × List (Nat × Tile) × List (Nat × Part) × HostPort :=
  (regGet s q, s.pwr, s.tiles, s.parts, s.host)

section
variable {q : Reg}

theorem chargeView_charge (hq : q.key ≠ Reg.key ⟨.acctStat, 0, 0⟩) (s : State) (c : Nat) (f : Account → Account) :
    chargeView q (charge s c f) = chargeView q s := by
  unfold charge
  dsimp only
  split
  · exact congrArg (·, s.pwr, s.tiles, s.parts, s.host) (regGet_regSet_other _ _ _ _ hq)
  · rfl

theorem chargeView_chargePj (hq : q.key ≠ Reg.key ⟨.acctStat, 0, 0⟩) (s : State) (c pj : Nat) :
    chargeView q (chargePj s c pj) = chargeView q s := by
  unfold chargePj
  split
  · rfl
  · exact chargeView_charge hq ..

theorem chargeView_foldl {α : Type} (f : State × Nat → α → State × Nat) (h : ∀ x a, chargeView q (f x a).1 = chargeView q x.1)
    (l : List α) (x : State × Nat) : chargeView q (l.foldl f x).1 = chargeView q x.1 := by
  induction l generalizing x with
  | nil => rfl
  | cons a l ih => rw [List.foldl_cons, ih, h]

theorem chargeView_chargeShares (hq : q.key ≠ Reg.key ⟨.acctStat, 0, 0⟩) (s : State) (pj total : Nat) (l : List (Nat × Nat)) :
    chargeView q (chargeShares s pj total l).1 = chargeView q s :=
  chargeView_foldl _ (fun _ _ => chargeView_chargePj hq ..) ..

theorem chargeView_chargeCounts (hq : q.key ≠ Reg.key ⟨.acctStat, 0, 0⟩) (s : State) (w : EnergyWindow) :
    chargeView q (chargeCounts s w) = chargeView q s := by
  have hstep {α : Type} (l : List α) (c : α → Nat) (f : α → Account → Account) (s : State) :
      chargeView q (forEach l s fun s e => charge s (c e) (f e)) = chargeView q s :=
    forEach_keeps_of_mem (fun _ _ _ => chargeView_charge hq ..) s
  simp only [chargeCounts, hstep]

/-- A window leaves all of the view but what it notes of the rails. -/
theorem chargeView_doEnergyWindow (hq : q.key ≠ Reg.key ⟨.acctStat, 0, 0⟩) {s : State} (hp : s.pwr.powered = true) (w : EnergyWindow) :
    chargeView q (doEnergyWindow w s) = chargeView q (noteRails s w) := by
  have hshares (x : State × Nat) (l : List (Nat × Nat × List (Nat × Nat))) : chargeView q (l.foldl (fun (x : State × Nat) e =>
      let (t, n) := chargeShares x.1 e.1 e.2.1 e.2.2
      (t, x.2 + n)) x).1 = chargeView q x.1 :=
    chargeView_foldl (fun x e => let (t, n) := chargeShares x.1 e.1 e.2.1 e.2.2; (t, x.2 + n))
      (fun x e => chargeView_chargeShares hq x.1 e.1 e.2.1 e.2.2) l x
  rw [doEnergyWindow, if_pos hp, chargeView_chargePj hq, hshares, chargeView_chargeCounts hq]

end

section
variable {s : State} {w : EnergyWindow}

/-- What a window notes of one rail. -/
def noteRail (w : EnergyWindow) (s : State) (r : Nat) : State :=
  setPwr (regSet s ⟨.telRail, 0, r⟩ (nth 0 w.railMa r % 2 ^ 32 * 2 ^ 32 + nth 0 w.railMv r % 2 ^ 16 * 2 ^ 16)) fun p =>
    { p with energy := Tbl.upd 0 p.energy r (· + nth 0 w.railPj r) }

theorem noteRail_energy {r : Nat} : (noteRail w s r).pwr.energy = Tbl.upd 0 s.pwr.energy r (· + nth 0 w.railPj r) := by
  rw [noteRail, setPwr, regSet]

theorem noteRail_telRail {r : Nat} {q : Reg} : regGet (noteRail w s r) q
    = regGet (regSet s ⟨.telRail, 0, r⟩ (nth 0 w.railMa r % 2 ^ 32 * 2 ^ 32 + nth 0 w.railMv r % 2 ^ 16 * 2 ^ 16)) q := by
  rw [noteRail, regGet_setPwr]

theorem noteRails_eq : noteRails s w = forEach (List.range 28) s (noteRail w) := rfl

theorem noteRails_keeps : ((noteRails s w).tiles, (noteRails s w).parts, (noteRails s w).host) = (s.tiles, s.parts, s.host) := by
  rw [noteRails_eq]
  exact forEach_keeps_of_mem (view := fun s => (s.tiles, s.parts, s.host)) (f := noteRail w)
    (fun _ _ _ => by rw [noteRail, setPwr, regSet]) s

theorem Reg.fits_of_idx {name : RegName} {i : Nat} (hi : i < 65536) : (⟨name, 0, i⟩ : Reg).Fits := ⟨by simp, hi⟩

theorem telRail_key_ne {r k : Nat} (hr : r < 28) (hk : k < 28) (h : k ≠ r) : Reg.key ⟨.telRail, 0, r⟩ ≠ Reg.key ⟨.telRail, 0, k⟩ :=
  Reg.key_ne (Reg.fits_of_idx (by omega)) (Reg.fits_of_idx (by omega)) (by simpa using h.symm)

theorem noteRails_rail {r : Nat} (hr : r < 28) : Tbl.get 0 (noteRails s w).pwr.energy r = Tbl.get 0 s.pwr.energy r + nth 0 w.railPj r
    ∧ regGet (noteRails s w) ⟨.telRail, 0, r⟩ = nth 0 w.railMa r % 2 ^ 32 * 2 ^ 32 + nth 0 w.railMv r % 2 ^ 16 * 2 ^ 16 := by
  obtain ⟨t, ht, hnote⟩ := forEach_at (view := fun s => (Tbl.get 0 s.pwr.energy r, regGet s ⟨.telRail, 0, r⟩)) (f := noteRail w)
    (List.mem_range.2 hr) List.nodup_range (fun s k hk hne => by
      rw [noteRail_energy, noteRail_telRail, Tbl.upd, Tbl.get_put_other hne.symm,
        regGet_regSet_other _ _ _ _ (telRail_key_ne hr (List.mem_range.1 hk) hne)]) s
  obtain ⟨henergy, -⟩ := Prod.mk.inj ht
  obtain ⟨hE, hR⟩ := Prod.mk.inj hnote
  rw [noteRails_eq, hE, hR, noteRail_energy, noteRail_telRail, Tbl.get_upd_self, henergy, regGet_regSet_self]
  refine ⟨rfl, Nat.mod_eq_of_lt ?_⟩
  · have h1 : nth 0 w.railMa r % 2 ^ 32 < 2 ^ 32 := Nat.mod_lt _ (by decide)
    have h2 : nth 0 w.railMv r % 2 ^ 16 < 2 ^ 16 := Nat.mod_lt _ (by decide)
    omega

end

/-- Settles O21: records by what their type builds, the energy window by the parts that charging leaves. -/
theorem telemetryRecordsAndEnergyWindows : Obligations.TelemetryRecordsAndEnergyWindows := by
  refine ⟨fun s ty hp hclk => ⟨fun b hb => ?_, fun hb => ?_, fun ms => ⟨fun h1 h5 hms => ?_, fun h => ?_⟩⟩,
    fun s ty ms h => ⟨?_, ?_⟩, fun s ty => ⟨telRecord_eq_none_iff, fun b => telRecord_eq_some⟩,
    fun s ty b hp hs hb => ⟨fun hclk => ?_, fun hclk => ?_, ?_⟩, fun s ty sendable h => ?_, fun s cid c hc => ?telRead,
    fun s w hp => ?window, fun s w hp => ?_⟩
  · rw [exec_getRecord, doGetRecord, if_neg (by simp [i3cAnswers, hp, hclk]), hb]; rfl
  · rw [exec_getRecord, doGetRecord, hb, ite_self]
  · simp only [exec_subscribe, doSubscribe]
    rw [if_pos ⟨i3cAnswers_iff.2 ⟨hp, hclk⟩, h1, h5, hms.imp_left fun h => by simp [h]⟩]
    rfl
  · simp only [exec_subscribe, doSubscribe]
    rw [if_neg]
    rintro ⟨-, h1, h5, hms⟩
    obtain rfl | h | ⟨hne, h⟩ := h
    · exact absurd h1 (by decide)
    · omega
    · have : ms.toNat ≠ 0 := fun e => hne (BitVec.eq_of_toNat_eq (by simpa using e))
      omega
  · rw [exec_getRecord, doGetRecord, if_pos (by simpa using not_i3cAnswers h)]
  · rw [exec_subscribe, doSubscribe, if_neg fun h' => not_i3cAnswers h h'.1]
  · rw [exec_subscriptionPush, doSubscriptionPush_of_record hp hs hb, if_pos ⟨rfl, hclk⟩]; rfl
  · rw [exec_subscriptionPush, doSubscriptionPush_of_record hp hs hb, if_neg (by simp [hclk])]; rfl
  · rw [exec_subscriptionPush, doSubscriptionPush_of_record hp hs hb, if_neg (by simp)]; rfl
  · rw [exec_subscriptionPush, doSubscriptionPush, if_pos (by simpa using h)]
  case telRead =>
    refine ⟨fun hnone => ?_, fun b hb => ⟨fun h => ?_, fun hfn hlen => ?_⟩⟩
    · simp only [exec_telRead, doTelRead, hc, hnone]
    · simp only [exec_telRead, doTelRead, hc, hb, if_pos h]
    · refine ⟨_, _, rfl, ?_⟩
      simp only [exec_telRead, doTelRead, hc, hb]
      rw [if_neg (by simpa [hfn] using hlen)]
      rfl
  case window =>
    obtain ⟨htiles, hparts, hhost⟩ : (noteRails s w).tiles = s.tiles ∧ (noteRails s w).parts = s.parts ∧ (noteRails s w).host = s.host := by
      have h := noteRails_keeps (s := s) (w := w)
      simpa only [Prod.mk.injEq] using h
    have hview (r : Nat) (hr : r < 28) := chargeView_doEnergyWindow (q := ⟨.telRail, 0, r⟩)
      (Reg.key_ne (Reg.fits_of_idx (by omega)) ⟨by decide, by decide⟩ (by simp)) hp w
    simp only [chargeView, Prod.mk.injEq] at hview
    obtain ⟨-, -, ht, hp', hh⟩ := hview 0 (by decide)
    refine ⟨_, rfl, fun r hr => ?_, fun r hr => ?_, ht.trans htiles, hp'.trans hparts, hh.trans hhost⟩
    · obtain ⟨-, hpwr, -⟩ := hview r hr
      rw [commit_pwr, hpwr, (noteRails_rail hr).1]
    · obtain ⟨hreg, -⟩ := hview r hr
      have hma : nth 0 w.railMa r % 2 ^ 32 < 2 ^ 32 := Nat.mod_lt _ (by decide)
      have hmv : nth 0 w.railMv r % 2 ^ 16 < 2 ^ 16 := Nat.mod_lt _ (by decide)
      rw [regFld_commit, regFld_commit, regFld, regFld, hreg, (noteRails_rail hr).2]
      generalize nth 0 w.railMa r % 2 ^ 32 = ma at *
      generalize nth 0 w.railMv r % 2 ^ 16 = mv at *
      constructor <;> simp only [bitsOf] <;> omega
  · rw [exec_energyWindow, doEnergyWindow, if_neg (by simp [hp])]

end Sys2Proof.Machine
end

section
/-! PROOFS. Flits and messages as they are built and read (R470, R471, R482, R483). -/

namespace Sys2Proof.Machine
open Sys2Proof

/-! ### Fields of byte strings that are built of fields -/

theorem length_leBytes (n v : Nat) : (leBytes n v).length = n := by
  induction n generalizing v with
  | zero => rfl
  | succ n ih => rw [leBytes, List.length_cons, ih]

theorem leNat_leBytes (n v : Nat) : leNat (leBytes n v) = v % 256 ^ n := by
  induction n generalizing v with
  | zero => simp [leBytes, leNat, Nat.mod_one]
  | succ n ih => rw [leBytes, leNat, ih, BitVec.toNat_ofNat, Nat.pow_succ' (m := 256), Nat.mod_mul (a := 256)]

section
variable {a b : Bytes} {off n k v : Nat}

theorem fieldAt_append_left (h : off + n ≤ a.length) : fieldAt (a ++ b) off n = fieldAt a off n := by
  rw [fieldAt, List.drop_append_of_le_length (by omega), List.take_append_of_le_length (by rw [List.length_drop]; omega), fieldAt]

theorem fieldAt_append_right (h : a.length ≤ off) : fieldAt (a ++ b) off n = fieldAt b (off - a.length) n := by
  rw [fieldAt, List.drop_append, List.drop_of_length_le h, List.nil_append, fieldAt]

/-- A field behind another one. -/
theorem fieldAt_leBytes_skip (h : k ≤ off) : fieldAt (leBytes k v ++ b) off n = fieldAt b (off - k) n := by
  rw [fieldAt_append_right (by rwa [length_leBytes]), length_leBytes]

/-- The field that a byte string begins with. -/
theorem fieldAt_leBytes_append : fieldAt (leBytes n v ++ b) 0 n = v % 256 ^ n := by
  rw [fieldAt_append_left (by rw [length_leBytes]; omega), fieldAt, List.drop_zero, List.take_of_length_le (by rw [length_leBytes]),
    leNat_leBytes]

theorem fieldAt_leBytes : fieldAt (leBytes n v) 0 n = v % 256 ^ n := by
  simpa using fieldAt_leBytes_append (b := []) (n := n) (v := v)

end

theorem bitOf_false {n v : Nat} (h : v < 2 ^ n) : bitOf v n = false := by
  rw [bitOf, Nat.div_eq_of_lt h]
  rfl

/-! ### Reflected CRCs of 32 bits -/

theorem crcBit_lt {p x : Nat} (hp : p < 2 ^ 32) (hx : x < 2 ^ 32) : crcBit p x < 2 ^ 32 := by
  have hhalf : x / 2 < 2 ^ 32 := by omega
  unfold crcBit
  split
  · exact Nat.xor_lt_two_pow hhalf hp
  · exact hhalf

theorem foldl_lt {α : Type} {f : Nat → α → Nat} {m : Nat} (h : ∀ c < m, ∀ a, f c a < m) (l : List α) {c : Nat} (hc : c < m) :
    l.foldl f c < m := by
  induction l generalizing c with
  | nil => exact hc
  | cons a l ih => exact ih (h c hc a)

theorem crcFold_lt {p init : Nat} (hp : p < 2 ^ 32) (hi : init < 2 ^ 32) (b : Bytes) : crcFold p init b < 2 ^ 32 :=
  foldl_lt (fun _ hc v => foldl_lt (fun _ hx _ => crcBit_lt hp hx) _
    (Nat.xor_lt_two_pow hc (v.isLt.trans (by decide)))) b hi

theorem crc32_lt (b : Bytes) : crc32 b < 2 ^ 32 := Nat.xor_lt_two_pow (crcFold_lt (by decide) (by decide) b) (by decide)

theorem crc32c_lt (b : Bytes) : crc32c b < 2 ^ 32 := Nat.xor_lt_two_pow (crcFold_lt (by decide) (by decide) b) (by decide)

/-! ### Flits -/

/-- The bytes of a flit before its CRC (R470). -/
def flitBody (ctl slot seq ack lc cn valid : Nat) (pay : Bytes) : Bytes :=
  leBytes 1 ctl ++ leBytes 1 slot ++ leBytes 3 (seq % 4096 + ack % 4096 * 4096) ++ leBytes 1 lc ++ leBytes 1 cn ++ leBytes 1 valid
    ++ pay.take 244 ++ List.replicate (244 - pay.length) 0

section
variable {ctl slot seq ack lc cn valid : Nat} {pay : Bytes}

theorem flitBytes_eq : flitBytes ctl slot seq ack lc cn valid pay = flitBody ctl slot seq ack lc cn valid pay
    ++ leBytes 4 (crc32 (flitBody ctl slot seq ack lc cn valid pay)) := rfl

theorem length_flitBody : (flitBody ctl slot seq ack lc cn valid pay).length = 252 := by
  simp only [flitBody, List.length_append, length_leBytes, List.length_take, List.length_replicate]
  omega

/-- A field of the flit before its payload. -/
theorem fieldAt_flitBytes {off n : Nat} (h : off + n ≤ 8) : fieldAt (flitBytes ctl slot seq ack lc cn valid pay) off n
    = fieldAt (leBytes 1 ctl ++ (leBytes 1 slot ++ (leBytes 3 (seq % 4096 + ack % 4096 * 4096) ++ (leBytes 1 lc ++ (leBytes 1 cn
      ++ leBytes 1 valid))))) off n := by
  rw [flitBytes_eq, fieldAt_append_left (by rw [length_flitBody]; omega), flitBody]
  simp only [List.append_assoc]
  simp only [← List.append_assoc (leBytes 1 valid), ← List.append_assoc (leBytes 1 cn), ← List.append_assoc (leBytes 1 lc),
    ← List.append_assoc (leBytes 3 _), ← List.append_assoc (leBytes 1 slot), ← List.append_assoc (leBytes 1 ctl)]
  rw [fieldAt_append_left, fieldAt_append_left] <;> simp only [List.length_append, length_leBytes] <;> omega

theorem flitGood_flitBytes : flitGood (flitBytes ctl slot seq ack lc cn valid pay) = true := by
  have hlen := length_flitBody (ctl := ctl) (slot := slot) (seq := seq) (ack := ack) (lc := lc) (cn := cn) (valid := valid) (pay := pay)
  rw [flitGood, flitBytes_eq, List.take_left' hlen, fieldAt_append_right (by rw [hlen]), hlen, Nat.sub_self, fieldAt_leBytes,
    Nat.mod_eq_of_lt (b := 256 ^ 4) (crc32_lt _), List.length_append, hlen, length_leBytes]
  simp

theorem ctlRecord_flitBytes (h : pay.length ≤ 244) :
    (ctlRecord (flitBytes ctl slot seq ack lc cn valid pay)).take pay.length = pay := by
  have hhead : flitBytes ctl slot seq ack lc cn valid pay = (leBytes 1 ctl ++ leBytes 1 slot
      ++ leBytes 3 (seq % 4096 + ack % 4096 * 4096) ++ leBytes 1 lc ++ leBytes 1 cn ++ leBytes 1 valid) ++ (pay
      ++ (List.replicate (244 - pay.length) 0 ++ leBytes 4 (crc32 (flitBody ctl slot seq ack lc cn valid pay)))) := by
    rw [flitBytes_eq, flitBody, List.take_of_length_le h]
    simp only [List.append_assoc]
  rw [ctlRecord, hhead, List.drop_left' (by simp only [List.length_append, length_leBytes]), List.take_take, Nat.min_eq_left h,
    List.take_left]

end

/-! ### Messages -/

/-- The bytes of a message before its MCRC, with the destination's coordinate given (R482). -/
def msgHead (s : State) (x : MsgOut) (dp : Nat) : Bytes :=
  leBytes 2 (if x.byPhys then 0x8000 else x.dst) ++ leBytes 2 ((ownChip s).getD 0xFFFF) ++ leBytes 2 dp
    ++ leBytes 2 (ownPhys s) ++ leBytes 1 x.cls ++ leBytes 1 (x.part % 16 + x.prio % 4 * 16) ++ leBytes 2 x.epoch
    ++ leBytes 1 routeXyz ++ leBytes 1 0 ++ leBytes 2 x.flow ++ leBytes 4 x.payload.length ++ leBytes 4 x.tag ++ leBytes 4 x.aux

/-- A message with the coordinate of its destination given. -/
def msgFor (s : State) (x : MsgOut) (dp : Nat) : Bytes :=
  msgHead s x dp ++ leBytes 4 (mcrcOf (msgHead s x dp ++ leBytes 4 0 ++ x.payload)) ++ x.payload

theorem buildMsg_eq (s : State) (x : MsgOut) : buildMsg s x
    = (if x.byPhys then some x.dst else (mapEntry s x.dst).map BitVec.toNat).map (msgFor s x) := rfl

theorem length_msgHead (s : State) (x : MsgOut) (dp : Nat) : (msgHead s x dp).length = 28 := by
  simp only [msgHead, List.length_append, length_leBytes]

/-- The MCRC does not look at its own place. -/
theorem mcrcOf_append {h c p : Bytes} (hh : h.length = 28) (hc : c.length = 4) :
    mcrcOf (h ++ c ++ p) = crc32c (h.take 12 ++ [0, 0] ++ (h.drop 14).take 14 ++ [0, 0, 0, 0] ++ p) := by
  have hp : (h ++ c ++ p).drop 32 = p := List.drop_left' (by rw [List.length_append, hh, hc])
  have hmid : ((h ++ (c ++ p)).drop 14).take 14 = (h.drop 14).take 14 := by
    rw [List.drop_append_of_le_length (by omega), List.take_append_of_le_length (by rw [List.length_drop]; omega)]
  rw [mcrcOf, hp, List.append_assoc h c p, List.take_append_of_le_length (by omega), hmid]

section
variable {s : State} {x : MsgOut} {dp off n : Nat}

theorem fieldAt_msgFor (h : off + n ≤ 28) : fieldAt (msgFor s x dp) off n = fieldAt (msgHead s x dp) off n := by
  rw [msgFor, List.append_assoc, fieldAt_append_left (by rwa [length_msgHead])]

theorem mcrcOf_msgFor : mcrcOf (msgFor s x dp) = fieldAt (msgFor s x dp) 28 4 := by
  have hlen := length_msgHead s x dp
  have hcrc : mcrcOf (msgFor s x dp) = mcrcOf (msgHead s x dp ++ leBytes 4 0 ++ x.payload) := by
    rw [msgFor, mcrcOf_append hlen (length_leBytes ..), mcrcOf_append hlen (length_leBytes ..)]
  rw [hcrc, msgFor, List.append_assoc (msgHead s x dp) (leBytes 4 (mcrcOf _)), fieldAt_append_right (by rw [hlen]), hlen,
    Nat.sub_self, fieldAt_leBytes_append, Nat.mod_eq_of_lt (b := 256 ^ 4) (crc32c_lt _)]

theorem msgPayload_msgFor : msgPayload (msgFor s x dp) = x.payload := by
  rw [msgPayload, msgFor, List.drop_left' (by rw [List.length_append, length_msgHead, length_leBytes])]

theorem length_msgFor : (msgFor s x dp).length = 32 + x.payload.length := by
  rw [msgFor, List.length_append, List.length_append, length_msgHead, length_leBytes]

/-- The fields of a message, each at its place. -/
theorem msgFor_fields (s : State) (x : MsgOut) (dp : Nat) : fieldAt (msgFor s x dp) 4 2 = dp % 65536
    ∧ fieldAt (msgFor s x dp) 6 2 = ownPhys s % 65536 ∧ fieldAt (msgFor s x dp) 8 1 = x.cls % 256
    ∧ fieldAt (msgFor s x dp) 9 1 = (x.part % 16 + x.prio % 4 * 16) % 256 ∧ fieldAt (msgFor s x dp) 10 2 = x.epoch % 65536
    ∧ fieldAt (msgFor s x dp) 12 1 = routeXyz % 256 ∧ fieldAt (msgFor s x dp) 13 1 = 0
    ∧ fieldAt (msgFor s x dp) 14 2 = x.flow % 65536 ∧ fieldAt (msgFor s x dp) 16 4 = x.payload.length % 2 ^ 32
    ∧ fieldAt (msgFor s x dp) 20 4 = x.tag % 2 ^ 32 ∧ fieldAt (msgFor s x dp) 24 4 = x.aux % 2 ^ 32 := by
  simp only [fieldAt_msgFor, msgHead, List.append_assoc, Nat.reduceAdd, Nat.reduceLeDiff]
  simp only [fieldAt_leBytes_skip, fieldAt_leBytes_append, fieldAt_leBytes, Nat.reduceSub, Nat.reduceLeDiff, Nat.reducePow,
    Nat.zero_mod, and_self]

/-- A class that has a virtual channel is one of R483. -/
theorem lt_of_classVc {c : Nat} (h : (classVc c).isSome = true) : c < 256 := by
  by_contra hc
  rw [classVc] at h
  · exact absurd h (by decide)
  all_goals omega

theorem msgSound_msgFor (hlen : x.payload.length ≤ 65536) (hcls : (classVc x.cls).isSome = true) (hdp : dp < 32768)
    (hown : ownPhys s < 32768) : msgSound (msgFor s x dp) = true := by
  obtain ⟨hd, hs, hc, hpp, -, hr, -, -, hl, -, -⟩ := msgFor_fields s x dp
  have hcls' := lt_of_classVc hcls
  rw [msgSound, msgLen, msgClass, msgRoute, hd, hs, hc, hpp, hr, hl, mcrcOf_msgFor, length_msgFor,
    Nat.mod_eq_of_lt (a := x.cls) hcls', Nat.mod_eq_of_lt (b := 2 ^ 32) (by omega), bitOf_false (by omega), bitOf_false (by omega), hcls]
  have hroute : sortBy (fun a b => decide (a < b)) (routeAxes (routeXyz % 256)) = [0, 1, 2] := by decide
  simp [hroute, hlen]
  omega

end

/-- Settles O45: each field is looked for behind the fields before it. -/
theorem flitsAndMessagesReadBackAsBuilt : Obligations.FlitsAndMessagesReadBackAsBuilt := by
  refine ⟨fun ctl slot seq ack lc cn valid pay hpay => ⟨flitGood_flitBytes, ?_, ?_, ?_, ?_, ctlRecord_flitBytes hpay⟩,
    fun s x m hm hlen hcls hdst => ?message⟩
  · rw [flitKind, fieldAt_flitBytes (by decide), fieldAt_leBytes_append, bitsOf]
    omega
  · rw [flitSeq, fieldAt_flitBytes (by decide), fieldAt_leBytes_skip (by decide), fieldAt_leBytes_skip (by decide),
      fieldAt_leBytes_append, bitsOf]
    omega
  · rw [flitAck, fieldAt_flitBytes (by decide), fieldAt_leBytes_skip (by decide), fieldAt_leBytes_skip (by decide),
      fieldAt_leBytes_append, bitsOf]
    omega
  · rw [fieldAt_flitBytes (by decide)]
    simp only [fieldAt_leBytes_skip, fieldAt_leBytes, Nat.reduceSub, Nat.reduceLeDiff, Nat.reducePow]
  case message =>
    rw [buildMsg_eq, Option.map_eq_some_iff] at hm
    obtain ⟨dp, hdp, rfl⟩ := hm
    have hdp' : dp < 32768 := by
      split at hdp
      · exact Option.some.inj hdp ▸ hdst
      · obtain ⟨e, -, rfl⟩ := Option.map_eq_some_iff.1 hdp
        exact e.isLt
    have hown : ownPhys s < 32768 := s.fab.phys.isLt
    obtain ⟨hd, hs, hc, hpp, he, hr, hh, hf, hl, ht, ha⟩ := msgFor_fields s x dp
    refine ⟨msgSound_msgFor hlen hcls hdp' hown, ?_, ?_, ?_, he, hf, ht, ha, ?_, msgPayload_msgFor, ?_, hh, fun hphys => ?_⟩
    · rw [msgClass, hc, Nat.mod_eq_of_lt (lt_of_classVc hcls)]
    · rw [msgPart, hpp, bitsOf]; omega
    · rw [msgPrio, hpp, bitsOf]; omega
    · rw [msgLen, hl, Nat.mod_eq_of_lt (by omega)]
    · rw [msgSrc, hs, ownPhys]; rw [ownPhys] at hown; omega
    · rw [if_pos hphys] at hdp
      rw [msgDst, hd, Option.some.inj hdp]
      omega

end Sys2Proof.Machine
end

section
/-! PROOFS. Writes of registers through BAR0 (R13, R15, R16, R691). -/

namespace Sys2Proof.Machine
open Sys2Proof

/-! ### The bits of a register after a write -/

theorem RegName.rw_and_w1c (n : RegName) : n.info.rw &&& n.info.w1c = 0 := by cases n <;> rfl

/-- No bit is both RW and W1C. -/
theorem RegName.w1c_of_rw {n : RegName} {i : Nat} (h : n.info.rw.testBit i = true) : n.info.w1c.testBit i = false := by
  have hi := congrArg (Nat.testBit · i) n.rw_and_w1c
  simpa [h] using hi

/-- Each bit of a register takes what is written, is cleared by it, or stays. -/
theorem testBit_regWritten {d : RegDef} {old v hw i : Nat} (hi : i < 64) : (regWritten d old v hw).testBit i
    = ((old.testBit i && !(d.rw.testBit i || d.w1c.testBit i)) || (v.testBit i && d.rw.testBit i)
      || (d.w1c.testBit i && ((old.testBit i && !v.testBit i) || hw.testBit i))) := by
  simp only [regWritten, Nat.testBit_or, Nat.testBit_and, Nat.testBit_xor, Nat.testBit_two_pow_sub_one, hi, decide_true, Bool.true_xor]

/-! ### The register that a write reaches -/

theorem bar0Window_mod {fn off die o : Nat} (h : bar0Window fn off = some (die, o)) : o % 8 = off % 8 := by
  unfold bar0Window at h
  split at h <;> split at h <;> simp only [Option.some.injEq, Prod.mk.injEq, reduceCtorEq] at h <;> omega

theorem bar0Window_of_pf {off : Nat} (h : off < 0x4000000) : bar0Window 0 off = some (off / 0x800000, off % 0x800000) := by
  rw [bar0Window, if_pos rfl, if_pos (by omega)]

theorem bar0Window_of_vf {fn off : Nat} (hf : fn ≠ 0) (h : off < 0x10000) : bar0Window fn off = some (0, 0x100000 + 0x10000 * fn + off) := by
  rw [bar0Window, if_neg hf, if_pos h]

theorem bar0Window_of_outside {fn off : Nat} (h : (fn = 0 ∧ 0x4000000 ≤ off) ∨ (fn ≠ 0 ∧ 0x10000 ≤ off)) : bar0Window fn off = none := by
  obtain ⟨hf, h⟩ | ⟨hf, h⟩ := h
  · rw [bar0Window, if_pos hf, if_neg (by omega)]
  · rw [bar0Window, if_neg hf, if_neg (by omega)]

section
variable {s : State} {fn : FnId} {off : Nat} {wide : Bool} {v hw : W64}

theorem doRegisterWrite_of_open (hopen : noFn s fn.val = false ∧ Tbl.get false s.host.d3hot fn.val = false) :
    doRegisterWrite fn off wide v hw s = match bar0Window fn.val off with
      | none => s
      | some (die, o) =>
        if wide then (if o % 8 = 0 then writeWide s fn.val die o v.toNat hw.toNat else s)
        else if o % 4 = 0 then writeWord s fn.val die o (v.toNat % 2 ^ 32) (hw.toNat % 2 ^ 32) else s := by
  obtain ⟨hfn, hd3⟩ := hopen
  exact if_neg (by simp [hfn, hd3])

theorem doRegisterWrite_of_closed (h : ¬ (noFn s fn.val = false ∧ Tbl.get false s.host.d3hot fn.val = false)) :
    doRegisterWrite fn off wide v hw s = s :=
  if_pos (by by_cases hn : noFn s fn.val = false <;> simp_all)

theorem doRegisterWrite_of_no_window (h : bar0Window fn.val off = none) : doRegisterWrite fn off wide v hw s = s := by
  simp only [doRegisterWrite, h, ite_self]

theorem doRegisterWrite_of_misaligned (h : off % (if wide then 8 else 4) ≠ 0) : doRegisterWrite fn off wide v hw s = s := by
  unfold doRegisterWrite
  split
  · rfl
  split
  · rfl
  next die o hwin =>
    have ho := bar0Window_mod hwin
    cases wide
    · rw [if_neg Bool.false_ne_true] at h ⊢
      exact if_neg (by omega)
    · rw [if_pos rfl] at h ⊢
      exact if_neg (by omega)

end

section
variable {s : State} {fn die o v hw x : Nat} {r : Reg}

theorem writeWord_of_none (h : regAt die o = none) : writeWord s fn die o v hw = s := by simp only [writeWord, h]

theorem writeWord_of_unreached (h : regAt die o = some (r, x)) (hr : reaches s fn r = false) : writeWord s fn die o v hw = s := by
  simp [writeWord, h, hr]

theorem writeWord_of_reached (h : regAt die o = some (r, x)) (hr : reaches s fn r = true) : writeWord s fn die o v hw =
    if r.name.info.bits = 32 then regAct s r v hw
    else if isArray r.name = true then regAct s r (putBits (arrayOld s r) (8 * x) 32 v) 0 else s := by
  simp [writeWord, h, hr]

theorem writeWide_of_register (h : regAt die o = some (r, 0)) (hb : r.name.info.bits = 64) :
    writeWide s fn die o v hw = if reaches s fn r = true then regAct s r v hw else s := by
  simp only [writeWide, h, if_pos hb]

/-- Where no 64-bit register begins, a wide write is two writes, the lower first. -/
theorem writeWide_of_words (h : ∀ r, regAt die o = some (r, 0) → r.name.info.bits ≠ 64) : writeWide s fn die o v hw
    = writeWord (writeWord s fn die o (v % 2 ^ 32) (hw % 2 ^ 32)) fn die (o + 4) (v / 2 ^ 32) (hw / 2 ^ 32) := by
  unfold writeWide
  split
  next r hr => exact if_neg (h r hr)
  · rfl

theorem regAct_of_plain (hi : islandOf r = none)
    (h : r.name ∉ [RegName.strErrlog, .codecErrlog, .ingPipeerr, .strScrub, .t1cCtrl, .t2cCtrl, .collStall1, .pwrVreq, .pwrStat,
      .pwrLimit, .bootRoff, .bootRwin, .bootRcmd, .clspCtrl, .lnkCtrl, .hostFnctrl, .hostEvthead, .hostAdmq]) :
    regAct s r v hw = regSet s r (regWritten r.name.info (regGet s r) v (hw &&& r.name.info.w1c)) := by
  simp only [regAct, hi]
  split <;> simp_all [regWritePlain]

end

/-- Settles O29: a write by its bits, by the window that it falls into, and by the register that stands there. -/
theorem registerWritesActByTheirBits : Obligations.RegisterWritesActByTheirBits := by
  refine ⟨fun n old v hw i hi => ?bits, fun s fn off v hw => ?window, fun fn off =>
    ⟨fun hf h => hf ▸ bar0Window_of_pf h, bar0Window_of_vf, bar0Window_of_outside⟩, fun s fn die o v hw => ?reach,
    fun s r v hw => regAct_of_plain, fun s r v hv => (regGet_regSet_self s r v).trans (Nat.mod_eq_of_lt hv)⟩
  case bits =>
    rw [testBit_regWritten hi]
    refine ⟨fun hrw => ?_, fun hw1c => ?_, fun hrw hw1c => by simp [hrw, hw1c]⟩
    · have hw1c := RegName.w1c_of_rw hrw
      simp [hrw, hw1c]
    · have hrw : n.info.rw.testBit i = false := by
        by_contra hrw
        exact absurd (RegName.w1c_of_rw (by simpa using hrw)) (by simp [hw1c])
      simp [hrw, hw1c]
  case window =>
    refine ⟨fun h wide => ?_, fun h wide => ?_, fun h => ?_, fun h => ?_, fun die o hopen hwin => ⟨fun ho => ?_, fun ho => ?_⟩⟩
    · rw [exec_registerWrite, doRegisterWrite_of_closed h]
    · rw [exec_registerWrite, doRegisterWrite_of_no_window h]
    · rw [exec_registerWrite, doRegisterWrite_of_misaligned h]
    · rw [exec_registerWrite, doRegisterWrite_of_misaligned h]
    · rw [exec_registerWrite, doRegisterWrite_of_open hopen, hwin]
      simp only [Bool.false_eq_true, if_false, if_pos ho]
    · rw [exec_registerWrite, doRegisterWrite_of_open hopen, hwin]
      simp only [if_true, if_pos ho]
  case reach =>
    refine ⟨writeWord_of_none, fun r x h => ⟨writeWord_of_unreached h, fun hr => ?_, fun hx hb => writeWide_of_register (hx ▸ h) hb⟩,
      writeWide_of_words⟩
    rw [writeWord_of_reached h hr]
    exact ⟨fun hb => if_pos hb, fun hb ha => by rw [if_neg hb, if_pos ha], fun hb ha => by rw [if_neg hb, if_neg (by simp [ha])]⟩

end Sys2Proof.Machine
end

section
/-! PROOFS. Records in host memory (R713, R729, R730), a partition's new epoch (R753, R754), and the elements that an MMA
changes (R222 to R226). -/

namespace Sys2Proof.Machine
open Sys2Proof

/-! ### Bytes of a table as written -/

theorem bytesAt_putBytes {d : Byte} {t : Tbl Byte} {a off n : Nat} {b : Bytes} (h : off + n ≤ b.length) :
    bytesAt d (putBytes d t a b) (a + off) n = (b.drop off).take n := by
  refine List.ext_getElem (by simp [bytesAt, span]; omega) fun i hi _ => ?_
  have hin : i < n := by simpa [bytesAt, span] using hi
  simp only [bytesAt, span, List.getElem_map, List.getElem_range, List.getElem_take, List.getElem_drop]
  rw [← get_putBytes_inside (d := d) (t := t) (a := a) (i := off + i) (by omega)]
  congr 1
  omega

/-- A field of bytes that have been written. -/
theorem leNat_bytesAt_putBytes {d : Byte} {t : Tbl Byte} {a off n : Nat} {b : Bytes} (h : off + n ≤ b.length) :
    leNat (bytesAt d (putBytes d t a b) (a + off) n) = fieldAt b off n := by rw [bytesAt_putBytes h, fieldAt]

/-! ### Interrupts and fault records -/

section
variable {s : State}

/-- Signalling a vector changes the vectors' state and what has left the module. -/
theorem signalVec_eq (s : State) (fn v : Nat) :
    ∃ msix out, signalVec s fn v = { s with host := { s.host with msix := msix }, out := out } := by
  unfold signalVec
  dsimp only
  split
  · exact ⟨_, _, rfl⟩
  split
  · exact ⟨_, _, rfl⟩
  split <;> exact ⟨_, _, rfl⟩

/-- What signalling a vector leaves, of the parts that a record changes. -/
structure SignalKeeps (s t : State) : Prop where
  mem : t.mem = s.mem
  hostMem : t.hostMem = s.hostMem
  regs : t.regs = s.regs
  tiles : t.tiles = s.tiles
  parts : t.parts = s.parts
  queues : t.host.queues = s.host.queues
  evtWritten : t.host.evtWritten = s.host.evtWritten

theorem SignalKeeps.signalVec (s : State) (fn v : Nat) : SignalKeeps s (signalVec s fn v) := by
  obtain ⟨msix, out, h⟩ := signalVec_eq s fn v
  rw [h]
  exact ⟨rfl, rfl, rfl, rfl, rfl, rfl, rfl⟩

/-- What a fault record may change: host memory, registers, the host port and what has left the module. -/
def FaultFrame (s t : State) : Prop := ∃ mem regs host out, t = { s with hostMem := mem, regs := regs, host := host, out := out }

theorem FaultFrame.refl (s : State) : FaultFrame s s := ⟨_, _, _, _, rfl⟩

theorem FaultFrame.trans {s t u : State} : FaultFrame s t → FaultFrame t u → FaultFrame s u := by
  rintro ⟨_, _, _, _, rfl⟩ ⟨_, _, _, _, rfl⟩
  exact ⟨_, _, _, _, rfl⟩

theorem FaultFrame.forEach {α : Type} {f : State → α → State} (h : ∀ s a, FaultFrame s (f s a)) (l : List α) (s : State) :
    FaultFrame s (forEach l s f) := by
  unfold Machine.forEach
  induction l generalizing s with
  | nil => exact .refl s
  | cons a l ih => exact (h s a).trans (ih _)

/-- The record of a fault, as it stands in its ring. -/
def faultRecord (s : State) (fn : Nat) (st : Status) (part : Nat) (r : Reg) (queue : Nat) : Bytes :=
  let n := 2 ^ (regGet s ⟨.hostEvtbase, fn, 0⟩ % 32)
  let w := Tbl.get 0 s.host.evtWritten fn
  faultBytes w st part (1 - w / n % 2) s.now r.addr (regRead s r % 2 ^ 32) queue

/-- The place of a function's next fault record. -/
def faultPlace (s : State) (fn : Nat) : Nat :=
  let b := regGet s ⟨.hostEvtbase, fn, 0⟩
  b / 4096 * 4096 + 32 * (Tbl.get 0 s.host.evtWritten fn % 2 ^ (b % 32))

variable {fn part queue : Nat} {st : Status} {r : Reg}

/-- A function's next fault record written, before its interrupt. -/
def faultWritten (s : State) (fn : Nat) (rec_ : Bytes) : State :=
  { s with hostMem := putBytes 0 s.hostMem (faultPlace s fn) rec_
           host := { s.host with evtWritten := Tbl.put 0 s.host.evtWritten fn (Tbl.get 0 s.host.evtWritten fn + 1) } }

theorem evtWritten_faultWritten (rec_ : Bytes) : (faultWritten s fn rec_).host.evtWritten
    = Tbl.put 0 s.host.evtWritten fn (Tbl.get 0 s.host.evtWritten fn + 1) := rfl

/-- What recording a fault does, by the ring's enable, its size and its room. -/
theorem faultTo_eq : faultTo s fn st part r queue =
    if regBit s ⟨.hostFnctrl, fn, 0⟩ 1 = false then s
    else if regGet s ⟨.hostEvtbase, fn, 0⟩ % 32 < 4 ∨ 16 < regGet s ⟨.hostEvtbase, fn, 0⟩ % 32 then s
    else if Tbl.get 0 s.host.evtHead fn + 2 ^ (regGet s ⟨.hostEvtbase, fn, 0⟩ % 32) ≤ Tbl.get 0 s.host.evtWritten fn then
      regAddSat s ⟨.hostEvtstat, fn, 0⟩ 16 16 1
    else signalVec (faultWritten s fn (faultRecord s fn st part r queue)) fn 0 := by
  have hlog (b : Nat) : bitsOf b 0 5 = b % 32 := by simp [bitsOf]
  simp only [faultTo, hlog]
  rfl

theorem FaultFrame.faultTo (s : State) (fn : Nat) (st : Status) (part : Nat) (r : Reg) (queue : Nat) :
    FaultFrame s (faultTo s fn st part r queue) := by
  rw [faultTo_eq]
  split
  · exact .refl s
  split
  · exact .refl s
  split
  · exact ⟨_, _, _, _, rfl⟩
  · obtain ⟨msix, out, h⟩ := signalVec_eq (faultWritten s fn (faultRecord s fn st part r queue)) fn 0
    exact ⟨_, _, _, _, h⟩

theorem FaultFrame.faultRec (s : State) (st : Status) (part : Nat) (r : Reg) (queue : Nat) :
    FaultFrame s (faultRec s st part r queue) :=
  (FaultFrame.faultTo ..).trans (FaultFrame.forEach (fun _ _ => FaultFrame.faultTo ..) _ _)

theorem FaultFrame.faultReg (s : State) (part : Nat) (r : Reg) : FaultFrame s (faultReg s part r) := FaultFrame.faultRec ..

theorem FaultFrame.tierNotice (old s : State) (p : Nat) : FaultFrame s (tierNotice old s p) := by
  unfold Machine.tierNotice
  dsimp only
  split
  · exact .refl s
  · exact FaultFrame.faultReg ..

end

/-! ### Records -/

section
variable {s : State} {q tag info : Nat} {st : Status}

/-- A completion record, as it stands in its ring. -/
def cplBytes (tag : Nat) (st : Status) (phase info : Nat) : Bytes :=
  leBytes 4 tag ++ leBytes 2 st.toNat ++ leBytes 1 phase ++ leBytes 1 0 ++ leBytes 8 info

/-- The place of a queue's next completion record. -/
def cplPlace (d : Queue) : Nat := d.cpl + 16 * (d.cplTail % 2 ^ d.cplLog)

theorem writeRecord_of_free (h : (queueAt s q).st = .free) : writeRecord s q tag st info = s := if_pos h

theorem writeRecord_of_d3hot (h : (queueAt s q).st ≠ .free) (hd : Tbl.get false s.host.d3hot (queueAt s q).fn = true) :
    writeRecord s q tag st info = modQueue s q fun d => { d with withheld := d.withheld ++ [cplBytes tag st 0 info] } := by
  rw [writeRecord]
  exact (if_neg h).trans (if_pos hd)

/-- A queue's next record written, before its interrupt. -/
def recordWritten (s : State) (q : Nat) (rec_ : Bytes) : State :=
  modQueue { s with hostMem := putBytes 0 s.hostMem (cplPlace (queueAt s q)) rec_ } q fun d => { d with cplTail := d.cplTail + 1 }

/-- The record of a queue's pass. -/
def nextRecord (d : Queue) (tag : Nat) (st : Status) (info : Nat) : Bytes := cplBytes tag st (1 - d.cplTail / 2 ^ d.cplLog % 2) info

theorem writeRecord_of_d0 (h : (queueAt s q).st ≠ .free) (hd : Tbl.get false s.host.d3hot (queueAt s q).fn = false) :
    writeRecord s q tag st info = if bitOf (queueAt s q).flags 2 then
        signalVec (recordWritten s q (nextRecord (queueAt s q) tag st info)) (queueAt s q).fn (queueAt s q).vector
      else recordWritten s q (nextRecord (queueAt s q) tag st info) := by
  rw [writeRecord]
  exact (if_neg h).trans (if_neg (by simp [hd]))

/-- A written record, but for its interrupt. -/
theorem writeRecord_keeps (h : (queueAt s q).st ≠ .free) (hd : Tbl.get false s.host.d3hot (queueAt s q).fn = false) :
    SignalKeeps (recordWritten s q (nextRecord (queueAt s q) tag st info)) (writeRecord s q tag st info) := by
  rw [writeRecord_of_d0 h hd]
  split
  · exact .signalVec _ _ _
  · exact ⟨rfl, rfl, rfl, rfl, rfl, rfl, rfl⟩

theorem cplTail_recordWritten (rec_ : Bytes) : (queueAt (recordWritten s q rec_) q).cplTail = (queueAt s q).cplTail + 1 := by
  rw [recordWritten, queueAt_modQueue, if_pos rfl]
  rfl

theorem length_cplBytes {phase : Nat} : (cplBytes tag st phase info).length = 16 := by
  simp only [cplBytes, List.length_append, length_leBytes]

theorem cplBytes_fields {phase : Nat} (hp : phase < 256) : fieldAt (cplBytes tag st phase info) 0 4 = tag % 2 ^ 32
    ∧ fieldAt (cplBytes tag st phase info) 4 2 = st.toNat ∧ fieldAt (cplBytes tag st phase info) 6 1 = phase
    ∧ fieldAt (cplBytes tag st phase info) 8 8 = info % 2 ^ 64 := by
  simp only [cplBytes, List.append_assoc, fieldAt_leBytes_skip, fieldAt_leBytes_append, fieldAt_leBytes, Nat.reduceSub,
    Nat.reduceLeDiff, Nat.reducePow, Nat.mod_eq_of_lt (show st.toNat < 65536 from st.isLt), Nat.mod_eq_of_lt hp, and_self]

theorem length_faultRecord {fn part queue : Nat} {r : Reg} : (faultRecord s fn st part r queue).length = 32 := by
  simp only [faultRecord, faultBytes, List.length_append, length_leBytes]

theorem faultBytes_fields {seq part phase now addr value queue : Nat} (hp : phase < 256) :
    let b := faultBytes seq st part phase now addr value queue
    fieldAt b 0 4 = seq % 2 ^ 32 ∧ fieldAt b 4 2 = st.toNat ∧ fieldAt b 6 1 = part % 256 ∧ fieldAt b 7 1 = phase
    ∧ fieldAt b 8 8 = now % 2 ^ 64 ∧ fieldAt b 16 8 = addr % 2 ^ 64 ∧ fieldAt b 24 4 = value % 2 ^ 32
    ∧ fieldAt b 28 4 = queue % 2 ^ 32 := by
  simp only [faultBytes, List.append_assoc, fieldAt_leBytes_skip, fieldAt_leBytes_append, fieldAt_leBytes, Nat.reduceSub,
    Nat.reduceLeDiff, Nat.reducePow, Nat.mod_eq_of_lt (show st.toNat < 65536 from st.isLt), Nat.mod_eq_of_lt hp, and_self]

end

/-- Settles O59: the place and the bytes of each record, and what signalling its vector leaves. -/
theorem recordsTakeTheirPlaceInHostMemory : Obligations.RecordsTakeTheirPlaceInHostMemory := by
  refine ⟨fun s q tag info st => ⟨writeRecord_of_free, fun h hd => ?withheld, fun h hd => ?written⟩,
    fun s fn part queue st r => ⟨fun h => ?none, fun hen hlo hhi hfull => ?full, fun hen hlo hhi hroom => ?fault⟩⟩
  case withheld =>
    rw [writeRecord_of_d3hot h hd]
    exact ⟨fun x => rfl, by simp, by simp⟩
  case written =>
    have keeps := writeRecord_keeps (tag := tag) (st := st) (info := info) h hd
    have hphase : 1 - (queueAt s q).cplTail / 2 ^ (queueAt s q).cplLog % 2 < 256 := by omega
    obtain ⟨htag, hst, hp, hinfo⟩ := cplBytes_fields (tag := tag) (st := st) (info := info) hphase
    have hlen : (nextRecord (queueAt s q) tag st info).length = 16 := length_cplBytes
    have hread (off n : Nat) (h : off + n ≤ 16) : leNat (bytesAt 0 (writeRecord s q tag st info).hostMem
        (cplPlace (queueAt s q) + off) n) = fieldAt (nextRecord (queueAt s q) tag st info) off n := by
      rw [keeps.hostMem]
      exact leNat_bytesAt_putBytes (by rwa [hlen])
    refine ⟨?_, fun x hx => ?_, (hread 0 4 (by decide)).trans htag, (hread 4 2 (by decide)).trans hst,
      (hread 6 1 (by decide)).trans hp, (hread 8 8 (by decide)).trans hinfo, fun x => ?_, keeps.tiles, keeps.parts⟩
    · rw [queueAt, keeps.queues]
      exact cplTail_recordWritten _
    · rw [hostByte, keeps.hostMem]
      exact get_putBytes_outside (by rwa [hlen])
    · rw [devByte, keeps.mem]
      rfl
  case none =>
    rw [faultTo_eq]
    split
    · rfl
    next hen => exact if_pos (h.resolve_left hen)
  case full =>
    rw [faultTo_eq, if_neg (by simp [hen]), if_neg (by omega), if_pos hfull]
  case fault =>
    have hphase : 1 - Tbl.get 0 s.host.evtWritten fn / 2 ^ (regGet s ⟨.hostEvtbase, fn, 0⟩ % 32) % 2 < 256 := by omega
    obtain ⟨hseq, hst, hpart, hp, hnow, haddr, hval, hq⟩ := faultBytes_fields (st := st) (part := part)
      (seq := Tbl.get 0 s.host.evtWritten fn) (now := s.now) (addr := r.addr) (value := regRead s r % 2 ^ 32) (queue := queue) hphase
    rw [faultTo_eq, if_neg (by simp [hen]), if_neg (by omega), if_neg (by omega)]
    have keeps := SignalKeeps.signalVec (faultWritten s fn (faultRecord s fn st part r queue)) fn 0
    rw [Nat.mod_mod] at hval
    have hread (off n : Nat) (h : off + n ≤ 32) : leNat (bytesAt 0 (signalVec (faultWritten s fn
        (faultRecord s fn st part r queue)) fn 0).hostMem (faultPlace s fn + off) n) = fieldAt (faultRecord s fn st part r queue) off n := by
      rw [keeps.hostMem]
      exact leNat_bytesAt_putBytes (by rwa [length_faultRecord])
    have hread0 := hread 0 4 (by decide)
    rw [Nat.add_zero] at hread0
    refine ⟨?_, fun x hx => ?_, hread0.trans hseq, (hread 4 2 (by decide)).trans hst,
      (hread 6 1 (by decide)).trans hpart, (hread 7 1 (by decide)).trans hp, (hread 8 8 (by decide)).trans hnow,
      (hread 16 8 (by decide)).trans haddr, (hread 24 4 (by decide)).trans hval,
      (hread 28 4 (by decide)).trans hq, fun x => ?_, keeps.regs, keeps.tiles, keeps.parts⟩
    · rw [keeps.evtWritten, evtWritten_faultWritten, Tbl.get_put_self]
    · rw [hostByte, keeps.hostMem]
      exact get_putBytes_outside (by rwa [length_faultRecord])
    · rw [devByte, keeps.mem]
      rfl

/-! ### A partition's new epoch -/

/-- The new epoch at one tile of the partition. -/
def newEpoch (p : Nat) (s : State) (t : Nat) : State :=
  modTile (emptyNewt s (liveTile s t)) (liveTile s t) fun x => { x with epoch := (partAt s p).epoch }

/-- A tile has the epoch and, unless it is retired, an EMPTY newt. -/
def HasEpoch (e : BitVec 16) (x : Tile) (retired : Prop) : Prop := x.epoch = e ∧ (¬ retired → x.st = .empty ∧ x.image = none)

section
variable {s : State} {p t k : Nat}

theorem partAt_newEpoch (q : Nat) : partAt (newEpoch p s t) q = partAt s q := rfl
theorem liveTile_newEpoch (k : Nat) : liveTile (newEpoch p s t) k = liveTile s k := rfl

theorem tileAt_newEpoch_other (h : k ≠ liveTile s t) : tileAt (newEpoch p s t) k = tileAt s k := by
  simp only [newEpoch, emptyNewt, tileAt_modTile, if_neg h]

theorem hasEpoch_newEpoch : HasEpoch (partAt s p).epoch (tileAt (newEpoch p s t) (liveTile s t)) ((tileAt s (liveTile s t)).st = .retired) := by
  simp only [HasEpoch, newEpoch, emptyNewt, tileAt_modTile, if_true, true_and]
  intro h
  rw [if_neg h]
  exact ⟨rfl, rfl⟩

theorem retired_newEpoch (h : (tileAt (newEpoch p s t) k).st = .retired) : (tileAt s k).st = .retired := by
  by_cases hk : k = liveTile s t
  · by_contra hne
    subst hk
    have := ((hasEpoch_newEpoch (p := p)).2 hne).1
    simp [this] at h
  · rwa [tileAt_newEpoch_other hk] at h

/-- Once a tile has the epoch, the others' turns leave it so; and the last turn of its own gives it. -/
theorem hasEpoch_forEach {retired : Prop} (l : List Nat) (s : State) (hret : (tileAt s k).st = .retired → retired)
    (h : HasEpoch (partAt s p).epoch (tileAt s k) retired ∨ k ∈ l.map (liveTile s)) :
    HasEpoch (partAt s p).epoch (tileAt (forEach l s (newEpoch p)) k) retired := by
  induction l generalizing s with
  | nil => simpa [forEach] using h
  | cons t l ih =>
    refine ih (newEpoch p s t) (fun hr => hret (retired_newEpoch hr)) ?_
    by_cases hk : k = liveTile s t
    · refine .inl ⟨?_, fun hr => ?_⟩
      · subst hk; exact (hasEpoch_newEpoch (p := p)).1
      · subst hk; exact (hasEpoch_newEpoch (p := p)).2 fun h => hr (hret h)
    · rw [tileAt_newEpoch_other hk]
      exact h.imp id fun h => (List.mem_cons.1 h).resolve_left hk

/-- The state with the partition's epoch advanced, before the tiles have it. -/
theorem advanceEpoch_eq (s : State) (p : Nat) : advanceEpoch s p = tierNotice s
    (forEach (partTiles s p) (modPart s p fun q => { q with epoch := q.epoch + 1 }) (newEpoch p)) p := by
  rw [advanceEpoch]
  congr 2
  simp [partTiles]

end

/-- Settles O32: by induction on the tiles of the partition. -/
theorem epochReachesEveryTileOfThePartition : Obligations.EpochReachesEveryTileOfThePartition := by
  intro s p
  obtain ⟨mem, regs, host, out, hframe⟩ := FaultFrame.tierNotice s
    (forEach (partTiles s p) (modPart s p fun q => { q with epoch := q.epoch + 1 }) (newEpoch p)) p
  have hparts (q : Nat) : partAt (advanceEpoch s p) q = partAt (modPart s p fun q => { q with epoch := q.epoch + 1 }) q := by
    rw [advanceEpoch_eq, hframe]
    show partAt (forEach _ _ (newEpoch p)) q = _
    exact forEach_keeps_of_mem (view := fun s => partAt s q) (f := newEpoch p) (fun _ _ _ => rfl) _
  have htiles (k : Nat) : tileAt (advanceEpoch s p) k = tileAt (forEach (partTiles s p)
      (modPart s p fun q => { q with epoch := q.epoch + 1 }) (newEpoch p)) k := by
    rw [advanceEpoch_eq, hframe]
    rfl
  refine ⟨by simp [hparts], by simp [hparts], fun q hq => by simp [hparts, hq], fun t ht => ?_⟩
  have h := hasEpoch_forEach (p := p) (k := liveTile s t) (partTiles s p) (modPart s p fun q => { q with epoch := q.epoch + 1 })
    (retired := (tileAt s (liveTile s t)).st = .retired) id (.inr (List.mem_map_of_mem ht))
  rw [htiles]
  simpa [HasEpoch] using h

/-! ### The elements of an MMA -/

theorem foldl_keeps_of_mem {α β γ : Type} {view : β → γ} {f : β → α → β} {l : List α} (h : ∀ b, ∀ a ∈ l, view (f b a) = view b) (b : β) :
    view (l.foldl f b) = view b := by
  induction l generalizing b with
  | nil => rfl
  | cons a l ih => rw [List.foldl_cons, ih (fun b c hc => h b c (List.mem_cons_of_mem a hc)), h b a List.mem_cons_self]

theorem mem_bitSet {n v i : Nat} : i ∈ bitSet n v ↔ i < n ∧ v.testBit i = true := by
  simp [bitSet, bitOf_eq_testBit]

/-- Settles O36: the fold over the active rows and columns sets no other element. -/
theorem mmaChangesOnlyActiveElements : Obligations.MmaChangesOnlyActiveElements := by
  intro x half d a
  refine ⟨rfl, rfl, fun i j hi hj h => ?_⟩
  refine foldl_keeps_of_mem (view := fun acc : Tbl AccEl × Nat => Tbl.get {} acc.1 (64 * i + j)) (fun acc i' hi' => ?_) _
  refine foldl_keeps_of_mem (view := fun acc : Tbl AccEl × Nat => Tbl.get {} acc.1 (64 * i + j)) (fun acc j' hj' => ?_) _
  obtain ⟨hi64, hrow⟩ := mem_bitSet.1 hi'
  obtain ⟨hj64, hcol⟩ := mem_bitSet.1 hj'
  refine Tbl.get_set.trans (if_neg fun he => ?_)
  obtain ⟨rfl, rfl⟩ : i = i' ∧ j = j' := by omega
  obtain h | h := h
  · exact absurd (h.symm.trans hrow) (by decide)
  · exact absurd (h.symm.trans hcol) (by decide)

end Sys2Proof.Machine
end

section
/-! PROOFS. The clasp pin and the coolant flags (R894, R901), and the start (R856 to R862). -/

namespace Sys2Proof.Machine
open Sys2Proof

/-! ### Clasps and coolant -/

theorem FaultFrame.boot {s t : State} (h : FaultFrame s t) : t.boot = s.boot := by
  obtain ⟨mem, regs, host, out, rfl⟩ := h
  rfl

theorem FaultFrame.clspHold {s t : State} (h : FaultFrame s t) : t.clspHold = s.clspHold := by
  obtain ⟨mem, regs, host, out, rfl⟩ := h
  rfl

theorem NetFrame.boot {s t : State} (h : NetFrame s t) : t.boot = s.boot := by
  obtain ⟨⟨fab, regs, out, fresh, rfl⟩, -⟩ := h
  rfl

theorem NetFrame.clspHold {s t : State} (h : NetFrame s t) : t.clspHold = s.clspHold := by
  obtain ⟨⟨fab, regs, out, fresh, rfl⟩, -⟩ := h
  rfl

theorem and_not_allClasps (v : BitVec 18) : v &&& ~~~BitVec.ofNat 18 (sumN (allClasps.map (2 ^ ·))) = 0 := by
  rw [show BitVec.ofNat 18 (sumN (allClasps.map (2 ^ ·))) = BitVec.allOnes 18 by decide, BitVec.not_allOnes]
  exact BitVec.and_zero

theorem clasps_of_fabKept {f g : Fabric} (h : fabKept f = fabKept g) : f.clasps = g.clasps := congrArg Prod.fst h

/-- All clasps closed, before their links are bypassed. -/
def claspsShut (s : State) : State :=
  let t := setClasps s (s.fab.clasps &&& ~~~BitVec.ofNat 18 (sumN (allClasps.map (2 ^ ·))))
  { t with fab := { t.fab with joins := t.fab.joins.filter fun e => !(allClasps.any fun c => c / 6 == e.1) } }

theorem closeAll_eq (s : State) : closeAll s = forEach (allClasps.flatMap claspLinks) (claspsShut s) bypassLink := rfl

theorem clasps_claspsShut (s : State) : (claspsShut s).fab.clasps = 0 := and_not_allClasps s.fab.clasps

/-- Once all clasps close, none is open. -/
theorem clasps_closeAll (s : State) : (closeAll s).fab.clasps = 0 := by
  have hlinks : LinkFrame (claspsShut s) (closeAll s) := by
    rw [closeAll_eq]
    refine LinkFrame.forEach (fun s l hl => ?_) _
    obtain ⟨c, hc, hlc⟩ := List.mem_flatMap.1 hl
    exact .bypassLink (LinkFrame.claspLinks_lt (List.mem_range.1 hc) hlc) s
  rw [← clasps_claspsShut s]
  exact clasps_of_fabKept hlinks.2

/-- Settles O30: by the branch of each pin and flag. -/
theorem pinsAndCoolantFlags : Obligations.PinsAndCoolantFlags := by
  refine ⟨fun s => ⟨fun hp hph => ?_, fun hp hph => ?_, ?_, ?_, clasps_closeAll _, fun hp => ?_⟩, fun s => rfl,
    fun s => ⟨fun hp hdt hmw => ?_, fun h => ?_, fun hp hin => ?_, fun h => ?_⟩⟩
  · rw [exec_clspHoldAssert, doClspHoldAssert]
    dsimp only
    rw [if_neg (by simp [hp])]
    exact congrArg (fun t => Host.Outcome.next (commit s t)) (if_neg hph)
  · rw [exec_clspHoldAssert, doClspHoldAssert]
    dsimp only
    rw [if_neg (by simp [hp])]
    exact congrArg (fun t => Host.Outcome.next (commit s t)) (if_pos hph)
  · rw [(NetFrame.closeAll _).boot, (FaultFrame.faultReg ..).boot]
  · rw [(NetFrame.closeAll _).clspHold, (FaultFrame.faultReg ..).clspHold]
  · rw [exec_clspHoldAssert, doClspHoldAssert]
    exact congrArg (fun t => Host.Outcome.next (commit s t)) (if_pos hp)
  · rw [exec_lowFlow, doLowFlow]
    exact congrArg (fun t => Host.Outcome.next (commit s t)) (if_pos ⟨hp, hdt, hmw⟩)
  · rw [exec_lowFlow, doLowFlow]
    refine congrArg (fun t => Host.Outcome.next (commit s t)) (if_neg ?_)
    rintro ⟨hp, hdt, hmw⟩
    obtain h | h | h := h
    · simp_all
    · exact absurd hdt (Int.not_lt.2 h)
    · exact absurd hmw (Nat.not_lt.2 h)
  · rw [exec_hotInlet, doHotInlet]
    exact congrArg (fun t => Host.Outcome.next (commit s t)) (if_pos ⟨hp, hin⟩)
  · rw [exec_hotInlet, doHotInlet]
    refine congrArg (fun t => Host.Outcome.next (commit s t)) (if_neg ?_)
    rintro ⟨hp, hin⟩
    obtain h | h := h
    · simp_all
    · exact absurd hin (Int.not_lt.2 h)

end Sys2Proof.Machine
end

section
/-! PROOFS. The start from power to RUN (R856 to R862). -/

namespace Sys2Proof.Machine
open Sys2Proof

/-! ### The selector -/

section
variable {s t : State}

theorem recCurrent_congr (h : s.boot.flash = t.boot.flash) (k : RecKind) : recCurrent s k = recCurrent t k := by
  have hbytes (a n : Nat) : flashBytes s a n = flashBytes t a n := by rw [flashBytes, flashBytes, h]
  have hcopy (i : Nat) : recCopy s k i = recCopy t k i := by
    unfold recCopy
    rw [hbytes]
  rw [recCurrent, recCurrent, hcopy, hcopy]

/-- The selector depends on the flash alone. -/
theorem selector_congr (h : s.boot.flash = t.boot.flash) : selector s = selector t := by
  rw [selector, selector, recCurrent_congr h]

end

/-! ### What the steps of a start leave -/

/-- The parts of the module that the tests and samples of a start leave as they are. -/
def startView (s : State) : Power × Boot × Fabric × Fuses × Tbl Byte × Tbl Part × Tbl KeySlot × List Bytes :=
  (s.pwr, s.boot, s.fab, s.fuses, s.mem, s.parts, s.sec.slots, s.sec.log)

section
variable (s : State)

theorem startView_takeSpare (t : Nat) : startView (takeSpare s t) = startView s := by
  unfold takeSpare
  dsimp only
  split <;> rfl

theorem startView_selfTest (fs : List SelfTestFault) : startView (selfTest s fs) = startView s := by
  unfold selfTest
  dsimp only
  rw [forEach_keeps_of_mem (view := startView) (f := takeSpare) (fun s t _ => startView_takeSpare s t),
    forEach_keeps_of_mem (view := startView) (f := fun s t => modTile s t fun x => { x with st := .retired }) (fun _ _ _ => rfl),
    forEach_keeps_of_mem (view := startView) (f := fun s t => regSet s ⟨.strSelftest, t, 0⟩ (selfTestWord fs t)) (fun _ _ _ => rfl)]

theorem startView_failTraining (u : Bool × Nat) : startView (failTraining s u) = startView s := by
  unfold failTraining setUnitNo
  split <;> rfl

theorem startView_capTest (cap : Nat) : startView (capTest s cap) = startView s := rfl

theorem startView_firstWindow : startView (firstWindow s) = startView s := by
  unfold firstWindow
  simp only [takeFree]
  rw [paceWindow_keeps startView fun _ _ _ => rfl]
  rfl

theorem startView_freshNonce : startView (freshNonce s) = startView s := rfl

end

/-- The module with its power on and its straps sampled. -/
def poweredModule (s : State) (env : StartEnv) : State :=
  sampleStraps (regPut (regPut (setPwr (offState s) fun p => { p with powered := true, switchOpen := false, rampFrom := 3 })
    vreqR 0 3 3) vreqR 8 3 3) env.straps

/-- The module before its ROM reads the owner's area. -/
def testedModule (s : State) (env : StartEnv) : State :=
  freshNonce (firstWindow (capTest (forEach (badUnits env) (selfTest (poweredModule s env) env.selfTest) failTraining) env.cap10uF))

section
variable (s : State) (env : StartEnv)

theorem startModule_eq : startModule s env
    = trySlot (readOwner (testedModule s env)) (firstSlot (readOwner (testedModule s env))) := rfl

theorem startView_testedModule : startView (testedModule s env) = startView (poweredModule s env) := by
  rw [testedModule, startView_freshNonce, startView_firstWindow, startView_capTest,
    forEach_keeps_of_mem (view := startView) (fun s u _ => startView_failTraining s u), startView_selfTest]

theorem firstSlot_eq : firstSlot s = if (selector s).2 then 1 - (selector s).1 else (selector s).1 := by
  unfold firstSlot
  generalize selector s = sel
  rfl

theorem selector_trySlot (k : Nat) : selector (trySlot s k) = selector s := selector_congr rfl

theorem slot_trySlot (k : Nat) : (trySlot s k).boot.slot = k := rfl

theorem readOwner_eq : readOwner s = setBoot (setSec s fun x =>
    { x with ownerKey := (ownerRec s).1, lock := (ownerRec s).2.1, once := (ownerRec s).2.2 }) fun b => { b with count := startCount s } := by
  unfold readOwner
  generalize ownerRec s = owner
  rfl

theorem sec_setSec (f : Security → Security) : (setSec s f).sec = f s.sec := rfl

theorem boot_setBoot (f : Boot → Boot) : (setBoot s f).boot = f s.boot := rfl

theorem trySlot_readOwner (t : State) (k : Nat) : (trySlot (readOwner t) k).pwr = t.pwr ∧ (trySlot (readOwner t) k).fab = t.fab
    ∧ (trySlot (readOwner t) k).fuses = t.fuses ∧ (trySlot (readOwner t) k).mem = t.mem ∧ (trySlot (readOwner t) k).parts = t.parts
    ∧ (trySlot (readOwner t) k).sec.slots = t.sec.slots ∧ (trySlot (readOwner t) k).sec.log = t.sec.log := by
  simp only [trySlot, readOwner_eq, setBoot_pwr, setBoot_fab, setBoot_fuses, setBoot_mem, setBoot_parts, setBoot_sec, setSec_pwr,
    setSec_fab, setSec_fuses, setSec_mem, setSec_parts, sec_setSec, and_self]

theorem boot_trySlot_readOwner (t : State) (k : Nat) : (trySlot (readOwner t) k).boot.phase = .verify
    ∧ (trySlot (readOwner t) k).boot.imageOk = false ∧ (trySlot (readOwner t) k).boot.tiersFilled = t.boot.tiersFilled
    ∧ (trySlot (readOwner t) k).boot.tried = t.boot.tried ∧ (trySlot (readOwner t) k).boot.flash = t.boot.flash
    ∧ (trySlot (readOwner t) k).boot.straps = t.boot.straps := by
  simp only [trySlot, readOwner_eq, boot_setBoot, setSec_boot, and_self]

theorem startModule_leaves : (startModule s env).pwr.powered = true ∧ (startModule s env).pwr.brake = false
    ∧ (startModule s env).pwr.holdup = false ∧ (startModule s env).boot.phase = .verify ∧ (startModule s env).boot.imageOk = false
    ∧ (startModule s env).boot.tiersFilled = false ∧ (startModule s env).boot.tried = []
    ∧ (startModule s env).boot.flash = s.boot.flash ∧ (startModule s env).fuses = s.fuses
    ∧ (startModule s env).boot.straps = env.straps ∧ (startModule s env).fab.phys = env.straps.setWidth 15
    ∧ (startModule s env).mem = [] ∧ (startModule s env).parts = [] ∧ (startModule s env).sec.slots = []
    ∧ (startModule s env).sec.log = [] := by
  have hview := startView_testedModule s env
  simp only [startView, Prod.mk.injEq] at hview
  obtain ⟨hpwr, hboot, hfab, hfuses, hmem, hparts, hslots, hlog⟩ := hview
  obtain ⟨hpwr', hfab', hfuses', hmem', hparts', hslots', hlog'⟩ :=
    trySlot_readOwner (testedModule s env) (firstSlot (readOwner (testedModule s env)))
  obtain ⟨hphase, hok, hfilled, htried, hflash, hstraps⟩ :=
    boot_trySlot_readOwner (testedModule s env) (firstSlot (readOwner (testedModule s env)))
  rw [startModule_eq, hpwr', hfab', hfuses', hmem', hparts', hslots', hlog', hphase, hok, hfilled, htried, hflash, hstraps, hpwr, hboot,
    hfab, hfuses, hmem, hparts, hslots, hlog]
  exact ⟨rfl, rfl, rfl, rfl, rfl, rfl, rfl, rfl, rfl, rfl, rfl, rfl, rfl, rfl, rfl⟩

theorem slot_startModule : (startModule s env).boot.slot = (if (selector (startModule s env)).2 then 1 - (selector (startModule s env)).1
    else (selector (startModule s env)).1) := by
  rw [startModule_eq, selector_trySlot, slot_trySlot, firstSlot_eq]

end

/-! ### Slots -/

section
variable {s : State} {st : Status}

theorem bne_eq_decide_ne (a b : Nat) : (a != b) = decide (a ≠ b) := by
  by_cases h : a = b <;> simp [h]

/-- A slot is never the other one. -/
theorem contains_other {l : List Nat} {k : Nat} : (l ++ [k]).contains (1 - k) = l.contains (1 - k) := by
  have hk : ¬ (1 - k = k) := by omega
  simp [hk]

theorem slotFailed_of_untried (h : s.boot.tried.contains (1 - s.boot.slot) = false) : slotFailed s st = { s with boot :=
    { s.boot with
      lastErr := st, tried := s.boot.tried ++ [s.boot.slot], slot := 1 - s.boot.slot
      fallback := decide (1 - s.boot.slot ≠ (selector s).1), phase := .verify, imageOk := false } } := by
  have hsel : selector (setBoot s fun b => { b with lastErr := st, tried := b.tried ++ [s.boot.slot] }) = selector s := selector_congr rfl
  rw [slotFailed]
  dsimp only
  rw [show (setBoot s fun b => { b with lastErr := st, tried := b.tried ++ [s.boot.slot] }).boot.tried.contains (1 - s.boot.slot)
    = s.boot.tried.contains (1 - s.boot.slot) from contains_other, if_neg (by simpa using h), trySlot, hsel, bne_eq_decide_ne]
  rfl

theorem slotFailed_of_tried (h : s.boot.tried.contains (1 - s.boot.slot) = true) : slotFailed s st = { s with boot :=
    { s.boot with
      lastErr := st, tried := s.boot.tried ++ [s.boot.slot], phase := .recovery, verified := none, rstatus := stOk } } := by
  rw [slotFailed]
  dsimp only
  rw [show (setBoot s fun b => { b with lastErr := st, tried := b.tried ++ [s.boot.slot] }).boot.tried.contains (1 - s.boot.slot)
    = s.boot.tried.contains (1 - s.boot.slot) from contains_other, if_pos h]
  rfl

/-- The selector written where a good slot was on trial against it. -/
def namedSlot (s : State) : State :=
  if (selector s).2 = true ∧ s.boot.slot ≠ (selector s).1 then writeSelector s s.boot.slot false else s

theorem slotGood_eq : slotGood s = (let t := setBoot (namedSlot s) fun b =>
    { b with imageOk := true, digests := sectionDigests (namedSlot s) s.boot.slot, phase := .fill }
    if t.boot.tiersFilled then release t else t) := by
  unfold slotGood namedSlot
  generalize selector s = sel
  rfl

theorem tiersFilled_namedSlot : (namedSlot s).boot.tiersFilled = s.boot.tiersFilled := by
  unfold namedSlot
  split <;> rfl

theorem boot_regrant (s : State) : (regrant s).boot = s.boot := by
  by_cases h : regFld s ⟨.pwrVreq, 0, 0⟩ 8 3 = wantedState s
  · rw [regrant_of_same h]
  · rw [regrant_of_new h]
    rfl

theorem boot_measure (s : State) (index event : Nat) (digest : Bytes) : (measure s index event digest).boot = s.boot := by
  unfold measure
  dsimp only
  split <;> rfl

theorem boot_measureAll (s : State) (event k : Nat) : (measureAll s event k).boot = s.boot := by
  unfold measureAll
  dsimp only
  rw [boot_measure, boot_measure, forEach_keeps_of_mem (view := State.boot) (fun s i _ => boot_measure ..), boot_measure]

/-- The fields of the image in force, before its links. -/
def imgFields (s : State) (k : Nat) : State :=
  let h := imgHeader s k
  let b := secBytes s k (secOf h 6)
  let s := setBoot { s with fab := { s.fab with ext := cfgExt b } } fun x =>
    { x with cfg := b, fwActive := BitVec.ofNat 32 (ihVersion h), svn := ihSvn h, libVersion := ihLib h
             range := outside s.fab.phys.toNat (cfgExt b) }
  s

/-- A link under an image. -/
def imgLink (b : Bytes) (s : State) (l : Nat) : State :=
  let s := regPut s ⟨.lnkCtrl, l, 0⟩ 0 1 (fieldAt b 0x10 8 / 2 ^ l % 2)
  modLink s l fun x => if x.st = .bypassed ∨ x.st = .disabled then
    { x with st := if axisExtent s l ≤ 1 then .disabled else .bypassed } else x

theorem setImg_eq (s : State) (k : Nat) : ∃ v, setImg s k false = regrant (regPut (forEach (List.range 36)
    (regPut (regPut (imgFields s k) ⟨.secStat, 0, 0⟩ 16 4 v) ⟨.timeCtrl, 0, 0⟩ 0 1
      (fieldAt (secBytes s k (secOf (imgHeader s k) 6)) 0xB 1 % 2)) (imgLink (secBytes s k (secOf (imgHeader s k) 6))))
    vreqR 0 3 (fieldAt (secBytes s k (secOf (imgHeader s k) 6)) 9 1)) := by
  unfold setImg
  exact ⟨_, rfl⟩

theorem boot_setImg (s : State) (k : Nat) : (setImg s k false).boot = { s.boot with
    cfg := secBytes s k (secOf (imgHeader s k) 6), fwActive := BitVec.ofNat 32 (ihVersion (imgHeader s k)), svn := ihSvn (imgHeader s k)
    libVersion := ihLib (imgHeader s k)
    range := outside s.fab.phys.toNat (cfgExt (secBytes s k (secOf (imgHeader s k) 6))) } := by
  obtain ⟨v, h⟩ := setImg_eq s k
  rw [h, boot_regrant, regPut_boot, forEach_keeps_of_mem (view := State.boot) (f := imgLink _) (fun _ _ _ => rfl), regPut_boot, regPut_boot]
  rfl

theorem boot_release (s : State) : (release s).boot.phase = .load ∧ (release s).boot.counted = true
    ∧ (release s).boot.slot = s.boot.slot ∧ (release s).boot.cfg = secBytes s s.boot.slot (secOf (imgHeader s s.boot.slot) 6) := by
  have hcount (t : State) : (countStart t).boot.slot = t.boot.slot ∧ (countStart t).boot.cfg = t.boot.cfg := by
    unfold countStart
    dsimp only
    split <;> exact ⟨rfl, rfl⟩
  have hif : (if s.boot.counted then setImg s s.boot.slot false else countStart (setImg s s.boot.slot false)).boot.slot
        = (setImg s s.boot.slot false).boot.slot
      ∧ (if s.boot.counted then setImg s s.boot.slot false else countStart (setImg s s.boot.slot false)).boot.cfg
        = (setImg s s.boot.slot false).boot.cfg := by
    split
    · exact ⟨rfl, rfl⟩
    · exact hcount _
  rw [release]
  simp only [setBoot, boot_measureAll, hif, boot_setImg, and_self]

end

/-! ### RUN -/

theorem boot_doAdmqEnable (fn : FnId) (s : State) : (doAdmqEnable fn s).boot = s.boot := by
  unfold doAdmqEnable
  dsimp only
  split
  · rfl
  split
  · rfl
  split <;> rfl

theorem boot_wantedAdmq (s : State) : (wantedAdmq s).boot = s.boot :=
  forEach_keeps_of_mem (view := State.boot) (f := fun s f => doAdmqEnable (Fin.ofNat 17 f) s) (fun s _ _ => boot_doAdmqEnable _ s) _

theorem FaultFrame.runRecords (s : State) : FaultFrame s (runRecords s) := by
  have hif (t : State) (c : Prop) [Decidable c] (r : Reg) : FaultFrame t (if c then Machine.faultReg t 0xFF r else t) := by
    split
    · exact .faultReg ..
    · exact .refl t
  exact (hif s _ _).trans ((hif _ _ _).trans (hif _ _ _))

theorem LinkFrame.setClasps (s : State) (v : BitVec 18) : NetFrame s (Machine.setClasps s v) := .fab s _

theorem NetFrame.openClasps {cs : List Nat} (hcs : ∀ c ∈ cs, c < 18) (s : State) : NetFrame s (Machine.openClasps s cs) := by
  unfold Machine.openClasps
  dsimp only
  split
  · exact .refl s
  · refine (LinkFrame.setClasps s _).trans (.forEach (fun s l hl => ?_) _)
    obtain ⟨c, hc, hlc⟩ := List.mem_flatMap.1 hl
    split
    · exact (LinkFrame.startTraining (LinkFrame.claspLinks_lt (hcs c hc) hlc) s).net
    · exact .refl s

theorem NetFrame.startJoin (s : State) : NetFrame s (Machine.startJoin s) := by
  unfold Machine.startJoin
  split
  · exact .refl s
  · refine .forEach (fun s a ha => ?_) s
    have ha := List.mem_range.1 ha
    split
    · exact .refl s
    · refine (LinkFrame.setJoin s a _).net.trans ((openClasps (fun c hc => ?_) _).trans (LinkFrame.joinReady _ a).net)
      simp only [List.mem_cons, List.not_mem_nil, or_false] at hc
      omega

theorem boot_reachRun (s : State) : (reachRun s).boot = { (loadLib s).boot with phase := .run } := by
  have hrun : (wantedAdmq (runRecords (setBoot (loadLib s) fun b => { b with phase := .run }))).boot
      = { (loadLib s).boot with phase := .run } := by
    rw [boot_wantedAdmq, (FaultFrame.runRecords _).boot]
    rfl
  rw [reachRun]
  dsimp only
  split
  · rw [(NetFrame.startJoin _).boot, hrun]
  · exact hrun

/-- The status of a failure that has none of its own is no success. -/
theorem isSuccess_someFailure (s : State) : isSuccess (someFailure s).1 = false := by
  show isSuccess (nth stImageBad (statusCatalogue.filter fun c => !isSuccess c) _) = false
  rw [nth]
  cases hget : (statusCatalogue.filter fun c => !isSuccess c)[Config.freeNat s.fresh % (statusCatalogue.filter fun c => !isSuccess c).length]? with
  | none => decide
  | some st =>
    have hst := (List.mem_filter.1 (List.mem_of_getElem? hget)).2
    simpa using hst

/-- Settles O16: each event by its phase; the start by what its tests leave. -/
theorem startRunsThroughItsPhases : Obligations.StartRunsThroughItsPhases := by
  refine ⟨fun s mv env => ⟨fun hp hlo hhi => ?_, fun h => ?_⟩, fun s env => ?start, fun s => ⟨fun h => ?_, fun h => ?_⟩, fun s => ?good,
    fun s st => ⟨slotFailed_of_untried, slotFailed_of_tried⟩, fun s => ⟨fun hf hph hi => ?_, fun hf hph => ?_, fun h => ?_⟩,
    boot_release, fun s => ⟨fun h => ?_, fun h => ?_⟩, fun s => ?run, fun s => ⟨fun h => ?_, fun h => ?_⟩,
    fun s d mv env => ⟨fun hp hmv hh => ?_, fun hp hmv hh => ?_, fun h => ?_⟩, fun s => rfl⟩
  · rw [exec_powerOnStart, doPowerOnStart, if_pos ⟨hp, hlo, hhi⟩]; rfl
  · rw [exec_powerOnStart, doPowerOnStart, if_neg]
    rintro ⟨hp, hlo, hhi⟩
    obtain h | h | h := h
    · simp_all
    · omega
    · omega
  case start =>
    obtain ⟨h1, h2, h3, h4, h5, h6, h7, h8, h9, h10, h11, h12, h13, h14, h15⟩ := startModule_leaves s env
    exact ⟨_, rfl, h1, h2, h3, h4, h5, h6, h7, h8, h9, h10, h11, h12, h13, h14, h15, slot_startModule s env⟩
  · rw [exec_imageVerifyDone, doImageVerifyDone, if_neg (by simpa using h)]
  · rw [exec_imageVerifyDone, doImageVerifyDone, if_pos h]
  case good =>
    refine ⟨namedSlot s, rfl, fun h => ?_, fun h => ?_⟩
    · rw [slotGood_eq]
      exact if_neg (by simp [setBoot, tiersFilled_namedSlot, h])
    · rw [slotGood_eq]
      exact if_pos (tiersFilled_namedSlot.trans h)
  · rw [exec_tierFillDone, doTierFillDone, if_neg (by simp [hf, hph])]
    dsimp only
    rw [if_pos ⟨hph, hi⟩]
    rfl
  · rw [exec_tierFillDone, doTierFillDone, if_neg]
    · dsimp only
      rw [if_neg]
      · rfl
      · rintro ⟨hfill, hi⟩
        obtain h | h | ⟨-, h⟩ := hph <;> simp_all [setBoot]
    · obtain h | h | ⟨h, -⟩ := hph <;> simp [hf, h]
  · rw [exec_tierFillDone, doTierFillDone, if_pos]
    obtain h | ⟨h1, h2, h3⟩ := h
    · exact .inl h
    · exact .inr (by simp [h1, h2, h3])
  · rw [exec_enterRun, doEnterRun, if_neg (by simpa using h)]
  · rw [exec_enterRun, doEnterRun, if_pos h]
  case run => rw [boot_reachRun]; exact ⟨rfl, rfl⟩
  · refine ⟨(someFailure s).1, isSuccess_someFailure s, ?_⟩
    rw [exec_komodoRunTimeout, doKomodoRunTimeout, if_neg (by simpa using h)]
    rfl
  · rw [exec_komodoRunTimeout, doKomodoRunTimeout, if_pos h]
  · rw [exec_brownOutReset, doBrownOutReset, if_pos ⟨hp, hmv⟩, brownOut, if_neg (by simp [hh])]
  · rw [exec_brownOutReset, doBrownOutReset, if_pos ⟨hp, hmv⟩, brownOut, if_pos hh]
  · rw [exec_brownOutReset, doBrownOutReset, if_neg]
    rintro ⟨hp, hmv⟩
    obtain h | h := h
    · simp_all
    · omega

end Sys2Proof.Machine
end

section
/-! PROOFS. Key slots, the owner lock (R817 to R840), recovery (R863, R877, R878) and attestation (R831, R832, R834). -/

namespace Sys2Proof.Machine
open Sys2Proof

section
variable {s : State} {cid : Nat} {c : Cmd}

theorem flashFree_iff : flashFree s = true ↔ s.boot.op = none ∧ s.pwr.holdup = false := by
  simp [flashFree]

/-! ### Key slots -/

/-- An operation of the generation is bound to the key. -/
def isBound (gen : Byte) (k : Option Key) : Bool := match k with | some k => k.gen == gen && decide (0 < k.bound) | none => false

theorem isBound_iff {gen : Byte} {k : Option Key} : isBound gen k = true ↔ ∃ y, k = some y ∧ y.gen = gen ∧ 0 < y.bound := by
  cases k <;> simp [isBound]

theorem doAesOperationDone_eq (d : Die) (slot : Fin 64) (gen : Byte) : doAesOperationDone d slot gen s =
    if (!isBound gen (slotAt s slot.val).current && !isBound gen (slotAt s slot.val).shadow) = true then s
    else
      let t := modSlot { s with sec := { s.sec with ops := s.sec.ops.erase (d.val, slot.val, gen) } } slot.val fun x =>
        { x with current := if x.erasing then keepBound (x.current.map (unbind gen)) else x.current.map (unbind gen)
                 shadow := keepBound (x.shadow.map (unbind gen)) }
      if (slotAt s slot.val).erasing then settleSlot t slot.val else t := rfl

theorem settleSlot_of_held {k : Nat} (h : (slotAt s k).current ≠ none ∨ (slotAt s k).shadow ≠ none) : settleSlot s k = s :=
  if_pos (by simpa [Option.isSome_iff_ne_none] using h)

theorem settleSlot_of_empty {k : Nat} (hc : (slotAt s k).current = none) (hs : (slotAt s k).shadow = none) : settleSlot s k
    = forEach (slotAt s k).eraseCids (modSlot s k fun x => { gen := x.gen }) fun s cid => complete s cid stOk :=
  if_neg (by simp [hc, hs])

theorem doKeyErase_eq (hc : cmdFor s cid 0x0301 = some c) : doKeyErase cid s =
    if 64 ≤ c.byte 0 ∨ (c.fn ≠ 0 ∧ slotTaken (slotAt s (c.byte 0)) c.part = true) then complete (beginCmd s cid) cid stBadDescriptor
    else eraseSlot (beginCmd s cid) (c.byte 0) (some cid) := by
  simp only [doKeyErase, hc]
  rfl

/-! ### The owner's commands -/

theorem doOwnerInstall_eq (hc : cmdFor s cid 0x0310 = some c) (hf : flashFree s = true) : doOwnerInstall cid s =
    withPayload (beginCmd s cid) c 96 fun t b =>
      if c.fn ≠ 0 then complete t cid stBadDescriptor
      else if chargeLow t = true then complete t cid stUpdHoldup
      else if t.sec.ownerKey.isSome = true ∨ onCurve (b.take 96) = false then complete t cid stBadDescriptor
      else startOwner t (some (b.take 96), t.sec.lock, t.sec.once) (some cid) := by
  simp only [doOwnerInstall, hc, hf]
  refine congrArg (withPayload _ _ _) (funext₂ fun t b => ?_)
  exact if_congr Iff.rfl rfl (if_congr Iff.rfl rfl (if_congr (by simp) rfl rfl))

theorem doOwnerLock_eq (hc : cmdFor s cid 0x0311 = some c) (hf : flashFree s = true) : doOwnerLock cid s =
    if c.fn ≠ 0 then complete (beginCmd s cid) cid stBadDescriptor
    else if chargeLow s = true then complete (beginCmd s cid) cid stUpdHoldup
    else if s.sec.ownerKey = none then complete (beginCmd s cid) cid stBadDescriptor
    else startOwner (beginCmd s cid) (s.sec.ownerKey, true, false) (some cid) := by
  simp only [doOwnerLock, hc, hf]
  rw [if_neg (by simp)]
  refine if_congr Iff.rfl rfl (if_congr Iff.rfl rfl ?_)
  exact if_congr (Option.isNone_iff_eq_none (o := s.sec.ownerKey)) rfl rfl

theorem authStatus_eq_ok {t : State} {b : Bytes} :
    authStatus t c b = stOk ↔ c.fn = 0 ∧ chargeLow t = false ∧ tokenStatus t b = stOk := by
  have h1 : stBadDescriptor ≠ stOk := by decide
  have h2 : stUpdHoldup ≠ stOk := by decide
  unfold authStatus
  split
  next hfn => simp [hfn, h1]
  next hfn =>
    have hfn : c.fn = 0 := not_not.1 hfn
    cases hlow : chargeLow t <;> simp [hfn, h2]

theorem doOwnerAuth_of_wait {b : Bytes} {t : State} (hc : cmdFor s cid 0x0312 = some c) (hf : flashFree s = true)
    (h : payloadOf (beginCmd s cid) c = (.wait, b, t)) : doOwnerAuth cid s = s := by
  simp only [doOwnerAuth, hc, hf, h]
  rfl

theorem doOwnerAuth_of_ok {b : Bytes} {t : State} (hc : cmdFor s cid 0x0312 = some c) (hf : flashFree s = true)
    (h : payloadOf (beginCmd s cid) c = (.ok, b, t)) : doOwnerAuth cid s = if b.length < 288 then authFails t cid stBadDescriptor
      else if authStatus t c (b.take 288) = stOk then freshNonce (startOwner t (tokenEffect t (b.take 288)) (some cid))
      else authFails t cid (authStatus t c (b.take 288)) := by
  simp only [doOwnerAuth, hc, hf, h]
  rfl

theorem doOwnerAuth_of_fail {a : Acc} {b : Bytes} {t : State} (hc : cmdFor s cid 0x0312 = some c) (hf : flashFree s = true)
    (h : payloadOf (beginCmd s cid) c = (a, b, t)) (hok : a ≠ .ok) (hwait : a ≠ .wait) :
    doOwnerAuth cid s = authFails t cid (accStatus a) := by
  simp only [doOwnerAuth, hc, hf, h]
  cases a with
  | ok => exact absurd rfl hok
  | wait => exact absurd rfl hwait
  | _ => rfl

theorem owner_waits (hf : flashFree s = false) : doOwnerInstall cid s = s ∧ doOwnerLock cid s = s ∧ doOwnerAuth cid s = s := by
  have hbusy : (!flashFree s) = true := by simp [hf]
  refine ⟨?_, ?_, ?_⟩
  · unfold doOwnerInstall
    split
    · rfl
    · exact if_pos hbusy
  · unfold doOwnerLock
    split
    · rfl
    · exact if_pos hbusy
  · unfold doOwnerAuth
    split
    · rfl
    · exact if_pos hbusy

theorem length_freeBytes (k n : Nat) : (freeBytes k n).length = n := by simp [freeBytes]

theorem tokenStatus_eq (s : State) (t : Bytes) : tokenStatus s t = if tokenFields t = false then stBadDescriptor
    else match s.sec.ownerKey with
      | none => stBadDescriptor
      | some key =>
        if (t.drop 8).take 32 ≠ s.sec.nonce ∨ (t.drop 0x28).take 48 ≠ Config.sha384 Config.identityKey then stAuthFail
        else if Config.ecdsaVerify key (Config.sha384 (t.take 0xC0)) ((t.drop 0xC0).take 96) = false then stSigFail
        else stOk := by
  unfold tokenStatus
  refine if_congr (by simp) rfl ?_
  cases s.sec.ownerKey with
  | none => rfl
  | some key => exact if_congr Iff.rfl rfl (if_congr (by simp) rfl rfl)

end

/-- Settles O22: keys by what a slot holds, the owner's commands by their checks in order. -/
theorem keySlotsAndTheOwnerRecord : Obligations.KeySlotsAndTheOwnerRecord := by
  refine ⟨⟨fun s cid c hc => ?_, fun s b => ⟨fun h => ?_, fun h hcur => ?_⟩, fun k => ⟨rfl, fun h => if_pos h, fun h => if_neg h.ne'⟩,
      fun s cid c hc => ?_, fun s k => ⟨settleSlot_of_held, settleSlot_of_empty⟩, fun s d slot gen => ?aes⟩,
    fun s cid c hf => ⟨fun hc => ?_, fun hc => ?_, fun hc a b t h => ⟨fun ha => ?_, fun ha hlen => ?_, fun ha hlen => ?_,
      fun hok hwait => ?_⟩⟩,
    fun s cid hf => ?_, fun s cid st => ⟨rfl, length_freeBytes _ _⟩, tokenStatus_eq, fun s t => ⟨fun h => ?_, fun h => ?_, fun h => ?_, fun h => ?_⟩⟩
  · rw [exec_keyWrite]
    simp only [doKeyWrite, hc]
    refine congrArg (fun k => Host.Outcome.next (commit s (withPayload (beginCmd s cid) c 80 k))) (funext₂ fun t b => ?_)
    refine if_congr (by simp) rfl (if_congr Iff.rfl rfl ?_)
    cases keyOf t b <;> rfl
  · simp [keyOf, h]
  · simp [keyOf, h, hcur]
  · rw [exec_keyErase, doKeyErase_eq hc]; rfl
  case aes =>
    refine ⟨fun hc hs => ?_, fun h he => ?_, fun h he => ?_⟩
    · rw [exec_aesOperationDone, doAesOperationDone_eq, if_pos]
      have hc' : ¬ isBound gen (slotAt s slot.val).current = true := fun hb => hc (isBound_iff.1 hb)
      have hs' : ¬ isBound gen (slotAt s slot.val).shadow = true := fun hb => hs (isBound_iff.1 hb)
      simp [hc', hs']
    · rw [exec_aesOperationDone, doAesOperationDone_eq, if_neg]
      · dsimp only
        rw [if_neg (by simp [he])]
        rfl
      · obtain h | h := h.imp isBound_iff.2 isBound_iff.2 <;> simp [h]
    · rw [exec_aesOperationDone, doAesOperationDone_eq, if_neg]
      · dsimp only
        rw [if_pos he]
        rfl
      · obtain h | h := h.imp isBound_iff.2 isBound_iff.2 <;> simp [h]
  · rw [exec_ownerInstall, doOwnerInstall_eq hc hf]; rfl
  · rw [exec_ownerLock, doOwnerLock_eq hc hf]; rfl
  · rw [exec_ownerAuth, doOwnerAuth_of_wait hc hf (ha ▸ h)]
  · rw [exec_ownerAuth, doOwnerAuth_of_ok hc hf (ha ▸ h), if_neg (Nat.not_lt.2 hlen)]
    exact congrArg (fun t => Host.Outcome.next (commit s t)) (if_congr authStatus_eq_ok rfl rfl)
  · rw [exec_ownerAuth, doOwnerAuth_of_ok hc hf (ha ▸ h), if_pos hlen]
  · rw [exec_ownerAuth, doOwnerAuth_of_fail hc hf h hok hwait]
  · obtain ⟨hi, hl, ha⟩ := owner_waits (cid := cid) hf
    rw [exec_ownerInstall, exec_ownerLock, exec_ownerAuth, hi, hl, ha]
    exact ⟨rfl, rfl, rfl⟩
  · simp only [tokenEffect, tokAction, h]
  · simp only [tokenEffect, tokAction, h]
  · simp only [tokenEffect, tokAction, h, tokNewKey]
  · simp only [tokenEffect, tokAction, h]

/-! ### Recovery -/

section
variable {s : State} {v : W32} {cmd : Nat}

theorem recTakes_iff : recTakes s v.toNat cmd = true ↔ s.boot.phase = .recovery ∧ s.boot.op = none ∧ v.toNat % 16 = cmd := by
  have hbits : bitsOf v.toNat 0 4 = v.toNat % 16 := by simp [bitsOf]
  simp [recTakes, hbits, and_assoc]

theorem recWrites_iff : recWrites s v.toNat cmd = true
    ↔ (s.boot.phase = .recovery ∧ s.boot.op = none ∧ v.toNat % 16 = cmd) ∧ s.pwr.holdup = false := by
  rw [recWrites, Bool.and_eq_true, recTakes_iff, flashFree_iff]
  exact ⟨fun ⟨h, _, hh⟩ => ⟨h, hh⟩, fun ⟨h, hh⟩ => ⟨h, h.2.1, hh⟩⟩

theorem not_recWrites (h : ¬ (s.boot.phase = .recovery ∧ s.boot.op = none ∧ v.toNat % 16 = cmd) ∨ s.pwr.holdup = true) :
    (!recWrites s v.toNat cmd) = true := by
  rw [Bool.not_eq_true', ← Bool.not_eq_true, recWrites_iff]
  rintro ⟨ht, hh⟩
  obtain h | h := h
  · exact h ht
  · simp [hh] at h

theorem recWrites_of (ht : s.boot.phase = .recovery ∧ s.boot.op = none ∧ v.toNat % 16 = cmd) (hh : s.pwr.holdup = false) :
    ¬ (!recWrites s v.toNat cmd) = true := by
  rw [recWrites_iff.2 ⟨ht, hh⟩]
  decide

theorem recSlot_eq (n : Nat) : recSlot n = n / 16 % 2 := by simp [recSlot, bitsOf]

theorem regGet_putSlot {n : Nat} {q : Reg} (h : q.key ≠ Reg.key ⟨.bootRcmd, 0, 0⟩) : regGet (putSlot s n) q = regGet s q :=
  regGet_regPut_other h

theorem updateRefused_putSlot (n : Nat) : updateRefused (putSlot s n) = if s.sec.lock = true then some stUpdLock
    else if regFld s ⟨.pwrHoldup, 0, 0⟩ 0 7 < 90 then some stUpdHoldup else none := by
  have hcharge : regFld (putSlot s n) holdupR 0 7 = regFld s ⟨.pwrHoldup, 0, 0⟩ 0 7 :=
    congrArg (bitsOf · 0 7) (regGet_putSlot (by decide))
  rw [updateRefused, chargeLow, hcharge]
  simp only [decide_eq_true_eq]
  rfl

/-- The first two checks of R865 of a recovery command. -/
theorem updateRefused_putSlot_cases (s : State) (n : Nat) : (s.sec.lock = true ∧ updateRefused (putSlot s n) = some stUpdLock)
    ∨ (s.sec.lock ≠ true ∧ regFld s ⟨.pwrHoldup, 0, 0⟩ 0 7 < 90 ∧ updateRefused (putSlot s n) = some stUpdHoldup)
    ∨ (s.sec.lock ≠ true ∧ ¬ regFld s ⟨.pwrHoldup, 0, 0⟩ 0 7 < 90 ∧ updateRefused (putSlot s n) = none) := by
  rw [updateRefused_putSlot]
  by_cases hl : s.sec.lock = true
  · exact .inl ⟨hl, if_pos hl⟩
  · rw [if_neg hl]
    by_cases hq : regFld s ⟨.pwrHoldup, 0, 0⟩ 0 7 < 90
    · exact .inr (.inl ⟨hl, hq, if_pos hq⟩)
    · exact .inr (.inr ⟨hl, hq, if_neg hq⟩)

theorem doRecErase_of_taken (ht : s.boot.phase = .recovery ∧ s.boot.op = none ∧ v.toNat % 16 = 1) (hh : s.pwr.holdup = false) :
    doRecErase v s = if s.sec.lock = true then setRstatus (putSlot s v.toNat) stUpdLock
      else if regFld s ⟨.pwrHoldup, 0, 0⟩ 0 7 < 90 then setRstatus (putSlot s v.toNat) stUpdHoldup
      else startFlash (unverify (putSlot s v.toNat) (recSlot v.toNat)) (.erase (recSlot v.toNat) none) := by
  rw [doRecErase, if_neg (recWrites_of ht hh)]
  dsimp only
  obtain ⟨hl, h⟩ | ⟨hl, hq, h⟩ | ⟨hl, hq, h⟩ := updateRefused_putSlot_cases s v.toNat
  · rw [h, if_pos hl]
  · rw [h, if_neg hl, if_pos hq]
  · rw [h, if_neg hl, if_neg hq]

theorem doRecProgram_of_taken (ht : s.boot.phase = .recovery ∧ s.boot.op = none ∧ v.toNat % 16 = 2) (hh : s.pwr.holdup = false) :
    doRecProgram v s = if s.sec.lock = true then setRstatus (putSlot s v.toNat) stUpdLock
      else if regFld s ⟨.pwrHoldup, 0, 0⟩ 0 7 < 90 then setRstatus (putSlot s v.toNat) stUpdHoldup
      else if regGet s ⟨.bootRoff, 0, 0⟩ % 4096 ≠ 0 ∨ 0x3000000 < regGet s ⟨.bootRoff, 0, 0⟩ + 4096 then
        setRstatus (putSlot s v.toNat) stBadDescriptor
      else startFlash (unverify (putSlot s v.toNat) (recSlot v.toNat))
        (.program (recSlot v.toNat) (regGet s ⟨.bootRoff, 0, 0⟩) (bytesAt 0 s.boot.rwin 0 4096) none) := by
  have hoff : regGet (putSlot s v.toNat) ⟨.bootRoff, 0, 0⟩ = regGet s ⟨.bootRoff, 0, 0⟩ := regGet_putSlot (by decide)
  rw [doRecProgram, if_neg (recWrites_of ht hh)]
  dsimp only
  rw [hoff]
  obtain ⟨hl, h⟩ | ⟨hl, hq, h⟩ | ⟨hl, hq, h⟩ := updateRefused_putSlot_cases s v.toNat
  · rw [h, if_pos hl]
  · rw [h, if_neg hl, if_pos hq]
  · rw [h, if_neg hl, if_neg hq]
    rfl

end

/-! ### Attestation -/

section
variable {s : State} {r : Bytes} {code n : Nat} {k : State → State}

theorem noFn_zero (s : State) : noFn s 0 = s.host.perst := by simp [noFn]

theorem responder_of_unreached (h : s.host.perst = true ∨ (s.boot.phase ≠ .run ∧ s.boot.phase ≠ .pause)) : responder s r code k = s := by
  refine if_pos ?_
  rw [noFn_zero]
  exact h.imp id fun ⟨hr, hp⟩ => by simp [inRun, hr, hp]

theorem responder_of_reached (hp : s.host.perst = false) (hr : inRun s = true) : responder s r code k =
    if s.boot.phase = .pause then answer s (spError s errBusy)
    else if spCode r ≠ code then answer s (spError s errUnsupported) else k s := by
  refine if_neg ?_
  rw [noFn_zero]
  simp [hp, hr]

theorem agreed_of_algs (h : s.sec.spdmAlgs = true) : agreed s r n k = versioned s r n k := by
  simp only [agreed, versioned, h, if_true]

theorem agreed_of_none (h : s.sec.spdmAlgs = false) : agreed s r n k = versioned s r n fun s => answer s (spError s errUnexpected) := by
  simp only [agreed, versioned, h]
  rfl

/-- A request that meets the responder is answered as another continuation does where the two agree. -/
theorem agreed_congr {k k' : State → State} (h : ∀ t, k t = k' t) : agreed s r n k = agreed s r n k' := by
  rw [funext h]

theorem leBytes_one_ite {p : Prop} [Decidable p] (a b : Nat) :
    leBytes 1 (if p then a else b) = [if p then BitVec.ofNat 8 a else BitVec.ofNat 8 b] := by
  split <;> rfl

theorem spanBlocks (s : State) : (span 1 9).flatMap (measBlock s) = (List.range 9).flatMap fun i => measBlock s (i + 1) := by
  simp [span, List.flatMap_map, Nat.add_comm]

theorem askedBlocks_of_none {i : Nat} (h : (10 ≤ i ∧ i ≤ 15) ∨ (17 ≤ i ∧ i ≤ 0xFE)) : askedBlocks i = none := by
  have hmem : measIndices.contains i = false := by
    simp only [measIndices, span, List.contains_eq_mem, List.mem_append, List.mem_map, List.mem_range, List.mem_singleton,
      decide_eq_false_iff_not]
    omega
  rw [askedBlocks, if_neg (by omega), if_neg (by omega), if_neg (by rw [hmem]; decide)]

theorem askedBlocks_of_one {i : Nat} (h1 : 1 ≤ i) (h9 : i ≤ 9) : askedBlocks i = some [i] := by
  have hmem : measIndices.contains i = true := by
    simp only [measIndices, span, List.contains_eq_mem, List.mem_append, List.mem_map, List.mem_range, List.mem_singleton,
      decide_eq_true_eq]
    exact .inl ⟨i - 1, by omega, by omega⟩
  rw [askedBlocks, if_neg (by omega), if_neg (by omega), if_pos hmem]

end

/-- Settles O23: recovery commands by what is taken, requests by the state of the exchange. -/
theorem recoveryAndAttestation : Obligations.RecoveryAndAttestation := by
  refine ⟨fun s v env => ?recovery, fun s r code k => ⟨responder_of_unreached, fun hp hph => ?_, fun hp hph hc => ?_, fun hp hph hc => ?_⟩,
    fun s r n k => ⟨fun h => if_pos h, fun h hv => ?_, fun h hv hl => ?_, fun h hv hl => ?_, agreed_of_algs, agreed_of_none⟩,
    fun s r a => ⟨rfl, rfl, rfl, rfl, rfl⟩, fun s r => ?requests,
    rfl, rfl, fun i => askedBlocks_of_one, rfl, fun i h h' => askedBlocks_of_none (.inl ⟨h, h'⟩),
    fun i h h' => askedBlocks_of_none (.inr ⟨h, h'⟩)⟩
  case recovery =>
    dsimp only
    rw [← recSlot_eq]
    refine ⟨fun h => ?_, fun h => ?_, fun h => ?_, fun h => ?_, fun h => ?_, fun ht hh => ?_, fun ht hh => ?_, fun ht => ?_,
      fun ht hh => ?_, fun ht hh => ?_⟩
    · rw [exec_recErase, doRecErase, if_pos (not_recWrites h)]
    · rw [exec_recProgram, doRecProgram, if_pos (not_recWrites h)]
    · rw [exec_recVerify, doRecVerify, if_pos]
      rwa [Bool.not_eq_true', ← Bool.not_eq_true, recTakes_iff]
    · rw [exec_recAuth, doRecAuth, if_pos (not_recWrites h)]
    · rw [exec_recStart, doRecStart, if_pos (not_recWrites h)]
    · rw [exec_recErase, doRecErase_of_taken ht hh]; rfl
    · rw [exec_recProgram, doRecProgram_of_taken ht hh]; rfl
    · rw [exec_recVerify, doRecVerify, if_neg (by rw [recTakes_iff.2 ht]; decide)]; rfl
    · rw [exec_recAuth, doRecAuth, if_neg (recWrites_of ht hh), apply_ite freshNonce]; rfl
    · rw [exec_recStart, doRecStart, if_neg (recWrites_of ht hh)]
      dsimp only
      rw [ite_not]
      rfl
  · rw [responder_of_reached hp (inRun_iff.2 (.inr hph)), if_pos hph]; rfl
  · rw [responder_of_reached hp (inRun_iff.2 (.inl hph)), if_neg (by simp [hph]), if_pos (show spCode r ≠ code from hc)]; rfl
  · rw [responder_of_reached hp (inRun_iff.2 (.inl hph)), if_neg (by simp [hph]), if_neg (not_not.2 (show spCode r = code from hc))]
  · rw [versioned, if_neg h, if_pos (show spVer r ≠ _ from hv)]; rfl
  · rw [versioned, if_neg h, if_neg (not_not.2 (show spVer r = _ from hv)), if_pos hl]; rfl
  · rw [versioned, if_neg h, if_neg (not_not.2 (show spVer r = _ from hv)), if_neg (Nat.not_lt.2 hl)]
  case requests =>
    refine ⟨rfl, ?capabilities, ?algorithms, ?digests, rfl, ?challenge, ?measurements⟩
    case capabilities =>
      refine congrArg (fun k => Host.Outcome.next (commit s (responder s r 0xE1 k))) (funext fun t => ?_)
      exact if_congr (or_congr List.isEmpty_iff Iff.rfl) rfl rfl
    case algorithms =>
      refine congrArg (fun k => Host.Outcome.next (commit s (responder s r 0xE3 fun s => versioned s r 32 k))) (funext fun t => ?_)
      rw [← ite_not]
      exact if_congr (by simp [not_or]) rfl rfl
    case digests =>
      refine congrArg (fun k => Host.Outcome.next (commit s (responder s r 0x81 fun s => agreed s r 4 k))) (funext fun t => ?_)
      rw [spHead, leBytes_one_ite]
      rfl
    case challenge =>
      refine congrArg (fun k => Host.Outcome.next (commit s (responder s r 0x83 k))) (funext fun u => ?_)
      refine congrArg (agreed u r (if u.sec.spdmVersion = 0x13 then 44 else 36)) (funext fun t => ?_)
      rw [← ite_not]
      dsimp only [spContext]
      rw [spanBlocks]
      refine if_congr ?_ rfl rfl
      simp only [Bool.not_eq_true', Bool.or_eq_false_iff, beq_eq_false_iff_ne]
      tauto
    case measurements =>
      refine congrArg (fun k => Host.Outcome.next (commit s (responder s r 0xE0 k))) (funext fun u => ?_)
      have hneed : (if bitOf (fieldAt r 2 1) 0 then (if u.sec.spdmVersion = 0x13 then 45 else 37)
          else (if u.sec.spdmVersion = 0x13 then 12 else 4))
          = (if bitOf (fieldAt r 2 1) 0 then 37 else 4) + (if u.sec.spdmVersion = 0x13 then 8 else 0) := by
        split <;> split <;> rfl
      dsimp only
      rw [hneed]
      refine congrArg (agreed u r _) (funext fun t => ?_)
      cases askedBlocks (fieldAt r 3 1) with
      | none => rfl
      | some is =>
        simp only [spHead, leBytes_one_ite, takeFree]
        rfl

end Sys2Proof.Machine
end

section
/-! PROOFS. The commands of the host port: their payloads, queues, bindings, doorbells, entries, output pages and functions. -/

namespace Sys2Proof.Machine
open Sys2Proof

/-! ### Commands that are not taken up -/

section
variable {s t : State} {c : Cmd} {cid op n : Nat} {row : Nat → Instr}

theorem cmdFor_eq_some : cmdFor s cid op = some c ↔ cmdAt s cid = some c ∧ c.opcode = op ∧ c.started = false := by
  rw [cmdFor]
  cases cmdAt s cid with
  | none => simp
  | some d =>
    dsimp only
    split
    · rw [Option.some_inj]
      exact ⟨fun h => ⟨h, h ▸ ‹_›⟩, fun h => h.1⟩
    · exact ⟨nofun, fun ⟨h, hc⟩ => absurd (Option.some_inj.1 h ▸ hc) ‹_›⟩

/-- A command that names one partition is applied once that one is at rest. -/
theorem atRest_cmdPart (ho : c.opcode ≠ 0x10) (ho' : c.opcode ≠ 0x11) (h : allAtRest s c = false) : atRest s c (cmdPart s c) = false := by
  have hp : cmdParts s c = [cmdPart s c] := by
    rw [cmdParts]
    split
    · exact absurd ‹_› ho
    · exact absurd ‹_› ho'
    · rfl
  simpa [allAtRest, hp] using h

theorem next_of_none {o : Option Cmd} {k : Cmd → State} :
    o = none → Host.Outcome.next (commit s (match o with | none => s | some c => k c)) = (.next (commit s s) : Res) := by
  rintro rfl
  rfl

theorem next_of_waits {o : Option Cmd} {g : Cmd → Bool} {k : Cmd → State} (hg : g c = false) : o = some c →
    Host.Outcome.next (commit s (match o with | none => s | some c => if g c = false then s else k c)) = (.next (commit s s) : Res) := by
  rintro rfl
  exact congrArg (fun t => Host.Outcome.next (commit s t)) (if_pos hg)

theorem next_of_not_rest {o : Option Cmd} {g : Cmd → Bool} {k : Cmd → State} (hg : g c = false) : o = some c →
    Host.Outcome.next (commit s (match o with | none => s | some c => if (!g c) = true then s else k c)) = (.next (commit s s) : Res) := by
  rintro rfl
  exact congrArg (fun t => Host.Outcome.next (commit s t)) (if_pos (by rw [hg]; rfl))

theorem hostRow_of_none (hr : HostRow op row) (h : cmdFor s cid op = none) : exec (row cid) s = .next (commit s s) := by
  simp only [HostRow, List.mem_cons, Prod.mk.injEq, List.not_mem_nil, or_false] at hr
  rcases hr with h1 | h1 | h1 | h1 | h1 | h1 | h1 | h1 | h1 | h1 | h1 | h1 | h1 | h1 | h1 | h1 | h1 | h1 | h1 | h1 | h1 | h1
    | h1 | h1 | h1 | h1 | h1 | h1 | h1 | h1 | h1 | h1 | h1 | h1 | h1 | h1 | h1 | h1 | h1 | h1
  all_goals
    obtain ⟨rfl, rfl⟩ := h1
    exact next_of_none h

/-- Of the commands that wait until partitions are at rest (R722), the two of strata regions may name several. -/
theorem hostRow_of_not_rest (hr : HostRow op row) (hc : cmdFor s cid op = some c) (hop : restOpcodes.contains op = true)
    (h : allAtRest s c = false) : exec (row cid) s = .next (commit s s) := by
  obtain ⟨-, ho, -⟩ := cmdFor_eq_some.1 hc
  have one (h1 : op ≠ 0x10) (h2 : op ≠ 0x11) : atRest s c (cmdPart s c) = false := atRest_cmdPart (by omega) (by omega) h
  simp only [HostRow, List.mem_cons, Prod.mk.injEq, List.not_mem_nil, or_false] at hr
  simp only [restOpcodes, List.contains_eq_mem, List.mem_cons, List.not_mem_nil, or_false, decide_eq_true_eq] at hop
  rcases hop with h1 | h1 | h1 | h1 | h1 | h1 | h1 | h1 | h1 | h1 | h1 | h1 | h1 | h1 | h1 | h1 | h1 | h1
  all_goals subst h1; simp only [Nat.reduceEqDiff, false_and, false_or, or_false, true_and] at hr
  all_goals subst hr
  · exact next_of_waits h hc
  · exact next_of_waits h hc
  · exact next_of_waits (one (by decide) (by decide)) hc
  · exact next_of_waits (one (by decide) (by decide)) hc
  · exact next_of_waits (one (by decide) (by decide)) hc
  · exact next_of_waits (one (by decide) (by decide)) hc
  · exact next_of_not_rest (one (by decide) (by decide)) hc
  · exact next_of_not_rest (g := fun c => atRest s c (c.byte 1)) (by simpa only [cmdPart, ho] using one (by decide) (by decide)) hc
  · exact next_of_not_rest (one (by decide) (by decide)) hc
  · exact next_of_not_rest (one (by decide) (by decide)) hc
  · exact next_of_not_rest (one (by decide) (by decide)) hc
  · exact next_of_not_rest (one (by decide) (by decide)) hc
  · exact next_of_not_rest (one (by decide) (by decide)) hc
  · exact next_of_not_rest (one (by decide) (by decide)) hc
  · exact next_of_not_rest (g := fun c => atRest s c (c.byte 0)) (by simpa only [cmdPart, ho] using one (by decide) (by decide)) hc
  · exact next_of_waits (one (by decide) (by decide)) hc
  · exact next_of_waits (one (by decide) (by decide)) hc

end

section
variable {s : State} {c : Cmd} {b : Bytes} {x : VfBind}

/-- QUE_CREATE of the PF (R694, R698). -/
theorem queCreateCheck_pf (h : c.fn = 0) : queCreateCheck s c b =
    let d := queueOf b
    let q := fieldAt c.inl 0 4 % 2 ^ 20
    if (queueAt s q).st ≠ .free ∨ q ≤ 16 ∨ queueOk s d = false then (stBadDescriptor, 0, d)
    else if d.fn = 0 then (stOk, q, d)
    else (bindAt s d.fn).elim (stBadDescriptor, 0, d) fun x =>
      if x.part.val ≠ d.part ∨ (queueByVslot s d.fn d.vslot).isSome then (stBadDescriptor, 0, d)
      else if x.limit ≤ (vfQueues s d.fn).length then (stNoResource, 0, d) else (stOk, q, d) := by
  rw [queCreateCheck]
  dsimp only
  rw [if_pos h]
  cases bindAt s (queueOf b).fn <;> rfl

theorem pf_of {st : QueueState} {q : Nat} {ok : Bool} (h1 : st = .free) (h2 : 17 ≤ q) (h3 : ok = true) :
    ¬ (st ≠ .free ∨ q ≤ 16 ∨ ok = false) := by
  rintro (h | h | h)
  · exact h h1
  · omega
  · simp [h3] at h

/-- QUE_CREATE of a VF (R699). -/
theorem queCreateCheck_vf (h : c.fn ≠ 0) : queCreateCheck s c b =
    let v := fieldAt c.inl 0 2
    let e : Queue := { queueOf b with fn := c.fn, part := c.part, vslot := v }
    (bindAt s c.fn).elim (stBadDescriptor, 0, e) fun x =>
      if bitsOf (fieldAt c.inl 0 4) 16 4 ≠ 0 ∨ (queueByVslot s c.fn v).isSome ∨ queueOk s e = false then (stBadDescriptor, 0, e)
      else if x.limit ≤ (vfQueues s c.fn).length then (stNoResource, 0, e)
      else (lowestFree s).elim (stNoResource, 0, e) fun q => (stOk, q, e) := by
  rw [queCreateCheck]
  dsimp only
  rw [if_neg h]
  cases bindAt s c.fn <;> cases lowestFree s <;> rfl

theorem leNat_append (a b : Bytes) : leNat (a ++ b) = leNat a + 256 ^ a.length * leNat b := by
  induction a with
  | nil => simp [leNat]
  | cons x a ih => rw [List.cons_append, leNat, leNat, ih, List.length_cons, pow_succ]; ring

theorem leNat_lt_pow (a : Bytes) : leNat a < 256 ^ a.length := by
  induction a with
  | nil => simp [leNat]
  | cons x a ih => rw [leNat, List.length_cons, pow_succ]; have := x.isLt; omega

/-- A field's lower bytes and its upper bytes are fields of their own. -/
theorem fieldAt_split (b : Bytes) (off k n : Nat) : fieldAt b off (k + n) % 256 ^ k = fieldAt b off k
    ∧ fieldAt b off (k + n) / 256 ^ k = fieldAt b (off + k) n := by
  have hd : b.drop (off + k) = (b.drop off).drop k := by rw [List.drop_drop]
  rw [fieldAt, fieldAt, fieldAt, hd]
  generalize b.drop off = d
  rw [List.take_add, leNat_append]
  have hlt : leNat (d.take k) < 256 ^ k := lt_of_lt_of_le (leNat_lt_pow _) (Nat.pow_le_pow_right (by decide) (by simp))
  rcases Nat.lt_or_ge d.length k with h | h
  · rw [List.drop_of_length_le h.le, List.take_nil, leNat, Nat.mul_zero, Nat.add_zero]
    exact ⟨Nat.mod_eq_of_lt hlt, Nat.div_eq_of_lt hlt⟩
  · rw [List.length_take_of_le h]
    exact ⟨by rw [Nat.add_mul_mod_self_left, Nat.mod_eq_of_lt hlt],
      by rw [Nat.add_mul_div_left _ _ (by positivity), Nat.div_eq_of_lt hlt, Nat.zero_add]⟩

theorem bitsOf_fieldAt_byte2 (b : Bytes) : bitsOf (fieldAt b 0 4) 16 4 = fieldAt b 2 1 % 16 := by
  have h : fieldAt b 0 4 / 256 ^ 2 = fieldAt b 2 2 := (fieldAt_split b 0 2 2).2
  have h' : fieldAt b 2 2 % 256 ^ 1 = fieldAt b 2 1 := (fieldAt_split b 2 1 1).1
  rw [bitsOf, ← h', ← h]
  omega
end

/-- The queue that a QUE_DELETE names (R699). -/
def queNamed (s : State) (c : Cmd) : Option Nat :=
  let n := fieldAt c.inl 0 4 % 2 ^ 20
  if c.fn = 0 then some n else if n / 2 ^ 16 ≠ 0 then none else queueByVslot s c.fn n

theorem queNamed_beginCmd (s : State) (cid : Nat) (c : Cmd) : queNamed (beginCmd s cid) c = queNamed s c := rfl

theorem doQueDelete_of {s : State} {cid : Nat} {c : Cmd} (hc : cmdFor s cid 0x0003 = some c) : doQueDelete cid s =
    let u := beginCmd s cid
    (queNamed u c).elim (complete u cid stBadDescriptor) fun q =>
      if q ≤ 16 ∨ (queueAt u q).st = .free ∨ (queueAt u q).st = .draining then complete u cid stBadDescriptor
      else drainBegin u q (some cid) stAborted := by
  rw [doQueDelete, hc]
  dsimp only
  rw [← queNamed]
  cases queNamed (beginCmd s cid) c <;> rfl

/-- Settles O24: the rows of the host's commands share one shape; the four commands go by their entries' tables. -/
theorem commandsOfTheHostPort : Obligations.CommandsOfTheHostPort := by
  refine ⟨fun op row hr s cid => ⟨hostRow_of_none hr, fun c => hostRow_of_not_rest hr⟩, fun s cid op c => cmdFor_eq_some,
    fun s t c n k a b hp => ⟨?_, ?_, ?_, ?_, ?_⟩, fun s cid c => ⟨fun hc => ?_, fun hc => ?_⟩, fun s c b => ⟨fun hf => ⟨fun h => ?_,
    fun h1 h2 h3 => ⟨fun h => ?_, fun h hb => ?_, fun x h hb => ⟨fun hx => ?_, fun hx hv => ⟨fun hl => ?_, fun hl => ?_⟩⟩⟩⟩, fun hf => ⟨fun hb => ?_,
    fun x hb => ⟨fun h => ?_, fun h1 h2 h3 => ⟨fun hl => ?_, fun hl hn => ?_, fun n hl hn => ?_⟩⟩⟩⟩, fun s cid c hc => ⟨fun hn => ?_, fun q hn => ⟨fun h h' => ?_, fun h => ?_⟩⟩,
    fun s cid c hc => ?_, fun s m => ⟨fun st hr => ?_, fun hr he => ?_, fun hr he => ⟨fun r hf => ?_, fun hf => ?_⟩⟩⟩
  · rintro rfl hl
    simp only [withPayload, hp]
    rw [if_neg (Nat.not_lt.2 hl)]
  · rintro rfl hl
    simp only [withPayload, hp]
    rw [if_pos hl]
  · rintro (rfl | rfl) <;> simp only [withPayload, hp] <;> rfl
  · rintro st rfl
    simp only [withPayload, hp]
    rfl
  · rintro rfl
    simp only [withPayload, hp]
  · rw [exec_nopCommand, doNopCommand, hc]
  · simp only [exec_queCreate, doQueCreate, hc]; rfl
  · rw [queCreateCheck_pf hf]; dsimp only; rw [if_pos h]
  · rw [queCreateCheck_pf hf]; dsimp only; rw [if_neg (pf_of h1 h2 h3), if_pos h]
  · rw [queCreateCheck_pf hf]; dsimp only; rw [if_neg (pf_of h1 h2 h3), if_neg h, hb]; rfl
  · rw [queCreateCheck_pf hf]; dsimp only; rw [if_neg (pf_of h1 h2 h3), if_neg h, hb, Option.elim, if_pos hx]
  · rw [queCreateCheck_pf hf]; dsimp only; rw [if_neg (pf_of h1 h2 h3), if_neg h, hb, Option.elim, if_neg (by simp [hx, hv]), if_pos (show x.limit ≤ (vfQueues _ _).length from hl)]
  · rw [queCreateCheck_pf hf]; dsimp only; rw [if_neg (pf_of h1 h2 h3), if_neg h, hb, Option.elim, if_neg (by simp [hx, hv]), if_neg (Nat.not_le.2 (show (vfQueues _ _).length < x.limit from hl))]
  · rw [queCreateCheck_vf hf]; dsimp only; rw [hb]; rfl
  · rw [queCreateCheck_vf hf]; dsimp only; rw [hb, Option.elim, bitsOf_fieldAt_byte2, if_pos h]
  · rw [queCreateCheck_vf hf]; dsimp only; rw [hb, Option.elim, bitsOf_fieldAt_byte2, if_neg (by simp [h1, h2, h3]), if_pos (show x.limit ≤ (vfQueues _ _).length from hl)]
  · rw [queCreateCheck_vf hf]; dsimp only; rw [hb, Option.elim, bitsOf_fieldAt_byte2, if_neg (by simp [h1, h2, h3]), if_neg (Nat.not_le.2 (show (vfQueues _ _).length < x.limit from hl)), hn]; rfl
  · rw [queCreateCheck_vf hf]; dsimp only; rw [hb, Option.elim, bitsOf_fieldAt_byte2, if_neg (by simp [h1, h2, h3]), if_neg (Nat.not_le.2 (show (vfQueues _ _).length < x.limit from hl)), hn]; rfl
  · rw [exec_queDelete, doQueDelete_of hc]
    dsimp only
    rw [queNamed_beginCmd, show queNamed s c = none from hn]
    rfl
  · rw [exec_queDelete, doQueDelete_of hc]
    dsimp only
    rw [queNamed_beginCmd, show queNamed s c = some q from hn]
    exact congrArg (fun t => Host.Outcome.next (commit s t)) (if_neg (by
      rw [show queueAt (beginCmd s cid) q = queueAt s q from rfl]
      rcases h' with h' | h' <;> simp [h'] <;> omega))
  · rw [exec_queDelete, doQueDelete_of hc]
    dsimp only
    rw [queNamed_beginCmd, show queNamed s c = some q from hn]
    exact congrArg (fun t => Host.Outcome.next (commit s t)) (if_pos h)
  · simp only [exec_vfBind, doVfBind, hc]
    rw [← ite_not]
    refine congrArg (fun t => Host.Outcome.next (commit s t)) (if_congr ?_ rfl rfl)
    rw [partAt_beginCmd]
    cases (partAt s (c.byte 1)).st <;> simp <;> omega
  · simp only [exec_remoteCpl, doRemoteCpl, hr]
  · simp only [exec_remoteCpl, doRemoteCpl, hr, if_pos he]
  · simp only [exec_remoteCpl, doRemoteCpl, hr]; rw [if_neg (not_not.2 he), hf]; rfl
  · simp only [exec_remoteCpl, doRemoteCpl, hr]; rw [if_neg (not_not.2 he), hf]

end Sys2Proof.Machine
end

section
/-! PROOFS. Doorbells: which queue one names, what it changes, and how it enters the coalescer. -/

namespace Sys2Proof.Machine
open Sys2Proof

section
variable {s0 : State} {fn : FnId} {off : Nat} {v : W64} {w : List (Nat × Byte)}

/-- A doorbell that does not reach the module, or is misaligned, is but the host's stores before it. -/
theorem doorbell_of_unreached (h : noFn (hostStores s0 w) fn.val = true ∨ (hostStores s0 w).pwr.powered = false ∨ off % 8 ≠ 0) :
    doSubmissionDoorbell fn off v w s0 = hostStores s0 w ∧ doCreditDoorbell fn off v w s0 = hostStores s0 w := by
  have h' : (noFn (hostStores s0 w) fn.val || !(hostStores s0 w).pwr.powered || off % 8 != 0) = true := by
    simpa [or_assoc] using h
  exact ⟨if_pos h', if_pos h'⟩

/-- The queue of a doorbell, with which half it is in, decides what a submission doorbell does. -/
theorem doSubmissionDoorbell_of_reached (h1 : noFn (hostStores s0 w) fn.val = false) (h2 : (hostStores s0 w).pwr.powered = true)
    (h3 : off % 8 = 0) {x : Option Nat × Bool} (hx : doorbellQueue (hostStores s0 w) fn.val off = x) :
    doSubmissionDoorbell fn off v w s0 =
      let s := hostStores s0 w
      if x.2 = true then s else x.1.elim (dropDoorbell s fn.val) fun q =>
        if inRun s = false then dropDoorbell s fn.val
        else if bitsOf v.toNat 20 4 ≠ 0 ∨ (bitOf v.toNat 63 = false ∧ bitsOf v.toNat 24 39 ≠ 0) then dropDoorbell s fn.val
        else if (queueAt s q).st ≠ .active ∨ bitsOf v.toNat 0 20 = (queueAt s q).tail then s
        else if 2 ^ (queueAt s q).ringLog ≤ bitsOf v.toNat 0 20 then queueError s q stBadDescriptor
        else coalesce (modQueue s q fun d => { d with tail := bitsOf v.toNat 0 20 }) fn.val q (bitsOf v.toNat 0 20)
          (if bitOf v.toNat 63 then some (doorTime s.now v.toNat) else none) := by
  rw [doSubmissionDoorbell]
  dsimp only
  rw [if_neg (by simp [h1, h2, h3])]
  obtain ⟨q?, up⟩ := x
  rw [hx]
  cases up with
  | true => rfl
  | false =>
    cases q? with
    | none => rfl
    | some q =>
      dsimp only [Option.elim]
      rw [if_neg Bool.false_ne_true]
      refine if_congr (by simp) rfl (if_congr (by simp) rfl rfl)

theorem doCreditDoorbell_of_reached (h1 : noFn (hostStores s0 w) fn.val = false) (h2 : (hostStores s0 w).pwr.powered = true)
    (h3 : off % 8 = 0) {x : Option Nat × Bool} (hx : doorbellQueue (hostStores s0 w) fn.val off = x) :
    doCreditDoorbell fn off v w s0 =
      let s := hostStores s0 w
      if x.2 = false then s else x.1.elim (dropDoorbell s fn.val) fun q =>
        if inRun s = false then dropDoorbell s fn.val
        else
          let d := queueAt s q
          let records := d.cplHead + (bitsOf v.toNat 0 20 + 2 ^ d.cplLog - d.cplHead % 2 ^ d.cplLog) % 2 ^ d.cplLog
          let pages := d.prHead + (bitsOf v.toNat 32 20 + 2 ^ d.prLog - d.prHead % 2 ^ d.prLog) % 2 ^ d.prLog
          if bitsOf v.toNat 20 12 ≠ 0 ∨ bitsOf v.toNat 52 12 ≠ 0 ∨ 2 ^ d.cplLog ≤ bitsOf v.toNat 0 20 ∨ d.cplTail < records
              ∨ (d.pring ≠ 0 ∧ (2 ^ d.prLog ≤ bitsOf v.toNat 32 20 ∨ d.prTail + 2 ^ d.prLog ≤ pages)) then dropDoorbell s fn.val
          else postPage (modQueue s q fun d => { d with cplHead := records, prHead := if d.pring = 0 then d.prHead else pages }) q := by
  rw [doCreditDoorbell]
  dsimp only
  rw [if_neg (by simp [h1, h2, h3])]
  obtain ⟨q?, up⟩ := x
  rw [hx]
  cases up with
  | false => rfl
  | true =>
    cases q? with
    | none => rfl
    | some q =>
      dsimp only [Option.elim]
      rw [if_neg (show ¬ true = false by decide)]
      exact if_congr (by simp) rfl rfl

end

theorem doorbellQueue_pf {s : State} {off : Nat} (h : off < 0x1000000) : doorbellQueue s 0 off
    = (if (queueAt s (off % 0x800000 / 8)).fn = 0 ∧ (queueAt s (off % 0x800000 / 8)).st ≠ .free then some (off % 0x800000 / 8)
        else none, decide (0x800000 ≤ off)) := by
  rw [doorbellQueue, if_pos rfl]
  exact congrArg (fun x => (x, _)) (if_congr (by simp [h]) rfl rfl)

theorem doorbellQueue_vf {s : State} {fn off : Nat} (hf : fn ≠ 0) (h : off < 0x100000) : doorbellQueue s fn off
    = (queueByVslot s fn (off % 0x80000 / 8), decide (0x80000 ≤ off)) := by
  rw [doorbellQueue, if_neg hf, if_pos h]

/-- Settles O25: a doorbell is dispatched by the queue and the half of the window that it names. -/
theorem doorbellsAreTaken : Obligations.DoorbellsAreTaken := by
  refine ⟨fun fn off v w s0 => ⟨hostStores s0 w, rfl, fun h => ?_, fun h1 h2 h3 => ⟨fun hx => ?_, fun hx => ?_, fun h => ⟨fun hx => ?_,
    fun hx => ?_⟩, fun q hx hr => ?_, fun q hx hr => ?_⟩⟩, fun s fn off _ => ⟨?_, doorbellQueue_vf⟩,
    fun s fn q tail at_ => ⟨fun h => if_pos h, fun h hb => ?_, fun h hb => ⟨fun hl => ?_, fun hl => ?_⟩⟩⟩
  · obtain ⟨hs, hc⟩ := doorbell_of_unreached (v := v) h
    rw [exec_submissionDoorbell, exec_creditDoorbell, hs, hc]
    exact ⟨rfl, rfl⟩
  · rw [exec_submissionDoorbell, doSubmissionDoorbell_of_reached h1 h2 h3 rfl]
    exact congrArg (fun t => Host.Outcome.next (commit s0 t)) (if_pos hx)
  · rw [exec_creditDoorbell, doCreditDoorbell_of_reached h1 h2 h3 rfl]
    exact congrArg (fun t => Host.Outcome.next (commit s0 t)) (if_pos hx)
  · rw [exec_submissionDoorbell, doSubmissionDoorbell_of_reached h1 h2 h3 rfl]
    dsimp only
    rw [if_neg (by simp [hx])]
    rcases h with h | h
    · rw [h]; rfl
    · cases (doorbellQueue (hostStores s0 w) fn.val off).1 with
      | none => rfl
      | some q => exact congrArg (fun t => Host.Outcome.next (commit s0 t)) (if_pos h)
  · rw [exec_creditDoorbell, doCreditDoorbell_of_reached h1 h2 h3 rfl]
    dsimp only
    rw [if_neg (by simp [hx])]
    rcases h with h | h
    · rw [h]; rfl
    · cases (doorbellQueue (hostStores s0 w) fn.val off).1 with
      | none => rfl
      | some q => exact congrArg (fun t => Host.Outcome.next (commit s0 t)) (if_pos h)
  · rw [exec_submissionDoorbell, doSubmissionDoorbell_of_reached h1 h2 h3 hx]
    refine congrArg (fun t => Host.Outcome.next (commit s0 t)) (Eq.trans (if_neg (by simp)) (Eq.trans (if_neg (by simp [hr])) ?_))
    simp only [bitsOf, Nat.pow_zero, Nat.div_one]
    rfl
  · rw [exec_creditDoorbell, doCreditDoorbell_of_reached h1 h2 h3 hx]
    refine congrArg (fun t => Host.Outcome.next (commit s0 t)) (Eq.trans (if_neg (by simp)) (Eq.trans (if_neg (by simp [hr])) ?_))
    simp only [bitsOf, Nat.pow_zero, Nat.div_one]
    rfl
  · rintro rfl
    exact doorbellQueue_pf
  · rw [coalesce]
    rw [if_neg (by simp [h]), if_pos (Option.isSome_iff_ne_none.2 hb)]
    rfl
  · rw [coalesce]
    rw [if_neg (by simp [h]), if_neg (by simp [hb]), if_pos hl]
    rfl
  · rw [coalesce]
    rw [if_neg (by simp [h]), if_neg (by simp [hb]), if_neg (Nat.not_lt.2 hl)]
    rfl

end Sys2Proof.Machine
end

section
/-! PROOFS. The queues' entries: the fetch, its end, the error of a queue, and admission. -/

namespace Sys2Proof.Machine
open Sys2Proof

/-! ### A queue in ERROR -/

section
variable {s : State}

theorem queues_faultTo (fn : Nat) (st : Status) (part : Nat) (r : Reg) (q : Nat) :
    (faultTo s fn st part r q).host.queues = s.host.queues := by
  rw [faultTo_eq]
  split
  · rfl
  split
  · rfl
  split
  · rfl
  · rw [(SignalKeeps.signalVec _ _ _).queues]; rfl

theorem queues_faultRec (st : Status) (part : Nat) (r : Reg) (q : Nat) : (faultRec s st part r q).host.queues = s.host.queues := by
  rw [faultRec]
  refine Eq.trans (forEach_keeps (view := fun s => s.host.queues) (h := fun s v => ?_) ..) (queues_faultTo ..)
  exact queues_faultTo ..

@[simp] theorem queueAt_queueFault (q : Nat) (st : Status) (k : Nat) : queueAt (queueFault s q st) k = queueAt s k := by
  rw [queueFault, queueAt, queues_faultRec]; rfl

theorem queueAt_queueError_of_active {q : Nat} {st : Status} (h : (queueAt s q).st = .active) :
    ∃ d : Queue, queueAt (queueError s q st) q = { d with st := .error, lastErr := st, entries := [], fetching := none } := by
  refine ⟨queueAt (writeRecord s q 0xFFFFFFFF st 0) q, ?_⟩
  rw [queueError, if_neg (not_not.2 h)]
  dsimp only
  rw [queueAt_queueFault]
  exact (queueAt_modQueue _ q q fun d => { d with st := .error, lastErr := st, entries := [], fetching := none }).trans (if_pos rfl)

end

/-! ### The fetch -/

section
variable {s : State} {q tail arr : Nat} {at_ : Option Nat}

/-- The scan for a queue to fetch finds one that may be fetched, the oldest of the coalescer first. -/
theorem nextFetch_fetchable {e : Nat × Nat × Option Nat × Nat} (h : nextFetch s = some e) :
    fetchable s e = true ∧ ∀ c, s.host.coalescer.find? (fetchable s) = some c → e = c := by
  rw [nextFetch] at h
  cases hc : s.host.coalescer.find? (fetchable s) with
  | some d =>
    rw [hc] at h
    obtain rfl : d = e := Option.some_inj.1 h
    exact ⟨List.find?_some hc, fun c hd => Option.some_inj.1 hd⟩
  | none =>
    rw [hc] at h
    refine ⟨?_, nofun⟩
    dsimp only at h
    split at h
    · next b hb =>
      obtain rfl : b = e := Option.some_inj.1 h
      have := List.find?_some hb
      simp only [Bool.and_eq_true] at this
      exact this.2
    · exact List.find?_some (p := fetchable s) h

theorem freeRecords_of_fetchable {e : Nat × Nat × Option Nat × Nat} (h : fetchable s e = true) : 0 < freeRecords s e.1 := by
  simp only [fetchable, Bool.and_eq_true, decide_eq_true_eq] at h
  exact h.2

/-- The entries that the doorbell's TAIL promises beyond HEAD. -/
def wanted (d : Queue) (tail : Nat) : Nat := (tail + 2 ^ d.ringLog - d.head % 2 ^ d.ringLog) % 2 ^ d.ringLog

/-- The state once a queue has been taken from the coalescer or the scan. -/
def fetchTaken (s : State) (q tail arr : Nat) (at_ : Option Nat) (k want : Nat) : State :=
  let inCoal := s.host.coalescer.any fun e => e.1 == q
  setHost s fun h =>
    { h with coalescer := h.coalescer.filter (fun e => e.1 != q) ++ (if inCoal && k < want then [(q, tail, at_, arr)] else [])
             bitmap := if !inCoal && k < want then h.bitmap else Tbl.drop h.bitmap q
             scan := if inCoal then h.scan else (q + 1) % 1048576 }

theorem doQueueFetch_of_some (h : nextFetch s = some (q, tail, at_, arr)) : doQueueFetch s =
    let want := wanted (queueAt s q) tail
    let k := min (min want 32) (freeRecords s q)
    let t := fetchTaken s q tail arr at_ k want
    if k = 0 then t else modQueue t q fun d => { d with fetching := some (k, at_, arr) } := by
  rw [doQueueFetch, h]
  rfl

theorem queueAt_fetchTaken (k want p : Nat) : queueAt (fetchTaken s q tail arr at_ k want) p = queueAt s p := rfl

theorem coalescer_fetchTaken (want : Nat) :
    (fetchTaken s q tail arr at_ want want).host.coalescer.any (fun e => e.1 == q) = false := by
  simp [fetchTaken, setHost]

end

theorem queueFetch_holds {s : State} {q tail arr : Nat} {at_ : Option Nat} (h : nextFetch s = some (q, tail, at_, arr)) :
    let want := wanted (queueAt s q) tail
    let u := doQueueFetch s
    u.tiles = s.tiles ∧ u.out = s.out ∧ (∀ p, p ≠ q → queueAt u p = queueAt s p)
      ∧ (0 < want → (queueAt u q).fetching = some (min (min want 32) (freeRecords s q), at_, arr))
      ∧ (want = 0 → queueAt u q = queueAt s q)
      ∧ (min (min want 32) (freeRecords s q) = want → u.host.coalescer.any (fun e => e.1 == q) = false) := by
  have hfree : 0 < freeRecords s q := freeRecords_of_fetchable (nextFetch_fetchable h).1
  dsimp only
  rw [doQueueFetch_of_some h]
  dsimp only
  split
  · next hk => exact ⟨rfl, rfl, fun _ _ => rfl, fun hw => by omega, fun _ => rfl, fun he => by rw [he]; exact coalescer_fetchTaken _⟩
  · next hk =>
    refine ⟨rfl, rfl, fun p hp => ?_, fun _ => ?_, fun hw => by omega, fun he => by rw [he]; exact coalescer_fetchTaken _⟩
    · rw [queueAt_modQueue, if_neg hp, queueAt_fetchTaken]
    · rw [queueAt_modQueue, if_pos rfl]

/-! ### Admission -/

section
variable {s : State} {c : Cmd} {b : Bytes}

/-- The state once a command has been taken by the command interface. -/
def admitted (s : State) (c : Cmd) : State :=
  { s with host := { s.host with cmds := s.host.cmds ++ [c], nextCid := s.host.nextCid + 1 } }

theorem admitCmd_of_late (h : bitOf c.flags 1 = true) (ht : fieldAt b 0x10 8 < s.now) :
    admitCmd s c b = complete (admitted s c) c.id stExpired := if_pos (by simp [h, ht, setHost])

theorem admitCmd_of_time (h : bitOf c.flags 1 = false ∨ s.now ≤ fieldAt b 0x10 8) : admitCmd s c b =
    if entryOk b = false ∨ knownOpcodes.contains c.opcode = false then complete (admitted s c) c.id stBadDescriptor
    else if bitOf c.flags 4 then
      (if c.origin.isSome then complete (admitted s c) c.id stBadDescriptor else sendRemote (admitted s c) c b)
    else if c.opcode = 0x120 then
      match payloadOf (admitted s c) c with
      | (.ok, pay, u) => if deadlineGone u pay then dlmCount (complete u c.id stExpired) (fieldAt pay 0 1) 32 else u
      | _ => admitted s c
    else admitted s c := by
  rw [admitCmd]
  have hn : (setHost s fun h => { h with cmds := h.cmds ++ [c], nextCid := h.nextCid + 1 }).now = s.now := rfl
  rw [hn, if_neg (by rcases h with h | h <;> simp [h])]
  exact if_congr (by simp) rfl rfl

theorem admissible_of_early {q t : Nat} {e : Entry} (h : entryAt e = some t) (ht : s.now < t) : admissible s q e = false := by
  have : decide (t ≤ s.now) = false := decide_eq_false (Nat.not_le.2 ht)
  simp [admissible, h, this]

theorem deadlineGone_iff {pay : Bytes} : deadlineGone s pay = true ↔ ∃ m, (partAt s (fieldAt pay 0 1)).dlm = some m ∧ m.end_ = true
    ∧ fieldAt pay 0x18 8 ≠ 0 ∧ fieldAt pay 0x18 8 < s.now := by
  rw [deadlineGone]
  cases (partAt s (fieldAt pay 0 1)).dlm with
  | none => simp
  | some m => simp [and_assoc]

end

/-- Settles O26: the fetch by the queue that the scan finds, admission by the checks in their order. -/
theorem entriesAreFetchedAndAdmitted : Obligations.EntriesAreFetchedAndAdmitted := by
  refine ⟨⟨fun s h => ?_, fun s q tail arr at_ h => ?_, fun s e h => nextFetch_fetchable h, fun s q ok h => ?_,
    fun s q k arr at_ hf => ⟨?_, fun hd ok => ?_, fun hd => ⟨?_, fun a bs t hr => ⟨?_, ?_, ?_, ?_⟩⟩⟩, fun s d k h => ?_,
    fun s q st => ⟨fun h => if_pos h, fun h => ?_⟩⟩, fun s q h => ?_, fun s q e rest h => ?_, fun s q e t => admissible_of_early,
    fun s c b => ⟨admitCmd_of_late, fun h => ⟨fun hb => ?_, fun hb ho => ⟨fun h4 hn => ?_, fun h4 hn => ?_, fun h4 hp => ?_,
      fun h4 hp a pay u hu => ⟨?_, fun ha => ?_⟩⟩⟩⟩, fun s pay => deadlineGone_iff⟩
  · rw [exec_queueFetch, doQueueFetch, h]
  · exact ⟨commit s (doQueueFetch s), rfl, queueFetch_holds h⟩
  · rw [exec_entryFetchDone, exec_entryFetchTimeout, doEntryFetchDone, doEntryFetchTimeout, h]
    exact ⟨rfl, rfl⟩
  · rw [exec_entryFetchTimeout, doEntryFetchTimeout, if_pos (by rw [hf]; rfl)]
  · simp only [exec_entryFetchDone, doEntryFetchDone, hf, if_pos hd]
  · simp only [exec_entryFetchDone, doEntryFetchDone, hf, hd]
    rfl
  · rintro rfl
    simp only [exec_entryFetchDone, doEntryFetchDone, hf, hd, hr]
    rfl
  · rintro rfl
    simp only [exec_entryFetchDone, doEntryFetchDone, hf, hd, hr]
    rfl
  · rintro (rfl | rfl) <;> simp only [exec_entryFetchDone, doEntryFetchDone, hf, hd, hr] <;> rfl
  · rintro st rfl
    simp only [exec_entryFetchDone, doEntryFetchDone, hf, hd, hr]
    rfl
  · rw [readEntries, if_pos (by rw [h]; rfl)]
  · obtain ⟨d, hd⟩ := queueAt_queueError_of_active (st := st) h
    rw [hd]
    exact ⟨rfl, rfl, rfl, rfl⟩
  · rw [exec_entryAdmit, doEntryAdmit, h]
  · rw [exec_entryAdmit, doEntryAdmit, h]
  · rw [admitCmd_of_time h, if_pos hb]; rfl
  · rw [admitCmd_of_time h, if_neg (by rw [hb, ho]; decide), if_pos h4, if_neg (by simp [hn])]; rfl
  · rw [admitCmd_of_time h, if_neg (by rw [hb, ho]; decide), if_pos h4, if_pos (Option.isSome_iff_ne_none.2 hn)]; rfl
  · rw [admitCmd_of_time h, if_neg (by rw [hb, ho]; decide), if_neg (by simp [h4]), if_neg hp]; rfl
  · rintro rfl
    rw [admitCmd_of_time h, if_neg (by rw [hb, ho]; decide), if_neg (by simp [h4]), if_pos hp, show payloadOf (admitted s c) c = _ from hu]
    rfl
  · rw [admitCmd_of_time h, if_neg (by rw [hb, ho]; decide), if_neg (by simp [h4]), if_pos hp, show payloadOf (admitted s c) c = _ from hu]
    cases a with
    | ok => exact absurd rfl ha
    | fail st => rfl
    | wait => rfl
    | bounds => rfl
    | replay => rfl

end Sys2Proof.Machine
end

section
/-! PROOFS. Interrupts, HOST_OUT and the host's stall. -/

namespace Sys2Proof.Machine
open Sys2Proof

/-! ### Vectors -/

section
variable {s : State} {fn v : Nat}

theorem signalVec_of_masked (h : (msixAt s fn v).masked = true) :
    signalVec s fn v = modMsix s fn v fun m => { m with pending := true } := if_pos h

theorem signalVec_of_holdoff (h : (msixAt s fn v).masked = false) (hh : (msixAt s fn v).holdoff = true) :
    signalVec s fn v = modMsix s fn v fun m => { m with noted := true } :=
  (if_neg (by simp [h])).trans (if_pos hh)

theorem signalVec_of_open (h : (msixAt s fn v).masked = false) (hh : (msixAt s fn v).holdoff = false) : signalVec s fn v =
    if regFld s ⟨.hostFnctrl, fn, 0⟩ 16 16 = 0 then emit s (.msix fn v)
    else modMsix (emit s (.msix fn v)) fn v fun m => { m with holdoff := true } :=
  (if_neg (by simp [h])).trans (if_neg (by simp [hh]))

end

/-! ### HOST_OUT -/

section
variable {s : State} {t : TileId}

/-- The newt stands at HOST_OUT, or waits in it. -/
def atHostOut (x : Tile) : Bool := x.pc == 16 && (x.st == .running || (x.st == .waiting && x.wait == .host))

theorem atHostOut_iff {x : Tile} :
    atHostOut x = true ↔ x.pc = 16 ∧ (x.st = .running ∨ (x.st = .waiting ∧ x.wait = .host)) := by
  simp [atHostOut]

/-- The callers of a queue with the tile that calls now behind those before it. -/
def outCallers (s : State) (q : Nat) (me : TileId) : List TileId :=
  if (liveCallers s q).contains me then liveCallers s q else liveCallers s q ++ [me]

theorem outCallers_eq (s : State) (q : Nat) (me : TileId) : outCallers s q me =
    if (liveCallers s q).contains me then liveCallers s q else ((liveCallers s q).filter fun c => c != me) ++ [me] := by
  rw [outCallers]
  split
  · rfl
  · next h =>
    rw [List.filter_eq_self.2 fun c hc => ?_]
    simp only [bne_iff_ne, ne_eq]
    rintro rfl
    exact h (by simpa using hc)

/-- A newt that waits in HOST_OUT. -/
def outWaits (u : Nat) (s : State) : State := modTile s u fun x => { x with st := .waiting, wait := .host, waitSince := s.now }

/-- How the first caller's pieces end. -/
def outEnd (u p q n d0 : Nat) (r : Acc × Nat × State) : State :=
  match r with
  | (.ok, m, s) =>
    if d0 + m = n then
      modTile (modQueue s q fun d => { d with callers := d.callers.filter fun c => c != toTile u }) u
        fun x => { libReturn x with hostDone := 0 }
    else outWaits u (modTile s u fun x => { x with hostDone := d0 + m })
  | (.wait, m, s) => modTile s u fun x => { x with hostDone := d0 + m }
  | (x, _, s) => accStop s p x

theorem doHostOut_of_not (h : (newtOf s t).part = none ∨ atHostOut (newtOf s t) = false) : doHostOut t s = s := by
  change (match (newtOf s t).part with | none => s | some p => _) = s
  cases hp : (newtOf s t).part with
  | none => rfl
  | some p =>
    have h' : atHostOut (newtOf s t) = false := h.resolve_left (by simp [hp])
    exact if_pos (by rw [Bool.not_eq_true']; exact h')

theorem doHostOut_of_call {p : PartId} (hp : (newtOf s t).part = some p) (h : atHostOut (newtOf s t) = true) :
    doHostOut t s =
      let x := newtOf s t
      let u := liveTile s t.toNat
      let q := (gReg x 4).toNat
      let n := (gReg x 6).toNat
      let s1 := modQueue s q fun d => { d with callers := outCallers s q (toTile u) }
      if (queueAt s q).st = .free ∨ (queueAt s q).part ≠ p.val ∨ (queueAt s q).pring = 0 ∨ n = 0 ∨ 16777216 < n
          ∨ canRead s (.step p.val) (gReg x 5).toNat n = false then failStep s p.val stBadDescriptor
      else if (outCallers s q (toTile u)).head? ≠ some (toTile u) then outWaits u s1
      else outEnd u p.val q n x.hostDone
        (appendAll (n / 4096 + 2) s1 q p.val ((gReg x 5).toNat + x.hostDone) (n - x.hostDone) (bitOf (gReg x 7).toNat 0)) := by
  change (match (newtOf s t).part with | none => s | some p => _) = _
  rw [hp]
  refine (if_neg ?_).trans ?_
  · rw [Bool.not_eq_true', Bool.not_eq_false]
    exact h
  · rfl

theorem doHostOut_of_first {p : PartId} (hp : (newtOf s t).part = some p)
    (hc : (newtOf s t).pc = 16 ∧ ((newtOf s t).st = .running ∨ ((newtOf s t).st = .waiting ∧ (newtOf s t).wait = .host)))
    (hw : ¬ ((queueAt s (gReg (newtOf s t) 4).toNat).st = .free ∨ (queueAt s (gReg (newtOf s t) 4).toNat).part ≠ p.val
      ∨ (queueAt s (gReg (newtOf s t) 4).toNat).pring = 0 ∨ (gReg (newtOf s t) 6).toNat = 0
      ∨ 16777216 < (gReg (newtOf s t) 6).toNat
      ∨ canRead s (.step p.val) (gReg (newtOf s t) 5).toNat (gReg (newtOf s t) 6).toNat = false)) :
    let x := newtOf s t
    let u := liveTile s t.toNat
    let q := (gReg x 4).toNat
    let n := (gReg x 6).toNat
    let cs := if (liveCallers s q).contains (toTile u) then liveCallers s q
      else ((liveCallers s q).filter fun c => c != toTile u) ++ [toTile u]
    cs.head? = some (toTile u) → ∀ {r}, appendAll (n / 4096 + 2) (modQueue s q fun d => { d with callers := cs }) q p.val
      ((gReg x 5).toNat + x.hostDone) (n - x.hostDone) (bitOf (gReg x 7).toNat 0) = r →
    doHostOut t s = outEnd u p.val q n x.hostDone r := by
  intro x u q n cs hh r ha
  have hcs : outCallers s q (toTile u) = cs := outCallers_eq ..
  rw [doHostOut_of_call hp (atHostOut_iff.2 hc)]
  dsimp only
  rw [if_neg hw, hcs, if_neg (not_not.2 hh), ha]

end

/-! ### The host's stall -/

theorem doHostTmoExpiry_of {s : State} {q since : Nat} {last : Bool} (hf : (queueAt s q).holdFull = some (last, since)) :
    doHostTmoExpiry q s =
      if (queueAt s q).hostStall = true
          ∨ s.now < since + (if (queueAt s q).hostTmo = 0 then 10 else (queueAt s q).hostTmo) * 1000000
          ∨ (queueAt s q).prTail < (queueAt s q).prHead then s
      else if bitOf (queueAt s q).flags 0 then
        forEach (List.range 16) (queueFault (modQueue s q fun d => { d with hostStall := true }) q stHostStall)
          fun s p => if stepQueue s p = some q then stallStop s p else s
      else queueFault (modQueue s q fun d => { d with hostStall := true }) q stHostStall := by
  rw [doHostTmoExpiry, hf]
  exact if_congr (by simp [armed, or_assoc]) rfl rfl

/-- Settles O27: vectors by mask and holdoff, HOST_OUT by who calls first, the stall by its time. -/
theorem interruptsAndOutputPages : Obligations.InterruptsAndOutputPages := by
  refine ⟨⟨fun s fn v => ⟨signalVec_of_masked, signalVec_of_holdoff, fun h hh => ⟨fun hf => ?_, fun hf => ?_⟩⟩, fun s fn v => ⟨?_, ?_⟩⟩,
    fun s t => ⟨fun h => ?_, fun p hp hc => ⟨fun hw => ?_, fun hw hh => ?_, fun hw hh a m s2 ha => ⟨?_, ?_, ?_, ?_⟩⟩⟩,
    fun s q => ⟨fun h => ?_, fun since last hf => ⟨fun h => ?_, fun h1 h2 h3 => ⟨fun hd => ?_, fun hd => ?_⟩⟩⟩⟩
  · rw [signalVec_of_open h hh, if_pos hf]; rfl
  · rw [signalVec_of_open h hh, if_neg hf]; rfl
  · rw [exec_msixVectorUnmask, doMsixVectorUnmask]
    exact congrArg (fun t => Host.Outcome.next (commit s t)) (if_congr (by simp) rfl rfl)
  · rw [exec_msixHoldoffEnd, doMsixHoldoffEnd]
    exact congrArg (fun t => Host.Outcome.next (commit s t)) (if_congr (by simp) rfl rfl)
  · rw [exec_hostOut, doHostOut_of_not (h.imp id fun hc => ?_)]
    rwa [← Bool.not_eq_true, atHostOut_iff]
  · rw [exec_hostOut, doHostOut_of_call hp (atHostOut_iff.2 hc)]
    exact congrArg (fun t => Host.Outcome.next (commit s t)) (if_pos hw)
  · rw [exec_hostOut, doHostOut_of_call hp (atHostOut_iff.2 hc)]
    dsimp only
    rw [outCallers_eq]
    exact congrArg (fun t => Host.Outcome.next (commit s t)) ((if_neg hw).trans (if_pos hh))
  · rintro rfl hn
    rw [exec_hostOut, doHostOut_of_first hp hc hw hh ha]
    exact congrArg (fun t => Host.Outcome.next (commit s t)) (if_pos hn)
  · rintro rfl hn
    rw [exec_hostOut, doHostOut_of_first hp hc hw hh ha]
    exact congrArg (fun t => Host.Outcome.next (commit s t)) (if_neg hn)
  · rintro rfl
    rw [exec_hostOut, doHostOut_of_first hp hc hw hh ha]
    rfl
  · intro hok hwait
    rw [exec_hostOut, doHostOut_of_first hp hc hw hh ha]
    cases a with
    | ok => exact absurd rfl hok
    | wait => exact absurd rfl hwait
    | fail st => rfl
    | bounds => rfl
    | replay => rfl
  · rw [exec_hostTmoExpiry, doHostTmoExpiry, h]
  · rw [exec_hostTmoExpiry, doHostTmoExpiry_of hf, if_pos h]
  · rw [exec_hostTmoExpiry, doHostTmoExpiry_of hf, if_neg (by rw [h1]; exact not_or.2 ⟨Bool.false_ne_true, by omega⟩), if_neg (by simp [hd])]
  · rw [exec_hostTmoExpiry, doHostTmoExpiry_of hf, if_neg (by rw [h1]; exact not_or.2 ⟨Bool.false_ne_true, by omega⟩), if_pos hd]

end Sys2Proof.Machine
end

section
/-! PROOFS. Functions: reset, sleep, admin queue and event ring; the aperture; the host's time. -/

namespace Sys2Proof.Machine
open Sys2Proof

/-! ### A function-level reset -/

section
variable {s : State} {f : Nat} {qs : List Nat}

/-- The steps started from a function's queues stopped. -/
def resetSteps (s : State) (qs : List Nat) : State := forEach (List.range 16) s fun s p =>
  match stepQueue s p with
  | some q => if qs.contains q then stopStep s p stAborted else s
  | none => s

def emptyQueues (s : State) (qs : List Nat) : State := forEach qs s fun s q => setQueue s q {}

/-- The commands, doorbells, vectors, accesses and event ring of a function dropped. -/
def dropFn (s : State) (f : Nat) (qs : List Nat) : State :=
  let orphan (c : Cmd) : Cmd := if (match c.queue with | some q => qs.contains q | none => false) then { c with queue := none } else c
  setHost s fun h =>
    { h with cmds := h.cmds.map orphan
             coalescer := h.coalescer.filter fun e => !qs.contains e.1
             bitmap := h.bitmap.filter fun e => !qs.contains e.1
             msix := Tbl.clearRange h.msix (4096 * f) 4096
             barHeld := h.barHeld.filter fun e => e.fn.val != f
             evtWritten := Tbl.drop h.evtWritten f, evtHead := Tbl.drop h.evtHead f, d3hot := Tbl.drop h.d3hot f }

theorem doFunctionLevelReset_of_run {fn : FnId} (h : inRun s = true) : doFunctionLevelReset fn s =
    resetFnRegs (dropFn (emptyQueues (resetSteps s (fnQueues s fn.val)) (fnQueues s fn.val)) fn.val (fnQueues s fn.val)) fn.val :=
  if_neg (by simp [h])

theorem resetSteps_nil (s : State) : resetSteps s [] = s := by
  refine forEach_keeps (s := s) (view := fun s => s) (f := fun s p => _) (h := fun s p => ?_) _
  cases stepQueue s p <;> rfl

theorem queueAt_emptyQueues {q : Nat} (hq : q ∈ qs) (s : State) : queueAt (emptyQueues s qs) q = {} := by
  rw [emptyQueues, forEach]
  induction qs generalizing s with
  | nil => exact absurd hq List.not_mem_nil
  | cons p qs ih =>
    rw [List.foldl_cons]
    by_cases h : q ∈ qs
    · exact ih h _
    · obtain rfl : q = p := by simpa [h] using hq
      have hkeep := forEach_keeps_of_mem (view := fun s => queueAt s q) (f := fun s p => setQueue s p {}) (l := qs)
        (fun s p hp => (queueAt_modQueue ..).trans (if_neg fun he : q = p => h (he ▸ hp)))
      exact (hkeep _).trans ((queueAt_modQueue ..).trans (if_pos rfl))

theorem resetFnRegs_keeps {β : Type} {view : State → β} (h : ∀ s r v, view (regSet s r v) = view s) (s : State) :
    view (resetFnRegs s f) = view s := by
  rw [resetFnRegs]
  refine Eq.trans (forEach_keeps (view := view) (h := fun s i => ?_) ..) (forEach_keeps (view := view) (h := fun s n => ?_) ..)
  · exact h ..
  · exact h ..

theorem host_resetFnRegs (s : State) : (resetFnRegs s f).host = s.host := resetFnRegs_keeps (view := fun s => s.host) (fun _ _ _ => rfl) s

theorem msix_dropFn (s : State) : (dropFn s f qs).host.msix = Tbl.clearRange s.host.msix (4096 * f) 4096 := rfl

theorem regGet_resetFnRegs (hf : f < 1024) {n : RegName}
    (hn : n ∈ [RegName.hostFnctrl, .hostEvtbase, .hostEvtstat, .hostDbstat, .hostDbspill, .hostApbase, .queSel]) (s : State) :
    regGet (resetFnRegs s f) ⟨n, f, 0⟩ = n.info.reset := by
  have hne : n ≠ .hostAdmq := by
    rintro rfl
    exact absurd hn (by decide)
  rw [resetFnRegs]
  refine Eq.trans (forEach_keeps_of_mem (view := fun s => regGet s ⟨n, f, 0⟩) (fun s i hi => ?_) _) ?_
  · exact regGet_regSet_other _ _ _ _ (Reg.key_ne (Reg.fits_of_unit hf) ⟨hf, by simp at hi; simp; omega⟩ (by simp [hne]))
  · obtain ⟨t, -, ht⟩ := forEach_at (view := fun s => regGet s ⟨n, f, 0⟩) (f := fun s n => regSet s ⟨n, f, 0⟩ n.info.reset) hn (by decide)
      (fun s m hm hmn => regGet_regSet_other _ _ _ _ (Reg.key_ne (Reg.fits_of_unit hf) (Reg.fits_of_unit hf) (by simpa using hmn.symm))) s
    exact ht.trans ((regGet_regSet_self ..).trans (Nat.mod_eq_of_lt (reset_lt_two_pow_64 n)))

end

/-! ### The aperture -/

section
variable {s t : State} {fn : FnId} {off len a : Nat} {b d : Bytes} {w : Who} {x : Acc}

theorem bar4Go_of_held (h : s.host.barHeld ≠ []) (x : BarAccess) :
    bar4Go s x = { s with host := { s.host with barHeld := s.host.barHeld ++ [x] } } :=
  if_neg (by simpa using h)

/-- An access made at once: what it leaves, or that it is held. -/
theorem bar4Go_of_free (h : s.host.barHeld = []) {x : BarAccess} {a : Acc} (hx : bar4Do s x = (a, t)) :
    (a ≠ .wait → bar4Go s x = t) ∧ (a = .wait → bar4Go s x = { stillWaits s t with host := { (stillWaits s t).host with
      barHeld := (stillWaits s t).host.barHeld ++ [x] } }) := by
  have hgo : bar4Go s x = match bar4Do s x with
      | (.wait, t) => { stillWaits s t with host := { (stillWaits s t).host with barHeld := (stillWaits s t).host.barHeld ++ [x] } }
      | (_, t) => t := if_pos (by simp [h])
  rw [hgo, hx]
  refine ⟨fun ha => ?_, ?_⟩
  · cases a with
    | wait => exact absurd rfl ha
    | ok => rfl
    | fail st => rfl
    | bounds => rfl
    | replay => rfl
  · rintro rfl
    rfl

theorem bar4Addr_eq (s : State) (fn off len : Nat) : bar4Addr s fn off len
    = if noFn s fn = true ∨ inRun s = false ∨ (if fn = 0 then 64 * 2 ^ 30 else 4 * 2 ^ 30) < off + len then none
      else some (regFld s ⟨.hostApbase, fn, 0⟩ 30 18 * 2 ^ 30 + off) :=
  if_congr (by simp [or_assoc]) rfl rfl

/-- A read of the aperture that reaches memory, by how the read ends. -/
def fetched (r : Acc × Bytes × State) : Acc × State :=
  match r with
  | (.ok, b, s) => (.ok, emit s (.bar4Data b))
  | (.fail _, _, s) => (.ok, emit (emit s .bar4Poisoned) .aer)
  | (.wait, _, s) => (.wait, s)
  | (_, _, s) => (.ok, emit s .bar4Unsupported)

/-- A write of the aperture that reaches memory, by how the write ends. -/
def stored (r : Acc × State) : Acc × State :=
  match r with
  | (.bounds, s) => (.ok, emit s .bar4Unsupported)
  | (.wait, s) => (.wait, s)
  | (_, s) => (.ok, s)

theorem bar4Fetch_of_outside {fn : Nat} (h : bar4Addr s fn off len = none) : bar4Fetch s fn off len = (.ok, s) := by
  rw [bar4Fetch, h]

theorem bar4Fetch_of_unbound {fn : Nat} (h : bar4Addr s fn off len = some a) (hw : fnWho s fn = none) :
    bar4Fetch s fn off len = (.ok, emit s .bar4Unsupported) := by
  rw [bar4Fetch, h, hw]

theorem bar4Fetch_of {fn : Nat} (h : bar4Addr s fn off len = some a) (hw : fnWho s fn = some w) : bar4Fetch s fn off len =
    if w = .host none ∧ 0x1016560BC000 ≤ a ∧ a + len ≤ 0x10165A0BC000 then
      (.ok, emit s (.bar4Data ((span a len).map (queueRegionByte s))))
    else fetched (readMem s w a len) := by
  rw [bar4Fetch, h, hw]
  rfl

theorem bar4Store_of_outside {fn : Nat} (h : bar4Addr s fn off b.length = none) : bar4Store s fn off b = (.ok, s) := by
  rw [bar4Store, h]

theorem bar4Store_of_unbound {fn : Nat} (h : bar4Addr s fn off b.length = some a) (hw : fnWho s fn = none) :
    bar4Store s fn off b = (.ok, emit s .bar4Unsupported) := by
  rw [bar4Store, h, hw]

theorem bar4Store_of {fn : Nat} (h : bar4Addr s fn off b.length = some a) (hw : fnWho s fn = some w) : bar4Store s fn off b =
    if w = .host none ∧ inQueueRegion a b.length then (.ok, s)
    else if writesClean s w a b.length then (.ok, emit s .aer) else stored (writeMem s w a b) := by
  rw [bar4Store, h, hw]
  rfl

/-- A read made at once, with no access held. -/
theorem bar4Read_of_free (hh : s.host.barHeld = []) (hx : bar4Fetch s fn.val off len = (x, t)) :
    (x ≠ .wait → exec (.bar4Read fn off len) s = .next (commit s t))
    ∧ (x = .wait → ∃ u, u = stillWaits s t ∧ exec (.bar4Read fn off len) s = .next (commit s { u with host := { u.host with
        barHeld := [{ fn := fn, off := off, len := len, data := none }] } })) := by
  obtain ⟨hdone, hwait⟩ := bar4Go_of_free hh (x := { fn, off, len, data := none }) hx
  refine ⟨fun h => ?_, fun h => ⟨_, rfl, ?_⟩⟩
  · rw [exec_bar4Read, doBar4Read, hdone h]
  · rw [exec_bar4Read, doBar4Read, hwait h, show (stillWaits s t).host.barHeld = [] from hh]
    rfl

theorem bar4Write_of_free (hh : s.host.barHeld = []) (hx : bar4Store s fn.val off b = (x, t)) :
    (x ≠ .wait → exec (.bar4Write fn off b) s = .next (commit s t))
    ∧ (x = .wait → ∃ u, u = stillWaits s t ∧ exec (.bar4Write fn off b) s = .next (commit s { u with host := { u.host with
        barHeld := [{ fn := fn, off := off, len := b.length, data := some b }] } })) := by
  obtain ⟨hdone, hwait⟩ := bar4Go_of_free hh (x := { fn, off, len := b.length, data := some b }) hx
  refine ⟨fun h => ?_, fun h => ⟨_, rfl, ?_⟩⟩
  · rw [exec_bar4Write, doBar4Write, hdone h]
  · rw [exec_bar4Write, doBar4Write, hwait h, show (stillWaits s t).host.barHeld = [] from hh]
    rfl

end

/-! ### The host's time -/

section
variable {s : State} {h : Nat}

theorem doPtmMeasure_of_closed (hc : noFn s 0 = true ∨ inRun s = false) : doPtmMeasure h s = s := if_pos (by simpa using hc)

theorem doPtmMeasure_of_open (h0 : noFn s 0 = false) (hr : inRun s = true) : doPtmMeasure h s =
    if s.fab.gm then
      if s.host.ptmLocked then
        { s with fresh := s.fresh + 1, fab := { s.fab with slew :=
            if h < s.now then -((Config.freeNat s.fresh % 101 : Nat) : Int) else if h = s.now then 0
            else ((Config.freeNat s.fresh % 101 : Nat) : Int) } }
      else lockStep { s with host := { s.host with ptmLocked := true } } h
    else forEach (List.range 17) { s with fresh := s.fresh + 1 } fun t f =>
      regSet t ⟨.hostPtmoff, f, 0⟩ (codeOf 64 ((s.now : Int) - h + ((Config.freeNat s.fresh % 81 : Nat) - 40))) :=
  if_neg (by simp [h0, hr])

/-- Every function's register holds the value set. -/
theorem regGet_forEach_unit {name : RegName} {k n v : Nat} (hk : k < n) (hn : n ≤ 1024) (s : State) :
    regGet (forEach (List.range n) s fun t f => regSet t ⟨name, f, 0⟩ v) ⟨name, k, 0⟩ = v % 2 ^ 64 := by
  obtain ⟨t, -, ht⟩ := forEach_at (view := fun s => regGet s ⟨name, k, 0⟩) (f := fun t f => regSet t ⟨name, f, 0⟩ v)
    (List.mem_range.2 hk) List.nodup_range (fun s m hm hmk => regGet_regSet_other _ _ _ _
      (Reg.key_ne (Reg.fits_of_unit (by omega)) (Reg.fits_of_unit (by simp at hm; omega)) (by simpa using hmk.symm))) s
  exact ht.trans (regGet_regSet_self ..)

end

/-- Settles O28: a reset part by part, an access by whether it is held and how it ends, the host's time by the grandmaster. -/
theorem functionsApertureAndHostTime : Obligations.FunctionsApertureAndHostTime := by
  refine ⟨⟨fun s fn => ⟨fun h => ?_, fun h => ?reset⟩, fun s fn => ⟨?_, ?_⟩, fun s fn => ⟨fun h => ?_, fun h1 h2 h3 => ⟨fun h => ?_, fun h => ?_⟩,
    fun h => ?_, fun h1 h2 => ?_⟩, fun s fn v => ⟨fun h => ?_, fun h1 h2 => ?_⟩⟩, ⟨fun s fn off len b h => ⟨?_, ?_⟩,
    fun s fn off len b hh => ⟨fun ha => ?_, fun ha => ?_, fun a ha => ⟨fun hw => ?_, fun w hw => ⟨fun h1 h2 h3 => ?_, fun h1 x d t hr => ?reads⟩⟩,
    fun a ha => ⟨fun hw => ?_, fun w hw => ⟨fun hq => ?_, fun hq hc => ?_, fun hq hc x t hr => ?writes⟩⟩⟩, bar4Addr_eq⟩,
    fun s h => ⟨fun hc => ?_, fun h0 hr => ⟨fun hg hl => ⟨?_, rfl⟩, fun hg hl => ?_, fun hg => ?time⟩⟩⟩
  case reset =>
    refine ⟨_, rfl, fun q hq => ?_, fun n hn => ?_, fun v hv => ?_, fun x hx => ?_, ?_, fun hq => ?_⟩
    · rw [queueAt_commit, doFunctionLevelReset_of_run h]
      exact (resetFnRegs_keeps (view := fun s => queueAt s q) (fun _ _ _ => rfl) _).trans (queueAt_emptyQueues hq _)
    · rw [regGet_commit, doFunctionLevelReset_of_run h]
      exact regGet_resetFnRegs (by omega) hn _
    · rw [msixAt, commit_host, doFunctionLevelReset_of_run h, host_resetFnRegs, msix_dropFn, Tbl.get_clearRange]
      exact if_pos ⟨by omega, by omega⟩
    · rw [commit_host, doFunctionLevelReset_of_run h, host_resetFnRegs] at hx
      have := (List.mem_filter.1 hx).2
      rintro rfl
      simp at this
    · rw [commit_host, doFunctionLevelReset_of_run h, host_resetFnRegs]
      exact Tbl.get_drop.trans (if_pos rfl)
    · rw [commit_parts, commit_out, doFunctionLevelReset_of_run h, hq, resetSteps_nil]
      exact ⟨resetFnRegs_keeps (view := fun s => s.parts) (fun _ _ _ => rfl) _, resetFnRegs_keeps (view := fun s => s.out) (fun _ _ _ => rfl) _⟩
  · exact congrArg (fun t => Host.Outcome.next (commit s t)) (if_pos (by simp [h]))
  · rfl
  · rw [exec_d0Return, doD0Return]
    exact congrArg (fun t => Host.Outcome.next (commit s t)) (if_congr (by simp) rfl rfl)
  · exact congrArg (fun t => Host.Outcome.next (commit s t)) (if_pos (by simpa [or_assoc] using h))
  · exact congrArg (fun t => Host.Outcome.next (commit s t)) ((if_neg (by simp [h1, h2, h3])).trans (if_pos (by simp [h])))
  · exact congrArg (fun t => Host.Outcome.next (commit s t)) ((if_neg (by simp [h1, h2, h3])).trans ((if_neg (by simp [h])).trans
      (if_congr (by simp) rfl rfl)))
  · exact congrArg (fun t => Host.Outcome.next (commit s t)) (if_pos (by simpa using h))
  · exact congrArg (fun t => Host.Outcome.next (commit s t)) (if_neg (by simp [h1, h2]))
  · exact congrArg (fun t => Host.Outcome.next (commit s t)) (if_pos (by simpa using h))
  · exact congrArg (fun t => Host.Outcome.next (commit s t)) (if_neg (by simp [h1, h2]))
  · exact congrArg (fun t => Host.Outcome.next (commit s t)) (bar4Go_of_held h _)
  · exact congrArg (fun t => Host.Outcome.next (commit s t)) (bar4Go_of_held h _)
  · exact (bar4Read_of_free hh (bar4Fetch_of_outside ha)).1 nofun
  · exact (bar4Write_of_free hh (bar4Store_of_outside ha)).1 nofun
  · exact (bar4Read_of_free hh (bar4Fetch_of_unbound ha hw)).1 nofun
  · exact (bar4Read_of_free hh ((bar4Fetch_of ha hw).trans (if_pos ⟨h1, h2, h3⟩))).1 nofun
  case reads =>
    have hf : bar4Fetch s fn.val off len = fetched (x, d, t) :=
      (bar4Fetch_of ha hw).trans ((if_neg fun ⟨h1', h2', h3'⟩ => h1.elim (fun hn => hn h1') (by omega)).trans (congrArg fetched hr))
    refine ⟨?_, ?_, ?_, ?_⟩
    · rintro rfl; exact (bar4Read_of_free hh hf).1 nofun
    · rintro st rfl; exact (bar4Read_of_free hh hf).1 nofun
    · rintro (rfl | rfl)
      · exact (bar4Read_of_free hh hf).1 nofun
      · exact (bar4Read_of_free hh hf).1 nofun
    · rintro rfl; exact (bar4Read_of_free hh hf).2 rfl
  · exact (bar4Write_of_free hh (bar4Store_of_unbound ha hw)).1 nofun
  · exact (bar4Write_of_free hh ((bar4Store_of ha hw).trans (if_pos (by simpa using hq)))).1 nofun
  · exact (bar4Write_of_free hh ((bar4Store_of ha hw).trans ((if_neg (by simpa using hq)).trans (if_pos hc)))).1 nofun
  case writes =>
    have hf : bar4Store s fn.val off b = stored (x, t) :=
      (bar4Store_of ha hw).trans ((if_neg (by simpa using hq)).trans ((if_neg (by simp [hc])).trans (congrArg stored hr)))
    refine ⟨?_, ?_, fun hb hwt => ?_⟩
    · rintro rfl; exact (bar4Write_of_free hh hf).1 nofun
    · rintro rfl; exact (bar4Write_of_free hh hf).2 rfl
    · have hs : stored (x, t) = (.ok, t) := by
        cases x with
        | wait => exact absurd rfl hwt
        | bounds => exact absurd rfl hb
        | ok => rfl
        | fail st => rfl
        | replay => rfl
      exact (bar4Write_of_free hh (hf.trans hs)).1 nofun
  · rw [exec_ptmMeasure, doPtmMeasure_of_closed hc]
  · rw [exec_ptmMeasure, doPtmMeasure_of_open h0 hr, if_pos hg, if_neg (by simp [hl])]
  · refine ⟨(Config.freeNat s.fresh % 101 : Nat), by omega, by omega, ?_⟩
    rw [exec_ptmMeasure, doPtmMeasure_of_open h0 hr, if_pos hg, if_pos hl]
  case time =>
    refine ⟨_, (Config.freeNat s.fresh % 81 : Nat) - 40, rfl, ?_, by omega, by omega, fun fn hfn => ?_⟩
    · rw [commit_now, doPtmMeasure_of_open h0 hr, if_neg (by simp [hg])]
      exact forEach_keeps (view := fun s => s.now) (h := fun _ _ => rfl) ..
    · rw [regGet_commit, doPtmMeasure_of_open h0 hr, if_neg (by simp [hg]), regGet_forEach_unit hfn (by decide)]
      exact Nat.mod_eq_of_lt (by rw [codeOf]; omega)

end Sys2Proof.Machine
end

section
/-! PROOFS. Completions: what one leaves unchanged. -/

namespace Sys2Proof.Machine
open Sys2Proof

/-- A state reached by completions alone: the host port, its memory and what leaves the module by it. -/
def CplFrame (s t : State) : Prop := ∃ host hostMem fab regs out fresh,
  t = { s with host := host, hostMem := hostMem, fab := fab, regs := regs, out := out, fresh := fresh }

namespace CplFrame

variable {s t u : State}

theorem refl (s : State) : CplFrame s s := ⟨_, _, _, _, _, _, rfl⟩

theorem trans : CplFrame s t → CplFrame t u → CplFrame s u := by
  rintro ⟨_, _, _, _, _, _, rfl⟩ ⟨_, _, _, _, _, _, rfl⟩
  exact ⟨_, _, _, _, _, _, rfl⟩

theorem forEach {α : Type} {f : State → α → State} (h : ∀ s a, CplFrame s (f s a)) (l : List α) (s : State) :
    CplFrame s (Machine.forEach l s f) := by
  unfold Machine.forEach
  induction l generalizing s with
  | nil => exact .refl s
  | cons a l ih => exact (h s a).trans (ih _)

theorem of_net (h : NetFrame s t) : CplFrame s t := by
  obtain ⟨⟨_, _, _, _, rfl⟩, -⟩ := h
  exact ⟨_, _, _, _, _, _, rfl⟩

theorem of_fault (h : FaultFrame s t) : CplFrame s t := by
  obtain ⟨_, _, _, _, rfl⟩ := h
  exact ⟨_, _, _, _, _, _, rfl⟩

theorem modQueue (s : State) (q : Nat) (f : Queue → Queue) : CplFrame s (Machine.modQueue s q f) := ⟨_, _, _, _, _, _, rfl⟩

theorem signalVec (s : State) (fn v : Nat) : CplFrame s (Machine.signalVec s fn v) := by
  obtain ⟨_, _, h⟩ := signalVec_eq s fn v
  exact ⟨_, _, _, _, _, _, h⟩

theorem writeRecord (s : State) (q tag : Nat) (st : Status) (info : Nat) : CplFrame s (writeRecord s q tag st info) := by
  by_cases hf : (queueAt s q).st = .free
  · rw [writeRecord_of_free hf]
    exact .refl s
  cases hd : Tbl.get false s.host.d3hot (queueAt s q).fn with
  | true => rw [writeRecord_of_d3hot hf hd]; exact ⟨_, _, _, _, _, _, rfl⟩
  | false =>
    rw [writeRecord_of_d0 hf hd]
    have hw : CplFrame s (recordWritten s q (nextRecord (queueAt s q) tag st info)) := ⟨_, _, _, _, _, _, rfl⟩
    split
    · exact hw.trans (signalVec ..)
    · exact hw

theorem sendRemoteCpl (s : State) (o : Origin) (c : Cmd) (st : Status) (info : Nat) : CplFrame s (sendRemoteCpl s o c st info) :=
  of_net (LinkFrame.sendMsg ..).net

theorem completeOne (s : State) (cid : Nat) (st : Status) (info : Nat) : CplFrame s (completeOne s cid st info).2 := by
  rw [Machine.completeOne]
  cases cmdAt s cid with
  | none => exact .refl s
  | some c =>
    have hd : CplFrame s (dropCmd s cid) := ⟨_, _, _, _, _, _, rfl⟩
    dsimp only
    cases c.origin with
    | some o =>
      dsimp only
      split
      · exact hd
      · exact hd.trans (sendRemoteCpl ..)
    | none =>
      cases c.queue with
      | none => exact hd
      | some q => exact hd.trans (writeRecord ..)

theorem drainStep (s : State) (q : Nat) : CplFrame s (drainStep s q).2 := by
  unfold Machine.drainStep
  dsimp only
  split
  · split
    · exact (completeOne ..).trans (modQueue ..)
    · exact modQueue ..
  · exact .refl s

theorem complete (s : State) (cid : Nat) (st : Status) (info : Nat) : CplFrame s (complete s cid st info) := by
  unfold Machine.complete
  have h1 := completeOne s cid st info
  split <;> rename_i he
  · rwa [he] at h1
  rename_i q t
  rw [he] at h1
  have h2 := h1.trans (drainStep t q)
  split <;> rename_i he'
  · rwa [he'] at h2
  rename_i d t2
  rw [he'] at h2
  have h3 := h2.trans (completeOne t2 d stOk 0)
  split <;> rename_i he3
  · rwa [he3] at h3
  rename_i q2 t3
  rw [he3] at h3
  have h4 := h3.trans (drainStep t3 q2)
  split <;> rename_i he4
  · rwa [he4] at h4
  · rw [he4] at h4
    exact h4.trans (completeOne ..)

theorem parts (h : CplFrame s t) : t.parts = s.parts := by
  obtain ⟨_, _, _, _, _, _, rfl⟩ := h
  rfl

theorem tiles (h : CplFrame s t) : t.tiles = s.tiles := by
  obtain ⟨_, _, _, _, _, _, rfl⟩ := h
  rfl

theorem mem (h : CplFrame s t) : t.mem = s.mem := by
  obtain ⟨_, _, _, _, _, _, rfl⟩ := h
  rfl

end CplFrame

end Sys2Proof.Machine
end

section
/-! PROOFS. Partitions: their creation, change, deletion and the fill of their cells. -/

namespace Sys2Proof.Machine
open Sys2Proof

/-! ### What a change of a partition's sets leaves of its record -/

section
variable {s : State} {p : Nat}

theorem parts_zeroStrata (t off n : Nat) : (zeroStrata s t off n).parts = s.parts := rfl

theorem parts_releaseRegion (l n : Nat) : (releaseRegion s l n).parts = s.parts := by
  rw [releaseRegion]
  split
  · rfl
  · exact forEach_keeps (view := fun s => s.parts) (h := fun s x => parts_zeroStrata l x.1 x.2) ..

theorem parts_releaseTile (l : Nat) : (releaseTile s p l).parts = s.parts := by
  rw [releaseTile]
  exact forEach_keeps (view := fun s => s.parts) (h := fun s e => parts_releaseRegion l e.1) ..

theorem parts_leaveTile (t : Nat) : (leaveTile s p t).parts = s.parts := parts_releaseTile ..

theorem parts_joinTile (t : Nat) : (joinTile s p t).parts = s.parts := rfl

theorem parts_trimDicts : (trimDicts s p).parts = s.parts := by
  rw [trimDicts]
  refine forEach_keeps (view := fun s => s.parts) (h := fun s n => ?_) ..
  split <;> rfl

theorem parts_closePipe (n : Nat) (cid : Option Nat) : (closePipe s n cid).parts = s.parts := rfl

theorem parts_loseEngines (lost : List Nat) : (loseEngines s p lost).parts = s.parts := by
  rw [loseEngines]
  refine forEach_keeps (view := fun s => s.parts) (h := fun s n => ?_) ..
  dsimp only
  split <;> rfl

theorem parts_loseEncodes (lost : List Nat) : (loseEncodes s lost).parts = s.parts := by
  rw [loseEncodes]
  exact forEach_keeps (view := fun s => s.parts) (h := fun s e => (CplFrame.complete ..).parts) ..

end

section
variable {s : State} {p : Nat} {b : Bytes} {ts : List Nat}

/-- The sets given are those that the partition has. -/
def sameSets (s : State) (p : Nat) (b : Bytes) (ts : List Nat) : Prop :=
  (∀ t ∈ partTiles s p, t ∈ ts) ∧ (∀ t ∈ ts, t ∈ partTiles s p) ∧ (partAt s p).dies = BitVec.ofNat 8 (fieldAt b 2 1)
    ∧ (partAt s p).serving = (fieldAt b 1 1 == 1)

/-- The sets of a partition exchanged, its epoch not yet advanced. -/
def exchanged (s : State) (p : Nat) (b : Bytes) (ts : List Nat) : State :=
  let old := partTiles s p
  let dies := BitVec.ofNat 8 (pdDies b)
  let serving := pdMode b == 1
  let lost := bitSet 8 ((partAt s p).dies &&& ~~~ dies).toNat
  let s := forEach (old.filter fun t => !ts.contains t) s fun s t => leaveTile s p t
  let s := modPart s p fun q => { q with tiles := ts.map toTile, dies, serving, dlm := if serving then q.dlm else none }
  let s := loseEncodes (loseEngines (trimDicts s p) p lost) lost
  forEach (ts.filter fun t => !old.contains t) s fun s t => joinTile s p t

theorem sameSets_iff : sameSets s p b ts ↔ ((partTiles s p).all ts.contains && ts.all (partTiles s p).contains
    && (partAt s p).dies == BitVec.ofNat 8 (pdDies b) && (partAt s p).serving == (pdMode b == 1)) = true := by
  simp [sameSets, pdDies, pdMode, and_assoc]

theorem applyModify_of_same (h : sameSets s p b ts) : applyModify s p b ts = s := if_pos (sameSets_iff.1 h)

theorem applyModify_of_change (h : ¬ sameSets s p b ts) : applyModify s p b ts = advanceEpoch (exchanged s p b ts) p :=
  if_neg (mt sameSets_iff.2 h)

theorem partAt_exchanged : partAt (exchanged s p b ts) p = { partAt s p with
    tiles := ts.map toTile, dies := BitVec.ofNat 8 (fieldAt b 2 1), serving := fieldAt b 1 1 == 1
    dlm := if fieldAt b 1 1 == 1 then (partAt s p).dlm else none } := by
  have hleft : (forEach ((partTiles s p).filter fun t => !ts.contains t) s fun s t => leaveTile s p t).parts = s.parts :=
    forEach_keeps (view := fun s => s.parts) (h := fun s t => parts_leaveTile t) ..
  have hparts : (exchanged s p b ts).parts = (modPart (forEach ((partTiles s p).filter fun t => !ts.contains t) s
      fun s t => leaveTile s p t) p fun q => { q with tiles := ts.map toTile, dies := BitVec.ofNat 8 (pdDies b), serving := pdMode b == 1,
                                                       dlm := if pdMode b == 1 then q.dlm else none }).parts := by
    rw [exchanged]
    refine Eq.trans (forEach_keeps (view := fun s => s.parts) (h := fun s t => parts_joinTile t) ..) ?_
    rw [parts_loseEncodes, parts_loseEngines, parts_trimDicts]
  rw [partAt, hparts, ← partAt, partAt_modPart, if_pos rfl, partAt, hleft]
  rfl

end

/-! ### Deletion -/

theorem doPartDelete_of_rest {s : State} {cid : Nat} {c : Cmd} (hc : cmdFor s cid 0x0102 = some c) (hr : atRest s c (c.byte 0) = true) :
    doPartDelete cid s =
      let p := c.byte 0
      let s0 := beginCmd s cid
      if c.fn ≠ 0 ∨ 16 ≤ p ∨ !partLives s p then complete s0 cid stBadDescriptor
      else
        let s := closeStreams (closePipes (deleteQueues (setPartState s0 p .deleting) p cid) p) p
        modPart (endHeldTakes (stripPart (advanceEpoch (loseEncodes s (partDies s p)) p) p) p) p fun q => { q with deleteCid := some cid } := by
  rw [doPartDelete, hc]
  exact if_neg (by simp [hr])

/-! ### The fill -/

section
variable {s : State} {a : Nat}

theorem mem_fillCells (l n : Nat) : Tbl.get 0 (fillCells s l n).mem a = if l ≤ a ∧ a < l + n then 0 else Tbl.get 0 s.mem a :=
  Tbl.get_clearRange

theorem mem_forEach_fillCells {us : List (Nat × Nat)} (h : (∃ u ∈ us, u.1 ≤ a ∧ a < u.1 + u.2) ∨ Tbl.get 0 s.mem a = 0) :
    Tbl.get 0 (forEach us s fun s u => fillCells s u.1 u.2).mem a = 0 := by
  unfold forEach
  induction us generalizing s with
  | nil => simpa using h
  | cons v us ih =>
    refine ih ?_
    rw [mem_fillCells]
    by_cases hv : v.1 ≤ a ∧ a < v.1 + v.2
    · exact .inr (if_pos hv)
    · rw [if_neg hv]
      exact h.imp (fun ⟨u, hu, hin⟩ => ⟨u, (List.mem_cons.1 hu).resolve_left (fun he => hv (he ▸ hin)), hin⟩) id

end

theorem doTierZeroFillDone_of_other {s : State} {p : PartId} (h : (partAt s p.val).st ≠ .deleting ∨ (partAt s p.val).deleteCid = none) :
    doTierZeroFillDone p s =
      if s.tier.unfilled.isEmpty ∨ (List.range 16).any (fun r => (partAt s r).st == .deleting) then s else fillAll s := by
  rw [doTierZeroFillDone]
  dsimp only
  split
  · next hst hd =>
    rw [hst, hd] at h
    simp at h
  · rfl

/-- Settles O31: each command by its checks; the fill by what the freed cells held. -/
theorem partitionsAreCreatedModifiedAndDeleted : Obligations.PartitionsAreCreatedModifiedAndDeleted := by
  refine ⟨fun s cid c hc => ?create, fun s cid c hc hr => ?modify, fun s p b ts => ⟨fun h1 h2 h3 h4 => applyModify_of_same ⟨h1, h2, h3, h4⟩,
    fun h => ⟨exchanged s p b ts, applyModify_of_change ?_, ?_⟩⟩, fun s cid c hc hr => ?_, fun s p => ⟨fun cid hst hd => ?_, fun h => ⟨fun hu => ?_,
    fun hu hn => ?_⟩⟩, fun s => ⟨rfl, fun u hu a hlo hhi => ?_⟩⟩
  case create =>
    simp only [exec_partCreate, doPartCreate, hc]
    refine congrArg (fun k => Host.Outcome.next (commit s (withPayload (beginCmd s cid) c 32 k))) (funext₂ fun t b => ?_)
    refine if_congr (by simp) rfl ?_
    cases readBitmap t c.who (fieldAt b 8 8) with
    | mk r u =>
      cases r with
      | error a => rfl
      | ok ts => exact if_congr (by simp) rfl rfl
  case modify =>
    simp only [exec_partModify, doPartModify, hc, hr]
    refine congrArg (fun k => Host.Outcome.next (commit s (withPayload (beginCmd s cid) c 32 k))) (funext₂ fun t b => ?_)
    refine if_congr (by simp) rfl ?_
    cases readBitmap t c.who (fieldAt b 8 8) with
    | mk r u =>
      cases r with
      | error a => rfl
      | ok ts => exact if_congr (by simp [keptTiles, or_and_right, exists_or]) rfl rfl
  · rintro ⟨h1, h2, h3, h4⟩
    rcases h with ⟨t, ht, hn⟩ | ⟨t, ht, hn⟩ | hn | hn
    · exact hn (h1 t ht)
    · exact hn (h2 t ht)
    · exact hn h3
    · exact hn h4
  · rw [partAt_exchanged]
    exact ⟨rfl, rfl, rfl, rfl⟩
  · rw [exec_partDelete, doPartDelete_of_rest hc hr]
    exact congrArg (fun t => Host.Outcome.next (commit s t)) ((if_congr (by simp [imp_iff_not_or]) rfl rfl).trans (ite_not ..))
  · simp only [exec_tierZeroFillDone, doTierZeroFillDone, hst, hd]
  · rw [exec_tierZeroFillDone, doTierZeroFillDone_of_other h, if_pos (by simpa using hu)]
  · rw [exec_tierZeroFillDone, doTierZeroFillDone_of_other h, if_neg (by simp [hu]; simpa using hn)]
  · exact mem_forEach_fillCells (.inl ⟨u, hu, hlo, hhi⟩)

end Sys2Proof.Machine
end

section
/-! PROOFS. Programs are loaded; steps wait, begin and start their members. -/

namespace Sys2Proof.Machine
open Sys2Proof

/-! ### Tables made of lists -/

section
variable {α : Type} {d v : α} {t : Tbl α} {j : Nat}

/-- A table whose entries of a key all hold one value, which stands there unless it is the default, reads that value. -/
theorem Tbl.get_of_entries (h : ∀ e ∈ t, e.1 = j → e.2 = v) (hv : v ≠ d → (j, v) ∈ t) : Tbl.get d t j = v := by
  induction t with
  | nil => exact (not_not.1 fun hn => List.not_mem_nil (hv hn)).symm
  | cons e t ih =>
    obtain ⟨i, w⟩ := e
    by_cases hi : i = j
    · subst hi
      have hw : w = v := h (i, w) List.mem_cons_self rfl
      simp [Tbl.get, hw]
    · have ht : Tbl.get d t j = v := ih (fun e he => h e (List.mem_cons_of_mem _ he)) fun hn =>
        (List.mem_cons.1 (hv hn)).resolve_left fun he => hi (Prod.mk.inj he).1.symm
      simpa [Tbl.get, hi] using ht

end

theorem fieldAt_drop_take {b : Bytes} {k n off len : Nat} (h : off + len ≤ n) :
    fieldAt ((b.drop k).take n) off len = fieldAt b (k + off) len := by
  rw [fieldAt, fieldAt, List.drop_take, List.take_take, Nat.min_eq_left (by omega), List.drop_drop]

/-- A word of a byte string stands in its table. -/
theorem get_wordTbl {base i : Nat} {b : Bytes} (h : i < b.length / 4) :
    Tbl.get 0 (wordTbl base b) (base + i) = BitVec.ofNat 32 (fieldAt b (4 * i) 4) := by
  refine Tbl.get_of_entries (fun e he hk => ?_) fun hn => ?_
  · obtain ⟨k, -, rfl⟩ := List.mem_map.1 (List.mem_filter.1 he).1
    obtain rfl : k = i := Nat.add_left_cancel hk
    rfl
  · exact List.mem_filter.2 ⟨List.mem_map.2 ⟨i, List.mem_range.2 h, rfl⟩, by simpa using hn⟩

/-! ### Loading -/

section
variable {s : State} {t p : Nat} {img : Bytes}

/-- A tile that holds an image. -/
def loadedTile (epoch : BitVec 16) (p : Nat) (img : Bytes) (x : Tile) : Tile :=
  { x with st := .ready, image := some ⟨img⟩, imem := wordTbl 2048 ((img.drop 32).take (4 * imgWords img))
           smem := initScratch img, part := some (Fin.ofNat 16 p), epoch, queue := [], halting := false
           wait := .nothing, binding := none, events := [] }

theorem tileAt_loadTile (u : Nat) : tileAt (loadTile s t p img) u =
    if u = t then loadedTile (partAt s p).epoch p img (tileAt s t) else tileAt s u :=
  tileAt_modTile s t u (loadedTile (partAt s p).epoch p img)

theorem imem_loadTile {i : Nat} (hi : i < imgWords img) (hl : 32 + 4 * imgWords img ≤ img.length) :
    Tbl.get 0 (tileAt (loadTile s t p img) t).imem (2048 + i) = BitVec.ofNat 32 (fieldAt img (32 + 4 * i) 4) := by
  rw [tileAt_loadTile, if_pos rfl]
  refine (get_wordTbl ?_).trans ?_
  · rw [List.length_take, List.length_drop]
    omega
  · rw [fieldAt_drop_take (by omega)]

theorem loadable_iff {x : TileId} : loadable s x = true
    ↔ (tileAt s (liveTile s x.toNat)).st = .empty ∨ (tileAt s (liveTile s x.toNat)).st = .ready := by
  simp [loadable]

end

/-! ### Waiting and beginning -/

section
variable {s t : State} {b : Bytes} {g : List TileId}

/-- A start group lies in the partition, outside its reserve and its shape tiles. -/
theorem mem_of_stepGroup (h : stepGroup s b = (.ok g, t)) : g ≠ [] ∧ ∀ x ∈ g, x ∈ freeTiles t (fieldAt b 0 1) := by
  rw [stepGroup] at h
  dsimp only at h
  split at h
  · simp at h
  · next g0 u _ =>
    obtain ⟨hg, rfl⟩ := Prod.mk.inj h
    split at hg
    · simp at hg
    · next hok =>
      obtain rfl : _ = g := by simpa using hg
      simpa using hok

end

theorem doStepStart_of_payload {s t : State} {cid : Nat} {c : Cmd} {b : Bytes} (hc : cmdFor s cid 0x120 = some c)
    (hp : payloadOf s c = (.ok, b, t)) : doStepStart cid s =
      let p := fieldAt b 0 1
      if (partAt s p).waiting.contains cid then s
      else if b.length < 48 ∨ stepFields b = false ∨ c.may p = false then complete s cid stBadDescriptor
      else if partPending s c p then s
      else if ((partAt s p).st ≠ .idle ∧ (partAt s p).st ≠ .running) ∨ stepDeadlineOk s c b = false then complete s cid stBadDescriptor
      else match (stepGroup s b).1 with
        | .error e => if e = .wait then s else complete s cid (accStatus e)
        | .ok _ => modPart (modCmd s cid fun c => { c with payBytes := some b }) p fun q => { q with waiting := q.waiting ++ [cid] } := by
  rw [doStepStart, hc]
  dsimp only
  rw [hp]
  refine if_congr Iff.rfl rfl (if_congr Iff.rfl rfl (if_congr Iff.rfl rfl (if_congr Iff.rfl rfl ?_)))
  cases (stepGroup s b).1 with
  | ok g => rfl
  | error e =>
    cases e with
    | wait => rfl
    | ok => rfl
    | fail st => rfl
    | bounds => rfl
    | replay => rfl

/-- The first step that waits, once it may begin. -/
def beginFirst (s : State) (p : PartId) (cid : Nat) (c : Cmd) (b : Bytes) : State :=
  if (partAt s p.val).st ≠ .idle ∨ stepDeadlineOk s c b = false then dropWaiting (complete s cid stBadDescriptor) p.val cid
  else match stepGroup s b with
    | (.error e, t) => if e = .wait then s else dropWaiting (complete t cid (accStatus e)) p.val cid
    | (.ok g, t) =>
      if membersReady t g = false then dropWaiting (complete t cid stBadDescriptor) p.val cid
      else match readMem t (.step p.val) (fieldAt b 0x10 8) (fieldAt b 2 2) with
        | (.ok, args, v) => beginStep v p.val c b args g
        | (.wait, _, _) => s
        | (a, _, v) => dropWaiting (complete v cid (accStatus a)) p.val cid

theorem doStepBegin_of_waiting {s : State} {p : PartId} {cid : Nat} {rest : List Nat} {c : Cmd}
    (h : (partAt s p.val).waiting = cid :: rest) (hc : cmdAt s cid = some c) : doStepBegin p s =
      if (partAt s p.val).run.isSome ∨ s.boot.phase ≠ .run ∨ atRest s c p.val = false then s
      else beginFirst s p cid c (c.payBytes.getD []) := by
  rw [doStepBegin]
  dsimp only
  rw [h]
  dsimp only
  rw [hc]
  refine if_congr Iff.rfl rfl (if_congr Iff.rfl rfl ?_)
  cases stepGroup s (c.payBytes.getD []) with
  | mk r t =>
    cases r with
    | ok g => rfl
    | error e =>
      cases e with
      | wait => rfl
      | ok => rfl
      | fail st => rfl
      | bounds => rfl
      | replay => rfl

/-! ### Starting a member -/

section
variable {s : State} {p size idx t : Nat} {num : W64} {args : Bytes}

/-- The registers of a newt that starts. -/
def startRegs (size idx : Nat) : Tbl W64 :=
  [(1, BitVec.ofNat 64 idx), (2, BitVec.ofNat 64 size), (3, 0x7000#64)].filter fun e => e.2 != 0

theorem get_startRegs (n : Nat) : Tbl.get 0 (startRegs size idx) n =
    if n = 1 then BitVec.ofNat 64 idx else if n = 2 then BitVec.ofNat 64 size else if n = 3 then 0x7000 else 0 := by
  refine Tbl.get_of_entries (fun e he hk => ?_) fun hn => ?_
  · have hmem := (List.mem_filter.1 he).1
    simp only [List.mem_cons, List.not_mem_nil, or_false] at hmem
    rcases hmem with rfl | rfl | rfl <;> subst hk <;> rfl
  · refine List.mem_filter.2 ⟨?_, by simpa using hn⟩
    by_cases h1 : n = 1
    · simp [h1]
    by_cases h2 : n = 2
    · simp [h2]
    by_cases h3 : n = 3
    · simp [h3]
    · simp [h1, h2, h3] at hn

/-- The newt of a member that starts, as its image and the step have it. -/
def startedTile (s : State) (p : Nat) (num : W64) (args : Bytes) (size idx t : Nat) (x : Tile) : Tile :=
  let img := match (tileAt s t).image with | some i => i.bytes | none => []
  { x with
    st := if dispatchHeld s || !startable s t then .held else .running
    g := startRegs size idx, p := [], pc := 2048 + imgEntry img, loops := [], smem := putBytes 0 (initScratch img) 0x7000 args
    queue := [], issued := 0, half := 0, wait := .nothing, halting := false, bars := 0, step := num, part := some (Fin.ofNat 16 p)
    epoch := (partAt s p).epoch, index := idx, groupSize := size, lastMark := none, unsentMark := none, acc := [], masks := []
    binding := none }

theorem tileAt_noteStart (t u : Nat) : tileAt (noteStart s t) u = tileAt s u := by
  rw [noteStart]
  split <;> rfl

theorem tileAt_applyHeld_of_none {u : Nat} (h : (tileAt s u).heldEvents = []) : tileAt (applyHeld s u num) u = tileAt s u := by
  rw [applyHeld, h, tileAt_regAddSat, tileAt_modTile, if_pos rfl]
  exact congrArg (fun hs => { tileAt s u with heldEvents := hs }) h.symm

/-- The state of a newt that starts (R166, R793). -/
def startState (s : State) (t : Nat) : NewtState := if dispatchHeld s || !startable s t then .held else .running

theorem startTile_eq : startTile s p num args size idx t =
    let u := modTile s t (startedTile s p num args size idx t)
    applyHeld (regSet (regSet (if startState s t = .held then u else noteStart u t) ⟨.newtFault, t, 0⟩ 0) ⟨.tileOvfrec, t, 0⟩ 0) t num := rfl

/-- A member that starts without an event held for it. -/
theorem tileAt_startTile (h : (tileAt s t).heldEvents = []) :
    tileAt (startTile s p num args size idx t) t = startedTile s p num args size idx t (tileAt s t) := by
  have hmod : tileAt (modTile s t (startedTile s p num args size idx t)) t = startedTile s p num args size idx t (tileAt s t) := by
    rw [tileAt_modTile, if_pos rfl]
  have hnote (c : Prop) [Decidable c] (u : State) : tileAt (if c then u else noteStart u t) t = tileAt u t := by
    split
    · rfl
    · exact tileAt_noteStart t t
  rw [startTile_eq]
  dsimp only
  rw [tileAt_applyHeld_of_none]
  · rw [tileAt_regSet, tileAt_regSet, hnote, hmod]
  · rw [tileAt_regSet, tileAt_regSet, hnote, hmod]
    exact h

theorem gReg_startedTile (x : Tile) (n : Nat) (hn : n ≠ 0) : gReg (startedTile s p num args size idx t x) n =
    if n = 1 then BitVec.ofNat 64 idx else if n = 2 then BitVec.ofNat 64 size else if n = 3 then 0x7000 else 0 :=
  (if_neg hn).trans (get_startRegs n)

end

/-- Settles O33: a program is loaded by the checks in their order; a step waits and begins by its descriptor; a member starts with its
image's entry and the registers of R163. -/
theorem programsAreLoadedAndStepsBegin : Obligations.ProgramsAreLoadedAndStepsBegin := by
  refine ⟨⟨fun s cid c hc hr => ?load, fun s x => loadable_iff, fun s t p img hw => ⟨?_, ?_, fun i hi hl => imem_loadTile hi hl, fun u hu => ?_⟩⟩,
    fun s cid c a b t hc hp => ⟨?_, fun hw ho => ?_, ?start⟩, fun s t b g h => ?_, fun s p => ⟨fun h => ?_, fun cid rest h => ⟨fun hc => ?_,
    fun c hc => ⟨fun hw => ?_, fun hrun hph hrest b hb => ⟨fun hbad => ?_, fun hst hdl => ⟨fun e t hg => ?_, fun g t hg => ⟨fun hm => ?_,
      fun hm a args v hread => ?begin⟩⟩⟩⟩⟩⟩, fun s p num args size idx t h => ?member⟩
  case load =>
    simp only [exec_progLoad, doProgLoad, hc, hr]
    refine congrArg (fun k => Host.Outcome.next (commit s (withPayload (beginCmd s cid) c 32 k))) (funext₂ fun t b => ?_)
    refine if_congr Iff.rfl rfl ?_
    cases groupTiles t (.host (some (fieldAt b 0 1))) (fieldAt b 8 8) (partAt t (fieldAt b 0 1)).tiles with
    | mk r u =>
      cases r with
      | error a => rfl
      | ok g =>
        refine if_congr (by simp) rfl ?_
        cases readMem u (.host (some (fieldAt b 0 1))) (fieldAt b 0x10 8) (fieldAt b 0x18 4) with
        | mk a x =>
          obtain ⟨img, v⟩ := x
          cases a with
          | ok =>
            dsimp only
            rw [← ite_not]
            exact if_congr (by simp) rfl rfl
          | wait => rfl
          | fail st => rfl
          | bounds => rfl
          | replay => rfl
  · rw [tileAt_loadTile, if_pos rfl]; rfl
  · rw [tileAt_loadTile, if_pos rfl]; rfl
  · rw [tileAt_loadTile, if_neg hu]
  · rintro rfl
    simp only [exec_stepStart, doStepStart, hc, hp]
  · rw [exec_stepStart, doStepStart, hc]
    dsimp only
    rw [hp]
    cases a with
    | ok => exact absurd rfl ho
    | wait => exact absurd rfl hw
    | fail st => rfl
    | bounds => rfl
    | replay => rfl
  case start =>
    rintro rfl
    rw [exec_stepStart, doStepStart_of_payload hc hp]
    dsimp only
    refine ⟨fun hw => by rw [if_pos hw], fun hw => ⟨fun hbad => ?_, fun hl hf hm => ⟨fun hpp => ?_, fun hpp => ⟨fun hbad => ?_,
      fun hst hd => ⟨fun e he => ?_, fun g hg => ?_⟩⟩⟩⟩⟩
    all_goals rw [if_neg (ne_true_of_eq_false hw)]
    · rw [if_pos hbad]
    all_goals rw [if_neg (by simp [hl, hf, hm])]
    · rw [if_pos hpp]
    all_goals rw [if_neg (ne_true_of_eq_false hpp)]
    · rw [if_pos hbad]
    all_goals rw [if_neg (by simp [hd]; tauto)]
    · rw [he]
    · rw [hg]
  · obtain ⟨hne, hg⟩ := mem_of_stepGroup h
    refine ⟨hne, fun x hx => ?_⟩
    simpa [freeTiles, and_assoc] using hg x hx
  · rw [exec_stepBegin, doStepBegin]
    dsimp only
    rw [h]
  · rw [exec_stepBegin, doStepBegin]
    dsimp only
    rw [h]
    dsimp only
    rw [hc]
    rfl
  · rw [exec_stepBegin, doStepBegin_of_waiting h hc, if_pos (by simpa [Option.isSome_iff_ne_none] using hw)]
  · subst hb
    rw [exec_stepBegin, doStepBegin_of_waiting h hc, if_neg (by simp [hrun, hph, hrest]), beginFirst, if_pos hbad]
    rfl
  · subst hb
    rw [exec_stepBegin, doStepBegin_of_waiting h hc, if_neg (by simp [hrun, hph, hrest]), beginFirst, if_neg (by simp [hst, hdl]), hg]
    rfl
  · subst hb
    rw [exec_stepBegin, doStepBegin_of_waiting h hc, if_neg (by simp [hrun, hph, hrest]), beginFirst, if_neg (by simp [hst, hdl]), hg]
    exact congrArg (fun t => Host.Outcome.next (commit s t)) (if_pos hm)
  case begin =>
    subst hb
    rw [exec_stepBegin, doStepBegin_of_waiting h hc, if_neg (by simp [hrun, hph, hrest]), beginFirst, if_neg (by simp [hst, hdl]), hg]
    dsimp only
    rw [if_neg (by simp [hm]), hread]
    refine ⟨?_, ?_, fun ho hw => ?_⟩
    · rintro rfl; rfl
    · rintro rfl; rfl
    · cases a with
      | ok => exact absurd rfl ho
      | wait => exact absurd rfl hw
      | fail st => rfl
      | bounds => rfl
      | replay => rfl
  case member =>
    dsimp only
    rw [tileAt_startTile h]
    refine ⟨if_congr (by simp) rfl rfl, gReg_startedTile _ 1 (by decide), gReg_startedTile _ 2 (by decide), gReg_startedTile _ 3 (by decide),
      fun n hn => ?_, fun n hn => if_neg (by omega), rfl, fun i hi => ?_, fun i hi => ?_⟩
    · rw [gReg_startedTile _ n (by omega), if_neg (by omega), if_neg (by omega), if_neg (by omega)]
    · rw [startedTile, hi]
    · rw [show (startedTile s p num args size idx t (tileAt s t)).smem = putBytes 0 _ 0x7000 args from rfl, get_putBytes_inside hi, nth,
        List.getElem?_eq_getElem hi]
      rfl

end Sys2Proof.Machine
end

section
/-! PROOFS. Steps stop and end; the deadline monitor; accounting. -/

namespace Sys2Proof.Machine
open Sys2Proof

section
variable {s : State} {p : Nat}

theorem settleStop_of_idle (h : (partAt s p).run = none) : settleStop s p = s := by
  rw [settleStop, h]

theorem partAt_setPartState (st : PartState) (q : Nat) :
    partAt (setPartState s p st) q = if q = p then { partAt s p with st := st } else partAt s q := by
  have hp : (setPartState s p st).parts = (modPart s p fun q => { q with st := st }).parts := by
    obtain ⟨_, _, _, _, h⟩ := FaultFrame.faultReg (modPart s p fun q => { q with st := st }) p ⟨.partState, 0, p⟩
    exact (congrArg State.parts h).trans rfl
  rw [partAt, hp]
  exact partAt_modPart s p q fun q => { q with st := st }

end

/-! ### The end of a step -/

section
variable {s : State} {p : PartId} {r : Step} {c : Cmd}

/-- The step's members have all stopped. -/
theorem all_halted_iff {ms : List Nat} : (ms.all fun t => let st := (tileAt s t).st; st == .ready || st == .faulted || st == .retired || st == .empty)
    = true ↔ ∀ t ∈ ms, (tileAt s t).st = .ready ∨ (tileAt s t).st = .faulted ∨ (tileAt s t).st = .retired ∨ (tileAt s t).st = .empty := by
  simp [or_assoc]

/-- The end of a step whose members have all stopped, by how its writes end. -/
def writesEnd (s : State) (p : PartId) (x : Acc × State) : State :=
  match x with
  | (.wait, t) => stillWaits s t
  | (a, t) =>
    let u := if a = .ok then t else stepStatus t p.val (accStatus a)
    match (partAt u p.val).run with
    | some r => endStep u p r
    | none => u

theorem doStepEnd_of_run {s0 : State} (hr : (partAt (settleStop s0 p.val) p.val).run = some r) : doStepEnd p s0 =
    let s := settleStop s0 p.val
    let ms := liveMembers s r.members
    if r.replayDue ∨ (ms.all fun t => let st := (tileAt s t).st; st == .ready || st == .faulted || st == .retired || st == .empty) = false then s
    else writesEnd s p (owedWrites s p r ms) := by
  rw [doStepEnd]
  dsimp only
  rw [hr]
  rfl

/-- The records and counts of a step that ends with a status, and what it held given up. -/
def stepCounted (s : State) (p : PartId) (r : Step) (st : Status) : State :=
  let s := gradientNoise (resolveAwaiting s p.val st) p.val r
  let s := countDeadline (chargeStep s p.val) p.val r st
  let s := forEach (liveMembers s r.members) (dropStaged s p.val) fun s t =>
    if (tileAt s t).st = .faulted then endProgram s t else s
  { s with partSent := s.partSent.filter fun e => e.2.1 != p }

theorem endStep_of_cmd (hc : cmdAt s r.cid = some c) : endStep s p r =
    let x := stepOutcome s c r
    let u := modPart (stepCounted s p r x.1) p.val fun q => { q with run := none, lastStatus := x.1 }
    let u := if x.1 = stDeadlineMiss ∨ x.1 = stHostStall then faultRec u x.1 p.val ⟨.partStepstat, 0, p.val⟩ else u
    complete (setPartState u p.val .idle) r.cid x.1 x.2 := by
  rw [endStep, hc]
  rfl

theorem partAt_endStep (hc : cmdAt s r.cid = some c) :
    (partAt (endStep s p r) p.val).run = none ∧ (partAt (endStep s p r) p.val).lastStatus = (stepOutcome s c r).1 := by
  rw [endStep_of_cmd hc]
  dsimp only
  generalize stepOutcome s c r = x
  have hfault (c : Prop) [Decidable c] (u : State) (st : Status) (r : Reg) :
      partAt (if c then faultRec u st p.val r else u) p.val = partAt u p.val := by
    split
    · obtain ⟨_, _, _, _, h⟩ := FaultFrame.faultRec u st p.val r 0xFFFFFFFF
      rw [h]
      rfl
    · rfl
  have hcpl (u : State) : partAt (complete u r.cid x.1 x.2) p.val = partAt u p.val := by
    rw [partAt, (CplFrame.complete ..).parts, partAt]
  rw [hcpl, partAt_setPartState, if_pos rfl, hfault, partAt_modPart, if_pos rfl]
  exact ⟨rfl, rfl⟩

end

/-! ### Deadlines, fallback and the prediction -/

section
variable {s : State} {p : Nat} {r : Step} {d : Dlm}

theorem missPredicted_of (hr : (partAt s p).run = some r) (hd : (partAt s p).dlm = some d) : missPredicted s p =
    if d.fallback = true ∧ r.gecko = false ∧ r.status = none then fallback s p else s := by
  rw [missPredicted, hr, hd]
  exact if_congr (by simp) rfl rfl

theorem stallStop_of {q : Nat} (hr : (partAt s p).run = some r) (hq : stepQueue s p = some q) : stallStop s p =
    if r.deadline ≠ 0 ∧ r.deadline ≤ s.now ∧ (queueAt s q).hostStall ∧ r.status.isNone then
      discardPage (stopStep s p stHostStall) p else s := by
  rw [stallStop, hr, hq]

theorem predict_of (hr : (partAt s p).run = some r) (hd : (partAt s p).dlm = some d) :
    let at_ := r.t0 + (r.tm - r.t0) * stepMarkers s r / r.progress
    let t := modPart s p fun q => { q with pred := at_ }
    predict s p = if r.deadline ≠ 0 ∧ d.minMark ≤ r.progress ∧ r.progress ≠ 0 then
      (if r.deadline < at_ + d.guardNs then (if d.fallback = true ∧ r.gecko = false ∧ r.status = none then fallback t p else t) else t)
      else s := by
  intro at_ t
  have ht : partAt t p = { partAt s p with pred := at_ } := (partAt_modPart ..).trans (if_pos rfl)
  rw [← missPredicted_of (s := t) (by rw [ht]; exact hr) (by rw [ht]; exact hd), predict, hr, hd]

end

section
variable {s0 : State} {p : PartId} {r : Step}

theorem doFallbackPoint_of_off (h : (partAt (settleStop s0 p.val) p.val).run = none ∨ (partAt (settleStop s0 p.val) p.val).dlm = none) :
    doFallbackPoint p s0 = settleStop s0 p.val := by
  refine if_neg ?_
  rw [fallbackDue]
  rcases h with h | h
  · rw [h]; simp
  · rw [h]
    cases (partAt (settleStop s0 p.val) p.val).run <;> simp

theorem doFallbackPoint_of {d : Dlm} (hr : (partAt (settleStop s0 p.val) p.val).run = some r)
    (hd : (partAt (settleStop s0 p.val) p.val).dlm = some d) : doFallbackPoint p s0 =
    let s := settleStop s0 p.val
    if r.deadline ≠ 0 ∧ d.fallback = true ∧ r.deadline ≤ s.now + d.geckoNs ∧ r.gecko = false ∧ r.status = none then fallback s p.val
    else s := by
  rw [doFallbackPoint]
  dsimp only
  rw [missPredicted_of hr hd, fallbackDue, hr, hd, ← ite_and]
  exact if_congr (by simp; tauto) rfl rfl

theorem doDeadlineExpiry_of (hr : (partAt (settleStop s0 p.val) p.val).run = some r) : doDeadlineExpiry p s0 =
    let s := settleStop s0 p.val
    if r.deadline = 0 ∨ s.now < r.deadline ∨ r.status.isSome then s
    else if (stepQueue s p.val).elim false (fun q => (queueAt s q).hostStall) = true then stallStop s p.val
    else (partAt s p.val).dlm.elim s fun d =>
      if d.end_ = true ∧ (d.fallback = false ∨ r.gecko = true) then stopStep s p.val stDeadlineMiss else s := by
  rw [doDeadlineExpiry]
  dsimp only
  rw [hr]
  cases stepQueue (settleStop s0 p.val) p.val <;> cases (partAt (settleStop s0 p.val) p.val).dlm <;> rfl

theorem stalled_iff {s : State} {p : Nat} : (stepQueue s p).elim false (fun q => (queueAt s q).hostStall) = true
    ↔ ∃ q, stepQueue s p = some q ∧ (queueAt s q).hostStall = true := by
  cases stepQueue s p <;> simp

theorem doMarkerRecord_of {s0 : State} {p : PartId} {t : TileId} {num : W64} {v time : Nat} {rest : List (TileId × W64 × Nat × Nat)}
    (hm : (partAt (settleStop s0 p.val) p.val).marks = (t, num, v, time) :: rest) :
    let s := settleStop s0 p.val
    let s1 := modPart s p.val fun q => { q with marks := rest }
    doMarkerRecord p s0 = (partAt s p.val).run.elim s1 fun r =>
      if r.num = num ∧ r.gecko = false ∧ r.status = none ∧ t.toNat ∈ liveMembers s r.members then
        predict (noteMark s1 p.val t (min v (stepMarkers s1 r)) time) p.val else s1 := by
  intro s s1
  have hrun : (partAt s1 p.val).run = (partAt s p.val).run := by
    rw [show partAt s1 p.val = _ from partAt_modPart .., if_pos rfl]
  rw [doMarkerRecord]
  dsimp only
  rw [hm]
  change (match (partAt s1 p.val).run with | none => s1 | some r => _) = _
  rw [hrun]
  cases (partAt s p.val).run with
  | none => rfl
  | some r =>
    refine Eq.trans ?_ (ite_not ..)
    refine if_congr ?_ rfl rfl
    rw [show liveMembers s1 r.members = liveMembers s r.members from rfl]
    simp only [not_and_or, List.contains_eq_mem, decide_eq_false_iff_not, Bool.not_eq_false, Option.isSome_iff_ne_none]

end

/-- Settles O34: a stop, an end and a deadline each act on the running step, once its deferred stop has been settled. -/
theorem stepsStopAndEndByTheirDeadline : Obligations.StepsStopAndEndByTheirDeadline := by
  refine ⟨⟨fun s cid c hc => ?_, fun s cid c hc hr => ?monitor⟩, fun s p h => ?_, fun s0 s p r hs hr => ?stop, fun s p r c hc => partAt_endStep hc,
    ⟨fun s0 s p r hs hr => ?deadline, fun s0 s p hs => ?marker, fun s p r d hr hd => predict_of hr hd⟩, fun s cid c hc => ?account⟩
  · rw [exec_stepStop, doStepStop, hc]
    dsimp only
    rw [partAt_beginCmd]
    refine congrArg (fun t => Host.Outcome.next (commit s t)) (if_congr Iff.rfl rfl ?_)
    split <;> rfl
  case monitor =>
    rw [exec_dlmSet, doDlmSet, hc]
    dsimp only
    rw [if_neg (by simp [hr])]
    refine congrArg (fun k => Host.Outcome.next (commit s (withPayload (beginCmd s cid) c 48 k))) (funext₂ fun t b => ?_)
    refine if_congr Iff.rfl rfl ?_
    cases groupTiles t (.host (some (fieldAt b 0 1))) (fieldAt b 8 8) [] with
    | mk x u =>
      cases x with
      | error a => rfl
      | ok g => exact if_congr (by simp [imp_iff_not_or]) rfl rfl
  · have hs : settleStop s p.val = s := settleStop_of_idle h
    refine ⟨?_, ?_, ?_⟩
    · rw [exec_stepEnd, doStepEnd]
      dsimp only
      rw [hs, h]
    · rw [exec_deadlineExpiry, doDeadlineExpiry]
      dsimp only
      rw [hs, h]
    · rw [exec_fallbackPoint, doFallbackPoint_of_off (.inl (by rw [hs]; exact h)), hs]
  case stop =>
    subst hs
    rw [exec_stepEnd, doStepEnd_of_run hr]
    dsimp only
    refine ⟨fun h => ?_, fun hd hh a t ha => ?_⟩
    · refine congrArg (fun t => Host.Outcome.next (commit s0 t)) (if_pos (h.imp id fun hn => ?_))
      rwa [← Bool.not_eq_true, all_halted_iff]
    rw [if_neg (not_or.2 ⟨ne_true_of_eq_false hd, by rw [all_halted_iff.2 hh]; decide⟩), ha]
    refine ⟨?_, ?_, ?_⟩
    · rintro rfl; rfl
    · rintro r2 rfl hr2
      simp only [writesEnd, if_true, hr2]
    · rintro r2 ho hw hr2
      have hend : writesEnd (settleStop s0 p.val) p (a, t) = match (partAt (stepStatus t p.val (accStatus a)) p.val).run with
          | some r => endStep (stepStatus t p.val (accStatus a)) p r
          | none => stepStatus t p.val (accStatus a) := by
        cases a with
        | ok => exact absurd rfl ho
        | wait => exact absurd rfl hw
        | fail st => rfl
        | bounds => rfl
        | replay => rfl
      rw [hend, hr2]
  case deadline =>
    subst hs
    rw [exec_deadlineExpiry, exec_fallbackPoint, doDeadlineExpiry_of hr]
    dsimp only
    refine ⟨fun h => ?_, fun h1 h2 h3 => ?_, fun hd => ?_, fun d hd => ?_⟩
    · rw [if_pos (by simpa [Option.isSome_iff_ne_none] using h)]
    · rw [if_neg (by simp [h1, h3]; omega)]
      refine ⟨fun hst => ?_, fun hst hd => ?_, fun d hst hd => ?_⟩
      · obtain ⟨q, hq, hh⟩ := hst
        rw [if_pos (stalled_iff.2 ⟨q, hq, hh⟩), stallStop_of hr hq, if_pos ⟨h1, h2, hh, by rw [h3]; rfl⟩]
      · rw [if_neg (mt stalled_iff.1 hst), hd]; rfl
      · rw [if_neg (mt stalled_iff.1 hst), hd]; rfl
    · rw [doFallbackPoint_of_off (.inr hd)]
    · rw [doFallbackPoint_of hr hd]
  case marker =>
    subst hs
    refine ⟨fun h => ?_, fun t num v time rest h => ⟨fun hr => ?_, fun r hr => ?_⟩⟩
    · rw [exec_markerRecord, doMarkerRecord]
      dsimp only
      rw [h]
    · rw [exec_markerRecord, doMarkerRecord_of h, hr]
      rfl
    · rw [exec_markerRecord, doMarkerRecord_of h, hr]
      rfl
  case account =>
    rw [exec_acctRead, doAcctRead, hc]
    refine congrArg (fun k => Host.Outcome.next (commit s (withPayload (beginCmd s cid) c 24 k))) (funext₂ fun t b => ?_)
    refine if_congr Iff.rfl rfl ?_
    dsimp only
    generalize writeDst _ c _ _ = w
    obtain ⟨a, u⟩ := w
    cases a <;> rfl

end Sys2Proof.Machine
end

section
/-! PROOFS. The matrix and vector units: what each changes of its tile. -/

namespace Sys2Proof.Machine
open Sys2Proof

section
variable {s : State} {l k m : Nat} {c : TileCmd}

theorem tileAt_setFp : tileAt (setFp s l m) k = tileAt s k := by
  rw [setFp]
  split <;> rfl

/-- A tile whose command of a number has started, and what it writes. -/
def withStarted (num : Nat) (wroteOb : List (Nat × Nat)) (acc : Option Nat) (factor : Bool) (x : Tile) : Tile :=
  { x with queue := x.queue.map fun c => if c.num = num then
      { c with started := true, wrote := [], wroteOb := wroteOb, wroteAcc := acc, wroteFactor := factor } else c }

theorem startCmd_eq (wroteOb : List (Nat × Nat)) (acc : Option Nat) (factor : Bool) :
    startCmd s l c [] wroteOb acc factor = modTile s l (withStarted c.num wroteOb acc factor) := rfl

/-- The bits of TILE_FPSTAT stand in the register file alone. -/
theorem setFp_eq (s : State) (l m : Nat) : ∃ regs, setFp s l m = { s with regs := regs } := by
  rw [setFp]
  split
  · exact ⟨_, rfl⟩
  · exact ⟨_, rfl⟩

/-- A unit that ends changes its tile, with the queue that then stands, and the bits of TILE_FPSTAT. -/
theorem unitEnd (s : State) (l m : Nat) (c : TileCmd) (f : Tile → Tile) (wroteOb : List (Nat × Nat)) (acc : Option Nat) (factor : Bool) :
    let u := startCmd (modTile (setFp s l m) l f) l c [] wroteOb acc factor
    tileAt u l = withStarted c.num wroteOb acc factor (f (tileAt s l)) ∧ (∀ k, liveTile u k = liveTile s k)
      ∧ u.mem = s.mem ∧ u.parts = s.parts ∧ u.host = s.host := by
  dsimp only
  refine ⟨?_, ?_⟩
  · rw [startCmd_eq, tileAt_modTile, if_pos rfl, tileAt_modTile, if_pos rfl, tileAt_setFp]
  · obtain ⟨regs, h⟩ := setFp_eq s l m
    rw [h]
    exact ⟨fun _ => rfl, rfl, rfl, rfl⟩

theorem setFp_modTile (s : State) (l m : Nat) (f : Tile → Tile) : setFp (modTile s l f) l m = modTile (setFp s l m) l f := by
  rw [setFp, setFp]
  split <;> rfl

/-- The newt of the unit's name once the unit has ended. -/
theorem newtOf_unitEnd (s r : State) (t : TileId) (m : Nat) (c : TileCmd) (f : Tile → Tile) (wroteOb : List (Nat × Nat)) (acc : Option Nat)
    (factor : Bool) : newtOf (commit r (startCmd (modTile (setFp s (liveTile s t.toNat) m) (liveTile s t.toNat) f)
      (liveTile s t.toNat) c [] wroteOb acc factor)) t = withStarted c.num wroteOb acc factor (f (newtOf s t)) := by
  obtain ⟨h, hlive, -⟩ := unitEnd s (liveTile s t.toNat) m c f wroteOb acc factor
  exact (newtOf_commit_at (hlive _)).trans h

end

section
variable {s : State} {t : TileId} {c : TileCmd}

/-! ### MMA -/

/-- The tile of an MMA with its set as the operation leaves it. -/
def withSet (n : Nat) (a : AccSet) (x : Tile) : Tile := { x with acc := Tbl.put {} x.acc n a }

theorem doMmaExecute_of_ok (hc : nextCmd s (liveTile s t.toNat) 0x21 = some c) (h : mmaOk (newtOf s t) c.desc = true) :
    let n := fieldAt c.desc 2 1 % 4
    let r := mmaSet (newtOf s t) c.half c.desc (accAt (newtOf s t) n)
    doMmaExecute t s = startCmd (modTile (setFp s (liveTile s t.toNat) r.2) (liveTile s t.toNat) (withSet n r.1)) (liveTile s t.toNat) c
      [] [] (some n) := by
  dsimp only
  rw [← setFp_modTile]
  rw [doMmaExecute]
  dsimp only
  rw [hc]
  exact if_neg (by rw [show tileAt s (liveTile s t.toNat) = newtOf s t from rfl, h]; decide)

theorem accAt_withSet (n k : Nat) (a : AccSet) (x : Tile) : accAt (withSet n a x) k = if k = n then a else accAt x k := Tbl.get_put

/-! ### The vector unit -/

theorem fmtCode_of_vopOk (h : vopOk c = true) : (fmtCode (fieldAt c.wcb 0 1)).isSome = true := by
  rw [vopOk] at h
  cases ha : vopArity c.fn with
  | none => simp [ha] at h
  | some ar =>
    simp only [ha, wcbOk, Bool.and_eq_true, Bool.or_eq_true, beq_iff_eq, reduceCtorEq, and_false, or_false] at h
    tauto

/-! ### The expansion unit -/

/-- The elements of a factored fragment with the flags of their operations. -/
def expanded (x : Tile) (d : Bytes) (half op : Nat) (uf vf f : Fmt) : List (Nat × Nat) :=
  let ua := obAddr half (mmaOff d op)
  (List.range 4096).map fun i => expandEl x uf vf f ua (ua + 64 * fieldAt d 3 1 * (uf.bits / 8)) (fieldAt d 3 1) (i / 64) (i % 64)

def withFactor (fmt : Nat) (els : List Nat) (x : Tile) : Tile := { x with factor := ⟨fmt, els⟩ }

theorem doFexpExecute_of_ok (hc : nextCmd s (liveTile s t.toNat) 0x26 = some c) (h : fexpOk c.desc = true) {op : Nat} {uf vf f : Fmt}
    (hop : op = if mmaFact c.desc 0 then 0 else 1) (hu : factFmt (fieldAt c.desc 0x2C 1) = some uf)
    (hv : factFmt (fieldAt c.desc 0x2D 1) = some vf) (hf : factFmt (fieldAt c.desc op 1) = some f) :
    let els := expanded (newtOf s t) c.desc c.half op uf vf f
    doFexpExecute t s = startCmd (modTile (setFp s (liveTile s t.toNat) (els.foldl (fun f e => f ||| e.2) 0)) (liveTile s t.toNat)
      (withFactor (fieldAt c.desc op 1) (els.map (·.1)))) (liveTile s t.toNat) c [] [] none true := by
  subst hop
  rw [doFexpExecute]
  dsimp only
  rw [hc]
  dsimp only
  rw [if_neg (by rw [h]; decide), hu, hv, hf]
  rfl

theorem length_expanded (x : Tile) (d : Bytes) (half op : Nat) (uf vf f : Fmt) : (expanded x d half op uf vf f).length = 4096 := by
  rw [expanded, List.length_map, List.length_range]

theorem nth_expanded (x : Tile) (d : Bytes) (half op : Nat) (uf vf f : Fmt) {i j : Nat} (hi : i < 64) (hj : j < 64) :
    nth 0 ((expanded x d half op uf vf f).map (·.1)) (64 * i + j) = (expandEl x uf vf f (obAddr half (mmaOff d op))
      (obAddr half (mmaOff d op) + 64 * fieldAt d 3 1 * (uf.bits / 8)) (fieldAt d 3 1) i j).1 := by
  have hlt : 64 * i + j < 4096 := by omega
  rw [nth, List.getElem?_map, expanded, List.getElem?_map, List.getElem?_range hlt]
  rw [Option.map_some, Option.map_some, Option.getD_some, show (64 * i + j) / 64 = i by omega, show (64 * i + j) % 64 = j by omega]

end

/-- Settles O35: each unit by its descriptor's checks, its tile by the one place that it changes. -/
theorem matrixAndVectorUnitsExecute : Obligations.MatrixAndVectorUnitsExecute := by
  refine ⟨fun s t => ⟨fun h => ?_, fun h => ?_, fun h => ?_, fun h => ?_⟩, fun s t c hc => ?_, fun s t c hc => ⟨fun h => ?_, fun h => ?mma⟩,
    fun s t c hc => ⟨fun h => ?_, fun h fm hfm => ⟨fun h8 => ?_, fun h8 o ho => ?_⟩⟩, fun c h => fmtCode_of_vopOk h,
    fun s t c hc => ⟨fun h => ?_, fun h uf vf f op hop hu hv hf => ?fexp⟩⟩
  · rw [exec_aclrExecute, doAclrExecute, h]
  · rw [exec_mmaExecute, doMmaExecute, h]
  · rw [exec_vopExecute, doVopExecute, h]
  · rw [exec_fexpExecute, doFexpExecute, h]
  · rw [exec_aclrExecute, doAclrExecute, hc]; rfl
  · rw [exec_mmaExecute, doMmaExecute, hc]
    exact congrArg (fun t => Host.Outcome.next (commit s t)) (if_pos h)
  case mma =>
    refine ⟨_, (exec_mmaExecute ..).trans (congrArg (fun t => Host.Outcome.next (commit s t)) (doMmaExecute_of_ok hc h)), ?_⟩
    rw [newtOf_unitEnd]
    obtain ⟨-, -, hmem, hparts, hhost⟩ := unitEnd s (liveTile s t.toNat)
      (mmaSet (newtOf s t) c.half c.desc (accAt (newtOf s t) (fieldAt c.desc 2 1 % 4))).2 c
      (withSet (fieldAt c.desc 2 1 % 4) (mmaSet (newtOf s t) c.half c.desc (accAt (newtOf s t) (fieldAt c.desc 2 1 % 4))).1) []
      (some (fieldAt c.desc 2 1 % 4)) false
    refine ⟨(accAt_withSet ..).trans (if_pos rfl), (congrArg AccSet.count ((accAt_withSet ..).trans (if_pos rfl))).trans rfl,
      fun k hk => (accAt_withSet ..).trans (if_neg hk), rfl, rfl, ?_, hparts, hhost⟩
    exact congrArg (Tbl.canon 0) hmem
  · rw [exec_vopExecute, doVopExecute, hc]
    exact congrArg (fun t => Host.Outcome.next (commit s t)) (if_pos h)
  · rw [exec_vopExecute, doVopExecute, hc]
    dsimp only
    rw [if_neg (by rw [h]; decide), hfm]
    refine congrArg (fun t => Host.Outcome.next (commit s t)) (Eq.trans (if_pos h8) ?_)
    rw [Nat.or_zero]
    rfl
  · subst ho
    rw [exec_vopExecute, doVopExecute, hc]
    dsimp only
    rw [if_neg (by rw [h]; decide), hfm]
    exact congrArg (fun t => Host.Outcome.next (commit s t)) (if_neg h8)
  · rw [exec_fexpExecute, doFexpExecute, hc]
    exact congrArg (fun t => Host.Outcome.next (commit s t)) (if_pos h)
  case fexp =>
    refine ⟨_, (exec_fexpExecute ..).trans (congrArg (fun t => Host.Outcome.next (commit s t)) (doFexpExecute_of_ok hc h hop hu hv hf)), ?_⟩
    rw [newtOf_unitEnd]
    have hlen := length_expanded (newtOf s t) c.desc c.half op uf vf f
    have hnth (i) (hi : i < 64) (j) (hj : j < 64) := nth_expanded (newtOf s t) c.desc c.half op uf vf f hi hj
    generalize expanded (newtOf s t) c.desc c.half op uf vf f = els at hlen hnth ⊢
    obtain ⟨-, -, -, hparts, hhost⟩ := unitEnd s (liveTile s t.toNat) (els.foldl (fun f e => f ||| e.2) 0) c
      (withFactor (fieldAt c.desc op 1) (els.map (·.1))) [] none true
    exact ⟨rfl, (List.length_map ..).trans hlen, hnth, rfl, rfl, hparts, hhost⟩

end Sys2Proof.Machine
end

section
/-! PROOFS. What an access to device memory leaves unchanged. -/

namespace Sys2Proof.Machine
open Sys2Proof

/-- A state reached by accesses to device memory: of the partitions only what their running steps have met may change, of the strata
neither the tiles that stand in for others nor the copies on their way. -/
structure MemFrame (s t : State) : Prop where
  frame : ∃ regs mem hostMem strata tier ckpt host parts out fresh, t = { s with
    regs := regs, mem := mem, hostMem := hostMem, strata := strata, tier := tier, ckpt := ckpt, host := host, parts := parts, out := out
    fresh := fresh }
  part : ∀ p, ∃ run, partAt t p = { partAt s p with run := run }
  copying : t.strata.copying = s.strata.copying
  remap : t.strata.remap = s.strata.remap

namespace MemFrame

variable {s t u : State} {α : Type}

theorem refl (s : State) : MemFrame s s := ⟨⟨_, _, _, _, _, _, _, _, _, _, rfl⟩, fun _ => ⟨_, rfl⟩, rfl, rfl⟩

theorem trans (h : MemFrame s t) (h' : MemFrame t u) : MemFrame s u := by
  refine ⟨?_, fun p => ?_, h'.copying.trans h.copying, h'.remap.trans h.remap⟩
  · obtain ⟨_, _, _, _, _, _, _, _, _, _, rfl⟩ := h.frame
    obtain ⟨_, _, _, _, _, _, _, _, _, _, rfl⟩ := h'.frame
    exact ⟨_, _, _, _, _, _, _, _, _, _, rfl⟩
  · obtain ⟨r, hr⟩ := h.part p
    obtain ⟨r', hr'⟩ := h'.part p
    exact ⟨r', by rw [hr', hr]⟩

theorem tiles (h : MemFrame s t) : t.tiles = s.tiles := by
  obtain ⟨_, _, _, _, _, _, _, _, _, _, rfl⟩ := h.frame
  rfl

theorem fuses (h : MemFrame s t) : t.fuses = s.fuses := by
  obtain ⟨_, _, _, _, _, _, _, _, _, _, rfl⟩ := h.frame
  rfl

theorem ite {c : Prop} [Decidable c] (ht : c → MemFrame s t) (hu : ¬ c → MemFrame s u) : MemFrame s (if c then t else u) := by
  split
  · exact ht ‹_›
  · exact hu ‹_›

theorem forEach {f : State → α → State} (h : ∀ s a, MemFrame s (f s a)) (l : List α) (s : State) : MemFrame s (Machine.forEach l s f) := by
  unfold Machine.forEach
  induction l generalizing s with
  | nil => exact refl s
  | cons a l ih => exact (h s a).trans (ih _)

/-! ### Sequences of accesses -/

/-- An access and what follows where it ends well. -/
theorem bind {x : Acc × State} (hx : MemFrame s x.2) {k : State → Acc × State} (hk : ∀ t, MemFrame t (k t).2) :
    MemFrame s (match x with | (.ok, t) => k t | y => y).2 := by
  obtain ⟨a, t⟩ := x
  cases a with
  | ok => exact hx.trans (hk t)
  | bounds => exact hx
  | wait => exact hx
  | replay => exact hx
  | fail st => exact hx

theorem accAll {f : State → α → Acc × State} (h : ∀ s a, MemFrame s (f s a).2) (l : List α) (s : State) :
    MemFrame s (Machine.accAll l s f).2 := by
  unfold Machine.accAll
  suffices hs : ∀ x : Acc × State, MemFrame x.2 (l.foldl (fun acc x => match acc.1 with | .ok => f acc.2 x | _ => acc) x).2 from hs (.ok, s)
  intro x
  induction l generalizing x with
  | nil => exact refl _
  | cons a l ih =>
    refine trans ?_ (ih _)
    obtain ⟨b, t⟩ := x
    cases b with
    | ok => exact h t a
    | bounds => exact refl t
    | wait => exact refl t
    | replay => exact refl t
    | fail st => exact refl t

/-! ### Steps that fail -/

theorem of_fault (h : FaultFrame s t) : MemFrame s t := by
  obtain ⟨_, _, _, _, rfl⟩ := h
  exact ⟨⟨_, _, _, _, _, _, _, _, _, _, rfl⟩, fun _ => ⟨_, rfl⟩, rfl, rfl⟩

theorem stepFails (s : State) (p : Nat) (st : Status) : MemFrame s (stepFails s p st) := by
  refine ⟨⟨_, _, _, _, _, _, _, _, _, _, rfl⟩, fun q => ?_, rfl, rfl⟩
  rw [Machine.stepFails, partAt_modPart]
  split
  · next h => subst h; exact ⟨_, rfl⟩
  · exact ⟨_, rfl⟩

/-! ### Tier memory -/

theorem tierState (s : State) (f : Tier) : MemFrame s { s with tier := f } := ⟨⟨_, _, _, _, _, _, _, _, _, _, rfl⟩, fun _ => ⟨_, rfl⟩, rfl, rfl⟩

theorem regs (s : State) (r : Tbl W64) : MemFrame s { s with regs := r } := ⟨⟨_, _, _, _, _, _, _, _, _, _, rfl⟩, fun _ => ⟨_, rfl⟩, rfl, rfl⟩

theorem putMem (s : State) (a : Nat) (b : Bytes) : MemFrame s (putMem s a b) :=
  ⟨⟨_, _, _, _, _, _, _, _, _, _, rfl⟩, fun _ => ⟨_, rfl⟩, rfl, rfl⟩

theorem setWc (s : State) (u : Nat) (e : Option WcEntry) : MemFrame s (setWc s u e) := tierState ..

theorem setLost (s : State) (u : Nat) (v : Bool) : MemFrame s (setLost s u v) := tierState ..

theorem wcWriteOut (s : State) (u : Nat) (ue : Bool) : MemFrame s (wcWriteOut s u ue) := by
  unfold Machine.wcWriteOut
  cases Tbl.get none s.tier.wc u with
  | none => exact refl s
  | some e =>
    dsimp only
    refine ite (fun _ => refl s) fun _ => (setWc s u none).trans (ite (fun _ => ?_) fun _ => ?_)
    · have hlost (t : State) (c : Prop) [Decidable c] : MemFrame t (if c then Machine.setLost t u true else t) :=
        ite (fun _ => setLost ..) fun _ => refl t
      have hstep (t : State) (w : PartId × W64) : MemFrame t
          (if ((partAt t w.1.val).run.map (·.num)) = some w.2 then Machine.stepFails t w.1.val stTierFail else t) :=
        ite (fun _ => stepFails ..) fun _ => refl t
      exact ite (fun _ => ((hlost _ _).trans (forEach hstep ..)).trans (of_fault (FaultFrame.faultReg ..)))
        fun _ => (hlost _ _).trans (forEach hstep ..)
    · exact trans (ite (fun _ => setLost ..) fun _ => refl _) (forEach (fun _ _ => putMem ..) ..)

theorem wcEnter (s : State) (prio : Nat) (who : Option (PartId × W64)) (u off : Nat) (b : Bytes) :
    MemFrame s (wcEnter s prio who u off b) := by
  unfold Machine.wcEnter
  dsimp only
  exact (tierState s _).trans (ite (fun _ => wcWriteOut ..) fun _ => refl _)

theorem wcPart (s : State) (prio : Nat) (who : Option (PartId × W64)) (u off : Nat) (b : Bytes) :
    MemFrame s (wcPart s prio who u off b).2 := by
  unfold Machine.wcPart
  dsimp only
  split
  · split
    · exact refl s
    · exact (wcWriteOut ..).trans (wcEnter ..)
  · exact wcEnter ..

theorem tierPut (s : State) (prio : Nat) (who : Option (PartId × W64)) (u off : Nat) (b : Bytes) :
    MemFrame s (tierPut s prio who u off b).2 := by
  unfold Machine.tierPut
  split
  · exact refl s
  split
  · exact refl s
  split
  · exact ((tierState s _).trans (tierState _ _)).trans (putMem ..)
  split
  · exact refl s
  · exact wcPart ..

theorem tierWrite (s : State) (prio : Nat) (who : Option (PartId × W64)) (a : Nat) (b : Bytes) :
    MemFrame s (tierWrite s prio who a b).2 :=
  accAll (fun _ _ => tierPut ..) ..

/-! ### BACKED regions -/

theorem setFrame (s : State) (a : Nat) (f : Option Frame) : MemFrame s (setFrame s a f) := tierState ..

theorem setUnit (s : State) (a : Nat) (v : UnitSt) : MemFrame s (setUnit s a v) := by
  unfold Machine.setUnit
  split
  · exact setFrame ..
  · exact refl s

theorem codecFail (s : State) (inst block reason : Nat) : MemFrame s (codecFail s inst block reason) := by
  unfold Machine.codecFail
  dsimp only
  exact (regs s _).trans (ite (fun _ => regs ..) fun _ => regs ..)

theorem codecDone (s : State) (inst blocks : Nat) (nanIn : Bool) : MemFrame s (codecDone s inst blocks nanIn) := by
  unfold Machine.codecDone
  dsimp only
  exact (regs s _).trans (ite (fun _ => regs ..) fun _ => refl _)

theorem writeBackUnit (s : State) (prio : Nat) (r : TierRegion) (u : Nat) : MemFrame s (writeBackUnit s prio r u).2 := by
  unfold Machine.writeBackUnit
  cases backingOf s r with
  | none => exact refl s
  | some b =>
    split
    · next h => cases h
    · split
      · exact bind (tierWrite ..) fun _ => setUnit ..
      · refine bind (tierWrite ..) fun t => ?_
        dsimp only
        split
        · exact (codecDone ..).trans (setUnit ..)
        · exact bind ((codecDone ..).trans (tierPut ..)) fun _ => setUnit ..
    · exact refl s

theorem writeBackFrame (s : State) (r : TierRegion) (fb : Nat) : MemFrame s (writeBackFrame s r fb).2 :=
  accAll (fun _ _ => by
    split
    · exact writeBackUnit ..
    · exact refl _) ..

theorem freeFrame (s : State) (fb : Nat) : MemFrame s (freeFrame s fb) :=
  ⟨⟨_, _, _, _, _, _, _, _, _, _, rfl⟩, fun _ => ⟨_, rfl⟩, rfl, rfl⟩

theorem evictFrame (s : State) (p : Nat) : MemFrame s (evictFrame s p).2 := by
  unfold Machine.evictFrame
  split
  · exact refl s
  · exact bind (writeBackFrame ..) fun _ => freeFrame ..

theorem makeResident (s : State) (r : TierRegion) (a : Nat) : MemFrame s (makeResident s r a).2 := by
  unfold Machine.makeResident
  dsimp only
  split
  · exact refl s
  · refine bind ?_ fun t => ?_
    · split
      · exact evictFrame ..
      · exact refl s
    · split
      · exact refl t
      · exact setFrame ..

theorem unitFilled (s : State) (u : Nat) : MemFrame s (unitFilled s u) := (setFrame s u _).trans (tierState ..)

theorem fillUnit (s : State) (r : TierRegion) (u : Nat) : MemFrame s (fillUnit s r u).2 := by
  unfold Machine.fillUnit
  split
  · exact refl s
  · next b _ =>
    refine bind (makeResident ..) fun t => ?_
    dsimp only
    split
    · split
      · exact (codecDone ..).trans (codecFail ..)
      · refine bind (trans ?_ (tierPut ..)) fun _ => unitFilled ..
        exact ite (fun _ => refl _) fun _ => codecDone ..
    · exact refl t

theorem readyRead (s : State) (prio lo n : Nat) : MemFrame s (readyRead s prio lo n).2 := by
  unfold Machine.readyRead
  dsimp only
  split
  · exact refl s
  split
  · split
    · exact fillUnit ..
    · exact refl s
  split
  · exact refl s
  split
  · exact refl s
  · refine accAll (fun t v => ?_) ..
    split
    · exact writeBackUnit ..
    · exact refl t

theorem tierFetch (s : State) (prio a n : Nat) : MemFrame s (tierFetch s prio a n).2.2 := by
  unfold Machine.tierFetch
  generalize unitSpans a n = l
  suffices hs : ∀ x : Acc × Bytes × State, MemFrame x.2.2 (l.foldl (fun acc x =>
    match acc with
    | (.ok, b, s) =>
      match Machine.readyRead s prio x.1 x.2 with
      | (.ok, s) => let r := tierRead s x.1 x.2; (r.1, b ++ r.2, s)
      | (y, s) => (y, [], s)
    | y => y) x).2.2 from hs (.ok, [], s)
  intro x
  induction l generalizing x with
  | nil => exact refl _
  | cons e l ih =>
    refine trans ?_ (ih _)
    obtain ⟨a, b, t⟩ := x
    cases a with
    | ok =>
      have h := readyRead t prio e.1 e.2
      dsimp only
      split <;> rename_i he <;> rw [he] at h <;> exact h
    | bounds => exact refl t
    | wait => exact refl t
    | replay => exact refl t
    | fail st => exact refl t

theorem readyWrite (s : State) (lo n : Nat) : MemFrame s (readyWrite s lo n).2 := by
  unfold Machine.readyWrite
  dsimp only
  split
  · exact refl s
  split
  · exact refl s
  split
  · exact makeResident ..
  · exact fillUnit ..

theorem afterWrite (s : State) (lo n : Nat) : MemFrame s (afterWrite s lo n) := by
  unfold Machine.afterWrite
  split
  · exact refl s
  split
  · exact setUnit ..
  split
  · exact refl s
  · exact forEach (fun t v => ite (fun _ => refl t) fun _ => (setUnit ..).trans (tierState ..)) ..

theorem storeUnit (s : State) (prio : Nat) (who : Option (PartId × W64)) (lo : Nat) (b : Bytes) :
    MemFrame s (storeUnit s prio who lo b).2 := by
  unfold Machine.storeUnit
  exact bind (readyWrite ..) fun _ => bind (tierWrite ..) fun _ => afterWrite ..

theorem takes (s : State) (x : Tbl (Option Take)) : MemFrame s { s with ckpt := { s.ckpt with takes := x } } :=
  ⟨⟨_, _, _, _, _, _, _, _, _, _, rfl⟩, fun _ => ⟨_, rfl⟩, rfl, rfl⟩

theorem cowUnit (s : State) (prio u : Nat) : MemFrame s (cowUnit s prio u).2 := by
  unfold Machine.cowUnit
  refine accAll (fun t e => ?_) ..
  dsimp only
  split
  · exact refl t
  split
  · have h := tierFetch t prio u 2048
    split <;> rename_i he <;> rw [he] at h
    · refine h.trans (trans (storeUnit ..) (ite (fun _ => takes ..) fun _ => refl _))
    · exact h
  · exact takes ..

theorem tierStore (s : State) (prio : Nat) (who : Option (PartId × W64)) (a : Nat) (b : Bytes) :
    MemFrame s (tierStore s prio who a b).2 :=
  accAll (fun _ _ => bind (cowUnit ..) fun _ => storeUnit ..) ..

/-! ### Strata and any address -/

theorem putStrata (s : State) (live off : Nat) (b : Bytes) : MemFrame s (putStrata s live off b) :=
  ⟨⟨_, _, _, _, _, _, _, _, _, _, rfl⟩, fun _ => ⟨_, rfl⟩, rfl, rfl⟩

theorem writeStrata (s : State) (l off : Nat) (b : Bytes) : MemFrame s (writeStrata s l off b) := by
  unfold Machine.writeStrata
  dsimp only
  exact (putStrata ..).trans (forEach (fun t _ => ite (fun _ => putStrata ..) fun _ => refl t) ..)

theorem writeMem (s : State) (w : Who) (a : Nat) (b : Bytes) (prio : Nat) : MemFrame s (writeMem s w a b prio).2 := by
  unfold Machine.writeMem
  split
  · exact refl s
  split
  · exact refl s
  split
  · exact tierStore ..
  split
  · exact refl s
  · exact writeStrata ..

end MemFrame

end Sys2Proof.Machine
end

section
/-! PROOFS. Tile hardware faults, the copy to a spare, step replays and newt events. -/

namespace Sys2Proof.Machine
open Sys2Proof

/-! ### Commands cut short -/

/-- A state reached from another by what cutting a tile's commands may change: that tile, memory, and what a step has met. -/
structure CutFrame (t : Nat) (s u : State) : Prop where
  tile : ∀ k, k ≠ t → tileAt u k = tileAt s k
  part : ∀ p, ∃ run, partAt u p = { partAt s p with run := run }
  copying : u.strata.copying = s.strata.copying
  remap : u.strata.remap = s.strata.remap
  fuses : u.fuses = s.fuses

namespace CutFrame

variable {s u v : State} {t : Nat}

theorem refl (t : Nat) (s : State) : CutFrame t s s := ⟨fun _ _ => rfl, fun _ => ⟨_, rfl⟩, rfl, rfl, rfl⟩

theorem trans (h : CutFrame t s u) (h' : CutFrame t u v) : CutFrame t s v := by
  refine ⟨fun k hk => (h'.tile k hk).trans (h.tile k hk), fun p => ?_, h'.copying.trans h.copying, h'.remap.trans h.remap, h'.fuses.trans h.fuses⟩
  obtain ⟨r, hr⟩ := h.part p
  obtain ⟨r', hr'⟩ := h'.part p
  exact ⟨r', by rw [hr', hr]⟩

theorem of_mem (h : MemFrame s u) : CutFrame t s u :=
  ⟨fun k _ => by rw [tileAt, h.tiles, tileAt], h.part, h.copying, h.remap, h.fuses⟩

theorem modTile (s : State) (f : Tile → Tile) : CutFrame t s (modTile s t f) :=
  ⟨fun _ hk => (tileAt_modTile ..).trans (if_neg hk), fun _ => ⟨_, rfl⟩, rfl, rfl, rfl⟩

theorem takeFree (s : State) : CutFrame t s (takeFree s).2 := ⟨fun _ _ => rfl, fun _ => ⟨_, rfl⟩, rfl, rfl, rfl⟩

theorem forEach {α : Type} {f : State → α → State} (h : ∀ s a, CutFrame t s (f s a)) (l : List α) (s : State) :
    CutFrame t s (Machine.forEach l s f) := by
  unfold Machine.forEach
  induction l generalizing s with
  | nil => exact refl t s
  | cons a l ih => exact (h s a).trans (ih _)

theorem cutCommand (s : State) (c : TileCmd) : CutFrame t s (cutCommand s t c) := by
  unfold Machine.cutCommand
  split
  · exact refl t s
  extract_lets s₁ s₂ s₃
  have h₁ : CutFrame t s s₁ := forEach (fun s r => (takeFree s).trans (of_mem (MemFrame.writeMem ..))) ..
  have h₂ : CutFrame t s₁ s₂ := forEach (fun s r => (takeFree s).trans (modTile ..)) ..
  have h₃ : CutFrame t s₂ s₃ := by
    unfold s₃
    split
    · exact refl t s₂
    · exact (takeFree s₂).trans (modTile ..)
  have h := (h₁.trans h₂).trans h₃
  clear_value s₃
  split
  · exact h
  · exact h.trans ((takeFree s₃).trans (modTile ..))

theorem cutQueue (s : State) : CutFrame t s (cutQueue s t) := by
  unfold Machine.cutQueue
  have h := forEach (f := fun s c => Machine.cutCommand s t c) (cutCommand (t := t)) (tileAt s t).queue s
  exact h.trans (modTile ..)

theorem regSet (s : State) (r : Reg) (v : Nat) : CutFrame t s (regSet s r v) := ⟨fun _ _ => rfl, fun _ => ⟨_, rfl⟩, rfl, rfl, rfl⟩

theorem noteFault (s : State) (cause info : Nat) (imprecise : Bool) : CutFrame t s (noteFault s t cause info imprecise) := by
  unfold Machine.noteFault
  extract_lets r
  split
  · exact refl t s
  · exact regSet ..

end CutFrame

/-! ### A tile that retires -/

/-- A tile that a hardware fault has retired. -/
def retiredTile (x : Tile) : Tile := { x with st := .retired, halting := false, wait := .nothing, binding := none }

/-- A tile retired, before a spare is looked for. -/
def retireTile (s : State) (t : Nat) : State :=
  releaseHolds (modTile (cutQueue (noteFault s t 0x0F 0 false) t) t retiredTile) t

/-- A copy to one of the free spares begun. -/
def beginCopy (s : State) (t : Nat) (free : List Nat) : State :=
  setStrata (takeFree s).2 fun x => { x with copying := x.copying ++ [(t, nth 0 free (Config.freeNat (takeFree s).1 % free.length))] }

variable {s : State} {t : Nat}

theorem cutFrame_retireTile (s : State) (t : Nat) : CutFrame t s (retireTile s t) := by
  have h := (CutFrame.noteFault (t := t) s 0x0F 0 false).trans ((CutFrame.cutQueue _).trans (CutFrame.modTile _ retiredTile))
  exact ⟨h.tile, h.part, h.copying, h.remap, h.fuses⟩

theorem st_retireTile : (tileAt (retireTile s t) t).st = .retired :=
  congrArg Tile.st ((tileAt_modTile (s := cutQueue (noteFault s t 0x0F 0 false) t) t t retiredTile).trans (if_pos rfl))

theorem noteFault_eq_ite (s : State) (t cause info : Nat) (imprecise : Bool) :
    ∃ v, noteFault s t cause info imprecise = if regFld s ⟨.newtFault, t, 0⟩ 0 8 ≠ 0 then s else regSet s ⟨.newtFault, t, 0⟩ v := ⟨_, rfl⟩

theorem parts_noteFault (cause info : Nat) (imprecise : Bool) : (noteFault s t cause info imprecise).parts = s.parts := by
  obtain ⟨v, hv⟩ := noteFault_eq_ite s t cause info imprecise
  rw [hv]
  split
  · rfl
  · rfl

theorem tileAt_noteFault (cause info k : Nat) (imprecise : Bool) : tileAt (noteFault s t cause info imprecise) k = tileAt s k := by
  obtain ⟨v, hv⟩ := noteFault_eq_ite s t cause info imprecise
  rw [hv]
  split
  · rfl
  · rfl

theorem parts_retireTile (h : (tileAt s t).queue = []) : (retireTile s t).parts = s.parts := by
  have hq : (tileAt (noteFault s t 0x0F 0 false) t).queue = [] := by rw [tileAt_noteFault, h]
  calc (retireTile s t).parts = (cutQueue (noteFault s t 0x0F 0 false) t).parts := rfl
    _ = (noteFault s t 0x0F 0 false).parts := by unfold cutQueue; rw [hq]; rfl
    _ = s.parts := parts_noteFault ..

theorem ownerOf_of_cut {u : State} (h : CutFrame t s u) (r : Nat) : ownerOf u r = ownerOf s r := by
  unfold ownerOf
  refine congrArg (fun f => List.find? f _) (funext fun p => ?_)
  obtain ⟨run, hp⟩ := h.part p
  rw [partTiles, hp, partTiles]

/-- Of the free spares only the tile that retires is lost. -/
theorem freeSpares_retireTile (s : State) (t d : Nat) : freeSpares (retireTile s t) d = (freeSpares s d).filter fun k => k != t := by
  have hf := cutFrame_retireTile s t
  unfold freeSpares
  rw [List.filter_filter, hf.fuses, hf.copying]
  refine List.filter_congr fun k _ => ?_
  rw [spareInUse, hf.remap, spareInUse]
  by_cases hk : k = t
  · simp [hk, st_retireTile]
  · simp [hf.tile k hk, hk]

theorem not_mem_freeSpares {d : Nat} (h : nameOf s t ∉ s.fuses.spares) : t ∉ freeSpares s d := fun hm => by
  obtain ⟨hsp, hc⟩ := List.mem_filter.mp hm
  have hu : spareInUse s t = false := by simp_all
  have hnone : s.strata.remap.find? (fun e => e.2 == some t) = none :=
    List.find?_eq_none.mpr fun e he => by simpa using List.any_eq_false.mp hu e he
  exact h (by rw [nameOf, hnone]; exact hsp)

theorem hwFault_of_unowned (h : (tileAt s t).st ≠ .retired) (ho : ownerOf s (nameOf s t) = none) :
    hwFault s t = if (!s.fuses.spares.contains (nameOf s t) && !(freeSpares (retireTile s t) (tileDie t)).isEmpty) = true
      then beginCopy (retireTile s t) t (freeSpares (retireTile s t) (tileDie t)) else retireTile s t := by
  have hown := (ownerOf_of_cut (cutFrame_retireTile s t) (nameOf s t)).trans ho
  unfold hwFault
  rw [if_neg h]
  have key (x : State × Bool) (hx : ownerOf x.1 (nameOf s t) = none) :
      (match ownerOf x.1 (nameOf s t) with | some p => stepLosesTile x.1 p t x.2 | none => x.1) = x.1 := by rw [hx]
  by_cases hc : (!s.fuses.spares.contains (nameOf s t) && !(freeSpares (retireTile s t) (tileDie t)).isEmpty) = true
  · rw [if_pos hc]
    exact (congrArg (fun x : State × Bool => match ownerOf x.1 (nameOf s t) with | some p => stepLosesTile x.1 p t x.2 | none => x.1)
      (if_pos hc)).trans (key (beginCopy (retireTile s t) t (freeSpares (retireTile s t) (tileDie t)), true) hown)
  · rw [if_neg hc]
    exact (congrArg (fun x : State × Bool => match ownerOf x.1 (nameOf s t) with | some p => stepLosesTile x.1 p t x.2 | none => x.1)
      (if_neg hc)).trans (key (retireTile s t, false) hown)

theorem nth_mem_of_lt {α : Type} {d : α} {l : List α} {n : Nat} (h : n < l.length) : nth d l n ∈ l := by
  rw [nth, List.getElem?_eq_getElem h]
  exact List.getElem_mem h

theorem tileAt_beginCopy (free : List Nat) (k : Nat) : tileAt (beginCopy s t free) k = tileAt s k := rfl

theorem parts_beginCopy (free : List Nat) : (beginCopy s t free).parts = s.parts := rfl

/-- A tile and the partitions after a hardware fault are those of the tile retired: the copy that begins touches neither. -/
theorem hwFault_unowned_sides (h : (tileAt s t).st ≠ .retired) (ho : ownerOf s (nameOf s t) = none) :
    (∀ k, tileAt (hwFault s t) k = tileAt (retireTile s t) k) ∧ (hwFault s t).parts = (retireTile s t).parts := by
  rw [hwFault_of_unowned h ho]
  split
  · exact ⟨tileAt_beginCopy _, parts_beginCopy _⟩
  · exact ⟨fun _ => rfl, rfl⟩

/-- What a hardware fault of a tile outside every partition leaves. -/
theorem hwFault_leaves (h : (tileAt s t).st ≠ .retired) (ho : ownerOf s (nameOf s t) = none) :
    (tileAt (hwFault s t) t).st = .retired
    ∧ (∀ k, k ≠ t → tileAt (hwFault s t) k = tileAt s k)
    ∧ ((tileAt s t).queue = [] → (hwFault s t).parts = s.parts)
    ∧ (freeSpares s (tileDie t) = [] → (hwFault s t).strata.copying = s.strata.copying)
    ∧ ((tileAt s t).queue = [] → nameOf s t ∉ s.fuses.spares → freeSpares s (tileDie t) ≠ [] →
      ∃ u ∈ freeSpares s (tileDie t), (hwFault s t).strata.copying = s.strata.copying ++ [(t, u)]) := by
  have hcut := cutFrame_retireTile s t
  have hfree := freeSpares_retireTile s t (tileDie t)
  obtain ⟨htile, hparts⟩ := hwFault_unowned_sides h ho
  refine ⟨(congrArg Tile.st (htile t)).trans st_retireTile, fun k hk => (htile k).trans (hcut.tile k hk),
    fun hq => hparts.trans (parts_retireTile hq), fun hnone => ?_, fun _ hneed hsome => ?_⟩
  · rw [hnone, List.filter_nil] at hfree
    rw [hwFault_of_unowned h ho, hfree, if_neg (by simp)]
    exact hcut.copying
  · have hkeep : (freeSpares s (tileDie t)).filter (fun k => k != t) = freeSpares s (tileDie t) :=
      List.filter_eq_self.mpr fun k hk => by
        have hne : k ≠ t := fun e => not_mem_freeSpares hneed (e ▸ hk)
        simp [hne]
    rw [hkeep] at hfree
    rw [hwFault_of_unowned h ho, hfree, if_pos (by simp [hneed, hsome])]
    refine ⟨nth 0 (freeSpares s (tileDie t)) (Config.freeNat (takeFree (retireTile s t)).1 % (freeSpares s (tileDie t)).length),
      nth_mem_of_lt (Nat.mod_lt _ (List.length_pos_of_ne_nil hsome)), ?_⟩
    exact congrArg (· ++ _) hcut.copying

/-! ### The copy to a spare -/

theorem liveTile_remapped (u : State) (old r spare : Nat) :
    liveTile (setStrata u fun y => { y with copying := y.copying.filter (fun c => c.1 != old), remap := Tbl.put none y.remap r (some spare) }) r
      = spare := by
  simp [liveTile, setStrata]

/-! ### Events -/

theorem satAdd_one (n : Nat) : satAdd (2 ^ 32 - 1) 1 n = min (2 ^ 32 - 1) (n + 1) := by
  unfold satAdd
  split
  · omega
  · omega

theorem bumpEvent_eq (c : Nat) :
    (fun x : Tile => bumpEvent x c) = fun x => { x with events := Tbl.upd 0 x.events c fun n => min (2 ^ 32 - 1) (n + 1) } :=
  funext fun x => congrArg (fun f => { x with events := Tbl.upd 0 x.events c f }) (funext satAdd_one)

/-- A step replay once its tile's deferred stop is settled. -/
theorem doStepReplay_of {s0 : State} {p : PartId} {r : Step} (h : (partAt (settleStop s0 p.val) p.val).run = some r) :
    doStepReplay p s0 =
      let s := settleStop s0 p.val
      let ms := liveMembers s r.members
      if r.replayDue = false ∨ ms.any (fun t => s.strata.copying.any fun c => c.1 == t) then s
      else if mayReplay s p.val = false then stopStep s p.val stParityLost
      else
        let s := dropStaged (forEach ms (forEach ms s fun s t => reload s p.val t) stopTile) p.val
        let s := modRun s p.val fun r => { r with replayDue := false, recovered := true, replays := r.replays + 1, faults := [], marks := [], progress := 0 }
        launch s p.val r.num r.args r.members := by
  rw [doStepReplay]
  dsimp only
  rw [h]

theorem copying_any_iff (ms : List Nat) (s : State) :
    ms.any (fun t => s.strata.copying.any fun c => c.1 == t) = true ↔ ∃ t ∈ ms, ∃ c ∈ s.strata.copying, c.1 = t := by
  simp

/-- What an acknowledged event leaves of its sender's counts. -/
theorem tileAt_eventAcked {ev : EvMsg} (nak : Bool) (hp : (tileAt s t).part = some ev.part) (he : (tileAt s t).epoch = ev.epoch)
    (hw : (tileAt s t).st ≠ .waiting) :
    tileAt (eventAcked s t ev nak) t = { tileAt s t with posted := (tileAt s t).posted - 1, naks := (tileAt s t).naks + b2n nak } := by
  have hs (u : State) (hu : tileAt u t = { tileAt s t with posted := (tileAt s t).posted - 1, naks := (tileAt s t).naks + b2n nak }) :
      tileAt (wake u t) t = { tileAt s t with posted := (tileAt s t).posted - 1, naks := (tileAt s t).naks + b2n nak } := by
    rw [wake_of_not_waiting (by rw [hu]; exact hw), hu]
  unfold eventAcked
  rw [if_neg (by simp [hp, he])]
  refine hs _ ?_
  rw [apply_ite (fun u => tileAt u t), tileAt_regAddSat, ite_self, tileAt_modTile, if_pos rfl]

/-- Settles O38: each event by what it names, and the unit that a replay or a copy waits for. -/
theorem faultsReplaysAndNewtEvents : Obligations.FaultsReplaysAndNewtEvents := by
  refine ⟨⟨fun s t => ⟨?_, ?_, ?_⟩, fun s t => ⟨?_, ?_⟩, ?_⟩, ?_, ?_, ?_, ?_⟩
  · intro h
    rw [exec_tileHardwareFault, doTileHardwareFault]
    refine congrArg (fun u => Host.Outcome.next (commit s u)) ?_
    rcases h with h | h
    · rw [h]; rfl
    · rw [hwFault, if_pos h, ite_self]
  · intro hv _
    rw [exec_tileHardwareFault, doTileHardwareFault, if_pos hv]
  · exact fun _ h ho => hwFault_leaves h ho
  · intro h
    rw [exec_remapCopyComplete, doRemapCopyComplete, h]
  · intro old spare h
    refine ⟨fun hw => ?_, fun hw => ⟨liveTile_remapped .., fun c hc => ?_, fun i p hi hp => ?_, fun hn => ?_⟩⟩
    · rw [exec_remapCopyComplete, doRemapCopyComplete, h]
      exact congrArg (fun u => Host.Outcome.next (commit s u)) (if_pos hw)
    · exact by simpa using (List.mem_filter.mp hc).2
    · rw [exec_remapCopyComplete, doRemapCopyComplete, h]
      refine congrArg (fun u => Host.Outcome.next (commit s u)) ((if_neg hw).trans ?_)
      rw [hi, hp]
    · rw [exec_remapCopyComplete, doRemapCopyComplete, h]
      refine congrArg (fun u => Host.Outcome.next (commit s u)) ((if_neg hw).trans ?_)
      rcases hn with hn | hn
      · rw [hn]
      · rw [hn]; cases (tileAt s old).image <;> rfl
  · intro s0 s p hs
    subst hs
    refine ⟨fun h => ?_, fun r h => ⟨fun hno => ?_, fun hdue hcopy hmay => ?_, fun hdue hcopy hmay => ?_⟩⟩
    · rw [exec_stepReplay, doStepReplay]
      dsimp only
      rw [h]
    · rw [exec_stepReplay, doStepReplay_of h]
      exact congrArg (fun u => Host.Outcome.next (commit s0 u)) (if_pos (hno.imp id (copying_any_iff ..).mpr))
    all_goals
      have hn : ¬ (r.replayDue = false ∨ (liveMembers (settleStop s0 p.val) r.members).any
          (fun t => (settleStop s0 p.val).strata.copying.any fun c => c.1 == t) = true) := by
        rw [copying_any_iff]
        exact not_or.mpr ⟨by simp [hdue], hcopy⟩
    · rw [exec_stepReplay, doStepReplay_of h]
      exact congrArg (fun u => Host.Outcome.next (commit s0 u)) ((if_neg hn).trans (if_pos hmay))
    · rw [exec_stepReplay, doStepReplay_of h]
      exact congrArg (fun u => Host.Outcome.next (commit s0 u)) ((if_neg hn).trans (if_neg (by simp [hmay])))
  · intro s ev
    have known_iff : ((partAt s ev.part.val).st ≠ .none ∧ (partAt s ev.part.val).epoch = ev.epoch
        ∧ (partTiles s ev.part.val).contains ev.dst.toNat = true) ↔ ¬ ((partAt s ev.part.val).st = .none
          ∨ (partAt s ev.part.val).epoch ≠ ev.epoch ∨ (partTiles s ev.part.val).contains ev.dst.toNat = false) := by
      simp only [not_or, ne_eq, not_not, Bool.not_eq_false]
    refine ⟨fun h => ?_, fun h hin hst => ?_, fun h hlt hroom => ?_, fun h hlt hfull => ?_, fun h hle hno => ?_⟩
    · exact if_pos (not_not.mp (known_iff.not.mp h))
    · refine (if_neg (known_iff.mp h)).trans ((if_pos ⟨hin, hst⟩).trans ?_)
      rw [bumpEvent_eq]
    · have hne : ¬ (inStep (tileAt s (liveTile s ev.dst.toNat)).st = true ∧ (tileAt s (liveTile s ev.dst.toNat)).step = ev.step) :=
        fun e => by rw [e.2] at hlt; exact lt_irrefl _ hlt
      exact (if_neg (known_iff.mp h)).trans ((if_neg hne).trans ((if_pos hlt).trans (if_neg (by omega))))
    · have hne : ¬ (inStep (tileAt s (liveTile s ev.dst.toNat)).st = true ∧ (tileAt s (liveTile s ev.dst.toNat)).step = ev.step) :=
        fun e => by rw [e.2] at hlt; exact lt_irrefl _ hlt
      exact (if_neg (known_iff.mp h)).trans ((if_neg hne).trans ((if_pos hlt).trans (if_pos hfull)))
    · exact (if_neg (known_iff.mp h)).trans ((if_neg hno).trans (if_neg (by omega)))
  · intro s ev
    refine ⟨fun h => ?_, fun h => ⟨fun t ht => ?_, fun ht => ?_⟩⟩
    · rw [exec_newtEvent, doNewtEvent, if_neg (by rw [h]; decide)]
    · rw [exec_newtEvent, doNewtEvent, if_pos h, ht]
    · rw [exec_newtEvent, doNewtEvent, if_pos h, ht]
  · intro s t ev nak
    refine ⟨fun h => if_pos h, fun hp he hw => ?_⟩
    rw [tileAt_eventAcked nak hp he hw]
    exact ⟨rfl, by cases nak <;> rfl⟩
  · intro s m dst ctr step
    refine ⟨fun st h => ?_, fun h => ⟨fun hr => ?_, fun st hr => ?_⟩⟩
    · rw [exec_newtEvent, doNewtEvent, h]
    · rw [exec_newtEvent, doNewtEvent, h]
      generalize applyEvent _ _ = x at hr ⊢
      obtain ⟨o, u⟩ := x
      obtain rfl : o = none := hr
      rfl
    · rw [exec_newtEvent, doNewtEvent, h]
      generalize applyEvent _ _ = x at hr ⊢
      obtain ⟨o, u⟩ := x
      obtain rfl : o = some st := hr
      rfl

end Sys2Proof.Machine
end

section
/-! PROOFS. Library routines: who stands at a routine's word, how a call ends, and the routines' refusals. -/

namespace Sys2Proof.Machine
open Sys2Proof

/-! ### The group at a word -/

variable {s s1 t u : State} {p k n : Nat} {hit : Option TileId} {ms : List Nat} {d : Bytes} {a : Acc}

/-- The members of a partition's step that stand at a word. -/
def membersAt (s : State) (p k : Nat) : List Nat := (runMembers s p).filter fun t => atWord s t k

theorem groupCall_of_none (arg : State → Nat → List Nat) (h : membersAt s p k = []) : groupCall s p k arg = (none, s) := by
  unfold membersAt at h
  unfold groupCall
  dsimp only
  rw [h]

theorem groupCall_of_some (arg : State → Nat → List Nat) (h : membersAt s p k ≠ []) : groupCall s p k arg =
    if (membersAt s p k).length = (runMembers s p).length
      ∧ (membersAt s p k).all (fun u => arg s u == arg s (nth 0 (membersAt s p k) 0)) = true
    then (some (runMembers s p), s) else (none, forEach (membersAt s p k) s fun s u => parkAt s u .group) := by
  obtain ⟨t, l, hl⟩ := List.exists_cons_of_ne_nil h
  rw [hl]
  unfold membersAt at hl
  unfold groupCall
  dsimp only
  rw [hl]
  rfl

/-- The group stands together: every member at the word, with the arguments of the first. -/
theorem together_iff (arg : Nat → List Nat) : ((membersAt s p k).length = (runMembers s p).length
      ∧ (membersAt s p k).all (fun u => arg u == arg (nth 0 (membersAt s p k) 0)) = true)
    ↔ membersAt s p k = runMembers s p ∧ ∀ u ∈ membersAt s p k, arg u = arg (nth 0 (membersAt s p k) 0) := by
  rw [membersAt, List.length_filter_eq_length_iff, List.filter_eq_self, List.all_eq_true]
  simp only [beq_iff_eq]

theorem scratchCall_of_parity {l : Nat} (arg : State → Nat → List Nat) (h : libParity s p k hit = some l) :
    scratchCall s p k hit arg = (none, newtFault s l 0x0E 0 false) := by rw [scratchCall, h]

theorem scratchCall_of_sound (arg : State → Nat → List Nat) (h : libParity s p k hit = none) :
    scratchCall s p k hit arg = groupCall s p k arg := by rw [scratchCall, h]

/-! ### A routine with a descriptor -/

variable {f : State → List Nat → Bytes → State}

theorem libRow_of_waits (h : scratchCall s p k hit (descArg n) = (none, u)) : libRow p k n hit s f = u := by rw [libRow, h]

theorem libRow_of_no_desc (h : scratchCall s p k hit (descArg n) = (some ms, s1)) (hd : libDesc s1 (nth 0 ms 0) n = none) :
    libRow p k n hit s f = newtFault s1 (nth 0 ms 0) 0x03 0 false := by
  rw [libRow, h]
  dsimp only
  rw [hd]
  rfl

theorem libRow_of_desc (h : scratchCall s p k hit (descArg n) = (some ms, s1)) (hd : libDesc s1 (nth 0 ms 0) n = some d) :
    libRow p k n hit s f = f s1 ms d := by
  rw [libRow, h]
  dsimp only
  rw [hd]

theorem libEnd_ok (s0 s : State) (p : Nat) (ms : List Nat) :
    libEnd s0 s p ms .ok = forEach ms s fun s t => modTile s t libReturn := rfl

/-! ### The attention routines -/

section
variable {word op : Nat} {body : State → Bytes → List BatchE → List Nat → State → State}

theorem attnRow_of_waits (h : scratchCall s p word hit (descArg 112) = (none, u)) : attnRow p word op hit s body = u := by
  rw [attnRow, h]

theorem attnRow_of_no_desc (h : scratchCall s p word hit (descArg 112) = (some ms, s1)) (hd : libDesc s1 (nth 0 ms 0) 112 = none) :
    attnRow p word op hit s body = newtFault s1 (nth 0 ms 0) 0x03 0 false := by
  rw [attnRow, h]
  dsimp only
  rw [hd]
  rfl

theorem attnRow_of_bad_desc (h : scratchCall s p word hit (descArg 112) = (some ms, s1)) (hd : libDesc s1 (nth 0 ms 0) 112 = some d)
    (hbad : attnDescOk op d = false) : attnRow p word op hit s body = newtFault s1 (nth 0 ms 0) 0x09 0 false := by
  rw [attnRow, h]
  dsimp only
  rw [hd]
  exact if_pos hbad

theorem attnRow_of_desc (h : scratchCall s p word hit (descArg 112) = (some ms, s1)) (hd : libDesc s1 (nth 0 ms 0) 112 = some d)
    (hok : attnDescOk op d = true) : attnRow p word op hit s body =
      match loadBatch s1 p op d with
      | (.ok, none, t) => libFault t ms 0x09
      | (.ok, some es, t) => body s1 d es ms t
      | (a, _, t) => libEnd s1 t p ms a := by
  rw [attnRow, h]
  dsimp only
  rw [hd]
  exact if_neg (by simp [hok])

/-- A row of an attention routine, by how far its call comes. -/
theorem exec_of_attnRow {row : Instr} (hrow : exec row s = .next (commit s (attnRow p word op hit s body))) :
    (∀ u, scratchCall s p word hit (descArg 112) = (none, u) → exec row s = .next (commit s u))
    ∧ (∀ ms s1, scratchCall s p word hit (descArg 112) = (some ms, s1) →
      (libDesc s1 (nth 0 ms 0) 112 = none → exec row s = .next (commit s (newtFault s1 (nth 0 ms 0) 0x03 0 false)))
      ∧ (∀ d, libDesc s1 (nth 0 ms 0) 112 = some d →
        (attnDescOk op d = false → exec row s = .next (commit s (newtFault s1 (nth 0 ms 0) 0x09 0 false)))
        ∧ (attnDescOk op d = true → ∀ a o t, loadBatch s1 p op d = (a, o, t) →
          (a ≠ .ok → exec row s = .next (commit s (libEnd s1 t p ms a)))
          ∧ (a = .ok → o = none → exec row s = .next (commit s (newtFault t (nth 0 ms 0) 0x09 0 false)))
          ∧ (∀ es, a = .ok → o = some es → exec row s = .next (commit s (body s1 d es ms t)))))) := by
  rw [hrow]
  refine ⟨fun u h => ?_, fun ms s1 h => ⟨fun hd => ?_, fun d hd => ⟨fun hbad => ?_, fun hok a o t hl => ?_⟩⟩⟩
  · rw [attnRow_of_waits h]
  · rw [attnRow_of_no_desc h hd]
  · rw [attnRow_of_bad_desc h hd hbad]
  rw [attnRow_of_desc h hd hok, hl]
  refine ⟨fun ha => ?_, fun ha ho => ?_, fun es ha ho => ?_⟩
  · cases a with
    | ok => exact absurd rfl ha
    | wait => rfl
    | _ => rfl
  · subst ha ho; rfl
  · subst ha ho; rfl

end

/-- An access that did not end well ends its call by how it ended. -/
theorem acc_match_of_not_ok {α : Type} {r : Acc × State} {f : State → α} {g : Acc → State → α} :
    r.1 ≠ .ok → (match r with | (.ok, s) => f s | (a, s) => g a s) = g r.1 r.2 := by
  obtain ⟨a, u⟩ := r
  intro h
  cases a with
  | ok => exact absurd rfl h
  | wait => rfl
  | _ => rfl

/-! ### Appending -/

/-- The rows of queries and outputs that an append reads. -/
def appendRows (d : Bytes) (es : List BatchE) : List (Nat × Nat) :=
  es.flatMap fun e => if (appendPages e).isEmpty then [] else
    [(atQ d + e.row * e.seq.heads * e.seq.d * 2, e.count * e.seq.heads * e.seq.d * 2),
     (atO d + e.row * e.seq.heads * e.seq.d * 2, e.count * e.seq.heads * e.seq.d * 2)]

/-- The reads of an append: its page table entries and its rows. -/
def appendReads (s : State) (p : Nat) (d : Bytes) (es : List BatchE) : Acc × State :=
  readAll s p ((es.flatMap fun e => (appendPages e).map fun n => (pteAddr e.seq n, 8)) ++ appendRows d es)

theorem attnAppendBody_of_not_read {s0 : State} {es : List BatchE} (h : (appendReads s p d es).1 ≠ .ok) :
    attnAppendBody p s0 d es ms s = libEnd s0 (appendReads s p d es).2 p ms (appendReads s p d es).1 := by
  unfold appendReads appendRows at h ⊢
  unfold attnAppendBody
  exact acc_match_of_not_ok h

/-- A page that an append adds to and that is not VALID. -/
def invalidPage (s : State) (es : List BatchE) : Bool :=
  es.any fun e => (appendPages e).any fun n => openPage e n && !bitOf (pte s e.seq n) 0

theorem invalidPage_iff {es : List BatchE} :
    invalidPage s es = true ↔ ∃ e ∈ es, ∃ n ∈ appendPages e, openPage e n = true ∧ bitOf (pte s e.seq n) 0 = false := by
  simp [invalidPage]

theorem attnAppendBody_of_invalid {s0 : State} {es : List BatchE} (h : appendReads s p d es = (.ok, s1)) (hi : invalidPage s1 es = true) :
    attnAppendBody p s0 d es ms s = newtFault s1 (nth 0 ms 0) 0x09 0 true := by
  unfold appendReads appendRows at h
  unfold attnAppendBody
  dsimp only
  rw [h]
  exact if_pos hi

theorem attnAppendBody_of_short {s0 s2 : State} {es : List BatchE} (h : appendReads s p d es = (.ok, s1)) (hi : ¬ invalidPage s1 es = true)
    (hg : gatherFrames s1 p es = (.ok, none, s2)) : attnAppendBody p s0 d es ms s = failStep s2 p stNoResource := by
  unfold appendReads appendRows at h
  unfold attnAppendBody
  dsimp only
  rw [h]
  refine (if_neg hi).trans ?_
  rw [hg]

/-! ### Convolution on the tadpole engine -/

section
variable {s0 : State} {c w : Bytes}

theorem convTadpole_of_no_wcb (hdie : partDies s p ≠ []) (h : libWcb s (nth 0 ms 0) (fieldAt c 0x44 4) = none) :
    convTadpole p s0 s ms c = newtFault s (nth 0 ms 0) 0x03 0 false := by
  rw [convTadpole, if_neg hdie, h]
  rfl

theorem convTadpole_of_bad_wcb (hdie : partDies s p ≠ []) (h : libWcb s (nth 0 ms 0) (fieldAt c 0x44 4) = some w)
    (hbad : tadpoleOk c w = false) : convTadpole p s0 s ms c = newtFault s (nth 0 ms 0) 0x09 0 false := by
  rw [convTadpole, if_neg hdie, h]
  exact if_pos hbad

theorem convTadpole_of_wcb (hdie : partDies s p ≠ []) (h : libWcb s (nth 0 ms 0) (fieldAt c 0x44 4) = some w)
    (hok : tadpoleOk c w = true) : convTadpole p s0 s ms c =
      match readAll s p (tadpoleReads c) with
      | (.ok, s) => libEnd s0 (writeRuns s (.step p) (partPrio s p) (tadpoleStore s c w)).2 p ms
          (writeRuns s (.step p) (partPrio s p) (tadpoleStore s c w)).1
      | (a, s) => libEnd s0 s p ms a := by
  rw [convTadpole, if_neg hdie, h]
  exact if_neg (by simp [hok])

end

/-- Settles O39: each routine by how far its call comes: the group, the descriptor, its accesses. -/
theorem libraryRoutinesRunForTheGroup : Obligations.LibraryRoutinesRunForTheGroup := by
  refine ⟨⟨?_, ?_, ?_⟩, ?_, ?_, ?_, ?_, ?_⟩
  · intro s p k hit arg
    refine ⟨fun l h => scratchCall_of_parity arg h, fun h hn => ?_, fun h hsome hno => ?_, fun h hsome hall harg => ?_⟩
    · exact (scratchCall_of_sound arg h).trans (groupCall_of_none arg hn)
    · refine (scratchCall_of_sound arg h).trans ((groupCall_of_some arg hsome).trans (if_neg fun hyes => ?_))
      obtain ⟨hall, harg⟩ := (together_iff (arg s)).mp hyes
      rcases hno with hne | ⟨u, hu, hne⟩
      · exact hne hall
      · exact hne (harg u hu)
    · exact (scratchCall_of_sound arg h).trans ((groupCall_of_some arg hsome).trans (if_pos ((together_iff (arg s)).mpr ⟨hall, harg⟩)))
  · intro s t n
    refine ⟨fun h8 hn => if_pos ⟨h8, hn⟩, fun h => if_neg fun hyes => ?_⟩
    rcases h with h | h
    · exact h hyes.1
    · exact absurd hyes.2 (Nat.not_le.mpr h)
  · exact fun s0 s p ms st => ⟨rfl, rfl, rfl, rfl⟩
  · rintro s p hit row word op body (⟨rfl, rfl, rfl, rfl⟩ | ⟨rfl, rfl, rfl, rfl⟩ | ⟨rfl, rfl, rfl, rfl⟩)
    · exact exec_of_attnRow (exec_attnFwd ..)
    · exact exec_of_attnRow (exec_attnAppend ..)
    · exact exec_of_attnRow (exec_attnBwd ..)
  · intro p s0 s s1 d es ms
    refine ⟨attnAppendBody_of_not_read, fun h => ⟨fun hi => attnAppendBody_of_invalid h (invalidPage_iff.mpr hi),
      fun hi s2 hg => attnAppendBody_of_short h (fun hyes => hi (invalidPage_iff.mp hyes)) hg⟩⟩
  · intro s p hit
    rw [exec_conv, doConv]
    refine ⟨fun u h => ?_, fun ms s1 h => ⟨fun hd => ?_, fun c hd => ⟨fun hbad => ?_, fun hok hf => ?_, fun hok hf => ?_⟩⟩⟩
    · rw [libRow_of_waits h]
    · rw [libRow_of_no_desc h hd]
    all_goals rw [libRow_of_desc h hd]
    · exact congrArg (fun u => Host.Outcome.next (commit s u)) (if_pos hbad)
    · exact congrArg (fun u => Host.Outcome.next (commit s u)) ((if_neg (by simp [hok])).trans (if_pos hf))
    · rw [if_neg (by simp [hok]), if_neg hf]
      refine ⟨fun hdie => ?_, fun hdie hw => ?_, fun w hdie hw => ⟨fun hbad => ?_, fun s2 s3 hwok hr hs => ?_, fun a s2 hwok hr ha => ?_⟩⟩
      · rw [convTadpole, if_pos hdie]
      · rw [convTadpole_of_no_wcb hdie hw]
      · rw [convTadpole_of_bad_wcb hdie hw hbad]
      · rw [convTadpole_of_wcb hdie hw hwok, hr]
        dsimp only
        rw [hs, libEnd_ok]
      · rw [convTadpole_of_wcb hdie hw hwok, hr]
        exact congrArg (fun u => Host.Outcome.next (commit s u)) (acc_match_of_not_ok (r := (a, s2)) ha)
  · intro s p hit
    rw [exec_det, doDet]
    refine ⟨fun u h => ?_, fun ms s1 h => ⟨fun hd => ?_, fun d hd => ⟨fun hbad => ?_, fun hok hdie => ?_, fun a s2 hok hdie hr => ?_⟩⟩⟩
    · rw [libRow_of_waits h]
    · rw [libRow_of_no_desc h hd]
    all_goals rw [libRow_of_desc h hd]
    · exact congrArg (fun u => Host.Outcome.next (commit s u)) (if_pos hbad)
    · exact congrArg (fun u => Host.Outcome.next (commit s u)) ((if_neg (by simp [hok])).trans (if_pos hdie))
    · rw [if_neg (by simp [hok]), if_neg hdie, hr]
      exact ⟨fun ha => by rw [ha, libEnd_ok], fun _ => rfl⟩
  · intro s m
    rw [exec_partialRecord, doPartialRecord]
    refine ⟨fun h => congrArg (fun u => Host.Outcome.next (commit s u)) (if_pos h), fun hin hcls => ?_⟩
    rw [if_neg (by simp only [hin, hcls]; decide)]
    dsimp only
    exact ⟨fun st h => by rw [h], fun h => by rw [h]⟩

end Sys2Proof.Machine
end

section
/-! PROOFS. Strata regions, parity failures by class, refetches and scrubbing. -/

namespace Sys2Proof.Machine
open Sys2Proof

variable {s : State} {l n t off : Nat} {r : Region} {by_ : FoundBy} {rb : Bool}

/-! ### Regions declared and released -/

theorem regions_zeroRanges (ranges : List (Nat × Nat)) (s : State) (l : Nat) :
    (forEach ranges s fun s x => zeroStrata s l x.1 x.2).strata.regions = s.strata.regions :=
  forEach_keeps (view := fun s => s.strata.regions) (h := fun _ _ => rfl) ..

/-- A region released: its entry, and no other, is free. -/
theorem regions_releaseRegion (h : Tbl.get none s.strata.regions (64 * l + n) = some r) :
    (releaseRegion s l n).strata.regions = Tbl.put none s.strata.regions (64 * l + n) none := by
  unfold releaseRegion
  rw [h]
  exact congrArg (fun x => Tbl.put none x (64 * l + n) none) (regions_zeroRanges (regionRanges r) s l)

/-- The check of one name of a release: the tile exists, and a region that the function may name begins there. -/
def releasable (s : State) (c : Cmd) (n : Nat × Nat) : Bool :=
  validTile n.1 && (match regionStart s n.1 n.2 with | some e => c.may e.2.part | none => false)

theorem releasable_iff (c : Cmd) (n : Nat × Nat) :
    releasable s c n = true ↔ validTile n.1 = true ∧ ∃ e, regionStart s n.1 n.2 = some e ∧ c.may e.2.part = true := by
  unfold releasable
  cases regionStart s n.1 n.2 with
  | none => simp
  | some e => simp

/-! ### Failures by class -/

theorem strata_strLog (cls code outcome : Nat) : (strLog s t off cls code outcome).strata = s.strata := by
  unfold strLog
  extract_lets r
  split
  · rfl
  · rfl

theorem resolveFail_of_clean (hr : regionOf s t off = some r) (hc : r.cls = 1) : resolveFail s t off by_ rb =
    setStrata (if (s.strata.refetching.any fun e => e.1 / 256 == strataAddr t off / 256) = true then s
      else strLog s t off 1 (foundCode by_) 0) fun x => { x with refetching := x.refetching ++ [(strataAddr t off, by_)] } := by
  unfold resolveFail
  dsimp only
  rw [hr]
  dsimp only
  rw [hc]
  rfl

theorem resolveFail_of_recompute (hr : regionOf s t off = some r) (hc : r.cls = 2) : resolveFail s t off by_ rb =
    if (recoverByte s t off (foundCode by_)).1 = .replay
    then replayStep (repairLine (recoverByte s t off (foundCode by_)).2 t off rb) r.part
    else repairLine (recoverByte s t off (foundCode by_)).2 t off rb := by
  unfold resolveFail
  dsimp only
  rw [hr]
  dsimp only
  rw [hc]
  rfl

theorem repairLine_of_sound : repairLine s t off false = s := if_pos rfl

/-! ### Refetches -/

/-- A refetch of a line that readers wait for: what its tier returns. -/
theorem doCleanRefetchDone_of {a : BitVec 48} {ok : Bool} {e : Nat × FoundBy} {more : List (Nat × FoundBy)}
    (ha : strataAt s a.toNat = some (l, off))
    (hw : (s.strata.refetching.filter fun e => e.1 / 256 == strataAddr l off / 256) = e :: more) (hr : regionOf s l off = some r) :
    doCleanRefetchDone a ok rb s =
      let o := e.1 % 0x8000000
      let t := setStrata s fun x => { x with refetching := x.refetching.filter fun x => x.1 / 256 != e.1 / 256 }
      let got : Acc × Bytes × State := if ok = true then tierFetch t 0 (r.source + (o / 2048 * 2048 - r.offset)) 2048 else (.fail stTierFail, [], t)
      match got with
      | (.wait, _, _) => s
      | (.ok, b, v) => forEach ((e :: more).map (·.2)) (repairLine (strRecovered
          (putStrata v l (o / 256 * 256) ((b.drop (o / 256 * 256 % 2048)).take 256)) l) l o rb) fun s b => readerOutcome s b l .ok
      | (_, _, v) => forEach ((e :: more).map (·.2)) (strLost (relog v l o 5) l) fun s b => readerOutcome s b l (.fail stTierFail) := by
  rw [doCleanRefetchDone, ha]
  dsimp only
  rw [hw, hr] <;> rfl

theorem doCleanRefetchDone_of_idle {a : BitVec 48} {ok : Bool} (ha : strataAt s a.toNat = some (l, off))
    (h : (s.strata.refetching.filter fun e => e.1 / 256 == strataAddr l off / 256) = [] ∨ regionOf s l off = none) :
    doCleanRefetchDone a ok rb s = s := by
  rw [doCleanRefetchDone, ha]
  dsimp only
  rcases h with h | h
  · rw [h]
  · rw [h]
    cases s.strata.refetching.filter fun e => e.1 / 256 == strataAddr l off / 256 <;> rfl

/-! ### Scrubbing -/

/-- The pass of a die's scrubber gone on by one line. -/
def scrubNext (d : Die) (x : ScrubSt) (v : State) : State :=
  if x.pos + 1 = dieLines then newPass (regAddWrap v ⟨.strScrubPass, d.val, 0⟩ 0 32 1) d.val else setScrub v d.val { x with pos := x.pos + 1 }

/-- The line of the pass that a scrubber reads next: its tile and offset. -/
def scrubHere (s : State) (d : Die) : Nat × Nat := scrubTarget d.val (scrubAt s d.val).pos

theorem doScrubLine_eq (d : Die) (fails : Bool) (hon : regBit s ⟨.strScrub, d.val, 0⟩ 30 = true) : doScrubLine d fails rb s =
    let h := scrubHere s d
    let x : State × Option Nat :=
      match badIn s h.1 h.2 256 with
      | o :: _ => (s, some o)
      | [] => if fails then
          (setParity (takeFree s).2 (strataAddr h.1 (h.2 + Config.freeNat (takeFree s).1 % 256)) true, some (h.2 + Config.freeNat (takeFree s).1 % 256))
        else (s, none)
    scrubNext d (scrubAt s d.val) (match x.2 with
      | some o => resolveFail x.1 h.1 o .scrubber rb
      | none => x.1) := by
  unfold doScrubLine
  rw [if_neg (by simp [hon])]
  rfl

/-- Settles O40: commands by their checks, a failing byte by its class, a scrub line by line. -/
theorem strataRegionsAndParity : Obligations.StrataRegionsAndParity := by
  refine ⟨⟨?_, ?_, ?_⟩, ⟨?_, ?_, ?_⟩, ?_, ?_⟩
  · intro s cid c hc
    rw [exec_strataDeclare, doStrataDeclare, hc]
    refine ⟨fun hr => congrArg (fun t => Host.Outcome.next (commit s t)) (if_pos hr), fun hr => ?_⟩
    refine congrArg (fun t => Host.Outcome.next (commit s t)) ((if_neg (by simp [hr])).trans ?_)
    refine congrArg (withPayload (beginCmd s cid) c 32) (funext₂ fun s1 b => ?_)
    refine if_congr (by simp) rfl (if_congr Iff.rfl rfl ?_)
    generalize accAll _ s1 loadRegion = x
    obtain ⟨a, u⟩ := x
    cases a with
    | ok => exact (if_pos rfl).symm
    | wait => rfl
    | _ => rfl
  · intro s cid c hc
    rw [exec_strataRelease, doStrataRelease, hc]
    refine ⟨fun hr => congrArg (fun t => Host.Outcome.next (commit s t)) (if_pos hr), fun hr => ?_⟩
    refine congrArg (fun t => Host.Outcome.next (commit s t)) ((if_neg (by simp [hr])).trans ?_)
    refine congrArg (withPayload (beginCmd s cid) c 32) (funext₂ fun s1 b => ?_)
    refine (ite_not ..).symm.trans (if_congr ?_ rfl rfl)
    rw [not_or, not_not, Bool.not_eq_false, List.all_eq_true]
    exact and_congr Iff.rfl (forall₂_congr fun n _ => releasable_iff c n)
  · intro s l n r h
    rw [regions_releaseRegion h]
    exact ⟨Tbl.get_put_self .., fun k hk => Tbl.get_put_other hk ..⟩
  · intro s a by_ rb
    rw [exec_strataParityFail, doStrataParityFail]
    exact ⟨fun h => by rw [h], fun l off h => by rw [h]⟩
  · intro s t off by_ rb r hr
    refine ⟨fun hc => ?_, fun hc hb => ?_⟩
    · rw [resolveFail_of_clean hr hc]
      refine ⟨?_, fun hs => ?_⟩
      · refine congrArg (· ++ [(strataAddr t off, by_)]) ?_
        rw [apply_ite State.strata, strata_strLog, ite_self]
      · have hshared : (s.strata.refetching.any fun e => e.1 / 256 == strataAddr t off / 256) = true := by simpa using hs
        rw [if_pos hshared]
        rfl
    · rw [hb, resolveFail_of_recompute hr hc, repairLine_of_sound]
  · intro s a ok rb
    rw [exec_cleanRefetchDone]
    refine ⟨fun h => by rw [doCleanRefetchDone, h], fun l off ha => ⟨fun h => by rw [doCleanRefetchDone_of_idle ha h], ?_⟩⟩
    intro e more r hw hr
    rw [doCleanRefetchDone_of ha hw hr, hw]
    refine ⟨fun hok => by rw [hok]; rfl, fun y b v hok hy => ?_⟩
    dsimp only
    rw [if_pos hok, hy]
    refine ⟨fun h => by rw [h], fun h => by rw [h], fun hne hnw => ?_⟩
    cases y with
    | ok => exact absurd rfl hne
    | wait => exact absurd rfl hnw
    | _ => rfl
  · intro s d fails rb
    rw [exec_scrubLine]
    refine ⟨fun h => by rw [doScrubLine, if_pos h], fun hon => ?_⟩
    rw [doScrubLine_eq d fails hon]
    refine ⟨fun o more h => ?_, fun h hf => ?_, fun h hf => ?_⟩
    all_goals
      change badIn s (scrubHere s d).1 (scrubHere s d).2 256 = _ at h
      dsimp only
      rw [h]
    · rfl
    · rw [hf]; rfl
    · rw [hf]
      exact ⟨(scrubHere s d).2 + Config.freeNat (takeFree s).1 % 256, (takeFree s).2, Nat.le_add_right .., Nat.add_lt_add_left (Nat.mod_lt _ (by decide)) _, rfl, rfl, rfl⟩
  · intro s d
    rw [exec_scrubBehind, doScrubBehind]
    exact ⟨fun h => congrArg (fun t => Host.Outcome.next (commit s t)) (if_pos h),
      fun h => congrArg (fun t => Host.Outcome.next (commit s t)) (if_neg h)⟩

end Sys2Proof.Machine
end

section
/-! PROOFS. Tier regions: allocated, freed, flushed, and the quotas. -/

namespace Sys2Proof.Machine
open Sys2Proof

variable {s : State} {c : Cmd} {r : TierRegion}

/-- A row of a command whose partition is at rest does what its body says. -/
theorem next_of_rest {o : Option Cmd} {g : Cmd → Bool} {k : Cmd → State} (hg : g c = true) : o = some c →
    Host.Outcome.next (commit s (match o with | none => s | some c => if g c = false then s else k c)) = (.next (commit s (k c)) : Res) := by
  rintro rfl
  exact congrArg (fun t => Host.Outcome.next (commit s t)) (if_neg (by rw [hg]; decide))

/-- A row of a command that takes effect at once does what its body says. -/
theorem next_of_cmd {o : Option Cmd} {k : Cmd → State} : o = some c →
    Host.Outcome.next (commit s (match o with | none => s | some c => k c)) = (.next (commit s (k c)) : Res) := by
  rintro rfl
  rfl

/-! ### The zeros of a new region -/

theorem mem_zeroFill_plain (hb : r.backed = false) (hc : r.codec = 0) : (zeroFill s r).mem = Tbl.clearRange s.mem r.base r.size := by
  unfold zeroFill
  rw [if_neg (by simp [hb])]
  refine (congrArg State.mem (if_pos hc)).trans (congrArg (fun m => Tbl.clearRange m r.base r.size) ?_)
  exact forEach_keeps (view := State.mem) (h := fun _ _ => rfl) ..

/-! ### A region that leaves -/

theorem regions_freeFrames (l : List Nat) (s : State) : (forEach l s freeFrame).tier.regions = s.tier.regions :=
  forEach_keeps (view := fun s => s.tier.regions) (h := fun _ _ => rfl) ..

theorem regions_dropTierRegion (s : State) (r : TierRegion) :
    (dropTierRegion s r).tier.regions = s.tier.regions.filter fun k => k.base != r.base := by
  unfold dropTierRegion
  refine congrArg (List.filter fun k : TierRegion => k.base != r.base) ?_
  split
  · exact regions_freeFrames ..
  · rfl

/-- A TIER_FREE of a partition at rest: refused while the region is kept; else its DIRTY units are written back, and it leaves. -/
def freeBody (s : State) (cid : Nat) (c : Cmd) : State :=
  match (beginCmd s cid).tier.regions.find? fun r => r.base == fieldAt c.inl 0 8 with
  | none => complete (beginCmd s cid) cid stBadDescriptor
  | some r =>
    if zeroAt c.inl 8 16 = false ∨ c.may r.part.val = false ∨ backedBy (beginCmd s cid) r ≠ none ∨ heldRegion (beginCmd s cid) r = true
    then complete (beginCmd s cid) cid stBadDescriptor
    else match (if r.backed = true then flushRange (beginCmd s cid) r r.base r.length else (.ok, beginCmd s cid) : Acc × State) with
      | (.ok, s2) => tierNotice s (complete (dropTierRegion s2 r) cid stOk) r.part.val
      | (a, s2) => endBy s s2 cid a

theorem exec_tierFree_of_rest {cid : Nat} (hc : cmdFor s cid 0x0021 = some c) (h : atRest s c (cmdPart s c) = true) :
    exec (.tierFree cid) s = .next (commit s (freeBody s cid c)) := by
  rw [exec_tierFree]
  refine (next_of_rest (g := fun c => atRest s c (cmdPart s c)) h hc).trans (congrArg (fun t => Host.Outcome.next (commit s t)) ?_)
  unfold freeBody
  dsimp only
  generalize (beginCmd s cid).tier.regions.find? _ = o
  cases o with
  | none => rfl
  | some r => exact if_congr (by rw [Option.isSome_iff_ne_none]) rfl rfl

/-- A TIER_FLUSH of a partition at rest: the range is written back where it lies in a BACKED region that the function may name. -/
def flushBody (s : State) (cid : Nat) (c : Cmd) : State :=
  match tierRegionAt (beginCmd s cid) (fieldAt c.inl 0 8) with
  | none => complete (beginCmd s cid) cid stBadDescriptor
  | some r =>
    if r.backed = false ∨ r.base + r.length < fieldAt c.inl 0 8 + fieldAt c.inl 8 8 ∨ c.may r.part.val = false
    then complete (beginCmd s cid) cid stBadDescriptor
    else endBy s (flushRange (beginCmd s cid) r (fieldAt c.inl 0 8) (fieldAt c.inl 8 8)).2 cid
      (flushRange (beginCmd s cid) r (fieldAt c.inl 0 8) (fieldAt c.inl 8 8)).1

theorem exec_tierFlush_of_rest {cid : Nat} (hc : cmdFor s cid 0x0022 = some c) (h : atRest s c (cmdPart s c) = true) :
    exec (.tierFlush cid) s = .next (commit s (flushBody s cid c)) :=
  next_of_rest (g := fun c => atRest s c (cmdPart s c)) h hc

/-- Settles O41: each command by its checks, and the table of regions by what `TIER_FREE` drops. -/
theorem tierRegionsAreAllocatedAndFreed : Obligations.TierRegionsAreAllocatedAndFreed := by
  refine ⟨?_, ?_, ?_, ?_, ?_, ?_⟩
  · intro s cid c hc
    rw [exec_tierAlloc]
    refine ⟨fun h => next_of_waits (g := fun c => atRest s c (cmdPart s c)) h hc, fun h => ?_⟩
    exact next_of_rest (g := fun c => atRest s c (cmdPart s c)) h hc
  · intro s r hb
    refine ⟨fun a ha hcod => ?_, fun a hlo hhi hcod => ?_⟩
    · rw [mem_zeroFill_plain hb hcod, Tbl.get_clearRange]
      exact if_neg (by omega)
    · rw [mem_zeroFill_plain hb hcod, Tbl.get_clearRange]
      exact if_pos ⟨hlo, hhi⟩
  · intro s cid c hc
    refine ⟨fun h => next_of_waits (g := fun c => atRest s c (cmdPart s c)) h hc, fun h => ?_⟩
    rw [exec_tierFree_of_rest hc h, freeBody]
    refine ⟨fun hf => by rw [hf], fun r hf => ?_⟩
    rw [hf]
    refine ⟨fun hk => congrArg (fun t => Host.Outcome.next (commit s t)) (if_pos hk), fun hk hb => ?_, fun a s2 hk hb hfl => ?_⟩
    · refine congrArg (fun t => Host.Outcome.next (commit s t)) ((if_neg hk).trans ?_)
      rw [if_neg (by simp [hb])]
    · refine ⟨fun ha => ?_, fun ha => ?_⟩
      · refine congrArg (fun t => Host.Outcome.next (commit s t)) ((if_neg hk).trans ?_)
        rw [if_pos hb, hfl, ha]
      · refine congrArg (fun t => Host.Outcome.next (commit s t)) ((if_neg hk).trans ?_)
        rw [if_pos hb, hfl]
        exact acc_match_of_not_ok (r := (a, s2)) ha
  · intro s r k
    rw [regions_dropTierRegion, List.mem_filter, bne_iff_ne]
  · intro s cid c hc
    refine ⟨fun h => next_of_waits (g := fun c => atRest s c (cmdPart s c)) h hc, fun h => ?_⟩
    rw [exec_tierFlush_of_rest hc h, flushBody]
    refine ⟨fun hr => by rw [hr], fun r hr => ?_⟩
    rw [hr]
    refine ⟨fun hbad => congrArg (fun t => Host.Outcome.next (commit s t)) (if_pos hbad), fun hb hn hmay x s2 hx => ?_⟩
    dsimp only
    rw [if_neg (by simp [hb, hmay]; omega), hx]
    refine ⟨fun h => by rw [h]; rfl, fun h => by rw [h]; rfl, fun hok hw => ?_⟩
    cases x with
    | ok => exact absurd rfl hok
    | wait => exact absurd rfl hw
    | _ => rfl
  · intro s cid c hc
    exact next_of_cmd hc

end Sys2Proof.Machine
end

section
/-! PROOFS. Weight streams, the units of BACKED regions, reclaim, and write-combining entries that age. -/

namespace Sys2Proof.Machine
open Sys2Proof

variable {s s1 t : State} {r b : TierRegion} {u p : Nat}

/-! ### What a write to tier memory leaves resident -/

theorem frames_faultReg (s : State) (p : Nat) (r : Reg) : (faultReg s p r).tier.frames = s.tier.frames := by
  obtain ⟨_, _, _, _, h⟩ := FaultFrame.faultReg s p r
  rw [h]

theorem frames_ite {c : Prop} [Decidable c] {x y : State} (hx : x.tier.frames = s.tier.frames) (hy : y.tier.frames = s.tier.frames) :
    (if c then x else y).tier.frames = s.tier.frames := by
  split
  · exact hx
  · exact hy

theorem frames_wcWriteOut (s : State) (u : Nat) (ue : Bool) : (wcWriteOut s u ue).tier.frames = s.tier.frames := by
  have hstep (l : List (PartId × W64)) (t : State) : (forEach l t fun s w =>
      if ((partAt s w.1.val).run.map (·.num)) = some w.2 then stepFails s w.1.val stTierFail else s).tier.frames = t.tier.frames :=
    forEach_keeps (view := fun s => s.tier.frames) (h := fun _ _ => frames_ite rfl rfl) ..
  unfold wcWriteOut
  cases Tbl.get none s.tier.wc u with
  | none => rfl
  | some e =>
    have hlost : (if (ue && !decide (e.bytes.length = (tierUnit u).2) && !unitFailed (setWc s u none) u) = true
        then setLost (setWc s u none) u true else setWc s u none).tier.frames = s.tier.frames := frames_ite rfl rfl
    have hwhole : (if decide (e.bytes.length = (tierUnit u).2) = true then setLost (setWc s u none) u false else setWc s u none).tier.frames
        = s.tier.frames := frames_ite rfl rfl
    refine frames_ite rfl (frames_ite (frames_ite ?_ ?_) ?_)
    · exact (frames_faultReg ..).trans ((hstep ..).trans hlost)
    · exact (hstep ..).trans hlost
    · exact (forEach_keeps (f := fun s (b : Nat × Byte) => putMem s (u + b.1) [b.2]) (view := fun s => s.tier.frames) (h := fun _ _ => rfl) ..).trans hwhole

theorem frames_wcEnter (s : State) (prio : Nat) (who : Option (PartId × W64)) (u off : Nat) (b : Bytes) :
    (wcEnter s prio who u off b).tier.frames = s.tier.frames := by
  unfold wcEnter
  dsimp only
  split
  · exact frames_wcWriteOut ..
  · rfl

theorem frames_wcPart (s : State) (prio : Nat) (who : Option (PartId × W64)) (u off : Nat) (b : Bytes) :
    (wcPart s prio who u off b).2.tier.frames = s.tier.frames := by
  unfold wcPart
  dsimp only
  split
  · split
    · rfl
    · exact (frames_wcEnter ..).trans (frames_wcWriteOut ..)
  · exact frames_wcEnter ..

theorem frames_tierPut (s : State) (prio : Nat) (who : Option (PartId × W64)) (u off : Nat) (b : Bytes) :
    (tierPut s prio who u off b).2.tier.frames = s.tier.frames := by
  unfold tierPut
  split
  · rfl
  split
  · rfl
  split
  · rfl
  split
  · rfl
  · exact frames_wcPart ..

theorem accAll_keeps {α β : Type} {view : State → β} {f : State → α → Acc × State} (h : ∀ s a, view (f s a).2 = view s) (l : List α)
    (s : State) : view (accAll l s f).2 = view s := by
  unfold accAll
  suffices hs : ∀ x : Acc × State, view (l.foldl (fun acc x => match acc.1 with | .ok => f acc.2 x | _ => acc) x).2 = view x.2 from hs (.ok, s)
  intro x
  induction l generalizing x with
  | nil => rfl
  | cons a l ih =>
    refine (ih _).trans ?_
    obtain ⟨b, t⟩ := x
    cases b with
    | ok => exact h t a
    | bounds => rfl
    | wait => rfl
    | replay => rfl
    | fail st => rfl

theorem frames_tierWrite (s : State) (prio : Nat) (who : Option (PartId × W64)) (a : Nat) (b : Bytes) :
    (tierWrite s prio who a b).2.tier.frames = s.tier.frames :=
  accAll_keeps (view := fun s => s.tier.frames) (fun _ _ => frames_tierPut ..) ..

/-! ### Units that become CLEAN -/

theorem unitState_setUnit {v : UnitSt} (h : unitState s u ≠ .absent) : unitState (setUnit s u v) u = v := by
  unfold unitState at h
  unfold setUnit unitState
  cases hf : frameAt s u with
  | none => rw [hf] at h; exact absurd rfl h
  | some f => simp [frameAt, setFrame]

theorem unitState_unitFilled (s : State) (u : Nat) : unitState (unitFilled s u) u = .clean := by
  simp [unitState, unitFilled, frameAt, setFrame]

theorem unitState_congr (h : t.tier.frames = s.tier.frames) : unitState t u = unitState s u := by
  unfold unitState frameAt
  rw [h]

/-- A fill that ends well leaves its unit filled. -/
theorem unitFilled_of_fillUnit (h : fillUnit s r u = (.ok, s1)) : ∃ t, s1 = unitFilled t u := by
  unfold fillUnit at h
  split at h
  · cases h
  · split at h
    · dsimp only at h
      split at h
      · split at h
        · cases h
        · split at h
          · exact ⟨_, (Prod.mk.inj h).2.symm⟩
          · next hno => exact absurd h (hno _)
      · next hx _ => exact absurd (Prod.mk.inj h).1 hx
    · next hno => exact absurd h (hno _)

/-- A write-back to a plain backing that ends well makes its unit CLEAN, the rest of the frames as they were. -/
theorem setUnit_of_writeBack (hb : backingOf s r = some b) (hc : b.codec = 0) (h : writeBackUnit s 3 r u = (.ok, s1)) :
    ∃ t, t.tier.frames = s.tier.frames ∧ s1 = setUnit t u .clean := by
  unfold writeBackUnit at h
  rw [hb] at h
  generalize tierRead s u 2048 = x at h
  obtain ⟨a, plain⟩ := x
  cases a with
  | ok =>
    dsimp only at h
    rw [if_pos hc] at h
    split at h
    · next t ht =>
      refine ⟨t, ?_, (Prod.mk.inj h).2.symm⟩
      rw [← frames_tierWrite s 3 none (unitStored b (u - r.base)).1 plain, ht]
    · next hno => exact absurd h (hno _)
  | wait => cases h
  | fail st => cases h
  | bounds => cases h
  | replay => cases h

theorem clean_of_fillUnit (h : fillUnit s r u = (.ok, s1)) : unitState s1 u = .clean := by
  obtain ⟨t, rfl⟩ := unitFilled_of_fillUnit h
  exact unitState_unitFilled t u

theorem clean_of_writeBack (hb : backingOf s r = some b) (hc : b.codec = 0) (h : writeBackUnit s 3 r u = (.ok, s1))
    (hu : unitState s u ≠ .absent) : unitState s1 u = .clean := by
  obtain ⟨t, ht, rfl⟩ := setUnit_of_writeBack hb hc h
  exact unitState_setUnit (by rw [unitState_congr ht]; exact hu)

/-! ### Weight streams -/

/-- A call of a stream routine for a stream that its partition has declared. -/
theorem streamAcqGo_of_group {ms : List Nat} (h : groupCall s p 9 streamArg = (some ms, s1)) : streamAcqGo s p =
    match (if gNum s1 (nth 0 ms 0) 4 < 8 then streamAt s1 p (gNum s1 (nth 0 ms 0) 4) else none) with
    | none => failStep s1 p stBadDescriptor
    | some w =>
      if stLayers w.desc ≤ gNum s1 (nth 0 ms 0) 5 ∨ slotHeld w (gNum s1 (nth 0 ms 0) 5) then failStep s1 p stBadDescriptor
      else if w.present.contains (gNum s1 (nth 0 ms 0) 5) then
        groupReturn (setStream s1 p (gNum s1 (nth 0 ms 0) 4) (acquireLayer w (gNum s1 (nth 0 ms 0) 5))) ms fun x =>
          setG x 6 (BitVec.ofNat 64 (stSlot w.desc (gNum s1 (nth 0 ms 0) 5)))
      else forEach ms (setStream s1 p (gNum s1 (nth 0 ms 0) 4) (wantLayer w (gNum s1 (nth 0 ms 0) 5))) fun s t => parkAt s t .tier := by
  rw [streamAcqGo, h] <;> rfl

theorem doStreamRel_of_group {p : PartId} {ms : List Nat} (h : groupCall s p.val 10 streamArg = (some ms, s1)) : doStreamRel p s =
    match (if gNum s1 (nth 0 ms 0) 4 < 8 then streamAt s1 p.val (gNum s1 (nth 0 ms 0) 4) else none) with
    | none => failStep s1 p.val stBadDescriptor
    | some w => groupReturn (setStream s1 p.val (gNum s1 (nth 0 ms 0) 4)
        (startWanted { w with acquired := w.acquired.filter (· != gNum s1 (nth 0 ms 0) 5) })) ms := by
  rw [doStreamRel, h] <;> rfl

/-- The stream that a call names: none for a number of 8 or more. -/
theorem namedStream_of_none {n : Nat} (h : 8 ≤ n ∨ streamAt s p n = none) : (if n < 8 then streamAt s p n else none) = none := by
  split
  · next hn => exact h.resolve_left (Nat.not_le.mpr hn)
  · rfl

theorem namedStream_of_some {n : Nat} {w : WStream} (hn : n < 8) (h : streamAt s p n = some w) :
    (if n < 8 then streamAt s p n else none) = some w := by rw [if_pos hn, h]

/-- A group stands at STREAM_ACQ and waits for the tier. -/
theorem awaits_iff (t : State) (p : Nat) : ((runMembers t p).any fun u => atWord t u 9 && (tileAt t u).wait == .tier) = true
    ↔ ∃ u ∈ runMembers t p, atWord t u 9 = true ∧ (tileAt t u).wait = .tier := by
  simp

/-- The end of the fetch of a layer, by how its accesses ended. -/
theorem doStreamFetchDone_of {p : PartId} {n : Fin 8} {l : Nat} {w : WStream} (hw : streamAt s p.val n.val = some w) (hl : l ∈ w.fetching) :
    doStreamFetchDone p n l s =
      match fetchLayer s p.val w.desc l with
      | (.wait, t) => stillWaits s t
      | (.ok, t) =>
        let v := setStream t p.val n.val (startWanted { w with fetching := w.fetching.filter (· != l), present := l :: w.present })
        if (runMembers v p.val).any fun u => atWord v u 9 && (tileAt v u).wait == .tier then streamAcqGo v p.val else v
      | (a, t) =>
        let v := setStream t p.val n.val (startWanted { w with fetching := w.fetching.filter (· != l) })
        if streamAwaited t p.val n.val l then accStop v p.val a else v := by
  rw [doStreamFetchDone, hw]
  exact if_neg (by simp [hl])

/-! ### Fills and write-backs -/

theorem doBackedFill_of {a : BitVec 48} {o : Option TileId} (hr : tierRegionAt s (a.toNat / 2048 * 2048) = some r) (hb : r.backed = true)
    (hu : unitState s (a.toNat / 2048 * 2048) = .absent) : doBackedFill a o s =
      match fillUnit s r (a.toNat / 2048 * 2048) with
      | (.ok, s) => s
      | (.wait, _) => s
      | (x, s) =>
        match o.bind fun t => (tileAt s (liveTile s t.toNat)).part with
        | some p => accStop s p.val x
        | none => s := by
  rw [doBackedFill, hr]
  exact if_neg (by simp [hb, hu])

theorem doWriteBack_of {a : BitVec 48} (hr : tierRegionAt s (a.toNat / 2048 * 2048) = some r) (hb : r.backed = true)
    (hu : unitState s (a.toNat / 2048 * 2048) = .dirty) (hl : losslessBacking s r = true) : doWriteBack a s =
      match writeBackUnit s 3 r (a.toNat / 2048 * 2048) with
      | (.ok, t) => t
      | _ => s := by
  rw [doWriteBack, hr]
  exact if_neg (by simp [hb, hu, hl])

/-! ### Entries that age -/

theorem mergeOut_of_sound (s : State) (c u : Nat) : mergeOut s c u false = wcWriteOut s u false := by
  unfold mergeOut
  exact if_neg (by simp)

/-- An access that did not end well leaves what stood before. -/
theorem acc_match_default {α : Type} {r : Acc × State} {f : State → α} {y : α} : r.1 ≠ .ok → (match r with | (.ok, s) => f s | _ => y) = y := by
  obtain ⟨a, u⟩ := r
  intro h
  cases a with
  | ok => exact absurd rfl h
  | wait => rfl
  | _ => rfl

/-- Settles O42: streams by the group and the layer named, units by their state and how the access ends. -/
theorem weightStreamsAndBackedUnits : Obligations.WeightStreamsAndBackedUnits := by
  refine ⟨⟨?_, ?_, ?_⟩, ?_, ?_, ?_, ?_⟩
  · intro s cid c hc
    rw [exec_streamDeclare]
    refine ⟨fun h => next_of_waits (g := fun c => atRest s c (cmdPart s c)) h hc, fun h => ?_⟩
    refine (next_of_rest (g := fun c => atRest s c (cmdPart s c)) h hc).trans (congrArg (fun t => Host.Outcome.next (commit s t)) ?_)
    refine congrArg (withPayload (beginCmd s cid) c 64) (funext₂ fun t b => ?_)
    refine (ite_not ..).symm.trans (if_congr ?_ rfl rfl)
    rw [not_or, Bool.not_eq_false, Bool.not_eq_false]
  · intro s s1 p
    refine ⟨fun h => by rw [exec_streamAcq, doStreamAcq, streamAcqGo, h], fun h => by rw [exec_streamRel, doStreamRel, h], fun ms => ⟨fun h => ?_, fun h => ?_⟩⟩
    · rw [exec_streamAcq, doStreamAcq, streamAcqGo_of_group h]
      refine ⟨fun hn => by rw [namedStream_of_none hn], fun w hn hw => ?_⟩
      rw [namedStream_of_some hn hw]
      refine ⟨fun hbad => congrArg (fun t => Host.Outcome.next (commit s t)) (if_pos hbad), fun hl hfree hp => ?_, fun hl hfree hp => ?_⟩
      · exact congrArg (fun t => Host.Outcome.next (commit s t)) ((if_neg (by simp [hl, hfree])).trans (if_pos (by simpa using hp)))
      · exact congrArg (fun t => Host.Outcome.next (commit s t)) ((if_neg (by simp [hl, hfree])).trans (if_neg (by simpa using hp)))
    · rw [exec_streamRel, doStreamRel_of_group h]
      refine ⟨fun hn => by rw [namedStream_of_none hn], fun w hn hw => by rw [namedStream_of_some hn hw]⟩
  · intro s p n l
    rw [exec_streamFetchDone]
    refine ⟨fun h => by rw [doStreamFetchDone, h], fun w hw => ⟨fun hl => ?_, fun hl a s1 hf => ?_⟩⟩
    · rw [doStreamFetchDone, hw]
      exact congrArg (fun t => Host.Outcome.next (commit s t)) (if_pos (by simpa using hl))
    · rw [doStreamFetchDone_of hw hl, hf]
      refine ⟨fun ha => by rw [ha], fun ha hno => ?_, fun ha hyes => ?_, fun hok hwait => ?_⟩
      · rw [ha]
        exact congrArg (fun t => Host.Outcome.next (commit s t)) (if_neg fun h => hno ((awaits_iff ..).mp h))
      · rw [ha]
        exact congrArg (fun t => Host.Outcome.next (commit s t)) (if_pos ((awaits_iff ..).mpr hyes))
      · cases a with
        | ok => exact absurd rfl hok
        | wait => exact absurd rfl hwait
        | _ => rfl
  · intro s a by_
    rw [exec_backedFill, exec_writeBack]
    refine ⟨fun h => ?_, fun r hr => ⟨fun h => ?_, fun x s1 hb hu hf => ?_, fun h => ?_, fun x s1 hb hu hl hw => ?_⟩⟩
    · rw [doBackedFill, doWriteBack, h]
      exact ⟨rfl, rfl⟩
    · rw [doBackedFill, hr]
      exact congrArg (fun t => Host.Outcome.next (commit s t)) (if_pos h)
    · rw [doBackedFill_of hr hb hu, hf]
      refine ⟨fun hx => by rw [hx], fun hx => by rw [hx], fun hok hwait => ?_⟩
      have hend : (match (x, s1) with
          | (.ok, s) => s
          | (.wait, _) => s
          | (x, s) =>
            match by_.bind fun t => (tileAt s (liveTile s t.toNat)).part with
            | some p => accStop s p.val x
            | none => s : State) = match by_.bind fun t => (tileAt s1 (liveTile s1 t.toNat)).part with
              | some p => accStop s1 p.val x
              | none => s1 := by
        cases x with
        | ok => exact absurd rfl hok
        | wait => exact absurd rfl hwait
        | _ => rfl
      rw [hend]
      refine ⟨fun hb => by rw [hb]; rfl, fun t ht => ⟨fun hp => ?_, fun p hp => ?_⟩⟩
      · rw [ht, Option.bind_some, hp]
      · rw [ht, Option.bind_some, hp]
    · rw [doWriteBack, hr]
      exact congrArg (fun t => Host.Outcome.next (commit s t)) (if_pos h)
    · rw [doWriteBack_of hr hb hu hl, hw]
      exact ⟨fun hx => by rw [hx], fun hx => congrArg (fun t => Host.Outcome.next (commit s t)) (acc_match_default (r := (x, s1)) hx)⟩
  · exact fun s s1 r u b hb hc => ⟨clean_of_fillUnit, clean_of_writeBack hb hc⟩
  · intro s p
    rw [exec_reclaim, doReclaim]
    refine ⟨fun h => congrArg (fun t => Host.Outcome.next (commit s t)) (if_pos h), fun x s1 h he => ?_⟩
    rw [if_neg (by simp [h]), he]
    exact ⟨fun hx => by rw [hx], fun hx => congrArg (fun t => Host.Outcome.next (commit s t)) (acc_match_default (r := (x, s1)) hx)⟩
  · intro s c u ue
    rw [exec_wcAgeExpiry, doWcAgeExpiry]
    refine ⟨fun h => by rw [h], fun e he => ?_⟩
    rw [he]
    have hdue : ¬ (ofCtl (tierCtlNo c) u = false ∨ s.now < e.written + regFld s (tierCtrl (tierCtlNo c)) 4 4 * 1000)
        ↔ ofCtl (tierCtlNo c) u = true ∧ e.written + regFld s (tierCtrl (tierCtlNo c)) 4 4 * 1000 ≤ s.now := by
      rw [not_or, Bool.not_eq_false, Nat.not_lt]
    refine ⟨fun h => congrArg (fun t => Host.Outcome.next (commit s t)) (if_neg (hdue.mpr h)), fun h hue => ?_,
      fun h => congrArg (fun t => Host.Outcome.next (commit s t)) (if_pos (not_not.mp (hdue.not.mpr h)))⟩
    exact congrArg (fun t => Host.Outcome.next (commit s t)) ((if_neg (hdue.mpr h)).trans (by rw [hue, mergeOut_of_sound]))

end Sys2Proof.Machine
end

section
/-! PROOFS. Errors of the tiers, retirement and redirection, and the logs of failures. -/

namespace Sys2Proof.Machine
open Sys2Proof

variable {s : State} {r : Reg} {u v hw : Nat}

/-! ### Requests that fail -/

theorem cmdFails_of_other {cid : Nat} {c : Cmd} (hc : cmdAt s cid = some c) (h : ∀ r, (partAt s (cmdPart s c)).run = some r → r.cid ≠ cid) :
    cmdFails s cid = complete (dropWaiting s (cmdPart s c) cid) cid stTierFail := by
  unfold cmdFails
  rw [hc]
  refine if_neg ?_
  cases hr : (partAt s (cmdPart s c)).run with
  | none => simp
  | some r => simpa using h r hr

theorem mem_faultReg (s : State) (p : Nat) (r : Reg) : (faultReg s p r).mem = s.mem ∧ (faultReg s p r).tier = s.tier := by
  obtain ⟨_, _, _, _, h⟩ := FaultFrame.faultReg s p r
  rw [h]
  exact ⟨rfl, rfl⟩

/-- The steps of an entry's writers end: no memory and no tier state changes. -/
theorem mem_failWriters (l : List (PartId × W64)) (s : State) :
    (forEach l s fun s w => if ((partAt s w.1.val).run.map (·.num)) = some w.2 then stepFails s w.1.val stTierFail else s).mem = s.mem
    ∧ (forEach l s fun s w => if ((partAt s w.1.val).run.map (·.num)) = some w.2 then stepFails s w.1.val stTierFail else s).tier = s.tier := by
  have h (t : State) (w : PartId × W64) : (fun t : State => (t.mem, t.tier))
      (if ((partAt t w.1.val).run.map (·.num)) = some w.2 then stepFails t w.1.val stTierFail else t) = (t.mem, t.tier) := by
    split
    · rfl
    · rfl
  exact Prod.mk.inj (forEach_keeps (view := fun t : State => (t.mem, t.tier)) (h := h) ..)

/-- A read-merge-write that meets an uncorrectable error writes nothing, and its unit is lost. -/
theorem wcWriteOut_of_error {e : WcEntry} (he : Tbl.get none s.tier.wc u = some e) (hpart : e.bytes.length ≠ (tierUnit u).2)
    (hheld : unitHeld s u = false) (hok : unitFailed s u = false) :
    (wcWriteOut s u true).mem = s.mem ∧ (wcWriteOut s u true).tier = (setLost (setWc s u none) u true).tier := by
  have hok' : unitFailed (setWc s u none) u = false := hok
  have heq : wcWriteOut s u true = faultReg (forEach e.writers (setLost (setWc s u none) u true) fun s w =>
      if ((partAt s w.1.val).run.map (·.num)) = some w.2 then stepFails s w.1.val stTierFail else s) 0xFF (tierStat (tierCtlOf u)) := by
    unfold wcWriteOut
    rw [he]
    dsimp only
    rw [if_neg (by simp [hheld]), if_pos (by simp [hpart]), if_pos (by simp [hpart, hok']), if_pos (by simp [hpart, hok'])]
  obtain ⟨hm, ht⟩ := mem_failWriters e.writers (setLost (setWc s u none) u true)
  obtain ⟨hm', ht'⟩ := mem_faultReg (forEach e.writers (setLost (setWc s u none) u true) fun s w =>
      if ((partAt s w.1.val).run.map (·.num)) = some w.2 then stepFails s w.1.val stTierFail else s) 0xFF (tierStat (tierCtlOf u))
  rw [heq]
  exact ⟨hm'.trans hm, ht'.trans ht⟩

/-! ### Failure logs -/

theorem testBit_regGet_of_ge (s : State) (r : Reg) {i : Nat} (h : 64 ≤ i) : (regGet s r).testBit i = false :=
  Nat.testBit_lt_two_pow (lt_of_lt_of_le (BitVec.isLt _) (Nat.pow_le_pow_right (by decide) h))

theorem testBit_regWritePlain {i : Nat} (hi : i < 64) : (regGet (regWritePlain s r v hw) r).testBit i =
    (((regGet s r).testBit i && !(r.name.info.rw.testBit i || r.name.info.w1c.testBit i)) || (v.testBit i && r.name.info.rw.testBit i)
      || (r.name.info.w1c.testBit i && (((regGet s r).testBit i && !v.testBit i) || hw.testBit i))) := by
  rw [regWritePlain, regGet_regSet_self, Nat.testBit_mod_two_pow, decide_eq_true hi, Bool.true_and, testBit_regWritten hi]

section
variable (hrw : r.name.info.rw = 0) (hw1c : r.name.info.w1c = 3)
include hrw hw1c

theorem valid_logWrite : regBit (logWrite s r v hw) r 0 = ((regBit s r 0 && !v.testBit 0) || hw.testBit 0) := by
  have hx : (if (v.testBit 0 && !hw.testBit 0) = true then v ||| 2 else v).testBit 0 = v.testBit 0 := by
    split
    · rw [Nat.testBit_or, show Nat.testBit 2 0 = false by decide, Bool.or_false]
    · rfl
  simp only [regBit, logWrite, bitOf_eq_testBit]
  rw [testBit_regWritePlain (by decide), hrw, hw1c, hx, Nat.testBit_and, Nat.zero_testBit, show Nat.testBit 3 0 = true by decide]
  simp only [Bool.or_true, Bool.not_true, Bool.and_false, Bool.and_true, Bool.true_and, Bool.or_false, Bool.false_or]

theorem over_logWrite : regBit (logWrite s r v hw) r 1
    = ((regBit s r 1 && !(v.testBit 1 || (v.testBit 0 && !hw.testBit 0))) || hw.testBit 1) := by
  have hx : (if (v.testBit 0 && !hw.testBit 0) = true then v ||| 2 else v).testBit 1 = (v.testBit 1 || (v.testBit 0 && !hw.testBit 0)) := by
    split
    · next h => rw [Nat.testBit_or, show Nat.testBit 2 1 = true by decide, h]
    · next h => rw [Bool.eq_false_of_not_eq_true h, Bool.or_false]
  simp only [regBit, logWrite, bitOf_eq_testBit]
  rw [testBit_regWritePlain (by decide), hrw, hw1c, hx, Nat.testBit_and, Nat.zero_testBit, show Nat.testBit 3 1 = true by decide]
  simp only [Bool.or_true, Bool.not_true, Bool.and_false, Bool.and_true, Bool.true_and, Bool.or_false, Bool.false_or]

/-- Every bit of a log but VALID and OVER stays. -/
theorem rest_logWrite : regFld (logWrite s r v hw) r 2 62 = regFld s r 2 62 := by
  refine Nat.eq_of_testBit_eq fun i => ?_
  rw [regFld, testBit_bitsOf, regFld, testBit_bitsOf]
  by_cases hi : i < 62
  · have h3 : Nat.testBit 3 (2 + i) = false := Nat.testBit_lt_two_pow (lt_of_lt_of_le (by decide : 3 < 2 ^ 2) (Nat.pow_le_pow_right (by decide) (by omega)))
    rw [logWrite, testBit_regWritePlain (by omega), hrw, hw1c, h3]
    simp
  · simp [hi]

/-- A write of 1 to VALID clears VALID and OVER where hardware sets neither. -/
theorem cleared_logWrite (hv : v % 2 = 1) (hh : hw = 0) : regFld (logWrite s r v hw) r 0 2 = 0 := by
  have hv0 : v.testBit 0 = true := by simp [Nat.testBit_zero, hv]
  refine Nat.eq_of_testBit_eq fun i => ?_
  rw [regFld, testBit_bitsOf, Nat.zero_testBit, Nat.zero_add]
  obtain rfl | rfl | hi : i = 0 ∨ i = 1 ∨ 2 ≤ i := by omega
  · rw [← bitOf_eq_testBit]
    exact (Bool.and_eq_false_iff.mpr (.inr ((valid_logWrite hrw hw1c).trans (by simp [hv0, hh]))))
  · rw [← bitOf_eq_testBit]
    exact (Bool.and_eq_false_iff.mpr (.inr ((over_logWrite hrw hw1c).trans (by simp [hv0, hh]))))
  · simp [show ¬ i < 2 by omega]

/-- What a write to a failure log leaves of VALID, OVER and the rest. -/
theorem logWrite_leaves : (v % 2 = 1 → hw = 0 → regFld (logWrite s r v hw) r 0 2 = 0)
    ∧ (hw % 2 = 1 → regBit (logWrite s r v hw) r 0 = true)
    ∧ regFld (logWrite s r v hw) r 2 62 = regFld s r 2 62 := by
  refine ⟨cleared_logWrite hrw hw1c, fun hh => ?_, rest_logWrite hrw hw1c⟩
  rw [valid_logWrite hrw hw1c]
  simp [Nat.testBit_zero, hh]

theorem over_logWrite_of_valid (hh : hw = 1) (hv : v / 2 % 2 = 0) : regBit (logWrite s r v hw) r 1 = regBit s r 1 := by
  have hv1 : v.testBit 1 = false := by rw [← bitOf_eq_testBit]; simp [bitOf, hv]
  rw [over_logWrite hrw hw1c, hh, hv1, show Nat.testBit 1 0 = true by decide, show Nat.testBit 1 1 = false by decide]
  simp only [Bool.not_true, Bool.and_false, Bool.or_false, Bool.not_false, Bool.and_true]

end

theorem regGet_logWrite_other {q : Reg} (h : q.key ≠ r.key) : regGet (logWrite s r v hw) q = regGet s q := regGet_regSet_other _ _ _ _ h

/-! ### STR_SCRUB -/

/-- The value that a write to STR_SCRUB stores: a PERIOD of 0 keeps the old one. -/
def scrubValue (s : State) (d v : Nat) : Nat := if v % 65536 = 0 then v + regGet s ⟨.strScrub, d, 0⟩ % 65536 else v

section
variable {d : Nat}

theorem scrubValue_mod (s : State) (d v : Nat) :
    scrubValue s d v % 65536 = if v % 65536 = 0 then regGet s ⟨.strScrub, d, 0⟩ % 65536 else v % 65536 := by
  unfold scrubValue
  split
  · omega
  · rfl

theorem testBit_scrubValue (s : State) (d v : Nat) : (scrubValue s d v).testBit 30 = v.testBit 30 := by
  unfold scrubValue
  split
  · rw [← bitOf_eq_testBit, ← bitOf_eq_testBit, bitOf, bitOf]
    congr 1
    omega
  · rfl

theorem period_scrubWritten (s : State) (d v hw : Nat) :
    regFld (regWritePlain s ⟨.strScrub, d, 0⟩ (scrubValue s d v) hw) ⟨.strScrub, d, 0⟩ 0 16 = scrubValue s d v % 65536 := by
  have hinfo : RegName.strScrub.info.rw = 0x4000ffff ∧ RegName.strScrub.info.w1c = 0x80000000 := ⟨rfl, rfl⟩
  refine Nat.eq_of_testBit_eq fun i => ?_
  rw [regFld, testBit_bitsOf, show (65536 : Nat) = 2 ^ 16 by rfl, Nat.testBit_mod_two_pow, Nat.zero_add]
  by_cases hi : i < 16
  · rw [testBit_regWritePlain (by omega), hinfo.1, hinfo.2]
    have hrw : ∀ i < 16, Nat.testBit 0x4000ffff i = true ∧ Nat.testBit 0x80000000 i = false := by decide
    rw [(hrw i hi).1, (hrw i hi).2]
    simp
  · simp [hi]

theorem enable_scrubWritten (s : State) (d v hw : Nat) :
    regBit (regWritePlain s ⟨.strScrub, d, 0⟩ (scrubValue s d v) hw) ⟨.strScrub, d, 0⟩ 30 = v.testBit 30 := by
  have hinfo : RegName.strScrub.info.rw = 0x4000ffff ∧ RegName.strScrub.info.w1c = 0x80000000 := ⟨rfl, rfl⟩
  rw [regBit, bitOf_eq_testBit, testBit_regWritePlain (by decide), hinfo.1, hinfo.2, testBit_scrubValue,
    show Nat.testBit 0x4000ffff 30 = true by decide, show Nat.testBit 0x80000000 30 = false by decide]
  simp

theorem strScrubWrite_eq (s : State) (d v hw : Nat) : strScrubWrite s d v hw =
    if (!regBit s ⟨.strScrub, d, 0⟩ 30 && regBit (regWritePlain s ⟨.strScrub, d, 0⟩ (scrubValue s d v) hw) ⟨.strScrub, d, 0⟩ 30) = true
    then newPass (regWritePlain s ⟨.strScrub, d, 0⟩ (scrubValue s d v) hw) d
    else regWritePlain s ⟨.strScrub, d, 0⟩ (scrubValue s d v) hw := rfl

theorem regs_strScrubWrite (s : State) (d v hw : Nat) :
    (strScrubWrite s d v hw).regs = (regWritePlain s ⟨.strScrub, d, 0⟩ (scrubValue s d v) hw).regs := by
  rw [strScrubWrite_eq]
  split
  · rfl
  · rfl

theorem period_strScrubWrite (s : State) (d v hw : Nat) : regFld (strScrubWrite s d v hw) ⟨.strScrub, d, 0⟩ 0 16
    = if v % 65536 = 0 then regFld s ⟨.strScrub, d, 0⟩ 0 16 else v % 65536 := by
  have h : regFld (strScrubWrite s d v hw) ⟨.strScrub, d, 0⟩ 0 16 = scrubValue s d v % 65536 := by
    rw [← period_scrubWritten s d v hw, regFld, regGet, regs_strScrubWrite, regFld, regGet]
  rw [h, scrubValue_mod]
  refine if_congr Iff.rfl ?_ rfl
  rw [regFld, bitsOf, Nat.pow_zero, Nat.div_one]
  rfl

theorem scrubAt_newPass (s : State) (d : Nat) : (scrubAt (newPass s d) d).pos = 0 ∧ (scrubAt (newPass s d) d).start = s.now := by
  simp [scrubAt, newPass, setScrub, setStrata]

theorem newPass_of_enable {s : State} {d v hw : Nat} (hoff : regBit s ⟨.strScrub, d, 0⟩ 30 = false) (hon : v.testBit 30 = true) :
    strScrubWrite s d v hw = newPass (regWritePlain s ⟨.strScrub, d, 0⟩ (scrubValue s d v) hw) d := by
  rw [strScrubWrite_eq, enable_scrubWritten, if_pos (by simp [hoff, hon])]

theorem scrubAt_of_no_enable {s : State} {d v hw : Nat} (h : regBit s ⟨.strScrub, d, 0⟩ 30 = true ∨ v.testBit 30 = false) :
    scrubAt (strScrubWrite s d v hw) d = scrubAt s d := by
  rw [strScrubWrite_eq, enable_scrubWritten, if_neg (by rcases h with h | h <;> simp [h])]
  rfl

end

/-- Settles O43: errors by what made the request, logs bit by bit through `logWrite_leaves`. -/
theorem tierErrorsAndErrorLogs : Obligations.TierErrorsAndErrorLogs := by
  refine ⟨⟨?_, ?_, ?_, ?_, ?_, ?_⟩, ?_, ?_, ?_, ?_⟩
  · intro s c a r
    rw [exec_tierLate, exec_tierUncorrectable, doTierLate, doTierUncorrectable]
    exact ⟨fun h => ⟨by rw [if_pos h], by rw [if_pos h]⟩, fun h => ⟨by rw [if_neg (by simp [h])], by rw [if_neg (by simp [h])]⟩⟩
  · intro s a
    refine ⟨rfl, fun t => ⟨fun p h => ?_, fun h => ?_⟩, fun cid c hc h => cmdFails_of_other hc h, fun _ => rfl, rfl, rfl⟩
    · rw [requestFails, h]
      rfl
    · rw [requestFails, h]
  · intro s u e he hpart hheld hok
    obtain ⟨hm, ht⟩ := wcWriteOut_of_error he hpart hheld hok
    refine ⟨hm, ?_, ?_⟩
    · simp [isLost, ht, setLost]
    · simp [ht, setLost, setWc]
  · intro s c pc why
    rw [exec_tierRetirement, doTierRetirement]
    refine ⟨fun h => congrArg (fun t => Host.Outcome.next (commit s t)) (if_pos h), fun h0 hdue hen hleft => ?_, fun h0 hdue hno => ?_⟩
    · have hok : (regBit s (tierCtrl (tierCtlNo c)) 1 && reserveLeft s (retireUnit c pc)) = true := by rw [hen, hleft]; rfl
      dsimp only
      rw [if_neg (by simp [h0, hdue]), if_pos hok, if_pos hok]
    · have hok : ¬ (regBit s (tierCtrl (tierCtlNo c)) 1 && reserveLeft s (retireUnit c pc)) = true := by
        rcases hno with h | h <;> simp [h]
      dsimp only
      rw [if_neg (by simp [h0, hdue]), if_neg hok, if_neg hok]
  · intro s c pc
    rw [exec_redirectionComplete, doRedirectionComplete]
    refine ⟨fun h => congrArg (fun t => Host.Outcome.next (commit s t)) (if_neg (by simpa using h)),
      fun h => congrArg (fun t => Host.Outcome.next (commit s t)) (if_pos (by simpa using h))⟩
  · intro s c u f
    rw [exec_tierScrub]
    unfold doTierScrub
    refine ⟨fun h => congrArg (fun t => Host.Outcome.next (commit s t)) (if_pos h), fun hen hctl hu => ?_⟩
    dsimp only
    rw [if_neg (by simp [hen, hctl, ← hu])]
    exact ⟨fun h => by rw [h], fun h => by rw [h], fun h => by rw [h]⟩
  · intro s t v hw
    rw [exec_strErrlogWrite, doStrErrlogWrite]
    refine ⟨fun h => by rw [if_neg (by simp [h])], fun h => ⟨_, by rw [if_pos h], ?_⟩⟩
    obtain ⟨hclear, hvalid, hrest⟩ := logWrite_leaves (s := s) (r := ⟨.strErrlog, t.toNat, 0⟩) (v := v.toNat) (hw := hw.toNat) rfl rfl
    exact ⟨fun hv hh => hclear hv (by rw [hh]; rfl), hvalid, fun hh hv => over_logWrite_of_valid rfl rfl (by rw [hh]; rfl) hv, hrest,
      fun q hq => regGet_logWrite_other hq⟩
  · intro s d i v hw
    refine ⟨_, exec_codecErrlogWrite .., ?_⟩
    obtain ⟨hclear, hvalid, hrest⟩ := logWrite_leaves (s := s) (r := ⟨.codecErrlog, 4 * d.val + i.val, 0⟩) (v := v.toNat) (hw := hw.toNat) rfl rfl
    exact ⟨fun hv hh => hclear hv (by rw [hh]; rfl), hvalid, hrest⟩
  · intro s p v hw
    refine ⟨_, exec_ingPipeerrWrite .., ?_⟩
    obtain ⟨hclear, hvalid, hrest⟩ := logWrite_leaves (s := s) (r := ⟨.ingPipeerr, 0, p.val⟩) (v := v.toNat) (hw := hw.toNat) rfl rfl
    exact ⟨fun hv hh => hclear hv (by rw [hh]; rfl), hvalid, hrest⟩
  · intro s d v hw
    refine ⟨_, exec_strScrubWrite .., fun h => ?_, fun h => ?_, fun hoff hon => ?_, fun h => ?_⟩
    · exact (period_strScrubWrite ..).trans (if_pos h)
    · exact (period_strScrubWrite ..).trans (if_neg h)
    · rw [doStrScrubWrite, newPass_of_enable hoff (by rwa [BitVec.testBit_toNat])]
      exact scrubAt_newPass ..
    · exact scrubAt_of_no_enable (h.imp id fun h => by rwa [BitVec.testBit_toNat])

end Sys2Proof.Machine
end

section
/-! PROOFS. The ten codec operations of a start group. -/

namespace Sys2Proof.Machine
open Sys2Proof

section
variable {s s1 u : State} {p op : Nat} {hit : Option TileId} {ms : List Nat} {d : Bytes} {body : State → Bytes → List Nat → Acc × Bool × State}

theorem codecRow_of_waits (h : scratchCall s p 11 hit (descArg 64) = (none, u)) : codecRow p op hit s body = u := by rw [codecRow, h]

theorem codecRow_of_no_desc (h : scratchCall s p 11 hit (descArg 64) = (some ms, s1)) (hd : libDesc s1 (nth 0 ms 0) 64 = none) :
    codecRow p op hit s body = newtFault s1 (nth 0 ms 0) 0x03 0 false := by
  rw [codecRow, h]
  dsimp only
  rw [hd]
  rfl

theorem codecRow_of_desc (h : scratchCall s p 11 hit (descArg 64) = (some ms, s1)) (hd : libDesc s1 (nth 0 ms 0) 64 = some d) :
    codecRow p op hit s body =
      if codecOk d = false then libFault s1 ms 0x09
      else if cdOp d ≠ op then s1
      else if (partDies s1 p).isEmpty then failStep s1 p stNoResource
      else match body s1 d (partDies s1 p) with
        | (.ok, true, t) => failStep t p stCheckFail
        | (a, _, t) => libEnd s1 t p ms a := by
  rw [codecRow, h]
  dsimp only
  rw [hd] <;> rfl

theorem codecRow_of_good (h : scratchCall s p 11 hit (descArg 64) = (some ms, s1)) (hd : libDesc s1 (nth 0 ms 0) 64 = some d)
    (hok : codecOk d = true) (hop : cdOp d = op) (hdie : partDies s1 p ≠ []) :
    codecRow p op hit s body = match body s1 d (partDies s1 p) with
      | (.ok, true, t) => failStep t p stCheckFail
      | (a, _, t) => libEnd s1 t p ms a := by
  rw [codecRow_of_desc h hd, if_neg (by simp [hok]), if_neg (not_not.mpr hop), if_neg (by simpa using hdie)]

/-- A row of a codec operation, by how far its call comes. -/
theorem exec_of_codecRow {row : Instr} (hrow : exec row s = .next (commit s (codecRow p op hit s body))) :
    (∀ u, scratchCall s p 11 hit (descArg 64) = (none, u) → exec row s = .next (commit s u))
    ∧ (∀ ms s1, scratchCall s p 11 hit (descArg 64) = (some ms, s1) →
      (libDesc s1 (nth 0 ms 0) 64 = none → exec row s = .next (commit s (newtFault s1 (nth 0 ms 0) 0x03 0 false)))
      ∧ (∀ d, libDesc s1 (nth 0 ms 0) 64 = some d →
        (codecOk d = false → exec row s = .next (commit s (newtFault s1 (nth 0 ms 0) 0x09 0 false)))
        ∧ (codecOk d = true → cdOp d ≠ op → exec row s = .next (commit s s1))
        ∧ (codecOk d = true → cdOp d = op → partDies s1 p = [] → exec row s = .next (commit s (failStep s1 p stNoResource)))
        ∧ (∀ a bad t, codecOk d = true → cdOp d = op → partDies s1 p ≠ [] → body s1 d (partDies s1 p) = (a, bad, t) →
          (a = .ok → bad = true → exec row s = .next (commit s (failStep t p stCheckFail)))
          ∧ (a = .ok → bad = false → exec row s = .next (commit s (forEach ms t fun s u => modTile s u libReturn)))
          ∧ (a ≠ .ok → exec row s = .next (commit s (libEnd s1 t p ms a)))))) := by
  rw [hrow]
  refine ⟨fun u h => by rw [codecRow_of_waits h], fun ms s1 h => ⟨fun hd => by rw [codecRow_of_no_desc h hd], fun d hd =>
    ⟨fun hbad => ?_, fun hok hop => ?_, fun hok hop hdie => ?_, fun a bad t hok hop hdie hb => ?_⟩⟩⟩
  · rw [codecRow_of_desc h hd, if_pos hbad]
    rfl
  · rw [codecRow_of_desc h hd, if_neg (by simp [hok]), if_pos hop]
  · rw [codecRow_of_desc h hd, if_neg (by simp [hok]), if_neg (not_not.mpr hop), if_pos (by simp [hdie])]
  · rw [codecRow_of_good h hd hok hop hdie, hb]
    refine ⟨fun ha hbad => by rw [ha, hbad], fun ha hbad => by rw [ha, hbad]; rfl, fun ha => ?_⟩
    cases a with
    | ok => exact absurd rfl ha
    | wait => rfl
    | _ => rfl

end

/-! ### BC_ENC -/

theorem mem_codecDone (s : State) (inst blocks : Nat) (nan : Bool) : (codecDone s inst blocks nan).mem = s.mem := by
  unfold codecDone
  extract_lets t
  have ht : t.mem = s.mem := regAddWrap_mem ..
  split
  · exact (regOr_mem ..).trans ht
  · exact ht

theorem mem_tally (s : State) (ds : List Nat) (kind n : Nat) (nans : List Nat) : (tally s ds kind n nans).mem = s.mem :=
  forEach_keeps (view := State.mem) (h := fun _ _ => mem_codecDone ..) ..

/-- Settles O44: every operation is one shape of call, by the descriptor, its die and how its accesses end. -/
theorem codecOperationsRunForTheGroup : Obligations.CodecOperationsRunForTheGroup := by
  refine ⟨fun row hrow s p hit => ?_, fun p s s1 d ds a b => ?_⟩
  · simp only [List.mem_cons, List.not_mem_nil, or_false] at hrow
    rcases hrow with rfl | rfl | rfl | rfl | rfl | rfl | rfl | rfl | rfl | rfl
    · exact exec_of_codecRow (exec_bcEnc ..)
    · exact exec_of_codecRow (exec_bcDec ..)
    · exact exec_of_codecRow (exec_bcVerify ..)
    · exact exec_of_codecRow (exec_ral2pDecode ..)
    · exact exec_of_codecRow (exec_spEnc ..)
    · exact exec_of_codecRow (exec_spDec ..)
    · exact exec_of_codecRow (exec_fcProject ..)
    · exact exec_of_codecRow (exec_fcOrtho ..)
    · exact exec_of_codecRow (exec_fcQproj ..)
    · exact exec_of_codecRow (exec_fcResid ..)
  · intro w hr
    refine ⟨fun ha => ?_, fun ha => ?_⟩
    · rw [bcEncGo, hr]
      cases a with
      | ok => exact absurd rfl ha
      | wait => rfl
      | _ => rfl
    · intro bs s2 hw
      rw [bcEncGo, hr, ha]
      dsimp only
      rw [hw]
      exact ⟨rfl, mem_tally ..⟩

end Sys2Proof.Machine
end

section
/-! PROOFS. DATA flits accepted in order, and the timers of a link. -/

namespace Sys2Proof.Machine
open Sys2Proof

variable {s : State} {l : Nat} {f : Bytes}

/-! ### A DATA flit on a usable link -/

/-- A flit that is not accepted: a NAK, once until a flit is accepted again. -/
def rejectFlit (v : State) (l : Nat) : State :=
  if (linkAt v l).rejecting = true then v else sendPlainCtl (modLink v l fun k => { k with rejecting := true }) l 0 true

/-- The corrected codewords of a flit counted. -/
def countCorrected (s : State) (l cw : Nat) : State := regAddSat s ⟨.lnkErrcnt, l, 0⟩ 32 32 cw

theorem doDataFlit_of_good {n : LinkId} {cw : Nat} (hu : usable (linkAt s n.val) = true) (hg : flitGood f = true) (hk : flitKind f = 0) :
    doDataFlit n f cw false s =
      if flitSeq f = (linkAt s n.val).expect ∧ 1 ≤ fieldAt f 7 1 ∧ fieldAt f 7 1 ≤ 244 ∧ bitsOf (fieldAt f 0 1) 6 2 < 3
      then acceptFlit (takeLinkFields (countCorrected s n.val cw) n.val f) n.val f
      else rejectFlit (takeLinkFields (countCorrected s n.val cw) n.val f) n.val := by
  have hgood : (flitGood f && !false) = true := by rw [hg]; rfl
  unfold doDataFlit
  dsimp only
  rw [hgood, if_neg (by simp [hu, hk]), if_neg Bool.false_ne_true, if_pos rfl]
  exact if_congr (by simp [and_assoc]) rfl rfl

theorem doDataFlit_of_bad {n : LinkId} {cw : Nat} {fec : Bool} (hu : usable (linkAt s n.val) = true) (hg : (flitGood f && !fec) = false) :
    doDataFlit n f cw fec s = rejectFlit (if fec = true then regAddSat (countCorrected s n.val cw) ⟨.lnkErrcnt, n.val, 0⟩ 24 8 1
      else countCorrected s n.val cw) n.val := by
  unfold doDataFlit
  dsimp only
  rw [hg, if_neg (by simp [hu]), if_neg Bool.false_ne_true, if_neg (by simp)] <;> rfl

/-! ### A flit accepted -/

/-- The link that has accepted one more flit. -/
def acceptedLink (k : Link) : Link := { k with expect := (k.expect + 1) % 4096, rejecting := false, unackedRx := k.unackedRx + 1 }

/-- The link with what its assembly slot of a key holds. -/
def assemblyLink (key : Nat) (x : InMsg) (k : Link) : Link := { k with asm := Tbl.put .idle k.asm key x }

theorem length_payload_ge (hlen : f.length = 256) (hv : 32 ≤ fieldAt f 7 1) : ¬ ((f.drop 8).take (fieldAt f 7 1)).length < 32 := by
  rw [List.length_take, List.length_drop]
  omega

/-- The first flit of a message for this module is kept. -/
theorem firstFlit_of_deliver {cls key : Nat} {pay : Bytes} (hlen : ¬ pay.length < 32)
    (hr : routeOf s (hopMore pay) (some (linkAxis l, classAfter s l cls)) = .deliver) : firstFlit s l cls key pay = (.here pay, s) := by
  unfold firstFlit
  rw [if_neg hlen]
  dsimp only
  rw [hr]

theorem acceptFlit_of_first (hsom : bitOf (fieldAt f 0 1) 4 = true) (heom : bitOf (fieldAt f 0 1) 5 = false)
    (hv : 32 ≤ fieldAt f 7 1) (hlen : f.length = 256) (hrx : (linkAt s l).unackedRx < 31)
    (hidle : Tbl.get .idle (linkAt s l).asm (16 * bitsOf (fieldAt f 0 1) 0 2 + fieldAt f 1 1 % 16) = .idle)
    (hr : routeOf (modLink s l acceptedLink) (hopMore ((f.drop 8).take (fieldAt f 7 1)))
      (some (linkAxis l, classAfter s l (bitsOf (fieldAt f 0 1) 6 2))) = .deliver) :
    acceptFlit s l f = freeBuffers (modLink (modLink s l acceptedLink) l
      (assemblyLink (16 * bitsOf (fieldAt f 0 1) 0 2 + fieldAt f 1 1 % 16) (.here ((f.drop 8).take (fieldAt f 7 1)))))
      (some (l, 3 * bitsOf (fieldAt f 0 1) 0 2 + bitsOf (fieldAt f 0 1) 6 2)) 1 := by
  have hrx' : ¬ 32 ≤ (linkAt (modLink s l acceptedLink) l).unackedRx := by
    rw [linkAt_modLink, if_pos rfl]
    exact Nat.not_le.mpr (Nat.succ_lt_succ hrx)
  have hcls : classAfter (modLink s l acceptedLink) l (bitsOf (fieldAt f 0 1) 6 2) = classAfter s l (bitsOf (fieldAt f 0 1) 6 2) := rfl
  have hff := firstFlit_of_deliver (key := 3 * bitsOf (fieldAt f 0 1) 0 2 + bitsOf (fieldAt f 0 1) 6 2) (length_payload_ge hlen hv)
    (by rw [hcls]; exact hr)
  unfold acceptFlit
  extract_lets ctl vc cls key buf pay som eom old s₁ s₂ setIn free s₃
  have h₂ : s₂ = modLink s l acceptedLink := if_neg hrx'
  have hold : old = .idle := hidle
  have heom' : ¬ eom = true := by rw [show eom = false from heom]; decide
  rw [if_pos (show som = true from hsom)]
  have h₃ : s₃ = modLink s l acceptedLink := by
    change dropCut s₂ old = _
    rw [hold]
    exact h₂
  rw [if_neg heom', h₃]
  rw [show firstFlit (modLink s l acceptedLink) l cls buf pay = (.here pay, modLink s l acceptedLink) from hff] <;> rfl

/-- Settles O46: a flit by what its header and its CRC say, a timer by what is owed. -/
theorem flitsAreAcceptedInOrder : Obligations.FlitsAreAcceptedInOrder := by
  refine ⟨?_, ?_, ?_, ?_⟩
  · intro s l f cw fec
    rw [exec_dataFlit]
    refine ⟨fun h => ?_, fun hu hg hk hf => ?_, fun hu hg hk hf => ?_, fun hu hg => ?_⟩
    · refine congrArg (fun t => Host.Outcome.next (commit s t)) (if_pos ?_)
      rcases h with h | ⟨⟨hg, hf⟩, hk⟩
      · simp [h]
      · simp [hg, hf, hk]
    · obtain ⟨hg, rfl⟩ := hg
      rw [doDataFlit_of_good hu hg hk]
      exact congrArg (fun t => Host.Outcome.next (commit s t)) (if_pos hf)
    · obtain ⟨hg, rfl⟩ := hg
      rw [doDataFlit_of_good hu hg hk]
      exact congrArg (fun t => Host.Outcome.next (commit s t)) (if_neg hf)
    · rw [doDataFlit_of_bad hu (by cases hf : flitGood f <;> cases fec <;> simp_all)] <;> rfl
  · intro s l f hsom heom hv hlen hrx _ key m hidle hr
    rw [acceptFlit_of_first hsom heom hv hlen hrx hidle hr]
    simp [freeBuffers, acceptedLink, assemblyLink, key]
  · intro s l f
    rw [exec_ctlIdle, doCtlIdle]
    exact ⟨fun ht hc => by rw [if_pos (by rw [ht, hc]; rfl)], fun h => by rw [if_neg (by rcases h with h | h <;> simp [h])]⟩
  · intro s l
    rw [exec_ackTimer, exec_replayTimeout, doAckTimer, doReplayTimeout]
    refine ⟨fun hu hn => ?_, fun h => ?_, fun h => ?_, fun hu hr hn => ?_⟩
    · exact congrArg (fun t => Host.Outcome.next (commit s t)) (if_pos (by simp [hu, hn]))
    · exact congrArg (fun t => Host.Outcome.next (commit s t)) (if_neg (by rcases h with h | h <;> simp [h]))
    · refine congrArg (fun t => Host.Outcome.next (commit s t)) ?_
      have hidle (h : (linkAt s l.val).replay = [] ∨ regFld s ⟨.lnkCtrl, l.val, 0⟩ 8 4 ≤ oldestTries (linkAt s l.val)) :
          startReplay s l.val = s := if_pos (by rcases h with h | h <;> simp [h, replayLimit])
      rcases h with h | h
      · exact if_neg (by simp [h])
      · rw [hidle h, ite_self]
    · exact congrArg (fun t => Host.Outcome.next (commit s t)) ((if_pos hu).trans (if_neg (by simp [replayLimit, hr, hn])))

end Sys2Proof.Machine
end

section
/-! PROOFS. The states of a link follow their table. -/

namespace Sys2Proof.Machine
open Sys2Proof

/-! ### What leaves the states of the links -/

/-- Every link is in the state it was in. -/
def LinkStatesKept (s t : State) : Prop := ∀ n, (linkAt t n).st = (linkAt s n).st

namespace LinkStatesKept

variable {s t u : State}

theorem refl (s : State) : LinkStatesKept s s := fun _ => rfl

theorem trans (h : LinkStatesKept s t) (h' : LinkStatesKept t u) : LinkStatesKept s u := fun n => (h' n).trans (h n)

theorem forEach {α : Type} {f : State → α → State} (h : ∀ s a, LinkStatesKept s (f s a)) (l : List α) (s : State) :
    LinkStatesKept s (Machine.forEach l s f) := by
  unfold Machine.forEach
  induction l generalizing s with
  | nil => exact refl s
  | cons a l ih => exact (h s a).trans (ih _)

theorem modLink {f : Link → Link} (hf : ∀ k, (f k).st = k.st) (s : State) (l : Nat) : LinkStatesKept s (modLink s l f) := fun n => by
  rw [linkAt_modLink]
  split
  · next h => rw [hf, h]
  · rfl

/-- A link's state after every link is changed in a way that keeps it. -/
theorem st_get_map {f : Link → Link} (hf : ∀ k, (f k).st = k.st) (links : Tbl Link) (n : Nat) :
    (Tbl.get {} (links.map fun e => (e.1, f e.2)) n).st = (Tbl.get {} links n).st := by
  induction links with
  | nil => rfl
  | cons e links ih =>
    rw [List.map_cons, Tbl.get, Tbl.get]
    split
    · exact hf e.2
    · exact ih

theorem mapLinks {f : Link → Link} (hf : ∀ k, (f k).st = k.st) (s : State) :
    LinkStatesKept s { s with fab := { s.fab with links := s.fab.links.map fun e => (e.1, f e.2) } } :=
  fun n => st_get_map hf s.fab.links n

theorem freeBuffers (s : State) (src : Option (Nat × Nat)) (n : Nat) : LinkStatesKept s (freeBuffers s src n) := by
  unfold Machine.freeBuffers
  split
  · split
    · exact refl s
    · exact modLink (fun _ => by rfl) _ _
  · exact refl s

theorem putEgress (s : State) (l : Nat) (o : OutMsg) : LinkStatesKept s (putEgress s l o) := modLink (fun _ => by rfl) _ _

theorem dispatch (s : State) (m : Bytes) (prev : Option (Nat × Nat)) : LinkStatesKept s (dispatch s m prev).2 := by
  unfold Machine.dispatch
  split
  · exact refl s
  · exact putEgress s _ _
  · exact refl s

theorem refuse (s : State) (m : Bytes) (st : Status) (l : Nat) : LinkStatesKept s (refuse s m st l) := by
  unfold Machine.refuse
  dsimp only
  split
  · exact refl s
  · split
    · exact refl s
    · next n _ =>
      have h := dispatch s n none
      generalize Machine.dispatch s n none = x at h
      obtain ⟨o, t⟩ := x
      cases o with
      | none => exact h
      | some st' => exact h

theorem moveMsg (s : State) (l : Nat) (m : OutMsg) : LinkStatesKept s (moveMsg s l m) := by
  unfold Machine.moveMsg
  split
  · exact refl s
  · exact putEgress s _ _
  · exact (freeBuffers s _ _).trans (refuse _ _ _ _)

theorem moveFlows (s : State) (l : Nat) : LinkStatesKept s (moveFlows s l) :=
  (modLink (fun _ => by rfl) s l).trans (forEach (fun t m => moveMsg t l m) _ _)

theorem dropCut (s : State) (x : InMsg) : LinkStatesKept s (dropCut s x) := by
  unfold Machine.dropCut
  split
  · next o => exact mapLinks (f := fun k => { k with egress := k.egress.filter fun m => m.order != o || m.whole }) (fun _ => rfl) s
  · exact refl s

/-- A message that no longer holds a buffer of a link that is given up. -/
def giveUp (l : Nat) (m : OutMsg) : OutMsg := match m.src with | some (i, _) => if i = l then { m with src := none } else m | none => m

theorem dropParts (s : State) (l : Nat) : LinkStatesKept s (dropParts s l) :=
  (forEach (fun s e => dropCut s e.2) (linkAt s l).asm s).trans
    (mapLinks (f := fun k => { k with egress := k.egress.map (giveUp l), unacked := k.unacked.map (giveUp l) }) (fun _ => rfl) _)

end LinkStatesKept

/-! ### A link that leaves -/

variable {s : State} {l : Nat} {dest : LinkState}

theorem st_promoteStandby {d : Nat} (h : (linkAt s l).st ≠ .standby) : (linkAt (promoteStandby s d) l).st = (linkAt s l).st := by
  have hstep (ls : List Nat) (t : State) (ht : (linkAt t l).st = (linkAt s l).st) :
      (linkAt (forEach ls t fun s n => modLink s n fun k => if k.st = .standby then { k with st := .active } else k) l).st
        = (linkAt s l).st := by
    unfold forEach
    induction ls generalizing t with
    | nil => exact ht
    | cons n ls ih =>
      refine ih _ ?_
      rw [linkAt_modLink]
      split
      · next hn => subst hn; rw [if_neg (by rw [ht]; exact h)]; exact ht
      · exact ht
  unfold promoteStandby
  split
  · rfl
  · exact hstep _ s rfl

/-- A link sent to a state, before its flows move. -/
def sentTo (s : State) (l : Nat) (dest : LinkState) : State :=
  if linkUsable s l then promoteStandby (modLink s l fun k => { k with st := dest }) (linkDir l) else modLink s l fun k => { k with st := dest }

theorem leaveLink_eq (s : State) (l : Nat) (dest : LinkState) : leaveLink s l dest =
    modLink (dropParts (moveFlows (sentTo s l dest) l) l) l fun k => { freshLink k with lanes := 0 } := rfl

theorem st_sentTo (hd : dest ≠ .standby) : (linkAt (sentTo s l dest) l).st = dest := by
  have hst : (linkAt (modLink s l fun k => { k with st := dest }) l).st = dest := by rw [linkAt_modLink, if_pos rfl]
  unfold sentTo
  split
  · rw [st_promoteStandby (by rw [hst]; exact hd), hst]
  · exact hst

theorem st_freshLink (u : State) (l : Nat) : (linkAt (modLink u l fun k => { freshLink k with lanes := 0 }) l).st = (linkAt u l).st := by
  rw [linkAt_modLink, if_pos rfl]
  rfl

theorem st_leaveLink (hd : dest ≠ .standby) : (linkAt (leaveLink s l dest) l).st = dest := by
  have hkept := (LinkStatesKept.moveFlows (sentTo s l dest) l).trans (LinkStatesKept.dropParts _ l)
  rw [leaveLink_eq, st_freshLink, hkept l, st_sentTo hd]

/-- A link that has left holds nothing and uses no lane. -/
theorem leaveLink_holds_nothing (s : State) (l : Nat) (dest : LinkState) : (linkAt (leaveLink s l dest) l).used = []
    ∧ (linkAt (leaveLink s l dest) l).replay = [] ∧ (linkAt (leaveLink s l dest) l).lanes = 0#4 := by
  rw [leaveLink_eq, linkAt_modLink, if_pos rfl]
  exact ⟨rfl, rfl, rfl⟩

theorem st_startTraining (s : State) (l : Nat) : (linkAt (startTraining s l) l).st = .training := by
  unfold startTraining
  dsimp only
  rw [linkAt_modLink, if_pos rfl]

/-! ### LNK_CTRL -/

/-- LNK_CTRL as a write leaves it, before EN and RETRY act. -/
def ctrlWritten (s : State) (l v : Nat) : State :=
  regWritePlain s ⟨.lnkCtrl, l, 0⟩ (if bitsOf v 8 4 = 0 then putBits v 8 4 (bitsOf (regGet s ⟨.lnkCtrl, l, 0⟩) 8 4) else v) 0

/-- EN acts. -/
def enActs (s : State) (l v : Nat) : State :=
  if (!bitOf v 0) = true then
    (if (linkAt s l).st = .active ∨ (linkAt s l).st = .degraded ∨ (linkAt s l).st = .standby ∨ (linkAt s l).st = .retrain
        ∨ (linkAt s l).st = .failed then leaveLink s l .disabled else s)
  else if (linkAt s l).st = .disabled ∧ claspOpen s l = true ∧ 1 < axisExtent s l then startTraining s l else s

theorem lnkCtrlWrite_eq (s : State) (l v : Nat) : lnkCtrlWrite s l v =
    if bitOf v 1 = true ∧ (linkAt (enActs (ctrlWritten s l v) l v) l).st = .failed then startTraining (enActs (ctrlWritten s l v) l v) l
    else enActs (ctrlWritten s l v) l v := rfl

theorem linkAt_ctrlWritten (s : State) (l v n : Nat) : linkAt (ctrlWritten s l v) n = linkAt s n := rfl

theorem lnkCtrlWrite_of_retry {v : Nat} (h1 : bitOf v 1 = true) (h0 : bitOf v 0 = true) (h : (linkAt s l).st = .failed) :
    (linkAt (lnkCtrlWrite s l v) l).st = .training := by
  have hen : enActs (ctrlWritten s l v) l v = ctrlWritten s l v := by
    unfold enActs
    rw [if_neg (by simp [h0]), if_neg (by simp [linkAt_ctrlWritten, h])]
  rw [lnkCtrlWrite_eq, hen, if_pos ⟨h1, h⟩]
  exact st_startTraining ..

theorem lnkCtrlWrite_of_enable {v : Nat} (h0 : bitOf v 0 = true) (h : (linkAt s l).st = .disabled) (hc : claspOpen s l = true)
    (hx : 1 < axisExtent s l) : (linkAt (lnkCtrlWrite s l v) l).st = .training := by
  have hen : enActs (ctrlWritten s l v) l v = startTraining (ctrlWritten s l v) l :=
    (if_neg (by simp [h0])).trans (if_pos ⟨h, hc, hx⟩)
  rw [lnkCtrlWrite_eq, hen, if_neg (by rw [st_startTraining]; simp)]
  exact st_startTraining ..

theorem lnkCtrlWrite_of_no_retry {v : Nat} (h1 : bitOf v 1 = false) : lnkCtrlWrite s l v = enActs (ctrlWritten s l v) l v := by
  rw [lnkCtrlWrite_eq, if_neg (by simp [h1])]

/-! ### The faults of a link -/

theorem linkFault_due_iff {why : LinkWhy} {n : LinkId} :
    (usable (linkAt s n.val) && (match why with | .replayLimit => replayLimit s n.val | _ => true)) = true
      ↔ usable (linkAt s n.val) = true ∧ (why = .replayLimit → regFld s ⟨.lnkCtrl, n.val, 0⟩ 8 4 ≤ oldestTries (linkAt s n.val)) := by
  cases why with
  | replayLimit => simp [replayLimit]
  | secondLane => simp
  | retrainFailed => simp
  | codewords => simp

/-- A link whose fault is due starts afresh in RETRAIN. -/
theorem doLinkFault_of_due {why : LinkWhy} {n : LinkId} (h : usable (linkAt s n.val) = true
      ∧ (why = .replayLimit → regFld s ⟨.lnkCtrl, n.val, 0⟩ 8 4 ≤ oldestTries (linkAt s n.val))) :
    ∃ u, doLinkFault n why s = modLink u n.val fun k => { freshLink k with st := .retrain } :=
  ⟨_, if_pos (linkFault_due_iff.mpr h)⟩

/-- Settles O48: each row of the table by the state that it starts from. -/
theorem linkStatesFollowTheirTable : Obligations.LinkStatesFollowTheirTable := by
  refine ⟨?_, ?_, ?_, ?_, ?_, ?_, ?_⟩
  · intro s l n
    rw [exec_laneFault, doLaneFault]
    refine ⟨fun h => by rw [h], fun h => by rw [h], fun ha hd => ?_⟩
    cases hst : (linkAt s l.val).st with
    | active => exact absurd hst ha
    | degraded => exact absurd hst hd
    | disabled => rfl
    | training => rfl
    | standby => rfl
    | retrain => rfl
    | failed => rfl
    | bypassed => rfl
  · intro s l why
    rw [exec_linkFault]
    refine ⟨fun h => congrArg (fun t => Host.Outcome.next (commit s t)) (if_neg fun hd => h (linkFault_due_iff.mp hd)), fun h => ?_⟩
    obtain ⟨u, hu⟩ := doLinkFault_of_due h
    refine ⟨_, by rw [hu], ?_⟩
    rw [linkAt_commit, linkAt_modLink, if_pos rfl]
    exact ⟨rfl, rfl, rfl, rfl, rfl⟩
  · intro s l n
    rw [exec_retrainComplete, exec_retrainTimeout]
    refine ⟨fun h => ⟨congrArg (fun t => Host.Outcome.next (commit s t)) (if_pos h),
      congrArg (fun t => Host.Outcome.next (commit s t)) (if_neg h)⟩, fun h => ⟨fun hn => ?_, fun hn => ?_, fun hn => ?_,
      congrArg (fun t => Host.Outcome.next (commit s t)) (if_pos h)⟩⟩
    · have h4 : (bitSet 4 n.toNat).length = 4 := by rw [hn]; decide
      refine congrArg (fun t => Host.Outcome.next (commit s t)) ((if_neg (not_not.mpr h)).trans ((if_neg (by omega)).trans ?_))
      rw [if_pos h4]
    · refine congrArg (fun t => Host.Outcome.next (commit s t)) ((if_neg (not_not.mpr h)).trans ((if_neg (by omega)).trans ?_))
      rw [if_neg (by omega)]
    · exact congrArg (fun t => Host.Outcome.next (commit s t)) ((if_neg (not_not.mpr h)).trans (if_pos hn))
  · intro s l n
    rw [exec_trainingComplete, exec_trainingTimeout, exec_signalDetected]
    refine ⟨fun h hn => ?_, fun h => ?_, fun h => ?_, fun h => ?_, fun h hn ha => ?_, fun h => ?_⟩
    · exact congrArg (fun t => Host.Outcome.next (commit s t)) (if_pos ⟨h, hn⟩)
    · exact congrArg (fun t => Host.Outcome.next (commit s t)) (if_neg (not_and_or.mpr h))
    · exact congrArg (fun t => Host.Outcome.next (commit s t)) (if_pos h)
    · exact congrArg (fun t => Host.Outcome.next (commit s t)) (if_neg h)
    · exact congrArg (fun t => Host.Outcome.next (commit s t)) (if_pos ⟨h, hn, ha⟩)
    · refine congrArg (fun t => Host.Outcome.next (commit s t)) (if_neg fun hyes => ?_)
      obtain ⟨hf, hl, ha⟩ := hyes
      rcases h with h | h | h
      · exact h hf
      · exact h hl
      · rw [h] at ha; exact absurd ha (by decide)
  · intro s l v
    rw [exec_lnkRetry, exec_lnkEnable, exec_lnkDisable]
    have hbit (i : Nat) : bitOf v.toNat i = v.getLsbD i := by rw [bitOf_eq_testBit, BitVec.testBit_toNat]
    rw [hbit, hbit]
    generalize v.getLsbD 0 = b0
    generalize v.getLsbD 1 = b1
    refine ⟨fun hp => by simp [hp], fun h => by simp [h], fun h => by simp [h], fun h => by simp [h], fun hp =>
      ⟨fun h => by simp [h, hp], fun h => by simp [h, hp], fun h => by simp [h, hp]⟩⟩
  · intro s l v
    have hbit (i : Nat) : v.getLsbD i = bitOf v.toNat i := by rw [bitOf_eq_testBit, BitVec.testBit_toNat]
    rw [hbit, hbit]
    refine ⟨fun h1 h0 h => lnkCtrlWrite_of_retry h1 h0 h, fun h0 h hc hx => lnkCtrlWrite_of_enable h0 h hc hx, fun h0 h1 h => ?_, fun h0 h1 h => ?_⟩
    · rw [lnkCtrlWrite_of_no_retry h1]
      have hen : enActs (ctrlWritten s l.val v.toNat) l.val v.toNat = leaveLink (ctrlWritten s l.val v.toNat) l.val .disabled :=
        (if_pos (by simp [h0])).trans (if_pos h)
      rw [hen]
      exact st_leaveLink (by simp)
    · rw [lnkCtrlWrite_of_no_retry h1]
      have hen : enActs (ctrlWritten s l.val v.toNat) l.val v.toNat = ctrlWritten s l.val v.toNat :=
        (if_neg (by simp [h0])).trans (if_neg fun hd => h hd.1)
      rw [hen, linkAt_ctrlWritten]
  · intro s l why
    obtain ⟨hused, hreplay, hlanes⟩ := leaveLink_holds_nothing (regPut s (lnkStatR l) 24 4 why) l .failed
    exact ⟨st_leaveLink (by simp), hused, hreplay, hlanes⟩

end Sys2Proof.Machine
end

section
/-! PROOFS. Identification, fabric time, and the join of an axis. -/

namespace Sys2Proof.Machine
open Sys2Proof

variable {s : State} {l : LinkId} {f : Bytes}

/-- A row that acts on a link in one state, on a good record of one type. -/
theorem next_of_record {st : LinkState} {ty : Nat} {k : State} :
    ((linkAt s l.val).st ≠ st ∨ isCtl f ty = false →
      Host.Outcome.next (commit s (if (!((linkAt s l.val).st == st && isCtl f ty)) = true then s else k)) = (.next (commit s s) : Res))
    ∧ ((linkAt s l.val).st = st → isCtl f ty = true →
      Host.Outcome.next (commit s (if (!((linkAt s l.val).st == st && isCtl f ty)) = true then s else k)) = (.next (commit s k) : Res)) := by
  refine ⟨fun h => ?_, fun hst hf => ?_⟩
  · refine congrArg (fun t => Host.Outcome.next (commit s t)) (if_pos ?_)
    rcases h with h | h
    · rw [beq_eq_false_iff_ne.mpr h]; rfl
    · rw [h, Bool.and_false]; rfl
  · refine congrArg (fun t => Host.Outcome.next (commit s t)) (if_neg ?_)
    rw [hst, hf, beq_self_eq_true]
    decide

/-! ### Identification -/

theorem doCtlIdent_of_taken (ht : takesCtl (linkAt s l.val) = true) (hf : isCtl f 1 = true) : doCtlIdent l f s =
    let s1 := takeLinkFields s l.val f
    match identGap s1 l.val (ctlRecord f) with
    | none => if (linkAt s l.val).st = .training then joinProgress (failLink s1 l.val 2) else s1
    | some gap =>
      let s2 := notePeer s1 l.val (ctlRecord f) gap
      if (linkAt s l.val).st ≠ .training then s2
      else joinProgress (modLink s2 l.val fun k => { k with st := if (!decide ((joinAt s2 (linkAxis l.val)).step = .half)
        && ((dirLinks (linkDir l.val)).filter (linkUsable s2)).all fun o => peerPhys s2 o == peerPhys s2 l.val) = true then .active else .standby }) := by
  unfold doCtlIdent
  exact if_neg (by simp [ht, hf])

/-- No link of the direction stands in the way of one that is identified: no join, and no other peer. -/
theorem alone_iff (t : State) (a d n : Nat) : (!decide ((joinAt t a).step = .half)
      && ((dirLinks d).filter (linkUsable t)).all fun o => peerPhys t o == peerPhys t n) = true
    ↔ (joinAt t a).step ≠ .half ∧ ∀ o ∈ dirLinks d, linkUsable t o = true → peerPhys t o = peerPhys t n := by
  rw [Bool.and_eq_true, List.all_eq_true]
  simp [List.mem_filter]

/-! ### Fabric time -/

theorem doTimeRecord_of_record {off : Int} (hst : (linkAt s l.val).st = .active) (hf : isCtl f 2 = true) : doTimeRecord l f off s =
    let s := takeLinkFields s l.val f
    if s.fab.parent.map Fin.val ≠ some (linkDir l.val) ∨ s.fab.gm then s
    else
      let s := regPut s ⟨.timeStat, 0, 0⟩ 0 16 (min 0xFFFF off.natAbs)
      if !s.fab.locked then lockStep (setFab s fun x => { x with locked := true, holdover := false }) (stepTime s.now off)
      else
        let (k, s) := takeFree s
        let m : Int := (Config.freeNat k % 101 : Nat)
        setFab s fun x => { x with slew := if off < 0 then -m else if off = 0 then 0 else m, holdover := decide (200 < off.natAbs) } := by
  unfold doTimeRecord
  exact if_neg (by simp [hst, hf])

/-- A slew from a free value keeps the sign of the offset and stays within 100 ppm. -/
theorem slew_bounds (k : Nat) (off : Int) :
    let m : Int := (k % 101 : Nat)
    let x : Int := if off < 0 then -m else if off = 0 then 0 else m
    x.natAbs ≤ 100 ∧ (off < 0 → x ≤ 0) ∧ (0 < off → 0 ≤ x) ∧ (off = 0 → x = 0) := by
  have hk : k % 101 < 101 := Nat.mod_lt _ (by decide)
  dsimp only
  generalize k % 101 = m at hk
  split
  · omega
  · split
    · omega
    · omega

/-- A measurement by the parent: before the first lock fabric time steps, after it the rate slews. -/
theorem measured_of_parent {t : State} {off : Int} (hgm : t.fab.gm = false) (hp : t.fab.parent.map Fin.val = some (linkDir l.val)) :
    let v := regPut t ⟨.timeStat, 0, 0⟩ 0 16 (min 0xFFFF off.natAbs)
    let u := if t.fab.parent.map Fin.val ≠ some (linkDir l.val) ∨ t.fab.gm then t
      else
        if !v.fab.locked then lockStep (setFab v fun x => { x with locked := true, holdover := false }) (stepTime v.now off)
        else
          setFab (takeFree v).2 fun x => { x with
            slew := if off < 0 then -((Config.freeNat (takeFree v).1 % 101 : Nat) : Int) else if off = 0 then 0 else ((Config.freeNat (takeFree v).1 % 101 : Nat) : Int)
            holdover := decide (200 < off.natAbs) }
    regFld u ⟨.timeStat, 0, 0⟩ 0 16 = min 0xFFFF off.natAbs
    ∧ (t.fab.locked = false → u.now = stepTime t.now off ∧ u.fab.locked = true ∧ u.fab.holdover = false)
    ∧ (t.fab.locked = true → u.now = t.now ∧ u.fab.slew.natAbs ≤ 100 ∧ (off < 0 → u.fab.slew ≤ 0) ∧ (0 < off → 0 ≤ u.fab.slew)
      ∧ (off = 0 → u.fab.slew = 0) ∧ u.fab.holdover = decide (200 < off.natAbs)) := by
  intro v
  have hfld : regFld v ⟨.timeStat, 0, 0⟩ 0 16 = min 0xFFFF off.natAbs :=
    (regFld_regPut_same (by decide)).trans (Nat.mod_eq_of_lt (lt_of_le_of_lt (Nat.min_le_left ..) (by decide)))
  rw [if_neg (by simp [hgm, hp])]
  by_cases hl : t.fab.locked = true
  · rw [if_neg (show ¬ (!v.fab.locked) = true by rw [show v.fab.locked = true from hl]; decide)]
    obtain ⟨hs, hneg, hpos, hzero⟩ := slew_bounds (Config.freeNat (takeFree v).1) off
    exact ⟨hfld, fun h => absurd hl (by rw [h]; decide), fun _ => ⟨rfl, hs, hneg, hpos, hzero, rfl⟩⟩
  · have hl : t.fab.locked = false := Bool.eq_false_of_not_eq_true hl
    rw [if_pos (show (!v.fab.locked) = true by rw [show v.fab.locked = false from hl]; rfl)]
    exact ⟨hfld, fun _ => ⟨rfl, rfl, rfl⟩, fun h => absurd h (by rw [hl]; decide)⟩

/-- Settles O47: each record by the link and the step of the join that it finds. -/
theorem identificationTimeAndJoins : Obligations.IdentificationTimeAndJoins := by
  refine ⟨⟨exec_identSend, ?_, exec_timeSend, ?_, ?_, ?_⟩, ?_, ?_, ?_, ?_, ?_, ?_, clasps_closeAll⟩
  · intro s l f
    rw [exec_ctlIdent]
    refine ⟨fun h => ?_, fun ht hf => ?_⟩
    · exact congrArg (fun t => Host.Outcome.next (commit s t)) (if_pos (by rcases h with h | h <;> simp [h]))
    · rw [doCtlIdent_of_taken ht hf]
      dsimp only
      refine ⟨fun hg => by rw [hg], fun gap hg => ?_⟩
      rw [hg]
      refine ⟨fun hst => congrArg (fun t => Host.Outcome.next (commit s t)) (if_pos hst), fun hst hal => ?_, fun hst hal => ?_⟩
      · refine congrArg (fun t => Host.Outcome.next (commit s t)) ((if_neg (not_not.mpr hst)).trans ?_)
        rw [if_pos ((alone_iff ..).mpr hal)]
      · refine congrArg (fun t => Host.Outcome.next (commit s t)) ((if_neg (not_not.mpr hst)).trans ?_)
        rw [if_neg fun h => hal ((alone_iff ..).mp h)]
  · intro s l f off
    rw [exec_timeRecord]
    refine ⟨fun h => next_of_record.1 h, fun hst hf => ?_⟩
    rw [doTimeRecord_of_record hst hf]
    dsimp only
    refine ⟨fun h => congrArg (fun t => Host.Outcome.next (commit s t)) (if_pos h.symm), fun hgm hp => ⟨_, rfl, ?_⟩⟩
    exact measured_of_parent hgm hp
  · intro s d
    rw [exec_parentChange, doParentChange]
    refine ⟨fun h => ?_, fun h => ?_⟩
    · exact congrArg (fun t => Host.Outcome.next (commit s t)) (if_pos (by simpa [and_assoc] using h))
    · exact congrArg (fun t => Host.Outcome.next (commit s t)) (if_neg fun hd => h (by simpa [and_assoc] using hd))
  · intro s
    rw [exec_grandmasterTakeover, doGrandmasterTakeover]
    have hdue : (inRun s && regBit s ⟨.timeCtrl, 0, 0⟩ 0 && (ownChip s).isSome) = true
        ↔ inRun s = true ∧ regBit s ⟨.timeCtrl, 0, 0⟩ 0 = true ∧ ownChip s ≠ none := by
      rw [Bool.and_eq_true, Bool.and_eq_true, Option.isSome_iff_ne_none, and_assoc]
    exact ⟨fun h => congrArg (fun t => Host.Outcome.next (commit s t)) (if_pos (hdue.mpr h)),
      fun h => congrArg (fun t => Host.Outcome.next (commit s t)) (if_neg fun hd => h (hdue.mp hd))⟩
  · intro s l f
    rw [exec_ctlJoin, exec_ctlJoinReady, exec_ctlJoinCommit, exec_ctlJoinAbort]
    have hready (h : (linkAt s l.val).st ≠ .standby ∨ isCtl f 4 = false) : doCtlJoinReady l f s = s :=
      if_pos (by rcases h with h | h <;> simp [h])
    refine ⟨fun h => ⟨next_of_record.1 (.inl h), by rw [hready (.inl h)], next_of_record.1 (.inl h), next_of_record.1 (.inl h)⟩,
      fun h => next_of_record.1 (.inr h), fun h => by rw [hready (.inr h)], fun h => next_of_record.1 (.inr h),
      fun h => next_of_record.1 (.inr h), fun hst => ⟨fun hf => next_of_record.2 hst hf, fun hf => next_of_record.2 hst hf,
      fun hf => next_of_record.2 hst hf⟩⟩
  · intro s l f hst hf
    rw [exec_ctlJoinReady]
    refine ⟨fun h => ?_, fun h => ?_⟩
    · exact congrArg (fun t => Host.Outcome.next (commit s t)) (if_pos (by simpa [hst, hf] using h))
    · refine congrArg (fun t => Host.Outcome.next (commit s t)) ((if_neg (by simp [hst, hf, h])).trans ?_)
      simp only [Bool.and_eq_true]
  · intro s a
    rw [exec_joinReadyTimeout, exec_joinRetry]
    refine ⟨fun h => ?_, fun h hn => ?_, fun h hn => ?_, fun h => ?_, fun h => ?_⟩
    · exact congrArg (fun t => Host.Outcome.next (commit s t)) (if_pos h)
    · exact congrArg (fun t => Host.Outcome.next (commit s t)) ((if_neg (not_not.mpr h)).trans (if_pos hn))
    · exact congrArg (fun t => Host.Outcome.next (commit s t)) ((if_neg (not_not.mpr h)).trans (if_neg (Nat.not_lt.mpr hn)))
    · exact congrArg (fun t => Host.Outcome.next (commit s t)) (if_neg (not_not.mpr h))
    · exact congrArg (fun t => Host.Outcome.next (commit s t)) (if_pos h)
  · intro s v
    rw [exec_clspJoin, exec_clspLeave, clspWrite]
    have hbit (i : Nat) : bitOf v.toNat i = v.getLsbD i := by rw [bitOf_eq_testBit, BitVec.testBit_toNat]
    rw [hbit, hbit]
    generalize v.getLsbD 0 = b0
    generalize v.getLsbD 1 = b1
    refine ⟨fun hr h => by simp [hr, h], fun h => ?_, fun hr h => by simp [hr, h], fun h => ?_⟩
    · rw [if_neg (by rcases h with h | h <;> simp [h])]
    · rw [if_neg (by rcases h with h | h <;> simp [h])]
  · intro s h
    exact if_pos (by rcases h with h | h | h <;> simp [h])
  · intro s x
    rw [exec_claspSenseMismatch]
    refine ⟨fun hp hx => ?_, fun h => ?_⟩
    · exact congrArg (fun t => Host.Outcome.next (commit s t)) (if_neg (by simp [hp, hx]))
    · exact congrArg (fun t => Host.Outcome.next (commit s t)) (if_pos h)

end Sys2Proof.Machine
end

section
/-! PROOFS. Messages that reach the module are refused, or act by their class. -/

namespace Sys2Proof.Machine
open Sys2Proof

variable {s s1 : State} {m : Bytes} {st : Status}

/-- An access by how it ended: well, still to wait for, or not well. -/
theorem acc_match_eq_ite {α : Type} {r : Acc × State} {f g : State → α} {h : Acc → State → α} :
    (match r with | (.ok, s) => f s | (.wait, s) => g s | (a, s) => h a s)
      = if r.1 = .ok then f r.2 else if r.1 = .wait then g r.2 else h r.1 r.2 := by
  obtain ⟨a, u⟩ := r
  cases a with
  | ok => rfl
  | wait => rfl
  | _ => rfl

/-! ### Refusals -/

theorem msgRefused_of_unsound {cls : Nat} {ep : Bool} (h : msgSound m = false ∨ msgClass m ≠ cls) :
    msgRefused s m cls ep = some stCheckFail := if_pos (by rcases h with h | h <;> simp [h])

/-- A refusal stores nothing and changes no partition. -/
theorem refuse_keeps (s : State) (m : Bytes) (st : Status) : (refuse s m st).mem = s.mem ∧ (refuse s m st).parts = s.parts := by
  obtain ⟨_, _, _, _, h⟩ := (LinkFrame.refuse (l := 0) (by decide) s m st).net.1
  rw [h]
  exact ⟨rfl, rfl⟩

/-- A row of a message class: whether a check refuses the message, or what it does. -/
theorem row_of_refused {cls : Nat} {ep : Bool} {k : State} {t : State} : msgRefused t m cls ep = some st →
    (match msgRefused t m cls ep with | some st => refuse t m st | none => k) = refuse t m st := by
  intro h
  rw [h]

theorem row_of_sound {cls : Nat} {ep : Bool} {k : State} {t : State} : msgRefused t m cls ep = none →
    (match msgRefused t m cls ep with | some st => refuse t m st | none => k) = k := by
  intro h
  rw [h]

/-! ### The classes -/

theorem fieldAt_lt_pow (b : Bytes) (o n : Nat) : fieldAt b o n < 256 ^ n :=
  lt_of_lt_of_le (leNat_lt_pow _) (Nat.pow_le_pow_right (by decide) (List.length_take_le n (b.drop o)))

theorem doMsgMap_of_sound (h : msgRefused (takeMsg s m) m 0x02 false = none) : doMsgMap m s =
    if (msgPayload m).length < 4 ∨ (msgPayload m).length % 4 ≠ 0 ∨ 4 + 4 * 8192 < (msgPayload m).length
    then refuse (takeMsg s m) m stCheckFail
    else if s.fab.mapGen.toNat < fieldAt (msgPayload m) 0 4
      then applyMap (takeMsg s m) (BitVec.ofNat 32 (fieldAt (msgPayload m) 0 4)) ((msgPayload m).drop 4) else takeMsg s m := by
  have hgen : (BitVec.ofNat 32 (fieldAt (msgPayload m) 0 4)).toNat = fieldAt (msgPayload m) 0 4 :=
    (BitVec.toNat_ofNat ..).trans (Nat.mod_eq_of_lt (lt_of_lt_of_eq (fieldAt_lt_pow (msgPayload m) 0 4) (by norm_num)))
  unfold doMsgMap
  refine (row_of_sound h).trans (if_congr Iff.rfl rfl (if_congr ?_ rfl rfl))
  rw [hgen]
  rfl

theorem doMsgRead_of_sound (h : msgRefused (takeMsg s m) m 0x20 true = none) : doMsgRead m s =
    if (msgPayload m).length ≠ 8 ∨ msgAux m = 0 ∨ 65536 < msgAux m then refuse (takeMsg s m) m stCheckFail
    else match readMem (takeMsg s m) (msgWho m) (fieldAt (msgPayload m) 0 8) (msgAux m) with
      | (.ok, b, s) => (sendMsg s { byPhys := true, dst := msgSrc m, cls := 0x21, part := msgPart m, prio := msgPrio m, epoch := msgEpoch m,
                                    flow := msgFlow m, tag := msgTag m, payload := b }).2
      | (.wait, _, _) => s
      | (a, _, s) => refuse s m (accStatus a) := by
  unfold doMsgRead
  exact row_of_sound h

theorem doMsgWrite_of_sound (h : msgRefused (takeMsg s m) m 0x22 true = none) : doMsgWrite m s =
    if (msgPayload m).length < 8 then refuse (takeMsg s m) m stCheckFail
    else match writeMem (takeMsg s m) (msgWho m) (fieldAt (msgPayload m) 0 8) ((msgPayload m).drop 8) (msgPrio m) with
      | (.ok, s) => s
      | (.wait, t) => stillWaits s t
      | (a, s) => refuse s m (accStatus a) := by
  unfold doMsgWrite
  exact row_of_sound h

/-! ### CHECKPOINT -/

/-- The store that a CHECKPOINT message names. -/
def namedStore (v : State) (m : Bytes) : Option Store :=
  findStore v (if bitOf (msgAux m) 8 = true then fieldAt (msgPayload m) 4 2 else fieldAt (msgPayload m) 0x0A 2) (bitsOf (msgAux m) 0 4)

/-- How a write into a store ends. -/
def storeEnds (s : State) (m : Bytes) (t : Store) (a : Acc) (s1 : State) : State :=
  if a = .ok then setStore s1 t else if a = .wait then stillWaits s s1 else refuse s1 m (collAcc a)

theorem doMsgCheckpoint_of_no_store (h : msgRefused (takeMsg s m) m 0x31 true = none) (hs : namedStore (takeMsg s m) m = none) :
    doMsgCheckpoint m s = refuse (takeMsg s m) m stBadDescriptor := by
  unfold doMsgCheckpoint
  refine (row_of_sound h).trans ?_
  extract_lets b sp manifest chip
  rw [show findStore (takeMsg s m) chip sp = none from hs]

section
variable {t : Store} (h : msgRefused (takeMsg s m) m 0x31 true = none) (hs : namedStore (takeMsg s m) m = some t)
include h hs

theorem doMsgCheckpoint_of_other_part (hp : t.part.val ≠ msgPart m) : doMsgCheckpoint m s = refuse (takeMsg s m) m stBadDescriptor := by
  unfold doMsgCheckpoint
  refine (row_of_sound h).trans ?_
  extract_lets b sp manifest chip
  rw [show findStore (takeMsg s m) chip sp = some t from hs]
  exact if_pos hp

variable (hp : t.part.val = msgPart m)
include hp

theorem doMsgCheckpoint_of_long_manifest (hman : bitOf (msgAux m) 8 = true) (hlen : storeSlotLen t < (msgPayload m).length) :
    doMsgCheckpoint m s = refuse (takeMsg s m) m stCheckFail := by
  unfold doMsgCheckpoint
  refine (row_of_sound h).trans ?_
  extract_lets b sp manifest chip
  rw [show findStore (takeMsg s m) chip sp = some t from hs]
  exact (if_neg (not_not.mpr hp)).trans ((if_pos (show manifest = true from hman)).trans (if_pos hlen))

theorem doMsgCheckpoint_of_manifest {a : Acc} (hman : bitOf (msgAux m) 8 = true) (hlen : ¬ storeSlotLen t < (msgPayload m).length)
    (hw : writeMem (takeMsg s m) .device (storeSlot t (nextSlot (takeMsg s m) t)) (putAt (msgPayload m) 7 [1]) 3 = (a, s1)) :
    doMsgCheckpoint m s = storeEnds s m { t with writing := some (nextSlot (takeMsg s m) t), got := 0 } a s1 := by
  unfold doMsgCheckpoint
  refine (row_of_sound h).trans ?_
  extract_lets b sp manifest chip
  rw [show findStore (takeMsg s m) chip sp = some t from hs]
  refine (if_neg (not_not.mpr hp)).trans ((if_pos (show manifest = true from hman)).trans ((if_neg hlen).trans ?_))
  rw [hw]
  exact acc_match_eq_ite (r := (a, s1))

theorem doMsgCheckpoint_of_no_slot (hman : ¬ bitOf (msgAux m) 8 = true) (hno : t.writing = none) :
    doMsgCheckpoint m s = refuse (takeMsg s m) m stBadDescriptor := by
  unfold doMsgCheckpoint
  refine (row_of_sound h).trans ?_
  extract_lets b sp manifest chip
  rw [show findStore (takeMsg s m) chip sp = some t from hs]
  refine (if_neg (not_not.mpr hp)).trans ((if_neg (show ¬ manifest = true from hman)).trans ?_)
  rw [hno]

variable {k : Nat} (hman : ¬ bitOf (msgAux m) 8 = true) (hk : t.writing = some k)
include hman hk

theorem doMsgCheckpoint_of_long_record
    (hlen : storeSlotLen t < chunkAt (fieldAt (msgPayload m) 4 4) + (msgPayload m).length ∨ 48 + 32768 < (msgPayload m).length) :
    doMsgCheckpoint m s = refuse (takeMsg s m) m stCheckFail := by
  unfold doMsgCheckpoint
  refine (row_of_sound h).trans ?_
  extract_lets b sp manifest chip
  rw [show findStore (takeMsg s m) chip sp = some t from hs]
  refine (if_neg (not_not.mpr hp)).trans ((if_neg (show ¬ manifest = true from hman)).trans ?_)
  rw [hk]
  exact if_pos hlen

theorem doMsgCheckpoint_of_record {a : Acc}
    (hlen : ¬ (storeSlotLen t < chunkAt (fieldAt (msgPayload m) 4 4) + (msgPayload m).length ∨ 48 + 32768 < (msgPayload m).length))
    (hw : writeMem (takeMsg s m) .device (storeSlot t k + chunkAt (fieldAt (msgPayload m) 4 4)) (msgPayload m) 3 = (a, s1)) :
    doMsgCheckpoint m s = storeEnds s m { t with got := t.got + 1 } a s1 := by
  unfold doMsgCheckpoint
  refine (row_of_sound h).trans ?_
  extract_lets b sp manifest chip
  rw [show findStore (takeMsg s m) chip sp = some t from hs]
  refine (if_neg (not_not.mpr hp)).trans ((if_neg (show ¬ manifest = true from hman)).trans ?_)
  rw [hk]
  refine (if_neg hlen).trans ?_
  rw [hw]
  exact acc_match_eq_ite (r := (a, s1))

end

/-- Settles O49: each class by its own checks, once the common ones have passed. -/
theorem messagesActByTheirClass : Obligations.MessagesActByTheirClass := by
  refine ⟨fun row hrow s m st h => ?_, fun s m cls ep st => ⟨msgRefused_of_unsound, refuse_keeps s m st⟩, ?_, ?_, ?_, ?_, ?_, ?_, ?_, ?_⟩
  · simp only [List.mem_cons, List.not_mem_nil, or_false] at hrow
    rcases hrow with rfl | rfl | rfl | rfl | rfl | rfl | rfl
    all_goals exact congrArg (fun t => Host.Outcome.next (commit s t)) (row_of_refused h)
  · intro s m h
    have heq : exec (.msgCommand m) s = .next (commit s (if (msgPayload m).length < 64 ∨ (msgPayload m).length ≠ 64 + fieldAt (msgPayload m) 0x20 4
        then refuse (takeMsg s m) m stCheckFail
        else if fieldAt (msgPayload m) 0 2 = 0x0006 ∨ fieldAt (msgPayload m) 0 2 = 0x0032 ∨ (!remoteAdmissible (takeMsg s m) m) = true then s
        else admitCmd (takeMsg s m) (remoteCmd (takeMsg s m) m) ((msgPayload m).take 64))) :=
      congrArg (fun t => Host.Outcome.next (commit s t)) (row_of_sound h)
    rw [heq]
    refine ⟨fun hw => ?_, fun hw hop => ?_, fun hw h6 h32 hadm => ?_⟩
    · rw [if_pos (by omega)]
    · rw [if_neg (by omega), if_pos (by simpa using hop)]
    · rw [if_neg (by omega), if_neg (by simp [h6, h32, hadm])]
  · intro s m
    rw [exec_msgNack]
    refine ⟨fun hs hc hm => ?_, fun h => ?_⟩
    · exact congrArg (fun t => Host.Outcome.next (commit s t)) (if_neg (by simp [hs, hc, hm]))
    · exact congrArg (fun t => Host.Outcome.next (commit s t)) (if_pos (by rcases h with h | h | h <;> simp [h]))
  · intro s m h
    rw [exec_msgMap, doMsgMap_of_sound h]
    refine ⟨fun hf => ?_, fun hf hg => ?_, fun hf hg => ?_⟩
    · rw [if_pos (by omega)]
    · rw [if_neg (by omega), if_pos hg]
    · rw [if_neg (by omega), if_neg (Nat.not_lt.mpr hg)]
  · intro s m h
    rw [exec_msgRead, doMsgRead_of_sound h]
    refine ⟨fun hf => by rw [if_pos (by omega)], fun a b s1 hf hr => ?_⟩
    rw [if_neg (by omega), hr]
    refine ⟨fun ha => by rw [ha], fun ha => by rw [ha], fun hok hw => ?_⟩
    cases a with
    | ok => exact absurd rfl hok
    | wait => exact absurd rfl hw
    | _ => rfl
  · exact fun s m h => congrArg (fun t => Host.Outcome.next (commit s t)) (row_of_sound h)
  · intro s m h
    rw [exec_msgWrite, doMsgWrite_of_sound h]
    refine ⟨fun hn => by rw [if_pos hn], fun a s1 hn hw => ?_⟩
    rw [if_neg (Nat.not_lt.mpr hn), hw]
    refine ⟨fun ha => by rw [ha], fun ha => by rw [ha], fun hok hw => ?_⟩
    cases a with
    | ok => exact absurd rfl hok
    | wait => exact absurd rfl hw
    | _ => rfl
  · exact fun s m h => congrArg (fun t => Host.Outcome.next (commit s t)) (row_of_sound h)
  · intro s m h
    rw [exec_msgCheckpoint]
    refine ⟨fun hs => by rw [doMsgCheckpoint_of_no_store h hs], fun t hs => ?_⟩
    refine ⟨fun hp => ?_, fun hp hman => ⟨fun hlen => ?_, fun a s1 hlen hw => ?_⟩, fun hp hman => ⟨fun hno => ?_, fun k hk =>
      ⟨fun hlen => ?_, fun a s1 hlen hmax hw => ?_⟩⟩⟩
    · rw [doMsgCheckpoint_of_other_part h hs hp]
    · rw [doMsgCheckpoint_of_long_manifest h hs hp hman hlen]
    · exact congrArg (fun t => Host.Outcome.next (commit s t)) (doMsgCheckpoint_of_manifest h hs hp hman (Nat.not_lt.mpr hlen) hw)
    · rw [doMsgCheckpoint_of_no_slot h hs hp (by simp [hman]) hno]
    · rw [doMsgCheckpoint_of_long_record h hs hp (by simp [hman]) hk hlen]
    · exact congrArg (fun t => Host.Outcome.next (commit s t)) (doMsgCheckpoint_of_record h hs hp (by simp [hman]) hk (by omega) hw)

end Sys2Proof.Machine
end

section
/-! PROOFS. Collective streams are opened and closed, and collectives are issued and awaited. -/

namespace Sys2Proof.Machine
open Sys2Proof

variable {s s1 : State} {p n : Nat}

/-- A row of a command that takes effect while its partition is at rest, there. -/
theorem next_of_ready {c : Cmd} {o : Option Cmd} {g : Cmd → Bool} {k : Cmd → State} (hg : g c = true) : o = some c →
    Host.Outcome.next (commit s (match o with | none => s | some c => if (!g c) = true then s else k c)) = (.next (commit s (k c)) : Res) := by
  rintro rfl
  exact congrArg (fun t => Host.Outcome.next (commit s t)) (if_neg (by rw [hg]; decide))

/-! ### What the end of a collective leaves of the other streams -/

theorem coll_of_link {t : State} (h : LinkFrame s t) : t.coll = s.coll := by
  obtain ⟨_, _, _, _, h⟩ := h.net.1
  rw [h]

theorem coll_of_mem {t : State} (h : MemFrame s t) : t.coll = s.coll := by
  obtain ⟨_, _, _, _, _, _, _, _, _, _, rfl⟩ := h.frame
  rfl

theorem coll_of_fault {t : State} (h : FaultFrame s t) : t.coll = s.coll := by
  obtain ⟨_, _, _, _, rfl⟩ := h
  rfl

theorem coll_freeDst (s : State) (p : Nat) (op : CollOp) : (freeDst s p op).coll = s.coll := by
  unfold freeDst
  cases ownChip s with
  | none => rfl
  | some chip =>
    show _ = (takeFree s).2.coll
    exact coll_of_mem (MemFrame.writeMem ..)

theorem coll_sendAborts (s : State) (p n : Nat) (op : CollOp) (st : Status) : (sendAborts s p n op st).coll = s.coll := by
  unfold sendAborts
  refine forEach_keeps (view := State.coll) (h := fun s c => ?_) ..
  cases mapEntry s c with
  | none => rfl
  | some ph =>
    rw [regAddSat_coll]
    exact coll_of_link (LinkFrame.sendMsg ..)

/-- A collective's end changes its own stream only. -/
theorem streams_collFail (s : State) (p n : Nat) (op : CollOp) (st : Status) (other : W32) (tell : Bool) :
    ∃ f, (collFail s p n op st other tell).coll.streams = Tbl.upd {} s.coll.streams (64 * p + n) f := by
  unfold collFail
  extract_lets c gone ends was s1 s2 s3
  have h2 : s2.coll = (dropRequests s1 p n).coll := forEach_keeps (view := State.coll) (h := fun s o => coll_freeDst s p o) ..
  have h3 : s3.coll = s2.coll := by
    unfold s3
    split
    · exact coll_sendAborts ..
    · rfl
  have h4 : (if was = .failed then s3 else faultRec s3 st p ⟨.collStream, 0, 64 * p + n⟩).coll = s3.coll := by
    split
    · rfl
    · exact coll_of_fault (FaultFrame.faultRec ..)
  refine ⟨fun c => { c with st := .failed, failStatus := st, run := none, pending := [], held := [], tags := [], aborts := [], ended := c.ended ++ ends },
    (congrArg Coll.streams (h4.trans (h3.trans h2))).trans ?_⟩
  rfl

theorem collAt_modColl_other {q m : Nat} (f : CollStream → CollStream) (h : 64 * q + m ≠ 64 * p + n) :
    collAt (modColl s p n f) q m = collAt s q m := by
  simp [collAt, modColl, Tbl.get_upd, h]

theorem collAt_collFail_other {q m : Nat} (op : CollOp) (st : Status) (other : W32) (tell : Bool) (h : 64 * q + m ≠ 64 * p + n) :
    collAt (collFail s p n op st other tell) q m = collAt s q m := by
  obtain ⟨f, hf⟩ := streams_collFail s p n op st other tell
  simp [collAt, hf, Tbl.get_upd, h]

theorem collAt_closeColl_other {q m : Nat} (h : 64 * q + m ≠ 64 * p + n) : collAt (closeColl s p n) q m = collAt s q m := by
  unfold closeColl
  extract_lets c s'
  refine (collAt_modColl_other _ h).trans (?_ : collAt s' q m = collAt s q m)
  unfold s'
  split
  · exact collAt_collFail_other _ _ _ _ h
  · exact collAt_collFail_other _ _ _ _ h
  · rfl

theorem closeColl_closed (s : State) (p n : Nat) : (collAt (closeColl s p n) p n).st = .closed :=
  congrArg CollStream.st (collAt_modColl_self ..)

/-! ### Issuing -/

/-- What COLL does with a descriptor, on the chip of the module. -/
def issueColl (s : State) (p : Nat) (ms : List Nat) (d : Bytes) (chip : Nat) : State :=
  let c := collAt s p (cStream d)
  let seq := cSeq d
  let bad := !collDescOk s d || c.st == .closed || !isMember s d chip || !collApart s d chip
    || (c.st != .failed && ((seq != c.nextSeq && !seqAhead seq c.nextSeq) || c.pending.any (fun o => o.seq == seq)
          || (match c.run with | some r => r.op.seq == seq | none => false)))
  if bad then libFault s ms 0x09
  else if c.st ≠ .failed ∧ 64 ≤ c.pending.length then libFault s ms 0x0F
  else if !collInside s p d chip then libFault s ms 0x0A
  else groupReturn (admitColl s p d) ms

variable {part : PartId} {hit : Option TileId} {ms : List Nat} {u : State}

theorem doColl_of_waits (h : scratchCall s part.val 12 hit (descArg 64) = (none, u)) : doColl part hit s = u := by rw [doColl, h]

theorem doColl_of_none (h : scratchCall s part.val 12 hit (descArg 64) = (some ms, s1))
    (hno : libDesc s1 (nth 0 ms 0) 64 = none ∨ ownChip s1 = none) : doColl part hit s = libFault s1 ms 0x09 := by
  rw [doColl, h]
  dsimp only
  rcases hno with hd | hchip
  · rw [hd]
  · rw [hchip]
    cases libDesc s1 (nth 0 ms 0) 64 <;> rfl

theorem doColl_of_desc {d : Bytes} {chip : Nat} (h : scratchCall s part.val 12 hit (descArg 64) = (some ms, s1))
    (hd : libDesc s1 (nth 0 ms 0) 64 = some d) (hchip : ownChip s1 = some chip) :
    doColl part hit s = issueColl s1 part.val ms d chip := by
  rw [doColl, h]
  dsimp only
  rw [hd, hchip] <;> rfl

/-- The running collective, if any, has a number. -/
theorem run_has_seq_iff (c : CollStream) (seq : W32) :
    (match c.run with | some r => r.op.seq == seq | none => false) = true ↔ ∃ r, c.run = some r ∧ r.op.seq = seq := by
  cases c.run <;> simp

/-! ### Awaiting -/

theorem doCollWait_of_group (h : groupCall s part.val 13 (fun s t => [gNum s t 4, gNum s t 5]) = (some ms, s1)) : doCollWait part s =
    if 64 ≤ gNum s1 (nth 0 ms 0) 4 then libFault s1 ms 0x09
    else match (collAt s1 part.val (gNum s1 (nth 0 ms 0) 4)).ended.find? fun e => e.1 == BitVec.ofNat 32 (gNum s1 (nth 0 ms 0) 5) with
      | none => forEach ms s1 fun s t => parkAt s t .coll
      | some (_, st, other) => groupReturn s1 ms fun x =>
          let x := setG x 6 (BitVec.ofNat 64 st.toNat)
          if st = stOrderStall then setG x 7 (BitVec.ofNat 64 other.toNat) else x := by
  rw [doCollWait, h] <;> rfl

/-- Settles O50: commands and calls by their checks; the end of a collective changes its own stream only. -/
theorem collectivesAreOpenedIssuedAndAwaited : Obligations.CollectivesAreOpenedIssuedAndAwaited := by
  refine ⟨?_, ?_, fun s p n => ⟨closeColl_closed s p n, fun q m h => collAt_closeColl_other (by omega)⟩, ?_, ?_⟩
  · intro s cid c hc
    rw [exec_collOpen]
    refine ⟨fun h => next_of_not_rest (g := fun c => atRest s c (cmdPart s c)) h hc, fun h => ?_⟩
    refine (next_of_ready (g := fun c => atRest s c (cmdPart s c)) h hc).trans (congrArg (fun t => Host.Outcome.next (commit s t)) ?_)
    refine congrArg (withPayload (beginCmd s cid) c 32) (funext₂ fun t b => ?_)
    refine (ite_not ..).symm.trans (if_congr ?_ rfl rfl)
    simp
  · intro s cid c hc bad
    rw [exec_collClose]
    refine ⟨fun h => next_of_not_rest (g := fun c => atRest s c (c.byte 1)) h hc, fun h hbad => ?_, fun h hbad => ?_⟩
    · refine (next_of_ready (g := fun c => atRest s c (c.byte 1)) h hc).trans (congrArg (fun t => Host.Outcome.next (commit s t)) ?_)
      exact if_pos (by simpa [bad] using hbad)
    · refine (next_of_ready (g := fun c => atRest s c (c.byte 1)) h hc).trans (congrArg (fun t => Host.Outcome.next (commit s t)) ?_)
      exact if_neg (by simpa [bad] using hbad)
  · intro s p hit
    rw [exec_coll]
    refine ⟨fun u h => by rw [doColl_of_waits h], fun ms s1 h => ⟨fun hno => by rw [doColl_of_none h hno]; rfl, fun d chip hd hchip => ?_⟩⟩
    rw [doColl_of_desc h hd hchip]
    intro c seq misplaced bad full
    have hbad : (!collDescOk s1 d || c.st == .closed || !isMember s1 d chip || !collApart s1 d chip
        || (c.st != .failed && ((seq != c.nextSeq && !seqAhead seq c.nextSeq) || c.pending.any (fun o => o.seq == seq)
          || (match c.run with | some r => r.op.seq == seq | none => false)))) = true ↔ bad := by
      rw [Bool.or_eq_true, Bool.and_eq_true, Bool.or_eq_true _ (match c.run with | some r => r.op.seq == seq | none => false), run_has_seq_iff]
      simp [bad, misplaced, or_assoc]
    refine ⟨fun hb => ?_, fun hb hf => ?_, fun hb hf hin => ?_, fun hb hf hin => ?_⟩
    · exact congrArg (fun t => Host.Outcome.next (commit s t)) (if_pos (hbad.mpr hb))
    · exact congrArg (fun t => Host.Outcome.next (commit s t)) ((if_neg (mt hbad.mp hb)).trans (if_pos hf))
    · exact congrArg (fun t => Host.Outcome.next (commit s t)) ((if_neg (mt hbad.mp hb)).trans ((if_neg hf).trans (if_pos (by simp [hin]))))
    · exact congrArg (fun t => Host.Outcome.next (commit s t)) ((if_neg (mt hbad.mp hb)).trans ((if_neg hf).trans (if_neg (by simp [hin]))))
  · intro s s1 p
    rw [exec_collWait]
    refine ⟨fun h => by rw [doCollWait, h], fun ms h => ?_⟩
    rw [doCollWait_of_group h]
    refine ⟨fun hn => ?_, fun hn hend => ?_, fun q st other hn hend => ?_⟩
    · exact congrArg (fun t => Host.Outcome.next (commit s t)) (if_pos hn)
    · rw [if_neg (Nat.not_le.mpr hn), hend]
    · rw [if_neg (Nat.not_le.mpr hn), hend]

end Sys2Proof.Machine
end

section
/-! PROOFS. Collectives start in turn, stall, and move their chunks by messages. -/

namespace Sys2Proof.Machine
open Sys2Proof

variable {s s1 t u : State} {p n : Nat} {m : Bytes} {st : Status}

theorem collOr_of_ok {s0 : State} (h : collGo s p n = .ok t) : collOr s0 s p n = t := by rw [collOr, h]

theorem collOr_of_error {s0 : State} (h : collGo s p n = .error t) : collOr s0 s p n = stillWaits s0 t := by rw [collOr, h]

/-! ### The start -/

section
variable {part : PartId} {stream : Fin 64} {op : CollOp} {chip : Nat}

/-- The collective of a stream whose turn it is. -/
def nextOp (s : State) (p n : Nat) : Option CollOp := (collAt s p n).pending.find? fun o => o.seq == (collAt s p n).nextSeq

theorem doCollectiveStart_of_none
    (h : (collAt s part.val stream.val).run ≠ none ∨ nextOp s part.val stream.val = none ∨ ownChip s = none) :
    doCollectiveStart part stream s = s := by
  unfold nextOp at h
  unfold doCollectiveStart
  extract_lets n c
  change c.run ≠ none ∨ (c.pending.find? fun o => o.seq == c.nextSeq) = none ∨ ownChip s = none at h
  cases hrun : c.run with
  | some r => rfl
  | none =>
    cases hop : c.pending.find? fun o => o.seq == c.nextSeq with
    | none => rfl
    | some op =>
      rw [(h.resolve_left (not_not.mpr hrun)).resolve_left (by simp [hop])]

/-- How a collective starts by how the read of its source ends. -/
def startRead (s : State) (p n : Nat) (op : CollOp) (chip : Nat) : Acc × Bytes × State → State
  | (.wait, _, _) => s
  | (.ok, b, s1) => collOr s (startColl s1 p n chip op b) p n
  | (a, _, s1) => collFail s1 p n op (collAcc a) 0 true

section
variable (hrun : (collAt s part.val stream.val).run = none) (hop : nextOp s part.val stream.val = some op) (hchip : ownChip s = some chip)
include hrun hop hchip

theorem doCollectiveStart_of_aborted {q : W32} {tell : Bool}
    (h : (collAt s part.val stream.val).aborts.find? (fun a => a.1 == op.seq) = some (q, st, tell)) :
    doCollectiveStart part stream s = collFail s part.val stream.val op st 0 tell := by
  unfold nextOp at hop
  unfold doCollectiveStart
  extract_lets n c
  rw [show c.run = none from hrun, show (c.pending.find? fun o => o.seq == c.nextSeq) = some op from hop, hchip]
  dsimp only
  rw [show c.aborts.find? (fun a => a.1 == op.seq) = some (q, st, tell) from h]

theorem doCollectiveStart_of_read {x : Acc × Bytes × State}
    (h : (collAt s part.val stream.val).aborts.find? (fun a => a.1 == op.seq) = none)
    (hr : readMem s (.step part.val) (cSrc op.desc) (srcLen s op.desc chip) = x) :
    doCollectiveStart part stream s = startRead s part.val stream.val op chip x := by
  unfold nextOp at hop
  unfold doCollectiveStart
  extract_lets n c
  rw [show c.run = none from hrun, show (c.pending.find? fun o => o.seq == c.nextSeq) = some op from hop, hchip]
  dsimp only
  rw [show c.aborts.find? (fun a => a.1 == op.seq) = none from h, hr]
  obtain ⟨a, b, s1⟩ := x
  cases a with
  | ok => rfl
  | wait => rfl
  | _ => rfl

end
end

/-! ### The watchdog -/

/-- The lowest number held, seen from the next one. -/
def lowestHeld (next : W32) (l : List Chunk) : Option W32 :=
  l.foldl (fun (m : Option W32) h => match m with
    | none => some h.seq
    | some x => if (h.seq - next).toNat < (x - next).toNat then some h.seq else some x) none

theorem lowest_from (next : W32) (l : List Chunk) (x : W32) : ∃ y,
    l.foldl (fun (m : Option W32) h => match m with
      | none => some h.seq
      | some x => if (h.seq - next).toNat < (x - next).toNat then some h.seq else some x) (some x) = some y
    ∧ (y = x ∨ ∃ h ∈ l, h.seq = y) ∧ (y - next).toNat ≤ (x - next).toNat ∧ ∀ k ∈ l, (y - next).toNat ≤ (k.seq - next).toNat := by
  induction l generalizing x with
  | nil => exact ⟨x, rfl, .inl rfl, le_rfl, fun k hk => absurd hk List.not_mem_nil⟩
  | cons h l ih =>
    rw [List.foldl_cons]
    by_cases hlt : (h.seq - next).toNat < (x - next).toNat
    · obtain ⟨y, hy, hin, hle, hall⟩ := ih h.seq
      refine ⟨y, by dsimp only; rw [if_pos hlt]; exact hy, ?_, hle.trans hlt.le, List.forall_mem_cons.mpr ⟨hle, hall⟩⟩
      rcases hin with rfl | ⟨k, hk, rfl⟩
      · exact .inr ⟨h, List.mem_cons_self, rfl⟩
      · exact .inr ⟨k, List.mem_cons_of_mem _ hk, rfl⟩
    · obtain ⟨y, hy, hin, hle, hall⟩ := ih x
      refine ⟨y, by dsimp only; rw [if_neg hlt]; exact hy, ?_, hle, List.forall_mem_cons.mpr ⟨hle.trans (Nat.not_lt.mp hlt), hall⟩⟩
      exact hin.imp id fun ⟨k, hk, hs⟩ => ⟨k, List.mem_cons_of_mem _ hk, hs⟩

/-- What is held has a lowest number. -/
theorem lowestHeld_of_ne_nil {next : W32} {l : List Chunk} (h : l ≠ []) :
    ∃ k ∈ l, (∀ j ∈ l, (k.seq - next).toNat ≤ (j.seq - next).toNat) ∧ lowestHeld next l = some k.seq := by
  obtain ⟨a, l, rfl⟩ := List.exists_cons_of_ne_nil h
  obtain ⟨y, hy, hin, hle, hall⟩ := lowest_from next l a.seq
  rcases hin with rfl | ⟨k, hk, rfl⟩
  · exact ⟨a, List.mem_cons_self, List.forall_mem_cons.mpr ⟨le_rfl, hall⟩, hy⟩
  · exact ⟨k, List.mem_cons_of_mem _ hk, List.forall_mem_cons.mpr ⟨hle, hall⟩, hy⟩

theorem doCollWatchdog_of_run {part : PartId} {stream : Fin 64} {r : CollRun} (h : (collAt s part.val stream.val).run = some r) :
    doCollWatchdog part stream s =
      if s.now < r.lastMove + (collAt s part.val stream.val).wdog * 1000000 then s
      else orderStall s part.val stream.val 0 r.op stream.val
        ((lowestHeld (collAt s part.val stream.val).nextSeq (collAt s part.val stream.val).held).getD (collAt s part.val stream.val).nextSeq) := by
  unfold doCollWatchdog
  extract_lets n c
  rw [show c.run = some r from h]
  rfl

/-! ### Messages -/

section
variable {type : Nat} {epoch : Bool} {k : State → State}

theorem collMsg_of_refused (h : msgRefused (takeMsg s m) m 0x10 epoch = some st) : collMsg s m type epoch k = refuse (takeMsg s m) m st := by
  rw [collMsg, h]

theorem collMsg_of_short (h : msgRefused (takeMsg s m) m 0x10 epoch = none) (hm : m.length < 64) :
    collMsg s m type epoch k = refuse (takeMsg s m) m stCheckFail := by
  rw [collMsg, h]
  exact if_pos hm

theorem collMsg_of_other (h : msgRefused (takeMsg s m) m 0x10 epoch = none) (hm : 64 ≤ m.length) (ht : hType m ≠ type) :
    collMsg s m type epoch k = s := by
  rw [collMsg, h]
  exact (if_neg (Nat.not_lt.mpr hm)).trans (if_pos ht)

theorem collMsg_of_type (h : msgRefused (takeMsg s m) m 0x10 epoch = none) (hm : 64 ≤ m.length) (ht : hType m = type) :
    collMsg s m type epoch k = k (takeMsg s m) := by
  rw [collMsg, h]
  exact (if_neg (Nat.not_lt.mpr hm)).trans (if_neg (not_not.mpr ht))

/-- A row of a collective message, where it does not act. -/
theorem exec_of_collMsg {row : Instr} (hrow : exec row s = .next (commit s (collMsg s m type epoch k))) :
    (∀ st, msgRefused (takeMsg s m) m 0x10 epoch = some st → exec row s = .next (commit s (refuse (takeMsg s m) m st)))
    ∧ (msgRefused (takeMsg s m) m 0x10 epoch = none → m.length < 64 → exec row s = .next (commit s (refuse (takeMsg s m) m stCheckFail)))
    ∧ (msgRefused (takeMsg s m) m 0x10 epoch = none → 64 ≤ m.length → hType m ≠ type → exec row s = .next (commit s s)) := by
  rw [hrow]
  exact ⟨fun st h => by rw [collMsg_of_refused h], fun h hm => by rw [collMsg_of_short h hm], fun h hm ht => by rw [collMsg_of_other h hm ht]⟩

end

/-- A row of a collective message does nothing where no sent chunk is named, else what it does with the chunk. -/
theorem answered_of_none {o : Option (CollRun × SentChunk)} {k : SentChunk → State} : o = none →
    (match o with | some (_, c) => k c | none => s) = s := by
  rintro rfl
  rfl

theorem answered_of_some {o : Option (CollRun × SentChunk)} {k : SentChunk → State} {r : CollRun} {c : SentChunk} : o = some (r, c) →
    (match o with | some (_, c) => k c | none => s) = k c := by
  rintro rfl
  rfl

/-! ### REQ -/

/-- A request that waits for its grant. -/
def waitReq (t : State) (d : Die) (m : Bytes) : State := { t with coll := { t.coll with requests := t.coll.requests ++ [⟨d, m⟩] } }

/-- The collectives admitted to a stream and not ended. -/
def admittedOps (c : CollStream) : List CollOp := (match c.run with | some r => [r.op] | none => []) ++ c.pending

/-- A request that comes too late for its stream. -/
def lateReq (c : CollStream) (seq : W32) : Prop := c.st = .failed ∨ (c.st ≠ .closed ∧ seq ≠ c.nextSeq ∧ seqAhead seq c.nextSeq = false)

section
variable {d : Die} (h : msgRefused (takeMsg s m) m 0x10 false = none) (hm : 64 ≤ m.length) (ht : hType m = 1)
include h hm ht

theorem doCollReq_of_late (hl : lateReq (collAt (takeMsg s m) (msgPart m) (hStream m)) (hSeq m)) :
    doCollReq d m s = stale (takeMsg s m) d := by
  refine (collMsg_of_type h hm ht).trans ?_
  extract_lets p n c seq add mine
  exact if_pos (by simpa [lateReq] using hl)

variable (hl : ¬ lateReq (collAt (takeMsg s m) (msgPart m) (hStream m)) (hSeq m))
include hl

theorem doCollReq_of_none (hno : (admittedOps (collAt (takeMsg s m) (msgPart m) (hStream m))).find? (fun o => o.seq == hSeq m) = none) :
    doCollReq d m s = grantAll (waitReq (takeMsg s m) d m) (msgPart m) (hStream m) := by
  refine (collMsg_of_type h hm ht).trans ?_
  extract_lets p n c seq add mine
  refine (if_neg (by simpa [lateReq] using hl)).trans ?_
  rw [show mine = none from hno] <;> rfl

theorem doCollReq_of_some {o : CollOp}
    (ho : (admittedOps (collAt (takeMsg s m) (msgPart m) (hStream m))).find? (fun o => o.seq == hSeq m) = some o) :
    doCollReq d m s = if o.digest = hDigest m then grantAll (waitReq (takeMsg s m) d m) (msgPart m) (hStream m)
      else orderStall (takeMsg s m) (msgPart m) (hStream m) 2 o (hStream m) (hSeq m) := by
  refine (collMsg_of_type h hm ht).trans ?_
  extract_lets p n c seq add mine
  refine (if_neg (by simpa [lateReq] using hl)).trans ?_
  rw [show mine = some o from ho]
  exact ite_not ..

end

/-! ### DATA -/

/-- The chunk that a DATA message names. -/
def hereChunk (m : Bytes) (k : Chunk) : Bool :=
  k.seq == hSeq m && k.src.toNat == msgSrc m && k.pass == hPass m && k.chunk == hChunk m && !k.complete

def swapChunk (m : Bytes) (k : Chunk) (l : List Chunk) : List Chunk := l.map fun x => if hereChunk m x = true then k else x

/-- The chunks granted in a stream. -/
def grantedChunks (c : CollStream) : List Chunk := (match c.run with | some r => r.recv | none => []) ++ c.held

/-- The stream's running collective has the message's number. -/
def runsNow (c : CollStream) (m : Bytes) : Bool := match c.run with | some r => r.op.seq == hSeq m | none => false

/-- A chunk of the running collective as it stands now. -/
def putRunning (t : State) (m : Bytes) (k : Chunk) : State :=
  modCollRun t (msgPart m) (hStream m) fun r => { r with recv := swapChunk m k r.recv, lastMove := t.now }

/-- A held chunk as it stands now. -/
def putHeld (t : State) (m : Bytes) (k : Chunk) : State :=
  modColl t (msgPart m) (hStream m) fun c => { c with held := swapChunk m k c.held }

/-- A chunk of the message's stream as it stands now. -/
def putChunk (t : State) (m : Bytes) (running : Bool) (k : Chunk) : State := if running then putRunning t m k else putHeld t m k

theorem putChunk_true (t : State) (m : Bytes) (k : Chunk) : putChunk t m true k = putRunning t m k := rfl

theorem putChunk_false (t : State) (m : Bytes) (k : Chunk) : putChunk t m false k = putHeld t m k := rfl

/-- The ACK of a chunk, and the RESEND that asks for it once again. -/
def ackChunk (v : State) (m : Bytes) (k : Chunk) : State :=
  answerColl v (msgPart m) (hStream m) 4 k.src.toNat (hSeq m) k.pass k.chunk k.digest

def againChunk (v : State) (m : Bytes) (k : Chunk) : State :=
  answerColl v (msgPart m) (hStream m) 5 k.src.toNat (hSeq m) k.pass k.chunk k.digest

/-- What a fragment does to the chunk it names. -/
def placeData (s t : State) (d : Die) (m : Bytes) (running : Bool) (k : Chunk) : State :=
  if !bitOf (hFrag m) 7 then putChunk t m running k
  else if crc32c k.data = hCrc m ∧ hDigest m = k.digest then
    if running then collOr s (ackChunk (putChunk t m running { k with complete := true }) m k) (msgPart m) (hStream m)
    else ackChunk (putChunk t m running { k with complete := true }) m k
  else if k.fails = 0 then againChunk (putChunk t m running { k with data := [], fails := 1 }) m k
  else checkFailed t (msgPart m) (hStream m) d (hSeq m)

section
variable {d : Die} {running : Bool} {k : Chunk}

theorem placeData_of_more (h : bitOf (hFrag m) 7 = false) : placeData s t d m running k = putChunk t m running k := by
  unfold placeData
  exact if_pos (by rw [h]; rfl)

section
variable (h : bitOf (hFrag m) 7 = true)
include h

theorem placeData_of_sound_running (hok : crc32c k.data = hCrc m ∧ hDigest m = k.digest) : placeData s t d m true k =
    collOr s (ackChunk (putRunning t m { k with complete := true }) m k) (msgPart m) (hStream m) := by
  unfold placeData
  exact (if_neg (by rw [h]; decide)).trans ((if_pos hok).trans (if_pos rfl))

theorem placeData_of_sound_held (hok : crc32c k.data = hCrc m ∧ hDigest m = k.digest) : placeData s t d m false k =
    ackChunk (putHeld t m { k with complete := true }) m k := by
  unfold placeData
  exact (if_neg (by rw [h]; decide)).trans ((if_pos hok).trans (if_neg Bool.false_ne_true))

variable (hno : ¬ (crc32c k.data = hCrc m ∧ hDigest m = k.digest))
include hno

theorem placeData_of_first_fail (hf : k.fails = 0) :
    placeData s t d m running k = againChunk (putChunk t m running { k with data := [], fails := 1 }) m k := by
  unfold placeData
  exact (if_neg (by rw [h]; decide)).trans ((if_neg hno).trans (if_pos hf))

theorem placeData_of_fail (hf : k.fails ≠ 0) : placeData s t d m running k = checkFailed t (msgPart m) (hStream m) d (hSeq m) := by
  unfold placeData
  exact (if_neg (by rw [h]; decide)).trans ((if_neg hno).trans (if_neg hf))

end
end

section
variable {d : Die} (h : msgRefused (takeMsg s m) m 0x10 true = none) (hm : 64 ≤ m.length) (ht : hType m = 3)
include h hm ht

theorem doCollData_of_none (hno : (grantedChunks (collAt (takeMsg s m) (msgPart m) (hStream m))).find? (hereChunk m) = none) :
    doCollData d m s =
      let c := collAt (takeMsg s m) (msgPart m) (hStream m)
      if c.st ≠ .closed ∧ c.st ≠ .failed ∧ (hSeq m = c.nextSeq ∨ seqAhead (hSeq m) c.nextSeq = true) then takeMsg s m else stale (takeMsg s m) d := by
  refine (collMsg_of_type h hm ht).trans ?_
  extract_lets p n c seq here running put
  split
  · rfl
  · next k hk => exact absurd (hk.symm.trans hno) (Option.some_ne_none k)

theorem doCollData_of_some {k : Chunk} (hk : (grantedChunks (collAt (takeMsg s m) (msgPart m) (hStream m))).find? (hereChunk m) = some k) :
    doCollData d m s = placeData s (takeMsg s m) d m (runsNow (collAt (takeMsg s m) (msgPart m) (hStream m)) m) (placeFrag k m) := by
  refine (collMsg_of_type h hm ht).trans ?_
  extract_lets p n c seq here running put
  split
  · next hno => exact absurd (hk.symm.trans hno) (Option.some_ne_none k)
  · next k' hk' =>
    obtain rfl : k = k' := Option.some.inj (hk.symm.trans hk')
    rfl

end

/-! ### An abort -/

section
variable (h : msgRefused (takeMsg s m) m 0 false = none)
include h

theorem doCollAbort_of_sound : doCollAbort m s =
    let t := takeMsg s m
    let e := (msgPayload m).take 64
    let inl := (e.drop 0x28).take 24
    let n := fieldAt inl 0 1
    let p := fieldAt inl 1 1
    let seq := BitVec.ofNat 32 (fieldAt inl 4 4)
    let c := collAt t p n
    let kept := regAddSat (modColl t p n fun c => { c with aborts := c.aborts ++ [(seq, BitVec.ofNat 16 (fieldAt inl 2 2), false)] }) ⟨.collCnt, 0, 0⟩ 0 16 1
    if fieldAt e 0 2 ≠ 0x0032 then t
    else if 64 ≤ n ∨ 16 ≤ p ∨ (c.st ≠ .opened ∧ c.st ≠ .running) then t
    else match c.run with
      | some r => if r.op.seq = seq then collFail (regAddSat t ⟨.collCnt, 0, 0⟩ 0 16 1) p n r.op (BitVec.ofNat 16 (fieldAt inl 2 2)) 0 false
          else if seqAhead seq c.nextSeq = true then kept else t
      | none => if seq = c.nextSeq ∨ seqAhead seq c.nextSeq = true then kept else t := by
  unfold doCollAbort
  exact row_of_sound h

end

/-- Settles O51: each message by the chunk that it names, a stall by the lowest number held. -/
theorem collectivesRunAndMoveChunks : Obligations.CollectivesRunAndMoveChunks := by
  refine ⟨⟨?_, ?_, ?_⟩, ?_, ?_, ?_, ?_, ?_⟩
  · intro s p n c turn
    rw [exec_collectiveStart]
    refine ⟨fun h => by rw [doCollectiveStart_of_none h], fun op chip hrun hop hchip => ⟨fun q st tell hab => ?_, fun a b s1 hab hr => ?_⟩⟩
    · rw [doCollectiveStart_of_aborted hrun hop hchip hab]
    · rw [doCollectiveStart_of_read hrun hop hchip hab hr]
      refine ⟨fun ha => by rw [ha]; rfl, fun hok hw => ?_, fun t ha ht => by rw [ha, startRead, collOr_of_ok ht], fun t ha ht => by rw [ha, startRead, collOr_of_error ht]⟩
      cases a with
      | ok => exact absurd rfl hok
      | wait => exact absurd rfl hw
      | _ => rfl
  · intro s p n c
    rw [exec_collWatchdog]
    refine ⟨fun h => ?_, fun r hr => ?_⟩
    · rw [doCollWatchdog]
      dsimp only
      rw [show (collAt s p.val n.val).run = none from h]
    · rw [doCollWatchdog_of_run hr]
      refine ⟨fun hlt => by rw [if_pos hlt], fun hle => ?_⟩
      rw [if_neg (Nat.not_lt.mpr hle)]
      refine ⟨fun hnil => by rw [show (collAt s p.val n.val).held = [] from hnil]; rfl, fun hne => ?_⟩
      obtain ⟨k, hk, hmin, hlow⟩ := lowestHeld_of_ne_nil (next := c.nextSeq) hne
      exact ⟨k, hk, hmin, by rw [hlow, Option.getD_some]⟩
  · intro s v hw
    refine ⟨_, exec_collStall1Write .., ?_⟩
    obtain ⟨hclear, hvalid, hrest⟩ := logWrite_leaves (s := s) (r := ⟨.collStall1, 0, 0⟩) (v := v.toNat) (hw := hw.toNat) rfl rfl
    exact ⟨fun hv hh => hclear hv (by rw [hh]; rfl), hvalid, hrest⟩
  · intro row hrow s d m
    simp only [List.mem_cons, List.not_mem_nil, or_false] at hrow
    rcases hrow with rfl | rfl | rfl | rfl | rfl
    · exact exec_of_collMsg (exec_collReq ..)
    · exact exec_of_collMsg (exec_collGrant ..)
    · exact exec_of_collMsg (exec_collData ..)
    · exact exec_of_collMsg (exec_collAck ..)
    · exact exec_of_collMsg (exec_collResend ..)
  · intro s d m h hm ht t p n c late mine waits
    rw [exec_collReq]
    refine ⟨fun hl => by rw [doCollReq_of_late h hm ht hl], fun hl hno => by rw [doCollReq_of_none h hm ht hl hno]; rfl,
      fun o hl ho => by rw [doCollReq_of_some h hm ht hl ho]; rfl⟩
  · intro s d m h hm t p n
    refine ⟨fun hno => ⟨fun ht => ?_, fun ht => ?_, fun ht => ?_⟩, fun r c hc => ?_⟩
    · rw [exec_collGrant, doCollGrant, collMsg_of_type h hm ht]
      exact congrArg (fun t => Host.Outcome.next (commit s t)) (answered_of_none hno)
    · rw [exec_collAck, doCollAck, collMsg_of_type h hm ht]
      exact congrArg (fun t => Host.Outcome.next (commit s t)) (answered_of_none hno)
    · rw [exec_collResend, doCollResend, collMsg_of_type h hm ht]
      exact congrArg (fun t => Host.Outcome.next (commit s t)) (answered_of_none hno)
    refine ⟨fun ht hdone => ?_, fun ht hask hgr => ?_, fun u ht hgo => ?_, fun u ht hgo => ?_, fun ht hag => ?_, fun ht hag => ?_⟩
    · rw [exec_collGrant, doCollGrant, collMsg_of_type h hm ht]
      exact congrArg (fun t => Host.Outcome.next (commit s t)) ((answered_of_some hc).trans (if_pos (by simpa using hdone)))
    · rw [exec_collGrant, doCollGrant, collMsg_of_type h hm ht]
      exact congrArg (fun t => Host.Outcome.next (commit s t)) ((answered_of_some hc).trans (if_neg (by simp [hask, hgr])))
    · rw [exec_collAck, doCollAck, collMsg_of_type h hm ht]
      exact congrArg (fun t => Host.Outcome.next (commit s t)) ((answered_of_some hc).trans (collOr_of_ok hgo))
    · rw [exec_collAck, doCollAck, collMsg_of_type h hm ht]
      exact congrArg (fun t => Host.Outcome.next (commit s t)) ((answered_of_some hc).trans (collOr_of_error hgo))
    · rw [exec_collResend, doCollResend, collMsg_of_type h hm ht]
      exact congrArg (fun t => Host.Outcome.next (commit s t)) ((answered_of_some hc).trans (if_pos hag))
    · rw [exec_collResend, doCollResend, collMsg_of_type h hm ht]
      exact congrArg (fun t => Host.Outcome.next (commit s t)) ((answered_of_some hc).trans (if_neg (by simp [hag])))
  · intro s d m h hm ht t p n c here found swap
    rw [exec_collData]
    refine ⟨fun hno => by rw [doCollData_of_none h hm ht hno], fun k0 hk0 => ?_⟩
    rw [doCollData_of_some h hm ht hk0]
    intro k sound
    have hrun : ∀ r, c.run = some r → r.op.seq = hSeq m → runsNow c m = true := fun r hr hs => by simp [runsNow, hr, hs]
    have hidle : (∀ r, c.run = some r → r.op.seq ≠ hSeq m) → runsNow c m = false := fun hr => by
      unfold runsNow
      split
      · next r h => simp [hr r h]
      · rfl
    refine ⟨fun r hr hs => ?_, fun hr => ?_, fun hlast hno hf => ?_⟩
    · rw [hrun r hr hs]
      refine ⟨fun hmore => by rw [placeData_of_more hmore, putChunk_true]; rfl, fun hlast hok => ?_,
        fun hlast hno hf => by rw [placeData_of_first_fail hlast hno hf, putChunk_true]; rfl⟩
      rw [placeData_of_sound_running hlast hok]
      exact ⟨fun u hgo => congrArg (fun t => Host.Outcome.next (commit s t)) (collOr_of_ok hgo),
        fun u hgo => congrArg (fun t => Host.Outcome.next (commit s t)) (collOr_of_error hgo)⟩
    · rw [hidle hr]
      refine ⟨fun hmore => by rw [placeData_of_more hmore, putChunk_false]; rfl, fun hlast hok => by rw [placeData_of_sound_held hlast hok]; rfl,
        fun hlast hno hf => by rw [placeData_of_first_fail hlast hno hf, putChunk_false]; rfl⟩
    · rw [placeData_of_fail hlast hno hf]
  · intro s m t e inl n p st seq c mine count kept
    rw [exec_collAbort]
    refine ⟨fun x h => ?_, fun h hno => ?_, fun h hm => ?_⟩
    · exact congrArg (fun t => Host.Outcome.next (commit s t)) (row_of_refused h)
    · rw [doCollAbort_of_sound h]
      refine congrArg (fun t => Host.Outcome.next (commit s t)) ?_
      by_cases hop : fieldAt e 0 2 ≠ 0x0032
      · exact if_pos hop
      · exact (if_neg hop).trans (if_pos (by
          by_contra hc
          simp only [not_or, not_and, Nat.not_le, ne_eq, not_not] at hc
          exact hno ⟨not_not.mp hop, hc.1, hc.2.1, (em _).imp id hc.2.2⟩))
    · obtain ⟨hop, hn, hp, hst⟩ := hm
      rw [doCollAbort_of_sound h]
      have hbad : ¬ (64 ≤ n ∨ 16 ≤ p ∨ (c.st ≠ .opened ∧ c.st ≠ .running)) := by
        rintro (h | h | ⟨h1, h2⟩)
        · omega
        · omega
        · exact hst.elim h1 h2
      refine ⟨fun r hr => ?_, fun hr => ?_⟩
      · refine congrArg (fun t => Host.Outcome.next (commit s t)) ((if_neg (not_not.mpr hop)).trans ((if_neg hbad).trans ?_))
        rw [show (collAt t p n).run = some r from hr]
      · refine congrArg (fun t => Host.Outcome.next (commit s t)) ((if_neg (not_not.mpr hop)).trans ((if_neg hbad).trans ?_))
        rw [show (collAt t p n).run = none from hr]

end Sys2Proof.Machine
end

section
/-! PROOFS. Checkpoints are set up, taken, drained to the buddy and committed. -/

namespace Sys2Proof.Machine
open Sys2Proof

variable {s s1 : State} {cid n : Nat} {c : Cmd} {p : PartId}

/-! ### Stores -/

/-- A found store of a partition is released, another is no store of it. -/
theorem store_match_eq_ite {α : Type} {o : Option Store} {f : Store → Prop} [∀ t, Decidable (f t)] {x y : α} [Decidable (∃ t ∈ o, f t)] :
    (match o with | some t => if ¬ f t then x else y | none => x) = if ∃ t ∈ o, f t then y else x := by
  cases o with
  | none => exact (if_neg (by simp)).symm
  | some t => by_cases h : f t <;> simp [h]

/-! ### The command of a take -/

theorem doCkptTake_of_cmd (hc : cmdFor s cid 0x0042 = some c) : doCkptTake cid s =
    if 16 ≤ c.byte 0 ∨ (!c.may (c.byte 0)) = true then complete (beginCmd s cid) cid stBadDescriptor
    else if (!zeroAt c.inl 1 7) = true ∨ (!zeroAt c.inl 16 8) = true ∨ (shardOf s (c.byte 0)).isNone = true
        ∨ fieldAt c.inl 8 8 < lastAdmitted s (c.byte 0) then ckComplete (beginCmd s cid) cid (c.byte 0) stBadDescriptor
    else modCmd s cid fun c => { c with started := true } := by
  rw [doCkptTake, hc]

/-! ### The snapshot -/

theorem takeOf_setTake_self (p : Nat) (t : Option Take) : takeOf (setTake s p t) p = t := Tbl.get_put_self ..

/-- What a snapshot that ends well leaves: the take it was begun with, and the pool's length. -/
theorem takeOf_snapshotBody {q : Nat} {t : Take} {sh : Shard} (h : snapshotBody s q t sh n = (.ok, s1)) :
    ∃ u, takeOf s1 q = some u ∧ u.cid = t.cid ∧ u.afterStep = t.afterStep ∧ u.poolLen = n := by
  unfold snapshotBody at h
  extract_lets strata offs total place record live prot u at h
  split at h
  · split at h
    · obtain rfl := congrArg Prod.snd h
      exact ⟨u, takeOf_setTake_self .., rfl, rfl, rfl⟩
    · next x hx => exact absurd h (hx s1)
  · next x hx => exact absurd h (hx s1)

/-- A take that begins: counted, with its step. -/
def takeBegin (s : State) (p : PartId) (c : Cmd) : State :=
  regPut (regSet (setCkpt (beginCmd s c.id) fun k => { k with counter := k.counter + 1 }) ⟨.partCkbytes, 0, p.val⟩ 0) (ckReg p.val) 32 32
    (BitVec.ofNat 64 (fieldAt c.inl 8 8)).toNat

/-- How a take goes on once its snapshot has been made. -/
def takeCopied (s0 : State) (p : PartId) (c : Cmd) : Acc × State → State
  | (.wait, s1) => stillWaits s0 s1
  | (.ok, s) =>
    match takeOf s p.val with
    | none => s
    | some t => match sendCkpt s p.val t true (manifestOf t p.val 1 ++ t.table.flatten) with
      | (some st, _, s) => drainEnd s p.val st
      | (none, tag, s) => setTake s p.val (some { t with tags := [tag] })
  | (a, s) => ckComplete s c.id p.val (collAcc a)

/-- The take that a snapshot begins with. -/
def newTake (s : State) (c : Cmd) (sh : Shard) (chip buddy : Nat) (bs : BuddyStore) (k : Key) : Take :=
  { cid := c.id, afterStep := BitVec.ofNat 64 (fieldAt c.inl 8 8), snapTime := s.now, seq := s.ckpt.counter, keySlot := fieldAt sh.header 1 1,
    keyGen := k.gen, key := k.key, srcChip := chip, buddy := buddy, buddyPart := fieldAt sh.header 3 1, epoch := bs.epoch, slot := bs.slot.val,
    table := manifestTable sh, poolBase := fieldAt sh.header 8 8 }

/-- Bytes of the pool that the copies of a shard take. -/
def strataLen (sh : Shard) : Nat := sumN ((sh.extents.filter fun e => !(isT1 (extAddr e) || isT2 (extAddr e))).map extLen)

/-- A take whose buddy holds a store for it. -/
def takeWith (s0 s : State) (p : PartId) (c : Cmd) (sh : Shard) (chip buddy : Nat) (bs : BuddyStore) : State :=
  if bs.part.val ≠ fieldAt sh.header 3 1 then ckComplete s c.id p.val stBadDescriptor
  else if bs.slotLen < slotSpan (chunkList ((manifestTable sh).map extLen)).length then ckComplete s c.id p.val stNoResource
  else if fieldAt sh.header 0x10 8 < strataLen sh + 4096 ∨ pendingColl s p.val then ckComplete s c.id p.val stBadDescriptor
  else match keyUse s (fieldAt sh.header 1 1) p.val with
    | .error st => ckComplete s c.id p.val st
    | .ok k => takeCopied s0 p c (snapshotBody s p.val (newTake s c sh chip buddy bs k) sh (fieldAt sh.header 0x10 8))

section
variable {b : Option BuddyStore} {sh : Shard} {chip buddy : Nat} {bs : BuddyStore} {s0 : State} {t : Take} {tag : W32}

theorem takeCopied_of_sent (h : takeOf s p.val = some t)
    (hsend : sendCkpt s p.val t true (manifestOf t p.val 1 ++ t.table.flatten) = (none, tag, s1)) :
    takeCopied s0 p c (.ok, s) = setTake s1 p.val (some { t with tags := [tag] }) := by
  rw [takeCopied, h]
  dsimp only
  rw [hsend]

theorem takeCopied_of_refused {st : Status} (h : takeOf s p.val = some t)
    (hsend : sendCkpt s p.val t true (manifestOf t p.val 1 ++ t.table.flatten) = (some st, tag, s1)) :
    takeCopied s0 p c (.ok, s) = drainEnd s1 p.val st := by
  rw [takeCopied, h]
  dsimp only
  rw [hsend]

theorem takeCopied_of_not_ok {a : Acc} (hok : a ≠ .ok) (hw : a ≠ .wait) : takeCopied s0 p c (a, s) = ckComplete s c.id p.val (collAcc a) := by
  cases a with
  | ok => exact absurd rfl hok
  | wait => exact absurd rfl hw
  | _ => rfl

section
variable (hp : bs.part.val = fieldAt sh.header 3 1)
include hp

theorem takeWith_of_small_store (hl : bs.slotLen < slotSpan (chunkList ((manifestTable sh).map extLen)).length) :
    takeWith s0 s p c sh chip buddy bs = ckComplete s c.id p.val stNoResource := by
  unfold takeWith
  exact (if_neg (not_not.mpr hp)).trans (if_pos hl)

variable (hl : ¬ bs.slotLen < slotSpan (chunkList ((manifestTable sh).map extLen)).length)
include hl

theorem takeWith_of_small_pool (h : fieldAt sh.header 0x10 8 < strataLen sh + 4096 ∨ pendingColl s p.val = true) :
    takeWith s0 s p c sh chip buddy bs = ckComplete s c.id p.val stBadDescriptor := by
  unfold takeWith
  exact (if_neg (not_not.mpr hp)).trans ((if_neg hl).trans (if_pos h))

variable (h : ¬ (fieldAt sh.header 0x10 8 < strataLen sh + 4096 ∨ pendingColl s p.val = true))
include h

theorem takeWith_of_no_key {st : Status} (hk : keyUse s (fieldAt sh.header 1 1) p.val = .error st) :
    takeWith s0 s p c sh chip buddy bs = ckComplete s c.id p.val st := by
  unfold takeWith
  refine (if_neg (not_not.mpr hp)).trans ((if_neg hl).trans ((if_neg h).trans ?_))
  rw [hk]

theorem takeWith_of_key {k : Key} (hk : keyUse s (fieldAt sh.header 1 1) p.val = .ok k) : takeWith s0 s p c sh chip buddy bs =
    takeCopied s0 p c (snapshotBody s p.val (newTake s c sh chip buddy bs k) sh (fieldAt sh.header 0x10 8)) := by
  unfold takeWith
  refine (if_neg (not_not.mpr hp)).trans ((if_neg hl).trans ((if_neg h).trans ?_))
  rw [hk]

end

theorem doSnapshot_of_none (h : dueTake s p.val = none) : doSnapshot p b s = s := by rw [doSnapshot, h]

/-- A command's NOT_AFTER has passed. -/
theorem expired_iff (o : Option Nat) (t : Nat) : (match o with | some x => decide (x < t) | none => false) = true ↔ ∃ x, o = some x ∧ x < t := by
  cases o <;> simp

variable (hdue : dueTake s p.val = some c)
include hdue

theorem doSnapshot_of_expired (h : ∃ x, c.notAfter = some x ∧ x < s.now) : doSnapshot p b s = ckComplete s c.id p.val stExpired := by
  rw [doSnapshot, hdue]
  exact if_pos ((expired_iff ..).mpr h)

variable (h : ¬ ∃ x, c.notAfter = some x ∧ x < s.now)
include h

theorem doSnapshot_of_no_shard (hno : shardOf (takeBegin s p c) p.val = none ∨ ownChip (takeBegin s p c) = none) :
    doSnapshot p b s = ckComplete (takeBegin s p c) c.id p.val stBadDescriptor := by
  rw [doSnapshot, hdue]
  refine (if_neg (mt (expired_iff ..).mp h)).trans ?_
  extract_lets s1 s2 after s3 fail
  split
  · next sh chip hsh hchip => exact (hno.elim (fun h => nomatch hsh.symm.trans h) fun h => nomatch hchip.symm.trans h)
  · rfl

variable (hsh : shardOf (takeBegin s p c) p.val = some sh) (hchip : ownChip (takeBegin s p c) = some chip)
include hsh hchip

theorem doSnapshot_of_no_buddy (hno : buddyChip (takeBegin s p c) sh = none) :
    doSnapshot p b s = ckComplete (takeBegin s p c) c.id p.val stBadDescriptor := by
  rw [doSnapshot, hdue]
  refine (if_neg (mt (expired_iff ..).mp h)).trans ?_
  extract_lets s1 s2 after s3 fail
  rw [show shardOf s3 p.val = some sh from hsh, show ownChip s3 = some chip from hchip]
  dsimp only
  rw [show buddyChip s3 sh = none from hno]
  rfl

variable (hbuddy : buddyChip (takeBegin s p c) sh = some buddy)
include hbuddy

theorem doSnapshot_of_no_store (hno : buddyInfo (takeBegin s p c) chip p.val buddy b = none) :
    doSnapshot p b s = ckComplete (takeBegin s p c) c.id p.val stBadDescriptor := by
  rw [doSnapshot, hdue]
  refine (if_neg (mt (expired_iff ..).mp h)).trans ?_
  extract_lets s1 s2 after s3 fail
  rw [show shardOf s3 p.val = some sh from hsh, show ownChip s3 = some chip from hchip]
  dsimp only
  rw [show buddyChip s3 sh = some buddy from hbuddy]
  dsimp only
  rw [show buddyInfo s3 chip p.val buddy b = none from hno]
  rfl

theorem doSnapshot_of_store (hbs : buddyInfo (takeBegin s p c) chip p.val buddy b = some bs) :
    doSnapshot p b s = takeWith s (takeBegin s p c) p c sh chip buddy bs := by
  rw [doSnapshot, hdue]
  refine (if_neg (mt (expired_iff ..).mp h)).trans ?_
  extract_lets s1 s2 after s3 fail
  rw [show shardOf s3 p.val = some sh from hsh, show ownChip s3 = some chip from hchip]
  dsimp only
  rw [show buddyChip s3 sh = some buddy from hbuddy]
  dsimp only
  rw [show buddyInfo s3 chip p.val buddy b = some bs from hbs]
  refine if_congr Iff.rfl rfl (if_congr Iff.rfl rfl (if_congr Iff.rfl rfl ?_))
  rfl

end

/-! ### The drain -/

/-- Units of an extent that a chunk reads as they stand. -/
def chunkUnits (x : Nat × Nat × Bool) (off n : Nat) : List Nat :=
  if x.2.2 then (List.range (n / 2048)).map fun i => x.1 + off + 2048 * i else []

/-- A take whose chunk has been read: its units need no protection any more. -/
def takeRead (t : Take) (us : List Nat) : Take :=
  { t with prot := us.foldl (fun m u => Tbl.put false m u false) t.prot, pool := us.foldl (fun m u => Tbl.put 0 m u 0) t.pool }

/-- How a chunk goes on once it has been read. -/
def chunkRead (s0 : State) (p : PartId) (t0 t : Take) (c d e off n : Nat) : Acc × Bytes × State → State
  | (.wait, _, _) => s0
  | (.ok, b, s) =>
    match sendCkpt s p.val t false (chunkRecord t c e off b) (chunkPrio t0 c) with
    | (some st, _, s) => drainEnd s p.val st
    | (none, tag, s) =>
      regAddWrap (setTake (bindKey s d t.keySlot) p.val (some { t with tags := t.tags ++ [tag] })) ⟨.partCkbytes, 0, p.val⟩ 0 64 (48 + n)
  | (a, _, s) => drainEnd s p.val (collAcc a)

section
variable {t0 t : Take} {k d : Nat}

section
variable {b : Bytes} {s0 : State} {tag : W32} {e off : Nat}

theorem chunkRead_of_sent (h : sendCkpt s p.val t false (chunkRecord t k e off b) (chunkPrio t0 k) = (none, tag, s1)) :
    chunkRead s0 p t0 t k d e off n (.ok, b, s) = regAddWrap (setTake (bindKey s1 d t.keySlot) p.val (some { t with tags := t.tags ++ [tag] }))
      ⟨.partCkbytes, 0, p.val⟩ 0 64 (48 + n) := by
  rw [chunkRead, h]

theorem chunkRead_of_refused {st : Status} (h : sendCkpt s p.val t false (chunkRecord t k e off b) (chunkPrio t0 k) = (some st, tag, s1)) :
    chunkRead s0 p t0 t k d e off n (.ok, b, s) = drainEnd s1 p.val st := by
  rw [chunkRead, h]

end

theorem doDrainChunk_of_none (h : takeOf s p.val = none) : doDrainChunk p s = s := by rw [doDrainChunk, h]

variable (h : takeOf s p.val = some t0)
include h

theorem doDrainChunk_of_idle (hno : nextChunk t0 = none ∨ drainEngine s p.val = none) : doDrainChunk p s = s := by
  rw [doDrainChunk, h]
  dsimp only
  rcases hno with hn | hn
  · rw [hn]
  · rw [hn]
    cases nextChunk t0 <;> rfl

variable (hk : nextChunk t0 = some (k, t)) (hd : drainEngine s p.val = some d)
include hk hd

theorem doDrainChunk_of_no_chunk (hno : (chunkList (t.table.map extLen))[k]? = none) : doDrainChunk p s = s := by
  rw [doDrainChunk, h]
  dsimp only
  rw [hk, hd]
  dsimp only
  rw [hno]

theorem doDrainChunk_of_chunk {e off : Nat} (hc : (chunkList (t.table.map extLen))[k]? = some (e, off, n)) :
    doDrainChunk p s = chunkRead s p t0 (takeRead t (chunkUnits (nth (0, 0, false) t.extents e) off n)) k d e off n
      (drainRead s t ((nth (0, 0, false) t.extents e).1 + off) n (nth (0, 0, false) t.extents e).2.2) := by
  rw [doDrainChunk, h]
  dsimp only
  rw [hk, hd]
  dsimp only
  rw [hc]
  dsimp only
  cases drainRead s t ((nth (0, 0, false) t.extents e).1 + off) n (nth (0, 0, false) t.extents e).2.2 with
  | mk a y =>
    cases a with
    | ok => rfl
    | wait => rfl
    | _ => rfl

end

theorem bindKey_binds {d k : Nat} {y : Key} (h : (slotAt s k).current = some y) : (bindKey s d k).sec.ops = s.sec.ops ++ [(d, k, y.gen)]
    ∧ (slotAt (bindKey s d k) k).current = some { y with bound := y.bound + 1 } := by
  unfold bindKey
  rw [h]
  refine ⟨rfl, ?_⟩
  rw [slotAt_modSlot, if_pos rfl]
  exact congrArg (Option.map _) h

theorem room_of_drainEngine {q d : Nat} (h : drainEngine s q = some d) : (s.sec.ops.filter fun e => e.1 == d).length < 32 := by
  simpa [engineRoom] using List.find?_some h

/-! ### The commit -/

section
variable {chip : BitVec 15} {part : PartId} {t : Store} {k : Nat}

theorem drainCommit_buddy_of_none (h : findStore s chip.toNat part.val = none) : doDrainCommit (.buddy chip part) s = s := by
  rw [doDrainCommit, h]

variable (h : findStore s chip.toNat part.val = some t)
include h

theorem drainCommit_buddy_of_idle (hno : t.writing = none) : doDrainCommit (.buddy chip part) s = s := by
  rw [doDrainCommit]
  split
  · rfl
  · next u hu =>
    obtain rfl : t = u := Option.some.inj (h.symm.trans hu)
    rw [hno]

theorem drainCommit_buddy_of_part (hk : t.writing = some k) (hlt : t.got < leNat (memBytes s (storeSlot t k + 0x20) 8)) :
    doDrainCommit (.buddy chip part) s = s := by
  rw [doDrainCommit]
  split
  · rfl
  · next u hu =>
    obtain rfl : t = u := Option.some.inj (h.symm.trans hu)
    rw [hk]
    exact if_pos hlt

theorem drainCommit_buddy_of_whole {a : Acc} (hk : t.writing = some k) (hall : ¬ t.got < leNat (memBytes s (storeSlot t k + 0x20) 8))
    (hw : writeMem s .device (storeSlot t k + 7) [2] 3 = (a, s1)) :
    doDrainCommit (.buddy chip part) s = if a = .ok then setStore s1 { t with writing := none, got := 0 } else s := by
  rw [doDrainCommit]
  split
  · next hno => exact nomatch h.symm.trans hno
  · next u hu =>
    obtain rfl : t = u := Option.some.inj (h.symm.trans hu)
    rw [hk]
    refine (if_neg hall).trans ?_
    rw [hw]

end

/-! The source's commit. -/

section
variable {t : Take}

/-- The store of a take's shard stands on this module and is being written. -/
def bothHere (s : State) (p : PartId) (t : Take) : Prop :=
  ownChip s = some t.buddy ∧ ∃ x, findStore s t.srcChip p.val = some x ∧ x.writing.isSome = true

theorem bothHere_iff (s : State) (p : PartId) (t : Take) : (decide (ownChip s = some t.buddy)
    && (match findStore s t.srcChip p.val with | some x => x.writing.isSome | none => false)) = true ↔ bothHere s p t := by
  rw [bothHere, Bool.and_eq_true, decide_eq_true_eq]
  cases findStore s t.srcChip p.val <;> simp

theorem drainCommit_source_of_none (h : takeOf s p.val = none) : doDrainCommit (.source p) s = s := by rw [doDrainCommit, h]

variable (h : takeOf s p.val = some t)
include h

theorem drainCommit_source_of_waits (hw : drained t = false ∨ bothHere s p t) : doDrainCommit (.source p) s = s := by
  rw [doDrainCommit, h]
  exact if_pos (hw.imp (fun hd => by rw [hd]; rfl) (bothHere_iff ..).mpr)

theorem drainCommit_source_of_drained (hd : drained t = true) (hw : ¬ bothHere s p t) :
    doDrainCommit (.source p) s = ckEnd (complete (setTake
      (regSet (regPut (regPut s (ckReg p.val) 5 1 1) (ckReg p.val) 4 1 t.slot) ⟨.partCkseq, 0, p.val⟩ t.seq.toNat) p.val none)
      t.cid stOk) p.val (endStatus s t.cid stOk) := by
  rw [doDrainCommit, h]
  refine if_neg (not_or.mpr ⟨?_, mt (bothHere_iff ..).mp hw⟩)
  rw [hd]
  decide

end

/-- Settles O52: a take by its checks in order, and a chunk by how it is read and sent. -/
theorem checkpointsAreTakenDrainedAndCommitted : Obligations.CheckpointsAreTakenDrainedAndCommitted := by
  refine ⟨⟨?_, ?_, ?_⟩, ⟨fun s p b h => ?_, ?_, fun s s1 p t sh n h => takeOf_snapshotBody h⟩, ?_, fun s d k y h => bindKey_binds h,
    fun s p d h => room_of_drainEngine h, ?_, ?_⟩
  · intro s cid c hc
    rw [exec_ckptShard]
    refine ⟨fun h => next_of_not_rest (g := fun c => atRest s c (cmdPart s c)) h hc, fun h => ?_⟩
    refine (next_of_ready (g := fun c => atRest s c (cmdPart s c)) h hc).trans (congrArg (fun t => Host.Outcome.next (commit s t)) ?_)
    refine congrArg (withPayload (beginCmd s cid) c 64) (funext₂ fun t b => ?_)
    refine (ite_not ..).symm.trans (if_congr (by simp) rfl rfl)
  · intro s cid c hc
    rw [exec_ckptStore]
    refine ⟨fun h => next_of_not_rest (g := fun c => atRest s c (cmdPart s c)) h hc, fun h => ?_⟩
    refine (next_of_ready (g := fun c => atRest s c (cmdPart s c)) h hc).trans (congrArg (fun t => Host.Outcome.next (commit s t)) ?_)
    refine congrArg (withPayload (beginCmd s cid) c 32) (funext₂ fun t b => ?_)
    refine if_congr (by simp) rfl (if_congr Iff.rfl ?_ (if_congr (by simp) rfl (if_congr (by rw [Option.isSome_iff_ne_none]) rfl rfl)))
    exact store_match_eq_ite
  · intro s cid c hc p bad
    rw [exec_ckptTake, doCkptTake_of_cmd hc]
    refine ⟨fun h => ?_, fun hp hm h => ?_, fun hp hm h => ?_⟩
    · rw [if_pos (by simpa using h)]
    · rw [if_neg (by simp [p] at hm hp; simp [hm, hp]), if_pos (by simpa [bad] using h)]
    · rw [if_neg (by simp [p] at hm hp; simp [hm, hp]), if_neg (by simpa [bad] using h)]
  · rw [exec_snapshot, doSnapshot_of_none h]
  · intro s p b c hdue expired
    rw [exec_snapshot]
    refine ⟨fun h => by rw [doSnapshot_of_expired hdue h], fun h s1 hs1 => ?_⟩
    obtain rfl : s1 = takeBegin s p c := hs1
    intro fails
    refine ⟨fun hno => congrArg (fun t => Host.Outcome.next (commit s t)) (doSnapshot_of_no_shard hdue h hno), fun sh chip hsh hchip =>
      ⟨fun hno => congrArg (fun t => Host.Outcome.next (commit s t)) (doSnapshot_of_no_buddy hdue h hsh hchip hno), fun buddy hbuddy => ?_⟩⟩
    intro strata poolLen need
    refine ⟨fun hno => congrArg (fun t => Host.Outcome.next (commit s t)) (doSnapshot_of_no_store hdue h hsh hchip hbuddy hno), fun bs hbs => ?_⟩
    have hgo := doSnapshot_of_store hdue h hsh hchip hbuddy hbs
    refine ⟨fun hp => congrArg (fun t => Host.Outcome.next (commit s t)) (hgo.trans (if_pos hp)), fun hp hl => ?_, fun hp hl hpool => ?_,
      fun hp hl hpool hcoll => ?_⟩
    · exact congrArg (fun t => Host.Outcome.next (commit s t)) (hgo.trans (takeWith_of_small_store hp hl))
    · exact congrArg (fun t => Host.Outcome.next (commit s t)) (hgo.trans (takeWith_of_small_pool hp (Nat.not_lt.mpr hl) hpool))
    have hroom : ¬ (fieldAt sh.header 0x10 8 < strataLen sh + 4096 ∨ pendingColl (takeBegin s p c) p.val = true) := by
      rintro (hlt | hc)
      · exact Nat.not_lt.mpr hpool hlt
      · exact absurd (hcoll.symm.trans hc) Bool.false_ne_true
    refine ⟨fun st hst => ?_, fun k a s2 hk hbody => ?_⟩
    · exact congrArg (fun t => Host.Outcome.next (commit s t)) (hgo.trans (takeWith_of_no_key hp (Nat.not_lt.mpr hl) hroom hst))
    rw [hgo, takeWith_of_key hp (Nat.not_lt.mpr hl) hroom hk,
      show snapshotBody (takeBegin s p c) p.val (newTake (takeBegin s p c) c sh chip buddy bs k) sh (fieldAt sh.header 0x10 8) = (a, s2) from hbody]
    refine ⟨fun ha => by rw [ha]; rfl, fun hok hw => by rw [takeCopied_of_not_ok hok hw], fun t ha ht => ?_⟩
    rw [ha]
    exact ⟨fun tag s3 hsend => by rw [takeCopied_of_sent ht hsend], fun st tag s3 hsend => by rw [takeCopied_of_refused ht hsend]⟩
  · intro s p
    rw [exec_drainChunk]
    refine ⟨fun h => by rw [doDrainChunk_of_none h], fun t0 h => ⟨fun hno => by rw [doDrainChunk_of_idle h hno], fun c t d hc hd => ?_⟩⟩
    refine ⟨fun hno => by rw [doDrainChunk_of_no_chunk h hc hd hno], fun e off n x a b s1 he hx hr => ?_⟩
    subst hx
    rw [doDrainChunk_of_chunk h hc hd he, hr]
    intro units t1
    refine ⟨fun ha => by rw [ha]; rfl, fun hok hw => ?_, fun tag s2 ha hsend => ?_, fun st tag s2 ha hsend => ?_⟩
    · cases a with
      | ok => exact absurd rfl hok
      | wait => exact absurd rfl hw
      | _ => rfl
    · rw [ha]
      exact congrArg (fun t => Host.Outcome.next (commit s t)) (chunkRead_of_sent hsend)
    · rw [ha]
      exact congrArg (fun t => Host.Outcome.next (commit s t)) (chunkRead_of_refused hsend)
  · intro s chip part
    rw [exec_drainCommit]
    refine ⟨fun h => by rw [drainCommit_buddy_of_none h], fun t h => ⟨fun hno => by rw [drainCommit_buddy_of_idle h hno], fun k hk => ?_⟩⟩
    exact ⟨fun hno => by rw [drainCommit_buddy_of_part h hk (Nat.not_le.mp hno)],
      fun a s1 hall hw => by rw [drainCommit_buddy_of_whole h hk (Nat.not_lt.mpr hall) hw]⟩
  · intro s p
    rw [exec_drainCommit]
    exact ⟨fun h => by rw [drainCommit_source_of_none h], fun t h => ⟨fun hw => by rw [drainCommit_source_of_waits h hw],
      fun hd hw => by rw [drainCommit_source_of_drained h hd hw]⟩⟩

end Sys2Proof.Machine
end

section
/-! PROOFS. Restores and takeovers. -/

namespace Sys2Proof.Machine
open Sys2Proof

variable {s : State} {cid : Nat} {c : Cmd} {held : List RemoteStore}

/-! ### The chunks of a restore -/

/-- A sequence of accesses whose first does not end well ends as that one. -/
theorem accAll_of_stop {α : Type} {f : State → α → Acc × State} {x : α} {l : List α} {y : Acc × State} (hx : f s x = y) (hy : y.1 ≠ .ok) :
    accAll (x :: l) s f = y := by
  have hstop : l.foldl (fun acc x => match acc.1 with | .ok => f acc.2 x | _ => acc) y = y := by
    clear hx
    obtain ⟨a, u⟩ := y
    induction l with
    | nil => rfl
    | cons z l ih =>
      rw [List.foldl_cons]
      cases a with
      | ok => exact absurd rfl hy
      | wait => exact ih
      | fail st => exact ih
      | bounds => exact ih
      | replay => exact ih
  subst hx
  exact hstop

theorem accAll_single {α : Type} (f : State → α → Acc × State) (x : α) : accAll [x] s f = f s x := rfl

section
variable {p : Nat} {key : Bytes} {rs : List RestoreRange} {w : (SlotBytes × Nat × Nat × Nat) × List RestoreRange}

theorem restoreGo_of_nil (h : restoreWork rs = []) : restoreGo p key s rs = (.ok, s) := by rw [restoreGo, h]; rfl

theorem restoreGo_of_bad_chunk {more : List ((SlotBytes × Nat × Nat × Nat) × List RestoreRange)} (h : restoreWork rs = w :: more)
    (hopen : openChunk w.1.1 key w.1.2.1 = none) : restoreGo p key s rs = (.fail stAuthFail, s) := by
  rw [restoreGo, h]
  refine accAll_of_stop ?_ (by simp)
  dsimp only
  rw [hopen]

end

/-! ### The ends of a restore -/

theorem restoreEnd_of_not_ok {s0 : State} {p after : Nat} {set : Bool} {a : Acc} (hok : a ≠ .ok) (hw : a ≠ .wait) :
    restoreEnd s0 s cid p after set a = ckComplete s cid p (collAcc a) := by
  cases a with
  | ok => exact absurd rfl hok
  | wait => exact absurd rfl hw
  | _ => rfl

/-! ### The takeover's payload -/

section
variable {x : Acc × Bytes × State} {f : Bytes → Prop} [DecidablePred f] {k e : State}

/-- A takeover by how its payload is read: an access that did not end well, a step that runs, or none. -/
theorem payload_match_of_not_ok : x.1 ≠ .ok → (match x with | (.ok, b, _) => if f b then s else k | _ => e) = e := by
  obtain ⟨a, b, t⟩ := x
  intro h
  cases a with
  | ok => exact absurd rfl h
  | wait => rfl
  | _ => rfl

theorem payload_match_of_run : x.1 = .ok → f x.2.1 → (match x with | (.ok, b, _) => if f b then s else k | _ => e) = s := by
  obtain ⟨a, b, t⟩ := x
  rintro rfl hf
  exact if_pos hf

theorem payload_match_of_idle : x.1 = .ok → ¬ f x.2.1 → (match x with | (.ok, b, _) => if f b then s else k | _ => e) = k := by
  obtain ⟨a, b, t⟩ := x
  rintro rfl hf
  exact if_neg hf

end

theorem any_isNone_iff {α : Type} (l : List (Option α)) : l.any (·.isNone) = true ↔ ∃ e ∈ l, e = none := by simp

/-- A range that may not be written. -/
theorem any_unwritable_iff (v : State) (p : Nat) (rs : List RestoreRange) :
    (rs.any fun r => !(r.setStep && r.dst == 0) && !canWrite v (.step p) r.dst r.len) = true
      ↔ ∃ r ∈ rs, ¬ (r.setStep = true ∧ r.dst = 0) ∧ canWrite v (.step p) r.dst r.len = false := by
  simp [List.any_eq_true, imp_iff_not_or]

theorem not_all_regions_iff (v : State) (p : Nat) (es : List Bytes) :
    (!(es.all fun e => extKind e == 5 || inPartRegion v p (extAddr e) (extLen e))) = true
      ↔ ∃ e ∈ es, extKind e ≠ 5 ∧ inPartRegion v p (extAddr e) (extLen e) = false := by
  simp

/-- Settles O53: a restore by its checks and its chunks, a takeover by how its payload is read. -/
theorem restoresAndTakeovers : Obligations.RestoresAndTakeovers := by
  refine ⟨?_, ?_, fun s0 s cid p after set a => ⟨rfl, rfl, restoreEnd_of_not_ok⟩, fun p key s rs => ⟨restoreGo_of_nil, fun w more h => ?_, fun w h => ?_⟩⟩
  · intro s cid held c hc
    rw [exec_ckptRestore]
    refine ⟨fun h => next_of_not_rest (g := fun c => atRest s c (cmdPart s c)) h hc, fun h => ?_⟩
    refine (next_of_ready (g := fun c => atRest s c (cmdPart s c)) h hc).trans (congrArg (fun t => Host.Outcome.next (commit s t)) ?_)
    refine congrArg (withPayload (beginCmd s cid) c 48) (funext₂ fun t b => ?_)
    extract_lets p n after v es rs
    refine if_congr (by simp) rfl (if_congr (by simp) rfl ?_)
    cases keyUse v (fieldAt b 1 1) p with
    | error st => rfl
    | ok k => exact (if_congr (any_isNone_iff es) rfl (if_congr (any_unwritable_iff ..) rfl rfl)).trans (ite_or ..).symm
  · intro s cid held c hc
    rw [exec_axolotlTakeover]
    rw [doAxolotlTakeover, hc]
    refine ⟨fun h => congrArg (fun t => Host.Outcome.next (commit s t)) (payload_match_of_not_ok h),
      fun h hrun => congrArg (fun t => Host.Outcome.next (commit s t)) (payload_match_of_run h (Option.isSome_iff_ne_none.mpr hrun)),
      fun h hrun => congrArg (fun t => Host.Outcome.next (commit s t)) ((payload_match_of_idle h (by rw [hrun]; decide)).trans ?_)⟩
    refine congrArg (withPayload (beginCmd s cid) c 32) (funext₂ fun t b => ?_)
    extract_lets failed holder sp p after gen stands v
    refine if_congr (by simp) rfl (if_congr (by simp [holder, sp]) rfl (if_congr (by simp [stands]) rfl ?_))
    cases keyUse v (fieldAt b 6 1) p with
    | error st => rfl
    | ok k =>
      cases findSlot v held holder failed sp after with
      | none => rfl
      | some slot => exact if_congr (not_all_regions_iff ..) rfl rfl
  · cases hopen : openChunk w.1.1 key w.1.2.1 with
    | some b => exact .inl rfl
    | none => exact .inr (restoreGo_of_bad_chunk h hopen)
  · rw [restoreGo, h]
    rfl

end Sys2Proof.Machine
end

section
/-! PROOFS. Ingest pipelines open, are fed, and close. -/

namespace Sys2Proof.Machine
open Sys2Proof

variable {s : State} {cid n : Nat} {c : Cmd} {p : PipeId}

/-! ### What an accepted descriptor says -/

theorem bounds_of_pipeOk {b : Bytes} (h : pipeOk s b = true) : fieldAt b 0 1 < 32 ∧ (pipeAt s (fieldAt b 0 1)).st = .closed
    ∧ partLives s (fieldAt b 1 1) = true ∧ 2048 ≤ pdSlotLen b ∧ pdSlotLen b % 2048 = 0 ∧ 1 ≤ pdSlots b ∧ pdSlots b ≤ 65536 := by
  unfold pipeOk at h
  simp only [Bool.and_eq_true, decide_eq_true_eq, beq_iff_eq, and_assoc] at h
  obtain ⟨hn, hp, -, -, -, -, -, -, -, -, -, -, h1, hmax, hmul, hmin, -, -, -, -, -, -, hst, -⟩ := h
  exact ⟨hn, hst, hp, hmin, hmul, h1, hmax⟩

/-! ### Closing -/

@[simp] theorem pipeAt_dropCtxs (f : VidCtx → Bool) (k : Nat) : pipeAt (dropCtxs s f) k = pipeAt s k := rfl

/-- What closing keeps of a pipeline's slots: those taken as they are, those whose locket is owed as given back. -/
def slotsKept (x : Pipe) : List SlotUse :=
  (x.slots.filter fun u => u.taken || u.locketOwed).map fun u => if u.taken then u else { u with given := true }

theorem pipeAt_closePipe (s : State) (n : Nat) (cid : Option Nat) : pipeAt (closePipe s n cid) n =
    { pipeAt s n with st := .closing, closeCid := cid, entries := [], sealed_ := [], parse := [], current := none, samples := [], ready := [], slots := slotsKept (pipeAt s n) } := by
  rw [closePipe, pipeAt_modPipe, if_pos rfl]
  rfl

theorem mem_slotsKept_of_taken {x : Pipe} {u : SlotUse} (hu : u ∈ x.slots) (ht : u.taken = true) : u ∈ slotsKept x :=
  List.mem_map.mpr ⟨u, List.mem_filter.mpr ⟨hu, by rw [ht]; rfl⟩, if_pos ht⟩

theorem slotsKept_taken_or_owed {x : Pipe} {u : SlotUse} (hu : u ∈ slotsKept x) : u.taken = true ∨ (u.locketOwed = true ∧ u.given = true) := by
  obtain ⟨v, hv, rfl⟩ := List.mem_map.mp hu
  obtain ⟨-, hv⟩ := List.mem_filter.mp hv
  by_cases ht : v.taken = true
  · exact .inl (by rw [if_pos ht]; exact ht)
  · rw [if_neg ht]
    exact .inr ⟨(Bool.or_eq_true_iff.mp hv).resolve_left ht, rfl⟩

theorem doIngCloseComplete_of_waits (h : (pipeAt s p.val).st ≠ .closing ∨ (pipeAt s p.val).locketDue ≠ []) : doIngCloseComplete p s = s := by
  unfold doIngCloseComplete
  exact if_pos (h.imp id fun h => by simpa using h)

theorem doIngCloseComplete_of_done {o : Option Nat} (hst : (pipeAt s p.val).st = .closing) (hdue : (pipeAt s p.val).locketDue = []) :
    (pipeAt s p.val).closeCid = o → doIngCloseComplete p s =
      match o with
      | some cid => complete (modPipe s p.val fun x => { x with st := .closed, closeCid := none }) cid stOk
      | none => modPipe s p.val fun x => { x with st := .closed, closeCid := none } := by
  rintro rfl
  unfold doIngCloseComplete
  exact if_neg (by rw [hst, hdue]; decide)

/-- Settles O54: each command by its checks, closing by the slots that it keeps. -/
theorem pipelinesOpenFeedAndClose : Obligations.PipelinesOpenFeedAndClose := by
  refine ⟨?_, fun s b h => bounds_of_pipeOk h, ?_, ?_, fun s n cid => ?_, fun s p => ?_⟩
  · intro s cid c hc
    rw [exec_ingOpen]
    refine ⟨fun h => next_of_not_rest (g := fun c => atRest s c (cmdPart s c)) h hc, fun h => ?_⟩
    refine (next_of_ready (g := fun c => atRest s c (cmdPart s c)) h hc).trans (congrArg (fun t => Host.Outcome.next (commit s t)) ?_)
    refine congrArg (withPayload (beginCmd s cid) c 80) (funext₂ fun t b => ?_)
    exact if_congr (by simp) rfl (if_congr (by simp) rfl rfl)
  · intro s cid c hc
    rw [exec_ingFeed]
    refine (next_of_cmd hc).trans (congrArg (fun t => Host.Outcome.next (commit s t)) ?_)
    refine congrArg (withPayload (beginCmd s cid) c 32) (funext₂ fun t b => ?_)
    exact if_congr (by simp) rfl rfl
  · intro s cid c hc x
    rw [exec_ingClose]
    refine ⟨fun h => next_of_not_rest (g := fun c => atRest s c (cmdPart s c)) h hc, fun h hn hst hm => ?_, fun h hbad => ?_⟩
    · refine (next_of_ready (g := fun c => atRest s c (cmdPart s c)) h hc).trans (congrArg (fun t => Host.Outcome.next (commit s t)) ?_)
      refine if_neg ?_
      rintro (h | h | h)
      · omega
      · exact h hst
      · exact absurd hm (by simpa using h)
    · refine (next_of_ready (g := fun c => atRest s c (cmdPart s c)) h hc).trans (congrArg (fun t => Host.Outcome.next (commit s t)) ?_)
      exact if_pos (hbad.imp id (Or.imp id fun h => by rw [show c.may (pipeAt s (c.byte 0)).part.val = false from h]; rfl))
  · rw [pipeAt_closePipe]
    exact ⟨rfl, rfl, rfl, rfl, rfl, rfl, rfl, rfl, rfl, fun u hu ht => mem_slotsKept_of_taken hu ht, fun u hu => slotsKept_taken_or_owed hu⟩
  · intro t
    rw [exec_ingCloseComplete]
    exact ⟨fun h => by rw [doIngCloseComplete_of_waits h], fun hst hdue ho => by rw [doIngCloseComplete_of_done hst hdue ho],
      fun cid hst hdue ho => by rw [doIngCloseComplete_of_done hst hdue ho]⟩

end Sys2Proof.Machine
end

section
/-! PROOFS. Dictionaries load, and videos are encoded. -/

namespace Sys2Proof.Machine
open Sys2Proof

variable {s : State} {cid : Nat} {c : Cmd} {v : PairId} {stream : Bytes}

/-! ### What an accepted encode says -/

theorem bounds_of_encOk {b : Bytes} (h : encOk s b = true) : b.length = 64 ∧ 2 ≤ fieldAt b 0 1 ∧ fieldAt b 0 1 ≤ 4
    ∧ 16 ≤ fieldAt b 4 2 ∧ fieldAt b 4 2 ≤ 7680 ∧ fieldAt b 4 2 % 2 = 0 ∧ 16 ≤ fieldAt b 6 2 ∧ fieldAt b 6 2 ≤ 4320
    ∧ fieldAt b 6 2 % 2 = 0 ∧ 1 ≤ fieldAt b 8 4 ∧ (partPairs s (fieldAt b 0x2A 1)).contains (fieldAt b 3 1) = true := by
  unfold encOk at h
  simp only [Bool.and_eq_true, decide_eq_true_eq, beq_iff_eq, and_assoc] at h
  obtain ⟨hlen, hc2, hc4, -, -, -, hw16, hwmax, hw2, hh16, hhmax, hh2, hcount, -, -, -, -, hpair, -⟩ := h
  exact ⟨hlen, hc2, hc4, hw16, hwmax, hw2, hh16, hhmax, hh2, hcount, hpair⟩

/-! ### The encode that a pair is at -/

/-- The encode of a context that may have begun a frame. -/
theorem encode_of_ctx {o : Option VidCtx} {k k' cid : Nat} {b : Bytes} (h : (match o with
      | some c => match c.cid with
        | some cid => if c.frame = false then none else (cmdAt s cid).map fun x => (k', cid, x.payBytes.getD [])
        | none => none
      | none => none) = some (k, cid, b)) : k' = k ∧ ∃ x, o = some x ∧ x.cid = some cid ∧ x.frame = true := by
  split at h
  · next x =>
    split at h
    · next cid' hcid =>
      split at h
      · exact nomatch h
      · next hf =>
        obtain ⟨y, -, hy⟩ := Option.map_eq_some_iff.mp h
        simp only [Prod.mk.injEq] at hy
        exact ⟨hy.1, x, rfl, by rw [hcid, hy.2.1], Bool.eq_true_of_not_eq_false hf⟩
    · exact nomatch h
  · exact nomatch h

theorem ctx_of_encodeAt {v k cid : Nat} {b : Bytes} (h : encodeAt s v = some (k, cid, b)) :
    k < 64 ∧ ∃ x, Tbl.get none s.ing.ctxs (64 * v + k) = some x ∧ x.cid = some cid ∧ x.frame = true := by
  obtain ⟨k', hk', hctx⟩ := List.exists_of_findSome?_eq_some h
  obtain ⟨rfl, hx⟩ := encode_of_ctx hctx
  exact ⟨List.mem_range.mp hk', hx⟩

/-- The state when an encode has ended. -/
def encodeFin (s : State) (v : PairId) (k : Nat) (b : Bytes) : State :=
  regAddWrap (frameDone (setCtx s (64 * v.val + k) none) v.val) (vidReg v.val) 32 32 (fieldAt b 8 4)

theorem doVideoEncodeDone_of_some {k : Nat} {b : Bytes} {x : Acc × State} (h : encodeAt s v.val = some (k, cid, b))
    (hx : writeMem (encodeFin s v k b) (.host (some (fieldAt b 0x2A 1))) (fieldAt b 0x18 8) stream = x) :
    doVideoEncodeDone v stream s = if fieldAt b 0x20 8 < stream.length then complete (encodeFin s v k b) cid stNoResource
      else endBy s x.2 cid x.1 stream.length := by
  subst hx
  rw [doVideoEncodeDone, h]
  rfl

/-! ### Dictionaries -/

/-- The conditions of a dictionary's copies. -/
theorem bad_copies_iff {free : State} {ok : Bool} {dies : List Nat} {b : Bytes} {ds : List Bytes} {cs : List Bool} :
    ((!ok) = true ∨ (!(dies.all fun d => tileDie (fieldAt b (16 + 8 * d) 2) == d)) = true ∨ (!(ds.all (regionOk free c))) = true ∨ cs.any id = true)
    ↔ (ok = false ∨ (∃ d ∈ dies, tileDie (fieldAt b (16 + 8 * d) 2) ≠ d) ∨ (∃ d ∈ ds, regionOk free c d = false) ∨ ∃ x ∈ cs, x = true) := by
  simp

/-- Settles O55: a dictionary by its reads in order, an encode by the context that its pair is at. -/
theorem dictionariesLoadAndVideoEncodes : Obligations.DictionariesLoadAndVideoEncodes := by
  refine ⟨?_, ?_, fun s b h => bounds_of_encOk h, fun s v stream => ⟨fun h => ?_, fun k cid b h => ?_⟩, fun s v k cid b h => ctx_of_encodeAt h⟩
  · intro s cid c hc
    rw [exec_tokLoad]
    refine ⟨fun h => next_of_not_rest (g := fun c => atRest s c (cmdPart s c)) h hc, fun h => ?_⟩
    refine (next_of_ready (g := fun c => atRest s c (cmdPart s c)) h hc).trans (congrArg (fun t => Host.Outcome.next (commit s t)) ?_)
    refine congrArg (withPayload (beginCmd s cid) c 80) (funext₂ fun s1 b => ?_)
    extract_lets n p image
    refine if_congr (by simp) rfl ?_
    obtain ⟨a, h, s2⟩ := readMem s1 .device image 2048
    cases a with
    | wait => rfl
    | fail st => rfl
    | bounds => rfl
    | replay => rfl
    | ok =>
      refine if_congr (by simp) rfl ?_
      obtain ⟨a, m, s3⟩ := readMem s2 .device (image + 2048) (16 * fieldAt h 0x0C 4)
      cases a with
      | wait => rfl
      | fail st => rfl
      | bounds => rfl
      | replay => rfl
      | ok =>
        refine if_congr bad_copies_iff rfl (if_congr (by simp) rfl ?_)
        generalize accAll _ _ loadRegion = r
        obtain ⟨a, s4⟩ := r
        cases a with
        | ok => rfl
        | wait => rfl
        | _ => rfl
  · intro s cid c hc
    rw [exec_vidEncode]
    refine (next_of_cmd hc).trans (congrArg (fun t => Host.Outcome.next (commit s t)) ?_)
    refine congrArg (withPayload (beginCmd s cid) c 64) (funext₂ fun t b => ?_)
    exact if_congr (by simp) rfl rfl
  · rw [exec_videoEncodeDone, doVideoEncodeDone, h]
  · rw [exec_videoEncodeDone]
    refine ⟨fun hlen => ?_, fun a s1 hlen hw => ?_⟩
    · rw [doVideoEncodeDone_of_some h rfl, if_pos hlen]
      rfl
    · rw [doVideoEncodeDone_of_some h hw, if_neg (Nat.not_lt.mpr hlen)]

end Sys2Proof.Machine
end

section
/-! PROOFS. Objects are fetched, decrypted and parsed into records. -/

namespace Sys2Proof.Machine
open Sys2Proof

variable {s s1 s2 : State} {p : PipeId} {e : SrcEntry} {es : List SrcEntry}

/-! ### FETCH -/

theorem doFetchObjectRead_of_none {r : ReadResult} (h : (pipeAt s p.val).st ≠ .opened ∨ (pipeAt s p.val).entries = []) :
    doFetchObjectRead p r s = s := by
  unfold doFetchObjectRead
  extract_lets x
  split
  · next e es hst hes => exact (h.elim (fun h => h hst) fun h => nomatch hes.symm.trans h).elim
  · rfl

theorem doFetchTimeout_of_none (h : (pipeAt s p.val).st ≠ .opened ∨ (pipeAt s p.val).entries = []) : doFetchTimeout p s = s := by
  unfold doFetchTimeout
  extract_lets x
  split
  · next e es hst hes => exact (h.elim (fun h => h hst) fun h => nomatch hes.symm.trans h).elim
  · rfl

section
variable (hst : (pipeAt s p.val).st = .opened) (hes : (pipeAt s p.val).entries = e :: es)
include hst hes

theorem doFetchTimeout_of_entry : doFetchTimeout p s = if pdLockets (pipeAt s p.val).desc then s
    else pipeErr (modPipe s p.val fun x => endObject { x with entries := es } e stHostStall) p.val e.ordinal stHostStall 0 := by
  unfold doFetchTimeout
  extract_lets x
  rw [show x.st = .opened from hst, show x.entries = e :: es from hes]

theorem doFetchObjectRead_of_lockets {r : ReadResult} (h : pdLockets (pipeAt s p.val).desc = true) :
    doFetchObjectRead p r s = fetchLocket s p.val (pipeAt s p.val) e := by
  unfold doFetchObjectRead
  extract_lets x
  rw [show x.st = .opened from hst, show x.entries = e :: es from hes]
  exact if_pos h

theorem doFetchObjectRead_of_error (h : pdLockets (pipeAt s p.val).desc = false) : doFetchObjectRead p .error s =
    pipeErr (modPipe s p.val fun x => endObject { x with entries := es } e stBadDescriptor) p.val e.ordinal stBadDescriptor 0 := by
  unfold doFetchObjectRead
  extract_lets x
  rw [show x.st = .opened from hst, show x.entries = e :: es from hes]
  exact if_neg (by rw [h]; decide)

theorem doFetchObjectRead_of_bytes {b : Bytes} (h : pdLockets (pipeAt s p.val).desc = false) : doFetchObjectRead p (.bytes b) s =
    if b.length ≠ e.length then s
    else modPipe s p.val fun x => if pdSealed (pipeAt s p.val).desc then { x with entries := es, sealed_ := x.sealed_ ++ [(e, b, 0)] }
      else { x with entries := es, parse := x.parse ++ [(e, b, false, some stOk)] } := by
  unfold doFetchObjectRead
  extract_lets x
  rw [show x.st = .opened from hst, show x.entries = e :: es from hes]
  exact if_neg (by rw [h]; decide)

end

/-! ### Lockets -/

/-- An entry's locket has been fetched: its sample, or how it ended. -/
def locketFetched (t : State) (p : Nat) (e : SrcEntry) (id : Nat) (r : Except Status Bytes) : State :=
  modPipe t p fun y => locketSample { y with entries := y.entries.drop 1 } e id (e.addr % 2 ^ 32) r

section
variable {q : Nat} {x : Pipe} {a : Acc} {ie b : Bytes}

theorem fetchLocket_of_unwritten (h : regGet s ⟨.ingLockets, 0, q⟩ ≤ e.addr % 2 ^ 32) :
    fetchLocket s q x e = locketFetched (takeFree s).2 q e (Config.freeWord (takeFree s).1).toNat (.error stBadDescriptor) := by
  unfold fetchLocket
  exact if_pos h

/-- How a locket goes on once its index entry has been read. -/
def locketIndexed (s0 : State) (p : Nat) (x : Pipe) (e : SrcEntry) : Acc × Bytes × State → State
  | (.wait, _, _) => s0
  | (.ok, ie, s) =>
    match readMem s .device (pdLocket x.desc + 2048 * fieldAt ie 8 4) (fieldAt ie 12 4) with
    | (.wait, _, _) => s0
    | (.ok, b, s) =>
      match decodeLocket b with
      | .ok (slot, k) => locketFetched (codecDone s (bc0 (pdLocket x.desc)) k false) p e (fieldAt ie 0 8) (.ok slot)
      | .error none => locketFetched s p e (fieldAt ie 0 8) (.error stCheckFail)
      | .error (some (blk, why)) => locketFetched (codecFail s (bc0 (pdLocket x.desc)) blk why) p e (fieldAt ie 0 8) (.error stCheckFail)
    | (_, _, s) => locketFetched s p e (fieldAt ie 0 8) (.error stTierFail)
  | (_, _, s) => locketFetched (takeFree s).2 p e (Config.freeWord (takeFree s).1).toNat (.error stTierFail)

theorem fetchLocket_of_written (h : e.addr % 2 ^ 32 < regGet s ⟨.ingLockets, 0, q⟩)
    (hr : readMem s .device (pdLocket x.desc + 16 * (e.addr % 2 ^ 32)) 16 = (a, ie, s1)) :
    fetchLocket s q x e = locketIndexed s q x e (a, ie, s1) := by
  unfold fetchLocket
  refine (if_neg (Nat.not_le.mpr h)).trans ?_
  rw [hr]
  cases a with
  | ok => rfl
  | wait => rfl
  | _ => rfl

theorem locketIndexed_of_not_ok (hok : a ≠ .ok) (hw : a ≠ .wait) : locketIndexed s q x e (a, ie, s1) =
    locketFetched (takeFree s1).2 q e (Config.freeWord (takeFree s1).1).toNat (.error stTierFail) := by
  cases a with
  | ok => exact absurd rfl hok
  | wait => exact absurd rfl hw
  | _ => rfl

section
variable (hr : readMem s1 .device (pdLocket x.desc + 2048 * fieldAt ie 8 4) (fieldAt ie 12 4) = (a, b, s2))
include hr

theorem locketIndexed_of_read_waits (ha : a = .wait) : locketIndexed s q x e (.ok, ie, s1) = s := by
  rw [locketIndexed, hr, ha]

theorem locketIndexed_of_read_fails (hok : a ≠ .ok) (hw : a ≠ .wait) :
    locketIndexed s q x e (.ok, ie, s1) = locketFetched s2 q e (fieldAt ie 0 8) (.error stTierFail) := by
  rw [locketIndexed, hr]
  cases a with
  | ok => exact absurd rfl hok
  | wait => exact absurd rfl hw
  | _ => rfl

theorem locketIndexed_of_read (ha : a = .ok) : locketIndexed s q x e (.ok, ie, s1) =
    match decodeLocket b with
    | .ok (slot, k) => locketFetched (codecDone s2 (bc0 (pdLocket x.desc)) k false) q e (fieldAt ie 0 8) (.ok slot)
    | .error none => locketFetched s2 q e (fieldAt ie 0 8) (.error stCheckFail)
    | .error (some (blk, why)) => locketFetched (codecFail s2 (bc0 (pdLocket x.desc)) blk why) q e (fieldAt ie 0 8) (.error stCheckFail) := by
  rw [locketIndexed, hr, ha]

end
end

/-! ### DECRYPT -/

section
variable {d : Die} {b : Bytes} {n : Nat} {rest : List (SrcEntry × Bytes × Nat)}

theorem doSegmentDecrypt_of_none (h : (pipeAt s p.val).st ≠ .opened ∨ (pipeAt s p.val).sealed_ = []
    ∨ (partDies s (pipeAt s p.val).part.val).contains d.val = false) : doSegmentDecrypt p d s = s := by
  unfold doSegmentDecrypt
  extract_lets x
  split
  · next e b n rest hst hes =>
    refine if_pos ?_
    rw [(h.resolve_left (not_not.mpr hst)).resolve_left fun h => nomatch hes.symm.trans h]
    rfl
  · rfl

/-- An object ends in DECRYPT. -/
def decryptEnds (t : State) (p : Nat) (y : Pipe) (e : SrcEntry) (rest : List (SrcEntry × Bytes × Nat)) (st : Status) : State :=
  pipeErr (modPipe t p fun _ => endObject { y with sealed_ := rest } e st) p e.ordinal st 1

/-- What an opened segment lets follow. -/
def segmentEnds (t : State) (p : PipeId) (x : Pipe) (e : SrcEntry) (n : Nat) (rest : List (SrcEntry × Bytes × Nat)) :
    Except Status (Bytes × Bytes × Bool) → State
  | .error st => decryptEnds t p.val x e rest st
  | .ok (pt, left, last) =>
    if last then
      if left.isEmpty then modPipe t p.val fun x => passBytes { x with sealed_ := rest } e pt (some stOk)
      else decryptEnds t p.val (passBytes x e pt none) e rest stCheckFail
    else if left.isEmpty then decryptEnds t p.val (passBytes x e pt none) e rest stCheckFail
    else modPipe t p.val fun x => passBytes { x with sealed_ := (e, left, n + 1) :: rest } e pt none

/-- A segment that an engine opens: framed, with a key that its slot gives. -/
def opensWith (key : Except Status Key) (b : Bytes) (n : Nat) : Bool := segmentOk b n && match key with | .ok _ => true | .error _ => false

/-- The key of a pipeline's slot. -/
def pipeKey (s : State) (x : Pipe) : Except Status Key := keyUse s (pdKey x.desc) x.part.val

theorem doSegmentDecrypt_of_segment (hst : (pipeAt s p.val).st = .opened) (hes : (pipeAt s p.val).sealed_ = (e, b, n) :: rest)
    (hd : (partDies s (pipeAt s p.val).part.val).contains d.val = true) : doSegmentDecrypt p d s =
      if (opensWith (pipeKey s (pipeAt s p.val)) b n && !engineRoom s d.val) = true then s
      else segmentEnds (if opensWith (pipeKey s (pipeAt s p.val)) b n = true then bindKey s d.val (pdKey (pipeAt s p.val).desc) else s)
        p (pipeAt s p.val) e n rest (openSegment (pipeKey s (pipeAt s p.val)) b n) := by
  unfold doSegmentDecrypt
  extract_lets x
  rw [show x.st = .opened from hst, show x.sealed_ = (e, b, n) :: rest from hes]
  refine (if_neg (by rw [show (partDies s x.part.val).contains d.val = true from hd]; decide)).trans ?_
  refine if_congr Iff.rfl rfl ?_
  show _ = segmentEnds _ _ _ _ _ _ (openSegment (keyUse s (pdKey x.desc) x.part.val) b n)
  generalize openSegment (keyUse s (pdKey x.desc) x.part.val) b n = r
  cases r with
  | error st => rfl
  | ok y => rfl

theorem opensWith_of_unframed {key : Except Status Key} (h : segmentOk b n = false) : opensWith key b n = false := by
  unfold opensWith
  rw [h, Bool.false_and]

theorem opensWith_error (st : Status) (b : Bytes) (n : Nat) : opensWith (.error st) b n = false := Bool.and_false _

theorem opensWith_ok {k : Key} (h : segmentOk b n = true) : opensWith (.ok k) b n = true := by rw [opensWith, h]; rfl

theorem openSegment_of_unframed {key : Except Status Key} (h : segmentOk b n = false) : openSegment key b n = .error stCheckFail := by
  unfold openSegment
  exact if_pos (by rw [h]; rfl)

theorem openSegment_of_framed {key : Except Status Key} (h : segmentOk b n = true) : openSegment key b n =
    match key with
    | .error st => .error st
    | .ok k =>
      match Config.gcmOpen k.key ((b.drop 8).take 12) (b.take 32) ((b.drop 32).take (fieldAt b 4 4)) ((b.drop (32 + fieldAt b 4 4)).take 16) with
      | none => .error stAuthFail
      | some pt => .ok (pt, b.drop (48 + fieldAt b 4 4), fieldAt b 0x18 4 == 1) := by
  unfold openSegment
  exact if_neg (by rw [h]; decide)

theorem fields_of_segmentOk (h : segmentOk b n = true) : fieldAt b 0 4 = 0x47534C52 ∧ fieldAt b 0x14 4 = n ∧ 1 ≤ fieldAt b 4 4
    ∧ fieldAt b 4 4 ≤ 65536 ∧ 48 + fieldAt b 4 4 ≤ b.length := by
  unfold segmentOk at h
  simp only [Bool.and_eq_true, decide_eq_true_eq, beq_iff_eq, and_assoc] at h
  obtain ⟨hlen, hmagic, h1, hmax, hn, -, -⟩ := h
  exact ⟨hmagic, hn, h1, hmax, hlen⟩

end

/-! ### PARSE -/

section
variable {b : Bytes} {checked : Bool} {ended : Option Status} {rest : List (SrcEntry × Bytes × Bool × Option Status)}

theorem doRecordParse_of_none (h : (pipeAt s p.val).st ≠ .opened ∨ (pipeAt s p.val).parse = []) : doRecordParse p s = s := by
  unfold doRecordParse
  extract_lets x
  split
  · next e b checked ended rest hst hes => exact (h.elim (fun h => h hst) fun h => nomatch hes.symm.trans h).elim
  · rfl

/-- An object whose check fails in PARSE. -/
def parseFails (s : State) (p : PipeId) (e : SrcEntry) : State :=
  modPipe (pipeErr (modPipe s p.val fun x => objectDone x stCheckFail) p.val e.ordinal stCheckFail 2) p.val
    fun y => { y with sealed_ := y.sealed_.filter fun q => q.1.ordinal != e.ordinal }

/-- An object of which too few bytes are there. -/
def parseShort (s : State) (p : PipeId) (e : SrcEntry) (ended : Option Status) : State :=
  match ended with
  | none => s
  | some st => if st = stOk then parseFails s p e else modPipe s p.val fun x => objectDone x st

/-- An object that is used up. -/
def parseUsed (s : State) (p : PipeId) : Option Status → State
  | none => s
  | some st => modPipe s p.val fun x => objectDone x st

/-- What PARSE does with a record that is all there. -/
def parseWhole (s : State) (p : PipeId) (x : Pipe) (e : SrcEntry) (b : Bytes) (ended : Option Status)
    (rest : List (SrcEntry × Bytes × Bool × Option Status)) : State :=
  if crc32c (b.take 8 ++ (b.drop 16).take (fieldAt b 0 4)) ≠ fieldAt b 8 4 then parseFails s p e
  else match parseRecord (pdHdrFw x.desc) (fieldAt b 4 4) ((b.drop 16).take (fieldAt b 0 4)) with
    | none => parseFails s p e
    | some r => modPipe s p.val fun x => takeRecord { x with parse := (e, b.drop (16 + padTo 8 (fieldAt b 0 4)), true, ended) :: rest } e r

theorem doRecordParse_of_header (hst : (pipeAt s p.val).st = .opened) (hes : (pipeAt s p.val).parse = (e, b, false, ended) :: rest) :
    doRecordParse p s = if b.length < 32 then parseShort s p e ended
      else if (!fileHeaderOk b) = true then parseFails s p e
      else modPipe s p.val fun x => { x with parse := (e, b.drop 32, true, ended) :: rest } := by
  unfold doRecordParse
  extract_lets x
  split
  · next e' b' checked' ended' rest' hst' hes' =>
    obtain ⟨⟨rfl, rfl, rfl, rfl⟩, rfl⟩ := by simpa using hes.symm.trans hes'
    rfl
  · next hno => exact (hno _ _ _ _ _ hst hes).elim

theorem doRecordParse_of_records (hst : (pipeAt s p.val).st = .opened) (hes : (pipeAt s p.val).parse = (e, b, true, ended) :: rest) :
    doRecordParse p s = if b.isEmpty = true then parseUsed s p ended
      else if b.length < 16 then parseShort s p e ended
      else if 67108864 < fieldAt b 0 4 ∨ (!zeroAt b 12 4) = true then parseFails s p e
      else if b.length < 16 + padTo 8 (fieldAt b 0 4) then parseShort s p e ended
      else parseWhole s p (pipeAt s p.val) e b ended rest := by
  unfold doRecordParse
  extract_lets x
  split
  · next e' b' checked' ended' rest' hst' hes' =>
    obtain ⟨⟨rfl, rfl, rfl, rfl⟩, rfl⟩ := by simpa using hes.symm.trans hes'
    extract_lets failed src fail short
    have hf : fail = parseFails s p e := rfl
    have hs : short = parseShort s p e ended := rfl
    refine (if_neg (by decide)).trans (if_congr Iff.rfl rfl (if_congr Iff.rfl hs (if_congr Iff.rfl hf (if_congr Iff.rfl hs ?_))))
    refine if_congr Iff.rfl hf ?_
    generalize parseRecord _ _ _ = r
    cases r with
    | none => exact hf
    | some r => rfl
  · next hno => exact (hno _ _ _ _ _ hst hes).elim

theorem parseWhole_of_bad {x : Pipe} (h : crc32c (b.take 8 ++ (b.drop 16).take (fieldAt b 0 4)) ≠ fieldAt b 8 4
    ∨ parseRecord (pdHdrFw x.desc) (fieldAt b 4 4) ((b.drop 16).take (fieldAt b 0 4)) = none) :
    parseWhole s p x e b ended rest = parseFails s p e := by
  unfold parseWhole
  by_cases hc : crc32c (b.take 8 ++ (b.drop 16).take (fieldAt b 0 4)) ≠ fieldAt b 8 4
  · exact if_pos hc
  · rw [if_neg hc, h.resolve_left hc]

theorem parseWhole_of_record {x : Pipe} {r : Rec} (hc : crc32c (b.take 8 ++ (b.drop 16).take (fieldAt b 0 4)) = fieldAt b 8 4)
    (hr : parseRecord (pdHdrFw x.desc) (fieldAt b 4 4) ((b.drop 16).take (fieldAt b 0 4)) = some r) : parseWhole s p x e b ended rest =
      modPipe s p.val fun x => takeRecord { x with parse := (e, b.drop (16 + padTo 8 (fieldAt b 0 4)), true, ended) :: rest } e r := by
  unfold parseWhole
  rw [if_neg (not_not.mpr hc), hr]

end

/-- Settles O56: each stage by the oldest object and the checks of its next bytes. -/
theorem objectsAreFetchedAndParsed : Obligations.ObjectsAreFetchedAndParsed := by
  refine ⟨⟨fun s p r h => ?_, fun s p e es hst hes => ⟨fun hl => ⟨?_, ?_, fun b => ⟨fun hlen => ?_, fun hlen hs => ?_, fun hlen hs => ?_⟩⟩, fun hl => ⟨?_, fun r => ?_⟩⟩⟩,
    ⟨fun s p d h => ?_, fun s p d e b n rest hst hes hd => ?_, fun b n h => fields_of_segmentOk h⟩, fun s p h => ?_, fun s p e b checked ended rest hst hes => ?_⟩
  · rw [exec_fetchObjectRead, exec_fetchTimeout, doFetchObjectRead_of_none h, doFetchTimeout_of_none h]
    exact ⟨rfl, rfl⟩
  · rw [exec_fetchObjectRead, doFetchObjectRead_of_error hst hes hl]
  · rw [exec_fetchTimeout, doFetchTimeout_of_entry hst hes, if_neg (by rw [hl]; decide)]
  · rw [exec_fetchObjectRead, doFetchObjectRead_of_bytes hst hes hl, if_pos hlen]
  · rw [exec_fetchObjectRead, doFetchObjectRead_of_bytes hst hes hl, if_neg (not_not.mpr hlen), hs]
    rfl
  · rw [exec_fetchObjectRead, doFetchObjectRead_of_bytes hst hes hl, if_neg (not_not.mpr hlen), hs]
    rfl
  · rw [exec_fetchTimeout, doFetchTimeout_of_entry hst hes, if_pos hl]
  · intro d i fin
    rw [exec_fetchObjectRead, doFetchObjectRead_of_lockets hst hes hl]
    refine ⟨fun h => ⟨_, by rw [fetchLocket_of_unwritten h]; rfl⟩, fun a ie s1 h hr => ?_⟩
    rw [fetchLocket_of_written h hr]
    refine ⟨fun ha => by rw [ha]; rfl, fun hok hw => ⟨_, by rw [locketIndexed_of_not_ok hok hw]; rfl⟩, fun a2 b s2 ha hr2 => ?_⟩
    rw [ha]
    intro id
    refine ⟨fun hw => by rw [locketIndexed_of_read_waits hr2 hw], fun hok hw => by rw [locketIndexed_of_read_fails hr2 hok hw]; rfl, fun hok => ?_⟩
    rw [locketIndexed_of_read hr2 hok]
    exact ⟨fun slot k h => by rw [h]; rfl, fun h => by rw [h]; rfl, fun blk why h => by rw [h]; rfl⟩
  · rw [exec_segmentDecrypt, doSegmentDecrypt_of_none h]
  · intro x ends
    rw [exec_segmentDecrypt, doSegmentDecrypt_of_segment hst hes hd]
    refine ⟨fun hok => ?_, fun st hok hk => ?_, fun k hok hk => ?_⟩
    · rw [opensWith_of_unframed hok, openSegment_of_unframed hok]
      rfl
    · rw [show pipeKey s (pipeAt s p.val) = .error st from hk, opensWith_error, openSegment_of_framed hok]
      rfl
    · rw [show pipeKey s (pipeAt s p.val) = .ok k from hk, opensWith_ok hok, openSegment_of_framed hok]
      intro t len left
      refine ⟨fun hr => by rw [hr]; rfl, fun hr => ?_⟩
      rw [hr]
      refine congrArg (fun t => Host.Outcome.next (commit s t)) ?_
      show segmentEnds t p x e n rest (match Config.gcmOpen k.key ((b.drop 8).take 12) (b.take 32) ((b.drop 32).take len) ((b.drop (32 + len)).take 16) with
        | none => .error stAuthFail
        | some pt => .ok (pt, left, fieldAt b 0x18 4 == 1)) = _
      cases Config.gcmOpen k.key ((b.drop 8).take 12) (b.take 32) ((b.drop 32).take len) ((b.drop (32 + len)).take 16) with
      | none => rfl
      | some pt => exact if_congr beq_iff_eq (if_congr List.isEmpty_iff rfl rfl) (if_congr List.isEmpty_iff rfl rfl)
  · rw [exec_recordParse, doRecordParse_of_none h]
  · intro failed fails short len size payload
    rw [exec_recordParse]
    refine ⟨fun hc => ?_, fun hc => ?_⟩
    · subst hc
      rw [doRecordParse_of_header hst hes]
      refine ⟨fun h => ?_, fun h hok => ?_, fun h hok => ?_⟩
      · rw [if_pos h]
        rfl
      · rw [if_neg (Nat.not_lt.mpr h), if_pos (by rw [hok]; rfl)]
        rfl
      · rw [if_neg (Nat.not_lt.mpr h), if_neg (by rw [hok]; decide)]
    · subst hc
      rw [doRecordParse_of_records hst hes]
      have hne : 16 ≤ b.length → ¬ b.isEmpty = true := fun h => by rw [List.isEmpty_iff]; rintro rfl; exact absurd h (by decide)
      refine ⟨fun h hn => ?_, fun st h hn => ?_, fun h hlt => ?_, fun h hbad => ?_, fun h hmax hz hlt => ?_, fun h hmax hz hle => ⟨fun hbad => ?_, fun r hcrc hr => ?_⟩⟩
      · rw [if_pos (List.isEmpty_iff.mpr h), hn]
        rfl
      · rw [if_pos (List.isEmpty_iff.mpr h), hn]
        rfl
      · rw [if_neg (mt List.isEmpty_iff.mp h), if_pos hlt]
        rfl
      · rw [if_neg (hne h), if_neg (Nat.not_lt.mpr h), if_pos (hbad.imp id fun h => by rw [h]; rfl)]
        rfl
      · rw [if_neg (hne h), if_neg (Nat.not_lt.mpr h), if_neg (by rw [hz]; simpa using hmax), if_pos hlt]
        rfl
      · rw [if_neg (hne h), if_neg (Nat.not_lt.mpr h), if_neg (by rw [hz]; simpa using hmax), if_neg (Nat.not_lt.mpr hle), parseWhole_of_bad hbad]
        rfl
      · rw [if_neg (hne h), if_neg (Nat.not_lt.mpr h), if_neg (by rw [hz]; simpa using hmax), if_neg (Nat.not_lt.mpr hle), parseWhole_of_record hcrc hr]

end Sys2Proof.Machine
end

section
/-! PROOFS. Samples are admitted, decoded, tokenised and shaped. -/

namespace Sys2Proof.Machine
open Sys2Proof

variable {s s1 s2 : State} {p : PipeId} {m : Sample} {c : Comp}

/-! ### Admission -/

/-- The oldest sample not admitted. -/
def oldestSample (s : State) (p : PipeId) : Option Sample := (pipeAt s p.val).samples.find? fun m => !m.admitted && m.status == stOk

/-- A sample that is admitted. -/
def admitSample (now : Nat) (m : Sample) : Sample :=
  match m.at_ with
  | some a => { m with admitted := true, late := m.late || decide (a < now), lateNs := max m.lateNs (now - a) }
  | none => { m with admitted := true }

theorem due_iff (o : Option Nat) (t : Nat) : (match o with | some a => decide (a ≤ t) | none => true) = true ↔ ∀ a, o = some a → a ≤ t := by
  cases o <;> simp

theorem gone_iff (o : Option Nat) (t : Nat) : (match o with | some a => decide (a < t) | none => false) = true ↔ ∃ a, o = some a ∧ a < t := by
  cases o <;> simp

theorem doSampleAdmit_of_none (h : oldestSample s p = none) : doSampleAdmit p s = s := by
  unfold oldestSample at h
  rw [doSampleAdmit, h]

section
variable (h : oldestSample s p = some m)
include h

theorem doSampleAdmit_of_early (hd : ¬ ∀ a, m.at_ = some a → a ≤ s.now) : doSampleAdmit p s = s := by
  unfold oldestSample at h
  rw [doSampleAdmit, h]
  refine if_pos ?_
  rw [Bool.not_eq_true', Bool.eq_false_iff]
  exact mt (due_iff ..).mp hd

variable (hd : ∀ a, m.at_ = some a → a ≤ s.now)
include hd

theorem doSampleAdmit_of_gone (hg : ∃ a, m.notAfter = some a ∧ a < s.now) :
    doSampleAdmit p s = modSample s p.val m.seq fun m => { m with status := stExpired, stage := 3 } := by
  unfold oldestSample at h
  rw [doSampleAdmit, h]
  exact (if_neg (by rw [Bool.not_eq_true', Bool.not_eq_false]; exact (due_iff ..).mpr hd)).trans (if_pos ((gone_iff ..).mpr hg))

theorem doSampleAdmit_of_due (hg : ¬ ∃ a, m.notAfter = some a ∧ a < s.now) :
    doSampleAdmit p s = modSample s p.val m.seq (admitSample s.now) := by
  unfold oldestSample at h
  rw [doSampleAdmit, h]
  exact (if_neg (by rw [Bool.not_eq_true', Bool.not_eq_false]; exact (due_iff ..).mpr hd)).trans (if_neg (mt (gone_iff ..).mp hg))

end

/-! ### Components on their pairs -/

/-- The better of a pair and the best before it. -/
def betterPair (s : State) (best : Option Nat) (v : Nat) : Option Nat :=
  if 64 ≤ ctxUsed s v then best
  else match best with
    | none => some v
    | some w => if ctxUsed s v < ctxUsed s w then some v else some w

/-- The best of some pairs: none where every one is full, else one with the most free contexts. -/
def BestOf (s : State) (vs : List Nat) : Option Nat → Prop
  | none => ∀ v ∈ vs, 64 ≤ ctxUsed s v
  | some v => v ∈ vs ∧ ctxUsed s v < 64 ∧ ∀ w ∈ vs, ctxUsed s v ≤ ctxUsed s w

theorem BestOf.betterPair {vs : List Nat} {best : Option Nat} (h : BestOf s vs best) (v : Nat) : BestOf s (vs ++ [v]) (betterPair s best v) := by
  unfold Machine.betterPair
  by_cases hfull : 64 ≤ ctxUsed s v
  · rw [if_pos hfull]
    cases best with
    | none => exact List.forall_mem_append.mpr ⟨h, List.forall_mem_singleton.mpr hfull⟩
    | some w =>
      obtain ⟨hw, hlt, hall⟩ := h
      exact ⟨List.mem_append_left _ hw, hlt, List.forall_mem_append.mpr ⟨hall, List.forall_mem_singleton.mpr (by omega)⟩⟩
  · rw [if_neg hfull]
    cases best with
    | none =>
      refine ⟨List.mem_append_right _ (List.mem_singleton_self v), Nat.not_le.mp hfull, List.forall_mem_append.mpr ⟨fun w hw => ?_, List.forall_mem_singleton.mpr le_rfl⟩⟩
      exact (Nat.not_le.mp hfull).le.trans (h w hw)
    | some w =>
      obtain ⟨hw, hlt, hall⟩ := h
      dsimp only
      by_cases hbetter : ctxUsed s v < ctxUsed s w
      · rw [if_pos hbetter]
        exact ⟨List.mem_append_right _ (List.mem_singleton_self v), Nat.not_le.mp hfull,
          List.forall_mem_append.mpr ⟨fun u hu => hbetter.le.trans (hall u hu), List.forall_mem_singleton.mpr le_rfl⟩⟩
      · rw [if_neg hbetter]
        exact ⟨List.mem_append_left _ hw, hlt, List.forall_mem_append.mpr ⟨hall, List.forall_mem_singleton.mpr (Nat.not_lt.mp hbetter)⟩⟩

theorem bestPair_eq_foldl (s : State) (vs : List Nat) : bestPair s vs = vs.foldl (betterPair s) none := rfl

theorem bestOf_bestPair (s : State) (vs : List Nat) : BestOf s vs (bestPair s vs) := by
  rw [bestPair_eq_foldl]
  suffices h : ∀ (us : List Nat) (best : Option Nat), BestOf s us best → BestOf s (us ++ vs) (vs.foldl (betterPair s) best) from
    h [] none fun v hv => absurd hv List.not_mem_nil
  intro us best h
  induction vs generalizing us best with
  | nil => rw [List.append_nil]; exact h
  | cons v vs ih =>
    rw [List.append_cons]
    exact ih _ _ (h.betterPair v)

theorem doComponentAdmit_of_none (h : firstComp (pipeAt s p.val) (fun c => c.kind == 1 && c.pair.isNone && !c.decoded) = none) :
    doComponentAdmit p s = s := by
  unfold doComponentAdmit
  extract_lets x
  rw [show firstComp x (fun c => c.kind == 1 && c.pair.isNone && !c.decoded) = none from h]

theorem doComponentAdmit_of_some (h : firstComp (pipeAt s p.val) (fun c => c.kind == 1 && c.pair.isNone && !c.decoded) = some (m, c)) :
    doComponentAdmit p s =
      let x := pipeAt s p.val
      let need := Config.dpbBytes c.codec c.bits
      if pdDpbLen x.desc < need then modComp s p.val m.seq c.num fun c => { c with status := stNoResource, stage := 3 }
      else if pdDpbLen x.desc < dpbUsed x + need then s
      else match bestPair s (partPairs s x.part.val) with
        | none => s
        | some v => match freeCtx s v with
          | none => s
          | some k => modComp (setCtx s (64 * v + k) (some ⟨some p, m.seq, c.num, none, !dispatchHeld s⟩)) p.val m.seq
              c.num fun c => { c with pair := some (Fin.ofNat 16 v), ctx := k } := by
  unfold doComponentAdmit
  extract_lets x
  rw [show firstComp x (fun c => c.kind == 1 && c.pair.isNone && !c.decoded) = some (m, c) from h] <;> rfl

/-! ### Frames -/

@[simp] theorem now_frameDone (s : State) (v : Nat) : (frameDone s v).now = s.now := by
  unfold frameDone
  split <;> rfl

/-- The time by which a frame is late, at `now`. -/
def lateBy (now : Nat) (x : Pipe) (m : Sample) (k : Nat) : Nat :=
  match m.at_ with
  | some a => if pdFrameNs x.desc = 0 then 0 else now - (a + (k + 1) * pdFrameNs x.desc)
  | none => 0

/-- The end of a frame's slot, and how late it is then. -/
theorem lateBy_of_slotEnd (now : Nat) (x : Pipe) (m : Sample) (k : Nat) :
    (match (match m.at_ with
        | some a => if pdFrameNs x.desc = 0 then none else some (a + (k + 1) * pdFrameNs x.desc)
        | none => none) with
      | some t => now - t
      | none => 0) = lateBy now x m k := by
  unfold lateBy
  cases m.at_ with
  | none => rfl
  | some a => by_cases h : pdFrameNs x.desc = 0 <;> simp [h]

/-- A frame that comes late makes its sample late. -/
def noteLateFrame (t : State) (v : PairId) (p : PipeId) (m : Sample) (late : Nat) : State :=
  if late = 0 then t
  else regAddSat (modSample t p.val m.seq fun m => { m with late := true, lateNs := max m.lateNs late }) (vidReg v.val) 24 8 1

/-- A component that keeps a picture. -/
def keepFrame (x : Pipe) (c : Comp) (pic : Picture) (y : Comp) : Comp :=
  let st : Bytes × Bool := if pdStats x.desc then statRecord (c.codec == 3) c.hdrFw c.framesKept pic else ([], false)
  { y with framesSeen := y.framesSeen + 1, framesKept := c.framesKept + 1, frames := y.frames ++ [pic], stats := y.stats ++ st.1, metaTrunc := y.metaTrunc || st.2, decoded := decide (y.count ≤ c.framesKept + 1) }

/-- The context whose frame has ended is its pair's last. -/
def noteCtx (s : State) (v : PairId) (ctx : Fin 64) : State :=
  { s with ing := { s.ing with lastCtx := Tbl.put 0 s.ing.lastCtx v.val ctx.val } }

/-- A picture of a frame that its context has begun. -/
def frameKept (s : State) (v : PairId) (ctx : Fin 64) (p : PipeId) (m : Sample) (c : Comp) (pic : Picture) : State :=
  let x := pipeAt s p.val
  let t := regAddWrap (frameDone (noteCtx s v ctx) v.val) (vidReg v.val) 32 32 1
  if c.framesSeen < c.firstFrame then modComp t p.val m.seq c.num fun c => { c with framesSeen := c.framesSeen + 1 }
  else
    let t := noteLateFrame t v p m (lateBy s.now x m c.framesKept)
    if c.count ≤ c.framesKept + 1 then leaveCtx t v.val ctx.val p.val m.seq c.num (keepFrame x c pic)
    else modComp t p.val m.seq c.num (keepFrame x c pic)

section
variable {v : PairId} {ctx : Fin 64} {r : FrameResult} {vc : VidCtx} {pic : Picture}

theorem doFrameDecodeDone_of_no_ctx (h : Tbl.get none s.ing.ctxs (64 * v.val + ctx.val) = none) : doFrameDecodeDone v ctx r s = s := by
  rw [doFrameDecodeDone, h]

variable (h : Tbl.get none s.ing.ctxs (64 * v.val + ctx.val) = some vc)
include h

theorem doFrameDecodeDone_of_no_pipe (hp : vc.pipe = none) : doFrameDecodeDone v ctx r s = s := by
  rw [doFrameDecodeDone, h]
  dsimp only
  rw [hp]

variable (hp : vc.pipe = some p)
include hp

theorem doFrameDecodeDone_of_no_sample (hm : (pipeAt s p.val).samples.find? (fun m => m.seq == vc.sample) = none) :
    doFrameDecodeDone v ctx r s = s := by
  rw [doFrameDecodeDone, h]
  dsimp only
  rw [hp]
  dsimp only
  rw [hm]

variable (hm : (pipeAt s p.val).samples.find? (fun m => m.seq == vc.sample) = some m)
include hm

theorem doFrameDecodeDone_of_no_comp (hc : m.comps.find? (fun c => c.num == vc.comp) = none) : doFrameDecodeDone v ctx r s = s := by
  rw [doFrameDecodeDone, h]
  dsimp only
  rw [hp]
  dsimp only
  rw [hm]
  dsimp only
  rw [hc]

variable (hc : m.comps.find? (fun c => c.num == vc.comp) = some c)
include hc

theorem doFrameDecodeDone_of_damaged : doFrameDecodeDone v ctx .damaged s =
    leaveCtx (regAddSat (noteCtx s v ctx) (vidReg v.val) 16 8 1) v.val ctx.val p.val m.seq c.num fun c =>
      { c with status := stCheckFail, stage := 3 } := by
  rw [doFrameDecodeDone, h]
  dsimp only
  rw [hp]
  dsimp only
  rw [hm]
  dsimp only
  rw [hc]
  rfl

theorem doFrameDecodeDone_of_refused : doFrameDecodeDone v ctx .refusedStream s =
    leaveCtx (noteCtx s v ctx) v.val ctx.val p.val m.seq c.num fun c => { c with status := stBadDescriptor, stage := 3 } := by
  rw [doFrameDecodeDone, h]
  dsimp only
  rw [hp]
  dsimp only
  rw [hm]
  dsimp only
  rw [hc]
  rfl

theorem doFrameDecodeDone_of_bad_picture (hbad : pictureOk pic = false ∨ vc.frame = false) : doFrameDecodeDone v ctx (.picture pic) s = s := by
  rw [doFrameDecodeDone, h]
  dsimp only
  rw [hp]
  dsimp only
  rw [hm]
  dsimp only
  rw [hc]
  exact if_pos (hbad.imp (fun h => by rw [h]; rfl) id)

theorem doFrameDecodeDone_of_picture (hpic : pictureOk pic = true) (hf : vc.frame = true) :
    doFrameDecodeDone v ctx (.picture pic) s = frameKept s v ctx p m c pic := by
  unfold doFrameDecodeDone
  split
  · next hno => exact nomatch h.symm.trans hno
  next vc' h' =>
  obtain rfl : vc = vc' := Option.some.inj (h.symm.trans h')
  split
  · next hno => exact nomatch hp.symm.trans hno
  next p' hp' =>
  obtain rfl : p = p' := Option.some.inj (hp.symm.trans hp')
  extract_lets x src s1 t fns
  split
  · next hno => exact nomatch hm.symm.trans hno
  next m' hm' =>
  obtain rfl : m = m' := Option.some.inj (hm.symm.trans hm')
  split
  · next hno => exact nomatch hc.symm.trans hno
  next c' hc' =>
  obtain rfl : c = c' := Option.some.inj (hc.symm.trans hc')
  refine (if_neg (by rw [hpic, hf]; decide)).trans ?_
  extract_lets k st slotEnd late u g
  have hnow : t.now = s.now := (regAddWrap_now ..).trans (now_frameDone ..)
  have hlate : late = lateBy s.now x m k := by
    unfold late slotEnd
    rw [hnow]
    exact lateBy_of_slotEnd ..
  have hu : u = noteLateFrame t v p m (lateBy s.now x m k) := by
    rw [← hlate]
    rfl
  rw [hu]
  rfl

end

/-! ### Text -/

/-- The first text component that waits, and the first component to shape. -/
def waitingText (x : Pipe) : Option (Sample × Comp) := firstComp x fun c => c.kind == 2 && !c.decoded

/-- What the tokenizer makes of a text component. -/
def tokenized (s : State) (p : PipeId) (d : Die) (m : Sample) (c : Comp) (k : Dict) (sd arr : Bytes) : State :=
  let u := utf8Repair c.bits.length c.bits
  let opt : Nat → List Nat := fun v => if v = 0xFFFFFFFF then [] else [v]
  let ts := opt (fieldAt k.header 0x10 4) ++ tokens arr u.1.length u.1 ++ opt (fieldAt k.header 0x14 4)
  let top := fieldAt sd 0x28 4
  modComp (regAddSat s ⟨.tokStat, d.val, 0⟩ 8 24 u.2) p.val m.seq c.num fun c => { c with
    out := (ts.take top ++ List.replicate (top - (ts.take top).length) (fieldAt k.header 0x18 4)).flatMap (leBytes 4)
    outCount := (ts.take top).length, trunc := decide (top < ts.length), decoded := true, shaped := true }

/-- How a text component goes on by how its dictionary is read. -/
def dictRead (s0 : State) (p : PipeId) (d : Die) (m : Sample) (c : Comp) (k : Dict) (sd : Bytes) : Acc × Bytes × State → State
  | (.ok, arr, s) => tokenized s p d m c k sd arr
  | (.wait, _, _) => s0
  | (_, _, s) => compFails s p.val m.seq c.num stTierFail 3

/-- How a text component goes on by how its shape descriptor is read. -/
def textShaped (s0 : State) (p : PipeId) (d : Die) (m : Sample) (c : Comp) (k : Dict) (tile off : Nat) : Acc × Bytes × State → State
  | (.ok, sd, s) =>
    if !textShapeOk sd then compFails s p.val m.seq c.num stBadDescriptor 4
    else dictRead s0 p d m c k sd (readMem s .device (strataAddr tile off) (16 * fieldAt k.header 0x0C 4))
  | (.wait, _, _) => s0
  | (_, _, s) => compFails s p.val m.seq c.num stTierFail 4

section
variable {d : Die} {k : Dict} {tile off : Nat} {a : Acc} {sd arr : Bytes} {s0 : State}

theorem dictRead_of_not_ok (hok : a ≠ .ok) (hw : a ≠ .wait) :
    dictRead s0 p d m c k sd (a, arr, s) = compFails s p.val m.seq c.num stTierFail 3 := by
  cases a with
  | ok => exact absurd rfl hok
  | wait => exact absurd rfl hw
  | _ => rfl

theorem doTextTokenize_of_none (h : waitingText (pipeAt s p.val) = none ∨ (partDies s (pipeAt s p.val).part.val).contains d.val = false) :
    doTextTokenize p d s = s := by
  unfold doTextTokenize
  extract_lets x
  split
  · rfl
  · next m c hc => exact if_pos (by rw [h.resolve_left fun h => nomatch hc.symm.trans h]; rfl)

section
variable (h : waitingText (pipeAt s p.val) = some (m, c)) (hd : (partDies s (pipeAt s p.val).part.val).contains d.val = true)
include h hd

theorem doTextTokenize_of_no_dict (hno : Tbl.get none s.ing.dicts (4 * (pipeAt s p.val).part.val + pdDict (pipeAt s p.val).desc) = none
    ∨ pdDict (pipeAt s p.val).desc = 0xFF) : doTextTokenize p d s = compFails s p.val m.seq c.num stBadDescriptor 3 := by
  unfold waitingText at h
  unfold doTextTokenize
  extract_lets x
  rw [show firstComp x _ = some (m, c) from h]
  refine (if_neg (by rw [show (partDies s x.part.val).contains d.val = true from hd]; decide)).trans ?_
  split
  · next k hk hff =>
    rcases hno with h | h
    · exact nomatch hk.symm.trans h
    · exact absurd h (beq_eq_false_iff_ne.mp hff)
  · rfl

variable (hk : Tbl.get none s.ing.dicts (4 * (pipeAt s p.val).part.val + pdDict (pipeAt s p.val).desc) = some k)
  (hff : pdDict (pipeAt s p.val).desc ≠ 0xFF)
include hk hff

theorem doTextTokenize_of_no_place (hp : dictPlace k d.val = none) : doTextTokenize p d s = s := by
  unfold waitingText at h
  unfold doTextTokenize
  extract_lets x
  rw [show firstComp x _ = some (m, c) from h]
  refine (if_neg (by rw [show (partDies s x.part.val).contains d.val = true from hd]; decide)).trans ?_
  rw [show Tbl.get none s.ing.dicts (4 * x.part.val + pdDict x.desc) = some k from hk, show (pdDict x.desc == 0xFF) = false from beq_eq_false_iff_ne.mpr hff]
  dsimp only
  rw [hp]

theorem doTextTokenize_of_place (hp : dictPlace k d.val = some (tile, off)) (hsd : shapeDesc s (pipeAt s p.val).desc c.shape = (a, sd, s1)) :
    doTextTokenize p d s = textShaped s p d m c k tile off (a, sd, s1) := by
  unfold waitingText at h
  unfold doTextTokenize
  extract_lets x
  rw [show firstComp x _ = some (m, c) from h]
  refine (if_neg (by rw [show (partDies s x.part.val).contains d.val = true from hd]; decide)).trans ?_
  rw [show Tbl.get none s.ing.dicts (4 * x.part.val + pdDict x.desc) = some k from hk, show (pdDict x.desc == 0xFF) = false from beq_eq_false_iff_ne.mpr hff]
  dsimp only
  rw [hp, show shapeDesc s x.desc c.shape = (a, sd, s1) from hsd]
  cases a with
  | wait => rfl
  | fail st => rfl
  | bounds => rfl
  | replay => rfl
  | ok =>
    unfold textShaped
    refine if_congr Iff.rfl rfl ?_
    generalize readMem s1 .device (strataAddr tile off) (16 * fieldAt k.header 0x0C 4) = r
    obtain ⟨a, arr, s2⟩ := r
    cases a with
    | ok => rfl
    | wait => rfl
    | _ => rfl

end

theorem textShaped_of_not_ok (hok : a ≠ .ok) (hw : a ≠ .wait) :
    textShaped s0 p d m c k tile off (a, sd, s) = compFails s p.val m.seq c.num stTierFail 4 := by
  cases a with
  | ok => exact absurd rfl hok
  | wait => exact absurd rfl hw
  | _ => rfl

theorem textShaped_of_bad (h : textShapeOk sd = false) :
    textShaped s0 p d m c k tile off (.ok, sd, s) = compFails s p.val m.seq c.num stBadDescriptor 4 := by
  unfold textShaped
  exact if_pos (by rw [h]; rfl)

theorem textShaped_of_read {x : Acc × Bytes × State} (h : textShapeOk sd = true)
    (hr : readMem s .device (strataAddr tile off) (16 * fieldAt k.header 0x0C 4) = x) :
    textShaped s0 p d m c k tile off (.ok, sd, s) = dictRead s0 p d m c k sd x := by
  subst hr
  unfold textShaped
  exact if_neg (by rw [h]; decide)

end

/-! ### Shaping -/

/-- The first component that waits to be shaped. -/
def waitingShape (x : Pipe) : Option (Sample × Comp) :=
  firstComp x fun c => !c.shaped && ((c.kind == 1 && !c.frames.isEmpty) || c.kind == 3)

section
variable {a : Acc} {sd : Bytes} {pic : Picture} {pics : List Picture}

theorem doShapeItem_of_none (h : dispatchHeld s = true ∨ waitingShape (pipeAt s p.val) = none) : doShapeItem p s = s := by
  unfold doShapeItem
  by_cases hd : dispatchHeld s = true
  · exact if_pos hd
  · refine (if_neg hd).trans ?_
    rw [show firstComp (pipeAt s p.val) _ = none from h.resolve_left hd]

variable (hd : dispatchHeld s = false) (h : waitingShape (pipeAt s p.val) = some (m, c))
include hd h

theorem doShapeItem_of_raw {o : Option Nat} (hk : c.kind = 3) (ho : rawCount c = o) : doShapeItem p s =
    o.elim (compFails s p.val m.seq c.num stCheckFail 4) fun n =>
      modComp s p.val m.seq c.num fun c => { c with out := c.bits, outCount := n, shaped := true } := by
  unfold doShapeItem
  refine (if_neg (by rw [hd]; decide)).trans ?_
  rw [show firstComp (pipeAt s p.val) _ = some (m, c) from h]
  refine (if_pos hk).trans ?_
  rw [ho]
  cases o <;> rfl

variable (hk : c.kind = 1) (hsd : shapeDesc s (pipeAt s p.val).desc c.shape = (a, sd, s1))
include hk hsd

theorem doShapeItem_of_shape_waits (ha : a = .wait) : doShapeItem p s = s := by
  subst ha
  unfold doShapeItem
  refine (if_neg (by rw [hd]; decide)).trans ?_
  rw [show firstComp (pipeAt s p.val) _ = some (m, c) from h]
  refine (if_neg (by rw [hk]; decide)).trans ?_
  rw [hsd]

theorem doShapeItem_of_shape_fails (hok : a ≠ .ok) (hw : a ≠ .wait) : doShapeItem p s = compFails s1 p.val m.seq c.num stTierFail 4 := by
  unfold doShapeItem
  refine (if_neg (by rw [hd]; decide)).trans ?_
  rw [show firstComp (pipeAt s p.val) _ = some (m, c) from h]
  refine (if_neg (by rw [hk]; decide)).trans ?_
  rw [hsd]
  cases a with
  | ok => exact absurd rfl hok
  | wait => exact absurd rfl hw
  | _ => rfl

theorem doShapeItem_of_frame (ha : a = .ok) (hf : c.frames = pic :: pics) : doShapeItem p s =
    if shapeOk sd = true then (shapeFrame pic sd).elim (compFails s1 p.val m.seq c.num stBadDescriptor 4) fun codes =>
      modComp s1 p.val m.seq c.num (addFrame (fieldAt sd 0x0F 1) codes)
    else compFails s1 p.val m.seq c.num stBadDescriptor 4 := by
  subst ha
  unfold doShapeItem
  refine (if_neg (by rw [hd]; decide)).trans ?_
  rw [show firstComp (pipeAt s p.val) _ = some (m, c) from h]
  refine (if_neg (by rw [hk]; decide)).trans ?_
  rw [hsd, hf]
  dsimp only
  cases shapeOk sd with
  | false => rfl
  | true => cases shapeFrame pic sd <;> rfl

end

/-- Settles O57: each stage by the oldest item that waits and how its reads end; the best pair by induction on the pairs. -/
theorem samplesDecodeAndShape : Obligations.SamplesDecodeAndShape := by
  refine ⟨⟨?_, ?_, fun s vs => ?_⟩, ?_, ?_, ?_⟩
  · intro s p oldest
    rw [exec_sampleAdmit]
    refine ⟨fun h => by rw [doSampleAdmit_of_none h], fun m h => ?_⟩
    intro gone
    refine ⟨fun a ha hlt => ?_, fun hd hg => ?_, fun hd hg => ?_⟩
    · rw [doSampleAdmit_of_early h fun hd => Nat.not_le.mpr hlt (hd a ha)]
    · rw [doSampleAdmit_of_gone h hd hg]
    · rw [doSampleAdmit_of_due h hd hg]
      rfl
  · intro s p x waiting
    rw [exec_componentAdmit]
    exact ⟨fun h => by rw [doComponentAdmit_of_none h], fun m c h => congrArg (fun t => Host.Outcome.next (commit s t)) (doComponentAdmit_of_some h)⟩
  · have h := bestOf_bestPair s vs
    exact ⟨fun hb => by rw [hb] at h; exact h, fun v hb => by rw [hb] at h; exact h⟩
  · intro s v ctx at_ s1
    refine ⟨fun h r => by rw [exec_frameDecodeDone, doFrameDecodeDone_of_no_ctx h],
      fun vc r h hp => by rw [exec_frameDecodeDone, doFrameDecodeDone_of_no_pipe h hp], fun vc p h hp => ?_⟩
    intro x sample
    refine ⟨fun hm r => by rw [exec_frameDecodeDone, doFrameDecodeDone_of_no_sample h hp hm],
      fun m r hm hc => by rw [exec_frameDecodeDone, doFrameDecodeDone_of_no_comp h hp hm hc], fun m c hm hc => ⟨?_, ?_, fun pic => ⟨fun hbad => ?_, fun hpic hf => ?_⟩⟩⟩
    · rw [exec_frameDecodeDone, doFrameDecodeDone_of_damaged h hp hm hc]
      rfl
    · rw [exec_frameDecodeDone, doFrameDecodeDone_of_refused h hp hm hc]
      rfl
    · rw [exec_frameDecodeDone, doFrameDecodeDone_of_bad_picture h hp hm hc hbad]
    · rw [exec_frameDecodeDone, doFrameDecodeDone_of_picture h hp hm hc hpic hf]
      intro t k st late t2 keep
      refine ⟨fun hlt => ?_, fun hle hlast => ?_, fun hle hmore => ?_⟩
      · exact congrArg (fun t => Host.Outcome.next (commit s t)) (if_pos hlt)
      · exact congrArg (fun t => Host.Outcome.next (commit s t)) ((if_neg (Nat.not_lt.mpr hle)).trans (if_pos hlast))
      · exact congrArg (fun t => Host.Outcome.next (commit s t)) ((if_neg (Nat.not_lt.mpr hle)).trans (if_neg (Nat.not_le.mpr hmore)))
  · intro s p d x waiting
    rw [exec_textTokenize]
    refine ⟨fun h => by rw [doTextTokenize_of_none h], fun m c h hd => ?_⟩
    intro dict
    refine ⟨fun hno => by rw [doTextTokenize_of_no_dict h hd hno], fun k hk hff => ⟨fun hp => by rw [doTextTokenize_of_no_place h hd hk hff hp],
      fun tile off a sd s1 hp hsd => ?_⟩⟩
    rw [doTextTokenize_of_place h hd hk hff hp hsd]
    refine ⟨fun ha => by rw [ha]; rfl, fun hok hw => by rw [textShaped_of_not_ok hok hw], fun ha hbad => by rw [ha, textShaped_of_bad hbad],
      fun a2 arr s2 ha hok hr => ?_⟩
    rw [ha, textShaped_of_read hok hr]
    exact ⟨fun hw => by rw [hw]; rfl, fun hne hw => by rw [dictRead_of_not_ok hne hw], fun h2 => by rw [h2]; rfl⟩
  · intro s p x waiting
    rw [exec_shapeItem]
    refine ⟨fun h => by rw [doShapeItem_of_none h], fun m c hd h => ⟨fun hk hraw => by rw [doShapeItem_of_raw hd h hk hraw]; rfl,
      fun n hk hraw => by rw [doShapeItem_of_raw hd h hk hraw]; rfl, fun a sd s1 hk hsd => ⟨fun ha => by rw [doShapeItem_of_shape_waits hd h hk hsd ha],
        fun hok hw => by rw [doShapeItem_of_shape_fails hd h hk hsd hok hw], fun pic pics ha hf => ?_⟩⟩⟩
    rw [doShapeItem_of_frame hd h hk hsd ha hf]
    refine ⟨fun hbad => ?_, fun codes hok hcodes => by rw [if_pos hok, hcodes]; rfl⟩
    by_cases hok : shapeOk sd = true
    · rw [if_pos hok, hbad.resolve_left (by rw [hok]; decide)]
      rfl
    · rw [if_neg hok]

end Sys2Proof.Machine
end

section
/-! PROOFS. Slots are ready, taken and given, and lockets are written. -/

namespace Sys2Proof.Machine
open Sys2Proof

variable {s s1 s2 s3 : State} {p : PipeId} {m : Sample} {st : Status} {stage i : Nat} {a : Acc}

/-! ### Ready slots -/

/-- How a failed sample's slot ends by how its write ends. -/
theorem failSlot_eq (s : State) (p : Nat) (x : Pipe) (m : Sample) (i : Nat) (st : Status) (stage : Nat) {w : Acc × State}
    (h : writeMem s .device (slotAddr x.desc i) (failedSlot s m st) = w) :
    failSlot s p x m i st stage = if w.1 = .wait then stillWaits s w.2 else readySlot w.2 p m i st stage none := by
  rw [failSlot, h]
  obtain ⟨a, t⟩ := w
  cases a with
  | wait => exact (if_pos rfl).symm
  | ok => exact (if_neg nofun).symm
  | fail st => exact (if_neg nofun).symm
  | bounds => exact (if_neg nofun).symm
  | replay => exact (if_neg nofun).symm

theorem free_of_nextFree {x : Pipe} (h : nextFree x = some i) : i < pdSlots x.desc ∧ ∀ u ∈ x.slots, u.index ≠ i := by
  have hfree := List.find?_some h
  obtain ⟨k, hk, rfl⟩ := List.mem_map.mp (List.mem_of_find?_eq_some h)
  refine ⟨Nat.mod_lt _ (lt_of_le_of_lt (Nat.zero_le k) (lt_of_lt_of_le (List.mem_range.mp hk) (Nat.min_le_left ..))), ?_⟩
  simpa using hfree

@[simp] theorem pipeAt_pipeErr (s : State) (p n : Nat) (st : Status) (stage k : Nat) : pipeAt (pipeErr s p n st stage) k = pipeAt s k := by
  unfold pipeErr
  extract_lets r
  split
  · exact pipeAt_regOr ..
  · exact pipeAt_regSet ..

/-- What a ready slot adds to its pipeline. -/
theorem pipeAt_readySlot (s : State) (p : Nat) (m : Sample) (i : Nat) (st : Status) (stage : Nat) (due : Option LocketDue) :
    ∃ samples slotNext locketNext locketAt, pipeAt (readySlot s p m i st stage due) p = { pipeAt s p with
      samples := samples, ready := (pipeAt s p).ready ++ [i], slots := (pipeAt s p).slots ++ [⟨i, false, due.isSome, false⟩], slotNext := slotNext
      locketDue := (pipeAt s p).locketDue ++ due.toList, locketNext := locketNext, locketAt := locketAt } := by
  unfold readySlot
  extract_lets t u v w
  have hw : pipeAt (if isSuccess st = true then v else if m.logged = true then w else pipeErr w p m.entry st stage) p = pipeAt u p := by
    split
    · exact pipeAt_regAddWrap ..
    · split
      · exact (pipeAt_regAddSat ..).trans (pipeAt_regAddWrap ..)
      · exact (pipeAt_pipeErr ..).trans ((pipeAt_regAddSat ..).trans (pipeAt_regAddWrap ..))
  rw [hw, show pipeAt u p = _ from pipeAt_modPipe .., if_pos rfl]
  exact ⟨_, _, _, _, rfl⟩

/-! ### SLOT_READY -/

/-- The oldest sample that has ended, with its end. -/
def endedSample (x : Pipe) : Option (Sample × Status × Nat) := x.samples.findSome? fun m => (sampleEnd m).map fun e => (m, e)

/-- The locket that a sample which ended well owes, and the bytes of its slot. -/
def slotDue (s : State) (x : Pipe) (m : Sample) (st : Status) (i : Nat) : Option LocketDue :=
  if m.locket.isSome then none else planLocket s x m (slotFor s x m st 0) i

def dueBytes (s : State) (x : Pipe) (m : Sample) (st : Status) (i : Nat) : Bytes :=
  slotFor s x m st (match slotDue s x m st i with | some d => d.index | none => 0xFFFFFFFF)

/-- How a slot goes on once it has been written. -/
def slotWritten (s0 : State) (p : PipeId) (x : Pipe) (m : Sample) (i : Nat) (st : Status) (stage : Nat) (due : Option LocketDue) : Acc × State → State
  | (.wait, s1) => stillWaits s0 s1
  | (.ok, s) => readySlot (if pdLocketWr x.desc && due.isNone then regOr s (pipeReg p.val) 16 else s) p.val m i st stage due
  | _ => failSlot s0 p.val x m i stTierFail 5

theorem slotWritten_of_not_ok {x : Pipe} {due : Option LocketDue} (hok : a ≠ .ok) (hw : a ≠ .wait) :
    slotWritten s p x m i st stage due (a, s1) = failSlot s p.val x m i stTierFail 5 := by
  cases a with
  | ok => exact absurd rfl hok
  | wait => exact absurd rfl hw
  | _ => rfl

theorem doSlotReady_of_none (h : (pipeAt s p.val).st ≠ .opened ∨ endedSample (pipeAt s p.val) = none ∨ nextFree (pipeAt s p.val) = none) :
    doSlotReady p s = s := by
  unfold doSlotReady
  extract_lets x
  split
  · next m st stage i hst hm hi =>
    rcases h with h | h | h
    · exact absurd hst h
    · exact nomatch hm.symm.trans h
    · exact nomatch hi.symm.trans h
  · rfl

section
variable (hst : (pipeAt s p.val).st = .opened) (hm : endedSample (pipeAt s p.val) = some (m, st, stage)) (hi : nextFree (pipeAt s p.val) = some i)
include hst hm hi

theorem doSlotReady_of_failed (h : isSuccess st = false) : doSlotReady p s = failSlot s p.val (pipeAt s p.val) m i st stage := by
  unfold endedSample at hm
  unfold doSlotReady
  extract_lets x
  rw [show x.st = .opened from hst, show x.samples.findSome? _ = some (m, st, stage) from hm, show nextFree x = some i from hi]
  exact if_pos (by rw [h]; rfl)

theorem doSlotReady_of_ended {w : Acc × State} (h : isSuccess st = true)
    (hw : writeMem s .device (slotAddr (pipeAt s p.val).desc i) (dueBytes s (pipeAt s p.val) m st i) = w) :
    doSlotReady p s = if pdSlotLen (pipeAt s p.val).desc < (dueBytes s (pipeAt s p.val) m st i).length
      then failSlot s p.val (pipeAt s p.val) m i stNoResource 5
      else slotWritten s p (pipeAt s p.val) m i st stage (slotDue s (pipeAt s p.val) m st i) w := by
  unfold endedSample at hm
  unfold doSlotReady
  extract_lets x
  rw [show x.st = .opened from hst, show x.samples.findSome? _ = some (m, st, stage) from hm, show nextFree x = some i from hi]
  refine (if_neg (by rw [h]; decide)).trans (if_congr Iff.rfl rfl ?_)
  change (match writeMem s .device (slotAddr x.desc i) (dueBytes s x m st i) with
    | (.wait, s1) => _
    | (.ok, s) => _
    | _ => _) = _
  rw [show writeMem s .device (slotAddr x.desc i) (dueBytes s x m st i) = w from hw]
  obtain ⟨a, t⟩ := w
  cases a with
  | ok => rfl
  | wait => rfl
  | _ => rfl

end

/-! ### LOCKET_WRITE -/

/-- A locket that is left out. -/
def locketLeft (t : State) (p : PipeId) (d : LocketDue) : State :=
  pipeErr (modPipe t p.val fun x => locketRead x d.slot) p.val d.entry stTierFail 5

/-- A locket and its index entry that have been written. -/
def locketDone (s : State) (p : PipeId) (x : Pipe) (d : LocketDue) (k : Nat) (nan : Bool) : State :=
  let t := codecDone (modPipe s p.val fun x => locketRead x d.slot) (bc0 (pdLocket x.desc)) k nan
  if regGet t ⟨.ingLockets, 0, p.val⟩ = d.index then regSet t ⟨.ingLockets, 0, p.val⟩ (d.index + 1) else t

/-- How a locket goes on by how its writes end. -/
def locketStored (s0 : State) (p : PipeId) (x : Pipe) (d : LocketDue) (k : Nat) (nan : Bool) : Acc × State → State
  | (.wait, s1) => stillWaits s0 s1
  | (.ok, s) => locketDone s p x d k nan
  | (_, s) => locketLeft s p d

theorem locketStored_of_not_ok {x : Pipe} {d : LocketDue} {k : Nat} {nan : Bool} (hok : a ≠ .ok) (hw : a ≠ .wait) :
    locketStored s p x d k nan (a, s1) = locketLeft s1 p d := by
  cases a with
  | ok => exact absurd rfl hok
  | wait => exact absurd rfl hw
  | _ => rfl

section
variable {d : LocketDue} {ds : List LocketDue} {slot : Bytes}

theorem doLocketWrite_of_none (h : (pipeAt s p.val).locketDue = []) : doLocketWrite p s = s := by
  unfold doLocketWrite
  extract_lets x
  rw [show x.locketDue = [] from h]

variable (h : (pipeAt s p.val).locketDue = d :: ds)
  (hr : readMem s .device (slotAddr (pipeAt s p.val).desc d.slot) (maxN (d.runs.map fun r => r.2.2.1 + r.2.2.2)) = (a, slot, s1))
include h hr

theorem doLocketWrite_of_waits (ha : a = .wait) : doLocketWrite p s = s := by
  subst ha
  unfold doLocketWrite
  extract_lets x
  rw [show x.locketDue = d :: ds from h]
  dsimp only
  rw [show readMem s .device (slotAddr x.desc d.slot) (maxN (d.runs.map fun r => r.2.2.1 + r.2.2.2)) = (.wait, slot, s1) from hr]

theorem doLocketWrite_of_fails (hok : a ≠ .ok) (hw : a ≠ .wait) : doLocketWrite p s = locketLeft s1 p d := by
  unfold doLocketWrite
  extract_lets x
  rw [show x.locketDue = d :: ds from h]
  dsimp only
  rw [show readMem s .device (slotAddr x.desc d.slot) (maxN (d.runs.map fun r => r.2.2.1 + r.2.2.2)) = (a, slot, s1) from hr]
  generalize locketBytes (pdRate x.desc) slot d.runs = r
  obtain ⟨b, k, nan⟩ := r
  cases a with
  | ok => exact absurd rfl hok
  | wait => exact absurd rfl hw
  | _ => rfl

variable {b : Bytes} {k : Nat} {nan : Bool} {a2 : Acc} (ha : a = .ok) (hb : locketBytes (pdRate (pipeAt s p.val).desc) slot d.runs = (b, k, nan))
  (hw : writeMem s1 .device (pdLocket (pipeAt s p.val).desc + d.off) b 3 = (a2, s2))
include ha hb hw

theorem doLocketWrite_of_not_written (hne : a2 ≠ .ok) : doLocketWrite p s = locketStored s p (pipeAt s p.val) d k nan (a2, s2) := by
  subst ha
  unfold doLocketWrite
  extract_lets x
  rw [show x.locketDue = d :: ds from h]
  dsimp only
  rw [show readMem s .device (slotAddr x.desc d.slot) (maxN (d.runs.map fun r => r.2.2.1 + r.2.2.2)) = (.ok, slot, s1) from hr]
  dsimp only
  rw [show locketBytes (pdRate x.desc) slot d.runs = (b, k, nan) from hb]
  dsimp only
  rw [if_neg (by decide), show writeMem s1 .device (pdLocket x.desc + d.off) b 3 = (a2, s2) from hw]
  cases a2 with
  | ok => exact absurd rfl hne
  | wait => rfl
  | _ => rfl

theorem doLocketWrite_of_written {a3 : Acc} (h2 : a2 = .ok) (hi : writeMem s2 .device (pdLocket (pipeAt s p.val).desc + 16 * d.index)
    (slot.take 8 ++ leBytes 4 (d.off / 2048) ++ leBytes 4 b.length) 3 = (a3, s3)) :
    doLocketWrite p s = locketStored s p (pipeAt s p.val) d k nan (a3, s3) := by
  subst ha h2
  unfold doLocketWrite
  extract_lets x
  rw [show x.locketDue = d :: ds from h]
  dsimp only
  rw [show readMem s .device (slotAddr x.desc d.slot) (maxN (d.runs.map fun r => r.2.2.1 + r.2.2.2)) = (.ok, slot, s1) from hr]
  dsimp only
  rw [show locketBytes (pdRate x.desc) slot d.runs = (b, k, nan) from hb]
  dsimp only
  rw [if_neg (by decide), show writeMem s1 .device (pdLocket x.desc + d.off) b 3 = (.ok, s2) from hw]
  dsimp only
  rw [show writeMem s2 .device (pdLocket x.desc + 16 * d.index) (slot.take 8 ++ leBytes 4 (d.off / 2048) ++ leBytes 4 b.length) 3 = (a3, s3) from hi]
  cases a3 with
  | ok => rfl
  | wait => rfl
  | _ => rfl

end

/-! ### INGEST_TAKE and INGEST_GIVE -/

section
variable {t : TileId} {n : Nat} (h : atWord s (liveTile s t.toNat) 14 = true)
include h

theorem doIngestTake_of_no_pipe (hp : takePipe s (liveTile s t.toNat) = none) :
    doIngestTake t s = newtFault s (liveTile s t.toNat) 0x09 0 false := by
  unfold doIngestTake
  refine (if_neg (by rw [h]; decide)).trans ?_
  rw [hp]

variable (hp : takePipe s (liveTile s t.toNat) = some n)
include hp

theorem doIngestTake_of_none_ready (hr : (pipeAt s n).ready = []) : doIngestTake t s = parkAt s (liveTile s t.toNat) .ingest := by
  unfold doIngestTake
  refine (if_neg (by rw [h]; decide)).trans ?_
  rw [hp]
  dsimp only
  rw [hr]

theorem doIngestTake_of_ready {rest : List Nat} (hr : (pipeAt s n).ready = i :: rest) : doIngestTake t s =
    modTile (modPipe s n fun x => { x with ready := rest, slots := x.slots.map fun k => if k.index = i then { k with taken := true } else k })
      (liveTile s t.toNat) fun x => libReturn (setG (setG x 6 (BitVec.ofNat 64 (slotAddr (pipeAt s n).desc i))) 7 (BitVec.ofNat 64 i)) := by
  unfold doIngestTake
  refine (if_neg (by rw [h]; decide)).trans ?_
  rw [hp]
  dsimp only
  rw [hr]

end

/-- A slot that a newt may give back. -/
theorem any_given_iff (l : List SlotUse) (i : Nat) : (l.any fun k => k.index == i && k.taken && !k.given) = true
    ↔ ∃ k ∈ l, k.index = i ∧ k.taken = true ∧ k.given = false := by
  simp [and_assoc]

theorem doIngestGive_of_word {t : TileId} (h : atWord s (liveTile s t.toNat) 15 = true) : doIngestGive t s =
    let u := liveTile s t.toNat
    let n := gNum s u 4
    let i := gNum s u 5
    let x := pipeAt s n
    if 32 ≤ n ∨ (tileAt s u).part ≠ some x.part then newtFault s u 0x09 0 false
    else if (!(x.slots.any fun k => k.index == i && k.taken && !k.given)) = true then newtFault s u 0x08 0 false
    else modTile (modPipe s n fun y => { y with
        slots := (x.slots.filter fun k => !(k.index == i && !k.locketOwed)).map fun k => if k.index = i then { k with given := true } else k })
        u libReturn := by
  unfold doIngestGive
  exact if_neg (by rw [h]; decide)

/-- Settles O58: a slot and a locket by how their accesses end, a newt by the pipeline that it names. -/
theorem slotsAreReadyTakenAndGiven : Obligations.SlotsAreReadyTakenAndGiven := by
  refine ⟨⟨?_, fun s p x m i stage st => failSlot_eq s p x m i st stage rfl, fun x i h => free_of_nextFree h, fun s p m i stage st due => ?_⟩, ?_, ?_, ?_⟩
  · intro s p x ended
    rw [exec_slotReady]
    refine ⟨fun h => by rw [doSlotReady_of_none h], fun m st stage i hst hm hi => ⟨fun h => by rw [doSlotReady_of_failed hst hm hi h], fun h => ?_⟩⟩
    intro due b
    refine ⟨fun hlen => ?_, fun a s1 hlen hw => ?_⟩
    · rw [doSlotReady_of_ended hst hm hi h rfl]
      exact congrArg (fun t => Host.Outcome.next (commit s t)) (if_pos hlen)
    · rw [doSlotReady_of_ended hst hm hi h hw,
        if_neg (show ¬ pdSlotLen (pipeAt s p.val).desc < (dueBytes s (pipeAt s p.val) m st i).length from Nat.not_lt.mpr hlen)]
      refine ⟨fun ha => by rw [ha]; rfl, fun ha => ?_, fun hok hwait => by rw [slotWritten_of_not_ok hok hwait]⟩
      rw [ha]
      refine congrArg (fun t => Host.Outcome.next (commit s (readySlot t p.val m i st stage due))) (if_congr ?_ rfl rfl)
      rw [Bool.and_eq_true, Option.isNone_iff_eq_none]
      rfl
  · obtain ⟨_, _, _, _, h⟩ := pipeAt_readySlot s p m i st stage due
    rw [h]
    exact ⟨rfl, rfl, rfl⟩
  · intro s p x
    rw [exec_locketWrite]
    refine ⟨fun h => by rw [doLocketWrite_of_none h], fun d ds a slot s1 h hr => ?_⟩
    intro left
    refine ⟨fun ha => by rw [doLocketWrite_of_waits h hr ha], fun hok hw => by rw [doLocketWrite_of_fails h hr hok hw]; rfl,
      fun b k nan a2 s2 ha hb hw => ⟨fun h2 => ?_, fun hok hwait => ?_, fun a3 s3 h2 hi => ?_⟩⟩
    · rw [doLocketWrite_of_not_written h hr ha hb hw (by rw [h2]; nofun), h2]
      rfl
    · rw [doLocketWrite_of_not_written h hr ha hb hw hok, locketStored_of_not_ok hok hwait]
      rfl
    · rw [doLocketWrite_of_written h hr ha hb hw h2 hi]
      intro t
      exact ⟨fun h3 => by rw [h3]; rfl, fun hok hwait => by rw [locketStored_of_not_ok hok hwait]; rfl, fun h3 => by rw [h3]; rfl⟩
  · intro s t l
    rw [exec_ingestTake]
    refine ⟨fun h => ?_, fun h hp => by rw [doIngestTake_of_no_pipe h hp], fun n h hp =>
      ⟨fun hr => by rw [doIngestTake_of_none_ready h hp hr], fun i rest hr => by rw [doIngestTake_of_ready h hp hr]⟩⟩
    exact congrArg (fun t => Host.Outcome.next (commit s t)) (if_pos (by rw [show atWord s (liveTile s t.toNat) 14 = false from h]; rfl))
  · intro s t l n i x
    rw [exec_ingestGive]
    refine ⟨fun h => ?_, fun h hbad => ?_, fun h hn hp hno => ?_, fun h hn hp hsome => ?_⟩
    · exact congrArg (fun t => Host.Outcome.next (commit s t)) (if_pos (by rw [show atWord s (liveTile s t.toNat) 15 = false from h]; rfl))
    · rw [doIngestGive_of_word h]
      exact congrArg (fun t => Host.Outcome.next (commit s t)) (if_pos hbad)
    · rw [doIngestGive_of_word h]
      refine congrArg (fun t => Host.Outcome.next (commit s t)) ((if_neg ?_).trans (if_pos ?_))
      · rintro (h | h)
        · exact Nat.not_le.mpr hn h
        · exact h hp
      · rw [Bool.not_eq_true', Bool.eq_false_iff]
        refine mt (any_given_iff ..).mp ?_
        rintro ⟨k, hk, hki, ht, hg⟩
        rcases hno k hk hki with h | h
        · exact Bool.false_ne_true (h.symm.trans ht)
        · exact Bool.false_ne_true (hg.symm.trans h)
    · rw [doIngestGive_of_word h]
      refine congrArg (fun t => Host.Outcome.next (commit s t)) ((if_neg ?_).trans (if_neg ?_))
      · rintro (h | h)
        · exact Nat.not_le.mpr hn h
        · exact h hp
      · rw [Bool.not_eq_true', Bool.not_eq_false]
        exact (any_given_iff ..).mpr hsome

end Sys2Proof.Machine
end
